-- ==== Sys2Proof/Word.lean ====
section
/-!
DEFINITION. Word.lean: the machine words of the Vydjal X8 (R1, R6).
-/
namespace Sys2Proof

/-- A scalar register, R6. -/
abbrev Word := BitVec 64
/-- A byte of memory, R3. -/
abbrev Byte := BitVec 8
/-- A vector register or an operand-queue entry: 128 bytes, R183. -/
abbrev Vec := BitVec 1024
/-- A predicate register: one bit per byte lane, R184. -/
abbrev Pred := BitVec 128

end Sys2Proof
end

