-- ==== Sys2Proof/Syntax.lean ====
section
/-!
DEFINITION. Syntax.lean: the instructions and steps of the Vydjal X8, one constructor per row of the opcode table.
The first part of `Instr` holds the instructions that streams execute (R116 to R243); the second part holds the steps
of the machine's other agents (spec/95_what_each_step_holds.md), whose arguments name the agent that acts and, for an
input from outside the device, the data that comes in.
-/
namespace Sys2Proof

/-- A logical core of a device of the pod (R10). -/
structure CoreId where
  dev : Nat
  field : Nat
  core : Nat
  deriving DecidableEq, Repr, Inhabited

/-- A context of a core (R14). -/
structure CtxId where
  core : CoreId
  ctx : Nat
  deriving DecidableEq, Repr, Inhabited

/-- A stream slot of a cluster of a core (R10): slots 0 and 1 main, 2 and 3 tail. -/
structure SlotId where
  core : CoreId
  cl : Nat
  sl : Nat
  deriving DecidableEq, Repr, Inhabited

/-- Element types (R125, TY). -/
inductive VTy where
  | i8 | i16 | i32 | i64 | f16 | bf16 | f32
  deriving DecidableEq, Repr, Inhabited

/-- Ordering scopes (R68, R125). -/
inductive Scope where
  | cluster | core | frame | quad | field | device | host | group | pod | system
  deriving DecidableEq, Repr, Inhabited

/-- Memory orders (R125, ORD). -/
inductive Ord where
  | rlx | acq | rel | ar
  deriving DecidableEq, Repr, Inhabited

/-- Kinds of a fence (R175). -/
inductive FenceKind where
  | acq | rel | ar
  deriving DecidableEq, Repr, Inhabited

/-- Rounding modes (R54). -/
inductive RMode where
  | rne | rtz | rup | rdn
  deriving DecidableEq, Repr, Inhabited

/-- A firmware write of a slot register SLOTn: the slot and the fields QID and PRIO that it writes (R283). -/
structure SlotWrite where
  slot : Nat
  qid : Nat
  prio : Nat
  deriving DecidableEq, Repr, Inhabited

/-- The engines of a core (R25). -/
inductive Eng where
  | me | ce | cs
  deriving DecidableEq, Repr, Inhabited

/-- The queue of a semaphore instruction (R125, ENG). -/
inductive SemQ where
  | stream | me | ce | cs
  deriving DecidableEq, Repr, Inhabited

/-- Barrier levels (R231). -/
inductive BarLevel where
  | core | quad | field | device | pod
  deriving DecidableEq, Repr, Inhabited

/-- Vector comparisons (R191). -/
inductive CmpOp where
  | eq | ne | lt | le | ltu | leu
  deriving DecidableEq, Repr, Inhabited

/-- Operations of AMO (R176). -/
inductive AmoOp where
  | add | and | or | xor | smin | smax | umin | umax
  deriving DecidableEq, Repr, Inhabited

/-- The third address operand of a strided or indexed access (R125, AM 0b10 and 0b11). -/
inductive StrideIdx where
  | strided (s : BitVec 5)
  | indexed (v : BitVec 6)
  deriving DecidableEq, Repr, Inhabited

/-- Host registers in BAR0 and firmware registers that have no behaviour of their own (R7; REGISTER_WRITE). -/
inductive PlainReg where
  | flbase | flctl | flrptr | savebase | savenum | fctlLock | wearCorr (f : Nat) | nonce (k : Nat)
  | fwwake | pend (w : Nat) | qtbase
  deriving DecidableEq, Repr, Inhabited

/-- The instructions and steps, one constructor per row of spec/opcode_table.json. -/
inductive Instr where
  -- Scalar arithmetic, R138 and R139
  | add (i32 : Bool) (d a b : BitVec 5)
  | sub (i32 : Bool) (d a b : BitVec 5)
  | and (d a b : BitVec 5)
  | or (d a b : BitVec 5)
  | xor (d a b : BitVec 5)
  | andn (d a b : BitVec 5)
  | sll (i32 : Bool) (d a b : BitVec 5)
  | srl (i32 : Bool) (d a b : BitVec 5)
  | sra (i32 : Bool) (d a b : BitVec 5)
  | adds (i32 : Bool) (d a b : BitVec 5)
  | subs (i32 : Bool) (d a b : BitVec 5)
  | mul (i32 : Bool) (d a b : BitVec 5)
  | mulh (d a b : BitVec 5)
  | mulhu (d a b : BitVec 5)
  | div (i32 : Bool) (d a b : BitVec 5)
  | divu (i32 : Bool) (d a b : BitVec 5)
  | rem (i32 : Bool) (d a b : BitVec 5)
  | remu (i32 : Bool) (d a b : BitVec 5)
  -- Immediate forms, R140
  | addi (d a : BitVec 5) (imm : BitVec 12)
  | andi (d a : BitVec 5) (imm : BitVec 12)
  | ori (d a : BitVec 5) (imm : BitVec 12)
  | xori (d a : BitVec 5) (imm : BitVec 12)
  | slli (d a : BitVec 5) (sh : BitVec 6)
  | srli (d a : BitVec 5) (sh : BitVec 6)
  | srai (d a : BitVec 5) (sh : BitVec 6)
  | addiI32 (d a : BitVec 5) (imm : BitVec 12)
  | lui (d : BitVec 5) (imm : BitVec 19)
  | apc (d : BitVec 5) (imm : BitVec 19)
  -- BITS, CMP and CSEL, R141
  | clz (d a : BitVec 5)
  | ctz (d a : BitVec 5)
  | cpop (d a : BitVec 5)
  | min (d a b : BitVec 5)
  | max (d a b : BitVec 5)
  | minu (d a b : BitVec 5)
  | maxu (d a b : BitVec 5)
  | sextb (d a : BitVec 5)
  | sexth (d a : BitVec 5)
  | sextw (d a : BitVec 5)
  | zextw (d a : BitVec 5)
  | slt (d a b : BitVec 5)
  | sltu (d a b : BitVec 5)
  | seq (d a b : BitVec 5)
  | sne (d a b : BitVec 5)
  | csel (d c a b : BitVec 5)
  -- Compact forms, R126
  | addCompact (d b : BitVec 5)
  | subCompact (d b : BitVec 5)
  | andCompact (d b : BitVec 5)
  | mvCompact (d b : BitVec 5)
  | addiCompact (d : BitVec 5) (imm : BitVec 7)
  | liCompact (d : BitVec 5) (imm : BitVec 7)
  | ldDCompact (d : BitVec 5) (bs : BitVec 2) (off : BitVec 5)
  | stDCompact (d : BitVec 5) (bs : BitVec 2) (off : BitVec 5)
  | slliCompact (d : BitVec 5) (sh : BitVec 6)
  | sraiCompact (d : BitVec 5) (sh : BitVec 6)
  | vmvCompact (vd vx : BitVec 6)
  -- Branches, calls, loops, tails, fork and join, R142 to R156
  | beq (a b : BitVec 5) (off : BitVec 12)
  | bne (a b : BitVec 5) (off : BitVec 12)
  | blt (a b : BitVec 5) (off : BitVec 12)
  | bge (a b : BitVec 5) (off : BitVec 12)
  | bltu (a b : BitVec 5) (off : BitVec 12)
  | bgeu (a b : BitVec 5) (off : BitVec 12)
  | jmp (off : BitVec 22)
  | call (off : BitVec 22)
  | jr (a : BitVec 5) (off : BitVec 12)
  | callr (a : BitVec 5) (off : BitVec 12)
  | ret
  | relc
  | tjoin
  | loopb (lc : BitVec 2) (off : BitVec 12)
  | loopi (lc : BitVec 2) (b : BitVec 5) (off : BitVec 12)
  | fork (off : BitVec 12)
  | join (mask : BitVec 4) (off : BitVec 12)
  -- MARK, FENCE and major 0x31
  | mark
  | fence (kind : FenceKind) (scope : Scope)
  | cset (mask : BitVec 8)
  | csetClr (mask : BitVec 8)
  | cwait (mask : BitVec 8)
  | halt
  | trap (code : BitVec 10)
  | eret
  | waitt (a : BitVec 5)
  | yield
  -- Memory, R167 to R172
  | ld (sz : BitVec 2) (post : Bool) (off : BitVec 7) (base t : BitVec 5)
  | ldUnsigned (sz : BitVec 2) (post : Bool) (off : BitVec 7) (base t : BitVec 5)
  | st (sz : BitVec 2) (post : Bool) (off : BitVec 7) (base t : BitVec 5)
  | ldv (sz : BitVec 3) (post : Bool) (off : BitVec 7) (base : BitVec 5) (t : BitVec 6)
  | stv (sz : BitVec 3) (post : Bool) (off : BitVec 7) (base : BitVec 5) (t : BitVec 6)
  | ldvXw (post : Bool) (off : BitVec 7) (base : BitVec 5) (t : BitVec 6)
  | ldq (post : Bool) (off : BitVec 7) (base : BitVec 5) (q : BitVec 2)
  | pref (off : BitVec 7) (base : BitVec 5)
  | ldvSI (dbl : Bool) (x : StrideIdx) (base : BitVec 5) (t : BitVec 6)
  | stvSI (dbl : Bool) (x : StrideIdx) (base : BitVec 5) (t : BitVec 6)
  -- Atomics and groups, R176 to R181
  | amo (op : AmoOp) (dbl : Bool) (ord : Ord) (scope : Scope) (d v base : BitVec 5)
  | cas (dbl : Bool) (ord : Ord) (scope : Scope) (d v base : BitVec 5)
  | swap (dbl : Bool) (ord : Ord) (scope : Scope) (d v base : BitVec 5)
  | gacq (g : BitVec 12) (d : BitVec 5)
  | gseq (d : BitVec 5) (g : BitVec 12)
  | stg (sz : BitVec 3) (rel : Bool) (l : BitVec 2) (g : BitVec 12) (ofs v : BitVec 5)
  -- Vector, R188 to R195
  | vadd (ty : VTy) (pm : BitVec 3) (q : Bool) (vd vx vy : BitVec 6)
  | vsub (ty : VTy) (pm : BitVec 3) (q : Bool) (vd vx vy : BitVec 6)
  | vmul (ty : VTy) (pm : BitVec 3) (q : Bool) (vd vx vy : BitVec 6)
  | vfma (ty : VTy) (pm : BitVec 3) (q : Bool) (vd vx vy : BitVec 6)
  | vmin (ty : VTy) (pm : BitVec 3) (q : Bool) (vd vx vy : BitVec 6)
  | vmax (ty : VTy) (pm : BitVec 3) (q : Bool) (vd vx vy : BitVec 6)
  | vsll (ty : VTy) (pm : BitVec 3) (q : Bool) (vd vx vy : BitVec 6)
  | vsrl (ty : VTy) (pm : BitVec 3) (q : Bool) (vd vx vy : BitVec 6)
  | vsra (ty : VTy) (pm : BitVec 3) (q : Bool) (vd vx vy : BitVec 6)
  | vand (pm : BitVec 3) (q : Bool) (vd vx vy : BitVec 6)
  | vor (pm : BitVec 3) (q : Bool) (vd vx vy : BitVec 6)
  | vxor (pm : BitVec 3) (q : Bool) (vd vx vy : BitVec 6)
  | vandn (pm : BitVec 3) (q : Bool) (vd vx vy : BitVec 6)
  | vnot (pm : BitVec 3) (q : Bool) (vd vx : BitVec 6)
  | vcmp (cc : CmpOp) (ty : VTy) (pd : BitVec 4) (vx vy : BitVec 6)
  | vsel (pm : BitVec 3) (vd vx vy : BitVec 6)
  | vmv (vd vx : BitVec 6)
  | vperm (ty : VTy) (vd vx vy : BitVec 6)
  | vslideup (ty : VTy) (vd vx : BitVec 6) (y : BitVec 5)
  | vslidedn (ty : VTy) (vd vx : BitVec 6) (y : BitVec 5)
  | vbcast (ty : VTy) (vd : BitVec 6) (y : BitVec 5)
  | vext (ty : VTy) (d : BitVec 5) (vx : BitVec 6) (k : BitVec 7)
  | vcvt (ty : VTy) (dirFrom auto : Bool) (rm : RMode) (tab : Bool) (code : BitVec 4) (vd vx : BitVec 6)
  -- Long units and latches, R196 to R198
  | vdiv (ty : VTy) (l : BitVec 2) (vx vy : BitVec 6)
  | vsqrt (ty : VTy) (l : BitVec 2) (vx : BitVec 6)
  | vrcp (ty : VTy) (l : BitVec 2) (vx : BitVec 6)
  | vrsqrt (ty : VTy) (l : BitVec 2) (vx : BitVec 6)
  | vexp2 (ty : VTy) (l : BitVec 2) (vx : BitVec 6)
  | vlog2 (ty : VTy) (l : BitVec 2) (vx : BitVec 6)
  | vredsum (ty : VTy) (l : BitVec 2) (vx : BitVec 6)
  | vredmax (ty : VTy) (l : BitVec 2) (vx : BitVec 6)
  | vredmin (ty : VTy) (l : BitVec 2) (vx : BitVec 6)
  | movlVector (vd : BitVec 6) (l : BitVec 2)
  | movlScalar (d : BitVec 5) (l : BitVec 2)
  -- Predicates, R199
  | pand (pd px py : BitVec 4)
  | por (pd px py : BitVec 4)
  | pxor (pd px py : BitVec 4)
  | pandn (pd px py : BitVec 4)
  | pnot (pd px : BitVec 4)
  | pfirst (ty : VTy) (pd : BitVec 4) (y : BitVec 5)
  | pcnt (d : BitVec 5) (px : BitVec 4)
  -- Tile registers and compress, R200 to R202
  | twr (ty : VTy) (p : BitVec 2) (t : BitVec 1) (row : BitVec 5) (vx : BitVec 6)
  | trd (ty : VTy) (p : BitVec 2) (vd : BitVec 6) (t : BitVec 1) (col : BitVec 5)
  | vcmpr48 (ty : VTy) (vd vm vx : BitVec 6)
  | vcmpr48Lc (n : BitVec 2) (vd vm vx : BitVec 6)
  -- Matrix and copy engines, R207 to R218
  | mma (fo z : Bool) (ts : BitVec 2) (a b c : BitVec 5)
  | mmas (fo z : Bool) (ts : BitVec 2) (a b c : BitVec 5)
  | mzero (ts : BitVec 2)
  | mcvt (rm : RMode) (auto : Bool) (a : BitVec 5) (ts : BitVec 2)
  | mldacc (ts : BitVec 2) (a : BitVec 5)
  | mstacc (a : BitVec 5) (ts : BitVec 2)
  | mstat (l : BitVec 2) (ts : BitVec 2)
  | cpy (a : BitVec 5)
  | cpyx (a : BitVec 5)
  | gth (a : BitVec 5)
  | sct (a : BitVec 5)
  -- Semaphores, queue fence, collectives, barriers, R226 to R231
  | semsig (q : SemQ) (sem : BitVec 6) (n : BitVec 15)
  | semwait (q : SemQ) (sem : BitVec 6) (n : BitVec 15)
  | semset (sem : BitVec 6) (n : BitVec 15)
  | qfence (me ce cs : Bool)
  | coll (a : BitVec 5)
  | bar (level : BarLevel)
  -- Planner, statistics, format table, R232 to R238
  | qplan (d a : BitVec 5)
  | qrun (d a : BitVec 5)
  | qhint (d a : BitVec 5)
  | qpin (d : BitVec 5)
  | qunpin (d : BitVec 5)
  | qdrop (d : BitVec 5)
  | qstat (d a : BitVec 5)
  | statr (d a : BitVec 5)
  | statw (a d : BitVec 5) (mask : BitVec 10)
  | fmtld (a : BitVec 5)
  -- Control registers, save and restore, R239 to R243
  | csrr (d : BitVec 5) (n : BitVec 10)
  | csrw (n : BitVec 10) (a : BitVec 5)
  | csrs (n : BitVec 10) (a : BitVec 5)
  | csrc (n : BitVec 10) (a : BitVec 5)
  | psave (omitv : BitVec 4) (omits : Bool)
  | prest
  | rdtime (d : BitVec 5)
  -- Steps of the stream queues and of fetch
  | performLq (s : SlotId) (piece : Nat)
  | performSq (s : SlotId)
  | performPath (c : CoreId) (k : Nat)
  | performJoin (s : SlotId)
  | blockEntry (s : SlotId)
  | passStart (s : SlotId)
  | syncRejoin (x : CtxId)
  | preemptDiversion (s : SlotId)
  | vectorWriteLanding (s : SlotId) (k : Nat)
  | latchWriteLanding (s : SlotId) (l : BitVec 2)
  | bankRetentionEntry (s : SlotId) (b : BitVec 2)
  | bankWake (s : SlotId) (b : BitVec 2)
  | waittExpiry (s : SlotId)
  -- Dispatch, retirement and barriers
  | wgDispatch (dev : Nat) (launch : Nat)
  | wgRetire (x : CtxId)
  | barrierComplete (x : CtxId) (level : BarLevel)
  -- Engines
  | engineQueueEntry (s : SlotId)
  | followOnRelease (c : CoreId)
  | powerTokenTake (c : CoreId)
  | powerTokenPass (dev field pos : Nat)
  | mzeroPerform (c : CoreId)
  | mmaRowCommit (c : CoreId)
  | mcvtRowCommit (c : CoreId)
  | accRowTransfer (c : CoreId)
  | mstatPerform (c : CoreId)
  | ceRowMove (c : CoreId)
  | expandUnitWrite (c : CoreId)
  | cycleBoundExpiry (c : CoreId) (e : Eng)
  | semwaitBoundExpiry (c : CoreId) (e : Eng)
  | semsigEnginePerform (c : CoreId) (e : Eng)
  | semwaitEnginePerform (c : CoreId) (e : Eng)
  | qfenceRelease (c : CoreId)
  | commandMigration (c : CoreId) (pos : Nat) (target : CoreId)
  | migratedResultApply (c : CoreId)
  -- Collectives
  | collTransferEmit (c : CoreId)
  | chunkReceive (k : Nat)
  | reductionContribution (k : Nat)
  | reductionResultWrite (dev field slot : Nat)
  | chunkAck (k : Nat)
  | collComplete (c : CoreId)
  -- Groups
  | stgStamp (k : Nat)
  | groupDelivery (k : Nat)
  | groupApply (dev g : Nat)
  | groupGapTimeout (dev g : Nat)
  | groupLoad (dev : Nat)
  | groupJoin (dev : Nat)
  | groupLeave (dev : Nat)
  | groupResend (dev : Nat)
  -- Planner
  | planBreak (x : CtxId) (slot : Nat)
  | planComplete (x : CtxId) (slot : Nat)
  | shadowBankEntry (x : CtxId) (slot : Nat)
  -- Traps, save and restore
  | trapEntry (s : SlotId)
  | faultLogRecord (dev : Nat)
  | contextSave (x : CtxId)
  | contextRestore (dev image : Nat) (x : CtxId)
  | detLevelChange (s : SlotId)
  -- Host and command processor
  | hostMemoryWrite (dev pa : Nat) (bytes : List Byte)
  | doorbell (dev q : Nat) (data : Word)
  | doorbellRestart (dev q : Nat) (data : Word)
  | packetNop (dev slot : Nat)
  | packetLaunch (dev slot : Nat)
  | packetSetlevel (dev slot : Nat)
  | packetArm (dev slot : Nat)
  | packetWrite (dev slot : Nat)
  | readyPacketStart (dev k : Nat)
  | sigenDecrement (dev k : Nat)
  | armTargetDecrement (dev : Nat)
  | slotMap (dev slot qid prio : Nat)
  | slotUnmap (dev : Nat) (w : SlotWrite)
  | slotPreempt (dev slot : Nat)
  | fwPolicyTick (dev : Nat)
  | watchdogT1 (dev launch : Nat)
  | watchdogT2 (dev launch : Nat)
  | watchdogT3 (dev launch : Nat)
  | contextSkip (s : SlotId)
  | contextKill (s : SlotId)
  -- Translation
  | kttSetAbsent (s : SlotId)
  | kttSetPresent (s : SlotId)
  | kttMigrate (s : SlotId)
  | migrateLineCopy (dev asid : Nat)
  -- Firmware, fields, service
  | firmwareLoad (dev pa : Nat)
  | deviceReset (dev : Nat)
  | fieldReset (dev field : Nat)
  | fieldBringupStep (dev field : Nat) (failedCores lostGranules : List Nat)
  | bringupStepTimeout (dev field : Nat)
  | ilimSet (dev field amps : Nat)
  | tokenCountUpdate (dev field : Nat)
  | thermalThrottleSet (dev field : Nat) (temp : BitVec 16)
  | thermalThrottleClear (dev field : Nat) (temp : BitVec 16)
  | thermalTrip (dev field : Nat) (temp : BitVec 16)
  | spareName (dev : Nat) (data : Word)
  | spareCancel (dev : Nat) (data : Word)
  | advsvn (dev : Nat) (data : Word)
  | attestationRequest (dev : Nat) (data : Word)
  | attestationQuoteDone (dev : Nat)
  | registerWrite (dev : Nat) (r : PlainReg) (data : Word)
  | disciplineLockChange (dev : Nat) (locked : Bool)
  | wearMonitorSample (dev field : Nat) (margin eye : BitVec 16) (corrected : Nat)
  deriving DecidableEq, Repr, Inhabited

/-- The next step that the machine takes (R65): a stream's execute cursor, its access cursor, a step of another agent,
one cycle of a device's clock, the read of one granule of a record or of an engine's row (R71), an access by the firmware core's DMA
(R288), or the eviction of a cached line. -/
inductive Move where
  | run (s : SlotId)
  | access (s : SlotId)
  | event (i : Instr)
  | tick (dev : Nat)
  | recGranule (s : SlotId) (k : Nat)
  | engGranule (c : CoreId) (e : Eng) (g : Nat)
  | fwDma (dev pa : Nat) (bytes : List Byte)
  | evictGlc (c : CoreId) (line : Nat)
  | evictIcache (c : CoreId) (asid line : Nat)
  deriving DecidableEq, Repr, Inhabited

end Sys2Proof
end

