-- ==== Sys2Proof/WellFormed.lean ====
section
/-!
DEFINITION. WellFormed.lean: the operand checks of R117 that a constructor's operand types do not already make.
-/
namespace Sys2Proof

/-- The element size in bytes, R183. -/
def VTy.size : VTy → Nat
  | .i8 => 1 | .i16 => 2 | .i32 => 4 | .i64 => 8 | .f16 => 2 | .bf16 => 2 | .f32 => 4

/-- The element count N = 128 / s, R183. -/
def VTy.count (t : VTy) : Nat := 128 / t.size

/-- The float types, R183. -/
def VTy.isFloat : VTy → Bool
  | .f16 | .bf16 | .f32 => true
  | .i8 | .i16 | .i32 | .i64 => false

/-- Types of the long units, R196: vdiv takes types 2 to 6. -/
def VTy.isDivTy : VTy → Bool
  | .i8 | .i16 => false
  | .i32 | .i64 | .f16 | .bf16 | .f32 => true

/-- Types of TWR, TRD and VCMPR48, R201, R202: every type but i64. -/
def VTy.isTileTy : VTy → Bool
  | .i64 => false
  | .i8 | .i16 | .i32 | .f16 | .bf16 | .f32 => true

/-- The part P of TWR and TRD is below N / 32, R201. -/
def partOk (ty : VTy) (p : BitVec 2) : Bool := ty.isTileTy && decide (p.toNat < ty.count / 32)

/-- A load with post-increment whose data register is its base is reserved, R162. -/
def postOk (post : Bool) (base t : BitVec 5) : Bool := !(post && base == t)

/-- The format operand of VCVT, R193. -/
def vcvtFmtOk (tab : Bool) (code : BitVec 4) : Bool :=
  tab || (decide (1 ≤ code.toNat) && decide (code.toNat ≤ 10))

/-- Well-formedness: the combinations of operand codes that an instruction chapter assigns (R117). -/
def Instr.wf : Instr → Bool
  | .ld _ post _ base t => postOk post base t
  | .ldUnsigned sz post _ base t => postOk post base t && sz != 3#2
  | .ldv sz _ _ _ _ => decide (2 ≤ sz.toNat)
  | .stv sz _ _ _ _ => decide (2 ≤ sz.toNat)
  | .stg sz _ _ _ _ _ => decide (sz.toNat ≤ 5)
  | .vsll ty _ _ _ _ _ => !ty.isFloat
  | .vsrl ty _ _ _ _ _ => !ty.isFloat
  | .vsra ty _ _ _ _ _ => !ty.isFloat
  | .vcmp cc ty _ _ _ => match cc with
    | .ltu | .leu => !ty.isFloat
    | .eq | .ne | .lt | .le => true
  | .vext ty _ _ k => decide (k.toNat < ty.count)
  | .vcvt _ dirFrom auto _ tab code _ _ => !(dirFrom && auto) && vcvtFmtOk tab code
  | .vdiv ty _ _ _ => ty.isDivTy
  | .vsqrt ty _ _ => ty.isFloat
  | .vrcp ty _ _ => ty.isFloat
  | .vrsqrt ty _ _ => ty.isFloat
  | .vexp2 ty _ _ => ty.isFloat
  | .vlog2 ty _ _ => ty.isFloat
  | .twr ty p _ _ _ => partOk ty p
  | .trd ty p _ _ _ => partOk ty p
  | .vcmpr48 ty vd vm _ => ty.isTileTy && vd != vm
  | .vcmpr48Lc _ vd vm _ => vd != vm
  | .addCompact d b => !(d == 0#5 && b == 0#5)
  | .cset mask => mask != 0#8
  | .csetClr mask => mask != 0#8
  | .cwait mask => mask != 0#8
  | .mma _ _ ts _ _ _ => ts != 3#2
  | .mmas _ _ ts _ _ _ => ts != 3#2
  | .mzero ts => ts != 3#2
  | .mcvt _ _ _ ts => ts != 3#2
  | .mldacc ts _ => ts != 3#2
  | .mstacc _ ts => ts != 3#2
  | .mstat _ ts => ts != 3#2
  | .semsig _ _ n => n != 0#15
  | .semwait _ _ n => n != 0#15
  | .qfence me ce cs => (me && ce) || (me && cs) || (ce && cs)
  | .qplan d _ => d != 0#5
  | _ => true

end Sys2Proof
end

