-- ==== Sys2Proof/Decode.lean ====
section
/-!
DEFINITION. Decode.lean: parcels to instructions (R116 to R127), and the encoder from the same tables.
A parcel is 16 bits, a word 32 bits whose first parcel is its low half (R116). Every encoding that no chapter assigns is
refused (R117): `decodeWord` and `decodeParcel` answer none, and so does a well-formedness failure.
-/
namespace Sys2Proof

/-- The bits [lo + len − 1 : lo] of a word. -/
def fld (w : BitVec 32) (lo len : Nat) : BitVec len := w.extractLsb' lo len

/-- One bit of a word. -/
def fbit (w : BitVec 32) (i : Nat) : Bool := w.getLsbD i

/-- The bits [lo + len − 1 : lo] are zero: a reserved field (R117). -/
def rz (w : BitVec 32) (lo len : Nat) : Bool := w.extractLsb' lo len == 0#len

/-- An instruction when a condition on its fields holds. -/
def accept (c : Bool) (i : Instr) : Option Instr := if c then some i else none

/-! ### Operand codes -/

/-- TY, R125. -/
def VTy.bits : VTy → BitVec 3
  | .i8 => 0 | .i16 => 1 | .i32 => 2 | .i64 => 3 | .f16 => 4 | .bf16 => 5 | .f32 => 6
/-- TY, R125: code 7 is reserved. -/
def VTy.ofBits (b : BitVec 3) : Option VTy :=
  match b.toNat with
  | 0 => some .i8 | 1 => some .i16 | 2 => some .i32 | 3 => some .i64 | 4 => some .f16 | 5 => some .bf16
  | 6 => some .f32 | _ => none
/-- SCOPE, R125. -/
def Scope.bits : Scope → BitVec 4
  | .cluster => 0 | .core => 1 | .frame => 2 | .quad => 3 | .field => 4 | .device => 5 | .host => 6 | .group => 7
  | .pod => 8 | .system => 9
/-- SCOPE, R125: codes 10 to 15 are reserved. -/
def Scope.ofBits (b : BitVec 4) : Option Scope :=
  match b.toNat with
  | 0 => some .cluster | 1 => some .core | 2 => some .frame | 3 => some .quad | 4 => some .field | 5 => some .device
  | 6 => some .host | 7 => some .group | 8 => some .pod | 9 => some .system | _ => none
/-- ORD, R125. -/
def Ord.bits : Ord → BitVec 2
  | .rlx => 0 | .acq => 1 | .rel => 2 | .ar => 3
/-- ORD, R125. -/
def Ord.ofBits (b : BitVec 2) : Ord :=
  match b.toNat with
  | 0 => .rlx | 1 => .acq | 2 => .rel | _ => .ar
/-- KIND, R175. -/
def FenceKind.bits : FenceKind → BitVec 2
  | .acq => 1 | .rel => 2 | .ar => 3
/-- KIND, R175: code 0 is reserved. -/
def FenceKind.ofBits (b : BitVec 2) : Option FenceKind :=
  match b.toNat with
  | 1 => some .acq | 2 => some .rel | 3 => some .ar | _ => none
/-- RM, R54. -/
def RMode.bits : RMode → BitVec 2
  | .rne => 0 | .rtz => 1 | .rup => 2 | .rdn => 3
/-- RM, R54. -/
def RMode.ofBits (b : BitVec 2) : RMode :=
  match b.toNat with
  | 0 => .rne | 1 => .rtz | 2 => .rup | _ => .rdn
/-- ENG, R125. -/
def SemQ.bits : SemQ → BitVec 2
  | .stream => 0 | .me => 1 | .ce => 2 | .cs => 3
/-- ENG, R125. -/
def SemQ.ofBits (b : BitVec 2) : SemQ :=
  match b.toNat with
  | 0 => .stream | 1 => .me | 2 => .ce | _ => .cs
/-- IMM[2:0] of BAR, R231. -/
def BarLevel.bits : BarLevel → BitVec 3
  | .core => 0 | .quad => 1 | .field => 2 | .device => 3 | .pod => 4
/-- IMM[2:0] of BAR, R231: 5 to 7 are reserved. -/
def BarLevel.ofBits (b : BitVec 3) : Option BarLevel :=
  match b.toNat with
  | 0 => some .core | 1 => some .quad | 2 => some .field | 3 => some .device | 4 => some .pod | _ => none
/-- FN of VCMP, R191. -/
def CmpOp.bits : CmpOp → BitVec 4
  | .eq => 0 | .ne => 1 | .lt => 2 | .le => 3 | .ltu => 4 | .leu => 5
/-- OP[2:0] of AMO, R176. -/
def AmoOp.bits : AmoOp → BitVec 3
  | .add => 0 | .and => 1 | .or => 2 | .xor => 3 | .smin => 4 | .smax => 5 | .umin => 6 | .umax => 7
/-- OP[2:0] of AMO, R176. -/
def AmoOp.ofBits (b : BitVec 3) : AmoOp :=
  match b.toNat with
  | 0 => .add | 1 => .and | 2 => .or | 3 => .xor | 4 => .smin | 5 => .smax | 6 => .umin | _ => .umax

/-! ### Words, by major opcode (R124, R127) -/

/-- ALU, major 0x01, R138. -/
def decAlu (w : BitVec 32) : Option Instr :=
  let d := fld w 7 5; let a := fld w 12 5; let b := fld w 17 5; let i := fbit w 27
  let z4 := rz w 28 4; let z5 := rz w 27 5
  match (fld w 22 5).toNat with
  | 0 => accept z4 (.add i d a b)
  | 1 => accept z4 (.sub i d a b)
  | 2 => accept z5 (.and d a b)
  | 3 => accept z5 (.or d a b)
  | 4 => accept z5 (.xor d a b)
  | 5 => accept z5 (.andn d a b)
  | 6 => accept z4 (.sll i d a b)
  | 7 => accept z4 (.srl i d a b)
  | 8 => accept z4 (.sra i d a b)
  | 9 => accept z4 (.adds i d a b)
  | 10 => accept z4 (.subs i d a b)
  | _ => none

/-- MULDIV, major 0x02, R139. -/
def decMulDiv (w : BitVec 32) : Option Instr :=
  let d := fld w 7 5; let a := fld w 12 5; let b := fld w 17 5; let i := fbit w 27
  let z4 := rz w 28 4; let z5 := rz w 27 5
  match (fld w 22 5).toNat with
  | 0 => accept z4 (.mul i d a b)
  | 1 => accept z5 (.mulh d a b)
  | 2 => accept z5 (.mulhu d a b)
  | 3 => accept z4 (.div i d a b)
  | 4 => accept z4 (.divu i d a b)
  | 5 => accept z4 (.rem i d a b)
  | 6 => accept z4 (.remu i d a b)
  | _ => none

/-- ALUI, major 0x03, R140. -/
def decAlui (w : BitVec 32) : Option Instr :=
  let d := fld w 7 5; let a := fld w 12 5; let imm := fld w 20 12; let sh := fld w 20 6; let z := rz w 26 6
  match (fld w 17 3).toNat with
  | 0 => some (.addi d a imm)
  | 1 => some (.andi d a imm)
  | 2 => some (.ori d a imm)
  | 3 => some (.xori d a imm)
  | 4 => accept z (.slli d a sh)
  | 5 => accept z (.srli d a sh)
  | 6 => accept z (.srai d a sh)
  | _ => some (.addiI32 d a imm)

/-- BITS, major 0x05, R141. -/
def decBits (w : BitVec 32) : Option Instr :=
  let d := fld w 7 5; let a := fld w 12 5; let b := fld w 17 5
  let m := rz w 27 5; let u := m && rz w 17 5
  match (fld w 22 5).toNat with
  | 0 => accept u (.clz d a)
  | 1 => accept u (.ctz d a)
  | 2 => accept u (.cpop d a)
  | 3 => accept m (.min d a b)
  | 4 => accept m (.max d a b)
  | 5 => accept m (.minu d a b)
  | 6 => accept m (.maxu d a b)
  | 7 => accept u (.sextb d a)
  | 8 => accept u (.sexth d a)
  | 9 => accept u (.sextw d a)
  | 10 => accept u (.zextw d a)
  | _ => none

/-- CMP and CSEL, major 0x06, R141. -/
def decCmp (w : BitVec 32) : Option Instr :=
  let d := fld w 7 5; let a := fld w 12 5; let b := fld w 17 5; let m := rz w 27 5
  match (fld w 22 5).toNat with
  | 0 => accept m (.slt d a b)
  | 1 => accept m (.sltu d a b)
  | 2 => accept m (.seq d a b)
  | 3 => accept m (.sne d a b)
  | 4 => some (.csel d (fld w 27 5) a b)
  | _ => none

/-- AM of the base-plus-offset and post-increment modes (R125): none for the modes that majors 0x08 to 0x0B do not
permit (R162). -/
def amPost (w : BitVec 32) : Option Bool :=
  match (fld w 21 2).toNat with
  | 0 => some false
  | 1 => some true
  | _ => none

/-- LD, major 0x08, R167. -/
def decLd (w : BitVec 32) : Option Instr :=
  match amPost w with
  | none => none
  | some post =>
    let off := fld w 25 7; let base := fld w 13 5; let t := fld w 7 5; let sz := fld w 18 2
    let z := rz w 12 1 && rz w 20 1
    match (fld w 23 2).toNat with
    | 0 => accept z (.ld sz post off base t)
    | 1 => accept z (.ldUnsigned sz post off base t)
    | _ => none

/-- ST, major 0x09, R167. -/
def decSt (w : BitVec 32) : Option Instr :=
  match amPost w with
  | none => none
  | some post =>
    accept (rz w 12 1 && rz w 20 1 && rz w 23 2)
      (.st (fld w 18 2) post (fld w 25 7) (fld w 13 5) (fld w 7 5))

/-- LDV, STV and ldv.xw, major 0x0A, R168, R169. -/
def decLdv (w : BitVec 32) : Option Instr :=
  match amPost w with
  | none => none
  | some post =>
    let off := fld w 25 7; let base := fld w 13 5; let t := fld w 7 6; let sz := fld w 18 3
    match (fld w 23 2).toNat with
    | 0 => some (.ldv sz post off base t)
    | 1 => some (.stv sz post off base t)
    | 2 => accept (rz w 18 3) (.ldvXw post off base t)
    | _ => none

/-- LDQ and PREF, major 0x0B, R171, R172. -/
def decLdq (w : BitVec 32) : Option Instr :=
  match amPost w with
  | none => none
  | some post =>
    let off := fld w 25 7; let base := fld w 13 5
    match (fld w 23 2).toNat with
    | 0 => accept (fld w 18 3 == 7#3 && rz w 9 4) (.ldq post off base (fld w 7 2))
    | 1 => accept (fld w 18 3 == 7#3 && rz w 7 6 && !post) (.pref off base)
    | _ => none

/-- Strided and indexed forms, major 0x0C, R170. -/
def decSI (w : BitVec 32) : Option Instr :=
  let base := fld w 13 5; let t := fld w 7 6
  let x : Option StrideIdx := match (fld w 21 2).toNat with
    | 2 => if rz w 30 2 then some (.strided (fld w 25 5)) else none
    | 3 => if rz w 31 1 then some (.indexed (fld w 25 6)) else none
    | _ => none
  let dbl : Option Bool := match (fld w 18 3).toNat with
    | 2 => some false
    | 3 => some true
    | _ => none
  match x, dbl, (fld w 23 2).toNat with
  | some x, some dbl, 0 => some (.ldvSI dbl x base t)
  | some x, some dbl, 1 => some (.stvSI dbl x base t)
  | _, _, _ => none

/-- AMO, CAS and SWAP, majors 0x0D and 0x0E, R176, R177. -/
def decAmo (w : BitVec 32) : Option Instr :=
  match Scope.ofBits (fld w 28 4) with
  | none => none
  | some sc => some (.amo (AmoOp.ofBits (fld w 22 3)) (fbit w 25) (Ord.ofBits (fld w 26 2)) sc
      (fld w 7 5) (fld w 17 5) (fld w 12 5))

/-- CAS and SWAP, major 0x0E, R177. -/
def decCas (w : BitVec 32) : Option Instr :=
  match Scope.ofBits (fld w 28 4) with
  | none => none
  | some sc =>
    let o := Ord.ofBits (fld w 26 2); let dbl := fbit w 25
    match (fld w 22 3).toNat with
    | 0 => some (.cas dbl o sc (fld w 7 5) (fld w 17 5) (fld w 12 5))
    | 1 => some (.swap dbl o sc (fld w 7 5) (fld w 17 5) (fld w 12 5))
    | _ => none

/-- The WV arithmetic instructions, majors 0x10 to 0x18, R188, by major. -/
def decWV (w : BitVec 32) (maj : Nat) : Option Instr :=
  match VTy.ofBits (fld w 29 3) with
  | none => none
  | some ty =>
    let pm := fld w 26 3; let q := fbit w 25; let y := fld w 19 6; let x := fld w 13 6; let d := fld w 7 6
    match maj with
    | 0x10 => some (.vadd ty pm q d x y)
    | 0x11 => some (.vsub ty pm q d x y)
    | 0x12 => some (.vmul ty pm q d x y)
    | 0x13 => some (.vfma ty pm q d x y)
    | 0x14 => some (.vmin ty pm q d x y)
    | 0x15 => some (.vmax ty pm q d x y)
    | 0x16 => some (.vsll ty pm q d x y)
    | 0x17 => some (.vsrl ty pm q d x y)
    | 0x18 => some (.vsra ty pm q d x y)
    | _ => none

/-- Vector logic, major 0x19, R190. -/
def decLogic (w : BitVec 32) : Option Instr :=
  let pm := fld w 26 3; let q := fbit w 25; let y := fld w 19 6; let x := fld w 13 6; let d := fld w 7 6
  match (fld w 29 3).toNat with
  | 0 => some (.vand pm q d x y)
  | 1 => some (.vor pm q d x y)
  | 2 => some (.vxor pm q d x y)
  | 3 => some (.vandn pm q d x y)
  | 4 => accept (rz w 19 6) (.vnot pm q d x)
  | _ => none

/-- VCMP and VSEL, major 0x1A, R191. -/
def decVcmp (w : BitVec 32) : Option Instr :=
  let y := fld w 19 6; let x := fld w 13 6
  if fbit w 28 then accept (rz w 29 3) (.vsel (fld w 25 3) (fld w 7 6) x y)
  else
    match VTy.ofBits (fld w 29 3) with
    | none => none
    | some ty =>
      let z := rz w 11 2; let pd := fld w 7 4
      match (fld w 25 4).toNat with
      | 0 => accept z (.vcmp .eq ty pd x y)
      | 1 => accept z (.vcmp .ne ty pd x y)
      | 2 => accept z (.vcmp .lt ty pd x y)
      | 3 => accept z (.vcmp .le ty pd x y)
      | 4 => accept z (.vcmp .ltu ty pd x y)
      | 5 => accept z (.vcmp .leu ty pd x y)
      | _ => none

/-- VMV, VPERM, slides, VBCAST and VEXT, major 0x1B, R192. -/
def decVmove (w : BitVec 32) : Option Instr :=
  let y := fld w 19 6; let x := fld w 13 6; let d := fld w 7 6; let y5 := fld w 19 5; let zy := rz w 24 1
  match VTy.ofBits (fld w 29 3), (fld w 25 4).toNat with
  | some .i8, 0 => accept (rz w 19 6) (.vmv d x)
  | some ty, 1 => some (.vperm ty d x y)
  | some ty, 2 => accept zy (.vslideup ty d x y5)
  | some ty, 3 => accept zy (.vslidedn ty d x y5)
  | some ty, 4 => accept (zy && rz w 13 6) (.vbcast ty d y5)
  | some ty, 5 => some (.vext ty (fld w 7 5) x (fld w 12 1 ++ y))
  | _, _ => none

/-- VCVT, major 0x1C, R193. -/
def decVcvt (w : BitVec 32) : Option Instr :=
  match VTy.ofBits (fld w 29 3) with
  | none => none
  | some ty => accept (rz w 24 1) (.vcvt ty (fbit w 28) (fbit w 27) (RMode.ofBits (fld w 25 2)) (fbit w 23)
      (fld w 19 4) (fld w 7 6) (fld w 13 6))

/-- Long units and MOVL, major 0x1D, R196, R198. -/
def decLong (w : BitVec 32) : Option Instr :=
  match VTy.ofBits (fld w 29 3) with
  | none => none
  | some ty =>
    let y := fld w 19 6; let x := fld w 13 6; let l := fld w 7 2
    let zd := rz w 9 4; let u := zd && rz w 19 6
    match (fld w 25 4).toNat with
    | 0 => accept zd (.vdiv ty l x y)
    | 1 => accept u (.vsqrt ty l x)
    | 2 => accept u (.vrcp ty l x)
    | 3 => accept u (.vrsqrt ty l x)
    | 4 => accept u (.vexp2 ty l x)
    | 5 => accept u (.vlog2 ty l x)
    | 6 => accept u (.vredsum ty l x)
    | 7 => accept u (.vredmax ty l x)
    | 8 => accept u (.vredmin ty l x)
    | 15 =>
      let z := rz w 15 4 && rz w 19 6
      match ty with
      | .i8 => accept z (.movlVector (fld w 7 6) (fld w 13 2))
      | .i64 => accept (z && rz w 12 1) (.movlScalar (fld w 7 5) (fld w 13 2))
      | _ => none
    | _ => none

/-- Predicate operations, major 0x1E, R199. -/
def decPred (w : BitVec 32) : Option Instr :=
  let pd := fld w 7 4; let px := fld w 13 4; let py := fld w 19 4
  let t0 := rz w 29 3; let zd := rz w 11 2; let zx := rz w 17 2; let zy := rz w 23 2
  match (fld w 25 4).toNat with
  | 0 => accept (t0 && zd && zx && zy) (.pand pd px py)
  | 1 => accept (t0 && zd && zx && zy) (.por pd px py)
  | 2 => accept (t0 && zd && zx && zy) (.pxor pd px py)
  | 3 => accept (t0 && zd && zx && zy) (.pandn pd px py)
  | 4 => accept (t0 && zd && zx && rz w 19 6) (.pnot pd px)
  | 5 => match VTy.ofBits (fld w 29 3) with
    | none => none
    | some ty => accept (zd && rz w 13 6 && rz w 24 1) (.pfirst ty pd (fld w 19 5))
  | 6 => accept (t0 && rz w 12 1 && zx && rz w 19 6) (.pcnt (fld w 7 5) px)
  | _ => none

/-- TWR, TRD and VCMPR48, major 0x1F, R201, R202. -/
def decTile (w : BitVec 32) : Option Instr :=
  let y := fld w 19 6; let x := fld w 13 6; let d := fld w 7 6; let p := fld w 25 2
  match (fld w 27 2).toNat with
  | 0 => match VTy.ofBits (fld w 29 3) with
    | none => none
    | some ty => accept (rz w 8 5 && rz w 24 1) (.twr ty p (fld w 7 1) (fld w 19 5) x)
  | 1 => match VTy.ofBits (fld w 29 3) with
    | none => none
    | some ty => accept (rz w 14 5 && rz w 24 1) (.trd ty p d (fld w 13 1) (fld w 19 5))
  | 2 => match p.toNat with
    | 0 => match VTy.ofBits (fld w 29 3) with
      | none => none
      | some ty => some (.vcmpr48 ty d y x)
    | 1 => accept (rz w 31 1) (.vcmpr48Lc (fld w 29 2) d y x)
    | _ => none
  | _ => none

/-- A tile slot, R125: TS = 3 is reserved. -/
def tsOk (w : BitVec 32) : Bool := fld w 7 2 != 3#2

/-- MMA and MMAS, major 0x20, R207. -/
def decMma (w : BitVec 32) : Option Instr :=
  let ts := fld w 7 2; let a := fld w 9 5; let b := fld w 14 5; let c := fld w 19 5
  let z := rz w 29 3 && tsOk w
  match (fld w 24 3).toNat with
  | 0 => accept z (.mma (fbit w 27) (fbit w 28) ts a b c)
  | 1 => accept z (.mmas (fbit w 27) (fbit w 28) ts a b c)
  | _ => none

/-- Slot commands, major 0x21, R211. -/
def decSlot (w : BitVec 32) : Option Instr :=
  let ts := fld w 7 2; let a := fld w 9 5; let t := tsOk w
  match (fld w 24 3).toNat with
  | 0 => accept (t && rz w 27 5 && rz w 9 15) (.mzero ts)
  | 1 => accept (t && rz w 30 2 && rz w 14 10) (.mcvt (RMode.ofBits (fld w 27 2)) (fbit w 29) a ts)
  | 2 => accept (t && rz w 27 5 && rz w 14 10) (.mldacc ts a)
  | 3 => accept (t && rz w 27 5 && rz w 14 10) (.mstacc a ts)
  | 4 => accept (t && rz w 27 5 && rz w 9 10 && rz w 21 3) (.mstat (fld w 19 2) ts)
  | _ => none

/-- CPY and CPYX, GTH and SCT, COLL: A alone is used. -/
def aOnly (w : BitVec 32) : Bool := rz w 27 5 && rz w 14 10 && rz w 7 2

/-- Majors 0x22 and 0x23, R218. -/
def decCopy (w : BitVec 32) (gather : Bool) : Option Instr :=
  let a := fld w 9 5
  match (fld w 24 3).toNat with
  | 0 => accept (aOnly w) (if gather then .gth a else .cpy a)
  | 1 => accept (aOnly w) (if gather then .sct a else .cpyx a)
  | _ => none

/-- Semaphores, major 0x24, R226. -/
def decSem (w : BitVec 32) : Option Instr :=
  let n := fld w 17 15; let q := SemQ.ofBits (fld w 13 2); let sem := fld w 7 6
  match (fld w 15 2).toNat with
  | 0 => some (.semsig q sem n)
  | 1 => some (.semwait q sem n)
  | 2 => accept (rz w 13 2) (.semset sem n)
  | _ => none

/-- QFENCE and COLL, major 0x25, R229, R230. -/
def decQf (w : BitVec 32) : Option Instr :=
  match (fld w 24 3).toNat with
  | 0 => accept (rz w 30 2 && rz w 7 17) (.qfence (fbit w 27) (fbit w 28) (fbit w 29))
  | 1 => accept (aOnly w) (.coll (fld w 9 5))
  | _ => none

/-- Conditional branches, major 0x28, R143. -/
def decBr (w : BitVec 32) : Option Instr :=
  let a := fld w 10 5; let b := fld w 15 5; let off := fld w 20 12
  match (fld w 7 3).toNat with
  | 0 => some (.beq a b off)
  | 1 => some (.bne a b off)
  | 2 => some (.blt a b off)
  | 3 => some (.bge a b off)
  | 4 => some (.bltu a b off)
  | 5 => some (.bgeu a b off)
  | _ => none

/-- Majors 0x29 to 0x2D, R144, R146, R151, R153, R154, R156. -/
def decFlow (w : BitVec 32) (maj : Nat) : Option Instr :=
  let a := fld w 10 5; let b := fld w 15 5; let off := fld w 20 12; let fn := (fld w 7 3).toNat
  match maj, fn with
  | 0x29, 0 => some (.jmp (fld w 10 22))
  | 0x29, 1 => some (.call (fld w 10 22))
  | 0x2A, 0 => accept (rz w 15 5) (.jr a off)
  | 0x2A, 1 => accept (rz w 15 5) (.callr a off)
  | 0x2A, 2 => accept (rz w 10 22) .ret
  | 0x2B, 0 => accept (rz w 10 22) .relc
  | 0x2B, 1 => accept (rz w 10 22) .tjoin
  | 0x2C, 0 => accept (rz w 12 8) (.loopb (fld w 10 2) off)
  | 0x2C, 1 => accept (rz w 12 3) (.loopi (fld w 10 2) b off)
  | 0x2D, 0 => accept (rz w 10 10) (.fork off)
  | 0x2D, 1 => accept (rz w 10 5 && rz w 19 1) (.join (fld w 15 4) off)
  | _, _ => none

/-- MARK and FENCE, major 0x30, R175. -/
def decFence (w : BitVec 32) : Option Instr :=
  match (fld w 17 5).toNat with
  | 0 => accept (rz w 22 10 && rz w 7 10) .mark
  | 1 => match FenceKind.ofBits (fld w 26 2), Scope.ofBits (fld w 22 4) with
    | some k, some sc => accept (rz w 28 4 && rz w 7 10) (.fence k sc)
    | _, _ => none
  | _ => none

/-- Major 0x31, R155, R157 to R159. -/
def decCtl (w : BitVec 32) : Option Instr :=
  let m := fld w 22 8; let zad := rz w 7 10
  match (fld w 17 5).toNat with
  | 0 => match (fld w 30 2).toNat with
    | 0 => accept zad (.cset m)
    | 1 => accept zad (.csetClr m)
    | _ => none
  | 1 => accept (zad && rz w 30 2) (.cwait m)
  | 2 => accept (zad && rz w 22 10) .halt
  | 3 => accept zad (.trap (fld w 22 10))
  | 4 => accept (zad && rz w 22 10) .eret
  | 5 => accept (rz w 7 5 && rz w 22 10) (.waitt (fld w 12 5))
  | 6 => accept (zad && rz w 22 10) .yield
  | _ => none

/-- BAR, major 0x32, R231. -/
def decBar (w : BitVec 32) : Option Instr :=
  match BarLevel.ofBits (fld w 22 3) with
  | none => none
  | some l => accept (rz w 25 7 && rz w 7 15) (.bar l)

/-- Planner instructions, major 0x33, R232. -/
def decPlan (w : BitVec 32) : Option Instr :=
  let d := fld w 7 5; let a := fld w 12 5; let zi := rz w 22 10; let za := zi && rz w 12 5
  match (fld w 17 5).toNat with
  | 0 => accept zi (.qplan d a)
  | 1 => accept zi (.qrun d a)
  | 2 => accept zi (.qhint d a)
  | 3 => accept za (.qpin d)
  | 4 => accept za (.qunpin d)
  | 5 => accept za (.qdrop d)
  | 6 => accept zi (.qstat d a)
  | _ => none

/-- STATR, STATW and FMTLD, major 0x34, R236. -/
def decStat (w : BitVec 32) : Option Instr :=
  let d := fld w 7 5; let a := fld w 12 5
  match (fld w 17 5).toNat with
  | 0 => accept (rz w 22 10) (.statr d a)
  | 1 => some (.statw a d (fld w 22 10))
  | 2 => accept (rz w 22 10 && rz w 7 5) (.fmtld a)
  | _ => none

/-- CSR access, major 0x35, R239. -/
def decCsr (w : BitVec 32) : Option Instr :=
  let d := fld w 7 5; let a := fld w 12 5; let n := fld w 22 10
  match (fld w 17 5).toNat with
  | 0 => accept (rz w 12 5) (.csrr d n)
  | 1 => accept (rz w 7 5) (.csrw n a)
  | 2 => accept (rz w 7 5) (.csrs n a)
  | 3 => accept (rz w 7 5) (.csrc n a)
  | _ => none

/-- PSAVE, PREST and RDTIME, major 0x36, R241 to R243. -/
def decSave (w : BitVec 32) : Option Instr :=
  match (fld w 17 5).toNat with
  | 0 => accept (rz w 27 5 && rz w 7 10) (.psave (fld w 22 4) (fbit w 26))
  | 1 => accept (rz w 22 10 && rz w 7 10) .prest
  | 2 => accept (rz w 22 10 && rz w 12 5) (.rdtime (fld w 7 5))
  | _ => none

/-- The instruction that a word's fields name, before the checks of `Instr.wf` (R116, R127). -/
def decodeFields (w : BitVec 32) : Option Instr :=
  if !fbit w 0 then none else
  match (fld w 1 6).toNat with
  | 0x01 => decAlu w
  | 0x02 => decMulDiv w
  | 0x03 => decAlui w
  | 0x04 => some (if fbit w 12 then .apc (fld w 7 5) (fld w 13 19) else .lui (fld w 7 5) (fld w 13 19))
  | 0x05 => decBits w
  | 0x06 => decCmp w
  | 0x08 => decLd w
  | 0x09 => decSt w
  | 0x0A => decLdv w
  | 0x0B => decLdq w
  | 0x0C => decSI w
  | 0x0D => decAmo w
  | 0x0E => decCas w
  | 0x0F => accept (rz w 25 7) (if fbit w 24 then .gseq (fld w 7 5) (fld w 12 12) else .gacq (fld w 12 12) (fld w 7 5))
  | 0x10 => decWV w 0x10
  | 0x11 => decWV w 0x11
  | 0x12 => decWV w 0x12
  | 0x13 => decWV w 0x13
  | 0x14 => decWV w 0x14
  | 0x15 => decWV w 0x15
  | 0x16 => decWV w 0x16
  | 0x17 => decWV w 0x17
  | 0x18 => decWV w 0x18
  | 0x19 => decLogic w
  | 0x1A => decVcmp w
  | 0x1B => decVmove w
  | 0x1C => decVcvt w
  | 0x1D => decLong w
  | 0x1E => decPred w
  | 0x1F => decTile w
  | 0x20 => decMma w
  | 0x21 => decSlot w
  | 0x22 => decCopy w false
  | 0x23 => decCopy w true
  | 0x24 => decSem w
  | 0x25 => decQf w
  | 0x28 => decBr w
  | 0x29 => decFlow w 0x29
  | 0x2A => decFlow w 0x2A
  | 0x2B => decFlow w 0x2B
  | 0x2C => decFlow w 0x2C
  | 0x2D => decFlow w 0x2D
  | 0x30 => decFence w
  | 0x31 => decCtl w
  | 0x32 => decBar w
  | 0x33 => decPlan w
  | 0x34 => decStat w
  | 0x35 => decCsr w
  | 0x36 => decSave w
  | 0x38 | 0x39 | 0x3A | 0x3B | 0x3C | 0x3D =>
    some (.stg (fld w 1 3) (fbit w 31) (fld w 7 2) (fld w 9 12) (fld w 21 5) (fld w 26 5))
  | _ => none

/-- The instruction a word holds; none where R117 makes it illegal. -/
def decodeWord (w : BitVec 32) : Option Instr := (decodeFields w).filter Instr.wf

/-- The instruction a compact parcel holds (R126); the parcel 0x0000 and class 0b111 are illegal (R117). -/
def decodeParcel (p : BitVec 16) : Option Instr :=
  if p == 0#16 || p.getLsbD 0 then none else
  let d := p.extractLsb' 4 5; let b := p.extractLsb' 9 5
  match (p.extractLsb' 1 3).toNat with
  | 0 => match (p.extractLsb' 14 2).toNat with
    | 0 => some (.addCompact d b)
    | 1 => some (.subCompact d b)
    | 2 => some (.andCompact d b)
    | _ => some (.mvCompact d b)
  | 1 => some (.addiCompact d (p.extractLsb' 9 7))
  | 2 => some (.liCompact d (p.extractLsb' 9 7))
  | 3 => some (.ldDCompact d (p.extractLsb' 9 2) (p.extractLsb' 11 5))
  | 4 => some (.stDCompact d (p.extractLsb' 9 2) (p.extractLsb' 11 5))
  | 5 => some (if p.getLsbD 15 then .sraiCompact d (p.extractLsb' 9 6) else .slliCompact d (p.extractLsb' 9 6))
  | 6 => some (.vmvCompact (p.extractLsb' 4 6) (p.extractLsb' 10 6))
  | _ => none

/-- A first parcel begins a word when its bit 0 is 1 (R116). -/
def isWordParcel (p : BitVec 16) : Bool := p.getLsbD 0

/-- Decode the parcels at a place in the code: the instruction and its length in bytes. `last` says that the first
parcel is the last of its block, where a word is illegal (R117). -/
def decodeAt (p0 p1 : BitVec 16) (last : Bool) : Option (Instr × Nat) :=
  if isWordParcel p0 then
    if last then none else (decodeWord (p1 ++ p0)).map fun i => (i, 4)
  else (decodeParcel p0).map fun i => (i, 2)

/-- A parcel from two bytes, little-endian (R3). -/
def parcelOf (b0 b1 : Byte) : BitVec 16 := b1 ++ b0

/-- Decode from bytes: the instruction and the bytes after it. -/
def decode : List Byte → Option (Instr × List Byte)
  | b0 :: b1 :: rest =>
    let p0 := parcelOf b0 b1
    if isWordParcel p0 then
      match rest with
      | b2 :: b3 :: rest' => (decodeWord (parcelOf b2 b3 ++ p0)).map fun i => (i, rest')
      | _ => none
    else (decodeParcel p0).map fun i => (i, rest)
  | _ => none

/-- The four bytes of an instruction whose table bits are `w` (bit 0 the least significant bit of its first byte). -/
def tableBytes (w : Nat) : List Byte :=
  [BitVec.ofNat 8 w, BitVec.ofNat 8 (w / 256), BitVec.ofNat 8 (w / 65536), BitVec.ofNat 8 (w / 16777216)]

/-- The decoder on an instruction numbered as spec/opcode_table.json numbers its bits. -/
def decodeTableWord (nbits w : Nat) : Option Instr := (decode (tableBytes (w % 2 ^ nbits))).map Prod.fst

/-! ### The encoder, from the same tables (R124 to R127, R138 to R243) -/

/-- One flag bit. -/
def b1 (b : Bool) : BitVec 1 := BitVec.ofBool b

/-- Layout WR. -/
def wWR (maj : BitVec 6) (md fn : BitVec 5) (d a b : BitVec 5) : BitVec 32 := md ++ fn ++ b ++ a ++ d ++ maj ++ 1#1
/-- MOD of a form with .i32. -/
def mdI (i32 : Bool) : BitVec 5 := 0#4 ++ b1 i32
/-- Layout WI.s. -/
def wWIs (fn : BitVec 3) (d a : BitVec 5) (imm : BitVec 12) : BitVec 32 := imm ++ fn ++ a ++ d ++ 3#6 ++ 1#1
/-- Layout WM, the data register in six bits. -/
def wWM (maj : BitVec 6) (fn : BitVec 2) (am : BitVec 2) (sz : BitVec 3) (off : BitVec 7) (base : BitVec 5)
    (t : BitVec 6) : BitVec 32 := off ++ fn ++ am ++ sz ++ base ++ t ++ maj ++ 1#1
/-- AM of the base-plus-offset and post-increment modes. -/
def amBits (post : Bool) : BitVec 2 := 0#1 ++ b1 post
/-- AM of a strided or indexed form. -/
def amSI : StrideIdx → BitVec 2
  | .strided _ => 2
  | .indexed _ => 3
/-- OFF of a strided or indexed form. -/
def offSI : StrideIdx → BitVec 7
  | .strided s => 0#2 ++ s
  | .indexed v => 0#1 ++ v
/-- Layout WM.a. -/
def wWMa (maj : BitVec 6) (sc : Scope) (o : Ord) (op : BitVec 4) (d v base : BitVec 5) : BitVec 32 :=
  sc.bits ++ o.bits ++ op ++ v ++ base ++ d ++ maj ++ 1#1
/-- Layout WV. -/
def wWV (maj : BitVec 6) (ty pm : BitVec 3) (q : Bool) (d x y : BitVec 6) : BitVec 32 :=
  ty ++ pm ++ b1 q ++ y ++ x ++ d ++ maj ++ 1#1
/-- Layout WV.x. -/
def wWVx (maj : BitVec 6) (ty : BitVec 3) (fn : BitVec 4) (d x y : BitVec 6) : BitVec 32 :=
  ty ++ fn ++ y ++ x ++ d ++ maj ++ 1#1
/-- Layout WE. -/
def wWE (maj : BitVec 6) (md : BitVec 5) (fn : BitVec 3) (ts : BitVec 2) (a b c : BitVec 5) : BitVec 32 :=
  md ++ fn ++ c ++ b ++ a ++ ts ++ maj ++ 1#1
/-- Layout WE.s. -/
def wWEs (fn eng : BitVec 2) (sem : BitVec 6) (n : BitVec 15) : BitVec 32 := n ++ fn ++ eng ++ sem ++ 0x24#6 ++ 1#1
/-- Layout WB. -/
def wWB (maj : BitVec 6) (fn : BitVec 3) (a b : BitVec 5) (off : BitVec 12) : BitVec 32 :=
  off ++ b ++ a ++ fn ++ maj ++ 1#1
/-- Layout WS. -/
def wWS (maj : BitVec 6) (fn d a : BitVec 5) (imm : BitVec 10) : BitVec 32 := imm ++ fn ++ a ++ d ++ maj ++ 1#1

/-- The word of a group read. -/
def wGrp (fn : BitVec 1) (g : BitVec 12) (d : BitVec 5) : BitVec 32 := 0#7 ++ fn ++ g ++ d ++ 0x0F#6 ++ 1#1
/-- Layout WG. -/
def wStg (sz : BitVec 3) (rel : Bool) (l : BitVec 2) (g : BitVec 12) (ofs v : BitVec 5) : BitVec 32 :=
  b1 rel ++ v ++ ofs ++ g ++ l ++ 7#3 ++ sz ++ 1#1

/-- The word of a word instruction; none for a compact form or a step that has no encoding. -/
def encodeWord : Instr → Option (BitVec 32)
  | .add i d a b => some (wWR 1 (mdI i) 0 d a b)
  | .sub i d a b => some (wWR 1 (mdI i) 1 d a b)
  | .and d a b => some (wWR 1 0 2 d a b)
  | .or d a b => some (wWR 1 0 3 d a b)
  | .xor d a b => some (wWR 1 0 4 d a b)
  | .andn d a b => some (wWR 1 0 5 d a b)
  | .sll i d a b => some (wWR 1 (mdI i) 6 d a b)
  | .srl i d a b => some (wWR 1 (mdI i) 7 d a b)
  | .sra i d a b => some (wWR 1 (mdI i) 8 d a b)
  | .adds i d a b => some (wWR 1 (mdI i) 9 d a b)
  | .subs i d a b => some (wWR 1 (mdI i) 10 d a b)
  | .mul i d a b => some (wWR 2 (mdI i) 0 d a b)
  | .mulh d a b => some (wWR 2 0 1 d a b)
  | .mulhu d a b => some (wWR 2 0 2 d a b)
  | .div i d a b => some (wWR 2 (mdI i) 3 d a b)
  | .divu i d a b => some (wWR 2 (mdI i) 4 d a b)
  | .rem i d a b => some (wWR 2 (mdI i) 5 d a b)
  | .remu i d a b => some (wWR 2 (mdI i) 6 d a b)
  | .addi d a imm => some (wWIs 0 d a imm)
  | .andi d a imm => some (wWIs 1 d a imm)
  | .ori d a imm => some (wWIs 2 d a imm)
  | .xori d a imm => some (wWIs 3 d a imm)
  | .slli d a sh => some (wWIs 4 d a (0#6 ++ sh))
  | .srli d a sh => some (wWIs 5 d a (0#6 ++ sh))
  | .srai d a sh => some (wWIs 6 d a (0#6 ++ sh))
  | .addiI32 d a imm => some (wWIs 7 d a imm)
  | .lui d imm => some (imm ++ 0#1 ++ d ++ 4#6 ++ 1#1)
  | .apc d imm => some (imm ++ 1#1 ++ d ++ 4#6 ++ 1#1)
  | .clz d a => some (wWR 5 0 0 d a 0)
  | .ctz d a => some (wWR 5 0 1 d a 0)
  | .cpop d a => some (wWR 5 0 2 d a 0)
  | .min d a b => some (wWR 5 0 3 d a b)
  | .max d a b => some (wWR 5 0 4 d a b)
  | .minu d a b => some (wWR 5 0 5 d a b)
  | .maxu d a b => some (wWR 5 0 6 d a b)
  | .sextb d a => some (wWR 5 0 7 d a 0)
  | .sexth d a => some (wWR 5 0 8 d a 0)
  | .sextw d a => some (wWR 5 0 9 d a 0)
  | .zextw d a => some (wWR 5 0 10 d a 0)
  | .slt d a b => some (wWR 6 0 0 d a b)
  | .sltu d a b => some (wWR 6 0 1 d a b)
  | .seq d a b => some (wWR 6 0 2 d a b)
  | .sne d a b => some (wWR 6 0 3 d a b)
  | .csel d c a b => some (wWR 6 c 4 d a b)
  | .beq a b off => some (wWB 0x28 0 a b off)
  | .bne a b off => some (wWB 0x28 1 a b off)
  | .blt a b off => some (wWB 0x28 2 a b off)
  | .bge a b off => some (wWB 0x28 3 a b off)
  | .bltu a b off => some (wWB 0x28 4 a b off)
  | .bgeu a b off => some (wWB 0x28 5 a b off)
  | .jmp off => some (off ++ 0#3 ++ 0x29#6 ++ 1#1)
  | .call off => some (off ++ 1#3 ++ 0x29#6 ++ 1#1)
  | .jr a off => some (wWB 0x2A 0 a 0 off)
  | .callr a off => some (wWB 0x2A 1 a 0 off)
  | .ret => some (wWB 0x2A 2 0 0 0)
  | .relc => some (wWB 0x2B 0 0 0 0)
  | .tjoin => some (wWB 0x2B 1 0 0 0)
  | .loopb lc off => some (wWB 0x2C 0 (0#3 ++ lc) 0 off)
  | .loopi lc b off => some (wWB 0x2C 1 (0#3 ++ lc) b off)
  | .fork off => some (wWB 0x2D 0 0 0 off)
  | .join m off => some (wWB 0x2D 1 0 (0#1 ++ m) off)
  | .mark => some (wWS 0x30 0 0 0 0)
  | .fence k sc => some (wWS 0x30 1 0 0 (0#4 ++ k.bits ++ sc.bits))
  | .cset m => some (wWS 0x31 0 0 0 (0#2 ++ m))
  | .csetClr m => some (wWS 0x31 0 0 0 (1#2 ++ m))
  | .cwait m => some (wWS 0x31 1 0 0 (0#2 ++ m))
  | .halt => some (wWS 0x31 2 0 0 0)
  | .trap code => some (wWS 0x31 3 0 0 code)
  | .eret => some (wWS 0x31 4 0 0 0)
  | .waitt a => some (wWS 0x31 5 0 a 0)
  | .yield => some (wWS 0x31 6 0 0 0)
  | .ld sz post off base t => some (wWM 0x08 0 (amBits post) (0#1 ++ sz) off base (0#1 ++ t))
  | .ldUnsigned sz post off base t => some (wWM 0x08 1 (amBits post) (0#1 ++ sz) off base (0#1 ++ t))
  | .st sz post off base t => some (wWM 0x09 0 (amBits post) (0#1 ++ sz) off base (0#1 ++ t))
  | .ldv sz post off base t => some (wWM 0x0A 0 (amBits post) sz off base t)
  | .stv sz post off base t => some (wWM 0x0A 1 (amBits post) sz off base t)
  | .ldvXw post off base t => some (wWM 0x0A 2 (amBits post) 0 off base t)
  | .ldq post off base q => some (wWM 0x0B 0 (amBits post) 7 off base (0#4 ++ q))
  | .pref off base => some (wWM 0x0B 1 0 7 off base 0)
  | .ldvSI dbl x base t => some (wWM 0x0C 0 (amSI x) (1#2 ++ b1 dbl) (offSI x) base t)
  | .stvSI dbl x base t => some (wWM 0x0C 1 (amSI x) (1#2 ++ b1 dbl) (offSI x) base t)
  | .amo op dbl o sc d v base => some (wWMa 0x0D sc o (b1 dbl ++ op.bits) d v base)
  | .cas dbl o sc d v base => some (wWMa 0x0E sc o (b1 dbl ++ 0#3) d v base)
  | .swap dbl o sc d v base => some (wWMa 0x0E sc o (b1 dbl ++ 1#3) d v base)
  | .gacq g d => some (wGrp 0 g d)
  | .gseq d g => some (wGrp 1 g d)
  | .stg sz rel l g ofs v => some (wStg sz rel l g ofs v)
  | .vadd ty pm q d x y => some (wWV 0x10 ty.bits pm q d x y)
  | .vsub ty pm q d x y => some (wWV 0x11 ty.bits pm q d x y)
  | .vmul ty pm q d x y => some (wWV 0x12 ty.bits pm q d x y)
  | .vfma ty pm q d x y => some (wWV 0x13 ty.bits pm q d x y)
  | .vmin ty pm q d x y => some (wWV 0x14 ty.bits pm q d x y)
  | .vmax ty pm q d x y => some (wWV 0x15 ty.bits pm q d x y)
  | .vsll ty pm q d x y => some (wWV 0x16 ty.bits pm q d x y)
  | .vsrl ty pm q d x y => some (wWV 0x17 ty.bits pm q d x y)
  | .vsra ty pm q d x y => some (wWV 0x18 ty.bits pm q d x y)
  | .vand pm q d x y => some (wWV 0x19 0 pm q d x y)
  | .vor pm q d x y => some (wWV 0x19 1 pm q d x y)
  | .vxor pm q d x y => some (wWV 0x19 2 pm q d x y)
  | .vandn pm q d x y => some (wWV 0x19 3 pm q d x y)
  | .vnot pm q d x => some (wWV 0x19 4 pm q d x 0)
  | .vcmp cc ty pd x y => some (wWVx 0x1A ty.bits cc.bits (0#2 ++ pd) x y)
  | .vsel pm d x y => some (wWVx 0x1A 0 (1#1 ++ pm) d x y)
  | .vmv d x => some (wWVx 0x1B 0 0 d x 0)
  | .vperm ty d x y => some (wWVx 0x1B ty.bits 1 d x y)
  | .vslideup ty d x y => some (wWVx 0x1B ty.bits 2 d x (0#1 ++ y))
  | .vslidedn ty d x y => some (wWVx 0x1B ty.bits 3 d x (0#1 ++ y))
  | .vbcast ty d y => some (wWVx 0x1B ty.bits 4 d 0 (0#1 ++ y))
  | .vext ty d x k => some (wWVx 0x1B ty.bits 5 (k.extractLsb' 6 1 ++ d) x (k.extractLsb' 0 6))
  | .vcvt ty dirFrom auto rm tab code d x =>
    some (wWVx 0x1C ty.bits (b1 dirFrom ++ b1 auto ++ rm.bits) d x (0#1 ++ b1 tab ++ code))
  | .vdiv ty l x y => some (wWVx 0x1D ty.bits 0 (0#4 ++ l) x y)
  | .vsqrt ty l x => some (wWVx 0x1D ty.bits 1 (0#4 ++ l) x 0)
  | .vrcp ty l x => some (wWVx 0x1D ty.bits 2 (0#4 ++ l) x 0)
  | .vrsqrt ty l x => some (wWVx 0x1D ty.bits 3 (0#4 ++ l) x 0)
  | .vexp2 ty l x => some (wWVx 0x1D ty.bits 4 (0#4 ++ l) x 0)
  | .vlog2 ty l x => some (wWVx 0x1D ty.bits 5 (0#4 ++ l) x 0)
  | .vredsum ty l x => some (wWVx 0x1D ty.bits 6 (0#4 ++ l) x 0)
  | .vredmax ty l x => some (wWVx 0x1D ty.bits 7 (0#4 ++ l) x 0)
  | .vredmin ty l x => some (wWVx 0x1D ty.bits 8 (0#4 ++ l) x 0)
  | .movlVector d l => some (wWVx 0x1D 0 15 d (0#4 ++ l) 0)
  | .movlScalar d l => some (wWVx 0x1D 3 15 (0#1 ++ d) (0#4 ++ l) 0)
  | .pand d x y => some (wWVx 0x1E 0 0 (0#2 ++ d) (0#2 ++ x) (0#2 ++ y))
  | .por d x y => some (wWVx 0x1E 0 1 (0#2 ++ d) (0#2 ++ x) (0#2 ++ y))
  | .pxor d x y => some (wWVx 0x1E 0 2 (0#2 ++ d) (0#2 ++ x) (0#2 ++ y))
  | .pandn d x y => some (wWVx 0x1E 0 3 (0#2 ++ d) (0#2 ++ x) (0#2 ++ y))
  | .pnot d x => some (wWVx 0x1E 0 4 (0#2 ++ d) (0#2 ++ x) 0)
  | .pfirst ty d y => some (wWVx 0x1E ty.bits 5 (0#2 ++ d) 0 (0#1 ++ y))
  | .pcnt d x => some (wWVx 0x1E 0 6 (0#1 ++ d) (0#2 ++ x) 0)
  | .twr ty p t row x => some (wWVx 0x1F ty.bits (0#2 ++ p) (0#5 ++ t) x (0#1 ++ row))
  | .trd ty p d t col => some (wWVx 0x1F ty.bits (1#2 ++ p) d (0#5 ++ t) (0#1 ++ col))
  | .vcmpr48 ty d m x => some (wWVx 0x1F ty.bits 8 d x m)
  | .vcmpr48Lc n d m x => some (wWVx 0x1F (0#1 ++ n) 9 d x m)
  | .mma fo z ts a b c => some (wWE 0x20 (0#3 ++ b1 z ++ b1 fo) 0 ts a b c)
  | .mmas fo z ts a b c => some (wWE 0x20 (0#3 ++ b1 z ++ b1 fo) 1 ts a b c)
  | .mzero ts => some (wWE 0x21 0 0 ts 0 0 0)
  | .mcvt rm auto a ts => some (wWE 0x21 (0#2 ++ b1 auto ++ rm.bits) 1 ts a 0 0)
  | .mldacc ts a => some (wWE 0x21 0 2 ts a 0 0)
  | .mstacc a ts => some (wWE 0x21 0 3 ts a 0 0)
  | .mstat l ts => some (wWE 0x21 0 4 ts 0 0 (0#3 ++ l))
  | .cpy a => some (wWE 0x22 0 0 0 a 0 0)
  | .cpyx a => some (wWE 0x22 0 1 0 a 0 0)
  | .gth a => some (wWE 0x23 0 0 0 a 0 0)
  | .sct a => some (wWE 0x23 0 1 0 a 0 0)
  | .semsig q sem n => some (wWEs 0 q.bits sem n)
  | .semwait q sem n => some (wWEs 1 q.bits sem n)
  | .semset sem n => some (wWEs 2 0 sem n)
  | .qfence me ce cs => some (wWE 0x25 (0#2 ++ b1 cs ++ b1 ce ++ b1 me) 0 0 0 0 0)
  | .coll a => some (wWE 0x25 0 1 0 a 0 0)
  | .bar l => some (wWS 0x32 0 0 0 (0#7 ++ l.bits))
  | .qplan d a => some (wWS 0x33 0 d a 0)
  | .qrun d a => some (wWS 0x33 1 d a 0)
  | .qhint d a => some (wWS 0x33 2 d a 0)
  | .qpin d => some (wWS 0x33 3 d 0 0)
  | .qunpin d => some (wWS 0x33 4 d 0 0)
  | .qdrop d => some (wWS 0x33 5 d 0 0)
  | .qstat d a => some (wWS 0x33 6 d a 0)
  | .statr d a => some (wWS 0x34 0 d a 0)
  | .statw a d m => some (wWS 0x34 1 d a m)
  | .fmtld a => some (wWS 0x34 2 0 a 0)
  | .csrr d n => some (wWS 0x35 0 d 0 n)
  | .csrw n a => some (wWS 0x35 1 0 a n)
  | .csrs n a => some (wWS 0x35 2 0 a n)
  | .csrc n a => some (wWS 0x35 3 0 a n)
  | .psave ov os => some (wWS 0x36 0 0 0 (0#5 ++ b1 os ++ ov))
  | .prest => some (wWS 0x36 1 0 0 0)
  | .rdtime d => some (wWS 0x36 2 d 0 0)
  | _ => none

/-- The parcel of a compact form (R126). -/
def encodeParcel : Instr → Option (BitVec 16)
  | .addCompact d b => some (0#2 ++ b ++ d ++ 0#3 ++ 0#1)
  | .subCompact d b => some (1#2 ++ b ++ d ++ 0#3 ++ 0#1)
  | .andCompact d b => some (2#2 ++ b ++ d ++ 0#3 ++ 0#1)
  | .mvCompact d b => some (3#2 ++ b ++ d ++ 0#3 ++ 0#1)
  | .addiCompact d imm => some (imm ++ d ++ 1#3 ++ 0#1)
  | .liCompact d imm => some (imm ++ d ++ 2#3 ++ 0#1)
  | .ldDCompact d bs off => some (off ++ bs ++ d ++ 3#3 ++ 0#1)
  | .stDCompact d bs off => some (off ++ bs ++ d ++ 4#3 ++ 0#1)
  | .slliCompact d sh => some (0#1 ++ sh ++ d ++ 5#3 ++ 0#1)
  | .sraiCompact d sh => some (1#1 ++ sh ++ d ++ 5#3 ++ 0#1)
  | .vmvCompact vd vx => some (vx ++ vd ++ 6#3 ++ 0#1)
  | _ => none

/-- The bytes of a word, lowest address first (R3, R116). -/
def wordBytes (w : BitVec 32) : List Byte :=
  [w.extractLsb' 0 8, w.extractLsb' 8 8, w.extractLsb' 16 8, w.extractLsb' 24 8]

/-- The bytes of a well-formed instruction; none for a step of the machine, which has no encoding. -/
def encode (i : Instr) : List Byte :=
  match encodeWord i, encodeParcel i with
  | some w, _ => wordBytes w
  | none, some p => [p.extractLsb' 0 8, p.extractLsb' 8 8]
  | none, none => []

end Sys2Proof
end

