-- ==== Sys2Proof/Config.lean ====
section
/-!
DEFINITION. Config.lean: what the spec leaves open. Each constant has no body, so that nothing can be proved of its
value; a step applies it to plain data. The notes/assumptions rows name each.
-/
namespace Sys2Proof.Config

/-- The next move of the machine when none has been chosen (R65: the machine may take any step whose condition
holds); the argument is the free-choice counter of the state. DESIGN CHOICE, log 3. -/
opaque nextMove : Nat → Move

/-- The increment of cr.time in one cycle (R115: the rate is slewed by the discipline loop). Free value, log 6. -/
opaque timeStep : Nat → Nat

/-- What a byte of device memory reads as at a physical address of 2^40 or more, beyond the stacks of R1: no rule says. The arguments are the
cycle of the read and the address. Free value, log 59. -/
opaque beyondByte : Nat → Nat → Byte

/-- The fleet manager starts the home switch of a group anew with a LOAD (R109): no rule tells which LOAD of a group that is started already
belongs to a new creation. Free value, log 53. -/
opaque groupStart : Nat → Bool

/-- The entry that leaves a full cache when a line enters it (R1): no rule gives the replacement. The arguments are the free-choice
counter and the number of entries; the result is reduced modulo that number. Free value, log 60. -/
opaque cacheVictim : Nat → Nat → Nat

/-- The choice between a code line's content at admission and at its home, after a store to the code range (R122):
true takes the content at admission. Free value, log 9. -/
opaque icacheOld : Nat → Bool

/-- Keystone's own estimates at a break that R246 does not fix: slice count, DENS and ZBF. Free values, log 13. -/
opaque planEstimate : Nat → Nat × Nat × Nat

/-- The bit pattern of an element that a gather takes at an index outside the extent: the spec states none (R82). The arguments are the
index and the place in the result, so that two runs on the same values agree (R96). Free value, log 13. -/
opaque gatherBeyond : Int → Nat → Nat

/-- EMAX and EMIN of a rewritten entry of a format code when no element is finite and non-zero: the spec states none (R86, R87). Free
value, log 13. -/
opaque noExponent : Nat → BitVec 32

/-- A plan places work on the core of a WG (R89, R269): the number of its planning (R96) and the WG's number. Free value, log 13. -/
opaque planPlaced : Nat → Nat → Bool

/-- A D0 run reassociates a node that allows it (R96). Free value, log 14. -/
opaque d0Reassoc : Nat → Bool

/-- The order in which a D0 scatter-add adds its contributions (R96): the argument counts the additions left, the
result is the position taken, reduced modulo it. Free value, log 14. -/
opaque d0Order : Nat → Nat → Nat

/-- The body of an EQUEUE or PLAN section (R298: a device format). Free value, log 15. -/
opaque deviceBody : Nat → List Byte

/-- SHAKE256 of a message, taken to n bytes (R287, R324). Free value, log 12. -/
opaque shake256 : List Byte → Nat → List Byte

/-- ML-DSA-65 verification of key, message and signature under FIPS 204 (R287). Free value, log 12. -/
opaque mlDsaVerify : List Byte → List Byte → List Byte → Bool

/-- The ML-DSA-65 signature with the identity key of a device (R324). Free value, log 12. -/
opaque mlDsaSign : Nat → List Byte → List Byte

/-- The key hash in the fuse block of a device (R287). Each implementation decides, log 12. -/
opaque fuseKeyHash : Nat → List Byte

/-- The field whose stacks hold a line of a device's memory (R34), reduced modulo 8: device, line. No rule gives the
map, so each implementation decides. Free value, log 18. -/
opaque homeField : Nat → Nat → Nat

/-- The order in which a field's cores take the logical numbers at its first reset (R10): device, field, number; the result is the position
among the cores that are left, reduced modulo their count. Each implementation decides. Free value, log 63. -/
opaque corePick : Nat → Nat → Nat → Nat

/-- The length of an image with this header, which the checks of R136 take as known. Free value, log 35. -/
opaque imageLen : BitVec 512 → Nat

/-- The window of the firmware core's DMA that the boot ROM of a device sets (R288): its first address and its length. Each implementation
decides. Free value, log 64. -/
opaque dmaWindow : Nat → Nat × Nat

/-- The words 0 and 1 of the record that a kill writes: R295 gives no cause for it. Free value, log 19. -/
opaque killCause : Nat → Word

/-- What a byte of device memory holds after a reset of the whole device: no rule says whether it is kept (R313, R314). The
arguments are the free-choice counter and the address. Free value, log 2. -/
opaque resetByte : Nat → Nat → Byte

end Sys2Proof.Config
end

