-- ==== Sys2Proof/Machine/State.lean ====
section
/-!
DEFINITION. Machine/State.lean: everything the spec gives the machine, as plain data, and the state after reset.
INVENTORY.md lists each piece with its rule. Maps from identifiers are total: what a map does not list holds its reset
value, so that every stream slot, context, core and device exists whether or not it is listed.
-/
namespace Sys2Proof.Machine

/-! ### Memory and maps -/

/-- A memory: address and byte pairs, addresses strictly rising, no entry equal to what an unlisted address reads as
(log 2). -/
abbrev Memory := List Host.Cell

/-- What a byte that no entry lists reads as. DESIGN CHOICE, log 2; for typed buffers R15 gives 0x00. -/
def Memory.unlisted : Byte := 0#8

/-- The canonical form of a memory. -/
abbrev Memory.wf (m : Memory) : Prop :=
  m.Pairwise (fun a b => a.1 < b.1) ∧ ∀ c ∈ m, c.2 ≠ Memory.unlisted

/-- A map by key. -/
abbrev FMap (K V : Type) := List (K × V)

/-! ### Faults of the architecture (R289) -/

/-- The faults that the manual names (R289). -/
inductive FaultName where
  | trapOp
  | illegalOp | priv | crRo | crValue | execLimit | brAlign | vaRange | noMap | perm | window | bufPerm | remote
  | align | recAlign | semRange | tileRange | barScope | barTail | forkTail | foPair | fmtDesc | cvtWidth | vbank
  | hazard | latchEmpty | lcRange | rasEmpty | tailDepth | frameHdr | frameRace | matrixRec | metaMalformed | copyRec
  | copyLayout | expansion | semOvf | detLevel | coll | collPeer | collMismatch | groupRange | seqRange | query
  | querySize | planHandle | planPinned | hint | bind | statTid | statEntry | psaveState | prestState | stubOp
  | absent
  | planInvalid | cacheFull
  | cycleBound | setOverlap | copyOverlap
  | rasOvf | rasUnd
  | notMember | left | groupGap | apply
  | machineCheck | fenced
  | protectedRange | image
  deriving DecidableEq, Repr, Inhabited

/-- A fault with what its record holds (R290, R291): FADDR, DETAIL and cr.fsrc; `origin` is LOC of the faulting stream where the fault goes
to another one. -/
structure FaultRec where
  name : FaultName
  faddr : Word := 0
  detail : Word := 0
  src : BitVec 32 := 0
  eng : Bool := false
  wg : Bool := false
  origin : Option Nat := none
  deriving DecidableEq, Repr, Inhabited

/-- A record of the device fault log, with the words of R295. -/
structure LogRec where
  cause : Word
  epc : Word
  faddr : Word
  fdet : Word
  fsrc : BitVec 32
  time : Word
  deriving DecidableEq, Repr, Inhabited

/-! ### Places of bytes -/

/-- The typed buffers (R29). -/
inductive Buf where
  | wb | ab | cb
  deriving DecidableEq, Repr, Inhabited

/-- Where a byte lies once Translate has run (R306, R163, R292): Locate resolves `kt` in the step that performs. -/
inductive Loc where
  | kt (dev asid idx off : Nat)
  | sup (dev pa : Nat)
  | buf (x : CtxId) (b : Buf) (off : Nat)
  | mcast (xs : List CtxId) (b : Buf) (off : Nat)
  | remote (dev asid va eng : Nat)
  | void
  deriving DecidableEq, Repr, Inhabited

/-- A piece of an access (R71): its first byte and its length within one granule. -/
structure Piece where
  loc : Loc
  len : Nat
  at_ : Nat
  deriving DecidableEq, Repr, Inhabited

/-! ### Streams -/

/-- The states of a stream slot (R12). -/
inductive Status where
  | free | running | waiting | halted | saved
  deriving DecidableEq, Repr, Inhabited

/-- The two privileges (R293). -/
inductive Priv where
  | u | s
  deriving DecidableEq, Repr, Inhabited

/-- The states of a result latch (R198). -/
inductive LatchSt where
  | empty | pending | full
  deriving DecidableEq, Repr, Inhabited

/-- A result latch and, while a long unit's result is on its way, when it lands. -/
structure Latch where
  st : LatchSt := .empty
  val : Vec := 0
  due : Option (Nat × Vec) := none
  deriving DecidableEq, Repr, Inhabited

/-- A cursor (R23, R119): the place of the next instruction, the header of its block, the block's end and the passes
left, the current one included, and NOPRE of the header once the block is entered. At a header that has not been entered, pc = hdr. -/
structure Cursor where
  pc : Word := 0
  hdr : Word := 0
  fin : Word := 0
  rem : BitVec 32 := 1
  nopre : Bool := false
  deriving DecidableEq, Repr, Inhabited

/-- A register that an instruction writes, physical after rotation (R145). -/
inductive Reg where
  | s (n : BitVec 5)
  | v (n : BitVec 6)
  | p (n : BitVec 4)
  | lc (n : BitVec 2)
  | rrb
  deriving DecidableEq, Repr, Inhabited

/-- What a load writes when the execute cursor reaches it (R165). -/
inductive LoadDest where
  | scalar (d : BitVec 5) (sz : Nat) (signed : Bool)
  | vector (d : BitVec 6)
  | queue (q : BitVec 2)
  deriving DecidableEq, Repr, Inhabited

/-- The join points that stand in both queues as twins (R64, log 7). `gate` stands for a join point that the execute cursor waits at:
its twins enter when it issues, and leave with its own step. -/
inductive JoinOp where
  | mark
  | gate
  | fence (kind : FenceKind) (scope : Scope)
  | amo (op : Option AmoOp) (cas : Bool) (dbl : Bool) (ord : Ord) (scope : Scope) (d : BitVec 5) (v old : Word)
      (va : Word) (loc : Loc)
  deriving DecidableEq, Repr, Inhabited

/-- An entry of an LQ (R64): a load with its pieces and the bytes that it has read (a piece has performed when its first byte is among
them), or a twin. -/
inductive LqItem where
  | load (seq : Nat) (dest : LoadDest) (glc : Bool) (va : Word) (pieces : List Piece) (got : List (Nat × Byte))
  | twin (seq : Nat)
  deriving DecidableEq, Repr, Inhabited

/-- A performed load that awaits the execute cursor (R165). -/
structure LqDone where
  seq : Nat
  dest : LoadDest
  data : Vec
  deriving DecidableEq, Repr, Inhabited

/-- An entry of an SQ (R64): a store with its pieces and their bytes, a group store, or a twin. -/
inductive SqItem where
  | store (seq : Nat) (va : Word) (pieces : List (Piece × List Byte))
  | stg (seq : Nat) (g : BitVec 12) (rel : Bool) (l : BitVec 2) (off : Nat) (bytes : List Byte)
  | twin (seq : Nat) (op : JoinOp)
  deriving DecidableEq, Repr, Inhabited

/-- A vector or predicate write that has not landed (R185): the active byte lanes alone are written. -/
structure PendWrite where
  land : Nat
  reg : Reg
  val : Vec
  mask : Pred
  pc : Word
  deriving DecidableEq, Repr, Inhabited

/-- An entry of the tail table (R150). -/
inductive TailEntry where
  | live (fb fend : Word) (level : Nat) (slot : Nat)
  | defer (fb : Word) (level : Nat)
  deriving DecidableEq, Repr, Inhabited

/-- A return address and its DEFER bit (R147). -/
structure RasEntry where
  raddr : BitVec 56 := 0
  defer : Bool := false
  deriving DecidableEq, Repr, Inhabited

/-- The access side of a stream (R23, R24). `lead` counts the instructions that the access cursor stands ahead of the
execute cursor, `leadBlk` the blocks. `late` holds the LDQ without post-increment that the execute cursor has passed and
the access cursor has not performed (a full queue, or a fault: R23, R24): order, queue, address and place. `exAt` is the
place to which a trap is to return, while the access side is set aside; `sqBack` and `amoBack` are then the part of the SQ from its first
twin on, with what may not pass it, and the scalars of its atomics, which go back with it. -/
structure Access where
  cur : Cursor := {}
  exAt : Word × Word × BitVec 32 := (0, 0, 0)
  late : List (Nat × BitVec 2 × Word × Cursor) := []
  seq0 : Nat := 0
  lead : Nat := 0
  leadBlk : Nat := 0
  bases : List (Nat × BitVec 5 × Word) := []
  lcs : Vector (BitVec 32) 4 := Vector.replicate 4 0
  rrb : BitVec 5 := 0
  dirty : List (Nat × Reg) := []
  fault : Option (Nat × FaultRec) := none
  qs : Vector (List Vec) 4 := Vector.replicate 4 []
  lq : List LqItem := []
  done : List LqDone := []
  sqBack : List SqItem := []
  amoBack : List (BitVec 5) := []
  deriving DecidableEq, Repr, Inhabited

/-- The stub of a diverted stream (R134, R242, R243). -/
inductive Stub where
  | none
  | before
  | resumed
  deriving DecidableEq, Repr, Inhabited

/-- The registers of the trap path that each stream slot holds (R291). -/
structure TrapRegs where
  tvec : BitVec 56 := 0
  epc : BitVec 56 := 0
  ehdr : BitVec 56 := 0
  rem : BitVec 32 := 0
  cause : Word := 0
  fdet : Word := 0
  faddr : Word := 0
  fsrc : BitVec 32 := 0
  tscr0 : Word := 0
  tscr1 : Word := 0
  deriving DecidableEq, Repr, Inhabited

/-- A narrow format descriptor or a format of R45, resolved. -/
inductive Fmt where
  | nf (desc : BitVec 32)
  | int16 | int32 | int64 | fp16 | bf16 | fp32
  deriving DecidableEq, Repr, Inhabited

/-- The kinds of engine command (R207 to R230); `plan` is a command of the operator that a running plan performs (R89, R284, log 13). -/
inductive CmdKind where
  | mma | mmas | mzero | mcvt | mldacc | mstacc | mstat | cpy | cpyx | gth | sct | semsig | semwait | qfence | coll | plan
  deriving DecidableEq, Repr, Inhabited

/-- A range of the range checker (R26, R221): a space, its first byte and one past its last byte. -/
structure Range where
  space : Nat
  lo : Int
  hi : Int
  deriving DecidableEq, Repr, Inhabited

/-- An engine command: what its queue entry carries (R204), and its progress. `cache` holds the granules of its row that it has read
already (R71, R74, log 8). `descVa` is the record of a command that takes an invalid entry of the format table (R46), and `xferDev` the
target of the transfer that a COLL walks (R102); `ended` tells that a fault has ended it, at which its queue stays stopped (R223); `redo`
holds the transfer, the offset and the target of each chunk to be emitted again. -/
structure EngCmd where
  id : Nat
  entry : Nat := 0
  kind : CmdKind
  eng : Eng
  slot : SlotId
  x : CtxId
  asid : Nat
  priv : Priv := .u
  level : BitVec 2
  recA : BitVec 1024 := 0
  recB : BitVec 512 := 0
  sc : Word := 0
  ts : BitVec 2 := 0
  fo : Bool := false
  z : Bool := false
  auto : Bool := false
  rm : RMode := .rne
  latch : BitVec 2 := 0
  sem : BitVec 6 := 0
  n : BitVec 15 := 0
  fmtA : Option Fmt := none
  fmtB : Option Fmt := none
  uthr : BitVec 6 := 0
  semBound : BitVec 32 := 0
  reads : List Range := []
  writes : List Range := []
  after : List Nat := []
  bound : Option Nat := none
  row : Nat := 0
  idx : List Int := []
  checked : Bool := false
  started : Option Nat := none
  restart : Bool := false
  xfer : Nat := 0
  chunkOff : Nat := 0
  unacked : List Nat := []
  redo : List (Nat × Nat × Nat) := []
  returns : Nat := 0
  pageFault : Option FaultRec := none
  migrated : Option CoreId := none
  partialRows : List (List (BitVec 160 × Byte)) := []
  cache : FMap Nat (List Byte) := []
  descVa : Option Word := none
  xferDev : Option Nat := none
  ended : Bool := false
  deriving DecidableEq, Repr, Inhabited

/-- The state of an engine queue (R223): going on, stopped by a restartable fault until the handler returns, or
stopped for good. -/
inductive QStop where
  | going | restartable | ended
  deriving DecidableEq, Repr, Inhabited

/-- An engine queue. -/
structure EngQueue where
  cmds : List EngCmd := []
  stop : QStop := .going
  deriving DecidableEq, Repr, Inhabited

/-- What a control-register write asks of another agent and waits for (R94, R291, R310): `det` clears the bits `clr` of the
level and then sets the bits `set`, and waits for the commands and runs that the number `upto` names as earlier. -/
inductive CsrReq where
  | none
  | det (clr set : BitVec 2) (upto : Nat)
  | skip (e : Eng)
  | kill
  | kttAbsent (k : Nat)
  | kttPresent (k : Nat)
  | kttMigrate (k : Nat)
  deriving DecidableEq, Repr, Inhabited

/-- Why a stream waits (R12): `none` marks a wait that a save does not cut short, the others are those of R160, R174, R231
and R244; `join` marks a JOIN that has set its bit (R156), `gacq` a GACQ that has found its device a member, with its group and its target
(R110, R181), `sem` a SEMWAIT with its semaphore and its count (R227), and `handBack` a RELC whose hand-back stores are on their way
(R151). -/
inductive WaitFor where
  | none | waitt (t : Word) | bar (level : BarLevel) | sync | join | gacq (g : Nat) (n : BitVec 32)
  | sem (n : BitVec 6) (count : BitVec 15) | handBack | other
  deriving DecidableEq, Repr, Inhabited

/-- A stream slot (R10, R12, R14). `held` is the record that the instruction at the execute cursor has read and still waits with
(R151, R234, R247), `heldDet` the level at its issue (R234), and `cache` the granules of its record that it has read already (R71, log 8).
`joinAt` is the place of the join point that the stream issued last (R174). `busy` holds the interlocked registers that are not readable
before a cycle: scalars, and from 32 on tile registers (R257). -/
structure Stream where
  status : Status := .free
  owner : Nat := 0
  spawner : Option (Nat × Word) := none
  priv : Priv := .u
  s : Vector Word 32 := Vector.replicate 32 0
  v : Vector Vec 64 := Vector.replicate 64 0
  p : Vector Pred 16 := Vector.replicate 16 0
  l : Vector Latch 4 := Vector.replicate 4 {}
  lc : Vector (BitVec 32) 4 := Vector.replicate 4 0
  rrb : BitVec 5 := 0
  fmt : Vector (BitVec 32) 16 := Vector.replicate 16 0
  uthr : BitVec 6 := 8
  vsc : BitVec 32 := 0
  vcnt : Word := 0
  ret : BitVec 4 := 0
  tx : Vector (BitVec 32768) 2 := Vector.replicate 2 0
  rasCount : BitVec 5 := 0
  rasSpill : BitVec 32 := 0
  ras : Vector RasEntry 16 := Vector.replicate 16 {}
  rasBase : BitVec 54 := 0
  tails : List TailEntry := []
  ex : Cursor := {}
  seq : Nat := 0
  acc : Access := {}
  sq : List SqItem := []
  pend : List PendWrite := []
  amoPend : List (BitVec 5) := []
  joinAt : Option (Nat × Cursor) := none
  busy : List (Nat × Nat) := []
  stub : Stub := .none
  divert : Cursor := {}
  divAcc : Option Access := none
  omitv : BitVec 4 := 0
  omits : Bool := false
  trap : TrapRegs := {}
  aside : Option Access := none
  revived : Bool := false
  pendFaults : List FaultRec := []
  engIssue : Option EngCmd := none
  lastCe : Option Nat := none
  csrReq : CsrReq := .none
  held : Option (List Byte) := none
  heldDet : BitVec 2 := 1
  cache : FMap Nat (List Byte) := []
  yield : Nat := 0
  idle : Nat := 0
  wake : BitVec 4 := 0
  wait : WaitFor := .none
  deriving DecidableEq, Repr, Inhabited

/-! ### Contexts and plans -/

/-- A tensor that a plan has materialized (R82, R83): its extents, its format (none for XW), its elements in row-major order
as bit patterns of that format, or as XW values with their status bytes, the scale byte of each element where it is scaled,
and the flags and the underflows of its conversion. -/
structure Tensor where
  dims : List Nat := []
  fmt : Option Fmt := none
  pats : List Nat := []
  xw : List (BitVec 160 × Byte) := []
  scales : List Byte := []
  flags : BitVec 4 := 0
  under : Nat := 0
  deriving DecidableEq, Repr, Inhabited

/-- What a run writes to DEST (R248): elements with their patterns, the scale byte of each where it is scaled, what QSTAT shows of it, and
the tensor whose values a rewrite of its statistics sees (R87). -/
structure DestWrites where
  cells : List (Nat × Nat)
  scales : List (Nat × Byte) := []
  flags : BitVec 4 := 0
  under : Nat := 0
  skipped : Nat := 0
  after : Tensor := {}
  deriving DecidableEq, Repr, Inhabited

/-- A run of a plan (R89 to R91): the results of its first nodes; `frozen` marks a page fault that the handler has still to
deal with. `id` numbers the run, `placed` are the WGs on whose cores it may place work (R89, R96), `staged` those whose queues hold the
commands of the operator that it performs (R284), and `used` those on whose cores it has placed work (R269). `cache` holds the granules of
the leaves of its operator that it has read already (R71, log 8), `out` what it writes to DEST once that is known, and `sent` the command
that carries those writes once they are on their way. -/
structure PlanRun where
  id : Nat := 0
  placed : List Nat := []
  staged : List Nat := []
  used : List Nat := []
  slot : SlotId
  asid : Nat
  priv : Priv := .u
  level : BitVec 2
  binding : BitVec 1152
  results : List Tensor := []
  atBreak : Bool := false
  frozen : Bool := false
  ests : List (Nat × Nat × Nat) := []
  cache : FMap Nat (List Byte) := []
  out : Option DestWrites := none
  sent : Option Nat := none
  deriving DecidableEq, Repr, Inhabited

/-- A plan (R88, R89, R91, R92, R235): the query, the statistics entries of its leaves as they were read, and the estimates
at the break after each node. `free` is the free-choice number of its planning, and `placed` its placement, the WGs on whose cores a run of
it may place work. -/
structure Plan where
  free : Nat := 0
  placed : List Nat := []
  query : BitVec 5632
  vaQuery : Word
  entries : List (BitVec 512)
  ests : List (Nat × Nat × Nat)
  hints : BitVec 512 := 0
  pinned : Bool := false
  current : Bool := true
  level : BitVec 2
  stamp : Nat
  done : Bool := false
  runRepl : Nat := 0
  brkRepl : Nat := 0
  declined : BitVec 16 := 0
  skipped : Nat := 0
  brk : Option (Nat × (Nat × Nat × Nat) × (Nat × Nat × Nat)) := none
  flags : BitVec 4 := 0
  run : Option PlanRun := none
  deriving DecidableEq, Repr, Inhabited

/-- A slot of the plan cache (R88). -/
structure PlanSlot where
  gen : BitVec 20 := 1
  plan : Option Plan := none
  used : Bool := false
  deriving DecidableEq, Repr, Inhabited

/-- A context of a core (R14, R15). -/
structure Ctx where
  live : Option (Nat × Nat) := none
  cb : BitVec 8 := 0
  sems : Vector (BitVec 16) 64 := Vector.replicate 64 0
  det : BitVec 2 := 1
  mrowValid : Bool := false
  mrowRow : BitVec 8 := 0
  replan : BitVec 8 := 32
  semb : BitVec 32 := 0
  mcset : Vector (BitVec 40) 8 := Vector.replicate 8 0
  hzdEn : Bool := false
  hzdMode : Bool := false
  stbase : BitVec 41 := 0
  stcount : BitVec 13 := 0
  collBase : BitVec 45 := 0
  collN : BitVec 11 := 0
  codebase : BitVec 56 := 0
  codelim : BitVec 56 := 0
  kttnpa : BitVec 36 := 0
  asid : BitVec 14 := 0
  wb : Memory := []
  ab : Memory := []
  cbuf : Memory := []
  dirtyWb : BitVec 1024 := 0
  dirtyAb : BitVec 768 := 0
  dirtyCb : BitVec 384 := 0
  plans : FMap Nat PlanSlot := []
  lockstep : Bool := false
  preempt : Bool := false
  deriving DecidableEq, Repr, Inhabited

/-! ### Cores -/

/-- A store that has left its queue (R63): one granule piece on its way to its visibility point. -/
structure PathItem where
  loc : Loc
  bytes : List Byte
  owner : Option (SlotId × Nat)
  x : CtxId := default
  cmd : Option Nat
  row : Nat := 0
  deriving DecidableEq, Repr, Inhabited

/-- What several agents may touch in one cycle: the three engine queues of a core, a semaphore, the condition-sync bits, or a granule
of a buffer of one of its contexts (R25, R32, R155, R227), or its plan cache (R98). -/
inductive TurnKey where
  | entry
  | plan (ctx : Nat)
  | sem (ctx : Nat) (n : BitVec 6)
  | cb (ctx : Nat)
  | granule (ctx : Nat) (b : Buf) (g : Nat)
  deriving DecidableEq, Repr, Inhabited

/-- A core (R10, R25, R63). `issued` is, for each cluster, the number of the cycle after the one in which it last issued, and `last` the
slot that it issued then (R13); `lastRelc` is the slot whose RELC took a tail slot of the cluster last (R161); `lost` are the copies that
ended in a fault before their follow-on entered its queue (R37). `lastN` is the slot number that the shared rotation of lock step took last,
and `share` the one that it has taken in this cycle (R13). `turns` holds the rank of the last step in this cycle on what several agents
touch; `lastIn` is for each engine queue the slot that entered last (R25); `semRot` is the slot from which the rotation of R227 starts in
this cycle, and the next start; `planRot` is the same for R98. -/
structure Core where
  me : EngQueue := {}
  ce : EngQueue := {}
  cs : EngQueue := {}
  paths : List PathItem := []
  glc : FMap Nat Vec := []
  icache : FMap (Nat × Nat) Vec := []
  token : Bool := false
  fenced : Bool := false
  lastTail : BitVec 4 := 0
  lastRelc : Vector Nat 4 := Vector.replicate 4 3
  lost : List Nat := []
  issued : Vector Nat 4 := Vector.replicate 4 0
  last : Vector Nat 4 := Vector.replicate 4 3
  lastN : Nat := 3
  share : Option Nat := none
  turns : FMap TurnKey Nat := []
  lastIn : Vector Nat 3 := Vector.replicate 3 15
  semRot : Nat × Nat := (15, 15)
  planRot : Nat × Nat := (15, 15)
  deriving DecidableEq, Repr, Inhabited

/-! ### Devices -/

/-- A bound KTT entry (R304) as the device holds it. -/
structure KttEntry where
  va : Nat
  pa : Nat
  host : Bool := false
  state : BitVec 2
  layout : BitVec 2
  log2 : Nat
  permMask : BitVec 20
  npa : Nat := 0
  wmark : Nat := 0
  deriving DecidableEq, Repr, Inhabited

/-- A KTT held under an ASID (R308). -/
structure Ktt where
  entries : List KttEntry := []
  busy : Option Nat := none
  deriving DecidableEq, Repr, Inhabited

/-- A stamped item of a group (R77, R110). -/
inductive GItem where
  | store (off : Nat) (bytes : List Byte)
  | joinRec (dev : Nat)
  | leaveRec (dev : Nat)
  deriving DecidableEq, Repr, Inhabited

/-- A live group-table entry and its receiver (R108, R77). -/
structure GEntry where
  applied : BitVec 32 := 0
  next : BitVec 32 := 0
  valid : Bool := false
  member : Bool := false
  gapto : BitVec 20 := 0
  epoch : BitVec 16 := 0
  home : BitVec 16 := 0
  lbase : Word := 0
  lsize : BitVec 32 := 0
  mva : Word := 0
  asid : Nat := 0
  joining : Bool := false
  held : List (BitVec 32 × GItem) := []
  gapSince : Option Word := none
  gapRaised : Bool := false
  applyStall : Bool := false
  deriving DecidableEq, Repr, Inhabited

/-- A launch (R14 to R20, R277) with what its image and its queue's supervisor record give. `startedAt` is when it started or last
resumed, and `timers` holds for each resident WG when its T1 began to count and when it fired (R285). `resuming` marks a cooperative launch
whose WGs have all been saved and are being restored (R16). -/
structure Launch where
  q : Nat
  idx : Nat
  asid : BitVec 14
  level : BitVec 2
  wgcount : Nat
  coop : Bool
  excl : Bool
  hzdEn : Bool
  hzdMode : Bool
  fields : BitVec 8
  podtag : BitVec 16
  codeva : Nat
  codelen : Nat
  datava : Word
  codeSnap : List Byte := []
  barlvl : Nat
  vbanks : Nat
  entry : List (Option Nat)
  drains : List (Nat × Nat × Nat)
  wbres : Nat := 0
  abres : Nat := 0
  cbres : Nat := 0
  svbase : Option (Nat × Nat) := none
  tvec : BitVec 56 := 0
  stbase : Word := 0
  collrt : Word := 0
  ncores : Nat
  bound : List KttEntry := []
  nextWg : Nat := 0
  batch : List (Nat × Nat) := []
  running : List (Nat × CtxId) := []
  savedWgs : List (Nat × Nat) := []
  retired : FMap (Nat × Nat) Nat := []
  issued : FMap (Nat × Nat) Nat := []
  begun : Bool := false
  startedAt : Option Word := none
  timers : FMap Nat (Word × Option Word) := []
  t2at : Option Word := none
  lost : List CtxId := []
  resuming : Bool := false
  done : Bool := false
  deriving DecidableEq, Repr, Inhabited

/-- A packet that the parser has taken and that has not completed (R275). -/
inductive PktSt where
  | held | ready | started
  deriving DecidableEq, Repr, Inhabited

/-- A taken packet. -/
structure Pkt where
  q : Nat
  idx : Nat
  words : BitVec 512
  st : PktSt
  launch : Option Nat := none
  deriving DecidableEq, Repr, Inhabited

/-- The last part of a completed packet: its SIGEN decrement and its interrupt (R282). -/
structure Signal where
  sctr : Option (Nat × Nat)
  intr : Option Nat
  deriving DecidableEq, Repr, Inhabited

/-- A hardware queue slot (R283). -/
structure QSlot where
  qid : Nat := 0
  prio : BitVec 4 := 0
  valid : Bool := false
  deriving DecidableEq, Repr, Inhabited

/-- A retirement (R321). -/
structure Spare where
  kind : Nat
  field : Nat
  target : Nat
  arg : Nat
  deriving DecidableEq, Repr, Inhabited

/-- A reticle field (R312 to R318, R323). `step` is the bring-up step under way, 0 none; `coreMap` gives the physical core of each logical
one, and `fenced` the physical cores that the watchdog has fenced (R285, R325). -/
structure Field where
  state : BitVec 3 := 0
  fstep : BitVec 4 := 0
  locked : Bool := false
  throt : Bool := false
  ncore : Nat := 0
  step : Nat := 0
  stepSince : Word := 0
  temp : BitVec 16 := 0
  ilim : Nat := 640
  tokens : Nat := 40
  ring : List Nat := []
  waiting : Bool := false
  marginW : BitVec 16 := 0xFFFF
  eye : BitVec 16 := 0xFFFF
  corr : BitVec 32 := 0
  named : List Spare := []
  applied : List Spare := []
  coreMap : List (Nat × Nat) := []
  fenced : List Nat := []
  pllUp : Bool := false
  memUp : Bool := false
  deriving DecidableEq, Repr, Inhabited

/-- An image slot in use (R297): the WG that it holds, where it was saved, and what the image keeps in the device's own format
(R298, log 15): the queue entries, the plans and the bookkeeping of the context and of its streams. The contents that R299 to
R302 lay out are read back from the image. -/
structure ImageSlot where
  launch : Nat
  wgid : Nat
  x : CtxId
  ctx : Ctx
  streams : List (SlotId × Stream)
  queues : List EngCmd
  deriving DecidableEq, Repr, Inhabited

/-- The roles of a chunk in flight (R103 to R105). -/
inductive ChunkKind where
  | write | getReq | contrib | ret | acked
  deriving DecidableEq, Repr, Inhabited

/-- A chunk of a collective in flight (R104). -/
structure Chunk where
  id : Nat
  kind : ChunkKind
  cmd : Nat
  core : CoreId
  x : CtxId
  dev : Nat
  asid : Nat
  dva : Nat
  bytes : List Byte
  xfer : Nat
  off : Nat
  recw : BitVec 1024
  fault : Option FaultRec := none
  deriving DecidableEq, Repr, Inhabited

/-- A slot of a reduction unit (R105). -/
structure RedSlot where
  tag : BitVec 16
  d : Nat
  asid : Nat
  key : BitVec 128
  got : List Chunk := []
  sums : List (BitVec 320 × BitVec 4) := []
  deriving DecidableEq, Repr, Inhabited

/-- An action of cr.gtcmd in progress (R109), with the launch whose supervisor asked for it. -/
structure GtReq where
  act : Nat
  dev : Nat
  group : BitVec 12
  asid : Nat
  launch : Option Nat := none
  deriving DecidableEq, Repr, Inhabited

/-- A device of the pod. `dma` is the window of the firmware core's DMA, once the boot ROM has set it, and `dmaRefused` the addresses of
attempts outside it (R288); `stops` are the queues that a kill has still to stop, with the packet's index, their descriptors standing at a
field that is not in service (R285, R314). -/
structure Device where
  mem : Memory := []
  hostMem : Memory := []
  time : Word := 0
  timeSrc : BitVec 2 := 0
  timeLocked : Bool := false
  cycle : Nat := 0
  gtbase : BitVec 39 := 0
  gtReq : Option GtReq := none
  gt : FMap Nat GEntry := []
  fields : Vector Field 8 := Vector.replicate 8 {}
  ktts : FMap Nat Ktt := []
  flbase : BitVec 46 := 0
  flvec : BitVec 11 := 0
  fllog2n : BitVec 5 := 0
  flwptr : BitVec 32 := 0
  fllost : BitVec 32 := 0
  flrptr : BitVec 32 := 0
  logQueue : List LogRec := []
  savebase : BitVec 28 := 0
  savenum : BitVec 16 := 0
  fctlLock : Bool := false
  spres : BitVec 8 := 0
  attreq : BitVec 2 := 0
  nonce : Vector Byte 32 := Vector.replicate 32 0
  quote : List Byte := List.replicate 3309 0
  attlog : List (List Byte) := []
  fuse : BitVec 16 := 0
  advances : Nat := 0
  fwRunning : Bool := false
  fwSvn : BitVec 16 := 0
  fwEntry : BitVec 32 := 0
  tcm : List Byte := []
  dma : Option (Nat × Nat) := none
  dmaRefused : List Nat := []
  slots : FMap Nat QSlot := []
  fwTick : Bool := false
  fwWdog : Bool := false
  fwQerr : Bool := false
  pendq : List Nat := []
  qtbase : BitVec 46 := 0
  tickAt : Word := 0
  pkts : List Pkt := []
  ready : List (Nat × Nat) := []
  signals : List Signal := []
  arms : List Nat := []
  launches : FMap Nat Launch := []
  images : FMap Nat ImageSlot := []
  msix : List Nat := []
  red : FMap (Nat × Nat) RedSlot := []
  stops : List (Nat × Nat) := []
  deriving DecidableEq, Repr, Inhabited

/-! ### Between devices -/

/-- A home switch of one group (R77, R108, R111). `started` tells that the fleet manager has started it (R109), and `joins` the sequence of
each joiner's record (R110). -/
structure HomeSt where
  ctr : BitVec 32 := 0
  started : Bool := false
  joins : FMap Nat (BitVec 32) := []
  members : List Nat := []
  held : List (BitVec 32 × GItem) := []
  deriving DecidableEq, Repr, Inhabited

/-- What travels to a home switch (R77, R109). -/
inductive ToHome where
  | store (slot : SlotId) (seq : Nat) (l : BitVec 2) (off : Nat) (bytes : List Byte)
  | join (dev : Nat)
  | leave (dev : Nat)
  | resend (dev : Nat) (after : BitVec 32)
  deriving DecidableEq, Repr, Inhabited

/-- A message to a home switch. -/
structure HomeMsg where
  home : BitVec 16
  g : Nat
  dev : Nat
  item : ToHome
  deriving DecidableEq, Repr, Inhabited

/-- A stamped item on its way to a member (R77). -/
structure Delivery where
  home : BitVec 16
  g : Nat
  dev : Nat
  seq : BitVec 32
  item : GItem
  deriving DecidableEq, Repr, Inhabited

/-! ### The machine -/

/-- Which cursor of the current stream acts (R23). -/
inductive Side where
  | execute | access
  deriving DecidableEq, Repr, Inhabited

/-- The whole machine. -/
structure State where
  pod : List Nat
  streams : FMap SlotId Stream
  ctxs : FMap CtxId Ctx
  cores : FMap CoreId Core
  devs : FMap Nat Device
  homes : FMap (Nat × Nat) HomeSt
  toHome : List HomeMsg
  deliveries : List Delivery
  chunks : List Chunk
  cur : SlotId
  side : Side
  agenda : List Move
  clock : Nat
  nextId : Nat
  deriving DecidableEq, Repr

/-- Why the machine itself stops: it never does. Every fault that the manual names is taken inside the machine (R293, R295), and no other
stops a step, so that this type has no constructor. -/
inductive Fault where
  deriving DecidableEq, Repr

/-- Why a step has no meaning. -/
inductive Refusal where
  /-- An instruction without a meaning yet. Safe: nothing is proved of it. -/
  | notModelled (mnemonic : String)
  deriving DecidableEq, Repr

/-- A field that starts at device reset (R313, R314). -/
def Field.starting : Field := { state := 1, step := 1 }

/-- A device after reset: field 0 starts bring-up first, and the others wait for their predecessors (R313). -/
def Device.reset : Device := { fields := (Vector.replicate 8 { waiting := true }).set 0 Field.starting }

/-- The machine right after reset: device 0 alone (log 1), no WG dispatched, every register at its reset value. -/
def State.reset : State :=
  { pod := [0], streams := [], ctxs := [], cores := [], devs := [(0, Device.reset)], homes := [], toHome := [],
    deliveries := [], chunks := [], cur := ⟨⟨0, 0, 0⟩, 0, 0⟩, side := .execute, agenda := [], clock := 0, nextId := 1 }

end Sys2Proof.Machine
end

