-- ==== Sys2Proof/Machine/Bits.lean ====
section
/-!
DEFINITION. Machine/Bits.lean: bit fields, sign extension, byte order (R3), maps and memories.
-/
namespace Sys2Proof.Machine

/-! ### Bit fields and sign extension -/

/-- The bits [lo + n − 1 : lo] of a number. -/
def nbits (x lo n : Nat) : Nat := x / 2 ^ lo % 2 ^ n

/-- Bit i of a number. -/
def nbit (x i : Nat) : Bool := x / 2 ^ i % 2 == 1

/-- Sign-extend a bit vector to a word. -/
def sx {n : Nat} (x : BitVec n) : Word := x.signExtend 64

/-- Zero-extend a bit vector to a word. -/
def zx {n : Nat} (x : BitVec n) : Word := x.setWidth 64

/-- The low n bits of a number as two's complement. -/
def toSigned (n x : Nat) : Int :=
  let y := x % 2 ^ n
  if 2 * y < 2 ^ n then (y : Int) else (y : Int) - 2 ^ n

/-- An integer modulo 2^n. -/
def wrapN (n : Nat) (x : Int) : Nat := (x % (2 ^ n : Int)).toNat

/-- Clamp an integer. -/
def clampI (lo hi x : Int) : Int := if x < lo then lo else if hi < x then hi else x

/-- The number of one bits among the low k bits. -/
def popN : Nat → Nat → Nat
  | 0, _ => 0
  | k + 1, x => x % 2 + popN k (x / 2)

/-- Division rounded up. -/
def ceilDiv (a b : Nat) : Nat := (a + b - 1) / b

/-! ### Bytes (R3: little-endian) -/

/-- A number from bytes, the lowest address first. -/
def bytesNat : List Byte → Nat
  | [] => 0
  | b :: bs => b.toNat + 256 * bytesNat bs

/-- The n low bytes of a number, lowest address first. -/
def natBytes : Nat → Nat → List Byte
  | 0, _ => []
  | n + 1, x => BitVec.ofNat 8 x :: natBytes n (x / 256)

/-- The bytes of a bit vector of 8n bits. -/
def bvBytes {w : Nat} (n : Nat) (x : BitVec w) : List Byte := natBytes n x.toNat

/-- A bit vector from bytes. -/
def bytesBv (w : Nat) (bs : List Byte) : BitVec w := BitVec.ofNat w (bytesNat bs)

/-- 32-bit word k of a record (R8). -/
def recWord {w : Nat} (r : BitVec w) (k : Nat) : BitVec 32 := r.extractLsb' (32 * k) 32

/-- The bits [lo + n − 1 : lo] of word k of a record. -/
def recFld {w : Nat} (r : BitVec w) (k lo n : Nat) : Nat := (r.extractLsb' (32 * k + lo) n).toNat

/-- A 64-bit value in words k and k + 1 of a record, low word first. -/
def rec64 {w : Nat} (r : BitVec w) (k : Nat) : Word := r.extractLsb' (32 * k) 64

/-- Word k of a record as two's complement. -/
def recInt {w : Nat} (r : BitVec w) (k : Nat) : Int := (recWord r k).toInt

/-- The numbers from 0 to n − 1. -/
def upTo (n : Nat) : List Nat := List.range n

/-! ### Maps -/

/-- Look a key up. -/
def fget? {K V : Type} [DecidableEq K] : FMap K V → K → Option V
  | [], _ => none
  | (k', v) :: r, k => if k' = k then some v else fget? r k

/-- Look a key up; an unlisted key holds `d`. -/
def fget {K V : Type} [DecidableEq K] (m : FMap K V) (k : K) (d : V) : V := (fget? m k).getD d

/-- Set a key. -/
def fset {K V : Type} [DecidableEq K] : FMap K V → K → V → FMap K V
  | [], k, v => [(k, v)]
  | (k', v') :: r, k, v => if k' = k then (k, v) :: r else (k', v') :: fset r k v

/-- Remove a key. -/
def fdel {K V : Type} [DecidableEq K] : FMap K V → K → FMap K V
  | [], _ => []
  | (k', v') :: r, k => if k' = k then fdel r k else (k', v') :: fdel r k

/-! ### Memories -/

/-- Read one byte. -/
def mget : Memory → Nat → Byte
  | [], _ => Memory.unlisted
  | (a', b) :: r, a => if a' = a then b else if a < a' then Memory.unlisted else mget r a

/-- Write one byte, keeping the canonical form. -/
def mset : Memory → Nat → Byte → Memory
  | [], a, b => if b = Memory.unlisted then [] else [(a, b)]
  | (a', b') :: r, a, b =>
    if a' = a then (if b = Memory.unlisted then r else (a, b) :: r)
    else if a < a' then (if b = Memory.unlisted then (a', b') :: r else (a, b) :: (a', b') :: r)
    else (a', b') :: mset r a b

/-- Read n bytes from a. -/
def mread (m : Memory) : Nat → Nat → List Byte
  | _, 0 => []
  | a, n + 1 => mget m a :: mread m (a + 1) n

/-- Write bytes from a. -/
def mwrite : Memory → Nat → List Byte → Memory
  | m, _, [] => m
  | m, a, b :: bs => mwrite (mset m a b) (a + 1) bs

end Sys2Proof.Machine
end

