-- ==== Sys2Proof/Machine/Num.lean ====
section
/-!
DEFINITION. Machine/Num.lean: number formats and exact arithmetic (R39 to R45, R54 to R56, R189, R197).
A value is NaN, an infinity, or an exact dyadic number with a sign, so that −0 is kept.
-/
namespace Sys2Proof.Machine

/-- An exact value: NaN, ±∞, or (−1)^neg × m × 2^e. -/
inductive Num where
  | nan
  | inf (neg : Bool)
  | fin (neg : Bool) (m : Nat) (e : Int)
  deriving DecidableEq, Repr, Inhabited

/-- The parameters of a format (R39 to R41): `ew` = 0 marks a fixed-point or integer format. -/
structure Par where
  w : Nat
  ew : Nat
  sgn : Bool
  bias : Int
  specials : Nat
  sub : Bool
  sat : Bool
  deriving DecidableEq, Repr, Inhabited

/-- The mantissa width M = W − E − S (R41). -/
def Par.mw (f : Par) : Nat := f.w - f.ew - (if f.sgn then 1 else 0)

/-- An integer format of R39. -/
def Par.int (w : Nat) : Par := ⟨w, 0, true, 0, 0, false, true⟩
/-- An IEEE format of R40. -/
def Par.ieee (w ew : Nat) (bias : Int) : Par := ⟨w, ew, true, bias, 2, true, false⟩

/-- The parameters of an NF descriptor (R41). -/
def nfPar (d : BitVec 32) : Par :=
  let n := d.toNat
  ⟨nbits n 0 4, nbits n 4 3, nbit n 7, toSigned 8 (nbits n 8 8), nbits n 16 2, nbit n 18, nbit n 19⟩

/-- A descriptor is valid (R42). -/
def nfValid (d : BitVec 32) : Bool :=
  let f := nfPar d
  decide (2 ≤ f.w) && decide (f.w ≤ 8) && decide (f.ew + (if f.sgn then 1 else 0) ≤ f.w) &&
  f.specials != 3 && nbits d.toNat 20 12 == 0 &&
  (f.specials != 0 || f.sat) &&
  (f.ew != 0 || (f.specials == 0 && !f.sub)) &&
  (f.specials != 1 || decide (1 ≤ f.ew)) &&
  (f.specials != 2 || (f.sgn && decide (2 ≤ f.ew) && decide (1 ≤ f.mw)))

/-- The parameters of a format. -/
def Fmt.par : Fmt → Par
  | .nf d => nfPar d
  | .int16 => .int 16
  | .int32 => .int 32
  | .int64 => .int 64
  | .fp16 => .ieee 16 5 15
  | .bf16 => .ieee 16 8 127
  | .fp32 => .ieee 32 8 127

/-- The container width in bits (R43). -/
def Fmt.cw : Fmt → Nat
  | .nf d => if (nfPar d).w ≤ 4 then 4 else 8
  | .int16 => 16 | .int32 => 32 | .int64 => 64 | .fp16 => 16 | .bf16 => 16 | .fp32 => 32

/-- A format is usable: an NF descriptor is valid (R42). -/
def Fmt.ok : Fmt → Bool
  | .nf d => nfValid d
  | .int16 | .int32 | .int64 | .fp16 | .bf16 | .fp32 => true

/-- The format of a vector element type (R183, R39, R40). -/
def tyFmt : VTy → Fmt
  | .i8 => .nf 0x00080088#32
  | .i16 => .int16 | .i32 => .int32 | .i64 => .int64
  | .f16 => .fp16 | .bf16 => .bf16 | .f32 => .fp32

/-- The format that a code names when it is neither NF nor a table entry (R45). -/
def codeFmt : Nat → Option Fmt
  | 1 => some .int16 | 2 => some .int32 | 3 => some .int64 | 4 => some .fp16 | 5 => some .bf16 | 6 => some .fp32
  | _ => none

/-! ### Decode (R44) -/

/-- The exact value of a pattern. -/
def decodeNum (f : Par) (p : Nat) : Num :=
  let p := p % 2 ^ f.w
  if f.ew = 0 then
    if f.sgn && nbit p (f.w - 1) then .fin true (2 ^ f.w - p) (-f.bias) else .fin false p (-f.bias)
  else
    let s := f.sgn && nbit p (f.w - 1)
    let e := nbits p f.mw f.ew
    let m := nbits p 0 f.mw
    if f.specials == 1 && e == 2 ^ f.ew - 1 && m == 2 ^ f.mw - 1 then .nan
    else if f.specials == 2 && e == 2 ^ f.ew - 1 then (if m == 0 then .inf s else .nan)
    else if e == 0 then .fin s (if f.sub then m else 0) (1 - f.bias - f.mw)
    else .fin s (2 ^ f.mw + m) (e - f.bias - f.mw)

/-- MaxFin(f) as a mantissa and an exponent (R44). -/
def maxFin (f : Par) : Nat × Int :=
  if f.ew = 0 then ((if f.sgn then 2 ^ (f.w - 1) - 1 else 2 ^ f.w - 1), -f.bias)
  else
    let top := 2 ^ f.ew - 1
    let one := 2 ^ f.mw
    if f.specials = 0 then (2 * one - 1, top - f.bias - f.mw)
    else if f.specials = 1 then
      if f.mw ≠ 0 then (2 * one - 2, top - f.bias - f.mw)
      else if top = 1 then (0, 0) else (one, (top : Int) - 1 - f.bias - f.mw)
    else (2 * one - 1, (top : Int) - 1 - f.bias - f.mw)

/-! ### Round and Encode (R54, R55) -/

/-- Round the magnitude m × 2^e of a number of the given sign to an integer (R54). -/
def roundMag (mode : RMode) (neg : Bool) (m : Nat) (e : Int) : Nat :=
  if 0 ≤ e then m * 2 ^ e.toNat
  else
    let k := (-e).toNat
    if m.log2 + 2 < k then
      -- the value lies below one quarter
      match mode with
      | .rne | .rtz => 0
      | .rup => if m ≠ 0 && !neg then 1 else 0
      | .rdn => if m ≠ 0 && neg then 1 else 0
    else
      let q := m / 2 ^ k
      let r := m % 2 ^ k
      let up := match mode with
        | .rne => decide (2 ^ k < 2 * r) || (2 * r == 2 ^ k && q % 2 == 1)
        | .rtz => false
        | .rup => !neg && r != 0
        | .rdn => neg && r != 0
      if up then q + 1 else q

/-- Round(x, mode) of a finite value (R54). -/
def roundInt (mode : RMode) (neg : Bool) (m : Nat) (e : Int) : Int :=
  let r := roundMag mode neg m e
  if neg then -(r : Int) else r

/-- m1 × 2^e1 > m2 × 2^e2. -/
def magGt (m1 : Nat) (e1 : Int) (m2 : Nat) (e2 : Int) : Bool :=
  let e := min e1 e2
  decide (m2 * 2 ^ (e2 - e).toNat < m1 * 2 ^ (e1 - e).toNat)

/-- The sign bit of a pattern. -/
def signBit (f : Par) (neg : Bool) : Nat := if f.sgn && neg then 2 ^ (f.w - 1) else 0

/-- Pack r × 2^(k − M), r below 2^(M + 1) + 1, k the exponent of R55. -/
def packMag (f : Par) (neg : Bool) (r : Nat) (k : Int) : Nat :=
  if r < 2 ^ f.mw then signBit f neg + r
  else
    let l := r.log2
    let ef := (l : Int) + (k - f.mw) + f.bias
    signBit f neg + ef.toNat * 2 ^ f.mw + (r / 2 ^ (l - f.mw)) % 2 ^ f.mw

/-- The pattern of ±MaxFin(f). -/
def packMax (f : Par) (neg : Bool) : Nat :=
  if f.ew = 0 then
    if neg then (if f.sgn then wrapN f.w (-((maxFin f).1 : Int)) else 0) else (maxFin f).1
  else if neg && !f.sgn then 0
  else
    let (m, e) := maxFin f
    packMag f neg m (e + f.mw)

/-- The pattern of ±∞ of a format with SPECIALS = 2. -/
def infPat (f : Par) (neg : Bool) : Nat := signBit f neg + (2 ^ f.ew - 1) * 2 ^ f.mw

/-- NaNPattern(f) (R55). -/
def nanPat (f : Par) : Nat :=
  if f.specials = 1 then 2 ^ f.w - 1 else (2 ^ f.ew - 1) * 2 ^ f.mw + 2 ^ (f.mw - 1)

/-- Overflow of R55 for a value of the given sign. -/
def overflowPat (f : Par) (mode : RMode) (neg : Bool) : Nat :=
  let toZero := f.sat || (match mode with
    | .rtz => true
    | .rdn => !neg
    | .rup => neg
    | .rne => false)
  if toZero then packMax f neg else if f.specials = 2 then infPat f neg else nanPat f

/-- Encode of a finite value under a block scale (R55): the pattern and the underflow bit. -/
def encodeFin (f : Par) (mode : RMode) (sc : Int) (neg : Bool) (m : Nat) (e : Int) : Nat × Bool :=
  let e := e - sc
  if !f.sgn && neg && m != 0 then (0, false)
  else if f.ew = 0 then
    let n := roundInt mode neg m (e + f.bias)
    let lo : Int := if f.sgn then -(2 ^ (f.w - 1)) else 0
    let hi : Int := if f.sgn then 2 ^ (f.w - 1) - 1 else 2 ^ f.w - 1
    let c := clampI lo hi n
    (wrapN f.w c, m != 0 && c == 0)
  else if m = 0 then (signBit f neg, false)
  else
    let k := max ((m.log2 : Int) + e) (1 - f.bias)
    let r0 := roundMag mode neg m (e - (k - f.mw))
    let r := if !f.sub && decide (r0 < 2 ^ f.mw) then 0 else r0
    let (mm, me) := maxFin f
    if magGt r (k - f.mw) mm me then (overflowPat f mode neg, false)
    else if r = 0 then (signBit f neg, true)
    else (packMag f neg r k, false)

/-- The entry of R56 for a NaN or an infinity: the pattern and the lost-special mark L. -/
def specialPat (f : Par) (x : Num) : Nat × Bool :=
  match x with
  | .nan =>
    if f.ew = 0 || f.specials = 0 then (0, true) else (nanPat f, false)
  | .inf neg =>
    if f.ew = 0 then
      (if neg then (if f.sgn then 2 ^ (f.w - 1) else 0) else packMax f false, true)
    else if f.specials = 0 then (packMax f neg, true)
    else if f.specials = 1 then (if f.sat then packMax f neg else nanPat f, true)
    else (infPat f neg, false)
  | .fin _ _ _ => (0, false)

/-- Encode any value: the pattern, the underflow bit U and the lost-special mark L (R55, R56). -/
def encodeNum (f : Par) (mode : RMode) (sc : Int) (x : Num) : Nat × Bool × Bool :=
  match x with
  | .fin neg m e => let r := encodeFin f mode sc neg m e; (r.1, r.2, false)
  | .nan => let r := specialPat f .nan; (r.1, false, r.2)
  | .inf neg => let r := specialPat f (.inf neg); (r.1, false, r.2)

/-! ### Exact arithmetic -/

/-- The signed integer m × 2^(e − e0) for e0 ≤ e. -/
def sgnAt (neg : Bool) (m : Nat) (e e0 : Int) : Int :=
  let x : Int := m * 2 ^ (e - e0).toNat
  if neg then -x else x

/-- A finite value from an integer and an exponent; zero is +0. -/
def ofIntE (x : Int) (e : Int) : Num := .fin (decide (x < 0)) x.natAbs e

/-- The exact sum (R189: a zero sum is +0 unless both addends are −0). -/
def numAdd (x y : Num) : Num :=
  match x, y with
  | .nan, _ => .nan
  | _, .nan => .nan
  | .inf a, .inf b => if a = b then .inf a else .nan
  | .inf a, .fin _ _ _ => .inf a
  | .fin _ _ _, .inf b => .inf b
  | .fin a m e, .fin b n f =>
    if m = 0 && n = 0 then .fin (a && b) 0 0
    else let e0 := min e f; ofIntE (sgnAt a m e e0 + sgnAt b n f e0) e0

/-- The negated value. -/
def numNeg : Num → Num
  | .nan => .nan
  | .inf a => .inf (!a)
  | .fin a m e => .fin (!a) m e

/-- The exact product. -/
def numMul (x y : Num) : Num :=
  match x, y with
  | .nan, _ => .nan
  | _, .nan => .nan
  | .inf a, .inf b => .inf (a != b)
  | .inf a, .fin b n _ => if n = 0 then .nan else .inf (a != b)
  | .fin a m _, .inf b => if m = 0 then .nan else .inf (a != b)
  | .fin a m e, .fin b n f => .fin (a != b) (m * n) (e + f)

/-- x < y on the extended reals; false on a NaN; −0 = +0. -/
def numLt (x y : Num) : Bool :=
  match x, y with
  | .nan, _ => false
  | _, .nan => false
  | .inf a, .inf b => a && !b
  | .inf a, .fin _ _ _ => a
  | .fin _ _ _, .inf b => !b
  | .fin a m e, .fin b n f => let e0 := min e f; decide (sgnAt a m e e0 < sgnAt b n f e0)

/-- x = y on the extended reals; false on a NaN; −0 = +0. -/
def numEq (x y : Num) : Bool :=
  match x, y with
  | .nan, _ => false
  | _, .nan => false
  | _, _ => !numLt x y && !numLt y x

/-- A NaN. -/
def Num.isNan : Num → Bool
  | .nan => true
  | _ => false

/-- The value is ±0. -/
def Num.isZero : Num → Bool
  | .fin _ m _ => m == 0
  | _ => false

/-- The sign of the pattern. -/
def Num.neg : Num → Bool
  | .nan => false
  | .inf a => a
  | .fin a _ _ => a

/-- The order of R189 for min and max: −0 below +0. -/
def numBelow (x y : Num) : Bool := numLt x y || (numEq x y && x.neg && !y.neg)

/-- The float minimum (R189): NaN when either operand is a NaN. -/
def numMin (x y : Num) : Num := if x.isNan || y.isNan then .nan else if numBelow y x then y else x

/-- The float maximum (R189). -/
def numMax (x y : Num) : Num := if x.isNan || y.isNan then .nan else if numBelow x y then y else x

/-- The exact sum of a list; an exact zero is −0 only when every element is −0 (R197). -/
def numSum (xs : List Num) : Num :=
  let z := xs.foldl numAdd (.fin true 0 0)
  if xs.isEmpty then .fin false 0 0 else z

/-! ### The long units (R197): results with an extra low bit that marks an inexact tail -/

/-- Join a quotient and whether a tail was cut off. -/
def jam (q : Nat) (tail : Bool) (e : Int) (neg : Bool) : Num := .fin neg (2 * q + (if tail then 1 else 0)) (e - 1)

/-- x / y (R197). -/
def numDiv (x y : Num) : Num :=
  match x, y with
  | .nan, _ => .nan
  | _, .nan => .nan
  | .inf _, .inf _ => .nan
  | .inf a, .fin b _ _ => .inf (a != b)
  | .fin a _ _, .inf b => .fin (a != b) 0 0
  | .fin a m e, .fin b n f =>
    if n = 0 then (if m = 0 then .nan else .inf (a != b))
    else jam (m * 2 ^ 160 / n) (m * 2 ^ 160 % n != 0) (e - f - 160) (a != b)

/-- The integer square root, bit by bit from bit k − 1. -/
def isqrtFrom : Nat → Nat → Nat → Nat
  | 0, _, r => r
  | k + 1, n, r => let r' := r + 2 ^ k; isqrtFrom k n (if r' * r' ≤ n then r' else r)

/-- The integer square root. -/
def isqrt (n : Nat) : Nat := isqrtFrom (n.log2 / 2 + 1) n 0

/-- √x (R197). -/
def numSqrt (x : Num) : Num :=
  match x with
  | .nan => .nan
  | .inf a => if a then .nan else .inf false
  | .fin a m e =>
    if m = 0 then .fin a 0 0
    else if a then .nan
    else
      let e2 := (e - 200) / 2
      let n := m * 2 ^ (e - 2 * e2).toNat
      let r := isqrt n
      jam r (r * r != n) e2 false

/-- 1 / √x (R197): √(2^t / m), its integer part with the tail marked. -/
def numRsqrt (x : Num) : Num :=
  match x with
  | .nan => .nan
  | .inf a => if a then .nan else .fin false 0 0
  | .fin a m e =>
    if m = 0 then .inf a
    else if a then .nan
    else
      -- 1 / (m × 2^e) = (2^t / m) × 2^(−e − t), with −e − t even
      let t : Nat := if e % 2 = 0 then 400 else 401
      let n := 2 ^ t / m
      let r := isqrt n
      jam r (r * r * m != 2 ^ t) ((-e - t) / 2) false

/-- The fraction bits of 2^x: multiply by 2^(2^−i) for each bit i of the fraction, to 256 fraction bits. -/
def exp2Frac : Nat → Nat → Nat → Nat → Nat
  | 0, _, _, acc => acc
  | k + 1, f, root, acc =>
    let root' := isqrt (root * 2 ^ 256)
    let acc' := if nbit f k then acc * root' / 2 ^ 256 else acc
    exp2Frac k f root' acc'

/-- 2^x (R197, log 11). -/
def numExp2 (x : Num) : Num :=
  match x with
  | .nan => .nan
  | .inf a => if a then .fin false 0 0 else .inf false
  | .fin a m e =>
    if m = 0 then .fin false 1 0
    else if decide (12 ≤ (m.log2 : Int) + e) then
      -- |x| ≥ 4,096: past every format's range
      .fin false 1 (if a then -8192 else 8192)
    else if 0 ≤ e then .fin false 1 (sgnAt a m e 0)
    else
      let k := (-e).toNat
      let v := sgnAt a m 0 0
      let n := v / 2 ^ k
      let f := (v % 2 ^ k).toNat
      if f = 0 then .fin false 1 n
      else jam (exp2Frac k f (2 ^ 257) (2 ^ 256)) true (n - 256) false

/-- The fraction bits of log2 y for y in [1, 2), y held in 700 fraction bits: square and compare. -/
def log2Frac : Nat → Nat → Nat → Nat
  | 0, _, acc => acc
  | k + 1, y, acc =>
    let y2 := y * y / 2 ^ 700
    if 2 ^ 701 ≤ y2 then log2Frac k (y2 / 2) (2 * acc + 1) else log2Frac k y2 (2 * acc)

/-- log2 x (R197, log 11). -/
def numLog2 (x : Num) : Num :=
  match x with
  | .nan => .nan
  | .inf a => if a then .nan else .inf false
  | .fin a m e =>
    if m = 0 then .inf true
    else if a then .nan
    else
      let l := m.log2
      let k : Int := l + e
      if m = 2 ^ l then ofIntE k 0
      else
        let fr := log2Frac 200 (m * 2 ^ (700 - l)) 0
        ofIntE (2 * (k * 2 ^ 200 + fr) + 1) (-201)

/-! ### Ranks (R59) -/

/-- `a` ranks above `b` under R59: NaN first, then by magnitude. -/
def ranksAbove (a b : Num) : Bool :=
  match a, b with
  | .nan, .nan => false
  | .nan, _ => true
  | _, .nan => false
  | .inf _, .inf _ => false
  | .inf _, .fin _ _ _ => true
  | .fin _ _ _, .inf _ => false
  | .fin _ m e, .fin _ n f => magGt m e n f

/-- The exact magnitude. -/
def numAbs : Num → Num
  | .nan => .nan
  | .inf _ => .inf false
  | .fin _ m e => .fin false m e

/-- floor(log2 |v|) of a finite non-zero value; none otherwise. -/
def numExp : Num → Option Int
  | .fin _ m e => if m = 0 then none else some ((m.log2 : Int) + e)
  | _ => none

end Sys2Proof.Machine
end

