-- ==== Sys2Proof/Machine/Ops.lean ====
section
/-!
DEFINITION. Machine/Ops.lean: the named operations over the state: streams, contexts, cores, devices, registers, landing,
taking an exception (R293) and returning from one (R294), the fault log (R295) and kills (R285).
-/
namespace Sys2Proof.Machine

/-- The outcome of a step of this machine. -/
abbrev Out := Host.Outcome State Fault Refusal

/-! ### Accessors: an identifier that a map does not list holds the reset value -/

/-- The stream slot `id`. -/
def State.strm (s : State) (id : SlotId) : Stream := fget s.streams id {}
/-- Replace the stream slot `id`. -/
def State.setStrm (s : State) (id : SlotId) (st : Stream) : State := { s with streams := fset s.streams id st }
/-- The current stream slot. -/
def State.st (s : State) : Stream := s.strm s.cur
/-- Replace the current stream slot. -/
def State.setSt (s : State) (st : Stream) : State := s.setStrm s.cur st
/-- Change the current stream slot. -/
def State.onSt (s : State) (f : Stream → Stream) : State := s.setSt (f s.st)
/-- Change the stream slot `id`. -/
def State.onStrm (s : State) (id : SlotId) (f : Stream → Stream) : State := s.setStrm id (f (s.strm id))
/-- The context `x`. -/
def State.ctx (s : State) (x : CtxId) : Ctx := fget s.ctxs x {}
/-- Replace the context `x`. -/
def State.setCtx (s : State) (x : CtxId) (c : Ctx) : State := { s with ctxs := fset s.ctxs x c }
/-- Change the context `x`. -/
def State.onCtx (s : State) (x : CtxId) (f : Ctx → Ctx) : State := s.setCtx x (f (s.ctx x))
/-- The context number of a slot: a main slot n belongs to context n (R14), a tail to its WG's (R28), and what an ended stream
of context n has left behind (`ghostOf`) to context n. -/
def ownerOf (id : SlotId) (st : Stream) : Nat :=
  if id.sl < 2 then id.sl else if id.sl < 8 then st.owner else id.sl / 4 % 2
/-- The name under which the stores and commands of a stream go on once its slot is free: no other stream has the number n (R252,
R293). -/
def ghostOf (id : SlotId) (ctx n : Nat) : SlotId := { id with sl := 8 * (n + 1) + 4 * (ctx % 2) + id.sl % 4 }
/-- The context of the slot `id`. -/
def State.xidOf (s : State) (id : SlotId) : CtxId := ⟨id.core, ownerOf id (s.strm id)⟩
/-- The context of the current stream. -/
def State.xid (s : State) : CtxId := s.xidOf s.cur
/-- The context of the current stream, its contents. -/
def State.cx (s : State) : Ctx := s.ctx s.xid
/-- Change the context of the current stream. -/
def State.onCx (s : State) (f : Ctx → Ctx) : State := s.onCtx s.xid f
/-- The core `c`. -/
def State.core (s : State) (c : CoreId) : Core := fget s.cores c {}
/-- Replace the core `c`. -/
def State.setCore (s : State) (c : CoreId) (k : Core) : State := { s with cores := fset s.cores c k }
/-- Change the core `c`. -/
def State.onCore (s : State) (c : CoreId) (f : Core → Core) : State := s.setCore c (f (s.core c))
/-- A step of rank r on what several agents touch may be taken in this cycle: none of a higher rank has been (R25, R32, R155, R227). -/
def Core.turnOk (c : Core) (k : TurnKey) (r : Nat) : Bool := match fget? c.turns k with
  | none => true
  | some q => decide (q ≤ r)
/-- A step of rank r on what several agents touch has been taken in this cycle. -/
def Core.turn (c : Core) (k : TurnKey) (r : Nat) : Core := { c with turns := fset c.turns k r }
/-- The number of a slot in the rotations of a core (R25): its cluster and its slot number. -/
def slotNo (id : SlotId) : Nat := id.cl % 4 * 4 + id.sl % 4
/-- The place of a slot in a rotation of the sixteen slots of a core that starts after the slot `after` (R25). -/
def rotPlace (after : Nat) (id : SlotId) : Nat := (slotNo id + 31 - after) % 16
/-- Put a line into a cache of n lines (R1): where it is full, the entry that `v` names leaves. -/
def fsetCap {K V : Type} [DecidableEq K] (n v : Nat) (m : FMap K V) (k : K) (x : V) : FMap K V :=
  if (fget? m k).isSome || decide (m.length < n) then fset m k x else fset (m.eraseIdx (v % m.length)) k x
/-- The device `d`. -/
def State.dev (s : State) (d : Nat) : Device := fget s.devs d Device.reset
/-- Replace the device `d`. -/
def State.setDev (s : State) (d : Nat) (v : Device) : State := { s with devs := fset s.devs d v }
/-- Change the device `d`. -/
def State.onDev (s : State) (d : Nat) (f : Device → Device) : State := s.setDev d (f (s.dev d))
/-- The device of the current stream. -/
def State.cdev (s : State) : Nat := s.cur.core.dev
/-- A launch of a device. -/
def State.launch? (s : State) (d lid : Nat) : Option Launch := fget? (s.dev d).launches lid
/-- Change a launch. -/
def State.onLaunch (s : State) (d lid : Nat) (f : Launch → Launch) : State :=
  match s.launch? d lid with
  | none => s
  | some l => s.onDev d fun v => { v with launches := fset v.launches lid (f l) }
/-- A field of a device; numbers are taken modulo 8. -/
def Device.fieldN (d : Device) (f : Nat) : Field := d.fields[f % 8]'(Nat.mod_lt _ (by decide))
/-- Change a field of a device. -/
def Device.onField (d : Device) (f : Nat) (g : Field → Field) : Device :=
  { d with fields := d.fields.set (f % 8) (g (d.fieldN f)) (Nat.mod_lt _ (by decide)) }
/-- The launch whose WG holds the context `x`. -/
def State.launchOf (s : State) (x : CtxId) : Option Launch :=
  match (s.ctx x).live with
  | none => none
  | some (lid, _) => s.launch? x.core.dev lid
/-- The number of that launch. -/
def State.lidOf (s : State) (x : CtxId) : Option Nat := (s.ctx x).live.map Prod.fst
/-- The WG of context `x` holds its core alone (R15). -/
def State.exclOf (s : State) (x : CtxId) : Bool := match s.launchOf x with
  | none => false
  | some l => l.excl
/-- VBANKS of the launch (R133). -/
def State.vbanks (s : State) : Nat := match s.launchOf s.xid with
  | none => 4
  | some l => l.vbanks
/-- The stream is a tail (R28). -/
def isTail (id : SlotId) : Bool := decide (2 ≤ id.sl)
/-- A slot that holds a stream of its WG: not free. -/
def Stream.present (st : Stream) : Bool := st.status != .free
/-- The slots of a core. -/
def slotsOf (c : CoreId) : List SlotId :=
  (upTo 4).flatMap fun cl => (upTo 4).map fun sl => ⟨c, cl, sl⟩
/-- The slots that hold streams of the context `x`. -/
def State.slotsOfCtx (s : State) (x : CtxId) : List SlotId :=
  (slotsOf x.core).filter fun id => (s.strm id).present && ownerOf id (s.strm id) == x.ctx
/-- The main slots of the context `x` (R14). -/
def mainsOf (x : CtxId) : List SlotId := (upTo 4).map fun cl => ⟨x.core, cl, x.ctx⟩

/-! ### Registers -/

/-- A scalar register; s0 reads as zero (R6). -/
def Stream.rs (st : Stream) (n : BitVec 5) : Word := if n == 0#5 then 0 else st.s[n.toNat]'n.isLt
/-- Write a scalar register; a write to s0 is discarded (R137). -/
def Stream.ws (st : Stream) (n : BitVec 5) (x : Word) : Stream :=
  if n == 0#5 then st else { st with s := st.s.set n.toNat x n.isLt }
/-- A physical vector register. -/
def Stream.rv (st : Stream) (n : BitVec 6) : Vec := st.v[n.toNat]'n.isLt
/-- A physical predicate register; p0 reads as all ones (R6). -/
def Stream.rp (st : Stream) (n : BitVec 4) : Pred := if n == 0#4 then BitVec.allOnes 128 else st.p[n.toNat]'n.isLt
/-- A latch. -/
def Stream.rl (st : Stream) (n : BitVec 2) : Latch := st.l[n.toNat]'n.isLt
/-- Replace a latch. -/
def Stream.wl (st : Stream) (n : BitVec 2) (x : Latch) : Stream := { st with l := st.l.set n.toNat x n.isLt }
/-- A loop counter. -/
def Stream.rlc (st : Stream) (n : BitVec 2) : BitVec 32 := st.lc[n.toNat]'n.isLt
/-- Write a loop counter. -/
def Stream.wlc (st : Stream) (n : BitVec 2) (x : BitVec 32) : Stream := { st with lc := st.lc.set n.toNat x n.isLt }
/-- A format-table entry. -/
def Stream.rfmt (st : Stream) (n : BitVec 4) : BitVec 32 := st.fmt[n.toNat]'n.isLt
/-- A scalar of the current stream. -/
def State.rs (s : State) (n : BitVec 5) : Word := s.st.rs n

/-- One bit per byte lane, spread over the 1,024 bits of a vector. -/
def laneMaskFrom : Nat → Nat → Nat
  | 0, _ => 0
  | k + 1, m => (if m % 2 = 1 then 255 else 0) + 256 * laneMaskFrom k (m / 2)
/-- The vector mask of a byte-lane mask (R184). -/
def laneMask (m : Pred) : Vec := if m == BitVec.allOnes 128 then BitVec.allOnes 1024 else BitVec.ofNat 1024 (laneMaskFrom 128 m.toNat)
/-- Write the bytes of a vector whose lanes are active (R184). -/
def mergeLanes (old new : Vec) (m : Pred) : Vec :=
  let k := laneMask m
  (old &&& ~~~k) ||| (new &&& k)

/-! ### Landing (R185) -/

/-- Land one write. A write to p0 is discarded (R187). -/
def Stream.land1 (st : Stream) (w : PendWrite) : Stream :=
  match w.reg with
  | .v n => { st with v := st.v.set n.toNat (mergeLanes (st.rv n) w.val w.mask) n.isLt }
  | .p n => if n == 0#4 then st else { st with p := st.p.set n.toNat (w.val.setWidth 128) n.isLt }
  | .s _ | .lc _ | .rrb => st

/-- Insert a write by its landing cycle, after the writes of the same cycle issued earlier. -/
def insertByLand (w : PendWrite) : List PendWrite → List PendWrite
  | [] => [w]
  | x :: r => if x.land ≤ w.land then x :: insertByLand w r else w :: x :: r

/-- Land the result of a latch that is due at a cycle (R198). -/
def Latch.land (l : Latch) (cyc : Nat) : Latch :=
  match l.due with
  | some (c, v) => if c ≤ cyc then { st := .full, val := v, due := none } else l
  | none => l

/-- Land every write due at a cycle, in the order of landing and then of issue (R185), and every latch result due. -/
def Stream.landDue (st : Stream) (cyc : Nat) : Stream :=
  let due := (st.pend.filter fun w => decide (w.land ≤ cyc)).foldl (fun l w => insertByLand w l) []
  let rest := st.pend.filter fun w => !decide (w.land ≤ cyc)
  { due.foldl Stream.land1 st with pend := rest, l := st.l.map fun l => l.land cyc }

/-- Land every pending write in its order: the wait of R185, R258 and R293. -/
def Stream.landAll (st : Stream) : Stream :=
  let due := st.pend.foldl (fun l w => insertByLand w l) []
  { due.foldl Stream.land1 st with pend := [] }

/-! ### Cursors (R119) -/

/-- The cursor stands at a block header that it has not entered. -/
def Cursor.atHdr (c : Cursor) : Bool := c.pc == c.hdr
/-- The cursor stands at the end of a pass with passes left (R119). -/
def Cursor.atPassEnd (c : Cursor) : Bool := !c.atHdr && c.pc == c.fin
/-- A cursor at a header. -/
def Cursor.atHeader (a : Word) : Cursor := { pc := a, hdr := a, fin := a, rem := 1 }
/-- Go past n bytes of code (R119): after the last instruction of the last pass control falls to the next header. -/
def Cursor.adv (c : Cursor) (n : Word) : Cursor :=
  let pc := c.pc + n
  if pc == c.fin && decide (c.rem.toNat ≤ 1) then .atHeader c.fin else { c with pc := pc }
/-- The place, header and passes left that a trap saves for a cursor (R293). -/
def Cursor.retPoint (c : Cursor) : Word × Word × BitVec 32 :=
  if c.atHdr then (c.hdr, c.hdr, 1)
  else if c.atPassEnd then (c.hdr + 4, c.hdr, c.rem - 1)
  else (c.pc, c.hdr, c.rem)

/-- The two cursors stand together (R23). -/
def Access.together (a : Access) : Bool := a.lead == 0 && a.leadBlk == 0

/-- Move the execute cursor past one instruction to `c`; the access cursor moves along where the two stand together
(R23). -/
def Stream.goTo (st : Stream) (c : Cursor) : Stream :=
  let a := st.acc
  let seq := st.seq + 1
  let a' := if decide (a.lead ≤ 1) && a.leadBlk == 0 then { a with cur := c, lead := 0, bases := [], dirty := [] }
    else { a with lead := a.lead - 1, dirty := a.dirty.filter (fun d => decide (seq ≤ d.1)),
                  bases := a.bases.filter (fun d => decide (seq ≤ d.1)) }
  { st with ex := c, seq := seq, acc := a', lastCe := none, held := none, cache := [] }

/-- Go past an instruction of n bytes. -/
def Stream.advance (st : Stream) (n : Word) : Stream := st.goTo (st.ex.adv n)

/-- The current stream goes past an instruction of n bytes and runs on. -/
def State.adv (s : State) (n : Word) : State := s.onSt fun st => { st.advance n with status := .running, wait := .none }

/-- The current stream waits at its instruction (R12). -/
def State.waits (s : State) (w : WaitFor := .other) : State := s.onSt fun st => { st with status := .waiting, wait := w }

/-- Write a scalar of the current stream and go past the word (R137). -/
def State.put (s : State) (d : BitVec 5) (x : Word) (n : Word := 4) : Out := .next ((s.onSt fun st => st.ws d x).adv n)

/-! ### Faults: class, code and restart (R289) -/

/-- The class of a fault. -/
def FaultName.cls : FaultName → Nat
  | .trapOp => 0
  | .absent => 2
  | .planInvalid | .cacheFull => 3
  | .cycleBound | .setOverlap | .copyOverlap => 4
  | .rasOvf => 5
  | .rasUnd => 6
  | .notMember | .left | .groupGap | .apply => 7
  | .machineCheck | .fenced => 8
  | .protectedRange | .image => 9
  | _ => 1

/-- The code of a fault. -/
def FaultName.code : FaultName → Nat
  | .trapOp => 0
  | .illegalOp => 0x01 | .priv => 0x02 | .crRo => 0x03 | .crValue => 0x04 | .execLimit => 0x05 | .brAlign => 0x06
  | .vaRange => 0x07 | .noMap => 0x08 | .perm => 0x09 | .window => 0x0A | .bufPerm => 0x0B | .remote => 0x0C
  | .align => 0x0D | .recAlign => 0x0E | .semRange => 0x0F | .tileRange => 0x10 | .barScope => 0x11
  | .barTail => 0x12 | .forkTail => 0x13 | .foPair => 0x14 | .fmtDesc => 0x15 | .cvtWidth => 0x16 | .vbank => 0x17
  | .hazard => 0x18 | .latchEmpty => 0x19 | .lcRange => 0x1A | .rasEmpty => 0x1B | .tailDepth => 0x1C
  | .frameHdr => 0x1D | .frameRace => 0x1E | .matrixRec => 0x1F | .metaMalformed => 0x20 | .copyRec => 0x21
  | .copyLayout => 0x22 | .expansion => 0x23 | .semOvf => 0x24 | .detLevel => 0x25 | .coll => 0x26
  | .collPeer => 0x27 | .collMismatch => 0x28 | .groupRange => 0x29 | .seqRange => 0x2A | .query => 0x2B
  | .querySize => 0x2C | .planHandle => 0x2D | .planPinned => 0x2E | .hint => 0x2F | .bind => 0x30
  | .statTid => 0x31 | .statEntry => 0x32 | .psaveState => 0x33 | .prestState => 0x34 | .stubOp => 0x35
  | .absent => 0x01
  | .planInvalid => 0x01 | .cacheFull => 0x02
  | .cycleBound => 0x01 | .setOverlap => 0x02 | .copyOverlap => 0x03
  | .rasOvf => 0x01 | .rasUnd => 0x01
  | .notMember => 0x01 | .left => 0x02 | .groupGap => 0x03 | .apply => 0x04
  | .machineCheck => 0x01 | .fenced => 0x02
  | .protectedRange => 0x01 | .image => 0x02

/-- The restartable faults: classes TRAP, PAGE, PLAN, RAS_OVF and RAS_UND, and CYCLE_BOUND. -/
def FaultName.restartable (f : FaultName) : Bool :=
  match f with
  | .trapOp | .absent | .planInvalid | .cacheFull | .rasOvf | .rasUnd | .cycleBound => true
  | _ => false

/-- cr.loc[14:0] of a slot (R18). -/
def locWord (id : SlotId) (ctx : Nat) : Nat :=
  id.core.field * 4096 + id.core.core / 4 * 256 + id.core.core % 4 * 64 + id.cl * 16 + id.sl % 4 * 4 + ctx * 2

/-- cr.cause (R291). -/
def causeWord (asid : BitVec 14) (f : FaultRec) (nested : Bool) (loc : Nat) : Word :=
  BitVec.ofNat 64 (asid.toNat * 2 ^ 32 + f.name.cls * 2 ^ 28 + f.name.code * 2 ^ 20 +
    (if f.name.restartable then 2 ^ 19 else 0) + (if f.wg then 2 ^ 18 else 0) + (if f.eng then 2 ^ 17 else 0) +
    (if nested then 2 ^ 16 else 0) + loc)

/-- Bits [56:1] of an address. -/
def hiBits (a : Word) : BitVec 56 := a.extractLsb' 1 56
/-- The address of bits [56:1]. -/
def ofHiBits (a : BitVec 56) : Word := (a ++ 0#1).setWidth 64

/-! ### Physical memory and queue descriptors (R273) -/

/-- n bytes of a device's memory: the stacks hold 1 TiB (R1), and what a read gives from 2^40 on is free. DESIGN CHOICE, log 59. -/
def Device.memRead (d : Device) (a n : Nat) : List Byte :=
  if a + n ≤ 2 ^ 40 then mread d.mem a n
  else (upTo n).map fun k => if a + k < 2 ^ 40 then mget d.mem (a + k) else Config.beyondByte d.cycle (a + k)
/-- Write bytes into a device's memory: those from 2^40 on go nowhere. DESIGN CHOICE, log 59. -/
def Device.memWrite (d : Device) (a : Nat) (bs : List Byte) : Device :=
  { d with mem := mwrite d.mem a (if a + bs.length ≤ 2 ^ 40 then bs else bs.take (2 ^ 40 - a)) }
/-- Read n bytes at a 64-bit physical address: bit 63 names host memory (R273). -/
def Device.pread (d : Device) (a n : Nat) : List Byte :=
  if a < 2 ^ 63 then d.memRead a n else mread d.hostMem (a - 2 ^ 63) n
/-- Write bytes at a 64-bit physical address. -/
def Device.pwrite (d : Device) (a : Nat) (bs : List Byte) : Device :=
  if a < 2 ^ 63 then d.memWrite a bs else { d with hostMem := mwrite d.hostMem (a - 2 ^ 63) bs }
/-- Read a number at a physical address. -/
def Device.pnat (d : Device) (a n : Nat) : Nat := bytesNat (d.pread a n)
/-- Write a number at a physical address. -/
def Device.pput (d : Device) (a n x : Nat) : Device := d.pwrite a (natBytes n x)
/-- The address of a queue's descriptor (R273). -/
def Device.qdesc (d : Device) (q : Nat) : Nat := d.qtbase.toNat * 64 + 64 * q
/-- Word k of a queue's descriptor. -/
def Device.qword (d : Device) (q k : Nat) : Nat := d.pnat (d.qdesc q + 4 * k) 4
/-- Write word k of a queue's descriptor. -/
def Device.setQword (d : Device) (q k x : Nat) : Device := d.pput (d.qdesc q + 4 * k) 4 x
/-- A 64-bit field in words k and k + 1. -/
def Device.qword64 (d : Device) (q k : Nat) : Nat := d.pnat (d.qdesc q + 4 * k) 8
/-- STATE of a queue (R273). -/
def Device.qstate (d : Device) (q : Nat) : Nat := nbits (d.qword q 0) 29 2
/-- Write STATE of a queue. -/
def Device.setQstate (d : Device) (q st : Nat) : Device :=
  let w := d.qword q 0
  d.setQword q 0 (w - nbits w 29 2 * 2 ^ 29 + st * 2 ^ 29)
/-- Raise an interrupt to the host. -/
def Device.raise (d : Device) (vec : Nat) : Device := { d with msix := d.msix ++ [vec] }
/-- Stop a queue (R278): STATE, ERR, ERROFF, the queue's INTVEC and FWWAKE.QERR. -/
def Device.stopQueue (d : Device) (q st err idx : Nat) : Device :=
  let d1 := d.setQstate q st
  let d2 := d1.setQword q 9 (err * 2 ^ 24)
  let d3 := d2.setQword q 10 idx
  { d3.raise (nbits (d3.qword q 11) 0 11) with fwQerr := true }

/-- The state of the field that homes a line (R314): in service, or what the access meets. -/
def Device.homeState (d : Device) (n a : Nat) : BitVec 3 :=
  if d.fields.toList.all fun f => f.state == 2#3 then 2#3 else (d.fieldN (Config.homeField n (a / 128))).state

/-- The descriptor of a queue can be written now (R314). -/
def Device.descServed (d : Device) (n q : Nat) : Bool := decide (2 ^ 40 ≤ d.qdesc q) || d.homeState n (d.qdesc q) == 2#3
/-- A kill stops its queue with KILLED (R285); where the descriptor's field is not in service, once it is again (R314). -/
def Device.killQueue (d : Device) (n q idx : Nat) : Device :=
  if d.descServed n q then d.stopQueue q 2 8 idx else { d with stops := d.stops ++ [(q, idx)] }

/-! ### The fault log (R295) -/

/-- Queue a record for the device fault log. -/
def State.logRec (s : State) (d : Nat) (r : LogRec) : State := s.onDev d fun v => { v with logQueue := v.logQueue ++ [r] }

/-- Queue the record of a fault that never enters a stream. A MACHINE_CHECK carries its field in `detail`; the record names it in the
field bits of LOC, and its DETAIL is 0 (R290, R314, R318, log 61). -/
def State.logFault (s : State) (d : Nat) (asid : BitVec 14) (f0 : FaultRec) (nested : Bool) (loc0 : Nat) (epc : Word) :
    State :=
  let check := f0.name == .machineCheck
  let f := if check then { f0 with detail := 0 } else f0
  let loc := if check then f0.detail.toNat % 8 * 4096 else loc0
  s.logRec d ⟨causeWord asid f nested loc, epc, f.faddr, f.detail, f.src, (s.dev d).time⟩

/-! ### Kills (R285, R295) -/

/-- The path entries of a store that has left or is made to leave its SQ (R63, R75). -/
def storePaths (id : SlotId) (x : CtxId) (seq : Nat) (ps : List (Piece × List Byte)) : List PathItem :=
  ps.map fun pb => { loc := pb.1.loc, bytes := pb.2, owner := some (id, seq), x := x, cmd := none }

/-- The path entries of an SQ whose entries take effect at a kill. -/
def sqPaths (id : SlotId) (x : CtxId) : List SqItem → List PathItem
  | [] => []
  | .store seq _ ps :: r => storePaths id x seq ps ++ sqPaths id x r
  | .stg _ _ _ _ _ _ :: r => sqPaths id x r
  | .twin _ _ :: r => sqPaths id x r

/-- The group stores of an SQ whose entries take effect at a kill. -/
def sqStgs (dev : Device) (id : SlotId) : List SqItem → List HomeMsg
  | [] => []
  | .stg seq g _ l off bs :: r =>
    ⟨(fget dev.gt g.toNat {}).home, g.toNat, id.core.dev, .store id seq l off bs⟩ :: sqStgs dev id r
  | _ :: r => sqStgs dev id r

/-- The commands of a queue that a slot issued go on under another name. -/
def EngQueue.rename (q : EngQueue) (a b : SlotId) : EngQueue :=
  { q with cmds := q.cmds.map fun c => if c.slot == a then { c with slot := b } else c }
/-- The plan runs that a slot started go on under another name. -/
def Ctx.renameRuns (c : Ctx) (a b : SlotId) : Ctx :=
  { c with plans := c.plans.map fun p => (p.1, { p.2 with plan := p.2.plan.map fun q => { q with run := q.run.map fun r =>
      if r.slot == a then { r with slot := b } else r } }) }
/-- A slot is freed: the stores, group stores, commands and plan runs of its stream that are still under way no longer carry the slot's
name, which another stream may take (R252, R293). -/
def State.freeSlot (s : State) (id : SlotId) : State :=
  let x := s.xidOf id
  let g := ghostOf id x.ctx s.nextId
  let s1 := s.onCore id.core fun c =>
    { c with
      paths := c.paths.map fun p => (match p.owner with
        | some (o, q) => if o == id then { p with owner := some (g, q) } else p
        | none => p)
      me := c.me.rename id g, ce := c.ce.rename id g, cs := c.cs.rename id g }
  let s2 := { s1 with nextId := s.nextId + 1, toHome := s1.toHome.map fun (m : HomeMsg) => match m.item with
    | .store o q l off bs => if o == id then { m with item := .store g q l off bs } else m
    | .join _ | .leave _ | .resend _ _ => m }
  (s2.onCtx x fun c => c.renameRuns id g).setStrm id {}

/-- The program-order number of an entry of an SQ. -/
def SqItem.seq : SqItem → Nat
  | .store q _ _ => q
  | .stg q _ _ _ _ _ => q
  | .twin q _ => q
/-- The entries of an SQ with those that stand aside with an access side, in program order: those come after the entries that were issued
before it was set aside, and before the others (R64). -/
def Access.weave (a : Access) (l : List SqItem) : List SqItem :=
  (l.filter fun i => decide (i.seq < a.seq0)) ++ a.sqBack ++ l.filter fun i => !decide (i.seq < a.seq0)
/-- What stands in the SQ of a stream, the parts that are set aside included, in program order. -/
def Stream.allSq (st : Stream) : List SqItem :=
  let with_ (a : Option Access) (l : List SqItem) : List SqItem := match a with
    | none => l
    | some a => a.weave l
  with_ st.divAcc (with_ st.aside (st.acc.weave st.sq))
/-- Stop one stream at a kill: what stands in its SQ takes effect, and its slot is freed (R285). -/
def State.killStream (s : State) (id : SlotId) : State :=
  let q := (s.strm id).allSq
  let s1 := s.onCore id.core fun c => { c with paths := c.paths ++ sqPaths id (s.xidOf id) q }
  let s2 := { s1 with toHome := s1.toHome ++ sqStgs (s.dev id.core.dev) id q }
  s2.freeSlot id

/-- Remove the commands of a context from a queue. -/
def EngQueue.purge (q : EngQueue) (x : CtxId) : EngQueue :=
  let headMine := match q.cmds with
    | [] => false
    | c :: _ => c.x == x
  ⟨q.cmds.filter fun c => c.x != x, if headMine then .going else q.stop⟩

/-- Return the power token that a core holds to its field's ring, or retire it (R317). -/
def State.releaseToken (s : State) (c : CoreId) : State :=
  if !(s.core c).token then s else
  let s1 := s.onCore c fun k => { k with token := false }
  let held := ((upTo 40).filter fun i => (s1.core ⟨c.dev, c.field, i⟩).token).length
  s1.onDev c.dev fun d =>
    d.onField c.field fun f =>
      if held + f.ring.length < f.tokens then { f with ring := f.ring ++ [c.core] } else f

/-- The command migrated to the ME of a core, with the core that it belongs to (R216). -/
def State.hosted (s : State) (c : CoreId) : Option (CoreId × EngCmd) :=
  (upTo 4).findSome? fun i =>
    let h : CoreId := { c with core := c.core / 4 * 4 + i }
    ((s.core h).me.cmds.find? fun k => k.migrated == some c).map fun k => (h, k)
/-- The command of the context at the head of the ME runs in its own core, so that a token held there is its own (R215). -/
def State.ownBurst (s : State) (x : CtxId) : Bool :=
  (s.hosted x.core).isNone && (match (s.core x.core).me.cmds with
    | c :: _ => c.x == x && c.migrated.isNone
    | [] => false)
/-- The power tokens of a context's bursts go back to the ring: its own core's, and those of the cores that its commands
migrated to (R216, R317). -/
def State.giveTokens (s : State) (x : CtxId) : State :=
  let away := (s.core x.core).me.cmds.filterMap fun c => if c.x == x then c.migrated else none
  away.foldl State.releaseToken (if s.ownBurst x then s.releaseToken x.core else s)

/-- Stop every stream and command of a context (R285, stage T2). -/
def State.killCtx (s : State) (x : CtxId) : State :=
  let s1 := (s.slotsOfCtx x).foldl State.killStream s
  let s2 := s1.giveTokens x
  let s3 := s2.onCore x.core fun c => { c with me := c.me.purge x, ce := c.ce.purge x, cs := c.cs.purge x }
  s3.setCtx x {}

/-- The place of a stream's store that outlives its KTT (R285, R308): the physical place that Locate gives it now (R306). -/
def Ktt.pin (k : Ktt) (d asid : Nat) : Loc → Loc
  | .kt d1 a i o =>
    if d1 == d && a == asid then match k.entries[i]? with
      | none => .kt d1 a i o
      | some e =>
        .sup d ((if e.state == 2#2 && decide (o / 128 < e.wmark) then e.npa else e.pa) + o + (if e.host then 2 ^ 63 else 0))
    else .kt d1 a i o
  | .sup d1 a => .sup d1 a
  | .buf x b o => .buf x b o
  | .mcast xs b o => .mcast xs b o
  | .remote d1 a va e => .remote d1 a va e
  | .void => .void
/-- The stores of killed contexts that are on their way take effect after the KTT of their ASID is released (R285, R308). -/
def State.pinStores (s : State) (d asid : Nat) : State :=
  let k := fget (s.dev d).ktts asid {}
  { s with cores := s.cores.map fun (p : CoreId × Core) =>
      if p.1.dev == d && !p.2.paths.isEmpty then
        (p.1, { p.2 with paths := p.2.paths.map fun i => { i with loc := k.pin d asid i.loc } })
      else p }

/-- Release a KTT when no started launch of its ASID is left (R308). -/
def Device.releaseKtt (d : Device) (asid : Nat) : Device :=
  if d.launches.any fun p => p.2.asid.toNat == asid && p.2.begun && !p.2.done then d else { d with ktts := fdel d.ktts asid }

/-- Kill a launch (R285, R291): its contexts stop, its packet ends without SIGEN or INTR, its queue stops with KILLED,
its image slots are freed, and a record is written (R295; the words of a kill's record are free values, log 19). -/
def State.killLaunch (s : State) (d lid : Nat) : State :=
  match s.launch? d lid with
  | none => s
  | some l =>
    if l.done then s else
    let s1 := ((l.running.map Prod.snd).foldl State.killCtx s).pinStores d l.asid.toNat
    let s2 := s1.onLaunch d lid fun l => { l with done := true, running := [], savedWgs := [], batch := [] }
    let s3 := s2.onDev d fun v =>
      let v1 := { v with pkts := v.pkts.filter fun p => p.launch != some lid,
                         ready := v.ready.filter fun r => !(r.1 == l.q && r.2 == l.idx),
                         images := v.images.filter fun p => p.2.launch != lid }
      (v1.killQueue d l.q l.idx).releaseKtt l.asid.toNat
    s3.logRec d ⟨Config.killCause s.clock, 0, 0, 0, 0, (s.dev d).time⟩

/-- Kill the launch of a context; a stream that no launch owns halts (log 17). -/
def State.killOf (s : State) (id : SlotId) : State :=
  match s.lidOf (s.xidOf id) with
  | none => s.onStrm id fun st => { st with status := .halted }
  | some lid => s.killLaunch id.core.dev lid

/-! ### Taking an exception (R293) -/

/-- A twin of a join point stands in the LQ. -/
def Stream.twinPending (st : Stream) : Bool := st.acc.lq.any fun i => match i with
  | .twin _ => true
  | .load _ _ _ _ _ _ => false
/-- The program-order number of an entry of an LQ. -/
def LqItem.seq : LqItem → Nat
  | .load q _ _ _ _ _ => q
  | .twin q => q
/-- An entry of an SQ is a twin. -/
def SqItem.isTwin : SqItem → Bool
  | .twin _ _ => true
  | .store _ _ _ | .stg _ _ _ _ _ _ => false
/-- The join point at the execute cursor has issued and waits: its gate stands in both queues (R64). -/
def Stream.gated (st : Stream) : Bool := st.sq.contains (.twin st.seq .gate)
/-- The gate at the execute cursor leaves both queues. -/
def Stream.ungate (st : Stream) : Stream :=
  if st.gated then { st with sq := st.sq.erase (.twin st.seq .gate), acc := { st.acc with lq := st.acc.lq.erase (.twin st.seq) } } else st
/-- The access side goes back to the execute cursor, at the instruction number q: behind a twin no entry has performed (R64). -/
def Access.backTo (a : Access) (c : Cursor) (q : Nat) : Access :=
  { a with cur := c, lead := 0, leadBlk := 0, bases := [], dirty := []
           lq := a.lq.filter fun i => decide (i.seq < q)
           fault := a.fault.bind fun f => if f.1 < q then some f else none }
/-- The instruction at the execute cursor is to be executed anew: its gate is given up. -/
def Stream.leaveGate (st : Stream) : Stream := if st.gated then { st.ungate with acc := st.ungate.acc.backTo st.ex st.seq } else st
/-- The stream stands right after a join point whose twins have not performed (R174): its place and its entry of the SQ. -/
def Stream.unperformed (st : Stream) : Option (Nat × Cursor × JoinOp) :=
  match st.joinAt, st.sq.getLast? with
  | some (q, c), some (.twin r op) => if q == r && q + 1 == st.seq then some (q, c, op) else none
  | _, _ => none
/-- A join point that has not performed is given up, to be executed anew in full (R174): the one that the stream waits at, or the MARK,
FENCE or atomic that it stands right after. -/
def Stream.unissue (st : Stream) : Stream :=
  if st.gated then st.leaveGate
  else match st.unperformed with
    | none => st
    | some (q, c, op) =>
      { st with
        ex := c, seq := q, joinAt := none, sq := st.sq.dropLast, acc := st.acc.backTo c q
        amoPend := (match op with
          | .amo _ _ _ _ _ d _ _ _ _ => if d == 0#5 then st.amoPend else st.amoPend.dropLast
          | .mark | .gate | .fence _ _ => st.amoPend) }
/-- A store or an STG stands behind a twin in the SQ: it leaves only after that join point has performed. -/
def Stream.storeBehind (st : Stream) : Bool := (st.sq.dropWhile fun i => !i.isTwin).any fun i => !i.isTwin
/-- Where twins stand in the queues, the SQ from its first twin on is set aside with the access side, and the scalars of its atomics with
it: those entries perform after the stream's return (R173). -/
def Stream.stow (st : Stream) : Stream :=
  if st.twinPending then
    let k := st.sq.takeWhile fun i => !i.isTwin
    { st with sq := k, amoPend := [], acc := { st.acc with sqBack := st.sq.drop k.length, amoBack := st.amoPend } }
  else st
/-- What was set aside with the access side goes back to its place. -/
def Stream.unstow (st : Stream) : Stream :=
  { st with sq := st.acc.weave st.sq, amoPend := st.amoPend ++ st.acc.amoBack, acc := { st.acc with sqBack := [], amoBack := [] } }

/-- Set the access side aside, to return to `ret`, and start a fresh one at `c` (R24, R173, R293). -/
def Stream.setAside (st0 : Stream) (c : Cursor) (ret : Word × Word × BitVec 32) : Stream :=
  let st := st0.leaveGate.stow
  { st with aside := some { st.acc with seq0 := st.seq, fault := none, exAt := ret },
            acc := { cur := c, lcs := st.lc, rrb := st.rrb } }

/-- Trap entry in U (R293): land, set the access side aside, save the return point and the record, and go to cr.tvec in
S. -/
def Stream.trapEnter (st : Stream) (cause : Word) (f : FaultRec) (ret : Word × Word × BitVec 32) : Stream :=
  let st := st.landAll
  let h := Cursor.atHeader (ofHiBits st.trap.tvec)
  let st := st.setAside h ret
  { st with ex := h, priv := .s, status := .running, wait := .none, held := none,
            cache := [], lastCe := none, joinAt := none,
            trap := { st.trap with epc := hiBits ret.1, ehdr := hiBits ret.2.1, rem := ret.2.2, cause := cause,
                                   faddr := f.faddr, fdet := f.detail, fsrc := f.src } }

/-- The faults that never enter a stream (R295). -/
def FaultName.logOnly (f : FaultName) : Bool :=
  match f with
  | .machineCheck | .fenced | .protectedRange | .image | .groupGap | .apply => true
  | _ => false

/-- Deliver a fault to the stream `id` with a return point (R292, R293, R295). -/
def State.deliver (s : State) (id : SlotId) (f : FaultRec) (ret : Word × Word × BitVec 32) : State :=
  let st := s.strm id
  let x := s.xidOf id
  let asid := (s.ctx x).asid
  let loc := f.origin.getD (locWord id x.ctx)
  if f.name.logOnly then (s.logFault id.core.dev asid f (st.priv == .s) loc ret.1).killOf id
  else if st.priv == .s then (s.logFault id.core.dev asid f true loc ret.1).killOf id
  else match (s.launchOf x).bind Launch.svbase with
    | none => (s.logFault id.core.dev asid f false loc ret.1).killOf id
    | some _ => s.setStrm id (st.trapEnter (causeWord asid f false loc) f ret)

/-- The instruction of the current stream raises a fault (R61): its own effects do not happen, and the trap is taken
with the instruction as return point. -/
def State.raise (s : State) (name : FaultName) (faddr detail : Word := 0) : Out :=
  .next (s.deliver s.cur { name := name, faddr := faddr, detail := detail } s.st.ex.retPoint)

/-- A fault of the current stream with a prepared record. -/
def State.raiseRec (s : State) (f : FaultRec) : Out := .next (s.deliver s.cur f s.st.ex.retPoint)

/-! ### Returning from an exception (R294) -/

/-- Shift the program-order numbers of a set-aside access side by d: those of the instructions that the execute cursor has still to reach.
What it had passed keeps its number, and so its place before all that the stream has issued since (R65, log 7). -/
def Access.shift (a : Access) (d : Nat) : Access :=
  let no (q : Nat) : Nat := if q < a.seq0 then q else q + d
  { a with
    bases := a.bases.map fun b => (no b.1, b.2)
    dirty := a.dirty.map fun b => (no b.1, b.2)
    lq := a.lq.map fun i => match i with
      | .load q ds g va t got => .load (no q) ds g va t got
      | .twin q => .twin (no q)
    fault := a.fault.map fun f => (no f.1, f.2)
    done := a.done.map fun i => { i with seq := no i.seq } }

/-- The access side of a stream that resumes at another place than the one its trap saved, its next instruction having the number q: it
starts again there; the entries that the execute cursor had passed remain, and of the loads ahead only those of the operand queues
(log 7). -/
def Access.resync (a : Access) (c : Cursor) (q : Nat) : Access :=
  { a with cur := c, lead := 0, leadBlk := 0, bases := [], dirty := [], done := []
           lq := a.lq.filter fun i => decide (i.seq < q) || (match i with
             | .load _ (.queue _) _ _ _ _ => true
             | _ => false) }

/-- The cursor that ERET resumes at (R294). -/
def Stream.eretCursor (st : Stream) (fin : Word) (nopre : Bool) : Cursor :=
  let pc := ofHiBits st.trap.epc
  let hdr := ofHiBits st.trap.ehdr
  if pc == hdr then .atHeader pc else { pc := pc, hdr := hdr, fin := fin, rem := st.trap.rem, nopre := nopre }

/-- Return from an exception: restore the access side, U, and the saved place. `fin` is the end of the block at
cr.ehdr, and `nopre` its header's NOPRE. A main stream that was revived for the handler halts again (R293). -/
def Stream.eret (st : Stream) (fin : Word) (nopre : Bool) : Stream :=
  let c := st.eretCursor fin nopre
  let seq := st.seq + 1
  let a := match st.aside with
    | none => ({ cur := c } : Access)
    | some a =>
      if a.together || a.exAt != (c.pc, c.hdr, c.rem) then (a.shift (seq - a.seq0)).resync c seq else a.shift (seq - a.seq0)
  { st with ex := c, seq := seq, priv := .u, acc := a, aside := none, status := if st.revived then .halted else .running,
            revived := false, wait := .none, lastCe := none, held := none, cache := [], joinAt := none }.unstow

end Sys2Proof.Machine
end

