-- ==== Sys2Proof/Machine/Translate.lean ====
section
/-!
DEFINITION. Machine/Translate.lean: address ranges and windows (R29, R30, R163, R292), Translate and Locate (R304 to
R306), pieces (R71), and reading and writing bytes where they lie (R33, R34, R65, R66, R75, R255, R301).
-/
namespace Sys2Proof.Machine

/-! ### Translation -/

/-- The engines of the permission mask (R305): their number e. -/
inductive PermEng where
  | load | store | meA | meB | ceSrc | ceDst | gather | csRead | csWrite | planRead | planWrite
  deriving DecidableEq, Repr

/-- The bit of PERM that an access needs (R305). -/
def PermEng.bit : PermEng → Nat
  | .load => 0 | .store => 3 | .meA => 4 | .meB => 6 | .ceSrc => 8 | .ceDst => 11 | .gather => 12 | .csRead => 14
  | .csWrite => 17 | .planRead => 18 | .planWrite => 19

/-- The path by which an access reaches a typed buffer (R29, R30, R163, R206, R217). -/
inductive PathKind where
  | scalar | vecLoad | vecStore | atomic | roleA | roleB | roleOut | roleAcc | ceSrc | ceDst | cs | fetch | none
  deriving DecidableEq, Repr

/-- Who translates: the context whose KTT and windows apply, the privilege, the permission and the path. -/
structure Xl where
  x : CtxId
  asid : Nat
  priv : Priv
  eng : PermEng
  path : PathKind
  deriving DecidableEq, Repr

/-- An answer or a fault (the fault's FADDR is filled in by the caller). -/
inductive Res (α : Type) where
  | ok (a : α)
  | bad (f : FaultRec)
  deriving Repr

/-- Chain answers. -/
def Res.bind {α β : Type} (r : Res α) (f : α → Res β) : Res β :=
  match r with
  | .ok a => f a
  | .bad e => .bad e

/-- A fault with its FADDR and DETAIL. -/
def mkF (n : FaultName) (va : Nat) (detail : Nat := 0) : FaultRec :=
  { name := n, faddr := BitVec.ofNat 64 va, detail := BitVec.ofNat 64 detail }

/-- Bytes of a WG's share of a buffer (R15). -/
def shareSize (excl : Bool) : Buf → Nat
  | .wb => if excl then 0x400000 else 0x200000
  | .ab => if excl then 0x300000 else 0x180000
  | .cb => if excl then 0x180000 else 0xC0000

/-- The buffer and the offset at an offset of a window (R30). -/
def windowBuf (o : Nat) : Option (Buf × Nat) :=
  if o < 0x400000 then some (.wb, o)
  else if o < 0x700000 then some (.ab, o - 0x400000)
  else if 0x800000 ≤ o && o < 0x980000 then some (.cb, o - 0x800000)
  else none

/-- The path may use the buffer (R29, R168, R206, R217). -/
def PathKind.permits : PathKind → Buf → Bool
  | .vecLoad, b | .vecStore, b | .ceSrc, b | .ceDst, b | .cs, b | .roleOut, b => b != .cb
  | .roleA, b => b == .ab
  | .roleB, b => b == .wb
  | .scalar, _ | .atomic, _ | .roleAcc, _ | .fetch, _ | .none, _ => false

/-- The kinds of window (R30). -/
inductive WinKind where
  | localW | quadW (c : Nat) | mcastW (f m : Nat)
  deriving DecidableEq, Repr

/-- The path may use the kind of window (R30, R103, R206, R217). -/
def PathKind.reaches : PathKind → WinKind → Bool
  | .vecLoad, .mcastW _ _ => false
  | .vecLoad, _ => true
  | .vecStore, _ => true
  | .ceSrc, .mcastW _ _ => false
  | .ceSrc, _ => true
  | .ceDst, _ => true
  | _, .localW => true
  | _, _ => false

/-- A matrix role (R206): a quad or multicast window is WINDOW whatever the buffer. -/
def PathKind.isRole : PathKind → Bool
  | .roleA | .roleB | .roleOut | .roleAcc => true
  | _ => false

/-- The window and the offset in it of a window address (R30). -/
def windowOf (va : Nat) : Option (WinKind × Nat) :=
  let r := va % 2 ^ 48
  match va / 2 ^ 48 % 16 with
  | 0 => if r < 2 ^ 24 then some (.localW, r) else none
  | 1 => if r < 2 ^ 26 then some (.quadW (r / 2 ^ 24), r % 2 ^ 24) else none
  | 2 =>
    let f := r / 2 ^ 36
    let q := r % 2 ^ 36
    if f < 8 && q < 2 ^ 27 then some (.mcastW f (q / 2 ^ 24), q % 2 ^ 24) else none
  | _ => none

/-- The context is held by a WG of the launch (R30). -/
def State.sameLaunch (s : State) (x y : CtxId) : Bool :=
  match (s.ctx x).live, (s.ctx y).live with
  | some (a, _), some (b, _) => a == b
  | _, _ => false

/-- The target cores of a multicast window (R30): the bits of cr.mcset.m. -/
def mcTargets (x : CtxId) (f : Nat) (mask : BitVec 40) : List CtxId :=
  ((upTo 40).filter fun k => mask.getLsbD k).map fun k => ⟨⟨x.core.dev, f, k⟩, x.ctx⟩

/-- A window address (R30): the checks in the order the rule gives, BUF_PERM before WINDOW. They come first for a multicast window whose
MASK is empty too: R30 says both that they fault and that an empty MASK raises no fault. DESIGN CHOICE, log 72. -/
def State.xlWindow (s : State) (t : Xl) (va : Nat) : Res Loc :=
  if t.path = .atomic then .bad (mkF .window va)
  else if t.path = .scalar || t.path = .fetch || t.path = .none then .bad (mkF .bufPerm va)
  else
    match windowOf va with
    | none => .bad (mkF .window va)
    | some (w, o) =>
      match windowBuf o with
      | none => .bad (mkF .window va)
      | some (b, off) =>
        if t.path.isRole && w != .localW then .bad (mkF .window va)
        else if !t.path.permits b then .bad (mkF .bufPerm va)
        else if !t.path.reaches w then .bad (mkF .window va)
        else if shareSize (s.exclOf t.x) b ≤ off then .bad (mkF .window va)
        else
          match w with
          | .localW => .ok (.buf t.x b off)
          | .quadW c =>
            let y : CtxId := ⟨⟨t.x.core.dev, t.x.core.field, t.x.core.core / 4 * 4 + c⟩, t.x.ctx⟩
            if s.sameLaunch t.x y then .ok (.buf y b off) else .bad (mkF .window va)
          | .mcastW f m =>
            let ys := mcTargets t.x f (((s.ctx t.x).mcset.toList)[m]?.getD 0)
            if ys.isEmpty then .ok .void
            else if ys.all (s.sameLaunch t.x) then .ok (.mcast ys b off) else .bad (mkF .window va)

/-- Tile of R306. -/
def tileOff (o : Nat) : Nat :=
  let row := o / 1024
  let col := o % 1024
  row / 128 * 131072 + col / 128 * 16384 + row % 128 * 128 + col % 128

/-- The entry that covers an address, with its index. -/
def findEntry (va : Nat) : List KttEntry → Nat → Option (Nat × KttEntry)
  | [], _ => none
  | e :: r, k => if e.va ≤ va && va < e.va + 2 ^ e.log2 then some (k, e) else findEntry va r (k + 1)

/-- The KTT of an address space on a device. -/
def State.ktt (s : State) (d asid : Nat) : Ktt := fget (s.dev d).ktts asid {}

/-- Translate (R306) on a device: the entry's index and the offset, or the fault with its KTT index (R290). -/
def State.translate (s : State) (d asid va : Nat) (bit : Nat) : Res Loc :=
  match findEntry va (s.ktt d asid).entries 0 with
  | none => .bad (mkF .noMap va)
  | some (k, e) =>
    if !e.permMask.getLsbD bit then .bad (mkF .perm va k)
    else if e.state == 0#2 then .bad (mkF .absent va k)
    else
      let o := va - e.va
      .ok (.kt d asid k (if e.layout == 1#2 then tileOff o else o))

/-- The paths that reach the supervisor region in S (R292). -/
def PathKind.supOk (p : PathKind) (e : PermEng) : Bool :=
  match p, e with
  | _, .planRead | _, .planWrite => false
  | .scalar, _ | .fetch, _ | .atomic, _ => true
  | .vecLoad, .load | .vecStore, .store => true
  | _, _ => false

/-- Where the byte at an address lies, or the fault of its access (R163). A read of the CS in the pod window is WINDOW, that of a peer table or
a rank table too, of which R102 does not speak (DESIGN CHOICE, log 67). -/
def State.xlByte (s : State) (t : Xl) (va : Nat) : Res Loc :=
  if 2 ^ 57 ≤ va then .bad (mkF .vaRange va)
  else
    let top := va / 2 ^ 52
    if top = 0x1F then s.xlWindow t va
    else if 0x10 ≤ top && top ≤ 0x17 then
      let d := va / 2 ^ 44 % 2 ^ 11
      if t.path = .cs then .bad (mkF .window va)
      else if !s.pod.contains d || (fget? (s.dev d).ktts t.asid).isNone then .bad (mkF .remote va)
      else match s.translate d t.asid (va % 2 ^ 44) t.eng.bit with
        | .bad f => .bad { f with faddr := BitVec.ofNat 64 va }
        | .ok _ => .ok (.remote d t.asid (va % 2 ^ 44) t.eng.bit)
    else if 0x18 ≤ top && top ≤ 0x1B then
      if t.priv = .u then .bad (mkF .priv va)
      else if !t.path.supOk t.eng then .bad (mkF .perm va)
      else match (s.launchOf t.x).bind Launch.svbase with
        | none => .bad (mkF .noMap va)
        | some (base, lg) =>
          let o := va - 0x0180000000000000
          if 2 ^ lg ≤ o then .bad (mkF .noMap va) else .ok (.sup t.x.core.dev (base + o))
    else s.translate t.x.core.dev t.asid va t.eng.bit

/-! ### Pieces (R71, R164) -/

/-- Cut [va, va + n) into granule pieces: address, length, and position in the access. `fuel` bounds the number. -/
def cutFrom : Nat → Nat → Nat → Nat → List (Nat × Nat × Nat)
  | 0, _, _, _ => []
  | k + 1, va, n, p =>
    if n = 0 then [] else
    let l := min n (16 - va % 16)
    (va, l, p) :: cutFrom k (va + l) (n - l) (p + l)

/-- The granule pieces of an access. -/
def cut (va n : Nat) : List (Nat × Nat × Nat) := cutFrom (n / 16 + 2) va n 0

/-- Translate pieces in order; the first that fails names the lowest failing byte (R164). -/
def State.xlPieces (s : State) (t : Xl) : List (Nat × Nat × Nat) → Res (List Piece)
  | [] => .ok []
  | (va, l, p) :: r =>
    match s.xlByte t va with
    | .bad f => .bad f
    | .ok loc => match s.xlPieces t r with
      | .bad f => .bad f
      | .ok ps => .ok (⟨loc, l, p⟩ :: ps)

/-- Translate a whole access (R162, R164): with a byte at or above 2^57 it is VA_RANGE, whatever its other bytes meet. -/
def State.xlAccess (s : State) (t : Xl) (va : Word) (n : Nat) : Res (List Piece) :=
  if 2 ^ 57 < va.toNat + n then .bad (mkF .vaRange (max va.toNat (2 ^ 57))) else s.xlPieces t (cut va.toNat n)

/-! ### Locate (R306) and homes (R34, R314) -/

/-- Where a piece performs: device physical memory, host memory, a buffer, several buffers, or not now; `beyond` is a device physical
address past the stacks, where reads are free and writes go nowhere (log 59). -/
inductive Place where
  | devMem (d a : Nat)
  | hostMem (d a : Nat)
  | bufMem (xs : List CtxId) (b : Buf) (off : Nat)
  | nowhere
  | retry
  | dropped (d field : Nat)
  | bad (f : FaultRec)
  | beyond (d a : Nat)
  deriving DecidableEq, Repr

/-- A physical address lies in the save region, a protected range (R297). -/
def Device.isProtected (d : Device) (a : Nat) : Bool :=
  let base := d.savebase.toNat * 2 ^ 24
  decide (base ≤ a) && decide (a < base + d.savenum.toNat * 2 ^ 24)

/-- The place of a device physical address: the stacks hold 1 TiB (R1), and from 2^40 on there is no byte (DESIGN CHOICE, log 59). An access
to memory homed at a field that is not in service waits, and is dropped when the field has failed or tripped (R314). -/
def State.placePhys (s : State) (d a : Nat) : Place :=
  if 2 ^ 40 ≤ a then .beyond d a
  else
    let v := s.dev d
    match (v.homeState d a).toNat with
    | 2 => .devMem d a
    | 3 => .dropped d (Config.homeField d (a / 128) % 8)
    | 4 => .dropped d (Config.homeField d (a / 128) % 8)
    | _ => .retry

/-- The address in the pod window of a byte of another device (R163). -/
def podVa (d va : Nat) : Nat := 2 ^ 56 + d * 2 ^ 44 + va

/-- Locate (R306). -/
def State.locateKt (s : State) (d asid k o : Nat) : Place :=
  match (s.ktt d asid).entries[k]? with
  | none => .bad (mkF .noMap 0)
  | some e =>
    let mig := e.state == 2#2
    if mig && o / 128 == e.wmark then .retry
    else
      let p := (if mig && decide (o / 128 < e.wmark) then e.npa else e.pa) + o
      if e.host then .hostMem d p
      else if (s.dev d).isProtected p then .bad (mkF .protectedRange p)
      else s.placePhys d p

/-- The place of a piece in the step in which it performs (R65, R76). -/
def State.locate (s : State) : Loc → Place
  | .kt d asid k o => s.locateKt d asid k o
  | .sup d a => if a < 2 ^ 63 then s.placePhys d a else .hostMem d (a - 2 ^ 63)
  | .buf x b off => .bufMem [x] b off
  | .mcast xs b off => .bufMem xs b off
  | .remote d asid va bit =>
    if (fget? (s.dev d).ktts asid).isNone then .bad (mkF .remote (podVa d va)) else
    match s.translate d asid va bit with
    | .bad f => .bad { f with faddr := BitVec.ofNat 64 (podVa d va) }
    | .ok (.kt d asid k o) => s.locateKt d asid k o
    | .ok _ => .nowhere
  | .void => .nowhere

/-- The address of a piece for comparing places: a space and an address. Space 0 + 2d is device d's memory, 1 + 2d its
host's; a buffer has a space of its own. A piece that must retry compares at its old base. -/
def State.key (s : State) (loc : Loc) : List (Nat × Nat) :=
  let bufSpace (x : CtxId) (b : Buf) : Nat :=
    (((x.core.dev * 8 + x.core.field) * 40 + x.core.core) * 2 + x.ctx) * 3 +
      (match b with
        | .wb => 0
        | .ab => 1
        | .cb => 2) + 100000
  let kt (d asid k o : Nat) : List (Nat × Nat) := match (s.ktt d asid).entries[k]? with
    | none => []
    | some e =>
      let p := (if e.state == 2#2 && decide (o / 128 < e.wmark) then e.npa else e.pa) + o
      [(2 * d + (if e.host then 1 else 0), p)]
  match loc with
  | .kt d asid k o => kt d asid k o
  | .sup d a => if a < 2 ^ 63 then [(2 * d, a)] else [(2 * d + 1, a - 2 ^ 63)]
  | .buf x b off => [(bufSpace x b, off)]
  | .mcast xs b off => xs.map fun x => (bufSpace x b, off)
  | .remote d asid va bit => match s.translate d asid va bit with
    | .ok (.kt d asid k o) => kt d asid k o
    | _ => []
  | .void => []

/-- The granules of two places meet. -/
def keysMeet (a b : List (Nat × Nat)) : Bool := a.any fun p => b.any fun q => p.1 == q.1 && p.2 / 16 == q.2 / 16

/-! ### Typed buffers (R29, R301) -/

/-- A buffer of a context. -/
def Ctx.buf (c : Ctx) : Buf → Memory
  | .wb => c.wb
  | .ab => c.ab
  | .cb => c.cbuf

/-- Set dirty bit k (R301). -/
def Ctx.setDirty (c : Ctx) (b : Buf) (k : Nat) : Ctx :=
  match b with
  | .wb => { c with dirtyWb := c.dirtyWb ||| BitVec.twoPow 1024 k }
  | .ab => { c with dirtyAb := c.dirtyAb ||| BitVec.twoPow 768 k }
  | .cb => { c with dirtyCb := c.dirtyCb ||| BitVec.twoPow 384 k }

/-- Replace a buffer. -/
def Ctx.setBuf (c : Ctx) (b : Buf) (m : Memory) : Ctx :=
  match b with
  | .wb => { c with wb := m }
  | .ab => { c with ab := m }
  | .cb => { c with cbuf := m }

/-- Write bytes into a buffer and set the dirty bit of each 4 KiB region written (R301). -/
def Ctx.bufWrite (c : Ctx) (b : Buf) (off : Nat) (bs : List Byte) : Ctx :=
  if bs.isEmpty then c else
  let c1 := c.setBuf b (mwrite (c.buf b) off bs)
  let lo := off / 4096
  let hi := (off + bs.length - 1) / 4096
  (upTo (hi + 1 - lo)).foldl (fun c k => c.setDirty b (lo + k)) c1

/-- Read bytes at a visibility point (R66). -/
def State.readPlace (s : State) (p : Place) (n : Nat) : List Byte :=
  match p with
  | .devMem d a | .beyond d a => (s.dev d).memRead a n
  | .hostMem d a => mread (s.dev d).hostMem a n
  | .bufMem (x :: _) b off => mread ((s.ctx x).buf b) off n
  | .bufMem [] _ _ | .nowhere | .retry | .dropped _ _ | .bad _ => List.replicate n 0

/-- Write bytes at a visibility point, in one step at every target (R75). -/
def State.writePlace (s : State) (p : Place) (bs : List Byte) : State :=
  match p with
  | .devMem d a => s.onDev d fun v => v.memWrite a bs
  | .hostMem d a => s.onDev d fun v => { v with hostMem := mwrite v.hostMem a bs }
  | .bufMem xs b off => xs.foldl (fun s x => s.onCtx x fun c => c.bufWrite b off bs) s
  | .nowhere | .retry | .dropped _ _ | .bad _ | .beyond _ _ => s

/-- Read an access at its visibility points in one go: the bytes in order, or the place that stops it. -/
def State.readPieces (s : State) : List Piece → List Byte
  | [] => []
  | p :: r => s.readPlace (s.locate p.loc) p.len ++ s.readPieces r

/-- The first piece that must retry, fault or be dropped. -/
def State.firstStop (s : State) : List Piece → Option Place
  | [] => none
  | p :: r => match s.locate p.loc with
    | .retry => some .retry
    | .bad f => some (.bad f)
    | .dropped d f => some (.dropped d f)
    | _ => s.firstStop r

/-- A granule of a buffer has been written in this cycle of its core: a read of it in the same cycle would have to return the value from
before (R32), and so is made in a later one. -/
def State.granuleWritten (s : State) (loc : Loc) : Bool := match loc with
  | .buf x b off => (fget? (s.core x.core).turns (.granule x.ctx b (off / 16))).isSome
  | .kt _ _ _ _ | .sup _ _ | .mcast _ _ _ | .remote _ _ _ _ | .void => false
/-- What stops a read of pieces: a piece that must retry, faults or is dropped, or a granule written in this cycle (R32). -/
def State.readStop (s : State) (ps : List Piece) : Option Place :=
  match s.firstStop ps with
  | some p => some p
  | none => if ps.any fun p => s.granuleWritten p.loc then some .retry else none

/-- Write an access at its visibility points in one step (R77: group application; atomic records). -/
def State.writePieces (s : State) (bs : List Byte) : List Piece → State
  | [] => s
  | p :: r => (s.writePlace (s.locate p.loc) ((bs.drop p.at_).take p.len)).writePieces bs r

/-! ### The global load cache (R33) -/

/-- The line of a place when it is the core's own device memory. -/
def glcLine (c : CoreId) : Place → Option Nat
  | .devMem d a => if d = c.dev then some (a / 128) else none
  | _ => none

/-- The 128 bytes of a line at its home. -/
def State.homeLine (s : State) (d line : Nat) : Vec := bytesBv 1024 ((s.dev d).memRead (128 * line) 128)

/-- Update the GLC copy of stored bytes, if the core holds one (R65). -/
def State.glcUpdate (s : State) (c : CoreId) (p : Place) (bs : List Byte) : State :=
  match glcLine c p, p with
  | some line, .devMem _ a =>
    match fget? (s.core c).glc line with
    | none => s
    | some v =>
      let old := bvBytes 128 v
      let o := a % 128
      let new := old.take o ++ bs ++ old.drop (o + bs.length)
      s.onCore c fun k => { k with glc := fset k.glc line (bytesBv 1024 new) }
  | _, _ => s

/-- Invalidate a core's GLC (R69). -/
def State.glcClear (s : State) (c : CoreId) : State := s.onCore c fun k => { k with glc := [] }

/-- An acquire at a scope: wider than cluster, it invalidates the GLC (R68, R69). -/
def State.acquire (s : State) (c : CoreId) (sc : Scope) : State :=
  match sc with
  | .cluster => s
  | _ => s.glcClear c

/-! ### Reaches of a release (R68) -/

/-- A path entry lies in the reach of a release at a scope, for a core of device d. -/
def State.inReach (s : State) (d : Nat) (sc : Scope) (loc : Loc) : Bool :=
  let host (dv asid k : Nat) : Bool := match (s.ktt dv asid).entries[k]? with
    | none => false
    | some e => e.host
  let remoteHost (dv asid va bit : Nat) : Bool := match s.translate dv asid va bit with
    | .ok (.kt dv asid k _) => host dv asid k
    | _ => false
  match sc, loc with
  | .system, _ => true
  | .host, .sup _ _ => true
  | _, .sup _ a => decide (a < 2 ^ 63)
  | .host, .kt _ _ _ _ => true
  | .host, .remote dv _ _ _ => dv == d
  | _, .kt dv asid k _ => !host dv asid k
  | .group, .remote dv asid va bit => !remoteHost dv asid va bit
  | .pod, .remote dv asid va bit => !remoteHost dv asid va bit
  | _, .remote dv asid va bit => dv == d && !remoteHost dv asid va bit
  | _, .buf _ _ _ | _, .mcast _ _ _ => true
  | _, .void => false

/-- Stores of a stream, its engine commands' writes not among them (R74), that stand in a path into a scope's reach (R69). -/
def State.pathsInReach (s : State) (id : SlotId) (sc : Scope) : Bool :=
  (s.core id.core).paths.any fun p => match p.owner with
    | some (o, _) => p.cmd.isNone && o == id && s.inReach id.core.dev sc p.loc
    | none => false

end Sys2Proof.Machine
end

