-- ==== Sys2Proof/Machine/Operands.lean ====
section
/-!
DEFINITION. Machine/Operands.lean: register names and rotation (R145), banks (R186), operand queues (R36), masks (R184),
the hazard detector (R185, R259), vector elements (R183), addresses (R162), and loads of the execute cursor (R204).
-/
namespace Sys2Proof.Machine

/-! ### Names -/

/-- The physical vector register of a name, for VBANKS and a rotating base (R145). -/
def rotV (vb : Nat) (rrb : BitVec 5) (n : BitVec 6) : BitVec 6 :=
  let nr := 16 * vb - 32
  if 3 ≤ vb && 32 ≤ n.toNat && n.toNat < 32 + nr then BitVec.ofNat 6 (32 + (n.toNat - 32 + rrb.toNat) % nr) else n
/-- The physical predicate register of a name (R145). -/
def rotP (rrb : BitVec 5) (n : BitVec 4) : BitVec 4 :=
  if 8 ≤ n.toNat then BitVec.ofNat 4 (8 + (n.toNat - 8 + rrb.toNat) % 8) else n
/-- The predicate that PM names (R125): 0 to 3 are p0 to p3, 4 to 7 are p8 to p11. -/
def pmName (m : BitVec 3) : BitVec 4 := BitVec.ofNat 4 (if m.toNat < 4 then m.toNat else m.toNat + 4)
/-- The physical vector register of a name in the current stream. -/
def State.vreg (s : State) (n : BitVec 6) : BitVec 6 := rotV s.vbanks s.st.rrb n
/-- The physical predicate of a name in the current stream. -/
def State.preg (s : State) (n : BitVec 4) : BitVec 4 := rotP s.st.rrb n
/-- The bank of a register is powered (R186). -/
def bankOn (vb : Nat) (n : BitVec 6) : Bool := decide (n.toNat / 16 < vb)

/-- A vector source: a register, or an operand queue when Q = 1 and the name is 0 to 3 (R188). -/
inductive VSrc where
  | reg (n : BitVec 6)
  | q (n : BitVec 2)
  deriving DecidableEq, Repr

/-- The source that a field names. -/
def State.vsrc (s : State) (q : Bool) (n : BitVec 6) : VSrc :=
  if q && decide (n.toNat < 4) then .q (n.extractLsb' 0 2) else .reg (s.vreg n)
/-- The vector registers among sources. -/
def srcRegs (xs : List VSrc) : List (BitVec 6) := xs.filterMap fun x => match x with
  | .reg n => some n
  | .q _ => none
/-- The operand queues among sources, each once (R36). -/
def srcQs (xs : List VSrc) : List (BitVec 2) := (xs.filterMap fun x => match x with
  | .reg _ => none
  | .q n => some n).eraseDups
/-- The oldest entry of an operand queue. -/
def Stream.qHead (st : Stream) (n : BitVec 2) : Vec := ((st.acc.qs[n.toNat]'n.isLt).head?).getD 0
/-- The value of a source. -/
def Stream.vval (st : Stream) : VSrc → Vec
  | .reg n => st.rv n
  | .q n => st.qHead n
/-- An operand queue is empty. -/
def Stream.qEmpty (st : Stream) (n : BitVec 2) : Bool := (st.acc.qs[n.toNat]'n.isLt).isEmpty
/-- Take one entry from each of the queues (R36). -/
def Stream.popQs (st : Stream) (ns : List (BitVec 2)) : Stream :=
  { st with acc := ns.foldl (fun a n => { a with qs := a.qs.set n.toNat ((a.qs[n.toNat]'n.isLt).drop 1) n.isLt }) st.acc }

/-! ### Issue of vector instructions -/

/-- A pending write to a register. -/
def Stream.pendOn (st : Stream) (r : Reg) : Option PendWrite := st.pend.find? fun w => w.reg == r

/-- The pending write with which an instruction conflicts (R185): a register it reads, or one of its own writes that
would land before an earlier pending write. -/
def Stream.hazard (st : Stream) (reads writes : List Reg) (land : Nat) : Option PendWrite :=
  st.pend.find? fun w => reads.contains w.reg || (writes.contains w.reg && decide (land < w.land))

/-- The number of a register in the detail of HAZARD (R290). -/
def hazardDetail : Reg → Nat
  | .v n => n.toNat
  | .p n => n.toNat + 64
  | .s _ | .lc _ | .rrb => 0

/-- The execute cursor waits on the access side: a pending fault of the access side is then taken (R24). -/
def State.waitAccess (s : State) : Out :=
  match s.st.acc.fault with
  | some (_, f) => s.raiseRec f
  | none => .next (s.waits .none)

/-- The powered banks in retention among those of named registers (R186). -/
def Stream.retained (st : Stream) (regs : List (BitVec 6)) : BitVec 4 :=
  (regs.foldl (fun m n => m ||| BitVec.twoPow 4 (n.toNat / 16)) (0 : BitVec 4)) &&& st.ret

/-- What holds an instruction that names vector or predicate registers or operand queues (R36, R185 to R187, R259): a
register in a bank that is off, a bank in retention, which then wakes, an empty queue, before which nothing of it is performed (R36), a
conflict that the hazard detector sees. None: it may issue. -/
def State.vecHold (s : State) (regs : List (BitVec 6)) (reads : List Reg) (qs : List (BitVec 2)) (writes : List Reg)
    (lat : Nat) : Option Out :=
  if regs.any fun r => !bankOn s.vbanks r then some (s.raise .vbank)
  else if s.st.retained regs != 0#4 then
    some (.next ((s.onSt fun st => { st with wake := st.retained regs }).waits .none))
  else if qs.any s.st.qEmpty then some s.waitAccess
  else
    match (if s.cx.hzdEn then s.st.hazard reads writes ((s.dev s.cdev).cycle + lat) else none) with
    | some w =>
      if s.cx.hzdMode then some (.next (s.waits .none))
      else some (s.raise .hazard w.pc (BitVec.ofNat 64 (hazardDetail w.reg)))
    | none => none

/-- Issue an instruction of the vector chapter: unless something holds it, `eff` acts on the stream, given the issue cycle,
the queue entries are taken, and the stream goes on. -/
def State.vecIssue (s : State) (regs : List (BitVec 6)) (reads : List Reg) (qs : List (BitVec 2)) (writes : List Reg)
    (lat : Nat) (eff : Nat → Stream → Stream) (n : Word := 4) : Out :=
  match s.vecHold regs reads qs writes lat with
  | some o => o
  | none => .next ((s.onSt fun st => (eff (s.dev s.cdev).cycle st).popQs qs).adv n)

/-- Record a vector or predicate write that lands later (R185). -/
def Stream.willLand (st : Stream) (land : Nat) (r : Reg) (v : Vec) (mask : Pred) : Stream :=
  { st with pend := st.pend ++ [⟨land, r, v, mask, st.ex.pc⟩] }

/-- All byte lanes. -/
def allLanes : Pred := BitVec.allOnes 128

/-! ### Elements (R183) -/

/-- The elements of a vector as numbers: n of `bits` bits, element 0 first. -/
def elemsFrom : Nat → Nat → Nat → List Nat
  | 0, _, _ => []
  | k + 1, bits, x => x % 2 ^ bits :: elemsFrom k bits (x / 2 ^ bits)
/-- The first n elements of w bits each. -/
def elems (v : Vec) (bits n : Nat) : List Nat := elemsFrom n bits v.toNat
/-- The number that elements of w bits each make. -/
def packElems (bits : Nat) : List Nat → Nat
  | [] => 0
  | x :: r => x % 2 ^ bits + 2 ^ bits * packElems bits r
/-- A vector from elements of w bits each; what lies above is zero. -/
def ofElems (bits : Nat) (xs : List Nat) : Vec := BitVec.ofNat 1024 (packElems bits xs)
/-- The elements of a typed vector. -/
def tyElems (ty : VTy) (v : Vec) : List Nat := elems v (8 * ty.size) ty.count
/-- A vector from typed elements. -/
def ofTy (ty : VTy) (xs : List Nat) : Vec := ofElems (8 * ty.size) xs

/-- The active lanes of a mask for elements of s bytes: element k is active when bit s·k is 1 (R184). -/
def activeFrom : Nat → Nat → Nat → Nat
  | 0, _, _ => 0
  | k + 1, sz, m => (if m % 2 = 1 then 2 ^ sz - 1 else 0) + 2 ^ sz * activeFrom k sz (m / 2 ^ sz)
/-- The byte lanes that a masked instruction of element size s writes. -/
def activeLanes (sz : Nat) (m : Pred) : Pred :=
  if m == allLanes then m else BitVec.ofNat 128 (activeFrom (128 / sz) sz m.toNat)

/-! ### Addresses (R162) -/

/-- BASE + sext(OFF) × size, or BASE under post-increment. -/
def eaOf (base : Word) (post : Bool) (off : BitVec 7) (size : Nat) : Word :=
  if post then base else base + sx off * BitVec.ofNat 64 size
/-- The new value of BASE under post-increment. -/
def postBase (base : Word) (off : BitVec 7) (size : Nat) : Word := base + sx off * BitVec.ofNat 64 size

/-! ### Program order and forwarding (R65) -/

/-- The stores of a stream that stand in its SQ, what is set aside included, or in a path, and are earlier than `seq`: sequence, place,
bytes. -/
def State.ownStores (s : State) (id : SlotId) (seq : Nat) : List (Nat × Loc × List Byte) :=
  let inSq := (s.strm id).allSq.flatMap fun i => match i with
    | .store q _ ps => if q < seq then ps.map fun p => (q, p.1.loc, p.2) else []
    | .stg _ _ _ _ _ _ | .twin _ _ => []
  let inPath := (s.core id.core).paths.filterMap fun p => match p.owner, p.cmd with
    | some (o, q), none => if o == id && q < seq then some (q, p.loc, p.bytes) else none
    | _, _ => none
  inPath ++ inSq

/-- The byte that the youngest covering store holds for the address (space, a). -/
def coverByte (s : State) (stores : List (Nat × Loc × List Byte)) (sp a : Nat) : Option Byte :=
  (stores.foldl (fun (best : Option (Nat × Byte)) st =>
    let hit := (s.key st.2.1).findSome? fun k =>
      if k.1 == sp && k.2 ≤ a && a < k.2 + st.2.2.length then st.2.2[a - k.2]? else none
    match hit, best with
    | none, b => b
    | some b, none => some (st.1, b)
    | some b, some (q, b') => if q ≤ st.1 then some (st.1, b) else some (q, b')) none).map Prod.snd

/-- Merge forwarded bytes over the bytes of a piece. -/
def State.forward (s : State) (stores : List (Nat × Loc × List Byte)) (loc : Loc) (bs : List Byte) : List Byte :=
  match s.key loc with
  | [] => bs
  | (sp, a) :: _ => bs.zipIdx.map fun bi => (coverByte s stores sp (a + bi.2)).getD bi.1
/-- The stores give every byte of a piece of n bytes. -/
def State.covered (s : State) (stores : List (Nat × Loc × List Byte)) (loc : Loc) (n : Nat) : Bool :=
  match s.key loc with
  | [] => false
  | (sp, a) :: _ => (upTo n).all fun k => (coverByte s stores sp (a + k)).isSome
/-- A line enters the GLC of a core: 128 KiB, 1,024 lines (R1, R33). -/
def State.glcFill (s : State) (c : CoreId) (line : Nat) (v : Vec) : State :=
  s.onCore c fun k => { k with glc := fsetCap 1024 (Config.cacheVictim s.clock 1024) k.glc line v }

/-- Whether an access of this device's memory fills the GLC (R33): pod-window and host accesses do not. -/
def glcAble : Loc → Bool
  | .kt _ _ _ _ | .sup _ _ => true
  | .buf _ _ _ | .mcast _ _ _ | .remote _ _ _ _ | .void => false

/-- Read a piece as a stream load does (R65): forwarded bytes, then the GLC copy, then the visibility point; a miss
fills the GLC, unless the stream's own stores gave every byte. -/
def State.loadPiece (s : State) (id : SlotId) (seq : Nat) (glc : Bool) (p : Piece) : State × List Byte :=
  let pl := s.locate p.loc
  let own := s.ownStores id seq
  let fwd := s.forward own p.loc
  match (if glc then glcLine id.core pl else none), pl with
  | some line, .devMem d a =>
    match fget? (s.core id.core).glc line with
    | some v => (s, fwd (((bvBytes 128 v).drop (a % 128)).take p.len))
    | none => (if s.covered own p.loc p.len then s else s.glcFill id.core line (s.homeLine d line), fwd (s.readPlace pl p.len))
  | _, _ => (s, fwd (s.readPlace pl p.len))

/-- An access homed at a field that has failed or tripped: a MACHINE_CHECK record names the field, and the launch of the
access is killed (R314). -/
def State.dropAccess (s : State) (id : SlotId) (field : Nat) : State :=
  let x := s.xidOf id
  let f : FaultRec := { name := .machineCheck, detail := BitVec.ofNat 64 field }
  (s.logFault id.core.dev (s.ctx x).asid f false (locWord id x.ctx) (ofHiBits (hiBits (s.strm id).ex.pc))).killOf id

/-- A range of addresses overlaps another. -/
def overlaps (a la b lb : Nat) : Bool := decide (a < b + lb) && decide (b < a + la) && la != 0 && lb != 0
/-- What keeps the command processor, or the host, from bytes at physical addresses (R273: bit 63 names host memory): the first of their
lines that is not served (R314), or else the first past the stacks, which does not keep it (log 59). A descriptor that a kill has still to
write keeps it too. -/
def State.cpStop (s : State) (dev : Nat) (rs : List (Nat × Nat)) : Option Place :=
  let places := (rs.filter fun r => decide (r.1 < 2 ^ 63)).flatMap fun r =>
    (upTo (ceilDiv (r.1 % 128 + r.2) 128)).map fun k => s.placePhys dev (r.1 / 128 * 128 + 128 * k)
  let other (beyond : Bool) : Place → Bool
    | .devMem _ _ => false
    | .beyond _ _ => beyond
    | _ => true
  let d := s.dev dev
  if d.stops.any fun p => rs.any fun r => overlaps r.1 r.2 (d.qdesc p.1) 64 then some .retry
  else (places.find? (other false)).orElse fun _ => places.find? (other true)
/-- An access that no launch makes (R314): it waits for a field that is not in service; at one that has failed or tripped it is dropped,
a record names the field (log 61), and `drop` is what remains to be done. -/
def State.cpAccessOr (s : State) (dev : Nat) (rs : List (Nat × Nat)) (drop : State → State) (f : State → Out) : Out :=
  match s.cpStop dev rs with
  | none | some (.beyond _ _) => f s
  | some (.dropped _ fl) => .next (drop (s.logFault dev 0 { name := .machineCheck, detail := BitVec.ofNat 64 fl } false 0 0))
  | some _ => .next s

/-- Such an access, with which all that the step was to do is dropped. -/
def State.cpAccess (s : State) (dev : Nat) (rs : List (Nat × Nat)) (f : State → Out) : Out := s.cpAccessOr dev rs id f

/-- A stream load of the execute cursor: a record, a frame header or the format table (R65, R204, R247): its bytes, the wait while a
piece must retry, or a fault, a field that drops the read being one (R314). -/
inductive RecRead where
  | ok (s : State) (bs : List Byte)
  | wait
  | bad (f : FaultRec)

/-- The granule of a piece, its access starting at `va`. -/
def Piece.granule (p : Piece) (va : Word) : Nat := (va.toNat + p.at_) / 16
/-- The bytes of a piece in a granule that has been read already. -/
def Piece.ofGranule (p : Piece) (va : Word) (bs : List Byte) : List Byte := (bs.drop ((va.toNat + p.at_) % 16)).take p.len

/-- Read pieces one after another; a granule that the instruction has read in a step of its own keeps what it read then (R71). -/
def State.loadPieces (s : State) (id : SlotId) (seq : Nat) (va : Word) : List Piece → State × List Byte
  | [] => (s, [])
  | p :: r =>
    let (s1, b) := match fget? (s.strm id).cache (p.granule va) with
      | some bs => (s, p.ofGranule va bs)
      | none => s.loadPiece id seq (glcAble p.loc) p
    let (s2, bs) := s1.loadPieces id seq va r
    (s2, b ++ bs)

/-- Who translates for a record read of the current stream. -/
def State.recXl (s : State) (eng : PermEng) : Xl := ⟨s.xid, s.cx.asid.toNat, s.st.priv, eng, .scalar⟩
/-- A read of n bytes at va by the execute cursor of the current stream. -/
def State.recRead (s : State) (eng : PermEng) (va : Word) (n : Nat) : RecRead :=
  match s.xlAccess (s.recXl eng) va n with
  | .bad f => .bad f
  | .ok ps =>
    match s.readStop (ps.filter fun p => (fget? s.st.cache (p.granule va)).isNone) with
    | some (.bad f) => .bad f
    | some (.dropped _ fl) => .bad { name := .machineCheck, detail := BitVec.ofNat 64 fl }
    | some _ => .wait
    | none =>
      let (s1, bs) := s.loadPieces s.cur (s.st.seq) va ps
      .ok s1 bs
/-- What becomes of an instruction whose read has not answered its bytes. -/
def State.recStop (s : State) : RecRead → Out
  | .ok s1 _ => .next s1
  | .wait => .next (s.waits .none)
  | .bad f => s.raiseRec f
/-- One granule of a record of n bytes at va is read in a step of its own (R71): it joins what the instruction has read. -/
def State.recPiece (s : State) (eng : PermEng) (va : Word) (n g : Nat) : State :=
  match s.xlAccess (s.recXl eng) va n with
  | .bad _ => s
  | .ok ps =>
    let mine := ps.filter fun p => p.granule va == g && (fget? s.st.cache g).isNone
    if mine.isEmpty || (s.readStop mine).isSome then s
    else
      let (s1, bs) := s.loadPieces s.cur s.st.seq va mine
      let lo := (mine.map fun p => (va.toNat + p.at_) % 16).headD 0
      s1.onSt fun st => { st with cache := fset st.cache g (List.replicate lo 0 ++ bs) }

end Sys2Proof.Machine
end

