-- ==== Sys2Proof/Machine/Flags.lean ====
section
/-!
DEFINITION. Machine/Flags.lean: status bytes and counts: contributions and their flags (R50, R51), reading a tile
element (R52), XR elements (R49), the row records (R57), scale selection (R58) and compress ranking (R59, R60).
-/
namespace Sys2Proof.Machine

/-- The status bits of R51. -/
def fNan : Byte := 1
/-- PINF of R51. -/
def fPinf : Byte := 2
/-- NINF of R51. -/
def fNinf : Byte := 4
/-- RANGE of R51. -/
def fRange : Byte := 8

/-- The flag of a special value that enters an accumulator (R51, R83, R105). -/
def specialFlag : Num → Byte
  | .nan => fNan
  | .inf neg => if neg then fNinf else fPinf
  | .fin _ _ _ => 0

/-- An XW value with its status byte (R48, R51). -/
abbrev XwElem := BitVec 160 × Byte

/-- One product of a block pair (R50): its flag, or its exact value. -/
def blockTerm (a b : Num) : Byte × Num :=
  if a.isNan || b.isNan then (fNan, .fin false 0 0)
  else match a, b with
    | .inf x, .inf y => (if x == y then fPinf else fNinf, .fin false 0 0)
    | .inf x, .fin y n _ => if n = 0 then (fNan, .fin false 0 0) else (if x == y then fPinf else fNinf, .fin false 0 0)
    | .fin x m _, .inf y => if m = 0 then (fNan, .fin false 0 0) else (if x == y then fPinf else fNinf, .fin false 0 0)
    | _, _ => (0, numMul a b)

/-- A finite value times 2^k. -/
def scaleNum (x : Num) (k : Int) : Num :=
  match x with
  | .fin s m e => .fin s m (e + k)
  | .nan => .nan
  | .inf s => .inf s

/-- Round(v × 2^100, RNE) of a finite value, as an integer (R50, R83). -/
def toXwInt (x : Num) (sc : Int) : Int :=
  match x with
  | .fin s m e => roundInt .rne s m (e + sc + 100)
  | .nan | .inf _ => 0

/-- RANGE of a rounded contribution (R50). -/
def rangeFlag (c : Int) : Byte := if 2 ^ 158 ≤ c.natAbs then fRange else 0

/-- Contribution of R50: the blocks as values, and the scale bytes; 0x80 marks an all-zero block. -/
def contribution (a b : List Num) (sa sb : Byte) : XwElem :=
  if sa == 0x80#8 || sb == 0x80#8 then (0, 0)
  else
    let terms := (a.zip b).map fun p => blockTerm p.1 p.2
    let fl := terms.foldl (fun f t => f ||| t.1) (0 : Byte)
    let d := terms.foldl (fun acc t => numAdd acc t.2) (.fin false 0 0)
    let c := toXwInt d (sa.toInt + sb.toInt)
    (BitVec.ofInt 160 c, fl ||| rangeFlag c)

/-- An element as it enters XW (R83): Round(v × 2^100, RNE) mod 2^160, with the flags of R51. -/
def enterXw (x : Num) : XwElem :=
  let c := toXwInt x 0
  (BitVec.ofInt 160 c, specialFlag x ||| rangeFlag c)

/-- Accumulate of R50. -/
def xwAcc (x c : XwElem) : XwElem := (x.1 + c.1, x.2 ||| c.2)

/-- A tile element as it is read (R52). -/
def xwRead (x : XwElem) : Num :=
  let n := x.2.getLsbD 0
  let p := x.2.getLsbD 1
  let m := x.2.getLsbD 2
  if n || (p && m) then .nan else if p then .inf false else if m then .inf true else ofIntE x.1.toInt (-100)

/-- An XR value with its flags, coded as R51's bits (R49). -/
abbrev XrElem := BitVec 320 × BitVec 4

/-- A value as it enters XR (R49): exactly below 2^135, else modularly with RANGE. -/
def enterXr (x : Num) : XrElem :=
  match x with
  | .fin s m e =>
    (BitVec.ofInt 320 (sgnAt s m (e + 160) 0), if m != 0 && decide (135 ≤ (m.log2 : Int) + e) then 8 else 0)
  | .nan => (0, 1)
  | .inf s => (0, if s then 4 else 2)

/-- Add a contribution to an XR element. -/
def xrAcc (x c : XrElem) : XrElem := (x.1 + c.1, x.2 ||| c.2)

/-- An XR element as it is read (R49, R52): RANGE reads as NaN. -/
def xrRead (x : XrElem) : Num :=
  if x.2.getLsbD 3 then .nan
  else if x.2.getLsbD 0 || (x.2.getLsbD 1 && x.2.getLsbD 2) then .nan
  else if x.2.getLsbD 1 then .inf false
  else if x.2.getLsbD 2 then .inf true
  else ofIntE x.1.toInt (-160)

/-- ChooseScale of R58: the scale byte for a block of values, from UTHR and the block's last underflow count. -/
def chooseScale (xs : List Num) (f : Par) (uthr : BitVec 6) (uf : Byte) : Byte :=
  if xs.all Num.isZero then 0x80
  else
    match (xs.filterMap numExp).foldl (fun (m : Option Int) e => match m with
        | none => some e
        | some m => some (max m e)) none with
    | none => 0
    | some mx =>
      let (mm, me) := maxFin f
      if mm = 0 then 0
      else
        let h : Int := if uthr != 0#6 && decide (uthr.toNat ≤ uf.toNat) then 0 else 1
        BitVec.ofInt 8 (clampI (-127) 127 (mx - ((mm.log2 : Int) + me) + h))

/-- A converted block: the patterns, the underflow count and the lost-special count. -/
structure BlockOut where
  pats : List Nat
  uf : Nat
  ls : Nat
  deriving DecidableEq, Repr

/-- Convert a block of values into a format under a scale byte (R194, R212): 0x80 gives +0 patterns, uncounted. -/
def convBlock (f : Par) (mode : RMode) (sc : Byte) (xs : List Num) : BlockOut :=
  if sc == 0x80#8 then ⟨xs.map fun _ => 0, 0, 0⟩
  else
    let os := xs.map (encodeNum f mode sc.toInt)
    ⟨os.map fun o => o.1, (os.filter fun o => o.2.1).length, (os.filter fun o => o.2.2).length⟩

/-- The rank order of R59 with the index: `a` is kept before `b`. -/
def keptBefore (a b : Nat × Num) : Bool := ranksAbove a.2 b.2 || (!ranksAbove b.2 a.2 && decide (a.1 < b.1))

/-- The indices of the four kept elements of a group of eight, in increasing order (R59). -/
def kept4 (xs : List Num) : List Nat :=
  let is := xs.zipIdx.map fun p => (p.2, p.1)
  (is.filter fun a => decide ((is.filter fun b => keptBefore b a).length < 4)).map Prod.fst

/-- The metadata word of a group (R60). -/
def metaWord : List Nat → Nat
  | [a, b, c, d] => a + 8 * b + 64 * c + 512 * d
  | _ => 0

/-- The indices of a metadata word; none when it is malformed (R60). -/
def metaIdx (w : Nat) : Option (List Nat) :=
  let a := nbits w 0 3
  let b := nbits w 3 3
  let c := nbits w 6 3
  let d := nbits w 9 3
  if nbits w 12 4 == 0 && a < b && b < c && c < d then some [a, b, c, d] else none

/-- Serial-number comparison (R113): a has reached n. -/
def serialReached (a n : BitVec 32) : Bool := decide ((a - n).toNat < 2 ^ 31)

end Sys2Proof.Machine
end

