-- ==== Sys2Proof/Machine/Fetch.lean ====
section
/-!
DEFINITION. Machine/Fetch.lean: fetching code (R122), block headers and their checks (R118 to R121), the place of an
instruction in its block (R117), and entering blocks and passes (R119, R22, R35).
-/
namespace Sys2Proof.Machine

/-! ### Fetch (R122) -/

/-- What a fetch answers. -/
inductive Fetch (α : Type) where
  | ok (s : State) (a : α)
  | wait
  | bad (f : FaultRec)

/-- The content that a line of the code range, one that lies in it in part included, had when its launch was admitted; none for other
lines. `codeSnap` holds whole lines, from the one that holds the first byte of the code on. -/
def codeSnapLine (l : Launch) (line : Nat) : Option (List Byte) :=
  let k := line - l.codeva / 128
  if l.codeva / 128 ≤ line && decide (128 * k + 128 ≤ l.codeSnap.length) then some ((l.codeSnap.drop (128 * k)).take 128) else none

/-- The content with which a line enters the instruction cache: that of its home now, or, when a store has changed it
since admission, the content at admission as the free choice of R122 decides. -/
def State.fillLine (s : State) (x : CtxId) (line : Nat) (home : Vec) : Vec :=
  match (s.launchOf x).bind fun l => codeSnapLine l line with
  | none => home
  | some bs =>
    let snap : Vec := bytesBv 1024 bs
    if snap != home && Config.icacheOld s.clock then snap else home

/-- Fetch the parcel at an address (R122). Lines of the KTT's address space are kept in the core's instruction cache of 64 KiB, 512 lines
(R1); others are read at their place. -/
def State.fetchParcel (s : State) (id : SlotId) (va : Nat) : Fetch (BitVec 16) :=
  let x := s.xidOf id
  let asid := (s.ctx x).asid.toNat
  let line := va / 128
  let off := va % 128
  let pick (v : Vec) : BitVec 16 := v.extractLsb' (8 * off) 16
  match fget? (s.core id.core).icache (asid, line) with
  | some v => .ok s (pick v)
  | none =>
    match s.xlByte ⟨x, asid, (s.strm id).priv, .load, .fetch⟩ va with
    | .bad f => .bad f
    | .ok (.kt d as k o) =>
      let p := s.locate (.kt d as k (o - o % 128))
      match p with
      | .retry => .wait
      | .bad f => .bad f
      | .devMem _ _ | .hostMem _ _ | .beyond _ _ =>
        let v := s.fillLine x line (bytesBv 1024 (s.readPlace p 128))
        .ok (s.onCore id.core fun c => { c with icache := fsetCap 512 (Config.cacheVictim s.clock 512) c.icache (asid, line) v }) (pick v)
      | .dropped _ fl => .bad { name := .machineCheck, detail := BitVec.ofNat 64 fl }
      | _ => .wait
    | .ok loc =>
      match s.locate loc with
      | .retry => .wait
      | .bad f => .bad f
      | .devMem d a => .ok s (bytesBv 16 (s.readPlace (.devMem d a) 2))
      | .hostMem d a => .ok s (bytesBv 16 (s.readPlace (.hostMem d a) 2))
      | .beyond d a => .ok s (bytesBv 16 (s.readPlace (.beyond d a) 2))
      | .dropped _ fl => .bad { name := .machineCheck, detail := BitVec.ofNat 64 fl }
      | _ => .wait

/-- Fetch two parcels as a 32-bit value. -/
def State.fetchWord (s : State) (id : SlotId) (va : Nat) : Fetch (BitVec 32) :=
  match s.fetchParcel id va with
  | .wait => .wait
  | .bad f => .bad f
  | .ok s1 p0 =>
    match s1.fetchParcel id (va + 2) with
    | .wait => .wait
    | .bad f => .bad f
    | .ok s2 p1 => .ok s2 (p1 ++ p0)

/-! ### Instructions in their blocks (R117) -/

/-- The WB family (R127): such an instruction is the last of its block. -/
def isWb : Instr → Bool
  | .beq _ _ _ | .bne _ _ _ | .blt _ _ _ | .bge _ _ _ | .bltu _ _ _ | .bgeu _ _ _ | .jmp _ | .call _ | .jr _ _
  | .callr _ _ | .ret | .relc | .tjoin | .loopb _ _ | .loopi _ _ _ | .fork _ | .join _ _ => true
  | _ => false

/-- The instruction of two parcels at a place of its block: none when it is illegal there (R117). -/
def placed (c : Cursor) (p0 p1 : BitVec 16) : Option (Instr × Nat) :=
  match decodeAt p0 p1 (c.pc + 2 == c.fin) with
  | none => none
  | some (i, n) => if isWb i && c.pc + BitVec.ofNat 64 n != c.fin then none else some (i, n)

/-- Fetch the instruction at a cursor: none inside the answer marks an illegal one. -/
def State.fetchInstr (s : State) (id : SlotId) (c : Cursor) : Fetch (Option (Instr × Nat)) :=
  match s.fetchParcel id c.pc.toNat with
  | .wait => .wait
  | .bad f => .bad f
  | .ok s1 p0 =>
    if !isWordParcel p0 || c.pc + 2 == c.fin then .ok s1 (placed c p0 0)
    else
      match s1.fetchParcel id (c.pc.toNat + 2) with
      | .wait => .wait
      | .bad f => .bad f
      | .ok s2 p1 => .ok s2 (placed c p0 p1)

/-! ### Block headers (R118 to R121) -/

/-- SYNC of a header. -/
def hdrSync (h : BitVec 32) : Bool := h.getLsbD 31
/-- RSRC of a header. -/
def hdrRsrc (h : BitVec 32) : Bool := h.getLsbD 30
/-- LCN of a header. -/
def hdrLcn (h : BitVec 32) : BitVec 2 := h.extractLsb' 28 2
/-- NOPRE of a header. -/
def hdrNopre (h : BitVec 32) : Bool := h.getLsbD 27
/-- REP of a header. -/
def hdrRep (h : BitVec 32) : BitVec 12 := h.extractLsb' 9 12
/-- LEN of a header. -/
def hdrLen (h : BitVec 32) : BitVec 9 := h.extractLsb' 0 9
/-- The header breaks R120. -/
def hdrBad (h : BitVec 32) : Bool :=
  hdrLen h == 0#9 || h.extractLsb' 21 6 != 0#6 || (!hdrRsrc h && hdrLcn h != 0#2) || (hdrRsrc h && hdrRep h != 0#12)
/-- The address of the header after a block (R119). -/
def hdrEnd (hdr : Word) (h : BitVec 32) : Word := hdr + 4 + 2 * zx (hdrLen h)
/-- The pass count of a block, given the loop counters (R118). -/
def hdrPasses (h : BitVec 32) (lc : BitVec 2 → BitVec 32) : BitVec 32 :=
  if hdrRsrc h then lc (hdrLcn h) else (hdrRep h).setWidth 32
/-- The cursor just inside a block, or past it when it has no pass (R119). -/
def enterCursor (hdr : Word) (h : BitVec 32) (lc : BitVec 2 → BitVec 32) : Cursor :=
  let e := hdrEnd hdr h
  let n := hdrPasses h lc
  if n == 0#32 then .atHeader e else { pc := hdr + 4, hdr := hdr, fin := e, rem := n, nopre := hdrNopre h }

/-- A fault of a header (R290): its address is FADDR. -/
def hdrFault (n : FaultName) (hdr : Word) : FaultRec := { name := n, faddr := hdr }

/-- The header's four bytes lie in the code range (R121). -/
def Ctx.inCode (c : Ctx) (hdr : Word) : Bool :=
  decide ((ofHiBits c.codebase).toNat ≤ hdr.toNat) && decide (hdr.toNat + 4 ≤ (ofHiBits c.codelim).toNat)

/-- Read and check a header (R120, R121); in S the checks of R121 are not made (R293). -/
def State.readHeader (s : State) (id : SlotId) (hdr : Word) : Fetch (BitVec 32) :=
  let c := s.ctx (s.xidOf id)
  let u := (s.strm id).priv == .u
  if u && !c.inCode hdr then .bad (hdrFault .execLimit hdr)
  else
    match s.fetchWord id hdr.toNat with
    | .wait => .wait
    | .bad f => .bad f
    | .ok s1 h =>
      if hdrBad h then .bad (hdrFault .illegalOp hdr)
      else if u && decide ((ofHiBits c.codelim).toNat < hdr.toNat + 4 + 2 * (hdrLen h).toNat) then
        .bad (hdrFault .execLimit hdr)
      else .ok s1 h

/-! ### Pre-emption points (R123, R296) -/

/-- A cooperative launch is not whole: some WG of it has not been dispatched, or stands saved, and none issues (R16). -/
def State.coopHeld (s : State) (x : CtxId) : Bool :=
  match s.launchOf x with
  | some l => l.coop && (decide (l.nextWg < l.wgcount) || !l.batch.isEmpty || !l.savedWgs.isEmpty)
  | none => false
/-- The stream can act: it runs or waits, its launch is whole where it must be, and its core is not fenced. -/
def State.canAct (s : State) (id : SlotId) : Bool :=
  ((s.strm id).status == .running || (s.strm id).status == .waiting) && !(s.core id.core).fenced && !s.coopHeld (s.xidOf id)

/-- The stream would divert at its pre-emption point, were the header's NOPRE 0: it runs in U, no stub, no pending
fault, and its context is asked to stop. -/
def State.asked (s : State) (id : SlotId) : Bool :=
  let st := s.strm id
  (s.ctx (s.xidOf id)).preempt && st.priv == .u && st.stub == .none

/-- NOPRE of the header at an address; a header that cannot be read has none, since the diversion comes before its
checks (R123), and one that is still to come holds the diversion. -/
def State.nopreAt (s : State) (id : SlotId) (hdr : Word) : Bool :=
  match s.fetchWord id hdr.toNat with
  | .ok _ h => hdrNopre h
  | .wait => true
  | .bad _ => false

/-- The stream stands at a pre-emption point that counts, with a request pending (R123): at a header, or at the end of a pass, where the
header has been read already. -/
def State.diverts (s : State) (id : SlotId) : Bool :=
  let c := (s.strm id).ex
  s.asked id && (if c.atHdr then !s.nopreAt id c.hdr else c.atPassEnd && !c.nopre)

/-! ### Entering blocks and passes (R119) -/

/-- Move the execute cursor into the block at its header. -/
def Stream.enter (st : Stream) (c : Cursor) : Stream :=
  let st := st.landAll
  let a := if st.acc.together then { st.acc with cur := c } else { st.acc with leadBlk := st.acc.leadBlk - 1 }
  { st with ex := c, acc := a, status := .running, wait := .none }

/-- Begin the next pass (R119, R258). -/
def Stream.beginPass (st : Stream) : Stream :=
  let st := st.landAll
  let c : Cursor := { st.ex with pc := st.ex.hdr + 4, rem := st.ex.rem - 1 }
  { st with ex := c, acc := if st.acc.together then { st.acc with cur := c } else st.acc }

/-- The main streams of a context that lock step binds: those that have not halted (R22, R157). -/
def State.stepGroup (s : State) (x : CtxId) : List SlotId :=
  (mainsOf x).filter fun id => (s.strm id).status != .halted && (s.strm id).status != .free

/-- A stream of the group stands ready at a header: in U, in no stub, at a header that it has not entered (R35, R293). -/
def State.atStart (s : State) (id : SlotId) : Bool :=
  let st := s.strm id
  st.priv == .u && st.stub == .none && st.ex.atHdr && st.status != .saved && st.pendFaults.isEmpty && !s.diverts id

/-- Read the headers of a group: the headers in order, or the first stream whose header stops it. -/
def State.groupHeaders (s : State) : List SlotId → Fetch (List (SlotId × BitVec 32)) × SlotId
  | [] => (.ok s [], s.cur)
  | id :: r =>
    match s.readHeader id (s.strm id).ex.hdr with
    | .wait => (.wait, id)
    | .bad f => (.bad f, id)
    | .ok s1 h =>
      match s1.groupHeaders r with
      | (.ok s2 hs, i) => (.ok s2 ((id, h) :: hs), i)
      | (.wait, i) => (.wait, i)
      | (.bad f, i) => (.bad f, i)

/-- Enter one block. -/
def State.enterBlock (s : State) (id : SlotId) (h : BitVec 32) : State :=
  s.onStrm id fun st => st.enter (enterCursor st.ex.hdr h st.rlc)

/-- The streams of a group enter their blocks together (R22, R35): a header that stops its stream is delivered to it, and
the others do not start. Lock step goes on exactly when every header keeps it. -/
def State.enterGroup (s : State) (x : CtxId) (ids : List SlotId) : State :=
  match s.groupHeaders ids with
  | (.wait, _) => s
  | (.bad f, id) => s.deliver id f (s.strm id).ex.retPoint
  | (.ok s1 hs, _) =>
    (hs.foldl (fun s p => s.enterBlock p.1 p.2) s1).onCtx x fun c => { c with lockstep := hs.all fun p => hdrSync p.2 }

end Sys2Proof.Machine
end

