-- ==== Sys2Proof/Machine/Access.lean ====
section
/-!
DEFINITION. Machine/Access.lean: the access cursor (R23, R24, R162, R165, R173): what it performs, where it stops, and
what the execute cursor does at a load.
-/
namespace Sys2Proof.Machine

/-! ### Registers that instructions write, for the waits of R23 and R165 -/

/-- The control-register number of a loop counter or of the rotation base (R240). -/
def csrReg (n : BitVec 10) : List Reg :=
  match n.toNat with
  | 5 => [.rrb]
  | 6 => [.lc 0] | 7 => [.lc 1] | 8 => [.lc 2] | 9 => [.lc 3]
  | _ => []

/-- The scalar and vector registers, loop counters and rotation base that an execute-side instruction writes, as names. -/
def Instr.writes : Instr → List Reg
  | .add _ d _ _ | .sub _ d _ _ | .sll _ d _ _ | .srl _ d _ _ | .sra _ d _ _ | .adds _ d _ _ | .subs _ d _ _
  | .mul _ d _ _ | .div _ d _ _ | .divu _ d _ _ | .rem _ d _ _ | .remu _ d _ _ => [.s d]
  | .and d _ _ | .or d _ _ | .xor d _ _ | .andn d _ _ | .mulh d _ _ | .mulhu d _ _ => [.s d]
  | .addi d _ _ | .andi d _ _ | .ori d _ _ | .xori d _ _ | .slli d _ _ | .srli d _ _ | .srai d _ _ | .addiI32 d _ _ => [.s d]
  | .lui d _ | .apc d _ => [.s d]
  | .clz d _ | .ctz d _ | .cpop d _ | .sextb d _ | .sexth d _ | .sextw d _ | .zextw d _ => [.s d]
  | .min d _ _ | .max d _ _ | .minu d _ _ | .maxu d _ _ | .slt d _ _ | .sltu d _ _ | .seq d _ _ | .sne d _ _ => [.s d]
  | .csel d _ _ _ => [.s d]
  | .addCompact d _ | .subCompact d _ | .andCompact d _ | .mvCompact d _ | .addiCompact d _ | .liCompact d _ => [.s d]
  | .slliCompact d _ | .sraiCompact d _ => [.s d]
  | .vmvCompact vd _ => [.v vd]
  | .st _ post _ base _ | .stv _ post _ base _ => if post then [.s base] else []
  | .gseq d _ => [.s d]
  | .vadd _ _ _ d _ _ | .vsub _ _ _ d _ _ | .vmul _ _ _ d _ _ | .vfma _ _ _ d _ _ | .vmin _ _ _ d _ _ | .vmax _ _ _ d _ _
  | .vsll _ _ _ d _ _ | .vsrl _ _ _ d _ _ | .vsra _ _ _ d _ _ => [.v d]
  | .vand _ _ d _ _ | .vor _ _ d _ _ | .vxor _ _ d _ _ | .vandn _ _ d _ _ | .vnot _ _ d _ => [.v d]
  | .vsel _ d _ _ | .vmv d _ | .vperm _ d _ _ | .vslideup _ d _ _ | .vslidedn _ d _ _ | .vbcast _ d _ => [.v d]
  | .vext _ d _ _ => [.s d]
  | .vcvt _ _ _ _ _ _ d _ => [.v d]
  | .movlVector d _ => [.v d]
  | .movlScalar d _ | .pcnt d _ => [.s d]
  | .trd _ _ d _ _ => [.v d]
  | .vcmpr48 _ d m _ | .vcmpr48Lc _ d m _ => [.v d, .v m]
  | .qplan d _ => [.s d]
  | .statr d _ => [.v (d.setWidth 6)]
  | .csrr d _ | .rdtime d => [.s d]
  | .csrw n _ | .csrs n _ | .csrc n _ => csrReg n
  | _ => []

/-- The scalar that BS of a compact form names (R126). -/
def bsReg (bs : BitVec 2) : BitVec 5 :=
  match bs.toNat with
  | 0 => 28 | 1 => 29 | 2 => 30 | _ => 2

/-- The scalars that an instruction names as sources or as destinations that an earlier atomic may still have to write
(R137, R178). -/
def Instr.scalars : Instr → List (BitVec 5)
  | .add _ d a b | .sub _ d a b | .sll _ d a b | .srl _ d a b | .sra _ d a b | .adds _ d a b | .subs _ d a b
  | .mul _ d a b | .div _ d a b | .divu _ d a b | .rem _ d a b | .remu _ d a b => [d, a, b]
  | .and d a b | .or d a b | .xor d a b | .andn d a b | .mulh d a b | .mulhu d a b => [d, a, b]
  | .addi d a _ | .andi d a _ | .ori d a _ | .xori d a _ | .slli d a _ | .srli d a _ | .srai d a _ | .addiI32 d a _ => [d, a]
  | .lui d _ | .apc d _ => [d]
  | .clz d a | .ctz d a | .cpop d a | .sextb d a | .sexth d a | .sextw d a | .zextw d a => [d, a]
  | .min d a b | .max d a b | .minu d a b | .maxu d a b | .slt d a b | .sltu d a b | .seq d a b | .sne d a b => [d, a, b]
  | .csel d c a b => [d, c, a, b]
  | .addCompact d b | .subCompact d b | .andCompact d b | .mvCompact d b => [d, b]
  | .addiCompact d _ | .liCompact d _ | .slliCompact d _ | .sraiCompact d _ => [d]
  | .ldDCompact d bs _ | .stDCompact d bs _ => [d, bsReg bs]
  | .beq a b _ | .bne a b _ | .blt a b _ | .bge a b _ | .bltu a b _ | .bgeu a b _ => [a, b]
  | .jr a _ | .callr a _ | .loopi _ a _ | .waitt a => [a]
  | .relc => [1, 2, 3, 4, 5, 6, 7, 8, 16, 17, 18, 19, 20, 21, 22, 23, 24, 25, 26, 27, 28, 29, 30]
  | .ret => [1, 2, 3, 4, 5, 6, 7, 8, 16, 17, 18, 19, 20, 21, 22, 23, 24, 25, 26, 27, 28, 29, 30]
  | .ld _ _ _ base t | .ldUnsigned _ _ _ base t | .st _ _ _ base t => [base, t]
  | .ldv _ _ _ base _ | .stv _ _ _ base _ | .ldvXw _ _ base _ | .ldq _ _ base _ => [base]
  | .ldvSI _ x base _ | .stvSI _ x base _ => (match x with
    | .strided r => [base, r]
    | .indexed _ => [base])
  | .amo _ _ _ _ d v base | .cas _ _ _ d v base | .swap _ _ _ d v base => [d, v, base]
  | .gacq _ d | .gseq d _ => [d]
  | .stg _ _ _ _ ofs _ => [ofs]
  | .vslideup _ _ _ y | .vslidedn _ _ _ y | .vbcast _ _ y | .pfirst _ _ y => [y]
  | .vext _ d _ _ | .movlScalar d _ | .pcnt d _ => [d]
  | .mma _ _ _ a b c | .mmas _ _ _ a b c => [a, b, c]
  | .mcvt _ _ a _ | .mldacc _ a | .mstacc a _ | .cpy a | .cpyx a | .gth a | .sct a | .coll a | .fmtld a => [a]
  | .qplan d a | .qrun d a | .qhint d a | .qstat d a => [d, a]
  | .qpin d | .qunpin d | .qdrop d | .csrr d _ | .rdtime d => [d]
  | .statr _ a | .statw a _ _ => [a]
  | .csrw _ a | .csrs _ a | .csrc _ a => [a]
  | .psave _ _ | .trap _ | .eret | .prest => [1, 2, 3, 4, 5, 6, 7, 8, 9, 10, 11, 12, 13, 14, 15, 16, 17, 18, 19, 20, 21, 22,
    23, 24, 25, 26, 27, 28, 29, 30, 31]
  | _ => []

/-- An instruction names a scalar whose atomic has not performed: the execute cursor waits (R137). -/
def Stream.amoHold (st : Stream) (i : Instr) : Bool := (Instr.scalars i).any st.amoPend.contains

/-- The access cursor waits here until the execute cursor has passed (R23, R64): branches that it does not resolve, join
points, and the instructions that end, trap, or save a stream. Those of `gatesAccess` it passes once they have issued. -/
def stopsAccess : Instr → Bool
  | .beq _ _ _ | .bne _ _ _ | .blt _ _ _ | .bge _ _ _ | .bltu _ _ _ | .bgeu _ _ _ | .jmp _ | .call _ | .jr _ _
  | .callr _ _ | .ret | .relc | .tjoin | .fork _ | .join _ _ => true
  | .mark | .fence _ _ | .cset _ | .csetClr _ | .cwait _ | .halt | .trap _ | .eret | .psave _ _ | .prest => true
  | .amo _ _ _ _ _ _ _ | .cas _ _ _ _ _ _ | .swap _ _ _ _ _ _ | .gacq _ _ | .bar _ | .qrun _ _ | .statw _ _ _ => true
  | .semsig q _ _ | .semwait q _ _ => q == .stream
  | _ => false

/-- A join point at which the execute cursor waits and behind which the program goes on in order: the access cursor passes it once the
execute cursor has issued it (R64). -/
def gatesAccess : Instr → Bool
  | .cset _ | .csetClr _ | .cwait _ | .gacq _ _ | .bar _ | .qrun _ _ | .tjoin => true
  | .semsig q _ _ | .semwait q _ _ => q == .stream
  | _ => false

/-! ### The access cursor's view of registers (R165) -/

/-- The latest of the numbers paired with a register. -/
def latest {α : Type} (l : List (Nat × α)) (p : α → Bool) : Option (Nat × α) :=
  (l.filter fun x => p x.2).foldl (fun b x => match b with
    | none => some x
    | some y => if y.1 ≤ x.1 then some x else some y) none

/-- The value of a scalar in program order at the access cursor in the cycle `cyc`; none while an earlier write has not been made, or its
result is interlocked still (R165, R257). -/
def Stream.accScalar (st : Stream) (cyc : Nat) (a : Access) (r : BitVec 5) : Option Word :=
  if r == 0#5 then some 0
  else if st.amoPend.contains r then none
  else
    match latest a.bases (fun b => b.1 == r), latest a.dirty (fun d => d == .s r) with
    | none, none => if st.busy.any fun b => b.1 == r.toNat && decide (cyc < b.2) then none else some (st.rs r)
    | some (_, b), none => some b.2
    | none, some _ => none
    | some (q, b), some (q', _) => if q' < q then some b.2 else none

/-- A vector register holds its value in program order at the access cursor. -/
def Stream.accVecReady (st : Stream) (a : Access) (n : BitVec 6) : Bool :=
  !(a.dirty.any fun d => d.2 == .v n) && (st.pendOn (.v n)).isNone

/-- No earlier write of a register is outstanding. -/
def Access.clean (a : Access) (r : Reg) : Bool := !(a.dirty.any fun d => d.2 == r)

/-- A loop counter as the access cursor's copy. -/
def Access.lc (a : Access) (n : BitVec 2) : BitVec 32 := a.lcs[n.toNat]'n.isLt

/-- Where the access side stands: at the execute cursor, with fresh copies, when the two stand together (R23). -/
def Stream.accNow (st : Stream) : Access :=
  if st.acc.together then { st.acc with cur := st.ex, lcs := st.lc, rrb := st.rrb, bases := [], dirty := [] } else st.acc

/-! ### Loads (R167 to R171) -/

/-- A load as the access cursor sees it. -/
structure LoadForm where
  dest : LoadDest
  base : BitVec 5
  post : Bool
  off : BitVec 7
  size : Nat
  len : Nat
  x : Option StrideIdx
  xw : Bool
  path : PathKind
  deriving DecidableEq, Repr

/-- The load that an instruction is, with its vector destination resolved by `vr`. -/
def loadForm (vr : BitVec 6 → BitVec 6) : Instr → Option LoadForm
  | .ld sz post off base t =>
    some ⟨.scalar t (2 ^ sz.toNat) true, base, post, off, 2 ^ sz.toNat, 2 ^ sz.toNat, none, false, .scalar⟩
  | .ldUnsigned sz post off base t =>
    some ⟨.scalar t (2 ^ sz.toNat) false, base, post, off, 2 ^ sz.toNat, 2 ^ sz.toNat, none, false, .scalar⟩
  | .ldDCompact d bs off => some ⟨.scalar d 8 true, bsReg bs, false, off.setWidth 7, 8, 8, none, false, .scalar⟩
  | .ldv sz post off base t =>
    some ⟨.vector (vr t), base, post, off, 2 ^ sz.toNat, 2 ^ sz.toNat, none, false, .vecLoad⟩
  | .ldvXw post off base t => some ⟨.vector (vr t), base, post, off, 40, 42, none, true, .vecLoad⟩
  | .ldq post off base q => some ⟨.queue q, base, post, off, 128, 128, none, false, .vecLoad⟩
  | .ldvSI dbl x base t =>
    let sz := if dbl then 8 else 4
    some ⟨.vector (vr t), base, false, 0, sz, sz, some x, false, .scalar⟩
  | _ => none

/-- The pieces of the XW-pair read (R169): the address in the CB part of the local or quad window at an element pair. -/
def State.xlXw (s : State) (x : CtxId) (va : Nat) : Res (List Piece) :=
  let go (y : CtxId) (off : Nat) (same : Bool) : Res (List Piece) :=
    let o := off % 0x80000
    if o % 40 ≠ 0 || 0x78000 < o + 40 then .bad (mkF .bufPerm va)
    else
      let st := off - o + 0x78000 + o / 20
      if !same || shareSize (s.exclOf x) .cb < off + 40 || shareSize (s.exclOf x) .cb < st + 2 then .bad (mkF .window va)
      else .ok [⟨.buf y .cb off, 40, 0⟩, ⟨.buf y .cb st, 2, 40⟩]
  if 2 ^ 57 < va + 40 then .bad (mkF .vaRange (max va (2 ^ 57)))
  else if va / 2 ^ 52 ≠ 0x1F then .bad (mkF .bufPerm va)
  else
    match windowOf va with
    | some (.localW, o) => (match windowBuf o with
      | some (.cb, off) => go x off true
      | _ => .bad (mkF .bufPerm va))
    | some (.quadW c, o) => (match windowBuf o with
      | some (.cb, off) =>
        let y : CtxId := ⟨⟨x.core.dev, x.core.field, x.core.core / 4 * 4 + c⟩, x.ctx⟩
        go y off (s.sameLaunch x y)
      | _ => .bad (mkF .bufPerm va))
    | _ => .bad (mkF .bufPerm va)

/-- The fault that an access names when two of its elements fail (R162, R164): VA_RANGE, or else the lower byte; among equals
the element that comes first. -/
def FaultRec.lowest (a b : FaultRec) : FaultRec :=
  if (a.name == .vaRange) != (b.name == .vaRange) then (if a.name == .vaRange then a else b)
  else if b.faddr.toNat < a.faddr.toNat then b else a
/-- Translate the elements of a strided or indexed form (R164, R170): a fault names the lowest failing byte of all elements, and
its element (R290). -/
def State.xlElems (s : State) (t : Xl) (sz : Nat) : List (Nat × Word) → Res (List Piece)
  | [] => .ok []
  | (k, va) :: r =>
    match s.xlAccess t va sz, s.xlElems t sz r with
    | .bad f, .bad g => .bad (FaultRec.lowest { f with detail := f.detail + BitVec.ofNat 64 (k * 2 ^ 32) } g)
    | .bad f, .ok _ => .bad { f with detail := f.detail + BitVec.ofNat 64 (k * 2 ^ 32) }
    | .ok _, .bad g => .bad g
    | .ok ps, .ok qs => .ok ((ps.map fun p => { p with at_ := p.at_ + k * sz }) ++ qs)

/-- The element addresses of a strided form (R162). -/
def stridedEas (base stride : Word) (sz : Nat) : List (Nat × Word) :=
  (upTo (128 / sz)).map fun k => (k, base + BitVec.ofNat 64 k * stride)
/-- The element addresses of an indexed form (R162): signed INT32 lanes, scaled by the element size. -/
def indexedEas (base : Word) (v : Vec) (sz : Nat) : List (Nat × Word) :=
  (upTo (128 / sz)).map fun k => (k, base + sx (v.extractLsb' (32 * k) 32) * BitVec.ofNat 64 sz)

/-- Loads that hold LQ entries of their own: those with a register destination. -/
def Access.lqCount (a : Access) : Nat :=
  a.done.length + (a.lq.filter fun i => match i with
    | .load _ (.queue _) _ _ _ _ => false
    | .load _ _ _ _ _ _ => true
    | .twin _ => false).length

/-- Entries of an operand queue, the loads on their way to it included (R23). -/
def Access.qCount (a : Access) (q : BitVec 2) : Nat :=
  (a.qs[q.toNat]'q.isLt).length + (a.lq.filter fun i => match i with
    | .load _ (.queue q') _ _ _ _ => q' == q
    | _ => false).length

/-- The queue or the LQ has room for the load (R23: 16 entries a queue; R299: 32 performed LQ entries). -/
def Access.room (a : Access) : LoadDest → Bool
  | .queue q => decide (a.qCount q < 16)
  | .scalar _ _ _ | .vector _ => decide (a.lqCount < 32)

/-- The register that a load writes when the execute cursor reaches it. -/
def LoadDest.reg : LoadDest → List Reg
  | .scalar d _ _ => [.s d]
  | .vector d => [.v d]
  | .queue _ => []

/-- What the access cursor finds at a load. -/
inductive AccRes where
  | stop
  | wake (banks : BitVec 4)
  | fault (f : FaultRec)
  | go (va : Word) (ps : List Piece) (nb : Option Word)

/-- Form the addresses of a load and translate it (R162 to R165); an index register in a bank in retention stalls it (R182, R186). -/
def State.accAddr (s : State) (id : SlotId) (a : Access) (f : LoadForm) : AccRes :=
  let st := s.strm id
  let x := s.xidOf id
  let t : Xl := ⟨x, (s.ctx x).asid.toNat, st.priv, .load, f.path⟩
  let vb := match s.launchOf x with
    | none => 4
    | some l => l.vbanks
  let off (n : BitVec 6) : Bool := !bankOn vb n
  let destOff := match f.dest with
    | .vector d => off d
    | .scalar _ _ _ | .queue _ => false
  let cyc := (s.dev id.core.dev).cycle
  match st.accScalar cyc a f.base with
  | none => .stop
  | some b =>
    if !a.room f.dest then .stop
    else if destOff then .fault { name := .vbank }
    else
      let fin (va : Word) (r : Res (List Piece)) : AccRes := match r with
        | .bad e => .fault e
        | .ok ps => .go va ps (if f.post then some (postBase b f.off f.size) else none)
      match f.x with
      | some (.strided r) => (match st.accScalar cyc a r with
        | none => .stop
        | some k => fin b (s.xlElems t f.size (stridedEas b k f.size)))
      | some (.indexed v) =>
        let p := rotV vb a.rrb v
        if off p then .fault { name := .vbank }
        else if !st.accVecReady a p then .stop
        else if st.retained [p] != 0#4 then .wake (st.retained [p])
        else fin b (s.xlElems t f.size (indexedEas b (st.rv p) f.size))
      | none =>
        let va := eaOf b f.post f.off f.size
        if f.xw then fin va (s.xlXw x va.toNat) else fin va (s.xlAccess t va f.len)

/-- The access cursor performs a load: it enters the LQ (R64), and the cursor goes past it. -/
def Stream.pushLoad (st : Stream) (a : Access) (f : LoadForm) (seq : Nat) (va : Word) (ps : List Piece)
    (nb : Option Word) (n : Nat) : Stream :=
  { st with acc := { a with
      cur := a.cur.adv (BitVec.ofNat 64 n), lead := a.lead + 1
      lq := a.lq ++ [.load seq f.dest true va ps []]
      bases := (match nb with
        | some w => a.bases ++ [(seq, f.base, w)]
        | none => a.bases)
      dirty := a.dirty ++ f.dest.reg.map fun r => (seq, r) } }

/-! ### One step of the access cursor -/

/-- The translation of an LDQ that the execute cursor has passed. -/
def State.lateXl (s : State) (id : SlotId) (va : Word) : Res (List Piece) :=
  let x := s.xidOf id
  s.xlAccess ⟨x, (s.ctx x).asid.toNat, (s.strm id).priv, .load, .vecLoad⟩ va 128
/-- The access cursor performs the oldest LDQ that the execute cursor has passed. -/
def State.accLate (s : State) (id : SlotId) : State :=
  let st := s.strm id
  match st.acc.late with
  | [] => s
  | (seq, q, va, _) :: r =>
    if !st.acc.room (.queue q) then s
    else
      match s.lateXl id va with
      | .bad f => s.onStrm id fun st => { st with acc := { st.acc with fault := some (seq, f) } }
      | .ok ps => s.onStrm id fun st =>
          { st with acc := { st.acc with late := r, lq := st.acc.lq ++ [.load seq (.queue q) true va ps []] } }

/-- The place of the first instruction of the next pass when the cursor stands at the end of one. -/
def Cursor.intoPass (c : Cursor) : Cursor := if c.atPassEnd then { c with pc := c.hdr + 4, rem := c.rem - 1 } else c

/-- The access cursor goes past an instruction that it does not perform. -/
def Stream.skip (st : Stream) (a : Access) (seq : Nat) (i : Instr) (vb n : Nat) : Stream :=
  let ds := (Instr.writes i).map fun r => match r with
    | .v v => (seq, Reg.v (rotV vb a.rrb v))
    | r => (seq, r)
  { st with acc := { a with cur := a.cur.adv (BitVec.ofNat 64 n), lead := a.lead + 1, dirty := a.dirty ++ ds } }

/-- The access cursor takes a loop instruction by itself (R23). -/
def Stream.accLoop (st : Stream) (a : Access) (taken : Bool) (target : Word) : Stream :=
  { st with acc := { a with cur := if taken then .atHeader target else a.cur.adv 4, lead := a.lead + 1 } }

/-- The target of a WB branch (R142). -/
def wbTarget (pc : Word) (off : BitVec 12) : Word := pc + 2 * sx off

/-- The access cursor at an instruction. -/
def State.accInstr (s : State) (id : SlotId) (a : Access) (i : Instr) (n : Nat) : State :=
  let st := s.strm id
  let seq := st.seq + a.lead
  let x := s.xidOf id
  let vb := match s.launchOf x with
    | none => 4
    | some l => l.vbanks
  if !a.clean .rrb then s
  else
    match loadForm (rotV vb a.rrb) i with
    | some f =>
      (match s.accAddr id a f with
      | .stop => s
      | .wake b => s.onStrm id fun st => { st with wake := st.wake ||| b }
      | .fault e => s.setStrm id { st with acc := { a with fault := some (seq, e) } }
      | .go va ps nb => s.setStrm id (st.pushLoad a f seq va ps nb n))
    | none =>
      match i with
      | .loopb c off =>
        if !a.clean (.lc c) then s
        else
          let v := a.lc c
          let v' := if v == 0#32 then 0#32 else v - 1
          let a' := { a with lcs := a.lcs.set c.toNat v' c.isLt, rrb := a.rrb - 1 }
          s.setStrm id (st.accLoop a' (v' != 0#32) (wbTarget a.cur.pc off))
      | .loopi c b off =>
        if !a.clean (.lc c) then s
        else
          (match st.accScalar (s.dev id.core.dev).cycle a b with
          | none => s
          | some v =>
            if 2 ^ 32 ≤ v.toNat then s
            else
              let a' := { a with lcs := a.lcs.set c.toNat (v.setWidth 32) c.isLt }
              s.setStrm id (st.accLoop a' (v == 0) (wbTarget a.cur.pc off)))
      | i => if stopsAccess i && !(gatesAccess i && a.lead == 0 && st.gated) then s else s.setStrm id (st.skip a seq i vb n)

/-- The access cursor enters the block at whose header it stands (R23: no further than the block that follows the execute
cursor's). -/
def State.accHeader (s : State) (id : SlotId) (a : Access) : State :=
  if 1 ≤ a.leadBlk then s
  else
    match s.readHeader id a.cur.hdr with
    | .wait | .bad _ => s
    | .ok s1 h =>
      if hdrRsrc h && !a.clean (.lc (hdrLcn h)) then s
      else s1.onStrm id fun st =>
        { st with acc := { a with cur := enterCursor a.cur.hdr h a.lc, leadBlk := a.leadBlk + 1 } }

/-- One step of the access cursor; where its condition fails, nothing changes. -/
def State.accessStep (s : State) (id : SlotId) : State :=
  let st := s.strm id
  if !s.canAct id || st.acc.fault.isSome then s
  else if !st.acc.late.isEmpty then s.accLate id
  else
    let a := st.accNow
    if a.cur.atHdr then s.accHeader id a
    else
      let a := { a with cur := a.cur.intoPass }
      match s.fetchInstr id a.cur with
      | .ok s1 (some (i, n)) => s1.accInstr id a i n
      | .ok _ none | .wait | .bad _ => s

/-! ### The execute cursor at a load (R162, R165) -/

/-- Write a load's destination from its performed entry (R167, R168). -/
def Stream.writeLoad (st : Stream) (cyc : Nat) (e : LqDone) : Stream :=
  match e.dest with
  | .scalar d n sg =>
    let x := e.data.toNat % 2 ^ (8 * n)
    st.ws d (if sg then BitVec.ofInt 64 (toSigned (8 * n) x) else BitVec.ofNat 64 x)
  | .vector d => st.willLand (cyc + 1) (.v d) e.data allLanes
  | .queue _ => st

/-- Write BASE of a load with post-increment that the access cursor has performed. -/
def Stream.writeBase (st : Stream) : Stream :=
  match latest (st.acc.bases.filter fun b => b.1 == st.seq) (fun _ => true) with
  | some (_, r, w) => st.ws r w
  | none => st

/-- The access cursor has performed the load at the execute cursor: it stands past it. -/
def Stream.accPassed (st : Stream) : Bool := decide (1 ≤ st.acc.lead)

/-- The execute cursor at a load, the access cursor having acted first where the two stand together. `n` is the length
of the instruction. -/
def State.loadExec (s : State) (f : LoadForm) (n : Nat) : Out :=
  let s := if s.st.accPassed then s else s.accessStep s.cur
  let st := s.st
  match f.dest with
  | .queue q =>
    if st.accPassed then .next ((s.onSt Stream.writeBase).adv (BitVec.ofNat 64 n))
    else if f.post || !(st.accScalar (s.dev s.cdev).cycle st.accNow f.base).isSome then s.waitAccess
    else
      let va := eaOf (st.rs f.base) false f.off f.size
      .next ((s.onSt fun st => { st with acc := { st.acc with late := st.acc.late ++ [(st.seq, q, va, st.ex)] } }).adv
        (BitVec.ofNat 64 n))
  | .scalar _ _ _ | .vector _ =>
    match st.acc.done.find? fun e => e.seq == st.seq with
    | none => s.waitAccess
    | some e =>
      let regs := match f.dest with
        | .vector d => [d]
        | _ => []
      match s.vecHold regs [] [] (f.dest.reg) 1 with
      | some o => o
      | none =>
        let cyc := (s.dev s.cdev).cycle
        .next ((s.onSt fun st =>
          let st := (st.writeLoad cyc e).writeBase
          { st with acc := { st.acc with done := st.acc.done.filter fun e => e.seq != st.seq } }).adv (BitVec.ofNat 64 n))

end Sys2Proof.Machine
end

