-- ==== Sys2Proof/Machine/Atomic.lean ====
section
/-!
DEFINITION. Machine/Atomic.lean: join points (R64, R67, R69, log 7), the frame check (R152), indivisible steps on a
granule (R70), MARK and FENCE (R175), AMO, CAS and SWAP (R176 to R178), and the step that performs a join (R65).
-/
namespace Sys2Proof.Machine

/-! ### Join points that hold the execute cursor (log 7) -/

/-- The STGs that a stream sent to home switches and that have no stamp yet (R68, R77). -/
def State.unstamped (s : State) (id : SlotId) : Bool :=
  s.toHome.any fun m => match m.item with
    | .store o _ _ _ _ => o == id
    | .join _ | .leave _ | .resend _ _ => false

/-- What a release at a scope still waits for (R68, R69): stores in paths into its reach, and at group scope stamps. -/
def State.releaseHold (s : State) (id : SlotId) (sc : Scope) : Bool :=
  s.pathsInReach id sc || (match sc with
    | .group => s.unstamped id
    | _ => false)

/-- The load at the head of the LQ cannot perform: its fault is due, or an earlier one's. -/
def Access.headFaulted (a : Access) : Bool := match a.lq, a.fault with
  | i :: _, some (q, _) => decide (q ≤ i.seq)
  | _, _ => false
/-- Nothing of the current stream stands before the join point at its execute cursor: its queues are empty, or the join point's twins stand
at their heads (R64, R65). -/
def Stream.atHeads (st : Stream) : Bool := match st.acc.lq, st.sq with
  | [], [] => true
  | i :: _, j :: _ => i == .twin st.seq && j == .twin st.seq .gate
  | _, _ => false
/-- The current stream waits at a join point: its twins enter both queues when it issues (R64), so that the access cursor may pass it. -/
def State.waitsAt (s : State) (w : WaitFor := .none) : State :=
  let enter (st : Stream) : Stream :=
    if st.gated then st
    else { st with acc := { st.acc with lq := st.acc.lq ++ [.twin st.seq] }, sq := st.sq ++ [.twin st.seq .gate] }
  (s.onSt enter).waits w
/-- The twins of the join point at the execute cursor leave, with its own step (R65). -/
def State.ungate (s : State) : State := s.onSt Stream.ungate

/-- What holds a join point of the current stream at the execute cursor: earlier loads that have not performed, earlier
stores in the SQ, and for a release what its reach still holds. `w` marks the wait for a save. -/
def State.joinHold (s : State) (rel : Option Scope) (w : WaitFor := .none) : Option Out :=
  let st := s.st
  if !st.acc.late.isEmpty || st.acc.headFaulted then some s.waitAccess
  else if !st.atHeads then some (.next (s.waitsAt w))
  else match rel with
    | some sc => if s.releaseHold s.cur sc then some (.next (s.waitsAt w)) else none
    | none => none

/-! ### The frame check (R152) -/


/-- FB of the first live frame that an access of n bytes at va overlaps (R152). -/
def Stream.liveFrame (st : Stream) (va n : Nat) : Option Word :=
  st.tails.findSome? fun e => match e with
    | .live fb fe _ _ => if overlaps va n fb.toNat (fe.toNat - fb.toNat) then some fb else none
    | .defer _ _ => none

/-- The frame check of an access by the current stream: FRAME_RACE (R290). -/
def State.frameRace (s : State) (va : Word) (n : Nat) : Option FaultRec :=
  (s.st.liveFrame va.toNat n).map fun fb => { name := .frameRace, faddr := va, detail := fb }

/-! ### Indivisible steps (R70, R178) -/

/-- Translate an atomic of n bytes, for store and then for load; a window is WINDOW (R163, R178). -/
def State.xlAtomic (s : State) (id : SlotId) (va : Word) (n : Nat) : Res Loc :=
  let x := s.xidOf id
  let t (e : PermEng) : Xl := ⟨x, (s.ctx x).asid.toNat, (s.strm id).priv, e, .atomic⟩
  match s.xlAccess (t .store) va n with
  | .bad f => .bad f
  | .ok ps =>
    match s.xlAccess (t .load) va n with
    | .bad f => .bad f
    | .ok _ => match ps with
      | p :: _ => .ok p.loc
      | [] => .bad (mkF .noMap va.toNat)

/-- What an indivisible step answers. -/
inductive AtomRes where
  | ok (s : State) (old : Nat)
  | wait
  | bad (f : FaultRec)
  | dropped (d field : Nat)

/-- Invalidate the GLC copy of a place's line (R70). -/
def State.glcDrop (s : State) (c : CoreId) (p : Place) : State :=
  match glcLine c p with
  | some line => s.onCore c fun k => { k with glc := fdel k.glc line }
  | none => s

/-- A store of the stream to the granule of a place has not taken effect (R70 step 2). -/
def State.ownGranule (s : State) (id : SlotId) (seq : Nat) (loc : Loc) : Bool :=
  let k := s.key loc
  (s.ownStores id seq).any fun st => keysMeet k (s.key st.2.1)

/-- One indivisible read and write of n bytes at their visibility point (R70 steps 2 and 3): `f` answers the new value, or
none where the bytes stay. -/
def State.atomicStep (s : State) (id : SlotId) (seq : Nat) (loc : Loc) (n : Nat) (f : Nat → Option Nat) : AtomRes :=
  if s.ownGranule id seq loc then .wait
  else
    match s.locate loc with
    | .retry => .wait
    | .bad e => .bad e
    | .dropped d fl => .dropped d fl
    | p =>
      let old := bytesNat (s.readPlace p n)
      let s1 := match f old with
        | some v => s.writePlace p (natBytes n v)
        | none => s
      .ok (s1.glcDrop id.core p) old

/-- A relaxed indivisible addition to a 32-bit word of the frame header of the current stream, in its own step (R151,
R153): the new state, or what stops the instruction. -/
def State.addTcnt (s : State) (fb : Word) (delta : Int) : AtomRes :=
  match s.xlAtomic s.cur (fb + 8) 4 with
  | .bad f => .bad f
  | .ok loc => s.atomicStep s.cur (s.st.seq + 1) loc 4 fun old => some (wrapN 32 (old + delta))

/-! ### Twins (R64, R67, R69, R70) -/

/-- Issue a join point that stands in both queues: its twins enter, and the stream goes on. -/
def State.issueTwin (s : State) (op : JoinOp) (f : Stream → Stream) : Out :=
  if !s.st.acc.late.isEmpty then s.waitAccess
  else .next ((s.onSt fun st =>
    f { st with acc := { st.acc with lq := st.acc.lq ++ [.twin st.seq] }, sq := st.sq ++ [.twin st.seq op],
                joinAt := some (st.seq, st.ex) }).adv 4)

/-- mark (R67, R175). -/
def execMark (s : State) : Out := s.issueTwin .mark id

/-- fence.kind.scope (R69, R175). -/
def execFence (kind : FenceKind) (scope : Scope) (s : State) : Out := s.issueTwin (.fence kind scope) id

/-- An order acquires. -/
def ordAcq : Ord → Bool
  | .acq | .ar => true
  | .rlx | .rel => false
/-- An order releases. -/
def ordRel : Ord → Bool
  | .rel | .ar => true
  | .rlx | .acq => false
/-- A fence acquires. -/
def kindAcq : FenceKind → Bool
  | .acq | .ar => true
  | .rel => false
/-- A fence releases. -/
def kindRel : FenceKind → Bool
  | .rel | .ar => true
  | .acq => false

/-- The size of an atomic. -/
def atomSize (dbl : Bool) : Nat := if dbl then 8 else 4

/-- Issue AMO, CAS or SWAP (R178): alignment, window, translation and frame check, then the twins. -/
def State.issueAtomic (s : State) (op : Option AmoOp) (cas dbl : Bool) (ord : Ord) (scope : Scope) (d v base : BitVec 5) :
    Out :=
  let va := s.rs base
  let n := atomSize dbl
  if va.toNat % n ≠ 0 then s.raise .align va
  else
    match s.xlAtomic s.cur va n with
    | .bad f => s.raiseRec f
    | .ok loc =>
      match s.frameRace va n with
      | some f => s.raiseRec f
      | none =>
        s.issueTwin (.amo op cas dbl ord scope d (s.rs v) (s.rs d) va loc) fun st =>
          if d == 0#5 then st else { st with amoPend := st.amoPend ++ [d] }

/-- amo.op (R176, R178). -/
def execAmo (op : AmoOp) (dbl : Bool) (ord : Ord) (scope : Scope) (d v base : BitVec 5) (s : State) : Out :=
  s.issueAtomic (some op) false dbl ord scope d v base

/-- cas (R177, R178). -/
def execCas (dbl : Bool) (ord : Ord) (scope : Scope) (d v base : BitVec 5) (s : State) : Out :=
  s.issueAtomic none true dbl ord scope d v base

/-- swap (R177, R178). -/
def execSwap (dbl : Bool) (ord : Ord) (scope : Scope) (d v base : BitVec 5) (s : State) : Out :=
  s.issueAtomic none false dbl ord scope d v base

/-- The new value of AMO (R176) on n-bit numbers. -/
def amoValue (op : AmoOp) (n old v : Nat) : Nat :=
  let a := toSigned n old
  let b := toSigned n v
  match op with
  | .add => (old + v) % 2 ^ n
  | .and => old &&& v
  | .or => old ||| v
  | .xor => old ^^^ v
  | .smin => if b < a then v else old
  | .smax => if a < b then v else old
  | .umin => if v < old then v else old
  | .umax => if old < v then v else old

/-- The new bytes of an atomic, or none where they stay (R176, R177). -/
def atomValue (op : Option AmoOp) (cas : Bool) (n : Nat) (v cmp old : Nat) : Option Nat :=
  match op with
  | some o => some (amoValue o n old v)
  | none => if cas && old != cmp then none else some v

/-- The old value as D receives it: .w sign-extended (R176). -/
def atomOld (dbl : Bool) (old : Nat) : Word := if dbl then BitVec.ofNat 64 old else sx (BitVec.ofNat 32 old)

/-- Remove one element. -/
def removeOne (d : BitVec 5) : List (BitVec 5) → List (BitVec 5)
  | [] => []
  | x :: r => if x == d then r else x :: removeOne d r

/-- Both twins leave. -/
def Stream.popTwins (st : Stream) : Stream := { st with acc := { st.acc with lq := st.acc.lq.drop 1 }, sq := st.sq.drop 1 }

/-- An asynchronous fault of a stream of the context `x`: it is delivered when the stream next acts in U; one whose stream
has ended goes to the WG (R76, R293), and one whose WG has ended is logged. -/
def State.pendFault (s : State) (x : CtxId) (id : SlotId) (f : FaultRec) : State :=
  let add (id : SlotId) (f : FaultRec) : State := s.onStrm id fun st => { st with pendFaults := st.pendFaults ++ [f] }
  if (s.strm id).present && s.xidOf id == x then add id f
  else if (s.ctx x).live.isSome then add ⟨x.core, 0, x.ctx⟩ { f with wg := true, origin := some (locWord id x.ctx) }
  else s.logFault x.core.dev (s.ctx x).asid f false (locWord id x.ctx) 0

/-- Perform a join whose twins stand at the heads of their queues (R65, R67, R69, R70). -/
def State.performTwin (s : State) (id : SlotId) (seq : Nat) (op : JoinOp) : State :=
  match op with
  | .gate => s
  | .mark => s.onStrm id Stream.popTwins
  | .fence k sc =>
    if kindRel k && s.releaseHold id sc then s
    else
      let s1 := s.onStrm id Stream.popTwins
      if kindAcq k then s1.acquire id.core sc else s1
  | .amo op cas dbl ord sc d v cmp _ loc =>
    let n := atomSize dbl
    let lo (w : Word) : Nat := w.toNat % 2 ^ (8 * n)
    if ordRel ord && s.releaseHold id sc then s
    else
      let done (s : State) (w : Option Word) : State :=
        s.onStrm id fun st =>
          let st := { st.popTwins with amoPend := removeOne d st.amoPend }
          match w with
          | some x => st.ws d x
          | none => st
      match s.atomicStep id seq loc n (atomValue op cas (8 * n) (lo v) (lo cmp)) with
      | .wait => s
      | .bad f => (done s none).pendFault (s.xidOf id) id f
      | .dropped _ fl => s.dropAccess id fl
      | .ok s1 old =>
        let s2 := done s1 (some (atomOld dbl old))
        if ordAcq ord then s2.acquire id.core sc else s2

/-- PERFORM_JOIN (R65): both twins stand at the heads of their queues. The own step of a join point at which the stream waits is that of its
instruction. -/
def execPerformJoin (sl : SlotId) (s : State) : Out :=
  let st := s.strm sl
  if (s.core sl.core).fenced then .next s else
  match st.acc.lq, st.sq with
  | .twin a :: _, .twin b op :: _ => if a == b then .next (s.performTwin sl b op) else .next s
  | _, _ => .next s

end Sys2Proof.Machine
end

