-- ==== Sys2Proof/Machine/Memory.lean ====
section
/-!
DEFINITION. Machine/Memory.lean: loads, stores and group stores (R167 to R172, R179, R181), and the steps of the stream
queues and paths (R65, R66, R71, R75 to R77).
-/
namespace Sys2Proof.Machine

/-! ### Loads (R167 to R172) -/

/-- A load at the execute cursor. -/
def State.loadI (s : State) (i : Instr) (n : Nat) : Out :=
  match loadForm s.vreg i with
  | some f => s.loadExec f n
  | none => .next s

/-- ld, sign-extended (R167). -/
def execLd (sz : BitVec 2) (post : Bool) (off : BitVec 7) (base t : BitVec 5) (s : State) : Out :=
  s.loadI (.ld sz post off base t) 4
/-- ld.bu, ld.hu, ld.wu (R167). -/
def execLdUnsigned (sz : BitVec 2) (post : Bool) (off : BitVec 7) (base t : BitVec 5) (s : State) : Out :=
  s.loadI (.ldUnsigned sz post off base t) 4
/-- Compact ld.d (R126). -/
def execLdDCompact (d : BitVec 5) (bs : BitVec 2) (off : BitVec 5) (s : State) : Out := s.loadI (.ldDCompact d bs off) 2
/-- ldv (R168). -/
def execLdv (sz : BitVec 3) (post : Bool) (off : BitVec 7) (base : BitVec 5) (t : BitVec 6) (s : State) : Out :=
  s.loadI (.ldv sz post off base t) 4
/-- ldv.xw (R169). -/
def execLdvXw (post : Bool) (off : BitVec 7) (base : BitVec 5) (t : BitVec 6) (s : State) : Out :=
  s.loadI (.ldvXw post off base t) 4
/-- ldq (R171). -/
def execLdq (post : Bool) (off : BitVec 7) (base : BitVec 5) (q : BitVec 2) (s : State) : Out :=
  s.loadI (.ldq post off base q) 4
/-- Strided and indexed ldv (R170). -/
def execLdvSI (dbl : Bool) (x : StrideIdx) (base : BitVec 5) (t : BitVec 6) (s : State) : Out :=
  s.loadI (.ldvSI dbl x base t) 4
/-- pref (R172): it enters no queue and changes nothing that a program sees. -/
def execPref (_off : BitVec 7) (_base : BitVec 5) (s : State) : Out := .next (s.adv 4)

/-! ### Stores (R167, R168, R170) -/

/-- The first live frame that an access of n bytes at one of the addresses overlaps (R152). -/
def State.frameRaces (s : State) (n : Nat) : List Word → Option FaultRec
  | [] => none
  | va :: r => match s.frameRace va n with
    | some f => some f
    | none => s.frameRaces n r

/-- The pieces of a store with their bytes. -/
def withBytes (bs : List Byte) (ps : List Piece) : List (Piece × List Byte) :=
  ps.map fun p => (p, (bs.drop p.at_).take p.len)

/-- Issue a store whose translation is `r` (R152, R164, R165): a fault enters no queue and leaves BASE. -/
def State.issueStore (s : State) (r : Res (List Piece)) (eas : List Word) (sz : Nat) (bs : List Byte)
    (nb : Option (BitVec 5 × Word)) (n : Word) : Out :=
  match r with
  | .bad f => s.raiseRec f
  | .ok ps =>
    match s.frameRaces sz eas with
    | some f => s.raiseRec f
    | none =>
      .next ((s.onSt fun st =>
        let st := { st with sq := st.sq ++ [.store st.seq (eas.headD 0) (withBytes bs ps)] }
        match nb with
        | some (b, w) => st.ws b w
        | none => st).adv n)

/-- The translation of stores of the current stream. -/
def State.storeXl (s : State) (p : PathKind) : Xl := ⟨s.xid, s.cx.asid.toNat, s.st.priv, .store, p⟩

/-- A store of the low bytes of a value at BASE and OFF (R162, R167, R168). -/
def State.storeFlat (s : State) (p : PathKind) (post : Bool) (off : BitVec 7) (base : BitVec 5) (size : Nat)
    (bs : List Byte) (n : Word) : Out :=
  let b := s.rs base
  let va := eaOf b post off size
  s.issueStore (s.xlAccess (s.storeXl p) va size) [va] size bs (if post then some (base, postBase b off size) else none) n

/-- st (R167). -/
def execSt (sz : BitVec 2) (post : Bool) (off : BitVec 7) (base t : BitVec 5) (s : State) : Out :=
  s.storeFlat .scalar post off base (2 ^ sz.toNat) (bvBytes (2 ^ sz.toNat) (s.rs t)) 4

/-- Compact st.d (R126). -/
def execStDCompact (d : BitVec 5) (bs : BitVec 2) (off : BitVec 5) (s : State) : Out :=
  s.storeFlat .scalar false (off.setWidth 7) (bsReg bs) 8 (bvBytes 8 (s.rs d)) 2

/-- stv (R168). -/
def execStv (sz : BitVec 3) (post : Bool) (off : BitVec 7) (base : BitVec 5) (t : BitVec 6) (s : State) : Out :=
  let v := s.vreg t
  match s.vecHold [v] [.v v] [] [] 0 with
  | some o => o
  | none => s.storeFlat .vecStore post off base (2 ^ sz.toNat) (bvBytes (2 ^ sz.toNat) (s.st.rv v)) 4

/-- Strided and indexed stv (R170). -/
def execStvSI (dbl : Bool) (x : StrideIdx) (base : BitVec 5) (t : BitVec 6) (s : State) : Out :=
  let v := s.vreg t
  let sz := if dbl then 8 else 4
  let idx := match x with
    | .strided _ => []
    | .indexed i => [s.vreg i]
  match s.vecHold (v :: idx) ((v :: idx).map Reg.v) [] [] 0 with
  | some o => o
  | none =>
    let eas := match x with
      | .strided r => stridedEas (s.rs base) (s.rs r) sz
      | .indexed i => indexedEas (s.rs base) (s.st.rv (s.vreg i)) sz
    s.issueStore (s.xlElems (s.storeXl .scalar) sz eas) (eas.map Prod.snd) sz (bvBytes 128 (s.st.rv v)) none 4

/-! ### Groups (R179, R181) -/

/-- The live entry of a group on a device (R108). -/
def State.gent (s : State) (d g : Nat) : GEntry := fget (s.dev d).gt g {}

/-- The detail of a group fault (R290). -/
def gDetail (g : BitVec 12) : Word := zx g

/-- gseq (R181): reads the applied sequence and orders nothing. -/
def execGseq (d : BitVec 5) (g : BitVec 12) (s : State) : Out :=
  let e := s.gent s.cdev g.toNat
  if !e.valid then s.raise .notMember e.lbase (gDetail g) else s.put d (zx e.applied)

/-- gacq (R77, R113, R181). A GACQ that has waited as a member and whose target is not reached raises LEFT when its device applies its
leave (R110); one whose target is reached by then goes on. -/
def execGacq (g : BitVec 12) (d : BitVec 5) (s : State) : Out :=
  let n := s.rs d
  if 2 ^ 32 ≤ n.toNat then s.raise .seqRange
  else
    let e := s.gent s.cdev g.toNat
    let w : WaitFor := .gacq g.toNat (n.setWidth 32)
    let reached := serialReached e.applied (n.setWidth 32)
    if !e.valid then s.raise .notMember e.lbase (gDetail g)
    else if !e.member && s.st.wait != w then
      if e.joining then .next (s.waitsAt .other) else s.raise .notMember e.lbase (gDetail g)
    else if !e.member && !reached then s.raise .left e.lbase (gDetail g)
    else
      match s.joinHold none w with
      | some o => o
      | none => if reached then .next ((s.ungate.acquire s.cur.core .group).adv 4) else .next (s.waitsAt w)

/-- stg (R179): the checks, then the store enters the SQ and its latch is PENDING. -/
def execStg (sz : BitVec 3) (rel : Bool) (l : BitVec 2) (g : BitVec 12) (ofs v : BitVec 5) (s : State) : Out :=
  let n := 4 * 2 ^ sz.toNat
  let r := s.vreg (v.setWidth 6)
  let e := s.gent s.cdev g.toNat
  let off := s.rs ofs
  if !e.valid || !e.member then s.raise .notMember (e.lbase + off) (gDetail g)
  else if off.toNat % n ≠ 0 || e.lsize.toNat < off.toNat + n then s.raise .groupRange
  else
    let va := e.lbase + off
    match s.xlAccess (s.storeXl .none) va n with
    | .bad f => s.raiseRec f
    | .ok _ =>
      match s.frameRace va n with
      | some f => s.raiseRec f
      | none =>
        if (s.st.rl l).st == .pending then .next (s.waits .none)
        else
          match s.vecHold [r] [.v r] [] [] 0 with
          | some o => o
          | none =>
            .next ((s.onSt fun st =>
              { st.wl l { st.rl l with st := .pending, due := none } with
                  sq := st.sq ++ [.stg st.seq g rel l off.toNat (bvBytes n (st.rv r))] }).adv 4)

/-! ### PERFORM_LQ (R65, R71, R76, R169) -/

/-- The bytes of a performed load as a vector: bytes that the load does not give are zero (R168, R169). -/
def gotVec (got : List (Nat × Byte)) : Vec :=
  BitVec.ofNat 1024 (got.foldl (fun x p => x ||| (p.2.toNat * 2 ^ (8 * p.1))) 0)

/-- The pieces read as one (R169): those of the XW-pair read. -/
def Piece.isXw (p : Piece) : Bool := match p.loc with
  | .buf _ .cb _ => true
  | _ => false

/-- A load leaves the LQ: its data go to its queue or to the entry that the execute cursor reads. -/
def Access.finish (a : Access) (seq : Nat) (dest : LoadDest) (got : List (Nat × Byte)) : Access :=
  let a := { a with lq := a.lq.drop 1 }
  match dest with
  | .queue q => { a with qs := a.qs.set q.toNat (a.qs[q.toNat]'q.isLt ++ [gotVec got]) q.isLt }
  | .scalar _ _ _ | .vector _ => { a with done := a.done ++ [⟨seq, dest, gotVec got⟩] }

/-- A piece of a load has performed. -/
def Piece.performed (p : Piece) (got : List (Nat × Byte)) : Bool := got.any fun b => b.1 == p.at_

/-- Keep what has been read of the load at the head of the LQ. -/
def Access.progress (a : Access) (seq : Nat) (dest : LoadDest) (glc : Bool) (va : Word) (ps : List Piece)
    (got : List (Nat × Byte)) : Access :=
  if ps.all fun p => p.len == 0 || p.performed got then a.finish seq dest got
  else { a with lq := .load seq dest glc va ps got :: a.lq.drop 1 }

/-- The read of pieces at the head of a stream's LQ cannot be made: its fault. -/
def State.loadFault (s : State) (id : SlotId) (seq : Nat) (f : FaultRec) : State :=
  if f.name.logOnly then s.deliver id f (s.strm id).ex.retPoint
  else s.onStrm id fun st => { st with acc := { st.acc with fault := some (seq, f) } }

/-- PERFORM_LQ: one granule piece of the load at the head of the LQ reads (R65, R71); with its last piece the load leaves. -/
def execPerformLq (sl : SlotId) (piece : Nat) (s : State) : Out :=
  let st := s.strm sl
  if st.status == .saved || (s.core sl.core).fenced then .next s else
  match st.acc.lq with
  | .load seq dest glc va ps got :: _ =>
    match ps[piece]? with
    | none => .next s
    | some p =>
      let now := if p.isXw then ps else [p]
      if st.acc.headFaulted || p.performed got then .next s else
      match s.readStop now with
      | some (.bad f) => .next (s.loadFault sl seq f)
      | some (.dropped _ fl) => .next (s.dropAccess sl fl)
      | some _ => .next s
      | none =>
        let r := now.foldl (fun (r : State × List (Nat × Byte)) p =>
          let q := r.1.loadPiece sl seq (glc && glcAble p.loc) p
          (q.1, r.2 ++ q.2.zipIdx.map fun b => (p.at_ + b.2, b.1))) (s, got)
        .next (r.1.onStrm sl fun st => { st with acc := st.acc.progress seq dest glc va ps r.2 })
  | _ => .next s

/-! ### PERFORM_SQ (R65, R77) -/

/-- Bytes of two places overlap. -/
def keysOverlap (a : List (Nat × Nat)) (la : Nat) (b : List (Nat × Nat)) (lb : Nat) : Bool :=
  a.any fun p => b.any fun q => p.1 == q.1 && overlaps p.2 la q.2 lb

/-- A load that is earlier in program order than `seq` and still in the LQ overlaps the bytes of a store, whichever of its pieces have
performed (R65); so does an LDQ that the execute cursor has passed and that has still to enter the LQ (R260). -/
def State.loadBlocks (s : State) (id : SlotId) (seq : Nat) (ps : List (Piece × List Byte)) : Bool :=
  let st := s.strm id
  let meets (mine : List Piece) : Bool :=
    mine.any fun l => ps.any fun p => keysOverlap (s.key l.loc) l.len (s.key p.1.loc) p.1.len
  (st.acc.lq.any fun i => match i with
    | .load q _ _ _ mine _ => decide (q < seq) && meets mine
    | .twin _ => false) ||
  st.acc.late.any fun l => decide (l.1 < seq) && (match s.lateXl id l.2.2.1 with
    | .ok mine => meets mine
    | .bad _ => false)

/-- An entry of an SQ may not pass an earlier one of its stream: two STGs to one group (R252), or two stores to one byte. -/
def State.sqMeets (s : State) : SqItem → SqItem → Bool
  | .stg _ g _ _ _ _, .stg _ h _ _ _ _ => g == h
  | .store _ _ ps, .store _ _ qs =>
    ps.any fun p => qs.any fun q => keysOverlap (s.key p.1.loc) p.1.len (s.key q.1.loc) q.1.len
  | .stg _ _ _ _ _ _, .store _ _ _ | .store _ _ _, .stg _ _ _ _ _ _ | .twin _ _, _ | _, .twin _ _ => false
/-- The access side with which an entry stands aside that comes before `i` in program order and that `i` may not pass (log 7). -/
def State.sqBehind (s : State) (i : SqItem) (a : Option Access) : Bool :=
  a.any fun a => decide (a.seq0 ≤ i.seq) && a.sqBack.any (s.sqMeets i)
/-- PERFORM_SQ: the store at the head of the SQ joins its paths; a group store goes to its home switch (R77). What a handler or a stub has
issued, and may not pass an entry that is set aside, joins those. -/
def execPerformSq (sl : SlotId) (s : State) : Out :=
  if (s.core sl.core).fenced then .next s else
  let st := s.strm sl
  let join (i : SqItem) (a : Option Access) : Option Access := a.map fun a => { a with sqBack := a.sqBack ++ [i] }
  if (st.sq.take 1).any fun i => s.sqBehind i st.aside then
    .next (s.onStrm sl fun st => { st with sq := st.sq.drop 1, aside := (st.sq.take 1).foldl (fun a i => join i a) st.aside })
  else if (st.sq.take 1).any fun i => s.sqBehind i st.divAcc then
    .next (s.onStrm sl fun st => { st with sq := st.sq.drop 1, divAcc := (st.sq.take 1).foldl (fun a i => join i a) st.divAcc })
  else
  match st.sq with
  | .store seq _ ps :: r =>
    if s.loadBlocks sl seq ps then .next s
    else
      let s1 := s.onStrm sl fun st => { st with sq := r }
      .next (s1.onCore sl.core fun c => { c with paths := c.paths ++ storePaths sl (s.xidOf sl) seq ps })
  | .stg seq g rel l off bs :: r =>
    if rel && s.releaseHold sl .group then .next s
    else
      let s1 := s.onStrm sl fun st => { st with sq := r }
      let home := (s.gent sl.core.dev g.toNat).home
      .next { s1 with toHome := s1.toHome ++ [⟨home, g.toNat, sl.core.dev, .store sl seq l off bs⟩] }
  | .twin _ _ :: _ | [] => .next s

/-! ### PERFORM_PATH (R65, R66, R75, R76) -/

/-- An earlier entry of the core's paths meets the granule of entry k: the path to that visibility point is in order. -/
def State.pathBlocked (s : State) (c : CoreId) (k : Nat) (it : PathItem) : Bool :=
  let key := s.key it.loc
  ((s.core c).paths.take k).any fun p => keysMeet key (s.key p.loc)

/-- A store in a path goes through the pod window. -/
def Loc.isRemote : Loc → Bool
  | .remote _ _ _ _ => true
  | .kt _ _ _ _ | .sup _ _ | .buf _ _ _ | .mcast _ _ _ | .void => false

/-- Change the command with an identity, in whatever queue of the core it stands. -/
def Core.onCmd (c : Core) (id : Nat) (f : EngCmd → EngCmd) : Core :=
  let go (q : EngQueue) : EngQueue := { q with cmds := q.cmds.map fun e => if e.id == id then f e else e }
  { c with me := go c.me, ce := go c.ce, cs := go c.cs }

/-- The fault of a store at its effect (R76): a command keeps it and stops; a stream receives it later. -/
def State.pathFault (s : State) (c : CoreId) (it : PathItem) (f : FaultRec) : State :=
  match it.cmd, it.owner with
  | some id, _ => s.onCore c fun k => k.onCmd id fun e => { e with pageFault := some f, row := min e.row it.row }
  | none, some (o, _) =>
    if f.name.logOnly then
      (s.logFault c.dev (s.ctx it.x).asid f false (locWord o it.x.ctx) 0).killOf ⟨it.x.core, 0, it.x.ctx⟩
    else s.pendFault it.x o f
  | none, none => s

/-- The rank of a write that the core c makes into a buffer of the core t among those that reach one granule in a cycle (R32): the core's
own vector stores, its CE and CS, its MCVT, then window stores of other cores by field and core number. -/
def State.writeRank (s : State) (c t : CoreId) (it : PathItem) : Nat :=
  if c != t then 3 + c.field * 40 + c.core
  else match it.cmd with
    | none => 0
    | some id => if (s.core c).me.cmds.any fun h => h.id == id then 2 else 1
/-- No write of a higher rank has reached a granule of the place in this cycle (R32). -/
def State.writeTurn (s : State) (c : CoreId) (it : PathItem) : Place → Bool
  | .bufMem xs b off => xs.all fun x => (s.core x.core).turnOk (.granule x.ctx b (off / 16)) (s.writeRank c x.core it)
  | .devMem _ _ | .hostMem _ _ | .nowhere | .retry | .dropped _ _ | .bad _ | .beyond _ _ => true
/-- The write has reached the granules of the place in this cycle. -/
def State.writeTaken (s : State) (c : CoreId) (it : PathItem) : Place → State
  | .bufMem xs b off => xs.foldl (fun s x => s.onCore x.core fun k =>
      k.turn (.granule x.ctx b (off / 16)) (s.writeRank c x.core it)) s
  | .devMem _ _ | .hostMem _ _ | .nowhere | .retry | .dropped _ _ | .bad _ | .beyond _ _ => s

/-- PERFORM_PATH: entry k of a core's paths, the first to its granule, takes effect at its visibility point, and at every
target of a multicast window at once (R65, R75), in the order of R32 among the writes to one granule in a cycle. Stream stores update the
core's GLC copy (R33). -/
def execPerformPath (c : CoreId) (k : Nat) (s : State) : Out :=
  match (s.core c).paths[k]? with
  | none => .next s
  | some it =>
    if s.pathBlocked c k it then .next s
    else
      let s1 := s.onCore c fun e => { e with paths := e.paths.eraseIdx k }
      match s.locate it.loc with
      | .retry => .next s
      | .bad f => .next (s1.pathFault c it f)
      | .dropped _ fl =>
        .next (s1.pathFault c it { name := .machineCheck, detail := BitVec.ofNat 64 fl })
      | p =>
        if !s.writeTurn c it p then .next s else
        let s2 := (s1.writePlace p it.bytes).writeTaken c it p
        .next (if it.cmd.isNone && !it.loc.isRemote then s2.glcUpdate c p it.bytes else s2)

end Sys2Proof.Machine
end

