-- ==== Sys2Proof/Machine/Engine.lean ====
section
/-!
DEFINITION. Machine/Engine.lean: the engine queues of a core (R25): issue and entry of a command (R204, R26, R37, R152, R271),
its head, completion, faults (R222, R223), reads and writes (R74), power tokens (R215, R317), and the fence over queues (R229).
-/
namespace Sys2Proof.Machine

/-! ### Queues -/

/-- A queue of a core. -/
def Core.queue (c : Core) : Eng → EngQueue
  | .me => c.me
  | .ce => c.ce
  | .cs => c.cs
/-- Replace a queue of a core. -/
def Core.setQueue (c : Core) (e : Eng) (q : EngQueue) : Core :=
  match e with
  | .me => { c with me := q }
  | .ce => { c with ce := q }
  | .cs => { c with cs := q }
/-- The engines. -/
def engs : List Eng := [.me, .ce, .cs]
/-- The commands that a queue holds at most (R25). -/
def engDepth : Eng → Nat
  | .me => 16
  | .ce => 32
  | .cs => 16
/-- The number of an engine in cr.fsrc (R291). -/
def engCode : Eng → Nat
  | .me => 1
  | .ce => 2
  | .cs => 3
/-- A command with an identity stands in a queue of the core. -/
def Core.holds (c : Core) (id : Nat) : Bool := engs.any fun e => (c.queue e).cmds.any fun k => k.id == id
/-- The command at the head of a queue that goes on, every command that it waits behind having left (R26); one that a fault has ended does
not go on, after a restore either (R223). -/
def Core.headReady (c : Core) (e : Eng) : Option EngCmd :=
  match (c.queue e).cmds with
  | [] => none
  | h :: _ => if (c.queue e).stop == .going && !h.ended && h.after.all (fun i => !c.holds i) && !c.fenced then some h else none
/-- Change the head command of a queue. -/
def State.onHead (s : State) (c : CoreId) (e : Eng) (f : EngCmd → EngCmd) : State :=
  s.onCore c fun k =>
    let q := k.queue e
    match q.cmds with
    | [] => k
    | h :: r => k.setQueue e { q with cmds := f h :: r }

/-! ### Ranges of the checker (R26, R221, R271) -/

/-- A number for a context. -/
def ctxNo (x : CtxId) : Nat := ((x.core.dev * 8 + x.core.field) * 40 + x.core.core) * 2 + x.ctx
/-- The space of an address space's virtual addresses. -/
def memSpace (asid : Nat) : Nat := 2 * asid
/-- The space of a context's window. -/
def winSpace (x : CtxId) : Nat := 2 * ctxNo x + 1
/-- The ranges [va + lo, va + hi): a window address names bytes of the windows of its targets, any other address itself. -/
def State.rangeAt (s : State) (x : CtxId) (asid : Nat) (va : Nat) (lo hi : Int) : List Range :=
  let mem : List Range := [⟨memSpace asid, va + lo, va + hi⟩]
  if va / 2 ^ 52 ≠ 0x1F then mem
  else
    match windowOf va with
    | none => mem
    | some (.localW, o) => [⟨winSpace x, o + lo, o + hi⟩]
    | some (.quadW c, o) =>
      [⟨winSpace ⟨⟨x.core.dev, x.core.field, x.core.core / 4 * 4 + c⟩, x.ctx⟩, o + lo, o + hi⟩]
    | some (.mcastW f m, o) =>
      (mcTargets x f (((s.ctx x).mcset.toList)[m]?.getD 0)).map fun y => ⟨winSpace y, o + lo, o + hi⟩
/-- The low end of the envelope of n rows of a stride (R219). -/
def envLo (n : Nat) (stride : Int) : Int := min 0 ((n - 1 : Nat) * stride)
/-- The high end of the envelope of n rows of a stride and a length (R219). -/
def envHi (n : Nat) (stride : Int) (len : Nat) : Int := max 0 ((n - 1 : Nat) * stride) + len
/-- The envelope of rows at an address. -/
def State.envelope (s : State) (c : EngCmd) (va : Word) (n : Nat) (stride : Int) (len : Nat) : List Range :=
  s.rangeAt c.x c.asid va.toNat (envLo n stride) (envHi n stride len)
/-- The whole tile slot (R53, R221). -/
def slotRange (x : CtxId) (ts : BitVec 2) : Range :=
  ⟨winSpace x, (0x800000 + ts.toNat * 0x80000 : Nat), (0x800000 + (ts.toNat + 1) * 0x80000 : Nat)⟩
/-- Two ranges share a byte. -/
def Range.meets (a b : Range) : Bool := a.space == b.space && decide (a.lo < b.hi) && decide (b.lo < a.hi)
/-- Two lists of ranges share a byte. -/
def rangesMeet (a b : List Range) : Bool := a.any fun p => b.any p.meets
/-- The ranges of two commands overlap where at least one of them writes (R26). R26 says so for D0 and D1; at D2 its sentence leaves the words
out, and two commands that only read common bytes enter there too. DESIGN CHOICE, log 73. -/
def EngCmd.conflicts (a b : EngCmd) : Bool :=
  rangesMeet a.writes b.writes || rangesMeet a.writes b.reads || rangesMeet a.reads b.writes

/-! ### Issue (R204) -/

/-- A command of the current stream, with what every command carries: cr.det at issue is its level (R94). -/
def State.cmd (s : State) (k : CmdKind) (e : Eng) : EngCmd :=
  { id := 0, kind := k, eng := e, slot := s.cur, x := s.xid, asid := s.cx.asid.toNat, level := s.cx.det, uthr := s.st.uthr,
    priv := s.st.priv }
/-- The command has passed its checks at issue: the stream waits until it has entered its queue. Its identity tells it from the commands
issued later (R94). -/
def State.issueCmd (s : State) (c : EngCmd) : Out :=
  .next (({ s with nextId := s.nextId + 1 }.onSt fun st => { st with engIssue := some { c with id := s.nextId } }).waits .none)

/-- An operand record that a command reads at issue (R204). -/
inductive RecRes where
  | ok (s : State) (r : BitVec 1024)
  | stop (o : Out)
/-- Read a record of n bytes aligned to 64: REC_ALIGN, or what keeps its read from answering. -/
def State.readRec (s : State) (eng : PermEng) (va : Word) (n : Nat) : RecRes :=
  if va.toNat % 64 ≠ 0 then .stop (s.raise .recAlign va)
  else
    match s.recRead eng va n with
    | .ok s1 bs => .ok s1 (bytesBv 1024 bs)
    | .wait => .stop (s.recStop .wait)
    | .bad f => .stop (s.recStop (.bad f))

/-- The first of a list of checks that fails. -/
def firstBad : List (Bool × Nat) → Option Nat
  | [] => none
  | (ok, w) :: r => if ok then firstBad r else some w

/-- The format that FCODE and a descriptor word of a checked record name, table entries by loop counter included (R38, R45); none for an
invalid entry of the table, whose fault comes at queue entry (R46). -/
def Stream.recFmt (st : Stream) (code : Nat) (desc : BitVec 32) : Option Fmt :=
  if code = 0 then some (.nf desc)
  else if 7 ≤ code && code ≤ 10 then
    let e := st.rfmt ((st.rlc (BitVec.ofNat 2 (code - 7))).setWidth 4)
    if nfValid e then some (.nf e) else none
  else codeFmt code

/-! ### Entry (R25, R26, R204, R271) -/

/-- Earlier fences and acquiring atomics of a stream hold its engine commands (R69, R70). -/
def Stream.engHold (st : Stream) : Bool :=
  st.sq.any fun i => match i with
    | .twin _ (.fence _ _) => true
    | .twin _ (.amo _ _ _ o _ _ _ _ _ _) => ordAcq o
    | .twin _ .mark | .twin _ .gate | .store _ _ _ | .stg _ _ _ _ _ _ => false
/-- The queues that a command enters: a QFENCE enters each that its mask names (R229). -/
def EngCmd.engines (c : EngCmd) : List Eng :=
  match c.kind with
  | .qfence => engs.filter fun e => c.n.getLsbD (engCode e - 1)
  | _ => [c.eng]
/-- Every queue that the command enters has room (R25). -/
def Core.roomFor (k : Core) (c : EngCmd) : Bool := c.engines.all fun e => decide ((k.queue e).cmds.length < engDepth e)
/-- The commands in the other queues of the core that an entering command is compared with and overlaps: the bound copy is
never compared (R26, R37). -/
def Core.rivals (k : Core) (c : EngCmd) : List EngCmd :=
  (engs.filter fun e => e != c.eng).flatMap fun e => (k.queue e).cmds.filter fun y => c.bound != some y.id && c.conflicts y
/-- At D2 a pair is skipped when an engine SEMWAIT stands in the command's queue that entered after the other (R271). -/
def Core.parted (k : Core) (c y : EngCmd) : Bool :=
  (k.queue c.eng).cmds.any fun w => w.kind == .semwait && decide (y.entry < w.entry)
/-- The position of a command in its queue. -/
def Core.position (k : Core) (c : EngCmd) : Nat := (k.queue c.eng).cmds.findIdx fun y => y.id == c.id
/-- cr.fsrc (R291). -/
def fsrcWord (e : Eng) (pos await num : Nat) : BitVec 32 :=
  BitVec.ofNat 32 (engCode e * 2 ^ 30 + pos % 32 * 2 ^ 25 + await * 2 ^ 22 + num % 64 * 2 ^ 16)
/-- FRAME_RACE of a command's writes (R152, R290). -/
def Stream.cmdRace (st : Stream) (c : EngCmd) : Option FaultRec :=
  (c.writes.filter fun r => r.space == memSpace c.asid).findSome? fun r =>
    st.tails.findSome? fun e => match e with
      | .live fb fe _ _ =>
        if (⟨memSpace c.asid, fb.toNat, fe.toNat⟩ : Range).meets r then
          some { name := .frameRace, faddr := BitVec.ofInt 64 (max r.lo fb.toNat), detail := fb }
        else none
      | .defer _ _ => none

/-- The command that the stream of a slot has issued, while nothing but its turn keeps it out of its queues (R25, R204). -/
def State.entering (s : State) (sl : SlotId) : Option EngCmd :=
  let st := s.strm sl
  match st.engIssue with
  | none => none
  | some c =>
    if !s.canAct sl || (st.priv == .u && !st.pendFaults.isEmpty) || st.engHold || !(s.core sl.core).roomFor c then none else some c
/-- The number of the first queue that a command enters, in the order ME, CE, CS. -/
def EngCmd.first (c : EngCmd) : Nat := engCode (c.engines.headD c.eng)
/-- The number of the last queue that a command enters. -/
def EngCmd.last (c : EngCmd) : Nat := engCode (c.engines.getLastD c.eng)
/-- The slot that entered a queue last, by the queue's number (R25). -/
def Core.entered (k : Core) (n : Nat) : Nat := k.lastIn[(n + 2) % 3]'(Nat.mod_lt _ (by decide))
/-- It is the turn of a command: in one cycle a queue takes one command, the ME's enters before the CE's and the CE's before the CS's,
and among the streams at one queue the first after the slot that entered last is taken (R25, R26, R204). -/
def State.entersNow (s : State) (sl : SlotId) (c : EngCmd) : Bool :=
  let k := s.core sl.core
  let open_ (y : EngCmd) : Bool := k.turnOk .entry (y.first - 1)
  open_ c && (slotsOf sl.core).all fun o => match s.entering o with
    | none => true
    | some y => o == sl || !open_ y || decide (c.first < y.first) ||
        (c.first == y.first && decide (rotPlace (k.entered c.first) sl < rotPlace (k.entered c.first) o))
/-- A queue has taken a command of a slot in this cycle. -/
def Core.noteEntry (k : Core) (sl : SlotId) (c : EngCmd) : Core :=
  { k.turn .entry c.last with
    lastIn := c.engines.foldl (fun v e => v.set ((engCode e + 2) % 3) (slotNo sl) (Nat.mod_lt _ (by decide))) k.lastIn }

/-- The command enters its queues, and the stream goes on; an MSTAT makes its latch PENDING (R214), and a SEMWAIT takes the bound that
holds now (R228). -/
def State.enterCmd (s : State) (c : EngCmd) : State :=
  let c := { c with entry := s.nextId, semBound := s.cx.semb }
  let k := s.core c.x.core
  let c := if c.level == 2#2 then c else { c with after := (k.rivals c).map EngCmd.id }
  let s1 := { s with nextId := s.nextId + 1 }
  let s2 := s1.onCore c.x.core fun k =>
    (c.engines.foldl (fun k e => k.setQueue e { k.queue e with cmds := (k.queue e).cmds ++ [{ c with eng := e }] }) k).noteEntry s.cur c
  let s3 := (s2.onSt fun st => { st with engIssue := none }).adv 4
  let s4 := s3.onSt fun st => if c.kind == .mstat then st.wl c.latch { st.rl c.latch with st := .pending, due := none } else st
  match c.kind with
  | .cpy | .cpyx | .gth | .sct => s4.onSt fun st => { st with lastCe := some c.id }
  | _ => s4

/-- A fault of a command at its entry: it enters no queue, and the stream's instruction faults. -/
def State.refuseCmd (s : State) (f : FaultRec) : Out := (s.onSt fun st => { st with engIssue := none }).raiseRec f

/-- What keeps a command out of its queue for good: an invalid entry of the format table (R46), a write to a live frame (R152), or at D2
an overlap (R26, R271). -/
def State.entryBad (s : State) (c : EngCmd) : Option FaultRec :=
  let k := s.core c.x.core
  match c.descVa, s.st.cmdRace c with
  | some va, _ => some { name := .fmtDesc, faddr := va }
  | none, some f => some f
  | none, none =>
    if c.level != 2#2 then none
    else ((k.rivals c).find? fun y => !k.parted c y).map fun y =>
      { name := .setOverlap, eng := true, src := fsrcWord c.eng (k.queue c.eng).cmds.length 3 (k.position y) }

/-- ENGINE_QUEUE_ENTRY (R204): the issued command of a stream enters its queue once there is room, nothing holds it and it is its turn. At
D2 an overlap is SET_OVERLAP; otherwise the command waits behind what it overlaps. A follow-on whose copy has ended in a fault is discarded
(R37). -/
def execEngineQueueEntry (sl : SlotId) (s0 : State) : Out :=
  let s := { s0 with cur := sl, side := .execute }
  match s.entering sl with
  | none => .next s0
  | some c =>
    if !s.entersNow sl c then .next s0
    else if c.bound.any (s.core sl.core).lost.contains then
      .next (((s.onCore sl.core fun k => { k with lost := k.lost.filter fun i => c.bound != some i }).onSt fun st =>
        { st with engIssue := none }).adv 4)
    else match s.entryBad c with
      | some f => s.refuseCmd f
      | none => .next (s.enterCmd c)

/-! ### Power tokens (R27, R215, R317) -/

/-- The command is a burst (R215). -/
def EngCmd.isBurst (c : EngCmd) : Bool := c.kind == .mma || c.kind == .mmas || c.kind == .mcvt
/-- A command at the head of the ME queue that is ready, whose bound copy has landed, and that has not migrated. -/
def State.meHead (s : State) (c : CoreId) : Option EngCmd :=
  match (s.core c).headReady .me with
  | some h => if h.bound.isNone && h.migrated.isNone then some h else none
  | none => none
/-- A burst of the core waits for a token: a migrated one that it hosts, or its own head (R215, R216). -/
def State.burstWaits (s : State) (c : CoreId) : Bool :=
  !(s.core c).token && (match s.hosted c with
    | some (_, k) => decide (k.partialRows.length < recFld k.recA 0 8 9)
    | none => match s.meHead c with
      | some h => h.isBurst
      | none => false)
/-- The burst at the head of the ME runs: it holds the core's token. -/
def State.burstRuns (s : State) (c : CoreId) : Option EngCmd :=
  match s.meHead c, s.hosted c with
  | some h, none => if h.isBurst && (s.core c).token then some h else none
  | _, _ => none

/-- POWER_TOKEN_TAKE (R215): a waiting burst takes the token that stands at its core. -/
def execPowerTokenTake (c : CoreId) (s : State) : Out :=
  let f := (s.dev c.dev).fieldN c.field
  if s.burstWaits c && f.ring.contains c.core then
    let s1 := s.onDev c.dev fun d => d.onField c.field fun f => { f with ring := f.ring.erase c.core }
    .next (s1.onCore c fun k => { k with token := true })
  else .next s

/-- POWER_TOKEN_PASS (R215): a token at a core whose ME has no burst waiting passes to the next core of the ring. -/
def execPowerTokenPass (dev field pos : Nat) (s : State) : Out :=
  match ((s.dev dev).fieldN field).ring[pos]? with
  | none => .next s
  | some p =>
    if s.burstWaits ⟨dev, field % 8, p⟩ then .next s
    else .next (s.onDev dev fun d => d.onField field fun f => { f with ring := f.ring.set pos ((p + 1) % 40) })

/-! ### Completion and faults (R222, R223) -/

/-- Commands whose progress cr.mrow holds (R210, R213, R223). -/
def EngCmd.usesMrow (c : EngCmd) : Bool :=
  match c.kind with
  | .mma | .mmas | .mcvt | .mldacc | .mstacc => true
  | _ => false
/-- The head command of a queue leaves it: completed, skipped, or discarded. cr.mrow returns to 0 (R208, R212), and a
burst gives its token back. -/
def State.popHead (s : State) (c : CoreId) (e : Eng) : State :=
  match ((s.core c).queue e).cmds with
  | [] => s
  | h :: r =>
    let s1 := s.onCore c fun k => k.setQueue e { cmds := r, stop := .going }
    let s2 := if h.isBurst && h.migrated.isNone && (s.hosted c).isNone then s1.releaseToken c else s1
    if h.usesMrow then s2.onCtx h.x fun x => { x with mrowValid := false, mrowRow := 0 } else s2

/-- What a command awaits (R222): a bound copy, a power token, at the core where its burst runs, or a semaphore. -/
def State.awaits (s : State) (c : CoreId) (h : EngCmd) : Nat × Nat :=
  if h.bound.isSome then (2, 0)
  else if h.isBurst && !(s.core (h.migrated.getD c)).token then (1, 0)
  else if h.kind == .semwait then (4, h.sem.toNat)
  else (0, 0)

/-- The position in the ME queue of the follow-on of a copy. -/
def Core.followPos (k : Core) (id : Nat) : Option Nat := k.me.cmds.findIdx? fun y => y.bound == some id
/-- What the record of a fault says that the command awaits; the record of a copy that takes its follow-on with it names that command as
discarded (R37): AWAIT 2, and the follow-on's position in the ME queue (log 65). -/
def State.faultAwait (s : State) (c : CoreId) (h : EngCmd) (f : FaultRec) : Nat × Nat :=
  match (if f.name.restartable then none else (s.core c).followPos h.id) with
  | some p => (2, p)
  | none => s.awaits c h
/-- The follow-on of a copy that ended in a fault is discarded without effect (R37): at the head of the ME as a command that leaves it; one
that has still to enter is discarded there. -/
def State.dropFollow (s : State) (c : CoreId) (id : Nat) : State :=
  let s1 := if (s.core c).me.cmds.head?.any fun h => h.bound == some id then s.popHead c .me else s
  let coming := (slotsOf c).any fun sl =>
    (s.strm sl).lastCe == some id || (s.strm sl).engIssue.any fun y => y.bound == some id
  s1.onCore c fun k => { k with
    me := { k.me with cmds := k.me.cmds.filter fun y => y.bound != some id }
    lost := if coming then id :: k.lost else k.lost }

/-- The head command of a queue faults (R223): its queue stops, a burst gives its token back, a restartable fault keeps the
progress, which for one that has stopped before and committed no row since is what cr.mrow says (R210), and the fault is delivered to the
stream that issued the command. HW and SEC faults go to the log and end the
launch (R295). -/
def State.engFault (s : State) (c : CoreId) (e : Eng) (f : FaultRec) : State :=
  match ((s.core c).queue e).cmds with
  | [] => s
  | h :: _ =>
    let aw := s.faultAwait c h f
    let f := { f with eng := true, src := fsrcWord e 0 aw.1 aw.2 }
    if f.name.logOnly then
      (s.logFault c.dev (s.ctx h.x).asid f false (locWord h.slot h.x.ctx) 0).killOf ⟨h.x.core, 0, h.x.ctx⟩
    else
      let re := f.name.restartable
      let at_ := if (s.ctx h.x).mrowValid then (s.ctx h.x).mrowRow.toNat else 0
      let row := if !h.restart then h.row else if h.pageFault.isSome then min h.row at_ else at_
      let s1 := s.onHead c e fun h => { h with restart := true, started := none, pageFault := none, cache := [], ended := !re }
      let s2 := s1.onCore c fun k => k.setQueue e { k.queue e with stop := if re then .restartable else .ended }
      let s3 := if h.isBurst && h.migrated.isNone && (s.hosted c).isNone then s2.releaseToken c else s2
      let s4 := if re && h.usesMrow then s3.onCtx h.x fun x => { x with mrowValid := true, mrowRow := BitVec.ofNat 8 row } else s3
      let s5 := if re then s4 else s4.dropFollow c h.id
      s5.pendFault h.x h.slot f

/-- The bound of a command in cycles (R211, R214, R222); a SEMWAIT has its own (R228). -/
def EngCmd.bound1 (c : EngCmd) : Option Nat :=
  match c.kind with
  | .mma | .mmas | .mcvt | .mldacc | .mstacc => some (1024 * recFld c.recA 9 0 32)
  | .mzero => some 64
  | .mstat => some 256
  | .cpy | .cpyx | .gth | .sct => some (1024 * recFld c.recA 11 0 32)
  | .coll => some (1024 * recFld c.recA 28 0 32)
  | .semsig | .semwait | .qfence | .plan => none

/-- Count a bound from the cycle in which a command stands at the head of its queue with the checker's waits clear (R222,
R228). -/
def Core.startClocks (k : Core) (cyc : Nat) : Core :=
  engs.foldl (fun k e => match k.headReady e with
    | some h =>
      if h.started.isSome then k
      else k.setQueue e { k.queue e with cmds := { h with started := some cyc } :: (k.queue e).cmds.drop 1 }
    | none => k) k

/-! ### Reads and writes of a command (R74) -/

/-- What a step of an engine finds: an answer, a wait, a fault or a field that drops the access. -/
inductive EngRes (α : Type) where
  | ok (a : α)
  | wait
  | bad (f : FaultRec)
  | drop (field : Nat)

/-- Chain. -/
def EngRes.bind {α β : Type} (r : EngRes α) (f : α → EngRes β) : EngRes β :=
  match r with
  | .ok a => f a
  | .wait => .wait
  | .bad e => .bad e
  | .drop fl => .drop fl

/-- One after another. -/
def engList {α β : Type} (f : α → EngRes β) : List α → EngRes (List β)
  | [] => .ok []
  | a :: r => (f a).bind fun b => (engList f r).bind fun bs => .ok (b :: bs)

/-- Who translates for a command. -/
def EngCmd.xl (c : EngCmd) (e : PermEng) (p : PathKind) : Xl := ⟨c.x, c.asid, c.priv, e, p⟩
/-- The place that stops an access, as an answer. -/
def engStop : Option Place → EngRes Unit
  | none => .ok ()
  | some (.bad f) => .bad f
  | some (.dropped _ fl) => .drop fl
  | some _ => .wait
/-- Translate an access. -/
def engLoc (r : Res (List Piece)) : EngRes (List Piece) :=
  match r with
  | .bad f => .bad f
  | .ok ps => .ok ps
/-- Translate an access of a command that writes. -/
def State.engXl (s : State) (t : Xl) (va : Word) (n : Nat) : EngRes (List Piece) :=
  (engLoc (s.xlAccess t va n)).bind fun ps => (engStop (s.firstStop ps)).bind fun _ => .ok ps
/-- The bytes of translated pieces at their visibility points (R74); a granule that has been read in a step of its own keeps what it held
then (R71, log 8). -/
def State.engPieces (s : State) (cache : FMap Nat (List Byte)) (va : Word) (ps : List Piece) : EngRes (List Byte) :=
  (engStop (s.readStop (ps.filter fun p => (fget? cache (p.granule va)).isNone))).bind fun _ =>
    .ok (ps.flatMap fun p => match fget? cache (p.granule va) with
      | some bs => p.ofGranule va bs
      | none => s.readPlace (s.locate p.loc) p.len)
/-- Read n bytes. -/
def State.engRead (s : State) (t : Xl) (va : Word) (n : Nat) (cache : FMap Nat (List Byte) := []) : EngRes (List Byte) :=
  if n = 0 then .ok [] else (engLoc (s.xlAccess t va n)).bind fun ps => s.engPieces cache va ps
/-- A write of a command on its way: its pieces join the core's paths (R74). -/
def State.engWrite (s : State) (c : CoreId) (h : EngCmd) (row : Nat) (ps : List Piece) (bs : List Byte) : State :=
  s.onCore c fun k => { k with paths := k.paths ++ ps.map fun p =>
    { loc := p.loc, bytes := (bs.drop p.at_).take p.len, owner := some (h.slot, 0), x := h.x, cmd := some h.id, row := row } }
/-- A write of a command has not taken effect. -/
def Core.writing (k : Core) (id : Nat) : Bool := k.paths.any fun p => p.cmd == some id

/-- The address of row i at a stride. -/
def rowVa (va : Word) (i : Int) (stride : Int) : Word := va + BitVec.ofInt 64 (i * stride)

/-- Finish a step of the head command of an engine. -/
def State.engStep (s : State) (c : CoreId) (e : Eng) (r : EngRes State) : Out :=
  match r with
  | .ok s1 => .next s1
  | .wait => .next s
  | .bad f => .next (s.engFault c e f)
  | .drop fl => .next (s.engFault c e { name := .machineCheck, detail := BitVec.ofNat 64 fl })

/-- The bound of a command at a head passed before this cycle (R222). -/
def State.overdue (s : State) (c : CoreId) (h : EngCmd) : Bool :=
  match h.bound1, h.started with
  | some b, some t => b != 0 && decide (t + b < (s.dev c.dev).cycle)
  | _, _ => false

/-- Row steps of a command: a write that has faulted stops it; with rows left, `step` does the next, unless the bound has passed (R222);
with none left, the command completes once its writes have taken effect (R74, R210). -/
def State.rowStep (s : State) (c : CoreId) (e : Eng) (h : EngCmd) (rows : Nat) (step : Nat → EngRes State) : Out :=
  match h.pageFault with
  | some f => .next (s.engFault c e f)
  | none =>
    let i := if h.usesMrow && h.restart then (if (s.ctx h.x).mrowValid then (s.ctx h.x).mrowRow.toNat else 0) else h.row
    if i < rows then (if s.overdue c h then .next (s.engFault c e { name := .cycleBound }) else s.engStep c e (step i))
    else if (s.core c).writing h.id then .next s
    else .next (s.popHead c e)

/-- Row i of the head command is done (R208: cr.mrow.ROW := i + 1). -/
def State.rowDone (s : State) (c : CoreId) (e : Eng) (h : EngCmd) (i : Nat) : State :=
  let s1 := s.onHead c e fun h => { h with row := i + 1, restart := false, checked := true, cache := [] }
  if h.usesMrow then s1.onCtx h.x fun x => { x with mrowValid := true, mrowRow := BitVec.ofNat 8 (i + 1) } else s1

/-! ### Cycle bounds (R222) -/

/-- The rows or units that a command has in all; 1 for one that is a single step. -/
def EngCmd.total (c : EngCmd) : Nat :=
  match c.kind with
  | .mma | .mmas | .mcvt | .mldacc | .mstacc => recFld c.recA 0 8 9
  | .cpy | .cpyx | .gth | .sct =>
    if (c.recA.getLsbD 20) then ceilDiv (recFld c.recA 2 0 21) 4096 else recFld c.recA 1 0 16 + 1
  | _ => 1
/-- The bound of a command has passed, in this cycle or before (R222). -/
def State.boundPassed (s : State) (c : CoreId) (h : EngCmd) : Bool :=
  match h.bound1, h.started with
  | some b, some t => b != 0 && decide (t + b ≤ (s.dev c.dev).cycle)
  | _, _ => false

/-! ### QFENCE (R229) -/

/-- qfence (R229): at D2 it is DET_LEVEL and enters no queue. -/
def execQfence (me ce cs : Bool) (s : State) : Out :=
  if s.cx.det == 2#2 then s.raise .detLevel
  else
    let n := (if me then 1 else 0) + (if ce then 2 else 0) + (if cs then 4 else 0)
    s.issueCmd { s.cmd .qfence (if me then .me else .ce) with n := BitVec.ofNat 15 n }

/-- A fence that stands at the head of each queue that it names (R229). -/
def Core.fenceReady (k : Core) : Option EngCmd :=
  engs.findSome? fun e => (k.headReady e).bind fun h =>
    if h.kind == .qfence && h.engines.all (fun o => (k.headReady o).any fun y => y.id == h.id) then some h else none
/-- QFENCE_RELEASE (R229): every named queue has its entry at its head, and all of them leave together. -/
def execQfenceRelease (c : CoreId) (s : State) : Out :=
  match (s.core c).fenceReady with
  | none => .next s
  | some h => .next (h.engines.foldl (fun s e => s.popHead c e) s)

/-- FOLLOW_ON_RELEASE (R37): the last byte of the copy that the head of the ME is bound to has landed. -/
def execFollowOnRelease (c : CoreId) (s : State) : Out :=
  match (s.core c).headReady .me with
  | none => .next s
  | some h => match h.bound with
    | none => .next s
    | some id => if (s.core c).ce.cmds.any fun y => y.id == id then .next s
                 else .next (s.onHead c .me fun h => { h with bound := none })

/-! ### Single pieces (R71, R74) -/

/-- Who translates the reads of a command. -/
def EngCmd.readers (h : EngCmd) : List Xl :=
  match h.kind with
  | .mma | .mmas => [h.xl .meA .roleA, h.xl .meB .roleB]
  | .mldacc => [h.xl .meA .none]
  | .mcvt => [h.xl .store .roleOut]
  | .cpy | .cpyx => [h.xl .ceSrc .ceSrc]
  | .gth => [h.xl .gather .ceSrc]
  | .sct => [h.xl .gather .ceSrc, h.xl .ceSrc .ceSrc]
  | .coll => [h.xl .csRead .cs]
  | .mzero | .mstacc | .mstat | .semsig | .semwait | .qfence | .plan => []
end Sys2Proof.Machine
end

