-- ==== Sys2Proof/Machine/Matrix.lean ====
section
/-!
DEFINITION. Machine/Matrix.lean: the matrix engine: operand records and their checks (R205 to R207, R211 to R214), tile
slots (R53, R57), and the steps of its commands (R208 to R216).
-/
namespace Sys2Proof.Machine

/-! ### Operand records (R205, R206) -/

/-- The roles of an operand record (R206). -/
inductive Role where
  | a | b | sb | out | acc
  deriving DecidableEq, Repr

/-- The number of a role in the detail of MATRIX_REC. -/
def roleNum : Role → Nat
  | .a => 0
  | .b | .sb => 1
  | .out | .acc => 2
/-- A role may use a buffer through the local window. -/
def roleBuf : Role → Buf → Bool
  | .a, b => b == .ab
  | .b, b | .sb, b => b == .wb
  | .out, b => b != .cb
  | .acc, _ => false
/-- The format codes that a role accepts. -/
def roleCode (r : Role) (c : Nat) : Bool :=
  match r with
  | .a | .b | .sb => c == 0 || c == 4 || c == 5 || (7 ≤ c && c ≤ 10)
  | .out => c ≤ 2 || (4 ≤ c && c ≤ 10)
  | .acc => c == 11
/-- ROWS of a record. -/
def recRows (r : BitVec 1024) : Nat := recFld r 0 8 9
/-- KBLK of a record. -/
def recKblk (r : BitVec 1024) : Nat := recFld r 1 0 16
/-- FCODE of a record. -/
def recFcode (r : BitVec 1024) : Nat := recFld r 0 28 4
/-- ROW0 of a record. -/
def recRow0 (r : BitVec 1024) : Nat := recFld r 10 0 8
/-- COL0 of a record. -/
def recCol0 (r : BitVec 1024) : Nat := recFld r 10 8 8
/-- VA of a record. -/
def recVa (r : BitVec 1024) : Word := rec64 r 3
/-- RSTR of a record. -/
def recRstr (r : BitVec 1024) : Int := recInt r 5
/-- SVA of a record. -/
def recSva (r : BitVec 1024) : Word := rec64 r 6
/-- SSTR of a record. -/
def recSstr (r : BitVec 1024) : Int := recInt r 8
/-- Bits [63:57] of an address are zero. -/
def vaFits (va : Word) : Bool := decide (va.toNat < 2 ^ 57)
/-- The address lies in the buffer windows. -/
def inWindow (va : Word) : Bool := va.toNat / 2 ^ 52 == 0x1F

/-- The rules of ROW0 and COL0 (R206). -/
def rolePlace (role : Role) (r : BitVec 1024) : Bool :=
  let rows := recRows r
  match role with
  | .a => decide (recRow0 r + rows ≤ 128) && recCol0 r == 0
  | .b | .sb => decide (recCol0 r + rows ≤ 192) && recRow0 r == 0
  | .out | .acc =>
    decide (recRow0 r + rows ≤ 128) && recCol0 r % 32 == 0 && decide (recCol0 r / 32 + recKblk r ≤ 6)

/-- The largest ROWS of a role. -/
def roleRows : Role → Nat
  | .b | .sb => 192
  | .a | .out | .acc => 128
/-- KBLK of a role; `ka` is KBLK of the A record. -/
def roleKblk (role : Role) (ka k : Nat) : Bool :=
  match role with
  | .a => decide (1 ≤ k)
  | .b | .sb => decide (1 ≤ k) && k == ka
  | .out | .acc => decide (1 ≤ k) && decide (k ≤ 6)
/-- A fixed descriptor of a role: valid with FCODE 0, else zero; a compressed operand has containers of 8 bits or fewer. -/
def roleDesc (r : BitVec 1024) : Bool := if recFcode r = 0 then nfValid (recWord r 2) else recWord r 2 == 0#32

/-- The checks of a record in the order of its words (R206): whether each holds, and its word. -/
def roleChecks (role : Role) (ka : Nat) (r : BitVec 1024) : List (Bool × Nat) :=
  let localOnly := role == .out
  let bounded := match role with
    | .a | .out | .acc => true
    | .b | .sb => false
  [ (recFld r 0 17 11 == 0 && recFld r 0 0 8 == 0 && roleCode role (recFcode r) && decide (1 ≤ recRows r) &&
      decide (recRows r ≤ roleRows role) && !(role == .sb && (recFcode r == 4 || recFcode r == 5)), 0),
    (recFld r 1 16 16 == 0 && roleKblk role ka (recKblk r), 1),
    (roleDesc r, 2),
    (vaFits (recVa r) && !(localOnly && !inWindow (recVa r)), 3),
    (!(role == .acc && decide ((recRstr r).natAbs < 672 * recKblk r)), 5),
    (vaFits (recSva r) && !(role == .acc && recSva r != 0) &&
      !(localOnly && recSva r != 0 && !inWindow (recSva r)), 6),
    (if bounded then recWord r 9 != 0#32 else recWord r 9 == 0#32, 9),
    (recFld r 10 16 16 == 0 && rolePlace role r, 10),
    (recWord r 11 == 0#32, 11), (recWord r 12 == 0#32, 12), (recWord r 13 == 0#32, 13), (recWord r 14 == 0#32, 14),
    (recWord r 15 == 0#32, 15) ]

/-- MATRIX_REC with the role and the word (R206, R290). -/
def matrixRec (va : Word) (role word : Nat) : FaultRec :=
  { name := .matrixRec, faddr := va, detail := BitVec.ofNat 64 (role * 256 + word) }

/-- The window rule of an address of a role (R206): another buffer is BUF_PERM, another window WINDOW. -/
def roleWindow (role : Role) (va : Word) : Option FaultRec :=
  if !inWindow va then none
  else match windowOf va.toNat with
    | some (.localW, o) =>
      if role == .acc then some (mkF .bufPerm va.toNat)
      else (match windowBuf o with
        | none => some (mkF .window va.toNat)
        | some (b, _) => if roleBuf role b then none else some (mkF .bufPerm va.toNat))
    | _ => some (mkF .window va.toNat)

/-- MATRIX_REC of a record. -/
def roleBad (role : Role) (ka : Nat) (va : Word) (r : BitVec 1024) : Option FaultRec :=
  (firstBad (roleChecks role ka r)).map (matrixRec va (roleNum role))
/-- The window rules of a record's VA and SVA. -/
def roleWindows (role : Role) (r : BitVec 1024) : Option FaultRec :=
  match roleWindow role (recVa r) with
  | some f => some f
  | none => if recSva r == 0 then none else roleWindow role (recSva r)

/-- The tile slot may be named (R15, R269). -/
def State.tileOk (s : State) (ts : BitVec 2) : Bool :=
  let cbres := match s.launchOf s.xid with
    | none => 0
    | some l => l.cbres
  (s.exclOf s.xid || ts == 0#2) && !(512 ≤ cbres && ts == 2#2) && !(1024 ≤ cbres && ts == 1#2) && ts != 3#2

/-- The bytes of one row of blocks in a format (R205), or of a compressed row (R209). -/
def rowBytes (f : Fmt) (role : Role) (kblk : Nat) : Nat := if role == .sb then kblk * 2 * f.cw else kblk * 4 * f.cw

/-- The bytes of one row; 0 for an invalid entry of the format table, whose command enters no queue (R46). -/
def fmtBytes (f : Option Fmt) (role : Role) (kblk : Nat) : Nat := (f.map fun f => rowBytes f role kblk).getD 0

/-- The ranges of a record's data and scale bytes (R221). -/
def State.recRanges (s : State) (c : EngCmd) (r : BitVec 1024) (len : Nat) : List Range :=
  s.envelope c (recVa r) (recRows r) (recRstr r) len ++
    (if recSva r == 0 then [] else s.envelope c (recSva r) (recRows r) (recSstr r) (recKblk r))

/-! ### Issue -/

/-- KB0 and the block count of the contraction window of sC (R207); none when it is bad. -/
def contrWindow (sc : Word) (kblk : Nat) : Option (Nat × Nat) :=
  let kb0 := nbits sc.toNat 0 16
  let kbn := nbits sc.toNat 16 16
  if 2 ^ 32 ≤ sc.toNat || kblk ≤ kb0 || kblk < kb0 + kbn then none
  else some (kb0, if kbn = 0 then kblk - kb0 else kbn)
/-- The metadata address of MMAS may be used (R207). -/
def metaVaOk (sc : Word) : Bool := sc.toNat % 128 == 0 && vaFits sc

/-- Issue MMA or MMAS (R204 to R209, R37). -/
def State.issueMma (s : State) (sparse fo z : Bool) (ts : BitVec 2) (a b c : BitVec 5) : Out :=
  if !s.tileOk ts then s.raise .tileRange
  else
    let va := s.rs a
    let vb := s.rs b
    let sc := s.rs c
    let roleB : Role := if sparse then .sb else .b
    match s.readRec .load va 64 with
    | .stop o => o
    | .ok s1 ra =>
      match s1.readRec .load vb 64 with
      | .stop o => o
      | .ok s2 rb =>
        match roleBad .a 0 va ra with
        | some f => s2.raiseRec f
        | none => match roleBad roleB (recKblk ra) vb rb with
          | some f => s2.raiseRec f
          | none =>
            if (if sparse then !metaVaOk sc else (contrWindow sc (recKblk ra)).isNone) then s2.raiseRec (matrixRec sc 3 0)
            else match roleWindows .a ra with
              | some f => s2.raiseRec f
              | none => match roleWindows roleB rb with
                | some f => s2.raiseRec f
                | none =>
                  if fo && s.st.lastCe.isNone then s2.raise .foPair
                  else
                    let fa := s.st.recFmt (recFcode ra) (recWord ra 2)
                    let fb := s.st.recFmt (recFcode rb) (recWord rb 2)
                    let e := { s2.cmd (if sparse then .mmas else .mma) .me with
                      recA := ra, recB := rb.setWidth 512, sc := sc, ts := ts, fo := fo, z := z
                      fmtA := fa, fmtB := fb, bound := if fo then s.st.lastCe else none
                      descVa := if fa.isNone then some va else if fb.isNone then some vb else none }
                    let meta_ := if sparse then s2.rangeAt e.x e.asid sc.toNat 0 (recRows rb * recKblk rb * 8 : Nat) else []
                    s2.issueCmd { e with
                      reads := s2.recRanges e ra (fmtBytes fa .a (recKblk ra)) ++
                        s2.recRanges e rb (fmtBytes fb roleB (recKblk rb)) ++ meta_ ++ [slotRange e.x ts]
                      writes := [slotRange e.x ts] }

/-- mma (R207, R208). -/
def execMma (fo z : Bool) (ts : BitVec 2) (a b c : BitVec 5) (s : State) : Out := s.issueMma false fo z ts a b c
/-- mmas (R207, R209). -/
def execMmas (fo z : Bool) (ts : BitVec 2) (a b c : BitVec 5) (s : State) : Out := s.issueMma true fo z ts a b c

/-- mzero (R211). -/
def execMzero (ts : BitVec 2) (s : State) : Out :=
  if !s.tileOk ts then s.raise .tileRange
  else s.issueCmd { s.cmd .mzero .me with ts := ts, reads := [slotRange s.xid ts], writes := [slotRange s.xid ts] }

/-- Issue MCVT, MLDACC or MSTACC: the record, its checks, and its ranges. -/
def State.issueOut (s : State) (k : CmdKind) (role : Role) (ts : BitVec 2) (a : BitVec 5) (f : EngCmd → EngCmd) : Out :=
  if !s.tileOk ts then s.raise .tileRange
  else
    let va := s.rs a
    match s.readRec .load va 64 with
    | .stop o => o
    | .ok s1 r =>
      match roleBad role 0 va r with
      | some e => s1.raiseRec e
      | none => match roleWindows role r with
        | some e => s1.raiseRec e
        | none =>
          let acc := role == .acc
          let fa := if acc then none else s.st.recFmt (recFcode r) (recWord r 2)
          let c := f { s1.cmd k .me with recA := r, ts := ts, fmtA := fa, descVa := if acc || fa.isSome then none else some va }
          let region := s1.recRanges c r (if acc then 672 * recKblk r else fmtBytes fa .out (recKblk r))
          let slot := [slotRange c.x ts]
          match k with
          | .mldacc => s1.issueCmd { c with reads := region, writes := slot }
          | .mstacc => s1.issueCmd { c with reads := slot, writes := region }
          | _ => s1.issueCmd { c with reads := slot, writes := region ++ slot }

/-- mcvt (R211, R212). -/
def execMcvt (rm : RMode) (auto : Bool) (a : BitVec 5) (ts : BitVec 2) (s : State) : Out :=
  s.issueOut .mcvt .out ts a fun c => { c with rm := rm, auto := auto }
/-- mldacc (R211, R213). -/
def execMldacc (ts : BitVec 2) (a : BitVec 5) (s : State) : Out := s.issueOut .mldacc .acc ts a id
/-- mstacc (R211, R213). -/
def execMstacc (a : BitVec 5) (ts : BitVec 2) (s : State) : Out := s.issueOut .mstacc .acc ts a id

/-- mstat (R214): its latch is PENDING from issue. -/
def execMstat (l : BitVec 2) (ts : BitVec 2) (s : State) : Out :=
  if !s.tileOk ts then s.raise .tileRange
  else if (s.st.rl l).st == .pending then .next (s.waits .none)
  else s.issueCmd { s.cmd .mstat .me with ts := ts, latch := l, reads := [slotRange s.xid ts] }

/-! ### Tile slots (R53, R57) -/

/-- The offset of a tile slot in CB. -/
def slotBase (ts : BitVec 2) : Nat := ts.toNat * 0x80000
/-- The elements of row i, columns j to j + n − 1. -/
def Ctx.tileRow (c : Ctx) (ts : BitVec 2) (i j n : Nat) : List XwElem :=
  (upTo n).map fun k =>
    (bytesBv 160 (mread c.cbuf (slotBase ts + (i * 192 + j + k) * 20) 20), mget c.cbuf (slotBase ts + 0x78000 + i * 192 + j + k))
/-- Replace elements of row i from column j. -/
def Ctx.setTileRow (c : Ctx) (ts : BitVec 2) (i j : Nat) (xs : List XwElem) : Ctx :=
  (c.bufWrite .cb (slotBase ts + (i * 192 + j) * 20) (xs.flatMap fun x => bvBytes 20 x.1)).bufWrite .cb
    (slotBase ts + 0x78000 + i * 192 + j) (xs.map Prod.snd)
/-- The offset of a row record. -/
def rowRec (ts : BitVec 2) (i : Nat) : Nat := slotBase ts + 0x7E000 + i * 64
/-- The elements of n containers of c bits (R43). -/
def contElems (c n : Nat) (bs : List Byte) : List Nat := elemsFrom n c (bytesNat bs)
/-- The bytes of containers of c bits. -/
def contBytes (c : Nat) (xs : List Nat) : List Byte := natBytes (xs.length * c / 8) (packElems c xs)

/-! ### MMA and MMAS (R208, R209, R216) -/

/-- The scale bytes of a row, from block kb0: 0 each when the record has none (R208). -/
def State.scaleRow (s : State) (h : EngCmd) (t : Xl) (r : BitVec 1024) (i : Nat) (kb0 kn : Nat) : EngRes (List Byte) :=
  if recSva r == 0 then .ok (List.replicate kn 0)
  else s.engRead t (rowVa (recSva r) i (recSstr r) + BitVec.ofNat 64 kb0) kn h.cache

/-- The blocks of n elements whose scale bytes are known, the bytes of block k being at `at_ k`: a block of scale 0x80 is neither fetched
nor decoded (R47). -/
def State.fetchBlocks (s : State) (h : EngCmd) (t : Xl) (f : Fmt) (n : Nat) (at_ : Nat → Word) (ss : List Byte) :
    EngRes (List (List Num × Byte)) :=
  engList (fun (p : Byte × Nat) =>
    if p.1 == 0x80#8 then .ok (List.replicate n (.fin false 0 0), p.1)
    else (s.engRead t (at_ p.2) (n * f.cw / 8) h.cache).bind fun bs => .ok ((contElems f.cw n bs).map (decodeNum f.par), p.1)) ss.zipIdx

/-- The blocks of a row of an operand, as values with their scale bytes (R205). -/
def State.operandRow (s : State) (h : EngCmd) (t : Xl) (r : BitVec 1024) (f : Fmt) (i kb0 kn : Nat) :
    EngRes (List (List Num × Byte)) :=
  (s.scaleRow h t r i kb0 kn).bind
    (s.fetchBlocks h t f 32 fun k => rowVa (recVa r) i (recRstr r) + BitVec.ofNat 64 ((kb0 + k) * 4 * f.cw))

/-- The metadata words of column j (R209). -/
def State.metaRow (s : State) (h : EngCmd) (kblk j : Nat) : EngRes (List Nat) :=
  (s.engRead (h.xl .meB .roleB) (h.sc + BitVec.ofNat 64 (j * kblk * 8)) (kblk * 8) h.cache).bind fun bs =>
    .ok (elemsFrom (4 * kblk) 16 (bytesNat bs))

/-- Expand four kept elements into a group of eight (R209). -/
def expandGroup (idx : List Nat) (xs : List Num) : List Num :=
  (upTo 8).map fun p => match (idx.zip xs).find? fun q => q.1 == p with
    | some q => q.2
    | none => .fin false 0 0
/-- Expand a compressed row of groups. -/
def expandRow : List Nat → List Num → List Num
  | [], _ => []
  | w :: r, xs => expandGroup ((metaIdx w).getD []) (xs.take 4) ++ expandRow r (xs.drop 4)

/-- The blocks of column j of the B operand. -/
def State.colB (s : State) (h : EngCmd) (rb : BitVec 1024) (fb : Fmt) (j kb0 kn : Nat) : EngRes (List (List Num × Byte)) :=
  let t := h.xl .meB .roleB
  if h.kind == .mmas then
    (s.scaleRow h t rb j 0 kn).bind fun ss =>
      (s.fetchBlocks h t fb 16 (fun k => rowVa (recVa rb) j (recRstr rb) + BitVec.ofNat 64 (k * 2 * fb.cw)) ss).bind fun bs =>
        (s.metaRow h kn j).bind fun ms =>
          .ok (bs.zipIdx.map fun b => (expandRow ((ms.drop (4 * b.2)).take 4) b.1.1, b.1.2))
  else s.operandRow h t rb fb j kb0 kn

/-- The sum of the contributions of two rows of blocks (R50). -/
def blockSum (a b : List (List Num × Byte)) : XwElem :=
  (a.zip b).foldl (fun x p => xwAcc x (contribution p.1.1 p.2.1 p.1.2 p.2.2)) (0, 0)

/-- The contraction window of a command. -/
def EngCmd.window (h : EngCmd) : Nat × Nat :=
  let k := recKblk h.recA
  if h.kind == .mmas then (0, k) else (contrWindow h.sc k).getD (0, k)

/-- The contributions of row i of MMA or MMAS to each of its columns. -/
def State.mmaRow (s : State) (h : EngCmd) (i : Nat) : EngRes (List XwElem) :=
  let rb : BitVec 1024 := h.recB.setWidth 1024
  match h.fmtA, h.fmtB with
  | some fa, some fb =>
    let w := h.window
    (s.operandRow h (h.xl .meA .roleA) h.recA fa i w.1 w.2).bind fun a =>
      engList (fun j => (s.colB h rb fb j w.1 w.2).bind fun b => .ok (blockSum a b)) (upTo (recRows rb))
  | _, _ => .wait

/-- The first malformed metadata word that MMAS will use (R209). -/
def State.metaBad (s : State) (h : EngCmd) : EngRes (Option Nat) :=
  let k := recKblk h.recA
  (engList (fun j => s.metaRow h k j) (upTo (recRows (h.recB.setWidth 1024)))).bind fun ws =>
    .ok (ws.flatten.findIdx? fun w => (metaIdx w).isNone)

/-- The check of the metadata before the first contribution (R209). -/
def State.metaCheck (s : State) (h : EngCmd) : EngRes Unit :=
  if h.kind != .mmas || h.checked then .ok ()
  else (s.metaBad h).bind fun m => match m with
    | none => .ok ()
    | some k => .bad { name := .metaMalformed, faddr := h.sc, detail := BitVec.ofNat 64 k }

/-- Add a row of contributions into the slot, in one step (R208). -/
def Ctx.addRow (c : Ctx) (h : EngCmd) (i : Nat) (xs : List XwElem) : Ctx :=
  let rb : BitVec 1024 := h.recB.setWidth 1024
  let row := recRow0 h.recA + i
  let old := if h.z then xs.map fun _ => (0, 0) else c.tileRow h.ts row (recCol0 rb) xs.length
  c.setTileRow h.ts row (recCol0 rb) ((old.zip xs).map fun p => xwAcc p.1 p.2)

/-- A row of MMA or MMAS at home. -/
def State.mmaStep (s : State) (c : CoreId) (h : EngCmd) (i : Nat) : EngRes State :=
  (s.metaCheck h).bind fun _ => (s.mmaRow h i).bind fun xs =>
    .ok ((s.onCtx h.x fun x => x.addRow h i xs).rowDone c .me h i)

/-- Change a command of a core's ME queue. -/
def State.onMe (s : State) (c : CoreId) (id : Nat) (f : EngCmd → EngCmd) : State :=
  s.onCore c fun k => { k with me := { k.me with cmds := k.me.cmds.map fun y => if y.id == id then f y else y } }

/-- A migrated command goes back to its own queue, its private result discarded (R216). -/
def State.migrateBack (s : State) (home target : CoreId) (h : EngCmd) : State :=
  (s.onMe home h.id fun y => { y with migrated := none, partialRows := [], row := 0 }).releaseToken target

/-- The commands before one in its queue. -/
def Core.before (k : Core) (id : Nat) : List EngCmd := k.me.cmds.takeWhile fun y => y.id != id

/-- A migrated command may read its operands: every command that it waits behind has left, no wait or fence stands before
it, and no command before it writes what it reads, its slot apart (R74, R216). -/
def State.mayCompute (s : State) (home : CoreId) (h : EngCmd) : Bool :=
  let k := s.core home
  let ops := h.reads.filter fun r => r != slotRange h.x h.ts
  h.after.all (fun i => !k.holds i) &&
    (k.before h.id).all fun y => y.kind != .semwait && y.kind != .qfence && !rangesMeet y.writes ops

/-- MMA_ROW_COMMIT (R208, R216): the ME commits a row of the burst that it runs, or computes a row of a migrated one. -/
def execMmaRowCommit (c : CoreId) (s : State) : Out :=
  match s.hosted c with
  | some (home, h) =>
    let i := h.partialRows.length
    if !(s.core c).token || recRows h.recA ≤ i || !s.mayCompute home h || (s.core c).fenced then .next s
    else
      (match (s.metaCheck h).bind fun _ => s.mmaRow h i with
      | .ok xs =>
        let s1 := s.onMe home h.id fun y => { y with partialRows := y.partialRows ++ [xs], checked := true }
        .next (if i + 1 = recRows h.recA then s1.releaseToken c else s1)
      | .wait => .next s
      | .bad _ | .drop _ => .next (s.migrateBack home c h))
  | none =>
    match s.burstRuns c with
    | some h => if h.kind == .mcvt then .next s else s.rowStep c .me h (recRows h.recA) (s.mmaStep c h)
    | none => .next s

/-- COMMAND_MIGRATION (R216): an eligible MMA or MMAS moves to an idle ME of the quad. -/
def execCommandMigration (c : CoreId) (pos : Nat) (target : CoreId) (s : State) : Out :=
  let far (va : Word) : Bool := !inWindow va
  match (s.core c).me.cmds[pos]? with
  | none => .next s
  | some h =>
    let rb : BitVec 1024 := h.recB.setWidth 1024
    if (h.kind == .mma || h.kind == .mmas) && h.level != 2#2 && !h.fo && far (recVa h.recA) && far (recSva h.recA) &&
        far (recVa rb) && far (recSva rb) && !(h.kind == .mmas && inWindow h.sc) && decide (4 ≤ pos) &&
        target.dev == c.dev && target.field == c.field && target.core / 4 == c.core / 4 && target != c &&
        (s.core target).me.cmds.isEmpty && (s.hosted target).isNone && !(s.core target).token && !(s.core target).fenced &&
        h.migrated.isNone && h.row == 0 && !h.restart then
      .next (s.onMe c h.id fun y => { y with migrated := some target })
    else .next s

/-- MIGRATED_RESULT_APPLY (R216): at its own position, the original ME adds a row of the private result into the slot. -/
def execMigratedResultApply (c : CoreId) (s : State) : Out :=
  match (s.core c).headReady .me with
  | none => .next s
  | some h =>
    let rows := recRows h.recA
    if h.migrated.isNone || h.partialRows.length < rows then .next s
    else if h.row < rows then
      if s.overdue c h then .next (s.engFault c .me { name := .cycleBound }) else
      let xs := h.partialRows[h.row]?.getD []
      let s1 := (s.onCtx h.x fun x => x.addRow h h.row xs).rowDone c .me h h.row
      .next (if h.row + 1 = rows then s1.popHead c .me else s1)
    else .next (s.popHead c .me)

/-! ### MZERO and MSTAT (R53, R211, R214) -/

/-- Clear the values and status bytes of a slot; its row records stay. -/
def Ctx.zeroSlot (c : Ctx) (ts : BitVec 2) : Ctx := c.bufWrite .cb (slotBase ts) (List.replicate 0x7E000 0)

/-- MZERO_PERFORM (R211). -/
def execMzeroPerform (c : CoreId) (s : State) : Out :=
  match s.meHead c with
  | some h => if h.kind == .mzero then .next ((s.onCtx h.x fun x => x.zeroSlot h.ts).popHead c .me) else .next s
  | none => .next s

/-- The union of the status bytes of row i (R214). -/
def Ctx.rowStatus (c : Ctx) (ts : BitVec 2) (i : Nat) : Byte :=
  (mread c.cbuf (slotBase ts + 0x78000 + i * 192) 192).foldl (fun a b => a ||| b) 0

/-- MSTAT_PERFORM (R214): the unions land in the latch of the stream that issued it. -/
def execMstatPerform (c : CoreId) (s : State) : Out :=
  match s.meHead c with
  | some h =>
    if h.kind != .mstat then .next s
    else
      let v : Vec := bytesBv 1024 ((upTo 128).map fun i => (s.ctx h.x).rowStatus h.ts i)
      let s1 := s.onStrm h.slot fun st =>
        if st.present && (st.rl h.latch).st == .pending then st.wl h.latch { st := .full, val := v } else st
      .next (s1.popHead c .me)
  | none => .next s

/-! ### MCVT (R212) -/

/-- The converted blocks of row i: the scale byte of each and what comes out. -/
def Ctx.mcvtBlocks (c : Ctx) (h : EngCmd) (f : Fmt) (scales : List Byte) (i : Nat) : List (Byte × BlockOut) :=
  let t := recRow0 h.recA + i
  let b0 := recCol0 h.recA / 32
  (upTo (recKblk h.recA)).map fun k =>
    let b := b0 + k
    let xs := (c.tileRow h.ts t (32 * b) 32).map xwRead
    let uf := mget c.cbuf (rowRec h.ts t + b)
    let sc := if h.auto then chooseScale xs f.par h.uthr uf else scales[k]?.getD 0
    (sc, convBlock f.par h.rm sc xs)

/-- Byte b of a counter of a row record: words 0 and 1, 2 and 3, or 4 and 5 (R57). -/
def recByte (ts : BitVec 2) (i word b : Nat) : Nat := rowRec ts i + 4 * word + b

/-- Write UFb, LSb and SCb of the converted blocks (R57). -/
def Ctx.mcvtCounts (c : Ctx) (h : EngCmd) (i : Nat) (rs : List (Byte × BlockOut)) : Ctx :=
  let t := recRow0 h.recA + i
  let b0 := recCol0 h.recA / 32
  rs.zipIdx.foldl (fun c p =>
    let b := b0 + p.2
    ((c.bufWrite .cb (recByte h.ts t 0 b) [BitVec.ofNat 8 p.1.2.uf]).bufWrite .cb (recByte h.ts t 2 b)
      [BitVec.ofNat 8 p.1.2.ls]).bufWrite .cb (recByte h.ts t 4 b) [p.1.1]) c

/-- A row of MCVT: its output and, with .auto, its scale bytes leave on their way; its counts are written (R212). -/
def State.mcvtStep (s : State) (c : CoreId) (h : EngCmd) (i : Nat) : EngRes State :=
  match h.fmtA with
  | none => .wait
  | some f =>
    let t := h.xl .store .roleOut
    let r := h.recA
    let kb := recKblk r
    let sva := rowVa (recSva r) i (recSstr r)
    (if h.auto then .ok [] else s.scaleRow h t r i 0 kb).bind fun ss =>
      let rs := (s.ctx h.x).mcvtBlocks h f ss i
      (s.engXl t (rowVa (recVa r) i (recRstr r)) (kb * 4 * f.cw)).bind fun ps =>
        (if h.auto && recSva r != 0 then s.engXl t sva kb else .ok []).bind fun qs =>
          let s1 := s.engWrite c h i ps (contBytes f.cw (rs.flatMap fun x => x.2.pats))
          let s2 := s1.engWrite c h i qs (rs.map Prod.fst)
          .ok ((s2.onCtx h.x fun x => x.mcvtCounts h i rs).rowDone c .me h i)

/-- MCVT_ROW_COMMIT (R212). -/
def execMcvtRowCommit (c : CoreId) (s : State) : Out :=
  match s.burstRuns c with
  | some h => if h.kind == .mcvt then s.rowStep c .me h (recRows h.recA) (s.mcvtStep c h) else .next s
  | none => .next s

/-! ### MLDACC and MSTACC (R213) -/

/-- A row of MLDACC: values and status bytes replace those of the slot; reserved status bits are cleared. -/
def State.mldaccStep (s : State) (c : CoreId) (h : EngCmd) (i : Nat) : EngRes State :=
  let r := h.recA
  let n := 32 * recKblk r
  (s.engRead (h.xl .meA .none) (rowVa (recVa r) i (recRstr r)) (21 * n) h.cache).bind fun bs =>
    let xs : List XwElem := (upTo n).map fun k =>
      (bytesBv 160 ((bs.drop (20 * k)).take 20), (bs[20 * n + k]?.getD 0) &&& 0x0F)
    .ok ((s.onCtx h.x fun x => x.setTileRow h.ts (recRow0 r + i) (recCol0 r) xs).rowDone c .me h i)

/-- A row of MSTACC. -/
def State.mstaccStep (s : State) (c : CoreId) (h : EngCmd) (i : Nat) : EngRes State :=
  let r := h.recA
  let n := 32 * recKblk r
  (s.engXl (h.xl .ceDst .none) (rowVa (recVa r) i (recRstr r)) (21 * n)).bind fun ps =>
    let xs := (s.ctx h.x).tileRow h.ts (recRow0 r + i) (recCol0 r) n
    .ok ((s.engWrite c h i ps ((xs.flatMap fun x => bvBytes 20 x.1) ++ xs.map Prod.snd)).rowDone c .me h i)

/-- ACC_ROW_TRANSFER (R213). -/
def execAccRowTransfer (c : CoreId) (s : State) : Out :=
  match s.meHead c with
  | some h =>
    (match h.kind with
    | .mldacc => s.rowStep c .me h (recRows h.recA) (s.mldaccStep c h)
    | .mstacc => s.rowStep c .me h (recRows h.recA) (s.mstaccStep c h)
    | _ => .next s)
  | none => .next s

end Sys2Proof.Machine
end

