-- ==== Sys2Proof/Machine/Sem.lean ====
section
/-!
DEFINITION. Machine/Sem.lean: semaphores (R15, R72, R226 to R228) and barriers (R21, R73, R231).
-/
namespace Sys2Proof.Machine

/-! ### Semaphores -/

/-- The semaphore lies in the WG's range (R15, R226). -/
def State.semOk (s : State) (n : BitVec 6) : Bool := s.exclOf s.xid || decide (n.toNat < 32)
/-- The count of a semaphore. -/
def Ctx.sem (c : Ctx) (n : BitVec 6) : BitVec 16 := c.sems[n.toNat]'n.isLt
/-- Set the count of a semaphore. -/
def Ctx.setSem (c : Ctx) (n : BitVec 6) (v : BitVec 16) : Ctx := { c with sems := c.sems.set n.toNat v n.isLt }
/-- The count after a signal; none when it would pass 65,535 (R227). -/
def semAdd (v : BitVec 16) (n : BitVec 15) : Option (BitVec 16) :=
  if v.toNat + n.toNat ≤ 65535 then some (v + n.setWidth 16) else none
/-- The count after a wait; none while it is below n. -/
def semTake (v : BitVec 16) (n : BitVec 15) : Option (BitVec 16) :=
  if n.toNat ≤ v.toNat then some (v - n.setWidth 16) else none
/-- The engine of a queue form. -/
def semEng : SemQ → Option Eng
  | .stream => none
  | .me => some .me
  | .ce => some .ce
  | .cs => some .cs

/-! ### Steps that meet on one semaphore in a cycle (R72, R227) -/

/-- What touches a semaphore in one cycle, in the order of R227. -/
inductive SemStep where
  | set (id : SlotId)
  | sigEngine (e : Eng)
  | sigPlan (slot : Nat)
  | sigStream (id : SlotId)
  | waitEngine (e : Eng)
  | waitStream (id : SlotId)
  deriving DecidableEq, Repr
/-- The place of a step in the order of R227: SEMSETs, signals of the ME, CE and CS, of plan completions by slot, and of streams, then waits
of the ME, CE and CS and of streams; `base` is the slot after which the rotation starts in this cycle. -/
def SemStep.rank (base : Nat) : SemStep → Nat
  | .set id => rotPlace base id
  | .sigEngine e => 15 + engCode e
  | .sigPlan k => 20 + k % 1000
  | .sigStream id => 2000 + rotPlace base id
  | .waitEngine e => 3000 + engCode e
  | .waitStream id => 4000 + rotPlace base id
/-- The step may touch the semaphore now: none that comes after it has done so in this cycle (R227). -/
def State.semTurn (s : State) (x : CtxId) (n : BitVec 6) (k : SemStep) : Bool :=
  let c := s.core x.core
  c.turnOk (.sem x.ctx n) (k.rank c.semRot.1)
/-- The slot of a step of a stream. -/
def SemStep.slot : SemStep → Option SlotId
  | .set id | .sigStream id | .waitStream id => some id
  | .sigEngine _ | .sigPlan _ | .waitEngine _ => none
/-- The step takes its place in the cycle, whatever it does to the count: no step that comes before it follows. -/
def State.semMark (s : State) (x : CtxId) (n : BitVec 6) (k : SemStep) : State :=
  s.onCore x.core fun c =>
    let c1 := c.turn (.sem x.ctx n) (k.rank c.semRot.1)
    match k.slot with
    | some id => { c1 with semRot := (c1.semRot.1, slotNo id) }
    | none => c1
/-- The step sets the semaphore's count: the count, and the step's place in the cycle. -/
def State.semStep (s : State) (x : CtxId) (n : BitVec 6) (k : SemStep) (v : BitVec 16) : State :=
  (s.semMark x n k).onCtx x fun c => c.setSem n v
/-- A wait of an engine stands at the head of its queue, on the semaphore, with its count. -/
def State.engineWaits (s : State) (x : CtxId) (n : BitVec 6) (e : Eng) : Bool :=
  match (s.core x.core).headReady e with
  | some h => h.kind == .semwait && h.x == x && h.sem == n && (semTake ((s.ctx x).sem n) h.n).isSome
  | none => false
/-- A stream stands at a wait on the semaphore, nothing before it, with its count. -/
def State.streamWaits (s : State) (x : CtxId) (n : BitVec 6) (id : SlotId) : Bool :=
  let st := s.strm id
  match st.wait with
  | .sem m k => m == n && s.xidOf id == x && st.status == .waiting && st.atHeads && s.canAct id && (semTake ((s.ctx x).sem n) k).isSome
  | _ => false
/-- A wait that is tested before the step finds its count: the step's own test comes after it (R227). -/
def State.semBehind (s : State) (x : CtxId) (n : BitVec 6) (k : SemStep) : Bool :=
  let base := (s.core x.core).semRot.1
  engs.any (fun e => decide ((SemStep.waitEngine e).rank base < k.rank base) && s.engineWaits x n e) ||
    (slotsOf x.core).any fun id => decide ((SemStep.waitStream id).rank base < k.rank base) && s.streamWaits x n id

/-- semsig (R72, R226): in the stream a release at core scope and then the signal; in an engine's queue an entry. -/
def execSemsig (q : SemQ) (sem : BitVec 6) (n : BitVec 15) (s : State) : Out :=
  if !s.semOk sem then s.raise .semRange
  else
    match semEng q with
    | some e => s.issueCmd { s.cmd .semsig e with sem := sem, n := n }
    | none =>
      match s.joinHold (some .core) with
      | some o => o
      | none =>
        if !s.semTurn s.xid sem (.sigStream s.cur) then .next (s.waitsAt .none)
        else match semAdd (s.cx.sem sem) n with
        | none => (s.semMark s.xid sem (.sigStream s.cur)).raise .semOvf
        | some v => .next ((s.semStep s.xid sem (.sigStream s.cur) v).ungate.adv 4)

/-- semwait (R72, R226): in the stream a wait, then an acquire at core scope; in an engine's queue an entry. -/
def execSemwait (q : SemQ) (sem : BitVec 6) (n : BitVec 15) (s : State) : Out :=
  if !s.semOk sem then s.raise .semRange
  else
    match semEng q with
    | some e => s.issueCmd { s.cmd .semwait e with sem := sem, n := n }
    | none =>
      match s.joinHold none (.sem sem n) with
      | some o => o
      | none =>
        match semTake (s.cx.sem sem) n with
        | none => .next (s.waitsAt (.sem sem n))
        | some v =>
          if !s.semTurn s.xid sem (.waitStream s.cur) || s.semBehind s.xid sem (.waitStream s.cur) then .next (s.waitsAt (.sem sem n))
          else .next (((s.semStep s.xid sem (.waitStream s.cur) v).ungate.acquire s.cur.core .core).adv 4)

/-- semset (R226): one step at issue, neither a release nor an acquire. -/
def execSemset (sem : BitVec 6) (n : BitVec 15) (s : State) : Out :=
  if !s.semOk sem then s.raise .semRange
  else if !s.semTurn s.xid sem (.set s.cur) then .next (s.waits .none)
  else .next ((s.semStep s.xid sem (.set s.cur) (n.setWidth 16)).adv 4)

/-- SEMSIG_ENGINE_PERFORM (R72, R227): a signal at the head of its queue adds its count, or stops the queue with SEM_OVF. -/
def execSemsigEnginePerform (c : CoreId) (e : Eng) (s : State) : Out :=
  match (s.core c).headReady e with
  | none => .next s
  | some h =>
    if h.kind != .semsig || !s.semTurn h.x h.sem (.sigEngine e) then .next s
    else match semAdd ((s.ctx h.x).sem h.sem) h.n with
      | none => .next ((s.semMark h.x h.sem (.sigEngine e)).engFault c e { name := .semOvf })
      | some v => .next ((s.semStep h.x h.sem (.sigEngine e) v).popHead c e)

/-- A wait has stood at the head of its queue longer than the bound that it entered with (R228). -/
def EngCmd.semOverdue (h : EngCmd) (cyc : Nat) : Bool := match h.started with
  | none => false
  | some t => h.semBound != 0#32 && decide (t + 1024 * h.semBound.toNat < cyc)
/-- SEMWAIT_ENGINE_PERFORM (R72, R227, R228): a wait at the head of its queue finds its count and takes it, up to the cycle in which its
bound passes. -/
def execSemwaitEnginePerform (c : CoreId) (e : Eng) (s : State) : Out :=
  match (s.core c).headReady e with
  | none => .next s
  | some h =>
    if h.kind != .semwait || h.semOverdue (s.dev c.dev).cycle || !s.semTurn h.x h.sem (.waitEngine e) || s.semBehind h.x h.sem (.waitEngine e) then .next s
    else match semTake ((s.ctx h.x).sem h.sem) h.n with
      | none => .next s
      | some v => .next ((s.semStep h.x h.sem (.waitEngine e) v).popHead c e)

/-- SEMWAIT_BOUND_EXPIRY (R228): a wait at the head has stood longer than the bound that it entered with: CYCLE_BOUND. -/
def execSemwaitBoundExpiry (c : CoreId) (e : Eng) (s : State) : Out :=
  match (s.core c).headReady e with
  | none => .next s
  | some h =>
    if h.kind == .semwait && h.semOverdue (s.dev c.dev).cycle then .next (s.engFault c e { name := .cycleBound }) else .next s

/-! ### Barriers -/

/-- The number of a level (R231). -/
def barNum : BarLevel → Nat
  | .core => 0
  | .quad => 1
  | .field => 2
  | .device => 3
  | .pod => 4
/-- The scope at which a barrier releases and acquires (R21). -/
def barScope : BarLevel → Scope
  | .core => .core
  | .quad => .quad
  | .field => .field
  | .device => .device
  | .pod => .pod

/-- bar (R17, R73, R231): BAR_TAIL in a tail, BAR_SCOPE above what the launch declares, then a release at the level's scope,
and the stream has arrived. -/
def execBar (level : BarLevel) (s : State) : Out :=
  let declared := match s.launchOf s.xid with
    | none => 0
    | some l => if l.coop then l.barlvl else 0
  if isTail s.cur then s.raise .barTail
  else if level != .core && declared < barNum level then s.raise .barScope
  else if s.st.wait == .bar level then .next (s.waitsAt (.bar level))
  else
    match s.joinHold (some (barScope level)) with
    | some o => o
    | none => .next (s.waitsAt (.bar level))

/-- The devices that the rank table of a context names (R102, R277); none while the table cannot be read. -/
def State.rankDevs (s : State) (x : CtxId) : Option (List Nat) :=
  let c := s.ctx x
  let n := c.collN.toNat
  match s.engRead ⟨x, c.asid.toNat, .u, .csRead, .cs⟩ (BitVec.ofNat 64 (c.collBase.toNat * 4096)) (4 * n) with
  | .ok bs => some ((elemsFrom n 32 (bytesNat bs)).map (· % 2 ^ 11)).eraseDups
  | .wait | .bad _ | .drop _ => none
/-- How many launches of a pod tag have begun on a device before the launch `lid`. -/
def Device.tagRank (d : Device) (tag : BitVec 16) (lid : Nat) : Nat :=
  (d.launches.filter fun p => p.2.podtag == tag && p.2.begun && decide (p.1 < lid)).length
/-- The launch of a pod tag on a device that comes after k others of the tag: it, or nothing when it has ended; none while it has not
begun. -/
def State.podLaunch (s : State) (d : Nat) (tag : BitVec 16) (k : Nat) : Option (List (Nat × Nat)) :=
  let v := s.dev d
  (v.launches.find? fun p => p.2.podtag == tag && p.2.begun && v.tagRank tag p.1 == k).map fun p =>
    if p.2.done then [] else [(d, p.1)]
/-- The launches of the pod barrier of a context: its own, and on each device that its rank table names the one that comes as late among
those of its pod tag as its own does (R21, R277).
None while one of them has not begun or the table cannot be read (log 62). -/
def State.podMates (s : State) (x : CtxId) (lid : Nat) : Option (List (Nat × Nat)) :=
  match s.launch? x.core.dev lid with
  | none => none
  | some l =>
    if l.podtag == 0#16 then some [(x.core.dev, lid)]
    else (s.rankDevs x).bind fun ds => ds.foldl (fun acc d => acc.bind fun ps =>
      if d == x.core.dev then some ps else (s.podLaunch d l.podtag ((s.dev x.core.dev).tagRank l.podtag lid)).map (ps ++ ·)) (some [(x.core.dev, lid)])

/-- The WGs of a launch that are resident, with their contexts. -/
def State.resident (s : State) (d lid : Nat) : List CtxId := match s.launch? d lid with
  | none => []
  | some l => l.running.map Prod.snd

/-- The participants' contexts of a barrier that the context `x` takes part in (R21). -/
def State.barGroup (s : State) (x : CtxId) (level : BarLevel) : List CtxId :=
  match s.lidOf x with
  | none => []
  | some lid =>
    let all := s.resident x.core.dev lid
    match level with
    | .core => [x]
    | .quad => all.filter fun y => y.core.field == x.core.field && y.core.core / 4 == x.core.core / 4
    | .field => all.filter fun y => y.core.field == x.core.field
    | .device => all
    | .pod => ((s.podMates x lid).getD []).flatMap fun p => s.resident p.1 p.2

/-- Every launch that a barrier spans has begun, every WG of them has been dispatched, and none stands saved. -/
def State.barWhole (s : State) (x : CtxId) (level : BarLevel) : Bool :=
  match s.lidOf x with
  | none => false
  | some lid =>
    let ls := match level with
      | .pod => s.podMates x lid
      | _ => some [(x.core.dev, lid)]
    level == .core || ls.any fun ls => ls.all fun p => match s.launch? p.1 p.2 with
      | none => true
      | some l => l.nextWg == l.wgcount && l.batch.isEmpty && l.savedWgs.isEmpty

/-- A main stream has arrived at the level: it waits there, or it has halted (R231). -/
def Stream.arrived (st : Stream) (level : BarLevel) : Bool :=
  st.status == .halted || (st.status == .waiting && st.wait == .bar level)

/-- A participant goes on after a barrier: it acquires and runs past its BAR (R73). -/
def State.passBar (s : State) (level : BarLevel) (id : SlotId) : State :=
  if (s.strm id).wait == .bar level then ({ s with cur := id, side := .execute }.ungate.acquire id.core (barScope level)).adv 4 else s

/-- BARRIER_COMPLETE (R21, R73): every participant has arrived, one of them at least not by halting; all go on. -/
def execBarrierComplete (x : CtxId) (level : BarLevel) (s : State) : Out :=
  let ids := (s.barGroup x level).flatMap mainsOf
  if s.barWhole x level && (ids.all fun id => (s.strm id).arrived level && !(s.core id.core).fenced) &&
      (ids.any fun id => (s.strm id).wait == .bar level) then
    .next { ids.foldl (State.passBar · level) s with cur := s.cur, side := s.side }
  else .next s

end Sys2Proof.Machine
end

