-- ==== Sys2Proof/Machine/Coll.lean ====
section
/-!
DEFINITION. Machine/Coll.lean: collectives: the record and its checks (R100, R101, R230), the walker (R99, R102), chunks and
their targets (R103, R104), the reduction units (R105), completion (R106), and acknowledgements and faults (R107).
-/
namespace Sys2Proof.Machine

/-! ### The record (R100, R101) -/

/-- KIND. -/
def clKind (r : BitVec 1024) : Nat := recFld r 0 28 4
/-- A reduction: RSUM or ARSUM. -/
def clRed (r : BitVec 1024) : Bool := clKind r == 2 || clKind r == 3
/-- IFMT. -/
def clIfmt (r : BitVec 1024) : Nat := recFld r 0 24 4
/-- OFMT. -/
def clOfmt (r : BitVec 1024) : Nat := recFld r 0 20 4
/-- RMODE. -/
def clRm (r : BitVec 1024) : RMode :=
  match recFld r 0 18 2 with
  | 0 => .rne | 1 => .rtz | 2 => .rup | _ => .rdn
/-- PMODE: the peer table is used. -/
def clTable (r : BitVec 1024) : Bool := r.getLsbD 17
/-- SEMEN. -/
def clSemen (r : BitVec 1024) : Bool := r.getLsbD 16
/-- SEM. -/
def clSem (r : BitVec 1024) : BitVec 6 := r.extractLsb' 10 6
/-- The innermost level that is not used. -/
def clLevels (r : BitVec 1024) : Nat := recFld r 0 8 2 + 1
/-- TAG. -/
def clTag (r : BitVec 1024) : BitVec 16 := r.extractLsb' 48 16
/-- NCONTRIB. -/
def clContrib (r : BitVec 1024) : Nat := recFld r 1 0 11
/-- SBASE. -/
def clSbase (r : BitVec 1024) : Word := rec64 r 4
/-- DBASE. -/
def clDbase (r : BitVec 1024) : Word := rec64 r 6
/-- NVA. -/
def clNva (r : BitVec 1024) : Word := rec64 r 8
/-- ELEN. -/
def clElen (r : BitVec 1024) : Nat := recFld r 10 0 21
/-- PN. -/
def clPn (r : BitVec 1024) : Nat := recFld r 11 16 11
/-- PB. -/
def clPb (r : BitVec 1024) : Nat := recFld r 11 0 11
/-- PA of level k. -/
def clPa (r : BitVec 1024) (k : Nat) : Int := toSigned 16 (recFld r (12 + 4 * k) 16 16)
/-- The bound of level k. -/
def clBound (r : BitVec 1024) (k : Nat) : Nat := recFld r (12 + 4 * k) 0 16 + 1
/-- The source stride of level k. -/
def clSstr (r : BitVec 1024) (k : Nat) : Int := recInt r (13 + 4 * k)
/-- The destination stride of level k. -/
def clDstr (r : BitVec 1024) (k : Nat) : Int := recInt r (14 + 4 * k)
/-- PTVA. -/
def clPtva (r : BitVec 1024) : Word := rec64 r 29

/-- The format of a reduction that a code and a descriptor name (R101). -/
def clFmt (code : Nat) (desc : BitVec 32) : Option Fmt :=
  if code = 0 then (if nfValid desc then some (.nf desc) else none)
  else if code == 2 || code == 4 || code == 5 || code == 6 then codeFmt code else none
/-- The input and output formats. -/
def clFmts (r : BitVec 1024) : Option (Fmt × Fmt) :=
  match clFmt (clIfmt r) (recWord r 2), clFmt (clOfmt r) (recWord r 3) with
  | some a, some b => some (a, b)
  | _, _ => none

/-- The checks of a level's words. -/
def levelChecks (r : BitVec 1024) (k : Nat) : List (Bool × Nat) :=
  let w := 12 + 4 * k
  if k < clLevels r then
    [(clSstr r k % 128 == 0, w + 1), (clDstr r k % 128 == 0, w + 2), (recWord r (w + 3) == 0#32, w + 3)]
  else [(recWord r w == 0#32, w), (recWord r (w + 1) == 0#32, w + 1), (recWord r (w + 2) == 0#32, w + 2),
        (recWord r (w + 3) == 0#32, w + 3)]

/-- The checks of a collective record in the order of its words (R101); `nrank` is cr.collrt.NRANK. A VA of two words with bits above bit 56
names its low word; PTVA counts as required to be zero where PMODE = 0, and IDESC and ODESC beside a format code that is not 0, though R101
does not list them. DESIGN CHOICE, log 75. -/
def collChecks (r : BitVec 1024) (nrank : Nat) : List (Bool × Nat) :=
  let red := clRed r
  let code (c : Nat) : Bool := c == 0 || c == 2 || c == 4 || c == 5 || c == 6
  let widths := match clFmts r with
    | some (a, b) => a.cw == b.cw
    | none => true
  let desc (c : Nat) (d : BitVec 32) : Bool := if red && c == 0 then nfValid d else d == 0#32
  [ (decide (clKind r ≤ 3) && recFld r 0 0 8 == 0 &&
      (if red then code (clIfmt r) && code (clOfmt r) && widths else clIfmt r == 0 && clOfmt r == 0), 0),
    (recFld r 1 11 5 == 0 &&
      (if red then decide (1 ≤ clContrib r) && decide (clContrib r ≤ 1152) else clContrib r == 0), 1),
    (desc (clIfmt r) (recWord r 2), 2), (desc (clOfmt r) (recWord r 3), 3),
    (vaFits (clSbase r) && (clSbase r).toNat % 128 == 0, 4), (vaFits (clDbase r) && (clDbase r).toNat % 128 == 0, 6),
    (vaFits (clNva r) && (clNva r).toNat % 8 == 0 && !(clKind r == 1 && clNva r != 0), 8),
    (recFld r 10 21 11 == 0 && decide (128 ≤ clElen r) && decide (clElen r ≤ 0x100000) && clElen r % 128 == 0, 10),
    (recFld r 11 27 5 == 0 && recFld r 11 11 5 == 0 && decide (clPb r < clPn r) && decide (clPn r ≤ 1152) &&
      decide (clPn r ≤ nrank), 11) ] ++ ((upTo 4).flatMap (levelChecks r)) ++
  [ (recWord r 28 != 0#32, 28), (vaFits (clPtva r) && (clTable r || clPtva r == 0), 29), (recWord r 31 == 0#32, 31) ]

/-- The envelope of the local side (R230). -/
def State.collRange (s : State) (c : EngCmd) (base : Word) (str : Nat → Int) : List Range :=
  let r := c.recA
  let ks := upTo (clLevels r)
  let ext (f : Int → Int) : Int := ks.foldl (fun a k => a + f (((clBound r k - 1 : Nat) : Int) * str k)) 0
  s.rangeAt c.x c.asid base.toNat (ext (min 0)) (ext (max 0) + clElen r)

/-- coll (R230): the record, its checks, its semaphore, and its envelope. -/
def execColl (a : BitVec 5) (s : State) : Out :=
  let va := s.rs a
  match s.readRec .load va 128 with
  | .stop o => o
  | .ok s1 r =>
    match firstBad (collChecks r s.cx.collN.toNat) with
    | some w => s1.raise .coll va (BitVec.ofNat 64 w)
    | none =>
      if clSemen r && !s.semOk (clSem r) then s1.raise .semRange
      else
        let c := { s1.cmd .coll .cs with recA := r, sem := clSem r, n := 1 }
        let src := s1.collRange c (clSbase r) (clSstr r)
        let dst := s1.collRange c (clDbase r) (clDstr r)
        let k := clKind r
        s1.issueCmd { c with reads := if k == 1 then [] else src, writes := if k == 1 || k == 3 then dst else [] }

/-! ### The walker (R99, R102) -/

/-- The number of transfers. -/
def clTotal (r : BitVec 1024) : Nat := (upTo (clLevels r)).foldl (fun n k => n * clBound r k) 1
/-- The index of a level in transfer n, level 0 innermost. -/
def clIndex (r : BitVec 1024) : Nat → Nat → Nat
  | 0, n => n % clBound r 0
  | k + 1, n => (n / (upTo (k + 1)).foldl (fun m j => m * clBound r j) 1) % clBound r (k + 1)
/-- The sum over the levels of a coefficient times the index. -/
def clSum (r : BitVec 1024) (n : Nat) (f : Nat → Int) : Int :=
  (upTo (clLevels r)).foldl (fun a k => a + (clIndex r k n : Int) * f k) 0
/-- The source address of transfer n. -/
def clSrc (r : BitVec 1024) (n : Nat) : Word := clSbase r + BitVec.ofInt 64 (clSum r n (clSstr r))
/-- The destination address of transfer n. -/
def clDst (r : BitVec 1024) (n : Nat) : Word := clDbase r + BitVec.ofInt 64 (clSum r n (clDstr r))
/-- The peer index of transfer n. -/
def clPeer (r : BitVec 1024) (n : Nat) : Nat := ((clSum r n (clPa r) + clPb r) % (clPn r : Int)).toNat

/-- The device of transfer n: the peer table and the rank table, read through the CS permission (R102). -/
def State.collDev (s : State) (h : EngCmd) (n : Nat) : EngRes Nat :=
  let r := h.recA
  let t := h.xl .csRead .cs
  let c := s.ctx h.x
  let j := clPeer r n
  (if clTable r then (s.engRead t (clPtva r + BitVec.ofNat 64 (2 * j)) 2).bind fun bs => .ok (bytesNat bs) else .ok j).bind
    fun rank =>
      if c.collN.toNat ≤ rank then .bad { name := .collPeer }
      else
        (s.engRead t (BitVec.ofNat 64 (c.collBase.toNat * 4096 + 4 * rank)) 4).bind fun bs =>
          let w := bytesNat bs
          if 2 ^ 11 ≤ w then .bad { name := .collPeer } else .ok w

/-- The command has emitted its last chunk. -/
def EngCmd.emitted (h : EngCmd) : Bool := h.redo.isEmpty && decide (clTotal h.recA ≤ h.xfer)

/-- The command whose walk is under way in the CS queue (R99): the first COLL that has chunks to emit, behind COLLs only, none of which has
a fault that stops emission (R107). -/
def walking : List EngCmd → Option EngCmd
  | [] => none
  | h :: r =>
    if h.kind != .coll || h.ended || h.pageFault.isSome then none else if h.emitted then walking r else some h

/-- Change a command of a core's CS queue. -/
def State.onCs (s : State) (c : CoreId) (id : Nat) (f : EngCmd → EngCmd) : State :=
  s.onCore c fun k => { k with cs := { k.cs with cmds := k.cs.cmds.map fun y => if y.id == id then f y else y } }

/-- A COLL faults (R107, R223): its queue stops, for good where another fault has ended a COLL of it, and the fault is delivered to the stream
that issued it. -/
def State.collFault (s : State) (c : CoreId) (h : EngCmd) (f : FaultRec) : State :=
  let pos := (s.core c).position h
  let f := { f with eng := true, src := fsrcWord .cs pos 0 0 }
  if f.name.logOnly then
    (s.logFault c.dev (s.ctx h.x).asid f false (locWord h.slot h.x.ctx) 0).killOf ⟨h.x.core, 0, h.x.ctx⟩
  else
    let re := f.name.restartable
    let s1 := s.onCs c h.id fun y => { y with restart := true, started := none, pageFault := none, ended := y.ended || !re }
    let s2 := s1.onCore c fun k =>
      { k with cs := { k.cs with stop := if re && !(k.cs.cmds.any EngCmd.ended) then .restartable else .ended } }
    s2.pendFault h.x h.slot f

/-- A fault of a chunk reaches its command: one that is restartable waits for the outstanding chunks (R107). -/
def State.collTrouble (s : State) (c : CoreId) (h : EngCmd) (f : FaultRec) : State :=
  if !f.name.restartable || h.unacked.isEmpty then s.collFault c h f
  else s.onCs c h.id fun y => { y with pageFault := some f }

/-- The next chunk of a walk: its transfer, its offset and, after a transfer's first chunk, its target, those to be emitted again first. -/
def EngCmd.nextChunk (h : EngCmd) : Nat × Nat × Option Nat :=
  match h.redo with
  | p :: _ => (p.1, p.2.1, some p.2.2)
  | [] => (h.xfer, h.chunkOff, if h.chunkOff = 0 then none else h.xferDev)
/-- The walker goes past a chunk whose target is `dev`. -/
def EngCmd.pastChunk (h : EngCmd) (dev : Nat) : EngCmd :=
  match h.redo with
  | _ :: r => { h with redo := r }
  | [] =>
    if h.chunkOff + 4096 < clElen h.recA then { h with chunkOff := h.chunkOff + 4096, xferDev := some dev }
    else { h with xfer := h.xfer + 1, chunkOff := 0, xferDev := none }

/-- The chunk of a walk at a transfer and an offset (R103, R104): what is read locally is read now; a transfer's target is found once
(R102). Absent blocks of the presence bitmap are zero bytes, so a chunk carries its bytes whole. A local side in host memory is read and
written like any other: R103 names no outcome for it. DESIGN CHOICE, log 67. -/
def State.makeChunk (s : State) (c : CoreId) (h : EngCmd) (n off : Nat) (target : Option Nat) : EngRes Chunk :=
  let r := h.recA
  let len := min 4096 (clElen r - off)
  (match target with
    | some d => EngRes.ok d
    | none => s.collDev h n).bind fun dev =>
    let d := (clDst r n).toNat + off
    let base : Chunk := { id := s.nextId, kind := .write, cmd := h.id, core := c, x := h.x, dev := dev, asid := h.asid, dva := d,
                          bytes := [], xfer := n, off := off, recw := r }
    let src := clSrc r n + BitVec.ofNat 64 off
    if clKind r == 1 then
      (s.engXl (h.xl .csWrite .cs) (BitVec.ofNat 64 d) len).bind fun _ => .ok { base with kind := .getReq }
    else
      (s.engRead (h.xl .csRead .cs) src len h.cache).bind fun bs =>
        .ok { base with kind := if clRed r then .contrib else .write, bytes := bs }

/-- The chunks that a CS has unacknowledged (R107). -/
def Core.outstanding (k : Core) : Nat := k.cs.cmds.foldl (fun n h => n + h.unacked.length) 0
/-- COLL_TRANSFER_EMIT (R102, R104, R107, R222): the CS emits the next chunk of the walk, at most 64 being unacknowledged. -/
def execCollTransferEmit (c : CoreId) (s : State) : Out :=
  let k := s.core c
  if k.fenced || k.cs.stop != .going then .next s
  else
    match walking k.cs.cmds with
    | none => .next s
    | some h =>
      if 64 ≤ k.outstanding || h.after.any k.holds then .next s
      else if s.overdue c h then .next (s.collTrouble c h { name := .cycleBound })
      else
        let p := h.nextChunk
        match s.makeChunk c h p.1 p.2.1 p.2.2 with
        | .wait => .next s
        | .bad f => .next (s.collTrouble c h f)
        | .drop fl => .next (s.collTrouble c h { name := .machineCheck, detail := BitVec.ofNat 64 fl })
        | .ok ch =>
          let s1 := { s with nextId := s.nextId + 1, chunks := s.chunks ++ [ch] }
          .next (s1.onCs c h.id fun y =>
            let y := y.pastChunk ch.dev
            { y with unacked := y.unacked ++ [ch.id], restart := false, cache := [],
                     returns := if clKind h.recA == 3 then y.returns + 1 else y.returns,
                     started := y.started.orElse fun _ => some (s.dev c.dev).cycle })

/-! ### The remote side (R34, R103) -/

/-- An address of a window: the pod window, the supervisor window or the buffer windows (R30, R163, R292). -/
def isWindow (va : Nat) : Bool :=
  let top := va / 2 ^ 52
  (decide (0x10 ≤ top) && decide (top ≤ 0x1B)) || top == 0x1F
/-- Where a byte of the remote side lies: in device memory (R103), so that an entry of host memory maps none of it (log 67). -/
def State.remoteByte (s : State) (dev asid va : Nat) (e : PermEng) : Res Loc :=
  if 2 ^ 57 ≤ va then .bad (mkF .vaRange va)
  else if isWindow va then .bad (mkF .window va)
  else match s.translate dev asid va e.bit with
    | .bad f => .bad f
    | .ok (.kt d a k o) => if ((s.ktt d a).entries[k]?).any KttEntry.host then .bad (mkF .noMap va) else .ok (.kt d a k o)
    | .ok l => .ok l
/-- Translate n bytes at an address of another device under an address space (R103, R308). -/
def State.remoteXl (s : State) (dev asid va n : Nat) (e : PermEng) : EngRes (List Piece) :=
  if !s.pod.contains dev || (fget? (s.dev dev).ktts asid).isNone then .bad (mkF .remote va)
  else
    (engList (fun p => match s.remoteByte dev asid p.1 e with
      | .bad f => .bad f
      | .ok l => .ok (⟨l, p.2.1, p.2.2⟩ : Piece)) (cut va n)).bind fun ps => (engStop (s.firstStop ps)).bind fun _ => .ok ps

/-- Remove a chunk. -/
def State.dropChunk (s : State) (id : Nat) : State := { s with chunks := s.chunks.filter fun c => c.id != id }
/-- Replace a chunk in place. -/
def State.setChunk (s : State) (c : Chunk) : State :=
  { s with chunks := s.chunks.map fun d => if d.id == c.id then c else d }
/-- A chunk is done, with or without a fault: its acknowledgement is on its way (R107). -/
def State.ackChunk (s : State) (c : Chunk) (f : Option FaultRec) : State :=
  s.setChunk { c with kind := .acked, fault := f, bytes := [] }

/-- The core whose CS queue holds a command, where it stands now (R303). -/
def State.cmdCore (s : State) (dev id : Nat) : Option (CoreId × EngCmd) :=
  s.cores.findSome? fun p =>
    if p.1.dev == dev then (p.2.cs.cmds.find? fun h => h.id == id).map fun h => (p.1, h) else none
/-- A command stands in a saved image (R298). -/
def State.cmdSaved (s : State) (dev id : Nat) : Bool :=
  (s.dev dev).images.any fun p => p.2.queues.any fun h => h.id == id

/-- Add 1 to the notification counter (R100, R105): a relaxed atomic step at its visibility point. -/
def State.notify (s : State) (dev asid : Nat) (nva : Word) : EngRes State :=
  if nva == 0 then .ok s
  else (s.remoteXl dev asid nva.toNat 8 .csWrite).bind fun ps =>
    .ok (s.writePieces (natBytes 8 ((bytesNat (s.readPieces ps) + 1) % 2 ^ 64)) ps)

/-- Every other chunk of the transfer has been written: none is to be emitted, in flight, or faulted. -/
def State.lastOfTransfer (s : State) (c : Chunk) : Bool :=
  let others := s.chunks.any fun d => d.id != c.id && d.cmd == c.cmd && d.xfer == c.xfer && (d.kind == .write || d.fault.isSome)
  let more := match s.cmdCore c.core.dev c.cmd with
    | none => false
    | some (_, h) => decide (h.xfer ≤ c.xfer) || h.redo.any fun p => p.1 == c.xfer
  !others && !more

/-- Receive a chunk of a PUT (R103, R106): it takes effect at its home; after the transfer's last, the counter at NVA. -/
def State.recvWrite (s : State) (c : Chunk) : Out :=
  match s.remoteXl c.dev c.asid c.dva c.bytes.length .csWrite with
  | .wait => .next s
  | .bad f => .next (s.ackChunk c (some f))
  | .drop fl => .next (s.ackChunk c (some { name := .machineCheck, detail := BitVec.ofNat 64 fl }))
  | .ok ps =>
    let s1 := s.writePieces c.bytes ps
    if !s1.lastOfTransfer c then .next (s1.ackChunk c none)
    else match s1.notify c.dev c.asid (clNva c.recw) with
      | .ok s2 => .next (s2.ackChunk c none)
      | .wait => .next s
      | .bad f => .next (s1.ackChunk c (some f))
      | .drop fl => .next (s1.ackChunk c (some { name := .machineCheck, detail := BitVec.ofNat 64 fl }))

/-- Receive the request of a GET at its source (R103): the bytes are read there and travel back. -/
def State.recvGet (s : State) (c : Chunk) : Out :=
  let r := c.recw
  let len := min 4096 (clElen r - c.off)
  match s.remoteXl c.dev c.asid ((clSrc r c.xfer).toNat + c.off) len .csRead with
  | .wait => .next s
  | .bad f => .next (s.ackChunk c (some f))
  | .drop fl => .next (s.ackChunk c (some { name := .machineCheck, detail := BitVec.ofNat 64 fl }))
  | .ok ps => .next (s.setChunk { c with kind := .ret, bytes := s.readPieces ps })

/-- A write of the CS into its core's buffers that is made as a chunk arrives, for its place in the order of R32. -/
def EngCmd.csItem (h : EngCmd) (p : Piece) : PathItem :=
  { loc := p.loc, bytes := [], owner := none, x := h.x, cmd := some h.id }
/-- No write of a higher rank has reached a granule of the pieces in this cycle (R32). -/
def State.csTurn (s : State) (k : CoreId) (h : EngCmd) (ps : List Piece) : Bool :=
  ps.all fun p => s.writeTurn k (h.csItem p) (s.locate p.loc)
/-- The bytes of an arriving chunk take effect at the local side, as a write of the CS in the order of R32. -/
def State.csLand (s : State) (k : CoreId) (h : EngCmd) (ps : List Piece) (bs : List Byte) : State :=
  ps.foldl (fun s p => s.writeTaken k (h.csItem p) (s.locate p.loc)) (s.writePieces bs ps)

/-- A result of an ARSUM takes effect or faults at a device that contributed: its command counts one return less, or keeps
the fault of an access that can be made good, which it raises once its outstanding chunks are acknowledged (R106, R107). -/
def State.gotReturn (s : State) (c : Chunk) (k : CoreId) (h : EngCmd) (r : EngRes (List Piece)) : Out :=
  match r with
  | .ok ps =>
    if !s.csTurn k h ps then .next s
    else .next (((s.csLand k h ps c.bytes).dropChunk c.id).onCs k h.id fun y => { y with returns := y.returns - 1 })
  | .wait => .next s
  | .bad f =>
    .next (if (s.core k).cs.stop != .going || (s.core k).cs.cmds.any EngCmd.ended || h.pageFault.isSome then s
      else if f.name.restartable then s.collTrouble k h f
      else (s.dropChunk c.id).collFault k h f)
  | .drop fl => .next ((s.dropChunk c.id).collFault k h { name := .machineCheck, detail := BitVec.ofNat 64 fl })

/-- Receive a returned chunk at the device that issued the COLL (R103): the local side. -/
def State.recvRet (s : State) (c : Chunk) : Out :=
  match s.cmdCore c.core.dev c.cmd with
  | none => .next (if s.cmdSaved c.core.dev c.cmd then s else s.dropChunk c.id)
  | some (k, h) =>
    let r := s.engXl (h.xl .csWrite .cs) (BitVec.ofNat 64 c.dva) c.bytes.length
    if clKind c.recw == 3 then s.gotReturn c k h r
    else match r with
      | .wait => .next s
      | .bad f => .next (s.ackChunk c (some f))
      | .drop fl => .next (s.ackChunk c (some { name := .machineCheck, detail := BitVec.ofNat 64 fl }))
      | .ok ps => if !s.csTurn k h ps then .next s else .next ((s.csLand k h ps c.bytes).ackChunk c none)

/-- CHUNK_RECEIVE (R104): a chunk of a PUT, a GET, or the return of an ARSUM arrives. -/
def execChunkReceive (k : Nat) (s : State) : Out :=
  match s.chunks.find? fun c => c.id == k with
  | none => .next s
  | some c =>
    match c.kind with
    | .write => s.recvWrite c
    | .getReq => s.recvGet c
    | .ret => s.recvRet c
    | .contrib | .acked => .next s

/-! ### Reduction units (R105) -/

/-- What contributions with one key must agree in (R105): NCONTRIB, IFMT, OFMT, RMODE and the descriptors. -/
def redKey (r : BitVec 1024) : BitVec 128 :=
  BitVec.ofNat 128 (clContrib r + 2 ^ 11 * (recFld r 0 18 10) + 2 ^ 32 * (recWord r 2).toNat + 2 ^ 64 * (recWord r 3).toNat)

/-- The elements of a chunk as XR contributions. -/
def xrOf (r : BitVec 1024) (bs : List Byte) : List XrElem :=
  match clFmts r with
  | none => []
  | some (f, _) => (contElems f.cw (bs.length * 8 / f.cw) bs).map fun p => enterXr (decodeNum f.par p)

/-- Add a chunk into the sums of a slot. -/
def xrAdd (a b : List XrElem) : List XrElem := if a.isEmpty then b else (a.zip b).map fun p => xrAcc p.1 p.2

/-- The rounded chunk (R105). -/
def redRound (r : BitVec 1024) (xs : List XrElem) : List Byte :=
  match clFmts r with
  | none => []
  | some (_, f) => contBytes f.cw (xs.map fun x => (encodeNum f.par (clRm r) 0 (xrRead x)).1)

/-- The field that homes the first byte of translated pieces. -/
def State.homeOf (s : State) (ps : List Piece) : Nat :=
  match ps with
  | [] => 0
  | p :: _ => match s.locate p.loc with
    | .devMem d a | .beyond d a => Config.homeField d (a / 128) % 8
    | .hostMem d a => Config.homeField d (a / 128) % 8
    | _ => 0

/-- The lowest free slot of a unit; none when its 256 slots are taken. -/
def freeRed (red : FMap (Nat × Nat) RedSlot) (field : Nat) : Option Nat :=
  (upTo 256).find? fun i => (fget? red (field, i)).isNone

/-- Contributions that disagree end their slot: each contributing COLL receives COLL_MISMATCH (R105). -/
def State.mismatch (s : State) (dev field slot : Nat) (rs : RedSlot) (c : Chunk) : State :=
  let f : FaultRec := { name := .collMismatch }
  let s1 := s.onDev dev fun d => { d with red := fdel d.red (field, slot) }
  let s2 := s1.ackChunk c (some f)
  rs.got.foldl (fun s g =>
    { s with nextId := s.nextId + 1, chunks := s.chunks ++ [{ g with id := s.nextId, kind := .acked, fault := some f }] }) s2

/-- REDUCTION_CONTRIBUTION (R105): a chunk is added into the slot of its key at the field that homes it. A slot that holds all its
contributions takes no more: a further chunk of the key waits for the next slot. -/
def execReductionContribution (k : Nat) (s : State) : Out :=
  match s.chunks.find? fun c => c.id == k && c.kind == .contrib with
  | none => .next s
  | some c =>
    match s.remoteXl c.dev c.asid c.dva c.bytes.length .csWrite with
    | .wait => .next s
    | .bad f => .next (s.ackChunk c (some f))
    | .drop fl => .next (s.ackChunk c (some { name := .machineCheck, detail := BitVec.ofNat 64 fl }))
    | .ok ps =>
      let field := s.homeOf ps
      let red := (s.dev c.dev).red
      let key := redKey c.recw
      let put (i : Nat) (rs : RedSlot) : State :=
        let rs := { rs with got := rs.got ++ [{ c with bytes := [] }], sums := xrAdd rs.sums (xrOf c.recw c.bytes) }
        (s.onDev c.dev fun d => { d with red := fset d.red (field, i) rs }).ackChunk c none
      match red.find? fun p => p.1.1 == field && p.2.tag == clTag c.recw && p.2.d == c.dva with
      | some ((_, i), rs) => .next (if (rs.got.head?.any fun g => decide (clContrib g.recw ≤ rs.got.length)) then s
          else if rs.key != key then s.mismatch c.dev field i rs c else put i rs)
      | none =>
        match freeRed red field with
        | none => .next s
        | some i => .next (put i { tag := clTag c.recw, d := c.dva, asid := c.asid, key := key })

/-- REDUCTION_RESULT_WRITE (R105): every contribution is in: the unit rounds once, writes, sends the results of an ARSUM back,
and notifies. While d or NVA faults, be it for an absent page, PERM or NO_MAP, nothing is written, no fault is raised and the slot waits: no
rule names another outcome. DESIGN CHOICE, log 52. -/
def execReductionResultWrite (dev field slot : Nat) (s : State) : Out :=
  match fget? (s.dev dev).red (field, slot) with
  | none => .next s
  | some rs =>
    match rs.got with
    | [] => .next s
    | c :: _ =>
      let r := c.recw
      if rs.got.length < clContrib r then .next s
      else
        let bs := redRound r rs.sums
        match s.remoteXl dev rs.asid rs.d bs.length .csWrite with
        | .wait | .bad _ | .drop _ => .next s
        | .ok ps =>
          match (s.writePieces bs ps).notify dev rs.asid (clNva r) with
          | .wait | .bad _ | .drop _ => .next s
          | .ok s1 =>
            let s2 := s1.onDev dev fun d => { d with red := fdel d.red (field, slot) }
            .next (rs.got.foldl (fun s g =>
              if clKind g.recw == 3 then
                { s with nextId := s.nextId + 1, chunks := s.chunks ++ [{ g with id := s.nextId, kind := .ret, bytes := bs }] }
              else s) s2)

/-! ### Acknowledgement and completion (R106, R107) -/

/-- CHUNK_ACK (R107): the acknowledgement, or the fault, of a chunk reaches the CS that issued it. -/
def execChunkAck (k : Nat) (s : State) : Out :=
  match s.chunks.find? fun c => c.id == k && c.kind == .acked with
  | none => .next s
  | some c =>
    match s.cmdCore c.core.dev c.cmd with
    | none => .next (if s.cmdSaved c.core.dev c.cmd then s else s.dropChunk k)
    | some (core, h) =>
      let s1 := (s.dropChunk k).onCs core h.id fun y =>
        { y with unacked := y.unacked.erase k,
                 redo := if c.fault.isSome then y.redo ++ [(c.xfer, c.off, c.dev)] else y.redo,
                 returns := if c.fault.isSome && clKind y.recA == 3 then y.returns - 1 else y.returns }
      match s1.cmdCore c.core.dev c.cmd with
      | none => .next s1
      | some (core, h) =>
        let f := match h.pageFault with
          | some f => some f
          | none => c.fault
        match c.fault, f with
        | some g, _ => if !g.name.restartable then .next (s1.collFault core h g) else .next (s1.collTrouble core h g)
        | none, some f => if h.unacked.isEmpty then .next (s1.collFault core h f) else .next s1
        | none, none => .next s1

/-- The first COLL of a queue that has completed, behind COLLs only. -/
def finishedColl : List EngCmd → Option EngCmd
  | [] => none
  | h :: r =>
    if h.kind != .coll then none
    else if h.emitted && h.unacked.isEmpty && h.returns == 0 && h.pageFault.isNone then some h else finishedColl r

/-- COLL_COMPLETE (R106, R227): the COLL leaves the queue and signals its semaphore; an overflow is a fault of the stream
that issued it. -/
def execCollComplete (c : CoreId) (s : State) : Out :=
  match finishedColl (s.core c).cs.cmds with
  | none => .next s
  | some h =>
    let pos := (s.core c).position h
    let s1 := s.onCore c fun k => { k with cs := { k.cs with cmds := k.cs.cmds.filter fun y => y.id != h.id } }
    if !clSemen h.recA then .next s1
    else if !s.semTurn h.x h.sem (.sigEngine .cs) then .next s
    else match semAdd ((s.ctx h.x).sem h.sem) 1 with
      | some v => .next (s1.semStep h.x h.sem (.sigEngine .cs) v)
      | none => .next ((s1.semMark h.x h.sem (.sigEngine .cs)).pendFault h.x h.slot { name := .semOvf, eng := true, src := fsrcWord .cs pos 0 0 })

/-! ### Cycle bounds (R107, R222) -/

/-- Work remains of a command at the boundary where it stands: rows or units, or chunks to be emitted. -/
def EngCmd.workLeft (h : EngCmd) : Bool := if h.kind == .coll then !h.emitted else decide (h.row < h.total)
/-- CYCLE_BOUND_EXPIRY (R107, R222): the bound of the head command has passed and work remains: it stops at this boundary. -/
def execCycleBoundExpiry (c : CoreId) (e : Eng) (s : State) : Out :=
  match (s.core c).headReady e with
  | none => .next s
  | some h =>
    if !s.boundPassed c h || !h.workLeft || h.pageFault.isSome then .next s
    else if h.kind == .coll then .next (s.collTrouble c h { name := .cycleBound })
    else .next (s.engFault c e { name := .cycleBound })

end Sys2Proof.Machine
end

