-- ==== Sys2Proof/Machine/Vector.lean ====
section
/-!
DEFINITION. Machine/Vector.lean: elementwise arithmetic, logic, compare, select, data movement and predicates (R183 to
R192, R199).
-/
namespace Sys2Proof.Machine

/-! ### Shared operations -/

/-- A predicate register as something read: p0 is a constant. -/
def predRead (n : BitVec 4) : List Reg := if n == 0#4 then [] else [.p n]

/-- A masked WV instruction of element size sz (R184, R188): f takes the patterns of x, y and the old element of vD. -/
def State.vop3 (s : State) (sz : Nat) (pm : BitVec 3) (q : Bool) (vd : BitVec 6) (srcs : List (BitVec 6)) (useD : Bool)
    (lat : Nat) (f : Nat → Nat → Nat → Nat) : Out :=
  let d := s.vreg vd
  let xs := srcs.map (s.vsrc q)
  let m := s.preg (pmName pm)
  let n := 128 / sz
  let w := 8 * sz
  let reads := (srcRegs xs).map Reg.v ++ predRead m ++ (if useD then [.v d] else [])
  s.vecIssue (d :: srcRegs xs) reads (srcQs xs) [.v d] lat fun cyc st =>
    let val (k : Nat) : List Nat := match xs[k]? with
      | some x => elems (st.vval x) w n
      | none => List.replicate n 0
    let r := List.zipWith (fun (xy : Nat × Nat) z => f xy.1 xy.2 z) ((val 0).zip (val 1)) (elems (st.rv d) w n)
    st.willLand (cyc + lat) (.v d) (ofElems w r) (activeLanes sz (st.rp m))

/-- The signed value of a pattern of a type. -/
def tyInt (ty : VTy) (x : Nat) : Int := toSigned (8 * ty.size) x
/-- The pattern of an integer of a type. -/
def ofTyInt (ty : VTy) (x : Int) : Nat := wrapN (8 * ty.size) x
/-- The value of a pattern of a type. -/
def tyNum (ty : VTy) (x : Nat) : Num := decodeNum (tyFmt ty).par x
/-- The pattern of a value rounded to nearest even into a float type (R189). -/
def ofTyNum (ty : VTy) (x : Num) : Nat := (encodeNum (tyFmt ty).par .rne 0 x).1

/-- An operation on integers or on values, by the type. -/
def tyOp2 (ty : VTy) (fi : Int → Int → Int) (ff : Num → Num → Num) (x y : Nat) : Nat :=
  if ty.isFloat then ofTyNum ty (ff (tyNum ty x) (tyNum ty y)) else ofTyInt ty (fi (tyInt ty x) (tyInt ty y))

/-- A two-operand instruction of majors 0x10 to 0x15. -/
def State.varith (s : State) (ty : VTy) (pm : BitVec 3) (q : Bool) (vd vx vy : BitVec 6) (lat : Nat)
    (fi : Int → Int → Int) (ff : Num → Num → Num) : Out :=
  s.vop3 ty.size pm q vd [vx, vy] false lat fun x y _ => tyOp2 ty fi ff x y

/-! ### Elementwise arithmetic (R188, R189) -/

/-- vadd. -/
def execVadd (ty : VTy) (pm : BitVec 3) (q : Bool) (vd vx vy : BitVec 6) (s : State) : Out :=
  s.varith ty pm q vd vx vy 2 (· + ·) numAdd
/-- vsub. -/
def execVsub (ty : VTy) (pm : BitVec 3) (q : Bool) (vd vx vy : BitVec 6) (s : State) : Out :=
  s.varith ty pm q vd vx vy 2 (· - ·) fun x y => numAdd x (numNeg y)
/-- vmul. -/
def execVmul (ty : VTy) (pm : BitVec 3) (q : Bool) (vd vx vy : BitVec 6) (s : State) : Out :=
  s.varith ty pm q vd vx vy 3 (· * ·) numMul
/-- vfma: x × y + d, rounded once. -/
def execVfma (ty : VTy) (pm : BitVec 3) (q : Bool) (vd vx vy : BitVec 6) (s : State) : Out :=
  s.vop3 ty.size pm q vd [vx, vy] true 4 fun x y d =>
    if ty.isFloat then ofTyNum ty (numAdd (numMul (tyNum ty x) (tyNum ty y)) (tyNum ty d))
    else ofTyInt ty (tyInt ty x * tyInt ty y + tyInt ty d)
/-- vmin. -/
def execVmin (ty : VTy) (pm : BitVec 3) (q : Bool) (vd vx vy : BitVec 6) (s : State) : Out :=
  s.varith ty pm q vd vx vy 2 min numMin
/-- vmax. -/
def execVmax (ty : VTy) (pm : BitVec 3) (q : Bool) (vd vx vy : BitVec 6) (s : State) : Out :=
  s.varith ty pm q vd vx vy 2 max numMax
/-- vsll: 0 when the count reaches the width. -/
def execVsll (ty : VTy) (pm : BitVec 3) (q : Bool) (vd vx vy : BitVec 6) (s : State) : Out :=
  let w := 8 * ty.size
  s.vop3 ty.size pm q vd [vx, vy] false 2 fun x c _ => if w ≤ c then 0 else x * 2 ^ c % 2 ^ w
/-- vsrl: 0 when the count reaches the width. -/
def execVsrl (ty : VTy) (pm : BitVec 3) (q : Bool) (vd vx vy : BitVec 6) (s : State) : Out :=
  let w := 8 * ty.size
  s.vop3 ty.size pm q vd [vx, vy] false 2 fun x c _ => if w ≤ c then 0 else x / 2 ^ c
/-- vsra: all sign bits when the count reaches the width. -/
def execVsra (ty : VTy) (pm : BitVec 3) (q : Bool) (vd vx vy : BitVec 6) (s : State) : Out :=
  let w := 8 * ty.size
  s.vop3 ty.size pm q vd [vx, vy] false 2 fun x c _ => ofTyInt ty (tyInt ty x / 2 ^ (min c (w - 1)))

/-! ### Vector logic (R190): by byte lane -/

/-- vand. -/
def execVand (pm : BitVec 3) (q : Bool) (vd vx vy : BitVec 6) (s : State) : Out :=
  s.vop3 1 pm q vd [vx, vy] false 2 fun x y _ => x &&& y
/-- vor. -/
def execVor (pm : BitVec 3) (q : Bool) (vd vx vy : BitVec 6) (s : State) : Out :=
  s.vop3 1 pm q vd [vx, vy] false 2 fun x y _ => x ||| y
/-- vxor. -/
def execVxor (pm : BitVec 3) (q : Bool) (vd vx vy : BitVec 6) (s : State) : Out :=
  s.vop3 1 pm q vd [vx, vy] false 2 fun x y _ => x ^^^ y
/-- vandn: x AND NOT y. -/
def execVandn (pm : BitVec 3) (q : Bool) (vd vx vy : BitVec 6) (s : State) : Out :=
  s.vop3 1 pm q vd [vx, vy] false 2 fun x y _ => x &&& (255 - y)
/-- vnot: VY is not read. -/
def execVnot (pm : BitVec 3) (q : Bool) (vd vx : BitVec 6) (s : State) : Out :=
  s.vop3 1 pm q vd [vx] false 2 fun x _ _ => 255 - x

/-! ### Compare and select (R191) -/

/-- The result of a comparison of two patterns of a type. -/
def cmpTy (cc : CmpOp) (ty : VTy) (x y : Nat) : Bool :=
  if ty.isFloat then
    let a := tyNum ty x
    let b := tyNum ty y
    match cc with
    | .eq => numEq a b
    | .ne => !numEq a b
    | .lt | .ltu => numLt a b
    | .le | .leu => numLt a b || numEq a b
  else
    match cc with
    | .eq => x == y
    | .ne => x != y
    | .lt => decide (tyInt ty x < tyInt ty y)
    | .le => decide (tyInt ty x ≤ tyInt ty y)
    | .ltu => decide (x < y)
    | .leu => decide (x ≤ y)

/-- All s bits of each element, set or clear (R191, R199). -/
def predBits (sz : Nat) (bs : List Bool) : Vec := BitVec.ofNat 1024 (packElems sz (bs.map fun b => if b then 2 ^ sz - 1 else 0))

/-- Land a predicate. -/
def Stream.landPred (st : Stream) (land : Nat) (pd : BitVec 4) (v : Vec) : Stream := st.willLand land (.p pd) v allLanes

/-- vcmp. -/
def execVcmp (cc : CmpOp) (ty : VTy) (pd : BitVec 4) (vx vy : BitVec 6) (s : State) : Out :=
  let x := s.vreg vx
  let y := s.vreg vy
  let p := s.preg pd
  s.vecIssue [x, y] [.v x, .v y] [] [.p p] 2 fun cyc st =>
    st.landPred (cyc + 2) p (predBits ty.size (List.zipWith (cmpTy cc ty) (tyElems ty (st.rv x)) (tyElems ty (st.rv y))))

/-- vsel: bytes of vX where the predicate is 1, of vY elsewhere. -/
def execVsel (pm : BitVec 3) (vd vx vy : BitVec 6) (s : State) : Out :=
  let d := s.vreg vd
  let x := s.vreg vx
  let y := s.vreg vy
  let p := s.preg (pmName pm)
  s.vecIssue [d, x, y] ([.v x, .v y] ++ predRead p) [] [.v d] 2 fun cyc st =>
    st.willLand (cyc + 2) (.v d) (mergeLanes (st.rv y) (st.rv x) (st.rp p)) allLanes

/-! ### Data movement (R192) -/

/-- An unmasked instruction from vectors to a vector, with 2 cycles of latency. -/
def State.vmove (s : State) (vd : BitVec 6) (srcs : List (BitVec 6)) (f : List Vec → Vec) (n : Word := 4) : Out :=
  let d := s.vreg vd
  let xs := srcs.map s.vreg
  s.vecIssue (d :: xs) (xs.map Reg.v) [] [.v d] 2
    (fun cyc st => st.willLand (cyc + 2) (.v d) (f (xs.map st.rv)) allLanes) n

/-- Vector k of a list. -/
def nthV (vs : List Vec) (k : Nat) : Vec := vs[k]?.getD 0

/-- vmv. -/
def execVmv (vd vx : BitVec 6) (s : State) : Out := s.vmove vd [vx] fun vs => nthV vs 0
/-- Compact vmv (R126). -/
def execVmvCompact (vd vx : BitVec 6) (s : State) : Out := s.vmove vd [vx] (fun vs => nthV vs 0) 2
/-- vperm: element (u mod N) of vX, u from vY. -/
def execVperm (ty : VTy) (vd vx vy : BitVec 6) (s : State) : Out :=
  s.vmove vd [vx, vy] fun vs =>
    let xs := tyElems ty (nthV vs 0)
    ofTy ty ((tyElems ty (nthV vs 1)).map fun u => xs[u % ty.count]?.getD 0)
/-- vslideup: x[k − n] for k ≥ n, else 0. -/
def execVslideup (ty : VTy) (vd vx : BitVec 6) (y : BitVec 5) (s : State) : Out :=
  let n := min (s.rs y).toNat ty.count
  s.vmove vd [vx] fun vs => ofTy ty (List.replicate n 0 ++ (tyElems ty (nthV vs 0)).take (ty.count - n))
/-- vslidedn: x[k + n] for k + n < N, else 0. -/
def execVslidedn (ty : VTy) (vd vx : BitVec 6) (y : BitVec 5) (s : State) : Out :=
  let n := min (s.rs y).toNat ty.count
  s.vmove vd [vx] fun vs => ofTy ty ((tyElems ty (nthV vs 0)).drop n)
/-- vbcast: every element takes the low bits of sY. -/
def execVbcast (ty : VTy) (vd : BitVec 6) (y : BitVec 5) (s : State) : Out :=
  let x := (s.rs y).toNat
  s.vmove vd [] fun _ => ofTy ty (List.replicate ty.count x)
/-- vext: element k, sign-extended for integer types and zero-extended for float types; sD is interlocked. -/
def execVext (ty : VTy) (d : BitVec 5) (vx : BitVec 6) (k : BitVec 7) (s : State) : Out :=
  let x := s.vreg vx
  s.vecIssue [x] [.v x] [] [] 0 fun _ st =>
    let e := ((tyElems ty (st.rv x))[k.toNat]?).getD 0
    st.ws d (if ty.isFloat then BitVec.ofNat 64 e else BitVec.ofInt 64 (tyInt ty e))

/-! ### Predicates (R199) -/

/-- A predicate operation that lands after 2 cycles. -/
def State.predOp (s : State) (pd px py : BitVec 4) (f : Pred → Pred → Pred) : Out :=
  let d := s.preg pd
  let x := s.preg px
  let y := s.preg py
  s.vecIssue [] (predRead x ++ predRead y) [] [.p d] 2 fun cyc st =>
    st.landPred (cyc + 2) d ((f (st.rp x) (st.rp y)).setWidth 1024)

/-- pand. -/
def execPand (pd px py : BitVec 4) (s : State) : Out := s.predOp pd px py (· &&& ·)
/-- por. -/
def execPor (pd px py : BitVec 4) (s : State) : Out := s.predOp pd px py (· ||| ·)
/-- pxor. -/
def execPxor (pd px py : BitVec 4) (s : State) : Out := s.predOp pd px py (· ^^^ ·)
/-- pandn: X AND NOT Y. -/
def execPandn (pd px py : BitVec 4) (s : State) : Out := s.predOp pd px py fun x y => x &&& ~~~y
/-- pnot. -/
def execPnot (pd px : BitVec 4) (s : State) : Out := s.predOp pd px px fun x _ => ~~~x
/-- pfirst: the bits of element k are 1 when k < sY. -/
def execPfirst (ty : VTy) (pd : BitVec 4) (y : BitVec 5) (s : State) : Out :=
  let d := s.preg pd
  let n := (s.rs y).toNat
  s.vecIssue [] [] [] [.p d] 2 fun cyc st =>
    st.landPred (cyc + 2) d (predBits ty.size ((upTo ty.count).map fun k => decide (k < n)))
/-- pcnt: the number of one bits; sD is interlocked. -/
def execPcnt (d : BitVec 5) (px : BitVec 4) (s : State) : Out :=
  let x := s.preg px
  s.vecIssue [] (predRead x) [] [] 0 fun _ st => st.ws d (BitVec.ofNat 64 (popN 128 (st.rp x).toNat))

/-! ### Landing and retention as steps (R185, R186, R198) -/

/-- VECTOR_WRITE_LANDING: pending write k lands once its cycle has come; no earlier pending write to the same register
is due before it (R185). -/
def execVectorWriteLanding (sl : SlotId) (k : Nat) (s : State) : Out :=
  let st := s.strm sl
  match st.pend[k]? with
  | none => .next s
  | some w =>
    let earlier := st.pend.zipIdx.any fun p =>
      p.1.reg == w.reg && (decide (p.1.land < w.land) || (p.1.land == w.land && decide (p.2 < k)))
    if (s.dev sl.core.dev).cycle < w.land || earlier then .next s
    else .next (s.setStrm sl { st.land1 w with pend := st.pend.eraseIdx k })

/-- LATCH_WRITE_LANDING: the result of a latch lands once its cycle has come (R198). -/
def execLatchWriteLanding (sl : SlotId) (l : BitVec 2) (s : State) : Out :=
  .next (s.onStrm sl fun st => st.wl l ((st.rl l).land (s.dev sl.core.dev).cycle))

/-- BANK_RETENTION_ENTRY: a powered bank whose slot has issued nothing for 1,024 cycles, with no write pending, enters
retention (R186). -/
def execBankRetentionEntry (sl : SlotId) (b : BitVec 2) (s : State) : Out :=
  let st := s.strm sl
  let vb := match s.launchOf (s.xidOf sl) with
    | none => 4
    | some l => l.vbanks
  let idle := (s.dev sl.core.dev).cycle - st.idle
  if !st.present || vb ≤ b.toNat || idle < 1024 || !st.pend.isEmpty then .next s
  else .next (s.setStrm sl { st with ret := st.ret ||| BitVec.twoPow 4 b.toNat })

/-- BANK_WAKE: a bank that an instruction of the stream has named leaves retention (R186); its contents are unchanged. -/
def execBankWake (sl : SlotId) (b : BitVec 2) (s : State) : Out :=
  let st := s.strm sl
  let m := BitVec.twoPow 4 b.toNat &&& st.wake
  .next (s.setStrm sl { st with ret := st.ret &&& ~~~m, wake := st.wake &&& ~~~m })

end Sys2Proof.Machine
end

