-- ==== Sys2Proof/Machine/Convert.lean ====
section
/-!
DEFINITION. Machine/Convert.lean: VCVT, the tile registers and VCMPR48 (R193 to R195, R200 to R202).
-/
namespace Sys2Proof.Machine

/-! ### VCVT (R193 to R195) -/

/-- The format that an operand of VCVT names, read at issue (R193): none for an invalid table entry. -/
def Stream.cvtFmt (st : Stream) (tab : Bool) (code : BitVec 4) : Option Fmt :=
  let entry (n : BitVec 4) : Option Fmt := if nfValid (st.rfmt n) then some (.nf (st.rfmt n)) else none
  if tab then entry code
  else if 7 ≤ code.toNat then entry ((st.rlc (BitVec.ofNat 2 (code.toNat - 7))).setWidth 4)
  else codeFmt code.toNat

/-- Byte b of a word of four bytes. -/
def byteOf {n : Nat} (x : BitVec n) (b : Nat) : Byte := x.extractLsb' (8 * b) 8
/-- Replace byte b. -/
def setByte {n : Nat} (x : BitVec n) (b : Nat) (v : Byte) : BitVec n :=
  BitVec.ofNat n (x.toNat - (byteOf x b).toNat * 2 ^ (8 * b) + v.toNat * 2 ^ (8 * b))

/-- The blocks of 32 elements of a list. -/
def blocks32 {α : Type} : Nat → List α → List (List α)
  | 0, _ => []
  | k + 1, xs => if xs.isEmpty then [] else xs.take 32 :: blocks32 k (xs.drop 32)

/-- One block of a conversion: the scale byte used, and what comes out (R194). -/
def cvtBlock (ty : VTy) (f : Fmt) (dirFrom auto : Bool) (rm : RMode) (uthr : BitVec 6) (vsc : BitVec 32) (vcnt : Word)
    (b : Nat) (xs : List Num) : Byte × BlockOut :=
  if dirFrom then
    let sc := byteOf vsc b
    if sc == 0x80#8 then (sc, ⟨xs.map fun _ => 0, 0, 0⟩)
    else
      let os := xs.map (encodeNum (tyFmt ty).par rm (-sc.toInt))
      (sc, ⟨os.map fun o => o.1, (os.filter fun o => o.2.1).length, (os.filter fun o => o.2.2).length⟩)
  else
    let sc := if auto then chooseScale xs f.par uthr (byteOf vcnt b) else byteOf vsc b
    (sc, convBlock f.par rm sc xs)

/-- Write the scale bytes and the counts of the converted blocks (R194, R195). -/
def Stream.cvtCounts (st : Stream) (auto : Bool) (rs : List (Byte × BlockOut)) : Stream :=
  rs.zipIdx.foldl (fun st p =>
    let b := p.2
    let c := setByte (setByte st.vcnt b (BitVec.ofNat 8 p.1.2.uf)) (b + 4) (BitVec.ofNat 8 p.1.2.ls)
    { st with vcnt := c, vsc := if auto then setByte st.vsc b p.1.1 else st.vsc }) st

/-- vcvt (R193, R194). -/
def execVcvt (ty : VTy) (dirFrom auto : Bool) (rm : RMode) (tab : Bool) (code : BitVec 4) (vd vx : BitVec 6) (s : State) :
    Out :=
  let d := s.vreg vd
  let x := s.vreg vx
  match s.st.cvtFmt tab code with
  | none => s.raise .fmtDesc
  | some f =>
    if 8 * ty.size < f.cw then s.raise .cvtWidth
    else
      s.vecIssue [d, x] [.v x] [] [.v d] 4 fun cyc st =>
        let inW := if dirFrom then f.cw else 8 * ty.size
        let outW := if dirFrom then 8 * ty.size else f.cw
        let inP := if dirFrom then f.par else (tyFmt ty).par
        let xs := (elems (st.rv x) inW ty.count).map (decodeNum inP)
        let rs := (blocks32 4 xs).zipIdx.map fun p => cvtBlock ty f dirFrom auto rm st.uthr st.vsc st.vcnt p.2 p.1
        (st.cvtCounts auto rs).willLand (cyc + 4) (.v d) (ofElems outW (rs.flatMap fun r => r.2.pats)) allLanes

/-! ### Tile registers (R200, R201) -/

/-- A cell of a tile register: row, column. -/
def cellOf (t : BitVec 32768) (r c : Nat) : BitVec 32 := t.extractLsb' (1024 * r + 32 * c) 32
/-- Replace a row of a tile register. -/
def setRow (t : BitVec 32768) (r : Nat) (cells : Nat) : BitVec 32768 :=
  let old := (t.extractLsb' (1024 * r) 1024).toNat
  BitVec.ofNat 32768 (t.toNat - old * 2 ^ (1024 * r) + cells % 2 ^ 1024 * 2 ^ (1024 * r))

/-- Widen (R201). -/
def widen (ty : VTy) (x : Nat) : Nat :=
  match ty with
  | .i8 | .i16 => wrapN 32 (tyInt ty x)
  | .f16 | .bf16 => (encodeNum Fmt.fp32.par .rne 0 (tyNum ty x)).1
  | .i32 | .f32 | .i64 => x % 2 ^ 32

/-- Narrow (R201). -/
def narrow (ty : VTy) (c : Nat) : Nat :=
  let i := toSigned 32 c
  match ty with
  | .i8 => wrapN 8 (clampI (-128) 127 i)
  | .i16 => wrapN 16 (clampI (-32768) 32767 i)
  | .f16 | .bf16 => ofTyNum ty (decodeNum Fmt.fp32.par c)
  | .i32 | .f32 | .i64 => c

/-- A tile register of the stream. -/
def Stream.rtx (st : Stream) (t : BitVec 1) : BitVec 32768 := st.tx[t.toNat]'t.isLt

/-- twr (R201): the write is interlocked. -/
def execTwr (ty : VTy) (p : BitVec 2) (t : BitVec 1) (row : BitVec 5) (vx : BitVec 6) (s : State) : Out :=
  let x := s.vreg vx
  s.vecIssue [x] [.v x] [] [] 0 fun _ st =>
    let xs := ((tyElems ty (st.rv x)).drop (32 * p.toNat)).take 32
    { st with tx := st.tx.set t.toNat (setRow (st.rtx t) row.toNat (packElems 32 (xs.map (widen ty)))) t.isLt }

/-- trd (R201): the other elements of vD keep their values. -/
def execTrd (ty : VTy) (p : BitVec 2) (vd : BitVec 6) (t : BitVec 1) (col : BitVec 5) (s : State) : Out :=
  let d := s.vreg vd
  s.vecIssue [d] [] [] [.v d] 3 fun cyc st =>
    let tx := st.rtx t
    let xs := (upTo 32).map fun i => narrow ty (cellOf tx i col.toNat).toNat
    let n := 32 * ty.size
    let v : Vec := ofTy ty (List.replicate (32 * p.toNat) 0 ++ xs)
    let lanes : Pred := BitVec.ofNat 128 ((2 ^ n - 1) * 2 ^ (n * p.toNat))
    st.willLand (cyc + 3) (.v d) v lanes

/-! ### Compress (R202) -/

/-- Groups of eight. -/
def groups8 {α : Type} : Nat → List α → List (List α)
  | 0, _ => []
  | k + 1, xs => if xs.isEmpty then [] else xs.take 8 :: groups8 k (xs.drop 8)

/-- The kept elements and the metadata words of a vector of elements of w bits with the values of a format (R59, R60,
R202); the bits of a container above the format's width are written as zero (R43). -/
def compress48 (w : Nat) (p : Par) (v : Vec) : Vec × Vec :=
  let gs := groups8 32 (elems v w (1024 / w))
  let ks := gs.map fun g => (g, kept4 (g.map (decodeNum p)))
  (ofElems w (ks.flatMap fun g => g.2.map fun i => g.1[i]?.getD 0 % 2 ^ p.w), ofElems 16 (ks.map fun g => metaWord g.2))

/-- Compress vX into vD and vM; both land after 4 cycles. -/
def State.compress (s : State) (w : Nat) (p : Par) (vd vm vx : BitVec 6) : Out :=
  let d := s.vreg vd
  let m := s.vreg vm
  let x := s.vreg vx
  s.vecIssue [d, m, x] [.v x] [] [.v d, .v m] 4 fun cyc st =>
    let r := compress48 w p (st.rv x)
    (st.willLand (cyc + 4) (.v d) r.1 allLanes).willLand (cyc + 4) (.v m) r.2 allLanes

/-- vcmpr48.ty (R202). -/
def execVcmpr48 (ty : VTy) (vd vm vx : BitVec 6) (s : State) : Out := s.compress (8 * ty.size) (tyFmt ty).par vd vm vx

/-- vcmpr48.lcN (R202): an invalid table entry is FMT_DESC. -/
def execVcmpr48Lc (n : BitVec 2) (vd vm vx : BitVec 6) (s : State) : Out :=
  let e := s.st.rfmt ((s.st.rlc n).setWidth 4)
  if !nfValid e then s.raise .fmtDesc else s.compress (Fmt.nf e).cw (nfPar e) vd vm vx

end Sys2Proof.Machine
end

