-- ==== Sys2Proof/Machine/Copy.lean ====
section
/-!
DEFINITION. Machine/Copy.lean: the copy engine: copy records and their checks (R217 to R220), its ranges (R221), and the
steps of its commands.
-/
namespace Sys2Proof.Machine

/-! ### Copy records (R217) -/

/-- Rows of a copy. -/
def cpRows (r : BitVec 1024) : Nat := recFld r 1 0 16 + 1
/-- ROWBYTES of a copy: source bytes per row; with EXPAND, the bytes of output. -/
def cpBytes (r : BitVec 1024) : Nat := recFld r 2 0 21
/-- SFCODE. -/
def cpSf (r : BitVec 1024) : Nat := recFld r 0 28 4
/-- DFCODE. -/
def cpDf (r : BitVec 1024) : Nat := recFld r 0 24 4
/-- TRANS. -/
def cpTrans (r : BitVec 1024) : Bool := r.getLsbD 21
/-- EXPAND. -/
def cpExpand (r : BitVec 1024) : Bool := r.getLsbD 20
/-- XRATIO. -/
def cpRatio (r : BitVec 1024) : Nat := recFld r 0 17 3
/-- The rounding mode. -/
def cpRm (r : BitVec 1024) : RMode :=
  match recFld r 0 22 2 with
  | 0 => .rne | 1 => .rtz | 2 => .rup | _ => .rdn
/-- Source VA. -/
def cpSva (r : BitVec 1024) : Word := rec64 r 3
/-- Destination VA. -/
def cpDva (r : BitVec 1024) : Word := rec64 r 5
/-- Source row stride. -/
def cpSstr (r : BitVec 1024) : Int := recInt r 7
/-- Destination row stride. -/
def cpDstr (r : BitVec 1024) : Int := recInt r 8
/-- Index array VA. -/
def cpIva (r : BitVec 1024) : Word := rec64 r 12

/-- The checks of a copy record in the order of its words (R217, R218, R220). -/
def copyChecks (k : CmdKind) (r : BitVec 1024) : List (Bool × Nat) :=
  let x := k == .cpyx
  let ix := k == .gth || k == .sct
  let e := cpExpand r
  let desc (code : Nat) (d : BitVec 32) : Bool := if x && code == 0 then nfValid d else d == 0#32
  [ (recFld r 0 0 17 == 0 && (x || recFld r 0 21 11 == 0) && (!e || k == .cpy) && decide (cpRatio r ≤ 5) &&
      (e || cpRatio r == 0) && decide (cpSf r ≤ 10) && decide (cpDf r ≤ 10), 0),
    (recFld r 1 16 16 == 0 && (!e || cpRows r == 1), 1),
    (recFld r 2 21 11 == 0 && decide (1 ≤ cpBytes r) && decide (cpBytes r ≤ 0x100000) && (!e || cpBytes r % 128 == 0), 2),
    (vaFits (cpSva r), 3), (vaFits (cpDva r), 5), (!e || cpSstr r == 0, 7),
    (desc (cpSf r) (recWord r 9), 9), (desc (cpDf r) (recWord r 10), 10), (recWord r 11 != 0#32, 11),
    (if ix then vaFits (cpIva r) && (cpIva r).toNat % 4 == 0 else cpIva r == 0, 12),
    (recWord r 14 == 0#32, 14), (recWord r 15 == 0#32, 15) ]

/-- A check of a width, which an invalid entry of the format table does not give (R46). -/
def ifWidth (w : Option Nat) (p : Nat → Bool) : Bool := match w with
  | some n => p n
  | none => true
/-- The checks of a CPYX that need the container widths (R218): a transposed row takes whole bytes whatever its elements. -/
def cpyxChecks (r : BitVec 1024) (cs cd : Option Nat) : List (Bool × Nat) :=
  let bits := cpBytes r * 8
  let t := cpTrans r
  [ (!t || ifWidth cs fun cs => decide (8 ≤ cs), 0), (!t || decide (cpRows r ≤ 256), 1),
    (ifWidth cs fun cs => !(t && decide (256 < bits / cs)) && bits % cs == 0 &&
      (t || ifWidth cd fun cd => (cpBytes r * cd) % cs == 0), 2) ]

/-- COPY_REC (R217, R290). -/
def copyRec (va : Word) (w : Nat) : FaultRec := { name := .copyRec, faddr := va, detail := BitVec.ofNat 64 w }

/-- The destination rows of a copy and their length (R218), for container widths cs and cd. -/
def cpDest (r : BitVec 1024) (cs cd : Nat) : Nat × Nat :=
  if cpTrans r then (cpBytes r * 8 / cs, ceilDiv (cpRows r * cd) 8) else (cpRows r, cpBytes r * cd / cs)

/-- The container widths of a command: equal when it does not convert. -/
def EngCmd.widths (h : EngCmd) : Nat × Nat :=
  match h.fmtA, h.fmtB with
  | some a, some b => (a.cw, b.cw)
  | _, _ => (8, 8)

/-- The copy is made in place (R219). -/
def EngCmd.inPlace (h : EngCmd) : Bool :=
  let r := h.recA
  let w := h.widths
  (h.kind == .cpy || (h.kind == .cpyx && w.1 == w.2 && !cpTrans r)) && !cpExpand r && cpSva r == cpDva r &&
    cpSstr r == cpDstr r && cpBytes r == (cpDest r w.1 w.2).2

/-- The ranges of an indexed side over every INT32 index (R221). -/
def State.wideRange (s : State) (c : EngCmd) (va : Word) (stride : Int) (len : Nat) : List Range :=
  let m := stride.natAbs
  s.rangeAt c.x c.asid va.toNat (-(2 ^ 31 * m : Nat)) ((2 ^ 31 - 1) * m + len : Nat)

/-- The envelope of the source (R219). -/
def State.srcEnv (s : State) (c : EngCmd) : List Range := s.envelope c (cpSva c.recA) (cpRows c.recA) (cpSstr c.recA) (cpBytes c.recA)
/-- The envelope of the destination (R219). -/
def State.dstEnv (s : State) (c : EngCmd) : List Range :=
  let d := cpDest c.recA c.widths.1 c.widths.2
  s.envelope c (cpDva c.recA) d.1 (cpDstr c.recA) d.2

/-- The ranges of a copy command (R221). -/
def State.copyRanges (s : State) (c : EngCmd) : EngCmd :=
  let r := c.recA
  let d := cpDest r c.widths.1 c.widths.2
  let idx := s.rangeAt c.x c.asid (cpIva r).toNat 0 (4 * cpRows r : Nat)
  match c.kind with
  | .gth => { c with reads := idx ++ s.wideRange c (cpSva r) (cpSstr r) (cpBytes r), writes := s.dstEnv c }
  | .sct => { c with reads := idx ++ s.srcEnv c, writes := s.wideRange c (cpDva r) (cpDstr r) d.2 }
  | _ => { c with reads := s.srcEnv c, writes := s.dstEnv c }

/-- The window rule of the first byte of a side (R29, R30, R217). -/
def State.sideBad (s : State) (t : Xl) (va : Word) : Option FaultRec :=
  if !inWindow va then none else match s.xlWindow t va.toNat with
    | .bad f => some f
    | .ok _ => none

/-- The window rules of both sides; an indexed side is checked row by row. -/
def State.sidesBad (s : State) (c : EngCmd) : Option FaultRec :=
  let src := if c.kind == .gth then none else s.sideBad (c.xl .ceSrc .ceSrc) (cpSva c.recA)
  match src with
  | some f => some f
  | none => if c.kind == .sct then none else s.sideBad (c.xl .ceDst .ceDst) (cpDva c.recA)

/-- COPY_OVERLAP of a command that would take a position in the CE queue. -/
def overlapFault (pos : Nat) : FaultRec := { name := .copyOverlap, eng := true, src := fsrcWord .ce pos 0 0 }

/-- Issue a copy whose record is read and checked and whose formats are resolved (R217 to R221). -/
def State.issueChecked (s : State) (c : EngCmd) : Out :=
  match s.sidesBad c with
  | some f => s.raiseRec f
  | none =>
    let ix := c.kind == .gth || c.kind == .sct
    if !ix && c.descVa.isNone && rangesMeet (s.srcEnv c) (s.dstEnv c) && !c.inPlace then
      s.raiseRec (overlapFault (s.core c.x.core).ce.cmds.length)
    else s.issueCmd (s.copyRanges c)

/-- Issue CPY, CPYX, GTH or SCT (R204, R217, R218). -/
def State.issueCopy (s : State) (k : CmdKind) (a : BitVec 5) : Out :=
  let va := s.rs a
  match s.readRec .load va 64 with
  | .stop o => o
  | .ok s1 r =>
    match firstBad (copyChecks k r) with
    | some w => s1.raiseRec (copyRec va w)
    | none =>
      let c := { s1.cmd k .ce with recA := r, rm := cpRm r }
      if k == .cpyx then
        let fs := s.st.recFmt (cpSf r) (recWord r 9)
        let fd := s.st.recFmt (cpDf r) (recWord r 10)
        match firstBad (cpyxChecks r (fs.map Fmt.cw) (fd.map Fmt.cw)) with
        | some w => s1.raiseRec (copyRec va w)
        | none => s1.issueChecked { c with fmtA := fs, fmtB := fd, descVa := if fs.isSome && fd.isSome then none else some va }
      else s1.issueChecked c

/-- cpy (R218). -/
def execCpy (a : BitVec 5) (s : State) : Out := s.issueCopy .cpy a
/-- cpyx (R218). -/
def execCpyx (a : BitVec 5) (s : State) : Out := s.issueCopy .cpyx a
/-- gth (R218). -/
def execGth (a : BitVec 5) (s : State) : Out := s.issueCopy .gth a
/-- sct (R218). -/
def execSct (a : BitVec 5) (s : State) : Out := s.issueCopy .sct a

/-! ### Steps of the CE (R218 to R220) -/

/-- A piece lies in a region whose layout is zero-elided (R220, R304, R308). -/
def State.elided (s : State) (p : Piece) : Bool :=
  let lay (d asid k : Nat) : Bool := match (s.ktt d asid).entries[k]? with
    | none => false
    | some e => e.layout == 2#2
  match p.loc with
  | .kt d asid k _ => lay d asid k
  | .remote d asid va bit => (match s.translate d asid va bit with
    | .ok (.kt d asid k _) => lay d asid k
    | _ => false)
  | .sup _ _ | .buf _ _ _ | .mcast _ _ _ | .void => false

/-- Translate a row of the source and check its layout (R220); what GTH gathers is not read through the CE source. -/
def State.srcRow (s : State) (h : EngCmd) (va : Word) (n : Nat) : EngRes (List Byte) :=
  let gth := h.kind == .gth
  (engLoc (s.xlAccess (h.xl (if gth then .gather else .ceSrc) .ceSrc) va n)).bind fun ps =>
    if !gth && ps.any fun p => s.elided p != cpExpand h.recA then .bad { name := .copyLayout } else s.engPieces h.cache va ps

/-- Convert elements (R218). -/
def EngCmd.convert (h : EngCmd) (bs : List Byte) : List Nat :=
  match h.fmtA, h.fmtB with
  | some fs, some fd =>
    (contElems fs.cw (bs.length * 8 / fs.cw) bs).map fun p => (encodeNum fd.par h.rm 0 (decodeNum fs.par p)).1
  | _, _ => bs.map BitVec.toNat

/-- The index of row i of GTH or SCT. -/
def EngCmd.index (h : EngCmd) (i : Nat) : Int := h.idx[i]?.getD 0
/-- The source address of row i. -/
def EngCmd.srcVa (h : EngCmd) (i : Nat) : Word :=
  rowVa (cpSva h.recA) (if h.kind == .gth then h.index i else i) (cpSstr h.recA)
/-- The destination address of row i. -/
def EngCmd.dstVa (h : EngCmd) (i : Nat) : Word :=
  rowVa (cpDva h.recA) (if h.kind == .sct then h.index i else i) (cpDstr h.recA)

/-- The writes of one element of each destination row of a transpose (R218): w bytes each. -/
def State.transWrites (s : State) (c : CoreId) (h : EngCmd) (i off : Nat) : List (Nat × List Byte) → EngRes State
  | [] => .ok s
  | (e, bs) :: r =>
    (s.engXl (h.xl .ceDst .ceDst) (rowVa (cpDva h.recA) e (cpDstr h.recA) + BitVec.ofNat 64 off) bs.length).bind fun ps =>
      (s.engWrite c h i ps bs).transWrites c h i off r

/-- Row i of a transpose. Two source rows share a byte of 4-bit elements: the first of them writes it with its upper half 0, the second
in full. -/
def State.transRow (s : State) (c : CoreId) (h : EngCmd) (i : Nat) : EngRes State :=
  let cd := h.widths.2
  let n := cpBytes h.recA
  (s.srcRow h (h.srcVa i) n).bind fun bs =>
    let xs := h.convert bs
    if cd = 4 then
      if i % 2 = 0 then s.transWrites c h i (i / 2) (xs.zipIdx.map fun p => (p.2, [BitVec.ofNat 8 p.1]))
      else
        (s.srcRow h (h.srcVa (i - 1)) n).bind fun bs0 =>
          s.transWrites c h i (i / 2) (((h.convert bs0).zip xs).zipIdx.map fun p =>
            (p.2, [BitVec.ofNat 8 (p.1.1 + 16 * p.1.2)]))
    else s.transWrites c h i (i * (cd / 8)) (xs.zipIdx.map fun p => (p.2, natBytes (cd / 8) p.1))

/-- Row i of a copy, a gather or a scatter: both sides are translated before any byte is written. -/
def State.copyRow (s : State) (c : CoreId) (h : EngCmd) (i : Nat) : EngRes State :=
  if h.kind == .cpyx && cpTrans h.recA then s.transRow c h i
  else
    let len := (cpDest h.recA h.widths.1 h.widths.2).2
    (s.srcRow h (h.srcVa i) (cpBytes h.recA)).bind fun bs =>
      (s.engXl (h.xl .ceDst .ceDst) (h.dstVa i) len).bind fun ps =>
        let out := if h.kind == .cpyx then contBytes h.widths.2 (h.convert bs) else bs
        .ok (s.engWrite c h i ps out)

/-- The envelope of an indexed side with its indices (R219). -/
def State.idxEnv (s : State) (h : EngCmd) (va : Word) (stride : Int) (len : Nat) : List Range :=
  let offs := h.idx.map fun i => i * stride
  let lo := offs.foldl min (offs.headD 0)
  let hi := offs.foldl max (offs.headD 0)
  s.rangeAt h.x h.asid va.toNat lo (hi + len)

/-- Fetch the indices ahead of the data and compare the envelopes (R218, R219). -/
def State.fetchIdx (s : State) (c : CoreId) (h : EngCmd) : EngRes State :=
  let r := h.recA
  let n := cpRows r
  (s.engRead (h.xl .gather .ceSrc) (cpIva r) (4 * n) h.cache).bind fun bs =>
    let h := { h with idx := (elemsFrom n 32 (bytesNat bs)).map (toSigned 32) }
    let src := if h.kind == .gth then s.idxEnv h (cpSva r) (cpSstr r) (cpBytes r) else s.srcEnv h
    let dst := if h.kind == .sct then s.idxEnv h (cpDva r) (cpDstr r) (cpBytes r) else s.dstEnv h
    if rangesMeet src dst then .bad { name := .copyOverlap }
    else .ok (s.onHead c .ce fun y => { y with idx := h.idx, checked := true, cache := [] })

/-- The command at the head of the CE queue. -/
def State.ceHead (s : State) (c : CoreId) : Option EngCmd := (s.core c).headReady .ce

/-- CE_ROW_MOVE (R218): one row of CPY, CPYX, GTH or SCT; the indices of GTH and SCT are fetched first. -/
def execCeRowMove (c : CoreId) (s : State) : Out :=
  match s.ceHead c with
  | none => .next s
  | some h =>
    let rows (s : State) : Out :=
      s.rowStep c .ce h (cpRows h.recA) fun i => (s.copyRow c h i).bind fun s1 => .ok (s1.rowDone c .ce h i)
    match h.kind with
    | .cpy => if cpExpand h.recA then .next s else rows s
    | .cpyx => rows s
    | .gth | .sct => if h.checked then rows s else s.engStep c .ce (s.fetchIdx c h)
    | _ => .next s

/-- The output of a unit of a zero-elided stream (R104, R220): absent blocks are 0x00. -/
def expandUnit : Nat → Nat → List Byte → List Byte
  | 0, _, _ => []
  | k + 1, bm, bs =>
    if bm % 2 = 1 then bs.take 128 ++ expandUnit k (bm / 2) (bs.drop 128)
    else List.replicate 128 0 ++ expandUnit k (bm / 2) bs

/-- One unit of a zero-elided stream (R220): its bitmap, the check of the declared bound, whose fault names the unit by its address
(log 66), its blocks, and its output. -/
def State.unitStep (s : State) (c : CoreId) (h : EngCmd) (u : Nat) : EngRes State :=
  let r := h.recA
  let k := min 32 (cpBytes r / 128 - 32 * u)
  let off := (h.idx[u]?.getD 0).toNat
  let at_ (o : Nat) : Word := cpSva r + BitVec.ofNat 64 o
  (s.srcRow h (at_ off) 4).bind fun bm =>
    let m := bytesNat bm % 2 ^ k
    let n := popN k m
    if n < ceilDiv k (2 ^ cpRatio r) then .bad { name := .expansion, faddr := at_ off }
    else
      (if n = 0 then .ok [] else s.srcRow h (at_ (off + 4)) (128 * n)).bind fun bs =>
        (s.engXl (h.xl .ceDst .ceDst) (cpDva r + BitVec.ofNat 64 (4096 * u)) (128 * k)).bind fun ps =>
          let s1 := s.engWrite c h u ps (expandUnit k m bs)
          .ok ((s1.rowDone c .ce h u).onHead c .ce fun y =>
            { y with idx := (List.range (u + 2)).map fun j =>
                if j = u + 1 then ((off + 4 + 128 * n : Nat) : Int) else h.idx[j]?.getD 0 })

/-- EXPAND_UNIT_WRITE (R220). -/
def execExpandUnitWrite (c : CoreId) (s : State) : Out :=
  match s.ceHead c with
  | none => .next s
  | some h =>
    if h.kind == .cpy && cpExpand h.recA then s.rowStep c .ce h h.total (s.unitStep c h) else .next s

end Sys2Proof.Machine
end

