-- ==== Sys2Proof/Machine/Flow.lean ====
section
/-!
DEFINITION. Machine/Flow.lean: branches, calls, loops, release-caller, tails, fork and join, ending, trapping, time and
issue (R142 to R161).
-/
namespace Sys2Proof.Machine

/-! ### Branches and jumps (R142 to R144) -/

/-- Control goes to the header at t (R142). -/
def State.jump (s : State) (t : Word) : Out :=
  .next (s.onSt fun st => { st.goTo (.atHeader t) with status := .running, wait := .none })

/-- A conditional branch (R143): taken to PC + 2 × sext(OFF), else past the instruction. -/
def State.branch (s : State) (c : Bool) (off : BitVec 12) : Out :=
  if c then s.jump (wbTarget s.st.ex.pc off) else .next (s.adv 4)

/-- beq (R143). -/
def execBeq (a b : BitVec 5) (off : BitVec 12) (s : State) : Out := s.branch (s.rs a == s.rs b) off
/-- bne (R143). -/
def execBne (a b : BitVec 5) (off : BitVec 12) (s : State) : Out := s.branch (s.rs a != s.rs b) off
/-- blt, signed (R143). -/
def execBlt (a b : BitVec 5) (off : BitVec 12) (s : State) : Out := s.branch ((s.rs a).slt (s.rs b)) off
/-- bge, signed (R143). -/
def execBge (a b : BitVec 5) (off : BitVec 12) (s : State) : Out := s.branch (!(s.rs a).slt (s.rs b)) off
/-- bltu (R143). -/
def execBltu (a b : BitVec 5) (off : BitVec 12) (s : State) : Out := s.branch ((s.rs a).ult (s.rs b)) off
/-- bgeu (R143). -/
def execBgeu (a b : BitVec 5) (off : BitVec 12) (s : State) : Out := s.branch (!(s.rs a).ult (s.rs b)) off

/-- The target of jmp and call (R144). -/
def jmpTarget (pc : Word) (off : BitVec 22) : Word := pc + 2 * sx off

/-- jmp (R144). -/
def execJmp (off : BitVec 22) (s : State) : Out := s.jump (jmpTarget s.st.ex.pc off)

/-- The register target of jr and callr (R142). -/
def State.regTarget (s : State) (a : BitVec 5) (off : BitVec 12) : Word := s.rs a + 2 * sx off

/-- The depth of the return-address store (R147). -/
def Stream.depth (st : Stream) : Nat := st.rasSpill.toNat + st.rasCount.toNat

/-- Write entry n of the return-address store; entries beyond 15 do not exist. -/
def Stream.setRas (st : Stream) (n : Nat) (e : RasEntry) : Stream :=
  if h : n < 16 then { st with ras := st.ras.set n e h } else st
/-- Entry n of the return-address store. -/
def Stream.getRas (st : Stream) (n : Nat) : RasEntry := if h : n < 16 then st.ras[n] else {}

/-- The push of R147: the header after this block; RAS_OVF, with the depth, when 16 entries stand in hardware. -/
def State.callTo (s : State) (t : Word) : Out :=
  let st := s.st
  if st.rasCount == 16#5 then s.raise .rasOvf 0 (BitVec.ofNat 64 st.depth)
  else
    let push (st : Stream) : Stream :=
      { st.setRas st.rasCount.toNat { raddr := hiBits st.ex.fin } with rasCount := st.rasCount + 1 }
    (s.onSt push).jump t

/-- call (R144, R147). -/
def execCall (off : BitVec 22) (s : State) : Out := s.callTo (jmpTarget s.st.ex.pc off)

/-- jr (R142, R144): BR_ALIGN when bit 0 of the target is 1. -/
def execJr (a : BitVec 5) (off : BitVec 12) (s : State) : Out :=
  let t := s.regTarget a off
  if t.getLsbD 0 then s.raise .brAlign else s.jump t

/-- callr (R142, R144, R147). -/
def execCallr (a : BitVec 5) (off : BitVec 12) (s : State) : Out :=
  let t := s.regTarget a off
  if t.getLsbD 0 then s.raise .brAlign else s.callTo t

/-! ### Loops (R146) -/

/-- loopb (R146): the counter counts down to 0, RRB rotates, and the branch is taken while the counter is not 0. -/
def execLoopb (lc : BitVec 2) (off : BitVec 12) (s : State) : Out :=
  let v := s.st.rlc lc
  let v' := if v == 0#32 then 0#32 else v - 1
  (s.onSt fun st => { st.wlc lc v' with rrb := st.rrb - 1 }).branch (v' != 0#32) off

/-- loopi (R146): the counter takes sB, and the loop is skipped when it is 0. -/
def execLoopi (lc : BitVec 2) (b : BitVec 5) (off : BitVec 12) (s : State) : Out :=
  let v := s.rs b
  if 2 ^ 32 ≤ v.toNat then s.raise .lcRange
  else (s.onSt fun st => st.wlc lc (v.setWidth 32)).branch (v == 0) off

/-! ### Condition-sync bits, fork and join (R155, R156) -/

/-- The condition-sync bits of a context that have been set in this cycle (R155). -/
def State.cbSet (s : State) (x : CtxId) : BitVec 8 := BitVec.ofNat 8 (fget (s.core x.core).turns (.cb x.ctx) 0)
/-- Set condition-sync bits of the current stream's context; a clear in the same cycle takes effect before it (R155). -/
def State.setCb (s : State) (m : BitVec 8) : State :=
  (s.onCore s.cur.core fun k => k.turn (.cb s.xid.ctx) (s.cbSet s.xid ||| m).toNat).onCx fun c => { c with cb := c.cb ||| m }
/-- Clear condition-sync bits of the current stream's context: a bit that has been set in the same cycle ends at 1 (R155). -/
def State.clearCb (s : State) (m : BitVec 8) : State := s.onCx fun c => { c with cb := c.cb &&& ~~~(m &&& ~~~s.cbSet s.xid) }

/-- The join step of CSET (R72, R155): a release at core scope, then the bits change. -/
def State.csetStep (s : State) (f : State → State) : Out :=
  match s.joinHold (some .core) with
  | some o => o
  | none => .next ((f s).ungate.adv 4)

/-- cset (R155). -/
def execCset (mask : BitVec 8) (s : State) : Out := s.csetStep (·.setCb mask)

/-- cset.clr (R155). -/
def execCsetClr (mask : BitVec 8) (s : State) : Out := s.csetStep (·.clearCb mask)

/-- cwait (R155): waits until every bit of the mask is 1, then acquires at core scope. -/
def execCwait (mask : BitVec 8) (s : State) : Out :=
  match s.joinHold none .other with
  | some o => o
  | none => if s.cx.cb &&& mask == mask then .next ((s.ungate.acquire s.cur.core .core).adv 4) else .next (s.waitsAt .other)

/-- The condition-sync bit of a cluster. -/
def cbBit (cl : Nat) : BitVec 8 := BitVec.twoPow 8 (cl % 4)

/-- fork (R156): clears the cluster's bit and jumps; no join point. -/
def execFork (off : BitVec 12) (s : State) : Out :=
  if isTail s.cur then s.raise .forkTail
  else (s.clearCb (cbBit s.cur.cl)).jump (wbTarget s.st.ex.pc off)

/-- join (R156): cset of the cluster's bit, then cwait on the mask, then the jump. -/
def execJoin (mask : BitVec 4) (off : BitVec 12) (s : State) : Out :=
  if isTail s.cur then s.raise .forkTail
  else
    let m : BitVec 8 := mask.setWidth 8
    let wait (s : State) : Out :=
      if s.cx.cb &&& m == m then (s.ungate.acquire s.cur.core .core).jump (wbTarget s.st.ex.pc off) else .next (s.waitsAt .join)
    if s.st.wait == .join then wait s
    else
      match s.joinHold (some .core) .other with
      | some o => o
      | none => wait (s.setCb (cbBit s.cur.cl))

/-! ### Frames (R149) -/

/-- The hand-back area lies at [FB + 0x40, FB + 0x500): s1 to s8, s16 to s30, eight zero bytes, v0 to v7 (R149). -/
def handBack (st : Stream) (s29 s30 : Word) : List Byte :=
  let sc (n : Nat) : List Byte := bvBytes 8 (st.rs (BitVec.ofNat 5 n))
  ((upTo 8).flatMap fun k => sc (k + 1)) ++ ((upTo 13).flatMap fun k => sc (k + 16)) ++ bvBytes 8 s29 ++ bvBytes 8 s30 ++
    List.replicate 8 0 ++ ((upTo 8).flatMap fun k => bvBytes 128 (st.rv (BitVec.ofNat 6 k)))

/-- Take a hand-back area into the registers (R153). -/
def Stream.takeHandBack (st : Stream) (bs : List Byte) : Stream :=
  let sc (st : Stream) (n off : Nat) : Stream := st.ws (BitVec.ofNat 5 n) (bytesBv 64 ((bs.drop off).take 8))
  let st := (upTo 8).foldl (fun st k => sc st (k + 1) (8 * k)) st
  let st := (upTo 15).foldl (fun st k => sc st (k + 16) (0x40 + 8 * k)) st
  (upTo 8).foldl (fun (st : Stream) (k : Nat) =>
    let n := BitVec.ofNat 6 k
    { st with v := st.v.set n.toNat (bytesBv 1024 ((bs.drop (0xC0 + 128 * k)).take 128)) n.isLt }) st

/-- The header of a frame: CFP, FSIZE, and whether it is legal (R149, R151). -/
structure FrameHdr where
  cfp : Word
  fsize : Word
  ok : Bool
  deriving DecidableEq, Repr

/-- Read the words of a frame header. -/
def frameHdr (fb : Word) (bs : List Byte) : FrameHdr :=
  let w (k n : Nat) : Nat := bytesNat ((bs.drop (4 * k)).take n)
  let cfp := w 0 8
  let fsize := w 4 8
  ⟨BitVec.ofNat 64 cfp, BitVec.ofNat 64 fsize,
    decide (fb.toNat % 64 = 0) && decide (fsize % 64 = 0) && decide (1280 ≤ fsize) && w 3 4 == 0 && decide (cfp < 2 ^ 57)⟩

/-- The tail slot that a RELC in a cluster takes (R28, R151): a free one, the rotation starting after the one taken last. -/
def State.freeTail (s : State) (c : CoreId) (cl : Nat) : Option Nat :=
  let free (sl : Nat) : Bool := (s.strm ⟨c, cl, sl⟩).status == .free
  let order := if (s.core c).lastTail.getLsbD cl then [3, 2] else [2, 3]
  order.find? free

/-- A latch write is on its way (R151, R198). -/
def Stream.latchPending (st : Stream) : Bool := st.l.toList.any fun l => l.st == .pending

/-! ### Release-caller (R151) -/

/-- The tail that RELC starts: the whole state of the stream, at the header after the block (R78, R148, R150, R151). -/
def Stream.asTail (st : Stream) (fb : Word) (spawner owner : Nat) : Stream :=
  let c := Cursor.atHeader st.ex.fin
  { st with status := .running, owner := owner, spawner := some (spawner, fb), ex := c, seq := 0, acc := { cur := c }, sq := [],
            rasCount := 0, rasSpill := 0, rasBase := 0, tails := [], wait := .none, lastCe := none, yield := 0, idle := 0,
            pendFaults := [], engIssue := none, csrReq := .none, held := none, cache := [], joinAt := none, aside := none }

/-- The caller as it goes on at the return address (R151). -/
def Stream.released (st : Stream) (h : FrameHdr) (fb : Word) (t : Nat) : Stream :=
  let e := st.getRas (st.rasCount.toNat - 1)
  let fe := fb + h.fsize
  let s30 := if (st.rs 30).ult fe then fe else st.rs 30
  let live := TailEntry.live fb fe (st.depth - 1) t
  let st := (st.ws 29 h.cfp).ws 30 s30
  let st := { st with rasCount := st.rasCount - 1, tails := st.tails ++ [live],
                      acc := { st.acc with qs := Vector.replicate 4 [] } }.ungate
  { st.goTo (.atHeader (ofHiBits e.raddr)) with status := .running, wait := .none }

/-- RELC with a free tail slot (R151). -/
def State.relcSlot (s : State) (fb : Word) (h : FrameHdr) (t : Nat) : Out :=
  match s.addTcnt fb 1 with
  | .wait => .next (s.waitsAt .none)
  | .bad f => s.raiseRec f
  | .dropped _ fl => .next (s.dropAccess s.cur fl)
  | .ok s1 _ =>
    let tid : SlotId := ⟨s.cur.core, s.cur.cl, t⟩
    let bit := BitVec.twoPow 4 (s.cur.cl % 4)
    let s2 := s1.onCore s.cur.core fun k =>
      { k with lastTail := if t == 2 then k.lastTail ||| bit else k.lastTail &&& ~~~bit
               lastRelc := k.lastRelc.set (s.cur.cl % 4) s.cur.sl (Nat.mod_lt _ (by decide)) }
    let s3 := s2.setStrm tid { s.st.asTail fb s.cur.sl s.xid.ctx with idle := (s.dev s.cdev).cycle }
    .next (s3.onSt fun st => st.released h fb t)

/-- The hand-back stores of RELC have taken effect: the return is deferred, and the callee runs on at the header after its block (R119,
R151). -/
def State.relcDeferred (s : State) (fb : Word) : Out :=
  let n := s.st.rasCount.toNat - 1
  .next (s.onSt fun st =>
    let st := { st.setRas n { st.getRas n with defer := true } with tails := st.tails ++ [TailEntry.defer fb (st.depth - 1)] }.ungate
    { st.goTo (.atHeader st.ex.fin) with status := .running, wait := .none })

/-- RELC without a free tail slot: the hand-back set is stored, its pieces each in a path (R71, R151). -/
def State.relcPoint (s : State) (fb : Word) (h : FrameHdr) : Out :=
  let s := s.onSt Stream.landAll
  let st := s.st
  let fe := fb + h.fsize
  let s30 := if (st.rs 30).ult fe then fe else st.rs 30
  let t : Xl := ⟨s.xid, s.cx.asid.toNat, st.priv, .store, .scalar⟩
  match s.xlAccess t (fb + 0x40) 1216 with
  | .bad f => s.raiseRec f
  | .ok ps =>
    let bs := handBack st h.cfp s30
    let items := storePaths s.cur s.xid st.seq (ps.map fun p => (p, (bs.drop p.at_).take p.len))
    .next ((s.onCore s.cur.core fun c => { c with paths := c.paths ++ items }).waitsAt .handBack)

/-- relc (R151): the first checks, then, once its twins stand at their heads, the header as it is at its join step (R250) and the check of
it, the release, and one of the two ways. -/
def execRelc (s : State) : Out :=
  let st := s.st
  let fb := st.rs 29
  if st.wait == .handBack then
    if (s.ownStores s.cur (st.seq + 1)).isEmpty then s.relcDeferred fb else .next (s.waits .handBack)
  else if 4 ≤ st.tails.length then s.raise .tailDepth
  else if st.rasCount == 0#5 then
    if st.rasSpill != 0#32 then s.raise .rasUnd 0 (BitVec.ofNat 64 st.depth) else s.raise .rasEmpty
  else
    match s.joinHold none with
    | some o => o
    | none =>
      match (match st.held with
        | some bs => RecRead.ok s bs
        | none => s.recRead .load fb 64) with
      | .ok s1 bs =>
        let h := frameHdr fb bs
        let s0 := s1.onSt fun st => { st with held := some bs }
        if !h.ok then s.raise .frameHdr
        else
          match s0.joinHold (some .frame) with
          | some o => o
          | none =>
            if st.latchPending then .next (s0.waitsAt .none)
            else
              match s0.freeTail s.cur.core s.cur.cl with
              | some t => s0.relcSlot fb h t
              | none => s0.relcPoint fb h
      | r => s.recStop r

/-! ### RET, TJOIN and HALT (R153, R154, R157) -/

/-- The tail table holds a LIVE entry of at least a level. -/
def Stream.liveAbove (st : Stream) (d : Nat) : Bool :=
  st.tails.any fun e => match e with
    | .live _ _ l _ => decide (d ≤ l)
    | .defer _ _ => false

/-- Remove the LIVE entry of the tail in a slot. -/
def Stream.dropLive (st : Stream) (sl : Nat) : Stream :=
  { st with tails := st.tails.filter fun e => match e with
      | .live _ _ _ t => t != sl
      | .defer _ _ => true }

/-- EndTail (R153, R157): no live tail of its own, a release at frame scope, the tail count, and the slot. -/
def State.endTail (s : State) : Out :=
  let st := s.st
  if st.liveAbove 0 then .next (s.waitsAt .other)
  else
    match s.joinHold (some .frame) with
    | some o => o
    | none =>
      match st.spawner with
      | none => .next (s.freeSlot s.cur)
      | some (sp, fb) =>
        match s.addTcnt fb (-1) with
        | .wait => .next (s.waitsAt .none)
        | .bad f => s.raiseRec f
        | .dropped _ fl => .next (s.dropAccess s.cur fl)
        | .ok s1 _ => .next ((s1.freeSlot s.cur).onStrm ⟨s.cur.core, s.cur.cl, sp⟩ fun st => st.dropLive s.cur.sl)

/-- FB of the DEFER entry of a level. -/
def Stream.deferAt (st : Stream) (lvl : Nat) : Option Word :=
  st.tails.findSome? fun e => match e with
    | .defer fb l => if l == lvl then some fb else none
    | .live _ _ _ _ => none

/-- Pop the return-address store and go to the header there. -/
def State.popTo (s : State) (e : RasEntry) : Out :=
  (s.onSt fun st => { st with rasCount := st.rasCount - 1 }).jump (ofHiBits e.raddr)

/-- The RET that ends a deferred tail (R153): a release at frame scope, then the hand-back set is loaded; nothing is
written before every read has completed. -/
def State.retDefer (s : State) (e : RasEntry) (lvl : Nat) : Out :=
  match s.joinHold (some .frame) with
  | some o => o
  | none =>
    match s.st.deferAt lvl with
    | none => s.ungate.popTo e
    | some fb =>
      match s.recRead .load (fb + 0x40) 1216 with
      | .ok s1 bs =>
        (s1.onSt fun st =>
          let st := st.landAll.takeHandBack bs
          { st with tails := st.tails.filter fun t => t != TailEntry.defer fb lvl }.ungate).popTo e
      | r => s.recStop r

/-- ret (R153). -/
def execRet (s : State) : Out :=
  let st := s.st
  if st.rasCount == 0#5 then
    if st.rasSpill != 0#32 then s.raise .rasUnd 0 (BitVec.ofNat 64 st.depth)
    else if isTail s.cur then s.endTail
    else s.raise .rasEmpty
  else
    let d := st.depth
    if st.liveAbove d then .next (s.waits .other)
    else
      let e := st.getRas (st.rasCount.toNat - 1)
      if e.defer then s.retDefer e (d - 1) else s.popTo e

/-- tjoin (R154): waits until no tail of the stream lives, then acquires at frame scope. -/
def execTjoin (s : State) : Out :=
  match s.joinHold none .other with
  | some o => o
  | none =>
    if s.st.liveAbove 0 then .next (s.waitsAt .other) else .next ((s.ungate.acquire s.cur.core .frame).adv 4)

/-- A handler that halts does not return: what its trap has set aside of the queues goes on in them (R65, R253). -/
def Stream.regain (st : Stream) : Stream := match st.aside with
  | none => st
  | some a =>
    { st with
      aside := none, sq := a.weave st.sq, amoPend := a.amoBack ++ st.amoPend
      acc := { st.acc with lq := (a.lq.filter fun i => decide (i.seq < a.seq0)) ++ st.acc.lq } }
/-- halt (R157): a tail ends; a main stream halts and waits for nothing. -/
def execHalt (s : State) : Out :=
  if isTail s.cur then s.endTail
  else .next ((s.adv 4).onSt fun st => { st.regain with status := .halted })

/-! ### TRAP, ERET, WAITT and YIELD (R158, R159, R294) -/

/-- trap (R158): the supervisor is entered, to return after the instruction; in S it is PRIV. -/
def execTrap (code : BitVec 10) (s : State) : Out :=
  if s.st.priv == .s then s.raise .priv
  else
    let s1 := s.adv 4
    .next (s1.deliver s.cur { name := .trapOp, detail := zx code } s1.st.ex.retPoint)

/-- The plan runs of a context go on after a page fault (R223, R294). -/
def Ctx.thaw (c : Ctx) : Ctx :=
  { c with plans := c.plans.map fun p => (p.1, { p.2 with plan := p.2.plan.map fun q =>
      { q with run := q.run.map fun r => { r with frozen := false } } }) }

/-- A handler of the stream is at work on a fault of the engine (R291: cr.cause.ENG and cr.fsrc.ENG). -/
def Stream.handles (st : Stream) (e : BitVec 2) : Bool :=
  st.priv == .s && st.trap.cause.getLsbD 17 && st.trap.fsrc.extractLsb' 30 2 == e
/-- The engine queue, and the plan runs, whose restartable fault the handler of the current stream has dealt with go on as it returns
(R223, R294): no fault of that engine is still to be delivered to a stream of the context, nor is another stream at work on one. `s0` is
the state before the return. -/
def State.resumeQueues (s s0 : State) (x : CtxId) : State :=
  let due (e : BitVec 2) : Bool := s0.st.handles e && !((s.slotsOfCtx x).any fun id =>
    (s.strm id).handles e || (s.strm id).pendFaults.any fun f => f.eng && f.src.extractLsb' 30 2 == e)
  let go (q : EngQueue) (e : BitVec 2) : EngQueue :=
    match q.cmds.find? fun c => c.restart with
    | some c => if c.x == x && q.stop == .restartable && due e then { q with stop := .going } else q
    | none => q
  let s1 := if due 1 then s.onCtx x Ctx.thaw else s
  s1.onCore x.core fun k => { k with me := go k.me 1, ce := go k.ce 2, cs := go k.cs 3 }

/-- eret (R158, R294): PRIV in U; in S it waits for the handler's queues and returns. A block header at cr.ehdr that cannot
be fetched faults after the return, at the return point. -/
def execEret (s : State) : Out :=
  let st := s.st
  if st.priv == .u then s.raise .priv
  else if !st.acc.late.isEmpty || st.acc.headFaulted then s.waitAccess
  else if !st.acc.lq.isEmpty || !st.sq.isEmpty then .next (s.waits .none)
  else
    let hdr := ofHiBits st.trap.ehdr
    let back (s : State) (fin : Word) (nopre : Bool) : State := (s.onSt fun st => st.eret fin nopre).resumeQueues s s.xid
    if st.trap.epc == st.trap.ehdr then .next (back s hdr false)
    else
      match s.fetchWord s.cur hdr.toNat with
      | .wait => .next (s.waits .none)
      | .ok s1 h => .next (back s1 (hdrEnd hdr h) (hdrNopre h))
      | .bad f => .next ((back s (hdr + 4) false).deliver s.cur f (ofHiBits st.trap.epc, hdr, st.trap.rem))

/-- cr.time has reached t (R115, R159). -/
def timeReached (now t : Word) : Bool := decide ((now - t).toNat < 2 ^ 63)

/-- waitt (R159). -/
def execWaitt (a : BitVec 5) (s : State) : Out :=
  let t := s.rs a
  if timeReached (s.dev s.cdev).time t then .next (s.adv 4) else .next (s.waits (.waitt t))

/-- WAITT_EXPIRY (R159): the time of a waiting stream has come, and it goes on. -/
def execWaittExpiry (sl : SlotId) (s : State) : Out :=
  let st := s.strm sl
  match st.status, st.wait with
  | .waiting, .waitt t =>
    if timeReached (s.dev sl.core.dev).time t then .next (({ s with cur := sl }).adv 4) else .next s
  | _, _ => .next s

/-- yield (R159): the slot is passed over for the cluster's next four issue cycles; in lock step nothing changes. -/
def execYield (s : State) : Out :=
  let held := s.cx.lockstep && !isTail s.cur
  .next ((s.onSt fun st => { st with yield := if held then 0 else 4 }).adv 4)

/-! ### Steps of fetch (R119, R22, R35) -/

/-- BLOCK_ENTRY (R119 to R121): a stream enters the block at its header. A main stream in lock step enters together with
the others (R35); one that is not waits at a sync header until lock step forms again (R22). Streams in S and tails enter
by themselves. -/
def execBlockEntry (sl : SlotId) (s0 : State) : Out :=
  let s := { s0 with cur := sl, side := .execute }
  let st := s.st
  let x := s.xid
  if !(s.canAct sl) || !st.ex.atHdr || s.diverts sl || !st.pendFaults.isEmpty && st.priv == .u then .next s0
  else
    let free := isTail sl || st.priv == .s || st.stub != .none
    if !free && s.cx.lockstep then
      let g := s.stepGroup x
      if g.all s.atStart then .next (s.enterGroup x g) else .next s0
    else
      match s.readHeader sl st.ex.hdr with
      | .wait => .next s0
      | .bad f => s.raiseRec f
      | .ok s1 h =>
        if !free && hdrSync h then .next (s1.waits .sync) else .next (s1.enterBlock sl h)

/-- SYNC_REJOIN (R22): every main stream that has not halted stands at a sync header, and all enter together. -/
def execSyncRejoin (x : CtxId) (s : State) : Out :=
  let g := s.stepGroup x
  if (s.ctx x).lockstep || g.isEmpty || !g.all s.atStart || !g.all (fun id => s.canAct id) then .next s
  else
    match s.groupHeaders g with
    | (.ok _ hs, _) => if hs.all fun p => hdrSync p.2 then .next (s.enterGroup x g) else .next s
    | _ => .next s

/-- PASS_START (R119, R258): the next pass of a block begins once every pending write has landed. -/
def execPassStart (sl : SlotId) (s0 : State) : Out :=
  let s := { s0 with cur := sl, side := .execute }
  let st := s.st
  if !(s.canAct sl) || !st.ex.atPassEnd || s.diverts sl || !st.pendFaults.isEmpty && st.priv == .u then .next s0
  else .next (s.onSt Stream.beginPass)

end Sys2Proof.Machine
end

