-- ==== Sys2Proof/Machine/Groups.lean ====
section
/-!
DEFINITION. Machine/Groups.lean: the steps of multicast groups: stamping at a home switch (R77, R110, R111, R252), delivery,
application and gaps at a receiver (R77, R110, R112, R180), and the actions of cr.gtcmd (R108, R109).
-/
namespace Sys2Proof.Machine

/-! ### Live entries -/

/-- Change the live entry of a group on a device. -/
def State.onGent (s : State) (d g : Nat) (f : GEntry → GEntry) : State :=
  s.onDev d fun v => { v with gt := fset v.gt g (f (fget v.gt g {})) }
/-- A home switch of a group. -/
def State.homeSt (s : State) (h : BitVec 16) (g : Nat) : HomeSt := fget s.homes (h.toNat, g) {}
/-- Replace a home switch of a group. -/
def State.setHome (s : State) (h : BitVec 16) (g : Nat) (x : HomeSt) : State := { s with homes := fset s.homes (h.toNat, g) x }

/-- The receiver holds the sequence after the applied one. -/
def GEntry.nextHeld (e : GEntry) : Option GItem := (e.held.find? fun p => p.1 == e.applied + 1).map Prod.snd
/-- A gap exists (R112). -/
def GEntry.gap (e : GEntry) : Bool := !e.held.isEmpty && e.nextHeld.isNone
/-- Note whether a gap exists from now on; `fresh` starts its count again. -/
def GEntry.watch (e : GEntry) (now : Word) (fresh : Bool) : GEntry :=
  if !e.gap then { e with gapSince := none, gapRaised := false }
  else if fresh || e.gapSince.isNone then { e with gapSince := some now, gapRaised := false }
  else e

/-! ### The home switch -/

/-- A member has applied sequence n; one that has not yet received its join record counts from that record on (R110, R111). -/
def State.memberReached (s : State) (hs : HomeSt) (g dev : Nat) (n : BitVec 32) : Bool :=
  let e := s.gent dev g
  if e.joining then (match fget? hs.joins dev with
    | some j => serialReached j n
    | none => true)
  else serialReached e.applied n

/-- HOME may stamp its next sequence (R111). -/
def State.mayStamp (s : State) (h : BitVec 16) (g : Nat) : Bool :=
  let hs := s.homeSt h g
  hs.members.all fun d => s.memberReached hs g d (hs.ctr - 64)

/-- Stamp an item: it takes the next sequence, is held for members that may ask for it again, and travels to members. -/
def State.stampItem (s : State) (h : BitVec 16) (g : Nat) (it : GItem) (receivers members : List Nat) : State :=
  let hs := s.homeSt h g
  let keep := hs.held.filter fun p => !(members.all fun d => s.memberReached hs g d p.1)
  let s1 := s.setHome h g { hs with
    ctr := hs.ctr + 1, members := members, held := keep ++ [(hs.ctr, it)]
    joins := match it with
      | .joinRec d => fset hs.joins d hs.ctr
      | .store _ _ | .leaveRec _ => hs.joins }
  { s1 with deliveries := s1.deliveries ++ receivers.map fun d => ⟨h, g, d, hs.ctr, it⟩ }

/-- The stamp of a store reaches the latch of the stream that sent it. -/
def State.stampLatch (s : State) (id : SlotId) (l : BitVec 2) (v : Vec) : State :=
  s.onStrm id fun st => if st.present && (st.rl l).st == .pending then st.wl l { st := .full, val := v } else st

/-- HOME delivers a held sequence to a device (R110): to a joiner from its join record on, and to a leaver up to its leave record. -/
def HomeSt.mayDeliver (hs : HomeSt) (d : Nat) (n : BitVec 32) : Bool :=
  (match fget? hs.joins d with
    | some j => serialReached n j
    | none => true) &&
    (hs.members.contains d || hs.held.any fun p => p.2 == .leaveRec d && serialReached p.1 n)

/-- Message k reaches its home switch and is stamped (R77, R110, R114): a store of a device that has left is discarded, its
latch receives 0, and its stream LEFT. -/
def State.stamp (s : State) (m : HomeMsg) : State :=
  let hs := s.homeSt m.home m.g
  match m.item with
  | .store id _ l off bs =>
    if hs.members.contains m.dev then
      (s.stampItem m.home m.g (.store off bs) hs.members hs.members).stampLatch id l (hs.ctr.setWidth 1024)
    else
      (s.stampLatch id l 0).pendFault (s.xidOf id) id
        { name := .left, faddr := (s.gent m.dev m.g).lbase + BitVec.ofNat 64 off, detail := BitVec.ofNat 64 m.g }
  | .join d =>
    let ms := if hs.members.contains d then hs.members else hs.members ++ [d]
    s.stampItem m.home m.g (.joinRec d) ms ms
  | .leave d =>
    if hs.members.contains d then s.stampItem m.home m.g (.leaveRec d) hs.members (hs.members.filter fun e => e != d) else s
  | .resend d after =>
    let again := hs.held.filter fun p => !serialReached after p.1 && hs.mayDeliver d p.1
    { s with deliveries := s.deliveries ++ again.map fun p => ⟨m.home, m.g, d, p.1, p.2⟩ }

/-- Two messages are stores of one stream to one group (R252). -/
def HomeMsg.sameSender (a b : HomeMsg) : Bool :=
  a.home == b.home && a.g == b.g && (match a.item, b.item with
    | .store x _ _ _ _, .store y _ _ _ _ => x == y
    | _, _ => false)

/-- STG_STAMP (R77): the home switch takes message k, once its window allows a stamp and no earlier store of the same stream
stands before it. -/
def execStgStamp (k : Nat) (s : State) : Out :=
  match s.toHome[k]? with
  | none => .next s
  | some m =>
    let stamps := match m.item with
      | .resend _ _ => false
      | .store _ _ _ _ _ | .join _ | .leave _ => true
    if ((s.toHome.take k).any fun e => e.sameSender m) || (stamps && !s.mayStamp m.home m.g) then .next s
    else .next ({ s with toHome := s.toHome.eraseIdx k }.stamp m)

/-! ### The receiver -/

/-- A sequence lies in the window of a receiver, APPLIED + 1 to APPLIED + 64 (R111). -/
def inReorder (applied seq : BitVec 32) : Bool := decide (1 ≤ (seq - applied).toNat) && decide ((seq - applied).toNat ≤ 64)
/-- One past the highest sequence of a list that a receiver holds, or of the sequence n (R108). -/
def nextAfter (n : BitVec 32) (held : List (BitVec 32 × GItem)) : BitVec 32 :=
  held.foldl (fun m p => if serialReached m (p.1 + 1) then m else p.1 + 1) (n + 1)
/-- A stamped item arrives at the receiver of a device (R77, R110): a joiner becomes a member with its own join record; what lies outside
its window, or what it holds already, is dropped (R111). -/
def GEntry.receive (e : GEntry) (dev : Nat) (seq : BitVec 32) (it : GItem) (now : Word) : GEntry :=
  if e.joining && it == .joinRec dev then
    let held := e.held.filter fun p => inReorder seq p.1
    { e with applied := seq, member := true, joining := false, epoch := e.epoch + 1, held := held,
             next := nextAfter seq held }.watch now true
  else if !e.valid || !(e.member || e.joining) then e
  else if e.held.any (fun p => p.1 == seq) || (!e.joining && !inReorder e.applied seq) then e
  else
    { e with held := e.held ++ [(seq, it)], next := if serialReached e.next (seq + 1) then e.next else seq + 1 }.watch now false

/-- GROUP_DELIVERY (R77): delivery k arrives. -/
def execGroupDelivery (k : Nat) (s : State) : Out :=
  match s.deliveries[k]? with
  | none => .next s
  | some d =>
    let s1 := { s with deliveries := s.deliveries.eraseIdx k }
    .next (s1.onGent d.dev d.g fun e => e.receive d.dev d.seq d.item (s.dev d.dev).time)

/-- An item has been applied: APPLIED takes its sequence (R77), a membership record advances EPOCH, and a leaver is no member
any more (R110). -/
def GEntry.applyItem (e : GEntry) (dev : Nat) (it : GItem) (now : Word) : GEntry :=
  let seq := e.applied + 1
  let e1 := { e with applied := seq, held := e.held.filter fun p => p.1 != seq }
  let e2 := match it with
    | .store _ _ => e1
    | .joinRec _ => { e1 with epoch := e1.epoch + 1 }
    | .leaveRec d => { e1 with epoch := e1.epoch + 1, member := e1.member && d != dev }
  e2.watch now true

/-- A GACQ of a device on group g waits as a member's, and its target is not reached. -/
def Stream.gacqShort (st : Stream) (g : Nat) (applied : BitVec 32) : Bool :=
  st.status == .waiting && (match st.wait with
    | .gacq h n => h == g && !serialReached applied n
    | _ => false)
/-- The device has applied its own leave record: every GACQ of it on the group whose target is not reached raises LEFT (R110). -/
def State.leftGroup (s : State) (dev g : Nat) : State :=
  let e := s.gent dev g
  (s.streams.filter fun p => p.1.core.dev == dev).foldl (fun s p =>
    if (s.strm p.1).gacqShort g e.applied then
      s.deliver p.1 { name := .left, faddr := e.lbase, detail := BitVec.ofNat 64 g } (s.strm p.1).ex.retPoint
    else s) s

/-- The application of a store fails (R180): APPLY names the group and the sequence, and the receiver stalls. -/
def State.applyFault (s : State) (dev g : Nat) (off : Nat) : State :=
  let e := s.gent dev g
  let f : FaultRec := { name := .apply, faddr := e.lbase + BitVec.ofNat 64 off,
                        detail := BitVec.ofNat 64 (g + (e.applied + 1).toNat * 2 ^ 32) }
  (s.logFault dev (BitVec.ofNat 14 e.asid) f false 0 0).onGent dev g fun e => { e with applyStall := true }

/-- GROUP_APPLY (R77, R110, R180): the receiver applies the next sequence; every granule of a store is written in one step, and with the
device's own leave record its waiting GACQs raise LEFT. A store to a field that is out of service is dropped (R314, log 61). -/
def execGroupApply (dev g : Nat) (s : State) : Out :=
  let e := s.gent dev g
  let done (s : State) (it : GItem) : Out :=
    let s1 := s.onGent dev g fun e => e.applyItem dev it (s.dev dev).time
    .next (if it == .leaveRec dev then s1.leftGroup dev g else s1)
  if !e.valid || !e.member || e.applyStall then .next s
  else match e.nextHeld with
    | none => .next s
    | some (.store off bs) =>
      let t : Xl := ⟨⟨⟨dev, 0, 0⟩, 0⟩, e.asid, .u, .store, .none⟩
      (match s.xlAccess t (e.lbase + BitVec.ofNat 64 off) bs.length with
      | .bad _ => .next (s.applyFault dev g off)
      | .ok ps => match s.firstStop ps with
        | none => done (s.writePieces bs ps) (.store off bs)
        | some (.bad _) => .next (s.applyFault dev g off)
        | some (.dropped _ fl) =>
          done (s.logFault dev (BitVec.ofNat 14 e.asid) { name := .machineCheck, detail := BitVec.ofNat 64 fl } false 0 0) (.store off bs)
        | some _ => .next s)
    | some it => done s it

/-- A count of µs in units of cr.time (R4, R115). -/
def usTime (n : Nat) : Nat := n * 1000 * 2 ^ 16

/-- GROUP_GAP_TIMEOUT (R112): a gap has lasted GAPTO: GROUP_GAP names g, APPLIED and NEXT. -/
def execGroupGapTimeout (dev g : Nat) (s : State) : Out :=
  let e := s.gent dev g
  match e.gapSince with
  | none => .next s
  | some t =>
    if e.gapRaised || ((s.dev dev).time - t).toNat < usTime e.gapto.toNat then .next s
    else
      let f : FaultRec := { name := .groupGap, detail := BitVec.ofNat 64 g,
                            faddr := BitVec.ofNat 64 (e.next.toNat * 2 ^ 32 + e.applied.toNat) }
      .next ((s.logFault dev (BitVec.ofNat 14 e.asid) f false 0 0).onGent dev g fun e => { e with gapRaised := true })

/-! ### The actions of cr.gtcmd (R108, R109) -/

/-- The action of cr.gtcmd in progress on a device, when it is the one of a code. -/
def State.gtAct (s : State) (dev act : Nat) : Option GtReq :=
  match (s.dev dev).gtReq with
  | none => none
  | some r => if r.act == act then some r else none
/-- The action is over: BUSY reads 0. -/
def State.gtDone (s : State) (dev : Nat) : State := s.onDev dev fun v => { v with gtReq := none }

/-- The address of entry g of the group table. -/
def gtEntryVa (d : Device) (g : Nat) : Word := BitVec.ofNat 64 (d.gtbase.toNat * 2 ^ 18 + 64 * g)

/-- What the read of a table by an action of cr.gtcmd answers: bytes, a wait, or a field that drops it (R314). -/
inductive GtRes where
  | ok (bs : List Byte)
  | wait
  | drop (field : Nat)
/-- The supervisor's load of a group-table entry, or of the member bitmap (R109). -/
def State.gtRead (s : State) (dev asid : Nat) (va : Word) (n : Nat) : GtRes :=
  match s.xlAccess ⟨⟨⟨dev, 0, 0⟩, 0⟩, asid, .u, .load, .scalar⟩ va n with
  | .bad _ => .wait
  | .ok ps => match s.firstStop ps with
    | none => .ok (s.readPieces ps)
    | some (.dropped _ fl) => .drop fl
    | some _ => .wait
/-- A table read of an action has been dropped (R314, R319): the action ends with nothing made live, a record names the field, and the launch
whose supervisor asked for it is killed. -/
def State.gtDrop (s : State) (dev : Nat) (r : GtReq) (field : Nat) : State :=
  let s1 := (s.gtDone dev).logFault dev (BitVec.ofNat 14 r.asid) { name := .machineCheck, detail := BitVec.ofNat 64 field } false 0 0
  match r.launch with
  | some l => s1.killLaunch dev l
  | none => s1

/-- A reserved bit of a group-table entry is set (R108). -/
def gtReserved (bs : List Byte) : Bool :=
  let w (k : Nat) : Nat := bytesNat ((bs.drop (4 * k)).take 4)
  nbits (w 2) 20 10 != 0 || (upTo 7).any fun k => w (9 + k) != 0
/-- A live entry as read from the table. One with a reserved bit set acts as one with VALID = 0, so that an STG to it raises NOT_MEMBER, the
one fault that R108 names (R5). DESIGN CHOICE, log 69. -/
def GEntry.ofBytes (bs : List Byte) (asid : Nat) : GEntry :=
  let w (k n : Nat) : Nat := bytesNat ((bs.drop (4 * k)).take n)
  if gtReserved bs then {} else
  { applied := BitVec.ofNat 32 (w 0 4), next := BitVec.ofNat 32 (w 1 4), valid := nbit (w 2 4) 31, member := nbit (w 2 4) 30,
    gapto := BitVec.ofNat 20 (w 2 4), home := BitVec.ofNat 16 (w 3 4), epoch := BitVec.ofNat 16 (w 3 4 / 65536),
    lbase := BitVec.ofNat 64 (w 4 8), lsize := BitVec.ofNat 32 (w 6 4), mva := BitVec.ofNat 64 (w 7 8), asid := asid }

/-- The devices of a member bitmap. -/
def bitmapDevs (bs : List Byte) : List Nat :=
  (upTo 1152).filter fun d => (bs[d / 8]?.getD 0).getLsbD (d % 8)

/-- The fleet manager starts the home switch with a LOAD: the first that names it, and any other as it chooses (log 53). -/
def HomeSt.starts (hs : HomeSt) (clock : Nat) : Bool := !hs.started || Config.groupStart clock
/-- GROUP_LOAD (R109): the entry becomes live as read from the table. Where the fleet manager starts the home switch with it, the counter
stands at APPLIED + 1 and the members are those that the bitmap names. -/
def execGroupLoad (dev : Nat) (s : State) : Out :=
  match s.gtAct dev 1 with
  | none => .next s
  | some r =>
    let g := r.group.toNat
    match s.gtRead dev r.asid (gtEntryVa (s.dev dev) g) 64 with
    | .wait => .next s
    | .drop fl => .next (s.gtDrop dev r fl)
    | .ok bs =>
      let e := GEntry.ofBytes bs r.asid
      let s1 := (s.onGent dev g fun _ => e).gtDone dev
      let hs := s.homeSt e.home g
      if gtReserved bs then .next s1
      else if !hs.starts s.clock then .next s1
      else
        match s.gtRead dev r.asid e.mva 144 with
        | .drop fl => .next (s.gtDrop dev r fl)
        | .wait => .next (s1.setHome e.home g { ctr := e.applied + 1, started := true, members := [dev] })
        | .ok bm => .next (s1.setHome e.home g { ctr := e.applied + 1, started := true, members := bitmapDevs bm })

/-- GROUP_JOIN (R109): the entry becomes live with MEMBER = 0, and HOME is asked for a join record. -/
def execGroupJoin (dev : Nat) (s : State) : Out :=
  match s.gtAct dev 2 with
  | none => .next s
  | some r =>
    let g := r.group.toNat
    match s.gtRead dev r.asid (gtEntryVa (s.dev dev) g) 64 with
    | .wait => .next s
    | .drop fl => .next (s.gtDrop dev r fl)
    | .ok bs =>
      let res := gtReserved bs
      let e := { GEntry.ofBytes bs r.asid with member := false, joining := !res }
      let s1 := (s.onGent dev g fun _ => e).gtDone dev
      .next <| if res then s1 else { s1 with toHome := s1.toHome ++ [⟨e.home, g, dev, .join dev⟩] }

/-- GROUP_LEAVE (R109): HOME is asked to stamp a leave record for DEV. -/
def execGroupLeave (dev : Nat) (s : State) : Out :=
  match s.gtAct dev 3 with
  | none => .next s
  | some r =>
    let e := s.gent dev r.group.toNat
    let s1 := s.gtDone dev
    .next (if e.valid then { s1 with toHome := s1.toHome ++ [⟨e.home, r.group.toNat, dev, .leave r.dev⟩] } else s1)

/-- GROUP_RESEND (R109, R180): HOME is asked to deliver again what it holds after APPLIED, and a stalled application is tried
again. -/
def execGroupResend (dev : Nat) (s : State) : Out :=
  match s.gtAct dev 4 with
  | none => .next s
  | some r =>
    let g := r.group.toNat
    let e := s.gent dev g
    let s1 := (s.gtDone dev).onGent dev g fun e => { e with applyStall := false }
    .next (if e.valid then { s1 with toHome := s1.toHome ++ [⟨e.home, g, dev, .resend dev e.applied⟩] } else s1)

end Sys2Proof.Machine
end

