-- ==== Sys2Proof/Machine/Csr.lean ====
section
/-!
DEFINITION. Machine/Csr.lean: the control registers (R7, R18, R30, R58, R85, R94, R102, R109, R115, R121, R145 to R147, R186,
R195, R210, R228, R246, R259, R291, R310, R316): their fields, reads, writes (R239 to R241), and the level change (R94).
-/
namespace Sys2Proof.Machine

/-! ### Fields -/

/-- The fields of a register: the bits that some field covers, those that S and U write, and the write-only ones. -/
structure CsrInfo where
  fld : Nat
  ws : Nat
  wu : Nat
  wo : Nat
  deriving DecidableEq, Repr

/-- The bits [hi : lo]. -/
def bitsOf (hi lo : Nat) : Nat := 2 ^ (hi + 1) - 2 ^ lo
/-- A register whose fields are read-only. -/
def csrRo (m : Nat) : Option CsrInfo := some ⟨m, 0, 0, 0⟩
/-- A register whose fields U and S write. -/
def csrRw (m : Nat) : Option CsrInfo := some ⟨m, m, m, 0⟩
/-- A register whose fields S alone writes. -/
def csrSup (m : Nat) : Option CsrInfo := some ⟨m, m, 0, 0⟩

/-- The fields of the register of a number (R240); none for a number that is not assigned. -/
def csrInfo (n : Nat) : Option CsrInfo :=
  if n = 0x000 then csrRo (bitsOf 14 1)
  else if n = 0x001 then csrRo (bitsOf 8 0)
  else if n = 0x002 || n = 0x003 then csrRo (bitsOf 31 0)
  else if n = 0x004 then csrRw (bitsOf 1 0)
  else if n = 0x005 then csrRw (bitsOf 4 0)
  else if 0x006 ≤ n && n ≤ 0x009 then csrRw (bitsOf 31 0)
  else if n = 0x00A then csrRw (bitsOf 5 0)
  else if n = 0x00B then csrRw (bitsOf 31 0)
  else if n = 0x00C then csrRw (bitsOf 63 0)
  else if n = 0x00D then csrRo (bitsOf 7 0)
  else if n = 0x00E then csrSup (bitsOf 8 0)
  else if n = 0x00F then csrRw (bitsOf 7 0)
  else if 0x010 ≤ n && n ≤ 0x017 then csrRw (bitsOf 39 0)
  else if n = 0x018 then csrRw (bitsOf 31 0)
  else if n = 0x019 then csrSup (bitsOf 63 0)
  else if n = 0x01A then some ⟨bitsOf 2 0, bitsOf 2 1, 0, 0⟩
  else if n = 0x01B || n = 0x01C then csrSup (bitsOf 56 1)
  else if n = 0x01D then csrSup (bitsOf 56 16 + bitsOf 12 0)
  else if n = 0x01E then csrSup (bitsOf 56 12 + bitsOf 10 0)
  else if n = 0x01F then csrSup (bitsOf 36 0)
  else if n = 0x020 then csrSup (bitsOf 56 3)
  else if 0x030 ≤ n && n ≤ 0x03F then csrSup (bitsOf 56 0)
  else if n = 0x040 then csrSup (bitsOf 56 18)
  else if n = 0x041 then some ⟨bitsOf 63 63 + bitsOf 26 0, bitsOf 26 0, 0, bitsOf 26 0⟩
  else if 0x100 ≤ n && n ≤ 0x102 then csrSup (bitsOf 56 1)
  else if n = 0x103 then csrSup (bitsOf 63 32)
  else if n = 0x104 then csrRo (bitsOf 45 16 + bitsOf 14 0)
  else if n = 0x105 || n = 0x106 then csrRo (bitsOf 63 0)
  else if n = 0x107 then csrRo (bitsOf 31 16)
  else if n = 0x108 || n = 0x109 then csrSup (bitsOf 63 0)
  else if n = 0x10A then csrRo (bitsOf 13 0)
  else if n = 0x10B then csrSup (bitsOf 1 0)
  else if n = 0x10C then
    some ⟨bitsOf 63 63 + bitsOf 59 56 + bitsOf 12 0, bitsOf 59 56 + bitsOf 12 0, 0, bitsOf 59 56 + bitsOf 12 0⟩
  else if n = 0x10D then csrSup (bitsOf 51 16)
  else if n = 0x10E then some ⟨bitsOf 3 0, bitsOf 3 0, 0, bitsOf 3 0⟩
  else if n = 0x200 then csrRo (bitsOf 45 40 + bitsOf 31 0)
  else if n = 0x201 then csrRo (bitsOf 16 0)
  else none

/-! ### Reads -/

/-- A number as a word. -/
def wd (n : Nat) : Word := BitVec.ofNat 64 n

/-- The KTT of the current context. -/
def State.cktt (s : State) : Ktt := s.ktt s.cdev s.cx.asid.toNat
/-- The reticle field of the current stream. -/
def State.cfield (s : State) : Field := (s.dev s.cdev).fieldN s.cur.core.field

/-- cr.ncores, cr.wgid and cr.wgcount (R18). -/
def State.wgReg (s : State) (n : Nat) : Nat :=
  match n, s.launchOf s.xid, s.cx.live with
  | 1, some l, _ => l.ncores
  | 2, _, some (_, w) => w
  | 3, some l, _ => l.wgcount
  | _, _, _ => 0

/-- The value of a register; its write-only and reserved bits read 0. -/
def State.csrGet (s : State) (n : Nat) : Word :=
  let st := s.st
  let c := s.cx
  if n = 0x000 then wd (locWord s.cur s.xid.ctx)
  else if n ≤ 0x003 then wd (s.wgReg n)
  else if n = 0x004 then zx c.det
  else if n = 0x005 then zx st.rrb
  else if n ≤ 0x009 then zx (st.rlc (BitVec.ofNat 2 (n - 6)))
  else if n = 0x00A then zx st.uthr
  else if n = 0x00B then zx st.vsc
  else if n = 0x00C then st.vcnt
  else if n = 0x00D then wd (st.ret.toNat * 16 + (if c.live.isSome then 2 ^ s.vbanks - 1 else 0))
  else if n = 0x00E then wd ((if c.mrowValid then 256 else 0) + c.mrowRow.toNat)
  else if n = 0x00F then zx c.replan
  else if n ≤ 0x017 then zx (c.mcset.toList[n - 0x10]?.getD 0)
  else if n = 0x018 then zx c.semb
  else if n = 0x019 then (s.dev s.cdev).time
  else if n = 0x01A then wd ((s.dev s.cdev).timeSrc.toNat * 2 + (if (s.dev s.cdev).timeLocked then 1 else 0))
  else if n = 0x01B then ofHiBits c.codebase
  else if n = 0x01C then ofHiBits c.codelim
  else if n = 0x01D then wd (c.stbase.toNat * 2 ^ 16 + c.stcount.toNat)
  else if n = 0x01E then wd (c.collBase.toNat * 2 ^ 12 + c.collN.toNat)
  else if n = 0x01F then wd (st.rasSpill.toNat * 32 + st.rasCount.toNat)
  else if n = 0x020 then wd (st.rasBase.toNat * 8)
  else if n ≤ 0x03F then
    let k := n - 0x30
    if st.rasCount.toNat ≤ k then 0
    else ofHiBits (st.getRas k).raddr ||| (if (st.getRas k).defer then 1 else 0)
  else if n = 0x040 then wd ((s.dev s.cdev).gtbase.toNat * 2 ^ 18)
  else if n = 0x041 then (if (s.dev s.cdev).gtReq.isSome then wd (2 ^ 63) else 0)
  else if n = 0x100 then ofHiBits st.trap.tvec
  else if n = 0x101 then ofHiBits st.trap.epc
  else if n = 0x102 then ofHiBits st.trap.ehdr
  else if n = 0x103 then wd (st.trap.rem.toNat * 2 ^ 32)
  else if n = 0x104 then st.trap.cause
  else if n = 0x105 then st.trap.fdet
  else if n = 0x106 then st.trap.faddr
  else if n = 0x107 then zx st.trap.fsrc
  else if n = 0x108 then st.trap.tscr0
  else if n = 0x109 then st.trap.tscr1
  else if n = 0x10A then zx c.asid
  else if n = 0x10B then wd ((if c.hzdMode then 2 else 0) + (if c.hzdEn then 1 else 0))
  else if n = 0x10C then (if s.cktt.busy.isSome then wd (2 ^ 63) else 0)
  else if n = 0x10D then wd (c.kttnpa.toNat * 2 ^ 16)
  else if n = 0x200 then wd (s.cfield.tokens * 2 ^ 40 + 640 * 2 ^ 16 + s.cfield.ilim)
  else if n = 0x201 then wd ((if s.cfield.throt then 2 ^ 16 else 0) + s.cfield.temp.toNat)
  else 0

/-- The privilege at which the current stream may name a register (R239). -/
def State.csrPriv (s : State) (n : Nat) : Bool := n < 0x040 || s.st.priv == .s

/-- csrr (R239). -/
def execCsrr (d : BitVec 5) (n : BitVec 10) (s : State) : Out :=
  match csrInfo n.toNat with
  | none => s.raise .illegalOp
  | some _ => if s.csrPriv n.toNat then s.put d (s.csrGet n.toNat) else s.raise .priv

/-- rdtime (R241). -/
def execRdtime (d : BitVec 5) (s : State) : Out := s.put d (s.dev s.cdev).time

/-! ### Writes -/

/-- Write a loop counter and the access cursor's copy of it (R23, R146). -/
def Stream.setLc (st : Stream) (n : BitVec 2) (v : BitVec 32) : Stream :=
  let st := st.wlc n v
  { st with acc := { st.acc with lcs := st.acc.lcs.set n.toNat v n.isLt } }
/-- Write the rotation base and the access cursor's copy of it. -/
def Stream.setRrb (st : Stream) (v : BitVec 5) : Stream := { st with rrb := v, acc := { st.acc with rrb := v } }

/-- The register takes the value of its fields; `v` has passed every check, and the register is one whose write takes effect
in the stream's own step. An NRANK above 1,152 is held as written: R102 gives the range and no outcome. DESIGN CHOICE, log 76. -/
def State.csrSet (s : State) (n : Nat) (v : Word) : State :=
  let w (lo k : Nat) : Nat := nbits v.toNat lo k
  if n = 0x005 then s.onSt fun st => st.setRrb (v.setWidth 5)
  else if n ≤ 0x009 then s.onSt fun st => st.setLc (BitVec.ofNat 2 (n - 6)) (v.setWidth 32)
  else if n = 0x00A then s.onSt fun st => { st with uthr := v.setWidth 6 }
  else if n = 0x00B then s.onSt fun st => { st with vsc := v.setWidth 32 }
  else if n = 0x00C then s.onSt fun st => { st with vcnt := v }
  else if n = 0x00E then s.onCx fun c => { c with mrowValid := v.getLsbD 8, mrowRow := v.setWidth 8 }
  else if n = 0x00F then s.onCx fun c => { c with replan := v.setWidth 8 }
  else if n ≤ 0x017 then s.onCx fun c => { c with mcset := c.mcset.setIfInBounds (n - 0x10) (v.setWidth 40) }
  else if n = 0x018 then s.onCx fun c => { c with semb := v.setWidth 32 }
  else if n = 0x019 then s.onDev s.cdev fun d => { d with time := v }
  else if n = 0x01A then s.onDev s.cdev fun d => { d with timeSrc := BitVec.ofNat 2 (w 1 2) }
  else if n = 0x01B then s.onCx fun c => { c with codebase := hiBits v }
  else if n = 0x01C then s.onCx fun c => { c with codelim := hiBits v }
  else if n = 0x01D then
    s.onCx fun c => { c with stbase := BitVec.ofNat 41 (w 16 41), stcount := BitVec.ofNat 13 (min 4096 (w 0 13)) }
  else if n = 0x01E then s.onCx fun c => { c with collBase := BitVec.ofNat 45 (w 12 45), collN := BitVec.ofNat 11 (w 0 11) }
  else if n = 0x01F then s.onSt fun st => { st with rasSpill := BitVec.ofNat 32 (w 5 32), rasCount := BitVec.ofNat 5 (w 0 5) }
  else if n = 0x020 then s.onSt fun st => { st with rasBase := BitVec.ofNat 54 (w 3 54) }
  else if n ≤ 0x03F then s.onSt fun st => st.setRas (n - 0x30) { raddr := hiBits v, defer := v.getLsbD 0 }
  else if n = 0x040 then s.onDev s.cdev fun d => { d with gtbase := BitVec.ofNat 39 (w 18 39) }
  else if n = 0x100 then s.onSt fun st => { st with trap := { st.trap with tvec := hiBits v } }
  else if n = 0x101 then s.onSt fun st => { st with trap := { st.trap with epc := hiBits v } }
  else if n = 0x102 then s.onSt fun st => { st with trap := { st.trap with ehdr := hiBits v } }
  else if n = 0x103 then s.onSt fun st => { st with trap := { st.trap with rem := BitVec.ofNat 32 (w 32 32) } }
  else if n = 0x108 then s.onSt fun st => { st with trap := { st.trap with tscr0 := v } }
  else if n = 0x109 then s.onSt fun st => { st with trap := { st.trap with tscr1 := v } }
  else if n = 0x10B then s.onCx fun c => { c with hzdMode := v.getLsbD 1, hzdEn := v.getLsbD 0 }
  else if n = 0x10D then s.onCx fun c => { c with kttnpa := BitVec.ofNat 36 (w 16 36) }
  else s

/-- The value rule of a register: the value may not be written (R115, R147). -/
def State.csrBad (s : State) (n : Nat) (v : Word) : Bool :=
  if n = 0x019 then v.ult (s.dev s.cdev).time
  else if n = 0x01A then nbits v.toNat 1 2 == 3
  else if n = 0x01F then decide (16 < nbits v.toNat 0 5)
  else false

/-- A write of cr.gtcmd (R109): it waits while an action is in progress; LOAD and JOIN read the table entry, whose access
faults here. -/
def State.gtWrite (s : State) (v : Word) : Out :=
  let act := nbits v.toNat 12 4
  let g := nbits v.toNat 0 12
  let asid := s.cx.asid.toNat
  if act == 0 || 4 < act then s.raise .crValue
  else if (s.dev s.cdev).gtReq.isSome then .next (s.waits .none)
  else
    let t : Xl := ⟨s.xid, asid, .u, .load, .scalar⟩
    let bad := if act ≤ 2 then (match s.xlAccess t (gtEntryVa (s.dev s.cdev) g) 64 with
      | .bad f => some f
      | .ok _ => none) else none
    match bad with
    | some f => s.raiseRec f
    | none =>
      .next ((s.onDev s.cdev fun d =>
        { d with gtReq := some { act := act, dev := nbits v.toNat 16 11, group := BitVec.ofNat 12 g, asid := asid, launch := s.lidOf s.xid } }).adv 4)

/-- The physical range of an entry meets [a, a + n) of device memory. -/
def KttEntry.meetsPa (e : KttEntry) (a n : Nat) : Bool := !e.host && decide (e.pa < a + n) && decide (a < e.pa + 2 ^ e.log2)

/-- A write of cr.kttop is refused (R310). -/
def Ktt.refuses (k : Ktt) (act idx npa : Nat) : Bool :=
  match k.entries[idx]? with
  | none => true
  | some e =>
    if act == 1 || act == 2 then e.state == 2#2
    else if act == 3 then
      e.state != 1#2 || e.host || npa % 2 ^ e.log2 != 0 || k.entries.any fun o => o.meetsPa npa (2 ^ e.log2)
    else true

/-- The new base that cr.kttnpa holds. -/
def Ctx.npa (c : Ctx) : Nat := c.kttnpa.toNat * 2 ^ 16

/-- The stream waits for another agent's action on its register write. -/
def State.ask (s : State) (r : CsrReq) : Out := .next ((s.onSt fun st => { st with csrReq := r }).waits .none)

/-- A write of cr.kttop (R310): it waits while a migration is in progress. -/
def State.kttWrite (s : State) (v : Word) : Out :=
  let act := nbits v.toNat 56 4
  let idx := nbits v.toNat 0 13
  if s.cktt.busy.isSome then .next (s.waits .none)
  else if s.cktt.refuses act idx s.cx.npa then s.raise .crValue
  else if act == 1 then s.ask (.kttAbsent idx)
  else if act == 2 then s.ask (.kttPresent idx)
  else s.ask (.kttMigrate idx)

/-- A write of cr.ctxctl (R291): KILL, or the SKIP of a stopped queue whose head command is this context's. -/
def State.ctxWrite (s : State) (v : Word) : Out :=
  let e? : Option Eng := match nbits v.toNat 2 2 with
    | 0 => some .me
    | 1 => some .ce
    | 2 => some .cs
    | _ => none
  if v.getLsbD 0 then s.ask .kill
  else if !v.getLsbD 1 then .next (s.adv 4)
  else match e? with
    | none => .next (s.adv 4)
    | some e =>
      let q := (s.core s.cur.core).queue e
      if q.stop == .going && !q.cmds.head?.any EngCmd.ended then .next (s.adv 4) else s.ask (.skip e)

/-- A write that clears the bits `clr` of a register and then sets the bits `set` (R239). `part` marks csrs and csrc. -/
def State.csrWrite (s : State) (n : Nat) (clr set : Word) (part : Bool) : Out :=
  match csrInfo n with
  | none => s.raise .illegalOp
  | some i =>
    let v := (s.csrGet n &&& ~~~clr) ||| set
    if !s.csrPriv n then s.raise .priv
    else if (if s.st.priv == .s then i.ws else i.wu) == 0 then s.raise .crRo
    else if v &&& ~~~wd i.fld != 0#64 || (part && i.wo != 0) then s.raise .crValue
    else if n = 0x004 then
      if v == 3#64 then s.raise .crValue else s.ask (.det (clr.setWidth 2) (set.setWidth 2) s.nextId)
    else if n = 0x041 then s.gtWrite v
    else if n = 0x10C then s.kttWrite v
    else if n = 0x10E then s.ctxWrite v
    else if s.csrBad n v then s.raise .crValue
    else .next ((s.csrSet n v).adv 4)

/-- csrw (R239). -/
def execCsrw (n : BitVec 10) (a : BitVec 5) (s : State) : Out := s.csrWrite n.toNat (BitVec.allOnes 64) (s.rs a) false
/-- csrs (R239). -/
def execCsrs (n : BitVec 10) (a : BitVec 5) (s : State) : Out := s.csrWrite n.toNat 0 (s.rs a) true
/-- csrc (R239). -/
def execCsrc (n : BitVec 10) (a : BitVec 5) (s : State) : Out := s.csrWrite n.toNat (s.rs a) 0 true

/-! ### The level change (R94) -/

/-- The engine commands of a context: those queued, and those that its streams have issued and that have not entered. -/
def State.cmdList (s : State) (x : CtxId) : List EngCmd :=
  (engs.flatMap fun e => ((s.core x.core).queue e).cmds.filter fun c => c.x == x) ++
    (s.slotsOfCtx x).filterMap fun id => (s.strm id).engIssue
/-- The context has an engine command. -/
def State.cmdsOf (s : State) (x : CtxId) : Bool := !(s.cmdList x).isEmpty
/-- The runs of the plans of a context. -/
def Ctx.runs (c : Ctx) : List PlanRun := c.plans.filterMap fun p => p.2.plan.bind Plan.run
/-- A plan of the context runs. -/
def Ctx.planRuns (c : Ctx) : Bool := !c.runs.isEmpty
/-- An engine command or a plan run of the context is earlier than a number (R94); the commands of a run count with it. -/
def State.earlierCmd (s : State) (x : CtxId) (upto : Nat) : Bool :=
  (s.cmdList x).any (fun c => c.kind != .plan && decide (c.id < upto)) || (s.ctx x).runs.any fun r => decide (r.id < upto)

/-- The asked action of a stream is over: the stream goes on past its instruction. -/
def State.answered (s : State) : State := (s.onSt fun st => { st with csrReq := .none }).adv 4

/-- DET_LEVEL_CHANGE (R94): every earlier engine command and plan run of the WG has completed, and the level changes. -/
def execDetLevelChange (sl : SlotId) (s0 : State) : Out :=
  let s := { s0 with cur := sl, side := .execute }
  match s.st.csrReq with
  | .det clr set upto =>
    if !s.canAct sl || s.earlierCmd s.xid upto then .next s0
    else
      let v := (s.cx.det &&& ~~~clr) ||| set
      if v == 3#2 then (s.onSt fun st => { st with csrReq := .none }).raise .crValue
      else .next ((s.onCx fun c => { c with det := v }).answered)
  | _ => .next s0

end Sys2Proof.Machine
end

