-- ==== Sys2Proof/Machine/Image.lean ====
section
/-!
DEFINITION. Machine/Image.lean: the save image (R298 to R302): what is written for a context, and what is read back and checked
(R303).
-/
namespace Sys2Proof.Machine

/-! ### Layout -/

/-- Bytes followed by zeros up to n bytes. -/
def padTo (n : Nat) (bs : List Byte) : List Byte := (bs ++ List.replicate (n - bs.length) 0).take n
/-- n bytes at an offset. -/
def sliceOf (bs : List Byte) (off n : Nat) : List Byte := (bs.drop off).take n
/-- A number at an offset. -/
def numAt (bs : List Byte) (off n : Nat) : Nat := bytesNat (sliceOf bs off n)
/-- The number of image bytes in a slot (R297). -/
def imageSpan : Nat := 2 ^ 24
/-- The address of an image slot (R297). -/
def Device.imageAt (d : Device) (i : Nat) : Nat := d.savebase.toNat * 2 ^ 24 + i * imageSpan

/-- A section: its header and its body, filled up to a multiple of 16 bytes (R298). -/
def sectionOf (ty key : Nat) (body : List Byte) : List Byte :=
  natBytes 4 (ty * 2 ^ 24) ++ natBytes 4 body.length ++ natBytes 4 key ++ natBytes 4 0 ++
    padTo (ceilDiv body.length 16 * 16) body

/-! ### STREAM (R299) -/

/-- An entry of the tail table: kind, slot, FB, FEND, LEVEL. -/
def tailBytes : TailEntry → List Byte
  | .live fb fe l t => padTo 32 (natBytes 8 (1 + t * 4) ++ bvBytes 8 fb ++ bvBytes 8 fe ++ natBytes 4 l)
  | .defer fb l => padTo 32 (natBytes 8 2 ++ bvBytes 8 fb ++ natBytes 8 0 ++ natBytes 4 l)
/-- The latch states as the image codes them. -/
def latchCode : LatchSt → Nat
  | .empty | .pending => 0
  | .full => 2
/-- The access side that an image shows: that of the interrupted program where the stream is in its stub. -/
def Stream.shownAcc (st : Stream) : Access := st.divAcc.getD st.acc
/-- The latest copy of a scalar that the access cursor holds (R162). -/
def Access.copyOf (a : Access) (n : Nat) : Option Word :=
  (latest a.bases fun b => b.1 == BitVec.ofNat 5 n).map fun b => b.2.2
/-- STATE of a saved stream. -/
def Stream.stateCode (st : Stream) : Nat :=
  if st.status == .halted then 3 else if st.wait == .none then 1 else 2
/-- cr.scsel and what follows it at 0x0300, in order. -/
def Stream.crWords (st : Stream) : List Nat :=
  let t := st.trap
  [st.rrb.toNat] ++ st.lc.toList.map BitVec.toNat ++ [st.uthr.toNat, st.vsc.toNat, st.vcnt.toNat] ++
    [st.rasSpill.toNat * 32 + st.rasCount.toNat, st.rasBase.toNat * 8] ++
    (st.ras.toList.map fun e => e.raddr.toNat * 2 + (if e.defer then 1 else 0)) ++
    [t.tvec.toNat * 2, t.epc.toNat * 2, t.ehdr.toNat * 2, t.rem.toNat * 2 ^ 32] ++
    [t.cause.toNat, t.fdet.toNat, t.faddr.toNat, t.fsrc.toNat, t.tscr0.toNat, t.tscr1.toNat]
/-- The body of a STREAM section; p0 stands in it as it reads, all ones (R6). -/
def Stream.imageBody (st : Stream) (vbanks : Nat) : List Byte :=
  let a := st.shownAcc
  let w0 := st.stateCode + (if st.stub == .resumed then 4 else 0) + st.omitv.toNat * 8 + (if st.omits then 128 else 0)
  let cur (c : Cursor) : List Nat := [c.pc.toNat, c.hdr.toNat, c.rem.toNat]
  let counts := (st.acc.qs.toList.map List.length) ++ [a.done.length]
  let words (l : List Nat) : List Byte := l.flatMap (natBytes 8)
  let bank (n : Nat) : Vec := if n / 16 < vbanks then st.rv (BitVec.ofNat 6 n) else 0
  let copies := (upTo 32).map a.copyOf
  padTo 0x40 (natBytes 4 w0) ++
  padTo 0xC0 (words (cur st.ex ++ cur a.cur) ++ counts.flatMap (natBytes 1)) ++
  words (st.s.toList.map BitVec.toNat) ++
  ((upTo 16).flatMap fun n => bvBytes 16 (st.rp (BitVec.ofNat 4 n))) ++
  words st.crWords ++
  padTo 0x60 (st.fmt.toList.flatMap fun f => bvBytes 4 f) ++
  padTo 0x80 (st.tails.flatMap tailBytes) ++
  (st.l.toList.flatMap fun l => bvBytes 128 l.val) ++
  (st.l.toList.flatMap fun l => natBytes 1 (latchCode l.st)) ++
  natBytes 4 ((upTo 32).foldl (fun n k => n + (if (a.copyOf k).isSome then 2 ^ k else 0)) 0) ++
  padTo 0xF8 (words (a.lcs.toList.map BitVec.toNat)) ++
  (st.tx.toList.flatMap fun t => bvBytes 4096 t) ++
  ((upTo 64).flatMap fun n => bvBytes 128 (bank n)) ++
  (st.acc.qs.toList.flatMap fun q => padTo 2048 (q.flatMap fun v => bvBytes 128 v)) ++
  padTo 4096 (a.done.flatMap fun e => bvBytes 128 e.data) ++
  words (copies.map fun c => (c.getD 0).toNat)

/-- An entry of the tail table as it is read back: none where it is empty. -/
def tailOf (bs : List Byte) : Option TailEntry :=
  let w := numAt bs 0 4
  let fb := BitVec.ofNat 64 (numAt bs 8 8)
  if nbits w 0 2 = 1 then some (.live fb (BitVec.ofNat 64 (numAt bs 16 8)) (numAt bs 24 4) (nbits w 2 2))
  else if nbits w 0 2 = 2 then some (.defer fb (numAt bs 24 4))
  else none
/-- A vector of n bit vectors of k bytes each. -/
def vecAt (n k w : Nat) (bs : List Byte) (off : Nat) : Vector (BitVec w) n :=
  Vector.ofFn fun i => BitVec.ofNat w (numAt bs (off + k * i.val) k)
/-- The access side with what the image holds of it: the passes, the copies and the performed loads. -/
def Access.fromImage (a : Access) (bs : List Byte) : Access :=
  let w (off : Nat) : Word := BitVec.ofNat 64 (numAt bs off 8)
  let dones := (upTo a.done.length).zip a.done
  let held (n : Nat) : Bool := nbit (numAt bs 0x704 4) n
  let fix (b : Nat × BitVec 5 × Word) : Nat × BitVec 5 × Word :=
    if held b.2.1.toNat && (latest a.bases fun c => c.1 == b.2.1).map Prod.fst == some b.1 then
      (b.1, b.2.1, w (0x7800 + 8 * b.2.1.toNat))
    else b
  { a with
    cur := { a.cur with pc := w 0x58, hdr := w 0x60, rem := (w 0x68).setWidth 32 }
    lcs := vecAt 4 8 32 bs 0x708
    bases := a.bases.map fix
    done := dones.map fun p => { p.2 with data := bytesBv 1024 (sliceOf bs (0x6800 + 128 * p.1) 128) } }
/-- The stream that an image's STREAM body restores, the bookkeeping of `st` kept (R299, R303, log 15). A stream that stood at
BAR waits there still; any other that waited executes its instruction again (R160, R174, R231). -/
def Stream.fromImage (st : Stream) (bs : List Byte) : Stream :=
  let w (off : Nat) : Word := BitVec.ofNat 64 (numAt bs off 8)
  let cr (k : Nat) : Word := w (0x300 + 8 * k)
  let h (v : Word) : BitVec 56 := hiBits v
  let w0 := numAt bs 0 4
  let ras : Vector RasEntry 16 := Vector.ofFn fun i => ⟨h (cr (10 + i.val)), (cr (10 + i.val)).getLsbD 0⟩
  let latch (i : Nat) : Latch :=
    { st := if numAt bs (0x700 + i) 1 = 2 then .full else .empty, val := bytesBv 1024 (sliceOf bs (0x500 + 128 * i) 128) }
  let qs : Vector (List Vec) 4 := Vector.ofFn fun i =>
    (upTo (numAt bs (0x70 + i.val) 1)).map fun k => bytesBv 1024 (sliceOf bs (0x4800 + 2048 * i.val + 128 * k) 128)
  let state := nbits w0 0 2
  let atBar := match st.wait with
    | .bar _ => true
    | _ => false
  let acc := match st.divAcc with
    | some _ => { st.acc with qs := qs }
    | none => { st.acc.fromImage bs with qs := qs }
  { st with
    status := if state = 3 then .halted else if state = 2 && atBar then .waiting else .running
    wait := if state = 2 && atBar then st.wait else .none
    stub := if nbit w0 2 then .resumed else .none
    omitv := BitVec.ofNat 4 (nbits w0 3 4), omits := nbit w0 7
    ex := { st.ex with pc := w 0x40, hdr := w 0x48, rem := (w 0x50).setWidth 32 }
    acc := acc, divAcc := st.divAcc.map fun a => a.fromImage bs
    s := vecAt 32 8 64 bs 0x100, p := vecAt 16 16 128 bs 0x200
    rrb := (cr 0).setWidth 5, lc := vecAt 4 8 32 bs 0x308
    uthr := (cr 5).setWidth 6, vsc := (cr 6).setWidth 32, vcnt := cr 7
    rasSpill := BitVec.ofNat 32 (nbits (cr 8).toNat 5 32), rasCount := (cr 8).setWidth 5
    rasBase := BitVec.ofNat 54 (nbits (cr 9).toNat 3 54), ras := ras
    trap := { tvec := h (cr 26), epc := h (cr 27), ehdr := h (cr 28), rem := BitVec.ofNat 32 (nbits (cr 29).toNat 32 32)
              cause := cr 30, fdet := cr 31, faddr := cr 32, fsrc := (cr 33).setWidth 32, tscr0 := cr 34, tscr1 := cr 35 }
    fmt := vecAt 16 4 32 bs 0x420
    tails := (upTo 4).filterMap fun k => tailOf (sliceOf bs (0x480 + 32 * k) 32)
    l := Vector.ofFn fun i => latch i.val
    tx := vecAt 2 4096 32768 bs 0x800, v := vecAt 64 128 1024 bs 0x2800 }

/-! ### CONTEXT (R300) -/

/-- The registers of a context at 0x088, in order. -/
def Ctx.crWords (c : Ctx) : List Nat :=
  [c.det.toNat, (if c.mrowValid then 256 else 0) + c.mrowRow.toNat, c.replan.toNat, c.semb.toNat] ++
    c.mcset.toList.map BitVec.toNat ++
    [(if c.hzdMode then 2 else 0) + (if c.hzdEn then 1 else 0), c.stbase.toNat * 2 ^ 16 + c.stcount.toNat,
     c.collBase.toNat * 2 ^ 12 + c.collN.toNat, c.codebase.toNat * 2, c.codelim.toNat * 2]
/-- The body of the CONTEXT section; `bars` tells which levels a stream of the WG has arrived at. -/
def Ctx.imageBody (c : Ctx) (bars : List Bool) : List Byte :=
  padTo 1024 (
    (c.sems.toList.flatMap fun v => bvBytes 2 v) ++ natBytes 8 c.cb.toNat ++ c.crWords.flatMap (natBytes 8) ++
    padTo 16 (bars.flatMap fun b => natBytes 1 (if b then 1 else 0)) ++
    bvBytes 128 c.dirtyWb ++ bvBytes 96 c.dirtyAb ++ bvBytes 48 c.dirtyCb)
/-- The context that a CONTEXT body restores. -/
def Ctx.fromImage (c : Ctx) (bs : List Byte) : Ctx :=
  let cr (k : Nat) : Word := BitVec.ofNat 64 (numAt bs (0x88 + 8 * k) 8)
  { c with
    sems := vecAt 64 2 16 bs 0, cb := BitVec.ofNat 8 (numAt bs 0x80 1)
    det := (cr 0).setWidth 2, mrowValid := (cr 1).getLsbD 8, mrowRow := (cr 1).setWidth 8
    replan := (cr 2).setWidth 8, semb := (cr 3).setWidth 32, mcset := vecAt 8 8 40 bs (0x88 + 32)
    hzdMode := (cr 12).getLsbD 1, hzdEn := (cr 12).getLsbD 0
    stbase := BitVec.ofNat 41 (nbits (cr 13).toNat 16 41), stcount := BitVec.ofNat 13 (nbits (cr 13).toNat 0 13)
    collBase := BitVec.ofNat 45 (nbits (cr 14).toNat 12 45), collN := BitVec.ofNat 11 (nbits (cr 14).toNat 0 11)
    codebase := hiBits (cr 15), codelim := hiBits (cr 16)
    dirtyWb := bytesBv 1024 (sliceOf bs 0x120 128), dirtyAb := bytesBv 768 (sliceOf bs 0x1A0 96)
    dirtyCb := bytesBv 384 (sliceOf bs 0x200 48) }

/-! ### BUFFER (R301, R302) -/

/-- The tokens of a region's granules: this device writes one token for each (log 15). -/
def codeGranules : Nat → List Byte → List Byte
  | 0, _ => []
  | k + 1, bs =>
    let g := bs.take 16
    (if g.all (· == 0#8) then [0#8] else 0x80#8 :: g) ++ codeGranules k (bs.drop 16)
/-- Repeat a list. -/
def repeatList {α : Type} : Nat → List α → List α
  | 0, _ => []
  | n + 1, l => l ++ repeatList n l
/-- Decode tokens; `fuel` bounds their number. None where a token is reserved or cut short. -/
def decodeTokens : Nat → List Byte → Option (List Byte)
  | _, [] => some []
  | 0, _ :: _ => none
  | k + 1, t :: r =>
    let n := t.toNat % 64 + 1
    let take (len : Nat) (out : List Byte) : Option (List Byte) :=
      if r.length < len then none else (decodeTokens k (r.drop len)).map (out ++ ·)
    match t.toNat / 64 with
    | 0 => take 0 (List.replicate (16 * n) 0)
    | 1 => take 16 (repeatList n (r.take 16))
    | 2 => take (16 * n) (r.take (16 * n))
    | _ => none
/-- A body that decodes to exactly 256 granules (R302). -/
def decodeRegion (bs : List Byte) : Option (List Byte) :=
  match decodeTokens bs.length bs with
  | some r => if r.length = 4096 then some r else none
  | none => none

/-- The buffers and their codes in KEY. -/
def bufs : List (Nat × Buf) := [(0, .wb), (1, .ab), (2, .cb)]
/-- A dirty bit of a context. -/
def Ctx.dirtyBit (c : Ctx) (b : Buf) (k : Nat) : Bool :=
  match b with
  | .wb => c.dirtyWb.getLsbD k
  | .ab => c.dirtyAb.getLsbD k
  | .cb => c.dirtyCb.getLsbD k
/-- The BUFFER sections of a context: one for each dirty region, in increasing buffer and region. -/
def Ctx.bufferSections (c : Ctx) (excl : Bool) : List (List Byte) :=
  bufs.flatMap fun p =>
    ((upTo (shareSize excl p.2 / 4096)).filter fun k => c.dirtyBit p.2 k).map fun k =>
      sectionOf 5 (p.1 * 2 ^ 30 + k) (codeGranules 256 (mread (c.buf p.2) (4096 * k) 4096))

/-! ### The image (R298) -/

/-- The image of a context. `opq` is the body of its EQUEUE and its PLAN section (log 15). -/
def imageOf (c : Ctx) (ctxNum vbanks : Nat) (excl : Bool) (bars : List Bool) (sts : List (SlotId × Stream))
    (opq : List Byte) : List Byte :=
  let secs := [sectionOf 1 0 (c.imageBody bars)] ++
    (sts.map fun p => sectionOf 2 (p.1.cl * 16 + p.1.sl * 4) (p.2.imageBody vbanks)) ++
    [sectionOf 3 0 opq, sectionOf 4 0 opq] ++ c.bufferSections excl ++ [sectionOf 0xFF 0 []]
  let body := secs.flatten
  let w2 := (if excl then 2 ^ 15 else 0) + ctxNum * 2 ^ 14 + c.asid.toNat
  padTo 64 (natBytes 4 0x58385356 ++ natBytes 4 1 ++ natBytes 4 w2 ++ natBytes 4 secs.length ++
    natBytes 8 (64 + body.length)) ++ body

/-- A section as it is read back. -/
structure Section where
  ty : Nat
  key : Nat
  body : List Byte
  deriving DecidableEq, Repr

/-- Read n sections from an offset on: none where one runs past LEN, or has a reserved TYPE or field set (R303). -/
def readSections (d : Device) (base len : Nat) : Nat → Nat → Option (List Section)
  | 0, _ => some []
  | n + 1, off =>
    let w (k : Nat) : Nat := d.pnat (base + off + 4 * k) 4
    let ty := w 0 / 2 ^ 24
    let bl := w 1
    let okTy := (1 ≤ ty && ty ≤ 5) || ty == 0xFF
    let okKey := if ty = 2 then w 2 % 4 == 0 && decide (w 2 < 64) else if ty = 5 then nbits (w 2) 10 20 == 0 else w 2 == 0
    if len < off + 16 + bl || !okTy || w 0 % 2 ^ 24 != 0 || w 3 != 0 || !okKey then none
    else
      match readSections d base len n (off + 16 + ceilDiv bl 16 * 16) with
      | none => none
      | some r => some (⟨ty, w 2, d.pread (base + off + 16) bl⟩ :: r)

/-- The control registers of a STREAM section in order (R299). -/
def streamCrs : List Nat :=
  [0x005, 0x006, 0x007, 0x008, 0x009, 0x00A, 0x00B, 0x00C, 0x01F, 0x020] ++ (upTo 16).map (0x030 + ·) ++ (upTo 10).map (0x100 + ·)
/-- The control registers of a CONTEXT section in order (R300). -/
def contextCrs : List Nat := [0x004, 0x00E, 0x00F, 0x018] ++ (upTo 8).map (0x010 + ·) ++ [0x10B, 0x01D, 0x01E, 0x01B, 0x01C]
/-- The words of control registers at an offset have no bit outside their fields (R5, R240). -/
def crsOk (bs : List Byte) (off : Nat) (ns : List Nat) : Bool :=
  ns.zipIdx.all fun p => match csrInfo p.1 with
    | some i => wd (numAt bs (off + 8 * p.2) 8) &&& ~~~wd i.fld == 0#64
    | none => true
/-- The reserved bits of an entry of the tail table are zero. -/
def tailReservedOk (bs : List Byte) : Bool :=
  decide (numAt bs 0 8 < 16) && nbits (numAt bs 0 4) 0 2 != 3 && numAt bs 28 4 == 0
/-- The reserved bits of the bodies that R299 and R300 lay out are zero: what neither table names, and the bits of registers and of the
tail table outside their fields (R303). -/
def Section.reservedOk (c : Section) : Bool :=
  let zero (off n : Nat) : Bool := numAt c.body off n == 0
  match c.ty with
  | 1 =>
    c.body.length == 1024 && zero 0x81 7 && crsOk c.body 0x088 contextCrs && zero 0x115 11 && zero 0x230 (1024 - 0x230)
  | 2 =>
    c.body.length == 0x7900 && numAt c.body 0 4 / 256 == 0 && nbits (numAt c.body 0 4) 0 2 != 0 && zero 4 0x3C &&
      zero 0x75 0x8B && crsOk c.body 0x300 streamCrs && zero 0x460 0x20 &&
      ((upTo 4).all fun k => tailReservedOk (sliceOf c.body (0x480 + 32 * k) 32)) && zero 0x728 0xD8
  | _ => true

/-- The regions of the BUFFER sections: buffer, region and bytes; none where one does not decode or lies outside the share. -/
def regionsOf (excl : Bool) : List Section → Option (List (Buf × Nat × List Byte))
  | [] => some []
  | c :: r =>
    if c.ty ≠ 5 then regionsOf excl r
    else
      let k := c.key % 1024
      match bufs.find? fun p => p.1 == c.key / 2 ^ 30, decodeRegion c.body, regionsOf excl r with
      | some (_, b), some bs, some rest => if 4096 * k < shareSize excl b then some ((b, k, bs) :: rest) else none
      | _, _, _ => none

/-- An image that has passed every check of R303. -/
structure Image where
  context : List Byte
  streams : List (Nat × List Byte)
  regions : List (Buf × Nat × List Byte)
  deriving DecidableEq, Repr

/-- Check a whole image (R303): none where a check fails. The sections must be those of R298, in its order. -/
def Device.checkImage (d : Device) (base : Nat) (asid : BitVec 14) (excl : Bool) : Option Image :=
  let w (k : Nat) : Nat := d.pnat (base + 4 * k) 4
  let len := d.pnat (base + 16) 8
  let hdrOk := w 0 == 0x58385356 && w 1 == 1 && nbits (w 2) 0 14 == asid.toNat && w 2 / 2 ^ 16 == 0 &&
    decide (len ≤ imageSpan) && ((upTo 10).all fun k => w (6 + k) == 0)
  if !hdrOk then none
  else
    match readSections d base len (min (w 3) (imageSpan / 16)) 64 with
    | none => none
    | some secs =>
      let tys := secs.map Section.ty
      let sorted := (tys.zip (tys.drop 1)).all fun p => decide (p.1 ≤ p.2)
      match secs.find? fun c => c.ty == 1, regionsOf excl secs with
      | some c, some rs =>
        if secs.all Section.reservedOk && sorted && tys.getLast? == some 0xFF then
          some ⟨c.body, (secs.filter fun c => c.ty == 2).map fun c => (c.key, c.body), rs⟩
        else none
      | _, _ => none

/-- The buffers of a context from an image: regions of no section hold 0x00 (R301). -/
def Ctx.withRegions (c : Ctx) (rs : List (Buf × Nat × List Byte)) : Ctx :=
  rs.foldl (fun c r => c.setBuf r.1 (mwrite (c.buf r.1) (4096 * r.2.1) r.2.2)) { c with wb := [], ab := [], cbuf := [] }

end Sys2Proof.Machine
end

