-- ==== Sys2Proof/Machine/Save.lean ====
section
/-!
DEFINITION. Machine/Save.lean: trap entry and the fault log (R293, R295), pre-emption (R123, R134, R160, R174, R242, R243, R263,
R296), saving a context (R224, R296 to R302), and SKIP and KILL (R291).
-/
namespace Sys2Proof.Machine

/-! ### Trap entry (R293) -/

/-- The order in which pending faults are delivered: the stream's own, then those of the ME, the CE and the CS. -/
def FaultRec.rank (f : FaultRec) : Nat := if f.eng then (f.src.extractLsb' 30 2).toNat else 0
/-- The pending fault that is delivered next. -/
def nextFault (l : List FaultRec) : Option FaultRec :=
  l.foldl (fun b f => match b with
    | none => some f
    | some g => if f.rank < g.rank then some f else some g) none
/-- The lowest-numbered main stream of a WG that has not halted. -/
def State.liveMain (s : State) (x : CtxId) : Option SlotId :=
  (mainsOf x).find? fun id => (s.strm id).present && (s.strm id).status != .halted
/-- A fault leaves the pending faults of a stream. -/
def State.unpend (s : State) (id : SlotId) (f : FaultRec) : State :=
  s.onStrm id fun st => { st with pendFaults := st.pendFaults.erase f }
/-- Deliver a pending fault to a stream that can take it: what it was about to issue or to ask is given up, and done again
after the return. -/
def State.takeTrap (s : State) (id : SlotId) (f : FaultRec) : State :=
  let s1 := (s.unpend id f).onStrm id fun st => { st with engIssue := none, csrReq := .none }
  s1.deliver id f (s.strm id).ex.retPoint

/-- TRAP_ENTRY (R293): the next pending fault of a stream in U is delivered. A fault of a stream that has halted goes to the
lowest-numbered main stream that has not, or, when all have, revives main stream c0 for its handler. -/
def execTrapEntry (sl : SlotId) (s0 : State) : Out :=
  let s := { s0 with cur := sl, side := .execute }
  let st := s.st
  match nextFault st.pendFaults with
  | none => .next s0
  | some f =>
    if (s.core sl.core).fenced || st.priv == .s then .next s0
    else if st.status == .halted then
      let g := { f with wg := true, origin := some (f.origin.getD (locWord sl s.xid.ctx)) }
      match s.liveMain s.xid with
      | some id => .next ((s.unpend sl f).onStrm id fun st => { st with pendFaults := st.pendFaults ++ [g] })
      | none =>
        let id : SlotId := ⟨sl.core, 0, s.xid.ctx⟩
        .next (((s.unpend sl f).onStrm id fun st => { st with revived := true, status := .running }).deliver id g
          (s.strm id).ex.retPoint)
    else if !(s.canAct sl) then .next s0
    else .next (s.takeTrap sl f)

/-! ### The fault log (R295) -/

/-- The words of a record. -/
def LogRec.bytes (r : LogRec) : List Byte :=
  padTo 64 (bvBytes 8 r.cause ++ bvBytes 8 r.epc ++ bvBytes 8 r.faddr ++ bvBytes 8 r.fdet ++ natBytes 8 r.fsrc.toNat ++
    bvBytes 8 r.time)
/-- LOG2N lies in 4 to 16: there is a log. -/
def Device.hasLog (d : Device) : Bool := decide (4 ≤ d.fllog2n.toNat) && decide (d.fllog2n.toNat ≤ 16)
/-- The bytes of the next record in the ring. -/
def Device.logAt (d : Device) : Nat × Nat := (d.flbase.toNat * 64 + 64 * (d.flwptr.toNat % 2 ^ d.fllog2n.toNat), 64)
/-- Write one record: a full ring drops it and counts it, and the interrupt is raised either way. -/
def Device.writeLog (d : Device) (r : LogRec) : Device :=
  let n := 2 ^ d.fllog2n.toNat
  let d1 :=
    if (d.flwptr - d.flrptr).toNat = n then { d with fllost := if d.fllost == BitVec.allOnes 32 then d.fllost else d.fllost + 1 }
    else { d.pwrite d.logAt.1 r.bytes with flwptr := d.flwptr + 1 }
  d1.raise d.flvec.toNat

/-- FAULT_LOG_RECORD (R295): the oldest record that waits is written; with no log it is lost. -/
def execFaultLogRecord (dev : Nat) (s : State) : Out :=
  let d := s.dev dev
  match d.logQueue with
  | [] => .next s
  | r :: rest =>
    s.cpAccess dev (if d.hasLog then [d.logAt] else []) fun s => .next (s.onDev dev fun d =>
      let d1 := { d with logQueue := rest }
      if d.hasLog then d1.writeLog r else d1)

/-! ### Saving a stream (R174, R242, R296) -/

/-- The stores of a stream have taken effect, its STGs are stamped, its latches are not PENDING, and nothing that it asked for
is under way: what it holds may be saved. -/
def State.settled (s : State) (id : SlotId) : Bool :=
  let st := s.strm id
  st.sq.isEmpty && st.allSq.all SqItem.isTwin && (s.ownStores id (st.seq + 1)).isEmpty && !s.unstamped id && !st.latchPending &&
    st.engIssue.isNone && st.csrReq == .none && st.amoPend.isEmpty
/-- The stream as the hardware saves it: its pending writes have landed. -/
def Stream.save (st : Stream) : Stream :=
  { st.landAll with status := .saved, held := none, cache := [], joinAt := none, busy := [], wake := 0, yield := 0 }
/-- Save a stream by hardware, once it has settled: a join point at which it waits or right after which it stands is given up, and any
other that has not performed is saved so (R174). -/
def State.hwSave (s : State) (id : SlotId) : State :=
  let s1 := s.onStrm id fun st => st.unissue.stow
  if s1.settled id then s1.onStrm id Stream.save else s

/-- The stub of the drain entry that covers a stream's header (R134). -/
def State.stubOf (s : State) (id : SlotId) : Option Word :=
  match s.launchOf (s.xidOf id) with
  | none => none
  | some l =>
    let hdr := (s.strm id).ex.hdr.toNat
    (l.drains.find? fun e => decide (l.codeva + e.1 ≤ hdr) && decide (hdr < l.codeva + e.2.1)).map fun e => BitVec.ofNat 64 (l.codeva + e.2.2)
/-- Go to a stub (R134): the place left and its access side are kept, with the join points that have not performed (R174); the operand
queues stay. -/
def Stream.divertTo (st : Stream) (a : Word) : Stream :=
  let st := st.landAll.stow
  let c := Cursor.atHeader a
  { st with divert := st.ex, divAcc := some { st.acc with seq0 := st.seq }, stub := .before, ex := c, status := .running,
            wait := .none, held := none, acc := { cur := c, lcs := st.lc, rrb := st.rrb, qs := st.acc.qs } }

/-- A wait that a request cuts short (R160, R174, R231, R244). -/
def WaitFor.cut : WaitFor → Bool
  | .none | .sync | .handBack => false
  | .waitt _ | .bar _ | .join | .gacq _ _ | .sem _ _ | .other => true

/-- A MARK, FENCE or atomic of the stream has not performed (R174). -/
def Stream.joinPending (st : Stream) : Bool := st.sq.any fun i => match i with
  | .twin _ .gate => false
  | .twin _ _ => true
  | .store _ _ _ | .stg _ _ _ _ _ _ => false
/-- The stream waits in an instruction that a request cuts short, or with a MARK, FENCE or atomic that has not performed, or stands right
after one (R160, R174, R231, R233, R234, R244). -/
def Stream.cutShort (st : Stream) : Bool :=
  (st.status == .waiting && (st.wait.cut || st.joinPending)) || st.unperformed.isSome
/-- PREEMPT_DIVERSION (R123, R134, R160, R296): at a pre-emption point a stream goes to the stub of its drain entry, or is saved
by hardware where no entry covers its header; a stream that waits in an instruction of those rules is saved at once. A store behind a join
point takes effect first (R174); where a fault of the access side keeps it from that, the fault is taken (log 7). -/
def execPreemptDiversion (sl : SlotId) (s0 : State) : Out :=
  let s := ({ s0 with cur := sl, side := .execute }).onSt fun st => if st.joinPending then { st with engIssue := none } else st
  let st := s.st
  if !s.canAct sl || !s.asked sl || !st.pendFaults.isEmpty || st.engIssue.isSome || st.csrReq != .none then .next s0
  else if !s.diverts sl && !st.cutShort then .next s0
  else if st.storeBehind then (if st.acc.headFaulted then s.waitAccess else .next s0)
  else match (if s.diverts sl then s.stubOf sl else none) with
    | some a => .next (s.setSt (st.divertTo a))
    | none => .next (s.hwSave sl)

/-! ### Stubs (R242, R243, R263) -/

/-- What a stub may not execute before its PSAVE (R263). -/
def stubForbids : Instr → Bool
  | .mma _ _ _ _ _ _ | .mmas _ _ _ _ _ _ | .mzero _ | .mcvt _ _ _ _ | .mldacc _ _ | .mstacc _ _ | .mstat _ _ | .cpy _ | .cpyx _
  | .gth _ | .sct _ | .qfence _ _ _ | .coll _ | .stg _ _ _ _ _ _ | .call _ | .callr _ _ | .relc | .tjoin | .bar _ | .fork _
  | .join _ _ | .qplan _ _ | .qrun _ _ | .halt => true
  | .semsig q _ _ | .semwait q _ _ => q != .stream
  | _ => false
/-- The instruction is forbidden to the current stream: STUB_OP, and nothing of it happens. -/
def State.stubStops (s : State) (i : Instr) : Bool := s.st.priv == .u && s.st.stub == .before && stubForbids i

/-- Registers that PSAVE omits read 0 afterwards (R242, R243). -/
def Stream.omit (st : Stream) (banks : BitVec 4) (scalars : Bool) : Stream :=
  let v : Vector Vec 64 := Vector.ofFn fun i => if banks.getLsbD (i.val / 16) then 0 else st.v[i.val]'i.isLt
  { st with v := v, s := if scalars then Vector.replicate 32 0 else st.s, omitv := banks, omits := scalars }

/-- psave (R242): in a stub before its PSAVE; the stream settles, what is not omitted is saved, its loads on their way among it, and the
stream resumes after the instruction (R243). An SQ that a load keeps from emptying waits for the access side. -/
def execPsave (omitv : BitVec 4) (omits : Bool) (s : State) : Out :=
  let st := s.st
  if (upTo 4).any fun b => omitv.getLsbD b && decide (s.vbanks ≤ b) then s.raise .illegalOp
  else if st.priv == .s || st.stub != .before then s.raise .psaveState
  else if !st.sq.isEmpty && (!st.acc.late.isEmpty || st.acc.headFaulted) then s.waitAccess
  else if !s.settled s.cur then .next (s.waits .none)
  else .next ((s.adv 4).onSt fun st => { (st.landAll.omit omitv omits).save with stub := .resumed })

/-- The stream goes back from its stub to the place that it left (R243): the queues as they are, the access side as it was. -/
def Stream.comeBack (st : Stream) : Stream :=
  let st := st.landAll
  let seq := st.seq + 1
  let a := match st.divAcc with
    | none => ({ cur := st.divert } : Access)
    | some a => if a.together then (a.shift (seq - a.seq0)).resync st.divert seq else a.shift (seq - a.seq0)
  { st with ex := st.divert, seq := seq, acc := { a with qs := st.acc.qs }, divAcc := none, stub := .none, status := .running,
            wait := .none, lastCe := none, held := none, cache := [], joinAt := none, omitv := 0, omits := false }.unstow

/-- prest (R243): in a resumed stub; the checks of R120 and R121 run when the block is entered. -/
def execPrest (s : State) : Out :=
  let st := s.st
  if st.priv == .s || st.stub != .resumed then s.raise .prestState
  else if !st.acc.late.isEmpty || st.acc.headFaulted then s.waitAccess
  else if !st.acc.lq.isEmpty then .next (s.waits .none)
  else .next (s.onSt Stream.comeBack)

/-! ### Saving a context (R224, R296) -/

/-- An STG of some stream of a context, ended tails included, has no stamp yet (R174, R253). -/
def State.wgUnstamped (s : State) (x : CtxId) : Bool :=
  s.toHome.any fun m => match m.item with
    | .store o _ _ _ _ => s.xidOf o == x
    | .join _ | .leave _ | .resend _ _ => false
/-- Every stream of a context is saved, or halted, its tails included. -/
def State.stilled (s : State) (x : CtxId) : Bool :=
  !s.wgUnstamped x &&
  (s.slotsOfCtx x).all fun id => ((s.strm id).status == .saved || (s.strm id).status == .halted) && s.settled id
/-- A command is one of a run of the context, on whatever core it stands (R89). -/
def Ctx.runsCmd (c : Ctx) (h : EngCmd) : Bool := h.kind == .plan && c.runs.any fun r => r.id == h.xfer
/-- The commands of the runs of a context, on every core, have no write under way and no fault of one to be raised. -/
def State.runsStill (s : State) (x : CtxId) : Bool :=
  s.cores.all fun k => k.2.me.cmds.all fun h => !(s.ctx x).runsCmd h || (h.pageFault.isNone && !k.2.writing h.id)
/-- The engine queues of a context have stopped at a boundary: its writes have taken effect, those of its runs on other cores too, and every
chunk that it sent is acknowledged (R98, R107, R224). -/
def State.enginesStill (s : State) (x : CtxId) : Bool :=
  !((s.core x.core).paths.any fun p => p.x == x) && s.runsStill x &&
    engs.all fun e => ((s.core x.core).queue e).cmds.all fun c => c.x != x || c.unacked.isEmpty
/-- The contexts that are saved with `x`: those of a cooperative launch together (R16). -/
def State.savedWith (s : State) (x : CtxId) : List CtxId :=
  match s.launchOf x with
  | some l => if l.coop then l.running.map Prod.snd else [x]
  | none => [x]
/-- The lowest free image slot (R297). -/
def Device.freeImage (d : Device) : Option Nat :=
  (upTo d.savenum.toNat).find? fun i => (fget? d.images i).isNone
/-- A command as an image keeps it: a migrated one is back at its own queue, and one that stopped part-way resumes (R224). -/
def EngCmd.forImage (c : EngCmd) : EngCmd :=
  { c with migrated := none, partialRows := [], started := none, restart := c.restart || (c.usesMrow && decide (0 < c.row)) }
/-- The commands of a context, in the order ME, CE, CS. -/
def State.cmdsSaved (s : State) (x : CtxId) : List EngCmd :=
  engs.flatMap fun e => (((s.core x.core).queue e).cmds.filter fun c => c.x == x).map EngCmd.forImage
/-- A WG of a launch is saved: its timer stops (R285). -/
def Launch.suspend (l : Launch) (wg i : Nat) (x : CtxId) : Launch :=
  let r := l.running.filter fun p => p.1 != wg
  let k := (x.core.field, x.core.core / 4)
  let l := { l with running := r, savedWgs := l.savedWgs ++ [(wg, i)], issued := fset l.issued k (fget l.issued k 0 - 1) }
  let l := { l with timers := fdel l.timers wg }
  if r.isEmpty then { l with startedAt := none, resuming := true } else l

/-- The commands of the runs of a context leave the queues of every core: the bank enters them again after a restore (R98). -/
def State.dropRuns (s : State) (x : CtxId) : State :=
  { s with cores := s.cores.map fun k =>
      (k.1, { k.2 with me := { k.2.me with cmds := k.2.me.cmds.filter fun h => !(s.ctx x).runsCmd h } }) }
/-- The context is freed: its streams, its commands, those of its runs on other cores, and its tokens (R98, R296). -/
def State.freeCtx (s : State) (x : CtxId) : State :=
  let s0 := s.dropRuns x
  let s1 := s0.giveTokens x
  let s2 := (s1.slotsOfCtx x).foldl State.freeSlot s1
  let s3 := s2.onCore x.core fun c => { c with me := c.me.purge x, ce := c.ce.purge x, cs := c.cs.purge x }
  s3.setCtx x {}

/-- The image of a context as it stands (R298). -/
def State.contextImage (s : State) (x : CtxId) : List Byte :=
  let sts := (s.slotsOfCtx x).map fun id => (id, s.strm id)
  let vb := match s.launchOf x with
    | none => 4
    | some l => l.vbanks
  let bars := [BarLevel.core, .quad, .field, .device, .pod].map fun b => sts.any fun p => p.2.wait == .bar b
  imageOf (s.ctx x) x.ctx vb (s.exclOf x) bars sts ((Config.deviceBody s.clock).take 0x100000)

/-- CONTEXT_SAVE (R296): every stream of the context is saved and its engines have stopped; the image is written to the lowest
free slot, and then the context, its tail slots and its share are freed. Without a free slot it stays (R297). -/
def execContextSave (x : CtxId) (s : State) : Out :=
  let c := s.ctx x
  match c.live, (s.dev x.core.dev).freeImage with
  | some (lid, wg), some i =>
    if !c.preempt || !(s.savedWith x).all (fun y => (s.ctx y).preempt && s.stilled y && s.enginesStill y) then .next s
    else
      let sts := (s.slotsOfCtx x).map fun id => (id, s.strm id)
      let img := s.contextImage x
      let rec_ : ImageSlot :=
        { launch := lid, wgid := wg, x := x, ctx := { c with wb := [], ab := [], cbuf := [], preempt := false }, streams := sts,
          queues := s.cmdsSaved x }
      let s1 := s.onDev x.core.dev fun d => { d.pwrite (d.imageAt i) img with images := fset d.images i rec_ }
      s.cpAccess x.core.dev [((s.dev x.core.dev).imageAt i, img.length)] fun _ =>
        .next ((s1.freeCtx x).onLaunch x.core.dev lid fun l => l.suspend wg i x)
  | _, _ => .next s

/-! ### SKIP and KILL (R291) -/

/-- CONTEXT_SKIP (R291): the head command of the stopped queue that the supervisor named is discarded, and the queue goes on. A follow-on
bound to a discarded copy runs as if the copy had landed: no rule says what becomes of it. DESIGN CHOICE, log 74. -/
def execContextSkip (sl : SlotId) (s0 : State) : Out :=
  let s := { s0 with cur := sl, side := .execute }
  match s.st.csrReq with
  | .skip e =>
    let q := (s.core sl.core).queue e
    let mine := match q.cmds with
      | h :: _ => h.x == s.xid
      | [] => false
    if !s.canAct sl then .next s0
    else if (q.stop != .going || q.cmds.head?.any EngCmd.ended) && mine then .next ((s.popHead sl.core e).answered)
    else .next s.answered
  | _ => .next s0

/-- CONTEXT_KILL (R291): every context of the launch is killed, as at stage T2 of R285. -/
def execContextKill (sl : SlotId) (s0 : State) : Out :=
  let s := { s0 with cur := sl, side := .execute }
  match s.st.csrReq with
  | .kill => if s.canAct sl then .next ((s.onSt fun st => { st with csrReq := .none }).killOf sl) else .next s0
  | _ => .next s0

end Sys2Proof.Machine
end

