-- ==== Sys2Proof/Machine/Queue.lean ====
section
/-!
DEFINITION. Machine/Queue.lean: work queues, packets and the parser (R273 to R276, R278), dependency counters (R279 to R282), and
the packets NOP, SETLEVEL, ARM and WRITE (R95, R276).
-/
namespace Sys2Proof.Machine

/-! ### Dependency counters (R279, R281) -/

/-- An arm of a counter. -/
structure Arm where
  thresh : Nat
  kind : Nat
  vec : Nat
  tgt : Nat
  deriving DecidableEq, Repr

/-- Arm a of the counter at an address. -/
def Device.armAt (d : Device) (c a : Nat) : Arm :=
  let w (k : Nat) : Nat := d.pnat (c + 4 * (4 + 4 * a + k)) 4
  ⟨w 0, w 1 / 2 ^ 30, nbits (w 1) 16 11, d.pnat (c + 4 * (6 + 4 * a)) 8⟩
/-- Write arm a of a counter. -/
def Device.putArm (d : Device) (c a : Nat) (r : Arm) : Device :=
  ((d.pput (c + 4 * (4 + 4 * a)) 4 r.thresh).pput (c + 4 * (5 + 4 * a)) 4 (r.kind * 2 ^ 30 + r.vec * 2 ^ 16)).pput
    (c + 4 * (6 + 4 * a)) 8 r.tgt
/-- NARM of a counter. -/
def Device.narm (d : Device) (c : Nat) : Nat := nbits (d.pnat (c + 4) 4) 0 2
/-- COUNT of a counter. -/
def Device.count (d : Device) (c : Nat) : Nat := d.pnat c 4
/-- Write word 1 of a counter. -/
def Device.putWord1 (d : Device) (c : Nat) (heldv under : Bool) (n : Nat) : Device :=
  d.pput (c + 4) 4 ((if heldv then 2 ^ 31 else 0) + (if under then 2 ^ 30 else 0) + n)
/-- Fire an arm (R281): an interrupt at once, or a decrement in a separate step. -/
def Device.fireArm (d : Device) (r : Arm) : Device :=
  if r.kind = 1 then d.raise r.vec else if r.kind = 2 then { d with arms := d.arms ++ [r.tgt] } else d
/-- Insert an arm behind those with the same or a higher threshold. -/
def insertArm (r : Arm) : List Arm → List Arm
  | [] => [r]
  | x :: l => if r.thresh ≤ x.thresh then x :: insertArm r l else r :: x :: l

/-- The slot that a queue is mapped to (R283). -/
def Device.slotOf (d : Device) (q : Nat) : Option QSlot := (d.slots.find? fun p => p.2.valid && p.2.qid == q).map Prod.snd
/-- Set the pending bit of a queue (R283). -/
def Device.setPend (d : Device) (q : Nat) : Device := if d.pendq.contains q then d else { d with pendq := d.pendq ++ [q] }
/-- WPTR and RPTR of a queue (R273). -/
def Device.wptr (d : Device) (q : Nat) : Nat := d.qword q 4
/-- RPTR of a queue. -/
def Device.rptr (d : Device) (q : Nat) : Nat := d.qword q 5
/-- The parser is past a packet. -/
def Device.parsed (d : Device) (q idx : Nat) : Device :=
  if d.rptr q = idx then d.setQword q 5 ((idx + 1) % 2 ^ 32) else d
/-- Push a taken packet onto the ready list (R283): behind its 256 packets stand those that have been released and wait for room. -/
def Device.pushReady (d : Device) (q idx : Nat) : Device :=
  { d with pkts := d.pkts.map fun p => if p.q == q && p.idx == idx && p.st == .held then { p with st := .ready } else p,
           ready := d.ready ++ [(q, idx)] }
/-- OPCODE. -/
def pkOp (w : BitVec 512) : Nat := recFld w 0 24 8
/-- A packet is an ARM: the parser stays at it until it has been performed, since ARM_FULL leaves RPTR at it (R278, R281). -/
def isArm (w : BitVec 512) : Bool := pkOp w == 4
/-- Release the packet that a counter holds (R281, R283). -/
def Device.releaseHeld (d : Device) (q idx : Nat) : Device :=
  match d.pkts.find? fun p => p.q == q && p.idx == idx && p.st == .held with
  | some p =>
    let d1 := d.pushReady q idx
    let d2 := if isArm p.words then d1 else d1.parsed q idx
    if (d.slotOf q).isNone then d2.setPend q else d2
  | none => d

/-- A reserved bit of a counter is set (R279). Such a counter is not acted on: a decrement changes nothing, and a packet that names it ends
with the error that a counter gives it, CTR_BUSY or ARM_FULL (R5). DESIGN CHOICE, log 69. -/
def Device.ctrReserved (d : Device) (c : Nat) : Bool :=
  let w (k : Nat) : Nat := d.pnat (c + 4 * k) 4
  nbits (w 1) 2 28 != 0 || nbits (w 2) 16 16 != 0 || (upTo 3).any fun a => nbits (w (5 + 4 * a)) 27 3 != 0 || nbits (w (5 + 4 * a)) 0 16 != 0
/-- COUNTER_DECREMENT (R281): one step: the count, the arms that it passes, highest threshold first, and the held packet. -/
def Device.decrement (d : Device) (c n : Nat) : Device :=
  if d.ctrReserved c then d else
  let old := d.count c
  let new := old - n
  let w1 := d.pnat (c + 4) 4
  let arms := (upTo (d.narm c)).map (d.armAt c)
  let hits (r : Arm) : Bool := decide (r.thresh < old) && decide (new ≤ r.thresh)
  let fired := (arms.filter hits).foldl (fun l r => insertArm r l) []
  let left := arms.filter fun r => !hits r
  let free := new == 0 && nbit w1 31
  let d1 := (d.pput c 4 new).putWord1 c (nbit w1 31 && !free) (nbit w1 30 || decide (old < n)) left.length
  let d2 := (left.zipIdx).foldl (fun d p => d.putArm c p.2 p.1) d1
  let d3 := fired.foldl Device.fireArm d2
  if free then d3.releaseHeld (nbits (d.pnat (c + 8) 4) 0 16) (d.pnat (c + 12) 4) else d3

/-! ### Packets (R275, R276) -/

/-- HOLD. -/
def pkHold (w : BitVec 512) : Bool := w.getLsbD 15
/-- SIGEN. -/
def pkSigen (w : BitVec 512) : Bool := w.getLsbD 14
/-- INTR. -/
def pkIntr (w : BitVec 512) : Bool := w.getLsbD 13
/-- BARRIER. -/
def pkBarrier (w : BitVec 512) : Bool := w.getLsbD 12
/-- WCTR. -/
def pkWctr (w : BitVec 512) : Nat := (rec64 w 2).toNat
/-- SCTR. -/
def pkSctr (w : BitVec 512) : Nat := (rec64 w 4).toNat
/-- A physical address of R273: bits [62:52] are zero. -/
def physOk (a : Nat) : Bool := nbits a 52 11 == 0
/-- The address of a counter: 64-byte aligned, in device memory. -/
def ctrOk (a : Nat) : Bool := decide (a < 2 ^ 52) && a % 64 == 0
/-- The header of a packet is well formed (R275, R278). -/
def pkHeaderOk (w : BitVec 512) : Bool :=
  recFld w 0 16 8 == 0 && recFld w 0 0 12 == 0 && recFld w 1 27 5 == 0 &&
    (pkIntr w || recFld w 1 16 11 == 0) && (pkSigen w == (recFld w 1 0 16 != 0)) &&
    (if pkHold w then ctrOk (pkWctr w) else pkWctr w == 0) && (if pkSigen w then ctrOk (pkSctr w) else pkSctr w == 0)
/-- The words from k on are zero. -/
def zeroFrom (w : BitVec 512) (k : Nat) : Bool := w.toNat / 2 ^ (32 * k) == 0
/-- The body of an ARM packet is well formed (R276). -/
def armOk (w : BitVec 512) : Bool :=
  let kind := recFld w 9 30 2
  let tgt := (rec64 w 10).toNat
  ctrOk (rec64 w 6).toNat && recFld w 9 27 3 == 0 && recFld w 9 0 16 == 0 && zeroFrom w 12 &&
    ((kind == 1 && tgt == 0) || (kind == 2 && ctrOk tgt && recFld w 9 16 11 == 0))
/-- A body other than a LAUNCH's is well formed; an unknown OPCODE has none. -/
def pkBodyOk (w : BitVec 512) : Bool :=
  match pkOp w with
  | 1 => zeroFrom w 6
  | 3 => recFld w 6 2 30 == 0 && recFld w 6 0 2 != 3 && zeroFrom w 7
  | 4 => armOk w
  | 5 => physOk (rec64 w 6).toNat && (rec64 w 6).toNat % 8 == 0 && zeroFrom w 10
  | _ => false

/-- The address of packet idx of a queue (R273). -/
def Device.packetPa (d : Device) (q idx : Nat) : Nat := d.qword64 q 2 + 64 * (idx % 2 ^ nbits (d.qword q 0) 19 4)
/-- Packet idx of a queue (R273). -/
def Device.packetAt (d : Device) (q idx : Nat) : BitVec 512 := bytesBv 512 (d.pread (d.packetPa q idx) 64)

/-! ### Where the command processor reads and writes (R314) -/

/-- A counter, and the descriptor of the queue whose packet it holds. -/
def Device.ctrRanges (d : Device) (c : Nat) : List (Nat × Nat) :=
  (c, 64) :: (if nbit (d.pnat (c + 4) 4) 31 then [(d.qdesc (nbits (d.pnat (c + 8) 4) 0 16), 64)] else [])
/-- The counters and the place that a well-formed packet other than a LAUNCH names. -/
def pktRanges (w : BitVec 512) : List (Nat × Nat) :=
  (if pkHold w then [(pkWctr w, 64)] else []) ++ (match pkOp w with
    | 4 => [((rec64 w 6).toNat, 64)]
    | 5 => [((rec64 w 6).toNat, 8)]
    | _ => [])

/-! ### Completion (R282) -/

/-- A packet completes: it leaves, and its decrement and interrupt follow. -/
def Device.finishPkt (d : Device) (q idx : Nat) : Device :=
  match d.pkts.find? fun p => p.q == q && p.idx == idx with
  | none => d
  | some p =>
    let w := p.words
    let sg : Signal := { sctr := if pkSigen w then some (pkSctr w, recFld w 1 0 16) else none,
                         intr := if pkIntr w then some (recFld w 1 16 11) else none }
    let d1 := { d with pkts := d.pkts.filter fun p => !(p.q == q && p.idx == idx),
                       ready := d.ready.filter fun r => r != (q, idx) }
    if pkSigen w || pkIntr w then { d1 with signals := d1.signals ++ [sg] } else d1

/-- SIGEN_DECREMENT (R281, R282): the decrement of a completed packet, and then its interrupt. -/
def execSigenDecrement (dev k : Nat) (s : State) : Out :=
  let d := s.dev dev
  match d.signals[k]? with
  | none => .next s
  | some g =>
    let done (act : Device → Device) (s : State) : State := s.onDev dev fun d =>
      let d1 := act { d with signals := d.signals.eraseIdx k }
      match g.intr with
      | some v => d1.raise v
      | none => d1
    match g.sctr with
    | none => .next (done id s)
    | some (c, n) => s.cpAccessOr dev (d.ctrRanges c) (done id) fun s => .next (done (fun d => d.decrement c n) s)

/-- ARM_TARGET_DECREMENT (R281): the oldest fired arm of KIND 0b10 decrements its target by 1. -/
def execArmTargetDecrement (dev : Nat) (s : State) : Out :=
  let d := s.dev dev
  match d.arms with
  | [] => .next s
  | c :: r =>
    let done (act : Device → Device) (s : State) : State := s.onDev dev fun d => act { d with arms := r }
    s.cpAccessOr dev (d.ctrRanges c) (done id) fun s => .next (done (fun d => d.decrement c 1) s)

/-! ### What a started packet does -/

/-- SETLEVEL (R95): the new level of the queue. -/
def Device.setLevel (d : Device) (q lvl : Nat) : Device :=
  let w := d.qword q 0
  d.setQword q 0 (w - nbits w 27 2 * 2 ^ 27 + lvl * 2 ^ 27)
/-- ARM (R281): it fires at once when THRESH ≥ COUNT, is recorded as arm NARM, or finds the counter full (none). -/
def Device.arm (d : Device) (w : BitVec 512) : Option Device :=
  let c := (rec64 w 6).toNat
  let r : Arm := ⟨recFld w 8 0 32, recFld w 9 30 2, recFld w 9 16 11, (rec64 w 10).toNat⟩
  let n := d.narm c
  let w1 := d.pnat (c + 4) 4
  if d.ctrReserved c then none
  else if d.count c ≤ r.thresh then some (d.fireArm r)
  else if n = 3 then none
  else some ((d.putArm c n r).putWord1 c (nbit w1 31) (nbit w1 30) (n + 1))
/-- A packet that is refused: its queue stops, and nothing of it is performed (R278). -/
def Device.refusePkt (d : Device) (q idx err : Nat) : Device :=
  { d with pkts := d.pkts.filter fun p => !(p.q == q && p.idx == idx), ready := d.ready.filter fun r => r != (q, idx) }.stopQueue
    q 1 err idx
/-- A packet that precedes another of its queue has not completed. -/
def earlier (q idx : Nat) : List Pkt → Bool
  | [] => false
  | p :: r => if p.q == q then p.idx != idx else earlier q idx r
/-- A packet other than a LAUNCH may start (R95, R275): earlier ones have completed where it waits for them. -/
def Device.mayStart (d : Device) (q idx : Nat) (w : BitVec 512) : Bool :=
  !((pkBarrier w || pkOp w == 3) && earlier q idx d.pkts)
/-- Start a packet other than a LAUNCH: it performs and completes (R276). -/
def Device.perform (d : Device) (q idx : Nat) (w : BitVec 512) : Device :=
  match pkOp w with
  | 3 => (d.setLevel q (recFld w 6 0 2)).finishPkt q idx
  | 4 => match d.arm w with
    | some d1 => (d1.parsed q idx).finishPkt q idx
    | none => d.refusePkt q idx 6
  | 5 => (d.pput (rec64 w 6).toNat 8 (rec64 w 8).toNat).finishPkt q idx
  | _ => d.finishPkt q idx

/-- A started packet whose counter or address lies in memory that drops the access (R314): it completes without it. -/
def Device.dropPkt (d : Device) (q idx : Nat) (w : BitVec 512) : Device :=
  (if isArm w then d.parsed q idx else d).finishPkt q idx

/-! ### The parser (R278, R280, R283) -/

/-- The packet that the parser of a slot is about to take: its queue, its index and its words. A queue is parsed while it runs,
its field 0 serves, nothing of it is held at this index, no SETLEVEL of it waits, and the ready list of 256 packets has room for it. -/
def Device.nextPacket (d : Device) (slot : Nat) : Option (Nat × Nat × BitVec 512) :=
  let k := fget d.slots slot {}
  let q := k.qid
  let idx := d.rptr q
  let busy := d.pkts.any fun p => p.q == q && (p.idx == idx || (pkOp p.words == 3 && p.st != .held))
  if k.valid && (d.fieldN 0).state == 2#3 && nbit (d.qword q 0) 31 && d.qstate q == 0 && d.wptr q != idx && !busy &&
      decide (d.ready.length < 256) then
    some (q, idx, d.packetAt q idx)
  else none

/-- What a HOLD finds at its counter (R280). -/
inductive HoldRes where
  | go
  | hold
  | busy
  deriving DecidableEq, Repr
/-- Read the counter of a packet with HOLD = 1. -/
def Device.holdOf (d : Device) (q idx : Nat) (w : BitVec 512) : HoldRes :=
  let c := pkWctr w
  if !pkHold w then .go
  else if d.ctrReserved c then .busy
  else if d.count c == 0 then .go
  else if !nbit (d.pnat (c + 4) 4) 31 then .hold
  else if nbits (d.pnat (c + 8) 4) 0 16 == q && d.pnat (c + 12) 4 == idx then .hold
  else .busy
/-- Record the held packet in its counter. -/
def Device.hold (d : Device) (q idx : Nat) (w : BitVec 512) : Device :=
  let c := pkWctr w
  let w1 := d.pnat (c + 4) 4
  ((d.putWord1 c true (nbit w1 30) (nbits w1 0 2)).pput (c + 8) 4 q).pput (c + 12) 4 idx

/-- A packet that has passed its checks: it is held, or put on the ready list (R280). -/
def Device.takePkt (d : Device) (q idx : Nat) (w : BitVec 512) (lid : Option Nat) : Device :=
  let add (st : PktSt) : Device := { d with pkts := d.pkts ++ [{ q := q, idx := idx, words := w, st := st, launch := lid }] }
  match d.holdOf q idx w with
  | .busy => d.stopQueue q 1 5 idx
  | .hold => (add .held).hold q idx w
  | .go =>
    let d1 : Device := { add .ready with ready := d.ready ++ [(q, idx)] }
    if isArm w then d1 else d1.parsed q idx

/-- Nothing stands before a packet on the ready list: a packet that may start does so as it is parsed. -/
def Device.alone (d : Device) (q idx : Nat) : Bool := d.ready == [(q, idx)]

/-- Parse a packet of OPCODE op, other than a LAUNCH (R278): refused whole, held, or taken; one that finds the ready list empty
starts at once where it may. -/
def Device.parseSimple (d : Device) (slot : Nat) (mine : Nat → Bool) : Device :=
  match d.nextPacket slot with
  | none => d
  | some (q, idx, w) =>
    if !mine (pkOp w) then d
    else if !pkHeaderOk w || !pkBodyOk w then d.stopQueue q 1 1 idx
    else
      let d1 := d.takePkt q idx w none
      if d1.alone q idx && d1.mayStart q idx w then d1.perform q idx w else d1

/-- What the parser of a slot reads and writes as it takes its next packet: the descriptor, the packet, and what `body` adds for it. -/
def Device.parseRanges (d : Device) (slot : Nat) (body : Nat → BitVec 512 → List (Nat × Nat)) : List (Nat × Nat) :=
  let k := fget d.slots slot {}
  if !k.valid then []
  else (d.qdesc k.qid, 64) :: (match d.nextPacket slot with
    | none => []
    | some (q, idx, w) => (d.packetPa q idx, 64) :: body q w)
/-- What a packet of OPCODE op, other than a LAUNCH, adds: a malformed one touches nothing. -/
def simpleRanges (mine : Nat → Bool) (w : BitVec 512) : List (Nat × Nat) :=
  if mine (pkOp w) && pkHeaderOk w && pkBodyOk w then pktRanges w else []
/-- Parse a packet of OPCODE op, other than a LAUNCH. -/
def State.parse (s : State) (dev slot : Nat) (mine : Nat → Bool) : Out :=
  s.cpAccess dev ((s.dev dev).parseRanges slot fun _ w => simpleRanges mine w) fun s =>
    .next (s.onDev dev fun d => d.parseSimple slot mine)

/-- PACKET_NOP (R276); an unknown OPCODE is refused here too (R278). -/
def execPacketNop (dev slot : Nat) (s : State) : Out := s.parse dev slot fun op => op == 1 || op == 0 || decide (5 < op)
/-- PACKET_SETLEVEL (R95, R276). -/
def execPacketSetlevel (dev slot : Nat) (s : State) : Out := s.parse dev slot (· == 3)
/-- PACKET_ARM (R276, R281). -/
def execPacketArm (dev slot : Nat) (s : State) : Out := s.parse dev slot (· == 4)
/-- PACKET_WRITE (R276): every store of a completed launch has taken effect before, so that its release waits for nothing. -/
def execPacketWrite (dev slot : Nat) (s : State) : Out := s.parse dev slot (· == 5)

end Sys2Proof.Machine
end

