-- ==== Sys2Proof/Machine/Launch.lean ====
section
/-!
DEFINITION. Machine/Launch.lean: LAUNCH (R277): the checks of its packet, its image (R133 to R136, R268, R269), its supervisor
record (R292) and its bound KTT (R304 to R308), its admission (R16, R122, R308), and starting packets from the ready list (R283).
-/
namespace Sys2Proof.Machine

/-! ### The packet (R277, R278) -/

/-- The body of a LAUNCH is well formed, and its fields are in service. -/
def Device.launchOk (d : Device) (w : BitVec 512) : Bool :=
  let fields := recFld w 15 20 8
  physOk (rec64 w 6).toNat && (rec64 w 6).toNat % 64 == 0 && physOk (rec64 w 8).toNat &&
    (rec64 w 10).toNat % 2 == 0 && (rec64 w 10).toNat / 2 ^ 57 == 0 && recFld w 14 0 32 != 0 && recFld w 15 16 4 == 0 &&
    fields != 0 && (upTo 8).all fun f => !nbit fields f || (d.fieldN f).state == 2#3
/-- The cores of a core set (R277, R312). -/
def Device.coresOf (d : Device) (fields : BitVec 8) : Nat :=
  ((upTo 8).filter fun f => fields.getLsbD f).foldl (fun n f => n + (d.fieldN f).ncore) 0

/-! ### The image (R133 to R136, R268, R269) -/

/-- The header of an image. -/
def Device.imgHdr (d : Device) (a : Nat) : BitVec 512 := bytesBv 512 (d.pread a 64)
/-- A KTT request (R135). -/
structure KttReq where
  va : Nat
  layout : Nat
  log2 : Nat
  perm : Nat
  ok : Bool
  deriving DecidableEq, Repr
/-- The reserved bits of PERM (R305). -/
def permReserved : Nat := 2 ^ 1 + 2 ^ 2 + 2 ^ 5 + 2 ^ 7 + 2 ^ 9 + 2 ^ 10 + 2 ^ 13 + 2 ^ 15 + 2 ^ 16
/-- Request k of an image. -/
def Device.requestAt (d : Device) (img : Nat) (h : BitVec 512) (k : Nat) : KttReq :=
  let r : BitVec 128 := bytesBv 128 (d.pread (img + recFld h 9 0 32 + 16 * k) 16)
  let va := (rec64 r 0).toNat
  let lg := recFld r 2 0 6
  let perm := recFld r 3 0 20
  ⟨va, recFld r 2 6 2, lg, perm,
    recFld r 2 8 24 == 0 && recFld r 2 6 2 != 3 && decide (16 ≤ lg) && decide (lg ≤ 36) && va % 2 ^ lg == 0 &&
      decide (va < 2 ^ 57) && recFld r 3 20 12 == 0 && perm &&& permReserved == 0⟩
/-- The requests of an image. -/
def Device.requests (d : Device) (img : Nat) (h : BitVec 512) : List KttReq :=
  (upTo (recFld h 8 0 13)).map (d.requestAt img h)
/-- Drain entry k of an image: START, END, STUB, and its reserved word. -/
def Device.drainAt (d : Device) (img : Nat) (h : BitVec 512) (k : Nat) : Nat × Nat × Nat × Nat :=
  let a := img + recFld h 7 0 32 + 16 * k
  (d.pnat a 4, d.pnat (a + 4) 4, d.pnat (a + 8) 4, d.pnat (a + 12) 4)
/-- The drain table of an image. -/
def Device.drainsOf (d : Device) (img : Nat) (h : BitVec 512) : List (Nat × Nat × Nat × Nat) :=
  (upTo (recFld h 2 0 16)).map (d.drainAt img h)
/-- No two of the ranges, each an offset and a length, share a byte. -/
def disjoint : List (Nat × Nat) → Bool
  | [] => true
  | a :: r => (r.all fun b => !overlaps a.1 a.2 b.1 b.2) && disjoint r
/-- One drain entry is legal. -/
def drainOk (codelen : Nat) (e : Nat × Nat × Nat × Nat) : Bool :=
  decide (e.1 < e.2.1) && decide (e.2.1 ≤ codelen) && decide (e.2.2.1 < codelen) && e.1 % 2 == 0 && e.2.1 % 2 == 0 &&
    e.2.2.1 % 2 == 0 && e.2.2.2 == 0
/-- The plan reservation is legal (R269). -/
def reserveOk (h : BitVec 512) (excl : Bool) : Bool :=
  let wb := recFld h 14 0 16
  let ab := recFld h 14 16 16
  let cb := recFld h 15 0 16
  wb % 4 == 0 && ab % 4 == 0 && decide (wb * 1024 ≤ shareSize excl .wb) && decide (ab * 1024 ≤ shareSize excl .ab) &&
    (cb == 0 || (excl && (cb == 512 || cb == 1024)))
/-- The header of an image passes the checks of R136, R268 and R269 that need no table. The end of an image is stated nowhere: it is a free
value of the header (log 35). -/
def imgHdrOk (h : BitVec 512) (excl : Bool) : Bool :=
  let f (k lo n : Nat) : Nat := recFld h k lo n
  let codelen := f 4 0 32
  let secs := [(f 3 0 32, codelen), (f 5 0 32, f 6 0 32), (f 7 0 32, 16 * f 2 0 16), (f 9 0 32, 16 * f 8 0 13)]
  f 0 0 32 == 0x58384B49 && f 1 0 32 == 1 && f 2 24 8 == 0 && f 2 19 1 == 0 && f 8 13 19 == 0 && f 15 16 16 == 0 &&
    decide (1 ≤ f 2 16 3) && decide (f 2 16 3 ≤ 4) && decide (f 2 20 4 ≤ 4) && decide (f 2 0 16 ≤ 4096) &&
    decide (f 8 0 13 ≤ 4096) && codelen % 2 == 0 && (secs.all fun p => p.1 % 64 == 0 && decide (p.1 + p.2 ≤ Config.imageLen h)) &&
    disjoint secs &&
    ((upTo 4).all fun k => let e := f (10 + k) 0 32
      e == 0xFFFFFFFF || (e % 2 == 0 && decide (e < codelen))) && reserveOk h excl
/-- The image at an address passes every check of R136 and R269 and the part of R268 that concerns the image. -/
def Device.imageOk (d : Device) (img : Nat) (excl : Bool) : Bool :=
  let h := d.imgHdr img
  let codelen := recFld h 4 0 32
  let drains := d.drainsOf img h
  let reqs := d.requests img h
  imgHdrOk h excl && drains.all (drainOk codelen) && ((drains.zip (drains.drop 1)).all fun p => decide (p.1.2.1 ≤ p.2.1)) &&
    reqs.all KttReq.ok && disjoint ((reqs.filter fun r => r.va != 0).map fun r => (r.va, 2 ^ r.log2)) &&
    decide ((reqs.filter fun r => r.va == 0).length ≤ 1) &&
    (reqs.filter fun r => r.va == 0).all fun r => decide (recFld h 6 0 32 ≤ 2 ^ r.log2)

/-! ### The supervisor record (R292) -/

/-- SVBASE and SVLOG2 of a queue. -/
def Device.supOf (d : Device) (q : Nat) : Option (Nat × Nat) :=
  let b := d.qword64 q 12
  if b = 0 then none else some (b, nbits (d.qword q 14) 0 6)
/-- A physical range of device memory overlaps a protected range (R297). -/
def Device.meetsProtected (d : Device) (a n : Nat) : Bool :=
  overlaps a n (d.savebase.toNat * 2 ^ 24) (d.savenum.toNat * 2 ^ 24)
/-- The queue's supervisor region keeps R292 (R273). -/
def Device.supRegionOk (d : Device) (q : Nat) : Bool :=
  match d.supOf q with
  | none => nbits (d.qword q 14) 0 6 == 0
  | some (b, lg) =>
    decide (16 ≤ lg) && decide (lg ≤ 30) && b % 2 ^ lg == 0 && physOk b && !(decide (b < 2 ^ 63) && d.meetsProtected b (2 ^ lg))
/-- The supervisor record is legal (R292): no reserved bit, TVEC even and inside the window. -/
def Device.supRecordOk (d : Device) (q : Nat) : Bool :=
  match d.supOf q with
  | none => true
  | some (b, lg) =>
    let r : BitVec 512 := bytesBv 512 (d.pread b 64)
    let tv := (rec64 r 0).toNat
    let st := (rec64 r 2).toNat
    let cl := (rec64 r 4).toNat
    zeroFrom r 6 && tv % 2 == 0 && decide (0x0180000000000000 ≤ tv) && decide (tv < 0x0180000000000000 + 2 ^ lg) &&
      nbits st 57 7 == 0 && nbits st 13 3 == 0 && nbits cl 57 7 == 0 && nbits cl 11 1 == 0

/-! ### The bound KTT (R304, R307) -/

/-- Entry k of a bound KTT, and whether its reserved fields, NPA and WMARK are zero. -/
def Device.kttAt (d : Device) (pa k : Nat) : KttEntry × Bool :=
  let r : BitVec 512 := bytesBv 512 (d.pread (pa + 64 * k) 64)
  let p := (rec64 r 2).toNat
  ({ va := (rec64 r 0).toNat, pa := p % 2 ^ 63, host := decide (2 ^ 63 ≤ p), state := BitVec.ofNat 2 (recFld r 4 30 2),
     layout := BitVec.ofNat 2 (recFld r 4 28 2), log2 := recFld r 4 0 6, permMask := BitVec.ofNat 20 (recFld r 5 0 20) },
   recFld r 4 6 22 == 0 && recFld r 5 20 12 == 0 && zeroFrom r 6 && physOk p)
/-- The entries of a bound KTT: those of the requests, the code entry, and the data entry where there is no VA-0 request. -/
def Device.boundKtt (d : Device) (pa img : Nat) : List (KttEntry × Bool) :=
  let h := d.imgHdr img
  let nb := recFld h 8 0 13 + (if (d.requests img h).any fun r => r.va == 0 then 1 else 2)
  (upTo nb).map (d.kttAt pa)
/-- The smallest LOG2SIZE from 16 up that holds n bytes (R304). -/
def dataLog2 (n : Nat) : Nat := ((upTo 37).find? fun k => decide (16 ≤ k) && decide (n ≤ 2 ^ k)).getD 36
/-- An entry binds its request (R307). -/
def KttEntry.binds (e : KttEntry) (r : KttReq) (datava : Nat) : Bool :=
  e.va == (if r.va = 0 then datava else r.va) && e.layout.toNat == r.layout && e.log2 == r.log2 && e.permMask.toNat == r.perm
/-- The address range of an entry stays clear of the windows (R30, R163, R292). -/
def KttEntry.vaOk (e : KttEntry) : Bool :=
  e.va % 2 ^ e.log2 == 0 && decide (e.va + 2 ^ e.log2 ≤ 2 ^ 57) &&
    !overlaps e.va (2 ^ e.log2) (0x10 * 2 ^ 52) (0xC * 2 ^ 52) && !overlaps e.va (2 ^ e.log2) (0x1F * 2 ^ 52) (2 ^ 52)
/-- The physical ranges of two entries overlap. -/
def KttEntry.meets (a b : KttEntry) : Bool := a.host == b.host && overlaps a.pa (2 ^ a.log2) b.pa (2 ^ b.log2)
/-- An entry lies over a protected range (R297, R307). -/
def Device.covers (d : Device) (e : KttEntry) : Bool := !e.host && d.meetsProtected e.pa (2 ^ e.log2)
/-- An entry by itself is legal (R304, R307). -/
def Device.entryOk (d : Device) (q : Nat) (e : KttEntry) : Bool :=
  let sup := match d.supOf q with
    | none => false
    | some (b, lg) => e.host == decide (2 ^ 63 ≤ b) && overlaps e.pa (2 ^ e.log2) (b % 2 ^ 63) (2 ^ lg)
  (e.state == 0#2 || e.state == 1#2) && e.layout != 3#2 && e.pa % 2 ^ e.log2 == 0 && decide (e.pa + 2 ^ e.log2 ≤ 2 ^ 52) &&
    !(e.layout == 1#2 && decide (e.log2 < 17)) && e.vaOk && !sup && !d.covers e
/-- Every pair of a list. -/
def pairs {α : Type} : List α → List (α × α)
  | [] => []
  | a :: r => (r.map fun b => (a, b)) ++ pairs r
/-- The bound KTT of a LAUNCH passes the checks of R304 and R307. -/
def Device.kttOk (d : Device) (q : Nat) (w : BitVec 512) : Bool :=
  let img := (rec64 w 6).toNat
  let h := d.imgHdr img
  let codeva := (rec64 w 10).toNat
  let datava := (rec64 w 12).toNat
  let codelen := recFld h 4 0 32
  let reqs := d.requests img h
  let bound := d.boundKtt (rec64 w 8).toNat img
  let es := bound.map Prod.fst
  let code := match es[reqs.length]? with
    | none => false
    | some e => e.layout == 0#2 && e.permMask == 1#20 && decide (e.va ≤ codeva) && decide (codeva + codelen ≤ e.va + 2 ^ e.log2)
  let data := match es[reqs.length + 1]? with
    | none => true
    | some e => e.va == datava && e.layout == 0#2 && e.permMask == 9#20 && e.log2 == dataLog2 (recFld h 6 0 32)
  (bound.all fun p => p.2) && (es.all (d.entryOk q)) && ((es.zip reqs).all fun p => p.1.binds p.2 datava) && code && data &&
    ((pairs es).all fun p => !overlaps p.1.va (2 ^ p.1.log2) p.2.va (2 ^ p.2.log2) &&
      !(p.1.meets p.2 && p.1.layout != p.2.layout))

/-! ### The launch that a packet asks for -/

/-- The launch of a LAUNCH packet (R277), with what its image and its supervisor record give. -/
def Device.mkLaunch (d : Device) (q idx : Nat) (w : BitVec 512) : Launch :=
  let img := (rec64 w 6).toNat
  let h := d.imgHdr img
  let sup : BitVec 512 := match d.supOf q with
    | none => 0
    | some (b, _) => bytesBv 512 (d.pread b 64)
  { q := q, idx := idx, asid := BitVec.ofNat 14 (nbits (d.qword q 0) 0 14), level := 0, wgcount := recFld w 14 0 32,
    coop := w.getLsbD 511, excl := w.getLsbD 510, hzdEn := w.getLsbD 509, hzdMode := w.getLsbD 508,
    fields := BitVec.ofNat 8 (recFld w 15 20 8), podtag := BitVec.ofNat 16 (recFld w 15 0 16), codeva := (rec64 w 10).toNat,
    codelen := recFld h 4 0 32, datava := rec64 w 12, barlvl := recFld h 2 20 4, vbanks := recFld h 2 16 3,
    entry := (upTo 4).map fun k => if recFld h (10 + k) 0 32 = 0xFFFFFFFF then none else some (recFld h (10 + k) 0 32),
    drains := (d.drainsOf img h).map fun e => (e.1, e.2.1, e.2.2.1), wbres := recFld h 14 0 16, abres := recFld h 14 16 16,
    cbres := recFld h 15 0 16, svbase := d.supOf q, tvec := hiBits (rec64 sup 0), stbase := rec64 sup 2, collrt := rec64 sup 4,
    ncores := d.coresOf (BitVec.ofNat 8 (recFld w 15 20 8)), bound := (d.boundKtt (rec64 w 8).toNat img).map Prod.fst }
/-- WGs of a launch that its core set can hold at once (R16). -/
def Launch.capacity (l : Launch) : Nat := if l.excl then l.ncores else 2 * l.ncores
/-- The error of a LAUNCH packet, or none (R278). -/
def Device.launchErr (d : Device) (q : Nat) (w : BitVec 512) : Option Nat :=
  let l := d.mkLaunch q 0 w
  if !pkHeaderOk w || !d.launchOk w then some 1
  else if !d.supRecordOk q then some 9
  else if l.coop && decide (l.capacity < l.wgcount) then some 2
  else if !d.imageOk (rec64 w 6).toNat l.excl || !d.kttOk q w then some 3
  else if (!l.coop && l.barlvl != 0) || (l.barlvl == 4 && l.podtag == 0#16) then some 4
  else none

/-! ### Free contexts (R15, R16, R20) -/

/-- A context is free: no WG holds it, and no access of an earlier one is on its way. -/
def State.ctxFree (s : State) (x : CtxId) : Bool :=
  (s.ctx x).live.isNone && !((s.core x.core).paths.any fun p => p.x == x)
/-- A core takes work: its field is in service, it is one of the enabled cores, and it is not fenced (R285, R312). -/
def State.coreOk (s : State) (c : CoreId) : Bool :=
  let f := (s.dev c.dev).fieldN c.field
  f.state == 2#3 && (f.coreMap.any fun p => p.1 == c.core) && !(s.core c).fenced
/-- The free contexts of a core for an occupancy. -/
def State.freeCtxs (s : State) (excl : Bool) (c : CoreId) : List Nat :=
  let free := [0, 1].filter fun n => s.ctxFree ⟨c, n⟩
  if !s.coreOk c then []
  else if excl then (if free.length = 2 then [0] else [])
  else if [0, 1].any fun n => s.exclOf ⟨c, n⟩ then []
  else free
/-- The cores of a field. -/
def coresIn (dev f : Nat) : List CoreId := (upTo 40).map fun k => ⟨dev, f, k⟩
/-- The fields of a launch's core set, in order. -/
def Launch.fieldList (l : Launch) : List Nat := (upTo 8).filter fun f => l.fields.getLsbD f
/-- The number of free contexts in a field, on cores that `ok` admits. -/
def State.freeIn (s : State) (dev f : Nat) (excl : Bool) (ok : CoreId → Bool) : Nat :=
  ((coresIn dev f).filter ok).foldl (fun n c => n + (s.freeCtxs excl c).length) 0
/-- The field of the core set with the most free contexts; ties go to the lower number (R20). -/
def State.pickField (s : State) (dev : Nat) (l : Launch) (ok : CoreId → Bool) : Option (Nat × Nat) :=
  (l.fieldList.map fun f => (f, s.freeIn dev f l.excl ok)).foldl (fun b p =>
    if p.2 = 0 then b else match b with
      | none => some p
      | some q => if q.2 < p.2 then some p else some q) none
/-- The context of a field that a WG takes (R20): a core with both free first, otherwise one with one; the lowest. -/
def State.pickCtx (s : State) (dev f : Nat) (excl : Bool) (ok : CoreId → Bool) : Option CtxId :=
  let cs := (coresIn dev f).filter ok
  let at1 (p : List Nat → Bool) : Option CtxId :=
    cs.findSome? fun c => let fr := s.freeCtxs excl c
      if p fr then fr.head?.map fun n => ⟨c, n⟩ else none
  if excl then at1 fun fr => !fr.isEmpty
  else (at1 fun fr => fr.length == 2).orElse fun _ => at1 fun fr => fr.length == 1

/-! ### Admission (R16, R122, R308) -/

/-- Two KTTs agree in every request field (R308). -/
def sameRequests (a b : List KttEntry) : Bool :=
  a.length == b.length && (a.zip b).all fun p =>
    p.1.va == p.2.va && p.1.layout == p.2.layout && p.1.log2 == p.2.log2 && p.1.permMask == p.2.permMask
/-- The content of the code line at an address now, at the base that a migration has left it at (R306). -/
def State.codeLine (s : State) (dev : Nat) (l : Launch) (va : Nat) : List Byte :=
  match findEntry va (s.ktt dev l.asid.toNat).entries 0 with
  | none => List.replicate 128 0
  | some (_, e) =>
    let o := va - e.va
    let p := (if e.state == 2#2 && decide (o / 128 < e.wmark) then e.npa else e.pa) + o
    if e.host then mread (s.dev dev).hostMem p 128 else (s.dev dev).memRead p 128
/-- The content of the lines of the code section now, those that it fills in part included. -/
def State.codeNow (s : State) (dev : Nat) (l : Launch) : List Byte :=
  (upTo (ceilDiv (l.codeva % 128 + l.codelen) 128)).flatMap fun k => s.codeLine dev l (l.codeva / 128 * 128 + 128 * k)
/-- A cooperative launch has been admitted and not wholly dispatched: the contexts of its core set are for its WGs (R16). -/
def State.coopPending (s : State) (dev : Nat) (mine : Option Nat) (fields : BitVec 8) : Bool :=
  (s.dev dev).launches.any fun p => p.2.coop && p.2.begun && !p.2.done && mine != some p.1 && p.2.fields &&& fields != 0#8 &&
    (decide (p.2.nextWg < p.2.wgcount) || !p.2.batch.isEmpty)
/-- The instruction-cache lines of a launch's code range leave the cores of its core set (R122). -/
def State.dropCode (s : State) (dev : Nat) (l : Launch) : State :=
  { s with cores := s.cores.map fun p =>
      if p.1.dev == dev && l.fields.getLsbD p.1.field then
        (p.1, { p.2 with icache := p.2.icache.filter fun e =>
          !(e.1.1 == l.asid.toNat && decide (l.codeva < 128 * e.1.2 + 128) && decide (128 * e.1.2 < l.codeva + l.codelen)) })
      else p }
/-- A launch may be admitted: its ASID holds no KTT or a matching one, and contexts are free: all that a cooperative launch needs
(R16), one for any other; none is while a cooperative launch still takes its contexts. -/
def State.admits (s : State) (dev : Nat) (l : Launch) : Bool :=
  let free := l.fieldList.foldl (fun n f => n + s.freeIn dev f l.excl fun _ => true) 0
  (match fget? (s.dev dev).ktts l.asid.toNat with
    | none => true
    | some k => sameRequests k.entries l.bound) &&
    decide ((if l.coop then l.wgcount else 1) ≤ free) && !s.coopPending dev none l.fields
/-- Admit a launch: its KTT is held, its level is its queue's, its watchdog starts (R277, R285). -/
def State.admitNew (s : State) (dev lid : Nat) (l : Launch) : State :=
  let asid := l.asid.toNat
  let s1 := s.onDev dev fun d =>
    { d with ktts := match fget? d.ktts asid with
               | none => fset d.ktts asid { entries := l.bound }
               | some _ => d.ktts
             pkts := d.pkts.map fun p => if p.launch == some lid then { p with st := .started } else p
             ready := d.ready.filter fun r => r != (l.q, l.idx) }
  let s2 := s1.dropCode dev l
  let d := s2.dev dev
  s2.onLaunch dev lid fun l =>
    { l with level := BitVec.ofNat 2 (nbits (d.qword l.q 0) 27 2), begun := true, startedAt := some d.time,
             codeSnap := s2.codeNow dev l }
/-- Start the LAUNCH of a queue when it may. -/
def State.startLaunch (s : State) (dev lid : Nat) : State :=
  match s.launch? dev lid with
  | none => s
  | some l =>
    let barrier := match (s.dev dev).pkts.find? fun p => p.launch == some lid with
      | some p => pkBarrier p.words && earlier l.q l.idx (s.dev dev).pkts
      | none => true
    if !barrier && s.admits dev l then s.admitNew dev lid l else s

/-- What a LAUNCH adds to what its parser reads, each place only where the checks before it pass (`Device.launchErr`): its queue's
supervisor record, its image's header and tables, its KTT, and its counter. -/
def Device.launchRanges (d : Device) (q : Nat) (w : BitVec 512) : List (Nat × Nat) :=
  if pkOp w != 2 || !pkHeaderOk w || !d.launchOk w then []
  else
    let l := d.mkLaunch q 0 w
    let img := (rec64 w 6).toNat
    let h := d.imgHdr img
    (match d.supOf q with
      | some (b, _) => [(b, 64)]
      | none => []) ++
    (if !d.supRecordOk q || (l.coop && decide (l.capacity < l.wgcount)) then [] else (img, 64) ::
      if !imgHdrOk h l.excl then [] else [(img + recFld h 7 0 32, 16 * recFld h 2 0 16), (img + recFld h 9 0 32, 16 * recFld h 8 0 13)] ++
      if !d.imageOk img l.excl then [] else [((rec64 w 8).toNat, 64 * (d.boundKtt (rec64 w 8).toNat img).length)] ++
      if pkHold w && (d.launchErr q w).isNone then [(pkWctr w, 64)] else [])

/-- PACKET_LAUNCH (R277, R278): a LAUNCH is checked whole, then held or taken; it starts at once where the ready list was empty and
it is admitted. A KTT that covers a protected range also writes a record (R307). -/
def execPacketLaunch (dev slot : Nat) (s : State) : Out :=
  let d := s.dev dev
  s.cpAccess dev (d.parseRanges slot d.launchRanges) fun s => match d.nextPacket slot with
  | none => .next s
  | some (q, idx, w) =>
    if pkOp w != 2 then .next s
    else match d.launchErr q w with
      | some e =>
        let cover := e == 3 && (d.boundKtt (rec64 w 8).toNat (rec64 w 6).toNat).any fun p => d.covers p.1
        let asid : BitVec 14 := BitVec.ofNat 14 (nbits (d.qword q 0) 0 14)
        let s1 := if cover then s.logFault dev asid { name := .protectedRange } false 0 0 else s
        .next (s1.onDev dev fun d => d.stopQueue q 1 e idx)
      | none =>
        let lid := s.nextId
        let l := d.mkLaunch q idx w
        let s1 := { s with nextId := lid + 1 }.onDev dev fun d => d.takePkt q idx w (some lid)
        if (s1.dev dev).pkts.any fun p => p.launch == some lid then
          let s2 := s1.onDev dev fun d => { d with launches := fset d.launches lid l }
          .next (if (s2.dev dev).alone q idx then s2.startLaunch dev lid else s2)
        else .next s1

/-! ### The ready list (R283) -/

/-- The priority of a ready packet; none where its queue holds no slot or does not run. -/
def Device.readyPrio (d : Device) (r : Nat × Nat) : Option Nat :=
  match d.slotOf r.1 with
  | none => none
  | some k => if d.qstate r.1 == 0 then some k.prio.toNat else none
/-- Nothing but its queue keeps packet k of the ready list from starting: it is the first of its queue, and its own conditions hold. -/
def State.released (s : State) (dev k : Nat) : Bool :=
  let d := s.dev dev
  match d.ready[k]? with
  | none => false
  | some r =>
    match d.pkts.find? fun p => p.q == r.1 && p.idx == r.2 with
    | none => false
    | some p =>
      !((d.ready.take k).any fun y => y.1 == r.1) &&
        (match p.launch with
          | none => d.mayStart p.q p.idx p.words
          | some lid => match s.launch? dev lid with
            | none => false
            | some l => !(pkBarrier p.words && earlier p.q p.idx d.pkts) && s.admits dev l)
/-- Packet k of the ready list may start now: its queue runs and holds a slot too. -/
def State.readyOk (s : State) (dev k : Nat) : Bool :=
  s.released dev k && (match (s.dev dev).ready[k]? with
    | none => false
    | some r => ((s.dev dev).readyPrio r).isSome)
/-- Packet k of the ready list belongs to a queue without a slot, and would start: its release sets the queue's pending bit (R283). -/
def State.pendsAt (s : State) (dev k : Nat) : Option Nat :=
  match (s.dev dev).ready[k]? with
  | none => none
  | some r => if ((s.dev dev).slotOf r.1).isNone && s.released dev k then some r.1 else none
/-- The packet that starts next: the highest priority, and among equals the longest on the list, which holds 256. -/
def State.nextReady (s : State) (dev : Nat) : Option Nat :=
  let d := s.dev dev
  ((upTo (min 256 d.ready.length)).filter (s.readyOk dev)).foldl (fun b k =>
    match b with
    | none => some k
    | some j => if (d.readyPrio (d.ready[j]?.getD (0, 0))).getD 0 < (d.readyPrio (d.ready[k]?.getD (0, 0))).getD 0 then some k
                else some j) none

/-- READY_PACKET_START (R283): the packet that is next on the ready list starts; that of a queue without a slot sets the queue's pending
bit instead. -/
def execReadyPacketStart (dev k : Nat) (s : State) : Out :=
  match s.pendsAt dev k with
  | some q => .next (s.onDev dev fun d => d.setPend q)
  | none =>
    if s.nextReady dev != some k then .next s
    else
      let d := s.dev dev
      match d.ready[k]? with
      | none => .next s
      | some r => match d.pkts.find? fun p => p.q == r.1 && p.idx == r.2 with
        | none => .next s
        | some p => match p.launch with
          | some lid => .next (s.startLaunch dev lid)
          | none => s.cpAccessOr dev ((d.qdesc p.q, 64) :: pktRanges p.words)
            (fun s => s.onDev dev fun d => { d with ready := d.ready.eraseIdx k }.dropPkt p.q p.idx p.words) fun s =>
            .next (s.onDev dev fun d => { d with ready := d.ready.eraseIdx k }.perform p.q p.idx p.words)

end Sys2Proof.Machine
end

