-- ==== Sys2Proof/Machine/Wg.lean ====
section
/-!
DEFINITION. Machine/Wg.lean: dispatching a WG (R14, R15, R20, R267), retiring it (R19, R253), and restoring a saved one (R224, R251,
R303).
-/
namespace Sys2Proof.Machine

/-! ### Dispatch (R14 to R20, R267) -/

/-- A WG of a launch is asked to stop. -/
def State.stopping (s : State) (l : Launch) : Bool := l.running.any fun p => (s.ctx p.2).preempt
/-- A launch takes new WGs: it has started and has not ended, none of its WGs stands saved, and no cooperative launch takes the contexts
first; none is asked to stop, but for a cooperative launch, which is dispatched whole all the same (R16). -/
def State.dispatching (s : State) (dev lid : Nat) (l : Launch) : Bool :=
  l.begun && !l.done && l.savedWgs.isEmpty && (l.coop || !s.stopping l) && !s.coopPending dev (some lid) l.fields
/-- The WGs that the dispatcher has sent to a field and that have no core yet, after the next batch where none is left (R20):
at most 64 consecutive WGIDs, and at most the free contexts of the field with the most. -/
def State.nextBatch (s : State) (dev : Nat) (l : Launch) : Launch :=
  if !l.batch.isEmpty then l
  else match s.pickField dev l fun _ => true with
    | none => l
    | some (f, free) =>
      let n := min (min 64 free) (l.wgcount - l.nextWg)
      { l with batch := (upTo n).map fun k => (f, l.nextWg + k), nextWg := l.nextWg + n }
/-- The context of a WG at dispatch (R15, R94, R259, R267, R277, R292). -/
def Launch.newCtx (l : Launch) (lid wg : Nat) : Ctx :=
  let st := l.stbase.toNat
  let cl := l.collrt.toNat
  { live := some (lid, wg), det := l.level, asid := l.asid, hzdEn := l.hzdEn, hzdMode := l.hzdMode
    stbase := BitVec.ofNat 41 (nbits st 16 41), stcount := BitVec.ofNat 13 (min 4096 (nbits st 0 13))
    collBase := BitVec.ofNat 45 (nbits cl 12 45), collN := BitVec.ofNat 11 (nbits cl 0 11)
    codebase := hiBits (BitVec.ofNat 64 l.codeva), codelim := hiBits (BitVec.ofNat 64 (l.codeva + l.codelen)) }
/-- Main stream of cluster `cl` at dispatch (R133, R267): at its entry, or halted where the image gives none. -/
def Launch.newMain (l : Launch) (cl : Nat) : Stream :=
  let e := (l.entry[cl]?).getD none
  let c := Cursor.atHeader (BitVec.ofNat 64 (l.codeva + e.getD 0))
  let st : Stream := { status := if e.isSome then .running else .halted, ex := c, acc := { cur := c },
                       trap := { tvec := l.tvec } }
  st.ws 28 l.datava
/-- A place in a path targets a buffer of a context. -/
def Loc.inCtx (x : CtxId) : Loc → Bool
  | .buf y _ _ => y == x
  | .mcast ys _ _ => ys.contains x
  | .kt _ _ _ _ | .sup _ _ | .remote _ _ _ _ | .void => false
/-- The context is no longer among the targets of a write on its way. -/
def Loc.without (x : CtxId) : Loc → Loc
  | .mcast ys b o => .mcast (ys.filter fun y => y != x) b o
  | .buf y b o => if y == x then .void else .buf y b o
  | l => l
/-- Writes of earlier WGs that are still on their way to the buffers of a context do not reach the WG that takes it (R15). -/
def State.shield (s : State) (x : CtxId) : State :=
  { s with cores := s.cores.map fun p =>
      if p.2.paths.any fun i => i.loc.inCtx x then
        (p.1, { p.2 with paths := p.2.paths.map fun i => { i with loc := i.loc.without x } })
      else p }
/-- A WG takes a context: its buffers are clear, its streams start, and its T1 counts from the launch's start (R285). Where the launch is
asked to stop, so is it. -/
def State.startWg (s : State) (lid wg : Nat) (l : Launch) (x : CtxId) : State :=
  let d := s.dev x.core.dev
  let s1 := (s.shield x).setCtx x { l.newCtx lid wg with preempt := s.stopping l }
  let s2 := (upTo 4).foldl (fun s cl => s.setStrm ⟨x.core, cl, x.ctx⟩ { l.newMain cl with idle := d.cycle }) s1
  let k := (x.core.field, x.core.core / 4)
  s2.onLaunch x.core.dev lid fun l =>
    { l with running := l.running ++ [(wg, x)], issued := fset l.issued k (fget l.issued k 0 + 1)
             timers := fset l.timers wg (l.startedAt.getD d.time, none) }

/-- WG_DISPATCH (R20): the next WG of a launch goes to a core and a context of the field that its batch was sent to. -/
def execWgDispatch (dev lid : Nat) (s : State) : Out :=
  match s.launch? dev lid with
  | none => .next s
  | some l0 =>
    if !s.dispatching dev lid l0 then .next s
    else
      let l := s.nextBatch dev l0
      match l.batch with
      | [] => .next s
      | (f, wg) :: rest => match s.pickCtx dev f l.excl fun _ => true with
        | none => .next s
        | some x =>
          let s1 := s.onLaunch dev lid fun _ => { l with batch := rest }
          .next (s1.startWg lid wg l x)

/-! ### Retirement (R19, R253) -/

/-- A count of a quad: those dispatched into it, or those of them that have retired. -/
def quadCount (m : FMap (Nat × Nat) Nat) (f q : Nat) : Nat := fget m (f, q) 0
/-- The device counter of a launch (R19): a quad reports its retired WGs when every WG dispatched into it has retired, and a field
on the same condition for its quads. -/
def Launch.deviceCount (l : Launch) : Nat :=
  let whole (f q : Nat) : Bool := quadCount l.issued f q == quadCount l.retired f q
  (upTo 8).foldl (fun n f =>
    if (upTo 10).all (whole f) then n + (upTo 10).foldl (fun n q => n + quadCount l.retired f q) 0 else n) 0

/-- A WG may retire: its main streams have halted, its tails have ended, its engine commands and plan runs have completed, its
stores have taken effect, its STGs are stamped, and no fault of it is pending. -/
def State.mayRetire (s : State) (x : CtxId) : Bool :=
  (mainsOf x).all (fun id => (s.strm id).status == .halted) &&
    (s.slotsOfCtx x).all (fun id => !isTail id && (s.strm id).pendFaults.isEmpty && (s.strm id).allSq.isEmpty) && !s.wgUnstamped x &&
    !s.cmdsOf x && !(s.ctx x).planRuns && !((s.core x.core).paths.any fun p => p.x == x) &&
    !(engs.any fun e => ((s.core x.core).queue e).cmds.any fun c => c.x == x)
/-- A launch completes (R19): its packet completes, and its KTT may be released (R308). -/
def State.completeLaunch (s : State) (dev lid : Nat) : State :=
  match s.launch? dev lid with
  | none => s
  | some l =>
    if !l.done && l.nextWg == l.wgcount && l.deviceCount == l.wgcount then
      (s.onLaunch dev lid fun l => { l with done := true }).onDev dev fun d =>
        (d.finishPkt l.q l.idx).releaseKtt l.asid.toNat
    else s

/-- WG_RETIRE (R19): the context, its share, its semaphores and its tail slots are freed, and the WG is counted; with the last one
the launch completes. -/
def execWgRetire (x : CtxId) (s : State) : Out :=
  match (s.ctx x).live with
  | none => .next s
  | some (lid, wg) =>
    if !s.mayRetire x then .next s
    else
      let k := (x.core.field, x.core.core / 4)
      let s1 := (s.freeCtx x).onLaunch x.core.dev lid fun l =>
        { l with running := l.running.filter fun p => p.1 != wg, retired := fset l.retired k (fget l.retired k 0 + 1)
                 timers := fdel l.timers wg }
      .next (s1.completeLaunch x.core.dev lid)

/-! ### Restore (R224, R251, R303) -/

/-- The tails that an image holds in a cluster. -/
def ImageSlot.tailsIn (i : ImageSlot) (cl : Nat) : List Nat :=
  (i.streams.filter fun p => p.1.cl == cl && isTail p.1).map fun p => p.1.sl
/-- The free tail slots of a cluster. -/
def State.freeTails (s : State) (c : CoreId) (cl : Nat) : List Nat :=
  [2, 3].filter fun sl => (s.strm ⟨c, cl, sl⟩).status == .free
/-- Each cluster of a core has a free tail slot for every tail of the image (R251). -/
def State.tailsFit (s : State) (i : ImageSlot) (c : CoreId) : Bool :=
  (upTo 4).all fun cl => decide ((i.tailsIn cl).length ≤ (s.freeTails c cl).length)
/-- The slot that a tail takes: its own number where that slot is free, otherwise the other one (R251). -/
def State.tailPlace (s : State) (c : CoreId) (i : ImageSlot) (cl sl : Nat) : Nat :=
  let free := s.freeTails c cl
  if free.contains sl then sl
  else (free.find? fun k => !(i.tailsIn cl).contains k || k != sl).getD (5 - sl)
/-- The queues of a core have room for the commands of an image, each queue's as one run (R224). -/
def Core.fits (k : Core) (i : ImageSlot) : Bool :=
  engs.all fun e => decide ((k.queue e).cmds.length + (i.queues.filter fun c => c.eng == e).length ≤ engDepth e)
/-- The context that a restore goes to (R303): a cooperative launch's WG where it was saved, once every WG of the launch has been saved
(R16); any other as dispatch would choose. -/
def State.restoreTo (s : State) (dev : Nat) (l : Launch) (i : ImageSlot) : Option CtxId :=
  let ok (c : CoreId) : Bool := s.tailsFit i c && (s.core c).fits i
  if s.coopPending dev (some i.launch) l.fields || (l.coop && !l.resuming) then none
  else if l.coop then
    (if ok i.x.core && (s.freeCtxs l.excl i.x.core).contains i.x.ctx then some i.x
     else if ok i.x.core && l.excl == false && s.ctxFree i.x && s.coreOk i.x.core && !s.exclOf ⟨i.x.core, 1 - i.x.ctx⟩ then some i.x
     else none)
  else (s.pickField dev l ok).bind fun p => s.pickCtx dev p.1 l.excl ok

/-- A place of a byte after its context has moved from `a` to `b`. -/
def Loc.moved (a b : CtxId) : Loc → Loc
  | .buf x bf o => .buf (if x == a then b else x) bf o
  | .mcast xs bf o => .mcast (xs.map fun x => if x == a then b else x) bf o
  | l => l
/-- A store or an atomic that stands aside with the access side goes to the bytes of its context. -/
def SqItem.moved (a b : CtxId) : SqItem → SqItem
  | .store q va ps => .store q va (ps.map fun p => ({ p.1 with loc := p.1.loc.moved a b }, p.2))
  | .stg q g r l o bs => .stg q g r l o bs
  | .twin q (.amo op cas dbl o sc d v old va loc) => .twin q (.amo op cas dbl o sc d v old va (loc.moved a b))
  | .twin q op => .twin q op
/-- A load that has not performed performs anew after the restore (R173). -/
def LqItem.moved (a b : CtxId) : LqItem → LqItem
  | .load q d g va todo got => .load q d g va (todo.map fun p => { p with loc := p.loc.moved a b }) got
  | .twin q => .twin q
/-- An access side after the move. -/
def Access.moved (ac : Access) (a b : CtxId) : Access :=
  { ac with lq := ac.lq.map (LqItem.moved a b), sqBack := ac.sqBack.map (SqItem.moved a b) }
/-- A tail-table entry after the tails of the cluster have taken their slots (R251). -/
def TailEntry.moved (place : Nat → Nat) : TailEntry → TailEntry
  | .live fb fe l t => .live fb fe l (place t)
  | .defer fb l => .defer fb l

/-- Where the slot of a saved stream is now; what an ended stream has left behind keeps its number (`ghostOf`), and another core's slot
is what it was. -/
def slotMoved (x y : CtxId) (place : Nat → Nat → Nat) (id : SlotId) : SlotId :=
  if id.core != x.core then id
  else if 8 ≤ id.sl then ⟨y.core, id.cl, id.sl / 8 * 8 + 4 * (y.ctx % 2) + id.sl % 4⟩
  else if isTail id then ⟨y.core, id.cl, place id.cl id.sl⟩ else ⟨y.core, id.cl, if id.sl == x.ctx then y.ctx else id.sl⟩
/-- A saved stream as it is restored: its image's contents, the slots of its tails and of its spawner renamed. -/
def ImageSlot.stream (i : ImageSlot) (img : Image) (y : CtxId) (place : Nat → Nat → Nat) (p : SlotId × Stream) : Stream :=
  let key := p.1.cl * 16 + p.1.sl * 4
  let st := match img.streams.find? fun q => q.1 == key with
    | some q => p.2.fromImage q.2
    | none => p.2
  let sp (sl : Nat) : Nat := (slotMoved i.x y place ⟨i.x.core, p.1.cl, sl⟩).sl
  let back : Stream := { st with
    owner := y.ctx
    spawner := st.spawner.map fun q => (sp q.1, q.2)
    tails := st.tails.map (TailEntry.moved (place p.1.cl))
    acc := st.acc.moved i.x y, divAcc := st.divAcc.map fun a => a.moved i.x y
    aside := st.aside.map fun a => a.moved i.x y }
  back.unstow
/-- A saved command as it enters its queue again, behind those already there (R224). -/
def EngCmd.moved (c : EngCmd) (x y : CtxId) (place : Nat → Nat → Nat) (entry : Nat) : EngCmd :=
  { c with x := y, slot := slotMoved x y place c.slot, entry := entry }
/-- The ranges of a restored command's window bytes lie in the windows of its new context. -/
def Range.moved (x y : CtxId) (r : Range) : Range := if r.space == winSpace x then { r with space := winSpace y } else r
/-- A plan's run belongs to the slot of its stream. -/
def Plan.moved (p : Plan) (x y : CtxId) (place : Nat → Nat → Nat) : Plan :=
  { p with run := p.run.map fun r => { r with slot := slotMoved x y place r.slot } }

/-- The run of a plan under a number goes on in a context. -/
def State.runLives (s : State) (id : Nat) : Bool := s.ctxs.any fun p => p.2.runs.any fun r => r.id == id
/-- The commands of an image that are restored: those of a run that has ended since the save are not, nor those of one whose own context
stands saved: the bank enters those again with it (R98). -/
def State.restorable (s : State) (i : ImageSlot) : List EngCmd := i.queues.filter fun c => c.kind != .plan || s.runLives c.xfer
/-- The saved commands of an image as they enter the queues of a core, in the order among them in which they entered before (R26, R224,
R271); at D0 and D1 the range checker orders them against the other queues' entries. -/
def State.restoreCmds (s : State) (i : ImageSlot) (y : CtxId) (place : Nat → Nat → Nat) : State :=
  let cmds := s.restorable i
  let base := s.nextId
  cmds.foldl (fun s c0 =>
    let c1 := c0.moved i.x y place (base + (cmds.filter fun o => decide (o.entry < c0.entry)).length)
    let c := { c1 with reads := c1.reads.map (Range.moved i.x y), writes := c1.writes.map (Range.moved i.x y) }
    let k := s.core y.core
    let others := (k.rivals c).filter fun o => o.x != y
    let c := if c.level == 2#2 then c else { c with after := c.after ++ others.map EngCmd.id }
    s.onCore y.core fun k => k.setQueue c.eng { k.queue c.eng with cmds := (k.queue c.eng).cmds ++ [c] })
    { s with nextId := base + cmds.length }

/-- A checked image is restored (R303): its streams have issued nothing in their slots yet, and no bank of theirs is in retention (R186); a
WG of a cooperative launch that has been asked to stop again stops with the others (R16). -/
def State.restore (s : State) (dev slot lid : Nat) (i : ImageSlot) (img : Image) (y : CtxId) : State :=
  let place := s.tailPlace y.core i
  let resumeAsked := (s.launch? dev lid).any fun l => l.coop && s.stopping l
  let c := (i.ctx.fromImage img.context).withRegions img.regions
  let plans := c.plans.map fun p => (p.1, { p.2 with plan := p.2.plan.map fun q => q.moved i.x y place })
  let s1 := (s.shield y).setCtx y { c with live := some (lid, i.wgid), plans := plans, preempt := resumeAsked }
  let s2 := i.streams.foldl (fun s p =>
    s.setStrm (slotMoved i.x y place p.1) { i.stream img y place p with idle := (s.dev dev).cycle, ret := 0 }) s1
  let s3 := s2.restoreCmds i y place
  let k := (y.core.field, y.core.core / 4)
  let now := (s.dev dev).time
  (s3.onDev dev fun d => { d with images := fdel d.images slot }).onLaunch dev lid fun l =>
    { l with running := l.running ++ [(i.wgid, y)], savedWgs := l.savedWgs.filter fun p => p.1 != i.wgid
             resuming := l.savedWgs.any fun p => p.1 != i.wgid
             issued := fset l.issued k (fget l.issued k 0 + 1), startedAt := some (l.startedAt.getD now)
             timers := fset l.timers i.wgid (now, none) }

/-- CONTEXT_RESTORE (R303): the image in a slot is checked whole and restored onto the context that the rules choose. An image
that fails a check kills its launch and frees the slot. -/
def execContextRestore (dev slot : Nat) (x : CtxId) (s : State) : Out :=
  match fget? (s.dev dev).images slot with
  | none => .next s
  | some i =>
    match s.launch? dev i.launch with
    | none => .next s
    | some l =>
      if s.restoreTo dev l i != some x then .next s
      else
        let at_ := (s.dev dev).imageAt slot
        s.cpAccess dev [(at_, min imageSpan ((s.dev dev).pnat (at_ + 16) 8))] fun s => match (s.dev dev).checkImage at_ l.asid l.excl with
        | some img => .next (s.restore dev slot i.launch i img x)
        | none =>
          let s1 := s.logFault dev l.asid { name := .image } false 0 0
          .next ((s1.killLaunch dev i.launch).onDev dev fun d => { d with images := fdel d.images slot })

end Sys2Proof.Machine
end

