-- ==== Sys2Proof/Machine/Slots.lean ====
section
/-!
DEFINITION. Machine/Slots.lean: doorbells (R274), the hardware slots and the firmware core's wake register (R283), host writes to
device memory (R76), registers that a write only sets (R7, R295, R297, R314, R323, R324), and the watchdog (R285).
-/
namespace Sys2Proof.Machine

/-! ### Doorbells (R274) -/

/-- RESTART of a doorbell. -/
def dbRestart (data : Word) : Bool := data.getLsbD 32
/-- A doorbell is refused: a reserved bit, too many packets, or no such queue. -/
def Device.dbBad (d : Device) (q : Nat) (data : Word) : Bool :=
  let n := ((data.toNat % 2 ^ 32) + 2 ^ 32 - d.rptr q) % 2 ^ 32
  nbits data.toNat 33 31 != 0 || decide (2 ^ nbits (d.qword q 0) 19 4 < n) || !nbit (d.qword q 0) 31
/-- A doorbell takes effect in one step: WPTR, a restart of a queue that does not run, and the pending bit of a queue without a
slot (R274, R283). -/
def Device.ring (d : Device) (q : Nat) (data : Word) : Device :=
  if d.dbBad q data then d.stopQueue q 1 7 (d.rptr q)
  else
    let d1 := d.setQword q 4 (data.toNat % 2 ^ 32)
    let d2 := if dbRestart data && d1.qstate q != 0 then (d1.setQword q 9 0).setQstate q 0 else d1
    if (d2.slotOf q).isNone then d2.setPend q else d2
/-- The host reaches the doorbell of queue q (R273: queues 0 to 65,535). -/
def State.doorbellTo (s : State) (dev q : Nat) (data : Word) : Out :=
  if 65536 ≤ q then .next s
  else s.cpAccess dev [((s.dev dev).qdesc q, 64)] fun s => .next (s.onDev dev fun d => d.ring q data)
/-- DOORBELL (R274): RESTART = 0. -/
def execDoorbell (dev q : Nat) (data : Word) (s : State) : Out := if dbRestart data then .next s else s.doorbellTo dev q data
/-- DOORBELL_RESTART (R274): RESTART = 1. -/
def execDoorbellRestart (dev q : Nat) (data : Word) (s : State) : Out := if dbRestart data then s.doorbellTo dev q data else .next s

/-! ### Slots (R283) -/

/-- A descriptor is legal when its queue is mapped (R273, R274). -/
def Device.descOk (d : Device) (q : Nat) : Bool :=
  let w (k : Nat) : Nat := d.qword q k
  let lg := nbits (w 0) 19 4
  let b := d.qword64 q 2
  nbits (w 0) 14 5 == 0 && w 1 == 0 && w 9 % 2 ^ 24 == 0 && w 11 / 2 ^ 11 == 0 && w 14 / 2 ^ 6 == 0 && w 15 == 0 &&
    decide (4 ≤ lg) && nbits (w 0) 27 2 != 3 && b % 64 == 0 && physOk b && d.supRegionOk q
/-- The slot parses the queue. -/
def Device.parses (d : Device) (slot qid : Nat) : Bool :=
  let k := fget d.slots slot {}
  k.valid && k.qid == qid
/-- SLOT_MAP (R7, R283): firmware maps a queue to a slot, at the priority that it writes (log 70). A queue that is mapped stays where it is:
the write sets the priority of the slot that parses it, and does nothing in another. The descriptor of a queue that is mapped is read: a bad
one stops the queue with BAD_QUEUE. -/
def execSlotMap (dev slot qid prio : Nat) (s : State) : Out :=
  let d := s.dev dev
  let elsewhere := d.slots.any fun p => p.1 != slot && p.2.valid && p.2.qid == qid
  if !d.fwRunning || 128 ≤ slot || 65536 ≤ qid || elsewhere then .next s
  else if d.parses slot qid then .next (s.onDev dev fun d => { d with slots := fset d.slots slot ⟨qid, BitVec.ofNat 4 prio, true⟩ })
  else s.cpAccess dev [(d.qdesc qid, 64)] fun s => .next (s.onDev dev fun d =>
    let d1 := { d with slots := fset d.slots slot ⟨qid, BitVec.ofNat 4 prio, true⟩, pendq := d.pendq.filter fun q => q != qid }
    if d1.descOk qid then d1 else d1.stopQueue qid 1 9 (d1.rptr qid))
/-- SLOT_UNMAP (R7, R283): a write of SLOTn with VALID = 0 sets its fields, and parsing stops at once. -/
def execSlotUnmap (dev : Nat) (w : SlotWrite) (s : State) : Out :=
  if !(s.dev dev).fwRunning || 128 ≤ w.slot then .next s
  else .next (s.onDev dev fun d => { d with slots := fset d.slots w.slot ⟨w.qid % 65536, BitVec.ofNat 4 w.prio, false⟩ })

/-- Ask the contexts of a launch to stop (R296); one that is stopping already goes on doing so. -/
def State.askStop (s : State) (l : Launch) : State :=
  (l.running.map Prod.snd).foldl (fun s x => s.onCtx x fun c => { c with preempt := true }) s
/-- SLOT_PREEMPT (R283): every context of the started launches of a slot's queue is asked to stop. -/
def execSlotPreempt (dev slot : Nat) (s : State) : Out :=
  let d := s.dev dev
  let k := fget d.slots slot {}
  if !d.fwRunning || !k.valid then .next s
  else .next ((d.launches.filter fun p => p.2.q == k.qid && p.2.begun && !p.2.done).foldl (fun s p => s.askStop p.2) s)

/-- Time since an instant, modulo the counter (R115). -/
def since (now t : Word) : Nat := (now - t).toNat

/-- FW_POLICY_TICK (R283): the policy timer of 1 ms has run out. -/
def execFwPolicyTick (dev : Nat) (s : State) : Out :=
  let d := s.dev dev
  if since d.time d.tickAt < usTime 1000 then .next s
  else .next (s.onDev dev fun d => { d with fwTick := true, tickAt := d.time })

/-! ### Host writes and plain registers (R7, R76) -/

/-- HOST_MEMORY_WRITE (R76): a write by the host to bytes of one granule of device memory takes effect at their home, where the home's
field serves (R314). -/
def execHostMemoryWrite (dev pa : Nat) (bytes : List Byte) (s : State) : Out :=
  if 16 < pa % 16 + bytes.length || 2 ^ 63 ≤ pa then .next s
  else s.cpAccess dev [(pa, bytes.length)] fun s => .next (s.writePlace (s.placePhys dev pa) bytes)

/-- Write a plain register (R7): its writable fields take the value; a 1 clears a W1C bit. -/
def Device.regWrite (d : Device) (r : PlainReg) (data : Word) : Device :=
  let w (lo k : Nat) : Nat := nbits data.toNat lo k
  match r with
  | .flbase => { d with flbase := BitVec.ofNat 46 (w 6 46) }
  | .flctl => { d with flvec := BitVec.ofNat 11 (w 32 11), fllog2n := BitVec.ofNat 5 (w 0 5) }
  | .flrptr => { d with flrptr := BitVec.ofNat 32 (w 0 32) }
  | .savebase => { d with savebase := BitVec.ofNat 28 (w 24 28) }
  | .savenum => { d with savenum := BitVec.ofNat 16 (w 0 16) }
  | .fctlLock => { d with fctlLock := data.getLsbD 16 }
  | .wearCorr f => if f < 8 then d.onField f fun x => { x with corr := BitVec.ofNat 32 (w 32 32) } else d
  | .nonce k =>
    { d with nonce := Vector.ofFn fun i =>
        if i.val / 8 = k then BitVec.ofNat 8 (w (8 * (i.val % 8)) 8) else d.nonce[i.val]'i.isLt }
  | .fwwake =>
    { d with fwTick := d.fwTick && !data.getLsbD 3, fwWdog := d.fwWdog && !data.getLsbD 2, fwQerr := d.fwQerr && !data.getLsbD 1 }
  | .pend k => { d with pendq := d.pendq.filter fun q => !(q / 32 == k && data.getLsbD (q % 32)) }
  | .qtbase => { d with qtbase := BitVec.ofNat 46 (w 6 46) }
/-- REGISTER_WRITE (R7): a write to a register that has no behaviour of its own. -/
def execRegisterWrite (dev : Nat) (r : PlainReg) (data : Word) (s : State) : Out :=
  .next (s.onDev dev fun d => d.regWrite r data)

/-! ### The watchdog (R285) -/

/-- T1, T2 and T3 of a queue, in time units; none when a stage is off: a limit of 0 turns off its stage and every later one. -/
def Device.limit (d : Device) (q stage : Nat) : Option Nat :=
  if (upTo stage).all fun k => d.qword q (6 + k) != 0 then some (usTime (d.qword q (5 + stage))) else none
/-- A stage has run out. -/
def Device.ranOut (d : Device) (q stage : Nat) (t : Option Word) : Bool :=
  match t, d.limit q stage with
  | some t, some n => decide (n ≤ since d.time t)
  | _, _ => false
/-- A watchdog stage fires. -/
def State.wdog (s : State) (dev : Nat) : State := s.onDev dev fun d => { d with fwWdog := true }

/-- The resident WGs of a launch whose T1 has run out and has not fired. -/
def Launch.t1Due (l : Launch) (d : Device) : List Nat :=
  (l.timers.filter fun t => t.2.2.isNone && d.ranOut l.q 1 (some t.2.1)).map Prod.fst
/-- T1 fires for some WGs of a launch: T2 counts from now. -/
def Launch.fireT1 (l : Launch) (ws : List Nat) (now : Word) : Launch :=
  { l with timers := l.timers.map fun t => if ws.contains t.1 then (t.1, t.2.1, some now) else t }
/-- WATCHDOG_T1 (R285): each context of the launch whose time has run out is asked to stop; those of a cooperative launch stop together
(R16). -/
def execWatchdogT1 (dev lid : Nat) (s : State) : Out :=
  match s.launch? dev lid with
  | none => .next s
  | some l =>
    let d := s.dev dev
    let ws := l.t1Due d
    if l.done || ws.isEmpty then .next s
    else
      let s1 := s.askStop { l with running := l.running.filter fun p => l.coop || ws.contains p.1 }
      .next ((s1.onLaunch dev lid fun l => l.fireT1 ws d.time).wdog dev)
/-- Every WG of a launch has retired but for some that may retire now: the launch completes in this cycle (R286). -/
def State.completing (s : State) (l : Launch) : Bool :=
  l.nextWg == l.wgcount && l.batch.isEmpty && l.savedWgs.isEmpty && l.running.all fun p => s.mayRetire p.2
/-- WATCHDOG_T2 (R285): some context has not been saved since its T1, and the launch is killed. A completion that meets it stands (R286). -/
def execWatchdogT2 (dev lid : Nat) (s : State) : Out :=
  match s.launch? dev lid with
  | none => .next s
  | some l =>
    let d := s.dev dev
    if l.done || !(l.timers.any fun t => d.ranOut l.q 2 t.2.2) || s.completing l then .next s
    else .next (((s.killLaunch dev lid).onLaunch dev lid fun k =>
      { k with t2at := some d.time, lost := l.running.map Prod.snd }).wdog dev)
/-- The cores of a killed launch that have not stopped: accesses of its contexts have not performed. -/
def State.unstopped (s : State) (l : Launch) : List CoreId :=
  ((l.lost.filter fun x => (s.core x.core).paths.any fun p => p.x == x).map fun x => x.core).eraseDups
/-- The physical core of a logical number is fenced (R285, R325). -/
def Field.fence (f : Field) (core : Nat) : Field := { f with fenced := fget f.coreMap core core :: f.fenced }
/-- Fence a core (R285): it issues nothing, its accesses not yet performed are dropped, and a record names it. -/
def State.fence (s : State) (asid : BitVec 14) (c : CoreId) : State :=
  ((s.onCore c fun k => { k with fenced := true, paths := [] }).onDev c.dev fun d =>
    d.onField c.field fun f => f.fence c.core).logFault c.dev asid { name := .fenced } false (locWord ⟨c, 0, 0⟩ 0) 0
/-- WATCHDOG_T3 (R285): the cores that have not stopped are fenced. -/
def execWatchdogT3 (dev lid : Nat) (s : State) : Out :=
  match s.launch? dev lid with
  | none => .next s
  | some l =>
    let d := s.dev dev
    let cs := s.unstopped l
    if cs.isEmpty || !d.ranOut l.q 3 l.t2at then .next s
    else .next (((cs.foldl (fun s c => s.fence l.asid c) s).onLaunch dev lid fun l => { l with t2at := none }).wdog dev)

end Sys2Proof.Machine
end

