-- ==== Sys2Proof/Machine/KttOps.lean ====
section
/-!
DEFINITION. Machine/KttOps.lean: changes of a KTT entry that the supervisor asks for (R310), and migration (R306, R311, R319).
-/
namespace Sys2Proof.Machine

/-- Replace entry k of a KTT. -/
def Ktt.setEntry (t : Ktt) (k : Nat) (f : KttEntry → KttEntry) : Ktt :=
  match t.entries[k]? with
  | none => t
  | some e => { t with entries := t.entries.set k (f e) }
/-- Change the KTT that a device holds for an address space. -/
def State.onKtt (s : State) (dev asid : Nat) (f : Ktt → Ktt) : State :=
  s.onDev dev fun d => match fget? d.ktts asid with
    | none => d
    | some t => { d with ktts := fset d.ktts asid (f t) }

/-- Perform an action of cr.kttop on entry k (R310): it waits while a migration is in progress, and a write that is refused is
CR_VALUE and changes nothing. -/
def State.kttStep (s : State) (act k : Nat) (f : Ktt → Ktt) : Out :=
  if s.cktt.busy.isSome then .next s
  else if s.cktt.refuses act k s.cx.npa then (s.onSt fun st => { st with csrReq := .none }).raise .crValue
  else .next (s.onKtt s.cdev s.cx.asid.toNat f).answered

/-- KTT_SET_ABSENT (R310). -/
def execKttSetAbsent (sl : SlotId) (s0 : State) : Out :=
  let s := { s0 with cur := sl, side := .execute }
  match s.st.csrReq with
  | .kttAbsent k => if s.canAct sl then s.kttStep 1 k fun t => t.setEntry k fun e => { e with state := 0 } else .next s0
  | _ => .next s0
/-- KTT_SET_PRESENT (R310). -/
def execKttSetPresent (sl : SlotId) (s0 : State) : Out :=
  let s := { s0 with cur := sl, side := .execute }
  match s.st.csrReq with
  | .kttPresent k => if s.canAct sl then s.kttStep 2 k fun t => t.setEntry k fun e => { e with state := 1 } else .next s0
  | _ => .next s0
/-- KTT_MIGRATE (R311): the entry starts to migrate to the base that cr.kttnpa names. -/
def execKttMigrate (sl : SlotId) (s0 : State) : Out :=
  let s := { s0 with cur := sl, side := .execute }
  match s.st.csrReq with
  | .kttMigrate k =>
    if s.canAct sl then
      s.kttStep 3 k fun t =>
        { t.setEntry k fun e => { e with state := 2, npa := s.cx.npa, wmark := 0 } with busy := some k }
    else .next s0
  | _ => .next s0

/-- A line has been copied (R311): the watermark advances, and after the last line the entry is present at its new base. -/
def Ktt.copied (t : Ktt) (k : Nat) (e : KttEntry) : Ktt :=
  if e.wmark + 1 < 2 ^ e.log2 / 128 then t.setEntry k fun e => { e with wmark := e.wmark + 1 }
  else { t.setEntry k fun e => { e with pa := e.npa, npa := 0, wmark := 0, state := 1 } with busy := none }
/-- Every GLC copy of a device's lines at two physical addresses is invalidated. -/
def State.dropLines (s : State) (dev a b : Nat) : State :=
  { s with cores := s.cores.map fun p =>
      if p.1.dev == dev then (p.1, { p.2 with glc := fdel (fdel p.2.glc (a / 128)) (b / 128) }) else p }
/-- A migration cannot go on: the fault is recorded, and the launches of the address space are killed (R295, R314, R319). -/
def State.stopMigration (s : State) (dev asid : Nat) (f : FaultRec) : State :=
  let ls := (s.dev dev).launches.filter fun p => p.2.asid.toNat == asid && p.2.begun && !p.2.done
  ls.foldl (fun s p => s.killLaunch dev p.1) (s.logFault dev (BitVec.ofNat 14 asid) f false 0 0)

/-- MIGRATE_LINE_COPY (R311): the line at the watermark is read at the old base and written at the new one, in one step. -/
def execMigrateLineCopy (dev asid : Nat) (s : State) : Out :=
  let t := s.ktt dev asid
  match t.busy with
  | none => .next s
  | some k => match t.entries[k]? with
    | none => .next s
    | some e =>
      let a := e.pa + 128 * e.wmark
      let b := e.npa + 128 * e.wmark
      if (s.dev dev).isProtected a || (s.dev dev).isProtected b then
        .next (s.stopMigration dev asid { name := .protectedRange, faddr := BitVec.ofNat 64 b })
      else match s.placePhys dev a, s.placePhys dev b with
        | .dropped _ f, _ | _, .dropped _ f =>
          .next (s.stopMigration dev asid { name := .machineCheck, detail := BitVec.ofNat 64 f })
        | .retry, _ | _, .retry => .next s
        | p, q => .next (((s.writePlace q (s.readPlace p 128)).dropLines dev a b).onKtt dev asid fun t => t.copied k e)

end Sys2Proof.Machine
end

