-- ==== Sys2Proof/Machine/Fields.lean ====
section
/-!
DEFINITION. Machine/Fields.lean: reticle fields: bring-up and reset (R312 to R314, R320, R322, R325), current limits and tokens
(R316, R317), thermal limits (R318), wear monitors (R323) and the discipline loop (R115).
-/
namespace Sys2Proof.Machine

/-! ### Tokens (R316, R317) -/

/-- The token count that a field is to have (R316). -/
def Field.target (f : Field) : Nat :=
  let base := max 1 (f.ncore * f.ilim / 640)
  if f.throt then max 1 (base / 2) else base
/-- The tokens that the cores of a field hold. -/
def State.heldTokens (s : State) (dev f : Nat) : Nat := ((coresIn dev f).filter fun c => (s.core c).token).length
/-- The count takes effect: new tokens enter the ring, or free ones retire (R317). -/
def Field.retoken (f : Field) (held : Nat) : Field :=
  let n := f.target
  let free := f.ring.length
  if held + free ≤ n then { f with tokens := n, ring := f.ring ++ upTo (n - held - free) }
  else { f with tokens := n, ring := f.ring.take (n - held) }
/-- TOKEN_COUNT_UPDATE (R317): a field in service takes its new token count. -/
def execTokenCountUpdate (dev field : Nat) (s : State) : Out :=
  let f := (s.dev dev).fieldN field
  if 8 ≤ field || f.state != 2#3 || f.tokens == f.target then .next s
  else .next (s.onDev dev fun d => d.onField field fun f => f.retoken (s.heldTokens dev field))
/-- ILIM_SET (R316): firmware writes the current limit of a field, clamped to 16 A and the fused ceiling. -/
def execIlimSet (dev field amps : Nat) (s : State) : Out :=
  if 8 ≤ field || !(s.dev dev).fwRunning then .next s
  else .next (s.onDev dev fun d => d.onField field fun f => { f with ilim := min 640 (max 16 amps) })

/-! ### Spares as they are applied (R320, R322, R324) -/

/-- The bring-up step at which a kind of spare is applied (R320). -/
def spareStep : Nat → Nat
  | 0 => 4
  | 1 => 3
  | 2 => 1
  | 3 => 4
  | _ => 5
/-- The entry of the attestation log for an applied retirement (R324, log 12). -/
def Spare.entry (p : Spare) : List Byte :=
  padTo 80 (natBytes 1 p.kind ++ natBytes 1 p.field ++ natBytes 2 p.target ++ natBytes 2 p.arg)
/-- Append entries to the attestation log, which holds 256. -/
def Device.attest (d : Device) (es : List (List Byte)) : Device := { d with attlog := (d.attlog ++ es).take 256 }
/-- Append a measurement: a full log gives up its last retirement for it, so that every measurement stands in the log (log 12). -/
def Device.attestImage (d : Device) (e : List Byte) : Device := { d with attlog := d.attlog.take 255 ++ [e] }
/-- The retirements that a step of a field's bring-up applies. -/
def Field.due (f : Field) (step : Nat) : List Spare := f.named.filter fun p => spareStep p.kind == step
/-- SPARE_APPLY (R322): they are applied, and no longer pending. -/
def Field.applySpares (f : Field) (step : Nat) : Field :=
  { f with applied := f.applied ++ f.due step, named := f.named.filter fun p => spareStep p.kind != step }
/-- Follow retirements from core to spare; `fuel` bounds their number. -/
def followSpare (cores : List Nat) : Nat → Nat → Nat
  | 0, p => p
  | k + 1, p =>
    let i := cores.findIdx fun t => t == p
    if i < cores.length then followSpare cores k (40 + i) else p
/-- The physical core that stands for physical core p: itself, or the spare of its retirement, the first spare being core 40
(R320); a spare that has been retired gives way to the other. -/
def Field.physical (f : Field) (p : Nat) : Nat :=
  followSpare ((f.applied.filter fun a => a.kind == 0).map Spare.target) 3 p
/-- The physical cores of the logical numbers before any retirement: an order that each implementation fixes (log 63). -/
def pickOrder (dev field : Nat) : Nat → List Nat → List Nat
  | 0, _ => []
  | k + 1, left =>
    let p := left.getD (Config.corePick dev field k % left.length) 0
    p :: pickOrder dev field k (left.erase p)
/-- The logical cores that a core test finds (R10, R313, R320, R322): a retired core's number goes to its spare, a core that has
failed without one is missing, and no other number moves. -/
def Field.testCores (f : Field) (dev n : Nat) (failed : List Nat) : Field :=
  let map := ((pickOrder dev n 40 (upTo 40)).map f.physical).zipIdx.filterMap fun p =>
    if failed.contains p.1 then none else some (p.2, p.1)
  { f with ncore := map.length, coreMap := map }

/-! ### Bring-up (R313) -/

/-- A field may start: it is the first, or its predecessor reports lock and training, or has failed. -/
def Device.mayBegin (d : Device) (f : Nat) : Bool :=
  f == 0 || (let p := d.fieldN (f - 1)
    (p.pllUp && p.memUp) || p.state == 3#3)
/-- What the end of a bring-up step leaves, the spares of the step already applied. -/
def Field.stepDone (f : Field) (dev n : Nat) (lock : Bool) (failed : List Nat) (now : Word) : Field :=
  let f1 := { f with step := f.step + 1, stepSince := now }
  match f.step with
  | 2 => { f1 with pllUp := true, locked := lock }
  | 3 => { f1 with memUp := true }
  | 4 => f1.testCores dev n failed
  | 5 => ({ f1 with step := 0, state := 2 } : Field).retoken 0
  | _ => f1
/-- The core test has given the logical numbers their physical cores: a fence is the physical core's (R285, R325). -/
def State.refence (s : State) (dev field : Nat) : State :=
  let f := (s.dev dev).fieldN field
  f.coreMap.foldl (fun s p => s.onCore ⟨dev, field, p.1⟩ fun k => { k with fenced := f.fenced.contains p.2 }) s
/-- The granules that the copy of a step's spares cannot correct (R322): a spared channel's in step 3, a spared way's in step 5, at
addresses that the field homes; a spared buffer row's in step 4, at their places in the buffer (log 63). -/
def Field.uncorrected (f : Field) (dev field : Nat) (lost : List Nat) : List Nat :=
  let due := f.due f.step
  let mem := due.any fun p => p.kind == 1 || p.kind == 4
  lost.filter fun a => a % 16 == 0 &&
    ((mem && decide (a < 2 ^ 40) && Config.homeField dev (a / 128) % 8 == field) || due.any fun p => p.kind == 3 && a / 512 == p.arg)
/-- A granule that cannot be corrected is written as zero, and a record names the field and the address (R322). A buffer's granule holds
zero already: no WG is left on the field (R15, R314). -/
def State.zeroGranule (s : State) (dev field : Nat) (row : Bool) (a : Nat) : State :=
  (if row then s else s.onDev dev fun d => { d with mem := mwrite d.mem a (List.replicate 16 0) }).logFault dev 0
    { name := .machineCheck, faddr := BitVec.ofNat 64 a, detail := BitVec.ofNat 64 field } false 0 0
/-- FIELD_BRINGUP_STEP (R313, R322): a field that waits for its predecessor starts, or the step under way completes within its 100 ms, with the spares
that are applied in it; `failedCores` are the physical cores that the core test finds bad, `lostGranules` the addresses whose granules
the copy to a spare cannot correct. -/
def execFieldBringupStep (dev field : Nat) (failedCores lostGranules : List Nat) (s : State) : Out :=
  let d := s.dev dev
  let f := d.fieldN field
  if 8 ≤ field then .next s
  else if f.state == 0#3 && f.waiting then
    if d.mayBegin field then
      .next (s.onDev dev fun d => d.onField field fun f => { f with state := 1, waiting := false, step := 1, stepSince := d.time })
    else .next s
  else if f.state != 1#3 || f.step == 0 || usTime 100000 ≤ since d.time f.stepSince then .next s
  else
    let es := (f.due f.step).map Spare.entry
    let s1 := s.onDev dev fun d =>
      (d.attest es).onField field fun f => (f.applySpares f.step).stepDone dev field d.fctlLock failedCores d.time
    let s2 := if f.step == 4 then s1.refence dev field else s1
    .next ((f.uncorrected dev field lostGranules).foldl (fun s a => s.zeroGranule dev field (f.step == 4) a) s2)
/-- BRINGUP_STEP_TIMEOUT (R313): a step has taken 100 ms, and the field has failed. -/
def execBringupStepTimeout (dev field : Nat) (s : State) : Out :=
  let d := s.dev dev
  let f := d.fieldN field
  if 8 ≤ field || f.state != 1#3 || f.step == 0 || since d.time f.stepSince < usTime 100000 then .next s
  else .next (s.onDev dev fun d => d.onField field fun f =>
    { f with state := 3, fstep := BitVec.ofNat 4 f.step, step := 0, pllUp := false, memUp := false })

/-! ### Resets (R7, R313, R314) -/

/-- The launches whose core set includes a field. -/
def Device.launchesOn (d : Device) (f : Nat) : List Nat :=
  (d.launches.filter fun p => p.2.fields.getLsbD f && !p.2.done).map Prod.fst
/-- Kill them (R285, R314, R318). -/
def State.killField (s : State) (dev f : Nat) : State := ((s.dev dev).launchesOn f).foldl (fun s l => s.killLaunch dev l) s
/-- A field that starts over: what fuses hold is kept. -/
def Field.restarted (f : Field) : Field := { named := f.named, applied := f.applied, coreMap := f.coreMap, fenced := f.fenced, waiting := true }
/-- A core that starts over: a fence stays (R325), and its stores go on their way. -/
def Core.restarted (k : Core) : Core := { fenced := k.fenced, paths := k.paths }
/-- The whole device resets (R313): what fuses hold is kept, with the host's memory; device memory may keep its contents or not. -/
def Device.restarted (d : Device) (clock : Nat) : Device :=
  let fs := d.fields.map Field.restarted
  let f0 := { fs[0] with waiting := false, state := 1, step := 1 }
  { mem := d.mem.foldl (fun m c => mset m c.1 (Config.resetByte clock c.1)) [], hostMem := d.hostMem, fields := fs.set 0 f0,
    fuse := d.fuse, advances := d.advances,
    attlog := (d.fields.toList.flatMap fun f => f.applied.map Spare.entry).take 256 }
/-- DEVICE_RESET (R313, R314): every WG of the device is gone, and bring-up begins with field 0. -/
def State.resetDevice (s : State) (dev : Nat) : State :=
  let s1 := { s with
    streams := s.streams.filter fun p => p.1.core.dev != dev
    ctxs := s.ctxs.filter fun p => p.1.core.dev != dev
    cores := s.cores.map fun (p : CoreId × Core) => if p.1.dev == dev then (p.1, { fenced := p.2.fenced }) else p
    chunks := s.chunks.filter fun c => c.core.dev != dev }
  s1.setDev dev ((s.dev dev).restarted s.clock)
/-- DEVICE_RESET (R313). -/
def execDeviceReset (dev : Nat) (s : State) : Out := .next (s.resetDevice dev)
/-- FIELD_RESET (R314): the launches on the field are killed, its memory is kept, and it is brought up again; bit 0 resets the whole
device. -/
def execFieldReset (dev field : Nat) (s : State) : Out :=
  if 8 ≤ field then .next s
  else if field = 0 then .next (s.resetDevice dev)
  else
    let s1 := s.killField dev field
    let s2 := { s1 with cores := s1.cores.map fun (p : CoreId × Core) =>
      if p.1.dev == dev && p.1.field == field then (p.1, p.2.restarted) else p }
    .next (s2.onDev dev fun d => { d.onField field Field.restarted with red := d.red.filter fun p => p.1.1 != field })

/-! ### Thermal limits (R318) -/

/-- 105 °C, 100 °C and 125 °C in units of 1/16 °C. -/
def hotTemp : Int := 0x690
/-- 100 °C. -/
def coolTemp : Int := 0x640
/-- 125 °C. -/
def tripTemp : Int := 0x7D0
/-- A field has power: it is neither off nor tripped. -/
def Field.powered (f : Field) : Bool := f.state != 0#3 && f.state != 4#3
/-- THERMAL_THROTTLE_SET (R318): the hottest sensor reads 105 °C or more. -/
def execThermalThrottleSet (dev field : Nat) (temp : BitVec 16) (s : State) : Out :=
  if 8 ≤ field || !((s.dev dev).fieldN field).powered || temp.toInt < hotTemp || tripTemp ≤ temp.toInt then .next s
  else .next (s.onDev dev fun d => d.onField field fun f => { f with temp := temp, throt := true })
/-- THERMAL_THROTTLE_CLEAR (R318): it reads 100 °C or less; a reading between the two limits changes TEMP alone. -/
def execThermalThrottleClear (dev field : Nat) (temp : BitVec 16) (s : State) : Out :=
  if 8 ≤ field || !((s.dev dev).fieldN field).powered || hotTemp ≤ temp.toInt then .next s
  else .next (s.onDev dev fun d => d.onField field fun f =>
    { f with temp := temp, throt := f.throt && decide (coolTemp < temp.toInt) })
/-- THERMAL_TRIP (R318): at 125 °C the field is powered off, its launches are killed, and a record names it; THROT is set from 105 °C on. -/
def execThermalTrip (dev field : Nat) (temp : BitVec 16) (s : State) : Out :=
  if 8 ≤ field || !((s.dev dev).fieldN field).powered || temp.toInt < tripTemp then .next s
  else
    let s1 := s.killField dev field
    let s2 := s1.onDev dev fun d =>
      let d1 := d.onField field fun f => { f with temp := temp, throt := true, state := 4, step := 0, pllUp := false, memUp := false, locked := false }
      if field = 0 then { d1 with fwRunning := false } else d1
    .next (s2.logFault dev 0 { name := .machineCheck, detail := BitVec.ofNat 64 field } false 0 0)

/-! ### Wear monitors and the discipline loop (R115, R323) -/

/-- WEAR_MONITOR_SAMPLE (R323): the smallest margin and eye height since the field's reset, and `corrected` more errors that ECC has
corrected, the count saturating. -/
def execWearMonitorSample (dev field : Nat) (margin eye : BitVec 16) (corrected : Nat) (s : State) : Out :=
  if 8 ≤ field then .next s
  else .next (s.onDev dev fun d => d.onField field fun f =>
    { f with marginW := if margin.ult f.marginW then margin else f.marginW, eye := if eye.ult f.eye then eye else f.eye,
             corr := BitVec.ofNat 32 (min (2 ^ 32 - 1) (f.corr.toNat + corrected)) })
/-- DISCIPLINE_LOCK_CHANGE (R115): the loop gains or loses its bound. -/
def execDisciplineLockChange (dev : Nat) (locked : Bool) (s : State) : Out :=
  .next (s.onDev dev fun d => { d with timeLocked := locked })

end Sys2Proof.Machine
end

