-- ==== Sys2Proof/Machine/Scalar.lean ====
section
/-!
DEFINITION. Machine/Scalar.lean: scalar arithmetic (R137 to R141) and the compact scalar forms (R126).
-/
namespace Sys2Proof.Machine

/-! ### Shared operations -/

/-- An operation on 64 bits, or with .i32 on the low 32 bits with a sign-extended result (R137). -/
def i32Or (i32 : Bool) (f : Word → Word → Word) (g : BitVec 32 → BitVec 32 → BitVec 32) (a b : Word) : Word :=
  if i32 then sx (g (a.setWidth 32) (b.setWidth 32)) else f a b

/-- Sat(x, INTn) of R138, as a value of n bits. -/
def satInt (n : Nat) (x : Int) : BitVec n := BitVec.ofInt n (clampI (-(2 ^ (n - 1))) (2 ^ (n - 1) - 1) x)

/-- A shift count: B[5:0] for 64 bits, B[4:0] for 32 (R138). -/
def shCount {n : Nat} (b : BitVec n) : Nat := b.toNat % n

/-- Signed quotient truncated toward zero; by zero, all ones (R139). -/
def divS {n : Nat} (a b : BitVec n) : BitVec n := if b == 0 then BitVec.allOnes n else a.sdiv b
/-- Unsigned quotient; by zero, all ones (R139). -/
def divU {n : Nat} (a b : BitVec n) : BitVec n := if b == 0 then BitVec.allOnes n else a / b
/-- Signed remainder with the sign of A; by zero, A (R139). -/
def remS {n : Nat} (a b : BitVec n) : BitVec n := if b == 0 then a else a.srem b
/-- Unsigned remainder; by zero, A (R139). -/
def remU {n : Nat} (a b : BitVec n) : BitVec n := if b == 0 then a else a % b

/-- Bits [127:64] of the signed product (R139). -/
def mulHi (a b : Word) : Word := BitVec.ofInt 64 (a.toInt * b.toInt / 2 ^ 64)
/-- Bits [127:64] of the unsigned product (R139). -/
def mulHiU (a b : Word) : Word := BitVec.ofNat 64 (a.toNat * b.toNat / 2 ^ 64)

/-- The number of one bits below bit k (R141). -/
def popBelow (a : Word) (k : Nat) : Nat := popN k a.toNat
/-- The number of leading zero bits; 64 when A = 0 (R141). -/
def clzW (a : Word) : Nat := if a == 0 then 64 else 63 - a.toNat.log2
/-- The number of trailing zero bits among the low k bits of x, counted from bit 0. -/
def ctzFrom : Nat → Nat → Nat
  | 0, _ => 0
  | k + 1, x => if x % 2 = 1 then 0 else 1 + ctzFrom k (x / 2)
/-- The number of trailing zero bits; 64 when A = 0 (R141). -/
def ctzW (a : Word) : Nat := ctzFrom 64 a.toNat

/-- 1 or 0. -/
def flagW (b : Bool) : Word := if b then 1 else 0

/-- A scalar instruction of two source registers: read both, compute, write D, go on (R137). -/
def State.alu2 (s : State) (d a b : BitVec 5) (f : Word → Word → Word) (n : Word := 4) : Out :=
  s.put d (f (s.rs a) (s.rs b)) n

/-- A scalar instruction of one source register. -/
def State.alu1 (s : State) (d a : BitVec 5) (f : Word → Word) (n : Word := 4) : Out := s.put d (f (s.rs a)) n

/-! ### ALU and MULDIV (R138, R139) -/

/-- add: D := A + B (R138). -/
def execAdd (i32 : Bool) (d a b : BitVec 5) (s : State) : Out :=
  s.alu2 d a b (i32Or i32 (· + ·) (· + ·))

/-- sub: D := A − B (R138). -/
def execSub (i32 : Bool) (d a b : BitVec 5) (s : State) : Out :=
  s.alu2 d a b (i32Or i32 (· - ·) (· - ·))

/-- and: D := A AND B (R138). -/
def execAnd (d a b : BitVec 5) (s : State) : Out :=
  s.alu2 d a b (· &&& ·)

/-- or: D := A OR B (R138). -/
def execOr (d a b : BitVec 5) (s : State) : Out :=
  s.alu2 d a b (· ||| ·)

/-- xor: D := A XOR B (R138). -/
def execXor (d a b : BitVec 5) (s : State) : Out :=
  s.alu2 d a b (· ^^^ ·)

/-- andn: D := A AND NOT B (R138). -/
def execAndn (d a b : BitVec 5) (s : State) : Out :=
  s.alu2 d a b (fun x y => x &&& ~~~y)

/-- sll: A shifted left (R138). -/
def execSll (i32 : Bool) (d a b : BitVec 5) (s : State) : Out :=
  s.alu2 d a b (i32Or i32 (fun x y => x <<< shCount y) (fun x y => x <<< shCount y))

/-- srl: A shifted right, zeros in (R138). -/
def execSrl (i32 : Bool) (d a b : BitVec 5) (s : State) : Out :=
  s.alu2 d a b (i32Or i32 (fun x y => x >>> shCount y) (fun x y => x >>> shCount y))

/-- sra: A shifted right, sign in (R138). -/
def execSra (i32 : Bool) (d a b : BitVec 5) (s : State) : Out :=
  s.alu2 d a b (i32Or i32 (fun x y => x.sshiftRight (shCount y)) (fun x y => x.sshiftRight (shCount y)))

/-- adds: the saturated signed sum (R138). -/
def execAdds (i32 : Bool) (d a b : BitVec 5) (s : State) : Out :=
  s.alu2 d a b (i32Or i32 (fun x y => satInt 64 (x.toInt + y.toInt)) (fun x y => satInt 32 (x.toInt + y.toInt)))

/-- subs: the saturated signed difference (R138). -/
def execSubs (i32 : Bool) (d a b : BitVec 5) (s : State) : Out :=
  s.alu2 d a b (i32Or i32 (fun x y => satInt 64 (x.toInt - y.toInt)) (fun x y => satInt 32 (x.toInt - y.toInt)))

/-- mul: the low bits of A × B (R139). -/
def execMul (i32 : Bool) (d a b : BitVec 5) (s : State) : Out :=
  s.alu2 d a b (i32Or i32 (· * ·) (· * ·))

/-- mulh: the high bits of the signed product (R139). -/
def execMulh (d a b : BitVec 5) (s : State) : Out :=
  s.alu2 d a b mulHi

/-- mulhu: the high bits of the unsigned product (R139). -/
def execMulhu (d a b : BitVec 5) (s : State) : Out :=
  s.alu2 d a b mulHiU

/-- div (R139). -/
def execDiv (i32 : Bool) (d a b : BitVec 5) (s : State) : Out :=
  s.alu2 d a b (i32Or i32 divS divS)

/-- divu (R139). -/
def execDivu (i32 : Bool) (d a b : BitVec 5) (s : State) : Out :=
  s.alu2 d a b (i32Or i32 divU divU)

/-- rem (R139). -/
def execRem (i32 : Bool) (d a b : BitVec 5) (s : State) : Out :=
  s.alu2 d a b (i32Or i32 remS remS)

/-- remu (R139). -/
def execRemu (i32 : Bool) (d a b : BitVec 5) (s : State) : Out :=
  s.alu2 d a b (i32Or i32 remU remU)

/-! ### Immediate forms (R140) -/

/-- addi: D := A + sext(IMM) (R140). -/
def execAddi (d a : BitVec 5) (imm : BitVec 12) (s : State) : Out :=
  s.alu1 d a fun x => x + sx imm

/-- andi (R140). -/
def execAndi (d a : BitVec 5) (imm : BitVec 12) (s : State) : Out :=
  s.alu1 d a fun x => x &&& sx imm

/-- ori (R140). -/
def execOri (d a : BitVec 5) (imm : BitVec 12) (s : State) : Out :=
  s.alu1 d a fun x => x ||| sx imm

/-- xori (R140). -/
def execXori (d a : BitVec 5) (imm : BitVec 12) (s : State) : Out :=
  s.alu1 d a fun x => x ^^^ sx imm

/-- slli (R140). -/
def execSlli (d a : BitVec 5) (sh : BitVec 6) (s : State) : Out :=
  s.alu1 d a fun x => x <<< sh.toNat

/-- srli (R140). -/
def execSrli (d a : BitVec 5) (sh : BitVec 6) (s : State) : Out :=
  s.alu1 d a fun x => x >>> sh.toNat

/-- srai (R140). -/
def execSrai (d a : BitVec 5) (sh : BitVec 6) (s : State) : Out :=
  s.alu1 d a fun x => x.sshiftRight sh.toNat

/-- addi.i32: the sign-extended 32-bit sum (R140). -/
def execAddiI32 (d a : BitVec 5) (imm : BitVec 12) (s : State) : Out :=
  s.alu1 d a fun x => sx (x.setWidth 32 + imm.signExtend 32)

/-- lui: D := sext(IMM) × 2^12 (R140). -/
def execLui (d : BitVec 5) (imm : BitVec 19) (s : State) : Out :=
  s.put d (sx imm <<< 12)

/-- apc: the address of its first parcel + sext(IMM) × 2^12 (R140). -/
def execApc (d : BitVec 5) (imm : BitVec 19) (s : State) : Out :=
  s.put d (s.st.ex.pc + (sx imm <<< 12))

/-! ### BITS, CMP and CSEL (R141) -/

/-- clz (R141). -/
def execClz (d a : BitVec 5) (s : State) : Out :=
  s.alu1 d a fun x => BitVec.ofNat 64 (clzW x)

/-- ctz (R141). -/
def execCtz (d a : BitVec 5) (s : State) : Out :=
  s.alu1 d a fun x => BitVec.ofNat 64 (ctzW x)

/-- cpop (R141). -/
def execCpop (d a : BitVec 5) (s : State) : Out :=
  s.alu1 d a fun x => BitVec.ofNat 64 (popBelow x 64)

/-- min, signed (R141). -/
def execMin (d a b : BitVec 5) (s : State) : Out :=
  s.alu2 d a b fun x y => if y.slt x then y else x

/-- max, signed (R141). -/
def execMax (d a b : BitVec 5) (s : State) : Out :=
  s.alu2 d a b fun x y => if x.slt y then y else x

/-- minu (R141). -/
def execMinu (d a b : BitVec 5) (s : State) : Out :=
  s.alu2 d a b fun x y => if y.ult x then y else x

/-- maxu (R141). -/
def execMaxu (d a b : BitVec 5) (s : State) : Out :=
  s.alu2 d a b fun x y => if x.ult y then y else x

/-- sextb (R141). -/
def execSextb (d a : BitVec 5) (s : State) : Out :=
  s.alu1 d a fun x => sx (x.setWidth 8)

/-- sexth (R141). -/
def execSexth (d a : BitVec 5) (s : State) : Out :=
  s.alu1 d a fun x => sx (x.setWidth 16)

/-- sextw (R141). -/
def execSextw (d a : BitVec 5) (s : State) : Out :=
  s.alu1 d a fun x => sx (x.setWidth 32)

/-- zextw (R141). -/
def execZextw (d a : BitVec 5) (s : State) : Out :=
  s.alu1 d a fun x => zx (x.setWidth 32)

/-- slt (R141). -/
def execSlt (d a b : BitVec 5) (s : State) : Out :=
  s.alu2 d a b fun x y => flagW (x.slt y)

/-- sltu (R141). -/
def execSltu (d a b : BitVec 5) (s : State) : Out :=
  s.alu2 d a b fun x y => flagW (x.ult y)

/-- seq (R141). -/
def execSeq (d a b : BitVec 5) (s : State) : Out :=
  s.alu2 d a b fun x y => flagW (x == y)

/-- sne (R141). -/
def execSne (d a b : BitVec 5) (s : State) : Out :=
  s.alu2 d a b fun x y => flagW (x != y)

/-- csel: A if sC ≠ 0, else B (R141). -/
def execCsel (d c a b : BitVec 5) (s : State) : Out :=
  s.alu2 d a b fun x y => if s.rs c != 0 then x else y

/-! ### Compact forms (R126) -/

/-- Compact add: D := D + B (R126). -/
def execAddCompact (d b : BitVec 5) (s : State) : Out :=
  s.alu2 d d b (· + ·) 2

/-- Compact sub: D := D − B (R126). -/
def execSubCompact (d b : BitVec 5) (s : State) : Out :=
  s.alu2 d d b (· - ·) 2

/-- Compact and: D := D AND B (R126). -/
def execAndCompact (d b : BitVec 5) (s : State) : Out :=
  s.alu2 d d b (· &&& ·) 2

/-- Compact mv: D := B (R126). -/
def execMvCompact (d b : BitVec 5) (s : State) : Out :=
  s.alu1 d b (fun x => x) 2

/-- Compact addi: D := D + IMM (R126). -/
def execAddiCompact (d : BitVec 5) (imm : BitVec 7) (s : State) : Out :=
  s.alu1 d d (fun x => x + sx imm) 2

/-- Compact li: D := IMM (R126). -/
def execLiCompact (d : BitVec 5) (imm : BitVec 7) (s : State) : Out :=
  s.put d (sx imm) 2

/-- Compact slli (R126). -/
def execSlliCompact (d : BitVec 5) (sh : BitVec 6) (s : State) : Out :=
  s.alu1 d d (fun x => x <<< sh.toNat) 2

/-- Compact srai (R126). -/
def execSraiCompact (d : BitVec 5) (sh : BitVec 6) (s : State) : Out :=
  s.alu1 d d (fun x => x.sshiftRight sh.toNat) 2

end Sys2Proof.Machine
end

