-- ==== Sys2Proof/Machine/Long.lean ====
section
/-!
DEFINITION. Machine/Long.lean: the long units and the result latches (R196 to R198).
-/
namespace Sys2Proof.Machine

/-- Send a result to a latch (R198): it is PENDING at once and FULL after `lat` cycles. -/
def Stream.sendLatch (st : Stream) (l : BitVec 2) (cyc lat : Nat) (v : Vec) : Stream :=
  st.wl l { st.rl l with st := .pending, due := some (cyc + lat, v) }

/-- A long unit (R196): the writer waits while its latch is PENDING. -/
def State.longOp (s : State) (l : BitVec 2) (srcs : List (BitVec 6)) (lat : Nat) (f : List Vec → Vec) : Out :=
  let xs := srcs.map s.vreg
  if (s.st.rl l).st == .pending && (xs.all (bankOn s.vbanks)) then .next (s.waits .none)
  else s.vecIssue xs (xs.map Reg.v) [] [] 0 fun cyc st => st.sendLatch l cyc lat (f (xs.map st.rv))

/-- The latency of vdiv (R257). -/
def divLat (ty : VTy) : Nat :=
  match ty with
  | .f16 | .bf16 => 12
  | .i32 | .f32 => 20
  | .i64 | .i8 | .i16 => 36

/-- An integer quotient of R139 on patterns of w bits. -/
def divTy (ty : VTy) (x y : Nat) : Nat :=
  let w := 8 * ty.size
  (divS (BitVec.ofNat w x) (BitVec.ofNat w y)).toNat

/-- vdiv (R196, R197). -/
def execVdiv (ty : VTy) (l : BitVec 2) (vx vy : BitVec 6) (s : State) : Out :=
  s.longOp l [vx, vy] (divLat ty) fun vs =>
    ofTy ty (List.zipWith (fun x y => if ty.isFloat then ofTyNum ty (numDiv (tyNum ty x) (tyNum ty y)) else divTy ty x y)
      (tyElems ty (nthV vs 0)) (tyElems ty (nthV vs 1)))

/-- A unary float function on every element. -/
def State.longUnary (s : State) (ty : VTy) (l : BitVec 2) (vx : BitVec 6) (lat : Nat) (f : Num → Num) : Out :=
  s.longOp l [vx] lat fun vs => ofTy ty ((tyElems ty (nthV vs 0)).map fun x => ofTyNum ty (f (tyNum ty x)))

/-- vsqrt (R197). -/
def execVsqrt (ty : VTy) (l : BitVec 2) (vx : BitVec 6) (s : State) : Out := s.longUnary ty l vx 18 numSqrt
/-- vrcp (R197). -/
def execVrcp (ty : VTy) (l : BitVec 2) (vx : BitVec 6) (s : State) : Out :=
  s.longUnary ty l vx 10 fun x => numDiv (.fin false 1 0) x
/-- vrsqrt (R197). -/
def execVrsqrt (ty : VTy) (l : BitVec 2) (vx : BitVec 6) (s : State) : Out := s.longUnary ty l vx 10 numRsqrt
/-- vexp2 (R197). -/
def execVexp2 (ty : VTy) (l : BitVec 2) (vx : BitVec 6) (s : State) : Out := s.longUnary ty l vx 14 numExp2
/-- vlog2 (R197). -/
def execVlog2 (ty : VTy) (l : BitVec 2) (vx : BitVec 6) (s : State) : Out := s.longUnary ty l vx 14 numLog2

/-- A reduction (R196, R197): integers give 64 bits, floats the width of the type; the bytes above are 0. -/
def State.reduce (s : State) (ty : VTy) (l : BitVec 2) (vx : BitVec 6) (fi : List Int → Int) (ff : List Num → Num) : Out :=
  s.longOp l [vx] 8 fun vs =>
    let xs := tyElems ty (nthV vs 0)
    BitVec.ofNat 1024 (if ty.isFloat then ofTyNum ty (ff (xs.map (tyNum ty))) else wrapN 64 (fi (xs.map (tyInt ty))))

/-- Fold a list from its first element. -/
def fold1 {α : Type} (f : α → α → α) (d : α) : List α → α
  | [] => d
  | x :: r => r.foldl f x

/-- vredsum (R197). -/
def execVredsum (ty : VTy) (l : BitVec 2) (vx : BitVec 6) (s : State) : Out :=
  s.reduce ty l vx (fun xs => xs.foldl (· + ·) 0) numSum
/-- vredmax (R197). -/
def execVredmax (ty : VTy) (l : BitVec 2) (vx : BitVec 6) (s : State) : Out :=
  s.reduce ty l vx (fold1 max 0) (fold1 numMax .nan)
/-- vredmin (R197). -/
def execVredmin (ty : VTy) (l : BitVec 2) (vx : BitVec 6) (s : State) : Out :=
  s.reduce ty l vx (fold1 min 0) (fold1 numMin .nan)

/-- movl reads its latch (R198): an EMPTY one is LATCH_EMPTY, a PENDING one is waited for. -/
def State.withLatch (s : State) (l : BitVec 2) (k : Vec → Out) : Out :=
  match (s.st.rl l).st with
  | .empty => s.raise .latchEmpty
  | .pending => .next (s.waits .none)
  | .full => k (s.st.rl l).val

/-- movl to a vector (R198). -/
def execMovlVector (vd : BitVec 6) (l : BitVec 2) (s : State) : Out :=
  let d := s.vreg vd
  s.withLatch l fun v => s.vecIssue [d] [] [] [.v d] 1 fun cyc st => st.willLand (cyc + 1) (.v d) v allLanes

/-- movl to a scalar (R198). -/
def execMovlScalar (d : BitVec 5) (l : BitVec 2) (s : State) : Out := s.withLatch l fun v => s.put d (v.setWidth 64)

end Sys2Proof.Machine
end

