-- ==== Sys2Proof/Machine/Stat.lean ====
section
/-!
DEFINITION. Machine/Stat.lean: the statistics table and the format table: STATR, STATW and FMTLD (R85 to R87, R236 to R238).
-/
namespace Sys2Proof.Machine

/-! ### Statistics entries (R86) -/

/-- The address of the entry of a tensor (R237). -/
def Ctx.statVa (c : Ctx) (tid : Nat) : Word := BitVec.ofNat 64 (c.stbase.toNat * 2 ^ 16 + 64 * tid)

/-- Word k of an entry. -/
def statWord (e : BitVec 512) (k : Nat) : BitVec 32 := recWord e k
/-- VALID. -/
def statValid (e : BitVec 512) : Bool := (statWord e 1).getLsbD 16
/-- IDX. -/
def statIdx (e : BitVec 512) : Bool := (statWord e 1).getLsbD 15
/-- LAYOUT. -/
def statLayout (e : BitVec 512) : Nat := recFld e 1 13 2
/-- RANK. -/
def statRank (e : BitVec 512) : Nat := recFld e 1 10 3
/-- FCODE. -/
def statFcode (e : BitVec 512) : Nat := recFld e 1 0 4
/-- DIM k. -/
def statDim (e : BitVec 512) (k : Nat) : Nat := recFld e (3 + k) 0 32

/-- A reserved field of an entry is not zero, a DIM beyond RANK is not 1, or FDESC stands beside a code that is not 0: the
entry counts as invalid (R86). -/
def statMalformed (e : BitVec 512) : Bool :=
  recFld e 1 17 15 != 0 || recFld e 1 4 6 != 0 || ((upTo 5).any fun k => statWord e (11 + k) != 0#32) ||
    ((upTo 4).any fun k => decide (statRank e ≤ k) && statDim e k != 1) || (statFcode e != 0 && statWord e 2 != 0#32)

/-- An entry that describes no tensor (R86, R237). -/
def statBad (e : BitVec 512) : Bool :=
  statMalformed e || statLayout e == 3 || decide (6 < statFcode e) || statRank e == 0 || decide (4 < statRank e) ||
    (statFcode e == 0 && !nfValid (statWord e 2))

/-- STATW refuses the entry (R237). -/
def statRefused (e : BitVec 512) : Bool := statValid e && statBad e

/-- The TID of a register, when the table holds it (R237). -/
def State.tidOf (s : State) (a : BitVec 5) : Option Nat :=
  let t := (s.rs a).toNat
  if t < s.cx.stcount.toNat && t < 4096 then some t else none

/-! ### STATR -/

/-- statr (R237): the whole entry, in one step, at its visibility point. -/
def execStatr (d a : BitVec 5) (s : State) : Out :=
  let v := s.vreg (d.setWidth 6)
  match s.tidOf a with
  | none => s.raise .statTid
  | some tid =>
    match s.vecHold [v] [] [] [.v v] 2 with
    | some o => o
    | none =>
      match s.xlAccess ⟨s.xid, s.cx.asid.toNat, s.st.priv, .load, .scalar⟩ (s.cx.statVa tid) 64 with
      | .bad f => s.raiseRec f
      | .ok ps =>
        match s.firstStop ps with
        | some (.bad f) => s.raiseRec f
        | some (.dropped _ fl) => .next (s.dropAccess s.cur fl)
        | some _ => .next (s.waits .none)
        | none =>
          let bs := s.readPieces ps
          let land := (s.dev s.cdev).cycle + 2
          .next ((s.onSt fun st => st.willLand land (.v v) (bytesBv 1024 bs) allLanes).adv 4)

/-! ### STATW -/

/-- The entry that STATW leaves: the words that MASK names, and GEN + 1 (R237). -/
def statMerge (old : BitVec 512) (v : Vec) (mask : BitVec 10) : BitVec 512 :=
  bytesBv 512 (bvBytes 4 (statWord old 0 + 1) ++ (upTo 15).flatMap fun j =>
    let k := j + 1
    bvBytes 4 (if k ≤ 10 && mask.getLsbD (k - 1) then recWord v k else statWord old k))

/-- A store of the stream to one of the granules of an access has not taken effect (R70). -/
def State.ownPieces (s : State) (id : SlotId) (ps : List Piece) : Bool :=
  ps.any fun p => s.ownGranule id ((s.strm id).seq + 1) p.loc

/-- One indivisible read and write of an entry (R87, R237): `f` answers the new entry, or none where nothing is written. -/
def State.statStep (s : State) (core : CoreId) (ps : List Piece) (f : BitVec 512 → Option (BitVec 512)) :
    Option State :=
  let old : BitVec 512 := bytesBv 512 (s.readPieces ps)
  (f old).map fun new =>
    let s1 := s.writePieces (bvBytes 64 new) ps
    ps.foldl (fun s p => s.glcDrop core (s.locate p.loc)) s1

/-- statw (R237): a release and an acquire at device scope about one step on the entry. -/
def execStatw (a d : BitVec 5) (mask : BitVec 10) (s : State) : Out :=
  let v := s.vreg (d.setWidth 6)
  match s.tidOf a with
  | none => s.raise .statTid
  | some tid =>
    match s.vecHold [v] [.v v] [] [] 0 with
    | some o => o
    | none =>
      let va := s.cx.statVa tid
      match s.xlAccess ⟨s.xid, s.cx.asid.toNat, s.st.priv, .store, .scalar⟩ va 64 with
      | .bad f => s.raiseRec f
      | .ok ps =>
        match s.frameRace va 64, s.joinHold (some .device) with
        | some f, _ => s.raiseRec f
        | none, some o => o
        | none, none =>
          match s.firstStop ps with
          | some (.bad f) => s.raiseRec f
          | some (.dropped _ fl) => .next (s.dropAccess s.cur fl)
          | some _ => .next (s.waitsAt .none)
          | none =>
            if s.ownPieces s.cur ps then .next (s.waitsAt .none)
            else
              let upd (old : BitVec 512) : Option (BitVec 512) :=
                let new := statMerge old (s.st.rv v) mask
                if statRefused new then none else some new
              match s.statStep s.cur.core ps upd with
              | none => s.raise .statEntry va
              | some s1 => .next ((s1.ungate.acquire s.cur.core .device).adv 4)

/-! ### FMTLD -/

/-- fmtld (R238): 16 descriptors in one cycle, or FMT_DESC when one of them is invalid. -/
def execFmtld (a : BitVec 5) (s : State) : Out :=
  let va := s.rs a
  match s.readRec .load va 64 with
  | .stop o => o
  | .ok s1 r =>
    let ws := (upTo 16).map fun k => recWord r k
    if ws.all nfValid then
      .next ((s1.onSt fun st => { st with fmt := Vector.ofFn fun k => recWord r k.val }).adv 4)
    else s.raise .fmtDesc va

end Sys2Proof.Machine
end

