-- ==== Sys2Proof/Machine/Query.lean ====
section
/-!
DEFINITION. Machine/Query.lean: query records (R80, R81) and their checks (R84), the shapes of a tree, and the logical results of
its operators (R82, R83, R92, R96).
-/
namespace Sys2Proof.Machine

/-! ### Query records (R80, R81) -/

/-- A query record. -/
abbrev QRec := BitVec 5632
/-- NNODES. -/
def qNodes (q : QRec) : Nat := recFld q 0 8 5
/-- ROOT. -/
def qRoot (q : QRec) : Nat := recFld q 0 4 4
/-- NLEAVES. -/
def qLeaves (q : QRec) : Nat := recFld q 0 0 4
/-- UPDSTAT. -/
def qUpd (q : QRec) : Bool := (recWord q 1).getLsbD 3
/-- DEST. -/
def qDest (q : QRec) : Nat := recFld q 1 0 3
/-- TID of leaf k. -/
def qTid (q : QRec) (k : Nat) : Nat := recFld q (144 + 4 * k) 0 12

/-- A node record. -/
structure QNode where
  op : Nat
  in0 : Nat
  in1 : Nat
  rm : RMode
  ofmt : Nat
  reassoc : Bool
  auto : Bool
  low : Nat
  odesc : BitVec 32
  pa : Nat
  pb : BitVec 32
  w4 : BitVec 32
  idesc : BitVec 32
  rest : Bool
  deriving DecidableEq, Repr

/-- A rounding mode by its code (R54). -/
def rmOf : Nat → RMode
  | 0 => .rne
  | 1 => .rtz
  | 2 => .rup
  | _ => .rdn

/-- Node n of a query. -/
def qNode (q : QRec) (n : Nat) : QNode :=
  let b := 16 + 8 * n
  { op := recFld q b 28 4, in0 := recFld q b 23 5, in1 := recFld q b 18 5, rm := rmOf (recFld q b 16 2),
    ofmt := recFld q b 12 4, reassoc := (recWord q b).getLsbD 11, auto := (recWord q b).getLsbD 10, low := recFld q b 0 10,
    odesc := recWord q (b + 1), pa := recFld q (b + 2) 0 32, pb := recWord q (b + 3), w4 := recWord q (b + 4),
    idesc := recWord q (b + 5), rest := recWord q (b + 6) == 0#32 && recWord q (b + 7) == 0#32 }

/-- The low parameter of PA: an axis. -/
def QNode.ax (d : QNode) : Nat := nbits d.pa 0 4
/-- The second parameter of PA: PRED, B axis or ROP. -/
def QNode.p2 (d : QNode) : Nat := nbits d.pa 4 4
/-- FN of a map. -/
def QNode.fn (d : QNode) : Nat := nbits d.pa 0 8
/-- ADD of a scatter. -/
def QNode.add (d : QNode) : Bool := nbit d.pa 4
/-- IFMT. -/
def QNode.ifmt (d : QNode) : Nat := recFld d.w4 0 28 4
/-- TOL. -/
def QNode.tol (d : QNode) : Nat := recFld d.w4 0 0 16
/-- The node selects values and never rounds (R83): scan, filter, gather. -/
def QNode.selects (d : QNode) : Bool := d.op == 0 || d.op == 1 || d.op == 5
/-- A pipeline break follows the node (R91). -/
def QNode.breaks (d : QNode) : Bool := d.op == 1 || d.op == 5
/-- The output format; none for XW. -/
def QNode.fmt (d : QNode) : Option Fmt := if d.ofmt = 0 then some (.nf d.odesc) else codeFmt d.ofmt
/-- The node has an IN1. -/
def QNode.two (d : QNode) : Bool := d.in1 != 31

/-- The nodes that take node n as an input. -/
def qConsumers (q : QRec) (n : Nat) : List Nat :=
  (upTo (min 16 (qNodes q))).filter fun m => (qNode q m).in0 == n || (qNode q m).in1 == n

/-! ### Checks (R84) -/

/-- IN1 of an operator is as R82 gives: 31, needed, or either. A map with FN 0 to 4 needs its y, and one with IN1 = 31 is refused like a
node with a bad code, a case that R84 does not list. DESIGN CHOICE, log 68. -/
def QNode.in1Ok (d : QNode) : Bool :=
  match d.op with
  | 0 | 3 | 7 => !d.two
  | 1 => true
  | 4 => if d.fn < 5 then d.two else !d.two
  | _ => d.two

/-- The parameter bits that an operator names. -/
def paMask : Nat → Nat
  | 1 | 2 | 3 | 4 => 0xFF
  | 5 => 0xF
  | 6 => 0x1F
  | _ => 0

/-- The codes and reserved bits of a node, its inputs apart. -/
def QNode.codesOk (d : QNode) : Bool :=
  decide (d.op ≤ 7) && d.low == 0 && d.rest && d.in0 != 31 && d.in1Ok && decide (d.pa &&& paMask d.op = d.pa) &&
    (d.op == 1 || d.pb == 0#32) && !(d.op == 0 && decide (d.in0 < 16)) && !(d.op == 1 && decide (6 < d.p2)) &&
    !(d.op == 3 && decide (2 < d.p2)) && !(d.op == 4 && decide (7 < d.fn))

/-- An input of node n is none, or a lower-numbered node, or a used leaf. -/
def qInputOk (q : QRec) (n x : Nat) : Bool :=
  x == 31 || (decide (x < 16) && decide (x < n)) || (decide (16 ≤ x) && decide (x < 24) && decide (x - 16 < qLeaves q))

/-- Words 4 and 5 of a node (R81, R84). -/
def QNode.reassocOk (d : QNode) : Bool :=
  if d.reassoc then
    recFld d.w4 0 16 12 == 0 && decide (d.ifmt ≤ 6) && (if d.ifmt == 0 then nfValid d.idesc else d.idesc == 0#32)
  else d.w4 == 0#32 && d.idesc == 0#32

/-- The output format of node n (R83, R84). -/
def qOutOk (q : QRec) (n : Nat) (d : QNode) : Bool :=
  if d.selects then d.ofmt == 0 && d.odesc == 0#32 && d.rm == .rne
  else if d.ofmt == 11 then
    n != qRoot q && d.odesc == 0#32 && (match qConsumers q n with
      | [m] =>
        let c := qNode q m
        (c.op == 3 && c.p2 == 0) || c.op == 7 || (c.op == 6 && c.add && c.in0 == n)
      | _ => false)
  else decide (d.ofmt ≤ 6) && (if d.ofmt == 0 then nfValid d.odesc else d.odesc == 0#32)

/-- A used node passes the checks that need no statistics. Where ROOT is at or beyond NNODES no node is the root, R84 does not say which
nodes are then other than the root, and the number of their consumers is not looked at. DESIGN CHOICE, log 68. -/
def qNodeOk (q : QRec) (n : Nat) : Bool :=
  let d := qNode q n
  d.codesOk && qInputOk q n d.in0 && qInputOk q n d.in1 && d.reassocOk && qOutOk q n d && !(d.op == 6 && n != qRoot q) &&
    (decide (qNodes q ≤ qRoot q) || n == qRoot q || (qConsumers q n).length == 1)

/-- The words from k of a record, n of them, are zero. -/
def zeroWords {w : Nat} (r : BitVec w) (k n : Nat) : Bool := (upTo n).all fun j => recWord r (k + j) == 0#32

/-- The header passes its checks (R80, R84). -/
def qHeaderOk (q : QRec) : Bool :=
  recFld q 0 13 19 == 0 && recFld q 1 4 28 == 0 && zeroWords q 2 14 && decide (qRoot q < qNodes q) &&
    decide (qDest q < qLeaves q)

/-- The words of leaf record k pass their checks. -/
def qLeafOk (q : QRec) (k : Nat) : Bool :=
  let b := 144 + 4 * k
  if k < qLeaves q then recFld q b 12 20 == 0 && zeroWords q (b + 1) 3 else zeroWords q b 4

/-! ### Shapes -/

/-- What is known of a tensor: its extents, of which some may be known, where its rank is known; and its format, none for XW, where it is
known. -/
structure NInfo where
  dims : Option (List (Option Nat)) := none
  fmt : Option (Option Fmt) := none
  deriving DecidableEq, Repr

/-- Two extents agree where both are known. -/
def extAgree (a b : Option Nat) : Bool :=
  match a, b with
  | some x, some y => x == y
  | _, _ => true
/-- Two shapes agree where they are known. -/
def dimsAgree (a b : List (Option Nat)) : Bool := a.length == b.length && (a.zip b).all fun p => extAgree p.1 p.2
/-- The product of extents, when all are known. -/
def prodKnown : List (Option Nat) → Option Nat
  | [] => some 1
  | some x :: r => (prodKnown r).map (x * ·)
  | none :: _ => none
/-- A result with no axes counts as one slice of one element (R82). -/
def orOne {α : Type} (one : α) (l : List α) : List α := if l.isEmpty then [one] else l

/-- The extent along an axis, where it is known. -/
def NInfo.ext (i : NInfo) (ax : Nat) : Option Nat := i.dims.bind fun l => l.getD ax none
/-- The axis is one of the tensor's, as far as its rank is known. -/
def NInfo.hasAxis (i : NInfo) (ax : Nat) : Bool := i.dims.all fun l => decide (ax < l.length)
/-- The number of elements, where it is known. -/
def NInfo.count (i : NInfo) : Option Nat := i.dims.bind prodKnown
/-- The tensor is a vector of INT32 indices, as far as it is known. An index tensor of a rank above 1 counts as the list of its elements in
storage order: R82 does not say what it gives. DESIGN CHOICE, log 13. -/
def NInfo.isIdx (i : NInfo) : Bool := i.fmt.all fun f => f == some .int32
/-- The shapes of two tensors agree as far as they are known, an axis of each apart. -/
def NInfo.agrees (a b : NInfo) (ax : Option Nat) : Bool :=
  let cut (l : List (Option Nat)) : List (Option Nat) := match ax with
    | none => l
    | some k => l.set k none
  match a.dims, b.dims with
  | some x, some y => dimsAgree (cut x) (cut y)
  | _, _ => true

/-- The shapes and formats of a node's inputs, and for a scatter those of DEST, agree where they are known (R82, R84). -/
def QNode.agrees (d : QNode) (dest a b : NInfo) : Bool :=
  match d.op with
  | 0 | 7 => true
  | 1 => a.hasAxis d.ax && (!d.two || (b.dims.all (fun l => l.length == 1) && extAgree (b.ext 0) (a.ext d.ax)))
  | 2 => a.hasAxis d.ax && b.hasAxis d.p2 && extAgree (a.ext d.ax) (b.ext d.p2)
  | 3 => a.hasAxis d.ax
  | 4 => !d.two || a.agrees b none
  | 5 => a.hasAxis d.ax && b.isIdx
  | _ => a.hasAxis d.ax && b.isIdx && extAgree (a.ext d.ax) b.count && a.agrees dest (some d.ax)
/-- The result of a node as far as it is known (R82, R83). -/
def QNode.result (d : QNode) (dest a b : NInfo) : NInfo :=
  let out (l : Option (List (Option Nat))) : NInfo := ⟨l.map (orOne (some 1)), some d.fmt⟩
  match d.op with
  | 0 => a
  | 1 => { a with dims := a.dims.map fun l => l.set d.ax none }
  | 2 => out (a.dims.bind fun l => b.dims.map fun m => l.eraseIdx d.ax ++ m.eraseIdx d.p2)
  | 3 => out (a.dims.map fun l => l.eraseIdx d.ax)
  | 4 | 7 => out a.dims
  | 5 => { a with dims := a.dims.map fun l => l.set d.ax b.count }
  | _ => ⟨dest.dims, some d.fmt⟩

/-- The shape and format of a leaf. -/
def leafInfo (e : BitVec 512) : NInfo :=
  ⟨some ((upTo (statRank e)).map fun k => some (statDim e k)),
   some (if statFcode e = 0 then some (.nf (statWord e 2)) else codeFmt (statFcode e))⟩
/-- The format of a leaf. -/
def leafFmt (e : BitVec 512) : Fmt := ((leafInfo e).fmt.getD none).getD .int32

/-- What is known of an input: nothing of one that names neither a node before nor a leaf. -/
def inShape (leaf : Nat → NInfo) (acc : List (NInfo × Bool)) (x : Nat) : NInfo :=
  if x < 16 then (acc.getD x ({}, true)).1 else if x < 24 then leaf (x - 16) else {}

/-- The node records that a header uses: its NNODES, at most the sixteen that there are. -/
def qUsed (q : QRec) : Nat := min 16 (qNodes q)
/-- What is known of the nodes in order, and whether the shapes and formats at each agree; `known` holds those of the nodes that have run.
Only a scatter needs DEST; of a node whose record fails its checks nothing is known, and of one whose inputs disagree its shape is not. -/
def qShapes (q : QRec) (ok : Nat → Bool) (leaf : Nat → NInfo) (known : List NInfo) : List (NInfo × Bool) :=
  (upTo (qUsed q)).foldl (fun acc n =>
    let d := qNode q n
    let dest : NInfo := if d.op == 6 then leaf (qDest q) else {}
    let a := inShape leaf acc d.in0
    let b := inShape leaf acc d.in1
    let r : NInfo × Bool :=
      match known[n]? with
      | some i => (i, true)
      | none =>
        if !ok n then ({}, true)
        else if d.agrees dest a b then (d.result dest a b, true)
        else (if d.selects then {} else ⟨none, some d.fmt⟩, false)
    acc ++ [r]) []

/-- The root's result has DEST's format, where it is known. A root that does not is refused at QPLAN like a node whose formats disagree, a
case that R84 does not list. DESIGN CHOICE, log 68. -/
def rootAgrees (dest r : NInfo) : Bool :=
  match r.fmt, dest.fmt with
  | some x, some y => x == y
  | _, _ => true
/-- The root's result has no more slices along axis 0 than DEST (R248). -/
def rootFits (d : QNode) (dest r : NInfo) : Bool :=
  d.op == 6 || (match r.ext 0, dest.ext 0 with
    | some x, some y => decide (x ≤ y)
    | _, _ => true)

/-- The least of some numbers. -/
def least (l : List Nat) : Option Nat := l.foldl (fun m x => match m with
  | none => some x
  | some y => some (min x y)) none

/-- What fails of a query record at QPLAN, the lowest value of R84 first; `entry` answers the statistics entry of a leaf, none
when its TID is at or beyond COUNT. -/
def qFails (q : QRec) (entry : Nat → Option (BitVec 512)) : Option Nat :=
    let counts := decide (1 ≤ qNodes q) && decide (qNodes q ≤ 16) && decide (1 ≤ qLeaves q) && decide (qLeaves q ≤ 8)
    let leafOk (k : Nat) : Bool := qLeafOk q k && (decide (qLeaves q ≤ k) || (match entry k with
      | none => false
      | some e => statValid e && !statBad e))
    let nodeOk (n : Nat) : Bool := if n < qNodes q then qNodeOk q n else zeroWords q (16 + 8 * n) 8
    let leaf (k : Nat) : NInfo := match entry k with
      | some e => if leafOk k then leafInfo e else {}
      | none => {}
    let shapes := qShapes q nodeOk leaf []
    let badShape := (upTo (qUsed q)).filter fun n => !(shapes.getD n ({}, true)).2
    let badRoot := if rootAgrees (leaf (qDest q)) (shapes.getD (qRoot q) ({}, true)).1 then [] else [qRoot q]
    least ((upTo 16).filter (fun n => !nodeOk n) ++ badShape ++ badRoot ++
      ((upTo 8).filter fun k => !leafOk k).map (16 + ·) ++ (if counts && qHeaderOk q then [] else [31]))

/-! ### Elements -/

/-- The product of extents. -/
def prodN (l : List Nat) : Nat := l.foldl (· * ·) 1
/-- The elements of slice k along an axis, in storage order. -/
def sliceIdx (dims : List Nat) (ax k : Nat) : List Nat :=
  let o := prodN (dims.take ax)
  let n := dims.getD ax 1
  let i := prodN (dims.drop (ax + 1))
  (upTo o).flatMap fun x => (upTo i).map fun y => x * n * i + k * i + y
/-- The fibers along an axis: for each place of the other axes, in order, the elements along the axis. -/
def fibers (dims : List Nat) (ax : Nat) : List (List Nat) :=
  let o := prodN (dims.take ax)
  let n := dims.getD ax 1
  let i := prodN (dims.drop (ax + 1))
  (upTo o).flatMap fun x => (upTo i).map fun y => (upTo n).map fun k => x * n * i + k * i + y
/-- The elements at some places. -/
def pick {α : Type} (l : List α) (is : List Nat) : List α :=
  let a := l.toArray
  is.filterMap fun i => a[i]?
/-- Cut into pieces of k. `fuel` bounds their number. -/
def cutBy {α : Type} (k : Nat) : Nat → List α → List (List α)
  | 0, _ => []
  | n + 1, l => if l.isEmpty then [] else l.take k :: cutBy k n (l.drop k)
/-- The pieces of k elements. -/
def pieces {α : Type} (k : Nat) (l : List α) : List (List α) := cutBy k (l.length + 1) l

/-- The elements at some places of a tensor. -/
def Tensor.pick (t : Tensor) (dims is : List Nat) : Tensor :=
  { t with dims := dims, pats := Machine.pick t.pats is, xw := Machine.pick t.xw is, scales := Machine.pick t.scales is }

/-- The values of a tensor's elements; none for an element of an all-zero block (R47). -/
def Tensor.vals (t : Tensor) : List (Option Num) :=
  match t.fmt with
  | none => t.xw.map fun e => some (xwRead e)
  | some f =>
    if t.scales.isEmpty then t.pats.map fun p => some (decodeNum f.par p)
    else (t.pats.zip t.scales).map fun e =>
      if e.2 == 0x80#8 then none else some (scaleNum (decodeNum f.par e.1) e.2.toInt)

/-- +0. -/
def numZero : Num := .fin false 0 0
/-- The value of an element: +0 in an all-zero block (R47). -/
def orZero (x : Option Num) : Num := x.getD numZero
/-- The exact values of a tensor. -/
def Tensor.nums (t : Tensor) : List Num := t.vals.map orZero
/-- The elements as they enter XW (R83). -/
def Tensor.parts (t : Tensor) : List XwElem :=
  match t.fmt with
  | none => t.xw
  | some _ => t.nums.map enterXw

/-! ### Rounding points (R83) -/

/-- Set elements of an array at places. -/
def setMany {α : Type} (a : Array α) (l : List (Nat × α)) : Array α := l.foldl (fun a p => a.setIfInBounds p.1 p.2) a

/-- Encode values into a format (R55, R56): at scale 0, or with AUTO at the scales of R58 for blocks of 32 elements along an
axis. Elements that a scatter does not touch count as zero in it (DESIGN CHOICE, log 13). -/
def encodeVals (f : Fmt) (rm : RMode) (auto : Bool) (dims : List Nat) (ax : Nat) (vs : List Num) : Tensor :=
  if !auto then
    let os := vs.map (encodeNum f.par rm 0)
    { dims := dims, fmt := some f, pats := os.map fun o => o.1, under := (os.filter fun o => o.2.1).length }
  else
    let va := vs.toArray
    let blocks := (fibers dims ax).flatMap (pieces 32)
    let outs := blocks.map fun is =>
      let xs := is.map fun i => (va[i]?).getD numZero
      let sc := chooseScale xs f.par 0 0
      (is, sc, convBlock f.par rm sc xs)
    let cells := outs.flatMap fun o => (o.1.zip o.2.2.pats).map fun p => (p.1, (p.2, o.2.1))
    let arr := setMany (Array.replicate vs.length ((0, 0x80#8) : Nat × Byte)) cells
    { dims := dims, fmt := some f, pats := arr.toList.map Prod.fst, scales := arr.toList.map Prod.snd,
      under := outs.foldl (fun n o => n + o.2.2.uf) 0 }

/-- The result of a node from exact values. -/
def QNode.outNums (d : QNode) (dims : List Nat) (ax : Nat) (vs : List Num) : Tensor :=
  match d.fmt with
  | none => { dims := dims, xw := vs.map enterXw }
  | some f => encodeVals f d.rm d.auto dims ax vs
/-- The union of status bytes. -/
def xwFlags (xs : List XwElem) : BitVec 4 := (xs.foldl (fun (f : Byte) x => f ||| x.2) 0).setWidth 4
/-- The result of a node from XW sums, with the union of their status bytes. -/
def QNode.outXw (d : QNode) (dims : List Nat) (ax : Nat) (xs : List XwElem) : Tensor :=
  match d.fmt with
  | none => { dims := dims, xw := xs, flags := xwFlags xs }
  | some f => { encodeVals f d.rm d.auto dims ax (xs.map xwRead) with flags := xwFlags xs }

/-! ### Operators (R82) -/

/-- A key satisfies PRED with threshold T. -/
def predHolds (p : Nat) (k t : Num) : Bool :=
  if k.isNan then false
  else match p with
    | 0 => !k.isZero
    | 1 => numLt t k
    | 2 => numLt t k || numEq k t
    | 3 => numLt k t
    | 4 => numLt k t || numEq k t
    | 5 => numEq k t
    | _ => !numEq k t

/-- The filter: the slices whose key satisfies PRED. -/
def QNode.filterOut (d : QNode) (a : Tensor) (keys : Option Tensor) : Tensor :=
  let n := a.dims.getD d.ax 1
  let av := a.nums.toArray
  let ks : List Num := match keys with
    | some k => k.nums
    | none => (upTo n).map fun k =>
      (sliceIdx a.dims d.ax k).foldl (fun m i => numMax m (numAbs ((av[i]?).getD numZero))) numZero
  let t := decodeNum (Fmt.par .fp32) d.pb.toNat
  let keep := (ks.zipIdx.filter fun k => predHolds d.p2 k.1 t).map Prod.snd
  let o := prodN (a.dims.take d.ax)
  let i := prodN (a.dims.drop (d.ax + 1))
  let is := (upTo o).flatMap fun x => keep.flatMap fun k => (upTo i).map fun y => x * n * i + k * i + y
  a.pick (a.dims.set d.ax keep.length) is

/-- The contributions of a contraction (R50, R83): blocks of 32 pairs along the axis; elements of an all-zero block, and those
beyond the end, contribute nothing. -/
def contractXw (a : Tensor) (ax : Nat) (b : Tensor) (bx : Nat) : List XwElem :=
  let av := a.vals.toArray
  let bv := b.vals.toArray
  let pair (p : Nat × Nat) : Option (Num × Num) := match (av[p.1]?).join, (bv[p.2]?).join with
    | some x, some y => some (x, y)
    | _, _ => none
  (fibers a.dims ax).flatMap fun fa => (fibers b.dims bx).map fun fb =>
    (pieces 32 (fa.zip fb)).foldl (fun acc blk =>
      let ps := blk.filterMap pair
      xwAcc acc (contribution (ps.map Prod.fst) (ps.map Prod.snd) 0 0)) ((0, 0) : XwElem)
/-- The extents of a contraction. -/
def contractDims (a : List Nat) (ax : Nat) (b : List Nat) (bx : Nat) : List Nat := orOne 1 (a.eraseIdx ax ++ b.eraseIdx bx)

/-- The reduction along an axis of sums. -/
def sumXw (a : Tensor) (ax : Nat) : List XwElem :=
  let ps := a.parts.toArray
  (fibers a.dims ax).map fun f => f.foldl (fun acc i => xwAcc acc ((ps[i]?).getD (0, 0))) ((0, 0) : XwElem)
/-- The reduction along an axis to the largest or smallest value; an empty axis gives −∞ or +∞. -/
def extreme (a : Tensor) (ax : Nat) (hi : Bool) : List Num :=
  let vs := a.nums.toArray
  (fibers a.dims ax).map fun f => f.foldl (fun m i =>
    let x := (vs[i]?).getD numZero
    if hi then numMax m x else numMin m x) (.inf hi)

/-- FN of a map. -/
def mapFn (fn : Nat) (x y : Num) : Num :=
  match fn with
  | 0 => numAdd x y
  | 1 => numAdd x (numNeg y)
  | 2 => numMul x y
  | 3 => numMax x y
  | 4 => numMin x y
  | 5 => numMax x numZero
  | 6 => numNeg x
  | _ => numAbs x

/-- The indices of an INT32 tensor. -/
def Tensor.indices (t : Tensor) : List Int := t.pats.map (toSigned 32)

/-- The gather: slice idx[i] for each i, the indices in storage order (log 13); a slice outside the extent has free elements, the same in
every run (R96). -/
def QNode.gatherOut (d : QNode) (a idx : Tensor) : Tensor :=
  let n := a.dims.getD d.ax 1
  let o := prodN (a.dims.take d.ax)
  let i := prodN (a.dims.drop (d.ax + 1))
  let is := idx.indices
  let cells : List (Int × Option Nat) := (upTo o).flatMap fun x => is.flatMap fun (k : Int) => (upTo i).map fun y =>
    (k, if 0 ≤ k && k < (n : Int) then some (x * n * i + k.toNat * i + y) else none)
  let pa := a.pats.toArray
  let sa := a.scales.toArray
  let w := match a.fmt with
    | some f => f.par.w
    | none => 0
  { a with
    dims := a.dims.set d.ax is.length
    pats := cells.zipIdx.map fun c => match c.1.2 with
      | some j => (pa[j]?).getD 0
      | none => Config.gatherBeyond c.1.1 c.2 % 2 ^ w
    scales := if a.scales.isEmpty then [] else cells.map fun c => match c.2 with
      | some j => (sa[j]?).getD 0
      | none => 0 }

/-! ### Reassociation at D0 (R96) -/

/-- The order of n1 × n2 × n3 elements with the first two groups exchanged. -/
def swapFirst (n1 n2 n3 : Nat) : List Nat :=
  (upTo n2).flatMap fun j => (upTo n1).flatMap fun i => (upTo n3).map fun k => (i * n2 + j) * n3 + k
/-- The order of n1 × n2 × n3 elements with the last two groups exchanged. -/
def swapLast (n1 n2 n3 : Nat) : List Nat :=
  (upTo n1).flatMap fun i => (upTo n3).flatMap fun k => (upTo n2).map fun j => (i * n2 + j) * n3 + k

/-- The intermediate of a reassociated pair, rounded into IFMT: R96 gives neither its rounding mode nor a scale, and it takes the consuming
node's RMODE, at scale 0. DESIGN CHOICE, log 13. -/
def QNode.inter (d : QNode) (a : Tensor) (ax : Nat) (b : Tensor) (bx : Nat) : Tensor :=
  let dims := a.dims.eraseIdx ax ++ b.dims.eraseIdx bx
  let f : Fmt := if d.ifmt = 0 then .nf d.idesc else (codeFmt d.ifmt).getD .fp32
  encodeVals f d.rm false dims 0 ((contractXw a ax b bx).map xwRead)

/-- A contraction whose A input is the contraction of p and r, formed with the pair (p, r) taken apart. -/
def QNode.reassocA (d m : QNode) (p r c : Tensor) : List XwElem :=
  let np := p.dims.length - 1
  if np ≤ d.ax then
    let x := d.ax - np
    let x' := if x < m.p2 then x else x + 1
    let t := d.inter r x' c d.p2
    contractXw p m.ax t (if m.p2 < x' then m.p2 else m.p2 - 1)
  else
    let x' := if d.ax < m.ax then d.ax else d.ax + 1
    let t := d.inter p x' c d.p2
    let o := contractXw t (if m.ax < x' then m.ax else m.ax - 1) r m.p2
    let n2 := prodN (c.dims.eraseIdx d.p2)
    let n3 := prodN (r.dims.eraseIdx m.p2)
    pick o (swapLast (o.length / (n2 * n3)) n2 n3)

/-- A contraction whose B input is the contraction of p and r, formed with the pair (p, r) taken apart. -/
def QNode.reassocB (d m : QNode) (a p r : Tensor) : List XwElem :=
  let np := p.dims.length - 1
  if np ≤ d.p2 then
    let x := d.p2 - np
    let x' := if x < m.p2 then x else x + 1
    let t := d.inter a d.ax r x'
    let tx := (a.dims.length - 1) + (if m.p2 < x' then m.p2 else m.p2 - 1)
    let o := contractXw p m.ax t tx
    let n1 := prodN (p.dims.eraseIdx m.ax)
    let n2 := prodN (a.dims.eraseIdx d.ax)
    pick o (swapFirst n1 n2 (o.length / (n1 * n2)))
  else
    let x' := if d.p2 < m.ax then d.p2 else d.p2 + 1
    let t := d.inter a d.ax p x'
    contractXw t ((a.dims.length - 1) + (if m.ax < x' then m.ax else m.ax - 1)) r m.p2

/-! ### Statistics of data (R86) -/

/-- A fraction in units of 2^−16. -/
def frac16 (a b : Nat) : Nat := if b = 0 then 0 else min 0xFFFF (a * 65536 / b)
/-- DENS and ZBF of elements in storage order: a pattern and whether the value is zero, in containers of cw bits. -/
def densZbf (cw : Nat) (es : List (Nat × Bool)) : Nat × Nat :=
  let blocks := pieces (1024 / cw) es
  let full := blocks.filter fun b => b.any fun e => e.1 != 0
  let nz := full.foldl (fun n b => n + (b.filter fun e => !e.2).length) 0
  (frac16 nz (full.foldl (fun n b => n + b.length) 0), frac16 (blocks.length - full.length) blocks.length)
/-- The elements of a tensor as their statistics see them. -/
def Tensor.seen (t : Tensor) : List (Nat × Bool) := t.pats.zip (t.nums.map Num.isZero)

end Sys2Proof.Machine
end

