-- ==== Sys2Proof/Machine/Planner.lean ====
section
/-!
DEFINITION. Machine/Planner.lean: the plan cache (R88, R249), QPLAN, QRUN, QHINT, QPIN, QUNPIN, QDROP and QSTAT (R89 to R93, R232
to R235), and the steps of a run (R79, R91, R246, R248, R269, R284).
-/
namespace Sys2Proof.Machine

/-! ### Reads and writes of the planner -/

/-- Who translates for the planner of a context (R85, R232). -/
def plXl (x : CtxId) (asid : Nat) (e : PermEng) : Xl := ⟨x, asid, .u, e, .none⟩
/-- The statistics entry of a tensor, read in one step at its visibility point (R90, R233). -/
def State.statRead (s : State) (x : CtxId) (tid : Nat) : EngRes (BitVec 512) :=
  (s.engRead (plXl x (s.ctx x).asid.toNat .planRead) ((s.ctx x).statVa tid) 64).bind fun bs => .ok (bytesBv 512 bs)
/-- The entry of leaf k of a query; zero, which is no valid entry, for a TID at or beyond COUNT. -/
def State.leafEntry (s : State) (x : CtxId) (q : QRec) (k : Nat) : EngRes (BitVec 512) :=
  if qTid q k < (s.ctx x).stcount.toNat then s.statRead x (qTid q k) else .ok 0

/-- A record of n bytes that an instruction of the planner reads as the execute cursor's load (R232, R247). -/
def State.planRec (s : State) (va : Word) (n al : Nat) : RecRead :=
  if va.toNat % al ≠ 0 then .bad { name := .recAlign, faddr := va } else s.recRead .planRead va n

/-- What the planner's step answers becomes of an instruction of the current stream. -/
def State.planStep {α : Type} (s : State) (r : EngRes α) (f : α → Out) : Out :=
  match r with
  | .ok a => f a
  | .wait => .next (s.waits .other)
  | .bad e => s.raiseRec e
  | .drop fl => .next (s.dropAccess s.cur fl)

/-- The record of the instruction at the execute cursor, which it reads once, at its issue: the stream holds it, and the level of that
moment beside it (R234, R247). -/
def State.withRecord (s : State) (va : Word) (n al : Nat) (f : State → List Byte → Out) : Out :=
  match s.st.held with
  | some bs => f s bs
  | none =>
    match s.planRec va n al with
    | .ok s1 bs => f (s1.onSt fun st => { st with held := some bs, heldDet := s.cx.det }) bs
    | r => s.recStop r

/-- The statistics entries that stand behind the first n bytes of what an instruction holds. -/
def heldEntries (bs : List Byte) (n : Nat) : List (BitVec 512) := (upTo ((bs.length - n) / 64)).map fun k =>
  bytesBv 512 ((bs.drop (n + 64 * k)).take 64)
/-- The entries of a query's leaves, each read in a step of its own at its visibility point (R90, R233): they join what the instruction
holds, behind its first n bytes, and once all of them stand there `f` takes them. -/
def State.withEntries (s : State) (q : QRec) (bs : List Byte) (n : Nat) (f : List (BitVec 512) → Out) : Out :=
  let es := heldEntries bs n
  if es.length < min 8 (qLeaves q) then
    s.planStep (s.leafEntry s.xid q es.length) fun e =>
      .next ((s.onSt fun st => { st with held := some (bs ++ bvBytes 64 e) }).waits .other)
  else f es

/-! ### Plans -/

/-- The estimates that a plan records for the break after node n (R246); those of other breaks are Keystone's own. -/
def breakEst (q : QRec) (entries : List (BitVec 512)) (free n : Nat) : Nat × Nat × Nat :=
  let d := qNode q n
  if d.op == 1 && decide (16 ≤ d.in0) then
    let e := entries.getD (d.in0 - 16) 0
    (ceilDiv (statDim e d.ax * (65536 - recFld e 7 0 16)) 65536, recFld e 7 16 16, 0)
  else if d.breaks then
    let e := Config.planEstimate (16 * free + n)
    (e.1 % 2 ^ 32, e.2.1 % 65536, e.2.2 % 65536)
  else (0, 0, 0)

/-- The hint word of node n is declined (R92). -/
def hintDeclined (q : QRec) (entries : List (BitVec 512)) (h : BitVec 512) (n : Nat) : Bool :=
  let w := recWord h n
  let d := qNode q n
  let oph := recFld h n 0 3
  let leaf (k : Nat) : NInfo := leafInfo (entries.getD k 0)
  let narrow := match (inShape leaf (qShapes q (fun _ => true) leaf []) d.in1).fmt with
    | some (some f) => decide (f.cw ≤ 8)
    | _ => false
  let afterBreak := decide (d.in0 < 16) && (qNode q d.in0).breaks
  w != 0#32 && (decide (qNodes q ≤ n) || (w.getLsbD 3 && d.op != 2) || (oph != 0 && d.op != 2) || (oph == 2 && !narrow) ||
    (oph == 3 && !afterBreak))

/-- Plan a query from the statistics of its leaves under hints (R84, R88, R92); `free` is the free-choice number of the planning, and
`placed` its placement (R89). -/
def makePlan (q : QRec) (va : Word) (level : BitVec 2) (hints : BitVec 512) (free : Nat) (placed : List Nat) (entries : List (BitVec 512)) :
    Res Plan :=
  match qFails q (fun k => entries[k]?) with
  | some d => .bad { name := .query, faddr := va, detail := BitVec.ofNat 64 d }
  | none =>
    .ok { free := free, placed := placed, query := q, vaQuery := va, entries := entries, level := level, stamp := 0, hints := hints,
          ests := (upTo (qNodes q)).map (breakEst q entries free),
          declined := (upTo 16).foldl (fun m n => if hintDeclined q entries hints n then m ||| BitVec.twoPow 16 n else m) 0 }

/-! ### The plan cache (R88) -/

/-- A slot of the cache. -/
def Ctx.planSlot (c : Ctx) (i : Nat) : PlanSlot := fget c.plans i {}
/-- Change a slot of the cache. -/
def Ctx.onPlan (c : Ctx) (i : Nat) (f : PlanSlot → PlanSlot) : Ctx := { c with plans := fset c.plans i (f (c.planSlot i)) }
/-- The plan of a handle while it is current. -/
def Ctx.planOf (c : Ctx) (h : Word) : Option (Nat × Plan) :=
  let i := nbits h.toNat 0 12
  if 2 ^ 32 ≤ h.toNat || 256 ≤ i then none
  else
    let sl := c.planSlot i
    match sl.plan with
    | none => none
    | some p => if p.current && sl.gen.toNat == nbits h.toNat 12 20 then some (i, p) else none
/-- Replace the plan in a slot; the slot is freed when the plan is no longer current and no run holds it (R93). -/
def Ctx.putPlan (c : Ctx) (i : Nat) (p : Plan) : Ctx :=
  c.onPlan i fun sl => { sl with plan := if p.current || p.run.isSome then some p else none }

/-- The slot that a new plan takes (R88, R249): the lowest free one, else the least recently run that is neither pinned nor
running. -/
def Ctx.pickSlot (c : Ctx) : Option Nat :=
  match (upTo 256).find? fun i => (c.planSlot i).plan.isNone with
  | some i => some i
  | none =>
    ((upTo 256).foldl (fun (b : Option (Nat × Nat)) i => match (c.planSlot i).plan with
      | none => b
      | some p =>
        if p.pinned || p.run.isSome then b
        else match b with
          | none => some (p.stamp, i)
          | some (t, j) => if p.stamp < t then some (p.stamp, i) else some (t, j)) none).map Prod.snd
/-- The generation after one (R88). -/
def nextGen (g : BitVec 20) : BitVec 20 := if g == 0xFFFFF#20 then 1 else g + 1
/-- Store a new plan in a slot: the handle is its generation and its number. -/
def Ctx.storePlan (c : Ctx) (i : Nat) (p : Plan) : Ctx × Word :=
  let sl := c.planSlot i
  let g := if sl.used then nextGen sl.gen else sl.gen
  ({ c with plans := fset c.plans i { gen := g, plan := some p, used := true } }, BitVec.ofNat 64 (g.toNat * 4096 + i))
/-- The moment at which the current stream stores or runs a plan (R88): the cycle. -/
def State.moment (s : State) : Nat := (s.dev s.cur.core.dev).cycle
/-- The placement that a planning by the current stream draws (R89): of each core that holds WGs of its launch the one in the lower context,
those that Keystone takes, the issuing core's where it takes none. -/
def State.placement (s : State) (free : Nat) : List Nat :=
  match s.launchOf s.xid with
  | none => [0]
  | some l =>
    let own := l.running.filter fun w => w.2.ctx == 0 || !(l.running.any fun v => v.2 == { w.2 with ctx := 0 })
    let chosen := own.filter fun w => Config.planPlaced free w.1
    (if chosen.isEmpty then own.filter fun w => w.2.core == s.cur.core else chosen).map Prod.fst

/-- The current stream may take a slot of its context's plan cache now: of the streams that take one in a cycle the rotation of R25 gives
the order (R98). -/
def State.planTurn (s : State) : Bool :=
  let k := s.core s.cur.core
  k.turnOk (.plan s.xid.ctx) (rotPlace k.planRot.1 s.cur)
/-- The current stream has taken a slot of the plan cache in this cycle. -/
def State.planTaken (s : State) : State :=
  s.onCore s.cur.core fun k =>
    { k.turn (.plan s.xid.ctx) (rotPlace k.planRot.1 s.cur) with planRot := (k.planRot.1, slotNo s.cur) }

/-- qplan (R84, R88, R233): the record, then the entry of each leaf in a step of its own, and the plan takes its slot. -/
def execQplan (d a : BitVec 5) (s : State) : Out :=
  if d == 0#5 then s.raise .illegalOp
  else
    let va := s.rs a
    s.withRecord va 704 64 fun s1 bs =>
      let q : QRec := bytesBv 5632 (bs.take 704)
      s1.withEntries q bs 704 fun es =>
        match makePlan q va s1.st.heldDet 0 s1.clock (s1.placement s1.clock) es with
        | .bad f => s1.raiseRec f
        | .ok p =>
          if !s1.planTurn then .next (s1.waits .other)
          else match s1.cx.pickSlot with
            | none => s1.raise .cacheFull
            | some i =>
              let r := s1.cx.storePlan i { p with stamp := s1.moment }
              (s1.planTaken.onCx fun _ => r.1).put d r.2

/-- The plan of the handle in sD, or PLAN_HANDLE (R88, R232). -/
def State.withPlan (s : State) (d : BitVec 5) (f : Nat → Plan → Out) : Out :=
  match s.cx.planOf (s.rs d) with
  | none => s.raise .planHandle 0 (s.rs d)
  | some (i, p) => f i p

/-- The entries that the instruction has read are given up: the plan is to be taken up again once its run has ended. -/
def State.keepRecord (s : State) (n : Nat) : State := s.onSt fun st => { st with held := st.held.map (List.take n) }

/-- The first word of a hint record with a reserved bit or code (R92). -/
def hintBad (h : BitVec 512) : Option Nat :=
  (upTo 16).find? fun n => recFld h n 17 15 != 0 || recFld h n 4 4 != 0 || decide (3 < recFld h n 0 3)

/-- qhint (R92): the query is planned again under the hints, and the plan is replaced under its handle. -/
def execQhint (d a : BitVec 5) (s : State) : Out :=
  s.withPlan d fun i p =>
    let va := s.rs a
    s.withRecord va 64 64 fun s1 bs =>
      let h : BitVec 512 := bytesBv 512 (bs.take 64)
      match hintBad h with
      | some n => s1.raise .hint va (BitVec.ofNat 64 n)
      | none =>
        if p.pinned then s1.raise .planPinned
        else if p.run.isSome then .next (s1.keepRecord 64 |>.waits .other)
        else
          s1.withEntries p.query bs 64 fun es =>
            match makePlan p.query p.vaQuery s1.st.heldDet h s1.clock (s1.placement s1.clock) es with
            | .bad f => s1.raiseRec f
            | .ok n => .next ((s1.onCx fun c => c.putPlan i { n with stamp := s1.moment }).adv 4)

/-- qpin (R93). -/
def execQpin (d : BitVec 5) (s : State) : Out :=
  s.withPlan d fun i p => .next ((s.onCx fun c => c.putPlan i { p with pinned := true }).adv 4)
/-- qunpin (R93). -/
def execQunpin (d : BitVec 5) (s : State) : Out :=
  s.withPlan d fun i p => .next ((s.onCx fun c => c.putPlan i { p with pinned := false }).adv 4)
/-- qdrop (R93): the handle is not current at once; a running plan keeps its slot until its run ends. -/
def execQdrop (d : BitVec 5) (s : State) : Out :=
  s.withPlan d fun i p => .next ((s.onCx fun c => c.putPlan i { p with current := false }).adv 4)

/-! ### QSTAT (R235) -/

/-- Saturate. -/
def satN (n x : Nat) : Nat := min (2 ^ n - 1) x
/-- The status record of a plan. -/
def Plan.status (p : Plan) : List Byte :=
  let w0 := (if p.run.isSome then 2 ^ 31 else 0) + (if p.pinned then 2 ^ 30 else 0) + p.level.toNat * 2 ^ 28 +
    (if p.done then 2 ^ 27 else 0) + satN 8 p.brkRepl * 256 + satN 8 p.runRepl
  let ws := match p.brk with
    | none => [0, 0, 0, 0, 0]
    | some (n, e, o) =>
      [16 + n % 16, e.1, o.1, e.2.1 % 65536 * 65536 + o.2.1 % 65536, e.2.2 % 65536 * 65536 + o.2.2 % 65536]
  ([w0, p.declined.toNat, satN 32 p.skipped] ++ ws ++ [p.flags.toNat]).flatMap (natBytes 4) ++ List.replicate 28 0

/-- qstat (R235): its record is read as every record of the planner is (R232, R247), and written as one store of the stream. -/
def execQstat (d a : BitVec 5) (s : State) : Out :=
  s.withPlan d fun _ p =>
    let va := s.rs a
    match s.planRec va 64 64 with
    | .ok s1 _ => s1.issueStore (s1.xlAccess (s1.storeXl .scalar) va 64) [va] 64 p.status none 4
    | r => s.recStop r

/-! ### QRUN (R89, R90, R234) -/

/-- The first word of a binding record that breaks R89. -/
def State.bindBad (s : State) (b : BitVec 1152) : Option Nat :=
  if recFld b 0 24 8 != 0 || recFld b 0 9 8 != 0 || !s.semOk (BitVec.ofNat 6 (recFld b 0 17 6)) then some 0
  else (upTo 36).find? fun k =>
    (decide (1 ≤ k) && decide (k ≤ 3) && recWord b k != 0#32) || (decide (4 ≤ k) && k % 2 == 1 && recFld b k 25 7 != 0)

/-- The plan needs a tile slot: it forms XW sums (R269). -/
def Plan.needsTile (p : Plan) : Bool :=
  (upTo (qNodes p.query)).any fun n => let d := qNode p.query n; d.op == 2 || (d.op == 3 && d.p2 == 0)

/-- The lowest leaf whose entry has another generation than the plan recorded (R90). -/
def Plan.staleLeaf (p : Plan) (es : List (BitVec 512)) : Option Nat :=
  (es.zip p.entries).findIdx? fun e => statWord e.1 0 != statWord e.2 0

/-- The WGs on whose cores a run of a plan may place work (R89): those of the plan's placement that the launch still has, at most MAXCORES;
on a core where the launch has come to hold both contexts, the one in context 0; the issuing WG where none is left. -/
def State.runPlaced (s : State) (x : CtxId) (p : Plan) (b : BitVec 1152) : List Nat :=
  match s.launchOf x with
  | none => p.placed
  | some l =>
    let first (w : Nat) : Nat := match l.running.find? fun v => v.1 == w with
      | some v => ((l.running.find? fun u => u.2 == { v.2 with ctx := 0 }).map Prod.fst).getD w
      | none => w
    let up := p.placed.filter fun w => (l.running.any fun v => v.1 == w) || l.savedWgs.any fun v => v.1 == w
    let here := (up.map first).eraseDups
    let mx := recFld b 0 0 9
    let lim := if mx = 0 then here else here.take mx
    if lim.isEmpty then [first (((s.ctx x).live.map Prod.snd).getD 0)] else lim

/-- Start a run of the plan in slot i (R90), at the level of the QRUN's issue (R234). -/
def State.startRun (s : State) (i : Nat) (p : Plan) (b : BitVec 1152) : Out :=
  let level := s.st.heldDet
  let r : PlanRun := { id := s.nextId, placed := s.runPlaced s.xid p b, slot := s.cur, asid := s.cx.asid.toNat, level := level,
                       binding := b, ests := p.ests }
  .next ((({ s with nextId := s.nextId + 1 }.onCx fun c =>
    c.putPlan i { p with run := some r, level := level, stamp := s.moment, brkRepl := 0, skipped := 0, brk := none, flags := 0 }).ungate).adv 4)

/-- The generation check of R90, and the start; `bs` is what the instruction holds: the binding record, the entries read for the check and,
where the query is planned again, those read for that. -/
def State.checkRun (s : State) (h : Word) (i : Nat) (p : Plan) (b : BitVec 1152) (bs : List Byte) : Out :=
  let level := s.st.heldDet
  s.withEntries p.query bs 144 fun es =>
    let n := min 8 (qLeaves p.query)
    match p.staleLeaf (es.take n) with
    | none => s.startRun i p b
    | some k =>
      if p.pinned || level == 2#2 then s.raise .planInvalid 0 (BitVec.ofNat 64 (k * 2 ^ 32 + h.toNat))
      else
        s.withEntries p.query bs (144 + 64 * n) fun es =>
          match makePlan p.query p.vaQuery level p.hints s.clock (s.placement s.clock) es with
          | .bad f => s.raiseRec f
          | .ok m => s.startRun i { m with done := p.done, runRepl := min 255 (p.runRepl + 1) } b

/-- qrun (R234). -/
def execQrun (d a : BitVec 5) (s : State) : Out :=
  s.withPlan d fun i p =>
    let va := s.rs a
    s.withRecord va 144 16 fun s1 bs =>
      let b : BitVec 1152 := bytesBv 1152 (bs.take 144)
      let tiles := match s.launchOf s.xid with
        | some l => decide (512 ≤ l.cbres)
        | none => false
      match s1.bindBad b with
      | some k => s1.raise .bind va (BitVec.ofNat 64 k)
      | none =>
        if p.needsTile && !tiles then s1.raise .bind va
        else
          match s1.joinHold (some .device) .other with
          | some o => o
          | none => if p.run.isSome then .next (s1.keepRecord 144 |>.waitsAt .other) else s1.checkRun (s.rs d) i p b bs

/-! ### Evaluation of a run -/

/-- The axis along which the elements that node m takes are cut into scale blocks (R47): the contraction axis of the contraction
that consumes them, through nodes that select, else the last axis. `fuel` bounds the chain. -/
def scaleAxis (q : QRec) : Nat → Nat → Bool → Nat → Nat
  | 0, _, _, rank => rank - 1
  | k + 1, m, second, rank =>
    let d := qNode q m
    if d.op == 2 then (if second then d.p2 else d.ax)
    else if d.selects && !second then
      (match qConsumers q m with
      | [c] => scaleAxis q k c ((qNode q c).in0 != m) rank
      | _ => rank - 1)
    else rank - 1
/-- The axis of the scale blocks of node n's result. -/
def resultAxis (q : QRec) (n rank : Nat) : Nat :=
  match qConsumers q n with
  | [c] => scaleAxis q 16 c ((qNode q c).in0 != n) rank
  | _ => rank - 1

/-- The units of a zero-elided stream of n output bytes at an address (R104, R220): the bitmap of each and the address of its stored
blocks. `fuel` bounds the units. -/
def State.elidedUnits (s : State) (t : Xl) (cache : FMap Nat (List Byte)) : Nat → Word → Nat → EngRes (List (Nat × Word))
  | 0, _, _ => .ok []
  | k + 1, va, n =>
    if n = 0 then .ok [] else
    let blocks := min 32 (ceilDiv n 128)
    (s.engRead t va 4 cache).bind fun bm =>
      let m := bytesNat bm % 2 ^ blocks
      (s.elidedUnits t cache k (va + BitVec.ofNat 64 (4 + 128 * popN blocks m)) (n - min n 4096)).bind fun r => .ok ((m, va + 4) :: r)
/-- Where byte o of a zero-elided stream is stored; none in an absent block, which is zero. -/
def elidedAt (us : List (Nat × Word)) (o : Nat) : Option Word :=
  let b := o / 128 % 32
  match us[o / 4096]? with
  | none => none
  | some (m, va) => if nbit m b then some (va + BitVec.ofNat 64 (128 * popN b (m % 2 ^ b) + o % 128)) else none

/-- DVA of leaf k. -/
def bindDva (b : BitVec 1152) (k : Nat) : Word := rec64 b (4 + 4 * k)
/-- SVA of leaf k. -/
def bindSva (b : BitVec 1152) (k : Nat) : Word := rec64 b (6 + 4 * k)

/-- The scale byte of each element: blocks of 32 along an axis, the blocks of a fiber together. -/
def scaleOfElems (dims : List Nat) (ax : Nat) (sb : List Byte) : List Byte :=
  let nb := ceilDiv (dims.getD ax 1) 32
  let a := sb.toArray
  let cells := (fibers dims ax).zipIdx.flatMap fun f => f.1.zipIdx.map fun e => (e.1, (a[f.2 * nb + e.2 / 32]?).getD 0)
  (setMany (Array.replicate (prodN dims) (0 : Byte)) cells).toList

/-- The elements of a leaf whose blocks' scale bytes are known: those of a block of scale 0x80 are neither fetched nor decoded (R47). `at_`
gives where a byte of the leaf is stored. -/
def State.leafElems (s : State) (t : Xl) (cache : FMap Nat (List Byte)) (at_ : Nat → Option Word) (cw : Nat) (sb : List Byte) :
    EngRes (List Nat) :=
  engList (fun (p : Byte × Nat) =>
    match at_ (p.2 * cw / 8) with
    | none => .ok 0
    | some va =>
      if p.1 == 0x80#8 then .ok 0
      else (s.engRead t va (ceilDiv cw 8) cache).bind fun bs => .ok (bytesNat bs / 2 ^ (p.2 * cw % 8) % 2 ^ cw)) sb.zipIdx
/-- All bytes of a leaf of n bytes, block after block where it is zero-elided. -/
def State.leafBytes (s : State) (t : Xl) (cache : FMap Nat (List Byte)) (at_ : Nat → Option Word) (elided : Bool) (va : Word) (n : Nat) :
    EngRes (List Byte) :=
  if elided then
    (engList (fun k => match at_ (128 * k) with
      | none => EngRes.ok (List.replicate 128 (0 : Byte))
      | some a => s.engRead t a 128 cache) (upTo (ceilDiv n 128))).bind fun bs => .ok (bs.flatten.take n)
  else s.engRead t va n cache

/-- The values of a leaf, read in linear order (R82, R86, R89); the bits of a container above the format's width are not read (R43). -/
def State.leafTensor (s : State) (x : CtxId) (r : PlanRun) (p : Plan) (k ax : Nat) : EngRes Tensor :=
  let e := p.entries.getD k 0
  let dims := (upTo (statRank e)).map (statDim e)
  let f := leafFmt e
  let n := prodN dims
  let t := plXl x r.asid .planRead
  let len := ceilDiv (n * f.cw) 8
  let dva := bindDva r.binding k
  let sva := bindSva r.binding k
  let elided := statLayout e == 2
  let scales : EngRes (List Byte) :=
    if sva == 0 then .ok []
    else (s.engRead t sva ((fibers dims ax).length * ceilDiv (dims.getD ax 1) 32) r.cache).bind fun sb => .ok (scaleOfElems dims ax sb)
  scales.bind fun sb =>
    (if elided then s.elidedUnits t r.cache (len / 4096 + 1) dva len else .ok []).bind fun us =>
      let at_ (o : Nat) : Option Word := if elided then elidedAt us o else some (dva + BitVec.ofNat 64 o)
      (if sb.contains 0x80#8 then s.leafElems t r.cache at_ f.cw sb
       else (s.leafBytes t r.cache at_ elided dva len).bind fun bs => .ok (elemsFrom n f.cw (bytesNat bs))).bind fun ps =>
        .ok { dims := dims, fmt := some f, pats := ps.map (· % 2 ^ f.par.w), scales := sb }

/-- An input of node n: an earlier result, or a leaf. -/
def State.planInput (s : State) (x : CtxId) (r : PlanRun) (p : Plan) (n : Nat) (second : Bool) : EngRes Tensor :=
  let d := qNode p.query n
  let c := if second then d.in1 else d.in0
  if c < 16 then .ok (r.results.getD c {})
  else
    let k := c - 16
    s.leafTensor x r p k (scaleAxis p.query 16 n second (statRank (p.entries.getD k 0)))

/-- The inputs of the contraction that node m is, for a reassociation. -/
def State.contractPair (s : State) (x : CtxId) (r : PlanRun) (p : Plan) (m : Nat) : EngRes (Tensor × Tensor) :=
  (s.planInput x r p m false).bind fun a => (s.planInput x r p m true).bind fun b => .ok (a, b)

/-- Node n may be reassociated with its A input or its B input (R96): that input is a contraction with the axis in question. -/
def Plan.reassocInput (p : Plan) (n : Nat) (second : Bool) (rank : Nat) : Bool :=
  let d := qNode p.query n
  let c := if second then d.in1 else d.in0
  d.op == 2 && d.reassoc && d.tol != 0 && decide (c < 16) && (qNode p.query c).op == 2 && decide (2 ≤ rank)

/-- The XW sums of a contraction; at D0 the planner may reassociate it (R96). -/
def State.contractNode (s : State) (x : CtxId) (r : PlanRun) (p : Plan) (n : Nat) (a b : Tensor) : EngRes (List XwElem) :=
  let d := qNode p.query n
  let free := r.level == 0#2 && Config.d0Reassoc (16 * s.clock + n)
  if free && p.reassocInput n false a.dims.length then
    (s.contractPair x r p d.in0).bind fun m => .ok (d.reassocA (qNode p.query d.in0) m.1 m.2 b)
  else if free && p.reassocInput n true b.dims.length then
    (s.contractPair x r p d.in1).bind fun m => .ok (d.reassocB (qNode p.query d.in1) a m.1 m.2)
  else .ok (contractXw a d.ax b d.p2)

/-- The result of node n (R82, R83). -/
def State.evalNode (s : State) (x : CtxId) (r : PlanRun) (p : Plan) (n : Nat) : EngRes Tensor :=
  let q := p.query
  let d := qNode q n
  let ax (dims : List Nat) : Nat := resultAxis q n dims.length
  (s.planInput x r p n false).bind fun a =>
    (if d.two then s.planInput x r p n true else .ok a).bind fun b =>
      match d.op with
      | 0 => .ok { a with flags := 0, under := 0 }
      | 1 => .ok { d.filterOut a (if d.two then some b else none) with flags := 0, under := 0 }
      | 2 =>
        let dims := contractDims a.dims d.ax b.dims d.p2
        (s.contractNode x r p n a b).bind fun xs => .ok (d.outXw dims (ax dims) xs)
      | 3 =>
        let dims := orOne 1 (a.dims.eraseIdx d.ax)
        .ok (if d.p2 = 0 then d.outXw dims (ax dims) (sumXw a d.ax)
             else d.outNums dims (ax dims) (extreme a d.ax (d.p2 == 1)))
      | 4 =>
        let ys := if d.two then b.nums else a.nums
        .ok (d.outNums a.dims (ax a.dims) ((a.nums.zip ys).map fun e => mapFn d.fn e.1 e.2))
      | 5 => .ok { d.gatherOut a b with flags := 0, under := 0 }
      | _ =>
        .ok (match a.fmt, d.fmt with
          | none, some _ => d.outXw a.dims (ax a.dims) a.xw
          | none, none | some _, _ => d.outNums a.dims (ax a.dims) a.nums)

/-! ### Steps of a run -/

/-- The plan and its run in a slot of a context. -/
def State.runOf (s : State) (x : CtxId) (slot : Nat) : Option (Plan × PlanRun) :=
  match ((s.ctx x).planSlot slot).plan with
  | none => none
  | some p => p.run.map fun r => (p, r)
/-- Change the run in a slot. -/
def State.onRun (s : State) (x : CtxId) (slot : Nat) (f : Plan → Plan) : State :=
  s.onCtx x fun c => match (c.planSlot slot).plan with
    | none => c
    | some p => c.putPlan slot (f p)
/-- The nodes that are evaluated before the completion: a scatter is its own completion. -/
def Plan.steps (p : Plan) : Nat :=
  let n := qNodes p.query
  if (qNode p.query (n - 1)).op == 6 then n - 1 else n
/-- A run may take a step. -/
def PlanRun.goes (r : PlanRun) (k : Core) : Bool := !r.frozen && !k.fenced

/-! ### The commands of a run (R89, R284, log 13) -/

/-- The context of a WG of the launch of a context; none while it stands saved, or when it has retired. -/
def State.wgCtx (s : State) (x : CtxId) (w : Nat) : Option CtxId :=
  match s.launchOf x with
  | none => some x
  | some l => (l.running.find? fun r => r.1 == w).map Prod.snd
/-- The WGs whose cores perform node n of a run (R92): those that it may use and that the launch still has, at most as many as a hint on the
node allows, the issuing one where none is left. At D2 they are those of the placement (R96), a saved one among them; at D0 and D1 the run
goes on without those that stand saved. -/
def State.stageOn (s : State) (x : CtxId) (p : Plan) (r : PlanRun) (n : Nat) : List Nat :=
  let saved (w : Nat) : Bool := (s.launchOf x).any fun l => l.savedWgs.any fun v => v.1 == w
  let up := r.placed.filter fun w => (s.wgCtx x w).isSome || (r.level == 2#2 && saved w)
  let mx := recFld p.hints n 8 9
  let l := if mx = 0 then up else up.take mx
  if l.isEmpty then [((s.ctx x).live.map Prod.snd).getD 0] else l
/-- The commands of the operator under way that stand in queues, each with the context of the WG on whose core it stands. -/
def State.stagedCmds (s : State) (x : CtxId) (r : PlanRun) : List (CtxId × EngCmd) :=
  (r.staged.filterMap (s.wgCtx x)).filterMap fun y =>
    ((s.core y.core).me.cmds.find? fun h => h.kind == .plan && h.xfer == r.id).map fun h => (y, h)
/-- The commands of the operator under way stand at the heads of their queues, with nothing to wait behind. -/
def State.stagedReady (s : State) (x : CtxId) (r : PlanRun) : Bool :=
  !r.staged.isEmpty && r.staged.all fun w => (s.wgCtx x w).any fun y =>
    ((s.core y.core).headReady .me).any fun h => h.kind == .plan && h.xfer == r.id
/-- The bytes of a leaf and of its scales, as ranges of the checker. -/
def State.leafRanges (s : State) (x : CtxId) (p : Plan) (r : PlanRun) (k : Nat) : List Range :=
  let e := p.entries.getD k 0
  let n := prodN ((upTo (statRank e)).map (statDim e))
  let len := ceilDiv (n * (leafFmt e).cw) 8
  s.rangeAt x r.asid (bindDva r.binding k).toNat 0 len ++
    (if bindSva r.binding k == 0 then [] else s.rangeAt x r.asid (bindSva r.binding k).toNat 0 n)
/-- The command of node n for the core of a WG's context: it reads the node's leaves, and the root writes DEST. -/
def State.planCmd (s : State) (x y : CtxId) (p : Plan) (r : PlanRun) (n : Nat) : EngCmd :=
  let d := qNode p.query n
  let leaf (c : Nat) : List Range := if 16 ≤ c && c < 24 then s.leafRanges x p r (c - 16) else []
  { id := s.nextId, entry := s.nextId, kind := .plan, eng := .me, slot := r.slot, x := y, asid := r.asid, level := r.level, xfer := r.id,
    reads := leaf d.in0 ++ leaf d.in1
    writes := if n == qRoot p.query then s.leafRanges x p r (qDest p.query) else [] }
/-- A command of a run enters the ME queue of its core: at D0 and D1 it waits behind the commands that it overlaps there (R26). -/
def State.enterPlanCmd (s : State) (c : EngCmd) : State :=
  let c := if c.level == 2#2 then c else { c with after := ((s.core c.x.core).rivals c).map EngCmd.id }
  { s with nextId := s.nextId + 1 }.onCore c.x.core fun k =>
    (k.setQueue .me { k.me with cmds := k.me.cmds ++ [c] }).turn .entry (engCode .me)
/-- At D2 an entering command that overlaps one of another queue is SET_OVERLAP (R26, R271). -/
def State.setOverlap (s : State) (c : EngCmd) : Option FaultRec :=
  let k := s.core c.x.core
  if c.level != 2#2 then none
  else ((k.rivals c).find? fun y => !k.parted c y).map fun y =>
    { name := .setOverlap, eng := true, src := fsrcWord c.eng (k.queue c.eng).cmds.length 3 (k.position y) }
/-- The bank may enter a command into the ME queue of a core now (R25). -/
def Core.bankOpen (k : Core) : Bool := decide (k.me.cmds.length < engDepth .me) && k.turnOk .entry 0 && !k.fenced
/-- The commands of the operator have completed: they leave their queues. -/
def State.unstage (s : State) (x : CtxId) (r : PlanRun) : State :=
  (r.staged.filterMap (s.wgCtx x)).foldl (fun s y => s.popHead y.core .me) s
/-- The commands of a run that ends without completing leave their queues. -/
def State.dropPlanCmds (s : State) (id : Nat) : State :=
  { s with cores := s.cores.map fun k =>
      (k.1, { k.2 with me := { k.2.me with cmds := k.2.me.cmds.filter fun c => !(c.kind == .plan && c.xfer == id) } }) }

/-- A fault of a run (R223, R248): a page fault holds it until the handler returns, with what it has read given up, any other ends it. -/
def State.planFault (s : State) (x : CtxId) (slot : Nat) (r : PlanRun) (f : FaultRec) : State :=
  let f := if f.eng then f else { f with eng := true, src := fsrcWord .me 0 0 0 }
  if f.name.logOnly then
    (s.logFault x.core.dev (s.ctx x).asid f false (locWord r.slot x.ctx) 0).killOf ⟨x.core, 0, x.ctx⟩
  else
    let s1 := s.onRun x slot fun p =>
      { p with run := if f.name.restartable then some { r with frozen := true, cache := [], sent := none } else none }
    (if f.name.restartable then s1 else s1.dropPlanCmds r.id).pendFault x r.slot f

/-- The bank enters the commands of node n on the cores of some WGs in one cycle (R284), once the WGs stand on their cores and every queue
has room; at D2 one that overlaps another queue's is the run's fault. -/
def State.stage (s : State) (x : CtxId) (slot : Nat) (p : Plan) (r : PlanRun) (n : Nat) (ws : List Nat) : State :=
  let ys := ws.filterMap (s.wgCtx x)
  if ys.length < ws.length || !(ys.all fun y => (s.core y.core).bankOpen) then s
  else match ys.findSome? fun y => s.setOverlap (s.planCmd x y p r n) with
    | some f => s.planFault x slot r f
    | none => (ys.foldl (fun s y => s.enterPlanCmd (s.planCmd x y p r n)) s).onRun x slot fun p =>
        { p with run := p.run.map fun r => { r with staged := (r.staged ++ ws).eraseDups, used := (r.used ++ ws).eraseDups } }

/-- What a step of a run answers. -/
def State.runRes {α : Type} (s : State) (x : CtxId) (slot : Nat) (r : PlanRun) (e : EngRes α) (f : α → State) : Out :=
  match e with
  | .ok a => .next (f a)
  | .wait => .next s
  | .bad g => .next (s.planFault x slot r g)
  | .drop fl => .next (s.planFault x slot r { name := .machineCheck, detail := BitVec.ofNat 64 fl })

/-- The WGs whose queue has lost its command of the operator under way since the issuing context was saved with it (R98). -/
def State.unstaged (s : State) (x : CtxId) (r : PlanRun) : List Nat :=
  r.staged.filter fun w => (s.wgCtx x w).any fun y => !((s.core y.core).me.cmds.any fun h => h.kind == .plan && h.xfer == r.id)
/-- SHADOW_BANK_ENTRY (R284): every command of the operator before having completed, the bank enters the commands of the next operator into
the queues, and those that were saved with the context enter again (R98); once they stand at the heads the operator is performed, and they
leave. The root's stay until the run completes. -/
def execShadowBankEntry (x : CtxId) (slot : Nat) (s : State) : Out :=
  match s.runOf x slot with
  | none => .next s
  | some (p, r) =>
    let n := r.results.length
    let root := qRoot p.query
    if !r.goes (s.core x.core) || r.atBreak then .next s
    else if r.staged.isEmpty then .next (if n ≤ root && n < qNodes p.query then s.stage x slot p r n (s.stageOn x p r n) else s)
    else if !(s.unstaged x r).isEmpty then .next (s.stage x slot p r (min n root) (s.unstaged x r))
    else if p.steps ≤ n || !s.stagedReady x r then .next s
    else
      s.runRes x slot r (s.evalNode x r p n) fun t =>
        (if n == root then s else s.unstage x r).onRun x slot fun p =>
          { p with run := some { r with results := r.results ++ [t], atBreak := (qNode p.query n).breaks, cache := []
                                        staged := if n == root then r.staged else [] } }

/-- An observed value is further from its estimate than the threshold allows (R91). -/
def farFrom (thr : Nat) (o e : Nat) : Bool :=
  let hi := max o e
  let lo := min o e
  if hi = 0 then decide (thr < 16) else lo == 0 || decide (thr * lo < 16 * hi)

/-- What the counts known now make fail (R248): the lowest node whose inputs disagree, or the root, with more slices than DEST. -/
def Plan.sizeFails (p : Plan) (r : PlanRun) : Option Nat :=
  let q := p.query
  let known : List NInfo := r.results.map fun t => ⟨some (t.dims.map some), some t.fmt⟩
  let leaf (k : Nat) : NInfo := leafInfo (p.entries.getD k 0)
  let shapes := qShapes q (fun _ => true) leaf known
  let root := qRoot q
  least ((upTo (qNodes q)).filter (fun n => !(shapes.getD n ({}, true)).2) ++
    (if rootFits (qNode q root) (leaf (qDest q)) (shapes.getD root ({}, true)).1 then [] else [root]))

/-- QUERY_SIZE with its node. -/
def sizeFault (n : Nat) : FaultRec := { name := .querySize, detail := BitVec.ofNat 64 n }

/-- PLAN_BREAK (R91, R248): the observed values against the estimates; the rest may be planned again for this run, and a count
that does not fit ends it. -/
def execPlanBreak (x : CtxId) (slot : Nat) (s : State) : Out :=
  match s.runOf x slot with
  | none => .next s
  | some (p, r) =>
    if !r.goes (s.core x.core) || !r.atBreak then .next s
    else
      let n := r.results.length - 1
      let t := r.results.getD n {}
      let cw := (t.fmt.map Fmt.cw).getD 8
      let dz := densZbf cw t.seen
      let o := (t.dims.getD (qNode p.query n).ax 1, dz.1, dz.2)
      let e := r.ests.getD n (0, 0, 0)
      let thr := (s.ctx x).replan.toNat
      let far := farFrom thr o.1 e.1 || farFrom thr o.2.1 e.2.1 || farFrom thr o.2.2 e.2.2
      let again := r.level != 2#2 && !p.pinned && thr != 0 && far
      let ests := r.ests.zipIdx.map fun v =>
        if again && decide (n < v.2) then breakEst p.query p.entries s.clock v.2 else v.1
      let r1 := { r with atBreak := false, ests := ests }
      let s1 := s.onRun x slot fun p =>
        { p with run := some r1, brk := some (n, e, o), brkRepl := if again then min 255 (p.brkRepl + 1) else p.brkRepl }
      .next (match p.sizeFails r with
        | some k => s1.planFault x slot r1 (sizeFault k)
        | none => s1)

/-! ### The completion of a run -/

/-- The place in DEST of element i of a result: each slice along axis 0 takes the room of a slice of DEST (R248: the row length that DEST's
entry gives; DEDUCED, log 13). -/
def destPlace (res dest : List Nat) (i : Nat) : Nat :=
  let rl := prodN (res.drop 1)
  i / rl * prodN (dest.drop 1) + i % rl
/-- The writes of a root that is no scatter: all of its result. The scale bytes of a root that selects are those of its elements, and a block
takes that of its first one (DESIGN CHOICE, log 13). -/
def Tensor.allWrites (t : Tensor) (dest : List Nat) : DestWrites :=
  { cells := t.pats.zipIdx.map fun p => (destPlace t.dims dest p.2, p.1)
    scales := t.scales.zipIdx.map fun p => (destPlace t.dims dest p.2, p.1), flags := t.flags, under := t.under, after := t }

/-- The contributions of a scatter (R82): destination element and source element in increasing i, and the indices outside. -/
def scatterCells (dest : List Nat) (ax : Nat) (vdims : List Nat) (idx : List Int) : List (Nat × Nat) × Nat :=
  let n : Int := dest.getD ax 1
  let ok := idx.zipIdx.filter fun e => 0 ≤ e.1 && e.1 < n
  (ok.flatMap fun e => (sliceIdx dest ax e.1.toNat).zip (sliceIdx vdims ax e.2), idx.length - ok.length)

/-- Take the element at a free choice out of a list. -/
def takeAt {α : Type} (l : List α) (k : Nat) : Option (α × List α) := (l[k]?).map fun a => (a, l.eraseIdx k)
/-- Add values one after another in a free order, each addition rounded (R96, D0). `fuel` bounds their number. -/
def addRounded (f : Fmt) (rm : RMode) (free : Nat) : Nat → Num → List Num → Num
  | 0, v, _ => v
  | k + 1, v, l =>
    match takeAt l (Config.d0Order free l.length % l.length) with
    | none => v
    | some (w, r) => addRounded f rm free k (decodeNum f.par (encodeNum f.par rm 0 (numAdd v w)).1) r

/-- The writes of a scatter root (R82, R83, R96). A rewritten entry sees the whole of DEST as it then stands, in storage order (R86,
log 13). -/
def scatterWrites (d : QNode) (level : BitVec 2) (free : Nat) (dest vals : Tensor) (idx : List Int) : DestWrites :=
  let (cells, skipped) := scatterCells dest.dims d.ax vals.dims idx
  let total := prodN dest.dims
  let vn := vals.nums.toArray
  let vp := vals.parts.toArray
  let old := dest.nums.toArray
  let f := d.fmt.getD .int32
  let touched := (setMany (Array.replicate total false) (cells.map fun c => (c.1, true))).toList
  let places := (touched.zipIdx.filter fun t => t.1).map Prod.snd
  let sums := (cells.foldl (fun (a : Array XwElem) c =>
    a.setIfInBounds c.1 (xwAcc ((a[c.1]?).getD (0, 0)) ((vp[c.2]?).getD (0, 0)))) (Array.replicate total ((0, 0) : XwElem)))
  let newVal (e : Nat) : Num :=
    if !d.add then numZero
    else if level == 0#2 then
      let vs := (cells.filter fun c => c.1 == e).map fun c => (vn[c.2]?).getD numZero
      addRounded f d.rm (free + e) vs.length ((old[e]?).getD numZero) vs
    else numAdd ((old[e]?).getD numZero) (xwRead ((sums[e]?).getD (0, 0)))
  let vals := if d.add then places.map fun e => (e, newVal e) else cells.map fun c => (c.1, (vn[c.2]?).getD numZero)
  let grid := (setMany (Array.replicate total numZero) vals).toList
  let t := encodeVals f d.rm d.auto dest.dims (dest.dims.length - 1) grid
  { cells := places.zip (pick t.pats places), scales := places.zip (pick t.scales places), under := t.under
    flags := if d.add && level != 0#2 then xwFlags (places.map fun e => (sums[e]?).getD (0, 0)) else 0
    skipped := skipped
    after := { dest with pats := (setMany dest.pats.toArray (places.zip (pick t.pats places))).toList
                         scales := (setMany dest.scales.toArray
                           (places.zip (if t.scales.isEmpty then places.map fun _ => 0 else pick t.scales places))).toList } }

/-- The writes of a run's root. -/
def State.rootWrites (s : State) (x : CtxId) (r : PlanRun) (p : Plan) : EngRes DestWrites :=
  let q := p.query
  let n := qRoot q
  let d := qNode q n
  if d.op == 6 then
    (s.planInput x r p n false).bind fun v => (s.planInput x r p n true).bind fun i =>
      let k := qDest q
      let e := p.entries.getD k 0
      let old : EngRes Tensor :=
        if d.add || qUpd q then s.leafTensor x r p k (statRank e - 1)
        else .ok { dims := (upTo (statRank e)).map (statDim e), fmt := some (leafFmt e) }
      old.bind fun t => .ok (scatterWrites d r.level (s.clock * 2 ^ 32) t v i.indices)
  else
    let e := p.entries.getD (qDest q) 0
    .ok ((r.results.getD n {}).allWrites ((upTo (statRank e)).map (statDim e)))

/-- The writes at places in rising order: of two to one place the later one stands. -/
def byPlace {α : Type} (l : List (Nat × α)) : List (Nat × α) :=
  let n := l.foldl (fun m c => max m (c.1 + 1)) 0
  (setMany (Array.replicate n (none : Option α)) (l.map fun c => (c.1, some c.2))).toList.zipIdx.filterMap fun c => c.1.map fun v => (c.2, v)
/-- Bytes at rising places as the strings of adjacent ones. -/
def byteRuns (l : List (Nat × Byte)) : List (Nat × List Byte) :=
  (l.foldl (fun (acc : List (Nat × List Byte)) c => match acc with
    | (o, bs) :: r => if c.1 = o + bs.length then (o, bs ++ [c.2]) :: r else (c.1, [c.2]) :: acc
    | [] => [(c.1, [c.2])]) []).reverse
/-- The bytes that elements in containers of cw bits take: a 4-bit element leaves the other half of its byte, as `old` gives it (R43). -/
def cellBytes (cw : Nat) (cells : List (Nat × Nat)) (old : Nat → EngRes Byte) : EngRes (List (Nat × Byte)) :=
  let l := byPlace cells
  if 8 ≤ cw then .ok (l.flatMap fun c => (natBytes (cw / 8) c.2).zipIdx.map fun b => (c.1 * (cw / 8) + b.2, b.1))
  else
    engList (fun k =>
      let half (e : Nat) : Option Nat := (l.find? fun c => c.1 == e).map Prod.snd
      match half (2 * k), half (2 * k + 1) with
      | some a, some b => EngRes.ok (k, BitVec.ofNat 8 (a % 16 + b % 16 * 16))
      | a, b => (old k).bind fun v =>
          .ok (k, BitVec.ofNat 8 ((a.getD v.toNat) % 16 + (b.getD (v.toNat / 16)) % 16 * 16))) (l.map fun c => c.1 / 2).eraseDups

/-- The first scale byte of each scale block that a run writes: the place in the array of scale bytes, and the byte. -/
def destScales (last : Nat) (l : List (Nat × Byte)) : List (Nat × Byte) :=
  let nb := ceilDiv last 32
  l.foldl (fun acc e =>
    let k := e.1 / last * nb + e.1 % last / 32
    if acc.any fun a => a.1 == k then acc else acc ++ [(k, e.2)]) []

/-- The number of a list's distinct members. -/
def distinct (l : List Nat) : Nat := (l.foldl (fun (acc : List Nat) x => if acc.contains x then acc else x :: acc) []).length

/-- The entry after an UPDSTAT rewrite from the values written (R86, R87). With fewer than two elements there are no adjacent pairs, and SORT
is 0 (DESIGN CHOICE, log 13). -/
def rewriteEntry (e : BitVec 512) (f : Fmt) (w : DestWrites) : BitVec 512 :=
  let t := w.after
  let dz := densZbf f.cw t.seen
  let exps := t.pats.filterMap fun c => numExp (decodeNum f.par c)
  let scaled := (t.pats.zip t.scales).filterMap fun c =>
    if c.2 == 0x80#8 then none else (numExp (decodeNum f.par c.1)).map (· + c.2.toInt)
  let es := if t.scales.isEmpty then exps else scaled
  let w8 : Nat := match es with
    | [] => (Config.noExponent (statFcode e)).toNat
    | x :: r => wrapN 16 (r.foldl max x) * 65536 + wrapN 16 (r.foldl min x)
  let uff := frac16 w.under w.cells.length
  let vals := t.pats.map fun c => toSigned f.par.w c
  let sorted := ((vals.zip (vals.drop 1)).filter fun p => decide (p.1 ≤ p.2)).length
  let sort := if statIdx e then frac16 sorted (vals.length - 1) else recFld e 9 0 16
  let dist := if statIdx e then distinct t.pats else recFld e 10 0 32
  bytesBv 512 ((upTo 16).flatMap fun k => match k with
    | 0 => bvBytes 4 (statWord e 0 + 1)
    | 7 => natBytes 4 (dz.1 * 65536 + dz.2)
    | 8 => natBytes 4 w8
    | 9 => natBytes 4 (uff * 65536 + sort)
    | 10 => natBytes 4 dist
    | k => bvBytes 4 (statWord e k))

/-- The reservation of a WG after a run (R269): zero bytes, and the reserved slots as after MZERO. -/
def Ctx.clearReserve (c : Ctx) (excl : Bool) (l : Launch) : Ctx :=
  let zero (m : Memory) (lo hi : Nat) : Memory := m.filter fun b => decide (b.1 < lo) || decide (hi ≤ b.1)
  let top (b : Buf) (kib : Nat) (m : Memory) : Memory :=
    zero m (shareSize excl b - min (shareSize excl b) (1024 * kib)) (shareSize excl b)
  let slot (n : Nat) (m : Memory) : Memory := zero m (n * 0x80000) (n * 0x80000 + 0x7E000)
  let cb := if 1024 ≤ l.cbres then slot 1 (slot 2 c.cbuf) else if 512 ≤ l.cbres then slot 2 c.cbuf else c.cbuf
  { c with wb := top .wb l.wbres c.wb, ab := top .ab l.abres c.ab, cbuf := cb }

/-- A WG on whose core the run has placed work stands saved: its reservation can be cleared only once it has been restored. -/
def State.usedSaved (s : State) (x : CtxId) (r : PlanRun) : Bool :=
  (s.launchOf x).any fun l => r.used.any fun w => l.savedWgs.any fun v => v.1 == w
/-- The reservations that a run used are cleared (R269). -/
def State.clearUsed (s : State) (x : CtxId) (r : PlanRun) : State :=
  (r.used.filterMap (s.wgCtx x)).foldl (fun s y => match s.launchOf y with
    | none => s
    | some l => s.onCtx y fun c => c.clearReserve (s.exclOf y) l) s
/-- The completion's signal (R79, R89, R227): the semaphore as the signal finds it, where one is asked for. -/
def PlanRun.sem (r : PlanRun) : Option (BitVec 6) :=
  if nbit r.binding.toNat 23 then some (BitVec.ofNat 6 (recFld r.binding 0 17 6)) else none
/-- Signal the semaphore of a completed run. -/
def State.planSignal (s : State) (x : CtxId) (slot : Nat) (r : PlanRun) : State :=
  match r.sem with
  | none => s
  | some n => match semAdd ((s.ctx x).sem n) 1 with
    | some v => s.semStep x n (.sigPlan slot) v
    | none => (s.semMark x n (.sigPlan slot)).pendFault x r.slot { name := .semOvf, eng := true, src := fsrcWord .me 0 0 0 }

/-- The bytes that a run writes to DEST and to its scale bytes, translated: each string of bytes with its pieces. The scales that AUTO chose,
and those of a root that selects from a scaled leaf, are written where the binding names scale bytes; where it names none, the elements keep
the patterns that go with them (DESIGN CHOICE, log 13). Without AUTO every block has scale 0 (R83). -/
def State.destStrings (s : State) (x : CtxId) (p : Plan) (r : PlanRun) (w : DestWrites) : EngRes (List (List Piece × List Byte)) :=
  let k := qDest p.query
  let e := p.entries.getD k 0
  let dva := bindDva r.binding k
  let sva := bindSva r.binding k
  let t := plXl x r.asid .planWrite
  let sc := if sva == 0 then []
    else destScales (statDim e (statRank e - 1)) (if w.scales.isEmpty then w.cells.map fun c => (c.1, 0) else w.scales)
  let old (o : Nat) : EngRes Byte := (s.engXl t (dva + BitVec.ofNat 64 o) 1).bind fun ps => .ok ((s.readPieces ps).headD 0)
  let put (va : Word) (l : List (Nat × Byte)) : EngRes (List (List Piece × List Byte)) :=
    engList (fun c => (s.engXl t (va + BitVec.ofNat 64 c.1) c.2.length).bind fun ps => .ok (ps, c.2)) (byteRuns l)
  (cellBytes (leafFmt e).cw w.cells old).bind fun bs => (put dva bs).bind fun a => (put sva (byPlace sc)).bind fun b => .ok (a ++ b)
/-- The writes to DEST join the paths of the first core of the operator, with its command, and take effect there one by one (R71, R74). -/
def State.sendDest (s : State) (x : CtxId) (slot : Nat) (r : PlanRun) (w : DestWrites) (l : List (List Piece × List Byte)) : State :=
  match s.stagedCmds x r with
  | [] => s
  | (y, h) :: _ => (l.foldl (fun s c => s.engWrite y.core h 0 c.1 c.2) s).onRun x slot fun p =>
      { p with run := some { r with out := some w, sent := some h.id } }
/-- A write to DEST has not taken effect. -/
def State.destWriting (s : State) (id : Nat) : Bool := s.cores.any fun k => k.2.writing id
/-- The last steps of a run whose writes have taken effect (R79, R87, R269): the statistics are rewritten, the reservations are cleared, the
commands leave, and the semaphore is signalled. -/
def State.endRun (s : State) (x : CtxId) (slot : Nat) (p : Plan) (r : PlanRun) (w : DestWrites) (u : Option (List Piece)) : State :=
  let f := leafFmt (p.entries.getD (qDest p.query) 0)
  let s1 := match u with
    | none => s
    | some up => (s.statStep x.core up fun e => some (rewriteEntry e f w)).getD s
  (((s1.clearUsed x r).unstage x r).onRun x slot fun p =>
    { p with run := none, done := true, skipped := satN 32 w.skipped, flags := w.flags }).planSignal x slot r

/-- PLAN_COMPLETE (R79, R87, R89, R248, R269): the result sets out for DEST; once all of it has taken effect the run ends, with its signal in
its turn. A write that faults at its effect is the run's page fault, and the result sets out again after the handler. -/
def execPlanComplete (x : CtxId) (slot : Nat) (s : State) : Out :=
  match s.runOf x slot with
  | none => .next s
  | some (p, r) =>
    if !r.goes (s.core x.core) || r.atBreak || r.results.length < p.steps || !s.stagedReady x r then .next s
    else match r.out, r.sent with
      | some w, some id =>
        match (s.stagedCmds x r).findSome? fun c => c.2.pageFault.map fun f => (c.1, c.2.id, f) with
        | some (y, h, f) =>
          .next ((s.onCore y.core fun k => k.onCmd h fun c => { c with pageFault := none }).planFault x slot r f)
        | none =>
          if s.destWriting id || s.usedSaved x r || !(r.sem.all fun n => s.semTurn x n (.sigPlan slot)) then .next s
          else
            s.runRes x slot r (if qUpd p.query then
                (s.engXl (plXl x r.asid .planWrite) ((s.ctx x).statVa (qTid p.query (qDest p.query))) 64).bind fun u => .ok (some u)
              else .ok none) fun u => s.endRun x slot p r w u
      | out, _ =>
        match (if out.isNone then p.sizeFails r else none) with
        | some k => .next (s.planFault x slot r (sizeFault k))
        | none =>
          s.runRes x slot r ((match out with
              | some w => EngRes.ok w
              | none => s.rootWrites x r p).bind fun w => (s.destStrings x p r w).bind fun l => .ok (w, l))
            fun (w, l) => s.sendDest x slot r w l

/-! ### Single pieces (R71, R74) -/

/-- The place of a run in its contexts' plan caches. -/
def State.findRun (s : State) (id : Nat) : Option (CtxId × Nat × PlanRun) :=
  s.ctxs.findSome? fun c => c.2.plans.findSome? fun p => (p.2.plan.bind Plan.run).bind fun r =>
    if r.id == id then some (c.1, p.1, r) else none
/-- A run reads one granule of a leaf of its operator in a step of its own. -/
def State.planGranule (s : State) (id g : Nat) : State :=
  match s.findRun id with
  | none => s
  | some (x, slot, r) =>
    if !r.goes (s.core x.core) || r.atBreak || r.out.isSome || !s.stagedReady x r then s
    else match s.xlByte (plXl x r.asid .planRead) (16 * g) with
      | .bad _ => s
      | .ok l =>
        if (fget? r.cache g).isSome || (s.readStop [⟨l, 16, 0⟩]).isSome then s
        else s.onRun x slot fun p =>
          { p with run := p.run.map fun r => { r with cache := fset r.cache g (s.readPlace (s.locate l) 16) } }
/-- The command of a queue that reads operands now: its copy has landed, and its burst runs (R37, R215); in the CS queue the one whose walk
is under way (R99). -/
def State.fetching (s : State) (c : CoreId) (e : Eng) : Option EngCmd :=
  match e, (s.core c).headReady e with
  | .cs, some h => if h.kind == .coll then walking (s.core c).cs.cmds else some h
  | _, none => none
  | _, some h => if h.bound.isSome || h.migrated.isSome || (h.isBurst && (s.burstRuns c).isNone) then none else some h
/-- A command reads one granule of its next row, or of its next chunk, in a step of its own (R71). -/
def State.engGranule (s : State) (c : CoreId) (e : Eng) (g : Nat) : State :=
  match s.fetching c e with
  | none => s
  | some h =>
    if h.kind == .plan then s.planGranule h.xfer g else
    match h.readers.findSome? fun t => match s.xlByte t (16 * g) with
      | .ok l => some l
      | .bad _ => none with
    | none => s
    | some l =>
      if (fget? h.cache g).isSome || (s.readStop [⟨l, 16, 0⟩]).isSome then s
      else s.onCore c fun k => k.onCmd h.id fun y => { y with cache := fset y.cache g (s.readPlace (s.locate l) 16) }

end Sys2Proof.Machine
end

