-- ==== Sys2Proof/Machine/Service.lean ====
section
/-!
DEFINITION. Machine/Service.lean: operator commands (R321, R323), attestation (R324) and the load of firmware (R287).
-/
namespace Sys2Proof.Machine

/-! ### SPCMD (R320, R321) -/

/-- ACT of a command. -/
def spAct (data : Word) : Nat := nbits data.toNat 56 4
/-- The retirement that a command names. -/
def spOf (data : Word) : Spare :=
  ⟨nbits data.toNat 48 3, nbits data.toNat 45 3, nbits data.toNat 16 16, nbits data.toNat 32 13⟩
/-- The reserved bits of a command are zero. -/
def spReserved (data : Word) : Bool := nbits data.toNat 60 3 == 0 && nbits data.toNat 51 5 == 0 && nbits data.toNat 0 16 == 0
/-- Rows of 512 bytes in a buffer, WB, AB, CB. -/
def rowsIn : Nat → Nat
  | 0 => 8192
  | 1 => 6144
  | 2 => 3072
  | _ => 0
/-- TARGET and ARG name a unit (R321). -/
def Spare.targetOk (p : Spare) : Bool :=
  let t := p.target
  match p.kind with
  | 0 => decide (t < 42) && p.arg == 0
  | 1 => decide (t < 2 ^ 9) && decide (t % 256 < 128) && p.arg == 0
  | 2 => let port := nbits t 8 6
         t / 2 ^ 14 == 0 && nbits t 2 6 == 0 && decide (port < 36) && port % 8 == p.field && p.arg == 0
  | 3 => t % 256 == 0 && decide (nbits t 8 6 < 42) && decide (p.arg < rowsIn (t / 2 ^ 14))
  | 4 => decide (t < 16) && p.arg == 0
  | _ => false
/-- Two retirements draw on the same spares, and how many of them there are (R320). -/
def Spare.pool (p : Spare) : Nat × Nat :=
  match p.kind with
  | 0 => (0, 2)
  | 1 => (p.target / 256, 8)
  | 2 => (nbits p.target 8 6, 1)
  | 3 => (p.target, match p.target / 2 ^ 14 with
    | 0 => 16
    | 1 => 12
    | _ => 8)
  | _ => (0, 2)
/-- The retirements of a field, pending and applied. -/
def Field.retired (f : Field) : List Spare := f.named ++ f.applied
/-- The result of NAME. -/
def Field.nameRes (f : Field) (p : Spare) : BitVec 8 :=
  if f.retired.contains p then 3
  else if p.pool.2 ≤ (f.retired.filter fun o => o.kind == p.kind && o.pool.1 == p.pool.1).length then 1
  else 0
/-- SPARE_NAME (R321): a retirement joins the pending list of its field; a reserved ACT is refused here too. -/
def execSpareName (dev : Nat) (data : Word) (s : State) : Out :=
  let a := spAct data
  let p := spOf data
  if a = 2 || a = 3 then .next s
  else .next (s.onDev dev fun d =>
    let r := if a != 1 || !spReserved data || !p.targetOk then 2 else (d.fieldN p.field).nameRes p
    let d1 := { d with spres := r }
    if r == 0#8 then d1.onField p.field fun f => { f with named := f.named ++ [p] } else d1)
/-- SPARE_CANCEL (R321): a pending retirement is removed. -/
def execSpareCancel (dev : Nat) (data : Word) (s : State) : Out :=
  let p := spOf data
  if spAct data ≠ 2 then .next s
  else .next (s.onDev dev fun d =>
    if !spReserved data || !p.targetOk then { d with spres := 2 }
    else if (d.fieldN p.field).named.contains p then
      { d.onField p.field fun f => { f with named := f.named.erase p } with spres := 0 }
    else { d with spres := 4 })
/-- ADVSVN (R321, R323): the fuse counter advances to a value above its own that does not exceed the running image's SVN; R323 states every
case that is refused (log 77). -/
def execAdvsvn (dev : Nat) (data : Word) (s : State) : Out :=
  let p := spOf data
  if spAct data ≠ 3 then .next s
  else .next (s.onDev dev fun d =>
    if !spReserved data || p.kind != 0 || p.field != 0 || p.arg != 0 then { d with spres := 2 }
    else if p.target ≤ d.fuse.toNat || decide (d.fwSvn.toNat < p.target) || 64 ≤ d.advances then { d with spres := 5 }
    else { d with spres := 0, fuse := BitVec.ofNat 16 p.target, advances := d.advances + 1 })

/-! ### Attestation (R324) -/

/-- ATTESTATION_REQUEST (R324): the host writes 1 to ATTREQ; a request under way goes on. -/
def execAttestationRequest (dev : Nat) (data : Word) (s : State) : Out :=
  if data != 1#64 then .next s else .next (s.onDev dev fun d => { d with attreq := 1 })
/-- ATTESTATION_QUOTE_DONE (R324): the nonce, the hash of the log and the fuse counter are signed. -/
def execAttestationQuoteDone (dev : Nat) (s : State) : Out :=
  if (s.dev dev).attreq != 1#2 then .next s
  else .next (s.onDev dev fun d =>
    let msg := d.nonce.toList ++ Config.shake256 (d.attlog.flatMap id) 64 ++ natBytes 2 d.fuse.toNat
    { d with attreq := 2, quote := padTo 3309 (Config.mlDsaSign dev msg) })

/-! ### Firmware (R287) -/

/-- The entry of the attestation log for an image: its measurement and its SVN (R287, log 12). -/
def measureEntry (hb : List Byte) (svn : Nat) : List Byte := padTo 80 (padTo 64 (Config.shake256 hb 64) ++ natBytes 2 svn)
/-- The header in a staging region is well formed (R287). -/
def Device.fwHeaderOk (d : Device) (pa : Nat) : Bool :=
  let w (k : Nat) : Nat := d.pnat (pa + 4 * k) 4
  w 0 == 0x46575838 && w 1 / 2 ^ 16 == 0 && w 2 % 4 == 0 && decide (w 2 ≤ 262080) && (upTo 12).all fun k => w (4 + k) == 0
/-- The boot ROM accepts the image in a staging region (R287). -/
def Device.fwOk (d : Device) (dev pa : Nat) : Bool :=
  let w (k : Nat) : Nat := d.pnat (pa + 4 * k) 4
  let len := w 2
  let hb := d.pread pa (64 + len)
  let key := d.pread (pa + 64 + len) 1952
  let sig := d.pread (pa + 64 + len + 1952) 3309
  d.fwHeaderOk pa && Config.shake256 key 32 == Config.fuseKeyHash dev && Config.mlDsaVerify key hb sig && decide (d.fuse.toNat ≤ w 1 % 2 ^ 16)
/-- FIRMWARE_LOAD (R287, R288): the boot ROM of field 0 verifies an image, measures it, copies it, sets the window of the firmware core's DMA
and starts the core; a refused image leaves the core in reset. -/
def execFirmwareLoad (dev pa : Nat) (s : State) : Out :=
  let d := s.dev dev
  if d.fwRunning || (d.fieldN 0).state != 2#3 then .next s
  else s.cpAccess dev (if d.fwHeaderOk pa then [(pa, 64 + d.pnat (pa + 8) 4 + 1952 + 3309)] else [(pa, 64)]) fun s =>
  if !d.fwOk dev pa then .next s
  else .next (s.onDev dev fun d =>
    let svn := d.pnat (pa + 4) 4 % 2 ^ 16
    let hb := d.pread pa (64 + d.pnat (pa + 8) 4)
    { d.attestImage (measureEntry hb svn) with
      fwRunning := true, dma := some (Config.dmaWindow dev), fwSvn := BitVec.ofNat 16 svn, fwEntry := BitVec.ofNat 32 (d.pnat (pa + 12) 4), tcm := hb })

end Sys2Proof.Machine
end

