-- ==== Sys2Proof/Machine/Dispatch.lean ====
section
/-!
DEFINITION. Machine/Dispatch.lean: one arm per constructor, each a direct call of its meaning.
-/
namespace Sys2Proof.Machine

/-- Execute one instruction or one step of the machine. -/
def exec (i : Instr) (s : State) : Host.Outcome State Fault Refusal :=
  match i with
  | .add i32 d a b => Sys2Proof.Machine.execAdd i32 d a b s
  | .sub i32 d a b => Sys2Proof.Machine.execSub i32 d a b s
  | .and d a b => Sys2Proof.Machine.execAnd d a b s
  | .or d a b => Sys2Proof.Machine.execOr d a b s
  | .xor d a b => Sys2Proof.Machine.execXor d a b s
  | .andn d a b => Sys2Proof.Machine.execAndn d a b s
  | .sll i32 d a b => Sys2Proof.Machine.execSll i32 d a b s
  | .srl i32 d a b => Sys2Proof.Machine.execSrl i32 d a b s
  | .sra i32 d a b => Sys2Proof.Machine.execSra i32 d a b s
  | .adds i32 d a b => Sys2Proof.Machine.execAdds i32 d a b s
  | .subs i32 d a b => Sys2Proof.Machine.execSubs i32 d a b s
  | .mul i32 d a b => Sys2Proof.Machine.execMul i32 d a b s
  | .mulh d a b => Sys2Proof.Machine.execMulh d a b s
  | .mulhu d a b => Sys2Proof.Machine.execMulhu d a b s
  | .div i32 d a b => Sys2Proof.Machine.execDiv i32 d a b s
  | .divu i32 d a b => Sys2Proof.Machine.execDivu i32 d a b s
  | .rem i32 d a b => Sys2Proof.Machine.execRem i32 d a b s
  | .remu i32 d a b => Sys2Proof.Machine.execRemu i32 d a b s
  | .addi d a imm => Sys2Proof.Machine.execAddi d a imm s
  | .andi d a imm => Sys2Proof.Machine.execAndi d a imm s
  | .ori d a imm => Sys2Proof.Machine.execOri d a imm s
  | .xori d a imm => Sys2Proof.Machine.execXori d a imm s
  | .slli d a sh => Sys2Proof.Machine.execSlli d a sh s
  | .srli d a sh => Sys2Proof.Machine.execSrli d a sh s
  | .srai d a sh => Sys2Proof.Machine.execSrai d a sh s
  | .addiI32 d a imm => Sys2Proof.Machine.execAddiI32 d a imm s
  | .lui d imm => Sys2Proof.Machine.execLui d imm s
  | .apc d imm => Sys2Proof.Machine.execApc d imm s
  | .clz d a => Sys2Proof.Machine.execClz d a s
  | .ctz d a => Sys2Proof.Machine.execCtz d a s
  | .cpop d a => Sys2Proof.Machine.execCpop d a s
  | .min d a b => Sys2Proof.Machine.execMin d a b s
  | .max d a b => Sys2Proof.Machine.execMax d a b s
  | .minu d a b => Sys2Proof.Machine.execMinu d a b s
  | .maxu d a b => Sys2Proof.Machine.execMaxu d a b s
  | .sextb d a => Sys2Proof.Machine.execSextb d a s
  | .sexth d a => Sys2Proof.Machine.execSexth d a s
  | .sextw d a => Sys2Proof.Machine.execSextw d a s
  | .zextw d a => Sys2Proof.Machine.execZextw d a s
  | .slt d a b => Sys2Proof.Machine.execSlt d a b s
  | .sltu d a b => Sys2Proof.Machine.execSltu d a b s
  | .seq d a b => Sys2Proof.Machine.execSeq d a b s
  | .sne d a b => Sys2Proof.Machine.execSne d a b s
  | .csel d c a b => Sys2Proof.Machine.execCsel d c a b s
  | .addCompact d b => Sys2Proof.Machine.execAddCompact d b s
  | .subCompact d b => Sys2Proof.Machine.execSubCompact d b s
  | .andCompact d b => Sys2Proof.Machine.execAndCompact d b s
  | .mvCompact d b => Sys2Proof.Machine.execMvCompact d b s
  | .addiCompact d imm => Sys2Proof.Machine.execAddiCompact d imm s
  | .liCompact d imm => Sys2Proof.Machine.execLiCompact d imm s
  | .ldDCompact d bs off => Sys2Proof.Machine.execLdDCompact d bs off s
  | .stDCompact d bs off => Sys2Proof.Machine.execStDCompact d bs off s
  | .slliCompact d sh => Sys2Proof.Machine.execSlliCompact d sh s
  | .sraiCompact d sh => Sys2Proof.Machine.execSraiCompact d sh s
  | .vmvCompact vd vx => Sys2Proof.Machine.execVmvCompact vd vx s
  | .beq a b off => Sys2Proof.Machine.execBeq a b off s
  | .bne a b off => Sys2Proof.Machine.execBne a b off s
  | .blt a b off => Sys2Proof.Machine.execBlt a b off s
  | .bge a b off => Sys2Proof.Machine.execBge a b off s
  | .bltu a b off => Sys2Proof.Machine.execBltu a b off s
  | .bgeu a b off => Sys2Proof.Machine.execBgeu a b off s
  | .jmp off => Sys2Proof.Machine.execJmp off s
  | .call off => Sys2Proof.Machine.execCall off s
  | .jr a off => Sys2Proof.Machine.execJr a off s
  | .callr a off => Sys2Proof.Machine.execCallr a off s
  | .ret => Sys2Proof.Machine.execRet s
  | .relc => Sys2Proof.Machine.execRelc s
  | .tjoin => Sys2Proof.Machine.execTjoin s
  | .loopb lc off => Sys2Proof.Machine.execLoopb lc off s
  | .loopi lc b off => Sys2Proof.Machine.execLoopi lc b off s
  | .fork off => Sys2Proof.Machine.execFork off s
  | .join mask off => Sys2Proof.Machine.execJoin mask off s
  | .mark => Sys2Proof.Machine.execMark s
  | .fence kind scope => Sys2Proof.Machine.execFence kind scope s
  | .cset mask => Sys2Proof.Machine.execCset mask s
  | .csetClr mask => Sys2Proof.Machine.execCsetClr mask s
  | .cwait mask => Sys2Proof.Machine.execCwait mask s
  | .halt => Sys2Proof.Machine.execHalt s
  | .trap code => Sys2Proof.Machine.execTrap code s
  | .eret => Sys2Proof.Machine.execEret s
  | .waitt a => Sys2Proof.Machine.execWaitt a s
  | .yield => Sys2Proof.Machine.execYield s
  | .ld sz post off base t => Sys2Proof.Machine.execLd sz post off base t s
  | .ldUnsigned sz post off base t => Sys2Proof.Machine.execLdUnsigned sz post off base t s
  | .st sz post off base t => Sys2Proof.Machine.execSt sz post off base t s
  | .ldv sz post off base t => Sys2Proof.Machine.execLdv sz post off base t s
  | .stv sz post off base t => Sys2Proof.Machine.execStv sz post off base t s
  | .ldvXw post off base t => Sys2Proof.Machine.execLdvXw post off base t s
  | .ldq post off base q => Sys2Proof.Machine.execLdq post off base q s
  | .pref off base => Sys2Proof.Machine.execPref off base s
  | .ldvSI dbl x base t => Sys2Proof.Machine.execLdvSI dbl x base t s
  | .stvSI dbl x base t => Sys2Proof.Machine.execStvSI dbl x base t s
  | .amo op dbl ord scope d v base => Sys2Proof.Machine.execAmo op dbl ord scope d v base s
  | .cas dbl ord scope d v base => Sys2Proof.Machine.execCas dbl ord scope d v base s
  | .swap dbl ord scope d v base => Sys2Proof.Machine.execSwap dbl ord scope d v base s
  | .gacq g d => Sys2Proof.Machine.execGacq g d s
  | .gseq d g => Sys2Proof.Machine.execGseq d g s
  | .stg sz rel l g ofs v => Sys2Proof.Machine.execStg sz rel l g ofs v s
  | .vadd ty pm q vd vx vy => Sys2Proof.Machine.execVadd ty pm q vd vx vy s
  | .vsub ty pm q vd vx vy => Sys2Proof.Machine.execVsub ty pm q vd vx vy s
  | .vmul ty pm q vd vx vy => Sys2Proof.Machine.execVmul ty pm q vd vx vy s
  | .vfma ty pm q vd vx vy => Sys2Proof.Machine.execVfma ty pm q vd vx vy s
  | .vmin ty pm q vd vx vy => Sys2Proof.Machine.execVmin ty pm q vd vx vy s
  | .vmax ty pm q vd vx vy => Sys2Proof.Machine.execVmax ty pm q vd vx vy s
  | .vsll ty pm q vd vx vy => Sys2Proof.Machine.execVsll ty pm q vd vx vy s
  | .vsrl ty pm q vd vx vy => Sys2Proof.Machine.execVsrl ty pm q vd vx vy s
  | .vsra ty pm q vd vx vy => Sys2Proof.Machine.execVsra ty pm q vd vx vy s
  | .vand pm q vd vx vy => Sys2Proof.Machine.execVand pm q vd vx vy s
  | .vor pm q vd vx vy => Sys2Proof.Machine.execVor pm q vd vx vy s
  | .vxor pm q vd vx vy => Sys2Proof.Machine.execVxor pm q vd vx vy s
  | .vandn pm q vd vx vy => Sys2Proof.Machine.execVandn pm q vd vx vy s
  | .vnot pm q vd vx => Sys2Proof.Machine.execVnot pm q vd vx s
  | .vcmp cc ty pd vx vy => Sys2Proof.Machine.execVcmp cc ty pd vx vy s
  | .vsel pm vd vx vy => Sys2Proof.Machine.execVsel pm vd vx vy s
  | .vmv vd vx => Sys2Proof.Machine.execVmv vd vx s
  | .vperm ty vd vx vy => Sys2Proof.Machine.execVperm ty vd vx vy s
  | .vslideup ty vd vx y => Sys2Proof.Machine.execVslideup ty vd vx y s
  | .vslidedn ty vd vx y => Sys2Proof.Machine.execVslidedn ty vd vx y s
  | .vbcast ty vd y => Sys2Proof.Machine.execVbcast ty vd y s
  | .vext ty d vx k => Sys2Proof.Machine.execVext ty d vx k s
  | .vcvt ty dirFrom auto rm tab code vd vx => Sys2Proof.Machine.execVcvt ty dirFrom auto rm tab code vd vx s
  | .vdiv ty l vx vy => Sys2Proof.Machine.execVdiv ty l vx vy s
  | .vsqrt ty l vx => Sys2Proof.Machine.execVsqrt ty l vx s
  | .vrcp ty l vx => Sys2Proof.Machine.execVrcp ty l vx s
  | .vrsqrt ty l vx => Sys2Proof.Machine.execVrsqrt ty l vx s
  | .vexp2 ty l vx => Sys2Proof.Machine.execVexp2 ty l vx s
  | .vlog2 ty l vx => Sys2Proof.Machine.execVlog2 ty l vx s
  | .vredsum ty l vx => Sys2Proof.Machine.execVredsum ty l vx s
  | .vredmax ty l vx => Sys2Proof.Machine.execVredmax ty l vx s
  | .vredmin ty l vx => Sys2Proof.Machine.execVredmin ty l vx s
  | .movlVector vd l => Sys2Proof.Machine.execMovlVector vd l s
  | .movlScalar d l => Sys2Proof.Machine.execMovlScalar d l s
  | .pand pd px py => Sys2Proof.Machine.execPand pd px py s
  | .por pd px py => Sys2Proof.Machine.execPor pd px py s
  | .pxor pd px py => Sys2Proof.Machine.execPxor pd px py s
  | .pandn pd px py => Sys2Proof.Machine.execPandn pd px py s
  | .pnot pd px => Sys2Proof.Machine.execPnot pd px s
  | .pfirst ty pd y => Sys2Proof.Machine.execPfirst ty pd y s
  | .pcnt d px => Sys2Proof.Machine.execPcnt d px s
  | .twr ty p t row vx => Sys2Proof.Machine.execTwr ty p t row vx s
  | .trd ty p vd t col => Sys2Proof.Machine.execTrd ty p vd t col s
  | .vcmpr48 ty vd vm vx => Sys2Proof.Machine.execVcmpr48 ty vd vm vx s
  | .vcmpr48Lc n vd vm vx => Sys2Proof.Machine.execVcmpr48Lc n vd vm vx s
  | .mma fo z ts a b c => Sys2Proof.Machine.execMma fo z ts a b c s
  | .mmas fo z ts a b c => Sys2Proof.Machine.execMmas fo z ts a b c s
  | .mzero ts => Sys2Proof.Machine.execMzero ts s
  | .mcvt rm auto a ts => Sys2Proof.Machine.execMcvt rm auto a ts s
  | .mldacc ts a => Sys2Proof.Machine.execMldacc ts a s
  | .mstacc a ts => Sys2Proof.Machine.execMstacc a ts s
  | .mstat l ts => Sys2Proof.Machine.execMstat l ts s
  | .cpy a => Sys2Proof.Machine.execCpy a s
  | .cpyx a => Sys2Proof.Machine.execCpyx a s
  | .gth a => Sys2Proof.Machine.execGth a s
  | .sct a => Sys2Proof.Machine.execSct a s
  | .semsig q sem n => Sys2Proof.Machine.execSemsig q sem n s
  | .semwait q sem n => Sys2Proof.Machine.execSemwait q sem n s
  | .semset sem n => Sys2Proof.Machine.execSemset sem n s
  | .qfence me ce cs => Sys2Proof.Machine.execQfence me ce cs s
  | .coll a => Sys2Proof.Machine.execColl a s
  | .bar level => Sys2Proof.Machine.execBar level s
  | .qplan d a => Sys2Proof.Machine.execQplan d a s
  | .qrun d a => Sys2Proof.Machine.execQrun d a s
  | .qhint d a => Sys2Proof.Machine.execQhint d a s
  | .qpin d => Sys2Proof.Machine.execQpin d s
  | .qunpin d => Sys2Proof.Machine.execQunpin d s
  | .qdrop d => Sys2Proof.Machine.execQdrop d s
  | .qstat d a => Sys2Proof.Machine.execQstat d a s
  | .statr d a => Sys2Proof.Machine.execStatr d a s
  | .statw a d mask => Sys2Proof.Machine.execStatw a d mask s
  | .fmtld a => Sys2Proof.Machine.execFmtld a s
  | .csrr d n => Sys2Proof.Machine.execCsrr d n s
  | .csrw n a => Sys2Proof.Machine.execCsrw n a s
  | .csrs n a => Sys2Proof.Machine.execCsrs n a s
  | .csrc n a => Sys2Proof.Machine.execCsrc n a s
  | .psave omitv omits => Sys2Proof.Machine.execPsave omitv omits s
  | .prest => Sys2Proof.Machine.execPrest s
  | .rdtime d => Sys2Proof.Machine.execRdtime d s
  | .performLq sl piece => Sys2Proof.Machine.execPerformLq sl piece s
  | .performSq sl => Sys2Proof.Machine.execPerformSq sl s
  | .performPath c k => Sys2Proof.Machine.execPerformPath c k s
  | .performJoin sl => Sys2Proof.Machine.execPerformJoin sl s
  | .blockEntry sl => Sys2Proof.Machine.execBlockEntry sl s
  | .passStart sl => Sys2Proof.Machine.execPassStart sl s
  | .syncRejoin x => Sys2Proof.Machine.execSyncRejoin x s
  | .preemptDiversion sl => Sys2Proof.Machine.execPreemptDiversion sl s
  | .vectorWriteLanding sl k => Sys2Proof.Machine.execVectorWriteLanding sl k s
  | .latchWriteLanding sl l => Sys2Proof.Machine.execLatchWriteLanding sl l s
  | .bankRetentionEntry sl b => Sys2Proof.Machine.execBankRetentionEntry sl b s
  | .bankWake sl b => Sys2Proof.Machine.execBankWake sl b s
  | .waittExpiry sl => Sys2Proof.Machine.execWaittExpiry sl s
  | .wgDispatch dev launch => Sys2Proof.Machine.execWgDispatch dev launch s
  | .wgRetire x => Sys2Proof.Machine.execWgRetire x s
  | .barrierComplete x level => Sys2Proof.Machine.execBarrierComplete x level s
  | .engineQueueEntry sl => Sys2Proof.Machine.execEngineQueueEntry sl s
  | .followOnRelease c => Sys2Proof.Machine.execFollowOnRelease c s
  | .powerTokenTake c => Sys2Proof.Machine.execPowerTokenTake c s
  | .powerTokenPass dev field pos => Sys2Proof.Machine.execPowerTokenPass dev field pos s
  | .mzeroPerform c => Sys2Proof.Machine.execMzeroPerform c s
  | .mmaRowCommit c => Sys2Proof.Machine.execMmaRowCommit c s
  | .mcvtRowCommit c => Sys2Proof.Machine.execMcvtRowCommit c s
  | .accRowTransfer c => Sys2Proof.Machine.execAccRowTransfer c s
  | .mstatPerform c => Sys2Proof.Machine.execMstatPerform c s
  | .ceRowMove c => Sys2Proof.Machine.execCeRowMove c s
  | .expandUnitWrite c => Sys2Proof.Machine.execExpandUnitWrite c s
  | .cycleBoundExpiry c e => Sys2Proof.Machine.execCycleBoundExpiry c e s
  | .semwaitBoundExpiry c e => Sys2Proof.Machine.execSemwaitBoundExpiry c e s
  | .semsigEnginePerform c e => Sys2Proof.Machine.execSemsigEnginePerform c e s
  | .semwaitEnginePerform c e => Sys2Proof.Machine.execSemwaitEnginePerform c e s
  | .qfenceRelease c => Sys2Proof.Machine.execQfenceRelease c s
  | .commandMigration c pos target => Sys2Proof.Machine.execCommandMigration c pos target s
  | .migratedResultApply c => Sys2Proof.Machine.execMigratedResultApply c s
  | .collTransferEmit c => Sys2Proof.Machine.execCollTransferEmit c s
  | .chunkReceive k => Sys2Proof.Machine.execChunkReceive k s
  | .reductionContribution k => Sys2Proof.Machine.execReductionContribution k s
  | .reductionResultWrite dev field slot => Sys2Proof.Machine.execReductionResultWrite dev field slot s
  | .chunkAck k => Sys2Proof.Machine.execChunkAck k s
  | .collComplete c => Sys2Proof.Machine.execCollComplete c s
  | .stgStamp k => Sys2Proof.Machine.execStgStamp k s
  | .groupDelivery k => Sys2Proof.Machine.execGroupDelivery k s
  | .groupApply dev g => Sys2Proof.Machine.execGroupApply dev g s
  | .groupGapTimeout dev g => Sys2Proof.Machine.execGroupGapTimeout dev g s
  | .groupLoad dev => Sys2Proof.Machine.execGroupLoad dev s
  | .groupJoin dev => Sys2Proof.Machine.execGroupJoin dev s
  | .groupLeave dev => Sys2Proof.Machine.execGroupLeave dev s
  | .groupResend dev => Sys2Proof.Machine.execGroupResend dev s
  | .planBreak x slot => Sys2Proof.Machine.execPlanBreak x slot s
  | .planComplete x slot => Sys2Proof.Machine.execPlanComplete x slot s
  | .shadowBankEntry x slot => Sys2Proof.Machine.execShadowBankEntry x slot s
  | .trapEntry sl => Sys2Proof.Machine.execTrapEntry sl s
  | .faultLogRecord dev => Sys2Proof.Machine.execFaultLogRecord dev s
  | .contextSave x => Sys2Proof.Machine.execContextSave x s
  | .contextRestore dev image x => Sys2Proof.Machine.execContextRestore dev image x s
  | .detLevelChange sl => Sys2Proof.Machine.execDetLevelChange sl s
  | .hostMemoryWrite dev pa bytes => Sys2Proof.Machine.execHostMemoryWrite dev pa bytes s
  | .doorbell dev q data => Sys2Proof.Machine.execDoorbell dev q data s
  | .doorbellRestart dev q data => Sys2Proof.Machine.execDoorbellRestart dev q data s
  | .packetNop dev slot => Sys2Proof.Machine.execPacketNop dev slot s
  | .packetLaunch dev slot => Sys2Proof.Machine.execPacketLaunch dev slot s
  | .packetSetlevel dev slot => Sys2Proof.Machine.execPacketSetlevel dev slot s
  | .packetArm dev slot => Sys2Proof.Machine.execPacketArm dev slot s
  | .packetWrite dev slot => Sys2Proof.Machine.execPacketWrite dev slot s
  | .readyPacketStart dev k => Sys2Proof.Machine.execReadyPacketStart dev k s
  | .sigenDecrement dev k => Sys2Proof.Machine.execSigenDecrement dev k s
  | .armTargetDecrement dev => Sys2Proof.Machine.execArmTargetDecrement dev s
  | .slotMap dev slot qid prio => Sys2Proof.Machine.execSlotMap dev slot qid prio s
  | .slotUnmap dev w => Sys2Proof.Machine.execSlotUnmap dev w s
  | .slotPreempt dev slot => Sys2Proof.Machine.execSlotPreempt dev slot s
  | .fwPolicyTick dev => Sys2Proof.Machine.execFwPolicyTick dev s
  | .watchdogT1 dev launch => Sys2Proof.Machine.execWatchdogT1 dev launch s
  | .watchdogT2 dev launch => Sys2Proof.Machine.execWatchdogT2 dev launch s
  | .watchdogT3 dev launch => Sys2Proof.Machine.execWatchdogT3 dev launch s
  | .contextSkip sl => Sys2Proof.Machine.execContextSkip sl s
  | .contextKill sl => Sys2Proof.Machine.execContextKill sl s
  | .kttSetAbsent sl => Sys2Proof.Machine.execKttSetAbsent sl s
  | .kttSetPresent sl => Sys2Proof.Machine.execKttSetPresent sl s
  | .kttMigrate sl => Sys2Proof.Machine.execKttMigrate sl s
  | .migrateLineCopy dev asid => Sys2Proof.Machine.execMigrateLineCopy dev asid s
  | .firmwareLoad dev pa => Sys2Proof.Machine.execFirmwareLoad dev pa s
  | .deviceReset dev => Sys2Proof.Machine.execDeviceReset dev s
  | .fieldReset dev field => Sys2Proof.Machine.execFieldReset dev field s
  | .fieldBringupStep dev field failedCores lostGranules => Sys2Proof.Machine.execFieldBringupStep dev field failedCores lostGranules s
  | .bringupStepTimeout dev field => Sys2Proof.Machine.execBringupStepTimeout dev field s
  | .ilimSet dev field amps => Sys2Proof.Machine.execIlimSet dev field amps s
  | .tokenCountUpdate dev field => Sys2Proof.Machine.execTokenCountUpdate dev field s
  | .thermalThrottleSet dev field temp => Sys2Proof.Machine.execThermalThrottleSet dev field temp s
  | .thermalThrottleClear dev field temp => Sys2Proof.Machine.execThermalThrottleClear dev field temp s
  | .thermalTrip dev field temp => Sys2Proof.Machine.execThermalTrip dev field temp s
  | .spareName dev data => Sys2Proof.Machine.execSpareName dev data s
  | .spareCancel dev data => Sys2Proof.Machine.execSpareCancel dev data s
  | .advsvn dev data => Sys2Proof.Machine.execAdvsvn dev data s
  | .attestationRequest dev data => Sys2Proof.Machine.execAttestationRequest dev data s
  | .attestationQuoteDone dev => Sys2Proof.Machine.execAttestationQuoteDone dev s
  | .registerWrite dev r data => Sys2Proof.Machine.execRegisterWrite dev r data s
  | .disciplineLockChange dev locked => Sys2Proof.Machine.execDisciplineLockChange dev locked s
  | .wearMonitorSample dev field margin eye corrected => Sys2Proof.Machine.execWearMonitorSample dev field margin eye corrected s

end Sys2Proof.Machine
end

