-- ==== Sys2Proof/Machine/Run.lean ====
section
/-!
DEFINITION. Machine/Run.lean: what is due when a stream's execute cursor acts (R22, R117, R119, R123, R293), the choice
among the slots of a cluster (R13, R159), the clock (R115, log 5), and the placing of one instruction for a run (log 4).
-/
namespace Sys2Proof.Machine

/-- The queues that a kill has still to stop are stopped once the fields of their descriptors are in service; at one that has failed or tripped
the write is dropped, and a record names the field (R285, R314). -/
def State.lateStops (s : State) (dev : Nat) : State :=
  (s.dev dev).stops.foldl (fun s p => match s.placePhys dev ((s.dev dev).qdesc p.1) with
    | .devMem _ _ | .beyond _ _ => s.onDev dev fun d => { d.stopQueue p.1 2 8 p.2 with stops := d.stops.erase p }
    | .dropped _ fl => (s.logFault dev 0 { name := .machineCheck, detail := BitVec.ofNat 64 fl } false 0 0).onDev dev fun d =>
      { d with stops := d.stops.erase p }
    | _ => s) s
/-- One cycle of a device's clock: its cycle counter, cr.time by a free increment that never takes it back (R115, log 6), the bounds of the
commands that have come to the heads of its engine queues (R222, R228), and the turns of its cores, which begin anew (R25, R32, R227). -/
def State.tickDev (s0 : State) (d : Nat) : State :=
  let s := s0.lateStops d
  let cyc := (s.dev d).cycle
  let fresh (k : Core) : Core :=
    { k.startClocks cyc with turns := [], share := none, semRot := (k.semRot.2, k.semRot.2), planRot := (k.planRot.2, k.planRot.2) }
  let s1 := { s with cores := s.cores.map fun (p : CoreId × Core) => if p.1.dev == d then (p.1, fresh p.2) else p }
  s1.onDev d fun v => { v with cycle := v.cycle + 1, time := v.time + BitVec.ofNat 64 (Config.timeStep s.clock % 2 ^ 63) }

/-- The slots of a cluster. -/
def clusterOf (id : SlotId) : List SlotId := (upTo 4).map fun k => ⟨id.core, id.cl, k⟩

/-- The cluster of a slot has issued in this cycle of its device's clock: it issues at most one instruction in a cycle (R13). -/
def State.clusterBusy (s : State) (id : SlotId) : Bool :=
  ((s.core id.core).issued[id.cl % 4]'(Nat.mod_lt _ (by decide))) == (s.dev id.core.dev).cycle + 1
/-- Account for an issue of i by the slot `id`: its cluster issues nothing more in this cycle, and its rotation starts after this slot
(R13); the slot's last issue is now (R186); and the slots of the cluster that have yielded are one issue cycle nearer to their turn, but
for the YIELD itself (R159). -/
def State.issued (s : State) (id : SlotId) (i : Instr) : State :=
  let cyc := (s.dev id.core.dev).cycle
  let s0 := s.onCore id.core fun k =>
    { k with issued := k.issued.set (id.cl % 4) (cyc + 1) (Nat.mod_lt _ (by decide))
             last := k.last.set (id.cl % 4) id.sl (Nat.mod_lt _ (by decide)) }
  let s1 := (clusterOf id).foldl (fun s k =>
    if !(k == id && i == .yield) && (s.strm k).yield != 0 then s.onStrm k fun st => { st with yield := st.yield - 1 } else s) s0
  if (s1.strm id).present then s1.onStrm id fun st => { st with idle := cyc } else s1

/-! ### Interlocked results (R257) -/

/-- The interlocked destination of an instruction, and the cycles after its issue in which its readers wait (R257: column I). -/
def Instr.interlock : Instr → Option (Nat × Nat)
  | .mul _ d _ _ => some (d.toNat, 3)
  | .mulh d _ _ | .mulhu d _ _ => some (d.toNat, 4)
  | .div i32 d _ _ | .divu i32 d _ _ | .rem i32 d _ _ | .remu i32 d _ _ => some (d.toNat, if i32 then 12 else 20)
  | .csrr d _ | .rdtime d | .pcnt d _ => some (d.toNat, 2)
  | .vext _ d _ _ => some (d.toNat, 3)
  | .twr _ _ t _ _ => some (32 + t.toNat, 2)
  | .ld _ _ _ _ d | .ldUnsigned _ _ _ _ d | .ldDCompact d _ _ => some (d.toNat, 1)
  | .st _ _ _ _ _ | .stv _ _ _ _ _ => none
  | i => (Instr.writes i).findSome? fun r => match r with
    | .s d => some (d.toNat, 1)
    | .v _ | .p _ | .lc _ | .rrb => none
/-- The scalar that an instruction writes and does not read stands first among those that it names. -/
def Instr.writesFirst : Instr → Bool
  | .add _ _ _ _ | .sub _ _ _ _ | .sll _ _ _ _ | .srl _ _ _ _ | .sra _ _ _ _ | .adds _ _ _ _ | .subs _ _ _ _
  | .mul _ _ _ _ | .div _ _ _ _ | .divu _ _ _ _ | .rem _ _ _ _ | .remu _ _ _ _ => true
  | .and _ _ _ | .or _ _ _ | .xor _ _ _ | .andn _ _ _ | .mulh _ _ _ | .mulhu _ _ _ => true
  | .addi _ _ _ | .andi _ _ _ | .ori _ _ _ | .xori _ _ _ | .slli _ _ _ | .srli _ _ _ | .srai _ _ _ | .addiI32 _ _ _ => true
  | .lui _ _ | .apc _ _ | .liCompact _ _ | .mvCompact _ _ | .ldDCompact _ _ _ => true
  | .clz _ _ | .ctz _ _ | .cpop _ _ | .sextb _ _ | .sexth _ _ | .sextw _ _ | .zextw _ _ => true
  | .min _ _ _ | .max _ _ _ | .minu _ _ _ | .maxu _ _ _ | .slt _ _ _ | .sltu _ _ _ | .seq _ _ _ | .sne _ _ _
  | .csel _ _ _ _ => true
  | .gseq _ _ | .vext _ _ _ _ | .movlScalar _ _ | .pcnt _ _ | .qplan _ _ | .csrr _ _ | .rdtime _ => true
  | .amo _ _ _ _ _ _ _ | .swap _ _ _ _ _ _ => true
  | _ => false
/-- The interlocked registers that an instruction reads: scalars, and from 32 on tile registers. -/
def Instr.reads (i : Instr) : List Nat :=
  match i with
  | .ld _ _ _ base _ | .ldUnsigned _ _ _ base _ => [base.toNat]
  | .trd _ _ _ t _ => [32 + t.toNat]
  | _ => ((Instr.scalars i).drop (if Instr.writesFirst i then 1 else 0)).map BitVec.toNat
/-- An instruction reads a register whose result is interlocked still: it waits (R257). -/
def Stream.interlocked (st : Stream) (cyc : Nat) (i : Instr) : Bool :=
  st.busy.any fun b => decide (cyc < b.2) && (Instr.reads i).contains b.1
/-- Account for the interlocked destination of an instruction that issues in the cycle `cyc`. -/
def Stream.interlock (st : Stream) (cyc : Nat) (i : Instr) : Stream :=
  let rest := st.busy.filter fun b => decide (cyc < b.2)
  match Instr.interlock i with
  | none => if st.busy.isEmpty then st else { st with busy := rest }
  | some (r, n) => { st with busy := (rest.filter fun b => b.1 != r) ++ [(r, cyc + n)] }

/-! ### What issues (R13, R64) -/

/-- The instruction at the execute cursor has issued and has still to complete: its gate stands in the queues, its command or its action on
another agent is under way, it holds its record, or it waits for what it has begun. -/
def Stream.underWay (st : Stream) : Bool :=
  st.gated || st.engIssue.isSome || st.csrReq != .none || st.held.isSome || (match st.wait with
    | .none | .other | .sync => false
    | .waitt _ | .bar _ | .join | .gacq _ _ | .sem _ _ | .handBack => true)
/-- The attempt that led from s to s' has issued the instruction: the stream has gone on, has begun what the instruction has still to
complete, or has taken its fault. What is under way already takes no issue slot of its cluster when it completes (log 71). -/
def didIssue (s s' : State) : Bool :=
  let a := s.st
  let b := s'.strm s.cur
  !a.underWay && (b.seq != a.seq || !b.present || b.priv != a.priv || b.underWay)
/-- The instruction i of the current stream has been attempted: where it has issued, that is accounted for, and where it has not faulted its
destination is interlocked; it is attempted anew later where it waits (log 7). -/
def noteIssue (i : Instr) (s s' : State) : State :=
  if didIssue s s' then
    let s1 := s'.issued s.cur i
    let b := s1.strm s.cur
    if b.present && b.priv == s.st.priv then s1.onStrm s.cur fun st => st.interlock (s.dev s.cdev).cycle i else s1
  else s'

/-- A step of the machine that no stream executes: it has no encoding. -/
def isEvent (i : Instr) : Bool := (encode i).isEmpty

/-- What is due at an execute cursor. -/
inductive Due where
  | idle
  | event (i : Instr) (s : State)
  | instr (i : Instr) (s : State)
  | stop (o : Out)

/-- Fetch and decode the instruction at the execute cursor of the current stream: an illegal one faults (R117). -/
def State.runFetch (s : State) : Due :=
  match s.fetchInstr s.cur s.st.ex with
  | .wait => .idle
  | .bad f => .stop (s.raiseRec f)
  | .ok s1 none => .stop (s1.raise .illegalOp)
  | .ok s1 (some (i, _)) => .instr i s1

/-- The banks that an instruction has named are awake when the stream acts again (R186). -/
def Stream.awake (st : Stream) : Stream := { st with ret := st.ret &&& ~~~st.wake, wake := 0 }

/-- What is due at the execute cursor of the stream `id`: a pending fault, a block or a pass to begin, a diversion, or the
instruction at the cursor. -/
def State.runDue (s0 : State) (id : SlotId) : Due :=
  if !s0.canAct id then .idle
  else
    let s := ({ s0 with cur := id, side := .execute }).onStrm id fun st => st.awake.landDue (s0.dev id.core.dev).cycle
    let st := s.st
    if st.priv == .u && !st.pendFaults.isEmpty then .event (.trapEntry id) s
    else if st.engIssue.isSome || st.csrReq != .none then .idle
    else if st.ex.atHdr then
      if s.diverts id then .event (.preemptDiversion id) s else .event (.blockEntry id) s
    else if st.ex.atPassEnd then
      if s.diverts id then .event (.preemptDiversion id) s else .event (.passStart id) s
    else s.runFetch

/-! ### The choice among slots (R13, R22, R159)

`ex` is what an instruction does: `exec` of Dispatch.lean. -/

/-- What an attempt at the instruction i of the current stream does: it waits for a scalar that an atomic still writes (R137) or whose result
is interlocked (R257), and a stub may not execute every instruction (R263). -/
def State.attempt (s : State) (ex : Instr → State → Out) (i : Instr) : Out :=
  if s.st.amoHold i || s.st.interlocked (s.dev s.cdev).cycle i then .next (s.waits .none)
  else if s.stubStops i then s.raise .stubOp
  else ex i s
/-- The code line of the execute cursor, and the next where a word lies across both, stand in the instruction cache (R122). -/
def State.lineHeld (s : State) (id : SlotId) : Bool :=
  let pc := (s.strm id).ex.pc.toNat
  let held (a : Nat) : Bool := (fget? (s.core id.core).icache ((s.ctx (s.xidOf id)).asid.toNat, a / 128)).isSome
  held pc && held (pc + 2)
/-- A slot would issue now: its cluster has not issued in this cycle, its code is there, and an attempt at its instruction issues. -/
def State.issuesNow (s : State) (ex : Instr → State → Out) (id : SlotId) : Bool :=
  !s.clusterBusy id && (match s.runDue id with
    | .instr i s1 => s.lineHeld id && (match s1.attempt ex i with
      | .next t => didIssue s1 t
      | .fault _ | .refused _ => false)
    | .idle | .event _ _ | .stop _ => false)
/-- A main stream issues in lock step: its WG is in lock step, and it stands inside a block, in U and in no stub (R22, R293). -/
def State.lockMain (s : State) (id : SlotId) : Bool :=
  let st := s.strm id
  !isTail id && (s.ctx (s.xidOf id)).lockstep && st.present && st.status != .halted && st.status != .saved && st.priv == .u &&
    st.stub == .none && !st.ex.atHdr
/-- The main streams that issue together with a slot: it alone, or those of its WG that issue in lock step (R22). -/
def State.together (s : State) (id : SlotId) : List SlotId :=
  if s.lockMain id then (mainsOf (s.xidOf id)).filter s.lockMain else [id]
/-- The slot is ready in the sense of R13: it would issue, with all that issue together with it, and none of them has yielded to another
slot of its cluster that is ready and has not (R159). The first argument bounds how far that is followed through the other slots. -/
def State.readyIn (s : State) (ex : Instr → State → Out) : Nat → SlotId → Bool
  | 0, id => (s.together id).all (s.issuesNow ex)
  | n + 1, id => (s.together id).all fun o => s.issuesNow ex o &&
      !((s.strm o).yield != 0 && (clusterOf o).any fun k => k != o && (s.strm k).yield == 0 && s.readyIn ex n k)
/-- The slot is ready: two contexts have main streams in lock step at most. -/
def State.ready (s : State) (ex : Instr → State → Out) (id : SlotId) : Bool := s.readyIn ex 2 id
/-- The slot has yielded, and another slot of its cluster that has not is ready: it is passed over (R159). -/
def State.passedOver (s : State) (ex : Instr → State → Out) (id : SlotId) : Bool :=
  (s.strm id).yield != 0 && (clusterOf id).any fun k => k != id && (s.strm k).yield == 0 && s.readyIn ex 1 k
/-- In a rotation that starts after the number a, the slot number m comes before n. -/
def sooner (a m n : Nat) : Bool := decide ((m + 7 - a % 4) % 4 < (n + 7 - a % 4) % 4)
/-- Some main streams of a core are in lock step: its clusters share one rotation (R13). A stream that has halted or is saved is not. -/
def State.shares (s : State) (c : CoreId) : Bool :=
  [0, 1].any fun n => (s.ctx ⟨c, n⟩).lockstep && (s.ctx ⟨c, n⟩).live.isSome && (mainsOf ⟨c, n⟩).any fun id =>
    let st := s.strm id
    st.present && st.status != .halted && st.status != .saved
/-- The number that the shared rotation of a core takes in this cycle, the slot `id` being ready: the first, after the number it took last,
for which some cluster has a ready slot (R13). -/
def State.shareNo (s : State) (ex : Instr → State → Out) (id : SlotId) : Nat :=
  let k := s.core id.core
  match k.share with
  | some n => n
  | none => (((upTo 4).map fun j => (k.lastN + 1 + j) % 4).find? fun n =>
      n == id.sl || (slotsOf id.core).any fun o => o.sl == n && s.ready ex o).getD id.sl
/-- It is the turn of a slot that would issue: its cluster has not issued in this cycle, and no ready slot comes before it in the rotation of
its cluster, or in the one that the clusters share in lock step (R13). -/
def State.turnOf (s : State) (ex : Instr → State → Out) (id : SlotId) : Bool :=
  let k := s.core id.core
  let other (p : SlotId → Bool) : Bool := (clusterOf id).any fun o => o != id && p o && s.ready ex o
  !s.clusterBusy id && ((s.together id).all fun o => (o == id || s.issuesNow ex o) && !s.passedOver ex o) &&
    (if s.shares id.core then
      let n := s.shareNo ex id
      id.sl == n || (!s.lockMain id && !other fun o => o.sl == n || (sooner n o.sl id.sl && !s.lockMain o))
    else !other fun o => sooner (k.last[id.cl % 4]'(Nat.mod_lt _ (by decide))) o.sl id.sl)

/-- The stream `id` attempts its instruction, and an issue is accounted for. -/
def State.runOne (s : State) (ex : Instr → State → Out) (id : SlotId) : Out :=
  match s.runDue id with
  | .instr i s1 => (match s1.attempt ex i with
    | .next t => .next (noteIssue i s1 t)
    | .fault f => .fault f
    | .refused r => .refused r)
  | .idle | .event _ _ | .stop _ => .next s
/-- The RELC of a slot would take the last free tail slot of its cluster now (R151). -/
def State.takesTail (s : State) (ex : Instr → State → Out) (id : SlotId) : Bool :=
  match s.runDue id with
  | .instr .relc s1 => (s1.st.underWay || !s.clusterBusy id) && (s.freeTail id.core id.cl).isSome && (match s1.attempt ex .relc with
    | .next t => (t.freeTail id.core id.cl).isNone
    | .fault _ | .refused _ => false)
  | .instr _ _ | .idle | .event _ _ | .stop _ => false
/-- The last free tail slot of its cluster goes to the RELC of another slot in this cycle: that comes first in the rotation that starts after
the slot that took one last (R25, R161). -/
def State.losesTail (s : State) (ex : Instr → State → Out) (id : SlotId) : Bool :=
  s.takesTail ex id && (clusterOf id).any fun o =>
    o != id && sooner ((s.core id.core).lastRelc[id.cl % 4]'(Nat.mod_lt _ (by decide))) o.sl id.sl && s.takesTail ex o
/-- What a slot does to a semaphore in the order of R227: the streams of a long word take their steps in that order. -/
def State.semPlace (s : State) (id : SlotId) : Nat :=
  let base := (s.core id.core).semRot.1
  match s.runDue id with
  | .instr (.semset _ _) _ => (SemStep.set id).rank base
  | .instr (.semsig .stream _ _) _ => (SemStep.sigStream id).rank base
  | .instr (.semwait .stream _ _) _ => (SemStep.waitStream id).rank base
  | .instr _ _ | .idle | .event _ _ | .stop _ => 0
/-- Put a slot among others by its place. -/
def insertBy (f : SlotId → Nat) (x : SlotId) : List SlotId → List SlotId
  | [] => [x]
  | y :: r => if f x < f y then x :: y :: r else y :: insertBy f x r
/-- The streams of a list attempt their instructions in one step. -/
def State.runAll (s : State) (ex : Instr → State → Out) : List SlotId → Out
  | [] => .next s
  | id :: r => match s.runOne ex id with
    | .next t => t.runAll ex r
    | .fault f => .fault f
    | .refused e => .refused e
/-- The shared rotation of a core in lock step has taken its number for this cycle, with the issue by a slot that led from s to u (R13). -/
def State.noteShare (s : State) (ex : Instr → State → Out) (id : SlotId) (u : State) : State :=
  if s.shares id.core then
    let n := s.shareNo ex id
    u.onCore id.core fun k => { k with share := some n, lastN := n }
  else u
/-- The instruction i of the slot `id` is attempted in s1, the state in which it has been fetched from s: what does not issue is done; what
issues, its fault included, is done when its turn has come, in lock step with its whole long word (R13, R22); otherwise, and while the last
tail slot goes to another's RELC (R161), only its code line has been read. -/
def State.arbitrate (s s1 : State) (ex : Instr → State → Out) (id : SlotId) (i : Instr) : Out :=
  match s1.attempt ex i with
  | .fault f => .fault f
  | .refused r => .refused r
  | .next t =>
    let later : Out := .next (s.onCore id.core fun k => { k with icache := (s1.core id.core).icache })
    if i == .relc && s.losesTail ex id then later
    else if !didIssue s1 t then .next t
    else if !s.turnOf ex id then later
    else
      match s.together id with
      | [_] => .next (s.noteShare ex id (noteIssue i s1 t))
      | ids => if ids.any (s.losesTail ex) then later else match s.runAll ex (ids.foldl (fun l o => insertBy s.semPlace o l) []) with
        | .next u => .next (s.noteShare ex id u)
        | .fault f => .fault f
        | .refused r => .refused r
/-- A step of a stream's execute cursor: what is due at it. -/
def State.runWith (s : State) (ex : Instr → State → Out) (id : SlotId) : Out :=
  match s.runDue id with
  | .idle => .next s
  | .event i s1 => ex i s1
  | .instr i s1 => s.arbitrate s1 ex id i
  | .stop o => o

/-! ### Granules of records and operands (R71) -/

/-- The records that the instruction i at the execute cursor of the current stream reads in the state as it stands: the right, the address,
and the length. -/
def State.recWants (s : State) (i : Instr) : List (PermEng × Word × Nat) :=
  let st := s.st
  let plan (a : BitVec 5) (n : Nat) : List (PermEng × Word × Nat) := if st.held.isSome then [] else [(.planRead, s.rs a, n)]
  match i with
  | .mma _ _ _ a b _ | .mmas _ _ _ a b _ => [(.load, s.rs a, 64), (.load, s.rs b, 64)]
  | .mcvt _ _ a _ | .mldacc _ a | .mstacc a _ | .cpy a | .cpyx a | .gth a | .sct a | .fmtld a => [(.load, s.rs a, 64)]
  | .coll a => [(.load, s.rs a, 128)]
  | .qplan _ a => plan a 704
  | .qrun _ a => plan a 144
  | .qhint _ a | .qstat _ a => plan a 64
  | .relc =>
    if st.wait == .handBack || 4 ≤ st.tails.length || st.rasCount == 0#5 || st.held.isSome || (s.joinHold none).isSome then []
    else [(.load, st.rs 29, 64)]
  | .ret =>
    let e := st.getRas (st.rasCount.toNat - 1)
    if st.rasCount == 0#5 || st.liveAbove st.depth || !e.defer || (s.joinHold (some .frame)).isSome then []
    else match st.deferAt (st.depth - 1) with
      | none => []
      | some fb => [(.load, fb + 0x40, 1216)]
  | _ => []
/-- The instruction at an execute cursor reads granule k of its record in a step of its own (R71, log 8). -/
def State.readGranule (s : State) (id : SlotId) (k : Nat) : State :=
  match s.runDue id with
  | .instr i s1 =>
    if s1.st.amoHold i || s1.st.interlocked (s1.dev s1.cdev).cycle i || s1.stubStops i then s
    else match (s1.recWants i).find? fun w => decide (w.2.1.toNat / 16 ≤ k) && decide (k < (w.2.1.toNat + w.2.2 + 15) / 16) with
      | none => s
      | some (e, va, n) => s1.recPiece e va n k
  | .idle | .event _ _ | .stop _ => s

/-! ### The firmware core's DMA (R288) -/

/-- The firmware core writes bytes by its DMA: inside the window that the boot ROM has set, which covers no byte of the save region (R297),
they are written; another address is not accessed, and the attempt is recorded. -/
def State.fwWrite (s : State) (dev pa : Nat) (bs : List Byte) : Out :=
  let d := s.dev dev
  match d.dma with
  | none => .next s
  | some (lo, n) =>
    if !d.fwRunning || bs.isEmpty then .next s
    else if decide (lo ≤ pa) && decide (pa + bs.length ≤ lo + n) && decide (pa + bs.length ≤ 2 ^ 63) &&
        (upTo bs.length).all (fun k => !d.isProtected (pa + k)) then
      s.cpAccess dev [(pa, bs.length)] fun s => .next (s.onDev dev fun d => d.pwrite pa bs)
    else .next (s.onDev dev fun d => { d with dmaRefused := d.dmaRefused ++ [pa] })

/-! ### Placing one instruction (log 4) -/

/-- The slot of the placed instruction. -/
def placeSlot : SlotId := ⟨⟨0, 0, 0⟩, 0, 0⟩
/-- The context of the placed instruction. -/
def placeCtx : CtxId := ⟨⟨0, 0, 0⟩, 0⟩
/-- The virtual address of the placed block. -/
def placeVa : Nat := 0x0000020000000000
/-- The physical address of the placed block. -/
def placePa : Nat := 0x10000

/-- The launch to which the placed instruction belongs: exclusive, one WG, ASID 1, level D1. -/
def placeLaunch (codelen : Nat) : Launch :=
  { q := 0, idx := 0, asid := 1, level := 1, wgcount := 1, coop := false, excl := true, hzdEn := false, hzdMode := false,
    fields := 1, podtag := 0, codeva := placeVa, codelen := codelen, datava := 0, barlvl := 0, vbanks := 4,
    entry := [some 0, none, none, none], drains := [], ncores := 40, nextWg := 1, begun := true, running := [(0, placeCtx)] }

/-- A machine that is about to fetch the instruction whose bits are w at an execute cursor inside a block of one pass. -/
def placeWord (s : State) (nb w : Nat) : State :=
  let w := w % 2 ^ nb
  let len := 1 + w % 2
  let code := natBytes 4 (512 + len) ++ natBytes (2 * len) w
  let va : Word := BitVec.ofNat 64 placeVa
  let fin := va + BitVec.ofNat 64 (4 + 2 * len)
  let cur : Cursor := { pc := va + 4, hdr := va, fin := fin, rem := 1 }
  let kt : Ktt := { entries := [{ va := placeVa, pa := placePa, state := 1, layout := 0, log2 := 16, permMask := 1 }] }
  let s1 := s.onDev 0 fun v =>
    { v with mem := mwrite v.mem placePa code, ktts := fset v.ktts 1 kt, launches := fset v.launches 0 (placeLaunch code.length),
             fields := Vector.replicate 8 { state := 2, ncore := 40, coreMap := (upTo 40).map fun i => (i, i) } }
  let s2 := s1.onCtx placeCtx fun c =>
    { c with live := some (0, 0), asid := 1, codebase := hiBits va, codelim := hiBits fin, preempt := false, lockstep := false }
  let s3 := (mainsOf placeCtx).foldl (fun s id => s.setStrm id { status := .halted }) s2
  let s4 := s3.setStrm placeSlot { status := .running, ex := cur, acc := { cur := cur } }
  let s5 := s4.onCore ⟨0, 0, 0⟩ fun c => { c with icache := [], fenced := false, issued := Vector.replicate 4 0, share := none }
  { s5 with cur := placeSlot, side := .execute, agenda := [.run placeSlot] }

end Sys2Proof.Machine
end

