-- ==== Sys2Proof/Machine/Step.lean ====
section
/-!
DEFINITION. Machine/Step.lean: one step of the machine: the next move of the agenda, or of the free choice, is taken.
-/
namespace Sys2Proof.Machine

/-- A step of a stream's execute cursor: what Run.lean finds to be due, each instruction doing what `exec` says. -/
def State.runStep (s : State) (id : SlotId) : Out := s.runWith exec id

/-- Take one move. -/
def State.move (s : State) : Move → Out
  | .run id => s.runStep id
  | .access id => .next ({ s with cur := id, side := .access }.accessStep id)
  | .event i => if isEvent i then exec i s else .next s
  | .tick d => .next (s.tickDev d)
  | .recGranule id k => .next (s.readGranule id k)
  | .engGranule c e g => .next (s.engGranule c e g)
  | .fwDma d pa bytes => s.fwWrite d pa bytes
  | .evictGlc c line => .next (s.onCore c fun k => { k with glc := fdel k.glc line })
  | .evictIcache c asid line => .next (s.onCore c fun k => { k with icache := fdel k.icache (asid, line) })

/-- One step: the head of the agenda, or else the move that the machine chooses freely (R65, log 3). -/
def step (s : State) : Host.Outcome State Fault Refusal :=
  let s1 := { s with clock := s.clock + 1 }
  match s.agenda with
  | m :: r => { s1 with agenda := r }.move m
  | [] => s1.move (Config.nextMove s.clock)

/-- Place an instruction where the next step runs it (log 4): a live WG of an exclusive launch on device 0, field 0, core 0,
its code mapped, the stream inside a block of one pass whose only instruction it is. -/
def State.withFetchWord (s : State) (nbits w : Nat) : State := placeWord s nbits w

end Sys2Proof.Machine
end

