-- ==== Sys2Proof/Laws/Coding.lean ====
section
/-!
SUPPORT. Laws/Coding.lean: what the fields of an encoded word are, layout by layout (R124), so that the round trip of each
instruction is a rewriting.
-/
namespace Sys2Proof

set_option linter.unusedSimpArgs false
set_option Elab.async false

theorem append_toNat {a b : Nat} (x : BitVec a) (y : BitVec b) : (x ++ y).toNat = x.toNat * 2 ^ b + y.toNat := by
  rw [BitVec.toNat_append, Nat.shiftLeft_eq, Nat.mul_comm, ← Nat.two_pow_add_eq_or_of_lt y.isLt]

theorem fld_of {w : BitVec 32} {lo len : Nat} {x : BitVec len} (h : w.toNat / 2 ^ lo % 2 ^ len = x.toNat) : fld w lo len = x := by
  apply BitVec.eq_of_toNat_eq
  rw [fld, BitVec.extractLsb'_toNat, Nat.shiftRight_eq_div_pow, h]

theorem fbit_of {w : BitVec 32} {i : Nat} {c : Bool} (h : decide (w.toNat / 2 ^ i % 2 = 1) = c) : fbit w i = c := by
  rw [← h, fbit, BitVec.getLsbD, Nat.testBit_eq_decide_div_mod_eq]

theorem bit_of {n : Nat} (x : BitVec n) (i : Nat) : x.getLsbD i = decide (x.toNat / 2 ^ i % 2 = 1) := by
  rw [BitVec.getLsbD, Nat.testBit_eq_decide_div_mod_eq]

theorem rz_of {w : BitVec 32} {lo len : Nat} {c : Bool} (h : decide (w.toNat / 2 ^ lo % 2 ^ len = 0) = c) : rz w lo len = c := by
  rw [← h, rz, Bool.beq_eq_decide_eq, decide_eq_decide, ← BitVec.toNat_inj, BitVec.extractLsb'_toNat, Nat.shiftRight_eq_div_pow]
  simp

theorem extract_of {n : Nat} (x : BitVec n) (lo len : Nat) : (x.extractLsb' lo len).toNat = x.toNat / 2 ^ lo % 2 ^ len := by
  rw [BitVec.extractLsb'_toNat, Nat.shiftRight_eq_div_pow]

theorem beq_zero_of {n : Nat} (x : BitVec n) : (x == 0#n) = decide (x.toNat = 0) := by
  rw [Bool.beq_eq_decide_eq, decide_eq_decide, ← BitVec.toNat_inj]
  simp

/-! ### wWR -/

theorem wWR_toNat (maj : BitVec 6) (md fn d a b : BitVec 5) :
    BitVec.toNat (w := 32) (wWR maj md fn d a b) = (maj).toNat * 2 + (d).toNat * 128 + (a).toNat * 4096 + (b).toNat * 131072 + (fn).toNat * 4194304 + (md).toNat * 134217728 + 1 := by
  refine (append_toNat (md ++ fn ++ b ++ a ++ d ++ maj) 1#1).trans ?_
  simp only [append_toNat, BitVec.toNat_ofNat]
  omega

@[simp] theorem wWR_b0 (maj : BitVec 6) (md fn d a b : BitVec 5) : fbit (wWR maj md fn d a b) 0 = true := by
  refine fbit_of ?_
  rw [wWR_toNat]
  simp only [decide_eq_true_eq, decide_eq_false_iff_not]
  omega
@[simp] theorem wWR_f1_6 (maj : BitVec 6) (md fn d a b : BitVec 5) : fld (wWR maj md fn d a b) 1 6 = maj := by
  refine fld_of ?_
  rw [wWR_toNat]
  omega
@[simp] theorem wWR_f7_5 (maj : BitVec 6) (md fn d a b : BitVec 5) : fld (wWR maj md fn d a b) 7 5 = d := by
  refine fld_of ?_
  rw [wWR_toNat]
  omega
@[simp] theorem wWR_f12_5 (maj : BitVec 6) (md fn d a b : BitVec 5) : fld (wWR maj md fn d a b) 12 5 = a := by
  refine fld_of ?_
  rw [wWR_toNat]
  omega
@[simp] theorem wWR_f17_5 (maj : BitVec 6) (md fn d a b : BitVec 5) : fld (wWR maj md fn d a b) 17 5 = b := by
  refine fld_of ?_
  rw [wWR_toNat]
  omega
@[simp] theorem wWR_f22_5 (maj : BitVec 6) (md fn d a b : BitVec 5) : fld (wWR maj md fn d a b) 22 5 = fn := by
  refine fld_of ?_
  rw [wWR_toNat]
  omega
@[simp] theorem wWR_f27_5 (maj : BitVec 6) (md fn d a b : BitVec 5) : fld (wWR maj md fn d a b) 27 5 = md := by
  refine fld_of ?_
  rw [wWR_toNat]
  omega
@[simp] theorem wWR_z27_5 (maj : BitVec 6) (md fn d a b : BitVec 5) : rz (wWR maj md fn d a b) 27 5 = ((md == 0#5)) := by
  refine rz_of ?_
  rw [wWR_toNat]
  simp only [beq_zero_of, extract_of, BitVec.toNat_ofNat, ← Bool.decide_and]
  rw [decide_eq_decide]
  omega
@[simp] theorem wWR_z28_4 (maj : BitVec 6) (md fn d a b : BitVec 5) : rz (wWR maj md fn d a b) 28 4 = ((md.extractLsb' 1 4 == 0#4)) := by
  refine rz_of ?_
  rw [wWR_toNat]
  simp only [beq_zero_of, extract_of, BitVec.toNat_ofNat, ← Bool.decide_and]
  rw [decide_eq_decide]
  omega
@[simp] theorem wWR_z17_5 (maj : BitVec 6) (md fn d a b : BitVec 5) : rz (wWR maj md fn d a b) 17 5 = ((b == 0#5)) := by
  refine rz_of ?_
  rw [wWR_toNat]
  simp only [beq_zero_of, extract_of, BitVec.toNat_ofNat, ← Bool.decide_and]
  rw [decide_eq_decide]
  omega
@[simp] theorem wWR_b27 (maj : BitVec 6) (md fn d a b : BitVec 5) : fbit (wWR maj md fn d a b) 27 = (md).getLsbD 0 := by
  refine fbit_of ?_
  rw [wWR_toNat, bit_of, decide_eq_decide]
  omega

/-! ### wWIs -/

theorem wWIs_toNat (fn : BitVec 3) (d a : BitVec 5) (imm : BitVec 12) :
    BitVec.toNat (w := 32) (wWIs fn d a imm) = (d).toNat * 128 + (a).toNat * 4096 + (fn).toNat * 131072 + (imm).toNat * 1048576 + 7 := by
  refine (append_toNat (imm ++ fn ++ a ++ d ++ 3#6) 1#1).trans ?_
  simp only [append_toNat, BitVec.toNat_ofNat]
  omega

@[simp] theorem wWIs_b0 (fn : BitVec 3) (d a : BitVec 5) (imm : BitVec 12) : fbit (wWIs fn d a imm) 0 = true := by
  refine fbit_of ?_
  rw [wWIs_toNat]
  simp only [decide_eq_true_eq, decide_eq_false_iff_not]
  omega
@[simp] theorem wWIs_f1_6 (fn : BitVec 3) (d a : BitVec 5) (imm : BitVec 12) : fld (wWIs fn d a imm) 1 6 = 3#6 := by
  refine fld_of ?_
  rw [wWIs_toNat]
  have := (0#1).isLt
  simp only [BitVec.toNat_ofNat]
  omega
@[simp] theorem wWIs_f7_5 (fn : BitVec 3) (d a : BitVec 5) (imm : BitVec 12) : fld (wWIs fn d a imm) 7 5 = d := by
  refine fld_of ?_
  rw [wWIs_toNat]
  omega
@[simp] theorem wWIs_f12_5 (fn : BitVec 3) (d a : BitVec 5) (imm : BitVec 12) : fld (wWIs fn d a imm) 12 5 = a := by
  refine fld_of ?_
  rw [wWIs_toNat]
  omega
@[simp] theorem wWIs_f17_3 (fn : BitVec 3) (d a : BitVec 5) (imm : BitVec 12) : fld (wWIs fn d a imm) 17 3 = fn := by
  refine fld_of ?_
  rw [wWIs_toNat]
  omega
@[simp] theorem wWIs_f20_12 (fn : BitVec 3) (d a : BitVec 5) (imm : BitVec 12) : fld (wWIs fn d a imm) 20 12 = imm := by
  refine fld_of ?_
  rw [wWIs_toNat]
  omega
@[simp] theorem wWIs_f20_6 (fn : BitVec 3) (d a : BitVec 5) (imm : BitVec 12) : fld (wWIs fn d a imm) 20 6 = imm.extractLsb' 0 6 := by
  refine fld_of ?_
  rw [wWIs_toNat, extract_of]
  omega
@[simp] theorem wWIs_z26_6 (fn : BitVec 3) (d a : BitVec 5) (imm : BitVec 12) : rz (wWIs fn d a imm) 26 6 = ((imm.extractLsb' 6 6 == 0#6)) := by
  refine rz_of ?_
  rw [wWIs_toNat]
  simp only [beq_zero_of, extract_of, BitVec.toNat_ofNat, ← Bool.decide_and]
  rw [decide_eq_decide]
  omega

/-! ### wWM -/

theorem wWM_toNat (maj : BitVec 6) (fn am : BitVec 2) (sz : BitVec 3) (off : BitVec 7) (base : BitVec 5) (t : BitVec 6) :
    BitVec.toNat (w := 32) (wWM maj fn am sz off base t) = (maj).toNat * 2 + (t).toNat * 128 + (base).toNat * 8192 + (sz).toNat * 262144 + (am).toNat * 2097152 + (fn).toNat * 8388608 + (off).toNat * 33554432 + 1 := by
  refine (append_toNat (off ++ fn ++ am ++ sz ++ base ++ t ++ maj) 1#1).trans ?_
  simp only [append_toNat, BitVec.toNat_ofNat]
  omega

@[simp] theorem wWM_b0 (maj : BitVec 6) (fn am : BitVec 2) (sz : BitVec 3) (off : BitVec 7) (base : BitVec 5) (t : BitVec 6) : fbit (wWM maj fn am sz off base t) 0 = true := by
  refine fbit_of ?_
  rw [wWM_toNat]
  simp only [decide_eq_true_eq, decide_eq_false_iff_not]
  omega
@[simp] theorem wWM_f1_6 (maj : BitVec 6) (fn am : BitVec 2) (sz : BitVec 3) (off : BitVec 7) (base : BitVec 5) (t : BitVec 6) : fld (wWM maj fn am sz off base t) 1 6 = maj := by
  refine fld_of ?_
  rw [wWM_toNat]
  omega
@[simp] theorem wWM_f7_5 (maj : BitVec 6) (fn am : BitVec 2) (sz : BitVec 3) (off : BitVec 7) (base : BitVec 5) (t : BitVec 6) : fld (wWM maj fn am sz off base t) 7 5 = t.extractLsb' 0 5 := by
  refine fld_of ?_
  rw [wWM_toNat, extract_of]
  omega
@[simp] theorem wWM_f7_6 (maj : BitVec 6) (fn am : BitVec 2) (sz : BitVec 3) (off : BitVec 7) (base : BitVec 5) (t : BitVec 6) : fld (wWM maj fn am sz off base t) 7 6 = t := by
  refine fld_of ?_
  rw [wWM_toNat]
  omega
@[simp] theorem wWM_f7_2 (maj : BitVec 6) (fn am : BitVec 2) (sz : BitVec 3) (off : BitVec 7) (base : BitVec 5) (t : BitVec 6) : fld (wWM maj fn am sz off base t) 7 2 = t.extractLsb' 0 2 := by
  refine fld_of ?_
  rw [wWM_toNat, extract_of]
  omega
@[simp] theorem wWM_z12_1 (maj : BitVec 6) (fn am : BitVec 2) (sz : BitVec 3) (off : BitVec 7) (base : BitVec 5) (t : BitVec 6) : rz (wWM maj fn am sz off base t) 12 1 = ((t.extractLsb' 5 1 == 0#1)) := by
  refine rz_of ?_
  rw [wWM_toNat]
  simp only [beq_zero_of, extract_of, BitVec.toNat_ofNat, ← Bool.decide_and]
  rw [decide_eq_decide]
  omega
@[simp] theorem wWM_z9_4 (maj : BitVec 6) (fn am : BitVec 2) (sz : BitVec 3) (off : BitVec 7) (base : BitVec 5) (t : BitVec 6) : rz (wWM maj fn am sz off base t) 9 4 = ((t.extractLsb' 2 4 == 0#4)) := by
  refine rz_of ?_
  rw [wWM_toNat]
  simp only [beq_zero_of, extract_of, BitVec.toNat_ofNat, ← Bool.decide_and]
  rw [decide_eq_decide]
  omega
@[simp] theorem wWM_z7_6 (maj : BitVec 6) (fn am : BitVec 2) (sz : BitVec 3) (off : BitVec 7) (base : BitVec 5) (t : BitVec 6) : rz (wWM maj fn am sz off base t) 7 6 = ((t == 0#6)) := by
  refine rz_of ?_
  rw [wWM_toNat]
  simp only [beq_zero_of, extract_of, BitVec.toNat_ofNat, ← Bool.decide_and]
  rw [decide_eq_decide]
  omega
@[simp] theorem wWM_f13_5 (maj : BitVec 6) (fn am : BitVec 2) (sz : BitVec 3) (off : BitVec 7) (base : BitVec 5) (t : BitVec 6) : fld (wWM maj fn am sz off base t) 13 5 = base := by
  refine fld_of ?_
  rw [wWM_toNat]
  omega
@[simp] theorem wWM_f18_2 (maj : BitVec 6) (fn am : BitVec 2) (sz : BitVec 3) (off : BitVec 7) (base : BitVec 5) (t : BitVec 6) : fld (wWM maj fn am sz off base t) 18 2 = sz.extractLsb' 0 2 := by
  refine fld_of ?_
  rw [wWM_toNat, extract_of]
  omega
@[simp] theorem wWM_f18_3 (maj : BitVec 6) (fn am : BitVec 2) (sz : BitVec 3) (off : BitVec 7) (base : BitVec 5) (t : BitVec 6) : fld (wWM maj fn am sz off base t) 18 3 = sz := by
  refine fld_of ?_
  rw [wWM_toNat]
  omega
@[simp] theorem wWM_z20_1 (maj : BitVec 6) (fn am : BitVec 2) (sz : BitVec 3) (off : BitVec 7) (base : BitVec 5) (t : BitVec 6) : rz (wWM maj fn am sz off base t) 20 1 = ((sz.extractLsb' 2 1 == 0#1)) := by
  refine rz_of ?_
  rw [wWM_toNat]
  simp only [beq_zero_of, extract_of, BitVec.toNat_ofNat, ← Bool.decide_and]
  rw [decide_eq_decide]
  omega
@[simp] theorem wWM_z18_3 (maj : BitVec 6) (fn am : BitVec 2) (sz : BitVec 3) (off : BitVec 7) (base : BitVec 5) (t : BitVec 6) : rz (wWM maj fn am sz off base t) 18 3 = ((sz == 0#3)) := by
  refine rz_of ?_
  rw [wWM_toNat]
  simp only [beq_zero_of, extract_of, BitVec.toNat_ofNat, ← Bool.decide_and]
  rw [decide_eq_decide]
  omega
@[simp] theorem wWM_f21_2 (maj : BitVec 6) (fn am : BitVec 2) (sz : BitVec 3) (off : BitVec 7) (base : BitVec 5) (t : BitVec 6) : fld (wWM maj fn am sz off base t) 21 2 = am := by
  refine fld_of ?_
  rw [wWM_toNat]
  omega
@[simp] theorem wWM_f23_2 (maj : BitVec 6) (fn am : BitVec 2) (sz : BitVec 3) (off : BitVec 7) (base : BitVec 5) (t : BitVec 6) : fld (wWM maj fn am sz off base t) 23 2 = fn := by
  refine fld_of ?_
  rw [wWM_toNat]
  omega
@[simp] theorem wWM_z23_2 (maj : BitVec 6) (fn am : BitVec 2) (sz : BitVec 3) (off : BitVec 7) (base : BitVec 5) (t : BitVec 6) : rz (wWM maj fn am sz off base t) 23 2 = ((fn == 0#2)) := by
  refine rz_of ?_
  rw [wWM_toNat]
  simp only [beq_zero_of, extract_of, BitVec.toNat_ofNat, ← Bool.decide_and]
  rw [decide_eq_decide]
  omega
@[simp] theorem wWM_f25_7 (maj : BitVec 6) (fn am : BitVec 2) (sz : BitVec 3) (off : BitVec 7) (base : BitVec 5) (t : BitVec 6) : fld (wWM maj fn am sz off base t) 25 7 = off := by
  refine fld_of ?_
  rw [wWM_toNat]
  omega
@[simp] theorem wWM_f25_5 (maj : BitVec 6) (fn am : BitVec 2) (sz : BitVec 3) (off : BitVec 7) (base : BitVec 5) (t : BitVec 6) : fld (wWM maj fn am sz off base t) 25 5 = off.extractLsb' 0 5 := by
  refine fld_of ?_
  rw [wWM_toNat, extract_of]
  omega
@[simp] theorem wWM_f25_6 (maj : BitVec 6) (fn am : BitVec 2) (sz : BitVec 3) (off : BitVec 7) (base : BitVec 5) (t : BitVec 6) : fld (wWM maj fn am sz off base t) 25 6 = off.extractLsb' 0 6 := by
  refine fld_of ?_
  rw [wWM_toNat, extract_of]
  omega
@[simp] theorem wWM_z30_2 (maj : BitVec 6) (fn am : BitVec 2) (sz : BitVec 3) (off : BitVec 7) (base : BitVec 5) (t : BitVec 6) : rz (wWM maj fn am sz off base t) 30 2 = ((off.extractLsb' 5 2 == 0#2)) := by
  refine rz_of ?_
  rw [wWM_toNat]
  simp only [beq_zero_of, extract_of, BitVec.toNat_ofNat, ← Bool.decide_and]
  rw [decide_eq_decide]
  omega
@[simp] theorem wWM_z31_1 (maj : BitVec 6) (fn am : BitVec 2) (sz : BitVec 3) (off : BitVec 7) (base : BitVec 5) (t : BitVec 6) : rz (wWM maj fn am sz off base t) 31 1 = ((off.extractLsb' 6 1 == 0#1)) := by
  refine rz_of ?_
  rw [wWM_toNat]
  simp only [beq_zero_of, extract_of, BitVec.toNat_ofNat, ← Bool.decide_and]
  rw [decide_eq_decide]
  omega

/-! ### wWMa -/

theorem wWMa_toNat (maj : BitVec 6) (sc : Scope) (o : Ord) (op : BitVec 4) (d v base : BitVec 5) :
    BitVec.toNat (w := 32) (wWMa maj sc o op d v base) = (maj).toNat * 2 + (d).toNat * 128 + (base).toNat * 4096 + (v).toNat * 131072 + (op).toNat * 4194304 + (o.bits).toNat * 67108864 + (sc.bits).toNat * 268435456 + 1 := by
  refine (append_toNat (sc.bits ++ o.bits ++ op ++ v ++ base ++ d ++ maj) 1#1).trans ?_
  simp only [append_toNat, BitVec.toNat_ofNat]
  omega

@[simp] theorem wWMa_b0 (maj : BitVec 6) (sc : Scope) (o : Ord) (op : BitVec 4) (d v base : BitVec 5) : fbit (wWMa maj sc o op d v base) 0 = true := by
  refine fbit_of ?_
  rw [wWMa_toNat]
  simp only [decide_eq_true_eq, decide_eq_false_iff_not]
  omega
@[simp] theorem wWMa_f1_6 (maj : BitVec 6) (sc : Scope) (o : Ord) (op : BitVec 4) (d v base : BitVec 5) : fld (wWMa maj sc o op d v base) 1 6 = maj := by
  refine fld_of ?_
  rw [wWMa_toNat]
  omega
@[simp] theorem wWMa_f7_5 (maj : BitVec 6) (sc : Scope) (o : Ord) (op : BitVec 4) (d v base : BitVec 5) : fld (wWMa maj sc o op d v base) 7 5 = d := by
  refine fld_of ?_
  rw [wWMa_toNat]
  omega
@[simp] theorem wWMa_f12_5 (maj : BitVec 6) (sc : Scope) (o : Ord) (op : BitVec 4) (d v base : BitVec 5) : fld (wWMa maj sc o op d v base) 12 5 = base := by
  refine fld_of ?_
  rw [wWMa_toNat]
  omega
@[simp] theorem wWMa_f17_5 (maj : BitVec 6) (sc : Scope) (o : Ord) (op : BitVec 4) (d v base : BitVec 5) : fld (wWMa maj sc o op d v base) 17 5 = v := by
  refine fld_of ?_
  rw [wWMa_toNat]
  omega
@[simp] theorem wWMa_f22_3 (maj : BitVec 6) (sc : Scope) (o : Ord) (op : BitVec 4) (d v base : BitVec 5) : fld (wWMa maj sc o op d v base) 22 3 = op.extractLsb' 0 3 := by
  refine fld_of ?_
  rw [wWMa_toNat, extract_of]
  omega
@[simp] theorem wWMa_b25 (maj : BitVec 6) (sc : Scope) (o : Ord) (op : BitVec 4) (d v base : BitVec 5) : fbit (wWMa maj sc o op d v base) 25 = (op).getLsbD 3 := by
  refine fbit_of ?_
  rw [wWMa_toNat, bit_of, decide_eq_decide]
  omega
@[simp] theorem wWMa_f26_2 (maj : BitVec 6) (sc : Scope) (o : Ord) (op : BitVec 4) (d v base : BitVec 5) : fld (wWMa maj sc o op d v base) 26 2 = o.bits := by
  refine fld_of ?_
  rw [wWMa_toNat]
  omega
@[simp] theorem wWMa_f28_4 (maj : BitVec 6) (sc : Scope) (o : Ord) (op : BitVec 4) (d v base : BitVec 5) : fld (wWMa maj sc o op d v base) 28 4 = sc.bits := by
  refine fld_of ?_
  rw [wWMa_toNat]
  omega

/-! ### wWV -/

theorem wWV_toNat (maj : BitVec 6) (ty pm : BitVec 3) (q : Bool) (d x y : BitVec 6) :
    BitVec.toNat (w := 32) (wWV maj ty pm q d x y) = (maj).toNat * 2 + (d).toNat * 128 + (x).toNat * 8192 + (y).toNat * 524288 + (b1 q).toNat * 33554432 + (pm).toNat * 67108864 + (ty).toNat * 536870912 + 1 := by
  refine (append_toNat (ty ++ pm ++ b1 q ++ y ++ x ++ d ++ maj) 1#1).trans ?_
  simp only [append_toNat, BitVec.toNat_ofNat]
  omega

@[simp] theorem wWV_b0 (maj : BitVec 6) (ty pm : BitVec 3) (q : Bool) (d x y : BitVec 6) : fbit (wWV maj ty pm q d x y) 0 = true := by
  refine fbit_of ?_
  rw [wWV_toNat]
  simp only [decide_eq_true_eq, decide_eq_false_iff_not]
  omega
@[simp] theorem wWV_f1_6 (maj : BitVec 6) (ty pm : BitVec 3) (q : Bool) (d x y : BitVec 6) : fld (wWV maj ty pm q d x y) 1 6 = maj := by
  refine fld_of ?_
  rw [wWV_toNat]
  omega
@[simp] theorem wWV_f7_6 (maj : BitVec 6) (ty pm : BitVec 3) (q : Bool) (d x y : BitVec 6) : fld (wWV maj ty pm q d x y) 7 6 = d := by
  refine fld_of ?_
  rw [wWV_toNat]
  omega
@[simp] theorem wWV_f13_6 (maj : BitVec 6) (ty pm : BitVec 3) (q : Bool) (d x y : BitVec 6) : fld (wWV maj ty pm q d x y) 13 6 = x := by
  refine fld_of ?_
  rw [wWV_toNat]
  omega
@[simp] theorem wWV_f19_6 (maj : BitVec 6) (ty pm : BitVec 3) (q : Bool) (d x y : BitVec 6) : fld (wWV maj ty pm q d x y) 19 6 = y := by
  refine fld_of ?_
  rw [wWV_toNat]
  omega
@[simp] theorem wWV_b25 (maj : BitVec 6) (ty pm : BitVec 3) (q : Bool) (d x y : BitVec 6) : fbit (wWV maj ty pm q d x y) 25 = q := by
  refine fbit_of ?_
  rw [wWV_toNat]
  have h : (b1 q).toNat = q.toNat := by cases q <;> rfl
  rw [h]
  cases q <;> (simp only [Bool.toNat_true, Bool.toNat_false, decide_eq_true_eq, decide_eq_false_iff_not]; omega)
@[simp] theorem wWV_f26_3 (maj : BitVec 6) (ty pm : BitVec 3) (q : Bool) (d x y : BitVec 6) : fld (wWV maj ty pm q d x y) 26 3 = pm := by
  refine fld_of ?_
  rw [wWV_toNat]
  omega
@[simp] theorem wWV_f29_3 (maj : BitVec 6) (ty pm : BitVec 3) (q : Bool) (d x y : BitVec 6) : fld (wWV maj ty pm q d x y) 29 3 = ty := by
  refine fld_of ?_
  rw [wWV_toNat]
  omega
@[simp] theorem wWV_z19_6 (maj : BitVec 6) (ty pm : BitVec 3) (q : Bool) (d x y : BitVec 6) : rz (wWV maj ty pm q d x y) 19 6 = ((y == 0#6)) := by
  refine rz_of ?_
  rw [wWV_toNat]
  simp only [beq_zero_of, extract_of, BitVec.toNat_ofNat, ← Bool.decide_and]
  rw [decide_eq_decide]
  omega

/-! ### wWVx -/

theorem wWVx_toNat (maj : BitVec 6) (ty : BitVec 3) (fn : BitVec 4) (d x y : BitVec 6) :
    BitVec.toNat (w := 32) (wWVx maj ty fn d x y) = (maj).toNat * 2 + (d).toNat * 128 + (x).toNat * 8192 + (y).toNat * 524288 + (fn).toNat * 33554432 + (ty).toNat * 536870912 + 1 := by
  refine (append_toNat (ty ++ fn ++ y ++ x ++ d ++ maj) 1#1).trans ?_
  simp only [append_toNat, BitVec.toNat_ofNat]
  omega

@[simp] theorem wWVx_b0 (maj : BitVec 6) (ty : BitVec 3) (fn : BitVec 4) (d x y : BitVec 6) : fbit (wWVx maj ty fn d x y) 0 = true := by
  refine fbit_of ?_
  rw [wWVx_toNat]
  simp only [decide_eq_true_eq, decide_eq_false_iff_not]
  omega
@[simp] theorem wWVx_f1_6 (maj : BitVec 6) (ty : BitVec 3) (fn : BitVec 4) (d x y : BitVec 6) : fld (wWVx maj ty fn d x y) 1 6 = maj := by
  refine fld_of ?_
  rw [wWVx_toNat]
  omega
@[simp] theorem wWVx_f7_6 (maj : BitVec 6) (ty : BitVec 3) (fn : BitVec 4) (d x y : BitVec 6) : fld (wWVx maj ty fn d x y) 7 6 = d := by
  refine fld_of ?_
  rw [wWVx_toNat]
  omega
@[simp] theorem wWVx_f7_5 (maj : BitVec 6) (ty : BitVec 3) (fn : BitVec 4) (d x y : BitVec 6) : fld (wWVx maj ty fn d x y) 7 5 = d.extractLsb' 0 5 := by
  refine fld_of ?_
  rw [wWVx_toNat, extract_of]
  omega
@[simp] theorem wWVx_f7_4 (maj : BitVec 6) (ty : BitVec 3) (fn : BitVec 4) (d x y : BitVec 6) : fld (wWVx maj ty fn d x y) 7 4 = d.extractLsb' 0 4 := by
  refine fld_of ?_
  rw [wWVx_toNat, extract_of]
  omega
@[simp] theorem wWVx_f7_2 (maj : BitVec 6) (ty : BitVec 3) (fn : BitVec 4) (d x y : BitVec 6) : fld (wWVx maj ty fn d x y) 7 2 = d.extractLsb' 0 2 := by
  refine fld_of ?_
  rw [wWVx_toNat, extract_of]
  omega
@[simp] theorem wWVx_f7_1 (maj : BitVec 6) (ty : BitVec 3) (fn : BitVec 4) (d x y : BitVec 6) : fld (wWVx maj ty fn d x y) 7 1 = d.extractLsb' 0 1 := by
  refine fld_of ?_
  rw [wWVx_toNat, extract_of]
  omega
@[simp] theorem wWVx_f12_1 (maj : BitVec 6) (ty : BitVec 3) (fn : BitVec 4) (d x y : BitVec 6) : fld (wWVx maj ty fn d x y) 12 1 = d.extractLsb' 5 1 := by
  refine fld_of ?_
  rw [wWVx_toNat, extract_of]
  omega
@[simp] theorem wWVx_f13_6 (maj : BitVec 6) (ty : BitVec 3) (fn : BitVec 4) (d x y : BitVec 6) : fld (wWVx maj ty fn d x y) 13 6 = x := by
  refine fld_of ?_
  rw [wWVx_toNat]
  omega
@[simp] theorem wWVx_f13_2 (maj : BitVec 6) (ty : BitVec 3) (fn : BitVec 4) (d x y : BitVec 6) : fld (wWVx maj ty fn d x y) 13 2 = x.extractLsb' 0 2 := by
  refine fld_of ?_
  rw [wWVx_toNat, extract_of]
  omega
@[simp] theorem wWVx_f13_4 (maj : BitVec 6) (ty : BitVec 3) (fn : BitVec 4) (d x y : BitVec 6) : fld (wWVx maj ty fn d x y) 13 4 = x.extractLsb' 0 4 := by
  refine fld_of ?_
  rw [wWVx_toNat, extract_of]
  omega
@[simp] theorem wWVx_f13_1 (maj : BitVec 6) (ty : BitVec 3) (fn : BitVec 4) (d x y : BitVec 6) : fld (wWVx maj ty fn d x y) 13 1 = x.extractLsb' 0 1 := by
  refine fld_of ?_
  rw [wWVx_toNat, extract_of]
  omega
@[simp] theorem wWVx_f19_6 (maj : BitVec 6) (ty : BitVec 3) (fn : BitVec 4) (d x y : BitVec 6) : fld (wWVx maj ty fn d x y) 19 6 = y := by
  refine fld_of ?_
  rw [wWVx_toNat]
  omega
@[simp] theorem wWVx_f19_5 (maj : BitVec 6) (ty : BitVec 3) (fn : BitVec 4) (d x y : BitVec 6) : fld (wWVx maj ty fn d x y) 19 5 = y.extractLsb' 0 5 := by
  refine fld_of ?_
  rw [wWVx_toNat, extract_of]
  omega
@[simp] theorem wWVx_f19_4 (maj : BitVec 6) (ty : BitVec 3) (fn : BitVec 4) (d x y : BitVec 6) : fld (wWVx maj ty fn d x y) 19 4 = y.extractLsb' 0 4 := by
  refine fld_of ?_
  rw [wWVx_toNat, extract_of]
  omega
@[simp] theorem wWVx_f25_4 (maj : BitVec 6) (ty : BitVec 3) (fn : BitVec 4) (d x y : BitVec 6) : fld (wWVx maj ty fn d x y) 25 4 = fn := by
  refine fld_of ?_
  rw [wWVx_toNat]
  omega
@[simp] theorem wWVx_f25_2 (maj : BitVec 6) (ty : BitVec 3) (fn : BitVec 4) (d x y : BitVec 6) : fld (wWVx maj ty fn d x y) 25 2 = fn.extractLsb' 0 2 := by
  refine fld_of ?_
  rw [wWVx_toNat, extract_of]
  omega
@[simp] theorem wWVx_f25_3 (maj : BitVec 6) (ty : BitVec 3) (fn : BitVec 4) (d x y : BitVec 6) : fld (wWVx maj ty fn d x y) 25 3 = fn.extractLsb' 0 3 := by
  refine fld_of ?_
  rw [wWVx_toNat, extract_of]
  omega
@[simp] theorem wWVx_f27_2 (maj : BitVec 6) (ty : BitVec 3) (fn : BitVec 4) (d x y : BitVec 6) : fld (wWVx maj ty fn d x y) 27 2 = fn.extractLsb' 2 2 := by
  refine fld_of ?_
  rw [wWVx_toNat, extract_of]
  omega
@[simp] theorem wWVx_f29_3 (maj : BitVec 6) (ty : BitVec 3) (fn : BitVec 4) (d x y : BitVec 6) : fld (wWVx maj ty fn d x y) 29 3 = ty := by
  refine fld_of ?_
  rw [wWVx_toNat]
  omega
@[simp] theorem wWVx_f29_2 (maj : BitVec 6) (ty : BitVec 3) (fn : BitVec 4) (d x y : BitVec 6) : fld (wWVx maj ty fn d x y) 29 2 = ty.extractLsb' 0 2 := by
  refine fld_of ?_
  rw [wWVx_toNat, extract_of]
  omega
@[simp] theorem wWVx_b28 (maj : BitVec 6) (ty : BitVec 3) (fn : BitVec 4) (d x y : BitVec 6) : fbit (wWVx maj ty fn d x y) 28 = (fn).getLsbD 3 := by
  refine fbit_of ?_
  rw [wWVx_toNat, bit_of, decide_eq_decide]
  omega
@[simp] theorem wWVx_b27 (maj : BitVec 6) (ty : BitVec 3) (fn : BitVec 4) (d x y : BitVec 6) : fbit (wWVx maj ty fn d x y) 27 = (fn).getLsbD 2 := by
  refine fbit_of ?_
  rw [wWVx_toNat, bit_of, decide_eq_decide]
  omega
@[simp] theorem wWVx_b23 (maj : BitVec 6) (ty : BitVec 3) (fn : BitVec 4) (d x y : BitVec 6) : fbit (wWVx maj ty fn d x y) 23 = (y).getLsbD 4 := by
  refine fbit_of ?_
  rw [wWVx_toNat, bit_of, decide_eq_decide]
  omega
@[simp] theorem wWVx_z29_3 (maj : BitVec 6) (ty : BitVec 3) (fn : BitVec 4) (d x y : BitVec 6) : rz (wWVx maj ty fn d x y) 29 3 = ((ty == 0#3)) := by
  refine rz_of ?_
  rw [wWVx_toNat]
  simp only [beq_zero_of, extract_of, BitVec.toNat_ofNat, ← Bool.decide_and]
  rw [decide_eq_decide]
  omega
@[simp] theorem wWVx_z11_2 (maj : BitVec 6) (ty : BitVec 3) (fn : BitVec 4) (d x y : BitVec 6) : rz (wWVx maj ty fn d x y) 11 2 = ((d.extractLsb' 4 2 == 0#2)) := by
  refine rz_of ?_
  rw [wWVx_toNat]
  simp only [beq_zero_of, extract_of, BitVec.toNat_ofNat, ← Bool.decide_and]
  rw [decide_eq_decide]
  omega
@[simp] theorem wWVx_z19_6 (maj : BitVec 6) (ty : BitVec 3) (fn : BitVec 4) (d x y : BitVec 6) : rz (wWVx maj ty fn d x y) 19 6 = ((y == 0#6)) := by
  refine rz_of ?_
  rw [wWVx_toNat]
  simp only [beq_zero_of, extract_of, BitVec.toNat_ofNat, ← Bool.decide_and]
  rw [decide_eq_decide]
  omega
@[simp] theorem wWVx_z24_1 (maj : BitVec 6) (ty : BitVec 3) (fn : BitVec 4) (d x y : BitVec 6) : rz (wWVx maj ty fn d x y) 24 1 = ((y.extractLsb' 5 1 == 0#1)) := by
  refine rz_of ?_
  rw [wWVx_toNat]
  simp only [beq_zero_of, extract_of, BitVec.toNat_ofNat, ← Bool.decide_and]
  rw [decide_eq_decide]
  omega
@[simp] theorem wWVx_z13_6 (maj : BitVec 6) (ty : BitVec 3) (fn : BitVec 4) (d x y : BitVec 6) : rz (wWVx maj ty fn d x y) 13 6 = ((x == 0#6)) := by
  refine rz_of ?_
  rw [wWVx_toNat]
  simp only [beq_zero_of, extract_of, BitVec.toNat_ofNat, ← Bool.decide_and]
  rw [decide_eq_decide]
  omega
@[simp] theorem wWVx_z9_4 (maj : BitVec 6) (ty : BitVec 3) (fn : BitVec 4) (d x y : BitVec 6) : rz (wWVx maj ty fn d x y) 9 4 = ((d.extractLsb' 2 4 == 0#4)) := by
  refine rz_of ?_
  rw [wWVx_toNat]
  simp only [beq_zero_of, extract_of, BitVec.toNat_ofNat, ← Bool.decide_and]
  rw [decide_eq_decide]
  omega
@[simp] theorem wWVx_z15_4 (maj : BitVec 6) (ty : BitVec 3) (fn : BitVec 4) (d x y : BitVec 6) : rz (wWVx maj ty fn d x y) 15 4 = ((x.extractLsb' 2 4 == 0#4)) := by
  refine rz_of ?_
  rw [wWVx_toNat]
  simp only [beq_zero_of, extract_of, BitVec.toNat_ofNat, ← Bool.decide_and]
  rw [decide_eq_decide]
  omega
@[simp] theorem wWVx_z12_1 (maj : BitVec 6) (ty : BitVec 3) (fn : BitVec 4) (d x y : BitVec 6) : rz (wWVx maj ty fn d x y) 12 1 = ((d.extractLsb' 5 1 == 0#1)) := by
  refine rz_of ?_
  rw [wWVx_toNat]
  simp only [beq_zero_of, extract_of, BitVec.toNat_ofNat, ← Bool.decide_and]
  rw [decide_eq_decide]
  omega
@[simp] theorem wWVx_z17_2 (maj : BitVec 6) (ty : BitVec 3) (fn : BitVec 4) (d x y : BitVec 6) : rz (wWVx maj ty fn d x y) 17 2 = ((x.extractLsb' 4 2 == 0#2)) := by
  refine rz_of ?_
  rw [wWVx_toNat]
  simp only [beq_zero_of, extract_of, BitVec.toNat_ofNat, ← Bool.decide_and]
  rw [decide_eq_decide]
  omega
@[simp] theorem wWVx_z23_2 (maj : BitVec 6) (ty : BitVec 3) (fn : BitVec 4) (d x y : BitVec 6) : rz (wWVx maj ty fn d x y) 23 2 = ((y.extractLsb' 4 2 == 0#2)) := by
  refine rz_of ?_
  rw [wWVx_toNat]
  simp only [beq_zero_of, extract_of, BitVec.toNat_ofNat, ← Bool.decide_and]
  rw [decide_eq_decide]
  omega
@[simp] theorem wWVx_z8_5 (maj : BitVec 6) (ty : BitVec 3) (fn : BitVec 4) (d x y : BitVec 6) : rz (wWVx maj ty fn d x y) 8 5 = ((d.extractLsb' 1 5 == 0#5)) := by
  refine rz_of ?_
  rw [wWVx_toNat]
  simp only [beq_zero_of, extract_of, BitVec.toNat_ofNat, ← Bool.decide_and]
  rw [decide_eq_decide]
  omega
@[simp] theorem wWVx_z14_5 (maj : BitVec 6) (ty : BitVec 3) (fn : BitVec 4) (d x y : BitVec 6) : rz (wWVx maj ty fn d x y) 14 5 = ((x.extractLsb' 1 5 == 0#5)) := by
  refine rz_of ?_
  rw [wWVx_toNat]
  simp only [beq_zero_of, extract_of, BitVec.toNat_ofNat, ← Bool.decide_and]
  rw [decide_eq_decide]
  omega
@[simp] theorem wWVx_z31_1 (maj : BitVec 6) (ty : BitVec 3) (fn : BitVec 4) (d x y : BitVec 6) : rz (wWVx maj ty fn d x y) 31 1 = ((ty.extractLsb' 2 1 == 0#1)) := by
  refine rz_of ?_
  rw [wWVx_toNat]
  simp only [beq_zero_of, extract_of, BitVec.toNat_ofNat, ← Bool.decide_and]
  rw [decide_eq_decide]
  omega

/-! ### wWE -/

theorem wWE_toNat (maj : BitVec 6) (md : BitVec 5) (fn : BitVec 3) (ts : BitVec 2) (a b c : BitVec 5) :
    BitVec.toNat (w := 32) (wWE maj md fn ts a b c) = (maj).toNat * 2 + (ts).toNat * 128 + (a).toNat * 512 + (b).toNat * 16384 + (c).toNat * 524288 + (fn).toNat * 16777216 + (md).toNat * 134217728 + 1 := by
  refine (append_toNat (md ++ fn ++ c ++ b ++ a ++ ts ++ maj) 1#1).trans ?_
  simp only [append_toNat, BitVec.toNat_ofNat]
  omega

@[simp] theorem wWE_b0 (maj : BitVec 6) (md : BitVec 5) (fn : BitVec 3) (ts : BitVec 2) (a b c : BitVec 5) : fbit (wWE maj md fn ts a b c) 0 = true := by
  refine fbit_of ?_
  rw [wWE_toNat]
  simp only [decide_eq_true_eq, decide_eq_false_iff_not]
  omega
@[simp] theorem wWE_f1_6 (maj : BitVec 6) (md : BitVec 5) (fn : BitVec 3) (ts : BitVec 2) (a b c : BitVec 5) : fld (wWE maj md fn ts a b c) 1 6 = maj := by
  refine fld_of ?_
  rw [wWE_toNat]
  omega
@[simp] theorem wWE_f7_2 (maj : BitVec 6) (md : BitVec 5) (fn : BitVec 3) (ts : BitVec 2) (a b c : BitVec 5) : fld (wWE maj md fn ts a b c) 7 2 = ts := by
  refine fld_of ?_
  rw [wWE_toNat]
  omega
@[simp] theorem wWE_f9_5 (maj : BitVec 6) (md : BitVec 5) (fn : BitVec 3) (ts : BitVec 2) (a b c : BitVec 5) : fld (wWE maj md fn ts a b c) 9 5 = a := by
  refine fld_of ?_
  rw [wWE_toNat]
  omega
@[simp] theorem wWE_f14_5 (maj : BitVec 6) (md : BitVec 5) (fn : BitVec 3) (ts : BitVec 2) (a b c : BitVec 5) : fld (wWE maj md fn ts a b c) 14 5 = b := by
  refine fld_of ?_
  rw [wWE_toNat]
  omega
@[simp] theorem wWE_f19_5 (maj : BitVec 6) (md : BitVec 5) (fn : BitVec 3) (ts : BitVec 2) (a b c : BitVec 5) : fld (wWE maj md fn ts a b c) 19 5 = c := by
  refine fld_of ?_
  rw [wWE_toNat]
  omega
@[simp] theorem wWE_f24_3 (maj : BitVec 6) (md : BitVec 5) (fn : BitVec 3) (ts : BitVec 2) (a b c : BitVec 5) : fld (wWE maj md fn ts a b c) 24 3 = fn := by
  refine fld_of ?_
  rw [wWE_toNat]
  omega
@[simp] theorem wWE_f19_2 (maj : BitVec 6) (md : BitVec 5) (fn : BitVec 3) (ts : BitVec 2) (a b c : BitVec 5) : fld (wWE maj md fn ts a b c) 19 2 = c.extractLsb' 0 2 := by
  refine fld_of ?_
  rw [wWE_toNat, extract_of]
  omega
@[simp] theorem wWE_f27_2 (maj : BitVec 6) (md : BitVec 5) (fn : BitVec 3) (ts : BitVec 2) (a b c : BitVec 5) : fld (wWE maj md fn ts a b c) 27 2 = md.extractLsb' 0 2 := by
  refine fld_of ?_
  rw [wWE_toNat, extract_of]
  omega
@[simp] theorem wWE_b27 (maj : BitVec 6) (md : BitVec 5) (fn : BitVec 3) (ts : BitVec 2) (a b c : BitVec 5) : fbit (wWE maj md fn ts a b c) 27 = (md).getLsbD 0 := by
  refine fbit_of ?_
  rw [wWE_toNat, bit_of, decide_eq_decide]
  omega
@[simp] theorem wWE_b28 (maj : BitVec 6) (md : BitVec 5) (fn : BitVec 3) (ts : BitVec 2) (a b c : BitVec 5) : fbit (wWE maj md fn ts a b c) 28 = (md).getLsbD 1 := by
  refine fbit_of ?_
  rw [wWE_toNat, bit_of, decide_eq_decide]
  omega
@[simp] theorem wWE_b29 (maj : BitVec 6) (md : BitVec 5) (fn : BitVec 3) (ts : BitVec 2) (a b c : BitVec 5) : fbit (wWE maj md fn ts a b c) 29 = (md).getLsbD 2 := by
  refine fbit_of ?_
  rw [wWE_toNat, bit_of, decide_eq_decide]
  omega
@[simp] theorem wWE_z29_3 (maj : BitVec 6) (md : BitVec 5) (fn : BitVec 3) (ts : BitVec 2) (a b c : BitVec 5) : rz (wWE maj md fn ts a b c) 29 3 = ((md.extractLsb' 2 3 == 0#3)) := by
  refine rz_of ?_
  rw [wWE_toNat]
  simp only [beq_zero_of, extract_of, BitVec.toNat_ofNat, ← Bool.decide_and]
  rw [decide_eq_decide]
  omega
@[simp] theorem wWE_z27_5 (maj : BitVec 6) (md : BitVec 5) (fn : BitVec 3) (ts : BitVec 2) (a b c : BitVec 5) : rz (wWE maj md fn ts a b c) 27 5 = ((md == 0#5)) := by
  refine rz_of ?_
  rw [wWE_toNat]
  simp only [beq_zero_of, extract_of, BitVec.toNat_ofNat, ← Bool.decide_and]
  rw [decide_eq_decide]
  omega
@[simp] theorem wWE_z9_15 (maj : BitVec 6) (md : BitVec 5) (fn : BitVec 3) (ts : BitVec 2) (a b c : BitVec 5) : rz (wWE maj md fn ts a b c) 9 15 = ((a == 0#5) && (b == 0#5) && (c == 0#5)) := by
  refine rz_of ?_
  rw [wWE_toNat]
  simp only [beq_zero_of, extract_of, BitVec.toNat_ofNat, ← Bool.decide_and]
  rw [decide_eq_decide]
  omega
@[simp] theorem wWE_z30_2 (maj : BitVec 6) (md : BitVec 5) (fn : BitVec 3) (ts : BitVec 2) (a b c : BitVec 5) : rz (wWE maj md fn ts a b c) 30 2 = ((md.extractLsb' 3 2 == 0#2)) := by
  refine rz_of ?_
  rw [wWE_toNat]
  simp only [beq_zero_of, extract_of, BitVec.toNat_ofNat, ← Bool.decide_and]
  rw [decide_eq_decide]
  omega
@[simp] theorem wWE_z14_10 (maj : BitVec 6) (md : BitVec 5) (fn : BitVec 3) (ts : BitVec 2) (a b c : BitVec 5) : rz (wWE maj md fn ts a b c) 14 10 = ((b == 0#5) && (c == 0#5)) := by
  refine rz_of ?_
  rw [wWE_toNat]
  simp only [beq_zero_of, extract_of, BitVec.toNat_ofNat, ← Bool.decide_and]
  rw [decide_eq_decide]
  omega
@[simp] theorem wWE_z9_10 (maj : BitVec 6) (md : BitVec 5) (fn : BitVec 3) (ts : BitVec 2) (a b c : BitVec 5) : rz (wWE maj md fn ts a b c) 9 10 = ((a == 0#5) && (b == 0#5)) := by
  refine rz_of ?_
  rw [wWE_toNat]
  simp only [beq_zero_of, extract_of, BitVec.toNat_ofNat, ← Bool.decide_and]
  rw [decide_eq_decide]
  omega
@[simp] theorem wWE_z21_3 (maj : BitVec 6) (md : BitVec 5) (fn : BitVec 3) (ts : BitVec 2) (a b c : BitVec 5) : rz (wWE maj md fn ts a b c) 21 3 = ((c.extractLsb' 2 3 == 0#3)) := by
  refine rz_of ?_
  rw [wWE_toNat]
  simp only [beq_zero_of, extract_of, BitVec.toNat_ofNat, ← Bool.decide_and]
  rw [decide_eq_decide]
  omega
@[simp] theorem wWE_z7_2 (maj : BitVec 6) (md : BitVec 5) (fn : BitVec 3) (ts : BitVec 2) (a b c : BitVec 5) : rz (wWE maj md fn ts a b c) 7 2 = ((ts == 0#2)) := by
  refine rz_of ?_
  rw [wWE_toNat]
  simp only [beq_zero_of, extract_of, BitVec.toNat_ofNat, ← Bool.decide_and]
  rw [decide_eq_decide]
  omega
@[simp] theorem wWE_z7_17 (maj : BitVec 6) (md : BitVec 5) (fn : BitVec 3) (ts : BitVec 2) (a b c : BitVec 5) : rz (wWE maj md fn ts a b c) 7 17 = ((ts == 0#2) && (a == 0#5) && (b == 0#5) && (c == 0#5)) := by
  refine rz_of ?_
  rw [wWE_toNat]
  simp only [beq_zero_of, extract_of, BitVec.toNat_ofNat, ← Bool.decide_and]
  rw [decide_eq_decide]
  omega

/-! ### wWEs -/

theorem wWEs_toNat (fn eng : BitVec 2) (sem : BitVec 6) (n : BitVec 15) :
    BitVec.toNat (w := 32) (wWEs fn eng sem n) = (sem).toNat * 128 + (eng).toNat * 8192 + (fn).toNat * 32768 + (n).toNat * 131072 + 73 := by
  refine (append_toNat (n ++ fn ++ eng ++ sem ++ 0x24#6) 1#1).trans ?_
  simp only [append_toNat, BitVec.toNat_ofNat]
  omega

@[simp] theorem wWEs_b0 (fn eng : BitVec 2) (sem : BitVec 6) (n : BitVec 15) : fbit (wWEs fn eng sem n) 0 = true := by
  refine fbit_of ?_
  rw [wWEs_toNat]
  simp only [decide_eq_true_eq, decide_eq_false_iff_not]
  omega
@[simp] theorem wWEs_f1_6 (fn eng : BitVec 2) (sem : BitVec 6) (n : BitVec 15) : fld (wWEs fn eng sem n) 1 6 = 0x24#6 := by
  refine fld_of ?_
  rw [wWEs_toNat]
  have := (0#1).isLt
  simp only [BitVec.toNat_ofNat]
  omega
@[simp] theorem wWEs_f7_6 (fn eng : BitVec 2) (sem : BitVec 6) (n : BitVec 15) : fld (wWEs fn eng sem n) 7 6 = sem := by
  refine fld_of ?_
  rw [wWEs_toNat]
  omega
@[simp] theorem wWEs_f13_2 (fn eng : BitVec 2) (sem : BitVec 6) (n : BitVec 15) : fld (wWEs fn eng sem n) 13 2 = eng := by
  refine fld_of ?_
  rw [wWEs_toNat]
  omega
@[simp] theorem wWEs_f15_2 (fn eng : BitVec 2) (sem : BitVec 6) (n : BitVec 15) : fld (wWEs fn eng sem n) 15 2 = fn := by
  refine fld_of ?_
  rw [wWEs_toNat]
  omega
@[simp] theorem wWEs_f17_15 (fn eng : BitVec 2) (sem : BitVec 6) (n : BitVec 15) : fld (wWEs fn eng sem n) 17 15 = n := by
  refine fld_of ?_
  rw [wWEs_toNat]
  omega
@[simp] theorem wWEs_z13_2 (fn eng : BitVec 2) (sem : BitVec 6) (n : BitVec 15) : rz (wWEs fn eng sem n) 13 2 = ((eng == 0#2)) := by
  refine rz_of ?_
  rw [wWEs_toNat]
  simp only [beq_zero_of, extract_of, BitVec.toNat_ofNat, ← Bool.decide_and]
  rw [decide_eq_decide]
  omega

/-! ### wWB -/

theorem wWB_toNat (maj : BitVec 6) (fn : BitVec 3) (a b : BitVec 5) (off : BitVec 12) :
    BitVec.toNat (w := 32) (wWB maj fn a b off) = (maj).toNat * 2 + (fn).toNat * 128 + (a).toNat * 1024 + (b).toNat * 32768 + (off).toNat * 1048576 + 1 := by
  refine (append_toNat (off ++ b ++ a ++ fn ++ maj) 1#1).trans ?_
  simp only [append_toNat, BitVec.toNat_ofNat]
  omega

@[simp] theorem wWB_b0 (maj : BitVec 6) (fn : BitVec 3) (a b : BitVec 5) (off : BitVec 12) : fbit (wWB maj fn a b off) 0 = true := by
  refine fbit_of ?_
  rw [wWB_toNat]
  simp only [decide_eq_true_eq, decide_eq_false_iff_not]
  omega
@[simp] theorem wWB_f1_6 (maj : BitVec 6) (fn : BitVec 3) (a b : BitVec 5) (off : BitVec 12) : fld (wWB maj fn a b off) 1 6 = maj := by
  refine fld_of ?_
  rw [wWB_toNat]
  omega
@[simp] theorem wWB_f7_3 (maj : BitVec 6) (fn : BitVec 3) (a b : BitVec 5) (off : BitVec 12) : fld (wWB maj fn a b off) 7 3 = fn := by
  refine fld_of ?_
  rw [wWB_toNat]
  omega
@[simp] theorem wWB_f10_5 (maj : BitVec 6) (fn : BitVec 3) (a b : BitVec 5) (off : BitVec 12) : fld (wWB maj fn a b off) 10 5 = a := by
  refine fld_of ?_
  rw [wWB_toNat]
  omega
@[simp] theorem wWB_f15_5 (maj : BitVec 6) (fn : BitVec 3) (a b : BitVec 5) (off : BitVec 12) : fld (wWB maj fn a b off) 15 5 = b := by
  refine fld_of ?_
  rw [wWB_toNat]
  omega
@[simp] theorem wWB_f20_12 (maj : BitVec 6) (fn : BitVec 3) (a b : BitVec 5) (off : BitVec 12) : fld (wWB maj fn a b off) 20 12 = off := by
  refine fld_of ?_
  rw [wWB_toNat]
  omega
@[simp] theorem wWB_f10_2 (maj : BitVec 6) (fn : BitVec 3) (a b : BitVec 5) (off : BitVec 12) : fld (wWB maj fn a b off) 10 2 = a.extractLsb' 0 2 := by
  refine fld_of ?_
  rw [wWB_toNat, extract_of]
  omega
@[simp] theorem wWB_f15_4 (maj : BitVec 6) (fn : BitVec 3) (a b : BitVec 5) (off : BitVec 12) : fld (wWB maj fn a b off) 15 4 = b.extractLsb' 0 4 := by
  refine fld_of ?_
  rw [wWB_toNat, extract_of]
  omega
@[simp] theorem wWB_z15_5 (maj : BitVec 6) (fn : BitVec 3) (a b : BitVec 5) (off : BitVec 12) : rz (wWB maj fn a b off) 15 5 = ((b == 0#5)) := by
  refine rz_of ?_
  rw [wWB_toNat]
  simp only [beq_zero_of, extract_of, BitVec.toNat_ofNat, ← Bool.decide_and]
  rw [decide_eq_decide]
  omega
@[simp] theorem wWB_z10_22 (maj : BitVec 6) (fn : BitVec 3) (a b : BitVec 5) (off : BitVec 12) : rz (wWB maj fn a b off) 10 22 = ((a == 0#5) && (b == 0#5) && (off == 0#12)) := by
  refine rz_of ?_
  rw [wWB_toNat]
  simp only [beq_zero_of, extract_of, BitVec.toNat_ofNat, ← Bool.decide_and]
  rw [decide_eq_decide]
  omega
@[simp] theorem wWB_z12_8 (maj : BitVec 6) (fn : BitVec 3) (a b : BitVec 5) (off : BitVec 12) : rz (wWB maj fn a b off) 12 8 = ((a.extractLsb' 2 3 == 0#3) && (b == 0#5)) := by
  refine rz_of ?_
  rw [wWB_toNat]
  simp only [beq_zero_of, extract_of, BitVec.toNat_ofNat, ← Bool.decide_and]
  rw [decide_eq_decide]
  omega
@[simp] theorem wWB_z12_3 (maj : BitVec 6) (fn : BitVec 3) (a b : BitVec 5) (off : BitVec 12) : rz (wWB maj fn a b off) 12 3 = ((a.extractLsb' 2 3 == 0#3)) := by
  refine rz_of ?_
  rw [wWB_toNat]
  simp only [beq_zero_of, extract_of, BitVec.toNat_ofNat, ← Bool.decide_and]
  rw [decide_eq_decide]
  omega
@[simp] theorem wWB_z10_10 (maj : BitVec 6) (fn : BitVec 3) (a b : BitVec 5) (off : BitVec 12) : rz (wWB maj fn a b off) 10 10 = ((a == 0#5) && (b == 0#5)) := by
  refine rz_of ?_
  rw [wWB_toNat]
  simp only [beq_zero_of, extract_of, BitVec.toNat_ofNat, ← Bool.decide_and]
  rw [decide_eq_decide]
  omega
@[simp] theorem wWB_z10_5 (maj : BitVec 6) (fn : BitVec 3) (a b : BitVec 5) (off : BitVec 12) : rz (wWB maj fn a b off) 10 5 = ((a == 0#5)) := by
  refine rz_of ?_
  rw [wWB_toNat]
  simp only [beq_zero_of, extract_of, BitVec.toNat_ofNat, ← Bool.decide_and]
  rw [decide_eq_decide]
  omega
@[simp] theorem wWB_z19_1 (maj : BitVec 6) (fn : BitVec 3) (a b : BitVec 5) (off : BitVec 12) : rz (wWB maj fn a b off) 19 1 = ((b.extractLsb' 4 1 == 0#1)) := by
  refine rz_of ?_
  rw [wWB_toNat]
  simp only [beq_zero_of, extract_of, BitVec.toNat_ofNat, ← Bool.decide_and]
  rw [decide_eq_decide]
  omega

/-! ### wWS -/

theorem wWS_toNat (maj : BitVec 6) (fn d a : BitVec 5) (imm : BitVec 10) :
    BitVec.toNat (w := 32) (wWS maj fn d a imm) = (maj).toNat * 2 + (d).toNat * 128 + (a).toNat * 4096 + (fn).toNat * 131072 + (imm).toNat * 4194304 + 1 := by
  refine (append_toNat (imm ++ fn ++ a ++ d ++ maj) 1#1).trans ?_
  simp only [append_toNat, BitVec.toNat_ofNat]
  omega

@[simp] theorem wWS_b0 (maj : BitVec 6) (fn d a : BitVec 5) (imm : BitVec 10) : fbit (wWS maj fn d a imm) 0 = true := by
  refine fbit_of ?_
  rw [wWS_toNat]
  simp only [decide_eq_true_eq, decide_eq_false_iff_not]
  omega
@[simp] theorem wWS_f1_6 (maj : BitVec 6) (fn d a : BitVec 5) (imm : BitVec 10) : fld (wWS maj fn d a imm) 1 6 = maj := by
  refine fld_of ?_
  rw [wWS_toNat]
  omega
@[simp] theorem wWS_f7_5 (maj : BitVec 6) (fn d a : BitVec 5) (imm : BitVec 10) : fld (wWS maj fn d a imm) 7 5 = d := by
  refine fld_of ?_
  rw [wWS_toNat]
  omega
@[simp] theorem wWS_f12_5 (maj : BitVec 6) (fn d a : BitVec 5) (imm : BitVec 10) : fld (wWS maj fn d a imm) 12 5 = a := by
  refine fld_of ?_
  rw [wWS_toNat]
  omega
@[simp] theorem wWS_f17_5 (maj : BitVec 6) (fn d a : BitVec 5) (imm : BitVec 10) : fld (wWS maj fn d a imm) 17 5 = fn := by
  refine fld_of ?_
  rw [wWS_toNat]
  omega
@[simp] theorem wWS_f22_10 (maj : BitVec 6) (fn d a : BitVec 5) (imm : BitVec 10) : fld (wWS maj fn d a imm) 22 10 = imm := by
  refine fld_of ?_
  rw [wWS_toNat]
  omega
@[simp] theorem wWS_f22_8 (maj : BitVec 6) (fn d a : BitVec 5) (imm : BitVec 10) : fld (wWS maj fn d a imm) 22 8 = imm.extractLsb' 0 8 := by
  refine fld_of ?_
  rw [wWS_toNat, extract_of]
  omega
@[simp] theorem wWS_f30_2 (maj : BitVec 6) (fn d a : BitVec 5) (imm : BitVec 10) : fld (wWS maj fn d a imm) 30 2 = imm.extractLsb' 8 2 := by
  refine fld_of ?_
  rw [wWS_toNat, extract_of]
  omega
@[simp] theorem wWS_f22_3 (maj : BitVec 6) (fn d a : BitVec 5) (imm : BitVec 10) : fld (wWS maj fn d a imm) 22 3 = imm.extractLsb' 0 3 := by
  refine fld_of ?_
  rw [wWS_toNat, extract_of]
  omega
@[simp] theorem wWS_f22_4 (maj : BitVec 6) (fn d a : BitVec 5) (imm : BitVec 10) : fld (wWS maj fn d a imm) 22 4 = imm.extractLsb' 0 4 := by
  refine fld_of ?_
  rw [wWS_toNat, extract_of]
  omega
@[simp] theorem wWS_f26_2 (maj : BitVec 6) (fn d a : BitVec 5) (imm : BitVec 10) : fld (wWS maj fn d a imm) 26 2 = imm.extractLsb' 4 2 := by
  refine fld_of ?_
  rw [wWS_toNat, extract_of]
  omega
@[simp] theorem wWS_b26 (maj : BitVec 6) (fn d a : BitVec 5) (imm : BitVec 10) : fbit (wWS maj fn d a imm) 26 = (imm).getLsbD 4 := by
  refine fbit_of ?_
  rw [wWS_toNat, bit_of, decide_eq_decide]
  omega
@[simp] theorem wWS_z22_10 (maj : BitVec 6) (fn d a : BitVec 5) (imm : BitVec 10) : rz (wWS maj fn d a imm) 22 10 = ((imm == 0#10)) := by
  refine rz_of ?_
  rw [wWS_toNat]
  simp only [beq_zero_of, extract_of, BitVec.toNat_ofNat, ← Bool.decide_and]
  rw [decide_eq_decide]
  omega
@[simp] theorem wWS_z7_10 (maj : BitVec 6) (fn d a : BitVec 5) (imm : BitVec 10) : rz (wWS maj fn d a imm) 7 10 = ((d == 0#5) && (a == 0#5)) := by
  refine rz_of ?_
  rw [wWS_toNat]
  simp only [beq_zero_of, extract_of, BitVec.toNat_ofNat, ← Bool.decide_and]
  rw [decide_eq_decide]
  omega
@[simp] theorem wWS_z28_4 (maj : BitVec 6) (fn d a : BitVec 5) (imm : BitVec 10) : rz (wWS maj fn d a imm) 28 4 = ((imm.extractLsb' 6 4 == 0#4)) := by
  refine rz_of ?_
  rw [wWS_toNat]
  simp only [beq_zero_of, extract_of, BitVec.toNat_ofNat, ← Bool.decide_and]
  rw [decide_eq_decide]
  omega
@[simp] theorem wWS_z30_2 (maj : BitVec 6) (fn d a : BitVec 5) (imm : BitVec 10) : rz (wWS maj fn d a imm) 30 2 = ((imm.extractLsb' 8 2 == 0#2)) := by
  refine rz_of ?_
  rw [wWS_toNat]
  simp only [beq_zero_of, extract_of, BitVec.toNat_ofNat, ← Bool.decide_and]
  rw [decide_eq_decide]
  omega
@[simp] theorem wWS_z7_5 (maj : BitVec 6) (fn d a : BitVec 5) (imm : BitVec 10) : rz (wWS maj fn d a imm) 7 5 = ((d == 0#5)) := by
  refine rz_of ?_
  rw [wWS_toNat]
  simp only [beq_zero_of, extract_of, BitVec.toNat_ofNat, ← Bool.decide_and]
  rw [decide_eq_decide]
  omega
@[simp] theorem wWS_z12_5 (maj : BitVec 6) (fn d a : BitVec 5) (imm : BitVec 10) : rz (wWS maj fn d a imm) 12 5 = ((a == 0#5)) := by
  refine rz_of ?_
  rw [wWS_toNat]
  simp only [beq_zero_of, extract_of, BitVec.toNat_ofNat, ← Bool.decide_and]
  rw [decide_eq_decide]
  omega
@[simp] theorem wWS_z25_7 (maj : BitVec 6) (fn d a : BitVec 5) (imm : BitVec 10) : rz (wWS maj fn d a imm) 25 7 = ((imm.extractLsb' 3 7 == 0#7)) := by
  refine rz_of ?_
  rw [wWS_toNat]
  simp only [beq_zero_of, extract_of, BitVec.toNat_ofNat, ← Bool.decide_and]
  rw [decide_eq_decide]
  omega
@[simp] theorem wWS_z7_15 (maj : BitVec 6) (fn d a : BitVec 5) (imm : BitVec 10) : rz (wWS maj fn d a imm) 7 15 = ((d == 0#5) && (a == 0#5) && (fn == 0#5)) := by
  refine rz_of ?_
  rw [wWS_toNat]
  simp only [beq_zero_of, extract_of, BitVec.toNat_ofNat, ← Bool.decide_and]
  rw [decide_eq_decide]
  omega
@[simp] theorem wWS_z27_5 (maj : BitVec 6) (fn d a : BitVec 5) (imm : BitVec 10) : rz (wWS maj fn d a imm) 27 5 = ((imm.extractLsb' 5 5 == 0#5)) := by
  refine rz_of ?_
  rw [wWS_toNat]
  simp only [beq_zero_of, extract_of, BitVec.toNat_ofNat, ← Bool.decide_and]
  rw [decide_eq_decide]
  omega

/-! ### wGrp -/

theorem wGrp_toNat (fn : BitVec 1) (g : BitVec 12) (d : BitVec 5) :
    BitVec.toNat (w := 32) (wGrp fn g d) = (d).toNat * 128 + (g).toNat * 4096 + (fn).toNat * 16777216 + 31 := by
  refine (append_toNat (0#7 ++ fn ++ g ++ d ++ 0x0F#6) 1#1).trans ?_
  simp only [append_toNat, BitVec.toNat_ofNat]
  omega

@[simp] theorem wGrp_b0 (fn : BitVec 1) (g : BitVec 12) (d : BitVec 5) : fbit (wGrp fn g d) 0 = true := by
  refine fbit_of ?_
  rw [wGrp_toNat]
  simp only [decide_eq_true_eq, decide_eq_false_iff_not]
  omega
@[simp] theorem wGrp_f1_6 (fn : BitVec 1) (g : BitVec 12) (d : BitVec 5) : fld (wGrp fn g d) 1 6 = 0x0F#6 := by
  refine fld_of ?_
  rw [wGrp_toNat]
  have := (0#1).isLt
  simp only [BitVec.toNat_ofNat]
  omega
@[simp] theorem wGrp_f7_5 (fn : BitVec 1) (g : BitVec 12) (d : BitVec 5) : fld (wGrp fn g d) 7 5 = d := by
  refine fld_of ?_
  rw [wGrp_toNat]
  omega
@[simp] theorem wGrp_f12_12 (fn : BitVec 1) (g : BitVec 12) (d : BitVec 5) : fld (wGrp fn g d) 12 12 = g := by
  refine fld_of ?_
  rw [wGrp_toNat]
  omega
@[simp] theorem wGrp_b24 (fn : BitVec 1) (g : BitVec 12) (d : BitVec 5) : fbit (wGrp fn g d) 24 = (fn).getLsbD 0 := by
  refine fbit_of ?_
  rw [wGrp_toNat, bit_of, decide_eq_decide]
  omega
@[simp] theorem wGrp_z25_7 (fn : BitVec 1) (g : BitVec 12) (d : BitVec 5) : rz (wGrp fn g d) 25 7 = true := by
  refine rz_of ?_
  rw [wGrp_toNat]
  simp only [decide_eq_true_eq]
  omega

/-! ### wStg -/

theorem wStg_toNat (sz : BitVec 3) (rel : Bool) (l : BitVec 2) (g : BitVec 12) (ofs v : BitVec 5) :
    BitVec.toNat (w := 32) (wStg sz rel l g ofs v) = (sz).toNat * 2 + (l).toNat * 128 + (g).toNat * 512 + (ofs).toNat * 2097152 + (v).toNat * 67108864 + (b1 rel).toNat * 2147483648 + 113 := by
  refine (append_toNat (b1 rel ++ v ++ ofs ++ g ++ l ++ 7#3 ++ sz) 1#1).trans ?_
  simp only [append_toNat, BitVec.toNat_ofNat]
  omega

@[simp] theorem wStg_b0 (sz : BitVec 3) (rel : Bool) (l : BitVec 2) (g : BitVec 12) (ofs v : BitVec 5) : fbit (wStg sz rel l g ofs v) 0 = true := by
  refine fbit_of ?_
  rw [wStg_toNat]
  simp only [decide_eq_true_eq, decide_eq_false_iff_not]
  omega
@[simp] theorem wStg_f1_3 (sz : BitVec 3) (rel : Bool) (l : BitVec 2) (g : BitVec 12) (ofs v : BitVec 5) : fld (wStg sz rel l g ofs v) 1 3 = sz := by
  refine fld_of ?_
  rw [wStg_toNat]
  omega
@[simp] theorem wStg_b31 (sz : BitVec 3) (rel : Bool) (l : BitVec 2) (g : BitVec 12) (ofs v : BitVec 5) : fbit (wStg sz rel l g ofs v) 31 = rel := by
  refine fbit_of ?_
  rw [wStg_toNat]
  have h : (b1 rel).toNat = rel.toNat := by cases rel <;> rfl
  rw [h]
  cases rel <;> (simp only [Bool.toNat_true, Bool.toNat_false, decide_eq_true_eq, decide_eq_false_iff_not]; omega)
@[simp] theorem wStg_f7_2 (sz : BitVec 3) (rel : Bool) (l : BitVec 2) (g : BitVec 12) (ofs v : BitVec 5) : fld (wStg sz rel l g ofs v) 7 2 = l := by
  refine fld_of ?_
  rw [wStg_toNat]
  omega
@[simp] theorem wStg_f9_12 (sz : BitVec 3) (rel : Bool) (l : BitVec 2) (g : BitVec 12) (ofs v : BitVec 5) : fld (wStg sz rel l g ofs v) 9 12 = g := by
  refine fld_of ?_
  rw [wStg_toNat]
  omega
@[simp] theorem wStg_f21_5 (sz : BitVec 3) (rel : Bool) (l : BitVec 2) (g : BitVec 12) (ofs v : BitVec 5) : fld (wStg sz rel l g ofs v) 21 5 = ofs := by
  refine fld_of ?_
  rw [wStg_toNat]
  omega
@[simp] theorem wStg_f26_5 (sz : BitVec 3) (rel : Bool) (l : BitVec 2) (g : BitVec 12) (ofs v : BitVec 5) : fld (wStg sz rel l g ofs v) 26 5 = v := by
  refine fld_of ?_
  rw [wStg_toNat]
  omega

/-! ### wLui -/

theorem wLui_toNat (d : BitVec 5) (imm : BitVec 19) :
    BitVec.toNat (w := 32) (imm ++ 0#1 ++ d ++ 4#6 ++ 1#1) = (d).toNat * 128 + (imm).toNat * 8192 + 9 := by
  refine (append_toNat (imm ++ 0#1 ++ d ++ 4#6) 1#1).trans ?_
  simp only [append_toNat, BitVec.toNat_ofNat]
  omega

@[simp] theorem wLui_b0 (d : BitVec 5) (imm : BitVec 19) : fbit (imm ++ 0#1 ++ d ++ 4#6 ++ 1#1) 0 = true := by
  refine fbit_of ?_
  rw [wLui_toNat]
  simp only [decide_eq_true_eq, decide_eq_false_iff_not]
  omega
@[simp] theorem wLui_f1_6 (d : BitVec 5) (imm : BitVec 19) : fld (imm ++ 0#1 ++ d ++ 4#6 ++ 1#1) 1 6 = 4#6 := by
  refine fld_of ?_
  rw [wLui_toNat]
  have := (0#1).isLt
  simp only [BitVec.toNat_ofNat]
  omega
@[simp] theorem wLui_f7_5 (d : BitVec 5) (imm : BitVec 19) : fld (imm ++ 0#1 ++ d ++ 4#6 ++ 1#1) 7 5 = d := by
  refine fld_of ?_
  rw [wLui_toNat]
  omega
@[simp] theorem wLui_b12 (d : BitVec 5) (imm : BitVec 19) : fbit (imm ++ 0#1 ++ d ++ 4#6 ++ 1#1) 12 = false := by
  refine fbit_of ?_
  rw [wLui_toNat]
  simp only [decide_eq_true_eq, decide_eq_false_iff_not]
  omega
@[simp] theorem wLui_f13_19 (d : BitVec 5) (imm : BitVec 19) : fld (imm ++ 0#1 ++ d ++ 4#6 ++ 1#1) 13 19 = imm := by
  refine fld_of ?_
  rw [wLui_toNat]
  omega

/-! ### wApc -/

theorem wApc_toNat (d : BitVec 5) (imm : BitVec 19) :
    BitVec.toNat (w := 32) (imm ++ 1#1 ++ d ++ 4#6 ++ 1#1) = (d).toNat * 128 + (imm).toNat * 8192 + 4105 := by
  refine (append_toNat (imm ++ 1#1 ++ d ++ 4#6) 1#1).trans ?_
  simp only [append_toNat, BitVec.toNat_ofNat]
  omega

@[simp] theorem wApc_b0 (d : BitVec 5) (imm : BitVec 19) : fbit (imm ++ 1#1 ++ d ++ 4#6 ++ 1#1) 0 = true := by
  refine fbit_of ?_
  rw [wApc_toNat]
  simp only [decide_eq_true_eq, decide_eq_false_iff_not]
  omega
@[simp] theorem wApc_f1_6 (d : BitVec 5) (imm : BitVec 19) : fld (imm ++ 1#1 ++ d ++ 4#6 ++ 1#1) 1 6 = 4#6 := by
  refine fld_of ?_
  rw [wApc_toNat]
  have := (0#1).isLt
  simp only [BitVec.toNat_ofNat]
  omega
@[simp] theorem wApc_f7_5 (d : BitVec 5) (imm : BitVec 19) : fld (imm ++ 1#1 ++ d ++ 4#6 ++ 1#1) 7 5 = d := by
  refine fld_of ?_
  rw [wApc_toNat]
  omega
@[simp] theorem wApc_b12 (d : BitVec 5) (imm : BitVec 19) : fbit (imm ++ 1#1 ++ d ++ 4#6 ++ 1#1) 12 = true := by
  refine fbit_of ?_
  rw [wApc_toNat]
  simp only [decide_eq_true_eq, decide_eq_false_iff_not]
  omega
@[simp] theorem wApc_f13_19 (d : BitVec 5) (imm : BitVec 19) : fld (imm ++ 1#1 ++ d ++ 4#6 ++ 1#1) 13 19 = imm := by
  refine fld_of ?_
  rw [wApc_toNat]
  omega

/-! ### wJmp -/

theorem wJmp_toNat (off : BitVec 22) :
    BitVec.toNat (w := 32) (off ++ 0#3 ++ 0x29#6 ++ 1#1) = (off).toNat * 1024 + 83 := by
  refine (append_toNat (off ++ 0#3 ++ 0x29#6) 1#1).trans ?_
  simp only [append_toNat, BitVec.toNat_ofNat]
  omega

@[simp] theorem wJmp_b0 (off : BitVec 22) : fbit (off ++ 0#3 ++ 0x29#6 ++ 1#1) 0 = true := by
  refine fbit_of ?_
  rw [wJmp_toNat]
  simp only [decide_eq_true_eq, decide_eq_false_iff_not]
  omega
@[simp] theorem wJmp_f1_6 (off : BitVec 22) : fld (off ++ 0#3 ++ 0x29#6 ++ 1#1) 1 6 = 0x29#6 := by
  refine fld_of ?_
  rw [wJmp_toNat]
  have := (0#1).isLt
  simp only [BitVec.toNat_ofNat]
  omega
@[simp] theorem wJmp_f7_3 (off : BitVec 22) : fld (off ++ 0#3 ++ 0x29#6 ++ 1#1) 7 3 = 0#3 := by
  refine fld_of ?_
  rw [wJmp_toNat]
  have := (0#1).isLt
  simp only [BitVec.toNat_ofNat]
  omega
@[simp] theorem wJmp_f10_22 (off : BitVec 22) : fld (off ++ 0#3 ++ 0x29#6 ++ 1#1) 10 22 = off := by
  refine fld_of ?_
  rw [wJmp_toNat]
  omega

/-! ### wCall -/

theorem wCall_toNat (off : BitVec 22) :
    BitVec.toNat (w := 32) (off ++ 1#3 ++ 0x29#6 ++ 1#1) = (off).toNat * 1024 + 211 := by
  refine (append_toNat (off ++ 1#3 ++ 0x29#6) 1#1).trans ?_
  simp only [append_toNat, BitVec.toNat_ofNat]
  omega

@[simp] theorem wCall_b0 (off : BitVec 22) : fbit (off ++ 1#3 ++ 0x29#6 ++ 1#1) 0 = true := by
  refine fbit_of ?_
  rw [wCall_toNat]
  simp only [decide_eq_true_eq, decide_eq_false_iff_not]
  omega
@[simp] theorem wCall_f1_6 (off : BitVec 22) : fld (off ++ 1#3 ++ 0x29#6 ++ 1#1) 1 6 = 0x29#6 := by
  refine fld_of ?_
  rw [wCall_toNat]
  have := (0#1).isLt
  simp only [BitVec.toNat_ofNat]
  omega
@[simp] theorem wCall_f7_3 (off : BitVec 22) : fld (off ++ 1#3 ++ 0x29#6 ++ 1#1) 7 3 = 1#3 := by
  refine fld_of ?_
  rw [wCall_toNat]
  have := (0#1).isLt
  simp only [BitVec.toNat_ofNat]
  omega
@[simp] theorem wCall_f10_22 (off : BitVec 22) : fld (off ++ 1#3 ++ 0x29#6 ++ 1#1) 10 22 = off := by
  refine fld_of ?_
  rw [wCall_toNat]
  omega

/-! ### Operand codes -/

@[simp] theorem VTy.ofBits_bits (t : VTy) : VTy.ofBits t.bits = some t := by cases t <;> rfl
@[simp] theorem Scope.ofBits_bits (t : Scope) : Scope.ofBits t.bits = some t := by cases t <;> rfl
@[simp] theorem Ord.ofBits_bits (t : Ord) : Ord.ofBits t.bits = t := by cases t <;> rfl
@[simp] theorem FenceKind.ofBits_bits (t : FenceKind) : FenceKind.ofBits t.bits = some t := by cases t <;> rfl
@[simp] theorem RMode.ofBits_bits (t : RMode) : RMode.ofBits t.bits = t := by cases t <;> rfl
@[simp] theorem SemQ.ofBits_bits (t : SemQ) : SemQ.ofBits t.bits = t := by cases t <;> rfl
@[simp] theorem BarLevel.ofBits_bits (t : BarLevel) : BarLevel.ofBits t.bits = some t := by cases t <;> rfl

/-! ### Bytes and parcels -/

theorem word_of_parcels (w : BitVec 32) :
    parcelOf (w.extractLsb' 16 8) (w.extractLsb' 24 8) ++ parcelOf (w.extractLsb' 0 8) (w.extractLsb' 8 8) = w := by
  apply BitVec.eq_of_toNat_eq
  refine (append_toNat _ _).trans ?_
  have h (a b : Byte) : (parcelOf a b).toNat = b.toNat * 256 + a.toNat := append_toNat b a
  rw [h, h, extract_of, extract_of, extract_of, extract_of]
  omega

theorem word_first_bit (w : BitVec 32) : isWordParcel (parcelOf (w.extractLsb' 0 8) (w.extractLsb' 8 8)) = fbit w 0 := by
  have h (a b : Byte) : (parcelOf a b).toNat = b.toNat * 256 + a.toNat := append_toNat b a
  rw [isWordParcel, fbit, bit_of, bit_of, decide_eq_decide, h, extract_of, extract_of]
  omega

/-- The bytes of a word decode as the word does. -/
theorem decode_wordBytes {w : BitVec 32} (h : fbit w 0 = true) (rest : List Byte) :
    decode (wordBytes w ++ rest) = (decodeWord w).map fun i => (i, rest) := by
  simp only [wordBytes, List.cons_append, List.nil_append, decode, word_first_bit, h, if_true, word_of_parcels]

/-- An instruction that has a word decodes as its word does. -/
theorem decode_encode_word {i : Instr} {w : BitVec 32} (e : encodeWord i = some w) (h : fbit w 0 = true) (rest : List Byte) :
    decode (encode i ++ rest) = (decodeWord w).map fun i => (i, rest) := by
  rw [encode, e]
  exact decode_wordBytes h rest

theorem parcel_of_bytes (p : BitVec 16) : parcelOf (p.extractLsb' 0 8) (p.extractLsb' 8 8) = p := by
  apply BitVec.eq_of_toNat_eq
  refine (append_toNat _ _).trans ?_
  rw [extract_of, extract_of]
  omega

/-- An instruction that has a parcel decodes as its parcel does. -/
theorem decode_encode_parcel {i : Instr} {p : BitVec 16} (e0 : encodeWord i = none) (e : encodeParcel i = some p)
    (h : p.getLsbD 0 = false) (rest : List Byte) :
    decode (encode i ++ rest) = (decodeParcel p).map fun i => (i, rest) := by
  simp only [encode, e0, e, List.cons_append, List.nil_append, decode, parcel_of_bytes, isWordParcel, h, Bool.false_eq_true, if_false]

end Sys2Proof
end

