-- ==== Sys2Proof/Laws/PerInstr.lean ====
section
/-!
SUPPORT. Laws/PerInstr.lean: the statements made for all instructions, one lemma per constructor. Family `Coding`: decoding what the
encoder writes gives the instruction back, whatever follows it.
-/
namespace Sys2Proof.Laws.Coding

set_option linter.unusedSimpArgs false
set_option Elab.async false

/-- Decoding the bytes of a well-formed instruction gives the instruction and leaves what follows; a step of the machine that no
stream executes has no bytes. -/
def Statement (i : Instr) : Prop :=
  i.wf = true → encode i ≠ [] → ∀ rest : List Byte, decode (encode i ++ rest) = some (i, rest)

/-! ### Operands that fill a part of their field -/

@[simp] theorem low4_2 (x : BitVec 2) : (0#4 ++ x : BitVec 6).extractLsb' 0 2 = x := by revert x; decide
@[simp] theorem high4_2 (x : BitVec 2) : (0#4 ++ x : BitVec 6).extractLsb' 2 4 = 0#4 := by revert x; decide
@[simp] theorem low2_4 (x : BitVec 4) : (0#2 ++ x : BitVec 6).extractLsb' 0 4 = x := by revert x; decide
@[simp] theorem high2_4 (x : BitVec 4) : (0#2 ++ x : BitVec 6).extractLsb' 4 2 = 0#2 := by revert x; decide
@[simp] theorem low1_5 (x : BitVec 5) : (0#1 ++ x : BitVec 6).extractLsb' 0 5 = x := by revert x; decide
@[simp] theorem high1_5 (x : BitVec 5) : (0#1 ++ x : BitVec 6).extractLsb' 5 1 = 0#1 := by revert x; decide
@[simp] theorem low5_1 (x : BitVec 1) : (0#5 ++ x : BitVec 6).extractLsb' 0 1 = x := by revert x; decide
@[simp] theorem high5_1 (x : BitVec 1) : (0#5 ++ x : BitVec 6).extractLsb' 1 5 = 0#5 := by revert x; decide
@[simp] theorem low3_2 (x : BitVec 2) : (0#3 ++ x : BitVec 5).extractLsb' 0 2 = x := by revert x; decide
@[simp] theorem high3_2 (x : BitVec 2) : (0#3 ++ x : BitVec 5).extractLsb' 2 3 = 0#3 := by revert x; decide
@[simp] theorem low1_2 (x : BitVec 2) : (0#1 ++ x : BitVec 3).extractLsb' 0 2 = x := by revert x; decide
@[simp] theorem high1_2 (x : BitVec 2) : (0#1 ++ x : BitVec 3).extractLsb' 2 1 = 0#1 := by revert x; decide
@[simp] theorem low1_4 (x : BitVec 4) : (0#1 ++ x : BitVec 5).extractLsb' 0 4 = x := by revert x; decide
@[simp] theorem high1_4 (x : BitVec 4) : (0#1 ++ x : BitVec 5).extractLsb' 4 1 = 0#1 := by revert x; decide
@[simp] theorem low1_6 (x : BitVec 6) : (0#1 ++ x : BitVec 7).extractLsb' 0 6 = x := by revert x; decide
@[simp] theorem high1_6 (x : BitVec 6) : (0#1 ++ x : BitVec 7).extractLsb' 6 1 = 0#1 := by revert x; decide
@[simp] theorem low2_5 (x : BitVec 5) : (0#2 ++ x : BitVec 7).extractLsb' 0 5 = x := by revert x; decide
@[simp] theorem high2_5 (x : BitVec 5) : (0#2 ++ x : BitVec 7).extractLsb' 5 2 = 0#2 := by revert x; decide
@[simp] theorem low2_2 (x : BitVec 2) : (0#2 ++ x : BitVec 4).extractLsb' 0 2 = x := by revert x; decide
@[simp] theorem high2_2 (x : BitVec 2) : (0#2 ++ x : BitVec 4).extractLsb' 2 2 = 0#2 := by revert x; decide
@[simp] theorem low1_3 (x : BitVec 3) : (0#1 ++ x : BitVec 4).extractLsb' 0 3 = x := by revert x; decide
@[simp] theorem high1_3 (x : BitVec 3) : (0#1 ++ x : BitVec 4).extractLsb' 3 1 = 0#1 := by revert x; decide
@[simp] theorem low6_6 (x : BitVec 6) : (0#6 ++ x : BitVec 12).extractLsb' 0 6 = x := by revert x; decide
@[simp] theorem high6_6 (x : BitVec 6) : (0#6 ++ x : BitVec 12).extractLsb' 6 6 = 0#6 := by revert x; decide
@[simp] theorem low2_8 (x : BitVec 8) : (0#2 ++ x : BitVec 10).extractLsb' 0 8 = x := by revert x; decide
@[simp] theorem high2_8 (x : BitVec 8) : (0#2 ++ x : BitVec 10).extractLsb' 8 2 = 0#2 := by revert x; decide
@[simp] theorem flagLowTop4 (c : Bool) : (0#4 ++ BitVec.ofBool c : BitVec 5).extractLsb' 1 4 = 0#4 := by cases c <;> rfl
@[simp] theorem flagLowTop1 (c : Bool) : (0#1 ++ BitVec.ofBool c : BitVec 2).extractLsb' 1 1 = 0#1 := by cases c <;> rfl
@[simp] theorem flagOnly (c : Bool) : (BitVec.ofBool c)[0] = c := by cases c <;> rfl
@[simp] theorem flag4 (c : Bool) : (0#4 ++ BitVec.ofBool c : BitVec 5)[0] = c := by cases c <;> rfl
@[simp] theorem ofBits_i8 : VTy.ofBits 0#3 = some .i8 := rfl
@[simp] theorem ofBits_i64 : VTy.ofBits 3#3 = some .i64 := rfl
@[simp] theorem csetClr_low (x : BitVec 8) : (1#2 ++ x : BitVec 10).extractLsb' 0 8 = x := by revert x; decide
@[simp] theorem csetClr_high (x : BitVec 8) : (1#2 ++ x : BitVec 10).extractLsb' 8 2 = 1#2 := by revert x; decide
@[simp] theorem fence_kind (k : FenceKind) (s : Scope) : (0#4 ++ k.bits ++ s.bits : BitVec 10).extractLsb' 4 2 = k.bits := by
  cases k <;> cases s <;> rfl
@[simp] theorem fence_scope (k : FenceKind) (s : Scope) : (0#4 ++ k.bits ++ s.bits : BitVec 10).extractLsb' 0 4 = s.bits := by
  cases k <;> cases s <;> rfl
@[simp] theorem fence_zero (k : FenceKind) (s : Scope) : (0#4 ++ k.bits ++ s.bits : BitVec 10).extractLsb' 6 4 = 0#4 := by
  cases k <;> cases s <;> rfl
@[simp] theorem amo_op (c : Bool) (o : AmoOp) : (BitVec.ofBool c ++ o.bits : BitVec 4).extractLsb' 0 3 = o.bits := by
  cases c <;> cases o <;> rfl
@[simp] theorem amo_dbl (c : Bool) (o : AmoOp) : (BitVec.ofBool c ++ o.bits : BitVec 4)[3] = c := by cases c <;> cases o <;> rfl
@[simp] theorem amo_bits (o : AmoOp) : AmoOp.ofBits o.bits = o := by cases o <;> rfl
@[simp] theorem vsel_flag (p : BitVec 3) : (1#1 ++ p : BitVec 4)[3] = true := by revert p; decide
@[simp] theorem vsel_pm (p : BitVec 3) : (1#1 ++ p : BitVec 4).extractLsb' 0 3 = p := by revert p; decide
@[simp] theorem vext_high (x : BitVec 1) (d : BitVec 5) : (x ++ d : BitVec 6).extractLsb' 5 1 = x := by revert x d; decide
@[simp] theorem vext_low (x : BitVec 1) (d : BitVec 5) : (x ++ d : BitVec 6).extractLsb' 0 5 = d := by revert x d; decide
@[simp] theorem vext_k (k : BitVec 7) : (k.extractLsb' 6 1 ++ k.extractLsb' 0 6 : BitVec 7) = k := by revert k; decide
@[simp] theorem vcvt_dir (a c : Bool) (r : RMode) : (BitVec.ofBool a ++ BitVec.ofBool c ++ r.bits : BitVec 4)[3] = a := by
  cases a <;> cases c <;> cases r <;> rfl
@[simp] theorem vcvt_auto (a c : Bool) (r : RMode) : (BitVec.ofBool a ++ BitVec.ofBool c ++ r.bits : BitVec 4)[2] = c := by
  cases a <;> cases c <;> cases r <;> rfl
@[simp] theorem vcvt_rm (a c : Bool) (r : RMode) : (BitVec.ofBool a ++ BitVec.ofBool c ++ r.bits : BitVec 4).extractLsb' 0 2 = r.bits := by
  cases a <;> cases c <;> cases r <;> rfl
@[simp] theorem vcvt_tab (c : Bool) (k : BitVec 4) : (0#1 ++ BitVec.ofBool c ++ k : BitVec 6)[4] = c := by
  cases c <;> (revert k; decide)
@[simp] theorem vcvt_code (c : Bool) (k : BitVec 4) : (0#1 ++ BitVec.ofBool c ++ k : BitVec 6).extractLsb' 0 4 = k := by
  cases c <;> (revert k; decide)
@[simp] theorem vcvt_zero (c : Bool) (k : BitVec 4) : (0#1 ++ BitVec.ofBool c ++ k : BitVec 6).extractLsb' 5 1 = 0#1 := by
  cases c <;> (revert k; decide)
@[simp] theorem trd_fn (p : BitVec 2) : (1#2 ++ p : BitVec 4).extractLsb' 2 2 = 1#2 := by revert p; decide
@[simp] theorem trd_p (p : BitVec 2) : (1#2 ++ p : BitVec 4).extractLsb' 0 2 = p := by revert p; decide
@[simp] theorem mma_zero (z f : Bool) : (0#3 ++ BitVec.ofBool z ++ BitVec.ofBool f : BitVec 5).extractLsb' 2 3 = 0#3 := by
  cases z <;> cases f <;> rfl
@[simp] theorem mma_z (z f : Bool) : (0#3 ++ BitVec.ofBool z ++ BitVec.ofBool f : BitVec 5)[1] = z := by cases z <;> cases f <;> rfl
@[simp] theorem mma_fo (z f : Bool) : (0#3 ++ BitVec.ofBool z ++ BitVec.ofBool f : BitVec 5)[0] = f := by cases z <;> cases f <;> rfl
@[simp] theorem mcvt_zero (c : Bool) (r : RMode) : (0#2 ++ BitVec.ofBool c ++ r.bits : BitVec 5).extractLsb' 3 2 = 0#2 := by
  cases c <;> cases r <;> rfl
@[simp] theorem mcvt_auto (c : Bool) (r : RMode) : (0#2 ++ BitVec.ofBool c ++ r.bits : BitVec 5)[2] = c := by
  cases c <;> cases r <;> rfl
@[simp] theorem mcvt_rm (c : Bool) (r : RMode) : (0#2 ++ BitVec.ofBool c ++ r.bits : BitVec 5).extractLsb' 0 2 = r.bits := by
  cases c <;> cases r <;> rfl
@[simp] theorem qf_zero (a c e : Bool) :
    (0#2 ++ BitVec.ofBool a ++ BitVec.ofBool c ++ BitVec.ofBool e : BitVec 5).extractLsb' 3 2 = 0#2 := by
  cases a <;> cases c <;> cases e <;> rfl
@[simp] theorem qf_me (a c e : Bool) : (0#2 ++ BitVec.ofBool a ++ BitVec.ofBool c ++ BitVec.ofBool e : BitVec 5)[0] = e := by
  cases a <;> cases c <;> cases e <;> rfl
@[simp] theorem qf_ce (a c e : Bool) : (0#2 ++ BitVec.ofBool a ++ BitVec.ofBool c ++ BitVec.ofBool e : BitVec 5)[1] = c := by
  cases a <;> cases c <;> cases e <;> rfl
@[simp] theorem qf_cs (a c e : Bool) : (0#2 ++ BitVec.ofBool a ++ BitVec.ofBool c ++ BitVec.ofBool e : BitVec 5)[2] = a := by
  cases a <;> cases c <;> cases e <;> rfl
@[simp] theorem bar_level (l : BarLevel) : (0#7 ++ l.bits : BitVec 10).extractLsb' 0 3 = l.bits := by cases l <;> rfl
@[simp] theorem bar_zero (l : BarLevel) : (0#7 ++ l.bits : BitVec 10).extractLsb' 3 7 = 0#7 := by cases l <;> rfl
@[simp] theorem psave_zero (c : Bool) (v : BitVec 4) : (0#5 ++ BitVec.ofBool c ++ v : BitVec 10).extractLsb' 5 5 = 0#5 := by
  cases c <;> (revert v; decide)
@[simp] theorem psave_s (c : Bool) (v : BitVec 4) : (0#5 ++ BitVec.ofBool c ++ v : BitVec 10)[4] = c := by
  cases c <;> (revert v; decide)
@[simp] theorem psave_v (c : Bool) (v : BitVec 4) : (0#5 ++ BitVec.ofBool c ++ v : BitVec 10).extractLsb' 0 4 = v := by
  cases c <;> (revert v; decide)

/-! ### Majors (R124) -/

theorem major01 {w : BitVec 32} (h0 : fbit w 0 = true) (h : fld w 1 6 = 0x1#6) : decodeFields w = decAlu w := by
  unfold decodeFields; rw [h0, h]; rfl
theorem major02 {w : BitVec 32} (h0 : fbit w 0 = true) (h : fld w 1 6 = 0x2#6) : decodeFields w = decMulDiv w := by
  unfold decodeFields; rw [h0, h]; rfl
theorem major03 {w : BitVec 32} (h0 : fbit w 0 = true) (h : fld w 1 6 = 0x3#6) : decodeFields w = decAlui w := by
  unfold decodeFields; rw [h0, h]; rfl
theorem major05 {w : BitVec 32} (h0 : fbit w 0 = true) (h : fld w 1 6 = 0x5#6) : decodeFields w = decBits w := by
  unfold decodeFields; rw [h0, h]; rfl
theorem major06 {w : BitVec 32} (h0 : fbit w 0 = true) (h : fld w 1 6 = 0x6#6) : decodeFields w = decCmp w := by
  unfold decodeFields; rw [h0, h]; rfl
theorem major08 {w : BitVec 32} (h0 : fbit w 0 = true) (h : fld w 1 6 = 0x8#6) : decodeFields w = decLd w := by
  unfold decodeFields; rw [h0, h]; rfl
theorem major09 {w : BitVec 32} (h0 : fbit w 0 = true) (h : fld w 1 6 = 0x9#6) : decodeFields w = decSt w := by
  unfold decodeFields; rw [h0, h]; rfl
theorem major0A {w : BitVec 32} (h0 : fbit w 0 = true) (h : fld w 1 6 = 0xa#6) : decodeFields w = decLdv w := by
  unfold decodeFields; rw [h0, h]; rfl
theorem major0B {w : BitVec 32} (h0 : fbit w 0 = true) (h : fld w 1 6 = 0xb#6) : decodeFields w = decLdq w := by
  unfold decodeFields; rw [h0, h]; rfl
theorem major0C {w : BitVec 32} (h0 : fbit w 0 = true) (h : fld w 1 6 = 0xc#6) : decodeFields w = decSI w := by
  unfold decodeFields; rw [h0, h]; rfl
theorem major0D {w : BitVec 32} (h0 : fbit w 0 = true) (h : fld w 1 6 = 0xd#6) : decodeFields w = decAmo w := by
  unfold decodeFields; rw [h0, h]; rfl
theorem major0E {w : BitVec 32} (h0 : fbit w 0 = true) (h : fld w 1 6 = 0xe#6) : decodeFields w = decCas w := by
  unfold decodeFields; rw [h0, h]; rfl
theorem major10 {w : BitVec 32} (h0 : fbit w 0 = true) (h : fld w 1 6 = 0x10#6) : decodeFields w = decWV w 0x10 := by
  unfold decodeFields; rw [h0, h]; rfl
theorem major11 {w : BitVec 32} (h0 : fbit w 0 = true) (h : fld w 1 6 = 0x11#6) : decodeFields w = decWV w 0x11 := by
  unfold decodeFields; rw [h0, h]; rfl
theorem major12 {w : BitVec 32} (h0 : fbit w 0 = true) (h : fld w 1 6 = 0x12#6) : decodeFields w = decWV w 0x12 := by
  unfold decodeFields; rw [h0, h]; rfl
theorem major13 {w : BitVec 32} (h0 : fbit w 0 = true) (h : fld w 1 6 = 0x13#6) : decodeFields w = decWV w 0x13 := by
  unfold decodeFields; rw [h0, h]; rfl
theorem major14 {w : BitVec 32} (h0 : fbit w 0 = true) (h : fld w 1 6 = 0x14#6) : decodeFields w = decWV w 0x14 := by
  unfold decodeFields; rw [h0, h]; rfl
theorem major15 {w : BitVec 32} (h0 : fbit w 0 = true) (h : fld w 1 6 = 0x15#6) : decodeFields w = decWV w 0x15 := by
  unfold decodeFields; rw [h0, h]; rfl
theorem major16 {w : BitVec 32} (h0 : fbit w 0 = true) (h : fld w 1 6 = 0x16#6) : decodeFields w = decWV w 0x16 := by
  unfold decodeFields; rw [h0, h]; rfl
theorem major17 {w : BitVec 32} (h0 : fbit w 0 = true) (h : fld w 1 6 = 0x17#6) : decodeFields w = decWV w 0x17 := by
  unfold decodeFields; rw [h0, h]; rfl
theorem major18 {w : BitVec 32} (h0 : fbit w 0 = true) (h : fld w 1 6 = 0x18#6) : decodeFields w = decWV w 0x18 := by
  unfold decodeFields; rw [h0, h]; rfl
theorem major19 {w : BitVec 32} (h0 : fbit w 0 = true) (h : fld w 1 6 = 0x19#6) : decodeFields w = decLogic w := by
  unfold decodeFields; rw [h0, h]; rfl
theorem major1A {w : BitVec 32} (h0 : fbit w 0 = true) (h : fld w 1 6 = 0x1a#6) : decodeFields w = decVcmp w := by
  unfold decodeFields; rw [h0, h]; rfl
theorem major1B {w : BitVec 32} (h0 : fbit w 0 = true) (h : fld w 1 6 = 0x1b#6) : decodeFields w = decVmove w := by
  unfold decodeFields; rw [h0, h]; rfl
theorem major1C {w : BitVec 32} (h0 : fbit w 0 = true) (h : fld w 1 6 = 0x1c#6) : decodeFields w = decVcvt w := by
  unfold decodeFields; rw [h0, h]; rfl
theorem major1D {w : BitVec 32} (h0 : fbit w 0 = true) (h : fld w 1 6 = 0x1d#6) : decodeFields w = decLong w := by
  unfold decodeFields; rw [h0, h]; rfl
theorem major1E {w : BitVec 32} (h0 : fbit w 0 = true) (h : fld w 1 6 = 0x1e#6) : decodeFields w = decPred w := by
  unfold decodeFields; rw [h0, h]; rfl
theorem major1F {w : BitVec 32} (h0 : fbit w 0 = true) (h : fld w 1 6 = 0x1f#6) : decodeFields w = decTile w := by
  unfold decodeFields; rw [h0, h]; rfl
theorem major20 {w : BitVec 32} (h0 : fbit w 0 = true) (h : fld w 1 6 = 0x20#6) : decodeFields w = decMma w := by
  unfold decodeFields; rw [h0, h]; rfl
theorem major21 {w : BitVec 32} (h0 : fbit w 0 = true) (h : fld w 1 6 = 0x21#6) : decodeFields w = decSlot w := by
  unfold decodeFields; rw [h0, h]; rfl
theorem major22 {w : BitVec 32} (h0 : fbit w 0 = true) (h : fld w 1 6 = 0x22#6) : decodeFields w = decCopy w false := by
  unfold decodeFields; rw [h0, h]; rfl
theorem major23 {w : BitVec 32} (h0 : fbit w 0 = true) (h : fld w 1 6 = 0x23#6) : decodeFields w = decCopy w true := by
  unfold decodeFields; rw [h0, h]; rfl
theorem major24 {w : BitVec 32} (h0 : fbit w 0 = true) (h : fld w 1 6 = 0x24#6) : decodeFields w = decSem w := by
  unfold decodeFields; rw [h0, h]; rfl
theorem major25 {w : BitVec 32} (h0 : fbit w 0 = true) (h : fld w 1 6 = 0x25#6) : decodeFields w = decQf w := by
  unfold decodeFields; rw [h0, h]; rfl
theorem major28 {w : BitVec 32} (h0 : fbit w 0 = true) (h : fld w 1 6 = 0x28#6) : decodeFields w = decBr w := by
  unfold decodeFields; rw [h0, h]; rfl
theorem major29 {w : BitVec 32} (h0 : fbit w 0 = true) (h : fld w 1 6 = 0x29#6) : decodeFields w = decFlow w 0x29 := by
  unfold decodeFields; rw [h0, h]; rfl
theorem major2A {w : BitVec 32} (h0 : fbit w 0 = true) (h : fld w 1 6 = 0x2a#6) : decodeFields w = decFlow w 0x2a := by
  unfold decodeFields; rw [h0, h]; rfl
theorem major2B {w : BitVec 32} (h0 : fbit w 0 = true) (h : fld w 1 6 = 0x2b#6) : decodeFields w = decFlow w 0x2b := by
  unfold decodeFields; rw [h0, h]; rfl
theorem major2C {w : BitVec 32} (h0 : fbit w 0 = true) (h : fld w 1 6 = 0x2c#6) : decodeFields w = decFlow w 0x2c := by
  unfold decodeFields; rw [h0, h]; rfl
theorem major2D {w : BitVec 32} (h0 : fbit w 0 = true) (h : fld w 1 6 = 0x2d#6) : decodeFields w = decFlow w 0x2d := by
  unfold decodeFields; rw [h0, h]; rfl
theorem major30 {w : BitVec 32} (h0 : fbit w 0 = true) (h : fld w 1 6 = 0x30#6) : decodeFields w = decFence w := by
  unfold decodeFields; rw [h0, h]; rfl
theorem major31 {w : BitVec 32} (h0 : fbit w 0 = true) (h : fld w 1 6 = 0x31#6) : decodeFields w = decCtl w := by
  unfold decodeFields; rw [h0, h]; rfl
theorem major32 {w : BitVec 32} (h0 : fbit w 0 = true) (h : fld w 1 6 = 0x32#6) : decodeFields w = decBar w := by
  unfold decodeFields; rw [h0, h]; rfl
theorem major33 {w : BitVec 32} (h0 : fbit w 0 = true) (h : fld w 1 6 = 0x33#6) : decodeFields w = decPlan w := by
  unfold decodeFields; rw [h0, h]; rfl
theorem major34 {w : BitVec 32} (h0 : fbit w 0 = true) (h : fld w 1 6 = 0x34#6) : decodeFields w = decStat w := by
  unfold decodeFields; rw [h0, h]; rfl
theorem major35 {w : BitVec 32} (h0 : fbit w 0 = true) (h : fld w 1 6 = 0x35#6) : decodeFields w = decCsr w := by
  unfold decodeFields; rw [h0, h]; rfl
theorem major36 {w : BitVec 32} (h0 : fbit w 0 = true) (h : fld w 1 6 = 0x36#6) : decodeFields w = decSave w := by
  unfold decodeFields; rw [h0, h]; rfl

/-! ### The instructions -/

theorem add (i32 : Bool) (d a b : BitVec 5) : Statement (.add i32 d a b) := by
  intro hw _ rest
  refine (decode_encode_word rfl (by simp) rest).trans ?_
  rw [decodeWord, major01 (by simp) (by simp)]
  simp [decAlu, Option.filter, Option.map, accept, Instr.wf, postOk, mdI, b1, amBits, amPost]
theorem sub (i32 : Bool) (d a b : BitVec 5) : Statement (.sub i32 d a b) := by
  intro hw _ rest
  refine (decode_encode_word rfl (by simp) rest).trans ?_
  rw [decodeWord, major01 (by simp) (by simp)]
  simp [decAlu, Option.filter, Option.map, accept, Instr.wf, postOk, mdI, b1, amBits, amPost]
theorem and (d a b : BitVec 5) : Statement (.and d a b) := by
  intro hw _ rest
  refine (decode_encode_word rfl (by simp) rest).trans ?_
  rw [decodeWord, major01 (by simp) (by simp)]
  simp [decAlu, Option.filter, Option.map, accept, Instr.wf, postOk, mdI, b1, amBits, amPost]
theorem or (d a b : BitVec 5) : Statement (.or d a b) := by
  intro hw _ rest
  refine (decode_encode_word rfl (by simp) rest).trans ?_
  rw [decodeWord, major01 (by simp) (by simp)]
  simp [decAlu, Option.filter, Option.map, accept, Instr.wf, postOk, mdI, b1, amBits, amPost]
theorem xor (d a b : BitVec 5) : Statement (.xor d a b) := by
  intro hw _ rest
  refine (decode_encode_word rfl (by simp) rest).trans ?_
  rw [decodeWord, major01 (by simp) (by simp)]
  simp [decAlu, Option.filter, Option.map, accept, Instr.wf, postOk, mdI, b1, amBits, amPost]
theorem andn (d a b : BitVec 5) : Statement (.andn d a b) := by
  intro hw _ rest
  refine (decode_encode_word rfl (by simp) rest).trans ?_
  rw [decodeWord, major01 (by simp) (by simp)]
  simp [decAlu, Option.filter, Option.map, accept, Instr.wf, postOk, mdI, b1, amBits, amPost]
theorem sll (i32 : Bool) (d a b : BitVec 5) : Statement (.sll i32 d a b) := by
  intro hw _ rest
  refine (decode_encode_word rfl (by simp) rest).trans ?_
  rw [decodeWord, major01 (by simp) (by simp)]
  simp [decAlu, Option.filter, Option.map, accept, Instr.wf, postOk, mdI, b1, amBits, amPost]
theorem srl (i32 : Bool) (d a b : BitVec 5) : Statement (.srl i32 d a b) := by
  intro hw _ rest
  refine (decode_encode_word rfl (by simp) rest).trans ?_
  rw [decodeWord, major01 (by simp) (by simp)]
  simp [decAlu, Option.filter, Option.map, accept, Instr.wf, postOk, mdI, b1, amBits, amPost]
theorem sra (i32 : Bool) (d a b : BitVec 5) : Statement (.sra i32 d a b) := by
  intro hw _ rest
  refine (decode_encode_word rfl (by simp) rest).trans ?_
  rw [decodeWord, major01 (by simp) (by simp)]
  simp [decAlu, Option.filter, Option.map, accept, Instr.wf, postOk, mdI, b1, amBits, amPost]
theorem adds (i32 : Bool) (d a b : BitVec 5) : Statement (.adds i32 d a b) := by
  intro hw _ rest
  refine (decode_encode_word rfl (by simp) rest).trans ?_
  rw [decodeWord, major01 (by simp) (by simp)]
  simp [decAlu, Option.filter, Option.map, accept, Instr.wf, postOk, mdI, b1, amBits, amPost]
theorem subs (i32 : Bool) (d a b : BitVec 5) : Statement (.subs i32 d a b) := by
  intro hw _ rest
  refine (decode_encode_word rfl (by simp) rest).trans ?_
  rw [decodeWord, major01 (by simp) (by simp)]
  simp [decAlu, Option.filter, Option.map, accept, Instr.wf, postOk, mdI, b1, amBits, amPost]
theorem mul (i32 : Bool) (d a b : BitVec 5) : Statement (.mul i32 d a b) := by
  intro hw _ rest
  refine (decode_encode_word rfl (by simp) rest).trans ?_
  rw [decodeWord, major02 (by simp) (by simp)]
  simp [decMulDiv, Option.filter, Option.map, accept, Instr.wf, postOk, mdI, b1, amBits, amPost]
theorem mulh (d a b : BitVec 5) : Statement (.mulh d a b) := by
  intro hw _ rest
  refine (decode_encode_word rfl (by simp) rest).trans ?_
  rw [decodeWord, major02 (by simp) (by simp)]
  simp [decMulDiv, Option.filter, Option.map, accept, Instr.wf, postOk, mdI, b1, amBits, amPost]
theorem mulhu (d a b : BitVec 5) : Statement (.mulhu d a b) := by
  intro hw _ rest
  refine (decode_encode_word rfl (by simp) rest).trans ?_
  rw [decodeWord, major02 (by simp) (by simp)]
  simp [decMulDiv, Option.filter, Option.map, accept, Instr.wf, postOk, mdI, b1, amBits, amPost]
theorem div (i32 : Bool) (d a b : BitVec 5) : Statement (.div i32 d a b) := by
  intro hw _ rest
  refine (decode_encode_word rfl (by simp) rest).trans ?_
  rw [decodeWord, major02 (by simp) (by simp)]
  simp [decMulDiv, Option.filter, Option.map, accept, Instr.wf, postOk, mdI, b1, amBits, amPost]
theorem divu (i32 : Bool) (d a b : BitVec 5) : Statement (.divu i32 d a b) := by
  intro hw _ rest
  refine (decode_encode_word rfl (by simp) rest).trans ?_
  rw [decodeWord, major02 (by simp) (by simp)]
  simp [decMulDiv, Option.filter, Option.map, accept, Instr.wf, postOk, mdI, b1, amBits, amPost]
theorem rem (i32 : Bool) (d a b : BitVec 5) : Statement (.rem i32 d a b) := by
  intro hw _ rest
  refine (decode_encode_word rfl (by simp) rest).trans ?_
  rw [decodeWord, major02 (by simp) (by simp)]
  simp [decMulDiv, Option.filter, Option.map, accept, Instr.wf, postOk, mdI, b1, amBits, amPost]
theorem remu (i32 : Bool) (d a b : BitVec 5) : Statement (.remu i32 d a b) := by
  intro hw _ rest
  refine (decode_encode_word rfl (by simp) rest).trans ?_
  rw [decodeWord, major02 (by simp) (by simp)]
  simp [decMulDiv, Option.filter, Option.map, accept, Instr.wf, postOk, mdI, b1, amBits, amPost]
theorem addi (d a : BitVec 5) (imm : BitVec 12) : Statement (.addi d a imm) := by
  intro hw _ rest
  refine (decode_encode_word rfl (by simp) rest).trans ?_
  rw [decodeWord, major03 (by simp) (by simp)]
  simp [decAlui, Option.filter, Option.map, accept, Instr.wf, postOk, mdI, b1, amBits, amPost]
theorem andi (d a : BitVec 5) (imm : BitVec 12) : Statement (.andi d a imm) := by
  intro hw _ rest
  refine (decode_encode_word rfl (by simp) rest).trans ?_
  rw [decodeWord, major03 (by simp) (by simp)]
  simp [decAlui, Option.filter, Option.map, accept, Instr.wf, postOk, mdI, b1, amBits, amPost]
theorem ori (d a : BitVec 5) (imm : BitVec 12) : Statement (.ori d a imm) := by
  intro hw _ rest
  refine (decode_encode_word rfl (by simp) rest).trans ?_
  rw [decodeWord, major03 (by simp) (by simp)]
  simp [decAlui, Option.filter, Option.map, accept, Instr.wf, postOk, mdI, b1, amBits, amPost]
theorem xori (d a : BitVec 5) (imm : BitVec 12) : Statement (.xori d a imm) := by
  intro hw _ rest
  refine (decode_encode_word rfl (by simp) rest).trans ?_
  rw [decodeWord, major03 (by simp) (by simp)]
  simp [decAlui, Option.filter, Option.map, accept, Instr.wf, postOk, mdI, b1, amBits, amPost]
theorem slli (d a : BitVec 5) (sh : BitVec 6) : Statement (.slli d a sh) := by
  intro hw _ rest
  refine (decode_encode_word rfl (by simp) rest).trans ?_
  rw [decodeWord, major03 (by simp) (by simp)]
  simp [decAlui, Option.filter, Option.map, accept, Instr.wf, postOk, mdI, b1, amBits, amPost]
theorem srli (d a : BitVec 5) (sh : BitVec 6) : Statement (.srli d a sh) := by
  intro hw _ rest
  refine (decode_encode_word rfl (by simp) rest).trans ?_
  rw [decodeWord, major03 (by simp) (by simp)]
  simp [decAlui, Option.filter, Option.map, accept, Instr.wf, postOk, mdI, b1, amBits, amPost]
theorem srai (d a : BitVec 5) (sh : BitVec 6) : Statement (.srai d a sh) := by
  intro hw _ rest
  refine (decode_encode_word rfl (by simp) rest).trans ?_
  rw [decodeWord, major03 (by simp) (by simp)]
  simp [decAlui, Option.filter, Option.map, accept, Instr.wf, postOk, mdI, b1, amBits, amPost]
theorem addiI32 (d a : BitVec 5) (imm : BitVec 12) : Statement (.addiI32 d a imm) := by
  intro hw _ rest
  refine (decode_encode_word rfl (by simp) rest).trans ?_
  rw [decodeWord, major03 (by simp) (by simp)]
  simp [decAlui, Option.filter, Option.map, accept, Instr.wf, postOk, mdI, b1, amBits, amPost]
theorem lui (d : BitVec 5) (imm : BitVec 19) : Statement (.lui d imm) := by
  intro hw _ rest
  refine (decode_encode_word rfl (by simp) rest).trans ?_
  simp [decodeWord, decodeFields, Option.filter, Option.map, accept, Instr.wf, postOk, mdI, b1, amBits, amPost]
theorem apc (d : BitVec 5) (imm : BitVec 19) : Statement (.apc d imm) := by
  intro hw _ rest
  refine (decode_encode_word rfl (by simp) rest).trans ?_
  simp [decodeWord, decodeFields, Option.filter, Option.map, accept, Instr.wf, postOk, mdI, b1, amBits, amPost]
theorem clz (d a : BitVec 5) : Statement (.clz d a) := by
  intro hw _ rest
  refine (decode_encode_word rfl (by simp) rest).trans ?_
  rw [decodeWord, major05 (by simp) (by simp)]
  simp [decBits, Option.filter, Option.map, accept, Instr.wf, postOk, mdI, b1, amBits, amPost]
theorem ctz (d a : BitVec 5) : Statement (.ctz d a) := by
  intro hw _ rest
  refine (decode_encode_word rfl (by simp) rest).trans ?_
  rw [decodeWord, major05 (by simp) (by simp)]
  simp [decBits, Option.filter, Option.map, accept, Instr.wf, postOk, mdI, b1, amBits, amPost]
theorem cpop (d a : BitVec 5) : Statement (.cpop d a) := by
  intro hw _ rest
  refine (decode_encode_word rfl (by simp) rest).trans ?_
  rw [decodeWord, major05 (by simp) (by simp)]
  simp [decBits, Option.filter, Option.map, accept, Instr.wf, postOk, mdI, b1, amBits, amPost]
theorem min (d a b : BitVec 5) : Statement (.min d a b) := by
  intro hw _ rest
  refine (decode_encode_word rfl (by simp) rest).trans ?_
  rw [decodeWord, major05 (by simp) (by simp)]
  simp [decBits, Option.filter, Option.map, accept, Instr.wf, postOk, mdI, b1, amBits, amPost]
theorem max (d a b : BitVec 5) : Statement (.max d a b) := by
  intro hw _ rest
  refine (decode_encode_word rfl (by simp) rest).trans ?_
  rw [decodeWord, major05 (by simp) (by simp)]
  simp [decBits, Option.filter, Option.map, accept, Instr.wf, postOk, mdI, b1, amBits, amPost]
theorem minu (d a b : BitVec 5) : Statement (.minu d a b) := by
  intro hw _ rest
  refine (decode_encode_word rfl (by simp) rest).trans ?_
  rw [decodeWord, major05 (by simp) (by simp)]
  simp [decBits, Option.filter, Option.map, accept, Instr.wf, postOk, mdI, b1, amBits, amPost]
theorem maxu (d a b : BitVec 5) : Statement (.maxu d a b) := by
  intro hw _ rest
  refine (decode_encode_word rfl (by simp) rest).trans ?_
  rw [decodeWord, major05 (by simp) (by simp)]
  simp [decBits, Option.filter, Option.map, accept, Instr.wf, postOk, mdI, b1, amBits, amPost]
theorem sextb (d a : BitVec 5) : Statement (.sextb d a) := by
  intro hw _ rest
  refine (decode_encode_word rfl (by simp) rest).trans ?_
  rw [decodeWord, major05 (by simp) (by simp)]
  simp [decBits, Option.filter, Option.map, accept, Instr.wf, postOk, mdI, b1, amBits, amPost]
theorem sexth (d a : BitVec 5) : Statement (.sexth d a) := by
  intro hw _ rest
  refine (decode_encode_word rfl (by simp) rest).trans ?_
  rw [decodeWord, major05 (by simp) (by simp)]
  simp [decBits, Option.filter, Option.map, accept, Instr.wf, postOk, mdI, b1, amBits, amPost]
theorem sextw (d a : BitVec 5) : Statement (.sextw d a) := by
  intro hw _ rest
  refine (decode_encode_word rfl (by simp) rest).trans ?_
  rw [decodeWord, major05 (by simp) (by simp)]
  simp [decBits, Option.filter, Option.map, accept, Instr.wf, postOk, mdI, b1, amBits, amPost]
theorem zextw (d a : BitVec 5) : Statement (.zextw d a) := by
  intro hw _ rest
  refine (decode_encode_word rfl (by simp) rest).trans ?_
  rw [decodeWord, major05 (by simp) (by simp)]
  simp [decBits, Option.filter, Option.map, accept, Instr.wf, postOk, mdI, b1, amBits, amPost]
theorem slt (d a b : BitVec 5) : Statement (.slt d a b) := by
  intro hw _ rest
  refine (decode_encode_word rfl (by simp) rest).trans ?_
  rw [decodeWord, major06 (by simp) (by simp)]
  simp [decCmp, Option.filter, Option.map, accept, Instr.wf, postOk, mdI, b1, amBits, amPost]
theorem sltu (d a b : BitVec 5) : Statement (.sltu d a b) := by
  intro hw _ rest
  refine (decode_encode_word rfl (by simp) rest).trans ?_
  rw [decodeWord, major06 (by simp) (by simp)]
  simp [decCmp, Option.filter, Option.map, accept, Instr.wf, postOk, mdI, b1, amBits, amPost]
theorem seq (d a b : BitVec 5) : Statement (.seq d a b) := by
  intro hw _ rest
  refine (decode_encode_word rfl (by simp) rest).trans ?_
  rw [decodeWord, major06 (by simp) (by simp)]
  simp [decCmp, Option.filter, Option.map, accept, Instr.wf, postOk, mdI, b1, amBits, amPost]
theorem sne (d a b : BitVec 5) : Statement (.sne d a b) := by
  intro hw _ rest
  refine (decode_encode_word rfl (by simp) rest).trans ?_
  rw [decodeWord, major06 (by simp) (by simp)]
  simp [decCmp, Option.filter, Option.map, accept, Instr.wf, postOk, mdI, b1, amBits, amPost]
theorem csel (d c a b : BitVec 5) : Statement (.csel d c a b) := by
  intro hw _ rest
  refine (decode_encode_word rfl (by simp) rest).trans ?_
  rw [decodeWord, major06 (by simp) (by simp)]
  simp [decCmp, Option.filter, Option.map, accept, Instr.wf, postOk, mdI, b1, amBits, amPost]
theorem addCompact (d b : BitVec 5) : Statement (.addCompact d b) := by
  intro hw _ rest
  have e : (0#2 ++ b ++ d ++ 0#3 ++ 0#1 : BitVec 16).toNat = d.toNat * 16 + b.toNat * 512 + 0 :=
    (append_toNat (0#2 ++ b ++ d ++ 0#3) 0#1).trans (by simp only [append_toNat, BitVec.toNat_ofNat]; omega)
  have h0 : (0#2 ++ b ++ d ++ 0#3 ++ 0#1 : BitVec 16).getLsbD 0 = false := by simp only [bit_of, e, decide_eq_false_iff_not]; omega
  refine (decode_encode_parcel rfl rfl h0 rest).trans ?_
  generalize (0#2 ++ b ++ d ++ 0#3 ++ 0#1 : BitVec 16) = p at e h0
  have hz : (p == 0#16) = false := by
    rw [beq_zero_of, decide_eq_false_iff_not, e]
    simp only [Instr.wf, beq_zero_of, ← Bool.decide_and, Bool.not_eq_true', decide_eq_false_iff_not] at hw
    omega
  have hc : p.extractLsb' 1 3 = 0#3 := by
    apply BitVec.eq_of_toNat_eq; rw [extract_of, e, BitVec.toNat_ofNat]; omega
  have hd : p.extractLsb' 4 5 = d := by apply BitVec.eq_of_toNat_eq; rw [extract_of, e]; omega
  have hb : p.extractLsb' 9 5 = b := by apply BitVec.eq_of_toNat_eq; rw [extract_of, e]; omega
  have hf : p.extractLsb' 14 2 = 0#2 := by
    apply BitVec.eq_of_toNat_eq; rw [extract_of, e, BitVec.toNat_ofNat]; omega
  unfold decodeParcel
  simp only [h0, hz, hc, hd, hb, hf]
  rfl
theorem subCompact (d b : BitVec 5) : Statement (.subCompact d b) := by
  intro hw _ rest
  have e : (1#2 ++ b ++ d ++ 0#3 ++ 0#1 : BitVec 16).toNat = d.toNat * 16 + b.toNat * 512 + 16384 :=
    (append_toNat (1#2 ++ b ++ d ++ 0#3) 0#1).trans (by simp only [append_toNat, BitVec.toNat_ofNat]; omega)
  have h0 : (1#2 ++ b ++ d ++ 0#3 ++ 0#1 : BitVec 16).getLsbD 0 = false := by simp only [bit_of, e, decide_eq_false_iff_not]; omega
  refine (decode_encode_parcel rfl rfl h0 rest).trans ?_
  generalize (1#2 ++ b ++ d ++ 0#3 ++ 0#1 : BitVec 16) = p at e h0
  have hz : (p == 0#16) = false := by rw [beq_zero_of, decide_eq_false_iff_not, e]; omega
  have hc : p.extractLsb' 1 3 = 0#3 := by
    apply BitVec.eq_of_toNat_eq; rw [extract_of, e, BitVec.toNat_ofNat]; omega
  have hd : p.extractLsb' 4 5 = d := by apply BitVec.eq_of_toNat_eq; rw [extract_of, e]; omega
  have hb : p.extractLsb' 9 5 = b := by apply BitVec.eq_of_toNat_eq; rw [extract_of, e]; omega
  have hf : p.extractLsb' 14 2 = 1#2 := by
    apply BitVec.eq_of_toNat_eq; rw [extract_of, e, BitVec.toNat_ofNat]; omega
  unfold decodeParcel
  simp only [h0, hz, hc, hd, hb, hf]
  rfl
theorem andCompact (d b : BitVec 5) : Statement (.andCompact d b) := by
  intro hw _ rest
  have e : (2#2 ++ b ++ d ++ 0#3 ++ 0#1 : BitVec 16).toNat = d.toNat * 16 + b.toNat * 512 + 32768 :=
    (append_toNat (2#2 ++ b ++ d ++ 0#3) 0#1).trans (by simp only [append_toNat, BitVec.toNat_ofNat]; omega)
  have h0 : (2#2 ++ b ++ d ++ 0#3 ++ 0#1 : BitVec 16).getLsbD 0 = false := by simp only [bit_of, e, decide_eq_false_iff_not]; omega
  refine (decode_encode_parcel rfl rfl h0 rest).trans ?_
  generalize (2#2 ++ b ++ d ++ 0#3 ++ 0#1 : BitVec 16) = p at e h0
  have hz : (p == 0#16) = false := by rw [beq_zero_of, decide_eq_false_iff_not, e]; omega
  have hc : p.extractLsb' 1 3 = 0#3 := by
    apply BitVec.eq_of_toNat_eq; rw [extract_of, e, BitVec.toNat_ofNat]; omega
  have hd : p.extractLsb' 4 5 = d := by apply BitVec.eq_of_toNat_eq; rw [extract_of, e]; omega
  have hb : p.extractLsb' 9 5 = b := by apply BitVec.eq_of_toNat_eq; rw [extract_of, e]; omega
  have hf : p.extractLsb' 14 2 = 2#2 := by
    apply BitVec.eq_of_toNat_eq; rw [extract_of, e, BitVec.toNat_ofNat]; omega
  unfold decodeParcel
  simp only [h0, hz, hc, hd, hb, hf]
  rfl
theorem mvCompact (d b : BitVec 5) : Statement (.mvCompact d b) := by
  intro hw _ rest
  have e : (3#2 ++ b ++ d ++ 0#3 ++ 0#1 : BitVec 16).toNat = d.toNat * 16 + b.toNat * 512 + 49152 :=
    (append_toNat (3#2 ++ b ++ d ++ 0#3) 0#1).trans (by simp only [append_toNat, BitVec.toNat_ofNat]; omega)
  have h0 : (3#2 ++ b ++ d ++ 0#3 ++ 0#1 : BitVec 16).getLsbD 0 = false := by simp only [bit_of, e, decide_eq_false_iff_not]; omega
  refine (decode_encode_parcel rfl rfl h0 rest).trans ?_
  generalize (3#2 ++ b ++ d ++ 0#3 ++ 0#1 : BitVec 16) = p at e h0
  have hz : (p == 0#16) = false := by rw [beq_zero_of, decide_eq_false_iff_not, e]; omega
  have hc : p.extractLsb' 1 3 = 0#3 := by
    apply BitVec.eq_of_toNat_eq; rw [extract_of, e, BitVec.toNat_ofNat]; omega
  have hd : p.extractLsb' 4 5 = d := by apply BitVec.eq_of_toNat_eq; rw [extract_of, e]; omega
  have hb : p.extractLsb' 9 5 = b := by apply BitVec.eq_of_toNat_eq; rw [extract_of, e]; omega
  have hf : p.extractLsb' 14 2 = 3#2 := by
    apply BitVec.eq_of_toNat_eq; rw [extract_of, e, BitVec.toNat_ofNat]; omega
  unfold decodeParcel
  simp only [h0, hz, hc, hd, hb, hf]
  rfl
theorem addiCompact (d : BitVec 5) (imm : BitVec 7) : Statement (.addiCompact d imm) := by
  intro hw _ rest
  have e : (imm ++ d ++ 1#3 ++ 0#1 : BitVec 16).toNat = d.toNat * 16 + imm.toNat * 512 + 2 :=
    (append_toNat (imm ++ d ++ 1#3) 0#1).trans (by simp only [append_toNat, BitVec.toNat_ofNat]; omega)
  have h0 : (imm ++ d ++ 1#3 ++ 0#1 : BitVec 16).getLsbD 0 = false := by simp only [bit_of, e, decide_eq_false_iff_not]; omega
  refine (decode_encode_parcel rfl rfl h0 rest).trans ?_
  generalize (imm ++ d ++ 1#3 ++ 0#1 : BitVec 16) = p at e h0
  have hz : (p == 0#16) = false := by rw [beq_zero_of, decide_eq_false_iff_not, e]; omega
  have hc : p.extractLsb' 1 3 = 1#3 := by
    apply BitVec.eq_of_toNat_eq; rw [extract_of, e, BitVec.toNat_ofNat]; omega
  have hd : p.extractLsb' 4 5 = d := by apply BitVec.eq_of_toNat_eq; rw [extract_of, e]; omega
  have himm : p.extractLsb' 9 7 = imm := by apply BitVec.eq_of_toNat_eq; rw [extract_of, e]; omega
  unfold decodeParcel
  simp only [h0, hz, hc, hd, himm]
  rfl
theorem liCompact (d : BitVec 5) (imm : BitVec 7) : Statement (.liCompact d imm) := by
  intro hw _ rest
  have e : (imm ++ d ++ 2#3 ++ 0#1 : BitVec 16).toNat = d.toNat * 16 + imm.toNat * 512 + 4 :=
    (append_toNat (imm ++ d ++ 2#3) 0#1).trans (by simp only [append_toNat, BitVec.toNat_ofNat]; omega)
  have h0 : (imm ++ d ++ 2#3 ++ 0#1 : BitVec 16).getLsbD 0 = false := by simp only [bit_of, e, decide_eq_false_iff_not]; omega
  refine (decode_encode_parcel rfl rfl h0 rest).trans ?_
  generalize (imm ++ d ++ 2#3 ++ 0#1 : BitVec 16) = p at e h0
  have hz : (p == 0#16) = false := by rw [beq_zero_of, decide_eq_false_iff_not, e]; omega
  have hc : p.extractLsb' 1 3 = 2#3 := by
    apply BitVec.eq_of_toNat_eq; rw [extract_of, e, BitVec.toNat_ofNat]; omega
  have hd : p.extractLsb' 4 5 = d := by apply BitVec.eq_of_toNat_eq; rw [extract_of, e]; omega
  have himm : p.extractLsb' 9 7 = imm := by apply BitVec.eq_of_toNat_eq; rw [extract_of, e]; omega
  unfold decodeParcel
  simp only [h0, hz, hc, hd, himm]
  rfl
theorem ldDCompact (d : BitVec 5) (bs : BitVec 2) (off : BitVec 5) : Statement (.ldDCompact d bs off) := by
  intro hw _ rest
  have e : (off ++ bs ++ d ++ 3#3 ++ 0#1 : BitVec 16).toNat = d.toNat * 16 + bs.toNat * 512 + off.toNat * 2048 + 6 :=
    (append_toNat (off ++ bs ++ d ++ 3#3) 0#1).trans (by simp only [append_toNat, BitVec.toNat_ofNat]; omega)
  have h0 : (off ++ bs ++ d ++ 3#3 ++ 0#1 : BitVec 16).getLsbD 0 = false := by simp only [bit_of, e, decide_eq_false_iff_not]; omega
  refine (decode_encode_parcel rfl rfl h0 rest).trans ?_
  generalize (off ++ bs ++ d ++ 3#3 ++ 0#1 : BitVec 16) = p at e h0
  have hz : (p == 0#16) = false := by rw [beq_zero_of, decide_eq_false_iff_not, e]; omega
  have hc : p.extractLsb' 1 3 = 3#3 := by
    apply BitVec.eq_of_toNat_eq; rw [extract_of, e, BitVec.toNat_ofNat]; omega
  have hd : p.extractLsb' 4 5 = d := by apply BitVec.eq_of_toNat_eq; rw [extract_of, e]; omega
  have hbs : p.extractLsb' 9 2 = bs := by apply BitVec.eq_of_toNat_eq; rw [extract_of, e]; omega
  have hoff : p.extractLsb' 11 5 = off := by apply BitVec.eq_of_toNat_eq; rw [extract_of, e]; omega
  unfold decodeParcel
  simp only [h0, hz, hc, hd, hbs, hoff]
  rfl
theorem stDCompact (d : BitVec 5) (bs : BitVec 2) (off : BitVec 5) : Statement (.stDCompact d bs off) := by
  intro hw _ rest
  have e : (off ++ bs ++ d ++ 4#3 ++ 0#1 : BitVec 16).toNat = d.toNat * 16 + bs.toNat * 512 + off.toNat * 2048 + 8 :=
    (append_toNat (off ++ bs ++ d ++ 4#3) 0#1).trans (by simp only [append_toNat, BitVec.toNat_ofNat]; omega)
  have h0 : (off ++ bs ++ d ++ 4#3 ++ 0#1 : BitVec 16).getLsbD 0 = false := by simp only [bit_of, e, decide_eq_false_iff_not]; omega
  refine (decode_encode_parcel rfl rfl h0 rest).trans ?_
  generalize (off ++ bs ++ d ++ 4#3 ++ 0#1 : BitVec 16) = p at e h0
  have hz : (p == 0#16) = false := by rw [beq_zero_of, decide_eq_false_iff_not, e]; omega
  have hc : p.extractLsb' 1 3 = 4#3 := by
    apply BitVec.eq_of_toNat_eq; rw [extract_of, e, BitVec.toNat_ofNat]; omega
  have hd : p.extractLsb' 4 5 = d := by apply BitVec.eq_of_toNat_eq; rw [extract_of, e]; omega
  have hbs : p.extractLsb' 9 2 = bs := by apply BitVec.eq_of_toNat_eq; rw [extract_of, e]; omega
  have hoff : p.extractLsb' 11 5 = off := by apply BitVec.eq_of_toNat_eq; rw [extract_of, e]; omega
  unfold decodeParcel
  simp only [h0, hz, hc, hd, hbs, hoff]
  rfl
theorem slliCompact (d : BitVec 5) (sh : BitVec 6) : Statement (.slliCompact d sh) := by
  intro hw _ rest
  have e : (0#1 ++ sh ++ d ++ 5#3 ++ 0#1 : BitVec 16).toNat = d.toNat * 16 + sh.toNat * 512 + 10 :=
    (append_toNat (0#1 ++ sh ++ d ++ 5#3) 0#1).trans (by simp only [append_toNat, BitVec.toNat_ofNat]; omega)
  have h0 : (0#1 ++ sh ++ d ++ 5#3 ++ 0#1 : BitVec 16).getLsbD 0 = false := by simp only [bit_of, e, decide_eq_false_iff_not]; omega
  refine (decode_encode_parcel rfl rfl h0 rest).trans ?_
  generalize (0#1 ++ sh ++ d ++ 5#3 ++ 0#1 : BitVec 16) = p at e h0
  have hz : (p == 0#16) = false := by rw [beq_zero_of, decide_eq_false_iff_not, e]; omega
  have hc : p.extractLsb' 1 3 = 5#3 := by
    apply BitVec.eq_of_toNat_eq; rw [extract_of, e, BitVec.toNat_ofNat]; omega
  have hd : p.extractLsb' 4 5 = d := by apply BitVec.eq_of_toNat_eq; rw [extract_of, e]; omega
  have hsh : p.extractLsb' 9 6 = sh := by apply BitVec.eq_of_toNat_eq; rw [extract_of, e]; omega
  have hf : p.getLsbD 15 = false := by
    simp only [bit_of, e, decide_eq_false_iff_not]; omega
  unfold decodeParcel
  simp only [h0, hz, hc, hd, hsh, hf]
  rfl
theorem sraiCompact (d : BitVec 5) (sh : BitVec 6) : Statement (.sraiCompact d sh) := by
  intro hw _ rest
  have e : (1#1 ++ sh ++ d ++ 5#3 ++ 0#1 : BitVec 16).toNat = d.toNat * 16 + sh.toNat * 512 + 32778 :=
    (append_toNat (1#1 ++ sh ++ d ++ 5#3) 0#1).trans (by simp only [append_toNat, BitVec.toNat_ofNat]; omega)
  have h0 : (1#1 ++ sh ++ d ++ 5#3 ++ 0#1 : BitVec 16).getLsbD 0 = false := by simp only [bit_of, e, decide_eq_false_iff_not]; omega
  refine (decode_encode_parcel rfl rfl h0 rest).trans ?_
  generalize (1#1 ++ sh ++ d ++ 5#3 ++ 0#1 : BitVec 16) = p at e h0
  have hz : (p == 0#16) = false := by rw [beq_zero_of, decide_eq_false_iff_not, e]; omega
  have hc : p.extractLsb' 1 3 = 5#3 := by
    apply BitVec.eq_of_toNat_eq; rw [extract_of, e, BitVec.toNat_ofNat]; omega
  have hd : p.extractLsb' 4 5 = d := by apply BitVec.eq_of_toNat_eq; rw [extract_of, e]; omega
  have hsh : p.extractLsb' 9 6 = sh := by apply BitVec.eq_of_toNat_eq; rw [extract_of, e]; omega
  have hf : p.getLsbD 15 = true := by
    simp only [bit_of, e, decide_eq_true_eq]; omega
  unfold decodeParcel
  simp only [h0, hz, hc, hd, hsh, hf]
  rfl
theorem vmvCompact (vd vx : BitVec 6) : Statement (.vmvCompact vd vx) := by
  intro hw _ rest
  have e : (vx ++ vd ++ 6#3 ++ 0#1 : BitVec 16).toNat = vd.toNat * 16 + vx.toNat * 1024 + 12 :=
    (append_toNat (vx ++ vd ++ 6#3) 0#1).trans (by simp only [append_toNat, BitVec.toNat_ofNat]; omega)
  have h0 : (vx ++ vd ++ 6#3 ++ 0#1 : BitVec 16).getLsbD 0 = false := by simp only [bit_of, e, decide_eq_false_iff_not]; omega
  refine (decode_encode_parcel rfl rfl h0 rest).trans ?_
  generalize (vx ++ vd ++ 6#3 ++ 0#1 : BitVec 16) = p at e h0
  have hz : (p == 0#16) = false := by rw [beq_zero_of, decide_eq_false_iff_not, e]; omega
  have hc : p.extractLsb' 1 3 = 6#3 := by
    apply BitVec.eq_of_toNat_eq; rw [extract_of, e, BitVec.toNat_ofNat]; omega
  have hvd : p.extractLsb' 4 6 = vd := by apply BitVec.eq_of_toNat_eq; rw [extract_of, e]; omega
  have hvx : p.extractLsb' 10 6 = vx := by apply BitVec.eq_of_toNat_eq; rw [extract_of, e]; omega
  unfold decodeParcel
  simp only [h0, hz, hc, hvd, hvx]
  rfl
theorem beq (a b : BitVec 5) (off : BitVec 12) : Statement (.beq a b off) := by
  intro hw _ rest
  refine (decode_encode_word rfl (by simp) rest).trans ?_
  rw [decodeWord, major28 (by simp) (by simp)]
  simp [decBr, Option.filter, Option.map, accept, Instr.wf, postOk, mdI, b1, amBits, amPost]
theorem bne (a b : BitVec 5) (off : BitVec 12) : Statement (.bne a b off) := by
  intro hw _ rest
  refine (decode_encode_word rfl (by simp) rest).trans ?_
  rw [decodeWord, major28 (by simp) (by simp)]
  simp [decBr, Option.filter, Option.map, accept, Instr.wf, postOk, mdI, b1, amBits, amPost]
theorem blt (a b : BitVec 5) (off : BitVec 12) : Statement (.blt a b off) := by
  intro hw _ rest
  refine (decode_encode_word rfl (by simp) rest).trans ?_
  rw [decodeWord, major28 (by simp) (by simp)]
  simp [decBr, Option.filter, Option.map, accept, Instr.wf, postOk, mdI, b1, amBits, amPost]
theorem bge (a b : BitVec 5) (off : BitVec 12) : Statement (.bge a b off) := by
  intro hw _ rest
  refine (decode_encode_word rfl (by simp) rest).trans ?_
  rw [decodeWord, major28 (by simp) (by simp)]
  simp [decBr, Option.filter, Option.map, accept, Instr.wf, postOk, mdI, b1, amBits, amPost]
theorem bltu (a b : BitVec 5) (off : BitVec 12) : Statement (.bltu a b off) := by
  intro hw _ rest
  refine (decode_encode_word rfl (by simp) rest).trans ?_
  rw [decodeWord, major28 (by simp) (by simp)]
  simp [decBr, Option.filter, Option.map, accept, Instr.wf, postOk, mdI, b1, amBits, amPost]
theorem bgeu (a b : BitVec 5) (off : BitVec 12) : Statement (.bgeu a b off) := by
  intro hw _ rest
  refine (decode_encode_word rfl (by simp) rest).trans ?_
  rw [decodeWord, major28 (by simp) (by simp)]
  simp [decBr, Option.filter, Option.map, accept, Instr.wf, postOk, mdI, b1, amBits, amPost]
theorem jmp (off : BitVec 22) : Statement (.jmp off) := by
  intro hw _ rest
  refine (decode_encode_word rfl (by simp) rest).trans ?_
  rw [decodeWord, major29 (by simp) (by simp)]
  simp [decFlow, Option.filter, Option.map, accept, Instr.wf, postOk, mdI, b1, amBits, amPost]
theorem call (off : BitVec 22) : Statement (.call off) := by
  intro hw _ rest
  refine (decode_encode_word rfl (by simp) rest).trans ?_
  rw [decodeWord, major29 (by simp) (by simp)]
  simp [decFlow, Option.filter, Option.map, accept, Instr.wf, postOk, mdI, b1, amBits, amPost]
theorem jr (a : BitVec 5) (off : BitVec 12) : Statement (.jr a off) := by
  intro hw _ rest
  refine (decode_encode_word rfl (by simp) rest).trans ?_
  rw [decodeWord, major2A (by simp) (by simp)]
  simp [decFlow, Option.filter, Option.map, accept, Instr.wf, postOk, mdI, b1, amBits, amPost]
theorem callr (a : BitVec 5) (off : BitVec 12) : Statement (.callr a off) := by
  intro hw _ rest
  refine (decode_encode_word rfl (by simp) rest).trans ?_
  rw [decodeWord, major2A (by simp) (by simp)]
  simp [decFlow, Option.filter, Option.map, accept, Instr.wf, postOk, mdI, b1, amBits, amPost]
theorem ret : Statement .ret := by
  intro hw _ rest
  refine (decode_encode_word rfl (by simp) rest).trans ?_
  rw [decodeWord, major2A (by simp) (by simp)]
  simp [decFlow, Option.filter, Option.map, accept, Instr.wf, postOk, mdI, b1, amBits, amPost]
theorem relc : Statement .relc := by
  intro hw _ rest
  refine (decode_encode_word rfl (by simp) rest).trans ?_
  rw [decodeWord, major2B (by simp) (by simp)]
  simp [decFlow, Option.filter, Option.map, accept, Instr.wf, postOk, mdI, b1, amBits, amPost]
theorem tjoin : Statement .tjoin := by
  intro hw _ rest
  refine (decode_encode_word rfl (by simp) rest).trans ?_
  rw [decodeWord, major2B (by simp) (by simp)]
  simp [decFlow, Option.filter, Option.map, accept, Instr.wf, postOk, mdI, b1, amBits, amPost]
theorem loopb (lc : BitVec 2) (off : BitVec 12) : Statement (.loopb lc off) := by
  intro hw _ rest
  refine (decode_encode_word rfl (by simp) rest).trans ?_
  rw [decodeWord, major2C (by simp) (by simp)]
  simp [decFlow, Option.filter, Option.map, accept, Instr.wf, postOk, mdI, b1, amBits, amPost]
theorem loopi (lc : BitVec 2) (b : BitVec 5) (off : BitVec 12) : Statement (.loopi lc b off) := by
  intro hw _ rest
  refine (decode_encode_word rfl (by simp) rest).trans ?_
  rw [decodeWord, major2C (by simp) (by simp)]
  simp [decFlow, Option.filter, Option.map, accept, Instr.wf, postOk, mdI, b1, amBits, amPost]
theorem fork (off : BitVec 12) : Statement (.fork off) := by
  intro hw _ rest
  refine (decode_encode_word rfl (by simp) rest).trans ?_
  rw [decodeWord, major2D (by simp) (by simp)]
  simp [decFlow, Option.filter, Option.map, accept, Instr.wf, postOk, mdI, b1, amBits, amPost]
theorem join (mask : BitVec 4) (off : BitVec 12) : Statement (.join mask off) := by
  intro hw _ rest
  refine (decode_encode_word rfl (by simp) rest).trans ?_
  rw [decodeWord, major2D (by simp) (by simp)]
  simp [decFlow, Option.filter, Option.map, accept, Instr.wf, postOk, mdI, b1, amBits, amPost]
theorem mark : Statement .mark := by
  intro hw _ rest
  refine (decode_encode_word rfl (by simp) rest).trans ?_
  rw [decodeWord, major30 (by simp) (by simp)]
  simp [decFence, Option.filter, Option.map, accept, Instr.wf, postOk, mdI, b1, amBits, amPost]
theorem fence (kind : FenceKind) (scope : Scope) : Statement (.fence kind scope) := by
  intro hw _ rest
  refine (decode_encode_word rfl (by simp) rest).trans ?_
  rw [decodeWord, major30 (by simp) (by simp)]
  simp [decFence, Option.filter, Option.map, accept, Instr.wf, postOk, mdI, b1, amBits, amPost]
theorem cset (mask : BitVec 8) : Statement (.cset mask) := by
  intro hw _ rest
  refine (decode_encode_word rfl (by simp) rest).trans ?_
  rw [decodeWord, major31 (by simp) (by simp)]
  simp_all [decCtl, Option.filter, Option.map, accept, Instr.wf, postOk, mdI, b1, amBits, amPost]
theorem csetClr (mask : BitVec 8) : Statement (.csetClr mask) := by
  intro hw _ rest
  refine (decode_encode_word rfl (by simp) rest).trans ?_
  rw [decodeWord, major31 (by simp) (by simp)]
  simp_all [decCtl, Option.filter, Option.map, accept, Instr.wf, postOk, mdI, b1, amBits, amPost]
theorem cwait (mask : BitVec 8) : Statement (.cwait mask) := by
  intro hw _ rest
  refine (decode_encode_word rfl (by simp) rest).trans ?_
  rw [decodeWord, major31 (by simp) (by simp)]
  simp_all [decCtl, Option.filter, Option.map, accept, Instr.wf, postOk, mdI, b1, amBits, amPost]
theorem halt : Statement .halt := by
  intro hw _ rest
  refine (decode_encode_word rfl (by simp) rest).trans ?_
  rw [decodeWord, major31 (by simp) (by simp)]
  simp [decCtl, Option.filter, Option.map, accept, Instr.wf, postOk, mdI, b1, amBits, amPost]
theorem trap (code : BitVec 10) : Statement (.trap code) := by
  intro hw _ rest
  refine (decode_encode_word rfl (by simp) rest).trans ?_
  rw [decodeWord, major31 (by simp) (by simp)]
  simp [decCtl, Option.filter, Option.map, accept, Instr.wf, postOk, mdI, b1, amBits, amPost]
theorem eret : Statement .eret := by
  intro hw _ rest
  refine (decode_encode_word rfl (by simp) rest).trans ?_
  rw [decodeWord, major31 (by simp) (by simp)]
  simp [decCtl, Option.filter, Option.map, accept, Instr.wf, postOk, mdI, b1, amBits, amPost]
theorem waitt (a : BitVec 5) : Statement (.waitt a) := by
  intro hw _ rest
  refine (decode_encode_word rfl (by simp) rest).trans ?_
  rw [decodeWord, major31 (by simp) (by simp)]
  simp [decCtl, Option.filter, Option.map, accept, Instr.wf, postOk, mdI, b1, amBits, amPost]
theorem yield : Statement .yield := by
  intro hw _ rest
  refine (decode_encode_word rfl (by simp) rest).trans ?_
  rw [decodeWord, major31 (by simp) (by simp)]
  simp [decCtl, Option.filter, Option.map, accept, Instr.wf, postOk, mdI, b1, amBits, amPost]
theorem ld (sz : BitVec 2) (post : Bool) (off : BitVec 7) (base t : BitVec 5) : Statement (.ld sz post off base t) := by
  intro hw _ rest
  refine (decode_encode_word rfl (by simp) rest).trans ?_
  rw [decodeWord, major08 (by simp) (by simp)]
  cases post <;> simp_all [decLd, Option.filter, Option.map, accept, Instr.wf, postOk, mdI, b1, amBits, amPost]
theorem ldUnsigned (sz : BitVec 2) (post : Bool) (off : BitVec 7) (base t : BitVec 5) : Statement (.ldUnsigned sz post off base t) := by
  intro hw _ rest
  refine (decode_encode_word rfl (by simp) rest).trans ?_
  rw [decodeWord, major08 (by simp) (by simp)]
  cases post <;> simp_all [decLd, Option.filter, Option.map, accept, Instr.wf, postOk, mdI, b1, amBits, amPost]
theorem st (sz : BitVec 2) (post : Bool) (off : BitVec 7) (base t : BitVec 5) : Statement (.st sz post off base t) := by
  intro hw _ rest
  refine (decode_encode_word rfl (by simp) rest).trans ?_
  rw [decodeWord, major09 (by simp) (by simp)]
  cases post <;> simp [decSt, Option.filter, Option.map, accept, Instr.wf, postOk, mdI, b1, amBits, amPost]
theorem ldv (sz : BitVec 3) (post : Bool) (off : BitVec 7) (base : BitVec 5) (t : BitVec 6) : Statement (.ldv sz post off base t) := by
  intro hw _ rest
  refine (decode_encode_word rfl (by simp) rest).trans ?_
  rw [decodeWord, major0A (by simp) (by simp)]
  cases post <;> simp_all [decLdv, Option.filter, Option.map, accept, Instr.wf, postOk, mdI, b1, amBits, amPost]
theorem stv (sz : BitVec 3) (post : Bool) (off : BitVec 7) (base : BitVec 5) (t : BitVec 6) : Statement (.stv sz post off base t) := by
  intro hw _ rest
  refine (decode_encode_word rfl (by simp) rest).trans ?_
  rw [decodeWord, major0A (by simp) (by simp)]
  cases post <;> simp_all [decLdv, Option.filter, Option.map, accept, Instr.wf, postOk, mdI, b1, amBits, amPost]
theorem ldvXw (post : Bool) (off : BitVec 7) (base : BitVec 5) (t : BitVec 6) : Statement (.ldvXw post off base t) := by
  intro hw _ rest
  refine (decode_encode_word rfl (by simp) rest).trans ?_
  rw [decodeWord, major0A (by simp) (by simp)]
  cases post <;> simp [decLdv, Option.filter, Option.map, accept, Instr.wf, postOk, mdI, b1, amBits, amPost]
theorem ldq (post : Bool) (off : BitVec 7) (base : BitVec 5) (q : BitVec 2) : Statement (.ldq post off base q) := by
  intro hw _ rest
  refine (decode_encode_word rfl (by simp) rest).trans ?_
  rw [decodeWord, major0B (by simp) (by simp)]
  cases post <;> simp [decLdq, Option.filter, Option.map, accept, Instr.wf, postOk, mdI, b1, amBits, amPost]
theorem pref (off : BitVec 7) (base : BitVec 5) : Statement (.pref off base) := by
  intro hw _ rest
  refine (decode_encode_word rfl (by simp) rest).trans ?_
  rw [decodeWord, major0B (by simp) (by simp)]
  simp [decLdq, Option.filter, Option.map, accept, Instr.wf, postOk, mdI, b1, amBits, amPost]
theorem ldvSI (dbl : Bool) (x : StrideIdx) (base : BitVec 5) (t : BitVec 6) : Statement (.ldvSI dbl x base t) := by
  intro hw _ rest
  refine (decode_encode_word rfl (by simp) rest).trans ?_
  rw [decodeWord, major0C (by simp) (by simp)]
  rcases x with r | v <;> cases dbl <;> simp [decSI, amSI, offSI, Option.filter, Option.map, accept, Instr.wf, postOk, mdI, b1, amBits, amPost]
theorem stvSI (dbl : Bool) (x : StrideIdx) (base : BitVec 5) (t : BitVec 6) : Statement (.stvSI dbl x base t) := by
  intro hw _ rest
  refine (decode_encode_word rfl (by simp) rest).trans ?_
  rw [decodeWord, major0C (by simp) (by simp)]
  rcases x with r | v <;> cases dbl <;> simp [decSI, amSI, offSI, Option.filter, Option.map, accept, Instr.wf, postOk, mdI, b1, amBits, amPost]
theorem amo (op : AmoOp) (dbl : Bool) (ord : Ord) (scope : Scope) (d v base : BitVec 5) : Statement (.amo op dbl ord scope d v base) := by
  intro hw _ rest
  refine (decode_encode_word rfl (by simp) rest).trans ?_
  rw [decodeWord, major0D (by simp) (by simp)]
  simp [decAmo, Option.filter, Option.map, accept, Instr.wf, postOk, mdI, b1, amBits, amPost]
theorem cas (dbl : Bool) (ord : Ord) (scope : Scope) (d v base : BitVec 5) : Statement (.cas dbl ord scope d v base) := by
  intro hw _ rest
  refine (decode_encode_word rfl (by simp) rest).trans ?_
  rw [decodeWord, major0E (by simp) (by simp)]
  cases dbl <;> simp [decCas, Option.filter, Option.map, accept, Instr.wf, postOk, mdI, b1, amBits, amPost]
theorem swap (dbl : Bool) (ord : Ord) (scope : Scope) (d v base : BitVec 5) : Statement (.swap dbl ord scope d v base) := by
  intro hw _ rest
  refine (decode_encode_word rfl (by simp) rest).trans ?_
  rw [decodeWord, major0E (by simp) (by simp)]
  cases dbl <;> simp [decCas, Option.filter, Option.map, accept, Instr.wf, postOk, mdI, b1, amBits, amPost]
theorem gacq (g : BitVec 12) (d : BitVec 5) : Statement (.gacq g d) := by
  intro hw _ rest
  refine (decode_encode_word rfl (by simp) rest).trans ?_
  simp [decodeWord, decodeFields, Option.filter, Option.map, accept, Instr.wf, postOk, mdI, b1, amBits, amPost]
theorem gseq (d : BitVec 5) (g : BitVec 12) : Statement (.gseq d g) := by
  intro hw _ rest
  refine (decode_encode_word rfl (by simp) rest).trans ?_
  simp [decodeWord, decodeFields, Option.filter, Option.map, accept, Instr.wf, postOk, mdI, b1, amBits, amPost]
theorem stg (sz : BitVec 3) (rel : Bool) (l : BitVec 2) (g : BitVec 12) (ofs v : BitVec 5) : Statement (.stg sz rel l g ofs v) := by
  intro hw _ rest
  have hs : ∀ z : BitVec 3, z.toNat ≤ 5 → z = 0 ∨ z = 1 ∨ z = 2 ∨ z = 3 ∨ z = 4 ∨ z = 5 := by decide
  have hd : decodeFields (wStg sz rel l g ofs v) = some (.stg sz rel l g ofs v) := by
    have h1 : fld (wStg sz rel l g ofs v) 1 6 = 7#3 ++ sz := by
      refine fld_of ?_
      rw [wStg_toNat]
      refine Eq.trans ?_ (append_toNat 7#3 sz).symm
      simp only [BitVec.toNat_ofNat]
      omega
    unfold decodeFields
    rw [wStg_b0, h1]
    rcases hs sz (by simpa [Instr.wf] using hw) with rfl | rfl | rfl | rfl | rfl | rfl <;> simp
  refine (decode_encode_word (w := wStg sz rel l g ofs v) rfl (by simp) rest).trans ?_
  simp_all [decodeWord, Option.filter]
theorem vadd (ty : VTy) (pm : BitVec 3) (q : Bool) (vd vx vy : BitVec 6) : Statement (.vadd ty pm q vd vx vy) := by
  intro hw _ rest
  refine (decode_encode_word rfl (by simp) rest).trans ?_
  rw [decodeWord, major10 (by simp) (by simp)]
  simp [decWV, Option.filter, Option.map, accept, Instr.wf, postOk, mdI, b1, amBits, amPost]
theorem vsub (ty : VTy) (pm : BitVec 3) (q : Bool) (vd vx vy : BitVec 6) : Statement (.vsub ty pm q vd vx vy) := by
  intro hw _ rest
  refine (decode_encode_word rfl (by simp) rest).trans ?_
  rw [decodeWord, major11 (by simp) (by simp)]
  simp [decWV, Option.filter, Option.map, accept, Instr.wf, postOk, mdI, b1, amBits, amPost]
theorem vmul (ty : VTy) (pm : BitVec 3) (q : Bool) (vd vx vy : BitVec 6) : Statement (.vmul ty pm q vd vx vy) := by
  intro hw _ rest
  refine (decode_encode_word rfl (by simp) rest).trans ?_
  rw [decodeWord, major12 (by simp) (by simp)]
  simp [decWV, Option.filter, Option.map, accept, Instr.wf, postOk, mdI, b1, amBits, amPost]
theorem vfma (ty : VTy) (pm : BitVec 3) (q : Bool) (vd vx vy : BitVec 6) : Statement (.vfma ty pm q vd vx vy) := by
  intro hw _ rest
  refine (decode_encode_word rfl (by simp) rest).trans ?_
  rw [decodeWord, major13 (by simp) (by simp)]
  simp [decWV, Option.filter, Option.map, accept, Instr.wf, postOk, mdI, b1, amBits, amPost]
theorem vmin (ty : VTy) (pm : BitVec 3) (q : Bool) (vd vx vy : BitVec 6) : Statement (.vmin ty pm q vd vx vy) := by
  intro hw _ rest
  refine (decode_encode_word rfl (by simp) rest).trans ?_
  rw [decodeWord, major14 (by simp) (by simp)]
  simp [decWV, Option.filter, Option.map, accept, Instr.wf, postOk, mdI, b1, amBits, amPost]
theorem vmax (ty : VTy) (pm : BitVec 3) (q : Bool) (vd vx vy : BitVec 6) : Statement (.vmax ty pm q vd vx vy) := by
  intro hw _ rest
  refine (decode_encode_word rfl (by simp) rest).trans ?_
  rw [decodeWord, major15 (by simp) (by simp)]
  simp [decWV, Option.filter, Option.map, accept, Instr.wf, postOk, mdI, b1, amBits, amPost]
theorem vsll (ty : VTy) (pm : BitVec 3) (q : Bool) (vd vx vy : BitVec 6) : Statement (.vsll ty pm q vd vx vy) := by
  intro hw _ rest
  refine (decode_encode_word rfl (by simp) rest).trans ?_
  rw [decodeWord, major16 (by simp) (by simp)]
  simp_all [decWV, Option.filter, Option.map, accept, Instr.wf, postOk, mdI, b1, amBits, amPost]
theorem vsrl (ty : VTy) (pm : BitVec 3) (q : Bool) (vd vx vy : BitVec 6) : Statement (.vsrl ty pm q vd vx vy) := by
  intro hw _ rest
  refine (decode_encode_word rfl (by simp) rest).trans ?_
  rw [decodeWord, major17 (by simp) (by simp)]
  simp_all [decWV, Option.filter, Option.map, accept, Instr.wf, postOk, mdI, b1, amBits, amPost]
theorem vsra (ty : VTy) (pm : BitVec 3) (q : Bool) (vd vx vy : BitVec 6) : Statement (.vsra ty pm q vd vx vy) := by
  intro hw _ rest
  refine (decode_encode_word rfl (by simp) rest).trans ?_
  rw [decodeWord, major18 (by simp) (by simp)]
  simp_all [decWV, Option.filter, Option.map, accept, Instr.wf, postOk, mdI, b1, amBits, amPost]
theorem vand (pm : BitVec 3) (q : Bool) (vd vx vy : BitVec 6) : Statement (.vand pm q vd vx vy) := by
  intro hw _ rest
  refine (decode_encode_word rfl (by simp) rest).trans ?_
  rw [decodeWord, major19 (by simp) (by simp)]
  simp [decLogic, Option.filter, Option.map, accept, Instr.wf, postOk, mdI, b1, amBits, amPost]
theorem vor (pm : BitVec 3) (q : Bool) (vd vx vy : BitVec 6) : Statement (.vor pm q vd vx vy) := by
  intro hw _ rest
  refine (decode_encode_word rfl (by simp) rest).trans ?_
  rw [decodeWord, major19 (by simp) (by simp)]
  simp [decLogic, Option.filter, Option.map, accept, Instr.wf, postOk, mdI, b1, amBits, amPost]
theorem vxor (pm : BitVec 3) (q : Bool) (vd vx vy : BitVec 6) : Statement (.vxor pm q vd vx vy) := by
  intro hw _ rest
  refine (decode_encode_word rfl (by simp) rest).trans ?_
  rw [decodeWord, major19 (by simp) (by simp)]
  simp [decLogic, Option.filter, Option.map, accept, Instr.wf, postOk, mdI, b1, amBits, amPost]
theorem vandn (pm : BitVec 3) (q : Bool) (vd vx vy : BitVec 6) : Statement (.vandn pm q vd vx vy) := by
  intro hw _ rest
  refine (decode_encode_word rfl (by simp) rest).trans ?_
  rw [decodeWord, major19 (by simp) (by simp)]
  simp [decLogic, Option.filter, Option.map, accept, Instr.wf, postOk, mdI, b1, amBits, amPost]
theorem vnot (pm : BitVec 3) (q : Bool) (vd vx : BitVec 6) : Statement (.vnot pm q vd vx) := by
  intro hw _ rest
  refine (decode_encode_word rfl (by simp) rest).trans ?_
  rw [decodeWord, major19 (by simp) (by simp)]
  simp [decLogic, Option.filter, Option.map, accept, Instr.wf, postOk, mdI, b1, amBits, amPost]
theorem vcmp (cc : CmpOp) (ty : VTy) (pd : BitVec 4) (vx vy : BitVec 6) : Statement (.vcmp cc ty pd vx vy) := by
  intro hw _ rest
  refine (decode_encode_word rfl (by simp) rest).trans ?_
  rw [decodeWord, major1A (by simp) (by simp)]
  cases cc <;> simp_all [decVcmp, CmpOp.bits, Option.filter, Option.map, accept, Instr.wf, postOk, mdI, b1, amBits, amPost]
theorem vsel (pm : BitVec 3) (vd vx vy : BitVec 6) : Statement (.vsel pm vd vx vy) := by
  intro hw _ rest
  refine (decode_encode_word rfl (by simp) rest).trans ?_
  rw [decodeWord, major1A (by simp) (by simp)]
  simp [decVcmp, CmpOp.bits, Option.filter, Option.map, accept, Instr.wf, postOk, mdI, b1, amBits, amPost]
theorem vmv (vd vx : BitVec 6) : Statement (.vmv vd vx) := by
  intro hw _ rest
  refine (decode_encode_word rfl (by simp) rest).trans ?_
  rw [decodeWord, major1B (by simp) (by simp)]
  simp [decVmove, Option.filter, Option.map, accept, Instr.wf, postOk, mdI, b1, amBits, amPost]
theorem vperm (ty : VTy) (vd vx vy : BitVec 6) : Statement (.vperm ty vd vx vy) := by
  intro hw _ rest
  refine (decode_encode_word rfl (by simp) rest).trans ?_
  rw [decodeWord, major1B (by simp) (by simp)]
  simp [decVmove, Option.filter, Option.map, accept, Instr.wf, postOk, mdI, b1, amBits, amPost]
theorem vslideup (ty : VTy) (vd vx : BitVec 6) (y : BitVec 5) : Statement (.vslideup ty vd vx y) := by
  intro hw _ rest
  refine (decode_encode_word rfl (by simp) rest).trans ?_
  rw [decodeWord, major1B (by simp) (by simp)]
  simp [decVmove, Option.filter, Option.map, accept, Instr.wf, postOk, mdI, b1, amBits, amPost]
theorem vslidedn (ty : VTy) (vd vx : BitVec 6) (y : BitVec 5) : Statement (.vslidedn ty vd vx y) := by
  intro hw _ rest
  refine (decode_encode_word rfl (by simp) rest).trans ?_
  rw [decodeWord, major1B (by simp) (by simp)]
  simp [decVmove, Option.filter, Option.map, accept, Instr.wf, postOk, mdI, b1, amBits, amPost]
theorem vbcast (ty : VTy) (vd : BitVec 6) (y : BitVec 5) : Statement (.vbcast ty vd y) := by
  intro hw _ rest
  refine (decode_encode_word rfl (by simp) rest).trans ?_
  rw [decodeWord, major1B (by simp) (by simp)]
  simp [decVmove, Option.filter, Option.map, accept, Instr.wf, postOk, mdI, b1, amBits, amPost]
theorem vext (ty : VTy) (d : BitVec 5) (vx : BitVec 6) (k : BitVec 7) : Statement (.vext ty d vx k) := by
  intro hw _ rest
  refine (decode_encode_word rfl (by simp) rest).trans ?_
  rw [decodeWord, major1B (by simp) (by simp)]
  simp_all [decVmove, Option.filter, Option.map, accept, Instr.wf, postOk, mdI, b1, amBits, amPost]
theorem vcvt (ty : VTy) (dirFrom auto : Bool) (rm : RMode) (tab : Bool) (code : BitVec 4) (vd vx : BitVec 6) : Statement (.vcvt ty dirFrom auto rm tab code vd vx) := by
  intro hw _ rest
  refine (decode_encode_word rfl (by simp) rest).trans ?_
  rw [decodeWord, major1C (by simp) (by simp)]
  simp_all [decVcvt, Option.filter, Option.map, accept, Instr.wf, postOk, mdI, b1, amBits, amPost]
theorem vdiv (ty : VTy) (l : BitVec 2) (vx vy : BitVec 6) : Statement (.vdiv ty l vx vy) := by
  intro hw _ rest
  refine (decode_encode_word rfl (by simp) rest).trans ?_
  rw [decodeWord, major1D (by simp) (by simp)]
  simp_all [decLong, Option.filter, Option.map, accept, Instr.wf, postOk, mdI, b1, amBits, amPost]
theorem vsqrt (ty : VTy) (l : BitVec 2) (vx : BitVec 6) : Statement (.vsqrt ty l vx) := by
  intro hw _ rest
  refine (decode_encode_word rfl (by simp) rest).trans ?_
  rw [decodeWord, major1D (by simp) (by simp)]
  simp_all [decLong, Option.filter, Option.map, accept, Instr.wf, postOk, mdI, b1, amBits, amPost]
theorem vrcp (ty : VTy) (l : BitVec 2) (vx : BitVec 6) : Statement (.vrcp ty l vx) := by
  intro hw _ rest
  refine (decode_encode_word rfl (by simp) rest).trans ?_
  rw [decodeWord, major1D (by simp) (by simp)]
  simp_all [decLong, Option.filter, Option.map, accept, Instr.wf, postOk, mdI, b1, amBits, amPost]
theorem vrsqrt (ty : VTy) (l : BitVec 2) (vx : BitVec 6) : Statement (.vrsqrt ty l vx) := by
  intro hw _ rest
  refine (decode_encode_word rfl (by simp) rest).trans ?_
  rw [decodeWord, major1D (by simp) (by simp)]
  simp_all [decLong, Option.filter, Option.map, accept, Instr.wf, postOk, mdI, b1, amBits, amPost]
theorem vexp2 (ty : VTy) (l : BitVec 2) (vx : BitVec 6) : Statement (.vexp2 ty l vx) := by
  intro hw _ rest
  refine (decode_encode_word rfl (by simp) rest).trans ?_
  rw [decodeWord, major1D (by simp) (by simp)]
  simp_all [decLong, Option.filter, Option.map, accept, Instr.wf, postOk, mdI, b1, amBits, amPost]
theorem vlog2 (ty : VTy) (l : BitVec 2) (vx : BitVec 6) : Statement (.vlog2 ty l vx) := by
  intro hw _ rest
  refine (decode_encode_word rfl (by simp) rest).trans ?_
  rw [decodeWord, major1D (by simp) (by simp)]
  simp_all [decLong, Option.filter, Option.map, accept, Instr.wf, postOk, mdI, b1, amBits, amPost]
theorem vredsum (ty : VTy) (l : BitVec 2) (vx : BitVec 6) : Statement (.vredsum ty l vx) := by
  intro hw _ rest
  refine (decode_encode_word rfl (by simp) rest).trans ?_
  rw [decodeWord, major1D (by simp) (by simp)]
  simp [decLong, Option.filter, Option.map, accept, Instr.wf, postOk, mdI, b1, amBits, amPost]
theorem vredmax (ty : VTy) (l : BitVec 2) (vx : BitVec 6) : Statement (.vredmax ty l vx) := by
  intro hw _ rest
  refine (decode_encode_word rfl (by simp) rest).trans ?_
  rw [decodeWord, major1D (by simp) (by simp)]
  simp [decLong, Option.filter, Option.map, accept, Instr.wf, postOk, mdI, b1, amBits, amPost]
theorem vredmin (ty : VTy) (l : BitVec 2) (vx : BitVec 6) : Statement (.vredmin ty l vx) := by
  intro hw _ rest
  refine (decode_encode_word rfl (by simp) rest).trans ?_
  rw [decodeWord, major1D (by simp) (by simp)]
  simp [decLong, Option.filter, Option.map, accept, Instr.wf, postOk, mdI, b1, amBits, amPost]
theorem movlVector (vd : BitVec 6) (l : BitVec 2) : Statement (.movlVector vd l) := by
  intro hw _ rest
  refine (decode_encode_word rfl (by simp) rest).trans ?_
  rw [decodeWord, major1D (by simp) (by simp)]
  simp [decLong, Option.filter, Option.map, accept, Instr.wf, postOk, mdI, b1, amBits, amPost]
theorem movlScalar (d : BitVec 5) (l : BitVec 2) : Statement (.movlScalar d l) := by
  intro hw _ rest
  refine (decode_encode_word rfl (by simp) rest).trans ?_
  rw [decodeWord, major1D (by simp) (by simp)]
  simp [decLong, Option.filter, Option.map, accept, Instr.wf, postOk, mdI, b1, amBits, amPost]
theorem pand (pd px py : BitVec 4) : Statement (.pand pd px py) := by
  intro hw _ rest
  refine (decode_encode_word rfl (by simp) rest).trans ?_
  rw [decodeWord, major1E (by simp) (by simp)]
  simp [decPred, Option.filter, Option.map, accept, Instr.wf, postOk, mdI, b1, amBits, amPost]
theorem por (pd px py : BitVec 4) : Statement (.por pd px py) := by
  intro hw _ rest
  refine (decode_encode_word rfl (by simp) rest).trans ?_
  rw [decodeWord, major1E (by simp) (by simp)]
  simp [decPred, Option.filter, Option.map, accept, Instr.wf, postOk, mdI, b1, amBits, amPost]
theorem pxor (pd px py : BitVec 4) : Statement (.pxor pd px py) := by
  intro hw _ rest
  refine (decode_encode_word rfl (by simp) rest).trans ?_
  rw [decodeWord, major1E (by simp) (by simp)]
  simp [decPred, Option.filter, Option.map, accept, Instr.wf, postOk, mdI, b1, amBits, amPost]
theorem pandn (pd px py : BitVec 4) : Statement (.pandn pd px py) := by
  intro hw _ rest
  refine (decode_encode_word rfl (by simp) rest).trans ?_
  rw [decodeWord, major1E (by simp) (by simp)]
  simp [decPred, Option.filter, Option.map, accept, Instr.wf, postOk, mdI, b1, amBits, amPost]
theorem pnot (pd px : BitVec 4) : Statement (.pnot pd px) := by
  intro hw _ rest
  refine (decode_encode_word rfl (by simp) rest).trans ?_
  rw [decodeWord, major1E (by simp) (by simp)]
  simp [decPred, Option.filter, Option.map, accept, Instr.wf, postOk, mdI, b1, amBits, amPost]
theorem pfirst (ty : VTy) (pd : BitVec 4) (y : BitVec 5) : Statement (.pfirst ty pd y) := by
  intro hw _ rest
  refine (decode_encode_word rfl (by simp) rest).trans ?_
  rw [decodeWord, major1E (by simp) (by simp)]
  simp [decPred, Option.filter, Option.map, accept, Instr.wf, postOk, mdI, b1, amBits, amPost]
theorem pcnt (d : BitVec 5) (px : BitVec 4) : Statement (.pcnt d px) := by
  intro hw _ rest
  refine (decode_encode_word rfl (by simp) rest).trans ?_
  rw [decodeWord, major1E (by simp) (by simp)]
  simp [decPred, Option.filter, Option.map, accept, Instr.wf, postOk, mdI, b1, amBits, amPost]
theorem twr (ty : VTy) (p : BitVec 2) (t : BitVec 1) (row : BitVec 5) (vx : BitVec 6) : Statement (.twr ty p t row vx) := by
  intro hw _ rest
  refine (decode_encode_word rfl (by simp) rest).trans ?_
  rw [decodeWord, major1F (by simp) (by simp)]
  simp_all [decTile, Option.filter, Option.map, accept, Instr.wf, postOk, mdI, b1, amBits, amPost]
theorem trd (ty : VTy) (p : BitVec 2) (vd : BitVec 6) (t : BitVec 1) (col : BitVec 5) : Statement (.trd ty p vd t col) := by
  intro hw _ rest
  refine (decode_encode_word rfl (by simp) rest).trans ?_
  rw [decodeWord, major1F (by simp) (by simp)]
  simp_all [decTile, Option.filter, Option.map, accept, Instr.wf, postOk, mdI, b1, amBits, amPost]
theorem vcmpr48 (ty : VTy) (vd vm vx : BitVec 6) : Statement (.vcmpr48 ty vd vm vx) := by
  intro hw _ rest
  refine (decode_encode_word rfl (by simp) rest).trans ?_
  rw [decodeWord, major1F (by simp) (by simp)]
  simp_all [decTile, Option.filter, Option.map, accept, Instr.wf, postOk, mdI, b1, amBits, amPost]
theorem vcmpr48Lc (n : BitVec 2) (vd vm vx : BitVec 6) : Statement (.vcmpr48Lc n vd vm vx) := by
  intro hw _ rest
  refine (decode_encode_word rfl (by simp) rest).trans ?_
  rw [decodeWord, major1F (by simp) (by simp)]
  simp_all [decTile, Option.filter, Option.map, accept, Instr.wf, postOk, mdI, b1, amBits, amPost]
theorem mma (fo z : Bool) (ts : BitVec 2) (a b c : BitVec 5) : Statement (.mma fo z ts a b c) := by
  intro hw _ rest
  refine (decode_encode_word rfl (by simp) rest).trans ?_
  rw [decodeWord, major20 (by simp) (by simp)]
  simp_all [decMma, tsOk, Option.filter, Option.map, accept, Instr.wf, postOk, mdI, b1, amBits, amPost]
theorem mmas (fo z : Bool) (ts : BitVec 2) (a b c : BitVec 5) : Statement (.mmas fo z ts a b c) := by
  intro hw _ rest
  refine (decode_encode_word rfl (by simp) rest).trans ?_
  rw [decodeWord, major20 (by simp) (by simp)]
  simp_all [decMma, tsOk, Option.filter, Option.map, accept, Instr.wf, postOk, mdI, b1, amBits, amPost]
theorem mzero (ts : BitVec 2) : Statement (.mzero ts) := by
  intro hw _ rest
  refine (decode_encode_word rfl (by simp) rest).trans ?_
  rw [decodeWord, major21 (by simp) (by simp)]
  simp_all [decSlot, tsOk, Option.filter, Option.map, accept, Instr.wf, postOk, mdI, b1, amBits, amPost]
theorem mcvt (rm : RMode) (auto : Bool) (a : BitVec 5) (ts : BitVec 2) : Statement (.mcvt rm auto a ts) := by
  intro hw _ rest
  refine (decode_encode_word rfl (by simp) rest).trans ?_
  rw [decodeWord, major21 (by simp) (by simp)]
  simp_all [decSlot, tsOk, Option.filter, Option.map, accept, Instr.wf, postOk, mdI, b1, amBits, amPost]
theorem mldacc (ts : BitVec 2) (a : BitVec 5) : Statement (.mldacc ts a) := by
  intro hw _ rest
  refine (decode_encode_word rfl (by simp) rest).trans ?_
  rw [decodeWord, major21 (by simp) (by simp)]
  simp_all [decSlot, tsOk, Option.filter, Option.map, accept, Instr.wf, postOk, mdI, b1, amBits, amPost]
theorem mstacc (a : BitVec 5) (ts : BitVec 2) : Statement (.mstacc a ts) := by
  intro hw _ rest
  refine (decode_encode_word rfl (by simp) rest).trans ?_
  rw [decodeWord, major21 (by simp) (by simp)]
  simp_all [decSlot, tsOk, Option.filter, Option.map, accept, Instr.wf, postOk, mdI, b1, amBits, amPost]
theorem mstat (l : BitVec 2) (ts : BitVec 2) : Statement (.mstat l ts) := by
  intro hw _ rest
  refine (decode_encode_word rfl (by simp) rest).trans ?_
  rw [decodeWord, major21 (by simp) (by simp)]
  simp_all [decSlot, tsOk, Option.filter, Option.map, accept, Instr.wf, postOk, mdI, b1, amBits, amPost]
theorem cpy (a : BitVec 5) : Statement (.cpy a) := by
  intro hw _ rest
  refine (decode_encode_word rfl (by simp) rest).trans ?_
  rw [decodeWord, major22 (by simp) (by simp)]
  simp [decCopy, aOnly, Option.filter, Option.map, accept, Instr.wf, postOk, mdI, b1, amBits, amPost]
theorem cpyx (a : BitVec 5) : Statement (.cpyx a) := by
  intro hw _ rest
  refine (decode_encode_word rfl (by simp) rest).trans ?_
  rw [decodeWord, major22 (by simp) (by simp)]
  simp [decCopy, aOnly, Option.filter, Option.map, accept, Instr.wf, postOk, mdI, b1, amBits, amPost]
theorem gth (a : BitVec 5) : Statement (.gth a) := by
  intro hw _ rest
  refine (decode_encode_word rfl (by simp) rest).trans ?_
  rw [decodeWord, major23 (by simp) (by simp)]
  simp [decCopy, aOnly, Option.filter, Option.map, accept, Instr.wf, postOk, mdI, b1, amBits, amPost]
theorem sct (a : BitVec 5) : Statement (.sct a) := by
  intro hw _ rest
  refine (decode_encode_word rfl (by simp) rest).trans ?_
  rw [decodeWord, major23 (by simp) (by simp)]
  simp [decCopy, aOnly, Option.filter, Option.map, accept, Instr.wf, postOk, mdI, b1, amBits, amPost]
theorem semsig (q : SemQ) (sem : BitVec 6) (n : BitVec 15) : Statement (.semsig q sem n) := by
  intro hw _ rest
  refine (decode_encode_word rfl (by simp) rest).trans ?_
  rw [decodeWord, major24 (by simp) (by simp)]
  simp_all [decSem, Option.filter, Option.map, accept, Instr.wf, postOk, mdI, b1, amBits, amPost]
theorem semwait (q : SemQ) (sem : BitVec 6) (n : BitVec 15) : Statement (.semwait q sem n) := by
  intro hw _ rest
  refine (decode_encode_word rfl (by simp) rest).trans ?_
  rw [decodeWord, major24 (by simp) (by simp)]
  simp_all [decSem, Option.filter, Option.map, accept, Instr.wf, postOk, mdI, b1, amBits, amPost]
theorem semset (sem : BitVec 6) (n : BitVec 15) : Statement (.semset sem n) := by
  intro hw _ rest
  refine (decode_encode_word rfl (by simp) rest).trans ?_
  rw [decodeWord, major24 (by simp) (by simp)]
  simp [decSem, Option.filter, Option.map, accept, Instr.wf, postOk, mdI, b1, amBits, amPost]
theorem qfence (me ce cs : Bool) : Statement (.qfence me ce cs) := by
  intro hw _ rest
  refine (decode_encode_word rfl (by simp) rest).trans ?_
  rw [decodeWord, major25 (by simp) (by simp)]
  simp_all [decQf, aOnly, Option.filter, Option.map, accept, Instr.wf, postOk, mdI, b1, amBits, amPost]
theorem coll (a : BitVec 5) : Statement (.coll a) := by
  intro hw _ rest
  refine (decode_encode_word rfl (by simp) rest).trans ?_
  rw [decodeWord, major25 (by simp) (by simp)]
  simp [decQf, aOnly, Option.filter, Option.map, accept, Instr.wf, postOk, mdI, b1, amBits, amPost]
theorem bar (level : BarLevel) : Statement (.bar level) := by
  intro hw _ rest
  refine (decode_encode_word rfl (by simp) rest).trans ?_
  rw [decodeWord, major32 (by simp) (by simp)]
  simp [decBar, Option.filter, Option.map, accept, Instr.wf, postOk, mdI, b1, amBits, amPost]
theorem qplan (d a : BitVec 5) : Statement (.qplan d a) := by
  intro hw _ rest
  refine (decode_encode_word rfl (by simp) rest).trans ?_
  rw [decodeWord, major33 (by simp) (by simp)]
  simp_all [decPlan, Option.filter, Option.map, accept, Instr.wf, postOk, mdI, b1, amBits, amPost]
theorem qrun (d a : BitVec 5) : Statement (.qrun d a) := by
  intro hw _ rest
  refine (decode_encode_word rfl (by simp) rest).trans ?_
  rw [decodeWord, major33 (by simp) (by simp)]
  simp [decPlan, Option.filter, Option.map, accept, Instr.wf, postOk, mdI, b1, amBits, amPost]
theorem qhint (d a : BitVec 5) : Statement (.qhint d a) := by
  intro hw _ rest
  refine (decode_encode_word rfl (by simp) rest).trans ?_
  rw [decodeWord, major33 (by simp) (by simp)]
  simp [decPlan, Option.filter, Option.map, accept, Instr.wf, postOk, mdI, b1, amBits, amPost]
theorem qpin (d : BitVec 5) : Statement (.qpin d) := by
  intro hw _ rest
  refine (decode_encode_word rfl (by simp) rest).trans ?_
  rw [decodeWord, major33 (by simp) (by simp)]
  simp [decPlan, Option.filter, Option.map, accept, Instr.wf, postOk, mdI, b1, amBits, amPost]
theorem qunpin (d : BitVec 5) : Statement (.qunpin d) := by
  intro hw _ rest
  refine (decode_encode_word rfl (by simp) rest).trans ?_
  rw [decodeWord, major33 (by simp) (by simp)]
  simp [decPlan, Option.filter, Option.map, accept, Instr.wf, postOk, mdI, b1, amBits, amPost]
theorem qdrop (d : BitVec 5) : Statement (.qdrop d) := by
  intro hw _ rest
  refine (decode_encode_word rfl (by simp) rest).trans ?_
  rw [decodeWord, major33 (by simp) (by simp)]
  simp [decPlan, Option.filter, Option.map, accept, Instr.wf, postOk, mdI, b1, amBits, amPost]
theorem qstat (d a : BitVec 5) : Statement (.qstat d a) := by
  intro hw _ rest
  refine (decode_encode_word rfl (by simp) rest).trans ?_
  rw [decodeWord, major33 (by simp) (by simp)]
  simp [decPlan, Option.filter, Option.map, accept, Instr.wf, postOk, mdI, b1, amBits, amPost]
theorem statr (d a : BitVec 5) : Statement (.statr d a) := by
  intro hw _ rest
  refine (decode_encode_word rfl (by simp) rest).trans ?_
  rw [decodeWord, major34 (by simp) (by simp)]
  simp [decStat, Option.filter, Option.map, accept, Instr.wf, postOk, mdI, b1, amBits, amPost]
theorem statw (a d : BitVec 5) (mask : BitVec 10) : Statement (.statw a d mask) := by
  intro hw _ rest
  refine (decode_encode_word rfl (by simp) rest).trans ?_
  rw [decodeWord, major34 (by simp) (by simp)]
  simp [decStat, Option.filter, Option.map, accept, Instr.wf, postOk, mdI, b1, amBits, amPost]
theorem fmtld (a : BitVec 5) : Statement (.fmtld a) := by
  intro hw _ rest
  refine (decode_encode_word rfl (by simp) rest).trans ?_
  rw [decodeWord, major34 (by simp) (by simp)]
  simp [decStat, Option.filter, Option.map, accept, Instr.wf, postOk, mdI, b1, amBits, amPost]
theorem csrr (d : BitVec 5) (n : BitVec 10) : Statement (.csrr d n) := by
  intro hw _ rest
  refine (decode_encode_word rfl (by simp) rest).trans ?_
  rw [decodeWord, major35 (by simp) (by simp)]
  simp [decCsr, Option.filter, Option.map, accept, Instr.wf, postOk, mdI, b1, amBits, amPost]
theorem csrw (n : BitVec 10) (a : BitVec 5) : Statement (.csrw n a) := by
  intro hw _ rest
  refine (decode_encode_word rfl (by simp) rest).trans ?_
  rw [decodeWord, major35 (by simp) (by simp)]
  simp [decCsr, Option.filter, Option.map, accept, Instr.wf, postOk, mdI, b1, amBits, amPost]
theorem csrs (n : BitVec 10) (a : BitVec 5) : Statement (.csrs n a) := by
  intro hw _ rest
  refine (decode_encode_word rfl (by simp) rest).trans ?_
  rw [decodeWord, major35 (by simp) (by simp)]
  simp [decCsr, Option.filter, Option.map, accept, Instr.wf, postOk, mdI, b1, amBits, amPost]
theorem csrc (n : BitVec 10) (a : BitVec 5) : Statement (.csrc n a) := by
  intro hw _ rest
  refine (decode_encode_word rfl (by simp) rest).trans ?_
  rw [decodeWord, major35 (by simp) (by simp)]
  simp [decCsr, Option.filter, Option.map, accept, Instr.wf, postOk, mdI, b1, amBits, amPost]
theorem psave (omitv : BitVec 4) (omits : Bool) : Statement (.psave omitv omits) := by
  intro hw _ rest
  refine (decode_encode_word rfl (by simp) rest).trans ?_
  rw [decodeWord, major36 (by simp) (by simp)]
  simp [decSave, Option.filter, Option.map, accept, Instr.wf, postOk, mdI, b1, amBits, amPost]
theorem prest : Statement .prest := by
  intro hw _ rest
  refine (decode_encode_word rfl (by simp) rest).trans ?_
  rw [decodeWord, major36 (by simp) (by simp)]
  simp [decSave, Option.filter, Option.map, accept, Instr.wf, postOk, mdI, b1, amBits, amPost]
theorem rdtime (d : BitVec 5) : Statement (.rdtime d) := by
  intro hw _ rest
  refine (decode_encode_word rfl (by simp) rest).trans ?_
  rw [decodeWord, major36 (by simp) (by simp)]
  simp [decSave, Option.filter, Option.map, accept, Instr.wf, postOk, mdI, b1, amBits, amPost]
theorem performLq (s : SlotId) (piece : Nat) : Statement (.performLq s piece) := fun _ h => absurd rfl h
theorem performSq (s : SlotId) : Statement (.performSq s) := fun _ h => absurd rfl h
theorem performPath (c : CoreId) (k : Nat) : Statement (.performPath c k) := fun _ h => absurd rfl h
theorem performJoin (s : SlotId) : Statement (.performJoin s) := fun _ h => absurd rfl h
theorem blockEntry (s : SlotId) : Statement (.blockEntry s) := fun _ h => absurd rfl h
theorem passStart (s : SlotId) : Statement (.passStart s) := fun _ h => absurd rfl h
theorem syncRejoin (x : CtxId) : Statement (.syncRejoin x) := fun _ h => absurd rfl h
theorem preemptDiversion (s : SlotId) : Statement (.preemptDiversion s) := fun _ h => absurd rfl h
theorem vectorWriteLanding (s : SlotId) (k : Nat) : Statement (.vectorWriteLanding s k) := fun _ h => absurd rfl h
theorem latchWriteLanding (s : SlotId) (l : BitVec 2) : Statement (.latchWriteLanding s l) := fun _ h => absurd rfl h
theorem bankRetentionEntry (s : SlotId) (b : BitVec 2) : Statement (.bankRetentionEntry s b) := fun _ h => absurd rfl h
theorem bankWake (s : SlotId) (b : BitVec 2) : Statement (.bankWake s b) := fun _ h => absurd rfl h
theorem waittExpiry (s : SlotId) : Statement (.waittExpiry s) := fun _ h => absurd rfl h
theorem wgDispatch (dev : Nat) (launch : Nat) : Statement (.wgDispatch dev launch) := fun _ h => absurd rfl h
theorem wgRetire (x : CtxId) : Statement (.wgRetire x) := fun _ h => absurd rfl h
theorem barrierComplete (x : CtxId) (level : BarLevel) : Statement (.barrierComplete x level) := fun _ h => absurd rfl h
theorem engineQueueEntry (s : SlotId) : Statement (.engineQueueEntry s) := fun _ h => absurd rfl h
theorem followOnRelease (c : CoreId) : Statement (.followOnRelease c) := fun _ h => absurd rfl h
theorem powerTokenTake (c : CoreId) : Statement (.powerTokenTake c) := fun _ h => absurd rfl h
theorem powerTokenPass (dev field pos : Nat) : Statement (.powerTokenPass dev field pos) := fun _ h => absurd rfl h
theorem mzeroPerform (c : CoreId) : Statement (.mzeroPerform c) := fun _ h => absurd rfl h
theorem mmaRowCommit (c : CoreId) : Statement (.mmaRowCommit c) := fun _ h => absurd rfl h
theorem mcvtRowCommit (c : CoreId) : Statement (.mcvtRowCommit c) := fun _ h => absurd rfl h
theorem accRowTransfer (c : CoreId) : Statement (.accRowTransfer c) := fun _ h => absurd rfl h
theorem mstatPerform (c : CoreId) : Statement (.mstatPerform c) := fun _ h => absurd rfl h
theorem ceRowMove (c : CoreId) : Statement (.ceRowMove c) := fun _ h => absurd rfl h
theorem expandUnitWrite (c : CoreId) : Statement (.expandUnitWrite c) := fun _ h => absurd rfl h
theorem cycleBoundExpiry (c : CoreId) (e : Eng) : Statement (.cycleBoundExpiry c e) := fun _ h => absurd rfl h
theorem semwaitBoundExpiry (c : CoreId) (e : Eng) : Statement (.semwaitBoundExpiry c e) := fun _ h => absurd rfl h
theorem semsigEnginePerform (c : CoreId) (e : Eng) : Statement (.semsigEnginePerform c e) := fun _ h => absurd rfl h
theorem semwaitEnginePerform (c : CoreId) (e : Eng) : Statement (.semwaitEnginePerform c e) := fun _ h => absurd rfl h
theorem qfenceRelease (c : CoreId) : Statement (.qfenceRelease c) := fun _ h => absurd rfl h
theorem commandMigration (c : CoreId) (pos : Nat) (target : CoreId) : Statement (.commandMigration c pos target) := fun _ h => absurd rfl h
theorem migratedResultApply (c : CoreId) : Statement (.migratedResultApply c) := fun _ h => absurd rfl h
theorem collTransferEmit (c : CoreId) : Statement (.collTransferEmit c) := fun _ h => absurd rfl h
theorem chunkReceive (k : Nat) : Statement (.chunkReceive k) := fun _ h => absurd rfl h
theorem reductionContribution (k : Nat) : Statement (.reductionContribution k) := fun _ h => absurd rfl h
theorem reductionResultWrite (dev field slot : Nat) : Statement (.reductionResultWrite dev field slot) := fun _ h => absurd rfl h
theorem chunkAck (k : Nat) : Statement (.chunkAck k) := fun _ h => absurd rfl h
theorem collComplete (c : CoreId) : Statement (.collComplete c) := fun _ h => absurd rfl h
theorem stgStamp (k : Nat) : Statement (.stgStamp k) := fun _ h => absurd rfl h
theorem groupDelivery (k : Nat) : Statement (.groupDelivery k) := fun _ h => absurd rfl h
theorem groupApply (dev g : Nat) : Statement (.groupApply dev g) := fun _ h => absurd rfl h
theorem groupGapTimeout (dev g : Nat) : Statement (.groupGapTimeout dev g) := fun _ h => absurd rfl h
theorem groupLoad (dev : Nat) : Statement (.groupLoad dev) := fun _ h => absurd rfl h
theorem groupJoin (dev : Nat) : Statement (.groupJoin dev) := fun _ h => absurd rfl h
theorem groupLeave (dev : Nat) : Statement (.groupLeave dev) := fun _ h => absurd rfl h
theorem groupResend (dev : Nat) : Statement (.groupResend dev) := fun _ h => absurd rfl h
theorem planBreak (x : CtxId) (slot : Nat) : Statement (.planBreak x slot) := fun _ h => absurd rfl h
theorem planComplete (x : CtxId) (slot : Nat) : Statement (.planComplete x slot) := fun _ h => absurd rfl h
theorem shadowBankEntry (x : CtxId) (slot : Nat) : Statement (.shadowBankEntry x slot) := fun _ h => absurd rfl h
theorem trapEntry (s : SlotId) : Statement (.trapEntry s) := fun _ h => absurd rfl h
theorem faultLogRecord (dev : Nat) : Statement (.faultLogRecord dev) := fun _ h => absurd rfl h
theorem contextSave (x : CtxId) : Statement (.contextSave x) := fun _ h => absurd rfl h
theorem contextRestore (dev image : Nat) (x : CtxId) : Statement (.contextRestore dev image x) := fun _ h => absurd rfl h
theorem detLevelChange (s : SlotId) : Statement (.detLevelChange s) := fun _ h => absurd rfl h
theorem hostMemoryWrite (dev pa : Nat) (bytes : List Byte) : Statement (.hostMemoryWrite dev pa bytes) := fun _ h => absurd rfl h
theorem doorbell (dev q : Nat) (data : Word) : Statement (.doorbell dev q data) := fun _ h => absurd rfl h
theorem doorbellRestart (dev q : Nat) (data : Word) : Statement (.doorbellRestart dev q data) := fun _ h => absurd rfl h
theorem packetNop (dev slot : Nat) : Statement (.packetNop dev slot) := fun _ h => absurd rfl h
theorem packetLaunch (dev slot : Nat) : Statement (.packetLaunch dev slot) := fun _ h => absurd rfl h
theorem packetSetlevel (dev slot : Nat) : Statement (.packetSetlevel dev slot) := fun _ h => absurd rfl h
theorem packetArm (dev slot : Nat) : Statement (.packetArm dev slot) := fun _ h => absurd rfl h
theorem packetWrite (dev slot : Nat) : Statement (.packetWrite dev slot) := fun _ h => absurd rfl h
theorem readyPacketStart (dev k : Nat) : Statement (.readyPacketStart dev k) := fun _ h => absurd rfl h
theorem sigenDecrement (dev k : Nat) : Statement (.sigenDecrement dev k) := fun _ h => absurd rfl h
theorem armTargetDecrement (dev : Nat) : Statement (.armTargetDecrement dev) := fun _ h => absurd rfl h
theorem slotMap (dev slot qid prio : Nat) : Statement (.slotMap dev slot qid prio) := fun _ h => absurd rfl h
theorem slotUnmap (dev : Nat) (w : SlotWrite) : Statement (.slotUnmap dev w) := fun _ h => absurd rfl h
theorem slotPreempt (dev slot : Nat) : Statement (.slotPreempt dev slot) := fun _ h => absurd rfl h
theorem fwPolicyTick (dev : Nat) : Statement (.fwPolicyTick dev) := fun _ h => absurd rfl h
theorem watchdogT1 (dev launch : Nat) : Statement (.watchdogT1 dev launch) := fun _ h => absurd rfl h
theorem watchdogT2 (dev launch : Nat) : Statement (.watchdogT2 dev launch) := fun _ h => absurd rfl h
theorem watchdogT3 (dev launch : Nat) : Statement (.watchdogT3 dev launch) := fun _ h => absurd rfl h
theorem contextSkip (s : SlotId) : Statement (.contextSkip s) := fun _ h => absurd rfl h
theorem contextKill (s : SlotId) : Statement (.contextKill s) := fun _ h => absurd rfl h
theorem kttSetAbsent (s : SlotId) : Statement (.kttSetAbsent s) := fun _ h => absurd rfl h
theorem kttSetPresent (s : SlotId) : Statement (.kttSetPresent s) := fun _ h => absurd rfl h
theorem kttMigrate (s : SlotId) : Statement (.kttMigrate s) := fun _ h => absurd rfl h
theorem migrateLineCopy (dev asid : Nat) : Statement (.migrateLineCopy dev asid) := fun _ h => absurd rfl h
theorem firmwareLoad (dev pa : Nat) : Statement (.firmwareLoad dev pa) := fun _ h => absurd rfl h
theorem deviceReset (dev : Nat) : Statement (.deviceReset dev) := fun _ h => absurd rfl h
theorem fieldReset (dev field : Nat) : Statement (.fieldReset dev field) := fun _ h => absurd rfl h
theorem fieldBringupStep (dev field : Nat) (failedCores lostGranules : List Nat) : Statement (.fieldBringupStep dev field failedCores lostGranules) := fun _ h => absurd rfl h
theorem bringupStepTimeout (dev field : Nat) : Statement (.bringupStepTimeout dev field) := fun _ h => absurd rfl h
theorem ilimSet (dev field amps : Nat) : Statement (.ilimSet dev field amps) := fun _ h => absurd rfl h
theorem tokenCountUpdate (dev field : Nat) : Statement (.tokenCountUpdate dev field) := fun _ h => absurd rfl h
theorem thermalThrottleSet (dev field : Nat) (temp : BitVec 16) : Statement (.thermalThrottleSet dev field temp) := fun _ h => absurd rfl h
theorem thermalThrottleClear (dev field : Nat) (temp : BitVec 16) : Statement (.thermalThrottleClear dev field temp) := fun _ h => absurd rfl h
theorem thermalTrip (dev field : Nat) (temp : BitVec 16) : Statement (.thermalTrip dev field temp) := fun _ h => absurd rfl h
theorem spareName (dev : Nat) (data : Word) : Statement (.spareName dev data) := fun _ h => absurd rfl h
theorem spareCancel (dev : Nat) (data : Word) : Statement (.spareCancel dev data) := fun _ h => absurd rfl h
theorem advsvn (dev : Nat) (data : Word) : Statement (.advsvn dev data) := fun _ h => absurd rfl h
theorem attestationRequest (dev : Nat) (data : Word) : Statement (.attestationRequest dev data) := fun _ h => absurd rfl h
theorem attestationQuoteDone (dev : Nat) : Statement (.attestationQuoteDone dev) := fun _ h => absurd rfl h
theorem registerWrite (dev : Nat) (r : PlainReg) (data : Word) : Statement (.registerWrite dev r data) := fun _ h => absurd rfl h
theorem disciplineLockChange (dev : Nat) (locked : Bool) : Statement (.disciplineLockChange dev locked) := fun _ h => absurd rfl h
theorem wearMonitorSample (dev field : Nat) (margin eye : BitVec 16) (corrected : Nat) : Statement (.wearMonitorSample dev field margin eye corrected) := fun _ h => absurd rfl h

end Sys2Proof.Laws.Coding
end

