-- ==== Sys2Proof/Laws/Maps.lean ====
section
/-!
SUPPORT. Laws/Maps.lean: the laws of maps and of memories (R1, R3, log 2): what a read gives after a write, and that every memory
operation keeps the canonical form.
-/
namespace Sys2Proof.Machine

/-! ### Maps -/

variable {K V : Type} [DecidableEq K]

theorem fget?_fset_self (m : FMap K V) (k : K) (v : V) : fget? (fset m k v) k = some v := by
  induction m with
  | nil => simp [fset, fget?]
  | cons p r ih =>
    obtain ⟨a, b⟩ := p
    by_cases h : a = k
    · simp [fset, fget?, h]
    · simp [fset, fget?, h, ih]

theorem fget?_fset_ne (m : FMap K V) {k k' : K} (v : V) (h : k' ≠ k) : fget? (fset m k v) k' = fget? m k' := by
  induction m with
  | nil => simp [fset, fget?, h.symm]
  | cons p r ih =>
    obtain ⟨a, b⟩ := p
    by_cases ha : a = k
    · subst ha; simp [fset, fget?, h.symm]
    · by_cases hb : a = k'
      · subst hb; simp [fset, fget?, ha]
      · simp [fset, fget?, ha, hb, ih]

@[simp] theorem fget_fset_self (m : FMap K V) (k : K) (v d : V) : fget (fset m k v) k d = v := by
  simp [fget, fget?_fset_self]

theorem fget_fset_ne (m : FMap K V) {k k' : K} (v d : V) (h : k' ≠ k) : fget (fset m k v) k' d = fget m k' d := by
  simp [fget, fget?_fset_ne m v h]

theorem fget_fset (m : FMap K V) (k k' : K) (v d : V) : fget (fset m k v) k' d = if k' = k then v else fget m k' d := by
  by_cases h : k' = k
  · simp [h]
  · simp [h, fget_fset_ne]

/-- What a map lists after a key has been set was set or was listed before. -/
theorem mem_fset {m : FMap K V} {k : K} {v : V} {p : K × V} (h : p ∈ fset m k v) : p = (k, v) ∨ p ∈ m := by
  induction m with
  | nil => simp only [fset, List.mem_singleton] at h; exact .inl h
  | cons q r ih =>
    obtain ⟨a, b⟩ := q
    simp only [fset] at h
    split at h
    · rcases List.mem_cons.1 h with h | h
      · exact .inl h
      · exact .inr (List.mem_cons_of_mem _ h)
    · rcases List.mem_cons.1 h with h | h
      · exact .inr (h ▸ List.mem_cons_self)
      · rcases ih h with h | h
        · exact .inl h
        · exact .inr (List.mem_cons_of_mem _ h)

/-- What a map lists after a key has been removed was listed before. -/
theorem mem_fdel {m : FMap K V} {k : K} {p : K × V} (h : p ∈ fdel m k) : p ∈ m := by
  induction m with
  | nil => simp [fdel] at h
  | cons q r ih =>
    obtain ⟨a, b⟩ := q
    simp only [fdel] at h
    split at h
    · exact List.mem_cons_of_mem _ (ih h)
    · rcases List.mem_cons.1 h with h | h
      · exact h ▸ List.mem_cons_self
      · exact List.mem_cons_of_mem _ (ih h)

/-- A value that is found is listed. -/
theorem fget?_mem {m : FMap K V} {k : K} {v : V} (h : fget? m k = some v) : (k, v) ∈ m := by
  induction m with
  | nil => simp [fget?] at h
  | cons q r ih =>
    obtain ⟨a, b⟩ := q
    simp only [fget?] at h
    split at h
    · next e => cases h; cases e; exact List.mem_cons_self
    · exact List.mem_cons_of_mem _ (ih h)

/-- What holds of every listed value and of the default holds of every value read. -/
theorem fget_of_all {m : FMap K V} {P : V → Prop} (h : ∀ p ∈ m, P p.2) (k : K) {d : V} (hd : P d) : P (fget m k d) := by
  unfold fget
  cases e : fget? m k with
  | none => exact hd
  | some v => exact h _ (fget?_mem e)

theorem fset_all {m : FMap K V} {P : V → Prop} (h : ∀ p ∈ m, P p.2) (k : K) {v : V} (hv : P v) : ∀ p ∈ fset m k v, P p.2 := by
  intro p hp
  rcases mem_fset hp with rfl | hp
  · exact hv
  · exact h p hp

/-! ### Memories -/

theorem mget_below {m : Memory} {a : Nat} (h : ∀ c ∈ m, a < c.1) : mget m a = Memory.unlisted := by
  cases m with
  | nil => rfl
  | cons c r =>
    have := h c List.mem_cons_self
    obtain ⟨a', b⟩ := c
    simp only at this
    simp [mget, Nat.ne_of_gt this, this]

/-- A byte that has been written reads back (R1). -/
theorem mget_mset_self {m : Memory} (hm : m.wf) (a : Nat) (b : Byte) : mget (mset m a b) a = b := by
  induction m with
  | nil => by_cases h : b = Memory.unlisted <;> simp [mset, mget, h]
  | cons c r ih =>
    obtain ⟨a', b'⟩ := c
    obtain ⟨hp, hn⟩ := hm
    rw [List.pairwise_cons] at hp
    have hr : Memory.wf r := ⟨hp.2, fun c hc => hn c (List.mem_cons_of_mem _ hc)⟩
    by_cases h1 : a' = a
    · subst h1
      by_cases h : b = Memory.unlisted
      · simp [mset, h, mget_below hp.1]
      · simp [mset, mget, h]
    · by_cases h2 : a < a'
      · by_cases h : b = Memory.unlisted <;> simp [mset, mget, h1, h2, h]
      · simp [mset, mget, h1, h2, ih hr]

/-- A write leaves every other byte alone (R1). -/
theorem mget_mset_ne {m : Memory} (hm : m.wf) {a c : Nat} (b : Byte) (hc : c ≠ a) : mget (mset m a b) c = mget m c := by
  induction m with
  | nil =>
    by_cases h : b = Memory.unlisted <;> simp [mset, mget, h, hc.symm]
  | cons x r ih =>
    obtain ⟨a', b'⟩ := x
    obtain ⟨hp, hn⟩ := hm
    rw [List.pairwise_cons] at hp
    have hr : Memory.wf r := ⟨hp.2, fun c hc => hn c (List.mem_cons_of_mem _ hc)⟩
    by_cases h1 : a' = a
    · subst h1
      by_cases h : b = Memory.unlisted
      · simp only [mset, h, if_true, mget, hc.symm, if_false]
        split
        · exact mget_below fun d hd => Nat.lt_trans ‹c < a'› (hp.1 d hd)
        · rfl
      · simp [mset, mget, h, hc.symm]
    · by_cases h2 : a < a'
      · by_cases h : b = Memory.unlisted
        · simp [mset, h1, h2, h]
        · simp only [mset, h1, h2, h, if_true, if_false, mget, hc.symm]
          by_cases h3 : c < a
          · have h4 : c < a' := Nat.lt_trans h3 h2
            simp [h3, h4, Nat.ne_of_gt h4]
          · simp [h3]
      · simp only [mset, h1, h2, if_false, mget, ih hr]

theorem mset_mem {m : Memory} {a : Nat} {b : Byte} {c : Host.Cell} (h : c ∈ mset m a b) : c = (a, b) ∨ c ∈ m := by
  induction m with
  | nil =>
    simp only [mset] at h
    split at h <;> simp_all
  | cons x r ih =>
    obtain ⟨a', b'⟩ := x
    simp only [mset] at h
    split at h
    · split at h
      · exact .inr (List.mem_cons_of_mem _ h)
      · rcases List.mem_cons.1 h with h | h
        · exact .inl h
        · exact .inr (List.mem_cons_of_mem _ h)
    · split at h
      · split at h
        · exact .inr h
        · rcases List.mem_cons.1 h with h | h
          · exact .inl h
          · exact .inr h
      · rcases List.mem_cons.1 h with h | h
        · exact .inr (h ▸ List.mem_cons_self)
        · rcases ih h with h | h
          · exact .inl h
          · exact .inr (List.mem_cons_of_mem _ h)

/-- Writing one byte keeps the canonical form (log 2). -/
theorem mset_wf {m : Memory} (hm : m.wf) (a : Nat) (b : Byte) : (mset m a b).wf := by
  induction m with
  | nil =>
    by_cases h : b = Memory.unlisted
    · simp [mset, h, Memory.wf]
    · simp [mset, h, Memory.wf]
  | cons x r ih =>
    obtain ⟨a', b'⟩ := x
    obtain ⟨hp, hn⟩ := hm
    have hp' := List.pairwise_cons.1 hp
    have hr : Memory.wf r := ⟨hp'.2, fun c hc => hn c (List.mem_cons_of_mem _ hc)⟩
    by_cases h1 : a' = a
    · subst h1
      by_cases h : b = Memory.unlisted
      · simpa [mset, h] using hr
      · simp only [mset, h, if_true, if_false]
        exact ⟨List.pairwise_cons.2 hp', fun c hc => by
          rcases List.mem_cons.1 hc with rfl | hc
          · exact h
          · exact hr.2 c hc⟩
    · by_cases h2 : a < a'
      · by_cases h : b = Memory.unlisted
        · rw [show mset ((a', b') :: r) a b = (a', b') :: r by simp [mset, h1, h2, h]]
          exact ⟨hp, hn⟩
        · simp only [mset, h1, h2, h, if_true, if_false]
          refine ⟨List.pairwise_cons.2 ⟨fun c hc => ?_, hp⟩, fun c hc => ?_⟩
          · rcases List.mem_cons.1 hc with rfl | hc
            · exact h2
            · exact Nat.lt_trans h2 (hp'.1 c hc)
          · rcases List.mem_cons.1 hc with rfl | hc
            · exact h
            · exact hn c hc
      · simp only [mset, h1, h2, if_false]
        have := ih hr
        refine ⟨List.pairwise_cons.2 ⟨fun c hc => ?_, this.1⟩, fun c hc => ?_⟩
        · rcases mset_mem hc with rfl | hc
          · exact Nat.lt_of_le_of_ne (Nat.not_lt.1 h2) h1
          · exact hp'.1 c hc
        · rcases List.mem_cons.1 hc with rfl | hc
          · exact hn _ List.mem_cons_self
          · exact this.2 c hc

/-- Writing bytes keeps the canonical form (log 2). -/
theorem mwrite_wf {m : Memory} (hm : m.wf) (a : Nat) (bs : List Byte) : (mwrite m a bs).wf := by
  induction bs generalizing m a with
  | nil => exact hm
  | cons b bs ih => exact ih (mset_wf hm a b) (a + 1)

/-- Bytes outside those written are left alone. -/
theorem mget_mwrite_out {m : Memory} (hm : m.wf) {a c : Nat} {bs : List Byte} (h : c < a ∨ a + bs.length ≤ c) :
    mget (mwrite m a bs) c = mget m c := by
  induction bs generalizing m a with
  | nil => rfl
  | cons b bs ih =>
    simp only [List.length_cons] at h
    rw [mwrite, ih (mset_wf hm a b) (by omega), mget_mset_ne hm b (by omega)]

/-- Bytes that have been written read back. -/
theorem mget_mwrite_in {m : Memory} (hm : m.wf) {a k : Nat} {bs : List Byte} (h : k < bs.length) :
    mget (mwrite m a bs) (a + k) = bs[k] := by
  induction bs generalizing m a k with
  | nil => simp at h
  | cons b bs ih =>
    cases k with
    | zero =>
      rw [mwrite, mget_mwrite_out (mset_wf hm a b) (by omega)]
      simpa using mget_mset_self hm a b
    | succ k =>
      have hk : k < bs.length := by simpa using h
      rw [mwrite, show a + (k + 1) = a + 1 + k by omega, ih (mset_wf hm a b) hk]
      rfl

theorem length_mread (m : Memory) (a n : Nat) : (mread m a n).length = n := by
  induction n generalizing a with
  | zero => rfl
  | succ n ih => simp [mread, ih]

/-- A read gives what was last written there (R1, R3). -/
theorem mread_mwrite {m : Memory} (hm : m.wf) (a : Nat) (bs : List Byte) : mread (mwrite m a bs) a bs.length = bs := by
  suffices H : ∀ (cs : List Byte) (k : Nat), cs = bs.drop k → mread (mwrite m a bs) (a + k) cs.length = cs by
    simpa using H bs 0 rfl
  intro cs
  induction cs with
  | nil => intros; rfl
  | cons c cs ih =>
    intro k hk
    have hlt : k < bs.length := by
      by_contra hc
      rw [List.drop_eq_nil_of_le (by omega)] at hk
      cases hk
    rw [List.drop_eq_getElem_cons hlt] at hk
    injection hk with h1 h2
    rw [List.length_cons, mread, mget_mwrite_in hm hlt, h1]
    exact congrArg _ (ih (k + 1) h2)

/-- Two canonical memories that read alike are equal. -/
theorem Memory.ext_of_wf {m n : Memory} (hm : m.wf) (hn : n.wf) (h : ∀ a, mget m a = mget n a) : m = n := by
  induction m generalizing n with
  | nil =>
    cases n with
    | nil => rfl
    | cons c r =>
      have h1 := h c.1
      simp only [mget, if_true] at h1
      exact absurd h1.symm (hn.2 c List.mem_cons_self)
  | cons c r ih =>
    cases n with
    | nil =>
      have h1 := h c.1
      simp only [mget, if_true] at h1
      exact absurd h1 (hm.2 c List.mem_cons_self)
    | cons d q =>
      obtain ⟨a, b⟩ := c
      obtain ⟨a', b'⟩ := d
      have hb : b ≠ Memory.unlisted := hm.2 (a, b) List.mem_cons_self
      have hb' : b' ≠ Memory.unlisted := hn.2 (a', b') List.mem_cons_self
      have hp := List.pairwise_cons.1 hm.1
      have hq := List.pairwise_cons.1 hn.1
      have e : a = a' := by
        rcases Nat.lt_trichotomy a a' with hlt | heq | hgt
        · have := h a
          simp [mget, hlt, Nat.ne_of_gt hlt] at this
          exact absurd this hb
        · exact heq
        · have := h a'
          simp [mget, hgt, Nat.ne_of_gt hgt] at this
          exact absurd this.symm hb'
      subst e
      have e2 : b = b' := by simpa [mget] using h a
      subst e2
      have hr : Memory.wf r := ⟨hp.2, fun c hc => hm.2 c (List.mem_cons_of_mem _ hc)⟩
      have hq' : Memory.wf q := ⟨hq.2, fun c hc => hn.2 c (List.mem_cons_of_mem _ hc)⟩
      congr 1
      apply ih hr hq'
      intro x
      have hx := h x
      simp only [mget] at hx
      by_cases h1 : a = x
      · subst h1
        rw [mget_below hp.1, mget_below hq.1]
      · by_cases h2 : x < a
        · rw [mget_below fun d hd => Nat.lt_trans h2 (hp.1 d hd), mget_below fun d hd => Nat.lt_trans h2 (hq.1 d hd)]
        · simpa [h1, h2] using hx

end Sys2Proof.Machine
end

