-- ==== Sys2Proof/Laws/State.lean ====
section
/-!
SUPPORT. Laws/State.lean: what each update of the state leaves and what each accessor reads after it, one lemma for each field
and update, so that no later proof unfolds a record update.
-/
namespace Sys2Proof.Machine

/-! ### The fields of the machine after an update -/

@[simp] theorem State.setStrm_pod (s : State) (id : SlotId) (st : Stream) : (s.setStrm id st).pod = s.pod := rfl
@[simp] theorem State.setStrm_ctxs (s : State) (id : SlotId) (st : Stream) : (s.setStrm id st).ctxs = s.ctxs := rfl
@[simp] theorem State.setStrm_cores (s : State) (id : SlotId) (st : Stream) : (s.setStrm id st).cores = s.cores := rfl
@[simp] theorem State.setStrm_devs (s : State) (id : SlotId) (st : Stream) : (s.setStrm id st).devs = s.devs := rfl
@[simp] theorem State.setStrm_homes (s : State) (id : SlotId) (st : Stream) : (s.setStrm id st).homes = s.homes := rfl
@[simp] theorem State.setStrm_toHome (s : State) (id : SlotId) (st : Stream) : (s.setStrm id st).toHome = s.toHome := rfl
@[simp] theorem State.setStrm_deliveries (s : State) (id : SlotId) (st : Stream) : (s.setStrm id st).deliveries = s.deliveries := rfl
@[simp] theorem State.setStrm_chunks (s : State) (id : SlotId) (st : Stream) : (s.setStrm id st).chunks = s.chunks := rfl
@[simp] theorem State.setStrm_cur (s : State) (id : SlotId) (st : Stream) : (s.setStrm id st).cur = s.cur := rfl
@[simp] theorem State.setStrm_side (s : State) (id : SlotId) (st : Stream) : (s.setStrm id st).side = s.side := rfl
@[simp] theorem State.setStrm_agenda (s : State) (id : SlotId) (st : Stream) : (s.setStrm id st).agenda = s.agenda := rfl
@[simp] theorem State.setStrm_clock (s : State) (id : SlotId) (st : Stream) : (s.setStrm id st).clock = s.clock := rfl
@[simp] theorem State.setStrm_nextId (s : State) (id : SlotId) (st : Stream) : (s.setStrm id st).nextId = s.nextId := rfl

@[simp] theorem State.setCtx_pod (s : State) (x : CtxId) (c : Ctx) : (s.setCtx x c).pod = s.pod := rfl
@[simp] theorem State.setCtx_streams (s : State) (x : CtxId) (c : Ctx) : (s.setCtx x c).streams = s.streams := rfl
@[simp] theorem State.setCtx_cores (s : State) (x : CtxId) (c : Ctx) : (s.setCtx x c).cores = s.cores := rfl
@[simp] theorem State.setCtx_devs (s : State) (x : CtxId) (c : Ctx) : (s.setCtx x c).devs = s.devs := rfl
@[simp] theorem State.setCtx_homes (s : State) (x : CtxId) (c : Ctx) : (s.setCtx x c).homes = s.homes := rfl
@[simp] theorem State.setCtx_toHome (s : State) (x : CtxId) (c : Ctx) : (s.setCtx x c).toHome = s.toHome := rfl
@[simp] theorem State.setCtx_deliveries (s : State) (x : CtxId) (c : Ctx) : (s.setCtx x c).deliveries = s.deliveries := rfl
@[simp] theorem State.setCtx_chunks (s : State) (x : CtxId) (c : Ctx) : (s.setCtx x c).chunks = s.chunks := rfl
@[simp] theorem State.setCtx_cur (s : State) (x : CtxId) (c : Ctx) : (s.setCtx x c).cur = s.cur := rfl
@[simp] theorem State.setCtx_side (s : State) (x : CtxId) (c : Ctx) : (s.setCtx x c).side = s.side := rfl
@[simp] theorem State.setCtx_agenda (s : State) (x : CtxId) (c : Ctx) : (s.setCtx x c).agenda = s.agenda := rfl
@[simp] theorem State.setCtx_clock (s : State) (x : CtxId) (c : Ctx) : (s.setCtx x c).clock = s.clock := rfl
@[simp] theorem State.setCtx_nextId (s : State) (x : CtxId) (c : Ctx) : (s.setCtx x c).nextId = s.nextId := rfl

@[simp] theorem State.setCore_pod (s : State) (x : CoreId) (c : Core) : (s.setCore x c).pod = s.pod := rfl
@[simp] theorem State.setCore_streams (s : State) (x : CoreId) (c : Core) : (s.setCore x c).streams = s.streams := rfl
@[simp] theorem State.setCore_ctxs (s : State) (x : CoreId) (c : Core) : (s.setCore x c).ctxs = s.ctxs := rfl
@[simp] theorem State.setCore_devs (s : State) (x : CoreId) (c : Core) : (s.setCore x c).devs = s.devs := rfl
@[simp] theorem State.setCore_homes (s : State) (x : CoreId) (c : Core) : (s.setCore x c).homes = s.homes := rfl
@[simp] theorem State.setCore_toHome (s : State) (x : CoreId) (c : Core) : (s.setCore x c).toHome = s.toHome := rfl
@[simp] theorem State.setCore_deliveries (s : State) (x : CoreId) (c : Core) : (s.setCore x c).deliveries = s.deliveries := rfl
@[simp] theorem State.setCore_chunks (s : State) (x : CoreId) (c : Core) : (s.setCore x c).chunks = s.chunks := rfl
@[simp] theorem State.setCore_cur (s : State) (x : CoreId) (c : Core) : (s.setCore x c).cur = s.cur := rfl
@[simp] theorem State.setCore_side (s : State) (x : CoreId) (c : Core) : (s.setCore x c).side = s.side := rfl
@[simp] theorem State.setCore_agenda (s : State) (x : CoreId) (c : Core) : (s.setCore x c).agenda = s.agenda := rfl
@[simp] theorem State.setCore_clock (s : State) (x : CoreId) (c : Core) : (s.setCore x c).clock = s.clock := rfl
@[simp] theorem State.setCore_nextId (s : State) (x : CoreId) (c : Core) : (s.setCore x c).nextId = s.nextId := rfl

@[simp] theorem State.setDev_pod (s : State) (d : Nat) (v : Device) : (s.setDev d v).pod = s.pod := rfl
@[simp] theorem State.setDev_streams (s : State) (d : Nat) (v : Device) : (s.setDev d v).streams = s.streams := rfl
@[simp] theorem State.setDev_ctxs (s : State) (d : Nat) (v : Device) : (s.setDev d v).ctxs = s.ctxs := rfl
@[simp] theorem State.setDev_cores (s : State) (d : Nat) (v : Device) : (s.setDev d v).cores = s.cores := rfl
@[simp] theorem State.setDev_homes (s : State) (d : Nat) (v : Device) : (s.setDev d v).homes = s.homes := rfl
@[simp] theorem State.setDev_toHome (s : State) (d : Nat) (v : Device) : (s.setDev d v).toHome = s.toHome := rfl
@[simp] theorem State.setDev_deliveries (s : State) (d : Nat) (v : Device) : (s.setDev d v).deliveries = s.deliveries := rfl
@[simp] theorem State.setDev_chunks (s : State) (d : Nat) (v : Device) : (s.setDev d v).chunks = s.chunks := rfl
@[simp] theorem State.setDev_cur (s : State) (d : Nat) (v : Device) : (s.setDev d v).cur = s.cur := rfl
@[simp] theorem State.setDev_side (s : State) (d : Nat) (v : Device) : (s.setDev d v).side = s.side := rfl
@[simp] theorem State.setDev_agenda (s : State) (d : Nat) (v : Device) : (s.setDev d v).agenda = s.agenda := rfl
@[simp] theorem State.setDev_clock (s : State) (d : Nat) (v : Device) : (s.setDev d v).clock = s.clock := rfl
@[simp] theorem State.setDev_nextId (s : State) (d : Nat) (v : Device) : (s.setDev d v).nextId = s.nextId := rfl

/-! ### The accessors after an update -/

@[simp] theorem State.strm_setStrm (s : State) (k : SlotId) (v : Stream) : (s.setStrm k v).strm k = v := by
  simp [State.strm, State.setStrm]
theorem State.strm_setStrm_ne (s : State) {k k' : SlotId} (v : Stream) (h : k' ≠ k) : (s.setStrm k v).strm k' = s.strm k' := by
  simp [State.strm, State.setStrm, fget_fset_ne _ _ _ h]
theorem State.strm_setStrm_if (s : State) (k k' : SlotId) (v : Stream) : (s.setStrm k v).strm k' = if k' = k then v else s.strm k' := by
  simp [State.strm, State.setStrm, fget_fset]
@[simp] theorem State.strm_setCtx (s : State) (k : SlotId) (k2 : CtxId) (v : Ctx) : (s.setCtx k2 v).strm k = s.strm k := rfl
@[simp] theorem State.strm_setCore (s : State) (k : SlotId) (k2 : CoreId) (v : Core) : (s.setCore k2 v).strm k = s.strm k := rfl
@[simp] theorem State.strm_setDev (s : State) (k : SlotId) (k2 : Nat) (v : Device) : (s.setDev k2 v).strm k = s.strm k := rfl

@[simp] theorem State.ctx_setCtx (s : State) (k : CtxId) (v : Ctx) : (s.setCtx k v).ctx k = v := by
  simp [State.ctx, State.setCtx]
theorem State.ctx_setCtx_ne (s : State) {k k' : CtxId} (v : Ctx) (h : k' ≠ k) : (s.setCtx k v).ctx k' = s.ctx k' := by
  simp [State.ctx, State.setCtx, fget_fset_ne _ _ _ h]
theorem State.ctx_setCtx_if (s : State) (k k' : CtxId) (v : Ctx) : (s.setCtx k v).ctx k' = if k' = k then v else s.ctx k' := by
  simp [State.ctx, State.setCtx, fget_fset]
@[simp] theorem State.ctx_setStrm (s : State) (k : CtxId) (k2 : SlotId) (v : Stream) : (s.setStrm k2 v).ctx k = s.ctx k := rfl
@[simp] theorem State.ctx_setCore (s : State) (k : CtxId) (k2 : CoreId) (v : Core) : (s.setCore k2 v).ctx k = s.ctx k := rfl
@[simp] theorem State.ctx_setDev (s : State) (k : CtxId) (k2 : Nat) (v : Device) : (s.setDev k2 v).ctx k = s.ctx k := rfl

@[simp] theorem State.core_setCore (s : State) (k : CoreId) (v : Core) : (s.setCore k v).core k = v := by
  simp [State.core, State.setCore]
theorem State.core_setCore_ne (s : State) {k k' : CoreId} (v : Core) (h : k' ≠ k) : (s.setCore k v).core k' = s.core k' := by
  simp [State.core, State.setCore, fget_fset_ne _ _ _ h]
theorem State.core_setCore_if (s : State) (k k' : CoreId) (v : Core) : (s.setCore k v).core k' = if k' = k then v else s.core k' := by
  simp [State.core, State.setCore, fget_fset]
@[simp] theorem State.core_setStrm (s : State) (k : CoreId) (k2 : SlotId) (v : Stream) : (s.setStrm k2 v).core k = s.core k := rfl
@[simp] theorem State.core_setCtx (s : State) (k : CoreId) (k2 : CtxId) (v : Ctx) : (s.setCtx k2 v).core k = s.core k := rfl
@[simp] theorem State.core_setDev (s : State) (k : CoreId) (k2 : Nat) (v : Device) : (s.setDev k2 v).core k = s.core k := rfl

@[simp] theorem State.dev_setDev (s : State) (k : Nat) (v : Device) : (s.setDev k v).dev k = v := by
  simp [State.dev, State.setDev]
theorem State.dev_setDev_ne (s : State) {k k' : Nat} (v : Device) (h : k' ≠ k) : (s.setDev k v).dev k' = s.dev k' := by
  simp [State.dev, State.setDev, fget_fset_ne _ _ _ h]
theorem State.dev_setDev_if (s : State) (k k' : Nat) (v : Device) : (s.setDev k v).dev k' = if k' = k then v else s.dev k' := by
  simp [State.dev, State.setDev, fget_fset]
@[simp] theorem State.dev_setStrm (s : State) (k : Nat) (k2 : SlotId) (v : Stream) : (s.setStrm k2 v).dev k = s.dev k := rfl
@[simp] theorem State.dev_setCtx (s : State) (k : Nat) (k2 : CtxId) (v : Ctx) : (s.setCtx k2 v).dev k = s.dev k := rfl
@[simp] theorem State.dev_setCore (s : State) (k : Nat) (k2 : CoreId) (v : Core) : (s.setCore k2 v).dev k = s.dev k := rfl

/-- The current stream after it has been replaced. -/
@[simp] theorem State.st_setSt (s : State) (st : Stream) : (s.setSt st).st = st := by simp [State.st, State.setSt]
@[simp] theorem State.st_onSt (s : State) (f : Stream → Stream) : (s.onSt f).st = f s.st := by simp [State.onSt]
@[simp] theorem State.setSt_cur (s : State) (st : Stream) : (s.setSt st).cur = s.cur := rfl
@[simp] theorem State.onSt_cur (s : State) (f : Stream → Stream) : (s.onSt f).cur = s.cur := rfl
theorem State.strm_setSt_ne (s : State) (st : Stream) {id : SlotId} (h : id ≠ s.cur) : (s.setSt st).strm id = s.strm id := by
  simp [State.setSt, State.strm_setStrm_ne _ _ h]

/-! ### The scalars -/

@[simp] theorem Stream.rs_zero (st : Stream) : st.rs 0#5 = 0 := by simp [Stream.rs]
@[simp] theorem Stream.ws_zero (st : Stream) (x : Word) : st.ws 0#5 x = st := by simp [Stream.ws]
theorem Stream.rs_ws (st : Stream) (d r : BitVec 5) (x : Word) :
    (st.ws d x).rs r = if r = 0#5 then 0 else if r = d then x else st.rs r := by
  by_cases h0 : r = 0#5
  · simp [h0, Stream.rs]
  · by_cases hd : d = 0#5
    · subst hd; simp [h0]
    · by_cases h : r = d
      · subst h; simp [Stream.rs, Stream.ws, h0]
      · have : d.toNat ≠ r.toNat := fun e => h (BitVec.eq_of_toNat_eq e.symm)
        simp [Stream.rs, Stream.ws, h0, hd, h, this]
@[simp] theorem Stream.rp_zero (st : Stream) : st.rp 0#4 = BitVec.allOnes 128 := by simp [Stream.rp]

end Sys2Proof.Machine
end

