-- ==== Sys2Proof/Safety.lean ====
section
/-!
DEFINITION. Safety.lean: what counts as a safe run, and the terms in which the statements say what a step leaves unchanged.
-/
namespace Sys2Proof

open Sys2Proof.Machine

/-- The machine answers a next state. -/
def Machine.Goes (s : Machine.State) : Prop := ∃ t, Machine.step s = .next t

/-- Every step from s, k times over, answers a next state. -/
def Machine.SafeFor : Nat → Machine.State → Prop
  | 0, _ => True
  | k + 1, s => ∃ t, Machine.step s = .next t ∧ Machine.SafeFor k t

/-! ### The canonical form of every memory (log 2) -/

/-- The typed buffers of a context are in canonical form. -/
def Machine.Ctx.canon (c : Ctx) : Prop := c.wb.wf ∧ c.ab.wf ∧ c.cbuf.wf

/-- Device memory and host memory of a device are in canonical form. -/
def Machine.Device.canon (d : Device) : Prop := d.mem.wf ∧ d.hostMem.wf

/-- Every memory of the machine is in canonical form. -/
def Machine.State.Canon (s : State) : Prop := (∀ p ∈ s.devs, p.2.canon) ∧ (∀ p ∈ s.ctxs, p.2.canon)

/-! ### What a step leaves unchanged -/

/-- Two states hold the same bytes in device memory, in host memory and in the typed buffers, read one by one. -/
structure Machine.SameBytes (s t : State) : Prop where
  mem : ∀ d a, mget (t.dev d).mem a = mget (s.dev d).mem a
  host : ∀ d a, mget (t.dev d).hostMem a = mget (s.dev d).hostMem a
  wb : ∀ x a, mget (t.ctx x).wb a = mget (s.ctx x).wb a
  ab : ∀ x a, mget (t.ctx x).ab a = mget (s.ctx x).ab a
  cbuf : ∀ x a, mget (t.ctx x).cbuf a = mget (s.ctx x).cbuf a

/-- What stands beside the current stream is the same: every other stream, every context, core and device with all their bytes
and registers, and what is under way between devices. -/
structure Machine.Beside (s t : State) : Prop where
  bytes : SameBytes s t
  devs : t.devs = s.devs
  ctxs : t.ctxs = s.ctxs
  cores : t.cores = s.cores
  pod : t.pod = s.pod
  homes : t.homes = s.homes
  toHome : t.toHome = s.toHome
  deliveries : t.deliveries = s.deliveries
  chunks : t.chunks = s.chunks
  cur : t.cur = s.cur
  agenda : t.agenda = s.agenda
  streams : ∀ id, id ≠ s.cur → t.strm id = s.strm id

/-- Two streams hold the same registers, queues and pending work; their places and whether they run or wait may differ. -/
structure Machine.SameRegs (a b : Stream) : Prop where
  s : b.s = a.s
  v : b.v = a.v
  p : b.p = a.p
  l : b.l = a.l
  lc : b.lc = a.lc
  rrb : b.rrb = a.rrb
  fmt : b.fmt = a.fmt
  uthr : b.uthr = a.uthr
  vsc : b.vsc = a.vsc
  vcnt : b.vcnt = a.vcnt
  ret : b.ret = a.ret
  tx : b.tx = a.tx
  rasCount : b.rasCount = a.rasCount
  rasSpill : b.rasSpill = a.rasSpill
  ras : b.ras = a.ras
  rasBase : b.rasBase = a.rasBase
  tails : b.tails = a.tails
  priv : b.priv = a.priv
  trap : b.trap = a.trap
  omitv : b.omitv = a.omitv
  omits : b.omits = a.omits
  owner : b.owner = a.owner
  spawner : b.spawner = a.spawner
  sq : b.sq = a.sq
  pend : b.pend = a.pend
  amoPend : b.amoPend = a.amoPend
  stub : b.stub = a.stub
  pendFaults : b.pendFaults = a.pendFaults
  qs : b.acc.qs = a.acc.qs
  lq : b.acc.lq = a.acc.lq
  performed : b.acc.done = a.acc.done

/-- From `s` the current stream has gone on: it runs, its execute cursor stands at `c`, its registers are those of `a`, and nothing
beside it has changed. -/
structure Machine.Went (s t : State) (a : Stream) (c : Cursor) : Prop where
  regs : SameRegs a t.st
  place : t.st.ex = c
  runs : t.st.status = .running
  beside : Beside s t

/-- From `s` the current stream has gone past an instruction of n bytes, with the registers of `a`. -/
def Machine.Passed (s t : State) (a : Stream) (n : Word) : Prop := Went s t a (s.st.ex.adv n)

/-! ### The terms of the statements -/

namespace Claims

/-- The instruction completes: it writes x to the scalar d, where s0 takes nothing, and goes past its n bytes; nothing else changes. -/
def Writes (s : State) (i : Instr) (d : BitVec 5) (x n : Word) : Prop :=
  ∃ t, exec i s = .next t ∧ Passed s t (s.st.ws d x) n

/-- Sat(x, INTn), as the nearest of the values that n bits hold. -/
def sat (n : Nat) (x : Int) : BitVec n := BitVec.ofInt n (max (-2 ^ (n - 1)) (min (2 ^ (n - 1) - 1) x))

/-- The header to which a branch of 12 bits goes: PC + 2 × sext(OFF) (R142). -/
def near (s : State) (off : BitVec 12) : Word := s.st.ex.pc + BitVec.ofInt 64 (2 * off.toInt)
/-- The header to which a jump of 22 bits goes. -/
def far (s : State) (off : BitVec 22) : Word := s.st.ex.pc + BitVec.ofInt 64 (2 * off.toInt)
/-- The instruction completes, and control goes to the header at `target`; the registers are those of `a`. -/
def GoesTo (s : State) (i : Instr) (a : Stream) (target : Word) : Prop :=
  ∃ t, exec i s = .next t ∧ Went s t a { pc := target, hdr := target, fin := target, rem := 1 }
/-- A branch completes: to its target when it is taken, else past itself. -/
def Branches (s : State) (i : Instr) (a : Stream) (taken : Prop) (off : BitVec 12) : Prop :=
  (taken → GoesTo s i a (near s off)) ∧ (¬ taken → ∃ t, exec i s = .next t ∧ Passed s t a 4)
/-- The earlier loads and stores of the current stream have left its queues, and no access of it is behind (R64). -/
def Settled (s : State) : Prop := s.st.acc.late = [] ∧ s.st.acc.lq = [] ∧ s.st.sq = []
/-- Nothing of the current stream stands before the join point at its execute cursor: its queues are empty, or the gate of that join point
stands at their heads (R64, R65). -/
def AtJoin (s : State) : Prop := s.st.acc.late = [] ∧ s.st.acc.headFaulted = false ∧ s.st.atHeads = true
/-- No store of the current stream is on a path to its visibility point; the writes of its engine commands are none of its stores (R63,
R74). -/
def Arrived (s : State) : Prop := ∀ p ∈ (s.core s.cur.core).paths, p.cmd = none → ∀ q, p.owner ≠ some (s.cur, q)
/-- The stream with the gate of a join point at which it waits: it stands in both queues (R64). -/
def atGate (st : Stream) : Stream :=
  if st.gated then st else { st with acc := { st.acc with lq := st.acc.lq ++ [.twin st.seq] }, sq := st.sq ++ [.twin st.seq .gate] }
/-- A join point has issued and waits in its place: its gate stands in both queues, and nothing else changes (R64). -/
def Holds (s : State) (i : Instr) : Prop :=
  ∃ t, exec i s = .next t ∧ t.st.status = .waiting ∧ t.st.ex = s.st.ex ∧ SameRegs (atGate s.st) t.st ∧ Beside s t
/-- The GLC of the stream's core has been invalidated, as an acquire does (R69). -/
def acquired (s : State) : State := s.onCore s.cur.core fun k => { k with glc := [] }
/-- A supervisor can take the stream's faults: it runs in U, and its launch has a supervisor region. -/
def CanTrap (s : State) : Prop :=
  s.st.priv = .u ∧ ∃ l r, s.launchOf s.xid = some l ∧ l.svbase = some r
/-- From `s` the current stream has taken the fault `f` of its own (R293): it runs in S at the header at cr.tvec, with an access side of
its own; the return point, its header and the passes left, the cause, and the fault's address, detail and source stand in the trap
registers, and the access side that it had is set aside with its queues, and with it the stores from the first join point in the SQ on; a join
point at which the stream waited is given up. Every write that was pending has landed, every scalar keeps its value, and nothing beside the
stream has changed. -/
structure Entered (s t : State) (f : FaultRec) (epc ehdr : Word) (rem : BitVec 32) : Prop where
  priv : t.st.priv = .s
  runs : t.st.status = .running
  place : t.st.ex = { pc := ofHiBits s.st.trap.tvec, hdr := ofHiBits s.st.trap.tvec, fin := ofHiBits s.st.trap.tvec, rem := 1 }
  epc : t.st.trap.epc = hiBits epc
  ehdr : t.st.trap.ehdr = hiBits ehdr
  rem : t.st.trap.rem = rem
  cause : t.st.trap.cause = causeWord s.cx.asid f false (f.origin.getD (locWord s.cur s.xid.ctx))
  faddr : t.st.trap.faddr = f.faddr
  fdet : t.st.trap.fdet = f.detail
  fsrc : t.st.trap.fsrc = f.src
  tvec : t.st.trap.tvec = s.st.trap.tvec
  scalars : t.st.s = s.st.s
  landed : t.st.pend = []
  aside : ∃ a, t.st.aside = some a ∧ a.qs = s.st.acc.qs ∧ a.lq = s.st.leaveGate.acc.lq ∧ a.done = s.st.acc.done ∧
    (s.st.leaveGate.twinPending = true → a.sqBack = s.st.leaveGate.sq.drop t.st.sq.length)
  fresh : t.st.acc.lq = [] ∧ t.st.acc.qs = Vector.replicate 4 []
  stores : t.st.sq = if s.st.leaveGate.twinPending then s.st.leaveGate.sq.takeWhile fun i => !i.isTwin else s.st.leaveGate.sq
  beside : Beside s t
/-- The instruction raises the fault `n`: its own effects do not happen, and the stream enters the supervisor with the instruction
as the return point (R61, R293). -/
def Raises (s : State) (i : Instr) (n : FaultName) (faddr detail : Word) : Prop :=
  ∃ t, exec i s = .next t ∧
    Entered s t { name := n, faddr := faddr, detail := detail } s.st.ex.retPoint.1 s.st.ex.retPoint.2.1 s.st.ex.retPoint.2.2
/-- The instruction raises `f` after a read that led to `s0`, in which the GLC may have taken lines: the trap is taken from there, to return
to the instruction. -/
def RaisesAt (s s0 : State) (i : Instr) (f : FaultRec) : Prop :=
  ∃ t, exec i s = .next t ∧ Entered s0 t f s.st.ex.retPoint.1 s.st.ex.retPoint.2.1 s.st.ex.retPoint.2.2

/-- The load at the execute cursor has performed: the access cursor stands past it, and its entry waits with destination `d` and data `x`.
With post-increment the access cursor holds the new value `w` of the base; without, it holds none (R162, R165). -/
def Loaded (s : State) (d : LoadDest) (x : Vec) (post : Bool) (base : BitVec 5) (w : Word) : Prop :=
  1 ≤ s.st.acc.lead ∧ (s.st.acc.done.find? fun e => e.seq == s.st.seq) = some ⟨s.st.seq, d, x⟩ ∧
  (s.st.acc.bases.filter fun b => b.1 == s.st.seq) = (if post then [(s.st.seq, base, w)] else [])
/-- The stream without the performed entry of the load at its execute cursor. -/
def taken (st : Stream) : Stream := { st with acc := { st.acc with done := st.acc.done.filter fun e => e.seq != st.seq } }
/-- A vector register may be named: its bank is powered and awake, and the hazard detector of the WG is off (R185, R186). -/
def Usable (s : State) (rs : List (BitVec 6)) : Prop :=
  (∀ r ∈ rs, r.toNat / 16 < s.vbanks) ∧ s.st.ret = 0 ∧ s.cx.hzdEn = false
/-- A vector with the lanes of a register as its own when it lands: the write of `x` at `cyc`, every lane (R185). -/
def landing (st : Stream) (cyc : Nat) (r : Reg) (x : Vec) (m : Pred) : Stream := { st with pend := st.pend ++ [⟨cyc, r, x, m, st.ex.pc⟩] }
/-- The store completes: it enters the SQ with its address, its pieces and their bytes, BASE takes its new value under post-increment,
and no byte of any memory changes (R64, R162, R165). -/
def Stores (s : State) (i : Instr) (va : Word) (ps : List Piece) (bs : List Byte) (nb : Option (BitVec 5 × Word)) (n : Word) : Prop :=
  let entry := SqItem.store s.st.seq va (ps.map fun p => (p, (bs.drop p.at_).take p.len))
  let st := { s.st with sq := s.st.sq ++ [entry] }
  ∃ t, exec i s = .next t ∧ Passed s t (match nb with
    | some (b, w) => st.ws b w
    | none => st) n
/-- The same of an instruction whose record read led to `s0` first. -/
def StoresAt (s s0 : State) (i : Instr) (va : Word) (ps : List Piece) (bs : List Byte) (n : Word) : Prop :=
  let entry := SqItem.store s0.st.seq va (ps.map fun p => (p, (bs.drop p.at_).take p.len))
  ∃ t, exec i s = .next t ∧ Passed s0 t { s0.st with sq := s0.st.sq ++ [entry] } n
/-- The place of a piece in memory: device memory of a device, or its host's memory, from an address on. -/
def inMem (d a : Nat) (host : Bool) : Place := if host then .hostMem d a else .devMem d a
/-- One byte of device or host memory. -/
def byteAt (s : State) (d : Nat) (host : Bool) (a : Nat) : Byte := mget (if host then (s.dev d).hostMem else (s.dev d).mem) a
/-- From s to t the bytes `bs` have been stored at the address, and every other byte of every memory reads as before. -/
def Stored (s t : State) (d a : Nat) (host : Bool) (bs : List Byte) : Prop :=
  (∀ k, (h : k < bs.length) → byteAt t d host (a + k) = bs[k]) ∧
  (∀ d' h' c, (d' = d → h' = host → c < a ∨ a + bs.length ≤ c) → byteAt t d' h' c = byteAt s d' h' c) ∧
  t.ctxs = s.ctxs
/-- What the access cursor finds at a load with base value b: the address that its entry holds, and the pieces or the fault of its translation. A
strided form takes element e at BASE + e × stride, an indexed one at BASE + sext(lane e) × size, its index register being written, in a bank
that is powered and awake; ldv.xw reads an element pair (R162, R169, R170). -/
def Forms (s : State) (id : SlotId) (a : Access) (f : LoadForm) (b va : Word) (r : Res (List Piece)) : Prop :=
  let x := s.xidOf id
  let vb := (s.launchOf x).elim 4 Launch.vbanks
  let t : Xl := ⟨x, (s.ctx x).asid.toNat, (s.strm id).priv, .load, f.path⟩
  let es (g : Nat → Word) : Res (List Piece) := s.xlElems t f.size ((List.range (128 / f.size)).map fun e => (e, b + g e))
  match f.x with
  | some (.strided rg) => ∃ k, (s.strm id).accScalar (s.dev id.core.dev).cycle a rg = some k ∧ va = b ∧ r = es fun e => BitVec.ofNat 64 e * k
  | some (.indexed v) =>
    let p := rotV vb a.rrb v
    p.toNat / 16 < vb ∧ (s.strm id).accVecReady a p = true ∧ (s.strm id).retained [p] = 0 ∧ va = b ∧
      r = es fun e => BitVec.ofInt 64 ((((s.strm id).rv p).extractLsb' (32 * e) 32).toInt * f.size)
  | none =>
    va = (if f.post then b else b + BitVec.ofInt 64 (f.off.toInt * f.size)) ∧ r = if f.xw then s.xlXw x va.toNat else s.xlAccess t va f.len
/-- A store under way, as `State.ownStores` lists it, holds the byte b for the address a of a space. -/
def Holding (s : State) (st : Nat × Loc × List Byte) (sp a : Nat) (b : Byte) : Prop :=
  ∃ k, (sp, k) ∈ s.key st.2.1 ∧ k ≤ a ∧ st.2.2[a - k]? = some b
/-- The byte that stands for byte j of a piece where no store of the stream covers it: that of the core's GLC copy of the line, where the load
may use it, else that at its place, in device memory, host memory or a typed buffer; none for an address past the stacks (R65, R66). -/
def placeByte (s : State) (c : CoreId) (glc : Bool) (p : Piece) (j : Nat) : Option Byte :=
  match s.locate p.loc with
  | .devMem d a =>
    match (if glc && d = c.dev then fget? (s.core c).glc (a / 128) else none) with
    | some v => some (v.extractLsb' (8 * (a % 128 + j)) 8)
    | none => if a + j < 2 ^ 40 then some (mget (s.dev d).mem (a + j)) else none
  | .hostMem d a => some (mget (s.dev d).hostMem (a + j))
  | .bufMem (x :: _) b off => some (mget ((s.ctx x).buf b) (off + j))
  | .bufMem [] _ _ | .nowhere => some 0
  | .retry | .dropped _ _ | .bad _ | .beyond _ _ => none
/-- Byte j of a piece of the load `seq` is b: the youngest earlier store of the stream still under way that covers it gives it, or, none
covering it, its place does (R65). -/
def Source (s : State) (sl : SlotId) (seq : Nat) (glc : Bool) (p : Piece) (j : Nat) (b : Byte) : Prop :=
  let own := s.ownStores sl seq
  match s.key p.loc with
  | [] => placeByte s sl.core glc p j = some b
  | (sp, a) :: _ =>
    (∃ st ∈ own, Holding s st sp (a + j) b ∧ ∀ st' ∈ own, ∀ b', Holding s st' sp (a + j) b' → st'.1 < st.1 ∨ (st'.1 = st.1 ∧ b' = b)) ∨
    ((∀ st ∈ own, ∀ b', ¬ Holding s st sp (a + j) b') ∧ placeByte s sl.core glc p j = some b)
/-- The new value that AMO stores for the old value and sV, both of n bits (R176). -/
def amoNew {n : Nat} (op : AmoOp) (old v : BitVec n) : BitVec n :=
  match op with
  | .add => old + v
  | .and => old &&& v
  | .or => old ||| v
  | .xor => old ^^^ v
  | .smin => if v.toInt < old.toInt then v else old
  | .smax => if old.toInt < v.toInt then v else old
  | .umin => if v.toNat < old.toNat then v else old
  | .umax => if old.toNat < v.toNat then v else old

/-- Element k of a vector with elements of w bits (R183). -/
def elt (w : Nat) (x : Vec) (k : Nat) : BitVec w := x.extractLsb' (w * k) w
/-- The device's cycle at the current stream's core. -/
def now (s : State) : Nat := (s.dev s.cur.core.dev).cycle
/-- The byte lanes `m` are those of the active elements of n bytes: element k is active when bit n·k of the predicate is 1 (R184). -/
def ActiveLanes (n : Nat) (p m : Pred) : Prop := ∀ b < 128, m.getLsbD b = p.getLsbD (b / n * n)
/-- The instruction completes and leaves pending, for `lat` cycles later, a write to vD in the active lanes of elements of n bytes, element k
being f k; each operand queue that it names gives one entry; nothing else changes (R36, R184, R185, R188). -/
def Computes (s : State) (i : Instr) (n : Nat) (pm : BitVec 3) (vd : BitVec 6) (xs : List VSrc) (lat : Nat) (f : Nat → BitVec (8 * n)) : Prop :=
  Usable s (s.vreg vd :: srcRegs xs) → (∀ k ∈ srcQs xs, s.st.qEmpty k = false) →
  ∃ t x m, exec i s = .next t ∧ ActiveLanes n (s.st.rp (s.preg (pmName pm))) m ∧ (∀ k < 128 / n, elt (8 * n) x k = f k) ∧
    Passed s t ((landing s.st (now s + lat) (.v (s.vreg vd)) x m).popQs (srcQs xs)) 4
/-- An unmasked instruction completes and leaves pending, for `lat` cycles later, a write of all lanes of vD, element k of w bits being f k;
its n bytes are passed and nothing else changes (R185). -/
def Moves (s : State) (i : Instr) (w : Nat) (vd : BitVec 6) (srcs : List (BitVec 6)) (lat : Nat) (f : Nat → BitVec w) (n : Word) : Prop :=
  Usable s ((vd :: srcs).map s.vreg) →
  ∃ t x, exec i s = .next t ∧ (∀ k < 1024 / w, elt w x k = f k) ∧
    Passed s t (landing s.st (now s + lat) (.v (s.vreg vd)) x (BitVec.allOnes 128)) n
/-- The instruction completes and leaves pending, for two cycles later, a write of pD, bit b being f b; nothing else changes (R185). -/
def Decides (s : State) (i : Instr) (pd : BitVec 4) (srcs : List (BitVec 6)) (f : Nat → Bool) : Prop :=
  Usable s (srcs.map s.vreg) →
  ∃ t, ∃ p : Pred, exec i s = .next t ∧ (∀ b < 128, p.getLsbD b = f b) ∧
    Passed s t (landing s.st (now s + 2) (.p (s.preg pd)) (p.setWidth 1024) (BitVec.allOnes 128)) 4
/-- A float or an integer result of a type: the value rounded to nearest even, or the pattern. -/
def byTy (ty : VTy) (f : Machine.Num) (i : BitVec (8 * ty.size)) : BitVec (8 * ty.size) :=
  if ty.isFloat then BitVec.ofNat _ (ofTyNum ty f) else i
/-- The value of an element. -/
def num (ty : VTy) (x : BitVec (8 * ty.size)) : Machine.Num := tyNum ty x.toNat
/-- The comparison of FN 0 to 5 (R191). -/
def compares {n : Nat} (cc : CmpOp) (x y : BitVec n) : Bool :=
  match cc with
  | .eq => decide (x = y)
  | .ne => decide (x ≠ y)
  | .lt => decide (x.toInt < y.toInt)
  | .le => decide (x.toInt ≤ y.toInt)
  | .ltu => decide (x.toNat < y.toNat)
  | .leu => decide (x.toNat ≤ y.toNat)
/-- Byte b of a control register. -/
def elt8 {n : Nat} (x : BitVec n) (b : Nat) : Byte := x.extractLsb' (8 * b) 8
/-- The result of a long unit is on its way to the latch: PENDING, and the value x lands after `lat` cycles (R198). -/
def sent (s : State) (l : BitVec 2) (lat : Nat) (x : Vec) : Stream :=
  s.st.wl l { s.st.rl l with st := .pending, due := some (now s + lat, x) }
/-- A long unit takes its operands: unless its latch is PENDING it completes with the latch PENDING, element k of the result being f k for
all that a vector holds and the bytes above being 0; while the latch is PENDING it waits (R196 to R198). -/
def Sends (s : State) (i : Instr) (l : BitVec 2) (srcs : List (BitVec 6)) (lat w cnt : Nat) (f : Nat → BitVec w) : Prop :=
  Usable s (srcs.map s.vreg) →
  ((s.st.rl l).st ≠ .pending → ∃ t, ∃ x : Vec, exec i s = .next t ∧ (∀ k < cnt, elt w x k = f k) ∧ x.toNat < 2 ^ (w * cnt) ∧
    Passed s t (sent s l lat x) 4) ∧
  ((s.st.rl l).st = .pending → ∃ t, exec i s = .next t ∧ t.st.status = .waiting ∧ t.st.ex = s.st.ex ∧ Beside s t)

/-- The instruction waits in its place: the execute cursor stands where it stood, and nothing beside the stream changes. -/
def Waits (s : State) (i : Instr) : Prop :=
  ∃ t, exec i s = .next t ∧ t.st.status = .waiting ∧ t.st.ex = s.st.ex ∧ SameRegs s.st t.st ∧ Beside s t
/-- An action changes no memory and no typed buffer, no stream, no core and no context. -/
def Elsewhere (s t : State) : Prop :=
  SameBytes s t ∧ t.streams = s.streams ∧ t.cores = s.cores ∧ t.ctxs = s.ctxs ∧ t.pod = s.pod ∧ t.chunks = s.chunks
/-- The device's fault log has one more record to write: cause, address and detail of a fault that enters no stream (R295). -/
def LogsFault (s t : State) (d : Nat) (n : FaultName) (faddr detail : Word) : Prop :=
  ∃ r, (t.dev d).logQueue = (s.dev d).logQueue ++ [r] ∧ (r.cause.extractLsb' 28 4).toNat = n.cls ∧
    (r.cause.extractLsb' 20 8).toNat = n.code ∧ r.faddr = faddr ∧ r.fdet = detail ∧ r.time = (s.dev d).time

/-- From `s` the current stream has issued the engine command `c`, which carries the stream, its context and ASID and the level in cr.det
(R94, R204): the command waits to enter its queue, the stream waits at the instruction, every queue and path and every byte of memory is as it
was, and so is every register. The GLC may have taken lines of the records. -/
structure Issued (s t : State) (c : EngCmd) : Prop where
  cmd : t.st.engIssue = some c
  waits : t.st.status = .waiting ∧ t.st.ex = s.st.ex
  regs : SameRegs s.st t.st
  who : c.slot = s.cur ∧ c.x = s.xid ∧ c.asid = s.cx.asid.toNat ∧ c.level = s.cx.det
  devs : t.devs = s.devs
  ctxs : t.ctxs = s.ctxs
  queues : ∀ k, (t.core k).me = (s.core k).me ∧ (t.core k).ce = (s.core k).ce ∧ (t.core k).cs = (s.core k).cs ∧
    (t.core k).paths = (s.core k).paths
/-- The instruction issues a command of a kind to an engine, whose formats are valid, with a property. -/
def Issues (s : State) (i : Instr) (k : CmdKind) (e : Eng) (p : EngCmd → Prop) : Prop :=
  ∃ t c, exec i s = .next t ∧ Issued s t c ∧ c.kind = k ∧ c.eng = e ∧ c.descVa = none ∧ p c
/-- The instruction issues a command that takes an invalid entry of the format table, by the record at va: FMT_DESC is due at its queue entry
(R46). -/
def IssuesInvalid (s : State) (i : Instr) (k : CmdKind) (va : Word) : Prop :=
  ∃ t c, exec i s = .next t ∧ Issued s t c ∧ c.kind = k ∧ c.descVa = some va
/-- The operand record of n bytes at va has been read at issue (R204). -/
def Record (s : State) (va : Word) (n : Nat) (s' : State) (r : BitVec 1024) : Prop := s.readRec .load va n = .ok s' r
/-- The context y takes part in the barrier of the context x at a level: x itself, or the resident WGs of its launch in its quad, its field or on
its device, or of the launches of its pod tag (R21). -/
def TakesPart (s : State) (x : CtxId) (level : BarLevel) (y : CtxId) : Prop :=
  ∃ lid, s.lidOf x = some lid ∧ (match level with
    | .core => y = x
    | .quad => y ∈ s.resident x.core.dev lid ∧ y.core.field = x.core.field ∧ y.core.core / 4 = x.core.core / 4
    | .field => y ∈ s.resident x.core.dev lid ∧ y.core.field = x.core.field
    | .device => y ∈ s.resident x.core.dev lid
    | .pod => ∃ ps p, s.podMates x lid = some ps ∧ p ∈ ps ∧ y ∈ s.resident p.1 p.2)
/-- Above the core level: each launch that the barrier spans has begun, with all its WGs dispatched and none saved. -/
def Whole (s : State) (x : CtxId) (level : BarLevel) : Prop :=
  level = .core ∨ ∃ lid ls, s.lidOf x = some lid ∧ (if level = .pod then s.podMates x lid else some [(x.core.dev, lid)]) = some ls ∧
    ∀ p ∈ ls, ∀ l, s.launch? p.1 p.2 = some l → l.nextWg = l.wgcount ∧ l.batch = [] ∧ l.savedWgs = []

/-- Element (r, c) of a tile slot: its XW value and its status byte, read byte by byte (R53). -/
def xwAt (s : State) (x : CtxId) (ts : BitVec 2) (r c : Nat) : XwElem :=
  (BitVec.ofNat 160 (bytesNat ((List.range 20).map fun k => mget (s.ctx x).cbuf (ts.toNat * 0x80000 + (r * 192 + c) * 20 + k))),
    mget (s.ctx x).cbuf (ts.toNat * 0x80000 + 0x78000 + r * 192 + c))
/-- Byte `a` of CB belongs to row r, columns j to j + n - 1, of a slot: to their values or to their status bytes. -/
def inRow (ts : BitVec 2) (r j n a : Nat) : Prop :=
  (ts.toNat * 0x80000 + (r * 192 + j) * 20 ≤ a ∧ a < ts.toNat * 0x80000 + (r * 192 + j + n) * 20) ∨
  (ts.toNat * 0x80000 + 0x78000 + r * 192 + j ≤ a ∧ a < ts.toNat * 0x80000 + 0x78000 + r * 192 + j + n)
/-- Every byte of memory is as it was but those of CB of context x for which `p` holds; streams and devices are as they were. -/
def OnlyCb (s t : State) (x : CtxId) (p : Nat → Prop) : Prop :=
  t.devs = s.devs ∧ t.streams = s.streams ∧ (∀ y, (t.ctx y).wb = (s.ctx y).wb ∧ (t.ctx y).ab = (s.ctx y).ab) ∧
  (∀ y a, (y = x → ¬ p a) → mget (t.ctx y).cbuf a = mget (s.ctx y).cbuf a)
/-- Bytes on their way from a command's row, as entries of its core's paths (R74). -/
def onWay (h : EngCmd) (row : Nat) (ps : List Piece) (bs : List Byte) : List PathItem :=
  ps.map fun p => { loc := p.loc, bytes := (bs.drop p.at_).take p.len, owner := some (h.slot, 0), x := h.x, cmd := some h.id, row := row }
/-- The row that a command does next (R210). -/
def nextRow (s : State) (h : EngCmd) : Nat :=
  if h.restart then (if (s.ctx h.x).mrowValid then (s.ctx h.x).mrowRow.toNat else 0) else h.row
/-- cr.mrow of the context holds the progress i. -/
def Progress (t : State) (x : CtxId) (i : Nat) : Prop := (t.ctx x).mrowValid = true ∧ (t.ctx x).mrowRow = BitVec.ofNat 8 i

/-- From `s` the current stream has gone past an instruction of the planner, with the registers of `a`: slot i of the context's plan cache holds
`p`, every other slot holds what it held, and no byte of memory, no other stream, device or queue and nothing else of a context has changed. -/
structure Cached (s t : State) (a : Stream) (i : Nat) (p : Option Plan) : Prop where
  regs : SameRegs a t.st
  place : t.st.ex = s.st.ex.adv 4 ∧ t.st.status = .running
  plan : ((t.ctx s.xid).planSlot i).plan = p
  others : ∀ j, j ≠ i → (t.ctx s.xid).planSlot j = (s.ctx s.xid).planSlot j
  ctxs : ∀ x, ∃ ps, t.ctx x = { s.ctx x with plans := ps } ∧ (x ≠ s.xid → t.ctx x = s.ctx x)
  bytes : SameBytes s t
  devs : t.devs = s.devs
  streams : ∀ id, id ≠ s.cur → t.strm id = s.strm id
  queues : ∀ k, (t.core k).me = (s.core k).me ∧ (t.core k).ce = (s.core k).ce ∧ (t.core k).cs = (s.core k).cs ∧
    (t.core k).paths = (s.core k).paths
/-- The current stream as it holds a record that it has read at issue, and the level of that moment (R234, R247). -/
def holding (s0 : State) (bs : List Byte) : State := s0.onSt fun st => { st with held := some bs, heldDet := s0.cx.det }
/-- The instruction waits having read one entry more: it stands behind what the stream holds, and nothing else has changed (R233). -/
def Takes (s : State) (i : Instr) (bs : List Byte) (e : BitVec 512) : Prop :=
  ∃ t, exec i s = .next t ∧ t.st.held = some (bs ++ bvBytes 64 e) ∧ t.st.status = .waiting ∧ t.st.ex = s.st.ex ∧ SameRegs s.st t.st ∧ Beside s t
/-- A plan's slot may be taken for another: the plan is neither pinned nor running (R88). -/
def Evictable (p : Plan) : Prop := p.pinned = false ∧ p.run = none

/-- The stream of a slot is the current one, at its execute cursor. -/
def at_ (s : State) (sl : SlotId) : State := { s with cur := sl, side := .execute }
/-- From `s` the action that the current stream asked for is over: the stream has gone past its instruction with its registers as they were, and
every other stream is as it was. -/
def Answered (s t : State) : Prop :=
  t.st.ex = s.st.ex.adv 4 ∧ t.st.status = .running ∧ t.st.csrReq = .none ∧ SameRegs s.st t.st ∧ t.cur = s.cur ∧
  ∀ id, id ≠ s.cur → t.strm id = s.strm id

/-- From s to t nothing has changed but field f of a device: its other fields, its memory and host memory, every other device, every stream,
every context and every core of another field are as they were. -/
structure OnlyField (s t : State) (dev f : Nat) : Prop where
  others : ∀ g, g % 8 ≠ f % 8 → (t.dev dev).fieldN g = (s.dev dev).fieldN g
  bytes : SameBytes s t
  devs : ∀ e, e ≠ dev → t.dev e = s.dev e
  streams : t.streams = s.streams
  ctxs : t.ctxs = s.ctxs
  cores : ∀ c : CoreId, c.dev ≠ dev ∨ c.field ≠ f → t.core c = s.core c
  launches : (t.dev dev).launches = (s.dev dev).launches
/-- Nothing but registers of one device, its fields included, has changed. -/
structure OnlyRegs (s t : State) (dev : Nat) : Prop where
  bytes : SameBytes s t
  devs : ∀ e, e ≠ dev → t.dev e = s.dev e
  streams : t.streams = s.streams
  ctxs : t.ctxs = s.ctxs
  cores : t.cores = s.cores
  launches : (t.dev dev).launches = (s.dev dev).launches

/-- The current slot `id`, its stream awake and with the writes landed that are due at this cycle (R185, R186). -/
def due (s : State) (id : SlotId) : State :=
  ({ s with cur := id, side := .execute }).onStrm id fun st => st.awake.landDue (s.dev id.core.dev).cycle
/-- The stream of a slot stands at an instruction that it may attempt: it can act, no fault of it is pending, no command or control action is
under way, and its place is neither a header nor the end of a pass. -/
def AtInstr (s : State) (id : SlotId) : Prop :=
  let u := due s id
  s.canAct id = true ∧ (u.st.priv = .s ∨ u.st.pendFaults = []) ∧ u.st.engIssue = none ∧ u.st.csrReq = .none ∧
  u.st.ex.atHdr = false ∧ u.st.ex.atPassEnd = false
/-- The stream of a slot stands at an instruction that may issue now, by itself: its cluster has not issued in this cycle, it is first in the
rotation, it is not passed over after a YIELD, the last tail slot does not go to another's RELC, and no lock step binds it to others (R13, R22,
R159, R161). -/
def MayIssue (s : State) (id : SlotId) : Prop :=
  AtInstr s id ∧ s.turnOf exec id = true ∧ s.losesTail exec id = false ∧ s.together id = [id]
/-- The byte that the instruction cache of the slot's core holds for an address. -/
def codeByte (s : State) (id : SlotId) (a : Nat) : Option Byte :=
  (fget? (s.core id.core).icache ((s.ctx (s.xidOf id)).asid.toNat, a / 128)).map fun v => elt8 v (a % 128)
/-- Nothing holds an instruction of the current stream back: no atomic's result, no interlocked result and no stub (R137, R257, R263). -/
def Unheld (s : State) (i : Instr) : Prop :=
  s.st.amoHold i = false ∧ s.st.interlocked (s.dev s.cdev).cycle i = false ∧ s.stubStops i = false
/-- What a step of the slot `id` from s answers when its instruction i, fetched in s1, is run: what its meaning answers, an issue being
accounted for (R13). -/
def ran (s : State) (id : SlotId) (i : Instr) (s1 : State) : Out :=
  match exec i s1 with
  | .next t => .next (if didIssue s1 t then s.noteShare exec id (noteIssue i s1 t) else t)
  | .fault f => .fault f
  | .refused r => .refused r

end Claims

end Sys2Proof
end

