-- ==== Sys2Proof/Laws/Went.lean ====
section
/-!
SUPPORT. Laws/Went.lean: what the shared operations by which an instruction ends leave unchanged: a statement about an
instruction cites these and unfolds no operation.
-/
namespace Sys2Proof.Machine

theorem SameBytes.rfl' (s : State) : SameBytes s s := ⟨fun _ _ => rfl, fun _ _ => rfl, fun _ _ => rfl, fun _ _ => rfl, fun _ _ => rfl⟩

/-- A state that differs in its current stream alone. -/
theorem Beside.setSt (s : State) (st : Stream) : Beside s (s.setSt st) where
  bytes := ⟨fun _ _ => rfl, fun _ _ => rfl, fun _ _ => rfl, fun _ _ => rfl, fun _ _ => rfl⟩
  devs := rfl
  ctxs := rfl
  cores := rfl
  pod := rfl
  homes := rfl
  toHome := rfl
  deliveries := rfl
  chunks := rfl
  cur := rfl
  agenda := rfl
  streams := fun _ h => State.strm_setSt_ne s st h

theorem Beside.trans {s t u : State} (h : Beside s t) (k : Beside t u) : Beside s u where
  bytes := ⟨fun d a => (k.bytes.mem d a).trans (h.bytes.mem d a), fun d a => (k.bytes.host d a).trans (h.bytes.host d a),
    fun x a => (k.bytes.wb x a).trans (h.bytes.wb x a), fun x a => (k.bytes.ab x a).trans (h.bytes.ab x a),
    fun x a => (k.bytes.cbuf x a).trans (h.bytes.cbuf x a)⟩
  devs := k.devs.trans h.devs
  ctxs := k.ctxs.trans h.ctxs
  cores := k.cores.trans h.cores
  pod := k.pod.trans h.pod
  homes := k.homes.trans h.homes
  toHome := k.toHome.trans h.toHome
  deliveries := k.deliveries.trans h.deliveries
  chunks := k.chunks.trans h.chunks
  cur := k.cur.trans h.cur
  agenda := k.agenda.trans h.agenda
  streams := fun id hn => (k.streams id (h.cur ▸ hn)).trans (h.streams id hn)

theorem Beside.onSt (s : State) (f : Stream → Stream) : Beside s (s.onSt f) := Beside.setSt s _

theorem SameRegs.rfl' (a : Stream) : SameRegs a a := by constructor <;> rfl

/-- Going on to a place changes no register. -/
theorem SameRegs.goTo (a : Stream) (c : Cursor) : SameRegs a { a.goTo c with status := .running, wait := .none } := by
  unfold Stream.goTo
  by_cases h : (decide (a.acc.lead ≤ 1) && a.acc.leadBlk == 0) = true <;> (simp only [h]; constructor <;> rfl)

/-- Going past an instruction: `f` says what the instruction does to the stream, its place apart. -/
theorem went_adv (s : State) (f : Stream → Stream) (n : Word) (h : (f s.st).ex = s.st.ex) : Passed s ((s.onSt f).adv n) (f s.st) n where
  regs := by simpa [State.adv, Stream.advance] using SameRegs.goTo (f s.st) _
  place := by simp [State.adv, Stream.advance, Stream.goTo, h]
  runs := by simp [State.adv]
  beside := (Beside.onSt s f).trans (Beside.onSt _ _)

/-- Going past an instruction that changes no register. -/
theorem went_adv' (s : State) (n : Word) : Passed s (s.adv n) s.st n where
  regs := by simpa [State.adv, Stream.advance] using SameRegs.goTo s.st _
  place := by simp [State.adv, Stream.advance, Stream.goTo]
  runs := by simp [State.adv]
  beside := Beside.onSt s _

/-- A jump of a stream that `f` has changed. -/
theorem went_jump (s : State) (f : Stream → Stream) (c : Cursor) :
    Went s ((s.onSt f).onSt fun st => { st.goTo c with status := .running, wait := .none }) (f s.st) c where
  regs := by simpa using SameRegs.goTo (f s.st) c
  place := by simp [Stream.goTo]
  runs := by simp
  beside := (Beside.onSt s f).trans (Beside.onSt _ _)

theorem went_jump' (s : State) (c : Cursor) : Went s (s.onSt fun st => { st.goTo c with status := .running, wait := .none }) s.st c where
  regs := by simpa using SameRegs.goTo s.st c
  place := by simp [Stream.goTo]
  runs := by simp
  beside := Beside.onSt s _

@[simp] theorem Stream.ws_ex (st : Stream) (d : BitVec 5) (x : Word) : (st.ws d x).ex = st.ex := by
  unfold Stream.ws; split <;> rfl

/-- Writing a scalar and going past the word (R137). -/
theorem went_put (s : State) (d : BitVec 5) (x n : Word) : ∃ t, s.put d x n = .next t ∧ Passed s t (s.st.ws d x) n :=
  ⟨_, rfl, went_adv s (fun st => st.ws d x) n (by simp)⟩

/-! ### Taking an exception (R293) -/

/-- Landing writes changes vector and predicate registers alone. -/
theorem Stream.land1_form (st : Stream) (w : PendWrite) : ∃ v p, st.land1 w = { st with v := v, p := p } := by
  unfold Stream.land1
  split
  · exact ⟨_, st.p, rfl⟩
  · split
    · exact ⟨st.v, st.p, rfl⟩
    · exact ⟨st.v, _, rfl⟩
  all_goals exact ⟨st.v, st.p, rfl⟩

theorem Stream.land_list (ws : List PendWrite) (st : Stream) : ∃ v p, ws.foldl Stream.land1 st = { st with v := v, p := p } := by
  induction ws generalizing st with
  | nil => exact ⟨st.v, st.p, rfl⟩
  | cons w r ih =>
    obtain ⟨v, p, h⟩ := st.land1_form w
    obtain ⟨v', p', h'⟩ := ih (st.land1 w)
    exact ⟨v', p', by rw [List.foldl_cons, h', h]⟩

theorem Stream.landAll_form (st : Stream) : ∃ v p, st.landAll = { st with v := v, p := p, pend := [] } := by
  obtain ⟨v, p, h⟩ := Stream.land_list (st.pend.foldl (fun l w => insertByLand w l) []) st
  exact ⟨v, p, by rw [Stream.landAll, h]⟩

/-- Giving up a gate changes the SQ and the access side alone, whatever the vectors and predicates are. -/
theorem Stream.leaveGate_form (st : Stream) (v : Vector Vec 64) (p : Vector Pred 16) (w : List PendWrite) :
    ({ st with v := v, p := p, pend := w } : Stream).leaveGate =
      { st with v := v, p := p, pend := w, sq := st.leaveGate.sq, acc := st.leaveGate.acc } := by
  unfold Stream.leaveGate Stream.ungate
  by_cases h : st.gated = true
  · rw [if_pos h, if_pos h, if_pos (show ({ st with v := v, p := p, pend := w } : Stream).gated = true from h),
      if_pos (show ({ st with v := v, p := p, pend := w } : Stream).gated = true from h)]
  · rw [if_neg h, if_neg (show ¬({ st with v := v, p := p, pend := w } : Stream).gated = true from h)]

theorem Stream.leaveGate_keeps (st : Stream) : st.leaveGate.acc.qs = st.acc.qs ∧ st.leaveGate.acc.done = st.acc.done := by
  unfold Stream.leaveGate Stream.ungate
  split
  · simp only [*]; exact ⟨rfl, rfl⟩
  · exact ⟨rfl, rfl⟩

/-- Setting the access side aside (R24, R173). -/
theorem Stream.setAside_form (st : Stream) (c : Cursor) (ret : Word × Word × BitVec 32) :
    ∃ a m, st.setAside c ret =
      { st with aside := some a, acc := { cur := c, lcs := st.lc, rrb := st.rrb }, amoPend := m
                sq := if st.leaveGate.twinPending then st.leaveGate.sq.takeWhile fun i => !i.isTwin else st.leaveGate.sq } ∧
      a.qs = st.acc.qs ∧ a.lq = st.leaveGate.acc.lq ∧ a.done = st.acc.done ∧
      (st.leaveGate.twinPending = true → a.sqBack = st.leaveGate.sq.drop (st.leaveGate.sq.takeWhile fun i => !i.isTwin).length) := by
  obtain ⟨hq, hd⟩ := st.leaveGate_keeps
  obtain ⟨q, b, hu⟩ : ∃ q b, st.leaveGate = { st with sq := q, acc := b } := ⟨_, _, st.leaveGate_form st.v st.p st.pend⟩
  unfold Stream.setAside Stream.stow
  rw [hu] at hq hd ⊢
  by_cases h : ({ st with sq := q, acc := b } : Stream).twinPending = true
  · simp only [h, if_true]
    exact ⟨_, _, rfl, hq, rfl, hd, fun _ => rfl⟩
  · simp only [h]
    exact ⟨_, _, rfl, hq, rfl, hd, fun x => absurd x (by simp)⟩

open Claims

/-- Taking an exception in U: what `deliver` does to a stream whose launch has a supervisor region (R293). -/
theorem deliver_enters (s : State) (f : FaultRec) (ret : Word × Word × BitVec 32) (h : CanTrap s) (hl : f.name.logOnly = false) :
    Entered s (s.deliver s.cur f ret) f ret.1 ret.2.1 ret.2.2 := by
  obtain ⟨hu, l, r, h1, h2⟩ := h
  have hv : (s.launchOf (s.xidOf s.cur)).bind Launch.svbase = some r := by
    rw [show s.launchOf (s.xidOf s.cur) = some l from h1]; exact h2
  have hu' : (s.strm s.cur).priv = .u := hu
  have e : s.deliver s.cur f ret = s.setStrm s.cur (s.st.trapEnter (causeWord s.cx.asid f false (f.origin.getD (locWord s.cur s.xid.ctx))) f ret) := by
    unfold State.deliver
    simp only [hl, hu', hv]
    rfl
  have e2 : (s.deliver s.cur f ret).st = s.st.trapEnter (causeWord s.cx.asid f false (f.origin.getD (locWord s.cur s.xid.ctx))) f ret := by
    rw [e]; exact State.strm_setStrm s s.cur _
  obtain ⟨v, p, hl'⟩ := s.st.landAll_form
  obtain ⟨a, m, hs, h3, h4, h5, h6⟩ := s.st.landAll.setAside_form (Cursor.atHeader (ofHiBits s.st.landAll.trap.tvec)) ret
  have hg : s.st.landAll.leaveGate = { s.st with v := v, p := p, pend := [], sq := s.st.leaveGate.sq, acc := s.st.leaveGate.acc } := by
    rw [hl', Stream.leaveGate_form]
  have ht : s.st.landAll.leaveGate.twinPending = s.st.leaveGate.twinPending := by rw [hg]; rfl
  rw [ht, hg] at hs h6
  rw [hg] at h4
  rw [hl'] at hs h3 h5
  unfold Stream.trapEnter at e2
  rw [hl'] at e2
  simp only [hs] at e2
  rw [e] at e2 ⊢
  constructor
  case beside => exact Beside.setSt s _
  case aside => rw [e2]; exact ⟨a, rfl, h3, h4, h5, fun x => by rw [h6 x]; simp only [x, if_true]⟩
  case fresh => rw [e2]; exact ⟨rfl, rfl⟩
  all_goals (rw [e2]; try rfl)

/-- Raising a fault of one's own takes the exception (R61, R293). -/
theorem raise_enters (s : State) (n : FaultName) (fa de : Word) (h : CanTrap s) (hl : n.logOnly = false) :
    ∃ t, s.raise n fa de = .next t ∧
      Entered s t { name := n, faddr := fa, detail := de } s.st.ex.retPoint.1 s.st.ex.retPoint.2.1 s.st.ex.retPoint.2.2 :=
  ⟨_, rfl, deliver_enters s _ _ h hl⟩

theorem raiseRec_enters (s : State) (f : FaultRec) (h : CanTrap s) (hl : f.name.logOnly = false) :
    ∃ t, s.raiseRec f = .next t ∧ Entered s t f s.st.ex.retPoint.1 s.st.ex.retPoint.2.1 s.st.ex.retPoint.2.2 :=
  ⟨_, rfl, deliver_enters s _ _ h hl⟩

/-- An instruction that raises a fault of its own. -/
theorem raises_of {s : State} {i : Instr} {n : FaultName} {fa de : Word} (e : exec i s = s.raise n fa de) (h : CanTrap s)
    (hl : n.logOnly = false) : Raises s i n fa de := by
  obtain ⟨t, ht, hn⟩ := raise_enters s n fa de h hl
  exact ⟨t, e.trans ht, hn⟩

/-! ### Branches (R143) -/

theorem two_sx {n : Nat} (o : BitVec n) : (2 * sx o : Word) = BitVec.ofInt 64 (2 * o.toInt) := by
  have h : sx o = BitVec.ofInt 64 o.toInt := rfl
  apply BitVec.eq_of_toInt_eq
  rw [h, BitVec.toInt_mul, BitVec.toInt_ofInt, BitVec.toInt_ofInt]
  simp [Int.bmod_def]
  omega

theorem near_eq (s : State) (off : BitVec 12) : near s off = wbTarget s.st.ex.pc off := congrArg _ (two_sx off).symm

/-- What `branch` does after `f` has changed the stream. -/
theorem branch_branches {s : State} {i : Instr} {f : Stream → Stream} {c : Bool} {p : Prop} {off : BitVec 12}
    (h : exec i s = (s.onSt f).branch c off) (hx : (f s.st).ex = s.st.ex) (e : c = true ↔ p) : Branches s i (f s.st) p off := by
  constructor
  · intro hp
    refine ⟨_, h.trans (by rw [State.branch, if_pos (e.2 hp)]; rfl), ?_⟩
    rw [near_eq, show s.st.ex.pc = (s.onSt f).st.ex.pc by rw [State.st_onSt, hx]]
    exact went_jump s f (Cursor.atHeader (wbTarget (s.onSt f).st.ex.pc off))
  · intro hp
    exact ⟨_, h.trans (by rw [State.branch, if_neg (fun x => hp (e.1 x))]), went_adv s f 4 hx⟩

theorem branch_branches' {s : State} {i : Instr} {c : Bool} {p : Prop} {off : BitVec 12}
    (h : exec i s = s.branch c off) (e : c = true ↔ p) : Branches s i s.st p off := by
  constructor
  · intro hp
    refine ⟨_, h.trans (by rw [State.branch, if_pos (e.2 hp)]; rfl), ?_⟩
    rw [near_eq]
    exact went_jump' s (Cursor.atHeader (wbTarget s.st.ex.pc off))
  · intro hp
    exact ⟨_, h.trans (by rw [State.branch, if_neg (fun x => hp (e.1 x))]), went_adv' s 4⟩

end Sys2Proof.Machine
end

