-- ==== Sys2Proof/Certificates/Slice0/Obligations.lean ====
section
/-!
DEFINITION. Certificates/Slice0/Obligations.lean: the statements for the provers. Each docstring says which rules of the spec it
formalises. `Passed s t a n` (Safety.lean): from `s` the current stream has gone past an instruction of n bytes and runs, its
registers are those of `a`, and nothing beside it has changed, no byte of any memory among it.
-/
open Sys2Proof Sys2Proof.Machine Sys2Proof.Claims

/-! ### Registers and places -/

/-- The scalar a stream writes reads back, every other scalar keeps its value, s0 reads as zero before and after, and a write to s0
changes nothing at all (R6, R137). Past an instruction of n bytes the cursor stands n bytes on, in the same block and pass; past the last
instruction of the last pass it stands at the header after the block, which it has not entered; past the last instruction of an earlier
pass it stands at the block's end, where the next pass begins at the address after the header (R119). -/
def Obligations.ScalarWritesAndPlaces : Prop :=
  (∀ (st : Stream) (d r : BitVec 5) (x : Word),
    st.rs 0 = 0 ∧ (st.ws d x).rs 0 = 0 ∧ st.ws 0 x = st ∧
    (d ≠ 0 → (st.ws d x).rs d = x) ∧ (r ≠ d → (st.ws d x).rs r = st.rs r) ∧
    (st.ws d x).v = st.v ∧ (st.ws d x).p = st.p ∧ (st.ws d x).ex = st.ex) ∧
  ∀ (c : Cursor) (n : Word),
    (c.pc + n ≠ c.fin → c.adv n = { c with pc := c.pc + n }) ∧
    (c.pc + n = c.fin → c.rem.toNat ≤ 1 → (c.adv n).pc = c.fin ∧ (c.adv n).hdr = c.fin ∧ (c.adv n).atHdr = true) ∧
    (c.pc + n = c.fin → 1 < c.rem.toNat → c.adv n = { c with pc := c.fin }) ∧
    ∀ st : Stream, st.beginPass.ex = { st.ex with pc := st.ex.hdr + 4, rem := st.ex.rem - 1 }

/-! ### Scalar arithmetic -/

/-- For all states, registers and sources, add, sub, and, or, xor, andn, sll, srl, sra, adds and subs complete with the D that R138
gives, in the 64-bit form and, where R138 has it, in the .i32 form, whose 32-bit result is sign-extended (R137). So do mul, mulh, mulhu, div,
divu, rem and remu with the D that R139 gives: the quotient is truncated toward zero, a division by zero gives all ones or A and is no fault,
and the most negative value divided by -1 gives itself and the remainder 0. None of them changes anything else. -/
def Obligations.ArithmeticResults : Prop :=
  ∀ (s : State) (d a b : BitVec 5),
    let x := s.rs a
    let y := s.rs b
    let x32 : BitVec 32 := x.setWidth 32
    let y32 : BitVec 32 := y.setWidth 32
    Writes s (.add false d a b) d (x + y) 4 ∧ Writes s (.add true d a b) d ((x32 + y32).signExtend 64) 4 ∧
    Writes s (.sub false d a b) d (x - y) 4 ∧ Writes s (.sub true d a b) d ((x32 - y32).signExtend 64) 4 ∧
    Writes s (.and d a b) d (x &&& y) 4 ∧ Writes s (.or d a b) d (x ||| y) 4 ∧ Writes s (.xor d a b) d (x ^^^ y) 4 ∧
    Writes s (.andn d a b) d (x &&& ~~~y) 4 ∧
    Writes s (.sll false d a b) d (x <<< (y.toNat % 64)) 4 ∧
    Writes s (.sll true d a b) d ((x32 <<< (y.toNat % 32)).signExtend 64) 4 ∧
    Writes s (.srl false d a b) d (x >>> (y.toNat % 64)) 4 ∧
    Writes s (.srl true d a b) d ((x32 >>> (y.toNat % 32)).signExtend 64) 4 ∧
    Writes s (.sra false d a b) d (x.sshiftRight (y.toNat % 64)) 4 ∧
    Writes s (.sra true d a b) d ((x32.sshiftRight (y.toNat % 32)).signExtend 64) 4 ∧
    Writes s (.adds false d a b) d (sat 64 (x.toInt + y.toInt)) 4 ∧
    Writes s (.adds true d a b) d ((sat 32 (x32.toInt + y32.toInt)).signExtend 64) 4 ∧
    Writes s (.subs false d a b) d (sat 64 (x.toInt - y.toInt)) 4 ∧
    Writes s (.subs true d a b) d ((sat 32 (x32.toInt - y32.toInt)).signExtend 64) 4 ∧
    Writes s (.mul false d a b) d (BitVec.ofInt 64 (x.toInt * y.toInt)) 4 ∧
    Writes s (.mul true d a b) d ((BitVec.ofInt 32 (x32.toInt * y32.toInt)).signExtend 64) 4 ∧
    Writes s (.mulh d a b) d (BitVec.ofInt 64 (Int.fdiv (x.toInt * y.toInt) (2 ^ 64))) 4 ∧
    Writes s (.mulhu d a b) d (BitVec.ofNat 64 (x.toNat * y.toNat / 2 ^ 64)) 4 ∧
    Writes s (.div false d a b) d (if y = 0 then BitVec.allOnes 64 else BitVec.ofInt 64 (x.toInt.tdiv y.toInt)) 4 ∧
    Writes s (.div true d a b) d ((if y32 = 0 then BitVec.allOnes 32 else BitVec.ofInt 32 (x32.toInt.tdiv y32.toInt)).signExtend 64) 4 ∧
    Writes s (.divu false d a b) d (if y = 0 then BitVec.allOnes 64 else BitVec.ofNat 64 (x.toNat / y.toNat)) 4 ∧
    Writes s (.divu true d a b) d ((if y32 = 0 then BitVec.allOnes 32 else BitVec.ofNat 32 (x32.toNat / y32.toNat)).signExtend 64) 4 ∧
    Writes s (.rem false d a b) d (if y = 0 then x else BitVec.ofInt 64 (x.toInt.tmod y.toInt)) 4 ∧
    Writes s (.rem true d a b) d ((if y32 = 0 then x32 else BitVec.ofInt 32 (x32.toInt.tmod y32.toInt)).signExtend 64) 4 ∧
    Writes s (.remu false d a b) d (if y = 0 then x else BitVec.ofNat 64 (x.toNat % y.toNat)) 4 ∧
    Writes s (.remu true d a b) d ((if y32 = 0 then x32 else BitVec.ofNat 32 (x32.toNat % y32.toNat)).signExtend 64) 4

/-- addi, andi, ori, xori, slli, srli, srai, addi.i32, lui and apc complete for all operands with the D that R140 gives; apc takes the
address of its own first parcel, where the execute cursor stands. The compact add, sub, and, mv, addi, li, slli and srai, two bytes long,
complete with the effect of the word instruction that R126 names for each. -/
def Obligations.ImmediateAndCompactResults : Prop :=
  ∀ (s : State) (d a b : BitVec 5) (imm : BitVec 12) (i7 : BitVec 7) (sh : BitVec 6) (im : BitVec 19),
    let x := s.rs a
    let k : Word := BitVec.ofInt 64 imm.toInt
    let m : Word := BitVec.ofInt 64 (im.toInt * 2 ^ 12)
    Writes s (.addi d a imm) d (x + k) 4 ∧ Writes s (.andi d a imm) d (x &&& k) 4 ∧
    Writes s (.ori d a imm) d (x ||| k) 4 ∧ Writes s (.xori d a imm) d (x ^^^ k) 4 ∧
    Writes s (.slli d a sh) d (x <<< sh.toNat) 4 ∧ Writes s (.srli d a sh) d (x >>> sh.toNat) 4 ∧
    Writes s (.srai d a sh) d (x.sshiftRight sh.toNat) 4 ∧
    Writes s (.addiI32 d a imm) d (((x + k).setWidth 32).signExtend 64) 4 ∧
    Writes s (.lui d im) d m 4 ∧ Writes s (.apc d im) d (s.st.ex.pc + m) 4 ∧
    (let y := s.rs d
      let j : Word := BitVec.ofInt 64 i7.toInt;
      Writes s (.addCompact d b) d (y + s.rs b) 2 ∧ Writes s (.subCompact d b) d (y - s.rs b) 2 ∧
      Writes s (.andCompact d b) d (y &&& s.rs b) 2 ∧ Writes s (.mvCompact d b) d (s.rs b) 2 ∧
      Writes s (.addiCompact d i7) d (y + j) 2 ∧ Writes s (.liCompact d i7) d j 2 ∧
      Writes s (.slliCompact d sh) d (y <<< sh.toNat) 2 ∧ Writes s (.sraiCompact d sh) d (y.sshiftRight sh.toNat) 2)

/-- clz, ctz, cpop, min, max, minu, maxu, sextb, sexth, sextw, zextw, slt, sltu, seq, sne and csel complete for all operands with the D
that R141 gives. clz and ctz are said by the bits: the count of zeros ends at a bit that is 1, or is 64 when A = 0. -/
def Obligations.BitsAndCompareResults : Prop :=
  ∀ (s : State) (d c a b : BitVec 5),
    let x := s.rs a
    let y := s.rs b
    (∃ n : Nat, Writes s (.clz d a) d (BitVec.ofNat 64 n) 4 ∧ (x = 0 → n = 64) ∧
      (x ≠ 0 → n < 64 ∧ x.getLsbD (63 - n) = true ∧ ∀ k < n, x.getLsbD (63 - k) = false)) ∧
    (∃ n : Nat, Writes s (.ctz d a) d (BitVec.ofNat 64 n) 4 ∧ (x = 0 → n = 64) ∧
      (x ≠ 0 → n < 64 ∧ x.getLsbD n = true ∧ ∀ k < n, x.getLsbD k = false)) ∧
    Writes s (.cpop d a) d (BitVec.ofNat 64 ((List.range 64).countP fun k => x.getLsbD k)) 4 ∧
    Writes s (.min d a b) d (if x.toInt ≤ y.toInt then x else y) 4 ∧
    Writes s (.max d a b) d (if x.toInt ≤ y.toInt then y else x) 4 ∧
    Writes s (.minu d a b) d (if x.toNat ≤ y.toNat then x else y) 4 ∧
    Writes s (.maxu d a b) d (if x.toNat ≤ y.toNat then y else x) 4 ∧
    Writes s (.sextb d a) d ((x.setWidth 8).signExtend 64) 4 ∧ Writes s (.sexth d a) d ((x.setWidth 16).signExtend 64) 4 ∧
    Writes s (.sextw d a) d ((x.setWidth 32).signExtend 64) 4 ∧ Writes s (.zextw d a) d (BitVec.ofNat 64 (x.toNat % 2 ^ 32)) 4 ∧
    Writes s (.slt d a b) d (if x.toInt < y.toInt then 1 else 0) 4 ∧
    Writes s (.sltu d a b) d (if x.toNat < y.toNat then 1 else 0) 4 ∧
    Writes s (.seq d a b) d (if x = y then 1 else 0) 4 ∧ Writes s (.sne d a b) d (if x = y then 0 else 1) 4 ∧
    Writes s (.csel d c a b) d (if s.rs c = 0 then y else x) 4

/-! ### Branches, jumps, calls and loops -/

/-- beq, bne, blt, bge, bltu, bgeu and jmp complete for all operands: taken, control goes to the header at PC + 2 × sext(OFF); not taken,
past the instruction; no register changes (R142 to R144). loopb completes for every counter: one that is not 0 counts down by one, RRB goes
to (RRB - 1) mod 32, and the branch is taken when the counter is then not 0. loopi completes for 0 ≤ sB < 2^32: the counter takes sB, and the
branch is taken when it is 0; any other sB raises LC_RANGE and changes nothing (R146). -/
def Obligations.BranchesAndJumps : Prop :=
  ∀ (s : State) (a b : BitVec 5) (lc : BitVec 2) (off : BitVec 12) (o : BitVec 22),
    let v := (s.st.rlc lc).toNat
    Branches s (.loopb lc off)
      { s.st with lc := s.st.lc.set lc.toNat (BitVec.ofNat 32 (v - 1)) lc.isLt, rrb := BitVec.ofNat 5 (s.st.rrb.toNat + 31) }
      (2 ≤ v) off ∧
    ((s.rs b).toNat < 2 ^ 32 →
      Branches s (.loopi lc b off) { s.st with lc := s.st.lc.set lc.toNat (BitVec.ofNat 32 (s.rs b).toNat) lc.isLt } (s.rs b = 0) off) ∧
    (2 ^ 32 ≤ (s.rs b).toNat → CanTrap s → Raises s (.loopi lc b off) .lcRange 0 0) ∧
    Branches s (.beq a b off) s.st (s.rs a = s.rs b) off ∧ Branches s (.bne a b off) s.st (s.rs a ≠ s.rs b) off ∧
    Branches s (.blt a b off) s.st ((s.rs a).toInt < (s.rs b).toInt) off ∧
    Branches s (.bge a b off) s.st ((s.rs b).toInt ≤ (s.rs a).toInt) off ∧
    Branches s (.bltu a b off) s.st ((s.rs a).toNat < (s.rs b).toNat) off ∧
    Branches s (.bgeu a b off) s.st ((s.rs b).toNat ≤ (s.rs a).toNat) off ∧
    GoesTo s (.jmp o) s.st (far s o)

/-- With fewer than 16 entries in hardware, call and, on an even target, callr push the address of the header after their block with
DEFER = 0, count one entry more, and go to their targets; every entry below keeps its value. With 16 entries they raise RAS_OVF with
the depth and push nothing. jr goes to an even target; jr and callr raise BR_ALIGN on an odd one. ret, with an entry that is not
deferred and no live tail of its level or above, goes to the entry's address and counts one entry less; with a deferred one it then, the stream's
stores having taken effect, takes s1 to s8, s16 to s30 and v0 to v7 from the hand-back area of the DEFER entry of its level, and removes that
entry (without such an entry it is a plain return: log 55). With no entry it raises RAS_UND where entries are spilled, and else RAS_EMPTY in a
main stream. In a tail such a ret, like every halt, ends the tail once no live tail of its own is left: TCNT goes down by one in the indivisible
step, the slot is free, and the spawner's LIVE entry is gone (R142, R144, R147, R148, R153, R157). -/
def Obligations.CallsAndReturns : Prop :=
  (∀ (st : Stream) (bs : List Byte) (k : Nat),
    let u := st.takeHandBack bs
    let word (off : Nat) : Word := bytesBv 64 ((bs.drop off).take 8)
    (k < 8 → u.rs (BitVec.ofNat 5 (k + 1)) = word (8 * k)) ∧ (k < 15 → u.rs (BitVec.ofNat 5 (k + 16)) = word (0x40 + 8 * k)) ∧
    (k < 8 → u.rv (BitVec.ofNat 6 k) = bytesBv 1024 ((bs.drop (0xC0 + 128 * k)).take 128)) ∧
    (9 ≤ k → k < 16 → u.rs (BitVec.ofNat 5 k) = st.rs (BitVec.ofNat 5 k)) ∧ u.rs 31 = st.rs 31 ∧
    (8 ≤ k → k < 64 → u.rv (BitVec.ofNat 6 k) = st.rv (BitVec.ofNat 6 k)) ∧ u.p = st.p ∧ u.l = st.l ∧ u.lc = st.lc) ∧
  ∀ (s : State) (a : BitVec 5) (off : BitVec 12) (o : BitVec 22),
    let r := s.rs a + BitVec.ofInt 64 (2 * off.toInt)
    let n := s.st.rasCount.toNat
    let d := s.st.rasSpill.toNat + n
    let e := s.st.getRas (n - 1)
    let back := ofHiBits e.raddr
    let pushed (i : Instr) (target : Word) : Prop :=
      ∃ st, GoesTo s i st target ∧ st.rasCount.toNat = n + 1 ∧ st.getRas n = { raddr := hiBits s.st.ex.fin, defer := false } ∧
        (∀ k, k ≠ n → st.getRas k = s.st.getRas k) ∧ SameRegs { s.st with ras := st.ras, rasCount := st.rasCount } st
    let ends (i : Instr) : Prop :=
      (s.st.spawner = none → ∃ t, exec i s = .next t ∧ (t.strm s.cur).status = .free) ∧
      ∀ sp fb s1 old, s.st.spawner = some (sp, fb) → sp ≠ s.cur.sl → s.addTcnt fb (-1) = .ok s1 old →
        ∃ t, exec i s = .next t ∧ (t.strm s.cur).status = .free ∧
          (t.strm { s.cur with sl := sp }).tails = (s1.strm { s.cur with sl := sp }).tails.filter (fun x => match x with
            | .live _ _ _ sl => sl != s.cur.sl
            | .defer _ _ => true) ∧
          SameBytes s1 t
    (n < 16 → pushed (.call o) (far s o)) ∧
    (n < 16 → r.getLsbD 0 = false → pushed (.callr a off) r) ∧
    (n = 16 → CanTrap s → Raises s (.call o) .rasOvf 0 (BitVec.ofNat 64 d)) ∧
    (n = 16 → r.getLsbD 0 = false → CanTrap s → Raises s (.callr a off) .rasOvf 0 (BitVec.ofNat 64 d)) ∧
    (r.getLsbD 0 = false → GoesTo s (.jr a off) s.st r) ∧
    (r.getLsbD 0 = true → CanTrap s → Raises s (.jr a off) .brAlign 0 0 ∧ Raises s (.callr a off) .brAlign 0 0) ∧
    (0 < n → n ≤ 16 → s.st.liveAbove d = false → e.defer = false → GoesTo s .ret { s.st with rasCount := s.st.rasCount - 1 } back) ∧
    (0 < n → n ≤ 16 → s.st.liveAbove d = false → e.defer = true → AtJoin s → Arrived s →
      (s.st.deferAt (d - 1) = none → GoesTo s .ret { s.st.ungate with rasCount := s.st.rasCount - 1 } back) ∧
      ∀ fb s1 bs, s.st.deferAt (d - 1) = some fb → s.recRead .load (fb + 0x40) 1216 = .ok s1 bs →
        ∃ t, exec .ret s = .next t ∧ Went s1 t
          { (s1.st.landAll.takeHandBack bs).ungate with
            tails := s1.st.tails.filter (· != TailEntry.defer fb (d - 1)), rasCount := s1.st.rasCount - 1 }
          { pc := back, hdr := back, fin := back, rem := 1 }) ∧
    (n = 0 → s.st.rasSpill ≠ 0 → CanTrap s → Raises s .ret .rasUnd 0 (BitVec.ofNat 64 d)) ∧
    (n = 0 → s.st.rasSpill = 0 → s.cur.sl < 2 → CanTrap s → Raises s .ret .rasEmpty 0 0) ∧
    (2 ≤ s.cur.sl → s.st.liveAbove 0 = false → AtJoin s → Arrived s → ends .halt ∧ (n = 0 → s.st.rasSpill = 0 → ends .ret))

/-! ### Condition-sync bits, fork, join, tails -/

/-- Where a stream's earlier loads and stores have performed, whether it had to wait for them or not, cset sets and cset.clr clears every bit of its mask in the WG's eight bits
and goes on; cwait goes on, having acquired, when every bit of its mask is 1, and waits in its place when one is 0; join of a main
stream sets its cluster's bit, once, and, every bit of its mask then being 1, acquires and jumps, and else waits in its place with the bit set: it
waits on without another set until every bit of its mask is 1, and then acquires and jumps; tjoin, with no live tail, acquires. fork of
a main stream clears its cluster's bit and jumps, and is no join point: it completes whatever is under way; in a tail fork and join raise
FORK_TAIL. A bit that a set has reached in this cycle stays 1 when a clear reaches it (R72, R154 to R156). -/
def Obligations.ConditionSyncBits : Prop :=
  ∀ (s : State) (m : BitVec 8) (m4 : BitVec 4) (off : BitVec 12),
    let bits (f : BitVec 8 → BitVec 8) : State := s.onCtx s.xid fun c => { c with cb := f c.cb }
    let mine := BitVec.twoPow 8 (s.cur.cl % 4)
    let noted (m : BitVec 8) : State := s.onCore s.cur.core fun k => k.turn (.cb s.xid.ctx) (s.cbSet s.xid ||| m).toNat
    let sets (m : BitVec 8) : State := (noted m).onCtx s.xid fun c => { c with cb := c.cb ||| m }
    let clears (m : BitVec 8) : State := bits (· &&& ~~~(m &&& ~~~s.cbSet s.xid))
    let set := sets mine
    let m8 : BitVec 8 := m4.setWidth 8
    let goes (i : Instr) (u : State) : Prop := ∃ t, exec i s = .next t ∧ Passed u t s.st.ungate 4
    let jumps (i : Instr) (u : State) (a : Stream) : Prop :=
      ∃ t, exec i s = .next t ∧ Went u t a { pc := near s off, hdr := near s off, fin := near s off, rem := 1 }
    (AtJoin s → Arrived s → goes (.cset m) (sets m) ∧ goes (.csetClr m) (clears m)) ∧
    (AtJoin s → s.cx.cb &&& m = m → goes (.cwait m) (acquired s)) ∧
    (AtJoin s → s.cx.cb &&& m ≠ m → Holds s (.cwait m)) ∧
    (s.cur.sl < 2 → jumps (.fork off) (clears mine) s.st) ∧
    (s.cur.sl < 2 → s.st.wait = .join → (s.cx.cb &&& m8 = m8 → jumps (.join m4 off) (acquired s) s.st.ungate) ∧
      (s.cx.cb &&& m8 ≠ m8 → Holds s (.join m4 off))) ∧
    (s.cur.sl < 2 → AtJoin s → Arrived s → s.st.wait ≠ .join → set.cx.cb &&& m8 = m8 → jumps (.join m4 off) (acquired set) s.st.ungate) ∧
    (s.cur.sl < 2 → AtJoin s → Arrived s → s.st.wait ≠ .join → set.cx.cb &&& m8 ≠ m8 →
      ∃ t, exec (.join m4 off) s = .next t ∧ t.st.status = .waiting ∧ t.st.wait = .join ∧ t.st.ex = s.st.ex ∧ SameRegs (atGate s.st) t.st ∧
        t.cx.cb = s.cx.cb ||| mine ∧ Beside set t) ∧
    (2 ≤ s.cur.sl → CanTrap s → Raises s (.fork off) .forkTail 0 0 ∧ Raises s (.join m4 off) .forkTail 0 0) ∧
    (AtJoin s → s.st.liveAbove 0 = false → goes .tjoin (acquired s))

/-! ### Ending, time and issue -/

/-- halt of a main stream completes whatever is under way: the slot is halted, past the instruction, what a trap had set aside of its queues stands in
them again (log 7), and nothing else changes. waitt goes on
when (cr.time - sA) mod 2^64 < 2^63 and else waits in its place; WAITT_EXPIRY lets the waiting stream go on when its time has come.
yield goes on; rdtime writes cr.time of the device (R115, R157, R159). -/
def Obligations.EndingAndTime : Prop :=
  ∀ (s : State) (d a : BitVec 5),
    let now := (s.dev s.cur.core.dev).time
    (s.cur.sl < 2 → ∃ t, exec .halt s = .next t ∧ t.st.status = .halted ∧ t.st.ex = s.st.ex.adv 4 ∧ SameRegs s.st.regain t.st ∧ Beside s t) ∧
    ((now - s.rs a).toNat < 2 ^ 63 → ∃ t, exec (.waitt a) s = .next t ∧ Passed s t s.st 4) ∧
    (2 ^ 63 ≤ (now - s.rs a).toNat →
      ∃ t, exec (.waitt a) s = .next t ∧ t.st.status = .waiting ∧ t.st.wait = .waitt (s.rs a) ∧ t.st.ex = s.st.ex ∧ Beside s t) ∧
    (∀ w, s.st.status = .waiting → s.st.wait = .waitt w → (now - w).toNat < 2 ^ 63 →
      ∃ t, exec (.waittExpiry s.cur) s = .next t ∧ Passed s t s.st 4) ∧
    (∃ t, exec .yield s = .next t ∧ Passed s t s.st 4) ∧
    Writes s (.rdtime d) d now 4

/-! ### Taking an exception and returning from one -/

/-- A fault of the current stream in U, its launch having a supervisor region, enters the supervisor: S, cr.tvec as a block header, the
return point and its header and passes left, the cause and the fault's words saved, the access side set aside, the pending writes landed,
and nothing beside the stream changed; eret in U raises PRIV so. trap enters with cause TRAP and its code as the detail, to return to the place
after itself: the next instruction with its block's passes left, the next pass, or the header after the block (R61, R158, R293); in S it is PRIV,
which writes a record with NESTED and kills the launch (R295). eret in S, the handler's loads and stores gone from its queues, sets U and goes to
cr.epc, whatever it is: at cr.ehdr it stands at that header as at a new entry; elsewhere it stands inside that header's block with the passes left
that the trap saved and the header's NOPRE. A header that cannot be fetched faults after the return. A revived stream halts again; the operand queues set aside are back,
and the stores behind them (R294). The cause word holds the ASID in bits 45 to 32, the class in 31 to 28, the
code in 27 to 20, RESTART in 19, WG in 18, ENG in 17, NESTED in 16 and the stream's place in 14 to 0 (R291). -/
def Obligations.SupervisorEntryAndReturn : Prop :=
  (∀ (asid : BitVec 14) (f : FaultRec) (nested : Bool) (loc : Nat), loc < 2 ^ 15 →
    let c := causeWord asid f nested loc
    c.extractLsb' 32 14 = asid ∧ (c.extractLsb' 28 4).toNat = f.name.cls ∧ (c.extractLsb' 20 8).toNat = f.name.code ∧
    c.getLsbD 19 = f.name.restartable ∧ c.getLsbD 18 = f.wg ∧ c.getLsbD 17 = f.eng ∧ c.getLsbD 16 = nested ∧
    (c.extractLsb' 0 15).toNat = loc ∧ c.extractLsb' 46 18 = 0) ∧
  (∀ (s : State) (code : BitVec 10), CanTrap s →
    let c := s.st.ex.adv 4
    (∀ f : FaultRec, f.name.logOnly = false → ∃ t, s.raiseRec f = .next t ∧
      Entered s t f s.st.ex.retPoint.1 s.st.ex.retPoint.2.1 s.st.ex.retPoint.2.2) ∧
    Raises s .eret .priv 0 0 ∧
    ∃ t, exec (.trap code) s = .next t ∧
      Entered s t { name := .trapOp, detail := code.setWidth 64 } c.retPoint.1 c.retPoint.2.1 c.retPoint.2.2) ∧
  (∀ (s : State) (code : BitVec 10) (lid : Nat) (l : Launch), s.st.priv = .s → s.lidOf s.xid = some lid → s.launch? s.cur.core.dev lid = some l →
    l.done = false → ∃ t k, exec (.trap code) s = .next t ∧ (t.launch? s.cur.core.dev lid).map Launch.done = some true ∧
      (t.dev s.cur.core.dev).logQueue = (s.dev s.cur.core.dev).logQueue ++
        [⟨causeWord s.cx.asid { name := .priv } true (locWord s.cur s.xid.ctx), s.st.ex.retPoint.1, 0, 0, 0, (s.dev s.cur.core.dev).time⟩, k]) ∧
  ∀ s : State, s.st.priv = .s → Settled s →
    let epc := ofHiBits s.st.trap.epc
    let hdr := ofHiBits s.st.trap.ehdr
    let back (s1 t : State) (fin : Word) (np : Bool) : Prop :=
      t.st.priv = .u ∧ t.st.aside = none ∧ t.st.status = (if s.st.revived then .halted else .running) ∧ t.st.s = s.st.s ∧ t.devs = s1.devs ∧
      t.st.ex = (if s.st.trap.epc = s.st.trap.ehdr then { pc := epc, hdr := epc, fin := epc, rem := 1 }
        else { pc := epc, hdr := hdr, fin := fin, rem := s.st.trap.rem, nopre := np }) ∧
      ∀ a, s.st.aside = some a → t.st.acc.qs = a.qs ∧ t.st.sq = a.sqBack
    (s.st.trap.epc = s.st.trap.ehdr → ∃ t, exec .eret s = .next t ∧ back s t hdr false) ∧
    (s.st.trap.epc ≠ s.st.trap.ehdr →
      (∀ s1 h, s.fetchWord s.cur hdr.toNat = .ok s1 h → ∃ t, exec .eret s = .next t ∧ back s1 t (hdrEnd hdr h) (h.getLsbD 27)) ∧
      ∀ f, s.fetchWord s.cur hdr.toNat = .bad f →
        ∃ u, back s u (hdr + 4) false ∧ exec .eret s = .next (u.deliver s.cur f (epc, hdr, s.st.trap.rem)))

/-! ### Loads and stores -/

/-- Where the entry of the load at the execute cursor has performed, ld writes its 2^sz bytes sign-extended, ld.u zero-extended and the
compact ld.d its 8 bytes; under post-increment BASE takes its new value; the entry is gone, and nothing else changes, no byte of memory
among it (R126, R162, R165, R167). pref completes and changes nothing (R172). -/
def Obligations.ScalarLoadResults : Prop :=
  ∀ (s : State) (sz : BitVec 2) (post : Bool) (off : BitVec 7) (base d : BitVec 5) (bs : BitVec 2) (o5 : BitVec 5) (x : Vec) (w : Word),
    let n := 8 * 2 ^ sz.toNat
    let lo : BitVec n := x.setWidth n
    let goes (i : Instr) (v : Word) (p : Bool) (len : Word) : Prop :=
      ∃ t, exec i s = .next t ∧ Passed s t (taken (if p then (s.st.ws d v).ws base w else s.st.ws d v)) len
    (∀ p ∈ s.st.pend, p.reg ≠ .s d) →
    (Loaded s (.scalar d (2 ^ sz.toNat) true) x post base w → goes (.ld sz post off base d) (lo.signExtend 64) post 4) ∧
    (Loaded s (.scalar d (2 ^ sz.toNat) false) x post base w → goes (.ldUnsigned sz post off base d) (lo.setWidth 64) post 4) ∧
    (Loaded s (.scalar d 8 true) x false base w → goes (.ldDCompact d bs o5) (x.setWidth 64) false 2) ∧
    (∃ t, exec (.pref off base) s = .next t ∧ Passed s t s.st 4)

/-- Where the entry of the load at the execute cursor has performed and the destination's bank is powered and awake, ldv, ldv.xw and the
strided and indexed ldv leave a write of all lanes that lands one cycle later; ldq, the access cursor having performed it, goes on. Under
post-increment BASE takes its new value. Nothing else changes (R165, R168 to R171, R185). -/
def Obligations.VectorLoadResults : Prop :=
  ∀ (s : State) (sz : BitVec 3) (post dbl : Bool) (off : BitVec 7) (base : BitVec 5) (v : BitVec 6) (q : BitVec 2) (si : StrideIdx) (x : Vec)
    (w : Word),
    let r := s.vreg v
    let cyc := (s.dev s.cur.core.dev).cycle + 1
    let st (p : Bool) : Stream := if p then s.st.ws base w else s.st
    let goes (i : Instr) (p : Bool) : Prop := ∃ t, exec i s = .next t ∧ Passed s t (landing (taken (st p)) cyc (.v r) x (BitVec.allOnes 128)) 4
    (Loaded s (.vector r) x post base w → Usable s [r] → goes (.ldv sz post off base v) post ∧ goes (.ldvXw post off base v) post) ∧
    (Loaded s (.vector r) x false base w → Usable s [r] → goes (.ldvSI dbl si base v) false) ∧
    (1 ≤ s.st.acc.lead → (s.st.acc.bases.filter fun b => b.1 == s.st.seq) = (if post then [(s.st.seq, base, w)] else []) →
      ∃ t, exec (.ldq post off base q) s = .next t ∧ Passed s t (st post) 4)

/-- The access cursor at a load of any form, ld, ld.u, ldv, ldv.xw, strided or indexed ldv or ldq, with its base and its stride or index known,
room for the load and no rotation outstanding, enters into the LQ a load with the pieces of its translation: at BASE + sext(OFF) × size, or at BASE
under post-increment; a strided or an indexed one at each element's address. A translation fault is kept until the execute cursor
waits for the load, and no entry is made; other streams and all of memory stay as they are. A load whose base, stride or index is not yet
known changes nothing. The XW-pair read of elements 2k and 2k + 1 of a CB half of the local window reads 40 bytes and the 2 status bytes
(R23, R24, R29, R162 to R165, R168 to R171). -/
def Obligations.AccessCursorEntersLoads : Prop :=
  (∀ (s : State) (x : CtxId) (h k : Nat), h < 3 → 40 * k + 40 ≤ 0x78000 → h * 0x80000 + 0x78000 + 2 * k + 2 ≤ shareSize (s.exclOf x) .cb →
    s.xlXw x (0x1F * 2 ^ 52 + 0x800000 + h * 0x80000 + 40 * k) =
      .ok [⟨.buf x .cb (h * 0x80000 + 40 * k), 40, 0⟩, ⟨.buf x .cb (h * 0x80000 + 0x78000 + 2 * k), 2, 40⟩]) ∧
  ∀ (s : State) (id : SlotId) (a : Access) (f : LoadForm) (i : Instr) (n : Nat),
    let vb := (s.launchOf (s.xidOf id)).elim 4 Launch.vbanks
    let seq := (s.strm id).seq + a.lead
    let cyc := (s.dev id.core.dev).cycle
    let known (r : BitVec 5) : Option Word := (s.strm id).accScalar cyc a r
    a.clean .rrb = true → loadForm (rotV vb a.rrb) i = some f → (∀ d, f.dest = .vector d → d.toNat / 16 < vb) → a.room f.dest = true →
    (known f.base = none → s.accInstr id a i n = s) ∧
    ∀ b, known f.base = some b →
      (∀ r, f.x = some (.strided r) → known r = none → s.accInstr id a i n = s) ∧
      (∀ v, f.x = some (.indexed v) → (rotV vb a.rrb v).toNat / 16 < vb → (s.strm id).accVecReady a (rotV vb a.rrb v) = false →
        s.accInstr id a i n = s) ∧
      ∀ va r, Forms s id a f b va r →
        (∀ ps, r = .ok ps →
          ((s.accInstr id a i n).strm id).acc.lq = a.lq ++ [.load seq f.dest true va ps []] ∧
          ((s.accInstr id a i n).strm id).acc.bases = a.bases ++
            (if f.post then [(seq, f.base, b + BitVec.ofInt 64 (f.off.toInt * f.size))] else [])) ∧
        (∀ e, r = .bad e →
          ((s.accInstr id a i n).strm id).acc.lq = a.lq ∧ ((s.accInstr id a i n).strm id).acc.fault = some (seq, e)) ∧
        (s.accInstr id a i n).devs = s.devs ∧ (s.accInstr id a i n).ctxs = s.ctxs ∧
        ∀ id', id' ≠ id → (s.accInstr id a i n).strm id' = s.strm id'

/-- Where its access translates and meets no live frame, a store completes: st the low 2^sz bytes of sT, the compact st.d the 8 bytes of sD, stv
the low 2^sz bytes of vT, and strided and indexed stv an element of vT at each element's address. The entry of the SQ holds the address
BASE + sext(OFF) × size, or BASE under post-increment, and the bytes; no byte of any memory changes yet (R126, R162 to R170). -/
def Obligations.StoresEnterTheSq : Prop :=
  ∀ (s : State) (sz : BitVec 2) (vz : BitVec 3) (post dbl : Bool) (off : BitVec 7) (base d : BitVec 5) (v : BitVec 6) (bs : BitVec 2)
    (o5 : BitVec 5) (si : StrideIdx) (ps : List Piece),
    let xl (p : PathKind) : Xl := ⟨s.xid, s.cx.asid.toNat, s.st.priv, .store, p⟩
    let ea (size : Nat) : Word := if post then s.rs base else s.rs base + BitVec.ofInt 64 (off.toInt * size)
    let nb (size : Nat) : Option (BitVec 5 × Word) := if post then some (base, s.rs base + BitVec.ofInt 64 (off.toInt * size)) else none
    let clear (va : Word) (n : Nat) : Prop := s.st.liveFrame va.toNat n = none
    let bytes {m : Nat} (n : Nat) (x : BitVec m) : List Byte := (List.range n).map fun k => x.extractLsb' (8 * k) 8
    let r := s.vreg v
    let esz := if dbl then 8 else 4
    let eas : List (Nat × Word) := match si with
      | .strided k => (List.range (128 / esz)).map fun e => (e, s.rs base + BitVec.ofNat 64 e * s.rs k)
      | .indexed k => (List.range (128 / esz)).map fun e =>
          (e, s.rs base + BitVec.ofInt 64 (((s.st.rv (s.vreg k)).extractLsb' (32 * e) 32).toInt * esz))
    let idx : List (BitVec 6) := match si with
      | .strided _ => []
      | .indexed k => [s.vreg k]
    let n := 2 ^ sz.toNat
    let vn := 2 ^ vz.toNat
    (s.xlAccess (xl .scalar) (ea n) n = .ok ps → clear (ea n) n →
      Stores s (.st sz post off base d) (ea n) ps (bytes n (s.rs d)) (nb n) 4) ∧
    (let va : Word := s.rs (([28, 29, 30, 2] : List (BitVec 5))[bs.toNat]!) + BitVec.ofNat 64 (8 * o5.toNat); s.xlAccess (xl .scalar) va 8 = .ok ps → clear va 8 → Stores s (.stDCompact d bs o5) va ps (bytes 8 (s.rs d)) none 2) ∧
    (Usable s [r] → s.xlAccess (xl .vecStore) (ea vn) vn = .ok ps → clear (ea vn) vn →
      Stores s (.stv vz post off base v) (ea vn) ps (bytes vn (s.st.rv r)) (nb vn) 4) ∧
    (Usable s (r :: idx) → s.xlElems (xl .scalar) esz eas = .ok ps → (∀ e ∈ eas, clear e.2 esz) →
      Stores s (.stvSI dbl si base v) (s.rs base + (match si with
        | .strided _ => 0
        | .indexed k => BitVec.ofInt 64 (((s.st.rv (s.vreg k)).extractLsb' 0 32).toInt * esz))) ps (bytes 128 (s.st.rv r)) none 4)

/-- PERFORM_LQ of a piece of the load at the head of the LQ, any of its pieces, nothing stopping the read: the piece's bytes are read in
one step, and the two pieces of an XW-pair read together; a piece lies in one line. A byte is that of the youngest earlier store of the stream still under way that covers
it, else that of the core's GLC copy of the line, else that of its place, in device memory, host memory or a typed buffer. With its last piece the
load leaves the LQ: it waits for the execute cursor or stands in its operand queue, with the bytes read at their places in it
and 0 elsewhere; before that it stays, with what it has read. No byte of any memory changes (R65, R66, R71, R168 to R171). -/
def Obligations.LoadReadsMemory : Prop :=
  ∀ (s : State) (sl : SlotId) (seq : Nat) (dest : LoadDest) (glc : Bool) (va : Word) (ps : List Piece) (got : List (Nat × Byte)) (r : List LqItem)
    (k : Nat) (p : Piece) (g : Piece → Nat → Byte),
    let now := if p.isXw then ps else [p]
    let new := got ++ now.flatMap fun q => (List.range q.len).map fun j => (q.at_ + j, g q j)
    (s.strm sl).status ≠ .saved → (s.core sl.core).fenced = false → (s.strm sl).acc.fault = none →
    (s.strm sl).acc.lq = .load seq dest glc va ps got :: r → ps[k]? = some p → p.performed got = false → s.readStop now = none →
    (∀ q ∈ now, q.isXw = p.isXw) → (∀ q ∈ now, ∀ d a, s.locate q.loc = .devMem d a → a % 128 + q.len ≤ 128) →
    (∀ q ∈ now, ∀ j < q.len, Source s sl seq (glc && glcAble q.loc) q j (g q j)) →
    ∃ t, exec (.performLq sl k) s = .next t ∧ t.devs = s.devs ∧ t.ctxs = s.ctxs ∧ (∀ c, (t.core c).paths = (s.core c).paths) ∧
      (∀ id, id ≠ sl → t.strm id = s.strm id) ∧
      let a := (t.strm sl).acc
      ((∃ q ∈ ps, q.len ≠ 0 ∧ ∀ y ∈ new, y.1 ≠ q.at_) →
        a.lq = .load seq dest glc va ps new :: r ∧ a.done = (s.strm sl).acc.done ∧ a.qs = (s.strm sl).acc.qs) ∧
      ((∀ q ∈ ps, q.len ≠ 0 → ∃ y ∈ new, y.1 = q.at_) → a.lq = r ∧ ∃ x : Vec,
        ((new.map Prod.fst).Nodup → ∀ i < 128, x.extractLsb' (8 * i) 8 = ((new.find? fun y => y.1 == i).map Prod.snd).getD 0) ∧
        (match dest with
          | .queue q => a.qs = (s.strm sl).acc.qs.set q.toNat ((s.strm sl).acc.qs[q.toNat] ++ [x]) ∧ a.done = (s.strm sl).acc.done
          | _ => a.done = (s.strm sl).acc.done ++ [⟨seq, dest, x⟩] ∧ a.qs = (s.strm sl).acc.qs))

/-- PERFORM_SQ: the store at the head of the SQ, no earlier load of the stream overlapping it, leaves the queue for its path, and no byte of
any memory changes; one issued in a handler that meets an entry set aside by its trap joins those instead (log 7). PERFORM_PATH: an entry whose place lies in device or host memory, no earlier entry meeting its granule, stores its
bytes from its address on; every other byte of every memory reads as before, and every register of every stream keeps its value. An entry
whose place lies in a buffer waits while a write of a higher rank has reached its granule in this cycle, and else stores its bytes in each target
(R32, R63, R65, R66, R75). -/
def Obligations.StoreTakesEffect : Prop :=
  ∀ (s : State), s.Canon →
    (∀ (sl : SlotId) (seq : Nat) (va : Word) (ps : List (Piece × List Byte)) (r : List SqItem),
      (s.core sl.core).fenced = false → (s.strm sl).sq = .store seq va ps :: r →
      (∀ a, (s.strm sl).aside = some a → a.seq0 ≤ seq → (∃ q va' qs, SqItem.store q va' qs ∈ a.sqBack ∧
          s.sqMeets (.store seq va ps) (.store q va' qs) = true) →
        ∃ t, exec (.performSq sl) s = .next t ∧ (t.strm sl).sq = r ∧
          (t.strm sl).aside = some { a with sqBack := a.sqBack ++ [.store seq va ps] } ∧ t.cores = s.cores ∧ t.devs = s.devs ∧ t.ctxs = s.ctxs) ∧
      (s.sqBehind (.store seq va ps) (s.strm sl).aside = false → s.sqBehind (.store seq va ps) (s.strm sl).divAcc = false →
        s.loadBlocks sl seq ps = false →
      ∃ t, exec (.performSq sl) s = .next t ∧ (t.strm sl).sq = r ∧ SameRegs { s.strm sl with sq := r } (t.strm sl) ∧
        (t.core sl.core).paths = (s.core sl.core).paths ++
          (ps.map fun p => { loc := p.1.loc, bytes := p.2, owner := some (sl, seq), x := s.xidOf sl, cmd := none }) ∧
        t.devs = s.devs ∧ t.ctxs = s.ctxs)) ∧
    (∀ (c : CoreId) (k : Nat) (it : PathItem) (d a : Nat) (host : Bool), (host = false → a + it.bytes.length ≤ 2 ^ 40) →
      (s.core c).paths[k]? = some it → s.pathBlocked c k it = false → s.locate it.loc = inMem d a host →
      ∃ t, exec (.performPath c k) s = .next t ∧ Stored s t d a host it.bytes ∧ (t.core c).paths = (s.core c).paths.eraseIdx k ∧
        t.streams = s.streams) ∧
    (∀ (c : CoreId) (k : Nat) (it : PathItem) (xs : List CtxId) (b : Buf) (off : Nat),
      (s.core c).paths[k]? = some it → s.pathBlocked c k it = false → s.locate it.loc = .bufMem xs b off →
      let higher (x : CtxId) : Prop := ∃ q, fget? (s.core x.core).turns (.granule x.ctx b (off / 16)) = some q ∧ s.writeRank c x.core it < q
      ((∃ x ∈ xs, higher x) → exec (.performPath c k) s = .next s) ∧
      ((∀ x ∈ xs, ¬ higher x) → ∃ t, exec (.performPath c k) s = .next t ∧ (t.core c).paths = (s.core c).paths.eraseIdx k ∧
        t.devs = s.devs ∧ t.streams = s.streams ∧
        ∀ x, ∀ b' j, mget ((t.ctx x).buf b') j = if x ∈ xs ∧ b' = b ∧ off ≤ j ∧ j < off + it.bytes.length then it.bytes[j - off]?.getD 0
          else mget ((s.ctx x).buf b') j))

/-! ### Join points and atomics -/

/-- Where no access of the stream is behind, mark and fence complete, one entry of each standing in the LQ and in the SQ; amo, cas and swap do
so too when their address is aligned and translates and meets no live frame, and D then waits for its value unless it is s0. A misaligned
one raises ALIGN with its address. Nothing else changes, no byte of memory among it (R64, R67, R175 to R178). -/
def Obligations.JoinPointsEnterBothQueues : Prop :=
  ∀ (s : State) (k : FenceKind) (sc : Scope) (op : AmoOp) (dbl : Bool) (o : Ord) (d v base : BitVec 5) (loc : Loc),
    let n := if dbl then 8 else 4
    let twin (j : JoinOp) (st : Stream) : Stream :=
      { st with acc := { st.acc with lq := st.acc.lq ++ [.twin s.st.seq] }, sq := st.sq ++ [.twin s.st.seq j] }
    let goes (i : Instr) (a : Stream) : Prop := ∃ t, exec i s = .next t ∧ Passed s t a 4
    let atom (i : Instr) (p : Option AmoOp) (c : Bool) : Prop :=
      goes i (twin (.amo p c dbl o sc d (s.rs v) (s.rs d) (s.rs base) loc)
        (if d = 0 then s.st else { s.st with amoPend := s.st.amoPend ++ [d] }))
    (s.st.acc.late = [] → goes .mark (twin .mark s.st) ∧ goes (.fence k sc) (twin (.fence k sc) s.st)) ∧
    (s.st.acc.late = [] → (s.rs base).toNat % n = 0 → s.xlAtomic s.cur (s.rs base) n = .ok loc → s.frameRace (s.rs base) n = none →
      atom (.amo op dbl o sc d v base) (some op) false ∧ atom (.cas dbl o sc d v base) none true ∧
      atom (.swap dbl o sc d v base) none false) ∧
    ((s.rs base).toNat % n ≠ 0 → CanTrap s → Raises s (.amo op dbl o sc d v base) .align (s.rs base) 0 ∧
      Raises s (.cas dbl o sc d v base) .align (s.rs base) 0 ∧ Raises s (.swap dbl o sc d v base) .align (s.rs base) 0)

/-- PERFORM_JOIN with the twins of an amo, cas or swap at the heads of both queues, relaxed or with its release satisfied, no store of the
stream to its granule under way and its place in memory: the bytes of the place take the new value (amo: the operation of the old value
and sV; swap: sV; cas: sV when the old value is sD, else they stay), D takes the old value, sign-extended for .w, both twins leave, and
every other byte of every memory reads as before. A mark's twins leave; a fence's leave once its release is satisfied (R65 to R70,
R176, R177). -/
def Obligations.AtomicsAreIndivisible : Prop :=
  ∀ (s : State) (sl : SlotId) (seq : Nat) (rl : List LqItem) (rs : List SqItem) (j : JoinOp),
    s.Canon → (s.core sl.core).fenced = false → (s.strm sl).acc.lq = .twin seq :: rl → (s.strm sl).sq = .twin seq j :: rs →
    let left (t : State) : Prop := (t.strm sl).acc.lq = rl ∧ (t.strm sl).sq = rs
    (j = .mark → ∃ t, exec (.performJoin sl) s = .next t ∧ left t ∧ t.devs = s.devs ∧ t.ctxs = s.ctxs ∧ t.cores = s.cores) ∧
    (∀ k sc, j = .fence k sc → (kindRel k = true → s.releaseHold sl sc = false) →
      ∃ t, exec (.performJoin sl) s = .next t ∧ left t ∧ t.devs = s.devs ∧ t.ctxs = s.ctxs ∧
        (kindAcq k = true → sc ≠ .cluster → (t.core sl.core).glc = [])) ∧
    (∀ (op : Option AmoOp) (cas dbl : Bool) (o : Ord) (sc : Scope) (d : BitVec 5) (v cmp va : Word) (loc : Loc) (dv a : Nat) (host : Bool),
      j = .amo op cas dbl o sc d v cmp va loc → (ordRel o = true → s.releaseHold sl sc = false) → s.ownGranule sl seq loc = false →
      s.locate loc = inMem dv a host →
      let n := if dbl then 8 else 4
      (host = false → a + n ≤ 2 ^ 40) →
      let old : BitVec (8 * n) := BitVec.ofNat (8 * n) (bytesNat ((List.range n).map fun k => byteAt s dv host (a + k)))
      let new : BitVec (8 * n) := match op with
        | some p => amoNew p old (v.setWidth (8 * n))
        | none => if cas && old != cmp.setWidth (8 * n) then old else v.setWidth (8 * n)
      ∃ t, exec (.performJoin sl) s = .next t ∧ left t ∧ Stored s t dv a host ((List.range n).map fun k => new.extractLsb' (8 * k) 8) ∧
        (t.strm sl).s = ((s.strm sl).ws d (if dbl then old.setWidth 64 else old.signExtend 64)).s)

/-! ### Vectors and predicates -/

/-- vadd, vsub, vmul, vfma, vmin, vmax, and for integer types vsll, vsrl and vsra complete for every type, mask and source, a register or an
operand queue with an entry, with the element that R188 and R189 give; vD is written in the active lanes 2 cycles later, vmul's 3 and
vfma's 4; each queue named gives one entry; nothing else changes (R36, R184, R185, R257). -/
def Obligations.VectorArithmetic : Prop :=
  ∀ (s : State) (ty : VTy) (pm : BitVec 3) (q : Bool) (vd vx vy : BitVec 6),
    let xs := [s.vsrc q vx, s.vsrc q vy]
    let x k := elt (8 * ty.size) (s.st.vval (s.vsrc q vx)) k
    let y k := elt (8 * ty.size) (s.st.vval (s.vsrc q vy)) k
    let d k := elt (8 * ty.size) (s.st.rv (s.vreg vd)) k
    let makes (i : Instr) (lat : Nat) (f : Nat → BitVec (8 * ty.size)) : Prop := Computes s i ty.size pm vd xs lat f
    makes (.vadd ty pm q vd vx vy) 2 (fun k => byTy ty (numAdd (num ty (x k)) (num ty (y k))) (x k + y k)) ∧
    makes (.vsub ty pm q vd vx vy) 2 (fun k => byTy ty (numAdd (num ty (x k)) (numNeg (num ty (y k)))) (x k - y k)) ∧
    makes (.vmul ty pm q vd vx vy) 3 (fun k => byTy ty (numMul (num ty (x k)) (num ty (y k))) (x k * y k)) ∧
    makes (.vfma ty pm q vd vx vy) 4
      (fun k => byTy ty (numAdd (numMul (num ty (x k)) (num ty (y k))) (num ty (d k))) (x k * y k + d k)) ∧
    makes (.vmin ty pm q vd vx vy) 2
      (fun k => byTy ty (numMin (num ty (x k)) (num ty (y k))) (if (x k).toInt ≤ (y k).toInt then x k else y k)) ∧
    makes (.vmax ty pm q vd vx vy) 2
      (fun k => byTy ty (numMax (num ty (x k)) (num ty (y k))) (if (x k).toInt ≤ (y k).toInt then y k else x k)) ∧
    (ty.isFloat = false →
      makes (.vsll ty pm q vd vx vy) 2 (fun k => x k <<< (y k).toNat) ∧ makes (.vsrl ty pm q vd vx vy) 2 (fun k => x k >>> (y k).toNat) ∧
      makes (.vsra ty pm q vd vx vy) 2 (fun k => (x k).sshiftRight (y k).toNat))

/-- vand, vor, vxor, vandn and vnot complete with each active byte as R190 has it, vnot not reading vY; vcmp sets all bits of each element of pD
to the comparison of R191, signed, unsigned or of floats; vsel takes bytes of vX where the predicate is 1 and of vY elsewhere. Each lands
2 cycles later, and nothing else changes. -/
def Obligations.VectorLogicAndCompare : Prop :=
  ∀ (s : State) (ty : VTy) (cc : CmpOp) (pm : BitVec 3) (pd : BitVec 4) (q : Bool) (vd vx vy : BitVec 6),
    let xs := [s.vsrc q vx, s.vsrc q vy]
    let x k := elt 8 (s.st.vval (s.vsrc q vx)) k
    let y k := elt 8 (s.st.vval (s.vsrc q vy)) k
    let n := ty.size
    let a k := elt (8 * n) (s.st.rv (s.vreg vx)) k
    let b k := elt (8 * n) (s.st.rv (s.vreg vy)) k
    Computes s (.vand pm q vd vx vy) 1 pm vd xs 2 (fun k => x k &&& y k) ∧
    Computes s (.vor pm q vd vx vy) 1 pm vd xs 2 (fun k => x k ||| y k) ∧
    Computes s (.vxor pm q vd vx vy) 1 pm vd xs 2 (fun k => x k ^^^ y k) ∧
    Computes s (.vandn pm q vd vx vy) 1 pm vd xs 2 (fun k => x k &&& ~~~y k) ∧
    Computes s (.vnot pm q vd vx) 1 pm vd [s.vsrc q vx] 2 (fun k => ~~~x k) ∧
    (ty.isFloat = false → Decides s (.vcmp cc ty pd vx vy) pd [vx, vy] fun i => compares cc (a (i / n)) (b (i / n))) ∧
    (ty.isFloat = true → Decides s (.vcmp .eq ty pd vx vy) pd [vx, vy] (fun i => numEq (num ty (a (i / n))) (num ty (b (i / n)))) ∧
      Decides s (.vcmp .ne ty pd vx vy) pd [vx, vy] (fun i => !numEq (num ty (a (i / n))) (num ty (b (i / n)))) ∧
      Decides s (.vcmp .lt ty pd vx vy) pd [vx, vy] (fun i => numLt (num ty (a (i / n))) (num ty (b (i / n)))) ∧
      Decides s (.vcmp .le ty pd vx vy) pd [vx, vy]
        (fun i => numLt (num ty (a (i / n))) (num ty (b (i / n))) || numEq (num ty (a (i / n))) (num ty (b (i / n))))) ∧
    Moves s (.vsel pm vd vx vy) 8 vd [vx, vy] 2
      (fun k => if (s.st.rp (s.preg (pmName pm))).getLsbD k then elt 8 (s.st.rv (s.vreg vx)) k else elt 8 (s.st.rv (s.vreg vy)) k) 4

/-- vmv, its compact form, vperm, vslideup, vslidedn and vbcast complete with each element as R192 has it, landing 2 cycles later; vext writes the
scalar with its element, sign-extended for integers and zero-extended for floats; pand, por, pxor, pandn, pnot and pfirst give the bits of
R199 2 cycles later; pcnt counts; nothing else changes. -/
def Obligations.VectorMovesAndPredicates : Prop :=
  ∀ (s : State) (ty : VTy) (d y5 : BitVec 5) (k7 : BitVec 7) (pd px py : BitVec 4) (vd vx vy : BitVec 6),
    let w := 8 * ty.size
    let x k := elt w (s.st.rv (s.vreg vx)) k
    let y k := elt w (s.st.rv (s.vreg vy)) k
    let n := (s.rs y5).toNat
    let p b := (s.st.rp (s.preg px)).getLsbD b
    let r b := (s.st.rp (s.preg py)).getLsbD b
    Moves s (.vmv vd vx) 1024 vd [vx] 2 (fun _ => s.st.rv (s.vreg vx)) 4 ∧
    Moves s (.vmvCompact vd vx) 1024 vd [vx] 2 (fun _ => s.st.rv (s.vreg vx)) 2 ∧
    Moves s (.vperm ty vd vx vy) w vd [vx, vy] 2 (fun k => x ((y k).toNat % ty.count)) 4 ∧
    Moves s (.vslideup ty vd vx y5) w vd [vx] 2 (fun k => if k < n then 0 else x (k - n)) 4 ∧
    Moves s (.vslidedn ty vd vx y5) w vd [vx] 2 (fun k => if k + n < ty.count then x (k + n) else 0) 4 ∧
    Moves s (.vbcast ty vd y5) w vd [] 2 (fun _ => (s.rs y5).setWidth w) 4 ∧
    (k7.toNat < ty.count → Usable s [s.vreg vx] →
      Writes s (.vext ty d vx k7) d (if ty.isFloat then (x k7.toNat).setWidth 64 else (x k7.toNat).signExtend 64) 4) ∧
    Decides s (.pand pd px py) pd [] (fun b => p b && r b) ∧ Decides s (.por pd px py) pd [] (fun b => p b || r b) ∧
    Decides s (.pxor pd px py) pd [] (fun b => p b != r b) ∧ Decides s (.pandn pd px py) pd [] (fun b => p b && !r b) ∧
    Decides s (.pnot pd px) pd [] (fun b => !p b) ∧ Decides s (.pfirst ty pd y5) pd [] (fun b => decide (b / ty.size < n)) ∧
    (s.cx.hzdEn = false → Writes s (.pcnt d px) d (BitVec.ofNat 64 ((List.range 128).countP p)) 4)

/-- For the types that R196 gives, vdiv, vsqrt, vrcp, vrsqrt, vexp2 and vlog2 complete unless their latch is PENDING: it becomes PENDING and
each element, rounded once, lands after the unit's latency (R257), where vexp2 and vlog2 round a value computed to more than 250 fraction bits (log 11); vredsum, vredmax and vredmin leave one result, the bytes above 0. movl
copies a FULL latch to a vector, landing one cycle later, or its low word to a scalar; on an EMPTY one it raises LATCH_EMPTY and on
a PENDING one it waits, in either form (R196 to R198). -/
def Obligations.LongUnitsAndLatches : Prop :=
  ∀ (s : State) (ty : VTy) (l : BitVec 2) (d : BitVec 5) (vd vx vy : BitVec 6),
    let w := 8 * ty.size
    let x k := elt w (s.st.rv (s.vreg vx)) k
    let y k := elt w (s.st.rv (s.vreg vy)) k
    let nums := (List.range ty.count).map fun k => num ty (x k)
    let ints := (List.range ty.count).map fun k => (x k).toInt
    let unary (i : Instr) (lat : Nat) (f : Machine.Num → Machine.Num) : Prop :=
      Sends s i l [vx] lat w ty.count fun k => BitVec.ofNat w (ofTyNum ty (f (num ty (x k))))
    let reduces (i : Instr) (f : List Machine.Num → Machine.Num) (g : List Int → Int) : Prop :=
      Sends s i l [vx] 8 64 1 fun _ => if ty.isFloat then BitVec.ofNat 64 (ofTyNum ty (f nums)) else BitVec.ofInt 64 (g ints)
    let latV := match ty with
      | .f16 | .bf16 => 12
      | .i32 | .f32 => 20
      | _ => 36
    (ty.isDivTy = true → Sends s (.vdiv ty l vx vy) l [vx, vy] latV w ty.count fun k =>
      byTy ty (numDiv (num ty (x k)) (num ty (y k)))
        (if y k = 0 then BitVec.allOnes w else BitVec.ofInt w ((x k).toInt.tdiv (y k).toInt))) ∧
    (ty.isFloat = true → unary (.vsqrt ty l vx) 18 numSqrt ∧ unary (.vrcp ty l vx) 10 (fun v => numDiv (.fin false 1 0) v) ∧
      unary (.vrsqrt ty l vx) 10 numRsqrt ∧ unary (.vexp2 ty l vx) 14 numExp2 ∧ unary (.vlog2 ty l vx) 14 numLog2) ∧
    reduces (.vredsum ty l vx) numSum List.sum ∧ reduces (.vredmax ty l vx) (fold1 numMax .nan) (fold1 max 0) ∧
    reduces (.vredmin ty l vx) (fold1 numMin .nan) (fold1 min 0) ∧
    ((s.st.rl l).st = .full → Usable s [s.vreg vd] →
      ∃ t, exec (.movlVector vd l) s = .next t ∧
        Passed s t (landing s.st (now s + 1) (.v (s.vreg vd)) (s.st.rl l).val (BitVec.allOnes 128)) 4) ∧
    ((s.st.rl l).st = .full → Writes s (.movlScalar d l) d ((s.st.rl l).val.setWidth 64) 4) ∧
    ((s.st.rl l).st = .empty → CanTrap s → Raises s (.movlVector vd l) .latchEmpty 0 0 ∧ Raises s (.movlScalar d l) .latchEmpty 0 0) ∧
    ((s.st.rl l).st = .pending → ∀ i, i = .movlScalar d l ∨ i = .movlVector vd l →
      ∃ t, exec i s = .next t ∧ t.st.status = .waiting ∧ t.st.ex = s.st.ex ∧ SameRegs s.st t.st ∧ Beside s t)

/-- vcvt to fp32 from a 4- or 8-byte type, and every other format pair that fits, completes: out's element k is the block's conversion of
R194 of element k, the bits above are 0, cr.vsc and cr.vcnt hold the scale bytes and counts of the blocks, and vD lands 4 cycles later; a
format wider than the type raises CVT_WIDTH, an invalid table entry FMT_DESC. twr writes the row's 32 cells with Widen, trd the 32 elements
of its part with Narrow, 3 cycles later; vcmpr48 writes the kept elements, with zeros in their
containers above the format's width, and the metadata words, 4 cycles later (R43, R193 to R202). -/
def Obligations.ConvertTileCompress : Prop :=
  ∀ (s : State) (ty : VTy) (dir auto tab : Bool) (rm : RMode) (code : BitVec 4) (vd vx vm : BitVec 6) (p n : BitVec 2) (t1 : BitVec 1)
    (row col : BitVec 5) (f : Fmt),
    let x := s.st.rv (s.vreg vx)
    let cell (st : Stream) (u r c : Nat) : BitVec 32 := ((st.tx[u]?).getD 0).extractLsb' (1024 * r + 32 * c) 32
    let squeezes (i : Instr) (w : Nat) (par : Par) : Prop := Usable s [s.vreg vd, s.vreg vm, s.vreg vx] →
      ∃ t, ∃ a b : Vec, exec i s = .next t ∧
        (∀ g < 1024 / w / 8,
          let e (k : Nat) : BitVec w := elt w x (8 * g + k)
          let kept := kept4 ((List.range 8).map fun k => decodeNum par (e k).toNat)
          (∀ j < 4, (elt w a (4 * g + j)).toNat = (e (kept[j]?.getD 0)).toNat % 2 ^ par.w) ∧ (elt 16 b g).toNat = metaWord kept) ∧
        a.toNat < 2 ^ 512 ∧ b.toNat < 2 ^ (2 * (1024 / w)) ∧
        Passed s t (landing (landing s.st (now s + 4) (.v (s.vreg vd)) a (BitVec.allOnes 128)) (now s + 4) (.v (s.vreg vm)) b
          (BitVec.allOnes 128)) 4
    (s.st.cvtFmt tab code = some f → f.cw ≤ 8 * ty.size → Usable s [s.vreg vd, s.vreg vx] →
      let wi := if dir then f.cw else 8 * ty.size
      let wo := if dir then 8 * ty.size else f.cw
      let xs (b : Nat) : List Machine.Num := ((List.range 32).filter fun k => decide (32 * b + k < ty.count)).map fun k =>
        decodeNum (if dir then f.par else (tyFmt ty).par) (elt wi x (32 * b + k)).toNat
      let blk (b : Nat) : Byte × BlockOut := cvtBlock ty f dir auto rm s.st.uthr s.st.vsc s.st.vcnt b (xs b)
      ∃ t, ∃ v : Vec, ∃ vsc vcnt, exec (.vcvt ty dir auto rm tab code vd vx) s = .next t ∧
        (∀ k < ty.count, (elt wo v k).toNat = ((blk (k / 32)).2.pats[k % 32]?).getD 0 % 2 ^ wo) ∧ v.toNat < 2 ^ (wo * ty.count) ∧
        (∀ b < 4, 32 * b < ty.count → elt8 vcnt b = BitVec.ofNat 8 (blk b).2.uf ∧ elt8 vcnt (b + 4) = BitVec.ofNat 8 (blk b).2.ls ∧
          elt8 vsc b = (if auto then (blk b).1 else elt8 s.st.vsc b)) ∧
        (∀ b < 4, ty.count ≤ 32 * b → elt8 vcnt b = elt8 s.st.vcnt b ∧ elt8 vcnt (b + 4) = elt8 s.st.vcnt (b + 4) ∧
          elt8 vsc b = elt8 s.st.vsc b) ∧
        Passed s t (landing { s.st with vsc := vsc, vcnt := vcnt } (now s + 4) (.v (s.vreg vd)) v (BitVec.allOnes 128)) 4) ∧
    (s.st.cvtFmt tab code = some f → 8 * ty.size < f.cw → CanTrap s → Raises s (.vcvt ty dir auto rm tab code vd vx) .cvtWidth 0 0) ∧
    (s.st.cvtFmt tab code = none → CanTrap s → Raises s (.vcvt ty dir auto rm tab code vd vx) .fmtDesc 0 0) ∧
    (partOk ty p = true → Usable s [s.vreg vx] → ∃ t, ∃ tx : Vector (BitVec 32768) 2, exec (.twr ty p t1 row vx) s = .next t ∧
      (∀ j < 32, (cell { s.st with tx := tx } t1.toNat row.toNat j).toNat = widen ty (elt (8 * ty.size) x (32 * p.toNat + j)).toNat) ∧
      (∀ u < 2, ∀ r < 32, ∀ j < 32, (u ≠ t1.toNat ∨ r ≠ row.toNat) → cell { s.st with tx := tx } u r j = cell s.st u r j) ∧
      Passed s t { s.st with tx := tx } 4) ∧
    (partOk ty p = true → Usable s [s.vreg vd] → ∃ t v m, exec (.trd ty p vd t1 col) s = .next t ∧
      (∀ i < 32, (elt (8 * ty.size) v (32 * p.toNat + i)).toNat = narrow ty (cell s.st t1.toNat i col.toNat).toNat) ∧
      (∀ b < 128, m.getLsbD b = decide (b / ty.size / 32 = p.toNat)) ∧
      Passed s t (landing s.st (now s + 3) (.v (s.vreg vd)) v m) 4) ∧
    squeezes (.vcmpr48 ty vd vm vx) (8 * ty.size) (tyFmt ty).par ∧
    (let e := s.st.rfmt ((s.st.rlc n).setWidth 4);
      (nfValid e = true → squeezes (.vcmpr48Lc n vd vm vx) (Fmt.nf e).cw (nfPar e)) ∧
      (nfValid e = false → CanTrap s → Raises s (.vcmpr48Lc n vd vm vx) .fmtDesc 0 0))

/-! ### Landing, banks and the hazard detector -/

/-- VECTOR_WRITE_LANDING of a pending write whose cycle has come, no earlier one to its register being due before it: the active byte lanes of
the vector take the new bytes and the others keep theirs, a predicate takes all its bits, p0 takes nothing; every other register keeps
its value, and the write is no longer pending. Before its cycle nothing changes. LATCH_WRITE_LANDING makes a PENDING latch FULL with its
value once its cycle has come, and else changes nothing (R184, R185, R187, R198). For vmv of any registers: a register in a bank that is off raises VBANK; a powered bank in retention holds it until BANK_WAKE, which clears the
bank's bit and keeps its contents; with the hazard detector on, a pending write to its source raises HAZARD, the writer's address and the
register's number in the record, or with MODE = 1 holds the stream; with no pending write it completes as with the detector off.
BANK_RETENTION_ENTRY sets the bit of a powered bank after 1,024 idle cycles with no write pending (R185 to R187, R259, R290). -/
def Obligations.LandingAndBanks : Prop :=
  (∀ (s : State) (sl : SlotId) (k : Nat) (w : PendWrite) (l : BitVec 2),
    let st := s.strm sl
    let now := (s.dev sl.core.dev).cycle
    let u (t : State) : Stream := t.strm sl
    (st.pend[k]? = some w → now < w.land → exec (.vectorWriteLanding sl k) s = .next s) ∧
    (st.pend[k]? = some w → w.land ≤ now → (∀ j v, st.pend[j]? = some v → v.reg = w.reg → j = k ∨ w.land < v.land ∨ (w.land = v.land ∧ k < j)) →
      ∃ t, exec (.vectorWriteLanding sl k) s = .next t ∧ (u t).pend = st.pend.eraseIdx k ∧ (u t).s = st.s ∧ t.devs = s.devs ∧ t.ctxs = s.ctxs ∧
        (∀ id, id ≠ sl → t.strm id = s.strm id) ∧
        (∀ n, w.reg = .v n → (∀ b < 128, elt 8 ((u t).rv n) b = if w.mask.getLsbD b then elt 8 w.val b else elt 8 (st.rv n) b) ∧
          (∀ m, m ≠ n → (u t).rv m = st.rv m) ∧ (u t).p = st.p) ∧
        (∀ n, w.reg = .p n → (n ≠ 0 → (u t).rp n = w.val.setWidth 128) ∧ (∀ m, m ≠ n ∨ n = 0 → (u t).rp m = st.rp m) ∧ (u t).v = st.v)) ∧
    ∃ t, exec (.latchWriteLanding sl l) s = .next t ∧ (∀ m, m ≠ l → (u t).rl m = st.rl m) ∧ t.devs = s.devs ∧ t.ctxs = s.ctxs ∧
      (∀ c x, (st.rl l).due = some (c, x) → c ≤ now → ((u t).rl l).st = .full ∧ ((u t).rl l).val = x) ∧
      (∀ c x, (st.rl l).due = some (c, x) → now < c → (u t).rl l = st.rl l)) ∧
  ∀ (s : State) (sl : SlotId) (vd vx : BitVec 6) (b : BitVec 2),
    let r := s.vreg vx
    let on (n : BitVec 6) : Prop := n.toNat / 16 < s.vbanks
    let waits : Prop := ∃ t, exec (.vmv vd vx) s = .next t ∧ t.st.status = .waiting ∧ t.st.ex = s.st.ex ∧ t.st.v = s.st.v ∧ t.st.pend = s.st.pend ∧
      Beside s t
    let st := s.strm sl
    (¬ (on (s.vreg vd) ∧ on r) → CanTrap s → Raises s (.vmv vd vx) .vbank 0 0) ∧
    (on (s.vreg vd) → on r → s.st.ret.getLsbD (r.toNat / 16) = true → waits) ∧
    (on (s.vreg vd) → on r → s.st.ret = 0 → s.cx.hzdEn = true → ∀ w r', s.st.pend = w :: r' → w.reg = .v r →
      (s.cx.hzdMode = false → CanTrap s → Raises s (.vmv vd vx) .hazard w.pc (BitVec.ofNat 64 r.toNat)) ∧ (s.cx.hzdMode = true → waits)) ∧
    (on (s.vreg vd) → on r → s.st.ret = 0 → s.st.pend = [] → ∃ t, exec (.vmv vd vx) s = .next t ∧
      Passed s t (landing s.st (now s + 2) (.v (s.vreg vd)) (s.st.rv r) (BitVec.allOnes 128)) 4) ∧
    (∃ t, exec (.bankWake sl b) s = .next t ∧ (t.strm sl).v = st.v ∧ t.devs = s.devs ∧ t.ctxs = s.ctxs ∧
      (t.strm sl).ret = (if st.wake.getLsbD b.toNat then st.ret &&& ~~~(BitVec.twoPow 4 b.toNat) else st.ret)) ∧
    (st.present = true → b.toNat < (s.launchOf (s.xidOf sl)).elim 4 Launch.vbanks → 1024 ≤ (s.dev sl.core.dev).cycle - st.idle → st.pend = [] →
      ∃ t, exec (.bankRetentionEntry sl b) s = .next t ∧ (t.strm sl).v = st.v ∧ (t.strm sl).ret = st.ret ||| BitVec.twoPow 4 b.toNat ∧
        t.devs = s.devs ∧ t.ctxs = s.ctxs)

/-! ### Multicast groups -/

/-- Sequence a has reached n exactly when (a - n) mod 2^32 < 2^31, and at a difference of exactly 2^31 it has not. gacq on a group of which
the device is a member, for a target below 2^32 and with the stream's earlier loads and stores performed, goes on, having acquired, when
APPLIED has reached the target so, and else waits in its place; a wait loses no register and changes nothing beside the stream (R113). -/
def Obligations.SerialNumberComparison : Prop :=
  (∀ a n : BitVec 32, serialReached a n = true ↔ (a.toNat + 2 ^ 32 - n.toNat) % 2 ^ 32 < 2 ^ 31) ∧
  (∀ n : BitVec 32, serialReached (n + BitVec.ofNat 32 (2 ^ 31)) n = false) ∧
  ∀ (s : State) (g : BitVec 12) (d : BitVec 5),
    let e := fget (s.dev s.cur.core.dev).gt g.toNat {}
    let n := (s.rs d).toNat
    e.valid = true → e.member = true → n < 2 ^ 32 → AtJoin s →
    ((e.applied.toNat + 2 ^ 32 - n) % 2 ^ 32 < 2 ^ 31 → ∃ t, exec (.gacq g d) s = .next t ∧ Passed (acquired s) t s.st.ungate 4) ∧
    (2 ^ 31 ≤ (e.applied.toNat + 2 ^ 32 - n) % 2 ^ 32 → Holds s (.gacq g d))

/-- gseq writes APPLIED of a valid entry, zero-extended. stg of a member, its offset aligned and inside the group, its address translating and
meeting no live frame, its vector readable and its latch not PENDING, completes: the latch is PENDING and the SQ holds the group, the offset
and the low bytes of the vector; no byte of memory changes. A group that is not valid raises NOT_MEMBER in all three, one whose device is no
member and joins none raises it in gacq and stg; a gacq target of 2^32 or more raises SEQ_RANGE first, a misaligned or outlying offset
GROUP_RANGE; a gacq that waits as a member's whose device has left raises LEFT while its target is not reached, and goes on when it is (R110,
R179, R181). -/
def Obligations.GroupInstructions : Prop :=
  ∀ (s : State) (g : BitVec 12) (d ofs v : BitVec 5) (sz : BitVec 3) (rel : Bool) (l : BitVec 2) (ps : List Piece),
    let e := fget (s.dev s.cur.core.dev).gt g.toNat {}
    let n := 4 * 2 ^ sz.toNat
    let r := s.vreg (v.setWidth 6)
    let off := s.rs ofs
    let va := e.lbase + off
    let gd : Word := g.setWidth 64
    let stg : Instr := .stg sz rel l g ofs v
    let tgt : BitVec 32 := (s.rs d).setWidth 32
    let far : Prop := 2 ^ 31 ≤ (e.applied.toNat + 2 ^ 32 - tgt.toNat) % 2 ^ 32
    (e.valid = true → Writes s (.gseq d g) d (e.applied.setWidth 64) 4) ∧
    (e.valid = true → e.member = true → off.toNat % n = 0 → off.toNat + n ≤ e.lsize.toNat →
      s.xlAccess ⟨s.xid, s.cx.asid.toNat, s.st.priv, .store, .none⟩ va n = .ok ps → s.st.liveFrame va.toNat n = none → Usable s [r] →
      (s.st.rl l).st ≠ .pending → ∃ t st, exec stg s = .next t ∧ Passed s t st 4 ∧ (st.rl l).st = .pending ∧
        st.sq = s.st.sq ++ [.stg s.st.seq g rel l off.toNat ((List.range n).map fun k => elt 8 (s.st.rv r) k)] ∧
        SameRegs { s.st with l := st.l, sq := st.sq } st ∧ ∀ m, m ≠ l → st.rl m = s.st.rl m) ∧
    ((s.rs d).toNat < 2 ^ 32 → e.valid = true → e.member = false → s.st.wait = .gacq g.toNat tgt → ¬ far → AtJoin s →
      ∃ t, exec (.gacq g d) s = .next t ∧ Passed (acquired s) t s.st.ungate 4) ∧
    (CanTrap s → (e.valid = false → Raises s (.gseq d g) .notMember e.lbase gd ∧ Raises s stg .notMember va gd) ∧
      (2 ^ 32 ≤ (s.rs d).toNat → Raises s (.gacq g d) .seqRange 0 0) ∧
      ((s.rs d).toNat < 2 ^ 32 → (e.valid = false ∨ (e.member = false ∧ e.joining = false ∧ s.st.wait ≠ .gacq g.toNat tgt)) →
        Raises s (.gacq g d) .notMember e.lbase gd) ∧
      ((s.rs d).toNat < 2 ^ 32 → e.valid = true → e.member = false → s.st.wait = .gacq g.toNat tgt → far → Raises s (.gacq g d) .left e.lbase gd) ∧
      (e.valid = true → e.member = false → Raises s stg .notMember va gd) ∧
      (e.valid = true → e.member = true → (off.toNat % n ≠ 0 ∨ e.lsize.toNat < off.toNat + n) → Raises s stg .groupRange 0 0))

/-- STG_STAMP of a member's store whose home switch may stamp: the store takes the counter's value as its sequence and travels to every member,
the counter advances by one, and the sender's PENDING latch is FULL with the stamp; of a device that has left, the latch takes 0 and no
member is sent anything, and its stream receives LEFT (R114). GROUP_DELIVERY of a sequence from APPLIED + 1 to APPLIED + 64 that a member's receiver does not hold: the receiver holds
it, and APPLIED stays; one outside that window is dropped; a joiner's own join record sets APPLIED to its sequence, MEMBER (R110) and one EPOCH more (EPOCH: the
model's reading, log 53). No byte of memory changes (R77, R110,
R111, R114). -/
def Obligations.HomeSwitchStamps : Prop :=
  (∀ (s : State) (m : HomeMsg) (r : List HomeMsg) (id : SlotId) (seq : Nat) (l : BitVec 2) (off : Nat) (bs : List Byte),
    let hs := s.homeSt m.home m.g
    let latch (t : State) (x : Vec) : Prop := (s.strm id).present = true → ((s.strm id).rl l).st = .pending →
      ((t.strm id).rl l).st = .full ∧ ((t.strm id).rl l).val = x
    s.toHome = m :: r → m.item = .store id seq l off bs → s.mayStamp m.home m.g = true →
    (m.dev ∈ hs.members → ∃ t, exec (.stgStamp 0) s = .next t ∧ SameBytes s t ∧ t.toHome = r ∧ (t.homeSt m.home m.g).ctr = hs.ctr + 1 ∧
      (t.homeSt m.home m.g).members = hs.members ∧
      t.deliveries = s.deliveries ++ (hs.members.map fun d => ⟨m.home, m.g, d, hs.ctr, .store off bs⟩) ∧ latch t (hs.ctr.setWidth 1024)) ∧
    (m.dev ∉ hs.members → ∃ t, exec (.stgStamp 0) s = .next t ∧ SameBytes s t ∧ t.toHome = r ∧ t.homes = s.homes ∧
      t.deliveries = s.deliveries ∧ latch t 0 ∧
      ((s.strm id).present = true → (t.strm id).pendFaults = (s.strm id).pendFaults ++
        [{ name := .left, faddr := (s.gent m.dev m.g).lbase + BitVec.ofNat 64 off, detail := BitVec.ofNat 64 m.g }]))) ∧
  ∀ (s : State) (k : Nat) (d : Delivery),
    let e := s.gent d.dev d.g
    let ahead := (d.seq.toNat + 2 ^ 32 - e.applied.toNat) % 2 ^ 32
    s.deliveries[k]? = some d →
    ∃ t, exec (.groupDelivery k) s = .next t ∧ Elsewhere s t ∧ t.deliveries = s.deliveries.eraseIdx k ∧ t.homes = s.homes ∧
      (∀ dv g, (dv ≠ d.dev ∨ g ≠ d.g) → t.gent dv g = s.gent dv g) ∧
      (e.valid = true → e.member = true → e.joining = false → (∀ p ∈ e.held, p.1 ≠ d.seq) → 1 ≤ ahead → ahead ≤ 64 →
        (t.gent d.dev d.g).held = e.held ++ [(d.seq, d.item)] ∧ (t.gent d.dev d.g).applied = e.applied) ∧
      (e.joining = false → (ahead = 0 ∨ 64 < ahead) → t.gent d.dev d.g = e) ∧
      (e.joining = true → d.item = .joinRec d.dev → (t.gent d.dev d.g).applied = d.seq ∧ (t.gent d.dev d.g).member = true ∧
        (t.gent d.dev d.g).joining = false ∧ (t.gent d.dev d.g).epoch = e.epoch + 1)

/-- GROUP_APPLY changes nothing unless the receiver of a valid member entry holds APPLIED + 1. A store that translates and whose places are in
service is written whole, in one step, and APPLIED takes its sequence; one that does not translate leaves memory and APPLIED, logs APPLY with the
group and the sequence and stalls the receiver; a membership record writes no memory, adds 1 to EPOCH, and a leaver's own record clears
MEMBER, at which a gacq of the device that waits on the group short of its target raises LEFT. GROUP_GAP_TIMEOUT logs GROUP_GAP with g, APPLIED and NEXT once a gap has lasted GAPTO microseconds of cr.time (R77, R110, R112,
R180). -/
def Obligations.ReceiverApplies : Prop :=
  ∀ (s : State) (dev g : Nat) (off : Nat) (bs : List Byte) (ps : List Piece) (f : FaultRec) (d : Nat) (t0 : Word),
    let e := s.gent dev g
    let va := e.lbase + BitVec.ofNat 64 off
    let xl := s.xlAccess ⟨⟨⟨dev, 0, 0⟩, 0⟩, e.asid, .u, .store, .none⟩ va bs.length
    let apply := exec (.groupApply dev g) s
    let live := e.valid = true ∧ e.member = true ∧ e.applyStall = false
    let short (id : SlotId) : Prop := id.core.dev = dev ∧ (s.strm id).status = .waiting ∧
      ∃ n, (s.strm id).wait = .gacq g n ∧ 2 ^ 31 ≤ ((e.applied + 1).toNat + 2 ^ 32 - n.toNat) % 2 ^ 32
    (e.nextHeld = none → apply = .next s) ∧
    (live → e.nextHeld = some (.store off bs) → xl = .ok ps → s.firstStop ps = none →
      ∃ t, apply = .next t ∧ SameBytes (s.writePieces bs ps) t ∧ (t.gent dev g).applied = e.applied + 1 ∧ t.streams = s.streams) ∧
    (live → e.nextHeld = some (.store off bs) → xl = .bad f →
      ∃ t, apply = .next t ∧ Elsewhere s t ∧ (t.gent dev g).applied = e.applied ∧ (t.gent dev g).applyStall = true ∧
        LogsFault s t dev .apply va (BitVec.ofNat 64 (g + (e.applied + 1).toNat * 2 ^ 32))) ∧
    (live → (e.nextHeld = some (.joinRec d) ∨ e.nextHeld = some (.leaveRec d)) →
      ∃ t u, apply = .next t ∧ Elsewhere s u ∧ (u.gent dev g).applied = e.applied + 1 ∧ (u.gent dev g).epoch = e.epoch + 1 ∧
        ((u.gent dev g).member = true ↔ ¬ (e.nextHeld = some (.leaveRec d) ∧ d = dev)) ∧
        (e.nextHeld ≠ some (.leaveRec dev) → t = u) ∧ ((∀ id, ¬ short id) → t = u) ∧
        (e.nextHeld = some (.leaveRec dev) → ∀ id, short id → (∀ o, short o → o = id) →
          t = u.deliver id { name := .left, faddr := e.lbase, detail := BitVec.ofNat 64 g } (s.strm id).ex.retPoint)) ∧
    (e.gapSince = some t0 → e.gapRaised = false →
      (usTime e.gapto.toNat ≤ ((s.dev dev).time - t0).toNat →
        ∃ t, exec (.groupGapTimeout dev g) s = .next t ∧ Elsewhere s t ∧ (t.gent dev g).gapRaised = true ∧
          LogsFault s t dev .groupGap (BitVec.ofNat 64 (e.next.toNat * 2 ^ 32 + e.applied.toNat)) (BitVec.ofNat 64 g)) ∧
      (((s.dev dev).time - t0).toNat < usTime e.gapto.toNat → exec (.groupGapTimeout dev g) s = .next s))

/-- With the action in progress on its device: GROUP_LOAD makes the entry live as its 64 bytes in the table give it, and where the fleet manager
starts the home switch with it, the counter stands at APPLIED + 1 and the members are those of the bitmap (which loads do: log 53); GROUP_JOIN makes it live with MEMBER = 0 and asks the home for a join record; GROUP_LEAVE and
GROUP_RESEND ask it for a leave record of the named device and for the held sequences after APPLIED. An entry with a reserved bit set acts as one with VALID = 0 (log 69). Each ends the action and changes no memory,
stream or core (R108 to R110). -/
def Obligations.GroupTableActions : Prop :=
  ∀ (s : State) (dev : Nat) (r : GtReq) (bs : List Byte),
    let g := r.group.toNat
    let e := s.gent dev g
    let w (k n : Nat) : Nat := bytesNat ((bs.drop (4 * k)).take n)
    let entry (a : GEntry) : Prop := a.applied.toNat = w 0 4 % 2 ^ 32 ∧ a.next.toNat = w 1 4 % 2 ^ 32 ∧ a.valid = (w 2 4).testBit 31 ∧
      a.gapto.toNat = w 2 4 % 2 ^ 20 ∧ a.home.toNat = w 3 4 % 2 ^ 16 ∧ a.epoch.toNat = w 3 4 / 2 ^ 16 % 2 ^ 16 ∧ a.lbase.toNat = w 4 8 % 2 ^ 64 ∧
      a.lsize.toNat = w 6 4 % 2 ^ 32 ∧ a.mva.toNat = w 7 8 % 2 ^ 64 ∧ a.asid = r.asid
    let home := BitVec.ofNat 16 (w 3 4)
    let reads := s.gtRead dev r.asid (BitVec.ofNat 64 ((s.dev dev).gtbase.toNat * 2 ^ 18 + 64 * g)) 64 = .ok bs
    let clean := w 2 4 / 2 ^ 20 % 2 ^ 10 = 0 ∧ ∀ k, 9 ≤ k → k < 16 → w k 4 = 0
    let ends (i : Instr) (p : State → Prop) : Prop := ∃ t, exec i s = .next t ∧ Elsewhere s t ∧ (t.dev dev).gtReq = none ∧ p t
    let starts := (s.homeSt home g).started = false ∨ Config.groupStart s.clock = true
    (s.dev dev).gtReq = some r →
    (r.act = 1 → reads → clean →
      let live (t : State) : Prop := entry (t.gent dev g) ∧ (t.gent dev g).member = (w 2 4).testBit 30 ∧ t.toHome = s.toHome
      (¬ starts → ends (.groupLoad dev) fun t => live t ∧ t.homes = s.homes) ∧
      ∀ bm, starts → s.gtRead dev r.asid (BitVec.ofNat 64 (w 7 8)) 144 = .ok bm → ends (.groupLoad dev) fun t => live t ∧
        (t.homeSt home g).ctr = (t.gent dev g).applied + 1 ∧ (t.homeSt home g).held = [] ∧
        ∀ d, d ∈ (t.homeSt home g).members ↔ d < 1152 ∧ ((bm[d / 8]?).getD 0).getLsbD (d % 8) = true) ∧
    (reads → ¬ clean → (r.act = 1 → ends (.groupLoad dev) fun t => (t.gent dev g).valid = false ∧ t.toHome = s.toHome ∧ t.homes = s.homes) ∧
      (r.act = 2 → ends (.groupJoin dev) fun t => (t.gent dev g).valid = false ∧ t.toHome = s.toHome ∧ t.homes = s.homes)) ∧
    (r.act = 2 → reads → clean → ends (.groupJoin dev) fun t => entry (t.gent dev g) ∧ (t.gent dev g).member = false ∧
      (t.gent dev g).joining = true ∧ t.toHome = s.toHome ++ [⟨(t.gent dev g).home, g, dev, .join dev⟩]) ∧
    (r.act = 3 → e.valid = true → ends (.groupLeave dev) fun t => t.toHome = s.toHome ++ [⟨e.home, g, dev, .leave r.dev⟩]) ∧
    (r.act = 4 → e.valid = true → ends (.groupResend dev) fun t => t.toHome = s.toHome ++ [⟨e.home, g, dev, .resend dev e.applied⟩])

/-! ### Tails joined, barriers and semaphores -/

/-- The word 0x000000D7 is tjoin, and FN 2 to 7 of major 0x2B decode to nothing. tjoin is a join point: while an earlier load or store of the
stream stands in its queues it waits in its place, its own gate standing behind them. Then it waits while the tail table holds a LIVE entry, of
whatever level, and with none it goes on as an acquire fence at frame scope, which invalidates the GLC of the core and changes nothing else (R154). -/
def Obligations.TjoinWaitsForTails : Prop :=
  decodeTableWord 32 0x000000D7 = some .tjoin ∧
  (∀ fn hi : Nat, 2 ≤ fn → fn < 8 → hi < 2 ^ 22 → decodeTableWord 32 (0x57 + 128 * fn + 1024 * hi) = none) ∧
  ∀ s : State,
    let live := ∃ e ∈ s.st.tails, ∃ fb fe l k, e = .live fb fe l k
    (s.st.acc.late = [] → s.st.acc.headFaulted = false → s.st.atHeads = false → Holds s .tjoin) ∧
    (AtJoin s → live → Holds s .tjoin) ∧
    (AtJoin s → ¬ live → ∃ t, exec .tjoin s = .next t ∧ Passed (acquired s) t s.st.ungate 4)

/-- In the WG's range and with the stream's earlier accesses performed and its stores arrived, semsig of a stream adds n to the count and goes on,
unless the sum passes 65535: SEM_OVF, the count kept. semwait takes n and goes on, having acquired, once the count has reached n, and else waits.
semset sets the count at issue. Outside the range each raises SEM_RANGE; the forms for an engine issue a command. A signal at the head of a queue
adds its count and leaves, a wait there takes it and leaves, and a wait below its count stays; once its bound has passed it takes nothing and ends
with CYCLE_BOUND. Of the
steps of one cycle on one semaphore, SEMSETs come first, then signals of engines, plans and streams, then waits of engines and streams: a step
acts in its turn, when none that comes after it has acted in this cycle and, for a wait, no wait before it finds its count; out of its turn it
waits (R15, R72, R226 to R228). -/
def Obligations.Semaphores : Prop :=
  ∀ (s : State) (q : SemQ) (e : Eng) (sem : BitVec 6) (n : BitVec 15) (c : CoreId) (h : EngCmd),
    let cnt (u : State) (x : CtxId) (k : BitVec 6) : Nat := ((u.ctx x).sems[k.toNat]'k.isLt).toNat
    let v := cnt s s.xid sem
    let inRange := s.exclOf s.xid = true ∨ sem.toNat < 32
    let sets (i : Instr) (k : SemStep) (w : Nat) : Prop := ∃ t, exec i s = .next t ∧ Passed (s.semStep s.xid sem k (BitVec.ofNat 16 w)) t s.st.ungate 4
    let acquires (i : Instr) (k : SemStep) (w : Nat) : Prop := ∃ t, exec i s = .next t ∧
      Passed (acquired (s.semStep s.xid sem k (BitVec.ofNat 16 w))) t s.st.ungate 4
    let sig : SemStep := .sigStream s.cur
    let wt : SemStep := .waitStream s.cur
    let turn (k : SemStep) : Prop := s.semTurn s.xid sem k = true
    let leaves (t : State) : Prop := ((t.core c).queue e).cmds = ((s.core c).queue e).cmds.drop 1 ∧ t.streams = s.streams ∧ t.devs = s.devs ∧
      (∀ m, m ≠ h.sem → cnt t h.x m = cnt s h.x m) ∧ ∀ x, (t.ctx x).wb = (s.ctx x).wb ∧ (t.ctx x).ab = (s.ctx x).ab ∧ (t.ctx x).cbuf = (s.ctx x).cbuf
    let overdue := h.semBound ≠ 0 ∧ ∃ t0, h.started = some t0 ∧ t0 + 1024 * h.semBound.toNat < (s.dev c.dev).cycle
    (∀ (x : CtxId) (k : SemStep) (w : BitVec 16), let t := s.semStep x sem k w
      cnt t x sem = w.toNat ∧ (∀ y m, (y ≠ x ∨ m ≠ sem) → cnt t y m = cnt s y m) ∧ SameBytes s t ∧ t.devs = s.devs ∧ t.streams = s.streams ∧
        ∀ c, (t.core c).paths = (s.core c).paths ∧ (t.core c).glc = (s.core c).glc ∧ ∀ e, (t.core c).queue e = (s.core c).queue e) ∧
    (∀ (b p : Nat) (i j l : SlotId) (d f : Eng), (SemStep.set i).rank b < (SemStep.sigEngine d).rank b ∧
      (SemStep.sigEngine d).rank b < (SemStep.sigPlan p).rank b ∧ (SemStep.sigPlan p).rank b < (SemStep.sigStream j).rank b ∧
      (SemStep.sigStream j).rank b < (SemStep.waitEngine f).rank b ∧ (SemStep.waitEngine f).rank b < (SemStep.waitStream l).rank b) ∧
    (∀ k, fget? (s.core s.xid.core).turns (.sem s.xid.ctx sem) = none → turn k) ∧
    (inRange → AtJoin s → Arrived s →
      (v + n.toNat ≤ 65535 → turn sig → sets (.semsig .stream sem n) sig (v + n.toNat)) ∧
      (65535 < v + n.toNat → turn sig → CanTrap s → RaisesAt s (s.semMark s.xid sem sig) (.semsig .stream sem n) { name := .semOvf }) ∧ (¬ turn sig → Holds s (.semsig .stream sem n))) ∧
    (inRange → AtJoin s →
      (n.toNat ≤ v → turn wt → s.semBehind s.xid sem wt = false → acquires (.semwait .stream sem n) wt (v - n.toNat)) ∧
      (v < n.toNat ∨ ¬ turn wt ∨ s.semBehind s.xid sem wt = true → Holds s (.semwait .stream sem n))) ∧
    (inRange → (turn (.set s.cur) → ∃ t, exec (.semset sem n) s = .next t ∧
        Passed (s.semStep s.xid sem (.set s.cur) (BitVec.ofNat 16 n.toNat)) t s.st 4) ∧
      (¬ turn (.set s.cur) → Waits s (.semset sem n))) ∧
    (inRange → semEng q = some e → Issues s (.semsig q sem n) .semsig e (fun k => k.sem = sem ∧ k.n = n) ∧
      Issues s (.semwait q sem n) .semwait e (fun k => k.sem = sem ∧ k.n = n)) ∧
    (¬ inRange → CanTrap s → Raises s (.semsig q sem n) .semRange 0 0 ∧ Raises s (.semwait q sem n) .semRange 0 0 ∧
      Raises s (.semset sem n) .semRange 0 0) ∧
    ((s.core c).headReady e = some h →
      (h.kind = .semsig → s.semTurn h.x h.sem (.sigEngine e) = true → cnt s h.x h.sem + h.n.toNat ≤ 65535 → ∃ t, exec (.semsigEnginePerform c e) s = .next t ∧ leaves t ∧
        cnt t h.x h.sem = cnt s h.x h.sem + h.n.toNat) ∧
      (h.kind = .semsig → s.semTurn h.x h.sem (.sigEngine e) = true → 65535 < cnt s h.x h.sem + h.n.toNat →
        h.bound ≠ some h.id → ∃ t,
        exec (.semsigEnginePerform c e) s = .next t ∧ SameBytes s t ∧ ((t.core c).queue e).stop = .ended ∧ cnt t h.x h.sem = cnt s h.x h.sem) ∧
      (h.kind = .semwait → s.semTurn h.x h.sem (.waitEngine e) = true → s.semBehind h.x h.sem (.waitEngine e) = false →
        ¬ overdue → h.n.toNat ≤ cnt s h.x h.sem → ∃ t, exec (.semwaitEnginePerform c e) s = .next t ∧ leaves t ∧
        cnt t h.x h.sem = cnt s h.x h.sem - h.n.toNat) ∧
      (h.kind = .semwait → cnt s h.x h.sem < h.n.toNat → exec (.semwaitEnginePerform c e) s = .next s) ∧
      (h.kind = .semwait → overdue → exec (.semwaitEnginePerform c e) s = .next s ∧ ∃ t, exec (.semwaitBoundExpiry c e) s = .next t ∧ SameBytes s t ∧
          ((t.core c).queue e).stop = .restartable))

/-- bar of a main stream at a level that its launch declares, its earlier accesses performed and its stores arrived: the stream waits at its bar, its
gate in both queues, and nothing else changes. In a tail it raises BAR_TAIL, above the declared level or in a non-cooperative launch above core BAR_SCOPE.
BARRIER_COMPLETE at core, quad, field, device or pod level changes nothing while a main stream of a WG that takes part, the WG itself, the resident
WGs of its launch in the quad, the field or the device, or those of the launches of its pod tag (which those are: log 62), has neither arrived nor
halted, while a WG of them is undispatched or saved, or while no stream waits; else each waiting one acquires and goes past its bar, and no byte of memory
changes (R17, R21, R73, R231). -/
def Obligations.Barriers : Prop :=
  ∀ (s : State) (level : BarLevel) (x : CtxId),
    let declared := (s.launchOf s.xid).elim 0 fun l => if l.coop then l.barlvl else 0
    (s.cur.sl < 2 → (level = .core ∨ barNum level ≤ declared) → AtJoin s → Arrived s → Holds s (.bar level) ∧ ∀ t, exec (.bar level) s = .next t → t.st.wait = .bar level) ∧
    (2 ≤ s.cur.sl → CanTrap s → Raises s (.bar level) .barTail 0 0) ∧
    (s.cur.sl < 2 → level ≠ .core → declared < barNum level → CanTrap s → Raises s (.bar level) .barScope 0 0) ∧
    let part (id : SlotId) : Prop := ∃ y, TakesPart s x level y ∧ id ∈ mainsOf y
    let here (id : SlotId) : Prop := ((s.strm id).status = .halted ∨ ((s.strm id).status = .waiting ∧ (s.strm id).wait = .bar level)) ∧
      (s.core id.core).fenced = false
    ((¬ Whole s x level ∨ (∃ id, part id ∧ ¬ here id) ∨ (∀ id, part id → (s.strm id).wait ≠ .bar level)) →
      exec (.barrierComplete x level) s = .next s) ∧
    (Whole s x level → (∀ id, part id → here id) → (∃ id, part id ∧ (s.strm id).wait = .bar level) →
      ∃ t, exec (.barrierComplete x level) s = .next t ∧ SameBytes s t ∧ t.devs = s.devs ∧ t.ctxs = s.ctxs ∧ t.cur = s.cur ∧
        (∀ id, (¬ part id ∨ (s.strm id).wait ≠ .bar level) → t.strm id = s.strm id) ∧
        ∀ id, part id → (s.strm id).wait = .bar level → SameRegs (s.strm id).ungate (t.strm id) ∧ (t.strm id).status = .running ∧
          (t.strm id).ex = (s.strm id).ex.adv 4 ∧ (t.core id.core).glc = []) ∧
    ∀ lid l, s.lidOf x = some lid → s.launch? x.core.dev lid = some l → l.podtag = 0 → s.podMates x lid = some [(x.core.dev, lid)]

/-! ### Engine commands: issue and entry -/

/-- Where its tile slot may be named and its records, aligned to 64 bytes and read, pass the checks of R206 and R207, each matrix instruction
issues a command to the ME with its records, its slot, the formats resolved at issue and what it is bound to: mma and mmas their two records and sC,
mcvt, mldacc and mstacc one, mzero and mstat the slot alone, mstat unless its latch is PENDING, when it waits. A command that takes an invalid
entry of the format table is issued, FMT_DESC being due at its queue entry. A slot that may not be named raises TILE_RANGE, a misaligned record
REC_ALIGN; the first check that fails, by record and then by word, MATRIX_REC with the record's address, its role and its word, sC being role 3;
then a window that the role may not use raises BUF_PERM or WINDOW with the address, and last a follow-on without a copy before it FO_PAIR. That
the other faults come after MATRIX_REC is log 10's reading, and that FMT_DESC names the record's address log 49's (R204, R206, R207, R290). -/
def Obligations.MatrixIssue : Prop :=
  (∀ (role : Role) (va : Word) (o k : Nat) (b : Buf), va.toNat / 2 ^ 52 = 0x1F → windowOf va.toNat = some (.localW, o) →
    windowBuf o = some (b, k) → role ≠ .acc → roleWindow role va = if roleBuf role b then none else some { name := .bufPerm, faddr := va }) ∧
  (∀ (role : Role) (va : Word) (o : Nat), (va.toNat / 2 ^ 52 ≠ 0x1F → roleWindow role va = none) ∧
    (va.toNat / 2 ^ 52 = 0x1F → windowOf va.toNat = some (.localW, o) → roleWindow .acc va = some { name := .bufPerm, faddr := va }) ∧
    (va.toNat / 2 ^ 52 = 0x1F → (∀ k, windowOf va.toNat ≠ some (.localW, k)) → roleWindow role va = some { name := .window, faddr := va })) ∧
  ∀ (s s1 s2 : State) (fo z auto sparse : Bool) (rm : RMode) (ts l : BitVec 2) (a b c : BitVec 5) (ra rb : BitVec 1024) (fa fb : Fmt)
    (f : FaultRec) (w : Nat),
    let tile := s.tileOk ts = true
    let role : Role := if sparse then .sb else .b
    let mma : Instr := if sparse then .mmas fo z ts a b c else .mma fo z ts a b c
    let kind : CmdKind := if sparse then .mmas else .mma
    let fmtA := s.st.recFmt (recFcode ra) (recWord ra 2)
    let fmtB := s.st.recFmt (recFcode rb) (recWord rb 2)
    let scOk := if sparse then metaVaOk (s.rs c) = true else (contrWindow (s.rs c) (recKblk ra)).isSome = true
    let pair := fo = true → s.st.lastCe.isSome = true
    let bad (u : State) (i : Instr) (va : Word) (n k : Nat) : Prop :=
      CanTrap u → RaisesAt s u i { name := .matrixRec, faddr := va, detail := BitVec.ofNat 64 (n * 256 + k) }
    let one (i : Instr) (k : CmdKind) (r : Role) (p : EngCmd → Prop) : Prop :=
      roleBad r 0 (s.rs a) ra = none → roleWindows r ra = none → Issues s i k .me fun e => e.ts = ts ∧ e.recA = ra ∧ p e
    let faulty (i : Instr) (r : Role) : Prop :=
      (firstBad (roleChecks r 0 ra) = some w → bad s1 i (s.rs a) 2 w) ∧
      (firstBad (roleChecks r 0 ra) = none → roleWindows r ra = some f → CanTrap s1 → RaisesAt s s1 i f)
    (tile → Record s (s.rs a) 64 s1 ra → Record s1 (s.rs b) 64 s2 rb →
      let okA := firstBad (roleChecks .a 0 ra) = none
      let okB := firstBad (roleChecks role (recKblk ra) rb) = none
      let clear := okA ∧ okB ∧ scOk ∧ roleWindows .a ra = none ∧ roleWindows role rb = none
      (clear → pair → fmtA = some fa → fmtB = some fb → Issues s mma kind .me fun k => k.ts = ts ∧ k.recA = ra ∧
        k.recB = rb.setWidth 512 ∧ k.sc = s.rs c ∧ k.z = z ∧ k.fo = fo ∧ k.fmtA = some fa ∧ k.fmtB = some fb ∧
        k.bound = (if fo then s.st.lastCe else none) ∧ k.writes = [slotRange s.xid ts]) ∧
      (clear → pair → (fmtA = none → IssuesInvalid s mma kind (s.rs a)) ∧
        (fmtA ≠ none → fmtB = none → IssuesInvalid s mma kind (s.rs b))) ∧
      (firstBad (roleChecks .a 0 ra) = some w → bad s2 mma (s.rs a) 0 w) ∧
      (okA → firstBad (roleChecks role (recKblk ra) rb) = some w → bad s2 mma (s.rs b) 1 w) ∧
      (okA → okB → ¬ scOk → bad s2 mma (s.rs c) 3 0) ∧
      (okA → okB → scOk → roleWindows .a ra = some f → CanTrap s2 → RaisesAt s s2 mma f) ∧
      (okA → okB → scOk → roleWindows .a ra = none → roleWindows role rb = some f → CanTrap s2 → RaisesAt s s2 mma f) ∧
      (clear → fo = true → s.st.lastCe = none → CanTrap s2 → RaisesAt s s2 mma { name := .foPair })) ∧
    (tile → Issues s (.mzero ts) .mzero .me fun k => k.ts = ts ∧ k.writes = [slotRange s.xid ts]) ∧
    (tile → (s.st.rl l).st ≠ .pending → Issues s (.mstat l ts) .mstat .me fun k => k.ts = ts ∧ k.latch = l) ∧
    (tile → (s.st.rl l).st = .pending → Waits s (.mstat l ts)) ∧
    (tile → Record s (s.rs a) 64 s1 ra →
      (fmtA = some fa →
        one (.mcvt rm auto a ts) .mcvt .out fun k => k.rm = rm ∧ k.auto = auto ∧ k.fmtA = some fa ∧ k.uthr = s.st.uthr) ∧
      (fmtA = none → roleBad .out 0 (s.rs a) ra = none → roleWindows .out ra = none → IssuesInvalid s (.mcvt rm auto a ts) .mcvt (s.rs a)) ∧
      one (.mldacc ts a) .mldacc .acc (fun k => k.writes = [slotRange s.xid ts]) ∧
      one (.mstacc a ts) .mstacc .acc (fun k => k.reads = [slotRange s.xid ts]) ∧
      faulty (.mcvt rm auto a ts) .out ∧ faulty (.mldacc ts a) .acc ∧ faulty (.mstacc a ts) .acc) ∧
    (¬ tile → CanTrap s → Raises s mma .tileRange 0 0 ∧ Raises s (.mzero ts) .tileRange 0 0 ∧ Raises s (.mcvt rm auto a ts) .tileRange 0 0 ∧
      Raises s (.mldacc ts a) .tileRange 0 0 ∧ Raises s (.mstacc a ts) .tileRange 0 0 ∧ Raises s (.mstat l ts) .tileRange 0 0) ∧
    (tile → (s.rs a).toNat % 64 ≠ 0 → CanTrap s → Raises s mma .recAlign (s.rs a) 0 ∧ Raises s (.mcvt rm auto a ts) .recAlign (s.rs a) 0 ∧
      Raises s (.mldacc ts a) .recAlign (s.rs a) 0 ∧ Raises s (.mstacc a ts) .recAlign (s.rs a) 0) ∧
    (tile → Record s (s.rs a) 64 s1 ra → (s.rs b).toNat % 64 ≠ 0 → CanTrap s1 → RaisesAt s s1 mma { name := .recAlign, faddr := s.rs b })

/-- Where its record, aligned to 64 bytes and read, passes its checks, its windows may be used and its source and destination do not overlap out of
place, each copy issues a command to the CE with its record, coll one to the CS with its record and semaphore, and qfence below D2 one for the
queues of its mask; at D2 qfence raises DET_LEVEL. A cpyx that takes an invalid entry of the format table is issued, FMT_DESC being due at its
queue entry. A record whose pieces all lie in memory, with no store of the stream under way and no line in the
core's GLC, holds the bytes of memory. The first check that fails raises COPY_REC or COLL with the record's address and the word, a misaligned
record REC_ALIGN, an overlap COPY_OVERLAP with the place in the CE queue, and a semaphore of coll outside the WG's range SEM_RANGE. That COPY_OVERLAP is the
instruction's own fault, with it as the return point, is log 26's reading, and that coll is checked at issue log 49's (R204, R217 to R221, R229, R230,
R101). -/
def Obligations.CopyAndCollIssue : Prop :=
  ∀ (s s1 : State) (a : BitVec 5) (r : BitVec 1024) (me ce cs : Bool) (w : Nat) (ps : List Piece) (f : FaultRec),
    let va := s.rs a
    let cmd (k : CmdKind) : EngCmd := { s1.cmd k .ce with recA := r, rm := cpRm r }
    let disjoint (c : EngCmd) : Prop := rangesMeet (s1.srcEnv c) (s1.dstEnv c) = false ∨ c.inPlace = true
    let bad (i : Instr) (n : FaultName) : Prop := CanTrap s1 → RaisesAt s s1 i { name := n, faddr := va, detail := BitVec.ofNat 64 w }
    let copies (i : Instr) (k : CmdKind) : Prop :=
      (firstBad (copyChecks k r) = none → s1.sidesBad (cmd k) = none → (k ≠ .cpy ∨ disjoint (cmd k)) →
        Issues s i k .ce fun c => c.recA = r ∧ c.rm = cpRm r) ∧
      (firstBad (copyChecks k r) = some w → bad i .copyRec) ∧
      (firstBad (copyChecks k r) = none → s1.sidesBad (cmd k) = some f → CanTrap s1 → RaisesAt s s1 i f)
    let overlap : FaultRec := { name := .copyOverlap, eng := true, src := fsrcWord .ce (s1.core s1.xid.core).ce.cmds.length 0 0 }
    let fs := s.st.recFmt (cpSf r) (recWord r 9)
    let fd := s.st.recFmt (cpDf r) (recWord r 10)
    let x : EngCmd := { cmd .cpyx with fmtA := fs, fmtB := fd, descVa := if fs.isSome && fd.isSome then none else some va }
    let fits := firstBad (copyChecks .cpyx r) = none ∧ firstBad (cpyxChecks r (fs.map Fmt.cw) (fd.map Fmt.cw)) = none ∧ s1.sidesBad x = none
    let mask : Nat := (if me then 1 else 0) + (if ce then 2 else 0) + (if cs then 4 else 0)
    (Record s va 64 s1 r →
      copies (.cpy a) .cpy ∧ copies (.gth a) .gth ∧ copies (.sct a) .sct ∧
      (firstBad (copyChecks .cpy r) = none → s1.sidesBad (cmd .cpy) = none → ¬ disjoint (cmd .cpy) → CanTrap s1 → RaisesAt s s1 (.cpy a) overlap) ∧
      (fits → fs ≠ none → fd ≠ none → (disjoint x → Issues s (.cpyx a) .cpyx .ce fun c => c.recA = r ∧ c.fmtA = fs ∧ c.fmtB = fd) ∧
        (¬ disjoint x → CanTrap s1 → RaisesAt s s1 (.cpyx a) overlap)) ∧
      (fits → (fs = none ∨ fd = none) → IssuesInvalid s (.cpyx a) .cpyx va) ∧
      (firstBad (copyChecks .cpyx r) = some w ∨ (firstBad (copyChecks .cpyx r) = none ∧
        firstBad (cpyxChecks r (fs.map Fmt.cw) (fd.map Fmt.cw)) = some w) → bad (.cpyx a) .copyRec)) ∧
    (Record s va 128 s1 r →
      (firstBad (collChecks r s.cx.collN.toNat) = none → (clSemen r = false ∨ s.semOk (clSem r) = true) →
        Issues s (.coll a) .coll .cs fun c => c.recA = r ∧ c.sem = clSem r) ∧
      (firstBad (collChecks r s.cx.collN.toNat) = none → clSemen r = true → s1.semOk (clSem r) = false → CanTrap s1 →
        RaisesAt s s1 (.coll a) { name := .semRange }) ∧
      (firstBad (collChecks r s.cx.collN.toNat) = some w → bad (.coll a) .coll)) ∧
    (s.cx.det ≠ 2 → Issues s (.qfence me ce cs) .qfence (if me then .me else .ce) fun c => c.n = BitVec.ofNat 15 mask) ∧
    (s.cx.det = 2 → CanTrap s → Raises s (.qfence me ce cs) .detLevel 0 0) ∧
    (va.toNat % 64 ≠ 0 → CanTrap s → Raises s (.cpy a) .recAlign va 0 ∧ Raises s (.cpyx a) .recAlign va 0 ∧ Raises s (.gth a) .recAlign va 0 ∧
      Raises s (.sct a) .recAlign va 0 ∧ Raises s (.coll a) .recAlign va 0) ∧
    (va.toNat % 64 = 0 → s.st.cache = [] → s.xlAccess ⟨s.xid, s.cx.asid.toNat, s.st.priv, .load, .scalar⟩ va 64 = .ok ps →
      s.ownStores s.cur s.st.seq = [] →
      (∀ p ∈ ps, ∃ d b host, s.locate p.loc = inMem d b host ∧ b % 16 + p.len ≤ 16) → (s.core s.cur.core).glc = [] →
      ∃ s', Record s va 64 s' (BitVec.ofNat 1024 (bytesNat (s.readPieces ps))))

/-- ENGINE_QUEUE_ENTRY of an issued command whose stream may act, nothing holding it, room in its queues and its turn come: the command stands last
in each queue that it enters (a QFENCE in each that its mask names) and no other queue changes, with the semaphore bound that holds now; at D0 and
D1 it is behind every command of the other queues that its ranges meet, its bound copy apart; the stream goes on past its instruction, and an
MSTAT's latch is PENDING. An invalid entry of the format table raises FMT_DESC with its record's address, a write into a live frame FRAME_RACE, and
at D2 an overlap that no SEMWAIT parts SET_OVERLAP, two commands that only read common bytes not overlapping (log 73), each fault with the
instruction as its return point (log 26): it enters no queue. A follow-on whose copy has ended in a fault is discarded. A full queue, and a command whose turn it is not, change nothing.
FOLLOW_ON_RELEASE unbinds a head whose copy has left the CE; QFENCE_RELEASE takes the entries of a fence when each stands at its queue's head;
CYCLE_BOUND_EXPIRY stops the queue of a head that has passed its bound with rows left (R25, R26, R37, R46, R152, R204, R214, R222, R228, R229,
R271). -/
def Obligations.EngineQueues : Prop :=
  ∀ (s : State) (c : EngCmd) (k : CoreId) (e : Eng) (h : EngCmd) (f : FaultRec) (va : Word),
    let core := s.core s.cur.core
    let ready := s.canAct s.cur = true ∧ s.side = .execute ∧ (s.st.priv = .u → s.st.pendFaults = []) ∧ s.st.engHold = false ∧
      s.st.engIssue = some c ∧ c.x.core = s.cur.core ∧ core.roomFor c = true ∧ s.entersNow s.cur c = true ∧
      ∀ id, c.bound = some id → id ∉ core.lost
    let enter := exec (.engineQueueEntry s.cur) s
    let barred := c.level = 2 ∧ ∃ y ∈ core.rivals c, core.parted c y = false
    let refused (g : FaultRec) : Prop := ∃ t, enter = .next t ∧
      Entered { s with streams := (s.onSt fun st => { st with engIssue := none }).streams } t g
        s.st.ex.retPoint.1 s.st.ex.retPoint.2.1 s.st.ex.retPoint.2.2
    (core.roomFor c = false ∨ s.entersNow s.cur c = false → s.st.engIssue = some c → s.side = .execute → enter = .next s) ∧
    (ready → c.descVa = none → s.st.cmdRace c = none → ¬ barred →
      ∃ (t : State) (m : EngCmd), enter = .next t ∧ SameBytes s t ∧ t.devs = s.devs ∧ t.ctxs = s.ctxs ∧ t.st.engIssue = none ∧ t.st.status = .running ∧
        t.st.ex = s.st.ex.adv 4 ∧ SameRegs { s.st with l := t.st.l } t.st ∧
        (∀ j, t.st.rl j = if c.kind = .mstat ∧ j = c.latch then { s.st.rl j with st := .pending, due := none } else s.st.rl j) ∧
        (∀ o, ((t.core s.cur.core).queue o).cmds = (core.queue o).cmds ++ (if o ∈ c.engines then [{ m with eng := o }] else [])) ∧
        (m = { c with entry := s.nextId, semBound := s.cx.semb, after := m.after }) ∧ t.nextId = s.nextId + 1 ∧
        (c.level ≠ 2 → ∀ o y, o ≠ c.eng → y ∈ (core.queue o).cmds → (y.id ∈ m.after ↔ c.bound ≠ some y.id ∧ c.conflicts y = true) ∨
          ∃ o' y', y' ∈ (core.queue o').cmds ∧ y' ≠ y ∧ y'.id = y.id)) ∧
    (s.canAct s.cur = true → s.side = .execute → (s.st.priv = .u → s.st.pendFaults = []) → s.st.engHold = false → s.st.engIssue = some c →
      core.roomFor c = true → s.entersNow s.cur c = true → (∃ id, c.bound = some id ∧ id ∈ core.lost) → ∃ t, enter = .next t ∧ SameBytes s t ∧
        t.st.engIssue = none ∧ t.st.status = .running ∧ t.st.ex = s.st.ex.adv 4 ∧ SameRegs s.st t.st ∧
        ∀ o, ((t.core s.cur.core).queue o).cmds = (core.queue o).cmds) ∧
    (ready → CanTrap s → c.descVa = some va → refused { name := .fmtDesc, faddr := va }) ∧
    (ready → CanTrap s → c.descVa = none → s.st.cmdRace c = some f → refused f) ∧
    (ready → CanTrap s → c.descVa = none → s.st.cmdRace c = none → barred → ∃ g, g.name = .setOverlap ∧ g.eng = true ∧ refused g) ∧
    (∀ id, (s.core k).headReady .me = some h → h.bound = some id →
      ((∀ y ∈ (s.core k).ce.cmds, y.id ≠ id) → ∃ t, exec (.followOnRelease k) s = .next t ∧ SameBytes s t ∧
        (t.core k).me.cmds = { h with bound := none } :: (s.core k).me.cmds.drop 1) ∧
      ((∃ y ∈ (s.core k).ce.cmds, y.id = id) → exec (.followOnRelease k) s = .next s)) ∧
    (h.kind = .qfence → h.engines ≠ [] → (∀ o ∈ h.engines, (s.core k).headReady o = some { h with eng := o }) →
      (∀ o y, (s.core k).headReady o = some y → y.kind = .qfence → y.id ≠ h.id →
        ∃ q ∈ y.engines, ∀ z, (s.core k).headReady q = some z → z.id ≠ y.id) →
      ∃ t, exec (.qfenceRelease k) s = .next t ∧ SameBytes s t ∧
        ∀ o, ((t.core k).queue o).cmds = if o ∈ h.engines then ((s.core k).queue o).cmds.drop 1 else ((s.core k).queue o).cmds) ∧
    ((∀ h o, (s.core k).headReady o = some h → h.kind = .qfence → ∃ q ∈ h.engines, ∀ y, (s.core k).headReady q = some y → y.id ≠ h.id) →
      exec (.qfenceRelease k) s = .next s) ∧
    (∀ b t0, (s.core k).headReady e = some h → h.bound1 = some b → b ≠ 0 → h.started = some t0 → t0 + b ≤ (s.dev k.dev).cycle → h.row < h.total →
      h.kind ≠ .coll → h.pageFault = none →
      ∃ t, exec (.cycleBoundExpiry k e) s = .next t ∧ SameBytes s t ∧ ((t.core k).queue e).stop = .restartable)

/-! ### What the engines do -/

/-- When an issued mstat goes into its queue, its stream goes past the instruction with the latch PENDING. When it performs, at the head of its
queue in queue order, byte i of the latch, for i from 0 to 127, is the union of the status bytes of row i over all 192 columns, the latch is FULL,
the command leaves, and no byte of memory changes. Behind another command nothing changes. Its bound is 256 cycles, after which
CYCLE_BOUND_EXPIRY stops it (R214). -/
def Obligations.MstatReadsStatus : Prop :=
  (∀ (s : State) (c : EngCmd), s.canAct s.cur = true → s.side = .execute → (s.st.priv = .u → s.st.pendFaults = []) → s.st.engHold = false →
    s.st.engIssue = some c → c.x.core = s.cur.core → (s.core s.cur.core).roomFor c = true → s.entersNow s.cur c = true → (∀ id, c.bound = some id → id ∉ (s.core s.cur.core).lost) → c.descVa = none →
    s.st.cmdRace c = none → (c.level = 2 → ∀ y ∈ (s.core s.cur.core).rivals c, (s.core s.cur.core).parted c y = true) → c.kind = .mstat →
    ∃ t, exec (.engineQueueEntry s.cur) s = .next t ∧ t.st.ex = s.st.ex.adv 4 ∧ (t.st.rl c.latch).st = .pending) ∧
  ∀ (s : State) (c : CoreId) (h : EngCmd),
    (s.meHead c = some h → h.kind = .mstat → (s.strm h.slot).present = true → ((s.strm h.slot).rl h.latch).st = .pending →
      ∃ t, exec (.mstatPerform c) s = .next t ∧ SameBytes s t ∧ t.devs = s.devs ∧ ((t.strm h.slot).rl h.latch).st = .full ∧
        (t.core c).me.cmds = (s.core c).me.cmds.drop 1 ∧
        (∀ i < 128, elt 8 ((t.strm h.slot).rl h.latch).val i =
          ((List.range 192).map fun j => (xwAt s h.x h.ts i j).2).foldl (· ||| ·) 0)) ∧
    (∀ y r, (s.core c).me.cmds = y :: r → y.kind ≠ .mstat → exec (.mstatPerform c) s = .next s) ∧
    (h.kind = .mstat → h.bound1 = some 256) ∧
    (∀ t0, (s.core c).headReady .me = some h → h.kind = .mstat → h.row = 0 → h.pageFault = none → h.started = some t0 →
      t0 + 256 ≤ (s.dev c.dev).cycle →
      ∃ t, exec (.cycleBoundExpiry c .me) s = .next t ∧ SameBytes s t ∧ (t.core c).me.stop = .restartable)

/-- A burst that runs at home commits its next row in one step: each element of the row takes the sum of its old value, or of 0 with .z, and of the
contributions of its blocks, and the union of the flags, and cr.mrow holds the progress. A block whose scale byte is 0x80 contributes nothing,
and its elements are not read. MLDACC replaces a row's values and status bytes by
those of memory with reserved bits cleared; MZERO clears the values and status bytes of the whole slot. Every other byte of memory reads as
before. After the last row cr.mrow is 0 and the command leaves. The sum of contributions does not depend on their order (R50, R208 to
R213). -/
def Obligations.MatrixRows : Prop :=
  (∀ a b : List XwElem, a.Perm b → a.foldl xwAcc (0, 0) = b.foldl xwAcc (0, 0)) ∧
  ∀ (s : State) (c : CoreId) (h : EngCmd) (fa fb : Fmt) (A : List (List Machine.Num × Byte)) (B : Nat → List (List Machine.Num × Byte)) (bs : List Byte),
    let i := nextRow s h
    let rb : BitVec 1024 := h.recB.setWidth 1024
    let r := recRow0 h.recA + i
    let j := recCol0 rb
    let n := recRows rb
    let w := h.window
    let j' := recCol0 h.recA
    let n' := 32 * recKblk h.recA
    s.Canon →
    (∀ (t : Xl) (at_ : Nat → Word) (k : Nat), s.fetchBlocks h t fa k at_ [0x80] = .ok [(List.replicate k (.fin false 0 0), 0x80)]) ∧
    (s.hosted c = none → s.burstRuns c = some h → (h.kind = .mma ∨ h.kind = .mmas) → h.pageFault = none → s.overdue c h = false →
      (i < recRows h.recA → 0 < n → r < 128 → j + n ≤ 192 → h.fmtA = some fa → h.fmtB = some fb → s.metaCheck h = .ok () →
        s.operandRow h (h.xl .meA .roleA) h.recA fa i w.1 w.2 = .ok A → (∀ k < n, s.colB h rb fb k w.1 w.2 = .ok (B k)) →
        ∃ t, exec (.mmaRowCommit c) s = .next t ∧ OnlyCb s t h.x (inRow h.ts r j n) ∧ Progress t h.x (i + 1) ∧
          ∀ k < n, xwAt t h.x h.ts r (j + k) = xwAcc (if h.z then (0, 0) else xwAt s h.x h.ts r (j + k)) (blockSum A (B k))) ∧
      (recRows h.recA ≤ i → (s.core c).writing h.id = false → ∃ t, exec (.mmaRowCommit c) s = .next t ∧ SameBytes s t ∧
        (t.core c).me.cmds = (s.core c).me.cmds.drop 1 ∧ (t.ctx h.x).mrowValid = false ∧ (t.ctx h.x).mrowRow = 0)) ∧
    (s.meHead c = some h → h.kind = .mldacc → h.pageFault = none → s.overdue c h = false → i < recRows h.recA → 0 < n' → r < 128 → j' + n' ≤ 192 →
      s.engRead (h.xl .meA .none) (recVa h.recA + BitVec.ofInt 64 (i * recRstr h.recA)) (21 * n') h.cache = .ok bs → bs.length = 21 * n' →
      ∃ t, exec (.accRowTransfer c) s = .next t ∧ OnlyCb s t h.x (inRow h.ts r j' n') ∧ Progress t h.x (i + 1) ∧
        ∀ k < n', xwAt t h.x h.ts r (j' + k) =
          (BitVec.ofNat 160 (bytesNat ((bs.drop (20 * k)).take 20)), (bs[20 * n' + k]?.getD 0) &&& 0x0F)) ∧
    (s.meHead c = some h → h.kind = .mzero → ∃ t, exec (.mzeroPerform c) s = .next t ∧
      OnlyCb s t h.x (fun a => h.ts.toNat * 0x80000 ≤ a ∧ a < h.ts.toNat * 0x80000 + 0x7E000) ∧
      (∀ r < 128, ∀ j < 192, xwAt t h.x h.ts r j = (0, 0)) ∧ (t.core c).me.cmds = (s.core c).me.cmds.drop 1)

/-- A running MCVT sends row i of its output: the blocks of the slot's row, read by R52, under the scale that ChooseScale gives with .auto, else
under the record's scale byte or 0; with .auto and a scale address the scale bytes too. The counts and scale bytes of the converted blocks stand in
the row record; the values and status bytes of the slot stay. MSTACC sends the row's values followed by its status bytes. What is sent joins the
core's paths, cr.mrow holds the progress, and no other byte of memory changes (R52 to R58, R210 to R213). -/
def Obligations.ConvertedRows : Prop :=
  ∀ (s : State) (c : CoreId) (h : EngCmd) (f : Fmt) (ss : List Byte) (ps qs : List Piece),
    let i := nextRow s h
    let r := h.recA
    let row := recRow0 r + i
    let kb := recKblk r
    let b0 := recCol0 r / 32
    let va (b : Word) (str : Int) : Word := b + BitVec.ofInt 64 (i * str)
    let vals (k : Nat) : List Machine.Num := (List.range 32).map fun m => xwRead (xwAt s h.x h.ts row (32 * (b0 + k) + m))
    let rec0 := h.ts.toNat * 0x80000 + 0x7E000 + row * 64
    let sc (k : Nat) : Byte := if h.auto then chooseScale (vals k) f.par h.uthr (mget (s.ctx h.x).cbuf (rec0 + b0 + k)) else ss[k]?.getD 0
    let out (k : Nat) : BlockOut := convBlock f.par h.rm (sc k) (vals k)
    let t := h.xl .store .roleOut
    s.Canon →
    (s.burstRuns c = some h → h.kind = .mcvt → h.pageFault = none → s.overdue c h = false → i < recRows r → h.fmtA = some f → row < 128 → b0 + kb ≤ 6 → 0 < kb →
      (h.auto = false → s.scaleRow h t r i 0 kb = .ok ss) → s.engXl t (va (recVa r) (recRstr r)) (kb * 4 * f.cw) = .ok ps →
      (if h.auto && recSva r != 0 then s.engXl t (va (recSva r) (recSstr r)) kb = .ok qs else qs = []) →
      ∃ u, exec (.mcvtRowCommit c) s = .next u ∧ OnlyCb s u h.x (fun a => rec0 ≤ a ∧ a < rec0 + 24) ∧ Progress u h.x (i + 1) ∧
        (u.core c).paths = (s.core c).paths ++ onWay h i ps (contBytes f.cw ((List.range kb).flatMap fun k => (out k).pats)) ++
          onWay h i qs ((List.range kb).map sc) ∧
        ∀ k < kb, mget (u.ctx h.x).cbuf (rec0 + b0 + k) = BitVec.ofNat 8 (out k).uf ∧
          mget (u.ctx h.x).cbuf (rec0 + 8 + b0 + k) = BitVec.ofNat 8 (out k).ls ∧ mget (u.ctx h.x).cbuf (rec0 + 16 + b0 + k) = sc k) ∧
    (s.meHead c = some h → h.kind = .mstacc → h.pageFault = none → s.overdue c h = false → i < recRows r →
      s.engXl (h.xl .ceDst .none) (va (recVa r) (recRstr r)) (21 * (32 * kb)) = .ok ps →
      ∃ u, exec (.accRowTransfer c) s = .next u ∧ SameBytes s u ∧ Progress u h.x (i + 1) ∧
        (u.core c).paths = (s.core c).paths ++ onWay h i ps
          (((List.range (32 * kb)).flatMap fun k => natBytes 20 (xwAt s h.x h.ts row (recCol0 r + k)).1.toNat) ++
            (List.range (32 * kb)).map fun k => (xwAt s h.x h.ts row (recCol0 r + k)).2))

/-- With both sides of row i translating, CE_ROW_MOVE reads the row and sends it towards its destination: cpy its bytes, cpyx its elements converted,
or with TRANS element e to element i of destination row e, a pair of rows of 4-bit elements sharing its bytes; gth and sct use the indices that they fetched first. No
byte of memory changes until what is sent arrives. With no row left and nothing under way the command leaves. EXPAND_UNIT_WRITE sends a unit with its
absent blocks as 0; a unit with fewer present blocks than declared stops the queue for good, and its stream is to take EXPANSION. That its FADDR is
the unit's address is log 66's reading, and how a pair of 4-bit rows shares its bytes log 51's (R218 to R220). -/
def Obligations.CopyRows : Prop :=
  ∀ (s : State) (c : CoreId) (h : EngCmd) (bs bm : List Byte) (ps : List Piece) (pe : Nat → List Piece) (cols : List (List Byte)),
    let r := h.recA
    let i := h.row
    let n := cpBytes r
    let ix : Int := h.idx[i]?.getD 0
    let move := exec (.ceRowMove c) s
    let src (k : Int) : Word := cpSva r + BitVec.ofInt 64 (k * cpSstr r)
    let dst (k : Int) : Word := cpDva r + BitVec.ofInt 64 (k * cpDstr r)
    let ce := h.xl .ceDst .ceDst
    let sends (o : Out) (items : List PathItem) : Prop := ∃ t, o = .next t ∧ SameBytes s t ∧ t.streams = s.streams ∧ t.devs = s.devs ∧
      (t.core c).paths = (s.core c).paths ++ items ∧ ∃ h' rest, (s.core c).ce.cmds = h :: rest ∧ (t.core c).ce.cmds = h' :: rest ∧ h'.row = i + 1
    let rows (a b : Int) (out : List Byte) : Prop := s.srcRow h (src a) n = .ok bs → s.engXl ce (dst b) out.length = .ok ps → sends move (onWay h i ps out)
    s.ceHead c = some h → h.pageFault = none → s.overdue c h = false →
    (i < cpRows r →
      (h.kind = .cpy → cpExpand r = false → h.fmtA = none → cpTrans r = false → bs.length = n → rows i i bs) ∧
      (h.kind = .gth → h.checked = true → h.fmtA = none → cpTrans r = false → bs.length = n → rows ix i bs) ∧
      (h.kind = .sct → h.checked = true → h.fmtA = none → cpTrans r = false → bs.length = n → rows i ix bs) ∧
      (∀ fs fd, h.kind = .cpyx → h.fmtA = some fs → h.fmtB = some fd →
        let elems := (contElems fs.cw (bs.length * 8 / fs.cw) bs).map fun p => (encodeNum fd.par h.rm 0 (decodeNum fs.par p)).1
        (cpTrans r = false → (contBytes fd.cw elems).length = n * fd.cw / fs.cw → rows i i (contBytes fd.cw elems)) ∧
        let byte (k : Nat) : List Byte := [BitVec.ofNat 8 k]
        (cpTrans r = true → s.srcRow h (src i) n = .ok bs → (fd.cw ≠ 4 → cols = elems.map (natBytes (fd.cw / 8))) →
          (fd.cw = 4 → i % 2 = 0 → cols = elems.map byte) →
          (fd.cw = 4 → i % 2 = 1 → ∃ bs0, s.srcRow h (src (i - 1)) n = .ok bs0 ∧
            cols = (((contElems fs.cw (bs0.length * 8 / fs.cw) bs0).map fun p => (encodeNum fd.par h.rm 0 (decodeNum fs.par p)).1).zip elems).map
              fun p => byte (p.1 + 16 * p.2)) →
          (∀ e < cols.length, s.engXl ce (dst e + BitVec.ofNat 64 (if fd.cw = 4 then i / 2 else i * (fd.cw / 8))) (cols[e]?.getD []).length =
            .ok (pe e)) →
          sends move ((List.range cols.length).flatMap fun e => onWay h i (pe e) (cols[e]?.getD []))))) ∧
    (cpRows r ≤ i → (s.core c).writing h.id = false → (h.kind = .cpyx ∨ (h.kind = .cpy ∧ cpExpand r = false)) →
      ∃ t, move = .next t ∧ SameBytes s t ∧ (t.core c).ce.cmds = (s.core c).ce.cmds.drop 1) ∧
    ((h.kind = .gth ∨ h.kind = .sct) → h.checked = false → s.engRead (h.xl .gather .ceSrc) (cpIva r) (4 * cpRows r) = .ok bs →
      bs.length = 4 * cpRows r → s.fetchIdx c h ≠ .bad { name := .copyOverlap } →
      ∃ t h' rest, move = .next t ∧ SameBytes s t ∧ (t.core c).ce.cmds = h' :: rest ∧ h'.checked = true ∧
        ∀ k < cpRows r, h'.idx[k]? = some (BitVec.ofNat 32 (bytesNat ((bs.drop (4 * k)).take 4))).toInt) ∧
    (let k := min 32 (n / 128 - 32 * i)
      let off := (h.idx[i]?.getD 0).toNat
      let m := bytesNat bm % 2 ^ k
      let live := popN k m
      h.kind = .cpy → cpExpand r = true → i < h.total → s.srcRow h (cpSva r + BitVec.ofNat 64 off) 4 = .ok bm →
      (ceilDiv k (2 ^ cpRatio r) ≤ live → 0 < live → s.srcRow h (cpSva r + BitVec.ofNat 64 (off + 4)) (128 * live) = .ok bs →
        s.engXl ce (cpDva r + BitVec.ofNat 64 (4096 * i)) (128 * k) = .ok ps →
        sends (exec (.expandUnitWrite c) s) (onWay h i ps (expandUnit k m bs))) ∧
      (live < ceilDiv k (2 ^ cpRatio r) → ∃ t, exec (.expandUnitWrite c) s = .next t ∧ SameBytes s t ∧ (t.core c).ce.stop = .ended ∧
        ((s.strm h.slot).present = true → s.xidOf h.slot = h.x → ∃ f, (t.strm h.slot).pendFaults = (s.strm h.slot).pendFaults ++ [f] ∧
          f.name = .expansion ∧ f.faddr = cpSva r + BitVec.ofNat 64 off)))

/-- POWER_TOKEN_TAKE moves a token that stands at a core whose burst waits into that core; POWER_TOKEN_PASS moves one that no burst there waits for to
the next core of the ring. A burst commits no row without its core's token. COMMAND_MIGRATION hands an eligible MMA or MMAS
with four commands ahead of it to an idle ME of its quad, and MIGRATED_RESULT_APPLY, once every row is computed and the command stands at its queue's
head, adds one row of the private result into the slot, changing no other byte (R27, R215, R216). -/
def Obligations.TokensAndMigration : Prop :=
  ∀ (s : State) (c target : CoreId) (dev field pos : Nat) (h : EngCmd),
    let ring (u : State) (d f : Nat) : List Nat := ((u.dev d).fieldN f).ring
    (s.burstWaits c = true → c.core ∈ ring s c.dev c.field → ∃ t, exec (.powerTokenTake c) s = .next t ∧ SameBytes s t ∧ t.streams = s.streams ∧
      (t.core c).token = true ∧ ring t c.dev c.field = (ring s c.dev c.field).erase c.core) ∧
    (∀ p, (ring s dev field)[pos]? = some p → s.burstWaits ⟨dev, field % 8, p⟩ = false → ∃ t, exec (.powerTokenPass dev field pos) s = .next t ∧
      SameBytes s t ∧ t.streams = s.streams ∧ t.cores = s.cores ∧ ring t dev field = (ring s dev field).set pos ((p + 1) % 40)) ∧
    (s.hosted c = none → (s.core c).token = false → exec (.mmaRowCommit c) s = .next s ∧ exec (.mcvtRowCommit c) s = .next s) ∧
    (let far (va : Word) : Prop := inWindow va = false
      let rb : BitVec 1024 := h.recB.setWidth 1024
      (s.core c).me.cmds[pos]? = some h → (h.kind = .mma ∨ h.kind = .mmas) → h.level ≠ 2 → h.fo = false → far (recVa h.recA) → far (recSva h.recA) →
      far (recVa rb) → far (recSva rb) → (h.kind = .mmas → far h.sc) → 4 ≤ pos → target.dev = c.dev → target.field = c.field →
      target.core / 4 = c.core / 4 → target ≠ c → (s.core target).me.cmds = [] → s.hosted target = none → (s.core target).token = false →
      (s.core target).fenced = false → h.migrated = none → h.row = 0 → h.restart = false →
      ∃ t, exec (.commandMigration c pos target) s = .next t ∧ SameBytes s t ∧ t.streams = s.streams ∧
        (t.core c).me.cmds[pos]? = some { h with migrated := some target }) ∧
    (let rb : BitVec 1024 := h.recB.setWidth 1024
      let r := recRow0 h.recA + h.row
      let xs := h.partialRows[h.row]?.getD []
      s.Canon → (s.core c).headReady .me = some h → h.migrated.isSome = true → recRows h.recA ≤ h.partialRows.length → h.row < recRows h.recA →
      s.overdue c h = false → xs ≠ [] → r < 128 → recCol0 rb + xs.length ≤ 192 →
      ∃ t, exec (.migratedResultApply c) s = .next t ∧ OnlyCb s t h.x (inRow h.ts r (recCol0 rb) xs.length) ∧
        ∀ k < xs.length, xwAt t h.x h.ts r (recCol0 rb + k) =
          xwAcc (if h.z then (0, 0) else xwAt s h.x h.ts r (recCol0 rb + k)) (xs[k]?.getD (0, 0)))

/-! ### Collectives -/

/-- COLL_TRANSFER_EMIT of the walking collective, the CS having fewer than 64 unacknowledged chunks and its bound not passed: one more chunk is in
flight, for the device that the walk's rank names, found once in a transfer, at the transfer's destination, with the bytes read at its source unless it asks for a GET; the walk goes on. CHUNK_RECEIVE writes a PUT's chunk at its
device, and after the last of its transfer adds 1 to the counter at NVA, writes a returned chunk at the issuer, in the turn of the CS among the
writes to a granule in a cycle (R32), and reads a GET's bytes at its source;
each is then acknowledged, the request returned. That the target is found once and NVA's counter takes one add for each transfer is log 52's reading.
CHUNK_ACK of a chunk
without a fault takes it from the command's unacknowledged ones. COLL_COMPLETE takes a finished collective from its queue and, where SEMEN is set, adds 1
to its semaphore in its turn (R102 to R107). -/
def Obligations.CollectiveChunks : Prop :=
  ∀ (s : State) (c : CoreId) (h : EngCmd) (dev : Nat) (bs : List Byte) (ps : List Piece) (k : Nat) (ch : Chunk),
    let r := h.recA
    let n := h.nextChunk.1
    let off := h.nextChunk.2.1
    let len := min 4096 (clElen r - off)
    let q (u : State) : List EngCmd := (u.core c).cs.cmds
    let acked : Chunk := { ch with kind := .acked, fault := none, bytes := [] }
    ((s.core c).fenced = false → (s.core c).cs.stop = .going → walking (q s) = some h → h.pageFault = none → (s.core c).outstanding < 64 → s.overdue c h = false →
      (∀ i ∈ h.after, (s.core c).holds i = false) →
      (h.nextChunk.2.2 = some dev ∨ (h.nextChunk.2.2 = none ∧ s.collDev h n = .ok dev)) →
      (clKind r ≠ 1 → s.engRead (h.xl .csRead .cs) (clSrc r n + BitVec.ofNat 64 off) len h.cache = .ok bs) →
      (clKind r = 1 → s.engXl (h.xl .csWrite .cs) (BitVec.ofNat 64 ((clDst r n).toNat + off)) len = .ok ps) →
      ∃ t m, exec (.collTransferEmit c) s = .next t ∧ SameBytes s t ∧ t.streams = s.streams ∧ t.devs = s.devs ∧ t.chunks = s.chunks ++ [m] ∧
        m.id = s.nextId ∧ m.cmd = h.id ∧ m.dev = dev ∧ m.dva = (clDst r n).toNat + off ∧ m.bytes = (if clKind r = 1 then [] else bs) ∧
        m.kind = (if clKind r = 1 then .getReq else if clRed r then .contrib else .write) ∧ m.xfer = n ∧ m.off = off ∧
        (∀ y ∈ q t, y.id = h.id → m.id ∈ y.unacked) ∧
        ((h.redo = [] ∧ off + 4096 < clElen r ∧ ∀ y ∈ q s, y.id = h.id → y = h) → ∀ y ∈ q t, y.id = h.id →
          y.chunkOff = off + 4096 ∧ y.xferDev = some dev)) ∧
    (∀ (asid : Nat) (nva : Word), s.notify dev asid 0 = .ok s ∧ (nva ≠ 0 → s.remoteXl dev asid nva.toNat 8 .csWrite = .ok ps →
      s.notify dev asid nva = .ok (s.writePieces (natBytes 8 ((bytesNat (s.readPieces ps) + 1) % 2 ^ 64)) ps))) ∧
    (s.chunks.find? (fun x => x.id == k) = some ch →
      (ch.kind = .write → s.remoteXl ch.dev ch.asid ch.dva ch.bytes.length .csWrite = .ok ps →
        let s1 := s.writePieces ch.bytes ps
        (s1.lastOfTransfer ch = false →
          ∃ t, exec (.chunkReceive k) s = .next t ∧ SameBytes s1 t ∧ t.streams = s.streams ∧ acked ∈ t.chunks) ∧
        ∀ s2, s1.lastOfTransfer ch = true → s1.notify ch.dev ch.asid (clNva ch.recw) = .ok s2 →
          ∃ t, exec (.chunkReceive k) s = .next t ∧ SameBytes s2 t ∧ t.streams = s.streams ∧ acked ∈ t.chunks) ∧
      (ch.kind = .getReq → s.remoteXl ch.dev ch.asid ((clSrc ch.recw ch.xfer).toNat + ch.off) (min 4096 (clElen ch.recw - ch.off)) .csRead = .ok ps →
        ∃ t, exec (.chunkReceive k) s = .next t ∧ SameBytes s t ∧ t.streams = s.streams ∧
          { ch with kind := .ret, bytes := s.readPieces ps } ∈ t.chunks) ∧
      (ch.kind = .ret → s.cmdCore ch.core.dev ch.cmd = some (c, h) →
        s.engXl (h.xl .csWrite .cs) (BitVec.ofNat 64 ch.dva) ch.bytes.length = .ok ps →
        (s.csTurn c h ps = false → exec (.chunkReceive k) s = .next s) ∧
        (s.csTurn c h ps = true → ∃ t, exec (.chunkReceive k) s = .next t ∧ SameBytes (s.writePieces ch.bytes ps) t ∧ t.streams = s.streams ∧
          if clKind ch.recw = 3 then ∀ x ∈ t.chunks, x.id ≠ k else acked ∈ t.chunks))) ∧
    (s.chunks.find? (fun x => x.id == k && x.kind == .acked) = some ch → ch.fault = none → s.cmdCore ch.core.dev ch.cmd = some (c, h) → h.pageFault = none →
      ∃ t, exec (.chunkAck k) s = .next t ∧ SameBytes s t ∧ t.streams = s.streams ∧ t.devs = s.devs ∧ (∀ x ∈ t.chunks, x.id ≠ k) ∧
        ∀ y ∈ q s, y.id = h.id → { y with unacked := y.unacked.erase k } ∈ q t) ∧
    (finishedColl (q s) = some h → clSemen r = false →
      ∃ t, exec (.collComplete c) s = .next t ∧ SameBytes s t ∧ t.streams = s.streams ∧ q t = (q s).filter (fun y => y.id != h.id) ∧ t.ctxs = s.ctxs) ∧
    (finishedColl (q s) = some h → clSemen r = true → s.semTurn h.x h.sem (.sigEngine .cs) = false → exec (.collComplete c) s = .next s) ∧
    (finishedColl (q s) = some h → clSemen r = true → s.semTurn h.x h.sem (.sigEngine .cs) = true → ((s.ctx h.x).sems[h.sem.toNat]'h.sem.isLt).toNat < 65535 →
      ∃ t, exec (.collComplete c) s = .next t ∧ SameBytes s t ∧ t.streams = s.streams ∧ q t = (q s).filter (fun y => y.id != h.id) ∧
        ((t.ctx h.x).sems[h.sem.toNat]'h.sem.isLt).toNat = ((s.ctx h.x).sems[h.sem.toNat]'h.sem.isLt).toNat + 1)

/-- REDUCTION_CONTRIBUTION of a chunk whose destination translates, a slot of its tag and destination being open at the homing field with the same
key: its values enter the slot's sums exactly, it is acknowledged, and no byte of memory changes; with another key the slot ends and each contributor
gets COLL_MISMATCH; a slot that holds all its contributions takes no more. While contributions are missing REDUCTION_RESULT_WRITE changes nothing; with all of them in and no counter to notify, the rounded
chunk is written at the destination, the slot is free, and an ARSUM's results travel back. The sums do not depend on the order of the contributions
(R49, R105, R106). -/
def Obligations.ReductionUnits : Prop :=
  (∀ (x a b : XrElem), xrAcc (xrAcc x a) b = xrAcc (xrAcc x b) a) ∧
  ∀ (s : State) (k dev field slot : Nat) (ch : Chunk) (rs : RedSlot) (ps : List Piece) (g : Chunk) (rest : List Chunk),
    let acked (f : Option FaultRec) : Chunk := { ch with kind := .acked, fault := f, bytes := [] }
    let home := s.homeOf ps
    let room := ∀ m, rs.got.head? = some m → rs.got.length < clContrib m.recw
    (s.chunks.find? (fun x => x.id == k && x.kind == .contrib) = some ch →
      s.remoteXl ch.dev ch.asid ch.dva ch.bytes.length .csWrite = .ok ps →
      (s.dev ch.dev).red.find? (fun p => p.1.1 == home && p.2.tag == clTag ch.recw && p.2.d == ch.dva) = some ((home, slot), rs) →
      ((∃ m, rs.got.head? = some m ∧ clContrib m.recw ≤ rs.got.length) → exec (.reductionContribution k) s = .next s) ∧
      (room → rs.key = redKey ch.recw → ∃ t rs', exec (.reductionContribution k) s = .next t ∧ SameBytes s t ∧ t.streams = s.streams ∧ acked none ∈ t.chunks ∧
        fget? (t.dev ch.dev).red (home, slot) = some rs' ∧ rs'.got.length = rs.got.length + 1 ∧ rs'.sums = xrAdd rs.sums (xrOf ch.recw ch.bytes)) ∧
      (room → rs.key ≠ redKey ch.recw → ∃ t, exec (.reductionContribution k) s = .next t ∧ SameBytes s t ∧ t.streams = s.streams ∧
        acked (some { name := .collMismatch }) ∈ t.chunks ∧ fget? (t.dev ch.dev).red (home, slot) = none ∧
        ∀ m ∈ rs.got, ∃ y ∈ t.chunks, y.cmd = m.cmd ∧ y.kind = .acked ∧ y.fault = some { name := .collMismatch })) ∧
    (fget? (s.dev dev).red (field, slot) = some rs → rs.got.length < clContrib g.recw → rs.got = g :: rest →
      exec (.reductionResultWrite dev field slot) s = .next s) ∧
    (let bs := redRound g.recw rs.sums;
      fget? (s.dev dev).red (field, slot) = some rs → rs.got = g :: rest → clContrib g.recw ≤ rs.got.length → clNva g.recw = 0 →
      s.remoteXl dev rs.asid rs.d bs.length .csWrite = .ok ps →
      ∃ t, exec (.reductionResultWrite dev field slot) s = .next t ∧ SameBytes (s.writePieces bs ps) t ∧ t.streams = s.streams ∧
        fget? (t.dev dev).red (field, slot) = none ∧
        ∀ m ∈ rs.got, clKind m.recw = 3 → ∃ y ∈ t.chunks, y.cmd = m.cmd ∧ y.kind = .ret ∧ y.bytes = bs)

/-! ### The planner -/

/-- qplan reads its aligned record once, at issue, and then the entry of each leaf in a step of its own; the query passing its checks it takes in
its turn the lowest free slot, or with none free the least recently run that is neither pinned nor
running, of two run in one cycle the lower, and writes GEN and INDEX to sD: GEN is 1 in a slot never used, else one more, 1 after 0xFFFFF. With every slot pinned or running
it raises CACHE_FULL, for a failed check what the check names; D = 0 is ILLEGAL_OP. qpin and qunpin set and clear PINNED, qdrop ends the handle and
frees the slot unless the plan runs, qhint, its record and the entries read so, replaces an unpinned plan that does not run; of a pinned plan it
raises PLAN_PINNED, of a reserved hint HINT with its word; qstat stores a 64-byte record. Each of these raises
PLAN_HANDLE for a handle that is not current (R84, R88, R90, R92, R93, R98, R232, R233, R235, R247). -/
def Obligations.PlannerInstructions : Prop :=
  ∀ (s s0 : State) (d a : BitVec 5) (bs : List Byte) (i k : Nat) (p n : Plan) (f : FaultRec) (ps : List Piece) (e : BitVec 512),
    let va := s.rs a
    let h := s.rs d
    let c := s.cx
    let clk := (s.dev s.cur.core.dev).cycle
    let read (k : Nat) : Prop := s.planRec va k 64 = .ok s0 bs
    let plans (q : QRec) (va : Word) (hints : BitVec 512) (k : Nat) : Res Plan :=
      makePlan q va s.st.heldDet hints s.clock (s.placement s.clock) (heldEntries bs k)
    let q : QRec := bytesBv 5632 (bs.take 704)
    let missing (q : QRec) (k : Nat) : Prop := (heldEntries bs k).length < min 8 (qLeaves q)
    let free (j : Nat) : Prop := (c.planSlot j).plan = none
    let takes : Prop := (i < 256 ∧ free i ∧ ∀ j < i, ¬ free j) ∨ (i < 256 ∧ ∃ q, (c.planSlot i).plan = some q ∧ Evictable q ∧
      ∀ j < 256, j ≠ i → ∃ r, (c.planSlot j).plan = some r ∧ (Evictable r → q.stamp < r.stamp ∨ (q.stamp = r.stamp ∧ i < j)))
    let full : Prop := ∀ j < 256, ∃ q, (c.planSlot j).plan = some q ∧ ¬ Evictable q
    let gen (t : State) : Prop := ((t.ctx s.xid).planSlot i).gen = (c.planSlot i).gen
    (d ≠ 0 → s.st.held = none → read 704 → exec (.qplan d a) s = exec (.qplan d a) (holding s0 bs)) ∧
    (d ≠ 0 → s.st.held = some bs →
      (missing q 704 → s.leafEntry s.xid q (heldEntries bs 704).length = .ok e → Takes s (.qplan d a) bs e) ∧
      (missing q 704 → s.leafEntry s.xid q (heldEntries bs 704).length = .bad f → f.name.logOnly = false → CanTrap s →
        RaisesAt s s (.qplan d a) f) ∧
      (¬ missing q 704 →
        (plans q va 0 704 = .ok p → takes → s.planTurn = true →
          ∃ t g, exec (.qplan d a) s = .next t ∧ Cached s t (s.st.ws d (BitVec.ofNat 64 (g * 4096 + i))) i (some { p with stamp := clk }) ∧
            g = (if (c.planSlot i).used = false then (c.planSlot i).gen.toNat else if (c.planSlot i).gen.toNat = 0xFFFFF then 1
              else (c.planSlot i).gen.toNat + 1) ∧
            (t.ctx s.xid).planOf (BitVec.ofNat 64 (g * 4096 + i)) = some (i, { p with stamp := clk })) ∧
        (plans q va 0 704 = .ok p → s.planTurn = false → Waits s (.qplan d a)) ∧
        (plans q va 0 704 = .ok p → full → s.planTurn = true → CanTrap s → Raises s (.qplan d a) .cacheFull 0 0) ∧
        (plans q va 0 704 = .bad f → CanTrap s → f.name = .query ∧ f.faddr = va ∧ RaisesAt s s (.qplan d a) f))) ∧
    (CanTrap s → Raises s (.qplan 0 a) .illegalOp 0 0) ∧
    (d ≠ 0 → s.st.held = none → va.toNat % 64 ≠ 0 → CanTrap s → Raises s (.qplan d a) .recAlign va 0) ∧
    (c.planOf h = some (i, p) →
      (∃ t, exec (.qpin d) s = .next t ∧ Cached s t s.st i (some { p with pinned := true }) ∧ gen t) ∧
      (∃ t, exec (.qunpin d) s = .next t ∧ Cached s t s.st i (some { p with pinned := false }) ∧ gen t) ∧
      (∃ t, exec (.qdrop d) s = .next t ∧ Cached s t s.st i (if p.run.isSome then some { p with current := false } else none) ∧
        (t.ctx s.xid).planOf h = none) ∧
      (s.st.held = none → read 64 → exec (.qhint d a) s = exec (.qhint d a) (holding s0 bs)) ∧
      (s.st.held = some bs →
        let hint : BitVec 512 := bytesBv 512 (bs.take 64)
        (hintBad hint = some k → CanTrap s → Raises s (.qhint d a) .hint va (BitVec.ofNat 64 k)) ∧
        (hintBad hint = none → p.pinned = true → CanTrap s → Raises s (.qhint d a) .planPinned 0 0) ∧
        (hintBad hint = none → p.pinned = false → p.run.isSome = true → Waits s (.qhint d a)) ∧
        (hintBad hint = none → p.pinned = false → p.run = none →
          (missing p.query 64 → s.leafEntry s.xid p.query (heldEntries bs 64).length = .ok e → Takes s (.qhint d a) bs e) ∧
          (¬ missing p.query 64 → plans p.query p.vaQuery hint 64 = .ok n →
            ∃ t, exec (.qhint d a) s = .next t ∧ Cached s t s.st i (some { n with stamp := clk }) ∧ gen t))) ∧
      (read 64 → s0.xlAccess ⟨s.xid, c.asid.toNat, s.st.priv, .store, .scalar⟩ va 64 = .ok ps → s0.st.liveFrame va.toNat 64 = none →
        StoresAt s s0 (.qstat d a) va ps p.status 4 ∧ p.status.length = 64 ∧
        (bytesNat (p.status.take 4)).testBit 31 = p.run.isSome ∧ (bytesNat (p.status.take 4)).testBit 30 = p.pinned)) ∧
    (c.planOf h = none → CanTrap s → ∀ k ∈ ([.qhint d a, .qpin d, .qunpin d, .qdrop d, .qstat d a] : List Instr), Raises s k .planHandle 0 h)

/-- qrun of a current handle reads its 144-byte binding record once, and with it the level in cr.det, at issue. The record without a reserved bit, its
semaphore in range, the stream's earlier accesses performed and its stores
arrived, it reads the entry of each leaf in a step of its own: with the generations as recorded the plan runs, under the issuing stream, that
level and the WGs of the placement that the plan keeps (log 13), and the stream goes on; with
another generation an unpinned plan at D0 or D1 is planned again in its slot, with RUNREPL one more, and runs, and a pinned one, or any at D2, raises
PLAN_INVALID with the handle and the leaf. On a running plan it waits. A bad record raises BIND, and so does a plan that needs a tile
slot where CBRES reserves less than one, that is below 512 KiB (which plans need one: log 13); a handle that is not current raises PLAN_HANDLE (R79, R89, R90, R93, R96, R233, R234, R269). -/
def Obligations.QrunStartsPlans : Prop :=
  ∀ (s s0 : State) (d a : BitVec 5) (bs : List Byte) (i k : Nat) (p n : Plan) (e : BitVec 512),
    let c := s.cx
    let h := s.rs d
    let lv := s.st.heldDet
    let b : BitVec 1152 := bytesBv 1152 (bs.take 144)
    let tiles := (s.launchOf s.xid).elim 0 Launch.cbres
    let leaves := min 8 (qLeaves p.query)
    let es := (heldEntries bs 144).take leaves
    let again := heldEntries bs (144 + 64 * leaves)
    let run (q : Plan) : PlanRun :=
      { id := s.nextId, placed := s.runPlaced s.xid q b, slot := s.cur, asid := c.asid.toNat, level := lv, binding := b, ests := q.ests }
    let runs (q : Plan) : Prop := ∃ t, exec (.qrun d a) s = .next t ∧ ((t.ctx s.xid).planSlot i).gen = (c.planSlot i).gen ∧
      Cached s t s.st.ungate i (some { q with
        run := some (run q), level := lv, stamp := (s.dev s.cur.core.dev).cycle, brkRepl := 0, skipped := 0, brk := none, flags := 0 })
    (c.planOf h = none → CanTrap s → Raises s (.qrun d a) .planHandle 0 h) ∧
    (c.planOf h = some (i, p) → s.st.held = none → s.planRec (s.rs a) 144 16 = .ok s0 bs →
      exec (.qrun d a) s = exec (.qrun d a) (holding s0 bs)) ∧
    (c.planOf h = some (i, p) → s.st.held = some bs →
      (s.bindBad b = some k → CanTrap s → Raises s (.qrun d a) .bind (s.rs a) (BitVec.ofNat 64 k)) ∧
      (s.bindBad b = none → p.needsTile = true → tiles < 512 → CanTrap s → Raises s (.qrun d a) .bind (s.rs a) 0) ∧
      (s.bindBad b = none → (p.needsTile = true → 512 ≤ tiles) → AtJoin s → Arrived s →
        (p.run.isSome = true → Holds s (.qrun d a)) ∧
        (p.run = none →
          ((heldEntries bs 144).length < leaves → s.leafEntry s.xid p.query (heldEntries bs 144).length = .ok e → Takes s (.qrun d a) bs e) ∧
          (leaves ≤ (heldEntries bs 144).length →
            (p.staleLeaf es = none → runs p) ∧
            (p.staleLeaf es = some k → (p.pinned = true ∨ lv = 2) → CanTrap s →
              Raises s (.qrun d a) .planInvalid 0 (BitVec.ofNat 64 (k * 2 ^ 32 + h.toNat))) ∧
            (p.staleLeaf es = some k → p.pinned = false → lv ≠ 2 →
              (again.length < leaves → s.leafEntry s.xid p.query again.length = .ok e → Takes s (.qrun d a) bs e) ∧
              (leaves ≤ again.length → makePlan p.query p.vaQuery lv p.hints s.clock (s.placement s.clock) again = .ok n →
                runs { n with done := p.done, runRepl := min 255 (p.runRepl + 1) }))))))

/-- SHADOW_BANK_ENTRY of a run that may go on enters a command of the next operator, or one that a save has taken out, into the ME queue of each core
where the run places it, all in one cycle; it changes nothing while one of them may take none or a WG stands saved, and at D2 an overlap with another
queue's command ends the run with SET_OVERLAP. Once those commands stand at the heads it evaluates the node and takes them out, the root's apart; at a
break it changes nothing. PLAN_BREAK clears the break and records node, estimates and observed values; it counts a re-plan exactly when the level is not
D2, the plan is unpinned, THR is not 0 and one error max(o/e, e/o) exceeds THR / 16. PLAN_COMPLETE sends the result towards DEST and its scale bytes
through the paths of the first core, no byte of memory changing; it changes nothing while a write is under way, and then, under UPDSTAT, rewrites the
entry, zeroes the reservations that the run used, ends it, frees the slot of a dropped plan and signals SEM. A size that disagrees ends the run with
QUERY_SIZE for its stream, and nothing is written. The commands as the operator's form, its evaluation at the heads and the source ME of a fault are log 13's
reading, the paths log 8's (R79, R87, R89, R91, R248, R269, R284). -/
def Obligations.PlanRuns : Prop :=
  ∀ (s : State) (x : CtxId) (slot k : Nat) (p : Plan) (r : PlanRun) (n : Tensor) (w : DestWrites) (l : List (List Piece × List Byte)) (up : List Piece)
    (y : CtxId) (h : EngCmd) (rest : List (CtxId × EngCmd)),
    let q := p.query
    let m := r.results.length
    let go : Prop := s.runOf x slot = some (p, r) ∧ r.frozen = false ∧ (s.core x.core).fenced = false
    let calm (t : State) : Prop := SameBytes s t ∧ t.streams = s.streams ∧ t.devs = s.devs ∧ ∀ c, (t.core c).paths = (s.core c).paths
    let ws := if r.staged = [] then s.stageOn x p r m else s.unstaged x r
    let here := ws.filterMap (s.wgCtx x)
    let enters : Prop := r.atBreak = false ∧ if r.staged = [] then m ≤ qRoot q ∧ m < qNodes q else s.unstaged x r ≠ []
    let open_ : Prop := here.length = ws.length ∧ ∀ y ∈ here, (s.core y.core).bankOpen = true
    let overlap (y : CtxId) : Option FaultRec := s.setOverlap (s.planCmd x y p r (min m (qRoot q)))
    let plan (t : State) := ((t.ctx x).planSlot slot).plan
    let still (t : State) : Prop := SameBytes s t ∧ t.streams = s.streams ∧ t.devs = s.devs ∧ t.cores = s.cores
    let far (o e : Nat) : Prop := (o = 0 ∧ e = 0 ∧ (s.ctx x).replan.toNat < 16) ∨ (o = 0 ∧ e ≠ 0) ∨ (o ≠ 0 ∧ e = 0) ∨
      (o ≠ 0 ∧ e ≠ 0 ∧ (s.ctx x).replan.toNat * min o e < 16 * max o e)
    let failed (t : State) (g : FaultRec → Prop) : Prop := SameBytes s t ∧ plan t = (plan t).bind (fun z => if z.run = none then some z else none) ∧
      ((s.strm r.slot).present = true → s.xidOf r.slot = x → ∃ f, g f ∧ (t.strm r.slot).pendFaults = (s.strm r.slot).pendFaults ++ [f])
    let size (f : FaultRec) : Prop := f = { name := .querySize, detail := BitVec.ofNat 64 k, eng := true, src := fsrcWord .me 0 0 0 }
    let bank := exec (.shadowBankEntry x slot) s
    let brk := exec (.planBreak x slot) s
    let fin := exec (.planComplete x slot) s
    let d := qDest q
    let sem := recFld r.binding 0 17 6
    let count (t : State) : Nat := ((t.ctx x).sem (BitVec.ofNat 6 sem)).toNat
    let s3 := if qUpd q then (s.statStep x.core up fun e => some (rewriteEntry e (leafFmt (p.entries.getD d 0)) w)).getD s else s
    let turn : Prop := ∀ n ∈ r.sem, s.semTurn x n (.sigPlan slot) = true
    go →
    (enters → open_ → (∀ y ∈ here, overlap y = none) → here.Nodup → (here.map CtxId.core).Nodup →
      ∃ t, bank = .next t ∧ calm t ∧
        plan t = some { p with run := some { r with staged := (r.staged ++ ws).eraseDups, used := (r.used ++ ws).eraseDups } } ∧
        ∀ y ∈ here, ∃ c, (t.core y.core).me.cmds = (s.core y.core).me.cmds ++ [c] ∧ c.kind = .plan ∧ c.xfer = r.id ∧ c.x = y) ∧
    (enters → open_ → (∃ y ∈ here, overlap y ≠ none) → ∃ t, bank = .next t ∧ failed t fun f => f.name = .setOverlap) ∧
    (enters → ¬ open_ → bank = .next s) ∧
    (r.atBreak = false → m < p.steps → s.stagedReady x r = true → s.evalNode x r p m = .ok n →
      ∃ t, bank = .next t ∧ calm t ∧
        plan t = some { p with run := some { r with
          results := r.results ++ [n], atBreak := (qNode q m).breaks, cache := [], staged := if m = qRoot q then r.staged else [] } } ∧
        (m = qRoot q → t.cores = s.cores)) ∧
    ((r.atBreak = true ∨ (r.staged ≠ [] ∧ s.unstaged x r = [] ∧ (p.steps ≤ m ∨ s.stagedReady x r = false))) → bank = .next s) ∧
    (r.atBreak = false → brk = .next s) ∧
    (r.atBreak = true → p.sizeFails r = none → ∃ t o e nr, brk = .next t ∧ still t ∧ (∃ es, nr = { r with atBreak := false, ests := es }) ∧
      e = r.ests.getD (m - 1) (0, 0, 0) ∧ o.1 = (r.results.getD (m - 1) {}).dims.getD (qNode q (m - 1)).ax 1 ∧
      (((r.level ≠ 2 ∧ p.pinned = false ∧ (s.ctx x).replan ≠ 0 ∧ (far o.1 e.1 ∨ far o.2.1 e.2.1 ∨ far o.2.2 e.2.2)) ∧
          plan t = some { p with run := some nr, brk := some (m - 1, e, o), brkRepl := min 255 (p.brkRepl + 1) }) ∨
        (¬ (r.level ≠ 2 ∧ p.pinned = false ∧ (s.ctx x).replan ≠ 0 ∧ (far o.1 e.1 ∨ far o.2.1 e.2.1 ∨ far o.2.2 e.2.2)) ∧
          plan t = some { p with run := some nr, brk := some (m - 1, e, o) }))) ∧
    (r.atBreak = true → p.sizeFails r = some k → ∃ t, brk = .next t ∧ failed t size) ∧
    (r.atBreak = false → (m < p.steps ∨ s.stagedReady x r = false) → fin = .next s) ∧
    (r.atBreak = false → p.steps ≤ m → s.stagedReady x r = true →
      (r.out = none → p.sizeFails r = some k → ∃ t, fin = .next t ∧ failed t size) ∧
      (r.sent = none → (r.out = some w ∨ (r.out = none ∧ p.sizeFails r = none ∧ s.rootWrites x r p = .ok w)) → s.destStrings x p r w = .ok l →
        s.stagedCmds x r = (y, h) :: rest → ∃ t, fin = .next t ∧ SameBytes s t ∧ t.streams = s.streams ∧ t.devs = s.devs ∧
          plan t = some { p with run := some { r with out := some w, sent := some h.id } } ∧
          (t.core y.core).paths = (s.core y.core).paths ++ l.flatMap fun c => onWay h 0 c.1 c.2) ∧
      ∀ id, r.out = some w → r.sent = some id → (∀ c ∈ s.stagedCmds x r, c.2.pageFault = none) →
        (s.destWriting id = true ∨ s.usedSaved x r = true ∨ ¬ turn → fin = .next s) ∧
        (s.destWriting id = false → s.usedSaved x r = false → turn →
          (qUpd q = true → s.engXl ⟨x, r.asid, .u, .planWrite, .none⟩ ((s.ctx x).statVa (qTid q d)) 64 = .ok up) →
          ∃ t, fin = .next t ∧ (∀ v a, mget (t.dev v).mem a = mget (s3.dev v).mem a) ∧
            plan t = (if p.current then some { p with run := none, done := true, skipped := min (2 ^ 32 - 1) w.skipped, flags := w.flags }
              else none) ∧
            (∀ y ∈ r.used.filterMap (s.wgCtx x), ∀ l, s.launchOf y = some l → ∀ a, shareSize (s.exclOf y) .wb - 1024 * l.wbres ≤ a →
              a < shareSize (s.exclOf y) .wb → mget (t.ctx y).wb a = 0) ∧
            (nbit r.binding.toNat 23 = true → count s < 65535 → count t = count s + 1) ∧
            (nbit r.binding.toNat 23 = false → count t = count s)))

/-! ### Statistics, formats and control registers -/

/-- With TID below COUNT and the entry's access translating, statr leaves pending, two cycles later, a write of all lanes of vD: the entry's 64 bytes
at their visibility points, and zeros above. statw, the stream's earlier accesses performed and its stores arrived, writes the entry in one step: word
0 is one more, the words 1 to 10 that MASK names come from vD, the others stay; it then has acquired; an entry that would be VALID and breaks a rule
of R237 raises STAT_ENTRY, and nothing is written. A TID of 4096 or at or beyond COUNT raises STAT_TID. fmtld sets all 16 formats from its record, or
raises FMT_DESC where one is invalid, and REC_ALIGN where the record is misaligned (R42, R86, R87, R237, R238). -/
def Obligations.StatisticsAndFormats : Prop :=
  ∀ (s s1 : State) (d a : BitVec 5) (mask : BitVec 10) (ps : List Piece) (r : BitVec 1024),
    let tid := (s.rs a).toNat
    let va : Word := BitVec.ofNat 64 (s.cx.stbase.toNat * 2 ^ 16 + 64 * tid)
    let held : Prop := tid < s.cx.stcount.toNat ∧ tid < 4096
    let v := s.vreg (d.setWidth 6)
    let xl (e : PermEng) : Xl := ⟨s.xid, s.cx.asid.toNat, s.st.priv, e, .scalar⟩
    let old (k : Nat) : BitVec 32 := BitVec.ofNat 32 (bytesNat (((s.readPieces ps).drop (4 * k)).take 4))
    let word (e : BitVec 512) (k : Nat) : BitVec 32 := e.extractLsb' (32 * k) 32
    let rank (e : BitVec 512) : Nat := ((word e 1).extractLsb' 10 3).toNat
    let fcode (e : BitVec 512) : Nat := ((word e 1).extractLsb' 0 4).toNat
    let refused (e : BitVec 512) : Prop := (word e 1).getLsbD 16 = true ∧ ((word e 1).extractLsb' 17 15 ≠ 0 ∨ (word e 1).extractLsb' 4 6 ≠ 0 ∨
      (∃ k, 11 ≤ k ∧ k < 16 ∧ word e k ≠ 0) ∨ (word e 1).extractLsb' 13 2 = 3 ∨ 6 < fcode e ∨ rank e = 0 ∨ 4 < rank e ∨
      (∃ k, rank e ≤ k ∧ k < 4 ∧ word e (3 + k) ≠ 1) ∨ (fcode e = 0 ∧ nfValid (word e 2) = false) ∨ (fcode e ≠ 0 ∧ word e 2 ≠ 0))
    let merged (e : BitVec 512) : Prop := word e 0 = old 0 + 1 ∧ ∀ k, 1 ≤ k → k < 16 → word e k =
      (if k ≤ 10 ∧ mask.getLsbD (k - 1) = true then (s.st.rv v).extractLsb' (32 * k) 32 else old k)
    (held → s.xlAccess (xl .load) va 64 = .ok ps → s.firstStop ps = none → Usable s [v] → ∃ t x, exec (.statr d a) s = .next t ∧
      (∀ k < 128, elt 8 x k = if k < 64 then (s.readPieces ps).getD k 0 else 0) ∧
      Passed s t (landing s.st (now s + 2) (.v v) x (BitVec.allOnes 128)) 4) ∧
    (held → s.xlAccess (xl .store) va 64 = .ok ps → s.firstStop ps = none → s.st.liveFrame va.toNat 64 = none → Usable s [v] → AtJoin s →
      Arrived s → s.ownPieces s.cur ps = false → ∃ e, merged e ∧
        (¬ refused e → ∃ t, exec (.statw a d mask) s = .next t ∧ SameRegs s.st.ungate t.st ∧ t.st.ex = s.st.ex.adv 4 ∧ t.st.status = .running ∧
          (∀ id, id ≠ s.cur → t.strm id = s.strm id) ∧ (t.core s.cur.core).glc = [] ∧
          SameBytes (s.writePieces ((List.range 64).map fun k => e.extractLsb' (8 * k) 8) ps) t) ∧
        (refused e → CanTrap s → Raises s (.statw a d mask) .statEntry va 0)) ∧
    (¬ held → CanTrap s → Raises s (.statr d a) .statTid 0 0 ∧ Raises s (.statw a d mask) .statTid 0 0) ∧
    (Record s (s.rs a) 64 s1 r →
      ((∀ k < 16, nfValid (r.extractLsb' (32 * k) 32) = true) → ∃ t, exec (.fmtld a) s = .next t ∧ SameBytes s t ∧ t.ctxs = s.ctxs ∧ t.devs = s.devs ∧
        t.st.ex = s.st.ex.adv 4 ∧ t.st.status = .running ∧ SameRegs { s.st with fmt := t.st.fmt } t.st ∧
        (∀ id, id ≠ s.cur → t.strm id = s.strm id) ∧ ∀ k : BitVec 4, t.st.rfmt k = r.extractLsb' (32 * k.toNat) 32) ∧
      ((∃ k < 16, nfValid (r.extractLsb' (32 * k) 32) = false) → CanTrap s → Raises s (.fmtld a) .fmtDesc (s.rs a) 0)) ∧
    ((s.rs a).toNat % 64 ≠ 0 → CanTrap s → Raises s (.fmtld a) .recAlign (s.rs a) 0)

/-- csrr writes an assigned register to sD; csrw, csrs and csrc write sA, old OR sA and old AND NOT sA. A write of a value without a reserved bit to a
register writable at the privilege, one that takes effect at issue and whose own rules hold, completes: the register reads as the value, every other as
before but for cr.ras entries where cr.rassp is written, and every other register and all of memory stay. A write of cr.det or cr.kttop, one of
cr.ctxctl that kills or that skips a stopped queue, waits for its action; a SKIP of a queue that goes on, or of none, has no effect; one of cr.gtcmd
starts its action, for LOAD and JOIN where the table entry translates, and waits while another is in progress. An unassigned number raises ILLEGAL_OP, one of 0x040 or above in U PRIV, a register
with no writable field CR_RO, a reserved bit, csrs or csrc on a write-only field, or a broken rule CR_VALUE. That kttop and
ctxctl wait for an action, that csrs and csrc of cr.det carry the bits to be set and cleared, and that gtcmd goes on at once is log 54's reading (R7, R94, R109, R115, R147, R239, R240). -/
def Obligations.ControlRegisters : Prop :=
  (∀ (s : State) (d : BitVec 5) (n : BitVec 10),
    (csrInfo n.toNat ≠ none → (n.toNat < 0x040 ∨ s.st.priv = .s) → Writes s (.csrr d n) d (s.csrGet n.toNat) 4) ∧
    (csrInfo n.toNat = none → CanTrap s → Raises s (.csrr d n) .illegalOp 0 0) ∧
    (csrInfo n.toNat ≠ none → 0x040 ≤ n.toNat → CanTrap s → Raises s (.csrr d n) .priv 0 0)) ∧
  (∀ s : State, s.csrGet 0x004 = s.cx.det.setWidth 64 ∧ s.csrGet 0x005 = s.st.rrb.setWidth 64 ∧ s.csrGet 0x00A = s.st.uthr.setWidth 64 ∧
    s.csrGet 0x00C = s.st.vcnt ∧ s.csrGet 0x019 = (s.dev s.cur.core.dev).time ∧ s.csrGet 0x104 = s.st.trap.cause ∧
    s.csrGet 0x101 = (s.st.trap.epc ++ 0#1).setWidth 64 ∧ s.csrGet 0x10A = s.cx.asid.setWidth 64 ∧
    (∀ k : BitVec 2, s.csrGet (6 + k.toNat) = (s.st.rlc k).setWidth 64)) ∧
  ∀ (s : State) (a : BitVec 5) (n : BitVec 10) (op : BitVec 2) (i : CsrInfo),
    let x := s.rs a
    let old := s.csrGet n.toNat
    let ins : Instr := if op = 0 then .csrw n a else if op = 1 then .csrs n a else .csrc n a
    let v := if op = 0 then x else if op = 1 then old ||| x else old &&& ~~~x
    let writable := if s.st.priv = .s then i.ws else i.wu
    let open_ : Prop := (n.toNat < 0x040 ∨ s.st.priv = .s) ∧ writable ≠ 0
    let clean : Prop := v.toNat &&& (2 ^ 64 - 1 - i.fld) = 0 ∧ (op = 0 ∨ i.wo = 0)
    let rule : Prop := (n.toNat = 0x019 → old.toNat ≤ v.toNat) ∧ (n.toNat = 0x01A → v.extractLsb' 1 2 ≠ 3) ∧
      (n.toNat = 0x01F → (v.extractLsb' 0 5).toNat ≤ 16)
    let act := (v.extractLsb' 56 4).toNat
    let halted (e : Eng) : Prop := ((s.core s.cur.core).queue e).stop ≠ .going ∨ ∃ h, ((s.core s.cur.core).queue e).cmds.head? = some h ∧ h.ended = true
    let asks (r : CsrReq) : Prop := ∃ t, exec ins s = .next t ∧ t.st.csrReq = r ∧ t.st.status = .waiting ∧ t.st.ex = s.st.ex ∧ Beside s t ∧
      SameRegs s.st t.st
    (csrInfo n.toNat = none → CanTrap s → Raises s ins .illegalOp 0 0) ∧
    (csrInfo n.toNat = some i →
      (0x040 ≤ n.toNat → CanTrap s → Raises s ins .priv 0 0) ∧
      (n.toNat < 0x040 → writable = 0 → CanTrap s → Raises s ins .crRo 0 0) ∧
      (open_ → ¬ clean → (CanTrap s → Raises s ins .crValue 0 0) ∧ exec ins s = s.raise .crValue) ∧
      (open_ → clean → n.toNat ∉ [0x004, 0x041, 0x10C, 0x10E] → (¬ rule → exec ins s = s.raise .crValue) ∧
        (rule → ∃ t, exec ins s = .next t ∧ t.st.ex = s.st.ex.adv 4 ∧ t.st.status = .running ∧ SameBytes s t ∧ t.cores = s.cores ∧
          (∀ id, id ≠ s.cur → t.strm id = s.strm id) ∧ t.st.s = s.st.s ∧ t.st.v = s.st.v ∧ t.st.p = s.st.p ∧ t.st.l = s.st.l ∧
          t.st.fmt = s.st.fmt ∧ t.st.tx = s.st.tx ∧ t.st.tails = s.st.tails ∧ t.st.priv = s.st.priv ∧ t.st.sq = s.st.sq ∧ t.st.pend = s.st.pend ∧
          (∀ m, m ≠ n.toNat → csrInfo m ≠ none → (n.toNat = 0x01F → m < 0x030 ∨ 0x040 ≤ m) → t.csrGet m = s.csrGet m) ∧
          ((n.toNat = 0x01D → (v.extractLsb' 0 13).toNat ≤ 4096) → (n.toNat = 0x01A → v.getLsbD 0 = old.getLsbD 0) →
            (0x030 ≤ n.toNat → n.toNat < 0x040 → n.toNat - 0x030 < s.st.rasCount.toNat) → t.csrGet n.toNat = v))) ∧
      (clean → n.toNat = 0x004 → v ≠ 3 → asks (.det (if op = 0 then 3 else if op = 1 then 0 else x.setWidth 2)
        (if op = 2 ∨ op = 3 then 0 else x.setWidth 2) s.nextId)) ∧
      (s.st.priv = .s → clean → n.toNat = 0x10C → s.cktt.busy = none → s.cktt.refuses act (v.extractLsb' 0 13).toNat s.cx.npa = false →
        asks (if act = 1 then .kttAbsent (v.extractLsb' 0 13).toNat else if act = 2 then .kttPresent (v.extractLsb' 0 13).toNat
          else .kttMigrate (v.extractLsb' 0 13).toNat)) ∧
      (s.st.priv = .s → clean → n.toNat = 0x10E → v.getLsbD 0 = true → asks .kill) ∧
      (∀ e, s.st.priv = .s → clean → n.toNat = 0x10E → v.getLsbD 0 = false → v.getLsbD 1 = true →
        v.extractLsb' 2 2 = (match e with
          | Eng.me => 0
          | .ce => 1
          | .cs => 2) →
        (halted e → asks (.skip e)) ∧
        (¬ halted e → ∃ t, exec ins s = .next t ∧ Passed s t s.st 4)) ∧
      (s.st.priv = .s → clean → n.toNat = 0x10E → v.getLsbD 0 = false → (v.getLsbD 1 = false ∨ v.extractLsb' 2 2 = 3) →
        ∃ t, exec ins s = .next t ∧ Passed s t s.st 4) ∧
      (s.st.priv = .s → clean → n.toNat = 0x041 → (s.dev s.cur.core.dev).gtReq.isSome = true → 1 ≤ (v.extractLsb' 12 4).toNat →
        (v.extractLsb' 12 4).toNat ≤ 4 → Waits s ins) ∧
      (s.st.priv = .s → clean → n.toNat = 0x041 → (s.dev s.cur.core.dev).gtReq = none → 1 ≤ (v.extractLsb' 12 4).toNat → (v.extractLsb' 12 4).toNat ≤ 4 →
        ((v.extractLsb' 12 4).toNat ≤ 2 → ∃ ps, s.xlAccess ⟨s.xid, s.cx.asid.toNat, .u, .load, .scalar⟩
          (BitVec.ofNat 64 ((s.dev s.cur.core.dev).gtbase.toNat * 2 ^ 18 + 64 * (v.extractLsb' 0 12).toNat)) 64 = .ok ps) →
        ∃ t, exec ins s = .next t ∧ t.st.ex = s.st.ex.adv 4 ∧ SameRegs s.st t.st ∧ SameBytes s t ∧ (t.dev s.cur.core.dev).gtReq =
          some { act := (v.extractLsb' 12 4).toNat, dev := (v.extractLsb' 16 11).toNat, group := v.extractLsb' 0 12, asid := s.cx.asid.toNat,
                 launch := s.lidOf s.xid }))

/-! ### Actions that control registers ask for -/

/-- DET_LEVEL_CHANGE waits while a command that the context issued before it is queued or a plan that it started before it runs, and then sets the
level, whatever came later; LEVEL 3 raises CR_VALUE. CONTEXT_SKIP
discards the head command of a queue that stands stopped, its own stop or an ended head, and the queue goes on. CONTEXT_KILL ends the launch: its
contexts are free, its queue is KILLED, at once or, with its descriptor's field out of service, later (R314).
KTT_SET_ABSENT, KTT_SET_PRESENT and KTT_MIGRATE set the state of one entry, for a migration with the new base, watermark 0 and BUSY; they wait while
BUSY, and a refused one raises CR_VALUE and changes nothing. MIGRATE_LINE_COPY writes the line at the watermark to the new base, no other byte, and
advances the watermark; after the last line the entry is present at its new base and BUSY is 0. What counts as earlier for cr.det, and the level that stands at the
change, is log 54's reading; the GLC lines of both places and the last line's step are log 48's (R94, R291, R306, R310, R311). -/
def Obligations.AskedActions : Prop :=
  (∀ (s0 : State) (sl : SlotId) (e : Eng) (h : EngCmd) (q : List EngCmd) (clr set : BitVec 2) (upto lid : Nat) (l : Launch),
    let s := at_ s0 sl
    let v := (s.cx.det &&& ~~~clr) ||| set
    let earlier : Prop := (∃ c ∈ s.cmdList s.xid, c.kind ≠ .plan ∧ c.id < upto) ∨ ∃ r ∈ s.cx.runs, r.id < upto
    let halted : Prop := ((s.core sl.core).queue e).stop ≠ .going ∨ ∃ h, ((s.core sl.core).queue e).cmds.head? = some h ∧ h.ended = true
    let dev (u : State) : Device := u.dev sl.core.dev
    s.canAct sl = true →
    (s.st.csrReq = .det clr set upto → earlier → exec (.detLevelChange sl) s0 = .next s0) ∧
    (s.st.csrReq = .det clr set upto → ¬ earlier →
      (v ≠ 3 → ∃ t, exec (.detLevelChange sl) s0 = .next t ∧ Answered s t ∧ t.devs = s.devs ∧ t.cores = s.cores ∧
        t.ctx s.xid = { s.cx with det := v } ∧ ∀ x, x ≠ s.xid → t.ctx x = s.ctx x) ∧
      (v = 3 → CanTrap s → ∃ t, exec (.detLevelChange sl) s0 = .next t ∧
        Entered s t { name := .crValue } s.st.ex.retPoint.1 s.st.ex.retPoint.2.1 s.st.ex.retPoint.2.2)) ∧
    (s.st.csrReq = .skip e → ((s.core sl.core).queue e).cmds = h :: q → h.x = s.xid → halted →
      ∃ t, exec (.contextSkip sl) s0 = .next t ∧ Answered s t ∧ SameBytes s t ∧ (t.core sl.core).queue e = { cmds := q, stop := .going } ∧
        ∀ o, o ≠ e → (t.core sl.core).queue o = (s.core sl.core).queue o) ∧
    (s.st.csrReq = .skip e → ¬ halted →
      ∃ t, exec (.contextSkip sl) s0 = .next t ∧ Answered s t ∧ t.devs = s.devs ∧ t.cores = s.cores ∧ t.ctxs = s.ctxs) ∧
    (s.Canon → s.st.csrReq = .kill → s.lidOf s.xid = some lid → s.launch? sl.core.dev lid = some l → l.done = false →
      ∃ t, exec (.contextKill sl) s0 = .next t ∧ (∀ p ∈ l.running, (t.ctx p.2).live = none ∧ ∀ id, id.core = p.2.core →
          (s.strm id).present = true → ownerOf id (s.strm id) = p.2.ctx → id.cl < 4 → id.sl < 4 → (t.strm id).present = false) ∧
        (t.launch? sl.core.dev lid).elim False (fun k => k.done = true ∧ k.running = []) ∧
        ((dev s).descServed sl.core.dev l.q = true → (dev s).qdesc l.q + 64 ≤ 2 ^ 40 → (dev t).qstate l.q = 2) ∧
        ((dev s).descServed sl.core.dev l.q = false → (dev t).stops = (dev s).stops ++ [(l.q, l.idx)] ∧ ∀ a, mget (dev t).mem a = mget (dev s).mem a))) ∧
  (∀ (s0 : State) (sl : SlotId) (k act : Nat) (e : KttEntry),
    let s := at_ s0 sl
    let t0 := s.cktt
    let npa := s.cx.kttnpa.toNat * 2 ^ 16
    let ev : Instr := if act = 1 then .kttSetAbsent sl else if act = 2 then .kttSetPresent sl else .kttMigrate sl
    let e' : KttEntry := if act = 1 then { e with state := 0 } else if act = 2 then { e with state := 1 } else { e with state := 2, npa := npa, wmark := 0 }
    1 ≤ act → act ≤ 3 → s.canAct sl = true → s.st.csrReq = (if act = 1 then .kttAbsent k else if act = 2 then .kttPresent k else .kttMigrate k) →
    (t0.busy.isSome = true → exec ev s0 = .next s0) ∧
    (t0.busy = none → t0.entries[k]? = some e → t0.refuses act k npa = false → ∃ t, exec ev s0 = .next t ∧ Answered s t ∧ SameBytes s t ∧
      t.ctxs = s.ctxs ∧ t.cores = s.cores ∧ t.cktt = { entries := t0.entries.set k e', busy := if act = 3 then some k else none }) ∧
    (t0.busy = none → t0.refuses act k npa = true → CanTrap s → ∃ t, exec ev s0 = .next t ∧
      Entered s t { name := .crValue } s.st.ex.retPoint.1 s.st.ex.retPoint.2.1 s.st.ex.retPoint.2.2) ∧
    (t0.entries[k]? = none → t0.refuses act k npa = true) ∧
    (t0.entries[k]? = some e → (act ≤ 2 → (t0.refuses act k npa = true ↔ e.state = 2)) ∧
      (act = 3 → (t0.refuses act k npa = true ↔ e.state ≠ 1 ∨ e.host = true ∨ npa % 2 ^ e.log2 ≠ 0 ∨
        ∃ o ∈ t0.entries, o.host = false ∧ o.pa < npa + 2 ^ e.log2 ∧ npa < o.pa + 2 ^ o.log2)))) ∧
  ∀ (s : State) (dev asid k : Nat) (e : KttEntry),
    let t0 := s.ktt dev asid
    let a := e.pa + 128 * e.wmark
    let b := e.npa + 128 * e.wmark
    s.Canon → a + 128 ≤ 2 ^ 40 → b + 128 ≤ 2 ^ 40 → t0.busy = some k → t0.entries[k]? = some e → (s.dev dev).isProtected a = false → (s.dev dev).isProtected b = false →
    s.placePhys dev a = .devMem dev a → s.placePhys dev b = .devMem dev b →
    ∃ t, exec (.migrateLineCopy dev asid) s = .next t ∧ Stored s t dev b false ((List.range 128).map fun i => byteAt s dev false (a + i)) ∧
      t.streams = s.streams ∧ (∀ c : CoreId, c.dev = dev → fget? (t.core c).glc (a / 128) = none ∧ fget? (t.core c).glc (b / 128) = none) ∧
      (e.wmark + 1 < 2 ^ e.log2 / 128 → t.ktt dev asid = { t0 with entries := t0.entries.set k { e with wmark := e.wmark + 1 } }) ∧
      (2 ^ e.log2 / 128 ≤ e.wmark + 1 → t.ktt dev asid =
        { entries := t0.entries.set k { e with pa := e.npa, npa := 0, wmark := 0, state := 1 }, busy := none })

/-! ### Pending faults, the fault log, and saving -/

/-- TRAP_ENTRY of a stream in U delivers the first pending fault of its own, else of the ME, the CE, the CS; in S it changes nothing; a fault of a
halted stream goes to the lowest main stream that has not halted, as a fault of the WG, or revives c0 (the model's reading: log 24). FAULT_LOG_RECORD
writes the oldest record into the ring, or counts it as lost in a full ring, and interrupts; with LOG2N outside 4 to 16 it is lost without interrupt
(log 25). A stream asked to stop, at a pre-emption point, goes to its stub with its queues, or is saved by hardware, as is one that waits in an
instruction that a request cuts, or at or right after a join point that has not performed: that one is given up, to be executed anew. A store behind a
join point takes effect first; where a fault of the access side keeps it from that, the fault is taken (log 7). psave in a stub before its psave saves
the stream once it has settled; it resumes after it, with what it omits reading 0. prest in a resumed stub goes back to the place left, with the
operand queues and nothing omitted. Elsewhere these raise PSAVE_STATE and PREST_STATE (R134, R174, R242, R243, R293 to R296). -/
def Obligations.TrapsAndDiversions : Prop :=
  (∀ (s0 : State) (sl : SlotId) (f : FaultRec) (p q : List FaultRec) (a : Word),
    let s := at_ s0 sl
    let rank (g : FaultRec) : Nat := if g.eng = true then (g.src.extractLsb' 30 2).toNat else 0
    let c0 : SlotId := ⟨sl.core, 0, s.xid.ctx⟩
    let g : FaultRec := { f with wg := true, origin := some (f.origin.getD (locWord sl s.xid.ctx)) }
    let trap := exec (.trapEntry sl) s0
    let u : Stream := if s.st.joinPending then { s.st with engIssue := none } else s.st
    let given := s.setSt u.unissue.stow
    let divert := exec (.preemptDiversion sl) s0
    let cut : Prop := s.st.status = .waiting ∧ (s.st.wait.cut = true ∨ s.st.joinPending = true) ∨ s.st.unperformed ≠ none
    let asked : Prop := s.canAct sl = true ∧ (s.ctx s.xid).preempt = true ∧ s.st.priv = .u ∧ s.st.stub = .none ∧ s.st.pendFaults = [] ∧
      (s.st.joinPending = false → s.st.engIssue = none) ∧ s.st.csrReq = .none
    (s.st.pendFaults = p ++ f :: q → (∀ g ∈ p, rank f < rank g) → (∀ g ∈ q, rank f ≤ rank g) → f.name.logOnly = false →
      (s.st.priv = .s → trap = .next s0) ∧
      (s.canAct sl = true → CanTrap s → ∃ t, trap = .next t ∧ t.st.pendFaults = p ++ q ∧ t.st.engIssue = none ∧
        Entered s t f s.st.ex.retPoint.1 s.st.ex.retPoint.2.1 s.st.ex.retPoint.2.2) ∧
      ((s.core sl.core).fenced = false → s.st.status = .halted → s.st.priv = .u →
        (∀ id, s.liveMain s.xid = some id → ∃ t, trap = .next t ∧ (t.strm id).pendFaults = (s.strm id).pendFaults ++ [g] ∧
          (t.strm sl).pendFaults = p ++ q ∧ SameBytes s t) ∧
        (s.liveMain s.xid = none → (s.strm c0).priv = .u → s.xid.ctx < 2 → (∃ l r, s.launchOf s.xid = some l ∧ l.svbase = some r) →
          ∃ t, trap = .next t ∧ (t.strm c0).priv = .s ∧ (t.strm c0).revived = true ∧ (t.strm c0).status = .running ∧ SameBytes s t))) ∧
    (asked → (s.diverts sl = true ∨ cut) → s.st.storeBehind = true →
      (s.st.acc.headFaulted = false → divert = .next s0) ∧
      (∀ n h, s.st.acc.headFaulted = true → s.st.acc.fault = some (n, h) → h.name.logOnly = false → CanTrap s → ∃ t, divert = .next t ∧
        Entered s t h s.st.ex.retPoint.1 s.st.ex.retPoint.2.1 s.st.ex.retPoint.2.2)) ∧
    (asked → s.diverts sl = true → s.stubOf sl = some a → s.st.storeBehind = false → ∃ t, divert = .next t ∧ t.st.stub = .before ∧
      t.st.ex = { pc := a, hdr := a, fin := a, rem := 1 } ∧ t.st.divert = s.st.ex ∧ t.st.pend = [] ∧ t.st.acc.qs = s.st.acc.qs ∧ t.st.s = s.st.s ∧
      t.st.status = .running ∧ Beside s t) ∧
    (asked → (s.diverts sl = true ∧ s.stubOf sl = none ∨ s.diverts sl = false ∧ cut) → s.st.storeBehind = false →
      (given.settled sl = true → ∃ t, divert = .next t ∧ t.st.status = .saved ∧ t.st.s = s.st.s ∧ Beside s t ∧
          (s.st.unperformed = none ∨ s.st.gated = true → t.st.ex = s.st.ex) ∧
          ∀ q c op, s.st.gated = false → s.st.unperformed = some (q, c, op) → t.st.ex = c ∧ t.st.seq = q) ∧
      (given.settled sl = false → ∃ t, divert = .next t ∧ t.st = u ∧ Beside s t)) ∧
    ((s.ctx s.xid).preempt = false → divert = .next s0)) ∧
  (∀ (s : State) (m : BitVec 4) (o : Bool),
    let powered : Prop := ∀ b < 4, m.getLsbD b = true → b < s.vbanks
    (s.st.priv = .u → s.st.stub = .before → powered → s.settled s.cur = true →
      ∃ t, exec (.psave m o) s = .next t ∧ t.st.status = .saved ∧ t.st.stub = .resumed ∧ t.st.ex = s.st.ex.adv 4 ∧ t.st.omitv = m ∧ t.st.omits = o ∧
        t.st.s = (if o then Vector.replicate 32 0 else s.st.s) ∧ (∀ n : BitVec 6, m.getLsbD (n.toNat / 16) = true → t.st.rv n = 0) ∧
        (s.st.pend = [] → ∀ n : BitVec 6, m.getLsbD (n.toNat / 16) = false → t.st.rv n = s.st.rv n) ∧ Beside s t) ∧
    (s.st.priv = .u → s.st.stub = .before → powered → s.settled s.cur = false →
      (s.st.sq = [] ∨ s.st.acc.late = [] ∧ s.st.acc.headFaulted = false → ∃ t, exec (.psave m o) s = .next t ∧ t.st.status = .waiting ∧
        t.st.ex = s.st.ex ∧ SameRegs s.st t.st ∧ Beside s t) ∧
      (∀ n h, s.st.sq ≠ [] → s.st.acc.headFaulted = true → s.st.acc.fault = some (n, h) → h.name.logOnly = false → CanTrap s →
        ∃ t, exec (.psave m o) s = .next t ∧ Entered s t h s.st.ex.retPoint.1 s.st.ex.retPoint.2.1 s.st.ex.retPoint.2.2)) ∧
    (¬ powered → CanTrap s → Raises s (.psave m o) .illegalOp 0 0) ∧
    (powered → s.st.stub ≠ .before → CanTrap s → Raises s (.psave m o) .psaveState 0 0) ∧
    (s.st.priv = .u → s.st.stub = .resumed → s.st.acc.late = [] → s.st.acc.lq = [] → ∃ t, exec .prest s = .next t ∧ t.st.ex = s.st.divert ∧
      t.st.stub = .none ∧ t.st.status = .running ∧ t.st.s = s.st.s ∧ t.st.acc.qs = s.st.acc.qs ∧ t.st.omitv = 0 ∧ t.st.omits = false ∧ Beside s t) ∧
    (s.st.stub ≠ .resumed → CanTrap s → Raises s .prest .prestState 0 0)) ∧
  ∀ (s : State) (dev : Nat) (r : LogRec) (rest : List LogRec),
    let d := s.dev dev
    let n := 2 ^ d.fllog2n.toNat
    let at_ := d.flbase.toNat * 64 + 64 * (d.flwptr.toNat % n)
    let log := exec (.faultLogRecord dev) s
    s.Canon → d.logQueue = r :: rest →
    (4 ≤ d.fllog2n.toNat → d.fllog2n.toNat ≤ 16 → s.cpStop dev [(at_, 64)] = none → ((d.flwptr - d.flrptr).toNat ≠ n → ∃ t, log = .next t ∧ Elsewhere { s with devs := t.devs } t ∧
        (t.dev dev).logQueue = rest ∧ (t.dev dev).flwptr = d.flwptr + 1 ∧ (t.dev dev).msix = d.msix ++ [d.flvec.toNat] ∧
        (∀ k w, (k, w) ∈ [(0, r.cause), (8, r.epc), (16, r.faddr), (24, r.fdet), (32, r.fsrc.setWidth 64), (40, r.time), (48, 0), (56, 0)] →
          (t.dev dev).pnat (at_ + k) 8 = w.toNat) ∧
        ∀ a, (a < at_ ∨ at_ + 64 ≤ a) → mget (t.dev dev).mem a = mget d.mem a) ∧
      ((d.flwptr - d.flrptr).toNat = n → ∃ t, log = .next t ∧ Elsewhere s t ∧ (t.dev dev).logQueue = rest ∧ (t.dev dev).flwptr = d.flwptr ∧
        (t.dev dev).fllost.toNat = min (2 ^ 32 - 1) (d.fllost.toNat + 1) ∧ (t.dev dev).msix = d.msix ++ [d.flvec.toNat])) ∧
    ((d.fllog2n.toNat < 4 ∨ 16 < d.fllog2n.toNat) → ∃ t, log = .next t ∧ Elsewhere s t ∧ (t.dev dev).logQueue = rest ∧ (t.dev dev).msix = d.msix)

/-- CONTEXT_SAVE of a context that is to stop, every stream and engine of it and of those saved with it being still: the image goes to the lowest free
slot, beginning with MAGIC and VERSION, the context, its slots and its commands are freed, those of its plans on every core, and its launch keeps the WG as saved; with no free slot
or something not still nothing changes. CONTEXT_RESTORE onto the context that the rules choose, the image passing every check: the context is live with
the image's semaphores, level and registers, the slot is free, and the WG runs; a cooperative launch's WG
goes back only when all have been saved. An image that fails a check kills its launch and frees the slot (R16,
R224, R296 to R303). -/
def Obligations.SaveAndRestore : Prop :=
  (∀ (s : State) (x : CtxId) (lid wg i : Nat) (l : Launch),
    let d := s.dev x.core.dev
    let still : Prop := ∀ y ∈ s.savedWith x, (s.ctx y).preempt = true ∧ s.stilled y = true ∧ s.enginesStill y = true
    let free (j : Nat) : Prop := j < d.savenum.toNat ∧ fget? d.images j = none
    let save := exec (.contextSave x) s
    let img := s.contextImage x
    (s.ctx x).live = some (lid, wg) →
    ((∀ j, ¬ free j) → save = .next s) ∧
    (¬ ((s.ctx x).preempt = true ∧ still) → save = .next s) ∧
    (s.Canon → free i → (∀ j < i, ¬ free j) → (s.ctx x).preempt = true → still → s.launch? x.core.dev lid = some l →
      s.cpStop x.core.dev [(d.imageAt i, img.length)] = none → ∃ t, save = .next t ∧
      (t.ctx x).live = none ∧ (t.ctx x).wb = [] ∧ (∀ y, y ≠ x → t.ctx y = s.ctx y) ∧
      (∀ id, id.core = x.core → id.cl < 4 → id.sl < 4 → (s.strm id).present = true →
        if ownerOf id (s.strm id) = x.ctx then (t.strm id).present = false else t.strm id = s.strm id) ∧
      (∀ e, ((t.core x.core).queue e).cmds = ((s.core x.core).queue e).cmds.filter fun c => decide (c.x ≠ x) && (e != .me || !(s.ctx x).runsCmd c)) ∧
      (∀ c, c ≠ x.core → (t.core c).me.cmds = (s.core c).me.cmds.filter fun h => !(s.ctx x).runsCmd h) ∧
      (∃ r, fget? (t.dev x.core.dev).images i = some r ∧ r.launch = lid ∧ r.wgid = wg ∧ r.x = x) ∧
      (t.dev x.core.dev).pnat (d.savebase.toNat * 2 ^ 24 + i * 2 ^ 24) 4 = 0x58385356 ∧
      (t.dev x.core.dev).pnat (d.savebase.toNat * 2 ^ 24 + i * 2 ^ 24 + 4) 4 = 1 ∧
      (t.dev x.core.dev).pread (d.imageAt i) img.length = img ∧
      (t.launch? x.core.dev lid).elim False fun k => fget? k.timers wg = none ∧ (wg, i) ∈ k.savedWgs ∧ (k.running = l.running.filter fun p => p.1 ≠ wg) ∧ (k.running = [] → k.resuming = true))) ∧
  ∀ (s : State) (dev slot : Nat) (x : CtxId) (i : ImageSlot) (l : Launch) (img : Image),
    let restore := exec (.contextRestore dev slot x) s
    let check := (s.dev dev).checkImage ((s.dev dev).savebase.toNat * 2 ^ 24 + slot * 2 ^ 24) l.asid l.excl
    fget? (s.dev dev).images slot = some i → s.launch? dev i.launch = some l →
    s.cpStop dev [((s.dev dev).imageAt slot, min imageSpan ((s.dev dev).pnat ((s.dev dev).imageAt slot + 16) 8))] = none →
    (s.restoreTo dev l i ≠ some x → restore = .next s) ∧ (l.coop = true → l.resuming = false → restore = .next s) ∧
    (s.restoreTo dev l i = some x → check = some img → ∃ t, restore = .next t ∧ (t.ctx x).live = some (i.launch, i.wgid) ∧
      (t.ctx x).preempt = (l.coop && s.stopping l) ∧ (∀ y, y ≠ x → t.ctx y = s.ctx y) ∧ fget? (t.dev dev).images slot = none ∧
      (t.ctx x).det.toNat = bytesNat ((img.context.drop 0x88).take 8) % 4 ∧
      (∀ n : BitVec 6, ((t.ctx x).sems[n.toNat]'n.isLt).toNat = bytesNat ((img.context.drop (2 * n.toNat)).take 2) % 2 ^ 16) ∧
      (t.launch? dev i.launch).elim False fun k => k.running = l.running ++ [(i.wgid, x)] ∧ fget? k.timers i.wgid = some ((s.dev dev).time, none) ∧ ∀ p ∈ k.savedWgs, p.1 ≠ i.wgid) ∧
    (s.restoreTo dev l i = some x → check = none → ∃ t, restore = .next t ∧ fget? (t.dev dev).images slot = none ∧
      (t.launch? dev i.launch).elim False fun k => k.done = true)

/-! ### Blocks, release-caller, and work groups -/

/-- BLOCK_ENTRY outside lock step enters the body with REP or lcLCN passes, skips a block with none, waits at a sync header in U, and raises
ILLEGAL_OP or EXEC_LIMIT with the header's address; in lock step all main streams that have not halted enter together, or none, and lock step goes on
while each header has SYNC; a header that stops its stream stops all. PASS_START begins the next pass. SYNC_REJOIN forms lock step when all stand at
sync headers. relc waits behind its earlier accesses, then reads the frame header; with a legal frame, its stores being visible, and a free tail slot it
starts the tail at the header after the block with the stream's registers, adds 1 to TCNT, and goes on at the return address with s29 := CFP and s30 at
least FB + FSIZE; without a slot it stores the hand-back set, and once that is visible marks the return deferred and goes on at the header after the
block, whatever passes are left. Four table entries raise TAIL_DEPTH, an empty RAS RAS_EMPTY or RAS_UND, a bad header FRAME_HDR (R22, R35, R118 to
R121, R149 to R151). -/
def Obligations.BlocksAndRelease : Prop :=
  (∀ (s0 s1 : State) (sl : SlotId) (h : BitVec 32) (hs : List (SlotId × BitVec 32)) (i : SlotId),
    let s := at_ s0 sl
    let hdr := s.st.ex.hdr
    let x := s.xid
    let free := 2 ≤ sl.sl ∨ s.st.priv = .s ∨ s.st.stub ≠ .none
    let enter := exec (.blockEntry sl) s0
    let len (h : BitVec 32) : Nat := (h.extractLsb' 0 9).toNat
    let bad : Prop := len h = 0 ∨ h.extractLsb' 21 6 ≠ 0 ∨ (h.getLsbD 30 = false ∧ h.extractLsb' 28 2 ≠ 0) ∨
      (h.getLsbD 30 = true ∧ h.extractLsb' 9 12 ≠ 0)
    let passes (st : Stream) (h : BitVec 32) : Nat := if h.getLsbD 30 = true then (st.rlc (h.extractLsb' 28 2)).toNat else (h.extractLsb' 9 12).toNat
    let fin (st : Stream) (h : BitVec 32) : Word := st.ex.hdr + BitVec.ofNat 64 (4 + 2 * len h)
    let inside (st : Stream) (h : BitVec 32) (c : Cursor) : Prop := if passes st h = 0 then c = { pc := fin st h, hdr := fin st h, fin := fin st h, rem := 1 }
      else c.pc = st.ex.hdr + 4 ∧ c.hdr = st.ex.hdr ∧ c.fin = fin st h ∧ c.rem.toNat = passes st h
    let base := (ofHiBits s.cx.codebase).toNat
    let lim := (ofHiBits s.cx.codelim).toNat
    let range : Prop := s.st.priv = .u → base ≤ hdr.toNat ∧ hdr.toNat + 4 ≤ lim
    let acts : Prop := s.canAct sl = true ∧ s.st.ex.pc = hdr ∧ s.diverts sl = false ∧ (s.st.priv = .u → s.st.pendFaults = [])
    let group := s.stepGroup x
    (acts → (free ∨ s.cx.lockstep = false) → (¬ range → CanTrap s → ∃ t, enter = .next t ∧
        Entered s t { name := .execLimit, faddr := hdr } s.st.ex.retPoint.1 s.st.ex.retPoint.2.1 s.st.ex.retPoint.2.2) ∧
      (range → s.fetchWord sl hdr.toNat = .ok s1 h →
        (bad → CanTrap s → ∃ t, enter = .next t ∧
          Entered s t { name := .illegalOp, faddr := hdr } s.st.ex.retPoint.1 s.st.ex.retPoint.2.1 s.st.ex.retPoint.2.2) ∧
        (¬ bad → lim < hdr.toNat + 4 + 2 * len h → CanTrap s → ∃ t, enter = .next t ∧
          Entered s t { name := .execLimit, faddr := hdr } s.st.ex.retPoint.1 s.st.ex.retPoint.2.1 s.st.ex.retPoint.2.2) ∧
        (¬ bad → (s.st.priv = .u → hdr.toNat + 4 + 2 * len h ≤ lim) →
          (¬ free → h.getLsbD 31 = true → ∃ t, enter = .next t ∧ t.st.status = .waiting ∧ t.st.wait = .sync ∧ t.st.ex = s.st.ex ∧ SameBytes s t) ∧
          (free ∨ h.getLsbD 31 = false → ∃ t, enter = .next t ∧ inside s.st h t.st.ex ∧ t.st.status = .running ∧ t.st.s = s.st.s ∧ t.st.pend = [] ∧
            SameBytes s t ∧ t.devs = s.devs ∧ t.ctxs = s.ctxs ∧ ∀ id, id ≠ sl → t.strm id = s.strm id)))) ∧
    (acts → ¬ free → s.cx.lockstep = true → ((∃ id ∈ group, s.atStart id = false) → enter = .next s0) ∧
      (∀ f, (∀ id ∈ group, s.atStart id = true) → s.groupHeaders group = (.bad f, i) → f.name.logOnly = false →
        (∃ l r, s.launchOf (s.xidOf i) = some l ∧ l.svbase = some r) → ∃ t, enter = .next t ∧ (t.strm i).priv = .s ∧
          (t.strm i).trap.epc = hiBits (s.strm i).ex.retPoint.1 ∧ SameBytes s t ∧ ∀ id, id ≠ i → t.strm id = s.strm id) ∧
      ((∀ id ∈ group, s.atStart id = true) → s.groupHeaders group = (.ok s1 hs, i) → ∃ t, enter = .next t ∧ SameBytes s t ∧
        (∀ p ∈ hs, inside (s.strm p.1) p.2 (t.strm p.1).ex) ∧ ((t.ctx x).lockstep = true ↔ ∀ p ∈ hs, p.2.getLsbD 31 = true))) ∧
    (s.canAct sl = true → s.st.ex.pc ≠ hdr → s.st.ex.pc = s.st.ex.fin → s.diverts sl = false → (s.st.priv = .u → s.st.pendFaults = []) →
      ∃ t, exec (.passStart sl) s0 = .next t ∧ t.st.ex = { s.st.ex with pc := hdr + 4, rem := s.st.ex.rem - 1 } ∧ t.st.s = s.st.s ∧ t.st.pend = [] ∧
        Beside s t)) ∧
  (∀ (s s1 : State) (x : CtxId) (hs : List (SlotId × BitVec 32)) (i : SlotId),
    let group := s.stepGroup x
    ((∃ id ∈ group, s.atStart id = false) → exec (.syncRejoin x) s = .next s) ∧
    ((s.ctx x).lockstep = false → group ≠ [] → (∀ id ∈ group, s.atStart id = true ∧ s.canAct id = true) → s.groupHeaders group = (.ok s1 hs, i) →
      (∀ p ∈ hs, p.2.getLsbD 31 = true) → ∃ t, exec (.syncRejoin x) s = .next t ∧ (t.ctx x).lockstep = true ∧ SameBytes s t ∧
        ∀ p ∈ hs, (t.strm p.1).status = .running)) ∧
  ∀ (s s1 s2 : State) (bs : List Byte) (tl old : Nat) (ps : List Piece),
    let first : Prop := s.st.wait ≠ .handBack ∧ s.st.tails.length < 4 ∧ s.st.rasCount ≠ 0
    let fb := s.rs 29
    let n := s.st.rasCount.toNat
    let depth := s.st.rasSpill.toNat + n
    let cfp := bytesNat (bs.take 8)
    let fsize := bytesNat ((bs.drop 16).take 8)
    let legal : Prop := fb.toNat % 64 = 0 ∧ fsize % 64 = 0 ∧ 1280 ≤ fsize ∧ bytesNat ((bs.drop 12).take 4) = 0 ∧ cfp < 2 ^ 57
    let fe := fb + BitVec.ofNat 64 fsize
    let s30 := if (s.rs 30).toNat < fe.toNat then fe else s.rs 30
    let tid : SlotId := ⟨s.cur.core, s.cur.cl, tl⟩
    let held := s1.onSt fun st => { st with held := some bs }
    (s.st.wait ≠ .handBack → 4 ≤ s.st.tails.length → CanTrap s → Raises s .relc .tailDepth 0 0) ∧
    (s.st.wait ≠ .handBack → s.st.tails.length < 4 → n = 0 → CanTrap s → (s.st.rasSpill = 0 → Raises s .relc .rasEmpty 0 0) ∧
      (s.st.rasSpill ≠ 0 → Raises s .relc .rasUnd 0 (BitVec.ofNat 64 depth))) ∧
    (first → s.st.acc.late = [] → s.st.acc.headFaulted = false → s.st.atHeads = false → Holds s .relc) ∧
    (first → n ≤ 16 → AtJoin s → s.st.held = none → s.recRead .load fb 64 = .ok s1 bs →
      (¬ legal → CanTrap s → Raises s .relc .frameHdr 0 0) ∧
      (legal → Arrived s → (∀ l, (s.st.rl l).st ≠ .pending) → s.st.status ≠ .free →
        (s.freeTail s.cur.core s.cur.cl = some tl → held.addTcnt fb 1 = .ok s2 old → ∃ t, exec .relc s = .next t ∧ SameBytes s2 t ∧
          t.st.ex = { pc := ofHiBits (s.st.getRas (n - 1)).raddr, hdr := ofHiBits (s.st.getRas (n - 1)).raddr,
                      fin := ofHiBits (s.st.getRas (n - 1)).raddr, rem := 1 } ∧ t.st.status = .running ∧
          SameRegs { ((s.st.ungate.ws 29 (BitVec.ofNat 64 cfp)).ws 30 s30) with
            rasCount := s.st.rasCount - 1, tails := s.st.tails ++ [.live fb fe (depth - 1) tl]
            acc := { s.st.ungate.acc with qs := Vector.replicate 4 [] } } t.st ∧
          (let u := t.strm tid; u.status = .running ∧ u.owner = s.xid.ctx ∧ u.spawner = some (s.cur.sl, fb) ∧ u.s = s.st.s ∧ u.v = s.st.v ∧ u.p = s.st.p ∧
            u.l = s.st.l ∧ u.lc = s.st.lc ∧ u.rrb = s.st.rrb ∧ u.fmt = s.st.fmt ∧ u.tx = s.st.tx ∧ u.rasCount = 0 ∧ u.rasSpill = 0 ∧ u.tails = [] ∧ u.acc.qs = Vector.replicate 4 [] ∧
            u.ex = { pc := s.st.ex.fin, hdr := s.st.ex.fin, fin := s.st.ex.fin, rem := 1 }) ∧
          ∀ id, id ≠ s.cur → id ≠ tid → t.strm id = s.strm id) ∧
        (s.freeTail s.cur.core s.cur.cl = none → s.xlAccess ⟨s.xid, s.cx.asid.toNat, s.st.priv, .store, .scalar⟩ (fb + 0x40) 1216 = .ok ps →
          ∃ t, exec .relc s = .next t ∧ SameBytes s t ∧ t.st.status = .waiting ∧ t.st.wait = .handBack ∧ t.st.ex = s.st.ex ∧ t.st.s = s.st.s ∧
            t.st.pend = [] ∧ (t.core s.cur.core).paths = (s.core s.cur.core).paths ++ storePaths s.cur s.xid s.st.seq
              (ps.map fun p => (p, ((handBack s.st.landAll (BitVec.ofNat 64 cfp) s30).drop p.at_).take p.len)) ∧
            ∀ id, id ≠ s.cur → t.strm id = s.strm id))) ∧
    (s.st.wait = .handBack → 0 < n → n ≤ 16 →
      (s.ownStores s.cur (s.st.seq + 1) ≠ [] → ∃ t, exec .relc s = .next t ∧ t.st = { s.st with status := .waiting } ∧ Beside s t) ∧
      (s.ownStores s.cur (s.st.seq + 1) = [] → ∃ t, exec .relc s = .next t ∧ Beside s t ∧ t.st.status = .running ∧
        t.st.ex = { pc := s.st.ex.fin, hdr := s.st.ex.fin, fin := s.st.ex.fin, rem := 1 } ∧
        SameRegs { (s.st.ungate.setRas (n - 1) { s.st.getRas (n - 1) with defer := true }) with
          tails := s.st.tails ++ [.defer fb (depth - 1)] } t.st))

/-- WG_DISPATCH of a launch that takes WGs, its batch's next WG having a context: the context is live with that WG, its buffers, semaphores and plan
cache are empty and its registers are those of R267; main stream k stands at its entry, or halted where the image has none, with s28 = DATAVA and
every other register 0; the WG runs, its timer from the launch's start. A new batch has at most 64 WGs and at most the field's free contexts. WG_RETIRE
changes nothing while a main stream has not halted, a tail is left, a fault is pending, or a store, a stamp, an engine command or a plan run of the WG
is out, a store set aside by a trap among them (the model's reading: log 39); then the context and its slots are free and the WG is counted, the launch ending when all are (R14, R15, R19, R20, R253, R267). -/
def Obligations.WorkGroups : Prop :=
  (∀ (s : State) (dev lid f wg : Nat) (l0 l : Launch) (rest : List (Nat × Nat)) (x : CtxId),
    s.launch? dev lid = some l0 → s.dispatching dev lid l0 = true → l = s.nextBatch dev l0 →
    (∀ n, l0.batch = [] → s.pickField dev l0 (fun _ => true) = some (f, n) →
      l.batch = (List.range (min (min 64 n) (l0.wgcount - l0.nextWg))).map fun k => (f, l0.nextWg + k)) ∧
    (l.batch = [] → exec (.wgDispatch dev lid) s = .next s) ∧
    (l.batch = (f, wg) :: rest → s.pickCtx dev f l.excl (fun _ => true) = some x → ∃ t, exec (.wgDispatch dev lid) s = .next t ∧
      (let c := t.ctx x; c.live = some (lid, wg) ∧ c.wb = [] ∧ c.ab = [] ∧ c.cbuf = [] ∧ c.sems = Vector.replicate 64 0 ∧ c.cb = 0 ∧ c.plans = [] ∧
        c.det = l.level ∧ c.asid = l.asid ∧ c.replan = 32 ∧ c.semb = 0 ∧ c.mcset = Vector.replicate 8 0 ∧ c.mrowValid = false ∧ c.mrowRow = 0 ∧
        c.hzdEn = l.hzdEn ∧ c.hzdMode = l.hzdMode ∧ c.lockstep = false ∧ c.preempt = s.stopping l) ∧
      (∀ y, y ≠ x → t.ctx y = s.ctx y) ∧
      (∀ cl, cl < 4 → let st := t.strm ⟨x.core, cl, x.ctx⟩; let e := (l.entry[cl]?).getD none;
        (e = none → st.status = .halted) ∧ (∀ off, e = some off → st.status = .running ∧ st.ex.pc = BitVec.ofNat 64 (l.codeva + off) ∧ st.ex.hdr = st.ex.pc) ∧
        st.s = (Vector.replicate 32 0).set 28 l.datava ∧ st.v = Vector.replicate 64 0 ∧ st.lc = Vector.replicate 4 0 ∧ st.rrb = 0 ∧ st.uthr = 8 ∧
        st.trap.tvec = l.tvec ∧ st.priv = .u) ∧
      (t.launch? dev lid).elim False (fun k => k.running = l.running ++ [(wg, x)] ∧ k.batch = rest ∧ k.nextWg = l.nextWg ∧
        fget? k.timers wg = some (l.startedAt.getD (s.dev x.core.dev).time, none))) ∧
    (l.batch = (f, wg) :: rest → s.pickCtx dev f l.excl (fun _ => true) = none → exec (.wgDispatch dev lid) s = .next s)) ∧
  ∀ (s : State) (x : CtxId) (lid wg : Nat) (l : Launch),
    let retire := exec (.wgRetire x) s
    let k := (x.core.field, x.core.core / 4)
    (s.ctx x).live = some (lid, wg) → s.launch? x.core.dev lid = some l →
    let may : Prop := (∀ id ∈ mainsOf x, (s.strm id).status = .halted) ∧
      (∀ id ∈ s.slotsOfCtx x, id.sl < 2 ∧ (s.strm id).pendFaults = [] ∧ (s.strm id).allSq = [] ∧ (s.strm id).engIssue = none) ∧
      s.wgUnstamped x = false ∧ (∀ p ∈ (s.core x.core).paths, p.x ≠ x) ∧ (s.ctx x).planRuns = false ∧
      ∀ e, ∀ c ∈ ((s.core x.core).queue e).cmds, c.x ≠ x
    (¬ may → retire = .next s) ∧
    (may → ∃ t, retire = .next t ∧ (t.ctx x).live = none ∧ (∀ y, y ≠ x → t.ctx y = s.ctx y) ∧
      (∀ id ∈ s.slotsOfCtx x, (t.strm id).present = false) ∧
      (t.launch? x.core.dev lid).elim False (fun m => (m.running = l.running.filter fun p => p.1 ≠ wg) ∧
        fget m.retired k 0 = fget l.retired k 0 + 1 ∧ (l.done = false → m.nextWg < m.wgcount → m.done = false) ∧
        (m.nextWg = m.wgcount → m.deviceCount = m.wgcount → m.done = true)))

/-! ### The command processor -/

/-- What the command processor touches being in service: a host write to a granule stores its bytes and no others; to one whose field has failed it is
dropped with a record that names the field in LOC (log 61). A doorbell sets WPTR, a restart also clears ERR and sets STATE running, a queue without a slot becomes pending; a bad one stops
the queue with BAD_DOORBELL, WPTR kept. A packet with a bad header or body stops its queue with BAD_PACKET, RPTR kept. With no HOLD to wait for, nothing
ready and nothing to wait for, NOP completes, SETLEVEL sets LEVEL, WRITE stores 8 bytes, and ARM fires at once, is recorded, or finds the counter full
(ARM_FULL, RPTR kept); one whose counter is not 0 is held, or stops with CTR_BUSY where that counter holds another. A decrement lowers COUNT, never
below 0 and then with UNDER, fires the arms passed, highest threshold first, and at 0 puts the held packet on the ready list; INTR follows. A counter
with a reserved bit set is not acted on (the model's choice: log 69). When RPTR moves, and the errors' order and places, are the model's reading (logs
33, 34) (R76, R95, R273 to R282, R314). -/
def Obligations.QueuesAndCounters : Prop :=
  ∀ (s : State) (dev q slot idx pa k c n : Nat) (data : Word) (w : BitVec 512) (bytes : List Byte) (g : Signal) (r : List Nat),
    s.Canon →
    let d := s.dev dev
    let word (t : State) (j : Nat) : Nat := (t.dev dev).qword q j
    let desc := d.qtbase.toNat * 64 + 64 * q
    let outside (t : State) : Prop := (∀ a, (a < desc ∨ desc + 64 ≤ a) → mget (t.dev dev).mem a = mget d.mem a) ∧ (t.dev dev).hostMem = d.hostMem ∧
      t.streams = s.streams ∧ t.ctxs = s.ctxs ∧ t.cores = s.cores ∧ ∀ e, e ≠ dev → t.dev e = s.dev e
    let state (t : State) : Nat := word t 0 / 2 ^ 29 % 4
    let stopped (i : Instr) (err off : Nat) : Prop := ∃ t, exec i s = .next t ∧ outside t ∧ state t = 1 ∧ word t 9 = err * 2 ^ 24 ∧ word t 10 = off ∧
      (∀ j ∈ [1, 2, 3, 4, 5, 6, 7, 8, 11, 12, 13, 14, 15], word t j = word s j) ∧ (t.dev dev).msix = d.msix ++ [word s 11 % 2 ^ 11] ∧ (t.dev dev).fwQerr = true
    let bell : Instr := if data.getLsbD 32 then .doorbellRestart dev q data else .doorbell dev q data
    let wp := data.toNat % 2 ^ 32
    let good : Prop := data.toNat / 2 ^ 33 = 0 ∧ (wp + 2 ^ 32 - word s 5) % 2 ^ 32 ≤ 2 ^ (word s 0 / 2 ^ 19 % 16) ∧ (word s 0).testBit 31 = true
    let op := pkOp w
    let ev : Instr := if op = 3 then .packetSetlevel dev slot else if op = 4 then .packetArm dev slot else if op = 5 then .packetWrite dev slot
      else .packetNop dev slot
    let served (rs : List (Nat × Nat)) : Prop := s.cpStop dev rs = none
    let addr := (rec64 w 6).toNat
    let thresh := recFld w 8 0 32
    let kind := recFld w 9 30 2
    let vec := recFld w 9 16 11
    let tgt := (rec64 w 10).toNat
    let sg (b : Device) : List Signal := if pkSigen w = true ∨ pkIntr w = true then b.signals ++ [{
      sctr := if pkSigen w then some (pkSctr w, recFld w 1 0 16) else none, intr := if pkIntr w then some (recFld w 1 16 11) else none }] else b.signals
    let counted (t : State) (base : Device) (n : Nat) (after : List Nat) : Prop :=
      let old := d.count c
      let w1 := d.pnat (c + 4) 4
      let all := (List.range (d.narm c)).map (d.armAt c)
      let hit (a : Arm) : Bool := decide (a.thresh < old ∧ old - n ≤ a.thresh)
      ∃ fired : List Arm, (∀ h, fired.filter (fun a => a.thresh = h) = all.filter fun a => hit a && decide (a.thresh = h)) ∧
        fired.Pairwise (fun a b => b.thresh ≤ a.thresh) ∧
        (t.dev dev).msix = base.msix ++ ((fired.filter fun a => a.kind = 1).map Arm.vec) ++ after ∧
        (t.dev dev).arms = base.arms ++ ((fired.filter fun a => a.kind = 2).map Arm.tgt) ∧
        (∀ p ∈ d.pkts, old - n = 0 → w1.testBit 31 = true → p.st = .held → p.q = d.pnat (c + 8) 4 % 2 ^ 16 → p.idx = d.pnat (c + 12) 4 →
          (p.q, p.idx) ∈ (t.dev dev).ready ∧ (d.slotOf p.q = none → p.q ∈ (t.dev dev).pendq)) ∧
        (¬ (old - n = 0 ∧ w1.testBit 31 = true) → (t.dev dev).count c = old - n ∧ (t.dev dev).narm c = all.length - fired.length ∧
          ((t.dev dev).pnat (c + 4) 4).testBit 30 = (w1.testBit 30 || decide (old < n)))
    (pa % 16 + bytes.length ≤ 16 → pa < 2 ^ 63 →
      (served [(pa, bytes.length)] →
        ∃ t, exec (.hostMemoryWrite dev pa bytes) s = .next t ∧ Stored s t dev pa false bytes ∧ t.streams = s.streams) ∧
      (∀ e fl, s.cpStop dev [(pa, bytes.length)] = some (.dropped e fl) → ∃ t x, exec (.hostMemoryWrite dev pa bytes) s = .next t ∧ SameBytes s t ∧
        (t.dev dev).logQueue = d.logQueue ++ [x] ∧ (x.cause.extractLsb' 12 3).toNat = fl % 8 ∧ x.fdet = 0 ∧ t.streams = s.streams)) ∧
    (q < 65536 → served [(d.qdesc q, 64)] → (¬ good → stopped bell 7 (word s 5)) ∧ (good → ∃ t, exec bell s = .next t ∧ outside t ∧ word t 4 = wp ∧ word t 5 = word s 5 ∧
      (data.getLsbD 32 = true → state t = 0 ∧ (state s ≠ 0 → word t 9 = 0)) ∧ (data.getLsbD 32 = false → word t 0 = word s 0 ∧ word t 9 = word s 9) ∧
      (d.slotOf q = none → q ∈ (t.dev dev).pendq) ∧ (d.slotOf q ≠ none → (t.dev dev).pendq = d.pendq))) ∧
    (d.nextPacket slot = some (q, idx, w) → q < 65536 → op ≠ 2 →
      served ((d.qdesc q, 64) :: (d.packetPa q idx, 64) :: (if pkHeaderOk w = true ∧ pkBodyOk w = true then pktRanges w else [])) →
      ((pkHeaderOk w = false ∨ pkBodyOk w = false) → stopped ev 1 idx) ∧
      (pkHeaderOk w = true → pkBodyOk w = true → d.ready = [] → d.holdOf q idx w = .go → (∀ p ∈ d.pkts, p.q = q → pkBarrier w = false ∧ op ≠ 3) →
        (op = 1 → ∃ t, exec ev s = .next t ∧ outside t ∧ word t 5 = (idx + 1) % 2 ^ 32 ∧ (t.dev dev).signals = sg d ∧ (t.dev dev).pkts = d.pkts) ∧
        (op = 3 → ∃ t, exec ev s = .next t ∧ outside t ∧ word t 5 = (idx + 1) % 2 ^ 32 ∧ word t 0 / 2 ^ 27 % 4 = recFld w 6 0 2 ∧
          (∀ b, b ≠ 27 → b ≠ 28 → (word t 0).testBit b = (word s 0).testBit b) ∧ (t.dev dev).signals = sg d) ∧
        (op = 5 → ∃ t, exec ev s = .next t ∧ (t.dev dev).pnat addr 8 = (rec64 w 8).toNat ∧ (t.dev dev).signals = sg d ∧
          (addr + 8 ≤ desc ∨ desc + 64 ≤ addr → word t 5 = (idx + 1) % 2 ^ 32)) ∧
        (op = 4 → (d.ctrReserved addr = true → stopped ev 6 idx) ∧ (d.ctrReserved addr = false →
          (d.count addr ≤ thresh → ∃ t, exec ev s = .next t ∧ outside t ∧ word t 5 = (idx + 1) % 2 ^ 32 ∧ (t.dev dev).signals = sg d ∧
            (∀ j < 16, j ≠ 5 → word t j = word s j) ∧
            (kind = 1 → (t.dev dev).msix = d.msix ++ [vec]) ∧ (kind = 2 → (t.dev dev).arms = d.arms ++ [tgt])) ∧
          (thresh < d.count addr → d.narm addr < 3 → addr ≠ desc → ∃ t, exec ev s = .next t ∧ (t.dev dev).signals = sg d ∧
            word t 5 = (idx + 1) % 2 ^ 32 ∧ (t.dev dev).narm addr = d.narm addr + 1 ∧
            (t.dev dev).armAt addr (d.narm addr) = ⟨thresh, kind, vec, tgt⟩) ∧
          (thresh < d.count addr → d.narm addr = 3 → stopped ev 6 idx)))) ∧
      (pkHeaderOk w = true → pkBodyOk w = true → (q, idx) ∉ d.ready → d.holdOf q idx w = .busy → stopped ev 5 idx) ∧
      (pkHeaderOk w = true → pkBodyOk w = true → (q, idx) ∉ d.ready → d.holdOf q idx w = .hold → ∃ t, exec ev s = .next t ∧ (t.dev dev).ready = d.ready ∧
        (t.dev dev).pkts = d.pkts ++ [{ q := q, idx := idx, words := w, st := .held }] ∧ ((t.dev dev).pnat (pkWctr w + 4) 4).testBit 31 = true ∧
        (t.dev dev).pnat (pkWctr w + 8) 4 = q ∧ (t.dev dev).pnat (pkWctr w + 12) 4 = idx % 2 ^ 32)) ∧
    (d.signals[k]? = some g → g.sctr = some (c, n) → served (d.ctrRanges c) → ∃ t, exec (.sigenDecrement dev k) s = .next t ∧ (t.dev dev).signals = d.signals.eraseIdx k ∧
      (d.ctrReserved c = false → counted t d n g.intr.toList) ∧
      (d.ctrReserved c = true → SameBytes s t ∧ (t.dev dev).pkts = d.pkts ∧ (t.dev dev).msix = d.msix ++ g.intr.toList)) ∧
    (d.arms = c :: r → served (d.ctrRanges c) → ∃ t, exec (.armTargetDecrement dev) s = .next t ∧
      (d.ctrReserved c = false → counted t { d with arms := r } 1 []) ∧ (d.ctrReserved c = true → SameBytes s t ∧ (t.dev dev).arms = r))

/-- A LAUNCH that fails a check stops its queue with the error and its index; one that passes is on record with what its packet says, and starts at once
where nothing is ready before it, its barrier holds and it may be admitted, with the queue's level. The ready packet that starts has the highest
priority, and among equals is the longest on the list; one of a queue without a slot that would start makes its queue pending. SLOT_MAP maps a queue
that no other slot parses, at the priority written (log 70), clears its pending bit and reads its descriptor; where the slot parses that queue already,
it sets the priority alone. SLOT_UNMAP sets QID and PRIO and clears VALID, SLOT_PREEMPT asks the contexts of the queue's launches to stop. The policy timer sets TICK after 1 ms. T1 asks the
contexts whose time has run out to stop, those of a cooperative launch together; T2 kills the launch, but a completion stands; T3 fences the cores that
have not stopped; a limit of 0 turns off its stage and every later one. When a packet starts is the model's reading (logs 33, 36), as
are the WGs that T1 and T2 count for and the cores of T3 (log 40) (R16, R274, R277, R278, R283, R285, R286, R308). -/
def Obligations.LaunchesAndSlots : Prop :=
  ∀ (s : State) (dev slot q idx k lid err : Nat) (w : BitVec 512) (r : Nat × Nat) (p : Pkt) (l : Launch) (prio : Nat) (t0 : Word),
    s.Canon →
    let d := s.dev dev
    let word (t : State) (j : Nat) : Nat := (t.dev dev).qword q j
    let state (t : State) (a : Nat) : Nat := (t.dev dev).qword a 0 / 2 ^ 29 % 4
    let stopped (t : State) (e off : Nat) : Prop := state t q = 1 ∧ word t 9 = e * 2 ^ 24 ∧ word t 10 = off
    let l0 := d.mkLaunch q idx w
    let s2 := { s with nextId := s.nextId + 1 }.onDev dev fun v => { v.takePkt q idx w (some s.nextId) with launches := fset v.launches s.nextId l0 }
    let begins (t : State) (n a : Nat) : Prop := ∃ m, t.launch? dev n = some m ∧ m.begun = true ∧ m.level.toNat = (t.dev dev).qword a 0 / 2 ^ 27 % 4 ∧
      m.startedAt = some d.time ∧ (fget? (t.dev dev).ktts m.asid.toNat).isSome = true
    let pr (j : Nat) : Nat := (d.readyPrio (d.ready[j]?.getD (0, 0))).getD 0
    let asked (t : State) (a : Launch) : Prop := ∀ y ∈ a.running, (t.ctx y.2).preempt = true
    let age (since : Word) : Nat := (d.time - since).toNat
    let limit (j : Nat) : Nat := d.qword l.q (6 + j)
    let out (n : Nat) (t : Word) : Prop := (∀ j < n, limit j ≠ 0) ∧ usTime (limit (n - 1)) ≤ age t
    let late : List CoreId := l.lost.filterMap fun x => if (s.core x.core).paths.any (fun i => i.x == x) then some x.core else none
    let served (rs : List (Nat × Nat)) : Prop := s.cpStop dev rs = none
    let due1 (x : Nat × Word × Option Word) : Prop := x.2.2 = none ∧ out 1 x.2.1
    let due2 : Prop := ∃ x ∈ l.timers, ∃ t1, x.2.2 = some t1 ∧ out 2 t1
    let whole : Prop := l.nextWg = l.wgcount ∧ l.batch = [] ∧ l.savedWgs = [] ∧ ∀ y ∈ l.running, s.mayRetire y.2 = true
    let ws := l.t1Due d
    let parsed : Prop := (fget d.slots slot {}).valid = true ∧ (fget d.slots slot {}).qid = q
    (d.nextPacket slot = some (q, idx, w) → q < 65536 → pkOp w = 2 → served (d.parseRanges slot d.launchRanges) →
      ((pkHeaderOk w = false ∨ recFld w 14 0 32 = 0 ∨ recFld w 15 20 8 = 0 ∨ (rec64 w 6).toNat % 64 ≠ 0) → d.launchErr q w = some 1) ∧
      (d.launchErr q w = some err → err < 256 → ∃ t, exec (.packetLaunch dev slot) s = .next t ∧ stopped t err idx ∧ (t.dev dev).launches = d.launches ∧
        (t.dev dev).pkts = d.pkts) ∧
      (d.launchErr q w = none → d.holdOf q idx w = .go → (∀ x ∈ d.pkts, x.launch ≠ some s.nextId) → ∃ t, exec (.packetLaunch dev slot) s = .next t ∧
        (∃ x ∈ (t.dev dev).pkts, x.q = q ∧ x.idx = idx ∧ x.words = w ∧ x.launch = some s.nextId) ∧ word t 5 = (idx + 1) % 2 ^ 32 ∧
        (t.launch? dev s.nextId).elim False (fun m => m.q = q ∧ m.idx = idx ∧ m.wgcount = recFld w 14 0 32 ∧ m.codeva = (rec64 w 10).toNat ∧
          m.datava = rec64 w 12 ∧ m.coop = w.getLsbD 511 ∧ m.excl = w.getLsbD 510 ∧ m.hzdEn = w.getLsbD 509 ∧ m.hzdMode = w.getLsbD 508 ∧
          m.asid.toNat = word s 0 % 2 ^ 14 ∧ m.running = [] ∧ m.nextWg = 0) ∧
        (d.ready = [] → (∀ x ∈ d.pkts, x.q = q → pkBarrier w = false) → s2.admits dev l0 = true → begins t s.nextId q))) ∧
    (s.nextReady dev ≠ some k → s.pendsAt dev k = none → exec (.readyPacketStart dev k) s = .next s) ∧
    (s.pendsAt dev k = some q → d.slotOf q = none ∧ ∃ t, exec (.readyPacketStart dev k) s = .next t ∧ SameBytes s t ∧ t.streams = s.streams ∧
      (t.dev dev).ready = d.ready ∧ (t.dev dev).pkts = d.pkts ∧ ∀ x, x ∈ (t.dev dev).pendq ↔ x ∈ d.pendq ∨ x = q) ∧
    (s.nextReady dev = some k → s.readyOk dev k = true ∧ ∀ j < 256, s.readyOk dev j = true → pr j ≤ pr k ∧ (pr j = pr k → k ≤ j)) ∧
    (s.nextReady dev = some k → d.ready[k]? = some r → d.pkts.find? (fun x => x.q == r.1 && x.idx == r.2) = some p →
      (p.launch = none → served ((d.qdesc p.q, 64) :: pktRanges p.words) → ∃ t, exec (.readyPacketStart dev k) s = .next t ∧ t.ctxs = s.ctxs ∧ t.streams = s.streams ∧
        t.dev dev = Device.perform { d with ready := d.ready.eraseIdx k } p.q p.idx p.words) ∧
      (∀ n, p.launch = some n → s.launch? dev n = some l → l.q = p.q → l.idx = p.idx → d.pkts.find? (fun x => x.launch == some n) = some p →
        ∃ t, exec (.readyPacketStart dev k) s = .next t ∧ begins t n l.q)) ∧
    (d.fwRunning = true → slot < 128 → q < 65536 → (∃ x ∈ d.slots, x.1 ≠ slot ∧ x.2.valid = true ∧ x.2.qid = q) →
      exec (.slotMap dev slot q prio) s = .next s) ∧
    (d.fwRunning = true → slot < 128 → q < 65536 → (∀ x ∈ d.slots, x.1 ≠ slot → x.2.valid = true → x.2.qid ≠ q) →
      (parsed → ∃ t, exec (.slotMap dev slot q prio) s = .next t ∧ t = s.onDev dev fun v => { v with slots := fset v.slots slot ⟨q, BitVec.ofNat 4 prio, true⟩ }) ∧
      (¬ parsed → served [(d.qdesc q, 64)] → ∃ t, exec (.slotMap dev slot q prio) s = .next t ∧
        fget (t.dev dev).slots slot {} = ⟨q, BitVec.ofNat 4 prio, true⟩ ∧
        (∀ j, j ≠ slot → fget? (t.dev dev).slots j = fget? d.slots j) ∧ (∀ x, x ∈ (t.dev dev).pendq ↔ x ∈ d.pendq ∧ x ≠ q) ∧ t.ctxs = s.ctxs ∧
        (d.descOk q = true → (t.dev dev).mem = d.mem ∧ (t.dev dev).msix = d.msix) ∧ (d.descOk q = false → stopped t 9 (word s 5)))) ∧
    (d.fwRunning = true → slot < 128 → ∃ t, exec (.slotUnmap dev ⟨slot, q, prio⟩) s = .next t ∧
      fget? (t.dev dev).slots slot = some ⟨q % 65536, BitVec.ofNat 4 prio, false⟩ ∧ (∀ j, j ≠ slot → fget? (t.dev dev).slots j = fget? d.slots j) ∧
      (t.dev dev).pkts = d.pkts ∧ SameBytes s t) ∧
    (d.fwRunning = true → (fget d.slots slot {}).valid = true → ∃ t, exec (.slotPreempt dev slot) s = .next t ∧ SameBytes s t ∧ t.devs = s.devs ∧
      (∀ x ∈ d.launches, x.2.q = (fget d.slots slot {}).qid → x.2.begun = true → x.2.done = false → asked t x.2)) ∧
    (d.fwRunning = false → exec (.slotMap dev slot q prio) s = .next s ∧ exec (.slotUnmap dev ⟨slot, q, prio⟩) s = .next s ∧ exec (.slotPreempt dev slot) s = .next s) ∧
    ((usTime 1000 ≤ age d.tickAt → ∃ t, exec (.fwPolicyTick dev) s = .next t ∧ (t.dev dev).fwTick = true ∧ (t.dev dev).tickAt = d.time ∧ SameBytes s t) ∧
      (age d.tickAt < usTime 1000 → exec (.fwPolicyTick dev) s = .next s)) ∧
    (s.launch? dev lid = some l → l.done = false →
      ((∀ wg, wg ∈ ws ↔ ∃ x ∈ l.timers, x.1 = wg ∧ due1 x) ∧
        (ws ≠ [] → ∃ t, exec (.watchdogT1 dev lid) s = .next t ∧ SameBytes s t ∧ (t.dev dev).fwWdog = true ∧
          (∀ y ∈ l.running, l.coop = true ∨ y.1 ∈ ws → (t.ctx y.2).preempt = true) ∧
          (∀ x, (∀ y ∈ l.running, y.2 = x → l.coop = false ∧ y.1 ∉ ws) → t.ctx x = s.ctx x) ∧
          (t.launch? dev lid).elim False fun m => m.timers = l.timers.map fun x => if ws.contains x.1 = true then (x.1, x.2.1, some d.time) else x) ∧
        (ws = [] → exec (.watchdogT1 dev lid) s = .next s)) ∧
      ((due2 → ¬ whole → ∃ t, exec (.watchdogT2 dev lid) s = .next t ∧ (∀ y ∈ l.running, (t.ctx y.2).live = none) ∧
          (served [(d.qdesc l.q, 64)] → state t l.q = 2 ∧ (t.dev dev).qword l.q 9 = 8 * 2 ^ 24) ∧ (t.dev dev).fwWdog = true ∧
          (d.descServed dev l.q = false → (t.dev dev).stops = d.stops ++ [(l.q, l.idx)]) ∧
          (t.launch? dev lid).elim False fun m => m.done = true ∧ m.t2at = some d.time ∧ m.lost = l.running.map Prod.snd) ∧
        (¬ due2 ∨ whole → exec (.watchdogT2 dev lid) s = .next s))) ∧
    (s.launch? dev lid = some l → l.t2at = some t0 → (late ≠ [] → out 3 t0 → ∃ t, exec (.watchdogT3 dev lid) s = .next t ∧ SameBytes s t ∧
        (∀ c ∈ late, (t.core c).fenced = true ∧ (t.core c).paths = []) ∧ (∀ c, c ∉ late → t.core c = s.core c)) ∧
      (¬ (late ≠ [] ∧ out 3 t0) → exec (.watchdogT3 dev lid) s = .next s))

/-! ### Fields, service and attestation -/

/-- A waiting field starts when it is the first or its predecessor has locked and trained, or has failed. The five steps follow one another: step 2
locks the clock as FCTL.LOCK says, step 4 counts the cores, each logical number at its place of a fixed order (model's choice, log 63), a retired core
served by its spare and a number being out of service where its core is fenced (log 43), step 5 puts the field in service; each applies the named spares of its kinds, a granule that their copy cannot correct, a buffer
row's included, becoming zero and logged; a step of 100 ms fails the field, FSTEP naming it, and completes no more. A reset kills the field's launches and starts it over with its spares; a device
reset frees every stream and starts field 0. ILIM is clamped to 16 to 640; TOKENS follows R316, and held and free tokens come to it with no burst
stopped. THROT of a field with power is set from 105 °C and cleared at 100 °C; 125 °C trips it, kills its launches and logs MACHINE_CHECK, whose record
names the field in LOC. What a trip stops and what a device reset keeps are the model's reading (logs 44, 45), the record's words log 61 (R312 to
R322). -/
def Obligations.FieldsAndPower : Prop :=
  ∀ (s : State) (dev f : Nat) (failed lost : List Nat) (amps lid : Nat) (temp : BitVec 16) (l : Launch),
    let d := s.dev dev
    let x := d.fieldN f
    let y (t : State) : Field := (t.dev dev).fieldN f
    let prev := d.fieldN (f - 1)
    let step := exec (.fieldBringupStep dev f failed lost) s
    let kindStep (p : Spare) : Nat := if p.kind = 1 then 3 else if p.kind = 2 then 1 else if p.kind = 0 ∨ p.kind = 3 then 4 else 5
    let spares (t : State) : Prop := (y t).applied = x.applied ++ x.named.filter (fun p => kindStep p = x.step) ∧
      (y t).named = x.named.filter fun p => kindStep p ≠ x.step
    let copies : Prop := (x.step = 3 ∧ ∃ p ∈ x.named, p.kind = 1) ∨ (x.step = 5 ∧ ∃ p ∈ x.named, p.kind = 4)
    let keeps (t : State) : Prop := (y t).named = x.named ∧ (y t).applied = x.applied
    let base := max 1 (x.ncore * x.ilim / 640)
    let target := if x.throt = true then max 1 (base / 2) else base
    let held := ((List.range 40).filter fun k => (s.core ⟨dev, f, k⟩).token).length
    let on : Prop := x.state ≠ 0 ∧ x.state ≠ 4
    let row (a : Nat) : Prop := x.step = 4 ∧ ∃ p ∈ x.named, p.kind = 3 ∧ p.arg = a / 512
    let logged (t : State) (a : Nat) : Prop := ∃ r ∈ (t.dev dev).logQueue, (r.cause.extractLsb' 28 4).toNat = 8 ∧
      (r.cause.extractLsb' 20 8).toNat = 1 ∧ r.faddr = BitVec.ofNat 64 a ∧ (r.cause.extractLsb' 12 3).toNat = f ∧ r.fdet = 0
    let killed (t : State) : Prop := s.launch? dev lid = some l → l.fields.getLsbD f = true → l.done = false →
      (t.launch? dev lid).elim False fun m => m.done = true
    let fresh (t : State) : Prop := (∀ id : SlotId, id.core.dev = dev → (t.strm id).status = .free) ∧
      (∀ c : CtxId, c.core.dev = dev → (t.ctx c).live = none) ∧ (t.dev dev).time = 0 ∧ (t.dev dev).fuse = d.fuse ∧ (t.dev dev).hostMem = d.hostMem ∧
      (t.dev dev).fwRunning = false ∧ ((t.dev dev).fieldN 0).state = 1 ∧ ((t.dev dev).fieldN 0).step = 1 ∧
      (∀ g, 0 < g → g < 8 → ((t.dev dev).fieldN g).state = 0 ∧ ((t.dev dev).fieldN g).waiting = true) ∧ keeps t ∧ (∀ e, e ≠ dev → t.dev e = s.dev e) ∧
      ∀ id : SlotId, id.core.dev ≠ dev → t.strm id = s.strm id
    f < 8 →
    (x.state = 0 → x.waiting = true → ((f = 0 ∨ (prev.pllUp = true ∧ prev.memUp = true) ∨ prev.state = 3) → ∃ t, step = .next t ∧ OnlyField s t dev f ∧
        (y t).state = 1 ∧ (y t).step = 1 ∧ (y t).stepSince = d.time ∧ keeps t) ∧
      (¬ (f = 0 ∨ (prev.pllUp = true ∧ prev.memUp = true) ∨ prev.state = 3) → step = .next s)) ∧
    (x.state = 1 → x.step ≠ 0 → usTime 100000 ≤ (d.time - x.stepSince).toNat → step = .next s) ∧
    (x.state = 1 → 1 ≤ x.step → x.step ≤ 5 → (d.time - x.stepSince).toNat < usTime 100000 → ∃ t, step = .next t ∧ (lost = [] → OnlyField s t dev f) ∧ spares t ∧ (y t).stepSince = d.time ∧
      (s.Canon → (∀ e h a, ¬ (e = dev ∧ h = false ∧ a - a % 16 ∈ lost) → byteAt t e h a = byteAt s e h a) ∧
        (copies → ∀ a ∈ lost, a % 16 = 0 → a < 2 ^ 40 → Config.homeField dev (a / 128) % 8 = f → (∀ k < 16, byteAt t dev false (a + k) = 0) ∧ logged t a) ∧
        ∀ a ∈ lost, a % 16 = 0 → row a → logged t a) ∧ (x.step = 4 → SameBytes s t) ∧
      (x.step < 5 → (y t).state = 1 ∧ (y t).step = x.step + 1) ∧ (x.step = 2 → (y t).locked = d.fctlLock ∧ (y t).pllUp = true) ∧
      (x.step = 3 → (y t).memUp = true) ∧
      (x.step = 4 → (y t).ncore = (y t).coreMap.length ∧ ∀ k p, (k, p) ∈ (y t).coreMap ↔
        p ∉ failed ∧ ∃ q, (pickOrder dev f 40 (upTo 40))[k]? = some q ∧ p = (y t).physical q) ∧
      (x.step = 4 → ∀ k p, (k, p) ∈ (y t).coreMap → (t.core ⟨dev, f, k⟩).fenced = decide (p ∈ x.fenced)) ∧
      (x.step = 5 → (y t).state = 2 ∧ (y t).step = 0 ∧ (y t).tokens = target)) ∧
    (x.state = 1 → x.step ≠ 0 → (usTime 100000 ≤ (d.time - x.stepSince).toNat → ∃ t, exec (.bringupStepTimeout dev f) s = .next t ∧
        OnlyField s t dev f ∧ (y t).state = 3 ∧ (y t).fstep = BitVec.ofNat 4 x.step ∧ keeps t) ∧
      ((d.time - x.stepSince).toNat < usTime 100000 → exec (.bringupStepTimeout dev f) s = .next s)) ∧
    (f ≠ 0 → ∃ t, exec (.fieldReset dev f) s = .next t ∧ (y t).state = 0 ∧ (y t).waiting = true ∧ keeps t ∧ killed t ∧
      (∀ g, g < 8 → g ≠ f → ((t.dev dev).fieldN g).state = (d.fieldN g).state) ∧ ∀ k, (t.core ⟨dev, f, k⟩).fenced = (s.core ⟨dev, f, k⟩).fenced) ∧
    (∃ t, exec (.deviceReset dev) s = .next t ∧ fresh t) ∧ (∃ t, exec (.fieldReset dev 0) s = .next t ∧ fresh t) ∧
    (d.fwRunning = true → ∃ t, exec (.ilimSet dev f amps) s = .next t ∧ OnlyField s t dev f ∧ y t = { x with ilim := min 640 (max 16 amps) }) ∧
    (x.state = 2 → x.tokens ≠ target → ∃ t, exec (.tokenCountUpdate dev f) s = .next t ∧ OnlyField s t dev f ∧ t.cores = s.cores ∧
      (y t).tokens = target ∧ (y t).ring.length = target - held ∧ ∃ r, y t = { x with tokens := target, ring := r }) ∧
    (on → 0x690 ≤ temp.toInt → temp.toInt < 0x7D0 → ∃ t, exec (.thermalThrottleSet dev f temp) s = .next t ∧ OnlyField s t dev f ∧
      y t = { x with temp := temp, throt := true }) ∧
    (on → temp.toInt < 0x690 → ∃ t, exec (.thermalThrottleClear dev f temp) s = .next t ∧ OnlyField s t dev f ∧
      y t = { x with temp := temp, throt := x.throt && decide (0x640 < temp.toInt) }) ∧
    (on → 0x7D0 ≤ temp.toInt → ∃ t, exec (.thermalTrip dev f temp) s = .next t ∧ (y t).state = 4 ∧ (y t).throt = true ∧ (y t).temp = temp ∧ killed t ∧
      (f = 0 → (t.dev dev).fwRunning = false) ∧ (t.dev dev).logQueue.getLast?.elim False fun r => (r.cause.extractLsb' 28 4).toNat = 8 ∧
        (r.cause.extractLsb' 20 8).toNat = 1 ∧ (r.cause.extractLsb' 12 3).toNat = f ∧ r.fdet = 0) ∧
    (¬ on → exec (.thermalTrip dev f temp) s = .next s ∧ exec (.thermalThrottleSet dev f temp) s = .next s) ∧
    (temp.toInt < 0x690 → exec (.thermalThrottleSet dev f temp) s = .next s) ∧ (temp.toInt < 0x7D0 → exec (.thermalTrip dev f temp) s = .next s)

/-- NAME adds a retirement to its field's pending list, or answers 1 with no spare left, 2 for a bad target or a reserved field, 3 when it is named
already; CANCEL removes a pending one, or answers 4; ADVSVN sets the fuse counter to a value above it that is not above the running image's SVN,
64 times in all, or answers 5 (log 77). A request for a quote sets ATTREQ to 1, and the quote, 3,309 bytes over the nonce, the log's hash and the fuse counter, to 2. The
boot ROM starts firmware from an image that it accepts, and no other, logs its measurement, and sets the window of the core's DMA, outside of which,
and in the save region, nothing is accessed and the attempt is recorded. The monitors keep minima and count corrected errors. A write of a plain
register sets its fields and no others, and clears the W1C bits written as 1. The signed message, the log of 256 entries and its last entry replaced
are the model's choice (log 12), as is a refused attempt's record (log 64); that a write sets CORR is its reading (log 41) (R115, R283, R287, R295, R297, R314, R320 to R324). -/
def Obligations.ServiceAndRegisters : Prop :=
  ∀ (s : State) (dev f pa k : Nat) (data : Word) (margin eye : BitVec 16) (n lo len : Nat) (lock : Bool) (i : Fin 32) (bytes : List Byte),
    let d := s.dev dev
    let b (lo n : Nat) : Nat := data.toNat / 2 ^ lo % 2 ^ n
    let act := b 56 4
    let p : Spare := { kind := b 48 3, field := b 45 3, target := b 16 16, arg := b 32 13 }
    let clean : Prop := b 60 3 = 0 ∧ b 51 5 = 0 ∧ b 0 16 = 0
    let x := d.fieldN p.field
    let all := x.named ++ x.applied
    let used := (all.filter fun o => o.kind = p.kind ∧ o.pool.1 = p.pool.1).length
    let answers (i : Instr) (r : Nat) (q : State → Prop) : Prop := ∃ t, exec i s = .next t ∧ OnlyRegs s t dev ∧ (t.dev dev).spres.toNat = r ∧ q t
    let named (t : State) (l : List Spare) : Prop := ((t.dev dev).fieldN p.field).named = l ∧ ((t.dev dev).fieldN p.field).applied = x.applied ∧
      ∀ g, g < 8 → g ≠ p.field → (t.dev dev).fieldN g = d.fieldN g
    let fuse (t : State) (v : Nat) : Prop := (t.dev dev).fuse.toNat = v
    let sets (r : PlainReg) (d' : Device) : Prop := ∃ t, exec (.registerWrite dev r data) s = .next t ∧ t = s.onDev dev fun _ => d'
    let svn := d.pnat (pa + 4) 4 % 2 ^ 16
    let load := exec (.firmwareLoad dev pa) s
    (act = 1 → ((¬ clean ∨ p.targetOk = false) → answers (.spareName dev data) 2 fun t => (t.dev dev).fields = d.fields) ∧
      (clean → p.targetOk = true → (p ∈ all → answers (.spareName dev data) 3 fun t => (t.dev dev).fields = d.fields) ∧
        (p ∉ all → p.pool.2 ≤ used → answers (.spareName dev data) 1 fun t => (t.dev dev).fields = d.fields) ∧
        (p ∉ all → used < p.pool.2 → answers (.spareName dev data) 0 fun t => named t (x.named ++ [p])))) ∧
    (act ∉ [1, 2, 3] → answers (.spareName dev data) 2 fun t => (t.dev dev).fields = d.fields) ∧
    (act = 2 → ((¬ clean ∨ p.targetOk = false) → answers (.spareCancel dev data) 2 fun t => (t.dev dev).fields = d.fields) ∧
      (clean → p.targetOk = true → (p ∈ x.named → answers (.spareCancel dev data) 0 fun t => named t (x.named.erase p)) ∧
        (p ∉ x.named → answers (.spareCancel dev data) 4 fun t => (t.dev dev).fields = d.fields))) ∧
    (act = 3 → ((¬ clean ∨ p.kind ≠ 0 ∨ p.field ≠ 0 ∨ p.arg ≠ 0) → answers (.advsvn dev data) 2 fun t => fuse t d.fuse.toNat) ∧
      (clean → p.kind = 0 → p.field = 0 → p.arg = 0 →
        ((p.target ≤ d.fuse.toNat ∨ d.fwSvn.toNat < p.target ∨ 64 ≤ d.advances) → answers (.advsvn dev data) 5 fun t => fuse t d.fuse.toNat) ∧
        (d.fuse.toNat < p.target → p.target ≤ d.fwSvn.toNat → d.advances < 64 →
          answers (.advsvn dev data) 0 fun t => fuse t p.target ∧ (t.dev dev).advances = d.advances + 1))) ∧
    (data = 1 → ∃ t, exec (.attestationRequest dev data) s = .next t ∧ OnlyRegs s t dev ∧ (t.dev dev).attreq = 1) ∧
    (data ≠ 1 → exec (.attestationRequest dev data) s = .next s) ∧
    (d.attreq = 1 → ∃ t, exec (.attestationQuoteDone dev) s = .next t ∧ OnlyRegs s t dev ∧ (t.dev dev).attreq = 2 ∧ (t.dev dev).quote.length = 3309 ∧
      (t.dev dev).quote = padTo 3309 (Config.mlDsaSign dev (d.nonce.toList ++ Config.shake256 d.attlog.flatten 64 ++ natBytes 2 d.fuse.toNat))) ∧
    (d.attreq ≠ 1 → exec (.attestationQuoteDone dev) s = .next s) ∧
    (d.fwRunning = false → (d.fieldN 0).state = 2 → s.cpStop dev [(pa, 64 + d.pnat (pa + 8) 4 + 1952 + 3309)] = none → d.fwOk dev pa = true → ∃ t, load = .next t ∧ OnlyRegs s t dev ∧ (t.dev dev).fwRunning = true ∧
      (t.dev dev).fwSvn.toNat = svn ∧ (t.dev dev).fwEntry.toNat = d.pnat (pa + 12) 4 ∧ (t.dev dev).dma = some (Config.dmaWindow dev) ∧
      (d.attlog.length < 256 → (t.dev dev).attlog.length = d.attlog.length + 1) ∧
      (t.dev dev).attlog.getLast? = some (measureEntry (d.pread pa (64 + d.pnat (pa + 8) 4)) svn)) ∧
    ((d.fwRunning = true ∨ (d.fieldN 0).state ≠ 2) → load = .next s) ∧
    (d.fwHeaderOk pa = false → s.cpStop dev [(pa, 64)] = none → load = .next s) ∧
    (d.fwHeaderOk pa = true → d.fwOk dev pa = false → s.cpStop dev [(pa, 64 + d.pnat (pa + 8) 4 + 1952 + 3309)] = none → load = .next s) ∧
    (d.fwRunning = true → d.dma = some (lo, len) → bytes ≠ [] → pa + bytes.length ≤ 2 ^ 63 →
      (lo ≤ pa → pa + bytes.length ≤ lo + len → (∀ j < bytes.length, d.isProtected (pa + j) = false) → s.cpStop dev [(pa, bytes.length)] = none → s.Canon →
        ∃ t, s.move (.fwDma dev pa bytes) = .next t ∧ Stored s t dev pa false bytes) ∧
      ((pa < lo ∨ lo + len < pa + bytes.length ∨ ∃ j < bytes.length, d.isProtected (pa + j) = true) → ∃ t, s.move (.fwDma dev pa bytes) = .next t ∧ OnlyRegs s t dev ∧
        (t.dev dev).dmaRefused = d.dmaRefused ++ [pa])) ∧
    ((d.pnat pa 4 ≠ 0x46575838 ∨ 262080 < d.pnat (pa + 8) 4) → d.fwHeaderOk pa = false) ∧
    ((d.fwHeaderOk pa = false ∨ svn < d.fuse.toNat) → d.fwOk dev pa = false) ∧
    (∀ a, d.isProtected a = true ↔ d.savebase.toNat * 2 ^ 24 ≤ a ∧ a < (d.savebase.toNat + d.savenum.toNat) * 2 ^ 24) ∧
    (f < 8 → ∃ t, exec (.wearMonitorSample dev f margin eye n) s = .next t ∧ OnlyField s t dev f ∧ (t.dev dev).fieldN f = { d.fieldN f with
      marginW := if margin.toNat < (d.fieldN f).marginW.toNat then margin else (d.fieldN f).marginW,
      eye := if eye.toNat < (d.fieldN f).eye.toNat then eye else (d.fieldN f).eye,
      corr := BitVec.ofNat 32 (min 0xFFFFFFFF ((d.fieldN f).corr.toNat + n)) }) ∧
    (∃ t, exec (.disciplineLockChange dev lock) s = .next t ∧ t = s.onDev dev fun d => { d with timeLocked := lock }) ∧
    sets .flbase { d with flbase := data.extractLsb' 6 46 } ∧
    sets .flctl { d with flvec := data.extractLsb' 32 11, fllog2n := data.extractLsb' 0 5 } ∧
    sets .flrptr { d with flrptr := data.extractLsb' 0 32 } ∧ sets .savebase { d with savebase := data.extractLsb' 24 28 } ∧
    sets .savenum { d with savenum := data.extractLsb' 0 16 } ∧ sets .fctlLock { d with fctlLock := data.getLsbD 16 } ∧
    sets .qtbase { d with qtbase := data.extractLsb' 6 46 } ∧
    sets .fwwake { d with fwTick := d.fwTick && !data.getLsbD 3, fwWdog := d.fwWdog && !data.getLsbD 2, fwQerr := d.fwQerr && !data.getLsbD 1 } ∧
    sets (.pend k) { d with pendq := d.pendq.filter fun q => ¬ (q / 32 = k ∧ data.getLsbD (q % 32) = true) } ∧
    (f < 8 → sets (.wearCorr f) { d with fields := d.fields.set (f % 8) { d.fieldN f with corr := data.extractLsb' 32 32 } (Nat.mod_lt _ (by decide)) }) ∧
    (∃ t, exec (.registerWrite dev (.nonce k) data) s = .next t ∧ OnlyRegs s t dev ∧
      (t.dev dev).nonce[i] = if i.val / 8 = k then data.extractLsb' (8 * (i.val % 8)) 8 else d.nonce[i])

/-! ### Decoding, reset and the whole machine -/

/-- Words that the spec's tables and examples give, of every kind, decode to their instructions with every operand in its place; the parcel
0x0000, a reserved major, and a word with a reserved bit set decode to nothing (R116, R117, R124 to R127). -/
def Obligations.DecodesWords : Prop :=
  decodeTableWord 32 0x000A3103 = some (.add false 2 3 5) ∧ decodeTableWord 32 0xFFFE4207 = some (.addiI32 4 4 0xFFF) ∧
  decodeTableWord 32 0x000000D7 = some .tjoin ∧ decodeTableWord 32 0x00040063 = some .halt ∧
  decodeTableWord 32 0x00800063 = some (.cset 2) ∧ decodeTableWord 32 0x03C20063 = some (.cwait 0x0F) ∧
  decodeTableWord 32 0xFFA010D1 = some (.bne 4 0 0xFFA) ∧ decodeTableWord 32 0xC2080227 = some (.vfma .f32 0 true 4 0 1) ∧
  decodeTableWord 32 0xC01C3125 = some (.vmul .f32 0 false 34 33 3) ∧ decodeTableWord 16 0x245C = some (.vmvCompact 5 9) ∧
  decodeTableWord 32 0x7E00233B = some (.movlScalar 6 1) ∧ decodeTableWord 32 0xCC01013B = some (.vredsum .f32 2 8) ∧
  decodeTableWord 32 0x1059853F = some (.vcmpr48 .i8 10 11 12) ∧ decodeTableWord 32 0x0000C31F = some (.gacq 12 6) ∧
  decodeTableWord 32 0x0004036D = some (.rdtime 6) ∧ decodeTableWord 32 0xC898A339 = some (.vcvt .f32 false true .rne true 3 6 5) ∧
  decodeTableWord 32 0x00000043 = some (.mzero 0) ∧ decodeTableWord 32 0x00001245 = some (.cpy 9) ∧
  decodeTableWord 32 0x00001247 = some (.gth 9) ∧ decodeTableWord 32 0x000054E9 = some (.statr 9 5) ∧
  decodeTableWord 32 0x0004A069 = some (.fmtld 10) ∧ decodeTableWord 32 0x0000A367 = some (.qplan 6 10) ∧
  decodeTableWord 32 0x0002C367 = some (.qrun 6 12) ∧ decodeTableWord 32 0x010002EB = some (.csrr 5 4) ∧
  decodeTableWord 32 0x03C2406B = some (.csrw 15 4) ∧ decodeTableWord 32 0x0700006D = some (.psave 0xC true) ∧
  decodeTableWord 32 0x0002006D = some .prest ∧ decodeTableWord 16 0 = none ∧ decodeTableWord 32 0x0000007F = none ∧
  decodeTableWord 32 0x00040163 = none

/-- For every well-formed instruction that has an encoding, with every operand at every value that its field admits, the encoding is one or two
parcels, and decoding its bytes gives the instruction and leaves the bytes that follow; no bit of an operand is lost (R116, R124 to R127). -/
def Obligations.RoundTrip : Prop :=
  ∀ i : Instr, i.wf = true → encode i ≠ [] →
    ((encode i).length = 2 ∨ (encode i).length = 4) ∧ ∀ rest : List Byte, decode (encode i ++ rest) = some (i, rest)

/-- At reset every memory is in its canonical form, no WG is dispatched and no stream runs, firmware is not running, field 0 of the device is in the
first step of bring-up and every other field waits for its predecessor (R313, R314); that the pod is device 0 alone is the model's choice (log 1). -/
def Obligations.ResetState : Prop :=
  State.reset.Canon ∧ (∀ id, (State.reset.strm id).status = .free) ∧ (∀ x, (State.reset.ctx x).live = none) ∧ State.reset.pod = [0] ∧
  ∀ d, (State.reset.dev d).fwRunning = false ∧ (State.reset.dev d).launches = [] ∧ (State.reset.dev d).time = 0 ∧
    ((State.reset.dev d).fieldN 0).state = 1 ∧ ((State.reset.dev d).fieldN 0).step = 1 ∧
    ∀ f, 0 < f → f < 8 → ((State.reset.dev d).fieldN f).state = 0 ∧ ((State.reset.dev d).fieldN f).waiting = true

/-- From every state, reached by a run or not, in which device memory, host memory and the typed buffers are in canonical form (addresses
rising, no byte listed that equals what an unlisted address reads as: log 2), a step that answers a next state leaves them all so. Equal memories
are then equal data after any run, whatever instruction, engine, planner, save, restore or reset the step was. -/
def Obligations.StepKeepsCanonical : Prop :=
  ∀ s t : State, s.Canon → step s = .next t → t.Canon

/-- When a stream may issue by itself and the fetch at its execute cursor answers an instruction i, that no result that is still on its way or
stub holds back, the step answers what the meaning of i answers, with the issue accounted for. When the bytes that the core's instruction cache
holds from the cursor on decode to i, placed as R117 asks, the fetch answers i and changes nothing, so the step runs i. A fetch that finds no
instruction there raises ILLEGAL_OP, and one whose place faults raises that fault. What would issue, a fault among it, when it is not the stream's
turn changes nothing but the instruction cache; and in lock step, all the main streams that it binds attempt their instructions in the one step,
in the order in which R227 ranks what they do to a semaphore (R13, R22, R117, R122, R137, R161, R257, R263). -/
def Obligations.StepRunsDecoded : Prop :=
  ∀ (s : State) (id : SlotId) (r : List Move),
    let v := { s with clock := s.clock + 1, agenda := r }
    let u := due v id
    let c := u.st.ex
    s.agenda = .run id :: r → AtInstr v id →
    (MayIssue v id →
      (∀ (i : Instr) (n : Nat) (s1 : State), u.fetchInstr id c = .ok s1 (some (i, n)) → Unheld s1 i → step s = ran v id i s1) ∧
      (∀ (i : Instr) (bs : List Byte), decode bs = some (i, []) → c.pc.toNat % 2 = 0 → (∀ k < bs.length, codeByte u id (c.pc.toNat + k) = bs[k]?) →
        (bs.length = 4 → c.pc + 2 ≠ c.fin) → (isWb i = true → c.pc + BitVec.ofNat 64 bs.length = c.fin) →
        u.fetchInstr id c = .ok u (some (i, bs.length)) ∧ (Unheld u i → step s = ran v id i u))) ∧
    (∀ (i : Instr) (n : Nat) (s1 t : State), u.fetchInstr id c = .ok s1 (some (i, n)) → Unheld s1 i → exec i s1 = .next t →
      didIssue s1 t = true →
      (v.turnOf exec id = false → step s = .next (v.onCore id.core fun k => { k with icache := (s1.core id.core).icache })) ∧
      (v.turnOf exec id = true → v.losesTail exec id = false → 2 ≤ (v.together id).length → (v.together id).any (v.losesTail exec) = false →
        ∀ w, v.runAll exec ((v.together id).foldl (fun l o => insertBy v.semPlace o l) []) = .next w → step s = .next (v.noteShare exec id w))) ∧
    (∀ s1 : State, u.fetchInstr id c = .ok s1 none → step s = s1.raise .illegalOp) ∧
    (∀ f : FaultRec, u.fetchInstr id c = .bad f → step s = u.raiseRec f)
end

