-- ==== Sys2Proof/Tests/Slice0.lean ====
section
/-!
SUPPORT. Tests/Slice0.lean: the checks of WellFormed refuse, words written out from the spec's tables decode, single steps give what the
rules say, and, for every statement with hypotheses, a concrete state and operands that meet them (the theorems `witness_…`).
-/
namespace Sys2Proof.Tests

open Sys2Proof Sys2Proof.Machine Sys2Proof.Claims

set_option Elab.async false
set_option maxRecDepth 20000

/-! ### Ill-formed terms: one for each check of WellFormed (R117) -/

theorem test_wf_ld_post : (Instr.ld 0 true 0 5 5).wf = false := by decide
theorem test_wf_ldu_size : (Instr.ldUnsigned 3 false 0 5 6).wf = false := by decide
theorem test_wf_ldu_post : (Instr.ldUnsigned 2 true 0 5 5).wf = false := by decide
theorem test_wf_ldv_size : (Instr.ldv 1 false 0 5 6).wf = false := by decide
theorem test_wf_stv_size : (Instr.stv 1 false 0 5 6).wf = false := by decide
theorem test_wf_stg_size : ∀ r v o g l, (Instr.stg 6 r v o g l).wf = false := by intros; rfl
theorem test_wf_shift_float : (Instr.vsll .f32 0 false 1 2 3).wf = false ∧ (Instr.vsrl .f16 0 false 1 2 3).wf = false ∧
    (Instr.vsra .bf16 0 false 1 2 3).wf = false := by decide
theorem test_wf_vcmp_unsigned_float : (Instr.vcmp .ltu .f32 1 2 3).wf = false ∧ (Instr.vcmp .leu .f16 1 2 3).wf = false := by decide
theorem test_wf_vext_lane : (Instr.vext .i32 1 2 32).wf = false := by decide
theorem test_wf_vcvt_from_auto : (Instr.vcvt .f32 true true .rne true 3 1 2).wf = false := by decide
theorem test_wf_vcvt_code : (Instr.vcvt .f32 false false .rne false 11 1 2).wf = false ∧
    (Instr.vcvt .f32 false false .rne false 0 1 2).wf = false := by decide
theorem test_wf_long_types : (Instr.vdiv .i8 0 1 2).wf = false ∧ (Instr.vsqrt .i32 0 1).wf = false ∧ (Instr.vrcp .i8 0 1).wf = false ∧
    (Instr.vrsqrt .i16 0 1).wf = false ∧ (Instr.vexp2 .i64 0 1).wf = false ∧ (Instr.vlog2 .i32 0 1).wf = false := by decide
theorem test_wf_tile_part : (Instr.twr .f32 1 0 0 1).wf = false ∧ (Instr.trd .i64 0 0 0 1).wf = false := by decide
theorem test_wf_compress : (Instr.vcmpr48 .i8 10 10 12).wf = false ∧ (Instr.vcmpr48 .i64 10 11 12).wf = false ∧
    (Instr.vcmpr48Lc 0 10 10 12).wf = false := by decide
theorem test_wf_zero_parcel : (Instr.addCompact 0 0).wf = false := by decide
theorem test_wf_masks : (Instr.cset 0).wf = false ∧ (Instr.csetClr 0).wf = false ∧ (Instr.cwait 0).wf = false := by decide
theorem test_wf_tile_slots : (Instr.mzero 3).wf = false ∧ (Instr.mldacc 3 0).wf = false ∧ (Instr.mstacc 0 3).wf = false ∧
    (Instr.mstat 0 3).wf = false := by decide
theorem test_wf_semaphore_count : ∀ e s, (Instr.semsig e s 0).wf = false ∧ (Instr.semwait e s 0).wf = false := by
  intros; exact ⟨rfl, rfl⟩
theorem test_wf_qfence : (Instr.qfence true false false).wf = false ∧ (Instr.qfence false false false).wf = false := by decide
theorem test_wf_qplan : (Instr.qplan 0 5).wf = false := by decide

/-! ### Words of every family, written out from the tables (R124 to R127, R138 to R243) -/

/-- WI.s: IMM = 0xFFF, FN = 0, A = 4, D = 4, MAJ = 0x03. -/
theorem test_word_addi : decodeTableWord 32 (0xFFF * 2 ^ 20 + 0 * 2 ^ 17 + 4 * 2 ^ 12 + 4 * 2 ^ 7 + 0x03 * 2 + 1) = some (.addi 4 4 0xFFF) := by decide
/-- WR: MAJ = 0x01, FN = 0, D = 2, A = 3, B = 5. -/
theorem test_word_add : decodeTableWord 32 (0 * 2 ^ 22 + 5 * 2 ^ 17 + 3 * 2 ^ 12 + 2 * 2 ^ 7 + 0x01 * 2 + 1) = some (.add false 2 3 5) := by decide
/-- WB: OFF = -6, B = 0, A = 4, FN = 1, MAJ = 0x28. -/
theorem test_word_bne : decodeTableWord 32 (0xFFA * 2 ^ 20 + 0 * 2 ^ 15 + 4 * 2 ^ 10 + 1 * 2 ^ 7 + 0x28 * 2 + 1) = some (.bne 4 0 0xFFA) := by decide
/-- WS: MAJ = 0x31, FN = 2, IMM = 0: halt. -/
theorem test_word_halt : decodeTableWord 32 0x00040063 = some .halt := by decide
/-- WV: TY = 6 (f32), PM = 0, Q = 1, VY = 1, VX = 0, VD = 4, MAJ = 0x13. -/
theorem test_word_vfma : decodeTableWord 32 (6 * 2 ^ 29 + 1 * 2 ^ 25 + 1 * 2 ^ 19 + 0 * 2 ^ 13 + 4 * 2 ^ 7 + 0x13 * 2 + 1) = some (.vfma .f32 0 true 4 0 1) := by decide
theorem test_word_vcvt : decodeTableWord 32 0xC898A339 = some (.vcvt .f32 false true .rne true 3 6 5) := by decide
theorem test_word_vredsum : decodeTableWord 32 0xCC01013B = some (.vredsum .f32 2 8) := by decide
theorem test_word_gacq : decodeTableWord 32 0x0000C31F = some (.gacq 12 6) := by decide
theorem test_word_mzero : decodeTableWord 32 0x00000043 = some (.mzero 0) := by decide
theorem test_word_cpy : decodeTableWord 32 0x00001245 = some (.cpy 9) := by decide
theorem test_word_gth : decodeTableWord 32 0x00001247 = some (.gth 9) := by decide
theorem test_word_qrun : decodeTableWord 32 0x0002C367 = some (.qrun 6 12) := by decide
theorem test_word_statr : decodeTableWord 32 0x000054E9 = some (.statr 9 5) := by decide
theorem test_word_csrr : decodeTableWord 32 0x010002EB = some (.csrr 5 4) := by decide
theorem test_word_psave : decodeTableWord 32 0x0700006D = some (.psave 0xC true) := by decide
theorem test_word_vmv_compact : decodeTableWord 16 0x245C = some (.vmvCompact 5 9) := by decide
/-- The parcel 0, a reserved major and a reserved bit that is set are illegal (R117). -/
theorem test_words_illegal : decodeTableWord 16 0 = none ∧ decodeTableWord 32 0x7F = none ∧ decodeTableWord 32 0x00040163 = none := by decide

/-! ### Small states -/

/-- The slot at which every small state runs. -/
def me : SlotId := placeSlot
/-- Its context. -/
def ctx0 : CtxId := placeCtx
/-- Another slot of its cluster. -/
def other : SlotId := ⟨⟨0, 0, 0⟩, 0, 1⟩
/-- Its core. -/
def core0 : CoreId := ⟨0, 0, 0⟩
/-- A stream of a live WG inside a block of one pass, at `halt` (log 4), its launch having a supervisor region and its
segment every permission. -/
def base : State :=
  ((State.reset.withFetchWord 32 0x00040063).onLaunch 0 0 fun l => { l with svbase := some (0x40000, 16) }).onDev 0 fun d =>
    { d with ktts := [(1, { entries := [{ va := placeVa, pa := placePa, state := 1, layout := 0, log2 := 16, permMask := 0xFFFFF }] })] }
/-- The small state with the stream changed. -/
def str (f : Stream → Stream) : State := base.onStrm me f
/-- The small state with the context changed. -/
def ctxd (f : Ctx → Ctx) : State := base.onCtx ctx0 f
/-- The small state with its device changed. -/
def devd (f : Device → Device) : State := base.onDev 0 f
/-- The small state with scalar r holding x. -/
def scal (r : BitVec 5) (x : Word) : State := str fun st => st.ws r x

theorem canTrap_of {s : State} (h : s.st.priv = .u)
    (hl : ((s.launchOf s.xid).bind Launch.svbase).isSome = true) : CanTrap s := by
  refine ⟨h, ?_⟩
  cases hl' : s.launchOf s.xid with
  | none => simp [hl'] at hl
  | some l =>
    cases hv : l.svbase with
    | none => simp [hl', hv] at hl
    | some r => exact ⟨l, r, rfl, hv⟩
theorem arrived_of {s : State} (h : (s.core s.cur.core).paths = []) : Arrived s := by
  intro p hp
  rw [h] at hp
  cases hp

theorem canon_of {s : State} (hd : ∀ p ∈ s.devs, p.2.mem.wf ∧ p.2.hostMem.wf) (hc : ∀ p ∈ s.ctxs, p.2.wb.wf ∧ p.2.ab.wf ∧ p.2.cbuf.wf) :
    s.Canon := ⟨hd, hc⟩
/-- A translation or a read has an answer. -/
def good {α : Type} (r : Res α) : Bool := match r with
  | .ok _ => true
  | .bad _ => false
/-- A record read has an answer. -/
def recReads (r : RecRead) : Bool := match r with
  | .ok _ _ => true
  | .wait | .bad _ => false
/-- A fetch has an answer, or a fault. -/
def fetched {α : Type} (r : Fetch α) : Nat := match r with
  | .ok _ _ => 1
  | .bad _ => 2
  | .wait => 0
/-- A tail slot of the cluster. -/
def tailSlot : SlotId := ⟨⟨0, 0, 0⟩, 0, 2⟩
/-! ### Statements of the scalar instructions -/

theorem witness_ScalarWritesAndPlaces :
    (1#5 ≠ 0 ∧ 31#5 ≠ 1) ∧
    (let c : Cursor := { pc := 4, hdr := 0, fin := 8, rem := 1 };
      (c.pc + 2 ≠ c.fin ∧ c.pc + 4 = c.fin ∧ c.rem.toNat ≤ 1)) ∧
    (let c : Cursor := { pc := 4, hdr := 0, fin := 8, rem := 2 };
      (c.pc + 4 = c.fin ∧ 1 < c.rem.toNat)) := by decide
theorem witness_BranchesAndJumps :
    ((scal 5 0xFFFFFFFF).rs 5).toNat < 2 ^ 32 ∧ (2 ^ 32 ≤ ((scal 5 0x100000000).rs 5).toNat ∧ CanTrap (scal 5 0x100000000)) ∧
    (2 ≤ ((str fun st => { st with lc := st.lc.set 0 2 }).st.rlc 0).toNat ∧ ¬ 2 ≤ (base.st.rlc 0).toNat) ∧
    ((scal 5 1).rs 0 ≠ (scal 5 1).rs 5 ∧ base.rs 0 = base.rs 5) := by
  refine ⟨by decide +kernel, ⟨by decide +kernel, canTrap_of ?_ ?_⟩, ?_, ?_⟩ <;> decide +kernel
/-- Call depths 15 and 16, an even and an odd target, a return address to take, a deferred one with its entry and one without, a store that holds
nothing with and without spilled entries, and a tail that may end. -/
theorem witness_CallsAndReturns :
    let odd := scal 5 1
    let full := str fun st => { st with rasCount := 16 }
    let near16 := str fun st => { st with rasCount := 15 }
    let bare := str fun st => ({ st with rasCount := 1 } : Stream).setRas 0 { raddr := 2, defer := true }
    let deferred := bare.onStrm me fun st => { st with tails := [.defer 0x20000000000 0] }
    let spilt := str fun st => { st with rasSpill := 1 }
    let tl : State := { base.setStrm tailSlot { status := .running, owner := 0 } with cur := tailSlot }
    near16.st.rasCount.toNat < 16 ∧ (near16.rs 5 + BitVec.ofInt 64 (2 * (0#12).toInt)).getLsbD 0 = false ∧
    (full.st.rasCount.toNat = 16 ∧ CanTrap full) ∧
    ((odd.rs 5 + BitVec.ofInt 64 (2 * (0#12).toInt)).getLsbD 0 = true ∧ CanTrap odd) ∧
    (0 < full.st.rasCount.toNat ∧ full.st.rasCount.toNat ≤ 16 ∧
      full.st.liveAbove (full.st.rasSpill.toNat + full.st.rasCount.toNat) = false ∧ (full.st.getRas 15).defer = false) ∧
    (deferred.st.rasCount = 1 ∧ deferred.st.liveAbove 1 = false ∧ (deferred.st.getRas 0).defer = true ∧ AtJoin deferred ∧ Arrived deferred ∧
      deferred.st.deferAt 0 = some 0x20000000000 ∧ recReads (deferred.recRead .load (0x20000000000 + 0x40) 1216) = true) ∧
    (bare.st.liveAbove 1 = false ∧ (bare.st.getRas 0).defer = true ∧ AtJoin bare ∧ Arrived bare ∧ bare.st.deferAt 0 = none) ∧
    (spilt.st.rasSpill ≠ 0 ∧ CanTrap spilt) ∧ (base.st.rasCount = 0 ∧ base.st.rasSpill = 0 ∧ base.cur.sl < 2 ∧ CanTrap base) ∧
    (2 ≤ tl.cur.sl ∧ tl.st.liveAbove 0 = false ∧ AtJoin tl ∧ Arrived tl ∧ tl.st.rasCount = 0 ∧ tl.st.rasSpill = 0) := by
  refine ⟨?_, ?_, ⟨?_, canTrap_of ?_ ?_⟩, ⟨?_, canTrap_of ?_ ?_⟩, ?_, ⟨?_, ?_, ?_, ⟨?_, ?_, ?_⟩, arrived_of ?_, ?_, ?_⟩,
    ⟨?_, ?_, ⟨?_, ?_, ?_⟩, arrived_of ?_, ?_⟩, ⟨?_, canTrap_of ?_ ?_⟩, ⟨?_, ?_, ?_, canTrap_of ?_ ?_⟩,
    ⟨?_, ?_, ⟨?_, ?_, ?_⟩, arrived_of ?_, ?_, ?_⟩⟩ <;> decide +kernel
theorem witness_ConditionSyncBits :
    let j := str fun st => { st with wait := .join }
    (j.cur.sl < 2 ∧ j.st.wait = .join ∧ j.cx.cb &&& 0#8 = 0#8 ∧ j.cx.cb &&& 1#8 ≠ 1#8) ∧
    AtJoin base ∧ Arrived base ∧ (base.cx.cb &&& 0#8 = 0#8) ∧ (base.cx.cb &&& 2#8 ≠ 2#8) ∧ base.cur.sl < 2 ∧ base.st.wait ≠ .join ∧
    ((base.onCtx base.xid fun c => { c with cb := c.cb ||| 1 }).cx.cb &&& 1#8 = 1#8) ∧
    ((base.onCtx base.xid fun c => { c with cb := c.cb ||| 1 }).cx.cb &&& 3#8 ≠ 3#8) ∧ base.st.liveAbove 0 = false ∧
    (let tl : State := { base.setStrm tailSlot { status := .running, owner := 0 } with cur := tailSlot }
     2 ≤ tl.cur.sl ∧ CanTrap tl) := by
  refine ⟨?_, ⟨?_, ?_, ?_⟩, arrived_of ?_, ?_, ?_, ?_, ?_, ?_, ?_, ?_, ?_, canTrap_of ?_ ?_⟩ <;> decide +kernel
/-- The first arrival of a join whose mask is not full sets its bit, and the stream waits. -/
theorem test_join_arrives : (match exec (.join 3 0) base with
    | .next t => t.cx.cb == 1#8 && t.st.status == .waiting && t.st.wait == .join && t.st.ex == base.st.ex
    | .fault _ | .refused _ => false) = true := by decide +kernel
theorem witness_EndingAndTime :
    let w := str fun st => { st with status := .waiting, wait := .waitt 0 }
    base.cur.sl < 2 ∧ ((base.dev 0).time - base.rs 0).toNat < 2 ^ 63 ∧ 2 ^ 63 ≤ ((base.dev 0).time - (scal 5 (2 ^ 63)).rs 5).toNat ∧
    (w.st.status = .waiting ∧ w.st.wait = .waitt 0 ∧ ((w.dev 0).time - 0).toNat < 2 ^ 63) := by
  decide +kernel
theorem witness_SupervisorEntryAndReturn :
    let h := str fun st => { st with priv := .s, aside := some {} }
    let in_ := h.onStrm me fun st => { st with trap := { st.trap with epc := hiBits 0x20000000004, ehdr := hiBits 0x20000000000 } }
    let out := h.onStrm me fun st => { st with trap := { st.trap with epc := 1 } }
    (2 ^ 15 - 1 < 2 ^ 15) ∧ CanTrap base ∧ FaultName.align.logOnly = false ∧
    (h.st.priv = .s ∧ Settled h ∧ h.st.trap.epc = h.st.trap.ehdr ∧ h.st.aside = some {}) ∧
    (in_.st.priv = .s ∧ Settled in_ ∧ in_.st.trap.epc ≠ in_.st.trap.ehdr ∧ fetched (in_.fetchWord me 0x20000000000) = 1) ∧
    (out.st.priv = .s ∧ Settled out ∧ out.st.trap.epc ≠ out.st.trap.ehdr ∧ fetched (out.fetchWord me 0) = 2) ∧
    (h.lidOf h.xid = some 0 ∧ (h.launch? 0 0).map Launch.done = some false) := by
  refine ⟨by decide, canTrap_of ?_ ?_, ?_, ⟨?_, ⟨?_, ?_, ?_⟩, ?_, ?_⟩, ⟨?_, ⟨?_, ?_, ?_⟩, ?_, ?_⟩, ⟨?_, ⟨?_, ?_, ?_⟩, ?_, ?_⟩, ?_⟩ <;> decide +kernel

/-! ### Statements of loads and stores -/

/-- The small state with a load performed. -/
def performed (d : LoadDest) (post : Bool) : State :=
  str fun st => { st with acc := { st.acc with lead := 1, done := [⟨0, d, 7⟩], bases := if post then [(0, 6, 8)] else [] } }
theorem witness_ScalarLoadResults :
    (∀ p ∈ (performed (.scalar 5 8 true) false).st.pend, p.reg ≠ .s 5) ∧
    Loaded (performed (.scalar 5 8 true) true) (.scalar 5 (2 ^ (3#2).toNat) true) 7 true 6 8 ∧
    Loaded (performed (.scalar 5 1 false) false) (.scalar 5 (2 ^ (0#2).toNat) false) 7 false 6 8 ∧
    Loaded (performed (.scalar 5 8 true) false) (.scalar 5 8 true) 7 false 6 8 := by
  unfold Loaded; decide +kernel
theorem witness_VectorLoadResults :
    let s := performed (.vector 9) true
    let q := str fun st => { st with acc := { st.acc with lead := 1 } }
    (Loaded s (.vector (s.vreg 9)) 7 true 6 8 ∧ Usable s [s.vreg 9]) ∧
    (Loaded (performed (.vector 9) false) (.vector 9) 7 false 6 8 ∧ Usable (performed (.vector 9) false) [9]) ∧
    (1 ≤ q.st.acc.lead ∧ (q.st.acc.bases.filter fun b => b.1 == q.st.seq) = []) := by
  unfold Loaded Usable; decide +kernel
/-- The access cursor at `ld.d s5, [s6]` with s6 at the start of the code, at an address that nothing maps, and with s6 not yet known; at a strided
and an indexed ldv of 4-byte elements; and at ldv.xw in the local window. -/
theorem witness_AccessCursorEntersLoads :
    let f (d : LoadDest) (n : Nat) (x : Option StrideIdx) : LoadForm :=
      { dest := d, size := n, len := n, base := 6, off := 0, post := false, path := .scalar, x := x, xw := false }
    let there := (scal 6 0x20000000000).onStrm me fun st => st.ws 7 4
    let a := there.st.acc
    let xl : Xl := ⟨ctx0, 1, .u, .load, .scalar⟩
    a.clean .rrb = true ∧ loadForm (rotV 4 a.rrb) (.ld 3 false 0 6 5) = some (f (.scalar 5 8 true) 8 none) ∧ a.room (.scalar 5 8 true) = true ∧
    (there.strm me).accScalar 0 a 6 = some 0x20000000000 ∧ good (there.xlAccess xl 0x20000000000 8) = true ∧
    (base.strm me).accScalar 0 a 6 = some 0 ∧ good (base.xlAccess xl 0 8) = false ∧
    ((str fun st => { st with busy := [(6, 3)] }).strm me).accScalar 0 a 6 = none ∧
    (loadForm (rotV 4 a.rrb) (.ldvSI false (.strided 7) 6 9) = some (f (.vector 9) 4 (some (.strided 7))) ∧ (there.strm me).accScalar 0 a 7 = some 4 ∧
      a.room (.vector 9) = true ∧ good (there.xlElems xl 4 ((List.range 32).map fun e => (e, 0x20000000000 + BitVec.ofNat 64 e * 4))) = true) ∧
    (loadForm (rotV 4 a.rrb) (.ldvSI false (.indexed 9) 6 10) = some (f (.vector 10) 4 (some (.indexed 9))) ∧
      (there.strm me).accVecReady a 9 = true ∧ (there.strm me).retained [9] = 0) ∧
    (1 < 3 ∧ 40 * 1 + 40 ≤ 0x78000 ∧ 1 * 0x80000 + 0x78000 + 2 * 1 + 2 ≤ shareSize (base.exclOf ctx0) .cb) := by
  decide +kernel
/-- Stores of the address in s6, mapped and with no frame about it, for st, st.d with s2 as its base, stv and strided stv. -/
theorem witness_StoresEnterTheSq :
    let g := (scal 6 0x20000000000).onStrm me fun st => st.ws 2 0x20000000000
    good (g.xlAccess ⟨ctx0, 1, .u, .store, .scalar⟩ 0x20000000000 8) = true ∧ g.st.liveFrame 0x20000000000 8 = none ∧
    good (g.xlAccess ⟨ctx0, 1, .u, .store, .vecStore⟩ 0x20000000000 128) = true ∧ g.st.liveFrame 0x20000000000 128 = none ∧ Usable g [9, 10] ∧
    good (g.xlElems ⟨ctx0, 1, .u, .store, .scalar⟩ 4 ((List.range 32).map fun e => (e, 0x20000000000 + BitVec.ofNat 64 e * 4))) = true := by
  unfold Usable; decide +kernel
/-- A load of two pieces in the LQ, the second of which performs; a byte from the stream's own store, from a GLC copy, and from a buffer. -/
theorem witness_LoadReadsMemory :
    let p (k : Nat) : Piece := { at_ := 8 * k, len := 8, loc := .kt 0 1 0 (8 * k) }
    let b : Piece := { at_ := 0, len := 40, loc := .buf ctx0 .cb 40 }
    let it : LqItem := .load 3 (.vector 9) true 0x20000000000 [p 0, p 1] []
    let s := str fun st => { st with acc := { st.acc with lq := [it] } }
    let own := s.onStrm me fun st => { st with sq := [.store 1 0x20000000000 [(p 0, List.replicate 8 7)]] }
    let copy := s.onCore core0 fun k => { k with glc := [(0x10000 / 128, 5)] }
    (s.strm me).status ≠ .saved ∧ (s.core core0).fenced = false ∧ (s.strm me).acc.fault = none ∧ (s.strm me).acc.lq = [it] ∧
    ([p 0, p 1] : List Piece)[1]? = some (p 1) ∧ (p 1).performed [] = false ∧ s.readStop [p 1] = none ∧ (p 1).isXw = false ∧
    s.locate (p 1).loc = inMem 0 0x10008 false ∧ 0x10008 % 128 + 8 ≤ 128 ∧
    (s.ownStores me 3 = [] ∧ (placeByte s core0 true (p 1) 7).isSome = true) ∧
    (Holding own (1, .kt 0 1 0 0, List.replicate 8 7) 0 0x10000 7 ∧ own.ownStores me 3 = [(1, .kt 0 1 0 0, List.replicate 8 7)] ∧
      own.key (p 0).loc = [(0, 0x10000)]) ∧
    placeByte copy core0 true (p 0) 0 = some 5 ∧ (b.isXw = true ∧ placeByte s core0 false b 0 = some 0) := by
  refine ⟨?_, ?_, ?_, ?_, ?_, ?_, ?_, ?_, ?_, ?_, ?_, ⟨⟨0x10000, ?_⟩, ?_⟩, ?_⟩ <;> decide +kernel
/-- A store of 8 bytes at the head of the SQ, one that meets an entry set aside, and one on a path to memory and to a buffer, whose granule a
write of a higher rank has reached or not. -/
theorem witness_StoreTakesEffect :
    let p : Piece := { at_ := 0, len := 8, loc := .kt 0 1 0 0 }
    let it : PathItem := { loc := .kt 0 1 0 0, bytes := List.replicate 8 7, owner := none, cmd := none }
    let s := (str fun st => { st with sq := [.store 0 0x20000000000 [(p, List.replicate 8 7)]] }).onCore core0 fun k => { k with paths := [it] }
    s.Canon ∧ (s.core core0).fenced = false ∧ (s.strm me).sq = [.store 0 0x20000000000 [(p, List.replicate 8 7)]] ∧
    s.loadBlocks me 0 [(p, List.replicate 8 7)] = false ∧ (s.core core0).paths[0]? = some it ∧ s.pathBlocked core0 0 it = false ∧
    s.locate it.loc = inMem 0 0x10000 false ∧
    s.sqBehind (.store 0 0x20000000000 [(p, List.replicate 8 7)]) (s.strm me).aside = false ∧
    s.sqMeets (.store 5 0x20000000000 [(p, List.replicate 8 7)]) (.store 2 0x20000000000 [(p, List.replicate 8 1)]) = true ∧
    (let t := base.onCore core0 fun k => { k with paths := [{ it with loc := .buf ctx0 .wb 32 }] }
     let u := t.onCore core0 fun k => k.turn (.granule 0 .wb 2) 9
     t.locate (.buf ctx0 .wb 32) = .bufMem [ctx0] .wb 32 ∧ t.pathBlocked core0 0 { it with loc := .buf ctx0 .wb 32 } = false ∧
      fget? (t.core core0).turns (.granule 0 .wb (32 / 16)) = none ∧ fget? (u.core core0).turns (.granule 0 .wb (32 / 16)) = some 9 ∧
      u.writeRank core0 core0 { it with loc := .buf ctx0 .wb 32 } < 9) := by
  refine ⟨canon_of ?_ ?_, ?_⟩ <;> decide +kernel
theorem witness_JoinPointsEnterBothQueues :
    let s := scal 6 0x20000000000
    let odd := scal 6 0x20000000001
    s.st.acc.late = [] ∧ (s.rs 6).toNat % 4 = 0 ∧ (s.rs 6).toNat % 8 = 0 ∧ good (s.xlAtomic s.cur (s.rs 6) 8) = true ∧
    good (s.xlAtomic s.cur (s.rs 6) 4) = true ∧ s.frameRace (s.rs 6) 8 = none ∧ s.frameRace (s.rs 6) 4 = none ∧
    ((odd.rs 6).toNat % 4 ≠ 0 ∧ CanTrap odd) := by
  refine ⟨?_, ?_, ?_, ?_, ?_, ?_, ?_, ?_, canTrap_of ?_ ?_⟩ <;> decide +kernel
/-- A mark, a fence and an atomic at the heads of both queues. -/
def joined (j : JoinOp) : State := str fun st => { st with acc := { st.acc with lq := [.twin 0] }, sq := [.twin 0 j] }
theorem witness_AtomicsAreIndivisible :
    let a : JoinOp := .amo (some .add) false true .ar .device 5 1 0 0x20000000000 (.kt 0 1 0 0)
    (joined a).Canon ∧ ((joined a).core core0).fenced = false ∧ ((joined a).strm me).acc.lq = [.twin 0] ∧
    ((joined a).strm me).sq = [.twin 0 a] ∧ (joined a).releaseHold me .device = false ∧ (joined a).ownGranule me 0 (.kt 0 1 0 0) = false ∧
    (joined a).locate (.kt 0 1 0 0) = inMem 0 0x10000 false ∧
    ((joined .mark).strm me).sq = [.twin 0 .mark] ∧ (joined (.fence .ar .device)).releaseHold me .device = false := by
  refine ⟨canon_of ?_ ?_, ?_⟩ <;> decide +kernel

/-! ### Statements of the vector instructions -/

/-- The small state with an entry in the first operand queue. -/
def queued : State := str fun st => { st with acc := { st.acc with qs := st.acc.qs.set 0 [5] } }
theorem witness_VectorArithmetic :
    (Usable base (base.vreg 4 :: srcRegs [base.vsrc false 2, base.vsrc false 3]) ∧ srcQs [base.vsrc false 2, base.vsrc false 3] = []) ∧
    (Usable queued (queued.vreg 4 :: srcRegs [queued.vsrc true 0, queued.vsrc false 3]) ∧
      (∀ k ∈ srcQs [queued.vsrc true 0, queued.vsrc false 3], queued.st.qEmpty k = false)) ∧ VTy.i8.isFloat = false ∧ VTy.f32.isFloat = true := by
  unfold Usable; decide +kernel
theorem witness_VectorLogicAndCompare :
    Usable base ((4 :: [2, 3]).map base.vreg) ∧ Usable base ([2, 3].map base.vreg) ∧
    Usable base (base.vreg 4 :: srcRegs [base.vsrc false 2, base.vsrc false 3]) ∧ VTy.i64.isFloat = false ∧ VTy.bf16.isFloat = true := by
  unfold Usable; decide +kernel
theorem witness_VectorMovesAndPredicates :
    Usable base ((63 :: [63, 0]).map base.vreg) ∧ ((127#7).toNat < VTy.i8.count ∧ Usable base [base.vreg 63]) ∧ base.cx.hzdEn = false ∧
    Usable base (([] : List (BitVec 6)).map base.vreg) := by
  unfold Usable; decide +kernel
/-- The small state with latch 1 in a state. -/
def latched (st1 : LatchSt) : State := str fun st => st.wl 1 { st.rl 1 with st := st1 }
theorem witness_LongUnitsAndLatches :
    VTy.i32.isDivTy = true ∧ VTy.f16.isFloat = true ∧ Usable base ([2, 3].map base.vreg) ∧ (base.st.rl 1).st ≠ .pending ∧
    (((latched .full).st.rl 1).st = .full ∧ Usable (latched .full) [(latched .full).vreg 9]) ∧ ((latched .pending).st.rl 1).st = .pending ∧
    ((base.st.rl 1).st = .empty ∧ CanTrap base) := by
  refine ⟨?_, ?_, ?_, ?_, ⟨?_, ?_⟩, ?_, ?_, canTrap_of ?_ ?_⟩ <;> (try unfold Usable) <;> decide +kernel
/-- A format that fits and one that does not, a table entry that is invalid, a part of each kind, a valid and an invalid descriptor. -/
theorem witness_ConvertTileCompress :
    let nf := str fun st => { st with fmt := st.fmt.set 0 0x000C01A4 }
    (nf.st.cvtFmt true 0 = some (.nf 0x000C01A4) ∧ (Fmt.nf 0x000C01A4).cw ≤ 8 * VTy.f32.size ∧ Usable nf [nf.vreg 6, nf.vreg 5]) ∧
    ((match base.st.cvtFmt false 1 with | some f => decide (8 * VTy.i8.size < f.cw) | none => false) = true ∧ CanTrap base) ∧
    base.st.cvtFmt true 0 = none ∧ partOk .i8 3 = true ∧ partOk .f32 0 = true ∧ Usable base [base.vreg 9, base.vreg 10, base.vreg 11] ∧
    nfValid (nf.st.rfmt ((nf.st.rlc 0).setWidth 4)) = true ∧ nfValid (base.st.rfmt ((base.st.rlc 0).setWidth 4)) = false := by
  refine ⟨⟨?_, ?_, ?_⟩, ⟨?_, canTrap_of ?_ ?_⟩, ?_⟩ <;> (try unfold Usable) <;> decide +kernel
/-- A write that is due and one that is not, each bank on and off, in retention, a pending write to the source with either MODE. -/
theorem witness_LandingAndBanks :
    let w : PendWrite := ⟨0, .v 9, 7, BitVec.allOnes 128, 0⟩
    let w1 : PendWrite := ⟨1, .p 3, 7, BitVec.allOnes 128, 0⟩
    let s := str fun st => { st with pend := [w, w1] }
    let lat (c : Nat) := str fun st => st.wl 1 { st.rl 1 with st := .pending, due := some (c, 7) }
    let few := base.onLaunch 0 0 fun l => { l with vbanks := 1 }
    let asleep := str fun st => { st with ret := 1 }
    let hz (m : Bool) := s.onCtx ctx0 fun c => { c with hzdEn := true, hzdMode := m }
    let late := devd fun d => { d with cycle := 1024 }
    ((s.strm me).pend[1]? = some w1 ∧ (s.dev 0).cycle < w1.land) ∧
    ((s.strm me).pend[0]? = some w ∧ w.land ≤ (s.dev 0).cycle ∧ (s.strm me).pend.length = 2 ∧ w1.reg ≠ w.reg) ∧
    (((lat 0).strm me).rl 1).due = some (0, 7) ∧ (((lat 1).strm me).rl 1).due = some (1, 7) ∧
    ((few.vreg 16).toNat / 16 ≥ few.vbanks ∧ CanTrap few) ∧
    (asleep.st.ret.getLsbD ((asleep.vreg 9).toNat / 16) = true ∧ (asleep.vreg 9).toNat / 16 < asleep.vbanks) ∧
    ((hz false).st.ret = 0 ∧ (hz false).cx.hzdEn = true ∧ (hz false).st.pend = [w, w1] ∧ w.reg = .v ((hz false).vreg 9) ∧
      (hz false).cx.hzdMode = false ∧ CanTrap (hz false)) ∧
    ((hz true).st.ret = 0 ∧ (hz true).cx.hzdEn = true ∧ (hz true).st.pend = [w, w1] ∧ (hz true).cx.hzdMode = true) ∧
    (base.st.ret = 0 ∧ base.st.pend = [] ∧ (base.vreg 63).toNat / 16 < base.vbanks) ∧
    ((late.strm me).present = true ∧ (3#2).toNat < (late.launchOf (late.xidOf me)).elim 4 Launch.vbanks ∧
      1024 ≤ (late.dev 0).cycle - (late.strm me).idle ∧ (late.strm me).pend = []) := by
  refine ⟨?_, ?_, ?_, ?_, ⟨?_, canTrap_of ?_ ?_⟩, ?_, ⟨?_, ?_, ?_, ?_, ?_, canTrap_of ?_ ?_⟩, ?_⟩ <;> decide +kernel

/-! ### Statements of groups -/

/-- The small state with group 12 in its group table. -/
def grouped (e : GEntry) : State := devd fun d => { d with gt := [(12, e)] }
/-- A member entry over the first 256 bytes of the segment. -/
def gmem : GEntry := { valid := true, member := true, lbase := 0x20000000000, lsize := 256, asid := 1 }
theorem witness_SerialNumberComparison :
    let s := grouped gmem
    let far := (grouped gmem).onStrm me fun st => st.ws 6 0x80000000
    let e := fget (s.dev 0).gt 12 {}
    e.valid = true ∧ e.member = true ∧ (s.rs 6).toNat < 2 ^ 32 ∧ AtJoin s ∧ (e.applied.toNat + 2 ^ 32 - (s.rs 6).toNat) % 2 ^ 32 < 2 ^ 31 ∧
    ((far.rs 6).toNat < 2 ^ 32 ∧ AtJoin far ∧ 2 ^ 31 ≤ (e.applied.toNat + 2 ^ 32 - (far.rs 6).toNat) % 2 ^ 32) := by
  unfold AtJoin; decide +kernel
/-- Offsets 0, 252 and 256 of a group of 256 bytes; a target of 2^32; an entry that is not valid, and one that is no member. -/
theorem witness_GroupInstructions :
    let s := (grouped gmem).onStrm me fun st => st.ws 7 252
    let out := (grouped gmem).onStrm me fun st => st.ws 7 256
    let odd := (grouped gmem).onStrm me fun st => st.ws 7 2
    let big := (grouped gmem).onStrm me fun st => st.ws 6 0x100000000
    let none_ := grouped {}
    let no := grouped { gmem with member := false }
    let left := no.onStrm me fun st => { st.ws 6 1 with wait := .gacq 12 1 }
    let met := no.onStrm me fun st => { st with wait := .gacq 12 0 }
    let far (s : State) : Prop := 2 ^ 31 ≤ ((fget (s.dev 0).gt 12 {}).applied.toNat + 2 ^ 32 - ((s.rs 6).setWidth 32).toNat) % 2 ^ 32
    ((s.rs 7).toNat % 4 = 0 ∧ (s.rs 7).toNat + 4 ≤ 256 ∧ good (s.xlAccess ⟨ctx0, 1, .u, .store, .none⟩ (0x20000000000 + s.rs 7) 4) = true ∧
      s.st.liveFrame (0x20000000000 + 252) 4 = none ∧ Usable s [s.vreg 9] ∧ (s.st.rl 1).st ≠ .pending) ∧
    (CanTrap out ∧ 256 < (out.rs 7).toNat + 4) ∧ (CanTrap odd ∧ (odd.rs 7).toNat % 4 ≠ 0) ∧ (CanTrap big ∧ 2 ^ 32 ≤ (big.rs 6).toNat) ∧
    (CanTrap none_ ∧ (fget (none_.dev 0).gt 12 {}).valid = false) ∧
    (CanTrap no ∧ (no.rs 6).toNat < 2 ^ 32 ∧ (fget (no.dev 0).gt 12 {}).valid = true ∧ (fget (no.dev 0).gt 12 {}).member = false ∧
      (fget (no.dev 0).gt 12 {}).joining = false ∧ no.st.wait ≠ .gacq 12 ((no.rs 6).setWidth 32)) ∧
    (CanTrap left ∧ (fget (left.dev 0).gt 12 {}).member = false ∧ left.st.wait = .gacq 12 ((left.rs 6).setWidth 32) ∧ far left) ∧
    ((met.rs 6).toNat < 2 ^ 32 ∧ (fget (met.dev 0).gt 12 {}).valid = true ∧ (fget (met.dev 0).gt 12 {}).member = false ∧
      met.st.wait = .gacq 12 ((met.rs 6).setWidth 32) ∧ ¬ far met ∧ AtJoin met) := by
  refine ⟨?_, ⟨canTrap_of ?_ ?_, ?_⟩, ⟨canTrap_of ?_ ?_, ?_⟩, ⟨canTrap_of ?_ ?_, ?_⟩, ⟨canTrap_of ?_ ?_, ?_⟩,
    ⟨canTrap_of ?_ ?_, ?_⟩, ⟨canTrap_of ?_ ?_, ?_⟩, ?_⟩ <;> (try unfold Usable) <;> (try unfold AtJoin) <;> decide +kernel
/-- A store on its way to a home switch whose only member is device 0; a delivery to a member and one to a joiner. -/
theorem witness_HomeSwitchStamps :
    let m (dev : Nat) : HomeMsg := ⟨3, 12, dev, .store me 0 1 0 [7]⟩
    let s (dev : Nat) : State := { latched .pending with toHome := [m dev], homes := [((3, 12), { members := [0] })] }
    let d (i : GItem) : Delivery := ⟨3, 12, 0, 1, i⟩
    let t : State := { grouped gmem with deliveries := [d (.store 0 [7])] }
    let j : State := { grouped { gmem with joining := true, member := false } with deliveries := [d (.joinRec 0)] }
    ((s 0).toHome = [m 0] ∧ (m 0).item = .store me 0 1 0 [7] ∧ (s 0).mayStamp 3 12 = true ∧ 0 ∈ ((s 0).homeSt 3 12).members ∧
      ((s 0).strm me).present = true ∧ (((s 0).strm me).rl 1).st = .pending) ∧
    ((s 1).mayStamp 3 12 = true ∧ 1 ∉ ((s 1).homeSt 3 12).members) ∧
    (t.deliveries[0]? = some (d (.store 0 [7])) ∧ (t.gent 0 12).valid = true ∧ (t.gent 0 12).member = true ∧ (t.gent 0 12).joining = false ∧
      (t.gent 0 12).held = [] ∧ serialReached (t.gent 0 12).applied 1 = false) ∧
    (j.deliveries[0]? = some (d (.joinRec 0)) ∧ (j.gent 0 12).joining = true) := by
  decide +kernel
/-- APPLIED + 64 is the last sequence that a receiver holds; APPLIED + 65 and APPLIED itself are dropped; the window wraps with the sequence. -/
theorem test_delivery_window :
    let held (app q : BitVec 32) : Bool :=
      let s : State := { grouped { gmem with applied := app } with deliveries := [⟨3, 12, 0, q, .store 0 [7]⟩] }
      match exec (.groupDelivery 0) s with
      | .next t => (t.gent 0 12).held == [(q, .store 0 [7])] && (t.gent 0 12).applied == app
      | .fault _ | .refused _ => false
    (held 9 10 && held 9 73 && !held 9 74 && !held 9 9 && held 0xFFFFFFFF 0 && held 0xFFFFFFFF 63 && !held 0xFFFFFFFF 64) = true := by
  decide +kernel
/-- A held store that translates, one that does not, a leave record, and a gap of 5 microseconds. -/
theorem witness_ReceiverApplies :
    let e (i : GItem) : GEntry := { gmem with held := [(1, i)] }
    let s (i : GItem) := grouped (e i)
    let bad := grouped { e (.store 0 [7]) with lbase := 0 }
    let gap (now : Word) := (grouped { gmem with gapto := 5, gapSince := some 0 }).onDev 0 fun d => { d with time := now }
    ((grouped gmem).gent 0 12).nextHeld = none ∧
    (((s (.store 0 [7])).gent 0 12).valid = true ∧ ((s (.store 0 [7])).gent 0 12).member = true ∧ ((s (.store 0 [7])).gent 0 12).applyStall = false ∧
      ((s (.store 0 [7])).gent 0 12).nextHeld = some (.store 0 [7]) ∧
      (match (s (.store 0 [7])).xlAccess ⟨⟨⟨0, 0, 0⟩, 0⟩, 1, .u, .store, .none⟩ 0x20000000000 1 with
        | .ok ps => ((s (.store 0 [7])).firstStop ps).isNone
        | .bad _ => false) = true) ∧
    ((bad.gent 0 12).nextHeld = some (.store 0 [7]) ∧ good (bad.xlAccess ⟨⟨⟨0, 0, 0⟩, 0⟩, 1, .u, .store, .none⟩ 0 1) = false) ∧
    ((s (.leaveRec 0)).gent 0 12).nextHeld = some (.leaveRec 0) ∧ ((s (.joinRec 1)).gent 0 12).nextHeld = some (.joinRec 1) ∧
    (((gap 0).gent 0 12).gapSince = some 0 ∧ ((gap 0).gent 0 12).gapRaised = false ∧
      ((gap 0).dev 0).time.toNat < usTime 5 ∧ usTime 5 ≤ ((gap (BitVec.ofNat 64 (usTime 5))).dev 0).time.toNat) := by
  decide +kernel
/-- A group-table read has an answer of which a property holds. -/
def gtGives (r : GtRes) (p : List Byte → Bool) : Bool := match r with
  | .ok bs => p bs
  | .wait | .drop _ => false
/-- An entry without and with a reserved bit set, and one whose bitmap can be read; a home that is not yet started. -/
theorem witness_GroupTableActions :
    let s (a : Nat) (m : List Byte) := (grouped gmem).onDev 0 fun d =>
      { d with gtbase := 0x800000, gtReq := some { act := a, dev := 0, group := 12, asid := 1 }, mem := mwrite d.mem (0x10300 + 28) m }
    let rd (s : State) (p : List Byte → Bool) : Bool := gtGives (s.gtRead 0 1 (BitVec.ofNat 64 ((s.dev 0).gtbase.toNat * 2 ^ 18 + 64 * 12)) 64) p
    let w (bs : List Byte) (k : Nat) : Nat := bytesNat ((bs.drop (4 * k)).take 4)
    let mva := natBytes 8 0x20000000000
    ((s 1 []).dev 0).gtReq = some { act := 1, dev := 0, group := 12, asid := 1 } ∧
    rd (s 1 mva) (fun bs => w bs 2 / 2 ^ 20 % 2 ^ 10 == 0 && ((List.range 16).drop 9).all (fun k => w bs k == 0) &&
      gtGives ((s 1 mva).gtRead 0 1 (BitVec.ofNat 64 (bytesNat ((bs.drop 28).take 8))) 144) fun _ => true) = true ∧
    rd (s 2 (mva ++ [1])) (fun bs => w bs 9 != 0) = true ∧
    ((s 3 []).gent 0 12).valid = true ∧ ((s 1 []).homeSt 0 12).started = false := by
  decide +kernel

/-! ### Statements of tails, semaphores and barriers -/

theorem witness_TjoinWaitsForTails :
    let q := str fun st => { st with sq := [.twin 0 .mark] }
    let live := str fun st => { st with tails := [.live 0 0 1 2] }
    let dead := str fun st => { st with tails := [.defer 0 1] }
    (2 < 8 ∧ 2 ^ 22 - 1 < 2 ^ 22) ∧ (q.st.acc.late = [] ∧ q.st.acc.headFaulted = false ∧ q.st.atHeads = false) ∧ (AtJoin live ∧ live.st.tails = [.live 0 0 1 2]) ∧
    (AtJoin dead ∧ dead.st.tails = [.defer 0 1]) := by
  unfold AtJoin; decide +kernel
/-- An engine command of the small state's stream. -/
def cmdOf (k : CmdKind) (e : Eng) (r : BitVec 1024) : EngCmd :=
  { id := 5, kind := k, eng := e, slot := me, x := ctx0, asid := 1, level := 1, recA := r, fmtA := some .fp16, fmtB := some .fp16, started := some 0 }
/-- The small state with a command at the head of its engine's queue, the core holding a token. -/
def withCmd (c : EngCmd) : State := base.onCore core0 fun k => { (k.setQueue c.eng { cmds := [c] }) with token := true }
/-- Counts of 65535, 0 and 5, a bound of one unit that has passed. -/
theorem witness_Semaphores :
    let full := ctxd fun c => { c with sems := c.sems.set 3 65534 }
    let high := ctxd fun c => { c with sems := c.sems.set 3 65535 }
    let small := base.onLaunch 0 0 fun l => { l with excl := false }
    let sig := withCmd { cmdOf .semsig .me 0 with sem := 3, n := 5 }
    let ovr := sig.onCtx ctx0 fun c => { c with sems := c.sems.set 3 65534 }
    let late := base.semStep ctx0 3 (.waitStream me) 0
    let met := (withCmd { cmdOf .semwait .ce 0 with sem := 3, n := 2 }).onCtx ctx0 fun c => { c with sems := c.sems.set 3 9 }
    let wt (k : BitVec 15) := (withCmd { cmdOf .semwait .ce 0 with sem := 3, n := k, semBound := 1 }).onDev 0 fun d => { d with cycle := 1025 }
    (full.exclOf full.xid = true ∧ AtJoin full ∧ Arrived full ∧ ((full.ctx full.xid).sems[3]).toNat + (1#15).toNat ≤ 65535) ∧
    (65535 < ((high.ctx high.xid).sems[3]).toNat + (1#15).toNat ∧ CanTrap high) ∧
    ((0#15).toNat ≤ ((base.ctx base.xid).sems[3]).toNat ∧ ((base.ctx base.xid).sems[3]).toNat < (1#15).toNat) ∧
    (semEng .me = some .me ∧ ¬ (small.exclOf small.xid = true ∨ (32#6).toNat < 32) ∧ CanTrap small) ∧
    (((sig.core core0).headReady .me).isSome = true ∧ ((sig.ctx ctx0).sems[3]).toNat + 5 ≤ 65535) ∧
    (((wt 1).core core0).headReady .ce).any (fun h => h.semBound != 0 && h.started == some 0 && h.bound != some h.id) = true ∧
    ((((wt 0).core core0).headReady .ce).isSome = true ∧ 0 + 1024 * (1#32).toNat < ((wt 1).dev 0).cycle) ∧
    (full.semTurn ctx0 3 (.sigStream me) = true ∧ base.semTurn ctx0 3 (.waitStream me) = true ∧ base.semBehind ctx0 3 (.waitStream me) = false ∧
      base.semTurn ctx0 3 (.set me) = true ∧ high.semTurn ctx0 3 (.sigStream me) = true) ∧
    (late.semTurn ctx0 3 (.sigStream me) = false ∧ late.semTurn ctx0 3 (.set me) = false ∧
      (late.exclOf late.xid = true ∧ AtJoin late ∧ Arrived late)) ∧
    (met.semBehind ctx0 3 (.waitStream me) = true ∧ met.semTurn ctx0 3 (.waitEngine .ce) = true ∧ met.semBehind ctx0 3 (.waitEngine .ce) = false ∧
      ((met.core core0).headReady .ce).isSome = true) ∧
    (sig.semTurn ctx0 3 (.sigEngine .me) = true ∧ 65535 < (((ovr.ctx ctx0).sems[3]).toNat + 5) ∧ ovr.semTurn ctx0 3 (.sigEngine .me) = true ∧
      ((ovr.core core0).headReady .me).isSome = true) ∧
    fget? (base.core core0).turns (.sem 0 3) = none := by
  refine ⟨⟨?_, ⟨?_, ?_, ?_⟩, arrived_of ?_, ?_⟩, ⟨?_, canTrap_of ?_ ?_⟩, ?_, ⟨?_, ?_, canTrap_of ?_ ?_⟩, ?_, ?_, ?_, ?_,
    ⟨?_, ?_, ⟨?_, ⟨?_, ?_, ?_⟩, arrived_of ?_⟩⟩, ?_, ?_, ?_⟩ <;> decide +kernel
/-- All four main streams at a bar of core level, and one that has not arrived; a tail; a level that is not declared. -/
theorem witness_Barriers :
    let at_ (b : BarLevel) := (mainsOf ctx0).foldl (fun s id => s.onStrm id fun st => { st with status := .waiting, wait := .bar b }) base
    let atBar := at_ .core
    let tail : State := { base.setStrm ⟨core0, 0, 2⟩ (base.st) with cur := ⟨core0, 0, 2⟩ }
    (base.cur.sl < 2 ∧ AtJoin base ∧ Arrived base) ∧ (2 ≤ tail.cur.sl ∧ CanTrap tail) ∧
    (BarLevel.quad ≠ .core ∧ ((base.launchOf base.xid).elim 0 fun l => if l.coop then l.barlvl else 0) < barNum .quad ∧ CanTrap base) ∧
    (me ∈ mainsOf ctx0 ∧ (base.strm me).status ≠ .halted ∧ ¬ ((base.strm me).status = .waiting ∧ (base.strm me).wait = .bar .core)) ∧
    ((atBar.ctx ctx0).live.isSome = true ∧ (atBar.core ctx0.core).fenced = false ∧
      (∀ id ∈ mainsOf ctx0, (atBar.strm id).status = .halted ∨ ((atBar.strm id).status = .waiting ∧ (atBar.strm id).wait = .bar .core)) ∧
      (∃ id ∈ mainsOf ctx0, (atBar.strm id).wait = .bar .core)) ∧
    ([BarLevel.quad, .field, .device, .pod].all fun b => ((at_ b).resident 0 0).contains ctx0 && (at_ b).lidOf ctx0 == some 0 &&
      (at_ b).podMates ctx0 0 == some [(0, 0)] && ((at_ b).launch? 0 0).elim false (fun l => l.nextWg == l.wgcount && l.batch == [] && l.savedWgs == []) &&
      (mainsOf ctx0).all fun id => ((at_ b).strm id).wait == .bar b) = true ∧
    (((at_ .pod).onLaunch 0 0 fun l => { l with wgcount := 2 }).launch? 0 0).any (fun l => l.nextWg != l.wgcount) = true := by
  refine ⟨⟨?_, ⟨?_, ?_, ?_⟩, arrived_of ?_⟩, ⟨?_, canTrap_of ?_ ?_⟩, ⟨?_, ?_, canTrap_of ?_ ?_⟩, ?_⟩ <;> decide +kernel

/-! ### Statements of the engines -/

/-- A record of 32-bit words. -/
def recOf (ws : List Nat) : BitVec 1024 := bytesBv 1024 (ws.flatMap (natBytes 4))
/-- Records for A, B and ACC, of FP16 or of XW, one row of one block in the segment; OUT in the WB window; a bad ACC record. -/
def recA : List Nat := [0x40000100, 1, 0, 0x2000, 0x200, 0, 0, 0, 0, 1, 0, 0, 0, 0, 0, 0]
/-- B. -/
def recB : List Nat := [0x40000100, 1, 0, 0x2000, 0x200, 0, 0, 0, 0, 0, 0, 0, 0, 0, 0, 0]
/-- ACC. -/
def recAcc : List Nat := [0xB0000100, 1, 0, 0x2000, 0x200, 1024, 0, 0, 0, 1, 0, 0, 0, 0, 0, 0]
/-- OUT. -/
def recOut : List Nat := [0x40000100, 1, 0, 0, 0x1F00000, 0, 0, 0, 0, 1, 0, 0, 0, 0, 0, 0]
/-- A sparse B with a descriptor. -/
def recSb : List Nat := [0x00000100, 1, 0x000C01A4, 0x2000, 0x200, 0, 0, 0, 0, 0, 0, 0, 0, 0, 0, 0]
/-- The small state with words in the segment from offset 0x1000 on, and their address in s6. -/
def held (ws : List Nat) : State :=
  (devd fun d => { d with mem := mwrite d.mem 0x11000 (ws.flatMap (natBytes 4)) }).onStrm me fun st => ((st.ws 6 0x20000001000).ws 7 0x20000001040).ws 8 0x10000
/-- What a record of n bytes in the segment answers. -/
def reads (s : State) (va : Word) (n : Nat) (p : State → BitVec 1024 → Bool) : Bool :=
  match s.readRec .load va n with
  | .ok s1 r => p s1 r
  | .stop _ => false
theorem witness_MatrixIssue :
    let s := held (recA ++ recB)
    let sp := held (recA ++ recSb)
    let ac := held recAcc
    let ou := held recOut
    let no := ac.onLaunch 0 0 fun l => { l with excl := false }
    let odd := scal 6 4
    let fo := held (recB ++ recB)
    let ent := held ([0x70000100, 1, 0, 0x2000, 0x200, 0, 0, 0, 0, 1, 0, 0, 0, 0, 0, 0] ++ recB)
    let win := held ([0x40000100, 1, 0, 0, 0x1F00000, 0, 0, 0, 0, 1, 0, 0, 0, 0, 0, 0] ++ recB)
    let ob := s.onStrm me fun st => st.ws 7 4
    (reads fo (fo.rs 6) 64 fun _ ra => (firstBad (roleChecks .a 0 ra)).isSome) = true ∧
    (reads s (s.rs 6) 64 fun s1 ra => reads s1 (s.rs 7) 64 fun _ rb => (firstBad (roleChecks .a 0 ra)).isNone &&
      (firstBad (roleChecks .sb (recKblk ra) rb)).isSome) = true ∧
    (contrWindow 0x10001 1 = none ∧ metaVaOk (s.rs 8 + 1) = false) ∧
    (reads ent (ent.rs 6) 64 fun _ ra => (firstBad (roleChecks .a 0 ra)).isNone && (roleWindows .a ra).isNone &&
      (ent.st.recFmt (recFcode ra) (recWord ra 2)).isNone) = true ∧
    (reads win (win.rs 6) 64 fun _ ra => (firstBad (roleChecks .a 0 ra)).isNone && (roleWindows .a ra).isSome) = true ∧
    ((ob.rs 7).toNat % 64 ≠ 0 ∧ CanTrap ob) ∧
    s.tileOk 2 = true ∧
    reads s (s.rs 6) 64 (fun s1 ra => reads s1 (s.rs 7) 64 fun _ rb =>
      (roleBad .a 0 (s.rs 6) ra).isNone && (roleBad .b (recKblk ra) (s.rs 7) rb).isNone && (roleWindows .a ra).isNone && (roleWindows .b rb).isNone &&
      (contrWindow (s.rs 8) (recKblk ra)).isSome && (s.st.recFmt (recFcode ra) (recWord ra 2)).isSome) = true ∧
    (reads sp (sp.rs 6) 64 (fun s1 ra => reads s1 (sp.rs 7) 64 fun _ rb =>
      (roleBad .sb (recKblk ra) (sp.rs 7) rb).isNone && (roleWindows .sb rb).isNone &&
      (sp.st.recFmt (recFcode rb) (recWord rb 2)).isSome) = true ∧ metaVaOk (sp.rs 8) = true) ∧
    (s.st.lastCe = none ∧ CanTrap s) ∧ (s.st.rl 1).st ≠ .pending ∧ ((latched .pending).st.rl 1).st = .pending ∧
    reads ac (ac.rs 6) 64 (fun _ ra => (roleBad .acc 0 (ac.rs 6) ra).isNone && (roleWindows .acc ra).isNone) = true ∧
    reads ou (ou.rs 6) 64 (fun _ ra => (roleBad .out 0 (ou.rs 6) ra).isNone && (roleWindows .out ra).isNone &&
      (ou.st.recFmt (recFcode ra) (recWord ra 2)).isSome) = true ∧
    reads s (s.rs 6) 64 (fun _ ra => (roleBad .acc 0 (s.rs 6) ra).isSome) = true ∧
    (no.tileOk 1 = false ∧ CanTrap no) ∧ ((odd.rs 6).toNat % 64 ≠ 0 ∧ CanTrap odd) := by
  refine ⟨?_, ?_, ?_, ?_, ?_, ⟨?_, canTrap_of ?_ ?_⟩, ?_, ?_, ?_, ⟨?_, canTrap_of ?_ ?_⟩, ?_, ?_, ?_, ?_, ?_, ⟨?_, canTrap_of ?_ ?_⟩,
    ⟨?_, canTrap_of ?_ ?_⟩⟩ <;> decide +kernel
/-- A copy of one row of 64 bytes from 0x2000 of the segment to 0x4000, with a conversion between the formats of two codes, with indices or with
EXPAND; one collective transfer of 128 bytes to rank 0. -/
def recCp (w0 w2 iva : Nat) : List Nat := [w0, 0, w2, 0x2000, 0x200, 0x4000, 0x200, 0, 0, 0, 0, 1, iva, if iva = 0 then 0 else 0x200, 0, 0]
/-- COLL. -/
def recCl (w0 w1 : Nat) : List Nat :=
  [w0, w1, 0, 0, 0x2000, 0x200, 0x4000, 0x200, 0, 0, 128, 0x10000, 0, 0, 0, 0, 0, 0, 0, 0, 0, 0, 0, 0, 0, 0, 0, 0, 1, 0, 0, 0]
theorem witness_CopyAndCollIssue :
    let cp := held (recCp 0 64 0)
    let gt := held (recCp 0 64 0x3000)
    let cx := held (recCp 0x44000000 64 0)
    let cl := (held (recCl 0 0)).onCtx ctx0 fun c => { c with collN := 1 }
    let d2 := ctxd fun c => { c with det := 2 }
    let ov := held [0, 0, 64, 0x2000, 0x200, 0x2020, 0x200, 0, 0, 0, 0, 1, 0, 0, 0, 0]
    let ent := held (recCp 0x74000000 64 0)
    let win := held [0, 0, 64, 0x2000, 0x200, 0, 0x1F80000, 0, 0, 0, 0, 1, 0, 0, 0, 0]
    let sm := ((held (recCl 0x1FC00 0)).onCtx ctx0 fun c => { c with collN := 1 }).onLaunch 0 0 fun l => { l with excl := false }
    reads cp (cp.rs 6) 64 (fun s1 r => (firstBad (copyChecks .cpy r)).isNone && (let c : EngCmd := { s1.cmd .cpy .ce with recA := r, rm := cpRm r };
      (s1.sidesBad c).isNone && !rangesMeet (s1.srcEnv c) (s1.dstEnv c))) = true ∧
    reads gt (gt.rs 6) 64 (fun s1 r => (firstBad (copyChecks .gth r)).isNone && (firstBad (copyChecks .sct r)).isNone &&
      (let c : EngCmd := { s1.cmd .gth .ce with recA := r, rm := cpRm r }; (s1.sidesBad c).isNone) &&
      (let c : EngCmd := { s1.cmd .sct .ce with recA := r, rm := cpRm r }; (s1.sidesBad c).isNone)) = true ∧
    reads cx (cx.rs 6) 64 (fun s1 r => (firstBad (copyChecks .cpyx r)).isNone && (firstBad (cpyxChecks r (some 16) (some 16))).isNone &&
      (match cx.st.recFmt (cpSf r) (recWord r 9), cx.st.recFmt (cpDf r) (recWord r 10) with
        | some fs, some fd => (let c : EngCmd := { s1.cmd .cpyx .ce with recA := r, rm := cpRm r, fmtA := some fs, fmtB := some fd };
            fs.cw == 16 && (s1.sidesBad c).isNone && !rangesMeet (s1.srcEnv c) (s1.dstEnv c))
        | _, _ => false)) = true ∧
    (reads cl (cl.rs 6) 64 (fun _ r => (firstBad (copyChecks .cpy r)).isSome) = true ∧ CanTrap cl) ∧
    reads cl (cl.rs 6) 128 (fun _ r => (firstBad (collChecks r cl.cx.collN.toNat)).isNone && !clSemen r) = true ∧
    reads cp (cp.rs 6) 128 (fun _ r => (firstBad (collChecks r cp.cx.collN.toNat)).isSome) = true ∧
    (reads ov (ov.rs 6) 64 (fun s1 r => (firstBad (copyChecks .cpy r)).isNone && (let c : EngCmd := { s1.cmd .cpy .ce with recA := r, rm := cpRm r };
      (s1.sidesBad c).isNone && rangesMeet (s1.srcEnv c) (s1.dstEnv c) && !c.inPlace)) = true ∧ CanTrap ov) ∧
    reads ent (ent.rs 6) 64 (fun s1 r => (firstBad (copyChecks .cpyx r)).isNone && (ent.st.recFmt (cpSf r) (recWord r 9)).isNone &&
      (ent.st.recFmt (cpDf r) (recWord r 10)).isSome && (firstBad (cpyxChecks r none (some 16))).isNone &&
      (let c : EngCmd := { s1.cmd .cpyx .ce with recA := r, rm := cpRm r, fmtB := ent.st.recFmt (cpDf r) (recWord r 10), descVa := some (ent.rs 6) };
        (s1.sidesBad c).isNone)) = true ∧
    (reads win (win.rs 6) 64 (fun s1 r => (firstBad (copyChecks .cpy r)).isNone &&
      (s1.sidesBad { s1.cmd .cpy .ce with recA := r, rm := cpRm r }).isSome) = true ∧ CanTrap win) ∧
    (reads sm (sm.rs 6) 128 (fun s1 r => (firstBad (collChecks r sm.cx.collN.toNat)).isNone && clSemen r && !s1.semOk (clSem r)) = true ∧ CanTrap sm) ∧
    base.cx.det ≠ 2 ∧ (d2.cx.det = 2 ∧ CanTrap d2) ∧
    ((cp.rs 6).toNat % 64 = 0 ∧ cp.st.cache = [] ∧ cp.ownStores cp.cur cp.st.seq = [] ∧ (cp.core cp.cur.core).glc = [] ∧
      (match cp.xlAccess ⟨cp.xid, cp.cx.asid.toNat, cp.st.priv, .load, .scalar⟩ (cp.rs 6) 64 with
        | .ok ps => ps.all fun p => (match cp.locate p.loc with
          | .devMem _ b => decide (b % 16 + p.len ≤ 16)
          | _ => false)
        | .bad _ => false) = true) := by
  refine ⟨?_, ?_, ?_, ⟨?_, canTrap_of ?_ ?_⟩, ?_, ?_, ⟨?_, canTrap_of ?_ ?_⟩, ?_, ⟨?_, canTrap_of ?_ ?_⟩, ⟨?_, canTrap_of ?_ ?_⟩, ?_,
    ⟨?_, canTrap_of ?_ ?_⟩, ?_⟩ <;> decide +kernel
/-- A command that may enter, a full queue, a write into a live frame; a bound head, a fence at both heads, a bound that has passed. -/
theorem witness_EngineQueues :
    let c := cmdOf .cpy .ce 0
    let s := str fun st => { st with engIssue := some c }
    let desc := str fun st => { st with engIssue := some { c with descVa := some 64 } }
    let mst := str fun st => { st with engIssue := some { cmdOf .mstat .me 0 with latch := 1 } }
    let wr2 : EngCmd := { c with level := 2, writes := [⟨memSpace 1, 0, 64⟩] }
    let d2 := (str fun st => { st with engIssue := some wr2 }).onCore core0 fun k => { k with me := { cmds := [{ cmdOf .mma .me 0 with reads := [⟨memSpace 1, 32, 64⟩] }] } }
    let busy := s.onCore core0 fun k => k.turn .entry 3
    let full := s.onCore core0 fun k => { k with ce := { cmds := List.replicate 64 c } }
    let gone := (str fun st => { st with engIssue := some { cmdOf .mma .me 0 with bound := some 9 } }).onCore core0 fun k => { k with lost := [9] }
    let race := str fun st => { st with engIssue := some { c with writes := [⟨memSpace 1, 0, 64⟩] }, tails := [.live 0 128 1 2] }
    let fo (id : Nat) := withCmd { cmdOf .mma .me 0 with bound := some id }
    let two := (fo 5).onCore core0 fun k => { k with ce := { cmds := [cmdOf .cpy .ce 0] } }
    let qf := base.onCore core0 fun k => { k with me := { cmds := [{ cmdOf .qfence .me 0 with n := 3 }] },
                                                  ce := { cmds := [{ cmdOf .qfence .ce 0 with n := 3 }] } }
    let cb := (withCmd (cmdOf .cpy .ce (recOf (recCp 0 64 0)))).onDev 0 fun d => { d with cycle := 1024 }
    (s.canAct s.cur = true ∧ s.side = .execute ∧ s.st.pendFaults = [] ∧ s.st.engHold = false ∧ s.st.engIssue = some c ∧ c.x.core = s.cur.core ∧
      (s.core core0).roomFor c = true ∧ s.st.cmdRace c = none ∧ c.level ≠ 2 ∧ c.kind ≠ .qfence ∧
      c.descVa = none ∧ s.entersNow s.cur c = true) ∧
    (desc.entersNow me { c with descVa := some 64 } = true ∧ CanTrap desc ∧ (desc.core core0).roomFor { c with descVa := some 64 } = true) ∧
    (mst.entersNow me { cmdOf .mstat .me 0 with latch := 1 } = true ∧ (mst.core core0).roomFor { cmdOf .mstat .me 0 with latch := 1 } = true) ∧
    (d2.canAct me = true ∧ d2.entersNow me wr2 = true ∧ (d2.core core0).roomFor wr2 = true ∧ d2.st.cmdRace wr2 = none ∧ CanTrap d2 ∧
      ((d2.core core0).rivals wr2).any (fun y => !(d2.core core0).parted wr2 y) = true) ∧
    (busy.st.engIssue = some c ∧ busy.side = .execute ∧ busy.entersNow me c = false) ∧
    (gone.canAct me = true ∧ gone.side = .execute ∧ gone.st.engHold = false ∧ (gone.core core0).roomFor { cmdOf .mma .me 0 with bound := some 9 } = true ∧
      gone.entersNow me { cmdOf .mma .me 0 with bound := some 9 } = true ∧ 9 ∈ (gone.core core0).lost) ∧ (s.core core0).lost = [] ∧ c.bound = none ∧
    (full.canAct full.cur = true ∧ full.st.engIssue = some c ∧ (full.core core0).roomFor c = false) ∧
    ((race.st.cmdRace { c with writes := [⟨memSpace 1, 0, 64⟩] }).isSome = true ∧ CanTrap race) ∧
    ((((fo 9).core core0).headReady .me).isSome = true ∧ ((fo 9).core core0).ce.cmds = [] ∧ ((two.core core0).headReady .me).isSome = true ∧
      ∃ y ∈ (two.core core0).ce.cmds, y.id = 5) ∧
    ((qf.core core0).headReady .me = some { cmdOf .qfence .me 0 with n := 3 } ∧
      (qf.core core0).headReady .ce = some { ({ cmdOf .qfence .me 0 with n := 3 } : EngCmd) with eng := .ce }) ∧
    ((cb.core core0).headReady .ce = some (cmdOf .cpy .ce (recOf (recCp 0 64 0))) ∧ (cmdOf .cpy .ce (recOf (recCp 0 64 0))).bound1 = some 1024 ∧
      0 + 1024 ≤ (cb.dev 0).cycle ∧ 0 < (cmdOf .cpy .ce (recOf (recCp 0 64 0))).total) := by
  refine ⟨?_, ⟨?_, canTrap_of ?_ ?_, ?_⟩, ?_, ⟨?_, ?_, ?_, ?_, canTrap_of ?_ ?_, ?_⟩, ?_, ?_, ?_, ?_, ?_, ⟨?_, canTrap_of ?_ ?_⟩, ?_⟩ <;> decide +kernel
/-- An engine's answer is there. -/
def okE {α : Type} (r : EngRes α) : Bool := match r with
  | .ok _ => true
  | .wait | .bad _ | .drop _ => false
/-- The small state with a command at the head of its queue, and its device's cycle. -/
def cmdAt (c : EngCmd) (cyc : Nat) : State := (withCmd c).onDev 0 fun d => { d with cycle := cyc }
theorem witness_MstatReadsStatus :
    let h := { cmdOf .mstat .me 0 with latch := 1 }
    let s := str fun st => { st with engIssue := some h }
    let t := (cmdAt h 256).onStrm me fun st => st.wl 1 { st.rl 1 with st := .pending }
    let u := withCmd (cmdOf .mzero .me 0)
    (s.canAct s.cur = true ∧ s.side = .execute ∧ s.st.pendFaults = [] ∧ s.st.engHold = false ∧ s.st.engIssue = some h ∧ h.x.core = s.cur.core ∧
      (s.core s.cur.core).roomFor h = true ∧ s.st.cmdRace h = none ∧ h.level ≠ 2 ∧ s.entersNow s.cur h = true ∧ h.descVa = none ∧ h.pageFault = none) ∧
    (t.meHead core0 = some h ∧ (t.strm h.slot).present = true ∧ ((t.strm h.slot).rl h.latch).st = .pending ∧
      (t.core core0).headReady .me = some h ∧ h.row = 0 ∧ h.started = some 0 ∧ 0 + 256 ≤ (t.dev 0).cycle) ∧
    ((u.core core0).me.cmds = [cmdOf .mzero .me 0] ∧ (cmdOf .mzero .me 0).kind ≠ .mstat) := by
  decide +kernel
/-- An MMA of one row and one column, at its row and past it; an MLDACC; an MZERO. -/
theorem witness_MatrixRows :
    let h := { cmdOf .mma .me (recOf recA) with recB := (recOf recB).setWidth 512, sc := 0x10000 }
    let s := withCmd h
    let past := withCmd { h with row := 1 }
    let l := cmdOf .mldacc .me (recOf recAcc)
    let rb : BitVec 1024 := h.recB.setWidth 1024
    s.Canon ∧ s.overdue core0 h = false ∧ past.overdue core0 { h with row := 1 } = false ∧ (withCmd l).overdue core0 l = false ∧
    (s.hosted core0 = none ∧ s.burstRuns core0 = some h ∧ h.pageFault = none ∧ nextRow s h < recRows h.recA ∧ 0 < recRows rb ∧
      recRow0 h.recA + nextRow s h < 128 ∧ recCol0 rb + recRows rb ≤ 192 ∧ okE (s.metaCheck h) = true ∧
      okE (s.operandRow h (h.xl .meA .roleA) h.recA .fp16 0 h.window.1 h.window.2) = true ∧ okE (s.colB h rb .fp16 0 h.window.1 h.window.2) = true) ∧
    (past.burstRuns core0 = some { h with row := 1 } ∧ recRows h.recA ≤ nextRow past { h with row := 1 } ∧ (past.core core0).writing 5 = false) ∧
    ((withCmd l).meHead core0 = some l ∧ l.pageFault = none ∧ nextRow (withCmd l) l < recRows l.recA ∧
      (match (withCmd l).engRead (l.xl .meA .none) (recVa l.recA + BitVec.ofInt 64 (0 * recRstr l.recA)) (21 * (32 * recKblk l.recA)) with
        | .ok bs => bs.length == 21 * (32 * recKblk l.recA)
        | .wait | .bad _ | .drop _ => false) = true) ∧
    (withCmd (cmdOf .mzero .me 0)).meHead core0 = some (cmdOf .mzero .me 0) := by
  refine ⟨canon_of ?_ ?_, ?_⟩ <;> decide +kernel
theorem witness_ConvertedRows :
    let h := cmdOf .mcvt .me (recOf recOut)
    let a := { h with auto := true }
    let l := cmdOf .mstacc .me (recOf recAcc)
    (withCmd h).Canon ∧ (withCmd h).overdue core0 h = false ∧ (withCmd a).overdue core0 a = false ∧ (withCmd l).overdue core0 l = false ∧
    ((withCmd h).burstRuns core0 = some h ∧ h.pageFault = none ∧ nextRow (withCmd h) h < recRows h.recA ∧ h.fmtA = some .fp16 ∧
      recRow0 h.recA + 0 < 128 ∧ recCol0 h.recA / 32 + recKblk h.recA ≤ 6 ∧ 0 < recKblk h.recA ∧
      okE ((withCmd h).scaleRow h (h.xl .store .roleOut) h.recA 0 0 (recKblk h.recA)) = true ∧
      okE ((withCmd h).engXl (h.xl .store .roleOut) (recVa h.recA + BitVec.ofInt 64 (0 * recRstr h.recA)) 64) = true) ∧
    (withCmd a).burstRuns core0 = some a ∧
    ((withCmd l).meHead core0 = some l ∧ l.pageFault = none ∧ nextRow (withCmd l) l < recRows l.recA ∧
      okE ((withCmd l).engXl (l.xl .ceDst .none) (recVa l.recA + BitVec.ofInt 64 (0 * recRstr l.recA)) (21 * 32)) = true) := by
  refine ⟨canon_of ?_ ?_, ?_⟩ <;> decide +kernel
/-- The answer of a row's source, and the translation of its destination, with as many bytes as a property asks. -/
def moves (s : State) (h : EngCmd) (a b : Int) (f : List Byte → List Byte) (p : List Byte → Bool) : Bool :=
  match s.srcRow h (cpSva h.recA + BitVec.ofInt 64 (a * cpSstr h.recA)) (cpBytes h.recA) with
  | .ok bs => p bs && okE (s.engXl (h.xl .ceDst .ceDst) (cpDva h.recA + BitVec.ofInt 64 (b * cpDstr h.recA)) (f bs).length)
  | .wait | .bad _ | .drop _ => false
/-- EXPAND of one unit of 128 bytes whose bitmap has its only bit set, or none. -/
theorem witness_CopyRows :
    let c := { cmdOf .cpy .ce (recOf (recCp 0 64 0)) with fmtA := none, fmtB := none }
    let g := { c with kind := .gth, checked := true, idx := [0] }
    let x := cmdOf .cpyx .ce (recOf (recCp 0x44000000 4 0))
    let t := cmdOf .cpyx .ce (recOf (recCp 0x44200000 4 0))
    let past := { c with row := 1 }
    let n4 (k : Nat) := { cmdOf .cpyx .ce (recOf [0x40200000, 2, 4, 0x2000, 0x200, 0x4000, 0x200, 0, 0, 0, 0x000C01A4, 1, 0, 0, 0, 0]) with fmtB := some (.nf 0x000C01A4), row := k }
    let f := { c with kind := .sct, recA := recOf (recCp 0 64 0x3000) }
    let e := { c with recA := recOf ([0x00100000, 0, 128, 0, 0x300, 0x4000, 0x200] ++ (recCp 0 0 0).drop 7), idx := [0] }
    let seg (va pa lay : Nat) : KttEntry := { va := va, pa := pa, state := 1, layout := BitVec.ofNat 2 lay, log2 := 16, permMask := 0xFFFFF }
    let live (k : Byte) := (withCmd e).onDev 0 fun d =>
      { d with mem := mwrite d.mem 0x20000 [k, 0, 0, 0], ktts := [(1, { entries := [seg placeVa placePa 0, seg 0x30000000000 0x20000 2] })] }
    ((withCmd c).ceHead core0 = some c ∧ c.pageFault = none ∧ c.row < cpRows c.recA ∧ cpExpand c.recA = false ∧ cpTrans c.recA = false ∧
      moves (withCmd c) c 0 0 id (fun bs => bs.length == cpBytes c.recA) = true) ∧
    ((withCmd g).ceHead core0 = some g ∧ moves (withCmd g) g 0 0 id (fun bs => bs.length == cpBytes g.recA) = true) ∧
    ((withCmd x).ceHead core0 = some x ∧ cpTrans x.recA = false ∧ x.row < cpRows x.recA ∧ moves (withCmd x) x 0 0
      (fun bs => contBytes 16 ((contElems 16 (bs.length * 8 / 16) bs).map fun p => (encodeNum Fmt.fp16.par x.rm 0 (decodeNum Fmt.fp16.par p)).1))
      (fun bs => (contBytes 16 ((contElems 16 (bs.length * 8 / 16) bs).map fun p => (encodeNum Fmt.fp16.par x.rm 0 (decodeNum Fmt.fp16.par p)).1)).length == 4) = true) ∧
    ((withCmd t).ceHead core0 = some t ∧ cpTrans t.recA = true ∧ 8 ≤ Fmt.fp16.cw ∧ moves (withCmd t) t 0 1 (fun _ => [0, 0]) (fun _ => true) = true ∧
      moves (withCmd t) t 0 0 (fun _ => [0, 0]) (fun _ => true) = true) ∧
    (∀ k ∈ [0, 1], (withCmd (n4 k)).ceHead core0 = some (n4 k) ∧ cpTrans (n4 k).recA = true ∧ k < cpRows (n4 k).recA ∧ (Fmt.nf 0x000C01A4).cw = 4 ∧
      (withCmd (n4 k)).overdue core0 (n4 k) = false ∧ moves (withCmd (n4 k)) (n4 k) k 0 (fun _ => [0]) (fun bs => bs.length == 4) = true ∧
      moves (withCmd (n4 k)) (n4 k) 0 1 (fun _ => [0]) (fun _ => true) = true) ∧
    (∀ y ∈ [c, g, x, t, past, f], (withCmd y).overdue core0 y = false) ∧ (live 1).overdue core0 e = false ∧
      ((live 0).strm e.slot).present = true ∧ (live 0).xidOf e.slot = e.x ∧ g.fmtA = none ∧ f.checked = false ∧
    ((withCmd past).ceHead core0 = some past ∧ cpRows past.recA ≤ past.row ∧ ((withCmd past).core core0).writing 5 = false) ∧
    ((withCmd f).ceHead core0 = some f ∧ f.checked = false ∧ (match (withCmd f).engRead (f.xl .gather .ceSrc) (cpIva f.recA) (4 * cpRows f.recA) with
        | .ok bs => bs.length == 4 * cpRows f.recA
        | .wait | .bad _ | .drop _ => false) = true ∧ okE ((withCmd f).fetchIdx core0 f) = true) ∧
    (cpExpand e.recA = true ∧ e.row < e.total ∧ ceilDiv 1 (2 ^ cpRatio e.recA) ≤ popN 1 1 ∧ popN 1 0 < ceilDiv 1 (2 ^ cpRatio e.recA) ∧
      ((live 1).ceHead core0 = some e ∧ okE ((live 1).srcRow e (cpSva e.recA) 4) = true ∧ okE ((live 1).srcRow e (cpSva e.recA + 4) 128) = true ∧
        okE ((live 1).engXl (e.xl .ceDst .ceDst) (cpDva e.recA) 128) = true) ∧ (live 0).ceHead core0 = some e) := by
  decide +kernel
/-- A burst that waits with a token at its core; one that stands where none waits; an MMA with four commands before it and an idle core. -/
theorem witness_TokensAndMigration :
    let h := { cmdOf .mma .me (recOf recA) with recB := (recOf recB).setWidth 512, sc := 0x10000 }
    let w := ((withCmd h).onCore core0 fun k => { k with token := false }).onDev 0 fun d => d.onField 0 fun f => { f with ring := [0, 39] }
    let q := base.onCore core0 fun k => { k with me := { cmds := List.replicate 4 (cmdOf .mzero .me 0) ++ [h] } }
    let m := { h with migrated := some ⟨0, 0, 1⟩, partialRows := [[(1, 0)]] }
    let far (va : Word) : Bool := !inWindow va
    (w.burstWaits core0 = true ∧ core0.core ∈ ((w.dev 0).fieldN 0).ring) ∧
    (((w.dev 0).fieldN 0).ring[1]? = some 39 ∧ w.burstWaits ⟨0, 0 % 8, 39⟩ = false) ∧
    (w.hosted core0 = none ∧ (w.core core0).token = false) ∧
    ((q.core core0).me.cmds[4]? = some h ∧ h.level ≠ 2 ∧ h.fo = false ∧ far (recVa h.recA) = true ∧ far (recSva h.recA) = true ∧
      far (recVa (h.recB.setWidth 1024)) = true ∧ far (recSva (h.recB.setWidth 1024)) = true ∧ (q.core ⟨0, 0, 1⟩).me.cmds = [] ∧
      q.hosted ⟨0, 0, 1⟩ = none ∧ (q.core ⟨0, 0, 1⟩).token = false ∧ (q.core ⟨0, 0, 1⟩).fenced = false ∧ h.migrated = none ∧ h.row = 0 ∧
      h.restart = false) ∧
    ((withCmd m).Canon ∧ (withCmd m).overdue core0 m = false ∧ ((withCmd m).core core0).headReady .me = some m ∧ m.migrated.isSome = true ∧ recRows m.recA ≤ m.partialRows.length ∧
      m.row < recRows m.recA ∧ (m.partialRows[0]?.getD []) ≠ [] ∧ recRow0 m.recA + m.row < 128 ∧
      recCol0 (m.recB.setWidth 1024) + (m.partialRows[0]?.getD []).length ≤ 192) := by
  refine ⟨?_, ?_, ?_, ?_, canon_of ?_ ?_, ?_, ?_⟩ <;> decide +kernel

/-! ### Statements of collectives -/

/-- A collective of one transfer of 128 bytes to rank 0, which the rank table at the segment's start names: PUT, GET, and one emitted. -/
theorem witness_CollectiveChunks :
    let h (w0 : Nat) := cmdOf .coll .cs (recOf (recCl w0 0))
    let s (c : EngCmd) := (withCmd c).onCtx ctx0 fun c => { c with collN := 1, collBase := 0x20000004 }
    let fin := { h 0x00010000 with xfer := 1 }
    let ch (k : ChunkKind) (w0 : Nat) : Chunk :=
      { id := 9, kind := k, cmd := 5, core := core0, x := ctx0, dev := 0, asid := 1, dva := 0x20000004000, bytes := List.replicate 128 7, xfer := 0,
        off := 0, recw := recOf (recCl w0 0) }
    let fly (k : ChunkKind) (w0 : Nat) : State := { s (h w0) with chunks := [ch k w0] }
    (∀ w0 ∈ [0, 0x10000000], ((s (h w0)).core core0).fenced = false ∧ ((s (h w0)).core core0).cs.stop = .going ∧
      walking ((s (h w0)).core core0).cs.cmds = some (h w0) ∧ (h w0).pageFault = none ∧ (h w0).unacked.length < 64 ∧ (h w0).after = [] ∧
      okE ((s (h w0)).collDev (h w0) 0) = true ∧ okE ((s (h w0)).engRead ((h w0).xl .csRead .cs) (clSrc (h w0).recA 0) 128) = true ∧
      okE ((s (h w0)).engXl ((h w0).xl .csWrite .cs) (clDst (h w0).recA 0) 128) = true) ∧
    ((fly .write 0).chunks.find? (fun x => x.id == 9) = some (ch .write 0) ∧
      okE ((fly .write 0).remoteXl 0 1 0x20000004000 128 .csWrite) = true ∧ clNva (ch .write 0).recw = 0) ∧
    okE ((fly .getReq 0x10000000).remoteXl 0 1 0x20000002000 128 .csRead) = true ∧
    ((fly .ret 0x10000000).cmdCore 0 5 = some (core0, h 0x10000000) ∧ clKind (ch .ret 0x10000000).recw ≠ 3 ∧
      okE ((fly .ret 0x10000000).engXl ((h 0x10000000).xl .csWrite .cs) 0x20000004000 128) = true) ∧
    (let ps : List Piece := [{ at_ := 0, len := 16, loc := .buf ctx0 .wb 32 }]
     let late := (withCmd (h 0)).onCore core0 fun k => k.turn (.granule 0 .wb 2) 9
     (withCmd (h 0)).csTurn core0 (h 0) ps = true ∧ late.csTurn core0 (h 0) ps = false) ∧
    ((s (h 0)).core core0).outstanding < 64 ∧ (s (h 0)).overdue core0 (h 0) = false ∧
    ((fly .acked 0).chunks.find? (fun x => x.id == 9 && x.kind == .acked) = some (ch .acked 0) ∧ (ch .acked 0).fault = none ∧
      (fly .acked 0).cmdCore 0 5 = some (core0, h 0)) ∧
    (finishedColl ((s fin).core core0).cs.cmds = some fin ∧ clSemen fin.recA = true ∧ (((s fin).ctx ctx0).sems[fin.sem.toNat]'fin.sem.isLt).toNat < 65535) := by
  decide +kernel
/-- A reduction of two contributors in FP16, with a slot open under its key and under another, missing one contribution and
complete; whichever field homes the destination, a slot stands there. -/
theorem home_lt (s : State) (ps : List Piece) : s.homeOf ps < 8 := by
  unfold State.homeOf
  repeat' split
  all_goals omega
theorem witness_ReductionUnits :
    let r := recOf (recCl 0x24400000 2)
    let ch : Chunk := { id := 9, kind := .contrib, cmd := 5, core := core0, x := ctx0, dev := 0, asid := 1, dva := 0x20000004000,
                        bytes := List.replicate 128 7, xfer := 0, off := 0, recw := r }
    let slot (k : BitVec 128) (n : Nat) : RedSlot := { tag := 0, d := 0x20000004000, asid := 1, key := k, got := List.replicate n ch }
    let s (k : BitVec 128) (n : Nat) : State := { devd fun d => { d with red := (List.range 8).map fun f => ((f, 3), slot k n) } with chunks := [ch] }
    let find (f : Nat) (k : BitVec 128) := ((s k 1).dev 0).red.find? fun p => p.1.1 == f && p.2.tag == clTag r && p.2.d == 0x20000004000 && p.2.asid == 1
    let k := redKey r
    ((s k 1).chunks.find? (fun x => x.id == 9 && x.kind == .contrib) = some ch ∧
      okE ((s k 1).remoteXl 0 1 0x20000004000 128 .csWrite) = true ∧ (∀ f < 8, find f k = some ((f, 3), slot k 1)) ∧ (slot k 1).key = redKey r) ∧
    ((slot k 1).got.length < clContrib ch.recw ∧ clContrib ch.recw ≤ (slot k 2).got.length) ∧
    ((∀ f < 8, find f (k + 1) = some ((f, 3), slot (k + 1) 1)) ∧ (slot (k + 1) 1).key ≠ redKey r) ∧
    (fget? ((s k 1).dev 0).red (0, 3) = some (slot k 1) ∧ (slot k 1).got.length < clContrib r ∧ (slot k 1).got = [ch]) ∧
    (fget? ((s k 2).dev 0).red (0, 3) = some (slot k 2) ∧ (slot k 2).got = [ch, ch] ∧ clContrib r ≤ (slot k 2).got.length ∧ clNva r = 0 ∧
      okE ((s k 2).remoteXl 0 1 0x20000004000 (redRound r (slot k 2).sums).length .csWrite) = true) := by
  decide +kernel
/-! ### Statements of the planner -/

/-- A query of one node, a map of INT32 from leaf 0, and DEST leaf 1, their entries 2 and 3; or its node a filter, a reduction or nothing of the kind. -/
def queryOf (n0 n2 : Nat) : List Nat :=
  [0x102, 1] ++ List.replicate 14 0 ++ [n0, 0, n2, 0, 0, 0, 0, 0] ++ List.replicate 120 0 ++ [2, 0, 0, 0, 3, 0, 0, 0] ++ List.replicate 24 0
/-- FN = 5 of op 4. -/
def mapQ : List Nat := queryOf (4 * 2 ^ 28 + 16 * 2 ^ 23 + 31 * 2 ^ 18 + 2 * 2 ^ 12) 5
/-- ROP = 0 of op 3, into INT32. -/
def sumQ : List Nat := queryOf (3 * 2 ^ 28 + 16 * 2 ^ 23 + 31 * 2 ^ 18 + 2 * 2 ^ 12) 0
/-- A statistics entry of INT32, RANK 1, n elements. -/
def statE (n : Nat) : List Nat := [7, 0x10402, 0, n, 1, 1, 1, 0, 0, 0, 0, 0, 0, 0, 0, 0]
/-- The bytes of words. -/
def wordBytes (ws : List Nat) : List Byte := ws.flatMap (natBytes 4)
/-- The words of a query as a record, and entries as they were read. -/
def planOf (q : List Nat) : Plan :=
  { query := bytesBv 5632 (wordBytes q), vaQuery := 0x20000001000, entries := [bytesBv 512 (wordBytes (statE 4)), bytesBv 512 (wordBytes (statE 4))],
    ests := [], level := 1, stamp := 0 }
/-- The small state with a query at s6, the entries of both leaves in the statistics table at the segment's start, and a plan in slot 3 under the
handle in s5. -/
def planned (q : List Nat) (p : Option Plan) : State :=
  let s := (devd fun d => { d with mem := mwrite (mwrite d.mem 0x11000 (wordBytes q)) 0x10080 (wordBytes (statE 4 ++ statE 4)) }).onStrm me fun st =>
    (st.ws 6 0x20000001000).ws 5 0x1003
  s.onCtx ctx0 fun c => { c with stbase := 0x2000000, stcount := 4, plans := match p with
    | none => []
    | some p => [(3, { plan := some p, used := true })] }
/-- What a record read through the planner answers. -/
def planReads (s : State) (n al : Nat) : Bool := recReads (s.planRec (s.rs 6) n al)
/-- The stream as it holds the bytes of a record and of entries behind it. -/
def holdB (s : State) (bs : List Byte) : State := s.onSt fun st => { st with held := some bs }
/-- The bytes of the entry of one leaf. -/
def entB : List Byte := wordBytes (statE 4)
/-- Another stream of the context has taken a slot of the plan cache in this cycle, behind the rotation's start. -/
def lateTurn (s : State) : State := s.onCore core0 fun k => k.turn (.plan 0) 99
/-- The record alone and with its entries; a free slot, 256 plans that may go, 256 pinned; a turn that is past; a query that fails; each record of
hints. -/
theorem witness_PlannerInstructions :
    let s := planned mapQ none
    let q : QRec := bytesBv 5632 (wordBytes mapQ)
    let all := wordBytes mapQ ++ entB ++ entB
    let p := planOf mapQ
    let f (p : Plan) := { planned mapQ none with ctxs := [(ctx0, { (planned mapQ none).cx with plans := (List.range 256).map fun j => (j, { plan := some { p with stamp := j }, used := true }) })] }
    let h := planned (List.replicate 16 0) (some p)
    let pin := planned (List.replicate 16 0) (some { p with pinned := true })
    let run := planned (List.replicate 16 0) (some { p with run := some { slot := me, asid := 1, level := 1, binding := 0 } })
    let noE := s.onCx fun c => { c with stbase := 0 }
    let made (q : List Nat) : Bool := good (makePlan (bytesBv 5632 (wordBytes q)) 0x20000001000 0 0 0 [] (heldEntries (wordBytes q ++ entB ++ entB) 704))
    (s.st.held = none ∧ planReads s 704 64 = true ∧ CanTrap s) ∧
    ((heldEntries (wordBytes mapQ) 704).length < min 8 (qLeaves q) ∧ okE (s.leafEntry s.xid q 0) = true ∧ okE (noE.leafEntry noE.xid q 0) = false ∧
      CanTrap noE) ∧
    (¬ (heldEntries all 704).length < min 8 (qLeaves q) ∧ made mapQ = true ∧ (holdB s all).st.held = some all ∧ (s.cx.planSlot 0).plan = none ∧
      (holdB s all).planTurn = true ∧ (lateTurn (holdB s all)).planTurn = false) ∧
    ((List.range 256).all (fun j => ((f p).cx.planSlot j).plan == some { p with stamp := j }) = true ∧ Evictable { p with stamp := 0 }) ∧
    ((List.range 256).all (fun j => ((f { p with pinned := true }).cx.planSlot j).plan == some { p with pinned := true, stamp := j }) = true ∧
      ¬ Evictable { p with pinned := true } ∧ CanTrap (holdB (f { p with pinned := true }) all)) ∧
    made (queryOf 0 0) = false ∧ ((base.rs 6 + 4).toNat % 64 ≠ 0 ∧ base.st.held = none ∧ CanTrap base) ∧
    (h.cx.planOf (h.rs 5) = some (3, p) ∧ planReads h 64 64 = true ∧ h.st.held = none ∧ (hintBad 0).isNone = true ∧ (hintBad 0x10).isSome = true ∧
      CanTrap (holdB h (List.replicate 64 0x10)) ∧
      (heldEntries (List.replicate 64 0) 64).length < min 8 (qLeaves p.query) ∧ okE (h.leafEntry h.xid p.query 0) = true ∧
      ¬ (heldEntries (List.replicate 64 0 ++ entB ++ entB) 64).length < min 8 (qLeaves p.query) ∧ p.pinned = false ∧ p.run = none ∧
      good (makePlan p.query p.vaQuery 0 0 0 [] (heldEntries (List.replicate 64 0 ++ entB ++ entB) 64)) = true ∧
      good (h.xlAccess ⟨ctx0, 1, .u, .store, .scalar⟩ (h.rs 6) 64) = true ∧ h.st.liveFrame (h.rs 6).toNat 64 = none) ∧
    (pin.cx.planOf (pin.rs 5) = some (3, { p with pinned := true }) ∧ CanTrap pin) ∧ (run.cx.planOf (run.rs 5)).isSome = true ∧
    (s.cx.planOf (s.rs 5) = none) := by
  refine ⟨⟨?_, ?_, canTrap_of ?_ ?_⟩, ⟨?_, ?_, ?_, canTrap_of ?_ ?_⟩, ?_, ⟨?_, ?_⟩, ⟨?_, ?_, canTrap_of ?_ ?_⟩, ?_, ⟨?_, ?_, canTrap_of ?_ ?_⟩,
    ⟨?_, ?_, ?_, ?_, ?_, canTrap_of ?_ ?_, ?_⟩, ⟨?_, canTrap_of ?_ ?_⟩, ?_, ?_⟩ <;> (try unfold Evictable) <;> decide +kernel
/-- Leaves as recorded, and one with another generation; a bad binding; sums with CBRES 0; a plan that runs, one that is pinned, and D2. -/
theorem witness_QrunStartsPlans :
    let p := planOf mapQ
    let bind : List Nat := List.replicate 36 0
    let all := wordBytes bind ++ entB ++ entB
    let s := planned bind (some p)
    let old : Plan := { p with entries := [bytesBv 512 entB, 0] }
    let pin := planned bind (some { old with pinned := true })
    let runs := planned bind (some { p with run := some { slot := me, asid := 1, level := 1, binding := 0 } })
    let sum := planned bind (some (planOf sumQ))
    let none_ := planned bind none
    let held := holdB s (wordBytes bind)
    (s.st.held = none ∧ planReads s 144 16 = true ∧ none_.cx.planOf (none_.rs 5) = none ∧ CanTrap none_) ∧
    (held.cx.planOf (held.rs 5) = some (3, p) ∧ held.st.held = some (wordBytes bind) ∧ held.bindBad 0 = none ∧ p.needsTile = false ∧ AtJoin held ∧
      Arrived held ∧ p.run = none ∧ (heldEntries (wordBytes bind) 144).length < min 8 (qLeaves p.query) ∧ okE (s.leafEntry s.xid p.query 0) = true) ∧
    (min 8 (qLeaves p.query) ≤ (heldEntries all 144).length ∧ p.staleLeaf ((heldEntries all 144).take 2) = none) ∧
    (s.bindBad 0x200 ≠ none ∧ CanTrap s) ∧
    ((planOf sumQ).needsTile = true ∧ (sum.launchOf sum.xid).elim 0 Launch.cbres < 512 ∧ CanTrap sum) ∧
    ((runs.cx.planOf (runs.rs 5)).isSome = true ∧ AtJoin runs ∧ Arrived runs) ∧
    (old.staleLeaf ((heldEntries all 144).take 2) = some 1 ∧ old.pinned = false ∧ (heldEntries all (144 + 64 * 2)).length < 2 ∧
      2 ≤ (heldEntries (all ++ entB ++ entB) (144 + 64 * 2)).length ∧
      good (makePlan p.query p.vaQuery 0 p.hints 0 [] (heldEntries (all ++ entB ++ entB) (144 + 64 * 2))) = true) ∧
    ((pin.cx.planOf (pin.rs 5)).isSome = true ∧ AtJoin pin ∧ Arrived pin ∧ CanTrap pin) := by
  refine ⟨⟨?_, ?_, ?_, canTrap_of ?_ ?_⟩, ⟨?_, ?_, ?_, ?_, ⟨?_, ?_, ?_⟩, arrived_of ?_, ?_, ?_, ?_⟩, ?_, ⟨?_, canTrap_of ?_ ?_⟩,
    ⟨?_, ?_, canTrap_of ?_ ?_⟩, ⟨?_, ⟨?_, ?_, ?_⟩, arrived_of ?_⟩, ?_, ⟨?_, ⟨?_, ?_, ?_⟩, arrived_of ?_, canTrap_of ?_ ?_⟩⟩ <;>
    decide +kernel
/-- A run before its node, after it, at a break that agrees, and with a root too long for its destination. -/
theorem witness_PlanRuns :
    let b : BitVec 1152 := bytesBv 1152 (wordBytes ([0, 0, 0, 0, 0x2000, 0x200, 0, 0, 0x3000, 0x200, 0, 0] ++ List.replicate 24 0))
    let r : PlanRun := { id := 7, slot := me, asid := 1, level := 1, binding := b }
    let t (n : Nat) : Tensor := { dims := [n], fmt := some .int32, pats := List.replicate n 1 }
    let at1 (brk : Bool) (n : Nat) : PlanRun := { r with results := [t n], atBreak := brk, ests := [(1, 2, 3)] }
    let cmd : EngCmd := { cmdOf .plan .me 0 with xfer := 7 }
    let s (r : PlanRun) := planned mapQ (some { planOf mapQ with run := some r })
    let q (r : PlanRun) := (s r).onCore core0 fun k => k.setQueue .me { cmds := [cmd] }
    let on : PlanRun := { r with staged := [0], used := [0] }
    let full := (s r).onCore core0 fun k => k.setQueue .me { cmds := List.replicate 64 cmd }
    let p (r : PlanRun) : Plan := { planOf mapQ with run := some r }
    let d2 : PlanRun := { r with level := 2 }
    let meets := (s d2).onCore core0 fun k => k.setQueue .ce { cmds := [{ cmdOf .cpy .ce 0 with id := 9, writes := [⟨memSpace 1, 0x20000003000, 0x20000003010⟩] }] }
    let w : DestWrites := { cells := [(0, 1), (1, 1), (2, 1), (3, 1)] }
    let sent (id : Option Nat) : PlanRun := { at1 false 4 with staged := [0], used := [0], out := some w, sent := id }
    let fin (id : Option Nat) : State := (q (sent id)).onCore core0 fun k => k.setQueue .me { cmds := [cmd] }
    let way (id : Nat) : State := (fin (some id)).onCore core0 fun k => { k with paths := [{ loc := .kt 0 1 0 0, bytes := [7], owner := none, x := ctx0, cmd := some id }] }
    ((s r).stageOn ctx0 (p r) r 0 = [0] ∧ (s r).wgCtx ctx0 0 = some ctx0 ∧ ((s r).core core0).bankOpen = true ∧ r.staged = [] ∧
      (full.core core0).bankOpen = false ∧ r.results.length ≤ qRoot (p r).query ∧ r.results.length < qNodes (p r).query ∧
      (s r).setOverlap ((s r).planCmd ctx0 ctx0 (p r) r 0) = none ∧ (meets.setOverlap (meets.planCmd ctx0 ctx0 (p d2) d2 0)).isSome = true) ∧
    ((q on).stagedReady ctx0 on = true ∧ (s on).stagedReady ctx0 on = false ∧ on.staged ≠ [] ∧ (q on).unstaged ctx0 on = [] ∧
      (s on).unstaged ctx0 on = [0]) ∧
    ((q { at1 false 4 with staged := [0] }).stagedReady ctx0 { at1 false 4 with staged := [0] } = true ∧ (s r).usedSaved ctx0 (at1 false 4) = false ∧
      (at1 false 4).sem = none) ∧
    ((s r).runOf ctx0 3 = some (p r, r) ∧ r.frozen = false ∧ ((s r).core ctx0.core).fenced = false ∧ r.atBreak = false ∧ 0 < (p r).steps ∧
      okE ((s r).evalNode ctx0 r (p r) 0) = true) ∧
    ((s (at1 true 4)).runOf ctx0 3 = some (p (at1 true 4), at1 true 4) ∧ (p (at1 true 4)).sizeFails (at1 true 4) = none) ∧
    ((p (at1 true 5)).sizeFails (at1 true 5) = some 0 ∧ ((s (at1 true 5)).strm me).present = true ∧ (s (at1 true 5)).xidOf me = ctx0) ∧
    ((s (at1 false 4)).runOf ctx0 3 = some (p (at1 false 4), at1 false 4) ∧ (p (at1 false 4)).steps ≤ 1 ∧
      (match (s (at1 false 4)).rootWrites ctx0 (at1 false 4) (p (at1 false 4)) with
        | .ok w => okE ((s (at1 false 4)).destStrings ctx0 (p (at1 false 4)) (at1 false 4) w) && w.cells.length == 4
        | .bad _ | .wait | .drop _ => false) = true ∧ bindSva b 1 = 0 ∧ qUpd (p r).query = false ∧ nbit b.toNat 23 = false) ∧
    ((fin none).runOf ctx0 3 = some (p (sent none), sent none) ∧ (fin none).stagedCmds ctx0 (sent none) = [(ctx0, cmd)] ∧
      (fin none).stagedReady ctx0 (sent none) = true ∧ okE ((fin none).destStrings ctx0 (p (sent none)) (sent none) w) = true ∧
      (fin (some 5)).destWriting 5 = false ∧ (way 5).destWriting 5 = true ∧ cmd.pageFault = none ∧
      (fin (some 5)).usedSaved ctx0 (sent (some 5)) = false) := by
  decide +kernel

/-! ### Statements of statistics, formats and control registers -/

/-- TID 3 of a table of 4 entries, and TID 4; vector 9 all zeros, and with a RANK that is too large. -/
theorem witness_StatisticsAndFormats :
    let s := (planned [] none).onStrm me fun st => st.ws 7 3
    let out := (planned [] none).onStrm me fun st => st.ws 7 4
    let nf := held (List.replicate 16 0x000C01A4)
    let no := held (List.replicate 16 0)
    let odd := scal 6 4
    let va := 0x20000000000 + 64 * 3
    ((s.rs 7).toNat < s.cx.stcount.toNat ∧ (s.rs 7).toNat < 4096 ∧ s.cx.stbase.toNat * 2 ^ 16 + 64 * (s.rs 7).toNat = va ∧
      (match s.xlAccess ⟨ctx0, 1, .u, .load, .scalar⟩ (BitVec.ofNat 64 va) 64 with
        | .ok ps => (s.firstStop ps).isNone
        | .bad _ => false) = true ∧
      (match s.xlAccess ⟨ctx0, 1, .u, .store, .scalar⟩ (BitVec.ofNat 64 va) 64 with
        | .ok ps => (s.firstStop ps).isNone && !s.ownPieces s.cur ps
        | .bad _ => false) = true ∧ s.st.liveFrame va 64 = none ∧ Usable s [s.vreg 9] ∧ AtJoin s ∧ Arrived s) ∧
    (¬ (out.rs 7).toNat < out.cx.stcount.toNat ∧ CanTrap out) ∧
    reads nf (nf.rs 6) 64 (fun _ r => (List.range 16).all fun k => nfValid (r.extractLsb' (32 * k) 32)) = true ∧
    (reads no (no.rs 6) 64 (fun _ r => !nfValid (r.extractLsb' 0 32)) = true ∧ CanTrap no) ∧ ((odd.rs 6).toNat % 64 ≠ 0 ∧ CanTrap odd) := by
  refine ⟨⟨?_, ?_, ?_, ?_, ?_, ?_, ?_, ⟨?_, ?_, ?_⟩, arrived_of ?_⟩, ⟨?_, canTrap_of ?_ ?_⟩, ?_, ⟨?_, canTrap_of ?_ ?_⟩,
    ⟨?_, canTrap_of ?_ ?_⟩⟩ <;> (try unfold Usable) <;> decide +kernel
/-- An assigned number below 0x040, one above, and one that is not assigned; clean values, a reserved bit, and values that break each rule. -/
theorem witness_ControlRegisters :
    let sup := str fun st => { st with priv := .s }
    let big := (sup.onStrm me fun st => st.ws 5 0xFFFFFFFFFFFFFFFF)
    let sets (n : Nat) (p : CsrInfo → Bool) : Bool := match csrInfo n with
      | some i => p i
      | none => false
    (csrInfo 0x00A ≠ none ∧ csrInfo 0x101 ≠ none ∧ csrInfo 0x3FF = none ∧ CanTrap base ∧ sup.st.priv = .s) ∧
    (sets 0x00A (fun i => i.wu != 0 && (8 &&& (2 ^ 64 - 1 - i.fld) == 0) && i.wo == 0) = true ∧
      sets 0x00A (fun i => (0xFFFFFFFFFFFFFFFF &&& (2 ^ 64 - 1 - i.fld) != 0)) = true ∧
      (List.range 0x040).any (fun n => sets n fun i => i.wu == 0) = true) ∧
    (sets 0x019 (fun i => i.ws != 0 && (5 &&& (2 ^ 64 - 1 - i.fld) == 0)) = true ∧ (sup.csrGet 0x019).toNat ≤ 5 ∧
      ((sup.onDev 0 fun d => { d with time := 6 }).csrGet 0x019).toNat = 6) ∧
    (6 : Word).extractLsb' 1 2 = 3 ∧ ((17 : Word).extractLsb' 0 5).toNat = 17 ∧
    (sets 0x004 (fun i => (2 &&& (2 ^ 64 - 1 - i.fld) == 0)) = true ∧ (2 : Word) ≠ 3) ∧
    (sets 0x10C (fun i => (2 ^ 56 &&& (2 ^ 64 - 1 - i.fld) == 0)) = true ∧ sup.cktt.busy = none ∧
      sup.cktt.refuses 1 0 sup.cx.npa = false ∧ sup.cktt.refuses 2 0 sup.cx.npa = false) ∧
    (sets 0x10E (fun i => (1 &&& (2 ^ 64 - 1 - i.fld) == 0)) = true ∧ (1 : Word).getLsbD 0 = true) ∧
    (sets 0x041 (fun i => (0x4000 &&& (2 ^ 64 - 1 - i.fld) == 0)) = true ∧ (sup.dev 0).gtReq = none ∧ ((0x4000 : Word).extractLsb' 12 4).toNat = 4) ∧
    (big.rs 5).toNat = 2 ^ 64 - 1 := by
  refine ⟨⟨?_, ?_, ?_, canTrap_of ?_ ?_, ?_⟩, ?_⟩ <;> decide +kernel
/-! ### Statements of actions, traps and saving -/

/-- The small state whose stream has asked for an action. -/
def asking (r : CsrReq) : State := str fun st => { st with status := .waiting, csrReq := r }
theorem witness_AskedActions :
    let d := asking (.det 3 2 9)
    let d3 := asking (.det 0 3 9)
    let busy := (asking (.det 3 2 9)).onCore core0 fun k => { k with ce := { cmds := [cmdOf .cpy .ce 0] } }
    let sk (q : QStop) := (asking (.skip .ce)).onCore core0 fun k => { k with ce := { cmds := [cmdOf .cpy .ce 0], stop := q } }
    let kill := asking .kill
    let kt (r : CsrReq) (b : Option Nat) := (asking r).onDev 0 fun d => { d with ktts := [(1, { entries := (d.ktts.map fun p => p.2.entries).flatten, busy := b })] }
    let mig := devd fun d => { d with ktts := [(1, { entries := [{ va := placeVa, pa := placePa, state := 2, layout := 0, log2 := 16, permMask := 0xFFFFF,
                                                                     npa := 0x40000, wmark := 511 }], busy := some 0 })] }
    (d.canAct me = true ∧ d.st.csrReq = .det 3 2 9 ∧ d.cmdList d.xid = [] ∧ d.cx.runs = [] ∧ (d.cx.det &&& ~~~3#2) ||| 2#2 ≠ 3) ∧
    (busy.canAct me = true ∧ busy.cmdList busy.xid = [cmdOf .cpy .ce 0] ∧ (cmdOf .cpy .ce 0).kind ≠ .plan ∧ (cmdOf .cpy .ce 0).id < 9 ∧
      ¬ (cmdOf .cpy .ce 0).id < 5) ∧ (d3.st.csrReq = .det 0 3 9 ∧ (d3.cx.det &&& ~~~0#2) ||| 3#2 = 3 ∧ CanTrap d3) ∧
    ((sk .ended).canAct me = true ∧ (sk .ended).st.csrReq = .skip .ce ∧ (((sk .ended).core core0).queue .ce).cmds = [cmdOf .cpy .ce 0] ∧
      (cmdOf .cpy .ce 0).x = (sk .ended).xid ∧ (((sk .ended).core core0).queue .ce).stop ≠ .going ∧ (((sk .going).core core0).queue .ce).stop = .going) ∧
    (kill.Canon ∧ kill.canAct me = true ∧ kill.st.csrReq = .kill ∧ kill.lidOf kill.xid = some 0 ∧ (kill.launch? 0 0).any (fun l => !l.done) = true) ∧
    ((kt (.kttAbsent 0) none).canAct me = true ∧ (kt (.kttAbsent 0) none).st.csrReq = .kttAbsent 0 ∧ (kt (.kttAbsent 0) none).cktt.busy = none ∧
      (kt (.kttAbsent 0) none).cktt.entries[0]?.isSome = true ∧ (kt (.kttAbsent 0) none).cktt.refuses 1 0 0 = false ∧
      (kt (.kttPresent 0) none).cktt.refuses 2 0 0 = false ∧ (kt (.kttMigrate 0) none).cktt.refuses 3 0 0x100000 = false ∧
      (kt (.kttMigrate 0) (some 0)).cktt.busy.isSome = true) ∧
    ((kt (.kttMigrate 0) none).st.csrReq = .kttMigrate 0 ∧ (kt (.kttMigrate 0) none).cktt.refuses 3 0 0x10000 = true ∧ CanTrap (kt (.kttMigrate 0) none)) ∧
    ((kt (.kttAbsent 7) none).cktt.entries[7]? = none) ∧
    (mig.Canon ∧ (mig.ktt 0 1).busy = some 0 ∧ (mig.ktt 0 1).entries[0]?.isSome = true ∧ (mig.dev 0).isProtected (0x10000 + 128 * 511) = false ∧
      (mig.dev 0).isProtected (0x40000 + 128 * 511) = false ∧ mig.placePhys 0 (0x10000 + 128 * 511) = .devMem 0 (0x10000 + 128 * 511) ∧
      mig.placePhys 0 (0x40000 + 128 * 511) = .devMem 0 (0x40000 + 128 * 511) ∧ 2 ^ 16 / 128 ≤ 511 + 1 ∧ 510 + 1 < 2 ^ 16 / 128) := by
  refine ⟨?_, ?_, ⟨?_, ?_, canTrap_of ?_ ?_⟩, ?_, ⟨canon_of ?_ ?_, ?_⟩, ?_, ⟨?_, ?_, canTrap_of ?_ ?_⟩, ?_, ⟨canon_of ?_ ?_, ?_⟩⟩ <;> decide +kernel
/-- Faults of the stream and of two engines pending, in U, in S and on a halted stream with and without another main stream; a stub and none; an omitted
bank and one that is not powered; a log with room and a full one. -/
theorem witness_TrapsAndDiversions :
    let own : FaultRec := { name := .absent }
    let ce : FaultRec := { name := .absent, eng := true, src := 0x80000000 }
    let pf (f : Stream → Stream) := str fun st => f { st with pendFaults := [ce, own] }
    let sup := pf fun st => { st with priv := .s }
    let halted := pf fun st => { st with status := .halted }
    let mate := halted.onStrm ⟨core0, 1, 0⟩ fun st => { st with status := .running }
    let hdr : Cursor := { pc := 0x20000000000, hdr := 0x20000000000, fin := 0x20000000000, rem := 1 }
    let ask (ds : List (Nat × Nat × Nat)) (f : Stream → Stream) :=
      (((str fun st => f { st with ex := hdr }).onCtx ctx0 fun c => { c with preempt := true }).onLaunch 0 0 fun l => { l with drains := ds })
    let stub := ask [(0, 8, 4)] id
    let none_ := ask [] id
    let wt := ask [] fun st => { st with ex := base.st.ex, status := .waiting, wait := .bar .core }
    let unset := ask [] fun st => { st with sq := [.stg 0 0 false 0 0 []] }
    let behind (fl : Option (Nat × FaultRec)) := ask [(0, 8, 4)] fun st =>
      { st with acc := { st.acc with lq := [.twin 0], fault := fl }, sq := [.twin 0 .mark, .store 1 0 []] }
    let twin (op : JoinOp) (f : Stream → Stream) := ask [] fun st =>
      f { st with ex := base.st.ex, seq := 1, joinAt := some (0, hdr), sq := [.twin 0 op], acc := { st.acc with lq := [.twin 0] } }
    let gate := ask [] fun st => { st with ex := base.st.ex, status := .waiting, wait := .bar .core, sq := [.twin st.seq .gate],
                                           acc := { st.acc with lq := [.twin st.seq] } }
    let given (s : State) : State := s.setSt (if s.st.joinPending then ({ s.st with engIssue := none } : Stream) else s.st).unissue.stow
    let ps := str fun st => { st with stub := .before }
    let psw (fl : Option (Nat × FaultRec)) := ps.onStrm me fun st => { st with sq := [.twin 0 .mark], acc := { st.acc with lq := [.twin 0], fault := fl } }
    let rs := str fun st => { st with stub := .resumed }
    let few := ps.onLaunch 0 0 fun l => { l with vbanks := 1 }
    let r : LogRec := ⟨1, 2, 3, 4, 5, 6⟩
    let lg (n : BitVec 5) (w : BitVec 32) := devd fun d => { d with fllog2n := n, flwptr := w, flbase := 0x800, logQueue := [r] }
    (base.st.priv = .u ∧ (pf id).st.pendFaults = [ce] ++ own :: [] ∧ (own.eng = false ∧ 0 < (ce.src.extractLsb' 30 2).toNat) ∧ own.name.logOnly = false ∧
      sup.st.priv = .s ∧ (pf id).canAct me = true ∧ CanTrap (pf id)) ∧
    ((halted.core core0).fenced = false ∧ halted.st.status = .halted ∧ mate.liveMain mate.xid = some ⟨core0, 1, 0⟩ ∧ halted.liveMain halted.xid = none ∧
      (halted.strm ⟨core0, 0, halted.xid.ctx⟩).priv = .u ∧ halted.xid.ctx < 2 ∧ CanTrap halted) ∧
    (stub.canAct me = true ∧ (stub.ctx stub.xid).preempt = true ∧ stub.st.stub = .none ∧ stub.st.pendFaults = [] ∧ stub.st.engIssue = none ∧
      stub.st.csrReq = .none ∧ stub.diverts me = true ∧ stub.stubOf me = some 0x20000000004 ∧ stub.st.storeBehind = false ∧ stub.st.joinPending = false) ∧
    ((behind none).diverts me = true ∧ (behind none).st.storeBehind = true ∧ (behind none).st.joinPending = true ∧
      (behind none).st.acc.headFaulted = false ∧ (behind (some (0, own))).st.acc.headFaulted = true ∧ CanTrap (behind (some (0, own)))) ∧
    ((twin .mark id).diverts me = false ∧ (twin .mark id).st.status ≠ .waiting ∧ (twin .mark id).st.gated = false ∧
      (twin .mark id).st.unperformed = some (0, hdr, .mark) ∧ (given (twin .mark id)).settled me = true) ∧
    (gate.diverts me = false ∧ gate.st.gated = true ∧ gate.st.wait.cut = true ∧ (given gate).settled me = true) ∧
    (none_.diverts me = true ∧ none_.stubOf me = none ∧ (given none_).settled me = true) ∧
    (wt.canAct me = true ∧ wt.diverts me = false ∧ wt.st.status = .waiting ∧ wt.st.wait.cut = true ∧ (given wt).settled me = true) ∧
    (unset.diverts me = true ∧ unset.stubOf me = none ∧ (given unset).settled me = false) ∧ (base.ctx base.xid).preempt = false ∧
    (ps.st.priv = .u ∧ ps.st.stub = .before ∧ (∀ b < 4, (8#4).getLsbD b = true → b < ps.vbanks) ∧ ps.st.acc.late = [] ∧ ps.st.acc.lq = [] ∧
      ps.settled ps.cur = true ∧ ps.st.pend = []) ∧
    ((psw none).settled me = false ∧ (psw none).st.acc.late = [] ∧ (psw none).st.acc.headFaulted = false ∧ (psw (some (0, own))).st.sq ≠ [] ∧
      (psw (some (0, own))).st.acc.headFaulted = true ∧ CanTrap (psw (some (0, own)))) ∧
    ((8#4).getLsbD 3 = true ∧ ¬ 3 < few.vbanks ∧ CanTrap few) ∧ (base.st.stub ≠ .before ∧ base.st.stub ≠ .resumed ∧ CanTrap base) ∧
    (rs.st.priv = .u ∧ rs.st.stub = .resumed ∧ rs.st.acc.late = [] ∧ rs.st.acc.lq = [] ∧ rs.st.acc.headFaulted = false) ∧
    ((lg 4 0).Canon ∧ (lg 4 0).cpStop 0 [(0x20000, 64)] = none ∧ ((lg 4 0).dev 0).logQueue = [r] ∧ 4 ≤ ((lg 4 0).dev 0).fllog2n.toNat ∧ ((lg 16 0).dev 0).fllog2n.toNat ≤ 16 ∧
      ((0 : BitVec 32) - 0).toNat ≠ 16 ∧ ((lg 4 16).dev 0).flwptr.toNat = 16 ∧ ((lg 3 0).dev 0).fllog2n.toNat < 4 ∧ 16 < ((lg 17 0).dev 0).fllog2n.toNat) := by
  refine ⟨⟨?_, ?_, ?_, ?_, ?_, ?_, canTrap_of ?_ ?_⟩, ⟨?_, ?_, ?_, ?_, ?_, ?_, canTrap_of ?_ ?_⟩, ?_, ⟨?_, ?_, ?_, ?_, ?_, canTrap_of ?_ ?_⟩, ?_, ?_, ?_, ?_, ?_, ?_, ?_,
    ⟨?_, ?_, ?_, ?_, ?_, canTrap_of ?_ ?_⟩, ⟨?_, ?_, canTrap_of ?_ ?_⟩,
    ⟨?_, ?_, canTrap_of ?_ ?_⟩, ?_, ⟨canon_of ?_ ?_, ?_⟩⟩ <;> decide +kernel
/-! The length of an image is bounded, and with every field in service the command processor reaches device memory. -/

theorem natBytes_length (n x : Nat) : (natBytes n x).length = n := by
  induction n generalizing x with
  | zero => rfl
  | succ n ih => simp [natBytes, ih]
theorem padTo_length (n : Nat) (bs : List Byte) : (padTo n bs).length = n := by
  simp [padTo]; omega
theorem flatMap_length_le {α : Type} (n : Nat) (f : α → List Byte) (l : List α) (h : ∀ x, (f x).length ≤ n) :
    (l.flatMap f).length ≤ l.length * n := by
  induction l with
  | nil => simp
  | cons x l ih => have := h x; rw [List.flatMap_cons, List.length_append, List.length_cons, Nat.succ_mul]; omega
theorem sectionOf_length (ty key : Nat) (b : List Byte) : (sectionOf ty key b).length ≤ b.length + 31 := by
  simp [sectionOf, natBytes_length, padTo_length, ceilDiv]; omega
theorem imageBody_length (st : Stream) (n : Nat) : (st.imageBody n).length ≤ 60000 := by
  have hw : ∀ l : List Nat, (l.flatMap (natBytes 8)).length = l.length * 8 := fun l => by
    induction l with
    | nil => rfl
    | cons x l ih => simp [natBytes_length, Nat.succ_mul] at *; omega
  have h1 := flatMap_length_le 16 (fun n => bvBytes 16 (st.rp (BitVec.ofNat 4 n))) (upTo 16) (by simp [bvBytes, natBytes_length])
  have h2 := flatMap_length_le 128 (fun l => bvBytes 128 l.val) st.l.toList (by simp [bvBytes, natBytes_length])
  have h3 := flatMap_length_le 1 (fun l => natBytes 1 (latchCode l.st)) st.l.toList (by simp [natBytes_length])
  have h4 := flatMap_length_le 4096 (fun t => bvBytes 4096 t) st.tx.toList (by simp [bvBytes, natBytes_length])
  have h5 := flatMap_length_le 128 (fun k => bvBytes 128 (if k / 16 < n then st.rv (BitVec.ofNat 6 k) else 0)) (upTo 64) (by simp [bvBytes, natBytes_length])
  have h6 := flatMap_length_le 2048 (fun q : List Vec => padTo 2048 (q.flatMap fun v => bvBytes 128 v)) st.acc.qs.toList (by simp [padTo_length])
  simp only [Stream.imageBody, List.length_append, padTo_length, natBytes_length, hw, List.length_map, Vector.length_toList]
  simp only [Vector.length_toList, upTo, List.length_range] at h1 h2 h3 h4 h5 h6 ⊢
  have h7 : st.crWords.length ≤ 100 := by simp [Stream.crWords]
  omega
theorem imageOf_length (c : Ctx) (k v : Nat) (e : Bool) (bars : List Bool) (sts : List (SlotId × Stream)) (opq : List Byte)
    (hd : c.bufferSections e = []) (hs : sts.length ≤ 100) (ho : opq.length ≤ 0x100000) : (imageOf c k v e bars sts opq).length ≤ 2 ^ 24 := by
  have h1 := sectionOf_length 1 0 (c.imageBody bars)
  have h2 := sectionOf_length 3 0 opq
  have h3 := sectionOf_length 4 0 opq
  have h4 := sectionOf_length 0xFF 0 []
  have h5 : ((sts.map fun p => sectionOf 2 (p.1.cl * 16 + p.1.sl * 4) (p.2.imageBody v)).flatten).length ≤ sts.length * 60031 := by
    rw [← List.flatMap_def]
    exact flatMap_length_le _ _ _ fun p => (sectionOf_length ..).trans (by have := imageBody_length p.2 v; omega)
  have h6 : (c.imageBody bars).length = 1024 := by simp [Ctx.imageBody, padTo_length]
  simp only [imageOf, hd, List.length_append, List.flatten_append, List.flatten_cons, List.flatten_nil, List.length_nil, padTo_length] at *
  omega
/-- With every field in service each address below 2^40 is device memory. -/
theorem served (s : State) (d a : Nat) (h : ((s.dev d).fields.toList.all fun f => f.state == 2#3) = true) (ha : a < 2 ^ 40) :
    s.placePhys d a = .devMem d a := by
  have : ¬ 2 ^ 40 ≤ a := by omega
  simp only [State.placePhys, this, if_false, Device.homeState, h, if_true]
  rfl
theorem cpStop_none (s : State) (d a n : Nat) (h : ((s.dev d).fields.toList.all fun f => f.state == 2#3) = true) (hk : (s.dev d).stops = [])
    (ha : a + n + 128 ≤ 2 ^ 40) : s.cpStop d [(a, n)] = none := by
  have h0 : decide (a < 2 ^ 63) = true := by simp; omega
  have hp : ∀ k ∈ upTo (ceilDiv (a % 128 + n) 128), s.placePhys d (a / 128 * 128 + 128 * k) = .devMem d (a / 128 * 128 + 128 * k) := by
    intro k hk
    have hk : k < ceilDiv (a % 128 + n) 128 := by simpa [upTo] using hk
    exact served s d _ h (by unfold ceilDiv at hk; omega)
  simp only [State.cpStop, hk, List.any_nil, List.filter_cons, h0, if_true, List.filter_nil, List.flatMap_cons, List.flatMap_nil, List.append_nil,
    Bool.false_eq_true, if_false]
  rw [List.map_congr_left hp, List.find?_eq_none.2 (by simp), List.find?_eq_none.2 (by simp)]
  rfl
theorem image_served (s : State) (x : CtxId) (i : Nat) (h : ((s.dev x.core.dev).fields.toList.all fun f => f.state == 2#3) = true)
    (hk : (s.dev x.core.dev).stops = []) (hd : (s.ctx x).bufferSections (s.exclOf x) = []) (hs : (s.slotsOfCtx x).length ≤ 100) (ha : (s.dev x.core.dev).imageAt i ≤ 2 ^ 39) :
    s.cpStop x.core.dev [((s.dev x.core.dev).imageAt i, (s.contextImage x).length)] = none := by
  have := imageOf_length (s.ctx x) x.ctx (match s.launchOf x with | none => 4 | some l => l.vbanks) (s.exclOf x)
    ([.core, .quad, .field, .device, .pod].map fun b => ((s.slotsOfCtx x).map fun id => (id, s.strm id)).any fun p => p.2.wait == .bar b)
    ((s.slotsOfCtx x).map fun id => (id, s.strm id)) ((Config.deviceBody s.clock).take 0x100000) hd (by simpa using hs)
    (by rw [List.length_take]; exact Nat.min_le_left _ _)
  have h2 : (s.contextImage x).length ≤ 2 ^ 24 := this
  exact cpStop_none _ _ _ _ h hk (by omega)
/-- The small context, to stop and still, with k image slots. -/
def stopping (k : BitVec 16) : State :=
  (((mainsOf ctx0).foldl (fun s id => s.onStrm id fun st => { st with status := .saved }) base).onCtx ctx0 fun c => { c with preempt := true }).onDev 0
    fun d => { d with savenum := k, savebase := 1 }
/-- What the slot of an image keeps. -/
def slotImage : ImageSlot := { launch := 0, wgid := 3, x := ctx0, ctx := {}, streams := [], queues := [] }
/-- The small device with an image of two sections in slot 0, its first word w. -/
def imaged (w : Nat) : State := devd fun d =>
  { d with savenum := 1, savebase := 1, images := [(0, slotImage)],
           mem := mwrite (mwrite (mwrite d.mem 0x1000000 (wordBytes [w, 1, 1, 2, 1120])) 0x1000040 (wordBytes [0x01000000, 1024])) 0x1000450
             (wordBytes [0xFF000000, 0]) }
/-- A context that is to stop and still, one that is not, no free slot; an image that passes its checks and one that does not. -/
theorem witness_SaveAndRestore :
    (((stopping 1).ctx ctx0).live = some (0, 0) ∧ ((stopping 1).ctx ctx0).preempt = true ∧ (stopping 1).savedWith ctx0 = [ctx0] ∧ (stopping 1).stilled ctx0 = true ∧
      (stopping 1).enginesStill ctx0 = true ∧ (stopping 1).Canon ∧ 0 < ((stopping 1).dev 0).savenum.toNat ∧ fget? ((stopping 1).dev 0).images 0 = none ∧
      ((stopping 1).launch? 0 0).isSome = true ∧
      (stopping 1).cpStop 0 [(((stopping 1).dev 0).imageAt 0, ((stopping 1).contextImage ctx0).length)] = none) ∧ ((stopping 0).dev 0).savenum.toNat = 0 ∧ (base.ctx ctx0).preempt = false ∧
    (fget? ((imaged 0x58385356).dev 0).images 0 = some slotImage ∧
      (imaged 0x58385356).cpStop 0 [(0x1000000, 1120)] = none ∧ ((imaged 0x58385356).dev 0).imageAt 0 = 0x1000000 ∧
      min imageSpan (((imaged 0x58385356).dev 0).pnat (0x1000000 + 16) 8) = 1120 ∧ ((imaged 0x58385356).launch? 0 0).any (fun l =>
        ((imaged 0x58385356).restoreTo 0 l slotImage).isSome && (((imaged 0x58385356).dev 0).checkImage 0x1000000 l.asid l.excl).isSome &&
        ((imaged 0).restoreTo 0 l slotImage).isSome && (((imaged 0).dev 0).checkImage 0x1000000 l.asid l.excl).isNone && (imaged 0).restoreTo 0 l slotImage != some ctx0) = true) := by
  refine ⟨⟨?_, ?_, ?_, ?_, ?_, canon_of ?_ ?_, ?_, ?_, ?_, image_served (stopping 1) ctx0 0 ?_ ?_ ?_ ?_ ?_⟩, ?_, ?_, ?_,
    cpStop_none (imaged 0x58385356) 0 0x1000000 1120 ?_ ?_ ?_, ?_⟩ <;> decide +kernel
/-! ### Statements of blocks, work groups and the command processor -/

/-- What a fetch answers, a place or a fault. -/
def fetchGives {α : Type} (r : Fetch α) (p : State → α → Bool) : Bool := match r with
  | .ok s x => p s x
  | _ => false
/-- The small state with the stream at the header h, its code range reaching n bytes. -/
def atHeader (h n : Nat) : State :=
  ((devd fun d => { d with mem := mwrite d.mem 0x10000 (natBytes 4 h) }).onStrm me fun st => { st with ex := { pc := 0x20000000000, hdr := 0x20000000000, fin := 0x20000000000, rem := 1 } }).onCtx ctx0 fun c =>
    { c with codelim := hiBits (BitVec.ofNat 64 (0x20000000000 + n)) }
/-- The small state about to execute relc: n return addresses, k table entries, the frame's words at s29. -/
def atRelc (n : BitVec 5) (k : Nat) (ws : List Nat) : State :=
  (devd fun d => { d with mem := mwrite d.mem 0x11000 (wordBytes ws) }).onStrm me fun st =>
    { (st.ws 29 0x20000001000) with rasCount := n, tails := (upTo k).map fun j => TailEntry.defer 0 j }
/-- Its frame as relc reads it. -/
def frameRead (s : State) (p : State → List Byte → Bool) : Bool := match s.recRead .load (s.rs 29) 64 with
  | .ok s1 bs => p s1 bs
  | .wait | .bad _ => false
/-- The places of its hand-back set. -/
def backPlaces (s : State) : Res (List Piece) := s.xlAccess ⟨s.xid, s.cx.asid.toNat, s.st.priv, .store, .scalar⟩ (s.rs 29 + 0x40) 1216
/-- Headers with SYNC and without, with passes and with none, bad, out of range and in lock step; a pass that ends; lock step that forms; frames. -/
theorem witness_BlocksAndRelease :
    let good := 2 + 512
    let ok (h : Nat) := (atHeader h 64).canAct me && (atHeader h 64).diverts me == false && (atHeader h 64).st.pendFaults.isEmpty &&
      (atHeader h 64).cx.lockstep == false && fetchGives ((atHeader h 64).fetchWord me 0x20000000000) fun _ x => x.toNat == h
    let step2 (f : Stream → Stream) := ((atHeader (good + 2 ^ 31) 64).onCtx ctx0 fun c => { c with lockstep := true }).onStrm ⟨core0, 1, 0⟩ f
    let badGroup := (((atHeader 0 64).onCtx ctx0 fun c => { c with lockstep := true }).onStrm ⟨core0, 1, 0⟩ fun st => { st with status := .halted })
    let heads (s : State) := match s.groupHeaders (s.stepGroup ctx0) with
      | (.ok _ hs, _) => hs.all (fun p => p.2.getLsbD 31) && hs.length == 1
      | _ => false
    let pass := str fun st => { st with ex := { pc := 0x20000000008, hdr := 0x20000000000, fin := 0x20000000008, rem := 2 } }
    let legal := [0x40, 0, 0, 0, 1280, 0]
    let full := ((atRelc 1 3 legal).setStrm ⟨core0, 0, 2⟩ { status := .running }).setStrm ⟨core0, 0, 3⟩ { status := .running }
    let back := full.onStrm me fun st => { st with status := .waiting, wait := .handBack }
    let stored := back.onCore core0 fun k => { k with paths := [{ loc := .buf ctx0 .wb 0, bytes := [1], owner := some (me, back.st.seq), x := ctx0, cmd := none }] }
    let behind := (atRelc 1 3 legal).onStrm me fun st => { st with sq := [.twin 0 .mark] }
    (ok good = true ∧ ok 2 = true ∧ ok 0 = true ∧ ok (good + 2 ^ 31) = true ∧ ok (2 + 2 ^ 30 + 2 ^ 28) = true ∧
      (atHeader good 64).st.priv = .u ∧ (atHeader good 64).st.stub = .none ∧ CanTrap (atHeader 0 64)) ∧
    (ofHiBits (atHeader good 2).cx.codelim = 0x20000000002 ∧ CanTrap (atHeader good 2)) ∧
    ((step2 id).cx.lockstep = true ∧ ((step2 id).stepGroup ctx0).all (step2 id).atStart = true ∧ heads (step2 id) = true ∧
      ((step2 fun st => { st with status := .running, ex := base.st.ex }).stepGroup ctx0).any (fun k => !(step2 fun st => { st with status := .running, ex := base.st.ex }).atStart k) = true) ∧
    (badGroup.cx.lockstep = true ∧ (badGroup.stepGroup ctx0).all badGroup.atStart = true ∧ badGroup.stepGroup ctx0 ≠ [] ∧
      (match badGroup.groupHeaders (badGroup.stepGroup ctx0) with
        | (.bad f, i) => !f.name.logOnly && ((badGroup.launchOf (badGroup.xidOf i)).bind Launch.svbase).isSome
        | _ => false) = true) ∧
    (pass.canAct me = true ∧ pass.st.ex.pc ≠ pass.st.ex.hdr ∧ pass.st.ex.pc = pass.st.ex.fin ∧ pass.diverts me = false ∧ pass.st.pendFaults = []) ∧
    (((atHeader (good + 2 ^ 31) 64).ctx ctx0).lockstep = false ∧ (atHeader (good + 2 ^ 31) 64).stepGroup ctx0 ≠ [] ∧
      ((atHeader (good + 2 ^ 31) 64).stepGroup ctx0).all (fun k => (atHeader (good + 2 ^ 31) 64).atStart k && (atHeader (good + 2 ^ 31) 64).canAct k) = true ∧
      heads (atHeader (good + 2 ^ 31) 64) = true) ∧
    ((atRelc 1 4 legal).st.wait ≠ .handBack ∧ 4 ≤ (atRelc 1 4 legal).st.tails.length ∧ CanTrap (atRelc 1 4 legal)) ∧
    ((atRelc 0 3 legal).st.tails.length < 4 ∧ (atRelc 0 3 legal).st.rasCount.toNat = 0 ∧ (atRelc 0 3 legal).st.rasSpill = 0 ∧ CanTrap (atRelc 0 3 legal)) ∧
    (behind.st.wait ≠ .handBack ∧ behind.st.tails.length < 4 ∧ behind.st.rasCount ≠ 0 ∧ behind.st.acc.late = [] ∧ behind.st.acc.headFaulted = false ∧
      behind.st.atHeads = false) ∧
    ((atRelc 1 3 legal).st.held = none ∧ (atRelc 1 3 legal).st.rasCount.toNat ≤ 16 ∧
      frameRead (atRelc 1 3 [0x40, 0, 0, 0, 1216, 0]) (fun _ bs => bytesNat ((bs.drop 16).take 8) == 1216) = true ∧
      frameRead (atRelc 1 3 legal) (fun s1 bs => bytesNat ((bs.drop 16).take 8) == 1280 && bytesNat ((bs.drop 12).take 4) == 0 && bytesNat (bs.take 8) == 0x40 &&
        (match (s1.onSt fun st => { st with held := some bs }).addTcnt 0x20000001000 1 with
          | .ok _ old => old == 0
          | _ => false)) = true ∧
      AtJoin (atRelc 1 3 legal) ∧ Arrived (atRelc 1 3 legal) ∧ ((atRelc 1 3 legal).st.l.toList.all fun l => l.st != .pending) = true ∧
      (atRelc 1 3 legal).st.status ≠ .free ∧ (atRelc 1 3 legal).freeTail core0 0 = some 2) ∧
    (full.freeTail core0 0 = none ∧ full.st.held = none ∧ frameRead full (fun _ bs => bytesNat ((bs.drop 16).take 8) == 1280) = true ∧
      AtJoin full ∧ Arrived full ∧ (match backPlaces full with
        | .ok ps => !ps.isEmpty
        | .bad _ => false) = true) ∧
    (back.st.wait = .handBack ∧ 0 < back.st.rasCount.toNat ∧ back.st.rasCount.toNat ≤ 16 ∧ back.ownStores me (back.st.seq + 1) = [] ∧
      stored.st.wait = .handBack ∧ stored.ownStores me (stored.st.seq + 1) ≠ []) := by
  refine ⟨⟨?_, ?_, ?_, ?_, ?_, ?_, ?_, canTrap_of ?_ ?_⟩, ⟨?_, canTrap_of ?_ ?_⟩, ?_, ?_, ?_, ?_, ⟨?_, ?_, canTrap_of ?_ ?_⟩, ⟨?_, ?_, ?_, canTrap_of ?_ ?_⟩,
    ?_, ⟨?_, ?_, ?_, ?_, ⟨?_, ?_, ?_⟩, arrived_of ?_, ?_, ?_, ?_⟩, ⟨?_, ?_, ?_, ⟨?_, ?_, ?_⟩, arrived_of ?_, ?_⟩, ?_⟩ <;> decide +kernel
/-- The small state with its launch changed. -/
def launched (f : Launch → Launch) : State := base.onLaunch 0 0 f
/-- A launch with WGs to send and one with none, a batch that is under way; a WG that may retire, and ones that may not. -/
theorem witness_WorkGroups :
    let more := launched fun l => { l with wgcount := 4 }
    let sent := launched fun l => { l with wgcount := 4, nextWg := 3, batch := [(0, 1), (0, 2)] }
    let halted := str fun st => { st with status := .halted }
    let tail := halted.setStrm ⟨core0, 0, 2⟩ { status := .running, owner := 0 }
    let late := halted.onCore core0 fun k => { k with paths := [{ loc := .buf ctx0 .wb 0, bytes := [1], owner := none, x := ctx0, cmd := none }] }
    ((more.launch? 0 0).any (fun l => more.dispatching 0 0 l && l.batch.isEmpty && more.pickField 0 l (fun _ => true) == some (0, 39) &&
        (more.nextBatch 0 l).batch == [(0, 1), (0, 2), (0, 3)] && more.pickCtx 0 0 l.excl (fun _ => true) == some ⟨⟨0, 0, 1⟩, 0⟩) = true) ∧
    ((base.launch? 0 0).any (fun l => base.dispatching 0 0 l && (base.nextBatch 0 l).batch.isEmpty) = true) ∧
    ((sent.launch? 0 0).any (fun l => sent.dispatching 0 0 l && (sent.nextBatch 0 l).batch == (0, 1) :: [(0, 2)] &&
        sent.pickCtx 0 0 l.excl (fun _ => true) == some ⟨⟨0, 0, 1⟩, 0⟩) = true) ∧
    ((base.ctx ctx0).live = some (0, 0) ∧ (base.launch? 0 0).isSome = true ∧ (mainsOf ctx0).any (fun id => (base.strm id).status != .halted) = true) ∧
    ((halted.ctx ctx0).live = some (0, 0) ∧ (halted.launch? 0 0).isSome = true ∧ halted.mayRetire ctx0 = true) ∧
    ((halted.onStrm me fun st => { st with aside := some { sqBack := [.stg 1 0 false 0 0 []] } }).strm me).allSq ≠ [] ∧
    (tail.slotsOfCtx ctx0).any (fun id => decide (2 ≤ id.sl)) = true ∧ ((late.core core0).paths.any fun p => p.x == ctx0) = true := by
  refine ⟨?_, ?_, ?_, ?_, ?_, ?_, ?_, ?_⟩ <;> decide +kernel
/-- The small state with queue 0 in slot 0: its packet, its counter at 0x60000, more changes of the device. -/
def queueOf (pk ctr : List Nat) (f : Device → Device) : State :=
  let desc := wordBytes [2 ^ 31 + 4 * 2 ^ 19 + 2, 0, 0x22000, 0, 1, 0]
  let put (m : Memory) : Memory := mwrite (mwrite (mwrite m 0x20000 desc) 0x22000 (wordBytes pk)) 0x60000 (wordBytes ctr)
  devd fun d => f { d with qtbase := 0x800, slots := [(0, { qid := 0, prio := 1, valid := true })], fwRunning := true, mem := put d.mem }
/-- The parser is about to take the packet of queue 0, and what it finds. -/
def parses (s : State) (op : Nat) (p : Device → BitVec 512 → Bool) : Bool := match (s.dev 0).nextPacket 0 with
  | some (q, idx, w) => q == 0 && idx == 0 && pkOp w == op && p (s.dev 0) w
  | none => false
/-- It is well formed and waits for nothing. -/
def goes (d : Device) (w : BitVec 512) : Bool := pkHeaderOk w && pkBodyOk w && d.ready.isEmpty && d.holdOf 0 0 w == .go && d.pkts.isEmpty
/-- The small state with every field failed. -/
def dark : State := devd fun d => { d with fields := Vector.ofFn fun _ => { (d.fieldN 0) with state := 3 } }
theorem dark_drops : ∃ e fl, dark.cpStop 0 [(0x50008, 3)] = some (.dropped e fl) := by
  have h : ∀ i : Fin 8, ((dark.dev 0).fields[i.val]).state = 3#3 := by decide +kernel
  have hs : ((dark.dev 0).homeState 0 0x50000).toNat = 3 := by
    have : ((dark.dev 0).fields.toList.all fun f => f.state == 2#3) = false := by decide +kernel
    simp only [Device.homeState, this, Device.fieldN, Bool.false_eq_true, if_false]
    rw [h ⟨_, Nat.mod_lt _ (by decide)⟩]
    rfl
  refine ⟨0, Config.homeField 0 (0x50000 / 128) % 8, ?_⟩
  have : dark.placePhys 0 0x50000 = .dropped 0 (Config.homeField 0 (0x50000 / 128) % 8) := by
    simp only [State.placePhys, hs]
    rfl
  have hst : (dark.dev 0).stops = [] := by decide +kernel
  simp [State.cpStop, ceilDiv, upTo, this, List.range_succ, hst]
/-- Packets of every kind, one that is bad and one that is held; doorbells good and bad; counters with arms, a signal and a fired arm. -/
theorem witness_QueuesAndCounters :
    let nop := queueOf [2 ^ 24] [] id
    let setl := queueOf [3 * 2 ^ 24, 0, 0, 0, 0, 0, 1] [] id
    let write := queueOf [5 * 2 ^ 24, 0, 0, 0, 0, 0, 0x61000, 0, 7] [] id
    let arm (th : Nat) := queueOf [4 * 2 ^ 24, 0, 0, 0, 0, 0, 0x60000, 0, th, 2 ^ 30 + 3 * 2 ^ 16]
    let hold := queueOf [2 ^ 24 + 2 ^ 15, 0, 0x60000] [5] id
    let busy := queueOf [2 ^ 24 + 2 ^ 15, 0, 0x60000] [5, 2 ^ 31, 1, 0] id
    let served (s : State) (rs : List (Nat × Nat)) : Bool := (s.cpStop 0 rs).isNone
    let bad := queueOf [2 ^ 24 + 1] [] id
    let g : Signal := { sctr := some (0x60000, 2), intr := some 4 }
    let sig := queueOf [] [5, 2, 0, 0, 3, 2 ^ 30, 0, 0, 4, 2 ^ 31, 0x60040] fun d => { d with signals := [g], arms := [0x60000] }
    let lone := queueOf [] [] fun d => { d with slots := [] }
    let bell (s : State) (n : Nat) : Bool := decide ((n + 2 ^ 32 - (s.dev 0).qword 0 5) % 2 ^ 32 ≤ 2 ^ ((s.dev 0).qword 0 0 / 2 ^ 19 % 16)) && ((s.dev 0).qword 0 0).testBit 31
    (base.Canon ∧ served base [(0x50008, 3)] = true ∧ 0x50008 % 16 + [1, 2, 3].length ≤ 16) ∧
    ((∃ e fl, dark.cpStop 0 [(0x50008, 3)] = some (.dropped e fl)) ∧ dark.Canon) ∧
    (served nop [((nop.dev 0).qdesc 0, 64)] = true ∧ served nop [(0x20000, 64), (0x22000, 64)] = true ∧ (nop.dev 0).packetPa 0 0 = 0x22000 ∧
      served (arm 0 [] id) [(0x20000, 64), (0x22000, 64), (0x60000, 64)] = true ∧ served write [(0x20000, 64), (0x22000, 64), (0x61000, 8)] = true ∧
      served sig ((sig.dev 0).ctrRanges 0x60000) = true) ∧
    (parses busy 1 (fun d w => pkHeaderOk w && pkBodyOk w && d.ready.isEmpty && d.holdOf 0 0 w == .busy) = true ∧ busy.Canon) ∧
    (nop.Canon ∧ bell nop 2 = true ∧ bell nop 17 = false ∧ (nop.dev 0).slotOf 0 ≠ none ∧ (lone.dev 0).slotOf 0 = none ∧ bell lone 2 = true ∧ lone.Canon) ∧
    (parses nop 1 goes = true ∧ parses setl 3 goes = true ∧ parses write 5 goes = true ∧ setl.Canon ∧ write.Canon) ∧
    (parses (arm 0 [] id) 4 goes = true ∧ (arm 0 [] id).Canon ∧ ((arm 0 [] id).dev 0).count 0x60000 ≤ 0) ∧
    (parses (arm 2 [9, 2] id) 4 (fun d w => goes d w && decide (2 < (d.takePkt 0 0 w none).count 0x60000) && (d.takePkt 0 0 w none).narm 0x60000 == 2) = true ∧
      (arm 2 [9, 2] id).Canon) ∧
    (parses (arm 2 [9, 3] id) 4 (fun d w => goes d w && decide (2 < (d.takePkt 0 0 w none).count 0x60000) && (d.takePkt 0 0 w none).narm 0x60000 == 3) = true ∧
      (arm 2 [9, 3] id).Canon) ∧
    (parses hold 1 (fun d w => pkHeaderOk w && pkBodyOk w && d.ready.isEmpty && d.holdOf 0 0 w == .hold) = true ∧ hold.Canon) ∧
    (parses bad 1 (fun _ w => !pkHeaderOk w) = true ∧ bad.Canon) ∧
    ((sig.dev 0).signals[0]? = some g ∧ sig.Canon ∧ (sig.dev 0).arms = 0x60000 :: [] ∧ (sig.dev 0).count 0x60000 = 5 ∧ (sig.dev 0).narm 0x60000 = 2 ∧
      (sig.dev 0).armAt 0x60000 1 = ⟨4, 2, 0, 0x60040⟩ ∧ (sig.dev 0).ctrReserved 0x60000 = false) ∧
    ((arm 2 [9, 4] id).dev 0).ctrReserved 0x60000 = true ∧ parses (arm 2 [9, 4] id) 4 goes = true := by
  refine ⟨⟨canon_of ?_ ?_, ?_⟩, ⟨dark_drops, canon_of ?_ ?_⟩, ?_, ⟨?_, canon_of ?_ ?_⟩, ⟨canon_of ?_ ?_, ?_, ?_, ?_, ?_, ?_, canon_of ?_ ?_⟩, ⟨?_, ?_, ?_, canon_of ?_ ?_, canon_of ?_ ?_⟩, ⟨?_, canon_of ?_ ?_, ?_⟩,
    ⟨?_, canon_of ?_ ?_⟩, ⟨?_, canon_of ?_ ?_⟩, ⟨?_, canon_of ?_ ?_⟩, ⟨?_, canon_of ?_ ?_⟩, ⟨?_, canon_of ?_ ?_, ?_⟩, ?_⟩ <;> decide +kernel
/-- A LAUNCH packet of n WGs, an image without sections, which no end of an image cuts (log 35), and the bound KTT of its code and its data. -/
def launchPk (n : Nat) : List Nat := [2 * 2 ^ 24, 0, 0, 0, 0, 0, 0x30000, 0, 0x31000, 0, 0, 0x200, 0x10000, 0x200, n, 2 ^ 20]
/-- The small state with the packet in queue 0 and a ready list. -/
def toLaunch (pk : List Nat) (f : Device → Device) : State :=
  let image := wordBytes [0x58384B49, 1, 0x10000, 0, 0, 0, 0, 0, 0, 0, 0xFFFFFFFF, 0xFFFFFFFF, 0xFFFFFFFF, 0xFFFFFFFF, 0, 0]
  let ktt := wordBytes ([0, 0x200, 0x10000, 0, 2 ^ 30 + 16, 1, 0, 0, 0, 0, 0, 0, 0, 0, 0, 0] ++ [0x10000, 0x200, 0x40000, 0, 2 ^ 30 + 16, 9])
  queueOf pk [] fun d => f { d with mem := mwrite (mwrite d.mem 0x30000 image) 0x31000 ktt }
/-- The launch that a ready packet of queue 0 asks for. -/
def readyL (d : Device) : Device :=
  let w := bytesBv 512 (wordBytes (launchPk 1))
  { d with pkts := [{ q := 0, idx := 0, words := w, st := .ready, launch := some 7 }], ready := [(0, 0)], launches := fset d.launches 7 (d.mkLaunch 0 0 w) }
/-- A launch of the small state under the watchdog, with limits T1 and T2 and T3 of n microseconds. -/
def watched (n : Nat) (f : Launch → Launch) : State :=
  (queueOf [] [] fun d => { d with mem := mwrite d.mem 0x20018 (wordBytes [n, n, n]), time := 0x10000000000 }).onLaunch 0 0 fun l => f { l with startedAt := some 0, timers := [(0, 0, none)] }
/-- Packets that launch and that do not, ready packets, slots, the policy timer and the stages of the watchdog. -/
theorem witness_LaunchesAndSlots :
    let go := toLaunch (launchPk 1) id
    let none_ := toLaunch (launchPk 0) id
    let rl := toLaunch [] readyL
    let rn := toLaunch [] fun d => { d with pkts := [{ q := 0, idx := 0, words := 2 ^ 24, st := .ready }], ready := [(0, 0)] }
    let off := toLaunch [] fun d => { d with fwRunning := false, slots := [] }
    let tick := devd fun d => { d with time := 0x10000000000 }
    let t1 := watched 1 id
    let t2 := watched 1 fun l => { l with timers := [(0, 0, some 0)] }
    let whole := (watched 1 fun l => { l with timers := [(0, 0, some 0)], nextWg := l.wgcount }).onStrm me fun st => { st with status := .halted }
    let coop := watched 1 fun l => { l with coop := true }
    let held := toLaunch [] fun d => { readyL d with slots := [] }
    let served (s : State) (rs : List (Nat × Nat)) : Bool := (s.cpStop 0 rs).isNone
    let t3 := (watched 1 fun l => { l with t2at := some 0, lost := [ctx0] }).onCore core0 fun k => { k with paths := [{ loc := .void, bytes := [1], owner := none, x := ctx0, cmd := none }] }
    (go.Canon ∧ served go ((go.dev 0).parseRanges 0 (go.dev 0).launchRanges) = true ∧ served none_ ((none_.dev 0).parseRanges 0 (none_.dev 0).launchRanges) = true ∧
      parses go 2 (fun d w => (d.launchErr 0 w).isNone && d.holdOf 0 0 w == .go && d.ready.isEmpty && d.pkts.isEmpty) = true ∧
      (match (go.dev 0).nextPacket 0 with
        | some (q, idx, w) => ({ go with nextId := go.nextId + 1 }.onDev 0 fun v => { v.takePkt q idx w (some go.nextId) with
            launches := fset v.launches go.nextId ((go.dev 0).mkLaunch q idx w) }).admits 0 ((go.dev 0).mkLaunch q idx w)
        | none => false) = true) ∧
    (none_.Canon ∧ parses none_ 2 (fun d w => recFld w 14 0 32 == 0 && d.launchErr 0 w == some 1) = true) ∧
    (rl.Canon ∧ rl.nextReady 0 = some 0 ∧ (rl.dev 0).ready[0]? = some (0, 0) ∧ rl.nextReady 0 ≠ some 1 ∧
      ((rl.dev 0).pkts.find? fun x => x.q == 0 && x.idx == 0).any (fun p => p.launch == some 7) = true ∧
      rl.pendsAt 0 0 = none ∧ rl.pendsAt 0 1 = none ∧ held.pendsAt 0 0 = some 0 ∧ held.Canon ∧
      (rl.launch? 0 7).any (fun l => l.q == 0 && l.idx == 0) = true ∧
      ((rl.dev 0).pkts.find? fun x => x.launch == some 7) = (rl.dev 0).pkts.find? fun x => x.q == 0 && x.idx == 0) ∧
    (rn.Canon ∧ rn.nextReady 0 = some 0 ∧ served rn (((rn.dev 0).qdesc 0, 64) :: pktRanges (2 ^ 24)) = true ∧ ((rn.dev 0).pkts.find? fun x => x.q == 0 && x.idx == 0).any (fun p => p.launch.isNone) = true) ∧
    ((go.dev 0).fwRunning = true ∧ (∀ x ∈ (go.dev 0).slots, x.1 ≠ 5 → x.2.valid = true → x.2.qid ≠ 9) ∧ (go.dev 0).descOk 9 = false ∧
      (∀ x ∈ (go.dev 0).slots, x.1 ≠ 0 → x.2.valid = true → x.2.qid ≠ 0) ∧ (go.dev 0).descOk 0 = true ∧ served go [((go.dev 0).qdesc 0, 64)] = true ∧ served go [((go.dev 0).qdesc 9, 64)] = true) ∧
    (fget? (go.dev 0).slots 0 = some { qid := 0, prio := 1, valid := true } ∧ (fget (go.dev 0).slots 0 {}).valid = true ∧ (fget (go.dev 0).slots 5 {}).valid = false) ∧
    (off.Canon ∧ (off.dev 0).fwRunning = false) ∧
    (tick.Canon ∧ usTime 1000 ≤ ((tick.dev 0).time - (tick.dev 0).tickAt).toNat ∧ ((base.dev 0).time - (base.dev 0).tickAt).toNat < usTime 1000) ∧
    (t1.Canon ∧ (t1.launch? 0 0).any (fun l => !l.done && l.t1Due (t1.dev 0) == [0] && l.timers == [(0, 0, none)]) = true ∧
      ∀ j < 3, (t1.dev 0).qword 0 (6 + j) ≠ 0 ∧ usTime ((t1.dev 0).qword 0 (6 + j)) ≤ ((t1.dev 0).time - 0).toNat) ∧
    ((watched 0 id).Canon ∧ ((watched 0 id).dev 0).qword 0 6 = 0 ∧ ((watched 0 id).launch? 0 0).any (fun l => l.t1Due ((watched 0 id).dev 0) == []) = true) ∧
    (t2.Canon ∧ (t2.launch? 0 0).any (fun l => !l.done && l.timers == [(0, 0, some 0)] && l.running.any (fun y => !t2.mayRetire y.2)) = true) ∧
    (whole.Canon ∧ (whole.launch? 0 0).any (fun l => l.nextWg == l.wgcount && l.batch.isEmpty && l.savedWgs.isEmpty && l.timers == [(0, 0, some 0)] &&
      l.running.all fun y => whole.mayRetire y.2) = true) ∧
    (coop.Canon ∧ (coop.launch? 0 0).any (fun l => l.coop && l.t1Due (coop.dev 0) == [0]) = true) ∧
    (t3.Canon ∧ (t3.launch? 0 0).any (fun l => l.t2at == some 0 && l.lost == [ctx0]) = true ∧ ((t3.core core0).paths.any fun i => i.x == ctx0) = true) := by
  refine ⟨⟨canon_of ?_ ?_, ?_⟩, ⟨canon_of ?_ ?_, ?_⟩, ⟨canon_of ?_ ?_, ?_, ?_, ?_, ?_, ?_, ?_, ?_, canon_of ?_ ?_, ?_⟩, ⟨canon_of ?_ ?_, ?_⟩, ?_, ?_, ⟨canon_of ?_ ?_, ?_⟩, ⟨canon_of ?_ ?_, ?_⟩,
    ⟨canon_of ?_ ?_, ?_⟩, ⟨canon_of ?_ ?_, ?_⟩, ⟨canon_of ?_ ?_, ?_⟩, ⟨canon_of ?_ ?_, ?_⟩, ⟨canon_of ?_ ?_, ?_⟩, ⟨canon_of ?_ ?_, ?_⟩⟩ <;> decide +kernel
/-- The small state with field f of its device changed. -/
def fieldAt (f : Nat) (g : Field → Field) : State := devd fun d => d.onField f g
/-- Fields that wait, start, take each step and fail; tokens to change; temperatures in all three ranges; a launch on the field. -/
theorem witness_FieldsAndPower :
    let waits := (fieldAt 3 fun x => { x with state := 0, waiting := true }).onDev 0 fun d => d.onField 2 fun x => { x with pllUp := true, memUp := true }
    let blocked := (fieldAt 3 fun x => { x with state := 0, waiting := true }).onDev 0 fun d => d.onField 2 fun x => { x with state := 1 }
    let at_ (k : Nat) := (fieldAt 3 fun x => { x with state := 1, step := k, named := [⟨0, 3, 4, 0⟩] })
    let row := fieldAt 3 fun x => { x with state := 1, step := 4, named := [⟨3, 3, 4, 7⟩] }
    let late := (at_ 2).onDev 0 fun d => { d with time := 0x1000000000000 }
    let trains := (upTo 8).foldl (fun s f => s.onDev 0 fun d => d.onField f fun x => { x with state := 1, step := 3, named := [⟨1, 0, 4, 0⟩] }) base
    let tok := fieldAt 0 fun x => { x with ilim := 320 }
    ((waits.dev 0).fieldN 3).state = 0 ∧ ((waits.dev 0).fieldN 3).waiting = true ∧ ((waits.dev 0).fieldN 2).pllUp = true ∧ ((waits.dev 0).fieldN 2).memUp = true ∧
    ((blocked.dev 0).fieldN 3).waiting = true ∧ ((blocked.dev 0).fieldN 2).pllUp = false ∧ ((blocked.dev 0).fieldN 2).state ≠ 3 ∧
    (∀ k < 6, 1 ≤ k → (((at_ k).dev 0).fieldN 3).state = 1 ∧ (((at_ k).dev 0).fieldN 3).step = k ∧
      (((at_ k).dev 0).time - (((at_ k).dev 0).fieldN 3).stepSince).toNat < usTime 100000) ∧
    (((row.dev 0).fieldN 3).state = 1 ∧ ((row.dev 0).fieldN 3).step = 4 ∧ (⟨3, 3, 4, 7⟩ : Spare) ∈ ((row.dev 0).fieldN 3).named ∧ 7 = 3584 / 512 ∧
      3584 % 16 = 0 ∧ row.Canon) ∧
    (((base.dev 0).fieldN 0).state ≠ 0 ∧ ((base.dev 0).fieldN 0).state ≠ 4 ∧ ((waits.dev 0).fieldN 3).state = 0) ∧
    (usTime 100000 ≤ ((late.dev 0).time - ((late.dev 0).fieldN 3).stepSince).toNat ∧
      (((at_ 2).dev 0).time - (((at_ 2).dev 0).fieldN 3).stepSince).toNat < usTime 100000) ∧
    (((tok.dev 0).fieldN 0).state = 2 ∧ ((tok.dev 0).fieldN 0).tokens ≠ max 1 (((tok.dev 0).fieldN 0).ncore * ((tok.dev 0).fieldN 0).ilim / 640) ∧
      ((tok.dev 0).fieldN 0).throt = false) ∧
    (((queueOf [] [] id).dev 0).fwRunning = true ∧ ((base.dev 0).fieldN 0).state = 2 ∧
      (base.launch? 0 0).any (fun l => l.fields.getLsbD 0 && !l.done) = true) ∧
    ((∀ f < 8, ((trains.dev 0).fieldN f).state = 1 ∧ ((trains.dev 0).fieldN f).step = 3 ∧ ((trains.dev 0).fieldN f).named = [⟨1, 0, 4, 0⟩]) ∧
      Config.homeField 0 0 % 8 < 8 ∧ trains.Canon) ∧
    (0x690 ≤ (0x690 : BitVec 16).toInt ∧ (0x690 : BitVec 16).toInt < 0x7D0 ∧ (0x640 : BitVec 16).toInt < 0x690 ∧ 0x7D0 ≤ (0x7D0 : BitVec 16).toInt) := by
  refine ⟨?_, ?_, ?_, ?_, ?_, ?_, ?_, ?_, ⟨?_, ?_, ?_, ?_, ?_, canon_of ?_ ?_⟩, ?_, ?_, ?_, ?_, ⟨?_, Nat.mod_lt _ (by decide), canon_of ?_ ?_⟩, ?_⟩ <;> decide +kernel
/-- The small state with a firmware image without code staged at 0x50000. -/
def imageAt : State := devd fun d => { d with mem := mwrite d.mem 0x50000 (wordBytes [0x46575838, 9, 0, 0x40]), fuse := 2 }
theorem imageAt_ok (h : (Config.shake256 ((imageAt.dev 0).pread (0x50000 + 64) 1952) 32 == Config.fuseKeyHash 0 &&
    Config.mlDsaVerify ((imageAt.dev 0).pread (0x50000 + 64) 1952) ((imageAt.dev 0).pread 0x50000 64)
      ((imageAt.dev 0).pread (0x50000 + 64 + 1952) 3309)) = true) : (imageAt.dev 0).fwOk 0 0x50000 = true := by
  have h2 : (imageAt.dev 0).pnat (0x50000 + 4 * 2) 4 = 0 := by decide +kernel
  simp only [Bool.and_eq_true] at h
  simp only [Device.fwOk, h2, Nat.add_zero, Bool.and_eq_true]
  exact ⟨⟨⟨by decide +kernel, h.1⟩, h.2⟩, by decide +kernel⟩
/-- The same image beside a counter in fuses above its SVN. -/
def olderImage : State := imageAt.onDev 0 fun d => { d with fuse := 10 }
theorem olderImage_no : (olderImage.dev 0).fwOk 0 0x50000 = false := by
  have h : ¬ (olderImage.dev 0).fuse.toNat ≤ (olderImage.dev 0).pnat (0x50000 + 4 * 1) 4 % 2 ^ 16 := by decide +kernel
  simp only [Device.fwOk, h, decide_false, Bool.and_false]
/-- Commands of every kind and answer, requests, quotes, and a firmware image that is accepted exactly when its key's hash and its signature are. -/
theorem witness_ServiceAndRegisters :
    let act (n : Nat) (f t a : Nat) : Word := BitVec.ofNat 64 (n * 2 ^ 56 + f * 2 ^ 45 + t * 2 ^ 16 + a * 2 ^ 32)
    let p (t : Nat) : Spare := ⟨0, 3, t, 0⟩
    let used := fieldAt 3 fun x => { x with named := [p 4], applied := [p 5] }
    let fw := imageAt
    let svn := devd fun d => { d with fuse := 2, fwSvn := 9 }
    let win := devd fun d => { d with fwRunning := true, dma := some (0x60000, 0x100) }
    let old := olderImage
    let long := devd fun d => { d with mem := mwrite d.mem 0x50000 (wordBytes [0x46575838, 9, 262084, 0x40]) }
    let save := win.onDev 0 fun d => { d with savebase := 0, savenum := 1 }
    let asked := devd fun d => { d with attreq := 1 }
    (spAct (act 1 3 6 0) = 1 ∧ spOf (act 1 3 6 0) = p 6 ∧ (p 6).targetOk = true ∧ spReserved (act 1 3 6 0) = true ∧ (p 50).targetOk = false ∧
      spReserved (act 1 3 6 0 + 1) = false ∧ spAct (act 4 0 0 0) = 4 ∧ spAct (act 2 3 4 0) = 2 ∧ spAct (act 3 0 5 0) = 3) ∧
    (p 4 ∈ ((used.dev 0).fieldN 3).named ∧ p 6 ∉ ((used.dev 0).fieldN 3).named ++ ((used.dev 0).fieldN 3).applied ∧ (p 6).pool.2 ≤ 2 ∧
      p 6 ∉ ((base.dev 0).fieldN 3).named ++ ((base.dev 0).fieldN 3).applied ∧ ((base.dev 0).fieldN 3).named = []) ∧
    (5 ≤ 9 ∧ (svn.dev 0).fuse.toNat < 9 ∧ 9 = (svn.dev 0).fwSvn.toNat ∧ 5 < (svn.dev 0).fwSvn.toNat ∧ (svn.dev 0).advances < 64 ∧ 2 ≤ (svn.dev 0).fuse.toNat ∧ (svn.dev 0).fwSvn.toNat < 10) ∧
    (asked.dev 0).attreq = 1 ∧
    ((fw.dev 0).fwRunning = false ∧ ((fw.dev 0).fieldN 0).state = 2 ∧ (fw.dev 0).attlog.length < 256 ∧ (fw.dev 0).pnat 0x50000 4 = 0x46575838 ∧
      ((Config.shake256 ((fw.dev 0).pread (0x50000 + 64) 1952) 32 == Config.fuseKeyHash 0 &&
        Config.mlDsaVerify ((fw.dev 0).pread (0x50000 + 64) 1952) ((fw.dev 0).pread 0x50000 64) ((fw.dev 0).pread (0x50000 + 64 + 1952) 3309)) = true →
        (fw.dev 0).fwOk 0 0x50000 = true)) ∧
    (fw.cpStop 0 [(0x50000, 64 + (fw.dev 0).pnat (0x50000 + 8) 4 + 1952 + 3309)] = none ∧
      base.cpStop 0 [(0x50000, 64 + (base.dev 0).pnat (0x50000 + 8) 4 + 1952 + 3309)] = none) ∧
    ((win.dev 0).fwRunning = true ∧ (win.dev 0).dma = some (0x60000, 0x100) ∧ win.cpStop 0 [(0x60080, 2)] = none ∧ win.Canon) ∧
    ((base.dev 0).pnat 0x50000 4 ≠ 0x46575838 ∧ (base.dev 0).fwOk 0 0x50000 = false ∧ (base.dev 0).fwHeaderOk 0x50000 = false ∧
      base.cpStop 0 [(0x50000, 64)] = none ∧ (fw.dev 0).fwHeaderOk 0x50000 = true) ∧
    ((old.dev 0).fwHeaderOk 0x50000 = true ∧ (old.dev 0).fwOk 0 0x50000 = false ∧
      old.cpStop 0 [(0x50000, 64 + (old.dev 0).pnat (0x50000 + 8) 4 + 1952 + 3309)] = none ∧ (long.dev 0).fwHeaderOk 0x50000 = false) ∧
    ((∀ j < 2, (win.dev 0).isProtected (0x60080 + j) = false) ∧ (save.dev 0).isProtected 0x60080 = true) := by
  refine ⟨?_, ?_, ?_, ?_, ⟨?_, ?_, ?_, ?_, imageAt_ok⟩, ?_, ⟨?_, ?_, ?_, canon_of ?_ ?_⟩, ?_, ⟨?_, olderImage_no, ?_, ?_⟩, ?_⟩ <;> decide +kernel
/-! ### Statements of the whole machine -/

/-- The small state whose step runs the stream: the state in which it is attempted, and what the fetch at its execute cursor gives. -/
def runs (s : State) : State := { s with clock := s.clock + 1, agenda := [] }
def fetches (s : State) (p : State → Option (Instr × Nat) → Bool) : Bool :=
  fetchGives ((due (runs s) me).fetchInstr me (due (runs s) me).st.ex) p
theorem atInstr_of {s : State} (h1 : s.canAct me = true) (h2 : (due s me).st.pendFaults = []) (h3 : (due s me).st.engIssue = none)
    (h4 : (due s me).st.csrReq = .none) (h5 : (due s me).st.ex.atHdr = false) (h6 : (due s me).st.ex.atPassEnd = false) : AtInstr s me :=
  ⟨h1, .inr h2, h3, h4, h5, h6⟩
theorem mayIssue_of {s : State} (h : AtInstr s me) (h1 : s.turnOf exec me = true) (h2 : s.losesTail exec me = false) (h3 : s.together me = [me]) :
    MayIssue s me := ⟨h, h1, h2, h3⟩
/-- The word of `halt` comes from memory and from the instruction cache; a place without an instruction, and one without a segment; a cluster that
has issued; two streams in lock step. -/
theorem witness_StepRunsDecoded :
    let cached := base.onCore core0 fun k => { k with icache := [((1, 0x20000000000 / 128), bytesBv 1024 (natBytes 4 514 ++ natBytes 4 0x00040063))] }
    let empty := devd fun d => { d with mem := mwrite d.mem 0x10004 [0, 0, 0, 0] }
    let outside := str fun st => { st with ex := { st.ex with pc := 0x20000010000 } }
    let taken := base.onCore core0 fun k => { k with issued := k.issued.set 0 ((base.dev 0).cycle + 1) }
    let pair := (cached.onCtx ctx0 fun c => { c with lockstep := true }).setStrm ⟨core0, 1, 0⟩ base.st
    let unheld (s : State) : Bool := fetches s fun s1 i =>
      i == some (.halt, 4) && !s1.st.amoHold .halt && !s1.st.interlocked (s1.dev s1.cdev).cycle .halt && !s1.stubStops .halt &&
        (match exec .halt s1 with
          | .next t => didIssue s1 t
          | .fault _ | .refused _ => false)
    (base.agenda = [.run me] ∧ MayIssue (runs base) me ∧ unheld base = true) ∧
    (cached.agenda = [.run me] ∧ MayIssue (runs cached) me ∧ decode (natBytes 4 0x00040063) = some (.halt, []) ∧
      (due (runs cached) me).st.ex.pc.toNat % 2 = 0 ∧
      (∀ k < 4, codeByte (due (runs cached) me) me ((due (runs cached) me).st.ex.pc.toNat + k) = (natBytes 4 0x00040063)[k]?) ∧
      (due (runs cached) me).st.ex.pc + 2 ≠ (due (runs cached) me).st.ex.fin ∧ isWb .halt = false) ∧
    (empty.agenda = [.run me] ∧ AtInstr (runs empty) me ∧ fetches empty (fun _ i => i == none) = true) ∧
    (outside.agenda = [.run me] ∧ AtInstr (runs outside) me ∧
      (match (due (runs outside) me).fetchInstr me (due (runs outside) me).st.ex with
        | .bad f => f.name == .noMap
        | _ => false) = true) ∧
    (taken.agenda = [.run me] ∧ AtInstr (runs taken) me ∧ unheld taken = true ∧ (runs taken).turnOf exec me = false) ∧
    (pair.agenda = [.run me] ∧ AtInstr (runs pair) me ∧ unheld pair = true ∧ (runs pair).turnOf exec me = true ∧
      (runs pair).losesTail exec me = false ∧ 2 ≤ ((runs pair).together me).length ∧
      ((runs pair).together me).any ((runs pair).losesTail exec) = false ∧
      (match (runs pair).runAll exec (((runs pair).together me).foldl (fun l o => insertBy (runs pair).semPlace o l) []) with
        | .next w => (w.strm ⟨core0, 1, 0⟩).status == .halted
        | .fault _ | .refused _ => false) = true) := by
  refine ⟨⟨?_, mayIssue_of (atInstr_of ?_ ?_ ?_ ?_ ?_ ?_) ?_ ?_ ?_, ?_⟩, ⟨?_, mayIssue_of (atInstr_of ?_ ?_ ?_ ?_ ?_ ?_) ?_ ?_ ?_, ?_⟩,
    ⟨?_, atInstr_of ?_ ?_ ?_ ?_ ?_ ?_, ?_⟩, ⟨?_, atInstr_of ?_ ?_ ?_ ?_ ?_ ?_, ?_⟩, ⟨?_, atInstr_of ?_ ?_ ?_ ?_ ?_ ?_, ?_⟩,
    ⟨?_, atInstr_of ?_ ?_ ?_ ?_ ?_ ?_, ?_⟩⟩ <;> decide +kernel
/-- What a step leaves. -/
def next (r : Out) (p : State → Bool) : Bool := match r with
  | .next t => p t
  | _ => false
theorem witness_StepKeepsCanonical : base.Canon ∧ next (step base) (fun t => t.st.status == .halted) = true := by
  refine ⟨canon_of ?_ ?_, ?_⟩ <;> decide +kernel
theorem witness_RoundTrip : (Instr.vfma .f32 0 true 4 0 1).wf = true ∧ encode (.vfma .f32 0 true 4 0 1) ≠ [] ∧ (Instr.addCompact 2 3).wf = true ∧
    (encode (.addCompact 2 3)).length = 2 := by decide

/-! ### Single steps on words written out from the tables -/

/-- The step of a placed word, the registers a0 to a3 (s2 to s5) set before. -/
def steps (w : Nat) (f : Stream → Stream) (p : State → Bool) : Bool := next (step ((State.reset.withFetchWord 32 w).onStrm me f)) p
/-- ADD s2, s3, s5 wraps modulo 2^64 (R138). -/
theorem test_step_add : steps 0x000A3103 (fun st => (st.ws 3 (BitVec.allOnes 64)).ws 5 7) (fun t => t.rs 2 == 6 && t.rs 3 == BitVec.allOnes 64) = true := by decide +kernel
/-- s0 reads as 0 and a write to it is discarded (R145). -/
theorem test_step_zero : steps (5 * 2 ^ 17 + 3 * 2 ^ 12 + 0 * 2 ^ 7 + 0x01 * 2 + 1) (fun st => (st.ws 3 1).ws 5 7) (fun t => t.rs 0 == 0 && t.st.status == .running) = true := by
  decide +kernel
/-- BNE s4, s0 with an offset of −12 bytes from itself is taken when s4 ≠ 0 and goes on otherwise (R137). -/
theorem test_step_bne : steps 0xFFA010D1 (fun st => st.ws 4 0) (fun t => t.st.ex.pc == t.st.ex.fin) = true := by decide +kernel
/-- halt ends the stream (R157). -/
theorem test_step_halt : steps 0x00040063 id (fun t => t.st.status == .halted) = true := by decide +kernel
/-- A word with a reserved bit set raises ILLEGAL_OP; with no supervisor the launch is killed (R117, R293). -/
theorem test_step_illegal : steps 0x00040163 id (fun t => (t.ctx ctx0).live.isNone) = true := by decide +kernel
end Sys2Proof.Tests
end

section
/-!
PROOF. The canonical form of every memory (log 2) under the updates of the state. `State.Canon.foo` says that `foo` leads from a state in canonical
form to one, `State.canon_foo` that `foo` touches no memory; `CanonOut` says it of what an instruction answers. An update keeps the form because it
writes memory through `mset` and `mwrite` alone (Laws/Maps), drops bytes of it, or writes none.
-/
namespace Sys2Proof.Machine

/-! ### The canonical form under the updates of the state (log 2) -/

theorem State.Canon.dev {s : State} (hs : s.Canon) (d : Nat) : (s.dev d).canon :=
  fget_of_all hs.1 d ⟨⟨List.Pairwise.nil, nofun⟩, ⟨List.Pairwise.nil, nofun⟩⟩

theorem Ctx.canon_new : ({} : Ctx).canon :=
  ⟨⟨List.Pairwise.nil, nofun⟩, ⟨List.Pairwise.nil, nofun⟩, ⟨List.Pairwise.nil, nofun⟩⟩

theorem State.Canon.ctx {s : State} (hs : s.Canon) (x : CtxId) : (s.ctx x).canon := fget_of_all hs.2 x Ctx.canon_new

/-- Only the devices and the contexts hold memories. -/
@[simp] theorem State.canon_update (s : State) (p st c h t d ch cu si ag cl n) :
    State.Canon ⟨p, st, s.ctxs, c, s.devs, h, t, d, ch, cu, si, ag, cl, n⟩ ↔ s.Canon := Iff.rfl

@[simp] theorem State.canon_setStrm (s : State) (id : SlotId) (st : Stream) : (s.setStrm id st).Canon ↔ s.Canon := Iff.rfl
@[simp] theorem State.canon_onStrm (s : State) (id : SlotId) (f : Stream → Stream) : (s.onStrm id f).Canon ↔ s.Canon := Iff.rfl
@[simp] theorem State.canon_setSt (s : State) (st : Stream) : (s.setSt st).Canon ↔ s.Canon := Iff.rfl
@[simp] theorem State.canon_onSt (s : State) (f : Stream → Stream) : (s.onSt f).Canon ↔ s.Canon := Iff.rfl
@[simp] theorem State.canon_setCore (s : State) (c : CoreId) (k : Core) : (s.setCore c k).Canon ↔ s.Canon := Iff.rfl
@[simp] theorem State.canon_onCore (s : State) (c : CoreId) (f : Core → Core) : (s.onCore c f).Canon ↔ s.Canon := Iff.rfl
@[simp] theorem State.canon_adv (s : State) (n : Word) : (s.adv n).Canon ↔ s.Canon := Iff.rfl
@[simp] theorem State.canon_waits (s : State) (w : WaitFor) : (s.waits w).Canon ↔ s.Canon := Iff.rfl

@[simp] theorem State.Canon.setDev {s : State} (hs : s.Canon) (d : Nat) {v : Device} (hv : v.canon) : (s.setDev d v).Canon :=
  ⟨fset_all hs.1 d hv, hs.2⟩
@[simp] theorem State.Canon.setCtx {s : State} (hs : s.Canon) (x : CtxId) {c : Ctx} (hc : c.canon) : (s.setCtx x c).Canon :=
  ⟨hs.1, fset_all hs.2 x hc⟩
@[simp] theorem State.Canon.onDev {s : State} (hs : s.Canon) (d : Nat) {f : Device → Device} (hf : ∀ v, v.canon → (f v).canon) :
    (s.onDev d f).Canon := hs.setDev d (hf _ (hs.dev d))
@[simp] theorem State.Canon.onCtx {s : State} (hs : s.Canon) (x : CtxId) {f : Ctx → Ctx} (hf : ∀ c, c.canon → (f c).canon) :
    (s.onCtx x f).Canon := hs.setCtx x (hf _ (hs.ctx x))
@[simp] theorem State.Canon.onCx {s : State} (hs : s.Canon) {f : Ctx → Ctx} (hf : ∀ c, c.canon → (f c).canon) :
    (s.onCx f).Canon := hs.onCtx _ hf

/-- A device that differs in no memory. -/
theorem Device.canon.same {v w : Device} (hv : v.canon) (hm : w.mem = v.mem) (hh : w.hostMem = v.hostMem) : w.canon := by
  unfold Device.canon; rw [hm, hh]; exact hv
@[simp] theorem Device.canon_imp {v w : Device} (hm : w.mem = v.mem) (hh : w.hostMem = v.hostMem) : (v.canon → w.canon) ↔ True :=
  iff_true_intro fun hv => hv.same hm hh
/-- A context that differs in no buffer. -/
theorem Ctx.canon.same {c d : Ctx} (hd : c.canon) (hw : d.wb = c.wb) (ha : d.ab = c.ab) (hc : d.cbuf = c.cbuf) : d.canon := by
  unfold Ctx.canon; rw [hw, ha, hc]; exact hd
@[simp] theorem Ctx.canon_imp {c d : Ctx} (hw : d.wb = c.wb) (ha : d.ab = c.ab) (hc : d.cbuf = c.cbuf) : (c.canon → d.canon) ↔ True :=
  iff_true_intro fun h => h.same hw ha hc

/-- What each step of a fold keeps, the fold keeps. -/
theorem foldl_keeps {α β : Type} {P : β → Prop} {f : β → α → β} (hf : ∀ b a, P b → P (f b a)) (l : List α) {b : β} (hb : P b) :
    P (l.foldl f b) := by
  induction l generalizing b with
  | nil => exact hb
  | cons a l ih => exact ih (hf b a hb)

theorem State.Canon.ite {c : Prop} [Decidable c] {s t : State} (hs : s.Canon) (ht : t.Canon) : (if c then s else t).Canon := by
  split
  · exact hs
  · exact ht

/-- The next state of an outcome, if it has one, is in canonical form. -/
inductive CanonOut : Out → Prop
  | next {t : State} (h : t.Canon) : CanonOut (.next t)
  | fault (f : Fault) : CanonOut (.fault f)
  | refused (r : Refusal) : CanonOut (.refused r)
@[simp] theorem canonOut_next (t : State) : CanonOut (.next t) ↔ t.Canon := ⟨fun h => by cases h; assumption, .next⟩

/-- The state of an engine's answer, if it has one, is in canonical form. -/
inductive EngRes.Canon : EngRes State → Prop
  | ok {t : State} (h : t.Canon) : EngRes.Canon (.ok t)
  | wait : EngRes.Canon .wait
  | bad (f : FaultRec) : EngRes.Canon (.bad f)
  | drop (field : Nat) : EngRes.Canon (.drop field)
@[simp] theorem EngRes.canon_ok (t : State) : EngRes.Canon (.ok t) ↔ t.Canon := ⟨fun h => by cases h; assumption, .ok⟩
theorem EngRes.Canon.bind {α : Type} (r : EngRes α) {f : α → EngRes State} (hf : ∀ a, r = .ok a → (f a).Canon) : (r.bind f).Canon := by
  cases r with
  | ok a => exact hf a rfl
  | wait => exact .wait
  | bad e => exact .bad e
  | drop fl => exact .drop fl

/-! ### Launches, device memory and queue descriptors -/

@[simp] theorem State.Canon.onLaunch {s : State} (hs : s.Canon) (d lid : Nat) (f : Launch → Launch) : (s.onLaunch d lid f).Canon := by
  unfold State.onLaunch
  split
  · exact hs
  · exact hs.onDev d fun _ hv => hv

@[simp] theorem Device.canon_onField (d : Device) (f : Nat) (g : Field → Field) : (d.onField f g).canon ↔ d.canon := Iff.rfl
@[simp] theorem Device.canon_raise (d : Device) (v : Nat) : (d.raise v).canon ↔ d.canon := Iff.rfl
@[simp] theorem Device.canon.memWrite {d : Device} (hd : d.canon) (a : Nat) (bs : List Byte) : (d.memWrite a bs).canon :=
  ⟨mwrite_wf hd.1 a _, hd.2⟩
@[simp] theorem Device.canon.pwrite {d : Device} (hd : d.canon) (a : Nat) (bs : List Byte) : (d.pwrite a bs).canon := by
  unfold Device.pwrite
  split
  · exact hd.memWrite a bs
  · exact ⟨hd.1, mwrite_wf hd.2 _ bs⟩
@[simp] theorem Device.canon.pput {d : Device} (hd : d.canon) (a n x : Nat) : (d.pput a n x).canon := hd.pwrite a _
@[simp] theorem Device.canon.setQword {d : Device} (hd : d.canon) (q k x : Nat) : (d.setQword q k x).canon := hd.pput _ 4 x
@[simp] theorem Device.canon.setQstate {d : Device} (hd : d.canon) (q st : Nat) : (d.setQstate q st).canon := hd.setQword q 0 _
@[simp] theorem Device.canon.stopQueue {d : Device} (hd : d.canon) (q st err idx : Nat) : (d.stopQueue q st err idx).canon := by
  have h1 := ((hd.setQstate q st).setQword q 9 (err * 2 ^ 24)).setQword q 10 idx
  exact h1.same (by simp only [Device.stopQueue, Device.raise]) (by simp only [Device.stopQueue, Device.raise])
@[simp] theorem Device.canon.killQueue {d : Device} (hd : d.canon) (n q idx : Nat) : (d.killQueue n q idx).canon := by
  unfold Device.killQueue
  split
  · exact hd.stopQueue q 2 8 idx
  · exact hd
@[simp] theorem Device.canon.releaseKtt {d : Device} (hd : d.canon) (asid : Nat) : (d.releaseKtt asid).canon := by
  unfold Device.releaseKtt
  split <;> exact hd

/-! ### The fault log and kills -/

@[simp] theorem State.Canon.logRec {s : State} (hs : s.Canon) (d : Nat) (r : LogRec) : (s.logRec d r).Canon := hs.onDev d fun _ hv => hv
@[simp] theorem State.Canon.logFault {s : State} (hs : s.Canon) (d : Nat) (asid : BitVec 14) (f : FaultRec) (n : Bool) (l : Nat) (e : Word) :
    (s.logFault d asid f n l e).Canon := hs.logRec d _
@[simp] theorem State.Canon.freeSlot {s : State} (hs : s.Canon) (id : SlotId) : (s.freeSlot id).Canon := by
  simp [State.freeSlot, Ctx.renameRuns, hs]
@[simp] theorem State.Canon.killStream {s : State} (hs : s.Canon) (id : SlotId) : (s.killStream id).Canon := by
  simp [State.killStream, hs]
@[simp] theorem State.Canon.releaseToken {s : State} (hs : s.Canon) (c : CoreId) : (s.releaseToken c).Canon := by
  unfold State.releaseToken
  split
  · exact hs
  · exact State.Canon.onDev (s := s.onCore c _) hs c.dev fun _ hv => hv
@[simp] theorem State.Canon.giveTokens {s : State} (hs : s.Canon) (x : CtxId) : (s.giveTokens x).Canon := by
  refine foldl_keeps (P := State.Canon) (fun _ c hs => hs.releaseToken c) _ ?_
  split
  · exact hs.releaseToken x.core
  · exact hs
@[simp] theorem State.Canon.killCtx {s : State} (hs : s.Canon) (x : CtxId) : (s.killCtx x).Canon := by
  have h1 : ((s.slotsOfCtx x).foldl State.killStream s).Canon := foldl_keeps (fun _ id h => h.killStream id) _ hs
  exact State.Canon.setCtx (s := (State.giveTokens _ x).onCore x.core _) (h1.giveTokens x) x Ctx.canon_new
@[simp] theorem State.Canon.pinStores {s : State} (hs : s.Canon) (d asid : Nat) : (s.pinStores d asid).Canon := hs
@[simp] theorem State.Canon.killLaunch {s : State} (hs : s.Canon) (d lid : Nat) : (s.killLaunch d lid).Canon := by
  unfold State.killLaunch
  split
  · exact hs
  · next l _ =>
    dsimp only
    split
    · exact hs
    · have h1 : ((l.running.map Prod.snd).foldl State.killCtx s).Canon := foldl_keeps (fun _ x h => h.killCtx x) _ hs
      apply State.Canon.logRec
      apply State.Canon.onDev
      · apply State.Canon.onLaunch
        exact h1.pinStores ..
      · intro v hv
        apply Device.canon.releaseKtt
        apply Device.canon.killQueue
        exact hv
@[simp] theorem State.Canon.killOf {s : State} (hs : s.Canon) (id : SlotId) : (s.killOf id).Canon := by
  unfold State.killOf
  split
  · exact hs
  · exact hs.killLaunch id.core.dev _

/-! ### Taking an exception -/

@[simp] theorem State.Canon.deliver {s : State} (hs : s.Canon) (id : SlotId) (f : FaultRec) (ret : Word × Word × BitVec 32) :
    (s.deliver id f ret).Canon := by
  unfold State.deliver
  dsimp only
  split
  · exact (hs.logFault ..).killOf id
  split
  · exact (hs.logFault ..).killOf id
  split
  · exact (hs.logFault ..).killOf id
  · exact hs
@[simp] theorem State.Canon.raise {s : State} (hs : s.Canon) (n : FaultName) (fa de : Word) : CanonOut (s.raise n fa de) := .next (hs.deliver ..)
@[simp] theorem State.Canon.raiseRec {s : State} (hs : s.Canon) (f : FaultRec) : CanonOut (s.raiseRec f) := .next (hs.deliver ..)
@[simp] theorem State.Canon.put {s : State} (hs : s.Canon) (d : BitVec 5) (x n : Word) : CanonOut (s.put d x n) := .next hs

end Sys2Proof.Machine
end

section
/-!
PROOF. The canonical form under accesses, vector operations, loads, stores, atomics and the paths.
-/
namespace Sys2Proof.Machine

@[simp] theorem Ctx.canon.setDirty {c : Ctx} (hc : c.canon) (b : Buf) (k : Nat) : (c.setDirty b k).canon := by
  cases b <;> exact hc

theorem Ctx.canon.buf {c : Ctx} (hc : c.canon) (b : Buf) : (c.buf b).wf := by
  obtain ⟨hw, ha, hb⟩ := hc
  cases b
  · exact hw
  · exact ha
  · exact hb

theorem Ctx.canon.setBuf {c : Ctx} (hc : c.canon) (b : Buf) {m : Memory} (hm : m.wf) : (c.setBuf b m).canon := by
  obtain ⟨hw, ha, hb⟩ := hc
  cases b
  · exact ⟨hm, ha, hb⟩
  · exact ⟨hw, hm, hb⟩
  · exact ⟨hw, ha, hm⟩

@[simp] theorem Ctx.canon.bufWrite {c : Ctx} (hc : c.canon) (b : Buf) (off : Nat) (bs : List Byte) : (c.bufWrite b off bs).canon := by
  unfold Ctx.bufWrite
  split
  · exact hc
  · exact foldl_keeps (fun _ k h => h.setDirty b _) _ (hc.setBuf b (mwrite_wf (hc.buf b) off bs))

/-- Every write at a visibility point goes through `mset`, whatever its place. -/
@[simp] theorem State.Canon.writePlace {s : State} (hs : s.Canon) (p : Place) (bs : List Byte) : (s.writePlace p bs).Canon := by
  unfold State.writePlace
  split
  · exact hs.onDev _ fun v hv => hv.memWrite _ bs
  · exact hs.onDev _ fun v hv => ⟨hv.1, mwrite_wf hv.2 _ bs⟩
  · exact foldl_keeps (fun _ x h => h.onCtx x fun c hc => hc.bufWrite _ _ bs) _ hs
  all_goals exact hs

@[simp] theorem State.Canon.writePieces {s : State} (hs : s.Canon) (bs : List Byte) (ps : List Piece) : (s.writePieces bs ps).Canon := by
  induction ps generalizing s with
  | nil => exact hs
  | cons p r ih => exact ih (hs.writePlace ..)

@[simp] theorem State.Canon.glcUpdate {s : State} (hs : s.Canon) (c : CoreId) (p : Place) (bs : List Byte) :
    (s.glcUpdate c p bs).Canon := by
  unfold State.glcUpdate
  repeat' split
  all_goals simp [hs]

@[simp] theorem State.Canon.glcClear {s : State} (hs : s.Canon) (c : CoreId) : (s.glcClear c).Canon := by
  simp [State.glcClear, hs]

@[simp] theorem State.Canon.acquire {s : State} (hs : s.Canon) (c : CoreId) (sc : Scope) : (s.acquire c sc).Canon := by
  cases sc <;> exact hs

@[simp] theorem State.Canon.waitAccess {s : State} (hs : s.Canon) : CanonOut (s.waitAccess) := by
  unfold State.waitAccess
  split <;> simp [hs]

/-- What holds a vector instruction leaves the memories in canonical form. -/
theorem State.Canon.vecHold {s : State} (hs : s.Canon) {regs reads qs writes lat} {o : Out} (e : s.vecHold regs reads qs writes lat = some o) :
    CanonOut o := by
  unfold State.vecHold at e
  split at e
  · cases e; exact hs.raise ..
  split at e
  · cases e; exact .next hs
  split at e
  · cases e; exact hs.waitAccess
  split at e
  · split at e <;> cases e
    · exact .next hs
    · exact hs.raise ..
  · cases e

@[simp] theorem State.Canon.vecIssue {s : State} (hs : s.Canon) (regs : List (BitVec 6)) (reads : List Reg) (qs : List (BitVec 2))
    (writes : List Reg) (lat : Nat) (eff : Nat → Stream → Stream) (n : Word) : CanonOut (s.vecIssue regs reads qs writes lat eff n) := by
  unfold State.vecIssue
  split
  · next e => exact hs.vecHold e
  · exact .next hs

@[simp] theorem State.Canon.glcFill {s : State} (hs : s.Canon) (c : CoreId) (line : Nat) (v : Vec) : (s.glcFill c line v).Canon := by
  simp [State.glcFill, hs]

@[simp] theorem State.Canon.loadPiece {s : State} (hs : s.Canon) (id : SlotId) (seq : Nat) (glc : Bool) (p : Piece) :
    (s.loadPiece id seq glc p).1.Canon := by
  unfold State.loadPiece
  dsimp only
  repeat' split
  all_goals simp [hs]

@[simp] theorem State.Canon.dropAccess {s : State} (hs : s.Canon) (id : SlotId) (field : Nat) : (s.dropAccess id field).Canon := by
  simp [State.dropAccess, hs]

@[simp] theorem State.Canon.cpAccessOr {s : State} (hs : s.Canon) (dev : Nat) (rs : List (Nat × Nat)) {drop : State → State} {f : State → Out}
    (hd : ∀ s, s.Canon → (drop s).Canon) (hf : CanonOut (f s)) : CanonOut (s.cpAccessOr dev rs drop f) := by
  unfold State.cpAccessOr
  split
  · exact hf
  · exact hf
  · exact .next (hd _ (hs.logFault ..))
  · exact .next hs

@[simp] theorem State.Canon.cpAccess {s : State} (hs : s.Canon) (dev : Nat) (rs : List (Nat × Nat)) {f : State → Out}
    (hf : CanonOut (f s)) : CanonOut (s.cpAccess dev rs f) := hs.cpAccessOr dev rs (fun _ h => h) hf

@[simp] theorem State.Canon.loadPieces {s : State} (hs : s.Canon) (id : SlotId) (seq : Nat) (va : Word) (ps : List Piece) :
    (s.loadPieces id seq va ps).1.Canon := by
  induction ps generalizing s with
  | nil => exact hs
  | cons p r ih =>
    simp only [State.loadPieces]
    split
    · exact ih hs
    · exact ih (hs.loadPiece ..)

@[simp] theorem State.Canon.recStop_wait {s : State} (hs : s.Canon) : CanonOut (s.recStop .wait) := .next hs
@[simp] theorem State.Canon.recStop_bad {s : State} (hs : s.Canon) (f : FaultRec) : CanonOut (s.recStop (.bad f)) := hs.raiseRec f

theorem State.Canon.recRead {s : State} (hs : s.Canon) {eng va n s1 bs} (e : s.recRead eng va n = .ok s1 bs) : s1.Canon := by
  unfold State.recRead at e
  split at e
  · cases e
  · split at e <;> cases e
    exact hs.loadPieces ..

@[simp] theorem State.Canon.recPiece {s : State} (hs : s.Canon) (eng : PermEng) (va : Word) (n g : Nat) :
    (s.recPiece eng va n g).Canon := by
  unfold State.recPiece
  dsimp only
  repeat' split
  all_goals simp [hs]

/-! ### Fetch -/

theorem State.Canon.fetchParcel {s : State} (hs : s.Canon) {id va s1 p} (e : s.fetchParcel id va = .ok s1 p) : s1.Canon := by
  unfold State.fetchParcel at e
  dsimp only at e
  split at e
  · cases e; exact hs
  split at e
  · cases e
  · split at e <;> cases e <;> exact hs
  · split at e <;> cases e <;> exact hs

theorem State.Canon.fetchWord {s : State} (hs : s.Canon) {id va s1 w} (e : s.fetchWord id va = .ok s1 w) : s1.Canon := by
  unfold State.fetchWord at e
  split at e
  · cases e
  · cases e
  · next h1 =>
    split at e <;> cases e
    next h2 => exact (hs.fetchParcel h1).fetchParcel h2

theorem State.Canon.fetchInstr {s : State} (hs : s.Canon) {id c s1 i} (e : s.fetchInstr id c = .ok s1 i) : s1.Canon := by
  unfold State.fetchInstr at e
  split at e
  · cases e
  · cases e
  · next h1 =>
    split at e
    · cases e; exact hs.fetchParcel h1
    · split at e <;> cases e
      next h2 => exact (hs.fetchParcel h1).fetchParcel h2

theorem State.Canon.readHeader {s : State} (hs : s.Canon) {id hdr s1 h} (e : s.readHeader id hdr = .ok s1 h) : s1.Canon := by
  unfold State.readHeader at e
  dsimp only at e
  split at e
  · cases e
  split at e
  · cases e
  · cases e
  · next h1 =>
    split at e
    · cases e
    · split at e <;> cases e
      exact hs.fetchWord h1

theorem State.Canon.groupHeaders {s : State} (hs : s.Canon) {ids s1 hs' i} (e : s.groupHeaders ids = (.ok s1 hs', i)) : s1.Canon := by
  induction ids generalizing s hs' i with
  | nil => cases e; exact hs
  | cons id r ih =>
    unfold State.groupHeaders at e
    split at e
    · cases e
    · cases e
    · next h1 =>
      split at e <;> cases e
      next h2 => exact ih (hs.readHeader h1) h2

@[simp] theorem State.canon_enterBlock (s : State) (id : SlotId) (h : BitVec 32) : (s.enterBlock id h).Canon ↔ s.Canon := Iff.rfl

@[simp] theorem State.Canon.enterGroup {s : State} (hs : s.Canon) (x : CtxId) (ids : List SlotId) : (s.enterGroup x ids).Canon := by
  unfold State.enterGroup
  split
  · exact hs
  · exact hs.deliver ..
  · next e =>
    refine State.Canon.onCtx (foldl_keeps (fun s p h => ?_) _ (hs.groupHeaders e)) x fun _ hc => hc
    exact (State.canon_enterBlock s p.1 p.2).2 h

@[simp] theorem State.Canon.accLate {s : State} (hs : s.Canon) (id : SlotId) : (s.accLate id).Canon := by
  unfold State.accLate
  dsimp only
  repeat' split
  all_goals simp [hs]

@[simp] theorem State.Canon.accInstr {s : State} (hs : s.Canon) (id : SlotId) (a : Access) (i : Instr) (n : Nat) :
    (s.accInstr id a i n).Canon := by
  unfold State.accInstr
  dsimp only
  repeat' split
  all_goals simp [hs]

@[simp] theorem State.Canon.accHeader {s : State} (hs : s.Canon) (id : SlotId) (a : Access) : (s.accHeader id a).Canon := by
  unfold State.accHeader
  split
  · exact hs
  split
  · exact hs
  · exact hs
  · next e => split <;> simp [hs, hs.readHeader e]

@[simp] theorem State.Canon.accessStep {s : State} (hs : s.Canon) (id : SlotId) : (s.accessStep id).Canon := by
  unfold State.accessStep
  dsimp only
  split
  · exact hs
  split
  · exact hs.accLate id
  split
  · exact hs.accHeader id _
  split
  · next e => exact (hs.fetchInstr e).accInstr ..
  all_goals exact hs

@[simp] theorem State.Canon.loadExec {s : State} (hs : s.Canon) (f : LoadForm) (n : Nat) : CanonOut (s.loadExec f n) := by
  have h1 : (if s.st.accPassed then s else s.accessStep s.cur).Canon := by
    split
    · exact hs
    · exact hs.accessStep _
  unfold State.loadExec
  dsimp only
  generalize (if s.st.accPassed then s else s.accessStep s.cur) = s1 at h1
  split
  · split
    · exact .next h1
    · split
      · exact h1.waitAccess
      · exact .next h1
  all_goals
    split
    · exact h1.waitAccess
    · split
      · next e => exact h1.vecHold e
      · exact .next h1

@[simp] theorem State.canon_waitsAt (s : State) (w : WaitFor) : (s.waitsAt w).Canon ↔ s.Canon := Iff.rfl

@[simp] theorem State.canon_ungate (s : State) : s.ungate.Canon ↔ s.Canon := Iff.rfl

/-- What holds a join point leaves the memories in canonical form. -/
theorem State.Canon.joinHold {s : State} (hs : s.Canon) {rel w} {o : Out} (e : s.joinHold rel w = some o) : CanonOut o := by
  unfold State.joinHold at e
  dsimp only at e
  split at e
  · cases e; exact hs.waitAccess
  split at e
  · cases e; exact .next hs
  split at e
  · split at e <;> cases e
    exact .next hs
  · cases e

@[simp] theorem State.Canon.glcDrop {s : State} (hs : s.Canon) (c : CoreId) (p : Place) : (s.glcDrop c p).Canon := by
  unfold State.glcDrop
  split <;> simp [hs]

theorem State.Canon.atomicStep {s : State} (hs : s.Canon) {id seq loc n f s1 old} (e : s.atomicStep id seq loc n f = .ok s1 old) : s1.Canon := by
  unfold State.atomicStep at e
  dsimp only at e
  split at e
  · cases e
  split at e <;> cases e
  split
  · exact (hs.writePlace ..).glcDrop ..
  · exact hs.glcDrop ..

theorem State.Canon.addTcnt {s : State} (hs : s.Canon) {fb d s1 old} (e : s.addTcnt fb d = .ok s1 old) : s1.Canon := by
  unfold State.addTcnt at e
  split at e
  · cases e
  · exact hs.atomicStep e

@[simp] theorem State.Canon.issueTwin {s : State} (hs : s.Canon) (op : JoinOp) (f : Stream → Stream) : CanonOut (s.issueTwin op f) := by
  unfold State.issueTwin
  split <;> simp [hs]

@[simp] theorem State.Canon.issueAtomic {s : State} (hs : s.Canon) (op : Option AmoOp) (cas dbl : Bool) (ord : Ord) (scope : Scope)
    (d v base : BitVec 5) :
    CanonOut (s.issueAtomic op cas dbl ord scope d v base) := by
  unfold State.issueAtomic
  dsimp only
  repeat' split
  all_goals simp [hs]

@[simp] theorem State.Canon.pendFault {s : State} (hs : s.Canon) (x : CtxId) (id : SlotId) (f : FaultRec) :
    (s.pendFault x id f).Canon := by
  unfold State.pendFault
  repeat' split
  all_goals simp [hs]

@[simp] theorem State.Canon.performTwin {s : State} (hs : s.Canon) (id : SlotId) (seq : Nat) (op : JoinOp) : (s.performTwin id seq op).Canon := by
  unfold State.performTwin
  dsimp only
  split
  · exact hs
  · exact hs
  · split
    · exact hs
    · split
      · exact State.Canon.acquire (s := s.onStrm id _) hs id.core _
      · exact hs
  · split
    · exact hs
    · split
      · exact hs
      · exact State.Canon.pendFault (s := s.onStrm id _) hs ..
      · exact hs.dropAccess ..
      · next e =>
        have h1 := hs.atomicStep e
        split
        · exact State.Canon.acquire (s := State.onStrm _ id _) h1 id.core _
        · exact h1

theorem execPerformJoin_canon {s : State} (hs : s.Canon) (sl : SlotId) : CanonOut (execPerformJoin sl s) := by
  unfold execPerformJoin
  dsimp only
  repeat' split
  all_goals simp [hs]

@[simp] theorem State.Canon.loadI {s : State} (hs : s.Canon) (i : Instr) (n : Nat) : CanonOut (s.loadI i n) := by
  unfold State.loadI
  split <;> simp [hs]

@[simp] theorem State.Canon.issueStore {s : State} (hs : s.Canon) (r : Res (List Piece)) (eas : List Word) (sz : Nat) (bs : List Byte)
    (nb : Option (BitVec 5 × Word)) (n : Word) :
    CanonOut (s.issueStore r eas sz bs nb n) := by
  unfold State.issueStore
  repeat' split
  all_goals simp [hs]

@[simp] theorem State.Canon.storeFlat {s : State} (hs : s.Canon) (p : PathKind) (post : Bool) (off : BitVec 7) (base : BitVec 5)
    (size : Nat) (bs : List Byte) (n : Word) :
    CanonOut (s.storeFlat p post off base size bs n) := by
  simp [State.storeFlat, hs]

theorem execStv_canon {s : State} (hs : s.Canon) (sz : BitVec 3) (post : Bool) (off : BitVec 7) (base : BitVec 5) (t : BitVec 6) :
    CanonOut (execStv sz post off base t s) := by
  unfold execStv
  dsimp only
  split
  · next e => exact hs.vecHold e
  · exact hs.storeFlat ..

theorem execStvSI_canon {s : State} (hs : s.Canon) (dbl : Bool) (x : StrideIdx) (base : BitVec 5) (t : BitVec 6) :
    CanonOut (execStvSI dbl x base t s) := by
  unfold execStvSI
  dsimp only
  split
  · next e => exact hs.vecHold e
  · exact hs.issueStore ..

theorem execGseq_canon {s : State} (hs : s.Canon) (d : BitVec 5) (g : BitVec 12) : CanonOut (execGseq d g s) := by
  unfold execGseq
  dsimp only
  split <;> simp [hs]

theorem execGacq_canon {s : State} (hs : s.Canon) (g : BitVec 12) (d : BitVec 5) : CanonOut (execGacq g d s) := by
  unfold execGacq
  dsimp only
  repeat' split
  case h_1 e => exact hs.joinHold e
  all_goals simp [hs]

theorem execStg_canon {s : State} (hs : s.Canon) (sz : BitVec 3) (rel : Bool) (l : BitVec 2) (g : BitVec 12) (ofs v : BitVec 5) :
    CanonOut (execStg sz rel l g ofs v s) := by
  unfold execStg
  dsimp only
  split
  · exact hs.raise ..
  split
  · exact hs.raise ..
  split
  · exact hs.raiseRec _
  split
  · exact hs.raiseRec _
  split
  · exact .next hs
  split
  · next e => exact hs.vecHold e
  · exact .next hs

@[simp] theorem State.Canon.loadFault {s : State} (hs : s.Canon) (id : SlotId) (seq : Nat) (f : FaultRec) :
    (s.loadFault id seq f).Canon := by
  unfold State.loadFault
  split <;> simp [hs]

theorem execPerformLq_canon {s : State} (hs : s.Canon) (sl : SlotId) (piece : Nat) : CanonOut (execPerformLq sl piece s) := by
  unfold execPerformLq
  dsimp only
  repeat' split
  case h_4 =>
    exact .next (foldl_keeps (P := fun r : State × List (Nat × Byte) => r.1.Canon) (fun r p h => h.loadPiece ..) _ hs)
  all_goals simp [hs]

theorem execPerformSq_canon {s : State} (hs : s.Canon) (sl : SlotId) : CanonOut (execPerformSq sl s) := by
  unfold execPerformSq
  dsimp only
  repeat' split
  all_goals simp [hs]

@[simp] theorem State.Canon.pathFault {s : State} (hs : s.Canon) (c : CoreId) (it : PathItem) (f : FaultRec) :
    (s.pathFault c it f).Canon := by
  unfold State.pathFault
  repeat' split
  all_goals simp [hs]

@[simp] theorem State.Canon.writeTaken {s : State} (hs : s.Canon) (c : CoreId) (it : PathItem) (p : Place) : (s.writeTaken c it p).Canon := by
  unfold State.writeTaken
  split
  · exact foldl_keeps (fun s _ h => (State.canon_onCore s _ _).2 h) _ hs
  all_goals exact hs

theorem execPerformPath_canon {s : State} (hs : s.Canon) (c : CoreId) (k : Nat) : CanonOut (execPerformPath c k s) := by
  unfold execPerformPath
  dsimp only
  split
  · exact .next hs
  split
  · exact .next hs
  split
  · exact .next hs
  · exact .next (State.Canon.pathFault (s := s.onCore c _) hs ..)
  · exact .next (State.Canon.pathFault (s := s.onCore c _) hs ..)
  · split
    · exact .next hs
    · next it _ _ _ _ _ _ _ =>
      have h1 := State.Canon.writePlace ((State.canon_onCore s c fun e => { e with paths := e.paths.eraseIdx k }).2 hs)
        (s.locate it.loc) it.bytes
      have h2 := h1.writeTaken c it (s.locate it.loc)
      split
      · exact .next (h2.glcUpdate ..)
      · exact .next h2

@[simp] theorem State.Canon.onHead {s : State} (hs : s.Canon) (c : CoreId) (e : Eng) (f : EngCmd → EngCmd) : (s.onHead c e f).Canon := by
  simp [State.onHead, hs]

end Sys2Proof.Machine
end

section
/-!
PROOF. The canonical form under the engines: commands, matrices, copies, semaphores, barriers and collectives.
-/
namespace Sys2Proof.Machine

/-! ### Engines -/

@[simp] theorem State.Canon.issueCmd {s : State} (hs : s.Canon) (c : EngCmd) : CanonOut (s.issueCmd c) := .next hs

theorem State.Canon.readRec_ok {s : State} (hs : s.Canon) {eng va n s1 r} (e : s.readRec eng va n = .ok s1 r) : s1.Canon := by
  unfold State.readRec at e
  split at e
  · cases e
  · split at e <;> cases e
    next e => exact hs.recRead e

theorem State.Canon.readRec_stop {s : State} (hs : s.Canon) {eng va n o} (e : s.readRec eng va n = .stop o) : CanonOut o := by
  unfold State.readRec at e
  split at e
  · cases e; exact hs.raise ..
  · split at e <;> cases e
    · exact .next hs
    · exact hs.raiseRec _

@[simp] theorem State.Canon.enterCmd {s : State} (hs : s.Canon) (c : EngCmd) : (s.enterCmd c).Canon := by
  unfold State.enterCmd
  dsimp only
  split <;> simp [hs]

@[simp] theorem State.Canon.refuseCmd {s : State} (hs : s.Canon) (f : FaultRec) : CanonOut (s.refuseCmd f) := by
  simp [State.refuseCmd, hs]

theorem execEngineQueueEntry_canon {s0 : State} (hs0 : s0.Canon) (sl : SlotId) : CanonOut (execEngineQueueEntry sl s0) := by
  unfold execEngineQueueEntry
  dsimp only
  repeat' split
  all_goals simp [hs0]

theorem execPowerTokenTake_canon {s : State} (hs : s.Canon) (c : CoreId) : CanonOut (execPowerTokenTake c s) := by
  unfold execPowerTokenTake
  dsimp only
  split <;> simp [hs]

theorem execPowerTokenPass_canon {s : State} (hs : s.Canon) (dev field pos : Nat) : CanonOut (execPowerTokenPass dev field pos s) := by
  unfold execPowerTokenPass
  repeat' split
  all_goals simp [hs]

@[simp] theorem State.Canon.popHead {s : State} (hs : s.Canon) (c : CoreId) (e : Eng) : (s.popHead c e).Canon := by
  unfold State.popHead
  repeat' split
  all_goals simp [hs]

@[simp] theorem State.Canon.dropFollow {s : State} (hs : s.Canon) (c : CoreId) (id : Nat) : (s.dropFollow c id).Canon := by
  unfold State.dropFollow
  split <;> simp [hs]

@[simp] theorem State.Canon.engFault {s : State} (hs : s.Canon) (c : CoreId) (e : Eng) (f : FaultRec) : (s.engFault c e f).Canon := by
  unfold State.engFault
  split
  · exact hs
  dsimp only
  split
  · exact (hs.logFault ..).killOf _
  · next h r _ _ =>
    apply State.Canon.pendFault
    have h2 (g : Core → Core) (k : EngCmd → EngCmd) : ((s.onHead c e k).onCore c g).Canon := hs.onHead c e k
    have h3 (g : Core → Core) (k : EngCmd → EngCmd) (b : Bool) :
        (if b then ((s.onHead c e k).onCore c g).releaseToken c else (s.onHead c e k).onCore c g).Canon := by
      split
      · exact (h2 g k).releaseToken c
      · exact h2 g k
    split
    · split
      · exact (h3 _ _ _).onCtx _ fun _ hc => hc
      · exact h3 _ _ _
    · apply State.Canon.dropFollow
      split
      · exact (h3 _ _ _).onCtx _ fun _ hc => hc
      · exact h3 _ _ _

@[simp] theorem State.Canon.engWrite {s : State} (hs : s.Canon) (c : CoreId) (h : EngCmd) (row : Nat) (ps : List Piece) (bs : List Byte) :
    (s.engWrite c h row ps bs).Canon := by
  simp [State.engWrite, hs]

@[simp] theorem State.Canon.engStep {s : State} (hs : s.Canon) (c : CoreId) (e : Eng) {r : EngRes State} (hr : r.Canon) :
    CanonOut (s.engStep c e r) := by
  cases hr with
  | ok h => exact .next h
  | wait => exact .next hs
  | bad f => exact .next (hs.engFault c e f)
  | drop fl => exact .next (hs.engFault c e _)

@[simp] theorem State.Canon.rowStep {s : State} (hs : s.Canon) (c : CoreId) (e : Eng) (h : EngCmd) (rows : Nat) {step : Nat → EngRes State}
    (hr : ∀ i, (step i).Canon) : CanonOut (s.rowStep c e h rows step) := by
  unfold State.rowStep
  split
  · exact .next (hs.engFault c e _)
  dsimp only
  generalize (if h.usesMrow && h.restart then _ else _ : Nat) = i
  split
  · split
    · exact .next (hs.engFault c e _)
    · exact hs.engStep c e (hr i)
  · split
    · exact .next hs
    · exact .next (hs.popHead c e)

@[simp] theorem State.Canon.rowDone {s : State} (hs : s.Canon) (c : CoreId) (e : Eng) (h : EngCmd) (i : Nat) :
    (s.rowDone c e h i).Canon := by
  unfold State.rowDone
  split <;> simp [hs]

theorem execQfence_canon {s : State} (hs : s.Canon) (me ce cs : Bool) : CanonOut (execQfence me ce cs s) := by
  unfold execQfence
  split <;> simp [hs]

theorem execQfenceRelease_canon {s : State} (hs : s.Canon) (c : CoreId) : CanonOut (execQfenceRelease c s) := by
  unfold execQfenceRelease
  split
  · exact .next hs
  · exact .next (foldl_keeps (fun _ e h => h.popHead c e) _ hs)

theorem execFollowOnRelease_canon {s : State} (hs : s.Canon) (c : CoreId) : CanonOut (execFollowOnRelease c s) := by
  unfold execFollowOnRelease
  repeat' split
  all_goals simp [hs]

@[simp] theorem State.Canon.issueMma {s : State} (hs : s.Canon) (sparse fo z : Bool) (ts : BitVec 2) (a b c : BitVec 5) :
    CanonOut (s.issueMma sparse fo z ts a b c) := by
  unfold State.issueMma
  dsimp only
  split
  · exact hs.raise ..
  split
  · next e => exact hs.readRec_stop e
  next s1 ra e1 =>
  have h1 := hs.readRec_ok e1
  split
  · next e => exact h1.readRec_stop e
  next s2 rb e2 =>
  have h2 := h1.readRec_ok e2
  split
  · exact h2.raiseRec _
  split
  · exact h2.raiseRec _
  generalize (if sparse then !metaVaOk (s.rs c) else (contrWindow (s.rs c) (recKblk ra)).isNone : Bool) = bad
  split
  · exact h2.raiseRec _
  split
  · exact h2.raiseRec _
  split
  · exact h2.raiseRec _
  split
  · exact h2.raise ..
  · exact h2.issueCmd _

theorem execMzero_canon {s : State} (hs : s.Canon) (ts : BitVec 2) : CanonOut (execMzero ts s) := by
  unfold execMzero
  split <;> simp [hs]

@[simp] theorem State.Canon.issueOut {s : State} (hs : s.Canon) (k : CmdKind) (role : Role) (ts : BitVec 2) (a : BitVec 5)
    (f : EngCmd → EngCmd) : CanonOut (s.issueOut k role ts a f) := by
  unfold State.issueOut
  dsimp only
  split
  · exact hs.raise ..
  split
  · next e => exact hs.readRec_stop e
  next e =>
  have h1 := hs.readRec_ok e
  split
  · exact h1.raiseRec _
  split
  · exact h1.raiseRec _
  cases k <;> exact h1.issueCmd _

theorem execMstat_canon {s : State} (hs : s.Canon) (l ts : BitVec 2) : CanonOut (execMstat l ts s) := by
  unfold execMstat
  repeat' split
  all_goals simp [hs]

@[simp] theorem Ctx.canon.setTileRow {c : Ctx} (hc : c.canon) (ts : BitVec 2) (i j : Nat) (xs : List XwElem) :
    (c.setTileRow ts i j xs).canon := (hc.bufWrite ..).bufWrite ..

@[simp] theorem Ctx.canon.addRow {c : Ctx} (hc : c.canon) (h : EngCmd) (i : Nat) (xs : List XwElem) : (c.addRow h i xs).canon :=
  hc.setTileRow ..

theorem State.Canon.mmaStep {s : State} (hs : s.Canon) (c : CoreId) (h : EngCmd) (i : Nat) : (s.mmaStep c h i).Canon := by
  refine EngRes.Canon.bind _ fun _ _ => EngRes.Canon.bind _ fun xs _ => ?_
  rw [EngRes.canon_ok]
  exact (hs.onCtx h.x fun c hc => hc.addRow ..).rowDone ..

@[simp] theorem State.Canon.onMe {s : State} (hs : s.Canon) (c : CoreId) (id : Nat) (f : EngCmd → EngCmd) : (s.onMe c id f).Canon := by
  simp [State.onMe, hs]

@[simp] theorem State.Canon.migrateBack {s : State} (hs : s.Canon) (home target : CoreId) (h : EngCmd) :
    (s.migrateBack home target h).Canon := by
  simp [State.migrateBack, hs]

theorem execMmaRowCommit_canon {s : State} (hs : s.Canon) (c : CoreId) : CanonOut (execMmaRowCommit c s) := by
  unfold execMmaRowCommit
  dsimp only
  split
  · split
    · exact .next hs
    split
    · next home h _ _ _ xs _ =>
      have h1 := hs.onMe home h.id fun y => { y with partialRows := y.partialRows ++ [xs], checked := true }
      rw [canonOut_next]
      split
      · exact h1.releaseToken c
      · exact h1
    · exact .next hs
    all_goals exact .next (hs.migrateBack ..)
  · split
    · split
      · exact .next hs
      · exact hs.rowStep _ _ _ _ fun i => hs.mmaStep _ _ i
    · exact .next hs

theorem execCommandMigration_canon {s : State} (hs : s.Canon) (c : CoreId) (pos : Nat) (target : CoreId) :
    CanonOut (execCommandMigration c pos target s) := by
  unfold execCommandMigration
  dsimp only
  repeat' split
  all_goals simp [hs]

theorem execMigratedResultApply_canon {s : State} (hs : s.Canon) (c : CoreId) : CanonOut (execMigratedResultApply c s) := by
  unfold execMigratedResultApply
  dsimp only
  split
  · exact .next hs
  split
  · exact .next hs
  split
  · split
    · exact .next (hs.engFault ..)
    · next h _ _ _ _ =>
      have h1 := (hs.onCtx h.x fun c hc => hc.addRow h h.row (h.partialRows[h.row]?.getD [])).rowDone c .me h h.row
      rw [canonOut_next]
      split
      · exact h1.popHead ..
      · exact h1
  · exact .next (hs.popHead ..)

@[simp] theorem Ctx.canon.zeroSlot {c : Ctx} (hc : c.canon) (ts : BitVec 2) : (c.zeroSlot ts).canon := hc.bufWrite ..

theorem execMzeroPerform_canon {s : State} (hs : s.Canon) (c : CoreId) : CanonOut (execMzeroPerform c s) := by
  unfold execMzeroPerform
  split
  · split
    · exact .next ((hs.onCtx _ fun c hc => hc.zeroSlot _).popHead ..)
    · exact .next hs
  · exact .next hs

theorem execMstatPerform_canon {s : State} (hs : s.Canon) (c : CoreId) : CanonOut (execMstatPerform c s) := by
  unfold execMstatPerform
  repeat' split
  all_goals simp [hs]

@[simp] theorem Ctx.canon.mcvtCounts {c : Ctx} (hc : c.canon) (h : EngCmd) (i : Nat) (rs : List (Byte × BlockOut)) :
    (c.mcvtCounts h i rs).canon :=
  foldl_keeps (fun _ _ hc => ((hc.bufWrite ..).bufWrite ..).bufWrite ..) _ hc

theorem State.Canon.mcvtStep {s : State} (hs : s.Canon) (c : CoreId) (h : EngCmd) (i : Nat) : (s.mcvtStep c h i).Canon := by
  unfold State.mcvtStep
  split
  · exact .wait
  refine EngRes.Canon.bind _ fun ss _ => EngRes.Canon.bind _ fun ps _ => EngRes.Canon.bind _ fun qs _ => ?_
  rw [EngRes.canon_ok]
  exact (((hs.engWrite ..).engWrite ..).onCtx h.x fun c hc => hc.mcvtCounts ..).rowDone ..

theorem execMcvtRowCommit_canon {s : State} (hs : s.Canon) (c : CoreId) : CanonOut (execMcvtRowCommit c s) := by
  unfold execMcvtRowCommit
  split
  · split
    · exact hs.rowStep _ _ _ _ fun i => hs.mcvtStep _ _ i
    · exact .next hs
  · exact .next hs

theorem State.Canon.mldaccStep {s : State} (hs : s.Canon) (c : CoreId) (h : EngCmd) (i : Nat) : (s.mldaccStep c h i).Canon := by
  refine EngRes.Canon.bind _ fun bs _ => ?_
  rw [EngRes.canon_ok]
  exact (hs.onCtx h.x fun c hc => hc.setTileRow ..).rowDone ..

theorem State.Canon.mstaccStep {s : State} (hs : s.Canon) (c : CoreId) (h : EngCmd) (i : Nat) : (s.mstaccStep c h i).Canon := by
  refine EngRes.Canon.bind _ fun ps _ => ?_
  rw [EngRes.canon_ok]
  exact (hs.engWrite ..).rowDone ..

theorem execAccRowTransfer_canon {s : State} (hs : s.Canon) (c : CoreId) : CanonOut (execAccRowTransfer c s) := by
  unfold execAccRowTransfer
  split
  · split
    · exact hs.rowStep _ _ _ _ fun i => hs.mldaccStep _ _ i
    · exact hs.rowStep _ _ _ _ fun i => hs.mstaccStep _ _ i
    · exact .next hs
  · exact .next hs

@[simp] theorem Ctx.canon_setSem (c : Ctx) (n : BitVec 6) (v : BitVec 16) : (c.setSem n v).canon ↔ c.canon := Iff.rfl

@[simp] theorem State.canon_semMark (s : State) (x : CtxId) (n : BitVec 6) (k : SemStep) : (s.semMark x n k).Canon ↔ s.Canon := Iff.rfl

@[simp] theorem State.Canon.semStep {s : State} (hs : s.Canon) (x : CtxId) (n : BitVec 6) (k : SemStep) (v : BitVec 16) :
    (s.semStep x n k v).Canon :=
  ((State.canon_semMark s x n k).2 hs).onCtx x fun _ hc => hc

theorem execSemsig_canon {s : State} (hs : s.Canon) (q : SemQ) (sem : BitVec 6) (n : BitVec 15) : CanonOut (execSemsig q sem n s) := by
  unfold execSemsig
  split
  · exact hs.raise ..
  split
  · exact hs.issueCmd _
  split
  · next e => exact hs.joinHold e
  split
  · exact .next hs
  split
  · exact State.Canon.raise ((State.canon_semMark ..).2 hs) ..
  · exact .next (hs.semStep ..)

theorem execSemwait_canon {s : State} (hs : s.Canon) (q : SemQ) (sem : BitVec 6) (n : BitVec 15) : CanonOut (execSemwait q sem n s) := by
  unfold execSemwait
  split
  · exact hs.raise ..
  split
  · exact hs.issueCmd _
  split
  · next e => exact hs.joinHold e
  split
  · exact .next hs
  split
  · exact .next hs
  · next v _ _ =>
    exact .next (((State.canon_ungate _).2 (hs.semStep s.xid sem (.waitStream s.cur) v)).acquire ..)

theorem execSemset_canon {s : State} (hs : s.Canon) (sem : BitVec 6) (n : BitVec 15) : CanonOut (execSemset sem n s) := by
  unfold execSemset
  repeat' split
  all_goals simp [hs]

theorem execSemsigEnginePerform_canon {s : State} (hs : s.Canon) (c : CoreId) (e : Eng) : CanonOut (execSemsigEnginePerform c e s) := by
  unfold execSemsigEnginePerform
  repeat' split
  all_goals simp [hs]

theorem execSemwaitEnginePerform_canon {s : State} (hs : s.Canon) (c : CoreId) (e : Eng) : CanonOut (execSemwaitEnginePerform c e s) := by
  unfold execSemwaitEnginePerform
  repeat' split
  all_goals simp [hs]

theorem execSemwaitBoundExpiry_canon {s : State} (hs : s.Canon) (c : CoreId) (e : Eng) : CanonOut (execSemwaitBoundExpiry c e s) := by
  unfold execSemwaitBoundExpiry
  repeat' split
  all_goals simp [hs]

theorem execBar_canon {s : State} (hs : s.Canon) (level : BarLevel) : CanonOut (execBar level s) := by
  unfold execBar
  extract_lets declared
  split
  · exact hs.raise ..
  split
  · exact hs.raise ..
  split
  · exact .next hs
  split
  · next e => exact hs.joinHold e
  · exact .next hs

@[simp] theorem State.Canon.passBar {s : State} (hs : s.Canon) (level : BarLevel) (id : SlotId) : (s.passBar level id).Canon := by
  unfold State.passBar
  split
  · exact State.Canon.acquire (s := ({ s with cur := id, side := .execute } : State).ungate) hs ..
  · exact hs

theorem execBarrierComplete_canon {s : State} (hs : s.Canon) (x : CtxId) (level : BarLevel) : CanonOut (execBarrierComplete x level s) := by
  unfold execBarrierComplete
  dsimp only
  split
  · exact .next (foldl_keeps (P := State.Canon) (fun _ id h => h.passBar level id) _ hs)
  · exact .next hs

/-! ### Collectives -/

theorem execColl_canon {s : State} (hs : s.Canon) (a : BitVec 5) : CanonOut (execColl a s) := by
  unfold execColl
  dsimp only
  split
  · next e => exact hs.readRec_stop e
  next e =>
  have h1 := hs.readRec_ok e
  split
  · exact h1.raise ..
  split
  · exact h1.raise ..
  · exact h1.issueCmd _

@[simp] theorem State.Canon.onCs {s : State} (hs : s.Canon) (c : CoreId) (id : Nat) (f : EngCmd → EngCmd) : (s.onCs c id f).Canon := by
  simp [State.onCs, hs]

@[simp] theorem State.Canon.collFault {s : State} (hs : s.Canon) (c : CoreId) (h : EngCmd) (f : FaultRec) :
    (s.collFault c h f).Canon := by
  unfold State.collFault
  dsimp only
  split <;> simp [hs]

@[simp] theorem State.Canon.collTrouble {s : State} (hs : s.Canon) (c : CoreId) (h : EngCmd) (f : FaultRec) :
    (s.collTrouble c h f).Canon := by
  unfold State.collTrouble
  split <;> simp [hs]

theorem execCollTransferEmit_canon {s : State} (hs : s.Canon) (c : CoreId) : CanonOut (execCollTransferEmit c s) := by
  unfold execCollTransferEmit
  dsimp only
  repeat' split
  all_goals simp [hs]

@[simp] theorem State.Canon.dropChunk {s : State} (hs : s.Canon) (id : Nat) : (s.dropChunk id).Canon := by
  simp [State.dropChunk, hs]

@[simp] theorem State.Canon.setChunk {s : State} (hs : s.Canon) (c : Chunk) : (s.setChunk c).Canon := by
  simp [State.setChunk, hs]

@[simp] theorem State.Canon.ackChunk {s : State} (hs : s.Canon) (c : Chunk) (f : Option FaultRec) : (s.ackChunk c f).Canon := by
  simp [State.ackChunk, hs]

theorem State.Canon.notify {s : State} (hs : s.Canon) {dev asid nva t} (e : s.notify dev asid nva = .ok t) : t.Canon := by
  have h : EngRes.Canon (s.notify dev asid nva) := by
    unfold State.notify
    split
    · rwa [EngRes.canon_ok]
    · refine EngRes.Canon.bind _ fun ps _ => ?_
      rw [EngRes.canon_ok]
      exact hs.writePieces ..
  rw [e] at h
  exact (EngRes.canon_ok t).1 h

@[simp] theorem State.Canon.recvWrite {s : State} (hs : s.Canon) (c : Chunk) : CanonOut (s.recvWrite c) := by
  unfold State.recvWrite
  split
  · exact .next hs
  · exact .next hs
  · exact .next hs
  next ps _ =>
  have h1 := hs.writePieces c.bytes ps
  dsimp only
  split
  · exact .next h1
  split
  · next e => exact .next (State.Canon.ackChunk (h1.notify e) ..)
  · exact .next hs
  · exact .next h1
  · exact .next h1

@[simp] theorem State.Canon.recvGet {s : State} (hs : s.Canon) (c : Chunk) : CanonOut (s.recvGet c) := by
  unfold State.recvGet
  dsimp only
  split <;> simp [hs]

@[simp] theorem State.Canon.csLand {s : State} (hs : s.Canon) (k : CoreId) (h : EngCmd) (ps : List Piece) (bs : List Byte) :
    (s.csLand k h ps bs).Canon :=
  foldl_keeps (fun _ _ h => h.writeTaken ..) _ (hs.writePieces bs ps)

@[simp] theorem State.Canon.gotReturn {s : State} (hs : s.Canon) (c : Chunk) (k : CoreId) (h : EngCmd) (r : EngRes (List Piece)) :
    CanonOut (s.gotReturn c k h r) := by
  unfold State.gotReturn
  split
  · split
    · exact .next hs
    · exact .next (hs.csLand ..)
  · exact .next hs
  · rw [canonOut_next]
    split
    · exact hs
    split
    · exact hs.collTrouble ..
    · exact (hs.dropChunk _).collFault ..
  · exact .next ((hs.dropChunk _).collFault ..)

@[simp] theorem State.Canon.recvRet {s : State} (hs : s.Canon) (c : Chunk) : CanonOut (s.recvRet c) := by
  unfold State.recvRet
  split
  · rw [canonOut_next]
    split <;> exact hs
  dsimp only
  split
  · exact hs.gotReturn ..
  split
  · exact .next hs
  · exact .next hs
  · exact .next hs
  split
  · exact .next hs
  · exact .next (hs.csLand ..)

theorem execChunkReceive_canon {s : State} (hs : s.Canon) (k : Nat) : CanonOut (execChunkReceive k s) := by
  unfold execChunkReceive
  repeat' split
  all_goals simp [hs]

@[simp] theorem State.Canon.mismatch {s : State} (hs : s.Canon) (dev field slot : Nat) (rs : RedSlot) (c : Chunk) :
    (s.mismatch dev field slot rs c).Canon :=
  foldl_keeps (P := State.Canon) (fun _ _ h => by exact h) _ (State.Canon.ackChunk (hs.onDev dev fun _ hv => by exact hv) c _)

theorem execReductionContribution_canon {s : State} (hs : s.Canon) (k : Nat) : CanonOut (execReductionContribution k s) := by
  unfold execReductionContribution
  split
  · exact .next hs
  next c _ =>
  split
  · exact .next hs
  · exact .next hs
  · exact .next hs
  extract_lets field red key put
  have hput (i : Nat) (rs : RedSlot) : (put i rs).Canon := (hs.onDev c.dev fun _ hv => by exact hv).ackChunk c none
  split
  · rw [canonOut_next]
    split
    · exact hs
    split
    · exact hs.mismatch ..
    · exact hput ..
  · split
    · exact .next hs
    · exact .next (hput ..)

theorem execReductionResultWrite_canon {s : State} (hs : s.Canon) (dev field slot : Nat) :
    CanonOut (execReductionResultWrite dev field slot s) := by
  unfold execReductionResultWrite
  split
  · exact .next hs
  split
  · exact .next hs
  dsimp only
  split
  · exact .next hs
  split
  · exact .next hs
  · exact .next hs
  · exact .next hs
  split
  · exact .next hs
  · exact .next hs
  · exact .next hs
  · next e =>
    refine .next (foldl_keeps (P := State.Canon) (fun s g h => ?_) _ (((hs.writePieces ..).notify e).onDev dev fun _ hv => hv))
    split <;> exact h

theorem execChunkAck_canon {s : State} (hs : s.Canon) (k : Nat) : CanonOut (execChunkAck k s) := by
  unfold execChunkAck
  split
  · exact .next hs
  split
  · rw [canonOut_next]
    split <;> exact hs
  extract_lets s1
  have h1 : s1.Canon := hs
  split
  · exact .next h1
  extract_lets f
  split
  · split
    · exact .next (h1.collFault ..)
    · exact .next (h1.collTrouble ..)
  · split
    · exact .next (h1.collFault ..)
    · exact .next h1
  · exact .next h1



theorem execCollComplete_canon {s : State} (hs : s.Canon) (c : CoreId) : CanonOut (execCollComplete c s) := by
  unfold execCollComplete
  repeat' split
  all_goals simp [hs]

theorem execCycleBoundExpiry_canon {s : State} (hs : s.Canon) (c : CoreId) (e : Eng) : CanonOut (execCycleBoundExpiry c e s) := by
  unfold execCycleBoundExpiry
  repeat' split
  all_goals simp [hs]

@[simp] theorem State.Canon.vop3 {s : State} (hs : s.Canon) (sz : Nat) (pm : BitVec 3) (q : Bool) (vd : BitVec 6) (srcs : List (BitVec 6))
    (useD : Bool) (lat : Nat) (f : Nat → Nat → Nat → Nat) :
    CanonOut (s.vop3 sz pm q vd srcs useD lat f) := by
  simp [State.vop3, hs]

@[simp] theorem State.Canon.varith {s : State} (hs : s.Canon) (ty : VTy) (pm : BitVec 3) (q : Bool) (vd vx vy : BitVec 6) (lat : Nat)
    (fi : Int → Int → Int) (ff : Num → Num → Num) :
    CanonOut (s.varith ty pm q vd vx vy lat fi ff) := by
  simp [State.varith, hs]

theorem execVsll_canon {s : State} (hs : s.Canon) (ty : VTy) (pm : BitVec 3) (q : Bool) (vd vx vy : BitVec 6) :
    CanonOut (execVsll ty pm q vd vx vy s) := by
  unfold execVsll
  exact hs.vop3 ..

theorem execVsrl_canon {s : State} (hs : s.Canon) (ty : VTy) (pm : BitVec 3) (q : Bool) (vd vx vy : BitVec 6) :
    CanonOut (execVsrl ty pm q vd vx vy s) := by
  unfold execVsrl
  exact hs.vop3 ..

theorem execVsra_canon {s : State} (hs : s.Canon) (ty : VTy) (pm : BitVec 3) (q : Bool) (vd vx vy : BitVec 6) :
    CanonOut (execVsra ty pm q vd vx vy s) := by
  unfold execVsra
  exact hs.vop3 ..

theorem execVcmp_canon {s : State} (hs : s.Canon) (cc : CmpOp) (ty : VTy) (pd : BitVec 4) (vx vy : BitVec 6) :
    CanonOut (execVcmp cc ty pd vx vy s) := by
  unfold execVcmp
  exact hs.vecIssue ..

theorem execVsel_canon {s : State} (hs : s.Canon) (pm : BitVec 3) (vd vx vy : BitVec 6) : CanonOut (execVsel pm vd vx vy s) := by
  unfold execVsel
  exact hs.vecIssue ..

@[simp] theorem State.Canon.vmove {s : State} (hs : s.Canon) (vd : BitVec 6) (srcs : List (BitVec 6)) (f : List Vec → Vec) (n : Word) :
    CanonOut (s.vmove vd srcs f n) := by
  simp [State.vmove, hs]

theorem execVslideup_canon {s : State} (hs : s.Canon) (ty : VTy) (vd vx : BitVec 6) (y : BitVec 5) :
    CanonOut (execVslideup ty vd vx y s) := by
  unfold execVslideup
  exact hs.vmove ..

theorem execVslidedn_canon {s : State} (hs : s.Canon) (ty : VTy) (vd vx : BitVec 6) (y : BitVec 5) :
    CanonOut (execVslidedn ty vd vx y s) := by
  unfold execVslidedn
  exact hs.vmove ..

theorem execVbcast_canon {s : State} (hs : s.Canon) (ty : VTy) (vd : BitVec 6) (y : BitVec 5) : CanonOut (execVbcast ty vd y s) := by
  unfold execVbcast
  exact hs.vmove ..

theorem execVext_canon {s : State} (hs : s.Canon) (ty : VTy) (d : BitVec 5) (vx : BitVec 6) (k : BitVec 7) :
    CanonOut (execVext ty d vx k s) := by
  unfold execVext
  exact hs.vecIssue ..

@[simp] theorem State.Canon.predOp {s : State} (hs : s.Canon) (pd px py : BitVec 4) (f : Pred → Pred → Pred) :
    CanonOut (s.predOp pd px py f) := by
  simp [State.predOp, hs]

theorem execPfirst_canon {s : State} (hs : s.Canon) (ty : VTy) (pd : BitVec 4) (y : BitVec 5) : CanonOut (execPfirst ty pd y s) := by
  unfold execPfirst
  exact hs.vecIssue ..

theorem execPcnt_canon {s : State} (hs : s.Canon) (d : BitVec 5) (px : BitVec 4) : CanonOut (execPcnt d px s) := by
  unfold execPcnt
  exact hs.vecIssue ..

theorem execVectorWriteLanding_canon {s : State} (hs : s.Canon) (sl : SlotId) (k : Nat) : CanonOut (execVectorWriteLanding sl k s) := by
  unfold execVectorWriteLanding
  dsimp only
  repeat' split
  all_goals simp [hs]

theorem execBankRetentionEntry_canon {s : State} (hs : s.Canon) (sl : SlotId) (b : BitVec 2) :
    CanonOut (execBankRetentionEntry sl b s) := by
  unfold execBankRetentionEntry
  dsimp only
  repeat' split
  all_goals simp [hs]

theorem execVcvt_canon {s : State} (hs : s.Canon) (ty : VTy) (dirFrom auto : Bool) (rm : RMode) (tab : Bool) (code : BitVec 4) (vd vx : BitVec 6) :
    CanonOut (execVcvt ty dirFrom auto rm tab code vd vx s) := by
  unfold execVcvt
  repeat' split
  all_goals simp [hs]

theorem execTwr_canon {s : State} (hs : s.Canon) (ty : VTy) (p : BitVec 2) (t : BitVec 1) (row : BitVec 5) (vx : BitVec 6) :
    CanonOut (execTwr ty p t row vx s) := by
  unfold execTwr
  exact hs.vecIssue ..

theorem execTrd_canon {s : State} (hs : s.Canon) (ty : VTy) (p : BitVec 2) (vd : BitVec 6) (t : BitVec 1) (col : BitVec 5) :
    CanonOut (execTrd ty p vd t col s) := by
  unfold execTrd
  exact hs.vecIssue ..

@[simp] theorem State.Canon.compress {s : State} (hs : s.Canon) (w : Nat) (p : Par) (vd vm vx : BitVec 6) :
    CanonOut (s.compress w p vd vm vx) := by
  simp [State.compress, hs]

theorem execVcmpr48Lc_canon {s : State} (hs : s.Canon) (n : BitVec 2) (vd vm vx : BitVec 6) : CanonOut (execVcmpr48Lc n vd vm vx s) := by
  unfold execVcmpr48Lc
  dsimp only
  split <;> simp [hs]

@[simp] theorem State.Canon.issueChecked {s : State} (hs : s.Canon) (c : EngCmd) : CanonOut (s.issueChecked c) := by
  unfold State.issueChecked
  dsimp only
  repeat' split
  all_goals simp [hs]

@[simp] theorem State.Canon.issueCopy {s : State} (hs : s.Canon) (k : CmdKind) (a : BitVec 5) : CanonOut (s.issueCopy k a) := by
  unfold State.issueCopy
  dsimp only
  split
  · next e => exact hs.readRec_stop e
  next e =>
  have h1 := hs.readRec_ok e
  split
  · exact h1.raiseRec _
  split
  · split
    · exact h1.raiseRec _
    · exact h1.issueChecked _
  · exact h1.issueChecked _

@[simp] theorem State.Canon.transWrites {s : State} (hs : s.Canon) (c : CoreId) (h : EngCmd) (i off : Nat) (l : List (Nat × List Byte)) :
    (s.transWrites c h i off l).Canon := by
  induction l generalizing s with
  | nil => rwa [State.transWrites, EngRes.canon_ok]
  | cons p r ih => exact EngRes.Canon.bind _ fun ps _ => ih (hs.engWrite ..)

@[simp] theorem State.Canon.transRow {s : State} (hs : s.Canon) (c : CoreId) (h : EngCmd) (i : Nat) : (s.transRow c h i).Canon := by
  unfold State.transRow
  refine EngRes.Canon.bind _ fun bs _ => ?_
  dsimp only
  split
  · split
    · exact hs.transWrites _ _ _ _ _
    · exact EngRes.Canon.bind _ fun bs0 _ => hs.transWrites _ _ _ _ _
  · exact hs.transWrites _ _ _ _ _

@[simp] theorem State.Canon.copyRow {s : State} (hs : s.Canon) (c : CoreId) (h : EngCmd) (i : Nat) : (s.copyRow c h i).Canon := by
  unfold State.copyRow
  split
  · exact hs.transRow _ _ _
  · refine EngRes.Canon.bind _ fun bs _ => EngRes.Canon.bind _ fun ps _ => ?_
    rw [EngRes.canon_ok]
    exact hs.engWrite ..

theorem State.Canon.fetchIdx {s : State} (hs : s.Canon) (c : CoreId) (h : EngCmd) : (s.fetchIdx c h).Canon := by
  refine EngRes.Canon.bind _ fun bs _ => ?_
  dsimp only
  generalize rangesMeet _ _ = m
  cases m
  · exact (EngRes.canon_ok _).2 (hs.onHead ..)
  · exact .bad _

theorem execCeRowMove_canon {s : State} (hs : s.Canon) (c : CoreId) : CanonOut (execCeRowMove c s) := by
  unfold execCeRowMove
  split
  · exact .next hs
  next h _ =>
  extract_lets rows
  have hrows : CanonOut (rows s) := by
    refine hs.rowStep _ _ _ _ fun i => EngRes.Canon.bind _ fun t e => .ok ?_
    exact ((EngRes.canon_ok t).1 (e ▸ hs.copyRow c h i)).rowDone ..
  split
  · split
    · exact .next hs
    · exact hrows
  · exact hrows
  · split
    · exact hrows
    · exact hs.engStep _ _ (hs.fetchIdx _ _)
  · split
    · exact hrows
    · exact hs.engStep _ _ (hs.fetchIdx _ _)
  · exact .next hs

theorem State.Canon.unitStep {s : State} (hs : s.Canon) (c : CoreId) (h : EngCmd) (u : Nat) : (s.unitStep c h u).Canon := by
  unfold State.unitStep
  refine EngRes.Canon.bind _ fun bm _ => ?_
  dsimp only
  split
  · exact .bad _
  · refine EngRes.Canon.bind _ fun bs _ => EngRes.Canon.bind _ fun ps _ => ?_
    rw [EngRes.canon_ok]
    exact ((hs.engWrite ..).rowDone ..).onHead ..

theorem execExpandUnitWrite_canon {s : State} (hs : s.Canon) (c : CoreId) : CanonOut (execExpandUnitWrite c s) := by
  unfold execExpandUnitWrite
  split
  · exact .next hs
  split
  · exact hs.rowStep _ _ _ _ fun u => hs.unitStep _ _ u
  · exact .next hs

end Sys2Proof.Machine
end

section
/-!
PROOF. The canonical form under control flow, frames, groups, control registers, traps, saves and kills.
-/
namespace Sys2Proof.Machine

/-! ### Branches, condition-sync bits, frames and traps -/

@[simp] theorem State.Canon.jump {s : State} (hs : s.Canon) (t : Word) : CanonOut (s.jump t) := by
  simp [State.jump, hs]

@[simp] theorem State.Canon.branch {s : State} (hs : s.Canon) (c : Bool) (off : BitVec 12) : CanonOut (s.branch c off) := by
  unfold State.branch
  split <;> simp [hs]

@[simp] theorem State.Canon.callTo {s : State} (hs : s.Canon) (t : Word) : CanonOut (s.callTo t) := by
  unfold State.callTo
  dsimp only
  split <;> simp [hs]

theorem execJr_canon {s : State} (hs : s.Canon) (a : BitVec 5) (off : BitVec 12) : CanonOut (execJr a off s) := by
  unfold execJr
  dsimp only
  split <;> simp [hs]

theorem execCallr_canon {s : State} (hs : s.Canon) (a : BitVec 5) (off : BitVec 12) : CanonOut (execCallr a off s) := by
  unfold execCallr
  dsimp only
  split <;> simp [hs]

theorem execLoopi_canon {s : State} (hs : s.Canon) (lc : BitVec 2) (b : BitVec 5) (off : BitVec 12) :
    CanonOut (execLoopi lc b off s) := by
  unfold execLoopi
  dsimp only
  split <;> simp [hs]

@[simp] theorem State.Canon.setCb {s : State} (hs : s.Canon) (m : BitVec 8) : (s.setCb m).Canon := by
  simp [State.setCb, hs]

@[simp] theorem State.Canon.clearCb {s : State} (hs : s.Canon) (m : BitVec 8) : (s.clearCb m).Canon := by
  simp [State.clearCb, hs]

@[simp] theorem State.Canon.csetStep {s : State} (hs : s.Canon) {f : State → State} (hf : (f s).Canon) : CanonOut (s.csetStep f) := by
  unfold State.csetStep
  split
  · next e => exact hs.joinHold e
  · exact .next hf

theorem execCset_canon {s : State} (hs : s.Canon) (mask : BitVec 8) : CanonOut (execCset mask s) :=
  hs.csetStep (hs.setCb mask)

theorem execCsetClr_canon {s : State} (hs : s.Canon) (mask : BitVec 8) : CanonOut (execCsetClr mask s) :=
  hs.csetStep (hs.clearCb mask)

theorem execCwait_canon {s : State} (hs : s.Canon) (mask : BitVec 8) : CanonOut (execCwait mask s) := by
  unfold execCwait
  split
  · next e => exact hs.joinHold e
  split
  · exact .next (State.Canon.acquire ((State.canon_ungate s).2 hs) ..)
  · exact .next hs

theorem execFork_canon {s : State} (hs : s.Canon) (off : BitVec 12) : CanonOut (execFork off s) := by
  unfold execFork
  split <;> simp [hs]

theorem execJoin_canon {s : State} (hs : s.Canon) (mask : BitVec 4) (off : BitVec 12) : CanonOut (execJoin mask off s) := by
  unfold execJoin
  split
  · exact hs.raise ..
  extract_lets m wait
  have hwait {s : State} (hs : s.Canon) : CanonOut (wait s) := by
    dsimp only [wait]
    split
    · exact (State.Canon.acquire ((State.canon_ungate s).2 hs) ..).jump _
    · exact .next hs
  split
  · exact hwait hs
  split
  · next e => exact hs.joinHold e
  · exact hwait (hs.setCb _)

@[simp] theorem State.Canon.relcSlot {s : State} (hs : s.Canon) (fb : Word) (h : FrameHdr) (t : Nat) : CanonOut (s.relcSlot fb h t) := by
  unfold State.relcSlot
  split
  · exact .next hs
  · exact hs.raiseRec _
  · exact .next (hs.dropAccess ..)
  · next e =>
    have h1 := hs.addTcnt e
    exact .next h1

@[simp] theorem State.Canon.relcDeferred {s : State} (hs : s.Canon) (fb : Word) : CanonOut (s.relcDeferred fb) := by
  simp [State.relcDeferred, hs]

@[simp] theorem State.Canon.relcPoint {s : State} (hs : s.Canon) (fb : Word) (h : FrameHdr) : CanonOut (s.relcPoint fb h) := by
  unfold State.relcPoint
  dsimp only
  split <;> simp [hs]

theorem execRelc_canon {s : State} (hs : s.Canon) : CanonOut (execRelc s) := by
  unfold execRelc
  dsimp only
  split
  · split
    · exact .next hs
    · exact .next hs
  split
  · exact hs.raise ..
  split
  · split
    · exact hs.raise ..
    · exact hs.raise ..
  split
  · next e => exact hs.joinHold e
  have hread {s1 : State} {bs : List Byte} (e : (match s.st.held with
      | some bs => RecRead.ok s bs
      | none => s.recRead .load (s.st.rs 29) 64) = .ok s1 bs) : s1.Canon := by
    split at e
    · cases e; exact hs
    · exact hs.recRead e
  have hstop {r : RecRead} (hr : ∀ s1 bs, r ≠ .ok s1 bs) : CanonOut (s.recStop r) := by
    cases r with
    | ok s1 bs => exact absurd rfl (hr s1 bs)
    | wait => exact .next hs
    | bad f => exact hs.raiseRec f
  split
  · next s1 bs e =>
    have h0 := hread e
    have h1 : (s1.onSt fun st => { st with held := some bs }).Canon := h0
    split
    · exact hs.raise ..
    split
    · next e => exact h1.joinHold e
    split
    · exact .next h1
    split
    · exact h1.relcSlot ..
    · exact h1.relcPoint _ _
  · next hr => exact hstop hr

@[simp] theorem State.Canon.endTail {s : State} (hs : s.Canon) : CanonOut s.endTail := by
  unfold State.endTail
  dsimp only
  split
  · exact .next hs
  split
  · next e => exact hs.joinHold e
  split
  · exact .next (hs.freeSlot _)
  split
  · exact .next hs
  · exact hs.raiseRec _
  · exact .next (hs.dropAccess ..)
  · next e => exact .next ((hs.addTcnt e).freeSlot _)

@[simp] theorem State.Canon.popTo {s : State} (hs : s.Canon) (e : RasEntry) : CanonOut (s.popTo e) :=
  State.Canon.jump (s := s.onSt _) hs _

@[simp] theorem State.Canon.retDefer {s : State} (hs : s.Canon) (e : RasEntry) (lvl : Nat) : CanonOut (s.retDefer e lvl) := by
  unfold State.retDefer
  split
  · next e => exact hs.joinHold e
  split
  · exact State.Canon.popTo ((State.canon_ungate s).2 hs) e
  split
  · next h =>
    have h1 := hs.recRead h
    exact State.Canon.popTo ((State.canon_onSt ..).2 h1) e
  · next r hr =>
    generalize s.recRead .load _ 1216 = r at hr
    cases r with
    | ok s1 bs => exact absurd rfl (hr s1 bs)
    | wait => exact .next hs
    | bad f => exact hs.raiseRec f

theorem execRet_canon {s : State} (hs : s.Canon) : CanonOut (execRet s) := by
  unfold execRet
  dsimp only
  repeat' split
  all_goals simp [hs]

theorem execTjoin_canon {s : State} (hs : s.Canon) : CanonOut (execTjoin s) := by
  unfold execTjoin
  split
  · next e => exact hs.joinHold e
  split
  · exact .next hs
  · exact .next (State.Canon.acquire ((State.canon_ungate s).2 hs) ..)

theorem execHalt_canon {s : State} (hs : s.Canon) : CanonOut (execHalt s) := by
  unfold execHalt
  split <;> simp [hs]

theorem execTrap_canon {s : State} (hs : s.Canon) (code : BitVec 10) : CanonOut (execTrap code s) := by
  unfold execTrap
  split <;> simp [hs]

@[simp] theorem Ctx.canon_thaw (c : Ctx) : c.thaw.canon ↔ c.canon := Iff.rfl

@[simp] theorem State.Canon.resumeQueues {s : State} (hs : s.Canon) (s0 : State) (x : CtxId) : (s.resumeQueues s0 x).Canon := by
  unfold State.resumeQueues
  extract_lets due go s1
  have h1 : s1.Canon := by
    dsimp only [s1]
    split
    · exact hs.onCtx x fun _ hc => hc
    · exact hs
  exact h1

theorem execEret_canon {s : State} (hs : s.Canon) : CanonOut (execEret s) := by
  unfold execEret
  extract_lets st hdr back
  have hback {s : State} (hs : s.Canon) (fin : Word) (nopre : Bool) : (back s fin nopre).Canon :=
    State.Canon.resumeQueues (s := s.onSt _) hs s s.xid
  split
  · exact hs.raise ..
  split
  · exact hs.waitAccess
  split
  · exact .next hs
  split
  · exact .next (hback hs _ _)
  split
  · exact .next hs
  · next e => exact .next (hback (hs.fetchWord e) _ _)
  · exact .next ((hback hs _ _).deliver ..)

theorem execWaitt_canon {s : State} (hs : s.Canon) (a : BitVec 5) : CanonOut (execWaitt a s) := by
  unfold execWaitt
  dsimp only
  split <;> simp [hs]

theorem execWaittExpiry_canon {s : State} (hs : s.Canon) (sl : SlotId) : CanonOut (execWaittExpiry sl s) := by
  unfold execWaittExpiry
  dsimp only
  repeat' split
  all_goals simp [hs]

theorem execBlockEntry_canon {s0 : State} (hs0 : s0.Canon) (sl : SlotId) : CanonOut (execBlockEntry sl s0) := by
  unfold execBlockEntry
  extract_lets s st x free g
  have hs : s.Canon := hs0
  split
  · exact .next hs0
  split
  · split
    · exact .next (hs.enterGroup x g)
    · exact .next hs0
  split
  · exact .next hs0
  · exact hs.raiseRec _
  · next e =>
    have h1 := hs.readHeader e
    split <;> exact .next h1

theorem execSyncRejoin_canon {s : State} (hs : s.Canon) (x : CtxId) : CanonOut (execSyncRejoin x s) := by
  unfold execSyncRejoin
  dsimp only
  repeat' split
  all_goals simp [hs]

theorem execPassStart_canon {s0 : State} (hs0 : s0.Canon) (sl : SlotId) : CanonOut (execPassStart sl s0) := by
  unfold execPassStart
  dsimp only
  split <;> simp [hs0]

/-! ### Multicast groups -/

@[simp] theorem State.Canon.onGent {s : State} (hs : s.Canon) (d g : Nat) (f : GEntry → GEntry) : (s.onGent d g f).Canon := by
  simp [State.onGent, hs]

@[simp] theorem State.Canon.setHome {s : State} (hs : s.Canon) (h : BitVec 16) (g : Nat) (x : HomeSt) : (s.setHome h g x).Canon := by
  simp [State.setHome, hs]

@[simp] theorem State.Canon.stampItem {s : State} (hs : s.Canon) (h : BitVec 16) (g : Nat) (it : GItem) (receivers members : List Nat) :
    (s.stampItem h g it receivers members).Canon := by
  simp [State.stampItem, hs]

@[simp] theorem State.Canon.stampLatch {s : State} (hs : s.Canon) (id : SlotId) (l : BitVec 2) (v : Vec) :
    (s.stampLatch id l v).Canon := by
  simp [State.stampLatch, hs]

@[simp] theorem State.Canon.stamp {s : State} (hs : s.Canon) (m : HomeMsg) : (s.stamp m).Canon := by
  unfold State.stamp
  dsimp only
  repeat' split
  all_goals simp [hs]

theorem execStgStamp_canon {s : State} (hs : s.Canon) (k : Nat) : CanonOut (execStgStamp k s) := by
  unfold execStgStamp
  dsimp only
  repeat' split
  all_goals simp [hs]

theorem execGroupDelivery_canon {s : State} (hs : s.Canon) (k : Nat) : CanonOut (execGroupDelivery k s) := by
  unfold execGroupDelivery
  split <;> simp [hs]

@[simp] theorem State.Canon.leftGroup {s : State} (hs : s.Canon) (dev g : Nat) : (s.leftGroup dev g).Canon := by
  refine foldl_keeps (fun s p h => ?_) _ hs
  split
  · exact h.deliver ..
  · exact h

@[simp] theorem State.Canon.applyFault {s : State} (hs : s.Canon) (dev g off : Nat) : (s.applyFault dev g off).Canon := by
  simp [State.applyFault, hs]

theorem execGroupApply_canon {s : State} (hs : s.Canon) (dev g : Nat) : CanonOut (execGroupApply dev g s) := by
  unfold execGroupApply
  extract_lets e done
  have hdone {s : State} (hs : s.Canon) (it : GItem) : CanonOut (done s it) := by
    dsimp only [done]
    rw [canonOut_next]
    split
    · exact (hs.onGent ..).leftGroup dev g
    · exact hs.onGent ..
  split
  · exact .next hs
  split
  · exact .next hs
  · split
    · exact .next (hs.applyFault ..)
    split
    · exact hdone (hs.writePieces ..) _
    · exact .next (hs.applyFault ..)
    · exact hdone (hs.logFault ..) _
    · exact .next hs
  · exact hdone hs _

theorem execGroupGapTimeout_canon {s : State} (hs : s.Canon) (dev g : Nat) : CanonOut (execGroupGapTimeout dev g s) := by
  unfold execGroupGapTimeout
  dsimp only
  repeat' split
  all_goals simp [hs]

@[simp] theorem State.Canon.gtDone {s : State} (hs : s.Canon) (dev : Nat) : (s.gtDone dev).Canon := by
  simp [State.gtDone, hs]

@[simp] theorem State.Canon.gtDrop {s : State} (hs : s.Canon) (dev : Nat) (r : GtReq) (field : Nat) : (s.gtDrop dev r field).Canon := by
  unfold State.gtDrop
  extract_lets s1
  have h1 : s1.Canon := (hs.gtDone dev).logFault ..
  split
  · exact h1.killLaunch ..
  · exact h1

theorem execGroupLoad_canon {s : State} (hs : s.Canon) (dev : Nat) : CanonOut (execGroupLoad dev s) := by
  unfold execGroupLoad
  split
  · exact .next hs
  extract_lets g
  split
  · exact .next hs
  · exact .next (hs.gtDrop ..)
  extract_lets e s1 hs'
  have h1 : s1.Canon := (hs.onGent ..).gtDone dev
  split
  · exact .next h1
  split
  · exact .next h1
  split
  · exact .next (hs.gtDrop ..)
  · exact .next h1
  · exact .next h1

theorem execGroupJoin_canon {s : State} (hs : s.Canon) (dev : Nat) : CanonOut (execGroupJoin dev s) := by
  unfold execGroupJoin
  dsimp only
  repeat' split
  all_goals simp [hs]

theorem execGroupLeave_canon {s : State} (hs : s.Canon) (dev : Nat) : CanonOut (execGroupLeave dev s) := by
  unfold execGroupLeave
  dsimp only
  repeat' split
  all_goals simp [hs]

theorem execGroupResend_canon {s : State} (hs : s.Canon) (dev : Nat) : CanonOut (execGroupResend dev s) := by
  unfold execGroupResend
  dsimp only
  repeat' split
  all_goals simp [hs]

theorem execCsrr_canon {s : State} (hs : s.Canon) (d : BitVec 5) (n : BitVec 10) : CanonOut (execCsrr d n s) := by
  unfold execCsrr
  repeat' split
  all_goals simp [hs]

/-! ### Control registers -/

/-- A write of a control register reaches the stream, or a register of its context or of its device. -/
@[simp] theorem State.Canon.csrSet {s : State} (hs : s.Canon) (n : Nat) (v : Word) : (s.csrSet n v).Canon := by
  unfold State.csrSet
  extract_lets w
  repeat' apply State.Canon.ite
  all_goals simp [hs]

@[simp] theorem State.Canon.gtWrite {s : State} (hs : s.Canon) (v : Word) : CanonOut (s.gtWrite v) := by
  unfold State.gtWrite
  dsimp only
  repeat' split
  all_goals simp [hs]

@[simp] theorem State.Canon.ask {s : State} (hs : s.Canon) (r : CsrReq) : CanonOut (s.ask r) := by
  simp [State.ask, hs]

@[simp] theorem State.Canon.kttWrite {s : State} (hs : s.Canon) (v : Word) : CanonOut (s.kttWrite v) := by
  unfold State.kttWrite
  dsimp only
  repeat' split
  all_goals simp [hs]

@[simp] theorem State.Canon.ctxWrite {s : State} (hs : s.Canon) (v : Word) : CanonOut (s.ctxWrite v) := by
  unfold State.ctxWrite
  dsimp only
  repeat' split
  all_goals simp [hs]

@[simp] theorem State.Canon.csrWrite {s : State} (hs : s.Canon) (n : Nat) (clr set : Word) (part : Bool) :
    CanonOut (s.csrWrite n clr set part) := by
  unfold State.csrWrite
  dsimp only
  repeat' split
  all_goals simp [hs]

@[simp] theorem State.Canon.answered {s : State} (hs : s.Canon) : (s.answered).Canon := by
  simp [State.answered, hs]

theorem execDetLevelChange_canon {s0 : State} (hs0 : s0.Canon) (sl : SlotId) : CanonOut (execDetLevelChange sl s0) := by
  unfold execDetLevelChange
  extract_lets s
  have hs : s.Canon := hs0
  split
  · split
    · exact .next hs0
    extract_lets v
    split
    · exact State.Canon.raise (s := s.onSt _) hs ..
    · have h1 : (s.onCx fun c => { c with det := v }).Canon := hs.onCx fun _ hc => hc
      exact .next h1
  · exact .next hs0

@[simp] theorem Ctx.canon_fromImage (c : Ctx) (bs : List Byte) : (c.fromImage bs).canon ↔ c.canon := Iff.rfl

/-- The buffers of an image start empty, whatever the context held: its canonical form needs no hypothesis. -/
theorem Ctx.canon_withRegions (c : Ctx) (rs : List (Buf × Nat × List Byte)) : (c.withRegions rs).canon :=
  foldl_keeps (fun _ r h => h.setBuf r.1 (mwrite_wf (h.buf r.1) _ r.2.2)) _ Ctx.canon_new

@[simp] theorem State.Canon.unpend {s : State} (hs : s.Canon) (id : SlotId) (f : FaultRec) : (s.unpend id f).Canon := by
  simp [State.unpend, hs]

@[simp] theorem State.Canon.takeTrap {s : State} (hs : s.Canon) (id : SlotId) (f : FaultRec) : (s.takeTrap id f).Canon := by
  simp [State.takeTrap, hs]

theorem execTrapEntry_canon {s0 : State} (hs0 : s0.Canon) (sl : SlotId) : CanonOut (execTrapEntry sl s0) := by
  unfold execTrapEntry
  dsimp only
  repeat' split
  all_goals simp [hs0]

@[simp] theorem Device.canon.writeLog {d : Device} (hd : d.canon) (r : LogRec) : (d.writeLog r).canon := by
  unfold Device.writeLog
  extract_lets n src d1
  have h1 : d1.canon := by
    dsimp only [d1]
    split
    · exact hd
    · exact (hd.pwrite d.logAt.1 r.bytes).same rfl rfl
  exact h1

theorem execFaultLogRecord_canon {s : State} (hs : s.Canon) (dev : Nat) : CanonOut (execFaultLogRecord dev s) := by
  unfold execFaultLogRecord
  extract_lets d
  split
  · exact .next hs
  · refine hs.cpAccess dev _ (.next (hs.onDev dev fun d hd => ?_))
    dsimp only
    split
    · apply Device.canon.writeLog
      exact hd
    · exact hd

@[simp] theorem State.Canon.hwSave {s : State} (hs : s.Canon) (id : SlotId) : (s.hwSave id).Canon := by
  unfold State.hwSave
  dsimp only
  split <;> simp [hs]

theorem execPreemptDiversion_canon {s0 : State} (hs0 : s0.Canon) (sl : SlotId) : CanonOut (execPreemptDiversion sl s0) := by
  unfold execPreemptDiversion
  extract_lets s st
  have hs : s.Canon := hs0
  split
  · exact .next hs0
  split
  · exact .next hs0
  split
  · split
    · exact hs.waitAccess
    · exact .next hs0
  split
  · exact .next hs
  · exact .next (hs.hwSave sl)

theorem execPsave_canon {s : State} (hs : s.Canon) (omitv : BitVec 4) (omits : Bool) : CanonOut (execPsave omitv omits s) := by
  unfold execPsave
  dsimp only
  repeat' split
  all_goals simp [hs]

theorem execPrest_canon {s : State} (hs : s.Canon) : CanonOut (execPrest s) := by
  unfold execPrest
  dsimp only
  repeat' split
  all_goals simp [hs]

@[simp] theorem State.canon_dropRuns (s : State) (x : CtxId) : (s.dropRuns x).Canon ↔ s.Canon := Iff.rfl

@[simp] theorem State.Canon.freeCtx {s : State} (hs : s.Canon) (x : CtxId) : (s.freeCtx x).Canon := by
  have h1 : ((s.dropRuns x).giveTokens x).Canon := ((State.canon_dropRuns s x).2 hs).giveTokens x
  have h2 := foldl_keeps (fun _ id h => h.freeSlot id) (((s.dropRuns x).giveTokens x).slotsOfCtx x) h1
  exact State.Canon.setCtx (s := State.onCore _ x.core _) h2 x Ctx.canon_new

/-- The save image's bookkeeping is no memory. -/
theorem Device.canon_images {d : Device} (hd : d.canon) (i : FMap Nat ImageSlot) : Device.canon { d with images := i } := hd

theorem execContextSave_canon {s : State} (hs : s.Canon) (x : CtxId) : CanonOut (execContextSave x s) := by
  unfold execContextSave
  dsimp only
  split
  · split
    · exact .next hs
    · refine hs.cpAccess _ _ (.next ?_)
      apply State.Canon.onLaunch
      apply State.Canon.freeCtx
      exact hs.onDev _ fun d hd => Device.canon_images (hd.pwrite ..) _
  · exact .next hs

theorem execContextSkip_canon {s0 : State} (hs0 : s0.Canon) (sl : SlotId) : CanonOut (execContextSkip sl s0) := by
  unfold execContextSkip
  extract_lets s
  have hs : s.Canon := hs0
  split
  · extract_lets q mine
    split
    · exact .next hs0
    split
    · exact .next (hs.popHead ..)
    · exact .next hs
  · exact .next hs0

theorem execContextKill_canon {s0 : State} (hs0 : s0.Canon) (sl : SlotId) : CanonOut (execContextKill sl s0) := by
  unfold execContextKill
  dsimp only
  repeat' split
  all_goals simp [hs0]

end Sys2Proof.Machine
end

section
/-!
PROOF. The canonical form under queues, launches, restores, slots, the watchdog, KTT entries, fields and resets.
-/
namespace Sys2Proof.Machine

/-! ### Queues, packets and counters -/

@[simp] theorem Device.canon.putArm {d : Device} (hd : d.canon) (c a : Nat) (r : Arm) : (d.putArm c a r).canon :=
  ((hd.pput ..).pput ..).pput ..

@[simp] theorem Device.canon.putWord1 {d : Device} (hd : d.canon) (c : Nat) (heldv under : Bool) (n : Nat) :
    (d.putWord1 c heldv under n).canon := by
  simp [Device.putWord1, hd]

@[simp] theorem Device.canon.fireArm {d : Device} (hd : d.canon) (r : Arm) : (d.fireArm r).canon := by
  unfold Device.fireArm
  split
  · exact hd
  split
  · exact hd
  · exact hd

@[simp] theorem Device.canon.setPend {d : Device} (hd : d.canon) (q : Nat) : (d.setPend q).canon := by
  unfold Device.setPend
  split
  · exact hd
  · exact hd

@[simp] theorem Device.canon.parsed {d : Device} (hd : d.canon) (q idx : Nat) : (d.parsed q idx).canon := by
  unfold Device.parsed
  split <;> simp [hd]

@[simp] theorem Device.canon_pushReady (d : Device) (q idx : Nat) : (d.pushReady q idx).canon ↔ d.canon := Iff.rfl

@[simp] theorem Device.canon.releaseHeld {d : Device} (hd : d.canon) (q idx : Nat) : (d.releaseHeld q idx).canon := by
  unfold Device.releaseHeld
  split
  · next p _ =>
    extract_lets d1 d2
    have h1 : d1.canon := hd
    have h2 : d2.canon := by
      dsimp only [d2]
      split
      · exact h1
      · exact h1.parsed q idx
    split
    · exact h2.setPend q
    · exact h2
  · exact hd

@[simp] theorem Device.canon.decrement {d : Device} (hd : d.canon) (c n : Nat) : (d.decrement c n).canon := by
  unfold Device.decrement
  split
  · exact hd
  extract_lets old new w1 arms hits fired left free d1 d2 d3
  have h1 : d1.canon := (hd.pput c 4 new).putWord1 ..
  have h2 : d2.canon := foldl_keeps (fun _ p h => h.putArm c p.2 p.1) _ h1
  have h3 : d3.canon := foldl_keeps (fun _ r h => h.fireArm r) _ h2
  split
  · exact h3.releaseHeld ..
  · exact h3

@[simp] theorem Device.canon.finishPkt {d : Device} (hd : d.canon) (q idx : Nat) : (d.finishPkt q idx).canon := by
  unfold Device.finishPkt
  split
  · exact hd
  · extract_lets w sg d1
    have h1 : d1.canon := hd
    split
    · exact h1
    · exact h1

/-- A signal, or an arm that has fired, has left its list: a device's bookkeeping is no memory. -/
theorem Device.canon_signals {d : Device} (hd : d.canon) (l : List Signal) : Device.canon { d with signals := l } := hd
theorem Device.canon_arms {d : Device} (hd : d.canon) (l : List Nat) : Device.canon { d with arms := l } := hd

theorem execSigenDecrement_canon {s : State} (hs : s.Canon) (dev k : Nat) : CanonOut (execSigenDecrement dev k s) := by
  unfold execSigenDecrement
  extract_lets d
  split
  · exact .next hs
  next g _ =>
  extract_lets done
  have hdone {act : Device → Device} (ha : ∀ d, d.canon → (act d).canon) (s : State) (hs : s.Canon) : (done act s).Canon := by
    refine hs.onDev dev fun d hd => ?_
    dsimp only
    have h1 := ha _ (Device.canon_signals hd (d.signals.eraseIdx k))
    split
    · exact h1
    · exact h1
  have hid := hdone (act := id) fun _ h => h
  split
  · exact .next (hid s hs)
  · exact hs.cpAccessOr _ _ hid (.next (hdone (fun _ h => h.decrement ..) s hs))

theorem execArmTargetDecrement_canon {s : State} (hs : s.Canon) (dev : Nat) : CanonOut (execArmTargetDecrement dev s) := by
  unfold execArmTargetDecrement
  extract_lets d
  split
  · exact .next hs
  next c r _ =>
  extract_lets done
  have hdone {act : Device → Device} (ha : ∀ d, d.canon → (act d).canon) (s : State) (hs : s.Canon) : (done act s).Canon :=
    hs.onDev dev fun d hd => ha _ (Device.canon_arms hd r)
  exact hs.cpAccessOr _ _ (hdone (act := id) fun _ h => h) (.next (hdone (fun _ h => h.decrement ..) s hs))

@[simp] theorem Device.canon.setLevel {d : Device} (hd : d.canon) (q lvl : Nat) : (d.setLevel q lvl).canon := by
  simp [Device.setLevel, hd]

theorem Device.canon.arm {d d1 : Device} (hd : d.canon) {w : BitVec 512} (e : d.arm w = some d1) : d1.canon := by
  unfold Device.arm at e
  extract_lets c r n w1 at e
  split at e
  · cases e
  split at e
  · cases e; exact hd.fireArm r
  split at e
  · cases e
  · cases e; exact (hd.putArm ..).putWord1 ..

@[simp] theorem Device.canon.refusePkt {d : Device} (hd : d.canon) (q idx err : Nat) : (d.refusePkt q idx err).canon := by
  apply Device.canon.stopQueue
  exact hd

@[simp] theorem Device.canon.perform {d : Device} (hd : d.canon) (q idx : Nat) (w : BitVec 512) : (d.perform q idx w).canon := by
  unfold Device.perform
  split
  · exact (hd.setLevel ..).finishPkt ..
  · split
    · next e => exact ((hd.arm e).parsed ..).finishPkt ..
    · exact hd.refusePkt ..
  · exact (hd.pput ..).finishPkt ..
  · exact hd.finishPkt ..

@[simp] theorem Device.canon.dropPkt {d : Device} (hd : d.canon) (q idx : Nat) (w : BitVec 512) : (d.dropPkt q idx w).canon := by
  unfold Device.dropPkt
  split <;> simp [hd]

@[simp] theorem Device.canon.hold {d : Device} (hd : d.canon) (q idx : Nat) (w : BitVec 512) : (d.hold q idx w).canon :=
  ((hd.putWord1 ..).pput ..).pput ..

@[simp] theorem Device.canon.takePkt {d : Device} (hd : d.canon) (q idx : Nat) (w : BitVec 512) (lid : Option Nat) :
    (d.takePkt q idx w lid).canon := by
  unfold Device.takePkt
  split
  · exact hd.stopQueue ..
  · apply Device.canon.hold
    exact hd
  · split
    · exact hd
    · apply Device.canon.parsed
      exact hd

@[simp] theorem Device.canon.parseSimple {d : Device} (hd : d.canon) (slot : Nat) (mine : Nat → Bool) :
    (d.parseSimple slot mine).canon := by
  unfold Device.parseSimple
  dsimp only
  repeat' split
  all_goals simp [hd]

@[simp] theorem State.Canon.parse {s : State} (hs : s.Canon) (dev slot : Nat) (mine : Nat → Bool) : CanonOut (s.parse dev slot mine) :=
  hs.cpAccess dev _ (.next (hs.onDev dev fun _ hd => hd.parseSimple slot mine))

/-! ### Launches, and the WGs that they dispatch and retire -/

@[simp] theorem State.canon_dropCode (s : State) (dev : Nat) (l : Launch) : (s.dropCode dev l).Canon ↔ s.Canon := Iff.rfl

/-- The KTTs that a device holds are no memory. -/
theorem Device.canon_ktts {d : Device} (hd : d.canon) (k : FMap Nat Ktt) (p : List Pkt) (r : List (Nat × Nat)) :
    Device.canon { d with ktts := k, pkts := p, ready := r } := hd

@[simp] theorem State.Canon.admitNew {s : State} (hs : s.Canon) (dev lid : Nat) (l : Launch) : (s.admitNew dev lid l).Canon := by
  apply State.Canon.onLaunch
  rw [State.canon_dropCode]
  exact hs.onDev dev fun _ hd => Device.canon_ktts hd ..

@[simp] theorem State.Canon.startLaunch {s : State} (hs : s.Canon) (dev lid : Nat) : (s.startLaunch dev lid).Canon := by
  unfold State.startLaunch
  dsimp only
  repeat' split
  all_goals simp [hs]

/-- The launches of a device are no memory. -/
theorem Device.canon_launches {d : Device} (hd : d.canon) (l : FMap Nat Launch) : Device.canon { d with launches := l } := hd

theorem execPacketLaunch_canon {s : State} (hs : s.Canon) (dev slot : Nat) : CanonOut (execPacketLaunch dev slot s) := by
  unfold execPacketLaunch
  extract_lets d
  apply hs.cpAccess
  split
  · exact .next hs
  next q idx w _ =>
  split
  · exact .next hs
  split
  · extract_lets cover asid s1
    have h1 : s1.Canon := State.Canon.ite (hs.logFault ..) hs
    exact .next (h1.onDev dev fun _ hd => hd.stopQueue ..)
  · extract_lets lid l s1 s2
    have hn : State.Canon { s with nextId := lid + 1 } := hs
    have h1 : s1.Canon := hn.onDev dev fun _ hd => hd.takePkt ..
    split
    · have h2 : s2.Canon := h1.onDev dev fun _ hd => Device.canon_launches hd _
      exact .next (State.Canon.ite (h2.startLaunch ..) h2)
    · exact .next h1

/-- The ready list is no memory. -/
theorem Device.canon_ready {d : Device} (hd : d.canon) (r : List (Nat × Nat)) : Device.canon { d with ready := r } := hd

theorem execReadyPacketStart_canon {s : State} (hs : s.Canon) (dev k : Nat) : CanonOut (execReadyPacketStart dev k s) := by
  unfold execReadyPacketStart
  split
  · exact .next (hs.onDev dev fun _ hd => hd.setPend _)
  split
  · exact .next hs
  extract_lets d
  split
  · exact .next hs
  split
  · exact .next hs
  split
  · exact .next (hs.startLaunch ..)
  · refine hs.cpAccessOr dev _ (fun s hs => hs.onDev dev fun d hd => ?_) (.next (hs.onDev dev fun d hd => ?_))
    · exact (Device.canon_ready hd _).dropPkt ..
    · exact (Device.canon_ready hd _).perform ..

/-- The buffers of a WG are clear at its dispatch (R15). -/
theorem Launch.newCtx_canon (l : Launch) (lid wg : Nat) (p : Bool) : Ctx.canon { l.newCtx lid wg with preempt := p } := Ctx.canon_new

@[simp] theorem State.canon_shield (s : State) (x : CtxId) : (s.shield x).Canon ↔ s.Canon := Iff.rfl

@[simp] theorem State.Canon.startWg {s : State} (hs : s.Canon) (lid wg : Nat) (l : Launch) (x : CtxId) : (s.startWg lid wg l x).Canon := by
  have h1 := State.Canon.setCtx ((State.canon_shield s x).2 hs) x (Launch.newCtx_canon l lid wg (s.stopping l))
  apply State.Canon.onLaunch
  exact foldl_keeps (fun _ _ h => (State.canon_setStrm ..).2 h) _ h1

theorem execWgDispatch_canon {s : State} (hs : s.Canon) (dev lid : Nat) : CanonOut (execWgDispatch dev lid s) := by
  unfold execWgDispatch
  dsimp only
  repeat' split
  all_goals simp [hs]

@[simp] theorem State.Canon.completeLaunch {s : State} (hs : s.Canon) (dev lid : Nat) : (s.completeLaunch dev lid).Canon := by
  unfold State.completeLaunch
  split
  · exact hs
  split
  · exact (hs.onLaunch ..).onDev dev fun _ hd => (hd.finishPkt ..).releaseKtt _
  · exact hs

theorem execWgRetire_canon {s : State} (hs : s.Canon) (x : CtxId) : CanonOut (execWgRetire x s) := by
  unfold execWgRetire
  split
  · exact .next hs
  split
  · exact .next hs
  · exact .next (((hs.freeCtx x).onLaunch ..).completeLaunch ..)

/-! ### Restoring a saved WG -/

@[simp] theorem State.Canon.restoreCmds {s : State} (hs : s.Canon) (i : ImageSlot) (y : CtxId) (place : Nat → Nat → Nat) :
    (s.restoreCmds i y place).Canon :=
  foldl_keeps (P := State.Canon) (fun _ _ h => (State.canon_onCore ..).2 h) _ hs

/-- A context with the buffers of another. -/
theorem Ctx.canon_restored {c : Ctx} (hc : c.canon) (l : Option (Nat × Nat)) (p : FMap Nat PlanSlot) (r : Bool) :
    Ctx.canon { c with live := l, plans := p, preempt := r } := hc

@[simp] theorem State.Canon.restore {s : State} (hs : s.Canon) (dev slot lid : Nat) (i : ImageSlot) (img : Image) (y : CtxId) :
    (s.restore dev slot lid i img y).Canon := by
  unfold State.restore
  extract_lets place resumeAsked c plans s1 s2 s3 k now
  have h1 : s1.Canon := State.Canon.setCtx ((State.canon_shield s y).2 hs) y (Ctx.canon_restored (Ctx.canon_withRegions ..) ..)
  have h2 : s2.Canon := foldl_keeps (fun _ _ h => (State.canon_setStrm ..).2 h) _ h1
  have h3 : s3.Canon := h2.restoreCmds i y place
  exact (h3.onDev dev fun _ hd => Device.canon_images hd _).onLaunch ..

theorem execContextRestore_canon {s : State} (hs : s.Canon) (dev slot : Nat) (x : CtxId) :
    CanonOut (execContextRestore dev slot x s) := by
  unfold execContextRestore
  split
  · exact .next hs
  split
  · exact .next hs
  split
  · exact .next hs
  extract_lets at_
  apply hs.cpAccess
  split
  · exact .next (hs.restore ..)
  · exact .next (((hs.logFault ..).killLaunch ..).onDev dev fun _ hd => Device.canon_images hd _)

/-! ### Doorbells, slots, host writes and the watchdog -/

@[simp] theorem Device.canon.ring {d : Device} (hd : d.canon) (q : Nat) (data : Word) : (d.ring q data).canon := by
  unfold Device.ring
  split
  · exact hd.stopQueue ..
  extract_lets d1 d2
  have h1 : d1.canon := hd.setQword ..
  have h2 : d2.canon := by
    dsimp only [d2]
    split
    · exact (h1.setQword ..).setQstate ..
    · exact h1
  split
  · exact h2.setPend q
  · exact h2

@[simp] theorem State.Canon.doorbellTo {s : State} (hs : s.Canon) (dev q : Nat) (data : Word) : CanonOut (s.doorbellTo dev q data) := by
  unfold State.doorbellTo
  split
  · exact .next hs
  · exact hs.cpAccess dev _ (.next (hs.onDev dev fun _ hd => hd.ring q data))

theorem execDoorbell_canon {s : State} (hs : s.Canon) (dev q : Nat) (data : Word) : CanonOut (execDoorbell dev q data s) := by
  unfold execDoorbell
  split <;> simp [hs]

theorem execDoorbellRestart_canon {s : State} (hs : s.Canon) (dev q : Nat) (data : Word) :
    CanonOut (execDoorbellRestart dev q data s) := by
  unfold execDoorbellRestart
  split <;> simp [hs]

/-- The hardware slots are no memory. -/
theorem Device.canon_slots {d : Device} (hd : d.canon) (m : FMap Nat QSlot) (p : List Nat) :
    Device.canon { d with slots := m, pendq := p } := hd

theorem execSlotMap_canon {s : State} (hs : s.Canon) (dev slot qid prio : Nat) : CanonOut (execSlotMap dev slot qid prio s) := by
  unfold execSlotMap
  extract_lets d elsewhere
  split
  · exact .next hs
  split
  · exact .next (hs.onDev dev fun d hd => Device.canon_slots hd _ d.pendq)
  · refine hs.cpAccess dev _ (.next (hs.onDev dev fun d hd => ?_))
    have h1 := Device.canon_slots hd (fset d.slots slot ⟨qid, BitVec.ofNat 4 prio, true⟩) (d.pendq.filter fun q => q != qid)
    dsimp only
    split
    · exact h1
    · exact h1.stopQueue ..

theorem execSlotUnmap_canon {s : State} (hs : s.Canon) (dev : Nat) (w : SlotWrite) : CanonOut (execSlotUnmap dev w s) := by
  unfold execSlotUnmap
  split <;> simp [hs]

@[simp] theorem State.Canon.askStop {s : State} (hs : s.Canon) (l : Launch) : (s.askStop l).Canon :=
  foldl_keeps (fun _ x h => h.onCtx x fun _ hc => by exact hc) _ hs

theorem execSlotPreempt_canon {s : State} (hs : s.Canon) (dev slot : Nat) : CanonOut (execSlotPreempt dev slot s) := by
  unfold execSlotPreempt
  extract_lets d k
  split
  · exact .next hs
  · exact .next (foldl_keeps (fun _ p h => h.askStop p.2) _ hs)

theorem execFwPolicyTick_canon {s : State} (hs : s.Canon) (dev : Nat) : CanonOut (execFwPolicyTick dev s) := by
  unfold execFwPolicyTick
  dsimp only
  split <;> simp [hs]

theorem execHostMemoryWrite_canon {s : State} (hs : s.Canon) (dev pa : Nat) (bytes : List Byte) :
    CanonOut (execHostMemoryWrite dev pa bytes s) := by
  unfold execHostMemoryWrite
  split <;> simp [hs]

@[simp] theorem Device.canon.regWrite {d : Device} (hd : d.canon) (r : PlainReg) (data : Word) : (d.regWrite r data).canon := by
  unfold Device.regWrite
  split
  case h_7 =>
    split
    · exact hd
    · exact hd
  all_goals exact ⟨hd.1, hd.2⟩

theorem execRegisterWrite_canon {s : State} (hs : s.Canon) (dev : Nat) (r : PlainReg) (data : Word) :
    CanonOut (execRegisterWrite dev r data s) := .next (hs.onDev dev fun _ hd => hd.regWrite r data)

@[simp] theorem State.Canon.wdog {s : State} (hs : s.Canon) (dev : Nat) : (s.wdog dev).Canon := by
  simp [State.wdog, hs]

theorem execWatchdogT1_canon {s : State} (hs : s.Canon) (dev lid : Nat) : CanonOut (execWatchdogT1 dev lid s) := by
  unfold execWatchdogT1
  split
  · exact .next hs
  extract_lets d ws
  split
  · exact .next hs
  · exact .next (((hs.askStop _).onLaunch ..).wdog dev)

theorem execWatchdogT2_canon {s : State} (hs : s.Canon) (dev lid : Nat) : CanonOut (execWatchdogT2 dev lid s) := by
  unfold execWatchdogT2
  split
  · exact .next hs
  extract_lets d
  split
  · exact .next hs
  · exact .next (((hs.killLaunch ..).onLaunch ..).wdog dev)

@[simp] theorem State.Canon.fence {s : State} (hs : s.Canon) (asid : BitVec 14) (c : CoreId) : (s.fence asid c).Canon := by
  simp [State.fence, hs]

theorem execWatchdogT3_canon {s : State} (hs : s.Canon) (dev lid : Nat) : CanonOut (execWatchdogT3 dev lid s) := by
  unfold execWatchdogT3
  split
  · exact .next hs
  next l _ =>
  extract_lets d cs
  split
  · exact .next hs
  · have h1 := foldl_keeps (P := State.Canon) (fun _ c h => h.fence l.asid c) cs hs
    refine .next (State.Canon.wdog ?_ dev)
    exact h1.onLaunch ..

/-! ### KTT entries and migration -/

@[simp] theorem State.Canon.onKtt {s : State} (hs : s.Canon) (dev asid : Nat) (f : Ktt → Ktt) : (s.onKtt dev asid f).Canon := by
  refine hs.onDev dev fun d hd => ?_
  split
  · exact hd
  · exact hd

@[simp] theorem State.Canon.kttStep {s : State} (hs : s.Canon) (act k : Nat) (f : Ktt → Ktt) : CanonOut (s.kttStep act k f) := by
  unfold State.kttStep
  repeat' split
  all_goals simp [hs]

theorem execKttSetAbsent_canon {s0 : State} (hs0 : s0.Canon) (sl : SlotId) : CanonOut (execKttSetAbsent sl s0) := by
  unfold execKttSetAbsent
  dsimp only
  repeat' split
  all_goals simp [hs0]

theorem execKttSetPresent_canon {s0 : State} (hs0 : s0.Canon) (sl : SlotId) : CanonOut (execKttSetPresent sl s0) := by
  unfold execKttSetPresent
  dsimp only
  repeat' split
  all_goals simp [hs0]

theorem execKttMigrate_canon {s0 : State} (hs0 : s0.Canon) (sl : SlotId) : CanonOut (execKttMigrate sl s0) := by
  unfold execKttMigrate
  dsimp only
  repeat' split
  all_goals simp [hs0]

@[simp] theorem State.canon_dropLines (s : State) (dev a b : Nat) : (s.dropLines dev a b).Canon ↔ s.Canon := Iff.rfl

@[simp] theorem State.Canon.stopMigration {s : State} (hs : s.Canon) (dev asid : Nat) (f : FaultRec) :
    (s.stopMigration dev asid f).Canon :=
  foldl_keeps (fun _ p h => h.killLaunch dev p.1) _ (hs.logFault ..)

theorem execMigrateLineCopy_canon {s : State} (hs : s.Canon) (dev asid : Nat) : CanonOut (execMigrateLineCopy dev asid s) := by
  unfold execMigrateLineCopy
  extract_lets t
  split
  · exact .next hs
  split
  · exact .next hs
  extract_lets a b
  split
  · exact .next (hs.stopMigration ..)
  split
  · exact .next (hs.stopMigration ..)
  · exact .next (hs.stopMigration ..)
  · exact .next hs
  · exact .next hs
  · exact .next (State.Canon.onKtt ((State.canon_dropLines ..).2 (hs.writePlace ..)) ..)

theorem execTokenCountUpdate_canon {s : State} (hs : s.Canon) (dev field : Nat) : CanonOut (execTokenCountUpdate dev field s) := by
  unfold execTokenCountUpdate
  dsimp only
  split <;> simp [hs]

theorem execIlimSet_canon {s : State} (hs : s.Canon) (dev field amps : Nat) : CanonOut (execIlimSet dev field amps s) := by
  unfold execIlimSet
  split <;> simp [hs]

/-! ### Fields and resets -/

@[simp] theorem Device.canon_attest (d : Device) (es : List (List Byte)) : (d.attest es).canon ↔ d.canon := Iff.rfl

@[simp] theorem Device.canon_attestImage (d : Device) (e : List Byte) : (d.attestImage e).canon ↔ d.canon := Iff.rfl

@[simp] theorem State.Canon.refence {s : State} (hs : s.Canon) (dev field : Nat) : (s.refence dev field).Canon :=
  foldl_keeps (P := State.Canon) (fun _ _ h => (State.canon_onCore ..).2 h) _ hs

@[simp] theorem State.Canon.zeroGranule {s : State} (hs : s.Canon) (dev field : Nat) (row : Bool) (a : Nat) :
    (s.zeroGranule dev field row a).Canon := by
  apply State.Canon.logFault
  exact hs.ite (hs.onDev dev fun _ hd => ⟨mwrite_wf hd.1 a _, hd.2⟩)

theorem execFieldBringupStep_canon {s : State} (hs : s.Canon) (dev field : Nat) (failed lost : List Nat) :
    CanonOut (execFieldBringupStep dev field failed lost s) := by
  unfold execFieldBringupStep
  extract_lets d f es s1 s2
  have h1 : s1.Canon := hs.onDev dev fun d hd => (Device.canon_attest d es).2 hd
  have h2 : s2.Canon := State.Canon.ite (h1.refence dev field) h1
  split
  · exact .next hs
  split
  · split
    · exact .next (hs.onDev dev fun _ hd => by exact hd)
    · exact .next hs
  split
  · exact .next hs
  · exact .next (foldl_keeps (fun _ a h => h.zeroGranule dev field _ a) _ h2)

theorem execBringupStepTimeout_canon {s : State} (hs : s.Canon) (dev field : Nat) : CanonOut (execBringupStepTimeout dev field s) := by
  unfold execBringupStepTimeout
  dsimp only
  split <;> simp [hs]

@[simp] theorem State.Canon.killField {s : State} (hs : s.Canon) (dev f : Nat) : (s.killField dev f).Canon :=
  foldl_keeps (fun _ l h => h.killLaunch dev l) _ hs

/-- What device memory keeps over a reset is written anew, byte by byte. -/
theorem Device.canon.restarted {d : Device} (hd : d.canon) (clock : Nat) : (d.restarted clock).canon :=
  ⟨foldl_keeps (P := Memory.wf) (fun _ c h => mset_wf h c.1 _) d.mem ⟨List.Pairwise.nil, nofun⟩, hd.2⟩

@[simp] theorem State.Canon.resetDevice {s : State} (hs : s.Canon) (dev : Nat) : (s.resetDevice dev).Canon := by
  unfold State.resetDevice
  extract_lets s1
  have h1 : s1.Canon := ⟨hs.1, fun p hp => hs.2 p (List.mem_of_mem_filter hp)⟩
  exact h1.setDev dev ((hs.dev dev).restarted _)

/-- A field of a device is no memory. -/
theorem Device.canon_red {d : Device} (hd : d.canon) (f : Nat) (g : Field → Field) (r : FMap (Nat × Nat) RedSlot) :
    Device.canon { d.onField f g with red := r } := hd

theorem execFieldReset_canon {s : State} (hs : s.Canon) (dev field : Nat) : CanonOut (execFieldReset dev field s) := by
  unfold execFieldReset
  split
  · exact .next hs
  split
  · exact .next (hs.resetDevice dev)
  · extract_lets s1 s2
    have h2 : s2.Canon := hs.killField dev field
    exact .next (h2.onDev dev fun _ hd => Device.canon_red hd ..)

theorem execThermalThrottleSet_canon {s : State} (hs : s.Canon) (dev field : Nat) (temp : BitVec 16) :
    CanonOut (execThermalThrottleSet dev field temp s) := by
  unfold execThermalThrottleSet
  split <;> simp [hs]

theorem execThermalThrottleClear_canon {s : State} (hs : s.Canon) (dev field : Nat) (temp : BitVec 16) :
    CanonOut (execThermalThrottleClear dev field temp s) := by
  unfold execThermalThrottleClear
  split <;> simp [hs]

theorem execThermalTrip_canon {s : State} (hs : s.Canon) (dev field : Nat) (temp : BitVec 16) :
    CanonOut (execThermalTrip dev field temp s) := by
  unfold execThermalTrip
  split
  · exact .next hs
  · refine .next (((hs.killField dev field).onDev dev fun d hd => ?_).logFault ..)
    dsimp only
    split
    · exact hd
    · exact hd

theorem execWearMonitorSample_canon {s : State} (hs : s.Canon) (dev field : Nat) (margin eye : BitVec 16) (corrected : Nat) :
    CanonOut (execWearMonitorSample dev field margin eye corrected s) := by
  unfold execWearMonitorSample
  split <;> simp [hs]

end Sys2Proof.Machine
end

section
/-!
PROOF. The canonical form under scalar arithmetic, the long units, statistics, the planner and the services of a device.
-/
namespace Sys2Proof.Machine

/-! ### Scalar arithmetic and the long units -/

theorem State.Canon.alu2 {s : State} (hs : s.Canon) (d a b : BitVec 5) (f : Word → Word → Word) (n : Word) :
    CanonOut (s.alu2 d a b f n) := hs.put ..

theorem State.Canon.alu1 {s : State} (hs : s.Canon) (d a : BitVec 5) (f : Word → Word) (n : Word) : CanonOut (s.alu1 d a f n) := hs.put ..

theorem State.Canon.longOp {s : State} (hs : s.Canon) (l : BitVec 2) (srcs : List (BitVec 6)) (lat : Nat) (f : List Vec → Vec) :
    CanonOut (s.longOp l srcs lat f) := by
  unfold State.longOp
  dsimp only
  split
  · exact .next hs
  · exact hs.vecIssue ..

theorem State.Canon.longUnary {s : State} (hs : s.Canon) (ty : VTy) (l : BitVec 2) (vx : BitVec 6) (lat : Nat) (f : Num → Num) :
    CanonOut (s.longUnary ty l vx lat f) := hs.longOp ..

theorem State.Canon.reduce {s : State} (hs : s.Canon) (ty : VTy) (l : BitVec 2) (vx : BitVec 6) (fi : List Int → Int)
    (ff : List Num → Num) : CanonOut (s.reduce ty l vx fi ff) := hs.longOp ..

theorem State.Canon.withLatch {s : State} (hs : s.Canon) (l : BitVec 2) {k : Vec → Out} (hk : ∀ v, CanonOut (k v)) :
    CanonOut (s.withLatch l k) := by
  unfold State.withLatch
  split
  · exact hs.raise ..
  · exact .next hs
  · exact hk _

theorem execMovlVector_canon {s : State} (hs : s.Canon) (vd : BitVec 6) (l : BitVec 2) : CanonOut (execMovlVector vd l s) :=
  hs.withLatch l fun _ => hs.vecIssue ..

theorem execMovlScalar_canon {s : State} (hs : s.Canon) (d : BitVec 5) (l : BitVec 2) : CanonOut (execMovlScalar d l s) :=
  hs.withLatch l fun _ => hs.put ..

/-! ### Statistics -/

theorem execStatr_canon {s : State} (hs : s.Canon) (d a : BitVec 5) : CanonOut (execStatr d a s) := by
  unfold execStatr
  extract_lets v
  split
  · exact hs.raise ..
  split
  · next e => exact hs.vecHold e
  split
  · exact hs.raiseRec _
  split
  · exact hs.raiseRec _
  · exact .next (hs.dropAccess ..)
  · exact .next hs
  · exact .next hs

theorem State.Canon.statStep {s t : State} (hs : s.Canon) {core ps f} (e : s.statStep core ps f = some t) : t.Canon := by
  unfold State.statStep at e
  obtain ⟨new, -, rfl⟩ := Option.map_eq_some_iff.1 e
  exact foldl_keeps (P := State.Canon) (fun _ p h => h.glcDrop ..) _ (hs.writePieces ..)

theorem execStatw_canon {s : State} (hs : s.Canon) (a d : BitVec 5) (mask : BitVec 10) : CanonOut (execStatw a d mask s) := by
  unfold execStatw
  extract_lets v
  split
  · exact hs.raise ..
  split
  · next e => exact hs.vecHold e
  extract_lets va
  split
  · exact hs.raiseRec _
  split
  · exact hs.raiseRec _
  · next e => exact hs.joinHold e
  split
  · exact hs.raiseRec _
  · exact .next (hs.dropAccess ..)
  · exact .next hs
  split
  · exact .next hs
  split
  · exact hs.raise ..
  · next e =>
    have h1 := hs.statStep e
    exact .next (State.Canon.acquire ((State.canon_ungate _).2 h1) ..)

theorem execFmtld_canon {s : State} (hs : s.Canon) (a : BitVec 5) : CanonOut (execFmtld a s) := by
  unfold execFmtld
  extract_lets va
  split
  · next e => exact hs.readRec_stop e
  next e =>
  have h1 := hs.readRec_ok e
  extract_lets ws
  split
  · exact .next h1
  · exact hs.raise ..

/-! ### The planner -/

theorem State.Canon.planStep {s : State} (hs : s.Canon) {α : Type} (r : EngRes α) {f : α → Out} (hf : ∀ a, CanonOut (f a)) :
    CanonOut (s.planStep r f) := by
  cases r with
  | ok a => exact hf a
  | wait => exact .next hs
  | bad e => exact hs.raiseRec e
  | drop fl => exact .next (hs.dropAccess ..)

theorem State.Canon.planRec {s s1 : State} (hs : s.Canon) {va n al bs} (e : s.planRec va n al = .ok s1 bs) : s1.Canon := by
  unfold State.planRec at e
  split at e
  · cases e
  · exact hs.recRead e

theorem State.Canon.recStop_of_ne {s : State} (hs : s.Canon) {r : RecRead} (hr : ∀ s1 bs, r ≠ .ok s1 bs) : CanonOut (s.recStop r) := by
  cases r with
  | ok s1 bs => exact absurd rfl (hr s1 bs)
  | wait => exact hs.recStop_wait
  | bad f => exact hs.recStop_bad f

theorem State.Canon.withRecord {s : State} (hs : s.Canon) (va : Word) (n al : Nat) {f : State → List Byte → Out}
    (hf : ∀ s bs, s.Canon → CanonOut (f s bs)) : CanonOut (s.withRecord va n al f) := by
  unfold State.withRecord
  split
  · exact hf _ _ hs
  split
  · next e =>
    have h1 := hs.planRec e
    exact hf _ _ h1
  · next hr => exact hs.recStop_of_ne hr

theorem State.Canon.withEntries {s : State} (hs : s.Canon) (q : QRec) (bs : List Byte) (n : Nat) {f : List (BitVec 512) → Out}
    (hf : ∀ es, CanonOut (f es)) : CanonOut (s.withEntries q bs n f) := by
  unfold State.withEntries
  extract_lets es
  split
  · exact hs.planStep _ fun _ => .next hs
  · exact hf _

@[simp] theorem Ctx.canon_onPlan (c : Ctx) (i : Nat) (f : PlanSlot → PlanSlot) : (c.onPlan i f).canon ↔ c.canon := Iff.rfl

@[simp] theorem Ctx.canon_putPlan (c : Ctx) (i : Nat) (p : Plan) : (c.putPlan i p).canon ↔ c.canon := Iff.rfl

@[simp] theorem Ctx.canon_storePlan (c : Ctx) (i : Nat) (p : Plan) : (c.storePlan i p).1.canon ↔ c.canon := Iff.rfl

@[simp] theorem State.canon_planTaken (s : State) : s.planTaken.Canon ↔ s.Canon := Iff.rfl

theorem State.Canon.putPlan {s : State} (hs : s.Canon) (i : Nat) (p : Plan) : (s.onCx fun c => c.putPlan i p).Canon :=
  hs.onCx fun c hc => (Ctx.canon_putPlan c i p).2 hc

theorem execQplan_canon {s : State} (hs : s.Canon) (d a : BitVec 5) : CanonOut (execQplan d a s) := by
  unfold execQplan
  split
  · exact hs.raise ..
  refine hs.withRecord _ _ _ fun s1 bs h1 => h1.withEntries _ _ _ fun es => ?_
  split
  · exact h1.raiseRec _
  split
  · exact .next h1
  split
  · exact h1.raise ..
  · apply State.Canon.put
    exact State.Canon.onCtx ((State.canon_planTaken s1).2 h1) _ fun _ _ => (Ctx.canon_storePlan ..).2 (h1.ctx _)

theorem State.Canon.withPlan {s : State} (hs : s.Canon) (d : BitVec 5) {f : Nat → Plan → Out} (hf : ∀ i p, CanonOut (f i p)) :
    CanonOut (s.withPlan d f) := by
  unfold State.withPlan
  split
  · exact hs.raise ..
  · exact hf _ _

@[simp] theorem State.Canon.keepRecord {s : State} (hs : s.Canon) (n : Nat) : (s.keepRecord n).Canon := by
  simp [State.keepRecord, hs]

theorem execQhint_canon {s : State} (hs : s.Canon) (d a : BitVec 5) : CanonOut (execQhint d a s) := by
  refine hs.withPlan d fun i p => hs.withRecord _ _ _ fun s1 bs h1 => ?_
  dsimp only
  split
  · exact h1.raise ..
  split
  · exact h1.raise ..
  split
  · exact .next h1
  refine h1.withEntries _ _ _ fun es => ?_
  split
  · exact h1.raiseRec _
  · exact .next (h1.putPlan ..)

theorem execQpin_canon {s : State} (hs : s.Canon) (d : BitVec 5) : CanonOut (execQpin d s) :=
  hs.withPlan d fun _ _ => .next (hs.putPlan ..)

theorem execQunpin_canon {s : State} (hs : s.Canon) (d : BitVec 5) : CanonOut (execQunpin d s) :=
  hs.withPlan d fun _ _ => .next (hs.putPlan ..)

theorem execQdrop_canon {s : State} (hs : s.Canon) (d : BitVec 5) : CanonOut (execQdrop d s) :=
  hs.withPlan d fun _ _ => .next (hs.putPlan ..)

theorem execQstat_canon {s : State} (hs : s.Canon) (d a : BitVec 5) : CanonOut (execQstat d a s) := by
  refine hs.withPlan d fun _ p => ?_
  dsimp only
  split
  · next e => exact (hs.planRec e).issueStore ..
  · next hr => exact hs.recStop_of_ne hr

theorem State.Canon.startRun {s : State} (hs : s.Canon) (i : Nat) (p : Plan) (b : BitVec 1152) : CanonOut (s.startRun i p b) := by
  unfold State.startRun
  extract_lets level r
  have hn : State.Canon { s with nextId := s.nextId + 1 } := hs
  have h1 := hn.putPlan i { p with run := some r, level := level, stamp := s.moment, brkRepl := 0, skipped := 0, brk := none, flags := 0 }
  exact .next h1

theorem State.Canon.checkRun {s : State} (hs : s.Canon) (h : Word) (i : Nat) (p : Plan) (b : BitVec 1152) (bs : List Byte) :
    CanonOut (s.checkRun h i p b bs) := by
  unfold State.checkRun
  extract_lets
  refine hs.withEntries _ _ _ fun es => ?_
  extract_lets
  split
  · exact hs.startRun ..
  split
  · exact hs.raise ..
  refine hs.withEntries _ _ _ fun es => ?_
  split
  · exact hs.raiseRec _
  · exact hs.startRun ..

theorem execQrun_canon {s : State} (hs : s.Canon) (d a : BitVec 5) : CanonOut (execQrun d a s) := by
  refine hs.withPlan d fun i p => hs.withRecord _ _ _ fun s1 bs h1 => ?_
  extract_lets b tiles
  split
  · exact h1.raise ..
  split
  · exact h1.raise ..
  split
  · next e => exact h1.joinHold e
  split
  · exact .next h1
  · exact h1.checkRun ..

@[simp] theorem State.Canon.onRun {s : State} (hs : s.Canon) (x : CtxId) (slot : Nat) (f : Plan → Plan) : (s.onRun x slot f).Canon := by
  refine hs.onCtx x fun c hc => ?_
  split
  · exact hc
  · exact hc

@[simp] theorem State.canon_enterPlanCmd (s : State) (c : EngCmd) : (s.enterPlanCmd c).Canon ↔ s.Canon := Iff.rfl

@[simp] theorem State.Canon.unstage {s : State} (hs : s.Canon) (x : CtxId) (r : PlanRun) : (s.unstage x r).Canon :=
  foldl_keeps (fun _ y h => h.popHead y.core .me) _ hs

@[simp] theorem State.canon_dropPlanCmds (s : State) (id : Nat) : (s.dropPlanCmds id).Canon ↔ s.Canon := Iff.rfl

@[simp] theorem State.Canon.planFault {s : State} (hs : s.Canon) (x : CtxId) (slot : Nat) (r : PlanRun) (f : FaultRec) :
    (s.planFault x slot r f).Canon := by
  unfold State.planFault
  extract_lets f s1
  have h1 : s1.Canon := hs.onRun ..
  split
  · exact (hs.logFault ..).killOf _
  · exact (h1.ite ((State.canon_dropPlanCmds ..).2 h1)).pendFault ..

@[simp] theorem State.Canon.stage {s : State} (hs : s.Canon) (x : CtxId) (slot : Nat) (p : Plan) (r : PlanRun) (n : Nat) (ws : List Nat) :
    (s.stage x slot p r n ws).Canon := by
  unfold State.stage
  extract_lets ys
  split
  · exact hs
  split
  · exact hs.planFault ..
  · have h1 := foldl_keeps (P := State.Canon) (f := fun s y => s.enterPlanCmd (s.planCmd x y p r n))
      (fun _ _ h => (State.canon_enterPlanCmd ..).2 h) ys hs
    exact h1.onRun ..

theorem State.Canon.runRes {s : State} (hs : s.Canon) {α : Type} (x : CtxId) (slot : Nat) (r : PlanRun) (e : EngRes α) {f : α → State}
    (hf : ∀ a, (f a).Canon) : CanonOut (s.runRes x slot r e f) := by
  cases e with
  | ok a => exact .next (hf a)
  | wait => exact .next hs
  | bad g => exact .next (hs.planFault ..)
  | drop fl => exact .next (hs.planFault ..)

theorem execShadowBankEntry_canon {s : State} (hs : s.Canon) (x : CtxId) (slot : Nat) : CanonOut (execShadowBankEntry x slot s) := by
  unfold execShadowBankEntry
  split
  · exact .next hs
  extract_lets n root
  split
  · exact .next hs
  split
  · exact .next ((hs.stage ..).ite hs)
  split
  · exact .next (hs.stage ..)
  split
  · exact .next hs
  · exact hs.runRes _ _ _ _ fun _ => (hs.ite (hs.unstage ..)).onRun ..

theorem execPlanBreak_canon {s : State} (hs : s.Canon) (x : CtxId) (slot : Nat) : CanonOut (execPlanBreak x slot s) := by
  unfold execPlanBreak
  split
  · exact .next hs
  split
  · exact .next hs
  extract_lets n t cw dz o e thr far again ests r1 s1
  have h1 : s1.Canon := hs.onRun ..
  rw [canonOut_next]
  split
  · exact h1.planFault ..
  · exact h1

theorem Memory.wf_filter {m : Memory} (hm : m.wf) (p : Nat × Byte → Bool) : Memory.wf (m.filter p) :=
  ⟨hm.1.filter p, fun c hc => hm.2 c (List.mem_of_mem_filter hc)⟩

@[simp] theorem Ctx.canon.clearReserve {c : Ctx} (hc : c.canon) (excl : Bool) (l : Launch) : (c.clearReserve excl l).canon := by
  obtain ⟨hw, ha, hb⟩ := hc
  refine ⟨Memory.wf_filter hw _, Memory.wf_filter ha _, ?_⟩
  dsimp only [Ctx.clearReserve]
  split
  · exact Memory.wf_filter (Memory.wf_filter hb _) _
  split
  · exact Memory.wf_filter hb _
  · exact hb

@[simp] theorem State.Canon.clearUsed {s : State} (hs : s.Canon) (x : CtxId) (r : PlanRun) : (s.clearUsed x r).Canon := by
  refine foldl_keeps (fun s y h => ?_) _ hs
  split
  · exact h
  · exact h.onCtx y fun _ hc => hc.clearReserve ..

@[simp] theorem State.Canon.planSignal {s : State} (hs : s.Canon) (x : CtxId) (slot : Nat) (r : PlanRun) : (s.planSignal x slot r).Canon := by
  unfold State.planSignal
  split
  · exact hs
  split
  · exact hs.semStep ..
  · exact State.Canon.pendFault ((State.canon_semMark ..).2 hs) ..

@[simp] theorem State.Canon.sendDest {s : State} (hs : s.Canon) (x : CtxId) (slot : Nat) (r : PlanRun) (w : DestWrites)
    (l : List (List Piece × List Byte)) : (s.sendDest x slot r w l).Canon := by
  unfold State.sendDest
  split
  · exact hs
  · next y h _ _ =>
    have h1 := foldl_keeps (f := fun s c => s.engWrite y.core h 0 c.1 c.2) (fun _ c hs => hs.engWrite ..) l hs
    exact h1.onRun ..

@[simp] theorem State.Canon.endRun {s : State} (hs : s.Canon) (x : CtxId) (slot : Nat) (p : Plan) (r : PlanRun) (w : DestWrites)
    (u : Option (List Piece)) : (s.endRun x slot p r w u).Canon := by
  unfold State.endRun
  extract_lets f s1
  have h1 : s1.Canon := by
    dsimp only [s1]
    split
    · exact hs
    · next up =>
      cases e : s.statStep x.core up fun e => some (rewriteEntry e f w) with
      | none => exact hs
      | some t => exact hs.statStep e
  exact (((h1.clearUsed ..).unstage ..).onRun ..).planSignal ..

theorem execPlanComplete_canon {s : State} (hs : s.Canon) (x : CtxId) (slot : Nat) : CanonOut (execPlanComplete x slot s) := by
  unfold execPlanComplete
  split
  · exact .next hs
  split
  · exact .next hs
  split
  · split
    · exact .next (State.Canon.planFault ((State.canon_onCore ..).2 hs) ..)
    split
    · exact .next hs
    · exact hs.runRes _ _ _ _ fun _ => hs.endRun ..
  · split
    · exact .next (hs.planFault ..)
    · exact hs.runRes _ _ _ _ fun _ => hs.sendDest ..

@[simp] theorem State.Canon.planGranule {s : State} (hs : s.Canon) (id g : Nat) : (s.planGranule id g).Canon := by
  unfold State.planGranule
  split
  · exact hs
  split
  · exact hs
  split
  · exact hs
  split
  · exact hs
  · exact hs.onRun ..

@[simp] theorem State.Canon.engGranule {s : State} (hs : s.Canon) (c : CoreId) (e : Eng) (g : Nat) : (s.engGranule c e g).Canon := by
  unfold State.engGranule
  repeat' split
  all_goals simp [hs]

/-! ### Operator commands, attestation and firmware -/

theorem execSpareName_canon {s : State} (hs : s.Canon) (dev : Nat) (data : Word) : CanonOut (execSpareName dev data s) := by
  unfold execSpareName
  extract_lets a p
  split
  · exact .next hs
  refine .next (hs.onDev dev fun d hd => ?_)
  extract_lets r d1
  split
  · exact hd
  · exact hd

theorem execSpareCancel_canon {s : State} (hs : s.Canon) (dev : Nat) (data : Word) : CanonOut (execSpareCancel dev data s) := by
  unfold execSpareCancel
  extract_lets p
  split
  · exact .next hs
  refine .next (hs.onDev dev fun d hd => ?_)
  split
  · exact hd
  split
  · exact hd
  · exact hd

theorem execAdvsvn_canon {s : State} (hs : s.Canon) (dev : Nat) (data : Word) : CanonOut (execAdvsvn dev data s) := by
  unfold execAdvsvn
  extract_lets p
  split
  · exact .next hs
  refine .next (hs.onDev dev fun d hd => ?_)
  split
  · exact hd
  split
  · exact hd
  · exact hd

theorem execAttestationRequest_canon {s : State} (hs : s.Canon) (dev : Nat) (data : Word) : CanonOut (execAttestationRequest dev data s) := by
  unfold execAttestationRequest
  split
  · exact .next hs
  · exact .next (hs.onDev dev fun _ hd => by exact hd)

theorem execAttestationQuoteDone_canon {s : State} (hs : s.Canon) (dev : Nat) : CanonOut (execAttestationQuoteDone dev s) := by
  unfold execAttestationQuoteDone
  split
  · exact .next hs
  · exact .next (hs.onDev dev fun _ hd => ⟨hd.1, hd.2⟩)

theorem execFirmwareLoad_canon {s : State} (hs : s.Canon) (dev pa : Nat) : CanonOut (execFirmwareLoad dev pa s) := by
  unfold execFirmwareLoad
  extract_lets d
  split
  · exact .next hs
  apply hs.cpAccess
  split
  · exact .next hs
  · exact .next (hs.onDev dev fun _ hd => ⟨hd.1, hd.2⟩)

end Sys2Proof.Machine
end

section
/-!
PROOF. The canonical form under every instruction and every step of the machine that no stream executes.
-/
namespace Sys2Proof.Machine

/-- Every instruction, and every step of the machine that no stream executes, keeps the canonical form. -/
theorem exec_canon {s : State} (hs : s.Canon) (i : Instr) : CanonOut (exec i s) := by
  unfold exec
  cases i
  case add | sub | and | or | xor | andn | sll | srl | sra | adds | subs | mul | mulh | mulhu | div | divu | rem | remu |
    min | max | minu | maxu | slt | sltu | seq | sne | csel | addCompact | subCompact | andCompact => exact hs.alu2 ..
  case addi | andi | ori | xori | slli | srli | srai | addiI32 | clz | ctz | cpop | sextb | sexth | sextw | zextw |
    mvCompact | addiCompact | slliCompact | sraiCompact => exact hs.alu1 ..
  case lui | apc | liCompact | rdtime => exact hs.put ..
  case ldDCompact | ld | ldUnsigned | ldv | ldvXw | ldq | ldvSI => exact hs.loadI ..
  case stDCompact | st => exact hs.storeFlat ..
  case vmvCompact | vmv | vperm => exact hs.vmove ..
  case beq | bne | blt | bge | bltu | bgeu => exact hs.branch ..
  case jmp => exact hs.jump ..
  case call => exact hs.callTo ..
  case loopb => exact State.Canon.branch (s := s.onSt _) hs ..
  case mark | fence => exact hs.issueTwin ..
  case yield | pref | latchWriteLanding | bankWake => exact .next hs
  case amo | cas | swap => exact hs.issueAtomic ..
  case vadd | vsub | vmul | vmin | vmax => exact hs.varith ..
  case vfma | vand | vor | vxor | vandn | vnot => exact hs.vop3 ..
  case vdiv => exact hs.longOp ..
  case vsqrt | vrcp | vrsqrt | vexp2 | vlog2 => exact hs.longUnary ..
  case vredsum | vredmax | vredmin => exact hs.reduce ..
  case pand | por | pxor | pandn | pnot => exact hs.predOp ..
  case vcmpr48 => exact hs.compress ..
  case mma | mmas => exact hs.issueMma ..
  case mcvt | mldacc | mstacc => exact hs.issueOut ..
  case cpy | cpyx | gth | sct => exact hs.issueCopy ..
  case csrw | csrs | csrc => exact hs.csrWrite ..
  case packetNop | packetSetlevel | packetArm | packetWrite => exact hs.parse ..
  case deviceReset => exact .next (hs.resetDevice _)
  case disciplineLockChange => exact .next (hs.onDev _ fun _ hd => by exact hd)
  case jr => exact execJr_canon hs ..
  case callr => exact execCallr_canon hs ..
  case ret => exact execRet_canon hs
  case relc => exact execRelc_canon hs
  case tjoin => exact execTjoin_canon hs
  case loopi => exact execLoopi_canon hs ..
  case fork => exact execFork_canon hs ..
  case join => exact execJoin_canon hs ..
  case cset => exact execCset_canon hs ..
  case csetClr => exact execCsetClr_canon hs ..
  case cwait => exact execCwait_canon hs ..
  case halt => exact execHalt_canon hs
  case trap => exact execTrap_canon hs ..
  case eret => exact execEret_canon hs
  case waitt => exact execWaitt_canon hs ..
  case stv => exact execStv_canon hs ..
  case stvSI => exact execStvSI_canon hs ..
  case gacq => exact execGacq_canon hs ..
  case gseq => exact execGseq_canon hs ..
  case stg => exact execStg_canon hs ..
  case vsll => exact execVsll_canon hs ..
  case vsrl => exact execVsrl_canon hs ..
  case vsra => exact execVsra_canon hs ..
  case vcmp => exact execVcmp_canon hs ..
  case vsel => exact execVsel_canon hs ..
  case vslideup => exact execVslideup_canon hs ..
  case vslidedn => exact execVslidedn_canon hs ..
  case vbcast => exact execVbcast_canon hs ..
  case vext => exact execVext_canon hs ..
  case vcvt => exact execVcvt_canon hs ..
  case movlVector => exact execMovlVector_canon hs ..
  case movlScalar => exact execMovlScalar_canon hs ..
  case pfirst => exact execPfirst_canon hs ..
  case pcnt => exact execPcnt_canon hs ..
  case twr => exact execTwr_canon hs ..
  case trd => exact execTrd_canon hs ..
  case vcmpr48Lc => exact execVcmpr48Lc_canon hs ..
  case mzero => exact execMzero_canon hs ..
  case mstat => exact execMstat_canon hs ..
  case semsig => exact execSemsig_canon hs ..
  case semwait => exact execSemwait_canon hs ..
  case semset => exact execSemset_canon hs ..
  case qfence => exact execQfence_canon hs ..
  case coll => exact execColl_canon hs ..
  case bar => exact execBar_canon hs ..
  case qplan => exact execQplan_canon hs ..
  case qrun => exact execQrun_canon hs ..
  case qhint => exact execQhint_canon hs ..
  case qpin => exact execQpin_canon hs ..
  case qunpin => exact execQunpin_canon hs ..
  case qdrop => exact execQdrop_canon hs ..
  case qstat => exact execQstat_canon hs ..
  case statr => exact execStatr_canon hs ..
  case statw => exact execStatw_canon hs ..
  case fmtld => exact execFmtld_canon hs ..
  case csrr => exact execCsrr_canon hs ..
  case psave => exact execPsave_canon hs ..
  case prest => exact execPrest_canon hs
  case performLq => exact execPerformLq_canon hs ..
  case performSq => exact execPerformSq_canon hs ..
  case performPath => exact execPerformPath_canon hs ..
  case performJoin => exact execPerformJoin_canon hs ..
  case blockEntry => exact execBlockEntry_canon hs ..
  case passStart => exact execPassStart_canon hs ..
  case syncRejoin => exact execSyncRejoin_canon hs ..
  case preemptDiversion => exact execPreemptDiversion_canon hs ..
  case vectorWriteLanding => exact execVectorWriteLanding_canon hs ..
  case bankRetentionEntry => exact execBankRetentionEntry_canon hs ..
  case waittExpiry => exact execWaittExpiry_canon hs ..
  case wgDispatch => exact execWgDispatch_canon hs ..
  case wgRetire => exact execWgRetire_canon hs ..
  case barrierComplete => exact execBarrierComplete_canon hs ..
  case engineQueueEntry => exact execEngineQueueEntry_canon hs ..
  case followOnRelease => exact execFollowOnRelease_canon hs ..
  case powerTokenTake => exact execPowerTokenTake_canon hs ..
  case powerTokenPass => exact execPowerTokenPass_canon hs ..
  case mzeroPerform => exact execMzeroPerform_canon hs ..
  case mmaRowCommit => exact execMmaRowCommit_canon hs ..
  case mcvtRowCommit => exact execMcvtRowCommit_canon hs ..
  case accRowTransfer => exact execAccRowTransfer_canon hs ..
  case mstatPerform => exact execMstatPerform_canon hs ..
  case ceRowMove => exact execCeRowMove_canon hs ..
  case expandUnitWrite => exact execExpandUnitWrite_canon hs ..
  case cycleBoundExpiry => exact execCycleBoundExpiry_canon hs ..
  case semwaitBoundExpiry => exact execSemwaitBoundExpiry_canon hs ..
  case semsigEnginePerform => exact execSemsigEnginePerform_canon hs ..
  case semwaitEnginePerform => exact execSemwaitEnginePerform_canon hs ..
  case qfenceRelease => exact execQfenceRelease_canon hs ..
  case commandMigration => exact execCommandMigration_canon hs ..
  case migratedResultApply => exact execMigratedResultApply_canon hs ..
  case collTransferEmit => exact execCollTransferEmit_canon hs ..
  case chunkReceive => exact execChunkReceive_canon hs ..
  case reductionContribution => exact execReductionContribution_canon hs ..
  case reductionResultWrite => exact execReductionResultWrite_canon hs ..
  case chunkAck => exact execChunkAck_canon hs ..
  case collComplete => exact execCollComplete_canon hs ..
  case stgStamp => exact execStgStamp_canon hs ..
  case groupDelivery => exact execGroupDelivery_canon hs ..
  case groupApply => exact execGroupApply_canon hs ..
  case groupGapTimeout => exact execGroupGapTimeout_canon hs ..
  case groupLoad => exact execGroupLoad_canon hs ..
  case groupJoin => exact execGroupJoin_canon hs ..
  case groupLeave => exact execGroupLeave_canon hs ..
  case groupResend => exact execGroupResend_canon hs ..
  case planBreak => exact execPlanBreak_canon hs ..
  case planComplete => exact execPlanComplete_canon hs ..
  case shadowBankEntry => exact execShadowBankEntry_canon hs ..
  case trapEntry => exact execTrapEntry_canon hs ..
  case faultLogRecord => exact execFaultLogRecord_canon hs ..
  case contextSave => exact execContextSave_canon hs ..
  case contextRestore => exact execContextRestore_canon hs ..
  case detLevelChange => exact execDetLevelChange_canon hs ..
  case hostMemoryWrite => exact execHostMemoryWrite_canon hs ..
  case doorbell => exact execDoorbell_canon hs ..
  case doorbellRestart => exact execDoorbellRestart_canon hs ..
  case packetLaunch => exact execPacketLaunch_canon hs ..
  case readyPacketStart => exact execReadyPacketStart_canon hs ..
  case sigenDecrement => exact execSigenDecrement_canon hs ..
  case armTargetDecrement => exact execArmTargetDecrement_canon hs ..
  case slotMap => exact execSlotMap_canon hs ..
  case slotUnmap => exact execSlotUnmap_canon hs ..
  case slotPreempt => exact execSlotPreempt_canon hs ..
  case fwPolicyTick => exact execFwPolicyTick_canon hs ..
  case watchdogT1 => exact execWatchdogT1_canon hs ..
  case watchdogT2 => exact execWatchdogT2_canon hs ..
  case watchdogT3 => exact execWatchdogT3_canon hs ..
  case contextSkip => exact execContextSkip_canon hs ..
  case contextKill => exact execContextKill_canon hs ..
  case kttSetAbsent => exact execKttSetAbsent_canon hs ..
  case kttSetPresent => exact execKttSetPresent_canon hs ..
  case kttMigrate => exact execKttMigrate_canon hs ..
  case migrateLineCopy => exact execMigrateLineCopy_canon hs ..
  case firmwareLoad => exact execFirmwareLoad_canon hs ..
  case fieldReset => exact execFieldReset_canon hs ..
  case fieldBringupStep => exact execFieldBringupStep_canon hs ..
  case bringupStepTimeout => exact execBringupStepTimeout_canon hs ..
  case ilimSet => exact execIlimSet_canon hs ..
  case tokenCountUpdate => exact execTokenCountUpdate_canon hs ..
  case thermalThrottleSet => exact execThermalThrottleSet_canon hs ..
  case thermalThrottleClear => exact execThermalThrottleClear_canon hs ..
  case thermalTrip => exact execThermalTrip_canon hs ..
  case spareName => exact execSpareName_canon hs ..
  case spareCancel => exact execSpareCancel_canon hs ..
  case advsvn => exact execAdvsvn_canon hs ..
  case attestationRequest => exact execAttestationRequest_canon hs ..
  case attestationQuoteDone => exact execAttestationQuoteDone_canon hs ..
  case registerWrite => exact execRegisterWrite_canon hs ..
  case wearMonitorSample => exact execWearMonitorSample_canon hs ..

end Sys2Proof.Machine
end

section
/-!
PROOF. The canonical form under the clock, the choice among slots, and every move.
-/
namespace Sys2Proof.Machine

/-! ### The clock, the choice among slots, and the moves of the machine -/

/-- The stops that a device has still to perform are no memory. -/
theorem Device.canon_stops {d : Device} (hd : d.canon) (l : List (Nat × Nat)) : Device.canon { d with stops := l } := hd

theorem State.Canon.lateStops {s : State} (hs : s.Canon) (dev : Nat) : (s.lateStops dev).Canon := by
  refine foldl_keeps (fun s p h => ?_) _ hs
  split
  · exact h.onDev dev fun _ hd => Device.canon_stops (hd.stopQueue ..) _
  · exact h.onDev dev fun _ hd => Device.canon_stops (hd.stopQueue ..) _
  · exact (h.logFault ..).onDev dev fun _ hd => Device.canon_stops hd _
  · exact h

theorem State.Canon.tickDev {s : State} (hs : s.Canon) (d : Nat) : (s.tickDev d).Canon := by
  unfold State.tickDev
  extract_lets s0 cyc fresh s1
  have h1 : s1.Canon := hs.lateStops d
  exact h1.onDev d fun _ hd => ⟨hd.1, hd.2⟩

theorem State.Canon.issued {s : State} (hs : s.Canon) (id : SlotId) (i : Instr) : (s.issued id i).Canon := by
  unfold State.issued
  extract_lets cyc s0 s1
  have h0 : s0.Canon := hs
  have h1 : s1.Canon := by
    refine foldl_keeps (P := State.Canon) (fun s k h => ?_) _ h0
    split
    · exact h
    · exact h
  split
  · exact h1
  · exact h1

theorem State.Canon.noteIssue {t : State} (ht : t.Canon) (i : Instr) (s : State) : (noteIssue i s t).Canon := by
  unfold Machine.noteIssue
  split
  · have h1 := ht.issued s.cur i
    extract_lets s1 b
    split
    · exact h1
    · exact h1
  · exact ht

theorem State.Canon.noteShare {u : State} (hu : u.Canon) (s : State) (ex : Instr → State → Out) (id : SlotId) :
    (s.noteShare ex id u).Canon := by
  unfold State.noteShare
  split
  · exact hu
  · exact hu

/-- What is due leads on in canonical form. -/
inductive Due.Canon : Due → Prop
  | idle : Due.Canon .idle
  | event (i : Instr) {s : State} (h : s.Canon) : Due.Canon (.event i s)
  | instr (i : Instr) {s : State} (h : s.Canon) : Due.Canon (.instr i s)
  | stop {o : Out} (h : CanonOut o) : Due.Canon (.stop o)

theorem State.Canon.runFetch {s : State} (hs : s.Canon) : s.runFetch.Canon := by
  unfold State.runFetch
  split
  · exact .idle
  · exact .stop (hs.raiseRec _)
  · next e => exact .stop ((hs.fetchInstr e).raise ..)
  · next e => exact .instr _ (hs.fetchInstr e)

theorem State.Canon.runDue {s : State} (hs : s.Canon) (id : SlotId) : (s.runDue id).Canon := by
  unfold State.runDue
  split
  · exact .idle
  extract_lets s1 st
  have h1 : s1.Canon := hs
  split
  · exact .event _ h1
  split
  · exact .idle
  split
  · split
    · exact .event _ h1
    · exact .event _ h1
  split
  · split
    · exact .event _ h1
    · exact .event _ h1
  · exact h1.runFetch

theorem State.Canon.instr_of_runDue {s s1 : State} (hs : s.Canon) {id : SlotId} {i : Instr} (e : s.runDue id = .instr i s1) : s1.Canon := by
  have h := hs.runDue id
  rw [e] at h
  cases h
  assumption

section
/-! What an instruction does is a parameter of the choice among slots. -/
variable {ex : Instr → State → Out} (hex : ∀ i s, s.Canon → CanonOut (ex i s))
include hex

theorem State.Canon.attempt {s : State} (hs : s.Canon) (i : Instr) : CanonOut (s.attempt ex i) := by
  unfold State.attempt
  split
  · exact .next hs
  split
  · exact hs.raise ..
  · exact hex i s hs

theorem State.Canon.runOne {s : State} (hs : s.Canon) (id : SlotId) : CanonOut (s.runOne ex id) := by
  unfold State.runOne
  split
  · next i s1 e =>
    have h := (hs.instr_of_runDue e).attempt hex i
    cases ho : s1.attempt ex i with
    | next t => rw [ho] at h; exact .next (((canonOut_next t).1 h).noteIssue ..)
    | fault f => exact .fault f
    | refused r => exact .refused r
  · exact .next hs
  · exact .next hs
  · exact .next hs

theorem State.Canon.runAll {s : State} (hs : s.Canon) (l : List SlotId) : CanonOut (s.runAll ex l) := by
  induction l generalizing s with
  | nil => exact .next hs
  | cons id r ih =>
    have h := hs.runOne hex id
    unfold State.runAll
    cases ho : s.runOne ex id with
    | next t => rw [ho] at h; exact ih ((canonOut_next t).1 h)
    | fault f => exact .fault f
    | refused e => exact .refused e

theorem State.Canon.arbitrate {s s1 : State} (hs : s.Canon) (hs1 : s1.Canon) (id : SlotId) (i : Instr) :
    CanonOut (s.arbitrate s1 ex id i) := by
  have h := hs1.attempt hex i
  unfold State.arbitrate
  cases ho : s1.attempt ex i with
  | fault f => exact .fault f
  | refused r => exact .refused r
  | next t =>
    rw [ho] at h
    have ht := (canonOut_next t).1 h
    extract_lets later
    have hl : CanonOut later := .next hs
    dsimp only
    split
    · exact hl
    split
    · exact .next ht
    split
    · exact hl
    split
    · exact .next ((ht.noteIssue ..).noteShare ..)
    split
    · exact hl
    · have ha := hs.runAll hex ((s.together id).foldl (fun l o => insertBy s.semPlace o l) [])
      split
      · next e => rw [e] at ha; exact .next (((canonOut_next _).1 ha).noteShare ..)
      · exact .fault _
      · exact .refused _

theorem State.Canon.runWith {s : State} (hs : s.Canon) (id : SlotId) : CanonOut (s.runWith ex id) := by
  have h := hs.runDue id
  unfold State.runWith
  cases hd : s.runDue id with
  | idle => exact .next hs
  | event i s1 => rw [hd] at h; cases h; exact hex _ _ (by assumption)
  | instr i s1 => exact hs.arbitrate hex (hs.instr_of_runDue hd) ..
  | stop o => rw [hd] at h; cases h; assumption
end

theorem State.Canon.readGranule {s : State} (hs : s.Canon) (id : SlotId) (k : Nat) : (s.readGranule id k).Canon := by
  unfold State.readGranule
  split
  · next e =>
    split
    · exact hs
    split
    · exact hs
    · exact (hs.instr_of_runDue e).recPiece ..
  · exact hs
  · exact hs
  · exact hs

theorem State.Canon.fwWrite {s : State} (hs : s.Canon) (dev pa : Nat) (bs : List Byte) : CanonOut (s.fwWrite dev pa bs) := by
  unfold State.fwWrite
  extract_lets d
  split
  · exact .next hs
  split
  · exact .next hs
  split
  · exact hs.cpAccess dev _ (.next (hs.onDev dev fun _ hd => hd.pwrite ..))
  · exact .next (hs.onDev dev fun _ hd => ⟨hd.1, hd.2⟩)

/-- Every move of the machine keeps the canonical form. -/
theorem State.Canon.move {s : State} (hs : s.Canon) (m : Move) : CanonOut (s.move m) := by
  cases m with
  | run id => exact hs.runWith (fun i _ h => exec_canon h i) id
  | access id =>
    refine .next (State.Canon.accessStep ?_ id)
    exact hs
  | event i =>
    unfold State.move
    dsimp only
    split
    · exact exec_canon hs i
    · exact .next hs
  | tick d => exact .next (hs.tickDev d)
  | recGranule id k => exact .next (hs.readGranule id k)
  | engGranule c e g => exact .next (hs.engGranule c e g)
  | fwDma d pa bytes => exact hs.fwWrite d pa bytes
  | evictGlc c line => exact .next hs
  | evictIcache c asid line => exact .next hs

/-- Every step of the machine keeps the canonical form. -/
theorem State.Canon.step {s : State} (hs : s.Canon) : CanonOut (step s) := by
  unfold Machine.step
  extract_lets s1
  have h1 : s1.Canon := hs
  split
  · next m r _ =>
    have h2 : State.Canon { s1 with agenda := r } := h1
    exact h2.move m
  · exact h1.move _

end Sys2Proof.Machine
end

section
/-!
PROOF. What every step keeps, and what the machine holds at reset.
-/
namespace Sys2Proof
open Sys2Proof.Machine

/-- Settles O59: every function of the model that leads from a state to a state keeps the canonical form, and a step is one of them. -/
theorem stepKeepsCanonical : Obligations.StepKeepsCanonical := by
  intro s t hs e
  have h := hs.step
  rw [e] at h
  exact (canonOut_next t).1 h

/-- The devices that the pod names at reset, and every device that it does not, are at reset. -/
theorem Machine.State.reset_devs : ∀ p ∈ State.reset.devs, p.2 = Device.reset := by
  intro p hp
  cases hp with
  | head => rfl
  | tail _ h => cases h

theorem Machine.State.reset_dev (d : Nat) : State.reset.dev d = Device.reset :=
  fget_of_all (P := (· = Device.reset)) State.reset_devs d rfl

theorem Machine.State.reset_canon : State.reset.Canon := by
  refine ⟨fun p hp => ?_, fun _ hp => absurd hp List.not_mem_nil⟩
  rw [State.reset_devs p hp]
  exact ⟨⟨List.Pairwise.nil, nofun⟩, ⟨List.Pairwise.nil, nofun⟩⟩

/-- Field 0 starts bring-up at reset, and the others wait (R313, R314). -/
theorem Machine.Device.reset_fieldN {f : Nat} (h0 : 0 < f) (h8 : f < 8) : Device.reset.fieldN f = { waiting := true } := by
  unfold Device.fieldN Device.reset
  simp only [Nat.mod_eq_of_lt h8]
  rw [Vector.getElem_set_ne _ _ (by omega), Vector.getElem_replicate]

/-- Settles O58: each clause is read off the reset state, whose maps list no more than device 0. -/
theorem resetState : Obligations.ResetState := by
  refine ⟨State.reset_canon, fun _ => rfl, fun _ => rfl, rfl, fun d => ?_⟩
  rw [State.reset_dev]
  refine ⟨rfl, rfl, rfl, rfl, rfl, fun f h0 h8 => ?_⟩
  rw [Device.reset_fieldN h0 h8]
  exact ⟨rfl, rfl⟩
end Sys2Proof
end

section
/-!
PROOF. Control registers: what each shows of its stream, of its context and of its device (R240).
-/
namespace Sys2Proof.Machine

/-! ### What a control register reads -/

/-- What register m shows of a stream is the same in both. A register that no field below names shows none of it. -/
structure StreamShows (a b : Stream) (m : Nat) : Prop where
  owner : b.owner = a.owner := by rfl
  ret : b.ret = a.ret := by rfl
  cause : b.trap.cause = a.trap.cause := by rfl
  fdet : b.trap.fdet = a.trap.fdet := by rfl
  faddr : b.trap.faddr = a.trap.faddr := by rfl
  fsrc : b.trap.fsrc = a.trap.fsrc := by rfl
  rrb : m = 0x005 → b.rrb = a.rrb := by exact fun _ => rfl
  lc : 0x006 ≤ m → m ≤ 0x009 → b.rlc (BitVec.ofNat 2 (m - 6)) = a.rlc (BitVec.ofNat 2 (m - 6)) := by exact fun _ _ => rfl
  uthr : m = 0x00A → b.uthr = a.uthr := by exact fun _ => rfl
  vsc : m = 0x00B → b.vsc = a.vsc := by exact fun _ => rfl
  vcnt : m = 0x00C → b.vcnt = a.vcnt := by exact fun _ => rfl
  rasSpill : m = 0x01F → b.rasSpill = a.rasSpill := by exact fun _ => rfl
  rasCount : m = 0x01F ∨ (0x020 < m ∧ m ≤ 0x03F) → b.rasCount = a.rasCount := by exact fun _ => rfl
  rasBase : m = 0x020 → b.rasBase = a.rasBase := by exact fun _ => rfl
  ras : 0x020 < m → m ≤ 0x03F → b.getRas (m - 0x30) = a.getRas (m - 0x30) := by exact fun _ _ => rfl
  tvec : m = 0x100 → b.trap.tvec = a.trap.tvec := by exact fun _ => rfl
  epc : m = 0x101 → b.trap.epc = a.trap.epc := by exact fun _ => rfl
  ehdr : m = 0x102 → b.trap.ehdr = a.trap.ehdr := by exact fun _ => rfl
  rem : m = 0x103 → b.trap.rem = a.trap.rem := by exact fun _ => rfl
  tscr0 : m = 0x108 → b.trap.tscr0 = a.trap.tscr0 := by exact fun _ => rfl
  tscr1 : m = 0x109 → b.trap.tscr1 = a.trap.tscr1 := by exact fun _ => rfl

/-- What register m shows of a context is the same in both. -/
structure CtxShows (a b : Ctx) (m : Nat) : Prop where
  live : b.live = a.live := by rfl
  asid : b.asid = a.asid := by rfl
  det : b.det = a.det := by rfl
  mrow : m = 0x00E → b.mrowValid = a.mrowValid ∧ b.mrowRow = a.mrowRow := by exact fun _ => ⟨rfl, rfl⟩
  replan : m = 0x00F → b.replan = a.replan := by exact fun _ => rfl
  mcset : 0x010 ≤ m → m ≤ 0x017 → b.mcset.toList[m - 0x10]? = a.mcset.toList[m - 0x10]? := by exact fun _ _ => rfl
  semb : m = 0x018 → b.semb = a.semb := by exact fun _ => rfl
  codebase : m = 0x01B → b.codebase = a.codebase := by exact fun _ => rfl
  codelim : m = 0x01C → b.codelim = a.codelim := by exact fun _ => rfl
  stat : m = 0x01D → b.stbase = a.stbase ∧ b.stcount = a.stcount := by exact fun _ => ⟨rfl, rfl⟩
  coll : m = 0x01E → b.collBase = a.collBase ∧ b.collN = a.collN := by exact fun _ => ⟨rfl, rfl⟩
  hzd : m = 0x10B → b.hzdMode = a.hzdMode ∧ b.hzdEn = a.hzdEn := by exact fun _ => ⟨rfl, rfl⟩
  kttnpa : m = 0x10D → b.kttnpa = a.kttnpa := by exact fun _ => rfl

/-- What register m shows of a device is the same in both. -/
structure DeviceShows (a b : Device) (m : Nat) : Prop where
  launches : b.launches = a.launches := by rfl
  ktts : b.ktts = a.ktts := by rfl
  fields : b.fields = a.fields := by rfl
  gtReq : b.gtReq = a.gtReq := by rfl
  timeLocked : b.timeLocked = a.timeLocked := by rfl
  time : m = 0x019 → b.time = a.time := by exact fun _ => rfl
  timeSrc : m = 0x01A → b.timeSrc = a.timeSrc := by exact fun _ => rfl
  gtbase : m = 0x040 → b.gtbase = a.gtbase := by exact fun _ => rfl

section
variable {s : State} {u : Stream} (h : u.owner = s.st.owner)
include h

theorem State.xid_setSt : (s.setSt u).xid = s.xid := by
  have hu : (s.setSt u).strm s.cur = u := s.st_setSt u
  have ho : (s.strm s.cur).owner = u.owner := h.symm
  unfold State.xid State.xidOf ownerOf
  rw [State.setSt_cur, hu, ho]

theorem State.cx_setSt : (s.setSt u).cx = s.cx := by
  unfold State.cx
  rw [State.xid_setSt h]
  rfl

theorem State.wgReg_setSt (n : Nat) : (s.setSt u).wgReg n = s.wgReg n := by
  unfold State.wgReg
  rw [State.xid_setSt h, State.cx_setSt h]
  rfl

theorem State.vbanks_setSt : (s.setSt u).vbanks = s.vbanks := by
  unfold State.vbanks
  rw [State.xid_setSt h]
  rfl

theorem State.cktt_setSt : (s.setSt u).cktt = s.cktt := by
  unfold State.cktt
  rw [State.cx_setSt h]
  rfl
end

@[simp] theorem State.dev_setSt (s : State) (u : Stream) (d : Nat) : (s.setSt u).dev d = s.dev d := rfl
@[simp] theorem State.cdev_setSt (s : State) (u : Stream) : (s.setSt u).cdev = s.cdev := rfl
@[simp] theorem State.cfield_setSt (s : State) (u : Stream) : (s.setSt u).cfield = s.cfield := rfl

/-- A register reads the same where another stream stands that shows the same of it. -/
theorem State.csrGet_setSt {s : State} {u : Stream} {m : Nat} (h : StreamShows s.st u m) : (s.setSt u).csrGet m = s.csrGet m := by
  unfold State.csrGet
  dsimp only
  repeat' refine ite_congr rfl (fun _ => ?_) (fun _ => ?_)
  all_goals simp (disch := omega) only [State.st_setSt, State.setSt_cur, State.dev_setSt, State.cdev_setSt, State.cfield_setSt,
    State.xid_setSt h.owner, State.cx_setSt h.owner, State.wgReg_setSt h.owner, State.vbanks_setSt h.owner, State.cktt_setSt h.owner,
    h.ret, h.cause, h.fdet, h.faddr, h.fsrc, h.rrb, h.lc, h.uthr, h.vsc, h.vcnt, h.rasSpill, h.rasCount, h.rasBase, h.ras,
    h.tvec, h.epc, h.ehdr, h.rem, h.tscr0, h.tscr1]
  all_goals rfl


section
variable {s : State} {c : Ctx} (h : c.live = s.cx.live)
include h

theorem State.launchOf_setCx : (s.setCtx s.xid c).launchOf s.xid = s.launchOf s.xid := by
  have hl : (s.ctx s.xid).live = c.live := h.symm
  unfold State.launchOf
  rw [State.ctx_setCtx, hl]
  rfl

theorem State.wgReg_setCx (n : Nat) : (s.setCtx s.xid c).wgReg n = s.wgReg n := by
  have hl : (s.setCtx s.xid c).cx.live = s.cx.live := by
    rw [← h]
    exact congrArg Ctx.live (s.ctx_setCtx s.xid c)
  unfold State.wgReg
  rw [hl, show (s.setCtx s.xid c).xid = s.xid from rfl, State.launchOf_setCx h]

theorem State.vbanks_setCx : (s.setCtx s.xid c).vbanks = s.vbanks := by
  unfold State.vbanks
  rw [show (s.setCtx s.xid c).xid = s.xid from rfl, State.launchOf_setCx h]
end

@[simp] theorem State.st_setCtx (s : State) (x : CtxId) (c : Ctx) : (s.setCtx x c).st = s.st := rfl
@[simp] theorem State.xid_setCtx (s : State) (x : CtxId) (c : Ctx) : (s.setCtx x c).xid = s.xid := rfl
@[simp] theorem State.cdev_setCtx (s : State) (x : CtxId) (c : Ctx) : (s.setCtx x c).cdev = s.cdev := rfl
@[simp] theorem State.cfield_setCtx (s : State) (x : CtxId) (c : Ctx) : (s.setCtx x c).cfield = s.cfield := rfl
@[simp] theorem State.cx_setCx (s : State) (c : Ctx) : (s.setCtx s.xid c).cx = c := s.ctx_setCtx s.xid c
theorem State.cktt_setCx {s : State} {c : Ctx} (h : c.asid = s.cx.asid) : (s.setCtx s.xid c).cktt = s.cktt := by
  unfold State.cktt
  rw [State.cx_setCx, h]
  rfl

/-- A register reads the same where another context stands that shows the same of it. -/
theorem State.csrGet_setCx {s : State} {c : Ctx} {m : Nat} (h : CtxShows s.cx c m) : (s.setCtx s.xid c).csrGet m = s.csrGet m := by
  unfold State.csrGet
  dsimp only
  repeat' refine ite_congr rfl (fun _ => ?_) (fun _ => ?_)
  all_goals simp (disch := omega) only [State.setCtx_cur, State.st_setCtx, State.xid_setCtx, State.dev_setCtx, State.cdev_setCtx,
    State.cfield_setCtx, State.cx_setCx, State.wgReg_setCx h.live, State.vbanks_setCx h.live, State.cktt_setCx h.asid, h.live, h.asid, h.det,
    h.mrow, h.replan, h.mcset, h.semb, h.codebase, h.codelim, h.stat, h.coll, h.hzd, h.kttnpa]
  all_goals rfl

@[simp] theorem State.cdev_setDev (s : State) (n : Nat) (d : Device) : (s.setDev n d).cdev = s.cdev := rfl
@[simp] theorem State.st_setDev (s : State) (n : Nat) (d : Device) : (s.setDev n d).st = s.st := rfl
@[simp] theorem State.xid_setDev (s : State) (n : Nat) (d : Device) : (s.setDev n d).xid = s.xid := rfl
@[simp] theorem State.cx_setDev (s : State) (n : Nat) (d : Device) : (s.setDev n d).cx = s.cx := rfl

section
variable {s : State} {d : Device} (h : d.launches = (s.dev s.cdev).launches)
include h

theorem State.launchOf_setDev : (s.setDev s.cdev d).launchOf s.xid = s.launchOf s.xid := by
  have hd : (s.setDev s.cdev d).dev s.xid.core.dev = d := s.dev_setDev s.cdev d
  have hl : d.launches = (s.dev s.xid.core.dev).launches := h
  unfold State.launchOf State.launch?
  rw [State.ctx_setDev, hd, hl]

theorem State.wgReg_setDev (n : Nat) : (s.setDev s.cdev d).wgReg n = s.wgReg n := by
  unfold State.wgReg
  rw [State.cx_setDev, State.xid_setDev, State.launchOf_setDev h]

theorem State.vbanks_setDev : (s.setDev s.cdev d).vbanks = s.vbanks := by
  unfold State.vbanks
  rw [State.xid_setDev, State.launchOf_setDev h]
end

theorem State.cktt_setDev {s : State} {d : Device} (h : d.ktts = (s.dev s.cdev).ktts) : (s.setDev s.cdev d).cktt = s.cktt := by
  unfold State.cktt State.ktt
  rw [State.cx_setDev, State.cdev_setDev, State.dev_setDev, h]

theorem State.cfield_setDev {s : State} {d : Device} (h : d.fields = (s.dev s.cdev).fields) : (s.setDev s.cdev d).cfield = s.cfield := by
  unfold State.cfield Device.fieldN
  simp only [State.cdev_setDev, State.dev_setDev, State.setDev_cur, h]

/-- A register reads the same where another device stands that shows the same of it. -/
theorem State.csrGet_setDev {s : State} {d : Device} {m : Nat} (h : DeviceShows (s.dev s.cdev) d m) :
    (s.setDev s.cdev d).csrGet m = s.csrGet m := by
  unfold State.csrGet
  dsimp only
  repeat' refine ite_congr rfl (fun _ => ?_) (fun _ => ?_)
  all_goals simp (disch := omega) only [State.setDev_cur, State.st_setDev, State.xid_setDev, State.cx_setDev, State.cdev_setDev,
    State.dev_setDev, State.cfield_setDev h.fields, State.wgReg_setDev h.launches, State.vbanks_setDev h.launches, State.cktt_setDev h.ktts,
    h.gtReq, h.timeLocked, h.time, h.timeSrc, h.gtbase]
  all_goals rfl

end Sys2Proof.Machine
end

section
/-!
PROOF. Control registers: what a write leaves unchanged (R239, R240).
-/
namespace Sys2Proof.Machine

/-! ### What a write of a control register leaves unchanged -/

/-- What no write of a control register changes of its stream. -/
structure StreamKept (a b : Stream) : Prop where
  s : b.s = a.s := by rfl
  v : b.v = a.v := by rfl
  p : b.p = a.p := by rfl
  l : b.l = a.l := by rfl
  fmt : b.fmt = a.fmt := by rfl
  tx : b.tx = a.tx := by rfl
  tails : b.tails = a.tails := by rfl
  priv : b.priv = a.priv := by rfl
  sq : b.sq = a.sq := by rfl
  pend : b.pend = a.pend := by rfl
  ex : b.ex = a.ex := by rfl

/-- From s to t a control register that only register n shows has been written: every memory, core and other stream is as it was, and so is
every other register, but for the entries of the return-address store where cr.rassp has been written. -/
structure WritesCsr (s t : State) (n : Nat) : Prop where
  bytes : SameBytes s t
  cores : t.cores = s.cores
  cur : t.cur = s.cur
  streams : ∀ id, id ≠ s.cur → t.strm id = s.strm id
  kept : StreamKept s.st t.st
  reads : ∀ m, m ≠ n → m ≤ 0x020 ∨ 0x030 ≤ m → (n = 0x01F → m < 0x030 ∨ 0x040 ≤ m) → t.csrGet m = s.csrGet m

theorem WritesCsr.onSt {s : State} {n : Nat} {f : Stream → Stream} (hk : StreamKept s.st (f s.st))
    (hr : ∀ m, m ≠ n → m ≤ 0x020 ∨ 0x030 ≤ m → (n = 0x01F → m < 0x030 ∨ 0x040 ≤ m) → StreamShows s.st (f s.st) m) :
    WritesCsr s (s.onSt f) n where
  bytes := (Beside.onSt s f).bytes
  cores := rfl
  cur := rfl
  streams := (Beside.onSt s f).streams
  kept := by rw [State.st_onSt]; exact hk
  reads m h1 h2 h3 := State.csrGet_setSt (hr m h1 h2 h3)

theorem WritesCsr.onCx {s : State} {n : Nat} {f : Ctx → Ctx}
    (hb : (f s.cx).wb = s.cx.wb ∧ (f s.cx).ab = s.cx.ab ∧ (f s.cx).cbuf = s.cx.cbuf) (hr : ∀ m, m ≠ n → CtxShows s.cx (f s.cx) m) :
    WritesCsr s (s.onCx f) n where
  bytes := by
    obtain ⟨hw, ha, hc⟩ := hb
    refine ⟨fun _ _ => rfl, fun _ _ => rfl, fun x a => ?_, fun x a => ?_, fun x a => ?_⟩ <;>
      by_cases hx : x = s.xid <;> simp_all [State.onCx, State.onCtx, State.ctx_setCtx_if, State.cx]
  cores := rfl
  cur := rfl
  streams _ _ := rfl
  kept := {}
  reads m h1 _ _ := State.csrGet_setCx (hr m h1)

theorem WritesCsr.onDev {s : State} {n : Nat} {f : Device → Device} (hm : (f (s.dev s.cdev)).mem = (s.dev s.cdev).mem)
    (hh : (f (s.dev s.cdev)).hostMem = (s.dev s.cdev).hostMem) (hr : ∀ m, m ≠ n → DeviceShows (s.dev s.cdev) (f (s.dev s.cdev)) m) :
    WritesCsr s (s.onDev s.cdev f) n where
  bytes := by
    refine ⟨fun d a => ?_, fun d a => ?_, fun _ _ => rfl, fun _ _ => rfl, fun _ _ => rfl⟩ <;>
      by_cases hd : d = s.cdev <;> simp_all [State.onDev, State.dev_setDev_if]
  cores := rfl
  cur := rfl
  streams _ _ := rfl
  kept := {}
  reads m h1 _ _ := State.csrGet_setDev (hr m h1)

theorem WritesCsr.ite {s a b : State} {n : Nat} {c : Prop} [Decidable c] (ha : c → WritesCsr s a n) (hb : ¬ c → WritesCsr s b n) :
    WritesCsr s (if c then a else b) n := by
  split
  · exact ha ‹_›
  · exact hb ‹_›

/-- The entries of the return-address store that a write of another one leaves. -/
theorem Stream.getRas_setRas_ne (st : Stream) {i j : Nat} (e : RasEntry) (h : j ≠ i) : (st.setRas i e).getRas j = st.getRas j := by
  unfold Stream.setRas Stream.getRas
  split
  · split
    · exact Vector.getElem_set_ne ‹_› ‹_› (Ne.symm h)
    · rfl
  · rfl

theorem Stream.rlc_setLc_ne (st : Stream) {i j : BitVec 2} (x : BitVec 32) (h : j ≠ i) : (st.setLc i x).rlc j = st.rlc j :=
  Vector.getElem_set_ne i.isLt j.isLt fun e => h (BitVec.eq_of_toNat_eq e.symm)

/-- The numbers of the registers that a write changes in its own step. -/
def csrOwn (n : Nat) : Prop := 5 ≤ n ∧ n ≠ 0x00D ∧ (n ≤ 0x020 ∨ 0x030 ≤ n)

/-- The loop counters of two numbers are two. -/
theorem lcOf_ne {m n : Nat} (hm : 6 ≤ m ∧ m ≤ 9) (hn : 6 ≤ n ∧ n ≤ 9) (h : m ≠ n) : BitVec.ofNat 2 (m - 6) ≠ BitVec.ofNat 2 (n - 6) := by
  intro e
  have := congrArg BitVec.toNat e
  simp only [BitVec.toNat_ofNat] at this
  omega

theorem Stream.setRas_kept (st : Stream) (i : Nat) (e : RasEntry) : StreamKept st (st.setRas i e) := by
  unfold Stream.setRas
  split
  · exact {}
  · exact {}

theorem Stream.setRas_shows (st : Stream) (i : Nat) (e : RasEntry) {m : Nat} (h : 0x020 < m → m ≤ 0x03F → m - 0x30 ≠ i) :
    StreamShows st (st.setRas i e) m := by
  have hr : 0x020 < m → m ≤ 0x03F → (st.setRas i e).getRas (m - 0x30) = st.getRas (m - 0x30) :=
    fun h1 h2 => st.getRas_setRas_ne e (h h1 h2)
  unfold Stream.setRas at hr ⊢
  split
  · simp only [*, dite_true] at hr
    exact { ras := hr }
  · exact {}

/-- A write changes the register that it names, and nothing that another register shows (R239, R240). -/
theorem State.csrSet_writes (s : State) {n : Nat} (hn : csrOwn n) (v : Word) : WritesCsr s (s.csrSet n v) n := by
  obtain ⟨h5, hD, hgap⟩ := hn
  unfold State.csrSet
  extract_lets w
  refine .ite (fun e => .onSt {} fun m hm _ _ => { rrb := fun h => absurd h (e ▸ hm) }) fun h005 => ?_
  refine .ite (fun e => .onSt {} fun m hm _ _ => { lc := fun h6 h9 => s.st.rlc_setLc_ne _ (lcOf_ne ⟨h6, h9⟩ (by omega) hm) }) fun h009 => ?_
  refine .ite (fun e => .onSt {} fun m hm _ _ => { uthr := fun h => absurd h (e ▸ hm) }) fun h00A => ?_
  refine .ite (fun e => .onSt {} fun m hm _ _ => { vsc := fun h => absurd h (e ▸ hm) }) fun h00B => ?_
  refine .ite (fun e => .onSt {} fun m hm _ _ => { vcnt := fun h => absurd h (e ▸ hm) }) fun h00C => ?_
  refine .ite (fun e => .onCx ⟨rfl, rfl, rfl⟩ fun m hm => { mrow := fun h => absurd h (e ▸ hm) }) fun h00E => ?_
  refine .ite (fun e => .onCx ⟨rfl, rfl, rfl⟩ fun m hm => { replan := fun h => absurd h (e ▸ hm) }) fun h00F => ?_
  refine .ite (fun e => .onCx ⟨rfl, rfl, rfl⟩ fun m hm => { mcset := fun h10 h17 => ?_ }) fun h017 => ?_
  · have hk : ¬ n - 0x10 = m - 0x10 := by omega
    simp [hk]
  refine .ite (fun e => .onCx ⟨rfl, rfl, rfl⟩ fun m hm => { semb := fun h => absurd h (e ▸ hm) }) fun h018 => ?_
  refine .ite (fun e => .onDev rfl rfl fun m hm => { time := fun h => absurd h (e ▸ hm) }) fun h019 => ?_
  refine .ite (fun e => .onDev rfl rfl fun m hm => { timeSrc := fun h => absurd h (e ▸ hm) }) fun h01A => ?_
  refine .ite (fun e => .onCx ⟨rfl, rfl, rfl⟩ fun m hm => { codebase := fun h => absurd h (e ▸ hm) }) fun h01B => ?_
  refine .ite (fun e => .onCx ⟨rfl, rfl, rfl⟩ fun m hm => { codelim := fun h => absurd h (e ▸ hm) }) fun h01C => ?_
  refine .ite (fun e => .onCx ⟨rfl, rfl, rfl⟩ fun m hm => { stat := fun h => absurd h (e ▸ hm) }) fun h01D => ?_
  refine .ite (fun e => .onCx ⟨rfl, rfl, rfl⟩ fun m hm => { coll := fun h => absurd h (e ▸ hm) }) fun h01E => ?_
  refine .ite (fun e => .onSt {} fun m hm hg hr =>
    { rasSpill := fun h => absurd h (e ▸ hm), rasCount := fun h => absurd h (by have := hr e; omega) }) fun h01F => ?_
  refine .ite (fun e => .onSt {} fun m hm _ _ => { rasBase := fun h => absurd h (e ▸ hm) }) fun h020 => ?_
  refine .ite (fun e => .onSt (s.st.setRas_kept ..) fun m hm hg _ => s.st.setRas_shows _ _ (by omega)) fun h03F => ?_
  refine .ite (fun e => .onDev rfl rfl fun m hm => { gtbase := fun h => absurd h (e ▸ hm) }) fun h040 => ?_
  refine .ite (fun e => .onSt {} fun m hm _ _ => { tvec := fun h => absurd h (e ▸ hm) }) fun h100 => ?_
  refine .ite (fun e => .onSt {} fun m hm _ _ => { epc := fun h => absurd h (e ▸ hm) }) fun h101 => ?_
  refine .ite (fun e => .onSt {} fun m hm _ _ => { ehdr := fun h => absurd h (e ▸ hm) }) fun h102 => ?_
  refine .ite (fun e => .onSt {} fun m hm _ _ => { rem := fun h => absurd h (e ▸ hm) }) fun h103 => ?_
  refine .ite (fun e => .onSt {} fun m hm _ _ => { tscr0 := fun h => absurd h (e ▸ hm) }) fun h108 => ?_
  refine .ite (fun e => .onSt {} fun m hm _ _ => { tscr1 := fun h => absurd h (e ▸ hm) }) fun h109 => ?_
  refine .ite (fun e => .onCx ⟨rfl, rfl, rfl⟩ fun m hm => { hzd := fun h => absurd h (e ▸ hm) }) fun h10B => ?_
  refine .ite (fun e => .onCx ⟨rfl, rfl, rfl⟩ fun m hm => { kttnpa := fun h => absurd h (e ▸ hm) }) fun h10D => ?_
  exact ⟨SameBytes.rfl' s, rfl, rfl, fun _ _ => rfl, {}, fun _ _ _ _ => rfl⟩

end Sys2Proof.Machine
end

section
/-!
PROOF. Control registers: a register reads as the value that has been written (R240).
-/
namespace Sys2Proof.Machine

/-! ### Values without a reserved bit -/

/-- The bits of a number at which another has none are 0 when the two have no bit in common but those that the other names. -/
theorem testBit_of_clean {x f k : Nat} (hf : f < 2 ^ 64) (hx : x < 2 ^ 64) (h : x &&& (2 ^ 64 - 1 - f) = 0) (hk : f.testBit k = false) :
    x.testBit k = false := by
  by_cases h64 : k < 64
  · have e := congrArg (Nat.testBit · k) h
    rw [show 2 ^ 64 - 1 - f = 2 ^ 64 - (f + 1) by omega] at e
    simpa only [Nat.testBit_and, Nat.testBit_two_pow_sub_succ hf, h64, hk, decide_true, Bool.not_false, Bool.and_true,
      Nat.zero_testBit] using e
  · exact Nat.testBit_lt_two_pow (lt_of_lt_of_le hx (Nat.pow_le_pow_right (by decide) (by omega)))

theorem testBit_nbits (x lo n k : Nat) : (nbits x lo n).testBit k = (decide (k < n) && x.testBit (lo + k)) := by
  rw [nbits, Nat.testBit_mod_two_pow, Nat.testBit_div_two_pow, Nat.add_comm]

/-- A value without a reserved bit is 0 where no field lies. -/
theorem nbits_of_clean {v : Word} {f : Nat} (h : v.toNat &&& (2 ^ 64 - 1 - f) = 0) (lo n : Nat) (hf : f < 2 ^ 64) (hgap : nbits f lo n = 0) :
    nbits v.toNat lo n = 0 := by
  refine Nat.eq_of_testBit_eq fun k => ?_
  have e := congrArg (Nat.testBit · k) hgap
  simp only [testBit_nbits, Nat.zero_testBit, Bool.and_eq_false_iff, decide_eq_false_iff_not] at e ⊢
  exact e.imp_right fun hk => testBit_of_clean hf v.isLt h hk

theorem zx_setWidth {v : Word} {n : Nat} (h : v.toNat < 2 ^ n) : zx (v.setWidth n) = v := by
  apply BitVec.eq_of_toNat_eq
  simp only [zx, BitVec.toNat_setWidth, Nat.mod_eq_of_lt h, Nat.mod_eq_of_lt v.isLt]

theorem wd_eq {v : Word} {x : Nat} (h : x = v.toNat) : wd x = v := by
  rw [h, wd, BitVec.ofNat_toNat, BitVec.setWidth_eq]

theorem toNat_ofHiBits (a : BitVec 56) : (ofHiBits a).toNat = 2 * a.toNat := by
  have := a.isLt
  simp only [ofHiBits, BitVec.toNat_setWidth, BitVec.toNat_append, BitVec.toNat_ofNat, Nat.shiftLeft_eq]
  simp
  omega

theorem toNat_hiBits (v : Word) : (hiBits v).toNat = v.toNat / 2 % 2 ^ 56 := by
  simp [hiBits, Nat.shiftRight_eq_div_pow]

theorem ofHiBits_hiBits {v : Word} (h0 : v.toNat % 2 = 0) (h57 : v.toNat < 2 ^ 57) : ofHiBits (hiBits v) = v := by
  apply BitVec.eq_of_toNat_eq
  rw [toNat_ofHiBits, toNat_hiBits]
  omega

theorem getLsbD_eq_mod (v : Word) (k : Nat) : v.getLsbD k = decide (v.toNat / 2 ^ k % 2 = 1) := Nat.testBit_eq_decide_div_mod_eq

/-! ### A register reads as the value that has been written -/

@[simp] theorem State.cx_onCx (s : State) (f : Ctx → Ctx) : (s.onCx f).cx = f s.cx := s.cx_setCx _
@[simp] theorem State.dev_onDev (s : State) (d : Nat) (f : Device → Device) : (s.onDev d f).dev d = f (s.dev d) := s.dev_setDev d _

section
variable (s : State) {n : Nat} (v : Word)

theorem State.csrGet_lc (h6 : 6 ≤ n) (h9 : n ≤ 9) : s.csrGet n = zx (s.st.rlc (BitVec.ofNat 2 (n - 6))) := by
  interval_cases n <;> rfl

theorem State.csrSet_lc (h6 : 6 ≤ n) (h9 : n ≤ 9) :
    s.csrSet n v = s.onSt fun st => st.setLc (BitVec.ofNat 2 (n - 6)) (v.setWidth 32) := by
  interval_cases n <;> rfl

theorem State.csrGet_mcset (h10 : 0x10 ≤ n) (h17 : n ≤ 0x17) : s.csrGet n = zx (s.cx.mcset.toList[n - 0x10]?.getD 0) := by
  interval_cases n <;> rfl

theorem State.csrSet_mcset (h10 : 0x10 ≤ n) (h17 : n ≤ 0x17) :
    s.csrSet n v = s.onCx fun c => { c with mcset := c.mcset.setIfInBounds (n - 0x10) (v.setWidth 40) } := by
  interval_cases n <;> rfl

theorem State.csrGet_ras (h30 : 0x30 ≤ n) (h3F : n ≤ 0x3F) (hc : n - 0x30 < s.st.rasCount.toNat) :
    s.csrGet n = ofHiBits (s.st.getRas (n - 0x30)).raddr ||| (if (s.st.getRas (n - 0x30)).defer then 1 else 0) := by
  have e : s.csrGet n = if s.st.rasCount.toNat ≤ n - 0x30 then 0
      else ofHiBits (s.st.getRas (n - 0x30)).raddr ||| (if (s.st.getRas (n - 0x30)).defer then 1 else 0) := by
    interval_cases n <;> rfl
  rw [e, if_neg (by omega)]

theorem State.csrSet_ras (h30 : 0x30 ≤ n) (h3F : n ≤ 0x3F) :
    s.csrSet n v = s.onSt fun st => st.setRas (n - 0x30) { raddr := hiBits v, defer := v.getLsbD 0 } := by
  interval_cases n <;> rfl

theorem Stream.rlc_setLc (st : Stream) (i : BitVec 2) (x : BitVec 32) : (st.setLc i x).rlc i = x := Vector.getElem_set_self i.isLt

theorem Stream.getRas_setRas {i : Nat} (st : Stream) (e : RasEntry) (h : i < 16) : (st.setRas i e).getRas i = e := by
  simp [Stream.setRas, Stream.getRas, h]

theorem Stream.rasCount_setRas (st : Stream) (i : Nat) (e : RasEntry) : (st.setRas i e).rasCount = st.rasCount := by
  unfold Stream.setRas
  split <;> rfl

/-- The value of a write to cr.ras reads back: the address with its mark of deferral in bit 0. -/
theorem ofHiBits_or_defer {v : Word} (h57 : v.toNat < 2 ^ 57) : (ofHiBits (hiBits v) ||| (if v.getLsbD 0 then 1 else 0)) = v := by
  have h1 : (if v.getLsbD 0 then 1 else 0 : Word).toNat = v.toNat % 2 := by
    rw [getLsbD_eq_mod]
    split <;> simp_all
  apply BitVec.eq_of_toNat_eq
  rw [BitVec.toNat_or, toNat_ofHiBits, toNat_hiBits, h1, Nat.mul_comm, ← Nat.pow_one 2, ← Nat.shiftLeft_eq,
    ← Nat.shiftLeft_add_eq_or_of_lt (by omega), Nat.shiftLeft_eq]
  omega

end

/-! ### The table of control registers, register by register (R240) -/

section
variable (s : State) (v : Word)

theorem State.csrGet_det : s.csrGet 0x004 = zx s.cx.det := rfl
theorem State.csrGet_rrb : s.csrGet 0x005 = zx s.st.rrb := rfl
theorem State.csrGet_uthr : s.csrGet 0x00A = zx s.st.uthr := rfl
theorem State.csrGet_vsc : s.csrGet 0x00B = zx s.st.vsc := rfl
theorem State.csrGet_vcnt : s.csrGet 0x00C = s.st.vcnt := rfl
theorem State.csrGet_mrow : s.csrGet 0x00E = wd ((if s.cx.mrowValid then 256 else 0) + s.cx.mrowRow.toNat) := rfl
theorem State.csrGet_replan : s.csrGet 0x00F = zx s.cx.replan := rfl
theorem State.csrGet_semb : s.csrGet 0x018 = zx s.cx.semb := rfl
theorem State.csrGet_time : s.csrGet 0x019 = (s.dev s.cdev).time := rfl
theorem State.csrGet_timeSrc :
    s.csrGet 0x01A = wd ((s.dev s.cdev).timeSrc.toNat * 2 + (if (s.dev s.cdev).timeLocked then 1 else 0)) := rfl
theorem State.csrGet_codebase : s.csrGet 0x01B = ofHiBits s.cx.codebase := rfl
theorem State.csrGet_codelim : s.csrGet 0x01C = ofHiBits s.cx.codelim := rfl
theorem State.csrGet_stat : s.csrGet 0x01D = wd (s.cx.stbase.toNat * 2 ^ 16 + s.cx.stcount.toNat) := rfl
theorem State.csrGet_coll : s.csrGet 0x01E = wd (s.cx.collBase.toNat * 2 ^ 12 + s.cx.collN.toNat) := rfl
theorem State.csrGet_rassp : s.csrGet 0x01F = wd (s.st.rasSpill.toNat * 32 + s.st.rasCount.toNat) := rfl
theorem State.csrGet_rasBase : s.csrGet 0x020 = wd (s.st.rasBase.toNat * 8) := rfl
theorem State.csrGet_gtbase : s.csrGet 0x040 = wd ((s.dev s.cdev).gtbase.toNat * 2 ^ 18) := rfl
theorem State.csrGet_tvec : s.csrGet 0x100 = ofHiBits s.st.trap.tvec := rfl
theorem State.csrGet_epc : s.csrGet 0x101 = ofHiBits s.st.trap.epc := rfl
theorem State.csrGet_ehdr : s.csrGet 0x102 = ofHiBits s.st.trap.ehdr := rfl
theorem State.csrGet_erem : s.csrGet 0x103 = wd (s.st.trap.rem.toNat * 2 ^ 32) := rfl
theorem State.csrGet_cause : s.csrGet 0x104 = s.st.trap.cause := rfl
theorem State.csrGet_tscr0 : s.csrGet 0x108 = s.st.trap.tscr0 := rfl
theorem State.csrGet_tscr1 : s.csrGet 0x109 = s.st.trap.tscr1 := rfl
theorem State.csrGet_asid : s.csrGet 0x10A = zx s.cx.asid := rfl
theorem State.csrGet_hzd : s.csrGet 0x10B = wd ((if s.cx.hzdMode then 2 else 0) + (if s.cx.hzdEn then 1 else 0)) := rfl
theorem State.csrGet_kttnpa : s.csrGet 0x10D = wd (s.cx.kttnpa.toNat * 2 ^ 16) := rfl

theorem State.csrSet_rrb : s.csrSet 0x005 v = s.onSt fun st => st.setRrb (v.setWidth 5) := rfl
theorem State.csrSet_uthr : s.csrSet 0x00A v = s.onSt fun st => { st with uthr := v.setWidth 6 } := rfl
theorem State.csrSet_vsc : s.csrSet 0x00B v = s.onSt fun st => { st with vsc := v.setWidth 32 } := rfl
theorem State.csrSet_vcnt : s.csrSet 0x00C v = s.onSt fun st => { st with vcnt := v } := rfl
theorem State.csrSet_mrow : s.csrSet 0x00E v = s.onCx fun c => { c with mrowValid := v.getLsbD 8, mrowRow := v.setWidth 8 } := rfl
theorem State.csrSet_replan : s.csrSet 0x00F v = s.onCx fun c => { c with replan := v.setWidth 8 } := rfl
theorem State.csrSet_semb : s.csrSet 0x018 v = s.onCx fun c => { c with semb := v.setWidth 32 } := rfl
theorem State.csrSet_time : s.csrSet 0x019 v = s.onDev s.cdev fun d => { d with time := v } := rfl
theorem State.csrSet_timeSrc : s.csrSet 0x01A v = s.onDev s.cdev fun d => { d with timeSrc := BitVec.ofNat 2 (nbits v.toNat 1 2) } := rfl
theorem State.csrSet_codebase : s.csrSet 0x01B v = s.onCx fun c => { c with codebase := hiBits v } := rfl
theorem State.csrSet_codelim : s.csrSet 0x01C v = s.onCx fun c => { c with codelim := hiBits v } := rfl
theorem State.csrSet_stat : s.csrSet 0x01D v = s.onCx fun c =>
    { c with stbase := BitVec.ofNat 41 (nbits v.toNat 16 41), stcount := BitVec.ofNat 13 (min 4096 (nbits v.toNat 0 13)) } := rfl
theorem State.csrSet_coll : s.csrSet 0x01E v = s.onCx fun c =>
    { c with collBase := BitVec.ofNat 45 (nbits v.toNat 12 45), collN := BitVec.ofNat 11 (nbits v.toNat 0 11) } := rfl
theorem State.csrSet_rassp : s.csrSet 0x01F v = s.onSt fun st =>
    { st with rasSpill := BitVec.ofNat 32 (nbits v.toNat 5 32), rasCount := BitVec.ofNat 5 (nbits v.toNat 0 5) } := rfl
theorem State.csrSet_rasBase : s.csrSet 0x020 v = s.onSt fun st => { st with rasBase := BitVec.ofNat 54 (nbits v.toNat 3 54) } := rfl
theorem State.csrSet_gtbase : s.csrSet 0x040 v = s.onDev s.cdev fun d => { d with gtbase := BitVec.ofNat 39 (nbits v.toNat 18 39) } := rfl
theorem State.csrSet_tvec : s.csrSet 0x100 v = s.onSt fun st => { st with trap := { st.trap with tvec := hiBits v } } := rfl
theorem State.csrSet_epc : s.csrSet 0x101 v = s.onSt fun st => { st with trap := { st.trap with epc := hiBits v } } := rfl
theorem State.csrSet_ehdr : s.csrSet 0x102 v = s.onSt fun st => { st with trap := { st.trap with ehdr := hiBits v } } := rfl
theorem State.csrSet_erem :
    s.csrSet 0x103 v = s.onSt fun st => { st with trap := { st.trap with rem := BitVec.ofNat 32 (nbits v.toNat 32 32) } } := rfl
theorem State.csrSet_tscr0 : s.csrSet 0x108 v = s.onSt fun st => { st with trap := { st.trap with tscr0 := v } } := rfl
theorem State.csrSet_tscr1 : s.csrSet 0x109 v = s.onSt fun st => { st with trap := { st.trap with tscr1 := v } } := rfl
theorem State.csrSet_hzd : s.csrSet 0x10B v = s.onCx fun c => { c with hzdMode := v.getLsbD 1, hzdEn := v.getLsbD 0 } := rfl
theorem State.csrSet_kttnpa : s.csrSet 0x10D v = s.onCx fun c => { c with kttnpa := BitVec.ofNat 36 (nbits v.toNat 16 36) } := rfl
end

/-! ### A register reads as the value that has been written to it -/

theorem lt_of_clean {v : Word} {f : Nat} (n : Nat) (h : v.toNat &&& (2 ^ 64 - 1 - f) = 0) (hf : f < 2 ^ n) (hn : n ≤ 64) :
    v.toNat < 2 ^ n := by
  refine Nat.lt_pow_two_of_testBit _ fun k hk => testBit_of_clean (lt_of_lt_of_le hf (Nat.pow_le_pow_right (by decide) hn)) v.isLt h ?_
  exact Nat.testBit_lt_two_pow (lt_of_lt_of_le hf (Nat.pow_le_pow_right (by decide) hk))

theorem ofHiBits_of_clean {v : Word} (hc : v.toNat &&& (2 ^ 64 - 1 - bitsOf 56 1) = 0) : ofHiBits (hiBits v) = v := by
  have h := nbits_of_clean hc 0 1 (by decide) (by decide)
  unfold nbits at h
  exact ofHiBits_hiBits (by omega) (lt_of_clean 57 hc (by decide) (by decide))

section
variable (s : State) {v : Word}

theorem State.readback_rrb (hc : v.toNat &&& (2 ^ 64 - 1 - bitsOf 4 0) = 0) : (s.csrSet 0x005 v).csrGet 0x005 = v := by
  rw [State.csrGet_rrb, State.csrSet_rrb, State.st_onSt]
  exact zx_setWidth (lt_of_clean 5 hc (by decide) (by decide))

theorem State.readback_lc {n : Nat} (h6 : 6 ≤ n) (h9 : n ≤ 9) (hc : v.toNat &&& (2 ^ 64 - 1 - bitsOf 31 0) = 0) :
    (s.csrSet n v).csrGet n = v := by
  rw [State.csrGet_lc _ h6 h9, State.csrSet_lc s v h6 h9, State.st_onSt, Stream.rlc_setLc]
  exact zx_setWidth (lt_of_clean 32 hc (by decide) (by decide))

theorem State.readback_uthr (hc : v.toNat &&& (2 ^ 64 - 1 - bitsOf 5 0) = 0) : (s.csrSet 0x00A v).csrGet 0x00A = v := by
  rw [State.csrGet_uthr, State.csrSet_uthr, State.st_onSt]
  exact zx_setWidth (lt_of_clean 6 hc (by decide) (by decide))

theorem State.readback_vsc (hc : v.toNat &&& (2 ^ 64 - 1 - bitsOf 31 0) = 0) : (s.csrSet 0x00B v).csrGet 0x00B = v := by
  rw [State.csrGet_vsc, State.csrSet_vsc, State.st_onSt]
  exact zx_setWidth (lt_of_clean 32 hc (by decide) (by decide))

theorem State.readback_vcnt : (s.csrSet 0x00C v).csrGet 0x00C = v := by
  rw [State.csrGet_vcnt, State.csrSet_vcnt, State.st_onSt]

theorem State.readback_mrow (hc : v.toNat &&& (2 ^ 64 - 1 - bitsOf 8 0) = 0) : (s.csrSet 0x00E v).csrGet 0x00E = v := by
  have h := lt_of_clean 9 hc (by decide) (by decide)
  rw [State.csrGet_mrow, State.csrSet_mrow, State.cx_onCx]
  refine wd_eq ?_
  dsimp only
  rw [getLsbD_eq_mod, BitVec.toNat_setWidth]
  simp only [decide_eq_true_eq]
  split <;> omega

theorem State.readback_replan (hc : v.toNat &&& (2 ^ 64 - 1 - bitsOf 7 0) = 0) : (s.csrSet 0x00F v).csrGet 0x00F = v := by
  rw [State.csrGet_replan, State.csrSet_replan, State.cx_onCx]
  exact zx_setWidth (lt_of_clean 8 hc (by decide) (by decide))

theorem State.readback_mcset {n : Nat} (h10 : 0x10 ≤ n) (h17 : n ≤ 0x17) (hc : v.toNat &&& (2 ^ 64 - 1 - bitsOf 39 0) = 0) :
    (s.csrSet n v).csrGet n = v := by
  have hk : n - 0x10 < 8 := by omega
  rw [State.csrGet_mcset _ h10 h17, State.csrSet_mcset s v h10 h17, State.cx_onCx]
  simp only [Vector.getElem?_toList, Vector.getElem?_setIfInBounds_self_of_lt hk, Option.getD_some]
  exact zx_setWidth (lt_of_clean 40 hc (by decide) (by decide))

theorem State.readback_semb (hc : v.toNat &&& (2 ^ 64 - 1 - bitsOf 31 0) = 0) : (s.csrSet 0x018 v).csrGet 0x018 = v := by
  rw [State.csrGet_semb, State.csrSet_semb, State.cx_onCx]
  exact zx_setWidth (lt_of_clean 32 hc (by decide) (by decide))

theorem State.readback_time : (s.csrSet 0x019 v).csrGet 0x019 = v := by
  rw [State.csrSet_time, State.csrGet_time, show (s.onDev s.cdev _).cdev = s.cdev from rfl, State.dev_onDev]

theorem State.readback_timeSrc (hc : v.toNat &&& (2 ^ 64 - 1 - bitsOf 2 0) = 0) (h0 : v.getLsbD 0 = (s.csrGet 0x01A).getLsbD 0) :
    (s.csrSet 0x01A v).csrGet 0x01A = v := by
  have h := lt_of_clean 3 hc (by decide) (by decide)
  have hl : (if (s.dev s.cdev).timeLocked then 1 else 0 : Nat) = v.toNat % 2 := by
    rw [State.csrGet_timeSrc, getLsbD_eq_mod, getLsbD_eq_mod, wd, BitVec.toNat_ofNat, decide_eq_decide] at h0
    split at h0 <;> split <;> simp_all
  rw [State.csrSet_timeSrc, State.csrGet_timeSrc, show (s.onDev s.cdev _).cdev = s.cdev from rfl, State.dev_onDev]
  refine wd_eq ?_
  dsimp only
  rw [hl, BitVec.toNat_ofNat, nbits]
  omega

theorem State.readback_codebase (hc : v.toNat &&& (2 ^ 64 - 1 - bitsOf 56 1) = 0) : (s.csrSet 0x01B v).csrGet 0x01B = v := by
  rw [State.csrGet_codebase, State.csrSet_codebase, State.cx_onCx]
  exact ofHiBits_of_clean hc

theorem State.readback_codelim (hc : v.toNat &&& (2 ^ 64 - 1 - bitsOf 56 1) = 0) : (s.csrSet 0x01C v).csrGet 0x01C = v := by
  rw [State.csrGet_codelim, State.csrSet_codelim, State.cx_onCx]
  exact ofHiBits_of_clean hc

theorem State.readback_stat (hc : v.toNat &&& (2 ^ 64 - 1 - (bitsOf 56 16 + bitsOf 12 0)) = 0) (hcount : nbits v.toNat 0 13 ≤ 4096) :
    (s.csrSet 0x01D v).csrGet 0x01D = v := by
  have h := lt_of_clean 57 hc (by decide) (by decide)
  have hgap := nbits_of_clean hc 13 3 (by decide) (by decide)
  rw [State.csrGet_stat, State.csrSet_stat, State.cx_onCx]
  refine wd_eq ?_
  dsimp only
  rw [Nat.min_eq_right hcount, BitVec.toNat_ofNat, BitVec.toNat_ofNat]
  unfold nbits at hgap ⊢
  omega

theorem State.readback_coll (hc : v.toNat &&& (2 ^ 64 - 1 - (bitsOf 56 12 + bitsOf 10 0)) = 0) : (s.csrSet 0x01E v).csrGet 0x01E = v := by
  have h := lt_of_clean 57 hc (by decide) (by decide)
  have hgap := nbits_of_clean hc 11 1 (by decide) (by decide)
  rw [State.csrGet_coll, State.csrSet_coll, State.cx_onCx]
  refine wd_eq ?_
  dsimp only
  rw [BitVec.toNat_ofNat, BitVec.toNat_ofNat]
  unfold nbits at hgap ⊢
  omega

theorem State.readback_rassp (hc : v.toNat &&& (2 ^ 64 - 1 - bitsOf 36 0) = 0) : (s.csrSet 0x01F v).csrGet 0x01F = v := by
  have h := lt_of_clean 37 hc (by decide) (by decide)
  rw [State.csrGet_rassp, State.csrSet_rassp, State.st_onSt]
  refine wd_eq ?_
  dsimp only
  rw [BitVec.toNat_ofNat, BitVec.toNat_ofNat]
  unfold nbits
  omega

theorem State.readback_rasBase (hc : v.toNat &&& (2 ^ 64 - 1 - bitsOf 56 3) = 0) : (s.csrSet 0x020 v).csrGet 0x020 = v := by
  have h := lt_of_clean 57 hc (by decide) (by decide)
  have hlow := nbits_of_clean hc 0 3 (by decide) (by decide)
  rw [State.csrGet_rasBase, State.csrSet_rasBase, State.st_onSt]
  refine wd_eq ?_
  dsimp only
  rw [BitVec.toNat_ofNat]
  unfold nbits at hlow ⊢
  omega

theorem State.readback_ras {n : Nat} (h30 : 0x30 ≤ n) (h3F : n ≤ 0x3F) (hk : n - 0x30 < s.st.rasCount.toNat)
    (hc : v.toNat &&& (2 ^ 64 - 1 - bitsOf 56 0) = 0) : (s.csrSet n v).csrGet n = v := by
  rw [State.csrSet_ras s v h30 h3F, State.csrGet_ras _ h30 h3F (by rw [State.st_onSt, Stream.rasCount_setRas]; exact hk), State.st_onSt,
    Stream.getRas_setRas _ _ (by omega)]
  exact ofHiBits_or_defer (lt_of_clean 57 hc (by decide) (by decide))

theorem State.readback_gtbase (hc : v.toNat &&& (2 ^ 64 - 1 - bitsOf 56 18) = 0) : (s.csrSet 0x040 v).csrGet 0x040 = v := by
  have h := lt_of_clean 57 hc (by decide) (by decide)
  have hlow := nbits_of_clean hc 0 18 (by decide) (by decide)
  rw [State.csrSet_gtbase, State.csrGet_gtbase, show (s.onDev s.cdev _).cdev = s.cdev from rfl, State.dev_onDev]
  refine wd_eq ?_
  dsimp only
  rw [BitVec.toNat_ofNat]
  unfold nbits at hlow ⊢
  omega

theorem State.readback_tvec (hc : v.toNat &&& (2 ^ 64 - 1 - bitsOf 56 1) = 0) : (s.csrSet 0x100 v).csrGet 0x100 = v := by
  rw [State.csrGet_tvec, State.csrSet_tvec, State.st_onSt]
  exact ofHiBits_of_clean hc

theorem State.readback_epc (hc : v.toNat &&& (2 ^ 64 - 1 - bitsOf 56 1) = 0) : (s.csrSet 0x101 v).csrGet 0x101 = v := by
  rw [State.csrGet_epc, State.csrSet_epc, State.st_onSt]
  exact ofHiBits_of_clean hc

theorem State.readback_ehdr (hc : v.toNat &&& (2 ^ 64 - 1 - bitsOf 56 1) = 0) : (s.csrSet 0x102 v).csrGet 0x102 = v := by
  rw [State.csrGet_ehdr, State.csrSet_ehdr, State.st_onSt]
  exact ofHiBits_of_clean hc

theorem State.readback_erem (hc : v.toNat &&& (2 ^ 64 - 1 - bitsOf 63 32) = 0) : (s.csrSet 0x103 v).csrGet 0x103 = v := by
  have h := v.isLt
  have hlow := nbits_of_clean hc 0 32 (by decide) (by decide)
  rw [State.csrGet_erem, State.csrSet_erem, State.st_onSt]
  refine wd_eq ?_
  dsimp only
  rw [BitVec.toNat_ofNat]
  unfold nbits at hlow ⊢
  omega

theorem State.readback_tscr0 : (s.csrSet 0x108 v).csrGet 0x108 = v := by
  rw [State.csrGet_tscr0, State.csrSet_tscr0, State.st_onSt]

theorem State.readback_tscr1 : (s.csrSet 0x109 v).csrGet 0x109 = v := by
  rw [State.csrGet_tscr1, State.csrSet_tscr1, State.st_onSt]

theorem State.readback_hzd (hc : v.toNat &&& (2 ^ 64 - 1 - bitsOf 1 0) = 0) : (s.csrSet 0x10B v).csrGet 0x10B = v := by
  have h := lt_of_clean 2 hc (by decide) (by decide)
  rw [State.csrGet_hzd, State.csrSet_hzd, State.cx_onCx]
  refine wd_eq ?_
  dsimp only
  rw [getLsbD_eq_mod, getLsbD_eq_mod]
  simp only [decide_eq_true_eq]
  split <;> split <;> omega

theorem State.readback_kttnpa (hc : v.toNat &&& (2 ^ 64 - 1 - bitsOf 51 16) = 0) : (s.csrSet 0x10D v).csrGet 0x10D = v := by
  have h := lt_of_clean 52 hc (by decide) (by decide)
  have hlow := nbits_of_clean hc 0 16 (by decide) (by decide)
  rw [State.csrGet_kttnpa, State.csrSet_kttnpa, State.cx_onCx]
  refine wd_eq ?_
  dsimp only
  rw [BitVec.toNat_ofNat]
  unfold nbits at hlow ⊢
  omega

end

/-! ### Which registers there are -/

/-- Walking down the table of the registers. -/
theorem csrInfo_ite {c : Prop} [Decidable c] {a b : Option CsrInfo} {i : CsrInfo} {Q : Prop} (ha : c → a = some i → Q)
    (hb : ¬ c → b = some i → Q) : (if c then a else b) = some i → Q := by
  split
  · exact ha ‹_›
  · exact hb ‹_›

/-- A field of the register is written by some privilege. -/
def CsrInfo.writable (i : CsrInfo) : Prop := i.ws ≠ 0 ∨ i.wu ≠ 0

theorem csrRo_not_writable {m : Nat} {i : CsrInfo} {Q : Prop} (h : csrRo m = some i) (hw : i.writable) : Q := by
  cases h
  exact absurd hw (by simp [CsrInfo.writable])

theorem csrOwn_of {n : Nat} {i : CsrInfo} (hi : csrInfo n = some i) (hw : i.writable) (h4 : n ≠ 0x004) : csrOwn n := by
  refine ⟨?_, ?_, ?_⟩
  · by_contra h
    have : n < 5 := by omega
    interval_cases n
    · exact csrRo_not_writable (m := bitsOf 14 1) hi hw
    · exact csrRo_not_writable (m := bitsOf 8 0) hi hw
    · exact csrRo_not_writable (m := bitsOf 31 0) hi hw
    · exact csrRo_not_writable (m := bitsOf 31 0) hi hw
    · exact h4 rfl
  · rintro rfl
    exact csrRo_not_writable (m := bitsOf 7 0) hi hw
  · by_contra h
    have : 0x021 ≤ n ∧ n ≤ 0x02F := by omega
    obtain ⟨h1, h2⟩ := this
    interval_cases n <;> cases hi

/-- No number between cr.rasbase and the entries of the return-address store is assigned. -/
theorem csrInfo_gap {m : Nat} (h : csrInfo m ≠ none) : m ≤ 0x020 ∨ 0x030 ≤ m := by
  by_contra hg
  have : 0x021 ≤ m ∧ m ≤ 0x02F := by omega
  obtain ⟨h1, h2⟩ := this
  interval_cases m <;> exact h rfl

/-- A write of a value without a reserved bit reads back (R240), where cr.statbase names no more entries than there are, and where the
registers with a part that a write does not reach show that part. -/
theorem State.csrGet_csrSet (s : State) {n : Nat} {i : CsrInfo} {v : Word} (hi : csrInfo n = some i) (hw : i.writable)
    (hact : n ∉ [0x004, 0x041, 0x10C, 0x10E]) (hc : v.toNat &&& (2 ^ 64 - 1 - i.fld) = 0)
    (hstat : n = 0x01D → nbits v.toNat 0 13 ≤ 4096) (htime : n = 0x01A → v.getLsbD 0 = (s.csrGet n).getLsbD 0)
    (hras : 0x030 ≤ n → n < 0x040 → n - 0x030 < s.st.rasCount.toNat) : (s.csrSet n v).csrGet n = v := by
  simp only [List.mem_cons, List.not_mem_nil, or_false, not_or] at hact
  obtain ⟨h004, h041, h10C, h10E⟩ := hact
  revert hi
  unfold csrInfo
  refine csrInfo_ite (fun _ h => csrRo_not_writable h hw) fun _ => ?_
  refine csrInfo_ite (fun _ h => csrRo_not_writable h hw) fun _ => ?_
  refine csrInfo_ite (fun _ h => csrRo_not_writable h hw) fun _ => ?_
  refine csrInfo_ite (fun e _ => absurd e h004) fun _ => ?_
  refine csrInfo_ite (fun e h => ?_) fun _ => ?_
  · cases h; subst e; exact s.readback_rrb hc
  refine csrInfo_ite (fun e h => ?_) fun _ => ?_
  · cases h; simp only [Bool.and_eq_true, decide_eq_true_eq] at e; exact s.readback_lc e.1 e.2 hc
  refine csrInfo_ite (fun e h => ?_) fun _ => ?_
  · cases h; subst e; exact s.readback_uthr hc
  refine csrInfo_ite (fun e h => ?_) fun _ => ?_
  · cases h; subst e; exact s.readback_vsc hc
  refine csrInfo_ite (fun e h => ?_) fun _ => ?_
  · subst e; exact s.readback_vcnt
  refine csrInfo_ite (fun _ h => csrRo_not_writable h hw) fun _ => ?_
  refine csrInfo_ite (fun e h => ?_) fun _ => ?_
  · cases h; subst e; exact s.readback_mrow hc
  refine csrInfo_ite (fun e h => ?_) fun _ => ?_
  · cases h; subst e; exact s.readback_replan hc
  refine csrInfo_ite (fun e h => ?_) fun _ => ?_
  · cases h; simp only [Bool.and_eq_true, decide_eq_true_eq] at e; exact s.readback_mcset e.1 e.2 hc
  refine csrInfo_ite (fun e h => ?_) fun _ => ?_
  · cases h; subst e; exact s.readback_semb hc
  refine csrInfo_ite (fun e h => ?_) fun _ => ?_
  · subst e; exact s.readback_time
  refine csrInfo_ite (fun e h => ?_) fun _ => ?_
  · cases h; subst e; exact s.readback_timeSrc hc (htime rfl)
  refine csrInfo_ite (fun e h => ?_) fun _ => ?_
  · cases h
    simp only [Bool.or_eq_true, decide_eq_true_eq] at e
    obtain rfl | rfl := e
    · exact s.readback_codebase hc
    · exact s.readback_codelim hc
  refine csrInfo_ite (fun e h => ?_) fun _ => ?_
  · cases h; subst e; exact s.readback_stat hc (hstat rfl)
  refine csrInfo_ite (fun e h => ?_) fun _ => ?_
  · cases h; subst e; exact s.readback_coll hc
  refine csrInfo_ite (fun e h => ?_) fun _ => ?_
  · cases h; subst e; exact s.readback_rassp hc
  refine csrInfo_ite (fun e h => ?_) fun _ => ?_
  · cases h; subst e; exact s.readback_rasBase hc
  refine csrInfo_ite (fun e h => ?_) fun _ => ?_
  · cases h
    simp only [Bool.and_eq_true, decide_eq_true_eq] at e
    obtain ⟨h30, h3F⟩ := e
    exact s.readback_ras h30 h3F (hras h30 (by omega)) hc
  refine csrInfo_ite (fun e h => ?_) fun _ => ?_
  · cases h; subst e; exact s.readback_gtbase hc
  refine csrInfo_ite (fun e _ => absurd e h041) fun _ => ?_
  refine csrInfo_ite (fun e h => ?_) fun _ => ?_
  · cases h
    simp only [Bool.and_eq_true, decide_eq_true_eq] at e
    obtain ⟨h100, h102⟩ := e
    interval_cases n
    · exact s.readback_tvec hc
    · exact s.readback_epc hc
    · exact s.readback_ehdr hc
  refine csrInfo_ite (fun e h => ?_) fun _ => ?_
  · cases h; subst e; exact s.readback_erem hc
  refine csrInfo_ite (fun _ h => csrRo_not_writable h hw) fun _ => ?_
  refine csrInfo_ite (fun _ h => csrRo_not_writable h hw) fun _ => ?_
  refine csrInfo_ite (fun _ h => csrRo_not_writable h hw) fun _ => ?_
  refine csrInfo_ite (fun e h => ?_) fun _ => ?_
  · simp only [Bool.or_eq_true, decide_eq_true_eq] at e
    obtain rfl | rfl := e
    · exact s.readback_tscr0
    · exact s.readback_tscr1
  refine csrInfo_ite (fun _ h => csrRo_not_writable h hw) fun _ => ?_
  refine csrInfo_ite (fun e h => ?_) fun _ => ?_
  · cases h; subst e; exact s.readback_hzd hc
  refine csrInfo_ite (fun e _ => absurd e h10C) fun _ => ?_
  refine csrInfo_ite (fun e h => ?_) fun _ => ?_
  · cases h; subst e; exact s.readback_kttnpa hc
  refine csrInfo_ite (fun e _ => absurd e h10E) fun _ => ?_
  refine csrInfo_ite (fun _ h => csrRo_not_writable h hw) fun _ => ?_
  refine csrInfo_ite (fun _ h => csrRo_not_writable h hw) fun _ => ?_
  exact nofun

end Sys2Proof.Machine
end

section
/-!
PROOF. Control registers: the checks of a write, and the actions that some writes ask for (R109, R239, R291, R310).
-/
namespace Sys2Proof.Machine

open Claims

/-! ### Going on and waiting after a register has been written -/

theorem StreamShows.of_sameRegs {a b : Stream} (h : SameRegs a b) (m : Nat) : StreamShows a b m where
  owner := h.owner
  ret := h.ret
  cause := by rw [h.trap]
  fdet := by rw [h.trap]
  faddr := by rw [h.trap]
  fsrc := by rw [h.trap]
  rrb _ := h.rrb
  lc _ _ := by unfold Stream.rlc; simp only [h.lc]
  uthr _ := h.uthr
  vsc _ := h.vsc
  vcnt _ := h.vcnt
  rasSpill _ := h.rasSpill
  rasCount _ := h.rasCount
  rasBase _ := h.rasBase
  ras _ _ := by unfold Stream.getRas; simp only [h.ras]
  tvec _ := by rw [h.trap]
  epc _ := by rw [h.trap]
  ehdr _ := by rw [h.trap]
  rem _ := by rw [h.trap]
  tscr0 _ := by rw [h.trap]
  tscr1 _ := by rw [h.trap]

/-- Going past an instruction changes no control register. -/
theorem State.csrGet_adv (s : State) (n : Word) (m : Nat) : (s.adv n).csrGet m = s.csrGet m := by
  have h := (went_adv' s n).regs
  rw [State.adv, State.st_onSt] at h
  exact State.csrGet_setSt (.of_sameRegs h m)

/-- The stream waits in its place. -/
theorem waits_stays (s : State) (w : WaitFor) : (s.waits w).st.status = .waiting ∧ (s.waits w).st.ex = s.st.ex ∧ SameRegs s.st (s.waits w).st ∧
    Beside s (s.waits w) := by
  refine ⟨by simp [State.waits], by simp [State.waits], ?_, Beside.onSt s _⟩
  rw [State.waits, State.st_onSt]
  constructor <;> rfl

/-- The stream waits for an action that it has asked for. -/
theorem ask_stays (s : State) (r : CsrReq) : ∃ t, s.ask r = .next t ∧ t.st.csrReq = r ∧ t.st.status = .waiting ∧ t.st.ex = s.st.ex ∧ Beside s t ∧
    SameRegs s.st t.st := by
  refine ⟨_, rfl, by simp [State.waits], by simp [State.waits], by simp [State.waits], (Beside.onSt s _).trans (Beside.onSt _ _), ?_⟩
  simp only [State.waits, State.st_onSt]
  constructor <;> rfl

/-! ### The checks of a write (R239, R240) -/

/-- The value that a write of the bits `set`, the bits `clr` cleared before, gives a register. -/
def State.csrNew (s : State) (n : Nat) (clr set : Word) : Word := (s.csrGet n &&& ~~~clr) ||| set

/-- A write passes the checks that every register makes. -/
structure CsrAdmits (s : State) (n : Nat) (i : CsrInfo) (clr set : Word) (part : Bool) : Prop where
  info : csrInfo n = some i
  priv : s.csrPriv n = true
  writable : (if s.st.priv == .s then i.ws else i.wu) ≠ 0
  clean : s.csrNew n clr set &&& ~~~wd i.fld = 0#64
  whole : part = false ∨ i.wo = 0

section
variable {s : State} {n : Nat} {i : CsrInfo} {clr set : Word} {part : Bool}

theorem csrWrite_unassigned (h : csrInfo n = none) : s.csrWrite n clr set part = s.raise .illegalOp := by
  unfold State.csrWrite
  rw [h]

theorem csrWrite_priv (hi : csrInfo n = some i) (hp : s.csrPriv n = false) : s.csrWrite n clr set part = s.raise .priv := by
  unfold State.csrWrite
  rw [hi]
  simp only [hp, Bool.not_false, if_true]

theorem csrWrite_readOnly (hi : csrInfo n = some i) (hp : s.csrPriv n = true) (hw : (if s.st.priv == .s then i.ws else i.wu) = 0) :
    s.csrWrite n clr set part = s.raise .crRo := by
  unfold State.csrWrite
  rw [hi]
  simp only [hp, hw, Bool.not_true, Bool.false_eq_true, if_false, beq_self_eq_true, if_true]

theorem csrWrite_reserved (hi : csrInfo n = some i) (hp : s.csrPriv n = true) (hw : (if s.st.priv == .s then i.ws else i.wu) ≠ 0)
    (hc : ¬ (s.csrNew n clr set &&& ~~~wd i.fld = 0#64 ∧ (part = false ∨ i.wo = 0))) : s.csrWrite n clr set part = s.raise .crValue := by
  have hb : (s.csrNew n clr set &&& ~~~wd i.fld != 0#64 || (part && i.wo != 0)) = true := by
    by_contra h
    refine hc ?_
    cases part <;> simp_all
  unfold State.csrWrite
  rw [hi]
  simp only [hp, beq_eq_false_iff_ne.2 hw, Bool.not_true, Bool.false_eq_true, if_false]
  exact if_pos hb

/-- What remains of an admitted write: the register's own rule, and its effect. -/
theorem CsrAdmits.write_eq (h : CsrAdmits s n i clr set part) : s.csrWrite n clr set part =
    if n = 0x004 then
      if s.csrNew n clr set == 3#64 then s.raise .crValue else s.ask (.det (clr.setWidth 2) (set.setWidth 2) s.nextId)
    else if n = 0x041 then s.gtWrite (s.csrNew n clr set)
    else if n = 0x10C then s.kttWrite (s.csrNew n clr set)
    else if n = 0x10E then s.ctxWrite (s.csrNew n clr set)
    else if s.csrBad n (s.csrNew n clr set) then s.raise .crValue
    else .next ((s.csrSet n (s.csrNew n clr set)).adv 4) := by
  obtain ⟨hi, hp, hw, hc, hwo⟩ := h
  have hb : (s.csrNew n clr set &&& ~~~wd i.fld != 0#64 || (part && i.wo != 0)) = false := by
    obtain rfl | ho := hwo <;> simp_all
  unfold State.csrWrite
  rw [hi]
  simp only [hp, beq_eq_false_iff_ne.2 hw, Bool.not_true, Bool.false_eq_true, if_false]
  exact if_neg (by rw [show ((s.csrGet n &&& ~~~clr ||| set) &&& ~~~wd i.fld != 0#64 || (part && i.wo != 0)) = false from hb]; exact Bool.false_ne_true)

theorem CsrAdmits.write_det (h : CsrAdmits s 0x004 i clr set part) (h3 : s.csrNew 0x004 clr set ≠ 3) :
    s.csrWrite 0x004 clr set part = s.ask (.det (clr.setWidth 2) (set.setWidth 2) s.nextId) := by
  rw [h.write_eq, if_pos rfl, if_neg (by simpa using h3)]

theorem CsrAdmits.write_gtcmd (h : CsrAdmits s 0x041 i clr set part) :
    s.csrWrite 0x041 clr set part = s.gtWrite (s.csrNew 0x041 clr set) := h.write_eq

theorem CsrAdmits.write_kttop (h : CsrAdmits s 0x10C i clr set part) :
    s.csrWrite 0x10C clr set part = s.kttWrite (s.csrNew 0x10C clr set) := h.write_eq

theorem CsrAdmits.write_ctxctl (h : CsrAdmits s 0x10E i clr set part) :
    s.csrWrite 0x10E clr set part = s.ctxWrite (s.csrNew 0x10E clr set) := h.write_eq

theorem CsrAdmits.write_own (h : CsrAdmits s n i clr set part) (hn : n ∉ [0x004, 0x041, 0x10C, 0x10E]) : s.csrWrite n clr set part =
    if s.csrBad n (s.csrNew n clr set) then s.raise .crValue else .next ((s.csrSet n (s.csrNew n clr set)).adv 4) := by
  simp only [List.mem_cons, List.not_mem_nil, or_false, not_or] at hn
  obtain ⟨h004, h041, h10C, h10E⟩ := hn
  rw [h.write_eq, if_neg h004, if_neg h041, if_neg h10C, if_neg h10E]

end

theorem csrInfo_fld_lt {n : Nat} {i : CsrInfo} (hi : csrInfo n = some i) : i.fld < 2 ^ 64 := by
  revert hi
  unfold csrInfo
  repeat' refine csrInfo_ite (fun _ => ?_) (fun _ => ?_)
  all_goals intro h; cases h
  all_goals decide

/-- A value has no reserved bit, said of the number and of the word. -/
theorem clean_iff {n : Nat} {i : CsrInfo} (hi : csrInfo n = some i) (v : Word) :
    v.toNat &&& (2 ^ 64 - 1 - i.fld) = 0 ↔ v &&& ~~~wd i.fld = 0#64 := by
  rw [← BitVec.toNat_inj, BitVec.toNat_and, BitVec.toNat_not, wd, BitVec.toNat_ofNat, Nat.mod_eq_of_lt (csrInfo_fld_lt hi)]
  rfl

theorem toNat_extract {w : Nat} (v : BitVec w) (lo n : Nat) : (v.extractLsb' lo n).toNat = nbits v.toNat lo n := by
  rw [BitVec.extractLsb'_toNat, Nat.shiftRight_eq_div_pow, nbits]

/-- The rules of cr.time, cr.timesrc and cr.rassp (R115, R147). -/
theorem csrBad_eq_false_iff (s : State) (n : Nat) (v : Word) : s.csrBad n v = false ↔
    (n = 0x019 → (s.csrGet n).toNat ≤ v.toNat) ∧ (n = 0x01A → v.extractLsb' 1 2 ≠ 3) ∧ (n = 0x01F → (v.extractLsb' 0 5).toNat ≤ 16) := by
  have h12 : v.extractLsb' 1 2 = 3 ↔ nbits v.toNat 1 2 = 3 := by
    rw [← BitVec.toNat_inj, toNat_extract]
    rfl
  rw [Ne, h12, toNat_extract]
  unfold State.csrBad
  split
  next h =>
    subst h
    simp [State.csrGet_time, BitVec.ult]
  next h19 =>
    split
    next h =>
      subst h
      simp
    next h1A =>
      split
      next h =>
        subst h
        simp
      next h1F => simp [h19, h1A, h1F]

open Claims

/-! ### The actions that a write asks for (R109, R291, R310) -/

theorem kttWrite_admitted {s : State} {v : Word} (hb : s.cktt.busy = none)
    (hr : s.cktt.refuses (nbits v.toNat 56 4) (nbits v.toNat 0 13) s.cx.npa = false) :
    s.kttWrite v = s.ask (if nbits v.toNat 56 4 = 1 then .kttAbsent (nbits v.toNat 0 13)
      else if nbits v.toNat 56 4 = 2 then .kttPresent (nbits v.toNat 0 13) else .kttMigrate (nbits v.toNat 0 13)) := by
  unfold State.kttWrite
  simp only [hb, hr, Option.isSome_none, Bool.false_eq_true, if_false, beq_iff_eq]
  split
  · rfl
  split
  · rfl
  · rfl

theorem ctxWrite_kill {s : State} {v : Word} (h : v.getLsbD 0 = true) : s.ctxWrite v = s.ask .kill := by
  unfold State.ctxWrite
  exact if_pos h

/-- The code of an engine's queue in cr.ctxctl. -/
def skipCode : Eng → Nat
  | .me => 0
  | .ce => 1
  | .cs => 2

/-- A SKIP acts on a queue that stands stopped alone: by its own stop, or at a head that has ended. -/
theorem ctxWrite_skip {s : State} {v : Word} {e : Eng} (h0 : v.getLsbD 0 = false) (h1 : v.getLsbD 1 = true)
    (he : nbits v.toNat 2 2 = skipCode e) : s.ctxWrite v =
      if ((s.core s.cur.core).queue e).stop == .going && !((s.core s.cur.core).queue e).cmds.head?.any EngCmd.ended then .next (s.adv 4)
      else s.ask (.skip e) := by
  unfold State.ctxWrite
  cases e <;> simp only [h0, h1, he, skipCode, Bool.false_eq_true, Bool.not_true, if_false]

theorem ctxWrite_none {s : State} {v : Word} (h0 : v.getLsbD 0 = false) (h : v.getLsbD 1 = false ∨ nbits v.toNat 2 2 = 3) :
    s.ctxWrite v = .next (s.adv 4) := by
  unfold State.ctxWrite
  obtain h1 | h3 := h
  · simp only [h0, h1, Bool.false_eq_true, Bool.not_false, if_false, if_true]
  · simp only [h0, h3, Bool.false_eq_true, if_false, ite_self]

/-- A queue stands stopped, said by the model and by the statement. -/
theorem stopped_iff (q : EngQueue) : (q.stop == .going && !q.cmds.head?.any EngCmd.ended) = false ↔
    q.stop ≠ .going ∨ ∃ h, q.cmds.head? = some h ∧ h.ended = true := by
  simp only [Bool.and_eq_false_iff, beq_eq_false_iff_ne, Bool.not_eq_false', Option.any_eq_true]

theorem gtWrite_busy {s : State} {v : Word} (h : (s.dev s.cdev).gtReq.isSome = true) (h1 : 1 ≤ nbits v.toNat 12 4) (h4 : nbits v.toNat 12 4 ≤ 4) :
    s.gtWrite v = .next (s.waits .none) := by
  unfold State.gtWrite
  have ha : (nbits v.toNat 12 4 == 0 || decide (4 < nbits v.toNat 12 4)) = false := by
    simp
    omega
  simp only [ha, h, Bool.false_eq_true, if_false, if_true]

/-- What a write of cr.gtcmd asks a device for. -/
def gtReqOf (s : State) (v : Word) : GtReq :=
  { act := nbits v.toNat 12 4, dev := nbits v.toNat 16 11, group := BitVec.ofNat 12 (nbits v.toNat 0 12), asid := s.cx.asid.toNat,
    launch := s.lidOf s.xid }

/-- The device has been asked for an action, and the stream has gone on. -/
def State.gtStart (s : State) (r : GtReq) : State := (s.onDev s.cdev fun d => { d with gtReq := some r }).adv 4

theorem gtWrite_starts {s : State} {v : Word} (h : (s.dev s.cdev).gtReq = none) (h1 : 1 ≤ nbits v.toNat 12 4) (h4 : nbits v.toNat 12 4 ≤ 4)
    (hps : nbits v.toNat 12 4 ≤ 2 → ∃ ps, s.xlAccess ⟨s.xid, s.cx.asid.toNat, .u, .load, .scalar⟩ (gtEntryVa (s.dev s.cdev) (nbits v.toNat 0 12)) 64 =
      .ok ps) :
    s.gtWrite v = .next (s.gtStart (gtReqOf s v)) := by
  unfold State.gtWrite
  have ha : (nbits v.toNat 12 4 == 0 || decide (4 < nbits v.toNat 12 4)) = false := by
    simp
    omega
  simp only [ha, h, Option.isSome_none, Bool.false_eq_true, if_false]
  by_cases h2 : nbits v.toNat 12 4 ≤ 2
  · obtain ⟨ps, e⟩ := hps h2
    simp only [h2, if_true, e]
    rfl
  · simp only [h2, if_false]
    rfl

/-- Starting a group-table action changes no memory and nothing of the stream, its place apart. -/
theorem State.gtStart_passes (s : State) (r : GtReq) : (s.gtStart r).st.ex = s.st.ex.adv 4 ∧ SameRegs s.st (s.gtStart r).st ∧
    SameBytes s (s.gtStart r) ∧ ((s.gtStart r).dev s.cdev).gtReq = some r := by
  have w := went_adv' (s.onDev s.cdev fun d => { d with gtReq := some r }) 4
  have hb : SameBytes s (s.gtStart r) := by
    refine ⟨fun d a => ?_, fun d a => ?_, fun _ _ => rfl, fun _ _ => rfl, fun _ _ => rfl⟩
    · rw [State.gtStart, w.beside.bytes.mem]
      by_cases hd : d = s.cdev <;> simp [State.onDev, State.dev_setDev_if, hd]
    · rw [State.gtStart, w.beside.bytes.host]
      by_cases hd : d = s.cdev <;> simp [State.onDev, State.dev_setDev_if, hd]
  have hg : ((s.gtStart r).dev s.cdev).gtReq = some r := by
    rw [State.gtStart, show ((s.onDev s.cdev _).adv 4).dev s.cdev = (s.onDev s.cdev _).dev s.cdev from rfl, State.dev_onDev]
  exact ⟨w.place, w.regs, hb, hg⟩

/-! ### The three instructions that write -/

/-- How csrw, csrs and csrc are one operation: the bits that they clear and set, and whether they keep the others (R239). -/
theorem csrWrite_of (s : State) (n : BitVec 10) (a : BitVec 5) (op : BitVec 2) : ∃ clr set part,
    exec (if op = 0 then .csrw n a else if op = 1 then .csrs n a else .csrc n a) s = s.csrWrite n.toNat clr set part ∧
    s.csrNew n.toNat clr set = (if op = 0 then s.rs a else if op = 1 then s.csrGet n.toNat ||| s.rs a else s.csrGet n.toNat &&& ~~~s.rs a) ∧
    (part = false ↔ op = 0) ∧
    clr.setWidth 2 = (if op = 0 then 3 else if op = 1 then 0 else (s.rs a).setWidth 2 : BitVec 2) ∧
    set.setWidth 2 = (if op = 2 ∨ op = 3 then 0 else (s.rs a).setWidth 2 : BitVec 2) := by
  have hop : op = 0 ∨ op = 1 ∨ op = 2 ∨ op = 3 := by
    revert op
    decide
  obtain rfl | rfl | rfl | rfl := hop
  · exact ⟨BitVec.allOnes 64, s.rs a, false, rfl, by simp [State.csrNew], by simp, rfl, rfl⟩
  · exact ⟨0, s.rs a, true, rfl, by rw [State.csrNew, show ~~~(0 : Word) = BitVec.allOnes 64 from rfl, BitVec.and_allOnes]; rfl, by simp, rfl, rfl⟩
  · exact ⟨s.rs a, 0, true, rfl, by simp [State.csrNew], by simp, rfl, rfl⟩
  · exact ⟨s.rs a, 0, true, rfl, by simp [State.csrNew], by simp, rfl, rfl⟩

theorem csrPriv_of {s : State} {n : Nat} (h : n < 0x040 ∨ s.st.priv = .s) : s.csrPriv n = true := by
  simpa [State.csrPriv] using h

theorem csrPriv_false {s : State} {n : Nat} (hn : 0x040 ≤ n) (hu : s.st.priv = .u) : s.csrPriv n = false := by
  have hs : ¬ n < 0x040 := by omega
  simp [State.csrPriv, hu, hs]

theorem execCsrr_eq {s : State} {n : BitVec 10} (d : BitVec 5) {i : CsrInfo} (hi : csrInfo n.toNat = some i) :
    exec (.csrr d n) s = if s.csrPriv n.toNat then s.put d (s.csrGet n.toNat) else s.raise .priv := by
  change execCsrr d n s = _
  unfold execCsrr
  rw [hi]

/-- csrr reads an assigned register that the privilege may name (R239). -/
theorem csrr_settled (s : State) (d : BitVec 5) (n : BitVec 10) :
    (csrInfo n.toNat ≠ none → (n.toNat < 0x040 ∨ s.st.priv = .s) → Writes s (.csrr d n) d (s.csrGet n.toNat) 4) ∧
    (csrInfo n.toNat = none → CanTrap s → Raises s (.csrr d n) .illegalOp 0 0) ∧
    (csrInfo n.toNat ≠ none → 0x040 ≤ n.toNat → CanTrap s → Raises s (.csrr d n) .priv 0 0) := by
  refine ⟨fun hi hp => ?_, fun hi ht => ?_, fun hi hn ht => ?_⟩
  · obtain ⟨i, hi⟩ := Option.ne_none_iff_exists'.1 hi
    obtain ⟨t, e, w⟩ := went_put s d (s.csrGet n.toNat) 4
    exact ⟨t, by rw [execCsrr_eq d hi, if_pos (csrPriv_of hp), e], w⟩
  · refine raises_of ?_ ht rfl
    change execCsrr d n s = _
    unfold execCsrr
    rw [hi]
  · obtain ⟨i, hi⟩ := Option.ne_none_iff_exists'.1 hi
    exact raises_of (by rw [execCsrr_eq d hi, csrPriv_false hn ht.1]; rfl) ht rfl

/-- A register that the stream's privilege writes is writable. -/
theorem writable_of {s : State} {i : CsrInfo} (h : (if s.st.priv == .s then i.ws else i.wu) ≠ 0) : i.writable := by
  split at h
  · exact .inl h
  · exact .inr h

/-- S writes the three registers that ask for an action of S. -/
theorem csrInfo_ws_ne {n : Nat} {i : CsrInfo} (hi : csrInfo n = some i) (hn : n ∈ [0x041, 0x10C, 0x10E]) : i.ws ≠ 0 := by
  simp only [List.mem_cons, List.not_mem_nil, or_false] at hn
  obtain rfl | rfl | rfl := hn <;> cases hi <;> decide

/-- Every privilege writes cr.det. -/
theorem csrInfo_det_ne {n : Nat} {i : CsrInfo} (hi : csrInfo n = some i) (hn : n = 0x004) {s : State} :
    ¬ (if s.st.priv = .s then i.ws else i.wu) = 0 := by
  subst hn
  cases hi
  split <;> decide

/-- What a write leaves that takes effect in its own step (R240). -/
theorem csrSet_settled (s : State) {n : Nat} {i : CsrInfo} {v : Word} (hi : csrInfo n = some i) (hw : i.writable)
    (hact : n ∉ [0x004, 0x041, 0x10C, 0x10E]) (hc : v.toNat &&& (2 ^ 64 - 1 - i.fld) = 0) :
    let t := (s.csrSet n v).adv 4
    t.st.ex = s.st.ex.adv 4 ∧ t.st.status = .running ∧ SameBytes s t ∧ t.cores = s.cores ∧ (∀ id, id ≠ s.cur → t.strm id = s.strm id) ∧
    StreamKept { s.st with ex := t.st.ex } t.st ∧
    (∀ m, m ≠ n → csrInfo m ≠ none → (n = 0x01F → m < 0x030 ∨ 0x040 ≤ m) → t.csrGet m = s.csrGet m) ∧
    ((n = 0x01D → nbits v.toNat 0 13 ≤ 4096) → (n = 0x01A → v.getLsbD 0 = (s.csrGet n).getLsbD 0) →
      (0x030 ≤ n → n < 0x040 → n - 0x030 < s.st.rasCount.toNat) → t.csrGet n = v) := by
  intro t
  have hn : n ≠ 0x004 := by
    rintro rfl
    exact hact (by decide)
  have w := s.csrSet_writes (csrOwn_of hi hw hn) v
  have p := went_adv' (s.csrSet n v) 4
  have k := w.kept
  have r := p.regs
  refine ⟨?_, p.runs, ⟨fun d a => ?_, fun d a => ?_, fun x a => ?_, fun x a => ?_, fun x a => ?_⟩, p.beside.cores.trans w.cores, fun id h => ?_,
    ?_, fun m hm ha hr => ?_, fun h1 h2 h3 => ?_⟩
  · exact p.place.trans (by rw [w.kept.ex])
  · exact (p.beside.bytes.mem d a).trans (w.bytes.mem d a)
  · exact (p.beside.bytes.host d a).trans (w.bytes.host d a)
  · exact (p.beside.bytes.wb x a).trans (w.bytes.wb x a)
  · exact (p.beside.bytes.ab x a).trans (w.bytes.ab x a)
  · exact (p.beside.bytes.cbuf x a).trans (w.bytes.cbuf x a)
  · exact (p.beside.streams id (by rw [w.cur]; exact h)).trans (w.streams id h)
  · exact ⟨r.s.trans k.s, r.v.trans k.v, r.p.trans k.p, r.l.trans k.l, r.fmt.trans k.fmt, r.tx.trans k.tx, r.tails.trans k.tails,
      r.priv.trans k.priv, r.sq.trans k.sq, r.pend.trans k.pend, rfl⟩
  · exact (State.csrGet_adv ..).trans (w.reads m hm (csrInfo_gap ha) hr)
  · exact (State.csrGet_adv ..).trans (s.csrGet_csrSet hi hw hact hc h1 h2 h3)

end Sys2Proof.Machine
end

section
/-!
PROOF. Control registers: the statement.
-/
namespace Sys2Proof
open Sys2Proof.Machine Sys2Proof.Claims

/-- Settles O46: csrw, csrs and csrc are one operation, which makes the checks of every register, then the register's own; each clause is one
of its outcomes. -/
theorem controlRegisters : Obligations.ControlRegisters := by
  refine ⟨csrr_settled, fun s => ?_, fun s a n op i => ?_⟩
  · refine ⟨s.csrGet_det, s.csrGet_rrb, s.csrGet_uthr, s.csrGet_vcnt, s.csrGet_time, s.csrGet_cause, s.csrGet_epc, s.csrGet_asid, fun k => ?_⟩
    rw [State.csrGet_lc s (by omega) (by have := k.isLt; omega), Nat.add_sub_cancel_left, BitVec.ofNat_toNat, BitVec.setWidth_eq]
    rfl
  intro x old ins v writable open_ clean rule act halted asks
  obtain ⟨clr, set, part, hex, hv, hpart, hclr, hset⟩ := csrWrite_of s n a op
  change exec ins s = _ at hex
  change _ = v at hv
  have hasks {r : CsrReq} (e : exec ins s = s.ask r) : asks r := by
    obtain ⟨t, ht, hr⟩ := ask_stays s r
    exact ⟨t, e.trans ht, hr⟩
  refine ⟨fun hi ht => raises_of (hex.trans (csrWrite_unassigned hi)) ht rfl, fun hi => ?_⟩
  have hwrite : writable = if s.st.priv == .s then i.ws else i.wu := by simp [writable]
  have hclean : clean ↔ s.csrNew n.toNat clr set &&& ~~~wd i.fld = 0#64 ∧ (part = false ∨ i.wo = 0) := by
    rw [hv, hpart, ← clean_iff hi]
  have hadm (hp : n.toNat < 0x040 ∨ s.st.priv = .s) (hw : writable ≠ 0) (hc : clean) : CsrAdmits s n.toNat i clr set part :=
    ⟨hi, csrPriv_of hp, hwrite ▸ hw, (hclean.1 hc).1, (hclean.1 hc).2⟩
  have hsup (hs : s.st.priv = .s) (hn : n.toNat ∈ [0x041, 0x10C, 0x10E]) (hc : clean) : CsrAdmits s n.toNat i clr set part :=
    hadm (.inr hs) (by simpa [writable, hs] using csrInfo_ws_ne hi hn) hc
  have hgt (hs : s.st.priv = .s) (hc : clean) (hn : n.toNat = 0x041) : exec ins s = s.gtWrite v := by
    have h := hsup hs (by simp [hn]) hc
    rw [hn] at h hex hv
    rw [hex, h.write_gtcmd, hv]
  have hktt (hs : s.st.priv = .s) (hc : clean) (hn : n.toNat = 0x10C) : exec ins s = s.kttWrite v := by
    have h := hsup hs (by simp [hn]) hc
    rw [hn] at h hex hv
    rw [hex, h.write_kttop, hv]
  have hctx (hs : s.st.priv = .s) (hc : clean) (hn : n.toNat = 0x10E) : exec ins s = s.ctxWrite v := by
    have h := hsup hs (by simp [hn]) hc
    rw [hn] at h hex hv
    rw [hex, h.write_ctxctl, hv]
  refine ⟨fun hn ht => ?_, fun hn hw ht => ?_, fun ⟨hp, hw⟩ hc => ?_, fun ⟨hp, hw⟩ hc hact => ?_, fun hc hn h3 => ?_, fun hs hc hn hb hr => ?_,
    fun hs hc hn h0 => ?_, fun e hs hc hn h0 h1 he => ?_, fun hs hc hn h0 h1 => ?_, fun hs hc hn hg h1 h4 => ?_, fun hs hc hn hg h1 h4 hps => ?_⟩
  · exact raises_of (hex.trans (csrWrite_priv hi (csrPriv_false hn ht.1))) ht rfl
  · exact raises_of (hex.trans (csrWrite_readOnly hi (csrPriv_of (.inl hn)) (hwrite ▸ hw))) ht rfl
  · have e := hex.trans (csrWrite_reserved hi (csrPriv_of hp) (hwrite ▸ hw) (hclean.not.1 hc))
    exact ⟨fun ht => raises_of e ht rfl, e⟩
  · have e := hex.trans ((hadm hp hw hc).write_own hact)
    rw [hv] at e
    have hrule : s.csrBad n.toNat v = false ↔ rule := csrBad_eq_false_iff s n.toNat v
    refine ⟨fun hr => ?_, fun hr => ?_⟩
    · rw [e, if_pos (by simpa using hrule.not.2 hr)]
    · obtain ⟨hplace, hrun, hbytes, hcores, hstrm, hk, hreads, hback⟩ := csrSet_settled s hi (writable_of (hwrite ▸ hw)) hact hc.1
      refine ⟨_, e.trans (if_neg (by rw [hrule.2 hr]; exact Bool.false_ne_true)), hplace, hrun, hbytes, hcores, hstrm, hk.s, hk.v, hk.p, hk.l,
        hk.fmt, hk.tx, hk.tails, hk.priv, hk.sq, hk.pend, hreads, fun h1 h2 h3 => hback (fun hn => ?_) h2 h3⟩
      rw [← toNat_extract]
      exact h1 hn
  · have h := hadm (.inl (by omega)) (by simpa [writable] using csrInfo_det_ne hi hn) hc
    rw [hn] at h hex hv
    refine hasks ?_
    rw [hex, h.write_det (by rw [hv]; exact h3), hclr, hset]
  · have hact : act = nbits v.toNat 56 4 := toNat_extract ..
    rw [hact, toNat_extract] at hr
    refine hasks ?_
    rw [hktt hs hc hn, kttWrite_admitted hb hr, hact, toNat_extract]
  · exact hasks ((hctx hs hc hn).trans (ctxWrite_kill h0))
  · have hcode : nbits v.toNat 2 2 = skipCode e := by
      rw [← toNat_extract, he]
      cases e <;> rfl
    have ex := (hctx hs hc hn).trans (ctxWrite_skip h0 h1 hcode)
    have hst := stopped_iff ((s.core s.cur.core).queue e)
    refine ⟨fun hh => hasks (ex.trans (if_neg (by rw [hst.2 hh]; exact Bool.false_ne_true))), fun hh => ?_⟩
    exact ⟨_, ex.trans (if_pos (by simpa using hst.not.2 hh)), went_adv' s 4⟩
  · have h3 : v.getLsbD 1 = false ∨ nbits v.toNat 2 2 = 3 := h1.imp_right fun h => by rw [← toNat_extract, h]; rfl
    exact ⟨_, (hctx hs hc hn).trans (ctxWrite_none h0 h3), went_adv' s 4⟩
  · rw [toNat_extract] at h1 h4
    obtain ⟨hst, hx, hr, hb⟩ := waits_stays s .none
    exact ⟨_, (hgt hs hc hn).trans (gtWrite_busy hg h1 h4), hst, hx, hr, hb⟩
  · simp only [toNat_extract] at h1 h4 hps
    obtain ⟨hx, hr, hb, hq⟩ := s.gtStart_passes (gtReqOf s v)
    refine ⟨_, (hgt hs hc hn).trans (gtWrite_starts hg h1 h4 hps), hx, hr, hb, hq.trans ?_⟩
    rw [gtReqOf, toNat_extract, toNat_extract, ← toNat_extract v 0 12, BitVec.ofNat_toNat, BitVec.setWidth_eq]
end Sys2Proof
end

section
/-!
PROOF. What a step of an execute cursor runs: the fetch of bytes that the instruction cache holds agrees with `decode`, and `runStep` at an
instruction is `arbitrate`.
-/
namespace Sys2Proof.Machine

open Claims

/-! ### Parcels that the instruction cache holds -/

/-- A parcel inside a line is its two bytes. -/
theorem parcelOf_elt8 (v : Vec) (k : Nat) : parcelOf (elt8 v k) (elt8 v (k + 1)) = v.extractLsb' (8 * k) 16 := by
  unfold parcelOf elt8
  rw [Nat.mul_add, BitVec.extractLsb'_append_extractLsb'_eq_extractLsb' rfl]

/-- A parcel whose bytes the instruction cache holds is fetched from it, and the fetch changes nothing. -/
theorem fetchParcel_of_codeByte {s : State} {id : SlotId} {a : Nat} {b0 b1 : Byte} (he : a % 2 = 0)
    (h0 : codeByte s id a = some b0) (h1 : codeByte s id (a + 1) = some b1) : s.fetchParcel id a = .ok s (parcelOf b0 b1) := by
  have hline : (a + 1) / 128 = a / 128 := by omega
  have hoff : (a + 1) % 128 = a % 128 + 1 := by omega
  unfold codeByte at h0 h1
  rw [hline, hoff] at h1
  obtain ⟨v, hv, rfl⟩ := Option.map_eq_some_iff.1 h0
  rw [hv] at h1
  obtain rfl : elt8 v (a % 128 + 1) = b1 := Option.some.inj h1
  unfold State.fetchParcel
  simp only [hv, parcelOf_elt8]

/-- What `decode` makes of bytes of which it leaves none. -/
theorem decode_all {bs : List Byte} {i : Instr} (h : decode bs = some (i, [])) :
    (∃ b0 b1, bs = [b0, b1] ∧ isWordParcel (parcelOf b0 b1) = false ∧ decodeParcel (parcelOf b0 b1) = some i) ∨
    (∃ b0 b1 b2 b3, bs = [b0, b1, b2, b3] ∧ isWordParcel (parcelOf b0 b1) = true ∧
      decodeWord (parcelOf b2 b3 ++ parcelOf b0 b1) = some i) := by
  unfold decode at h
  split at h
  · next b0 b1 rest =>
    cases hw : isWordParcel (parcelOf b0 b1) with
    | false =>
      simp only [hw, Bool.false_eq_true, if_false, Option.map_eq_some_iff, Prod.mk.injEq] at h
      obtain ⟨j, hj, rfl, rfl⟩ := h
      exact .inl ⟨b0, b1, rfl, hw, hj⟩
    | true =>
      simp only [hw, if_true] at h
      split at h
      · next b2 b3 rest' =>
        simp only [Option.map_eq_some_iff, Prod.mk.injEq] at h
        obtain ⟨j, hj, rfl, rfl⟩ := h
        exact .inr ⟨b0, b1, b2, b3, rfl, hw, hj⟩
      · cases h
  · cases h

/-- An instruction that is not misplaced in its block (R117). -/
theorem placed_of_decodeAt {c : Cursor} {p0 p1 : BitVec 16} {i : Instr} {n : Nat}
    (h : decodeAt p0 p1 (c.pc + 2 == c.fin) = some (i, n)) (hw : isWb i = true → c.pc + BitVec.ofNat 64 n = c.fin) :
    placed c p0 p1 = some (i, n) := by
  unfold placed
  simp only [h]
  by_cases hb : isWb i = true
  · simp [hw hb]
  · simp [hb]

/-- Bytes in the instruction cache that decode to an instruction, placed as R117 asks, are fetched as that instruction. -/
theorem fetchInstr_of_codeBytes {s : State} {id : SlotId} {c : Cursor} {i : Instr} {bs : List Byte} (hd : decode bs = some (i, []))
    (he : c.pc.toNat % 2 = 0) (hc : ∀ k < bs.length, codeByte s id (c.pc.toNat + k) = bs[k]?)
    (hl : bs.length = 4 → c.pc + 2 ≠ c.fin) (hw : isWb i = true → c.pc + BitVec.ofNat 64 bs.length = c.fin) :
    s.fetchInstr id c = .ok s (some (i, bs.length)) := by
  obtain ⟨b0, b1, rfl, hp, hi⟩ | ⟨b0, b1, b2, b3, rfl, hp, hi⟩ := decode_all hd
  · have h0 := fetchParcel_of_codeByte (b0 := b0) (b1 := b1) he (hc 0 (by simp)) (hc 1 (by simp))
    have hpl : placed c (parcelOf b0 b1) 0 = some (i, 2) := placed_of_decodeAt (by simp [decodeAt, hp, hi]) hw
    simp only [State.fetchInstr, h0, hp, hpl, Bool.not_false, Bool.true_or, if_true, List.length_cons, List.length_nil]
  · have h0 := fetchParcel_of_codeByte (b0 := b0) (b1 := b1) he (hc 0 (by simp)) (hc 1 (by simp))
    have h2 := fetchParcel_of_codeByte (b0 := b2) (b1 := b3) (s := s) (id := id) (a := c.pc.toNat + 2) (by omega) (hc 2 (by simp)) (hc 3 (by simp))
    have hne : (c.pc + 2 == c.fin) = false := by simpa using hl rfl
    have hpl : placed c (parcelOf b0 b1) (parcelOf b2 b3) = some (i, 4) := placed_of_decodeAt (by rw [hne]; simp [decodeAt, hp, hi]) hw
    simp only [State.fetchInstr, h0, h2, hp, hne, hpl, Bool.not_true, Bool.or_self, Bool.false_eq_true, if_false, List.length_cons, List.length_nil]

/-! ### A step of an execute cursor -/

/-- A step whose agenda names an execute cursor. -/
theorem step_run {s : State} {id : SlotId} {r : List Move} (h : s.agenda = .run id :: r) :
    step s = State.runWith { s with clock := s.clock + 1, agenda := r } exec id := by
  simp only [step, h]
  rfl

/-- At an instruction the fetch is due. -/
theorem runDue_atInstr {v : State} {id : SlotId} (h : AtInstr v id) : v.runDue id = (due v id).runFetch := by
  obtain ⟨hact, hpend, hiss, hreq, hhdr, hend⟩ := h
  have hp : ((due v id).st.priv == .u && !(due v id).st.pendFaults.isEmpty) = false := by
    rcases hpend with hs | hn
    · simp [hs]
    · simp [hn]
  have hq : ((due v id).st.engIssue.isSome || (due v id).st.csrReq != .none) = false := by simp [hiss, hreq]
  unfold State.runDue
  rw [if_neg (by simp [hact])]
  change (if (due v id).st.priv == .u && !(due v id).st.pendFaults.isEmpty then _ else
    if (due v id).st.engIssue.isSome || (due v id).st.csrReq != .none then _ else
    if (due v id).st.ex.atHdr then _ else if (due v id).st.ex.atPassEnd then _ else (due v id).runFetch) = _
  rw [hp, hq, hhdr, hend]
  rfl

/-- The fetch at an execute cursor answers an instruction. -/
theorem runFetch_instr {u s1 : State} {i : Instr} {n : Nat} (h : u.fetchInstr u.cur u.st.ex = .ok s1 (some (i, n))) :
    u.runFetch = .instr i s1 := by unfold State.runFetch; rw [h]

theorem runFetch_none {u s1 : State} (h : u.fetchInstr u.cur u.st.ex = .ok s1 none) : u.runFetch = .stop (s1.raise .illegalOp) := by
  unfold State.runFetch; rw [h]

theorem runFetch_bad {u : State} {f : FaultRec} (h : u.fetchInstr u.cur u.st.ex = .bad f) : u.runFetch = .stop (u.raiseRec f) := by
  unfold State.runFetch; rw [h]

theorem runWith_instr {v s1 : State} {id : SlotId} {i : Instr} (h : v.runDue id = .instr i s1) :
    v.runWith exec id = v.arbitrate s1 exec id i := by unfold State.runWith; rw [h]

theorem runWith_stop {v : State} {id : SlotId} {o : Out} (h : v.runDue id = .stop o) : v.runWith exec id = o := by
  unfold State.runWith; rw [h]

/-- An instruction that nothing holds back does what its meaning says. -/
theorem attempt_unheld {s : State} {i : Instr} (h : Unheld s i) : s.attempt exec i = exec i s := by
  obtain ⟨hamo, hint, hstub⟩ := h
  simp [State.attempt, hamo, hint, hstub]

/-! ### The choice among slots -/

/-- An instruction whose stream may issue by itself runs. -/
theorem arbitrate_mayIssue {v s1 : State} {id : SlotId} {i : Instr} (hm : MayIssue v id) (hu : Unheld s1 i) :
    v.arbitrate s1 exec id i = ran v id i s1 := by
  obtain ⟨_, hturn, htail, htog⟩ := hm
  unfold State.arbitrate ran
  rw [attempt_unheld hu]
  cases exec i s1 with
  | fault f => rfl
  | refused r => rfl
  | next t =>
    cases hd : didIssue s1 t with
    | false => simp [htail, hd]
    | true => simp [htail, hd, hturn, htog]

/-- What would issue out of its turn has only its code line read (R13). -/
theorem arbitrate_outOfTurn {v s1 t : State} {id : SlotId} {i : Instr} (hu : Unheld s1 i) (he : exec i s1 = .next t)
    (hd : didIssue s1 t = true) (ht : v.turnOf exec id = false) :
    v.arbitrate s1 exec id i = .next (v.onCore id.core fun k => { k with icache := (s1.core id.core).icache }) := by
  unfold State.arbitrate
  rw [attempt_unheld hu, he]
  simp [hd, ht]

/-- In lock step the whole long word issues (R22). -/
theorem arbitrate_together {v s1 t w : State} {id : SlotId} {i : Instr} (hu : Unheld s1 i) (he : exec i s1 = .next t)
    (hd : didIssue s1 t = true) (ht : v.turnOf exec id = true) (hl : v.losesTail exec id = false) (h2 : 2 ≤ (v.together id).length)
    (hla : (v.together id).any (v.losesTail exec) = false)
    (hw : v.runAll exec ((v.together id).foldl (fun l o => insertBy v.semPlace o l) []) = .next w) :
    v.arbitrate s1 exec id i = .next (v.noteShare exec id w) := by
  unfold State.arbitrate
  rw [attempt_unheld hu, he]
  simp only [hl, hd, ht, Bool.and_false, Bool.false_eq_true, Bool.not_true, if_false]
  split
  · next htog => simp [htog] at h2
  · simp [hla, hw]

end Sys2Proof.Machine
end

section
/-!
PROOF. The statement about the step that runs what the fetch has decoded (R13, R22, R117).
-/
namespace Sys2Proof
open Sys2Proof.Machine Sys2Proof.Claims

/-- Settles O60: a step of an execute cursor is `arbitrate` on what the fetch answers. -/
theorem stepRunsDecoded : Obligations.StepRunsDecoded := by
  intro s id r v u c hag hat
  have hfetched {i : Instr} {n : Nat} {s1 : State} (hf : u.fetchInstr id c = .ok s1 (some (i, n))) :
      step s = v.arbitrate s1 exec id i :=
    (step_run hag).trans (runWith_instr ((runDue_atInstr hat).trans (runFetch_instr hf)))
  refine ⟨fun hm => ⟨?_, ?_⟩, ?_, ?_, ?_⟩
  · intro i n s1 hf hu
    exact (hfetched hf).trans (arbitrate_mayIssue hm hu)
  · intro i bs hd he hc hl hw
    have hf := fetchInstr_of_codeBytes hd he hc hl hw
    exact ⟨hf, fun hu => (hfetched hf).trans (arbitrate_mayIssue hm hu)⟩
  · intro i n s1 t hf hu he hd
    refine ⟨fun ht => (hfetched hf).trans (arbitrate_outOfTurn hu he hd ht), ?_⟩
    intro ht hl h2 hla w hw
    exact (hfetched hf).trans (arbitrate_together hu he hd ht hl h2 hla hw)
  · intro s1 hf
    exact (step_run hag).trans (runWith_stop ((runDue_atInstr hat).trans (runFetch_none hf)))
  · intro f hf
    exact (step_run hag).trans (runWith_stop ((runDue_atInstr hat).trans (runFetch_bad hf)))

end Sys2Proof
end

section
/-!
PROOF. What the updates of the state leave unchanged: the memories, read byte by byte, and the accessors after a change of one stream, context,
core or device.
-/
namespace Sys2Proof.Machine

/-! ### Accessors after a change -/

theorem State.strm_onStrm_if (s : State) (k k' : SlotId) (f : Stream → Stream) :
    (s.onStrm k f).strm k' = if k' = k then f (s.strm k) else s.strm k' := s.strm_setStrm_if k k' _
theorem State.ctx_onCtx_if (s : State) (k k' : CtxId) (f : Ctx → Ctx) :
    (s.onCtx k f).ctx k' = if k' = k then f (s.ctx k) else s.ctx k' := s.ctx_setCtx_if k k' _
theorem State.core_onCore_if (s : State) (k k' : CoreId) (f : Core → Core) :
    (s.onCore k f).core k' = if k' = k then f (s.core k) else s.core k' := s.core_setCore_if k k' _
theorem State.dev_onDev_if (s : State) (k k' : Nat) (f : Device → Device) :
    (s.onDev k f).dev k' = if k' = k then f (s.dev k) else s.dev k' := s.dev_setDev_if k k' _
@[simp] theorem State.strm_onStrm (s : State) (k : SlotId) (f : Stream → Stream) : (s.onStrm k f).strm k = f (s.strm k) := s.strm_setStrm k _
@[simp] theorem State.ctx_onCtx (s : State) (k : CtxId) (f : Ctx → Ctx) : (s.onCtx k f).ctx k = f (s.ctx k) := s.ctx_setCtx k _
@[simp] theorem State.core_onCore (s : State) (k : CoreId) (f : Core → Core) : (s.onCore k f).core k = f (s.core k) := s.core_setCore k _

/-! ### The bytes of the memories -/

theorem SameBytes.trans {s t u : State} (h : SameBytes s t) (k : SameBytes t u) : SameBytes s u where
  mem d a := (k.mem d a).trans (h.mem d a)
  host d a := (k.host d a).trans (h.host d a)
  wb x a := (k.wb x a).trans (h.wb x a)
  ab x a := (k.ab x a).trans (h.ab x a)
  cbuf x a := (k.cbuf x a).trans (h.cbuf x a)

/-- Only the devices and the contexts hold memories. -/
theorem SameBytes.of_eq {s t : State} (hd : t.devs = s.devs) (hc : t.ctxs = s.ctxs) : SameBytes s t := by
  refine ⟨fun d a => ?_, fun d a => ?_, fun x a => ?_, fun x a => ?_, fun x a => ?_⟩ <;> simp only [State.dev, State.ctx, hd, hc]

theorem SameBytes.onDev (s : State) (d : Nat) {f : Device → Device} (hm : (f (s.dev d)).mem = (s.dev d).mem)
    (hh : (f (s.dev d)).hostMem = (s.dev d).hostMem) : SameBytes s (s.onDev d f) := by
  refine ⟨fun e a => ?_, fun e a => ?_, fun _ _ => rfl, fun _ _ => rfl, fun _ _ => rfl⟩ <;> rw [State.dev_onDev_if] <;> split <;> simp_all

theorem SameBytes.onCtx (s : State) (x : CtxId) {f : Ctx → Ctx} (hw : (f (s.ctx x)).wb = (s.ctx x).wb) (ha : (f (s.ctx x)).ab = (s.ctx x).ab)
    (hc : (f (s.ctx x)).cbuf = (s.ctx x).cbuf) : SameBytes s (s.onCtx x f) := by
  refine ⟨fun _ _ => rfl, fun _ _ => rfl, fun y a => ?_, fun y a => ?_, fun y a => ?_⟩ <;> rw [State.ctx_onCtx_if] <;> split <;> simp_all

theorem SameBytes.onStrm (s : State) (id : SlotId) (f : Stream → Stream) : SameBytes s (s.onStrm id f) := .of_eq rfl rfl
theorem SameBytes.onCore (s : State) (c : CoreId) (f : Core → Core) : SameBytes s (s.onCore c f) := .of_eq rfl rfl

end Sys2Proof.Machine
end

section
/-!
PROOF. Stores leave their queue for their path, and a path's entry takes effect at its bytes alone (R65, R66, R75).
-/
namespace Sys2Proof.Machine

open Claims

/-! ### Writes at a visibility point -/

/-- Bytes that lie inside the stacks are written as they are. -/
theorem Device.memWrite_inside (d : Device) {a : Nat} {bs : List Byte} (h : a + bs.length ≤ 2 ^ 40) :
    d.memWrite a bs = { d with mem := mwrite d.mem a bs } := by
  rw [Device.memWrite, if_pos h]

/-- The byte of device or host memory after the memory that holds it has been written. -/
theorem byteAt_writePlace {s : State} {d a : Nat} {host : Bool} {bs : List Byte} (hi : host = false → a + bs.length ≤ 2 ^ 40)
    (d' : Nat) (h' : Bool) (c : Nat) :
    byteAt (s.writePlace (inMem d a host) bs) d' h' c =
      if d' = d ∧ h' = host then mget (mwrite (if host then (s.dev d).hostMem else (s.dev d).mem) a bs) c else byteAt s d' h' c := by
  cases host with
  | false =>
    have e : s.writePlace (inMem d a false) bs = s.onDev d fun v => { v with mem := mwrite v.mem a bs } := by
      simp [inMem, State.writePlace, State.onDev, Device.memWrite_inside _ (hi rfl)]
    rw [e]
    unfold byteAt
    rw [State.dev_onDev_if]
    by_cases hd : d' = d <;> cases h' <;> simp [hd]
  | true =>
    unfold byteAt inMem State.writePlace
    simp only [if_true]
    rw [State.dev_onDev_if]
    by_cases hd : d' = d <;> cases h' <;> simp [hd]

/-- A write into device or host memory stores its bytes and changes no other. -/
theorem stored_writePlace {s : State} (hs : s.Canon) {d a : Nat} {host : Bool} {bs : List Byte} (hi : host = false → a + bs.length ≤ 2 ^ 40) :
    Stored s (s.writePlace (inMem d a host) bs) d a host bs := by
  have hwf : (if host then (s.dev d).hostMem else (s.dev d).mem).wf := by
    obtain ⟨hm, hh⟩ := hs.dev d
    cases host <;> assumption
  refine ⟨fun k hk => ?_, fun d' h' c hout => ?_, by cases host <;> rfl⟩
  · rw [byteAt_writePlace hi, if_pos ⟨rfl, rfl⟩, mget_mwrite_in hwf hk]
  · rw [byteAt_writePlace hi]
    split
    · next h =>
      obtain ⟨rfl, rfl⟩ := h
      exact mget_mwrite_out hwf (hout rfl rfl)
    · rfl

/-- Nothing that the bytes of memory are read from has changed. -/
theorem stored_congr {s t u : State} {d a : Nat} {host : Bool} {bs : List Byte} (h : Stored s t d a host bs) (hd : u.devs = t.devs)
    (hc : u.ctxs = t.ctxs) : Stored s u d a host bs := by
  have e (d' : Nat) (h' : Bool) (c : Nat) : byteAt u d' h' c = byteAt t d' h' c := by simp [byteAt, State.dev, hd]
  obtain ⟨hin, hout, hctx⟩ := h
  exact ⟨fun k hk => (e ..).trans (hin k hk), fun d' h' c ho => (e ..).trans (hout d' h' c ho), hc.trans hctx⟩

@[simp] theorem Ctx.buf_setDirty (c : Ctx) (b b' : Buf) (k : Nat) : (c.setDirty b k).buf b' = c.buf b' := by cases b <;> cases b' <;> rfl

theorem Ctx.buf_setBuf (c : Ctx) (b b' : Buf) (m : Memory) : (c.setBuf b m).buf b' = if b' = b then m else c.buf b' := by
  cases b <;> cases b' <;> rfl

/-- A buffer after bytes have been written into one of its context. -/
theorem Ctx.buf_bufWrite (c : Ctx) (b b' : Buf) (off : Nat) (bs : List Byte) :
    (c.bufWrite b off bs).buf b' = if b' = b then mwrite (c.buf b) off bs else c.buf b' := by
  unfold Ctx.bufWrite
  cases bs with
  | nil => by_cases h : b' = b <;> simp [h, mwrite]
  | cons x r =>
    simp only [List.isEmpty_cons, Bool.false_eq_true, if_false]
    rw [← Ctx.buf_setBuf]
    exact foldl_keeps (P := fun d : Ctx => d.buf b' = _) (fun d k h => (Ctx.buf_setDirty d b b' _).trans h) _ rfl

/-- A byte of a memory after others have been written into it. -/
theorem mget_mwrite_if {m : Memory} (hm : m.wf) (off : Nat) (bs : List Byte) (j : Nat) :
    mget (mwrite m off bs) j = if off ≤ j ∧ j < off + bs.length then bs[j - off]?.getD 0 else mget m j := by
  split
  · next h =>
    obtain ⟨k, rfl⟩ := Nat.exists_eq_add_of_le h.1
    have hk : k < bs.length := by omega
    rw [mget_mwrite_in hm hk, Nat.add_sub_cancel_left, List.getElem?_eq_getElem hk]
    rfl
  · exact mget_mwrite_out hm (by omega)

/-- A write into buffers reaches each of its targets, and stores there its bytes alone (R75). -/
theorem mget_writeBufs {s : State} (hs : s.Canon) (xs : List CtxId) (b : Buf) (off : Nat) (bs : List Byte) (x : CtxId) (b' : Buf) (j : Nat) :
    mget (((s.writePlace (.bufMem xs b off) bs).ctx x).buf b') j =
      if x ∈ xs ∧ b' = b ∧ off ≤ j ∧ j < off + bs.length then bs[j - off]?.getD 0 else mget ((s.ctx x).buf b') j := by
  induction xs generalizing s with
  | nil => simp [State.writePlace]
  | cons y r ih =>
    refine (ih (hs.onCtx y fun c hc => hc.bufWrite b off bs)).trans ?_
    rw [State.ctx_onCtx_if]
    by_cases hx : x = y
    · subst hx
      by_cases hb : b' = b
      · subst hb
        simp only [if_true, Ctx.buf_bufWrite, mget_mwrite_if ((hs.ctx x).buf b'), List.mem_cons_self]
        by_cases hj : off ≤ j ∧ j < off + bs.length <;> simp [hj]
      · simp [Ctx.buf_bufWrite, hb]
    · simp [hx]

theorem writeBufs_rest (s : State) (xs : List CtxId) (b : Buf) (off : Nat) (bs : List Byte) :
    (s.writePlace (.bufMem xs b off) bs).devs = s.devs ∧ (s.writePlace (.bufMem xs b off) bs).streams = s.streams ∧
      (s.writePlace (.bufMem xs b off) bs).cores = s.cores :=
  foldl_keeps (P := fun t : State => t.devs = s.devs ∧ t.streams = s.streams ∧ t.cores = s.cores)
    (f := fun s x => s.onCtx x fun c => c.bufWrite b off bs) (fun _ _ h => h) xs ⟨rfl, rfl, rfl⟩

/-! ### A path's entry -/

/-- From s to t nothing has changed but turns of cores and lines of their GLCs. -/
structure TurnsOnly (s t : State) : Prop where
  devs : t.devs = s.devs
  ctxs : t.ctxs = s.ctxs
  streams : t.streams = s.streams
  paths : ∀ c, (t.core c).paths = (s.core c).paths

theorem TurnsOnly.refl (s : State) : TurnsOnly s s := ⟨rfl, rfl, rfl, fun _ => rfl⟩
theorem TurnsOnly.trans {s t u : State} (h : TurnsOnly s t) (k : TurnsOnly t u) : TurnsOnly s u :=
  ⟨k.devs.trans h.devs, k.ctxs.trans h.ctxs, k.streams.trans h.streams, fun c => (k.paths c).trans (h.paths c)⟩
theorem TurnsOnly.onCore (s : State) (c : CoreId) {f : Core → Core} (h : (f (s.core c)).paths = (s.core c).paths) : TurnsOnly s (s.onCore c f) := by
  refine ⟨rfl, rfl, rfl, fun k => ?_⟩
  rw [State.core_onCore_if]
  split
  · next e => rw [e, h]
  · rfl

theorem turnsOnly_writeTaken (s : State) (c : CoreId) (it : PathItem) (p : Place) : TurnsOnly s (s.writeTaken c it p) := by
  cases p with
  | bufMem xs b off => exact foldl_keeps (P := TurnsOnly s) (fun t x h => h.trans (.onCore t x.core rfl)) xs (.refl s)
  | _ => exact .refl s

theorem turnsOnly_glcUpdate (s : State) (c : CoreId) (p : Place) (bs : List Byte) : TurnsOnly s (s.glcUpdate c p bs) := by
  unfold State.glcUpdate
  split
  · split
    · exact .refl s
    · exact .onCore s c rfl
  · exact .refl s

/-- The entry k of a core's paths has left them. -/
def State.leftPath (s : State) (c : CoreId) (k : Nat) : State := s.onCore c fun e => { e with paths := e.paths.eraseIdx k }

/-- A place to which a write may go: none that holds it back, faults or drops it. -/
def Place.open : Place → Prop
  | .retry | .bad _ | .dropped _ _ => False
  | .devMem _ _ | .hostMem _ _ | .bufMem _ _ _ | .nowhere | .beyond _ _ => True

/-- PERFORM_PATH of an entry that is the first to its granule and whose turn has come: its bytes are written at its place; of the rest, turns and
GLC lines alone change. -/
theorem execPerformPath_writes {s : State} {c : CoreId} {k : Nat} {it : PathItem} {p : Place} (hit : (s.core c).paths[k]? = some it)
    (hb : s.pathBlocked c k it = false) (hp : s.locate it.loc = p) (ho : p.open) (ht : s.writeTurn c it p = true) :
    ∃ t, exec (.performPath c k) s = .next t ∧ TurnsOnly ((s.leftPath c k).writePlace p it.bytes) t := by
  change ∃ t, execPerformPath c k s = .next t ∧ _
  have hw := turnsOnly_writeTaken ((s.leftPath c k).writePlace p it.bytes) c it p
  have hg := hw.trans (turnsOnly_glcUpdate _ c p it.bytes)
  unfold execPerformPath
  simp only [hit, hb, hp]
  cases p with
  | retry | bad _ | dropped _ _ => exact ho.elim
  | _ =>
    simp only [ht, Bool.false_eq_true, Bool.not_true, if_false]
    refine ⟨_, rfl, ?_⟩
    split
    · exact hg
    · exact hw

/-- A write whose turn has not come waits (R32). -/
theorem execPerformPath_outOfTurn {s : State} {c : CoreId} {k : Nat} {it : PathItem} {xs : List CtxId} {b : Buf} {off : Nat}
    (hit : (s.core c).paths[k]? = some it) (hb : s.pathBlocked c k it = false) (hp : s.locate it.loc = .bufMem xs b off)
    (ht : s.writeTurn c it (.bufMem xs b off) = false) : exec (.performPath c k) s = .next s := by
  change execPerformPath c k s = .next s
  unfold execPerformPath
  simp [hit, hb, hp, ht]

/-- The turn of a write into buffers has come when no write of a higher rank has reached its granule at a target (R32). -/
theorem writeTurn_bufMem (s : State) (c : CoreId) (it : PathItem) (xs : List CtxId) (b : Buf) (off : Nat) :
    s.writeTurn c it (.bufMem xs b off) = true ↔
      ∀ x ∈ xs, ¬ ∃ q, fget? (s.core x.core).turns (.granule x.ctx b (off / 16)) = some q ∧ s.writeRank c x.core it < q := by
  simp only [State.writeTurn, List.all_eq_true]
  refine forall₂_congr fun x _ => ?_
  unfold Core.turnOk
  cases fget? (s.core x.core).turns (.granule x.ctx b (off / 16)) <;> simp

/-! ### The SQ -/

/-- PERFORM_SQ of a store that meets an entry set aside by a trap: it joins those (log 7). -/
theorem execPerformSq_joins {s : State} {sl : SlotId} {i : SqItem} {r : List SqItem} {a : Access} (hf : (s.core sl.core).fenced = false)
    (hq : (s.strm sl).sq = i :: r) (ha : (s.strm sl).aside = some a) (hb : s.sqBehind i (some a) = true) :
    exec (.performSq sl) s = .next (s.onStrm sl fun st => { st with sq := r, aside := some { a with sqBack := a.sqBack ++ [i] } }) := by
  change execPerformSq sl s = _
  unfold execPerformSq
  simp [hf, hq, ha, hb, State.onStrm]

/-- PERFORM_SQ of a store that nothing holds: it leaves for its path. -/
theorem execPerformSq_leaves {s : State} {sl : SlotId} {seq : Nat} {va : Word} {ps : List (Piece × List Byte)} {r : List SqItem}
    (hf : (s.core sl.core).fenced = false) (hq : (s.strm sl).sq = .store seq va ps :: r)
    (ha : s.sqBehind (.store seq va ps) (s.strm sl).aside = false) (hd : s.sqBehind (.store seq va ps) (s.strm sl).divAcc = false)
    (hl : s.loadBlocks sl seq ps = false) :
    exec (.performSq sl) s = .next ((s.onStrm sl fun st => { st with sq := r }).onCore sl.core fun c =>
      { c with paths := c.paths ++ storePaths sl (s.xidOf sl) seq ps }) := by
  change execPerformSq sl s = _
  unfold execPerformSq
  simp [hf, hq, ha, hd, hl]

end Sys2Proof.Machine
end

section
/-!
PROOF. The statement about stores that take effect (R32, R63, R65, R66, R75).
-/
namespace Sys2Proof
open Sys2Proof.Machine Sys2Proof.Claims

/-- Settles O15: the SQ's step by its two cases, the path's by its place. -/
theorem storeTakesEffect : Obligations.StoreTakesEffect := by
  intro s hs
  refine ⟨fun sl seq va ps r hf hq => ⟨fun a ha h0 hm => ?_, fun ha hd hl => ?_⟩, ?_, ?_⟩
  · obtain ⟨q, va', qs, hin, hmeet⟩ := hm
    have hb : s.sqBehind (.store seq va ps) (some a) = true := by
      simp only [State.sqBehind, Option.any_some, Bool.and_eq_true, decide_eq_true_eq, List.any_eq_true]
      exact ⟨h0, _, hin, hmeet⟩
    exact ⟨_, execPerformSq_joins hf hq ha hb, by simp, by simp, rfl, rfl, rfl⟩
  · refine ⟨_, execPerformSq_leaves hf hq ha hd hl, ?_, ?_, ?_, rfl, rfl⟩
    · simp [State.onCore]
    · simp only [State.onCore, State.strm_setCore, State.strm_onStrm]
      exact SameRegs.rfl' _
    · simp [storePaths, State.onStrm]
  · intro c k it d a host hi hit hb hp
    have ho : (inMem d a host).open := by cases host <;> trivial
    obtain ⟨t, ht, hk⟩ := execPerformPath_writes hit hb hp ho (by cases host <;> rfl)
    have hst := stored_writePlace (s := s.leftPath c k) (d := d) hs hi
    refine ⟨t, ht, stored_congr hst hk.devs hk.ctxs, ?_, hk.streams.trans (by cases host <;> rfl)⟩
    rw [hk.paths]
    cases host <;> simp [inMem, State.writePlace, State.leftPath, State.onDev]
  · intro c k it xs b off hit hb hp higher
    refine ⟨fun ⟨x, hx, hh⟩ => execPerformPath_outOfTurn hit hb hp ?_, fun hn => ?_⟩
    · exact Bool.eq_false_iff.2 fun h => (writeTurn_bufMem ..).1 h x hx hh
    · obtain ⟨t, ht, hk⟩ := execPerformPath_writes hit hb hp trivial ((writeTurn_bufMem ..).2 hn)
      obtain ⟨hdevs, hstreams, hcores⟩ := writeBufs_rest (s.leftPath c k) xs b off it.bytes
      refine ⟨t, ht, ?_, hk.devs.trans hdevs, hk.streams.trans hstreams, fun x b' j => ?_⟩
      · rw [hk.paths, State.core, hcores]
        exact congrArg Core.paths (s.core_onCore c _)
      · rw [State.ctx, hk.ctxs, ← State.ctx]
        exact mget_writeBufs (s := s.leftPath c k) hs xs b off it.bytes x b' j

end Sys2Proof
end

section
/-!
PROOF. Join points at the execute cursor, waits, and commands as they are issued: what each leaves unchanged (R64, R65, R204).
-/
namespace Sys2Proof.Machine

open Claims

/-! ### Waits -/

/-- Whether a stream runs or waits is none of its registers. -/
theorem SameRegs.status (a : Stream) (x : Status) (w : WaitFor) : SameRegs a { a with status := x, wait := w } := by constructor <;> rfl

theorem holds_waitsAt (s : State) (w : WaitFor) : (s.waitsAt w).st.status = .waiting ∧ (s.waitsAt w).st.wait = w ∧ (s.waitsAt w).st.ex = s.st.ex ∧
    SameRegs (atGate s.st) (s.waitsAt w).st ∧ Beside s (s.waitsAt w) := by
  have hb : Beside s (s.waitsAt w) := by
    unfold State.waitsAt State.waits
    exact (Beside.onSt s _).trans (Beside.onSt _ _)
  unfold atGate
  simp only [hb, and_true]
  unfold State.waitsAt State.waits
  simp only [State.st_onSt]
  refine ⟨trivial, trivial, ?_, ?_⟩ <;> cases h : s.st.gated <;> simp only [Bool.false_eq_true, if_false, if_true]
  all_goals exact SameRegs.status ..

/-- An instruction that waits at its join point. -/
theorem holds_of {s : State} {i : Instr} {w : WaitFor} (e : exec i s = .next (s.waitsAt w)) : Holds s i := by
  obtain ⟨hs, _, hx, hr, hb⟩ := holds_waitsAt s w
  exact ⟨_, e, hs, hx, hr, hb⟩

/-- An instruction that waits in its place. -/
theorem waits_of {s : State} {i : Instr} (w : WaitFor) (e : exec i s = .next (s.waits w)) : Waits s i := by
  exact ⟨_, e, waits_stays s w⟩

/-! ### What holds a join point (R64, R65) -/

/-- Earlier entries in its queues hold a join point, whatever it is to wait for (R64). -/
theorem joinHold_behind {s : State} (hl : s.st.acc.late = []) (hf : s.st.acc.headFaulted = false) (hh : s.st.atHeads = false)
    (rel : Option Scope) (w : WaitFor) : s.joinHold rel w = some (.next (s.waitsAt w)) := by
  simp [State.joinHold, hl, hf, hh]

theorem joinHold_none {s : State} (h : AtJoin s) (w : WaitFor) : s.joinHold none w = none := by
  obtain ⟨hl, hf, hh⟩ := h
  simp [State.joinHold, hl, hf, hh]

/-- A stream whose stores have arrived has none in the reach of a release (R68, R69). -/
theorem pathsInReach_arrived {s : State} (h : Arrived s) (sc : Scope) : s.pathsInReach s.cur sc = false := by
  unfold State.pathsInReach
  refine List.any_eq_false.2 fun p hp => ?_
  cases ho : p.owner with
  | none => simp
  | some o =>
    obtain ⟨o, q⟩ := o
    by_cases hc : p.cmd = none
    · have hne : (o == s.cur) = false := by
        refine beq_eq_false_iff_ne.2 fun e => h p hp hc q ?_
        rw [ho, e]
      simp [hne]
    · have hs : p.cmd.isNone = false := by cases e : p.cmd <;> simp_all
      simp [hs]

/-- Nothing holds a release at a join point whose stores have arrived, at group scope its stamps apart (R69, R77). -/
theorem joinHold_release {s : State} (h : AtJoin s) (ha : Arrived s) {sc : Scope} (hg : sc ≠ .group) (w : WaitFor) :
    s.joinHold (some sc) w = none := by
  obtain ⟨hl, hf, hh⟩ := h
  have hr : s.releaseHold s.cur sc = false := by
    unfold State.releaseHold
    rw [pathsInReach_arrived ha]
    cases sc with
    | group => exact absurd rfl hg
    | _ => rfl
  simp [State.joinHold, hl, hf, hh, hr]

/-! ### Going on from a join point -/

@[simp] theorem Stream.ungate_ex (st : Stream) : st.ungate.ex = st.ex := by unfold Stream.ungate; split <;> rfl

/-- The gate is given up and the stream goes past its instruction. -/
theorem passed_ungate (s : State) (n : Word) : Passed s (s.ungate.adv n) s.st.ungate n := went_adv s Stream.ungate n s.st.ungate_ex

/-- The gate is given up, the stream acquires, and goes past its instruction. -/
theorem passed_acquire (s : State) {sc : Scope} (h : sc ≠ .cluster) (n : Word) :
    Passed (acquired s) ((s.ungate.acquire s.cur.core sc).adv n) s.st.ungate n := by
  have e : s.ungate.acquire s.cur.core sc = (acquired s).ungate := by
    cases sc with
    | cluster => exact absurd rfl h
    | _ => rfl
  rw [e]
  exact passed_ungate (acquired s) n

/-! ### Commands as they are issued (R204) -/

/-- A command that has passed its checks is issued, under an identity of its own. -/
theorem issued_issueCmd {s : State} {c : EngCmd} (hs : c.slot = s.cur) (hx : c.x = s.xid) (ha : c.asid = s.cx.asid.toNat) (hl : c.level = s.cx.det) :
    ∃ t, s.issueCmd c = .next t ∧ Issued s t { c with id := s.nextId } := by
  refine ⟨_, rfl, ?_⟩
  constructor
  case who => exact ⟨hs, hx, ha, hl⟩
  all_goals simp only [State.waits, State.st_onSt]
  case waits => exact ⟨trivial, rfl⟩
  case regs => constructor <;> rfl
  case queues => exact fun _ => ⟨rfl, rfl, rfl, rfl⟩
  all_goals rfl

/-- An instruction that issues a command, whose fields the statement speaks of do not depend on its identity. -/
theorem issues_of {s : State} {i : Instr} {c : EngCmd} {k : CmdKind} {e : Eng} {p : EngCmd → Prop} (he : exec i s = s.issueCmd c)
    (hs : c.slot = s.cur) (hx : c.x = s.xid) (ha : c.asid = s.cx.asid.toNat) (hl : c.level = s.cx.det) (hk : c.kind = k) (hq : c.eng = e)
    (hd : c.descVa = none) (hp : p { c with id := s.nextId }) : Issues s i k e p := by
  obtain ⟨t, ht, hi⟩ := issued_issueCmd hs hx ha hl
  exact ⟨t, _, he.trans ht, hi, hk, hq, hd, hp⟩

end Sys2Proof.Machine
end

section
/-!
PROOF. The engine queues: what the shared steps of a head command change, and that they touch no byte of memory (R25, R222, R223).
-/
namespace Sys2Proof.Machine

/-! ### Queues of a core -/

theorem Core.queue_setQueue (k : Core) (e o : Eng) (q : EngQueue) : (k.setQueue e q).queue o = if o = e then q else k.queue o := by
  cases e <;> cases o <;> rfl
@[simp] theorem Core.queue_setQueue_self (k : Core) (e : Eng) (q : EngQueue) : (k.setQueue e q).queue e = q := by cases e <;> rfl

/-- The head that is ready stands at the head of its queue, which goes on. -/
theorem Core.headReady_some {k : Core} {e : Eng} {h : EngCmd} (hh : k.headReady e = some h) :
    ∃ r, (k.queue e).cmds = h :: r ∧ (k.queue e).stop = .going ∧ h.ended = false ∧ k.fenced = false := by
  unfold Core.headReady at hh
  split at hh
  · cases hh
  · next g r hq =>
    split at hh
    · next hc =>
      cases hh
      simp only [Bool.and_eq_true, Bool.not_eq_true', beq_iff_eq] at hc
      obtain ⟨⟨⟨hgo, hend⟩, _⟩, hfen⟩ := hc
      exact ⟨r, hq, hgo, hend, hfen⟩
    · cases hh

/-! ### What the bookkeeping of the engines leaves unchanged -/

/-- From s to t no byte of any memory has changed, and of the contexts cr.mrow alone. -/
structure EngineKeeps (s t : State) : Prop where
  mem : ∀ d, (t.dev d).mem = (s.dev d).mem ∧ (t.dev d).hostMem = (s.dev d).hostMem
  ctx : ∀ x, ∃ v r, t.ctx x = { s.ctx x with mrowValid := v, mrowRow := r }

namespace EngineKeeps

variable {s t u : State}

theorem refl (s : State) : EngineKeeps s s := ⟨fun _ => ⟨rfl, rfl⟩, fun _ => ⟨_, _, rfl⟩⟩
theorem trans (h : EngineKeeps s t) (k : EngineKeeps t u) : EngineKeeps s u := by
  refine ⟨fun d => ?_, fun x => ?_⟩
  · obtain ⟨hm, hh⟩ := h.mem d
    obtain ⟨km, kh⟩ := k.mem d
    exact ⟨km.trans hm, kh.trans hh⟩
  · obtain ⟨v, r, hx⟩ := h.ctx x
    obtain ⟨v', r', kx⟩ := k.ctx x
    exact ⟨v', r', by rw [kx, hx]⟩
theorem of_eq (hd : t.devs = s.devs) (hc : t.ctxs = s.ctxs) : EngineKeeps s t :=
  ⟨fun d => by simp only [State.dev, hd, and_self], fun x => ⟨_, _, by simp only [State.ctx, hc]; rfl⟩⟩
theorem onCore (h : EngineKeeps s t) (c : CoreId) (f : Core → Core) : EngineKeeps s (t.onCore c f) := h.trans (.of_eq rfl rfl)
theorem onStrm (h : EngineKeeps s t) (id : SlotId) (f : Stream → Stream) : EngineKeeps s (t.onStrm id f) := h.trans (.of_eq rfl rfl)
theorem onDev (h : EngineKeeps s t) (d : Nat) {f : Device → Device} (hm : (f (t.dev d)).mem = (t.dev d).mem)
    (hh : (f (t.dev d)).hostMem = (t.dev d).hostMem) : EngineKeeps s (t.onDev d f) := by
  refine h.trans ⟨fun e => ?_, fun x => ⟨_, _, rfl⟩⟩
  rw [State.dev_onDev_if]
  split <;> simp_all
theorem onMrow (h : EngineKeeps s t) (x : CtxId) (v : Bool) (r : BitVec 8) :
    EngineKeeps s (t.onCtx x fun c => { c with mrowValid := v, mrowRow := r }) := by
  refine h.trans ⟨fun e => ⟨rfl, rfl⟩, fun y => ?_⟩
  rw [State.ctx_onCtx_if]
  split
  · next e => exact ⟨v, r, by rw [e]⟩
  · exact ⟨_, _, rfl⟩
theorem ite {c : Prop} [Decidable c] (ht : EngineKeeps s t) (hu : EngineKeeps s u) : EngineKeeps s (if c then t else u) := by
  split
  · exact ht
  · exact hu

theorem bytes (h : EngineKeeps s t) : SameBytes s t := by
  refine ⟨fun d a => ?_, fun d a => ?_, fun x a => ?_, fun x a => ?_, fun x a => ?_⟩
  · rw [(h.mem d).1]
  · rw [(h.mem d).2]
  all_goals obtain ⟨v, r, e⟩ := h.ctx x; rw [e]

/-- The semaphores of every context are as they were. -/
theorem sems (h : EngineKeeps s t) (x : CtxId) : (t.ctx x).sems = (s.ctx x).sems := by
  obtain ⟨v, r, e⟩ := h.ctx x
  rw [e]

/-! ### The shared steps of a head command -/

theorem releaseToken (h : EngineKeeps s t) (c : CoreId) : EngineKeeps s (t.releaseToken c) := by
  unfold State.releaseToken
  exact .ite h ((h.onCore c _).onDev c.dev rfl rfl)

theorem popHead (h : EngineKeeps s t) (c : CoreId) (e : Eng) : EngineKeeps s (t.popHead c e) := by
  unfold State.popHead
  split
  · exact h
  · extract_lets s1 s2
    have h1 : EngineKeeps s s1 := h.onCore c _
    have h2 : EngineKeeps s s2 := .ite (h1.releaseToken c) h1
    exact .ite (h2.onMrow ..) h2

theorem onHead (h : EngineKeeps s t) (c : CoreId) (e : Eng) (f : EngCmd → EngCmd) : EngineKeeps s (t.onHead c e f) := h.onCore c _

theorem dropFollow (h : EngineKeeps s t) (c : CoreId) (id : Nat) : EngineKeeps s (t.dropFollow c id) := by
  unfold State.dropFollow
  extract_lets s1 coming
  have h1 : EngineKeeps s s1 := .ite (h.popHead c .me) h
  exact h1.onCore c _

theorem logFault (h : EngineKeeps s t) (d : Nat) (asid : BitVec 14) (f : FaultRec) (n : Bool) (l : Nat) (e : Word) :
    EngineKeeps s (t.logFault d asid f n l e) := by
  unfold State.logFault State.logRec
  exact h.onDev d rfl rfl

theorem pendFault (h : EngineKeeps s t) (x : CtxId) (id : SlotId) (f : FaultRec) : EngineKeeps s (t.pendFault x id f) := by
  unfold State.pendFault
  exact .ite (h.onStrm id _) (.ite (h.onStrm _ _) (h.logFault ..))

/-- A fault of a head command that its stream receives: its queue stops, and memory is as it was (R223). -/
theorem engFault (h : EngineKeeps s t) (c : CoreId) (e : Eng) {f : FaultRec} (hl : f.name.logOnly = false) : EngineKeeps s (t.engFault c e f) := by
  unfold State.engFault
  split
  · exact h
  · extract_lets aw f' re at_ row s1 s2 s3 s4 s5
    have h1 : EngineKeeps s s1 := h.onHead c e _
    have h2 : EngineKeeps s s2 := h1.onCore c _
    have h3 : EngineKeeps s s3 := .ite (h2.releaseToken c) h2
    have h4 : EngineKeeps s s4 := .ite (h3.onMrow ..) h3
    have h5 : EngineKeeps s s5 := .ite h4 (h4.dropFollow c _)
    rw [if_neg (by simp [f', hl])]
    exact h5.pendFault ..

end EngineKeeps

/-! ### Where the queues stand after the shared steps -/

@[simp] theorem State.core_onDev (s : State) (d : Nat) (f : Device → Device) (c : CoreId) : (s.onDev d f).core c = s.core c := rfl
@[simp] theorem State.core_onCtx (s : State) (x : CtxId) (f : Ctx → Ctx) (c : CoreId) : (s.onCtx x f).core c = s.core c := rfl
@[simp] theorem State.core_onStrm (s : State) (id : SlotId) (f : Stream → Stream) (c : CoreId) : (s.onStrm id f).core c = s.core c := rfl

/-- A token that goes back leaves every queue as it was. -/
theorem queue_releaseToken (s : State) (c k : CoreId) (o : Eng) : ((s.releaseToken c).core k).queue o = (s.core k).queue o := by
  unfold State.releaseToken
  split
  · rfl
  · rw [State.core_onDev, State.core_onCore_if]
    split
    · next e => rw [e]; cases o <;> rfl
    · rfl

/-- The head leaves its queue, which goes on; no other queue changes. -/
theorem queue_popHead (s : State) (c : CoreId) (e : Eng) {h : EngCmd} {r : List EngCmd} (hq : ((s.core c).queue e).cmds = h :: r)
    (k : CoreId) (o : Eng) : ((s.popHead c e).core k).queue o = if k = c ∧ o = e then ⟨r, .going⟩ else (s.core k).queue o := by
  have h1 : ((s.onCore c fun k => k.setQueue e ⟨r, .going⟩).core k).queue o = if k = c ∧ o = e then ⟨r, .going⟩ else (s.core k).queue o := by
    rw [State.core_onCore_if]
    by_cases hk : k = c
    · rw [if_pos hk, Core.queue_setQueue]
      by_cases ho : o = e <;> simp [ho, hk]
    · simp [hk]
  rw [← h1]
  unfold State.popHead
  simp only [hq]
  split <;> split <;> simp only [State.core_onCtx, queue_releaseToken]

/-- Where the queue holds nothing, no head leaves it. -/
theorem popHead_nil (s : State) (c : CoreId) (e : Eng) (hq : ((s.core c).queue e).cmds = []) : s.popHead c e = s := by
  unfold State.popHead
  rw [hq]

/-- The commands of a queue after its head has left. -/
theorem cmds_popHead (s : State) (c : CoreId) (e : Eng) (k : CoreId) (o : Eng) :
    (((s.popHead c e).core k).queue o).cmds = if k = c ∧ o = e then ((s.core k).queue o).cmds.drop 1 else ((s.core k).queue o).cmds := by
  cases hq : ((s.core c).queue e).cmds with
  | nil =>
    rw [popHead_nil s c e hq]
    split
    · next h => rw [h.1, h.2, hq]; rfl
    · rfl
  | cons h r =>
    rw [queue_popHead s c e hq]
    split
    · next h => rw [h.1, h.2, hq]; rfl
    · rfl

/-- A change of the head command leaves what stands behind it. -/
theorem queue_onHead {s : State} {c : CoreId} {e : Eng} {h : EngCmd} {r : List EngCmd} (hq : ((s.core c).queue e).cmds = h :: r)
    (f : EngCmd → EngCmd) (k : CoreId) (o : Eng) :
    ((s.onHead c e f).core k).queue o = if k = c ∧ o = e then { (s.core c).queue e with cmds := f h :: r } else (s.core k).queue o := by
  unfold State.onHead
  rw [State.core_onCore_if]
  by_cases hk : k = c
  · subst hk
    simp only [if_true, true_and, hq, Core.queue_setQueue]
  · simp [hk]

@[simp] theorem State.core_logFault (s : State) (d : Nat) (asid : BitVec 14) (f : FaultRec) (n : Bool) (l : Nat) (e : Word) (c : CoreId) :
    (s.logFault d asid f n l e).core c = s.core c := rfl

@[simp] theorem State.core_pendFault (s : State) (x : CtxId) (id : SlotId) (f : FaultRec) (c : CoreId) : (s.pendFault x id f).core c = s.core c := by
  unfold State.pendFault
  dsimp only
  split
  · rfl
  · split <;> rfl

/-- Where the head is no follow-on of the command `id`, discarding that command's follow-on leaves a queue stopped as it was. -/
theorem stop_dropFollow {s : State} {c : CoreId} {e : Eng} {id : Nat} {h : EngCmd} {r : List EngCmd}
    (hq : ((s.core c).queue e).cmds = h :: r) (hb : h.bound ≠ some id) :
    (((s.dropFollow c id).core c).queue e).stop = ((s.core c).queue e).stop := by
  have hfilter (u : State) (l : Core → List Nat) : (((u.onCore c fun k => { k with
      me := { k.me with cmds := k.me.cmds.filter fun y => y.bound != some id }, lost := l k }).core c).queue e).stop = ((u.core c).queue e).stop := by
    rw [State.core_onCore]
    cases e <;> rfl
  unfold State.dropFollow
  extract_lets s1 coming
  rw [hfilter]
  unfold s1
  split
  · next hp =>
    have he : e ≠ .me := by
      rintro rfl
      rw [show (s.core c).me.cmds = h :: r from hq] at hp
      simp [hb] at hp
    cases hm : ((s.core c).queue .me).cmds with
    | nil => rw [popHead_nil s c .me hm]
    | cons g q => rw [queue_popHead s c .me hm, if_neg (by simp [he])]
  · rfl

/-- The head command as a fault leaves it: to be started anew, or ended (R223). -/
def EngCmd.faulted (h : EngCmd) (re : Bool) : EngCmd :=
  { h with restart := true, started := none, pageFault := none, cache := [], ended := !re }

/-- A fault of a queue's head stops its queue, whatever becomes of the follow-on of its copy: restartable, or ended (R223). -/
theorem stop_engFault {s : State} {c : CoreId} {e : Eng} {h : EngCmd} {r : List EngCmd} (hq : ((s.core c).queue e).cmds = h :: r) {f : FaultRec}
    (hl : f.name.logOnly = false) (hb : f.name.restartable = false → h.bound ≠ some h.id) :
    (((s.engFault c e f).core c).queue e).stop = if f.name.restartable then .restartable else .ended := by
  unfold State.engFault
  split
  · next h0 => rw [hq] at h0; cases h0
  next g q hg =>
  obtain ⟨rfl, rfl⟩ := List.cons.inj (hq.symm.trans hg)
  extract_lets aw f' re at_ row s1 s2 s3 s4 s5
  rw [if_neg (by simp [f', hl]), State.core_pendFault]
  have h2 : (s2.core c).queue e = ⟨h.faulted re :: r, if re then .restartable else .ended⟩ := by
    simp only [s2, s1, State.core_onCore, Core.queue_setQueue_self, queue_onHead hq, and_self, if_true]
    rfl
  have h3 : (s3.core c).queue e = (s2.core c).queue e := by
    unfold s3
    split
    · exact queue_releaseToken s2 c c e
    · rfl
  have h4 : (s4.core c).queue e = (s2.core c).queue e := by
    unfold s4
    split
    · exact h3
    · exact h3
  unfold s5
  cases hre : re with
  | true => simp [h4, h2, f', re, hre]
  | false =>
    rw [if_neg (by simp), stop_dropFollow (by rw [h4, h2]) (by exact hb hre), h4, h2]

end Sys2Proof.Machine
end

section
/-!
PROOF. Semaphores: the step that a stream or an engine takes on one, its turn, and the instructions (R72, R226 to R228).
-/
namespace Sys2Proof.Machine

open Claims

/-! ### Counts -/

/-- The count of a semaphore of a context, as a number. -/
def State.semCount (s : State) (x : CtxId) (k : BitVec 6) : Nat := ((s.ctx x).sems[k.toNat]'k.isLt).toNat

theorem Ctx.sem_eq (c : Ctx) (k : BitVec 6) : c.sem k = c.sems[k.toNat]'k.isLt := rfl

theorem semAdd_some {v : BitVec 16} {n : BitVec 15} (h : v.toNat + n.toNat ≤ 65535) : semAdd v n = some (BitVec.ofNat 16 (v.toNat + n.toNat)) := by
  rw [semAdd, if_pos h, BitVec.ofNat_add, BitVec.ofNat_toNat, BitVec.ofNat_toNat, BitVec.setWidth_eq]

theorem semAdd_none {v : BitVec 16} {n : BitVec 15} (h : 65535 < v.toNat + n.toNat) : semAdd v n = none := by
  rw [semAdd, if_neg (by omega)]

theorem semTake_some {v : BitVec 16} {n : BitVec 15} (h : n.toNat ≤ v.toNat) : semTake v n = some (BitVec.ofNat 16 (v.toNat - n.toNat)) := by
  have hn := n.isLt
  have hv := v.isLt
  rw [semTake, if_pos h]
  congr 1
  apply BitVec.eq_of_toNat_eq
  simp only [BitVec.toNat_sub, BitVec.toNat_setWidth, BitVec.toNat_ofNat]
  omega

theorem semTake_none {v : BitVec 16} {n : BitVec 15} (h : v.toNat < n.toNat) : semTake v n = none := by
  rw [semTake, if_neg (by omega)]

/-! ### The step on a semaphore -/

/-- A step's place in the cycle is kept among the turns of its core; nothing else changes. -/
theorem semMark_keeps (s : State) (x : CtxId) (n : BitVec 6) (k : SemStep) (c : CoreId) :
    ((s.semMark x n k).core c).paths = (s.core c).paths ∧ ((s.semMark x n k).core c).glc = (s.core c).glc ∧
      ∀ e, ((s.semMark x n k).core c).queue e = (s.core c).queue e := by
  unfold State.semMark
  rw [State.core_onCore_if]
  split
  · next h =>
    subst h
    cases k <;> exact ⟨rfl, rfl, fun e => by cases e <;> rfl⟩
  · exact ⟨rfl, rfl, fun _ => rfl⟩

/-- A step sets the count of its semaphore, and that of no other. -/
theorem semCount_semStep (s : State) (x : CtxId) (n : BitVec 6) (k : SemStep) (v : BitVec 16) (y : CtxId) (m : BitVec 6) :
    (s.semStep x n k v).semCount y m = if y = x ∧ m = n then v.toNat else s.semCount y m := by
  unfold State.semCount State.semStep
  rw [State.ctx_onCtx_if]
  by_cases hx : y = x
  · subst hx
    by_cases hm : m = n
    · subst hm
      simp [Ctx.setSem]
    · have : n.toNat ≠ m.toNat := fun e => hm (BitVec.eq_of_toNat_eq e.symm)
      simp only [if_true, true_and, hm, if_false, Ctx.setSem, Vector.getElem_set_ne _ _ this]
      rfl
  · simp only [hx, if_false, false_and]
    rfl

/-- A step on a semaphore leaves the buffers of every context as they were. -/
theorem semStep_bufs (s : State) (x : CtxId) (n : BitVec 6) (k : SemStep) (v : BitVec 16) (y : CtxId) :
    ((s.semStep x n k v).ctx y).wb = (s.ctx y).wb ∧ ((s.semStep x n k v).ctx y).ab = (s.ctx y).ab ∧
      ((s.semStep x n k v).ctx y).cbuf = (s.ctx y).cbuf := by
  unfold State.semStep
  rw [State.ctx_onCtx_if]
  split
  · next h => subst h; exact ⟨rfl, rfl, rfl⟩
  · exact ⟨rfl, rfl, rfl⟩

theorem sameBytes_semStep (s : State) (x : CtxId) (n : BitVec 6) (k : SemStep) (v : BitVec 16) : SameBytes s (s.semStep x n k v) :=
  (SameBytes.onCore s x.core _).trans (.onCtx (s.semMark x n k) x rfl rfl rfl)

theorem semStep_queue (s : State) (x : CtxId) (n : BitVec 6) (k : SemStep) (v : BitVec 16) (c : CoreId) (e : Eng) :
    ((s.semStep x n k v).core c).queue e = (s.core c).queue e := (semMark_keeps s x n k c).2.2 e

/-! ### The order of R227 -/

theorem rotPlace_lt (b : Nat) (id : SlotId) : rotPlace b id < 16 := Nat.mod_lt _ (by decide)
theorem engCode_pos (e : Eng) : 1 ≤ engCode e ∧ engCode e ≤ 3 := by cases e <;> decide

/-- SEMSETs, then the signals of engines, plans and streams, then the waits of engines and streams. -/
theorem semRank_order (b p : Nat) (i j l : SlotId) (d f : Eng) : (SemStep.set i).rank b < (SemStep.sigEngine d).rank b ∧
    (SemStep.sigEngine d).rank b < (SemStep.sigPlan p).rank b ∧ (SemStep.sigPlan p).rank b < (SemStep.sigStream j).rank b ∧
    (SemStep.sigStream j).rank b < (SemStep.waitEngine f).rank b ∧ (SemStep.waitEngine f).rank b < (SemStep.waitStream l).rank b := by
  have hi := rotPlace_lt b i
  have hj := rotPlace_lt b j
  have hd := engCode_pos d
  have hf := engCode_pos f
  simp only [SemStep.rank]
  omega

theorem semTurn_of_none {s : State} {x : CtxId} {n : BitVec 6} (h : fget? (s.core x.core).turns (.sem x.ctx n) = none) (k : SemStep) :
    s.semTurn x n k = true := by
  simp [State.semTurn, Core.turnOk, h]

/-! ### The instructions -/

section
variable {s : State} {sem : BitVec 6} {n : BitVec 15}

theorem semOk_of (h : s.exclOf s.xid = true ∨ sem.toNat < 32) : s.semOk sem = true := by
  simpa [State.semOk] using h

theorem semOk_false (h : ¬ (s.exclOf s.xid = true ∨ sem.toNat < 32)) : s.semOk sem = false := by
  simpa [State.semOk] using h

/-- semsig of a stream whose step may be taken (R226). -/
theorem semsig_stream (hr : s.semOk sem = true) (hj : AtJoin s) (ha : Arrived s) : exec (.semsig .stream sem n) s =
    if !s.semTurn s.xid sem (.sigStream s.cur) then .next (s.waitsAt .none)
    else match semAdd (s.cx.sem sem) n with
    | none => (s.semMark s.xid sem (.sigStream s.cur)).raise .semOvf
    | some v => .next ((s.semStep s.xid sem (.sigStream s.cur) v).ungate.adv 4) := by
  change execSemsig .stream sem n s = _
  unfold execSemsig
  simp only [hr, semEng, joinHold_release hj ha (sc := .core) (by decide)]
  rfl

/-- semwait of a stream at its join point (R226). -/
theorem semwait_stream (hr : s.semOk sem = true) (hj : AtJoin s) : exec (.semwait .stream sem n) s =
    match semTake (s.cx.sem sem) n with
    | none => .next (s.waitsAt (.sem sem n))
    | some v =>
      if !s.semTurn s.xid sem (.waitStream s.cur) || s.semBehind s.xid sem (.waitStream s.cur) then .next (s.waitsAt (.sem sem n))
      else .next (((s.semStep s.xid sem (.waitStream s.cur) v).ungate.acquire s.cur.core .core).adv 4) := by
  change execSemwait .stream sem n s = _
  unfold execSemwait
  simp only [hr, semEng, joinHold_none hj]
  rfl

/-- semset, which waits for its turn alone (R226). -/
theorem semset_eq (hr : s.semOk sem = true) : exec (.semset sem n) s =
    if !s.semTurn s.xid sem (.set s.cur) then .next (s.waits .none)
    else .next ((s.semStep s.xid sem (.set s.cur) (BitVec.ofNat 16 n.toNat)).adv 4) := by
  change execSemset sem n s = _
  unfold execSemset
  rw [BitVec.ofNat_toNat, if_neg (by simp [hr])]

theorem semsig_engine {q : SemQ} {e : Eng} (hr : s.semOk sem = true) (hq : semEng q = some e) :
    exec (.semsig q sem n) s = s.issueCmd { s.cmd .semsig e with sem := sem, n := n } := by
  change execSemsig q sem n s = _
  unfold execSemsig
  simp [hr, hq]

theorem semwait_engine {q : SemQ} {e : Eng} (hr : s.semOk sem = true) (hq : semEng q = some e) :
    exec (.semwait q sem n) s = s.issueCmd { s.cmd .semwait e with sem := sem, n := n } := by
  change execSemwait q sem n s = _
  unfold execSemwait
  simp [hr, hq]

/-- Outside the WG's range each form raises SEM_RANGE (R226). -/
theorem sem_outOfRange (hr : s.semOk sem = false) (q : SemQ) : exec (.semsig q sem n) s = s.raise .semRange ∧
    exec (.semwait q sem n) s = s.raise .semRange ∧ exec (.semset sem n) s = s.raise .semRange := by
  refine ⟨?_, ?_, ?_⟩
  · change execSemsig q sem n s = _
    simp [execSemsig, hr]
  · change execSemwait q sem n s = _
    simp [execSemwait, hr]
  · change execSemset sem n s = _
    simp [execSemset, hr]

/-- A signal that would pass 65,535 raises SEM_OVF from where its step has taken its place (R227). -/
theorem raisesAt_semOvf (hc : CanTrap s) {i : Instr} {x : CtxId} {k : SemStep} (he : exec i s = (s.semMark x sem k).raise .semOvf) :
    RaisesAt s (s.semMark x sem k) i { name := .semOvf } := by
  obtain ⟨t, ht, hn⟩ := raise_enters (s.semMark x sem k) .semOvf 0 0 hc rfl
  exact ⟨t, he.trans ht, hn⟩

end

/-! ### Signals and waits at the head of a queue -/

/-- A wait has stood at the head of its queue longer than its bound (R228). -/
theorem semOverdue_iff (h : EngCmd) (cyc : Nat) :
    h.semOverdue cyc = true ↔ h.semBound ≠ 0 ∧ ∃ t0, h.started = some t0 ∧ t0 + 1024 * h.semBound.toNat < cyc := by
  unfold EngCmd.semOverdue
  cases h.started with
  | none => simp
  | some t => simp

/-- The head that a semaphore's step takes away leaves its queue; the count is what the step has set. -/
theorem semStep_popHead {s : State} {c : CoreId} {e : Eng} {h : EngCmd} (hh : (s.core c).headReady e = some h)
    (hb : h.isBurst = false) (hm : h.usesMrow = false) (k : SemStep) (v : BitVec 16) :
    let t := (s.semStep h.x h.sem k v).popHead c e
    ((t.core c).queue e).cmds = ((s.core c).queue e).cmds.drop 1 ∧ t.streams = s.streams ∧ t.devs = s.devs ∧ t.ctxs = (s.semStep h.x h.sem k v).ctxs := by
  obtain ⟨r, hq, _, _, _⟩ := Core.headReady_some hh
  have hq' : (((s.semStep h.x h.sem k v).core c).queue e).cmds = h :: r := by rw [semStep_queue, hq]
  intro t
  have ht : t = (s.semStep h.x h.sem k v).onCore c fun k => k.setQueue e { cmds := r, stop := .going } := by
    simp only [t, State.popHead, hq', hb, hm, Bool.false_and, Bool.false_eq_true, if_false]
  rw [ht]
  exact ⟨by simp [hq], rfl, rfl, rfl⟩

end Sys2Proof.Machine
end

section
/-!
PROOF. The statement about semaphores (R15, R72, R226 to R228).
-/
namespace Sys2Proof
open Sys2Proof.Machine Sys2Proof.Claims

/-- Settles O30: each form by what its instruction does in its turn and out of it, the engines' by their heads. -/
theorem semaphores : Obligations.Semaphores := by
  intro s q e sem n c h cnt v inRange sets acquires sig wt turn leaves overdue
  refine ⟨?_, semRank_order, fun k hk => semTurn_of_none hk k, ?_, ?_, ?_, ?_, ?_, ?_⟩
  · intro x k w t
    have hc := semCount_semStep s x sem k w
    refine ⟨(hc x sem).trans (if_pos ⟨rfl, rfl⟩), fun y m hn => (hc y m).trans (if_neg ?_), sameBytes_semStep s x sem k w, rfl, rfl,
      semMark_keeps s x sem k⟩
    rintro ⟨rfl, rfl⟩
    simp at hn
  · intro hr hj ha
    have he := semsig_stream (n := n) (semOk_of hr) hj ha
    refine ⟨fun hv ht => ?_, fun hv ht hc => ?_, fun ht => ?_⟩
    · exact ⟨_, he.trans (by rw [if_neg (by simpa using ht), semAdd_some (v := s.cx.sem sem) hv]; rfl), passed_ungate ..⟩
    · exact raisesAt_semOvf hc (he.trans (by rw [if_neg (by simpa using ht), semAdd_none (v := s.cx.sem sem) hv]))
    · exact holds_of (he.trans (if_pos (by simpa [turn, sig] using ht)))
  · intro hr hj
    have he := semwait_stream (n := n) (semOk_of hr) hj
    refine ⟨fun hv ht hb => ?_, fun hw => holds_of (w := .sem sem n) (he.trans ?_)⟩
    · refine ⟨_, he.trans ?_, passed_acquire (s.semStep s.xid sem wt _) (sc := .core) (by decide) 4⟩
      rw [semTake_some (v := s.cx.sem sem) hv]
      exact if_neg (by simp [show s.semTurn s.xid sem (.waitStream s.cur) = true from ht, show s.semBehind s.xid sem (.waitStream s.cur) = false from hb])
    · by_cases hv : n.toNat ≤ v
      · rw [semTake_some (v := s.cx.sem sem) hv]
        exact if_pos (by
          rcases hw with hw | hw | hw
          · omega
          · simp [show s.semTurn s.xid sem (.waitStream s.cur) = false by simpa [turn, wt] using hw]
          · simp [show s.semBehind s.xid sem (.waitStream s.cur) = true from hw])
      · rw [semTake_none (v := s.cx.sem sem) (Nat.not_le.1 hv)]
  · intro hr
    have he := semset_eq (n := n) (semOk_of hr)
    refine ⟨fun ht => ?_, fun ht => waits_of .none (he.trans (if_pos (by simpa [turn] using ht)))⟩
    rw [if_neg (by simpa using ht)] at he
    exact ⟨_, he, went_adv' _ 4⟩
  · intro hr hq
    exact ⟨issues_of (semsig_engine (semOk_of hr) hq) rfl rfl rfl rfl rfl rfl rfl ⟨rfl, rfl⟩,
      issues_of (semwait_engine (semOk_of hr) hq) rfl rfl rfl rfl rfl rfl rfl ⟨rfl, rfl⟩⟩
  · intro hr hc
    obtain ⟨h1, h2, h3⟩ := sem_outOfRange (n := n) (semOk_false hr) q
    exact ⟨raises_of h1 hc rfl, raises_of h2 hc rfl, raises_of h3 hc rfl⟩
  · intro hh
    have hpop (hk : h.kind = .semsig ∨ h.kind = .semwait) (k : SemStep) (w : Nat) (hw : w < 65536) :
        leaves ((s.semStep h.x h.sem k (BitVec.ofNat 16 w)).popHead c e) ∧
          cnt ((s.semStep h.x h.sem k (BitVec.ofNat 16 w)).popHead c e) h.x h.sem = w := by
      have hb : h.isBurst = false ∧ h.usesMrow = false := by rcases hk with hk | hk <;> simp [EngCmd.isBurst, EngCmd.usesMrow, hk]
      obtain ⟨hcmds, hstr, hdev, hctx⟩ := semStep_popHead hh hb.1 hb.2 k (BitVec.ofNat 16 w)
      have hx (x : CtxId) : ((s.semStep h.x h.sem k (BitVec.ofNat 16 w)).popHead c e).ctx x = (s.semStep h.x h.sem k (BitVec.ofNat 16 w)).ctx x :=
        by simp only [State.ctx, hctx]
      have hc (m : BitVec 6) : cnt ((s.semStep h.x h.sem k (BitVec.ofNat 16 w)).popHead c e) h.x m = if m = h.sem then w else cnt s h.x m := by
        simp only [cnt, hx]
        refine (semCount_semStep s h.x h.sem k _ h.x m).trans ?_
        simp only [true_and, BitVec.toNat_ofNat, Nat.mod_eq_of_lt hw]
        rfl
      refine ⟨⟨hcmds, hstr, hdev, fun m hm => by rw [hc, if_neg hm], fun x => ?_⟩, by rw [hc, if_pos rfl]⟩
      rw [hx]
      exact semStep_bufs ..
    refine ⟨fun hk ht hv => ?_, fun hk ht hv hb => ?_, fun hk ht hs ho hv => ?_, fun hk hv => ?_, fun hk ho => ?_⟩
    · obtain ⟨hl, hc⟩ := hpop (.inl hk) (.sigEngine e) (cnt s h.x h.sem + h.n.toNat) (by omega)
      refine ⟨_, ?_, hl, hc⟩
      change execSemsigEnginePerform c e s = _
      simp only [execSemsigEnginePerform, hh, hk, ht, semAdd_some (v := (s.ctx h.x).sem h.sem) hv]
      rfl
    · obtain ⟨r, hq, _, _, _⟩ := Core.headReady_some hh
      have hm : (((s.semMark h.x h.sem (.sigEngine e)).core c).queue e).cmds = h :: r := by rw [(semMark_keeps ..).2.2, hq]
      have hk' : EngineKeeps s ((s.semMark h.x h.sem (.sigEngine e)).engFault c e { name := .semOvf }) :=
        ((EngineKeeps.refl s).onCore h.x.core _).engFault c e rfl
      refine ⟨_, ?_, hk'.bytes, stop_engFault hm rfl fun _ => hb, ?_⟩
      · change execSemsigEnginePerform c e s = _
        simp only [execSemsigEnginePerform, hh, hk, ht, semAdd_none (v := (s.ctx h.x).sem h.sem) hv]
        rfl
      · simp only [cnt, hk'.sems]
    · have hod : h.semOverdue (s.dev c.dev).cycle = false := Bool.eq_false_iff.2 fun hx => ho ((semOverdue_iff ..).1 hx)
      obtain ⟨hl, hc⟩ := hpop (.inr hk) (.waitEngine e) (cnt s h.x h.sem - h.n.toNat) (by
        have : cnt s h.x h.sem < 2 ^ 16 := BitVec.isLt _
        omega)
      refine ⟨_, ?_, hl, hc⟩
      change execSemwaitEnginePerform c e s = _
      simp only [execSemwaitEnginePerform, hh, hk, ht, hs, hod, semTake_some (v := (s.ctx h.x).sem h.sem) hv]
      rfl
    · change execSemwaitEnginePerform c e s = _
      simp only [execSemwaitEnginePerform, hh, semTake_none (v := (s.ctx h.x).sem h.sem) hv]
      split <;> rfl
    · have hod : h.semOverdue (s.dev c.dev).cycle = true := (semOverdue_iff ..).2 ho
      obtain ⟨r, hq, _, _, _⟩ := Core.headReady_some hh
      refine ⟨?_, s.engFault c e { name := .cycleBound }, ?_, ((EngineKeeps.refl s).engFault c e rfl).bytes, stop_engFault hq rfl nofun⟩
      · change execSemwaitEnginePerform c e s = _
        simp [execSemwaitEnginePerform, hh, hod]
      · change execSemwaitBoundExpiry c e s = _
        simp [execSemwaitBoundExpiry, hh, hk, hod]

end Sys2Proof
end

section
/-!
PROOF. Barriers: who takes part, and what passing one does to each of them (R17, R21, R73, R231).
-/
namespace Sys2Proof.Machine

open Claims

/-! ### The instruction -/

/-- What a launch declares bounds the level of its barriers (R231). -/
def State.barDeclared (s : State) : Nat := (s.launchOf s.xid).elim 0 fun l => if l.coop then l.barlvl else 0

theorem execBar_eq (s : State) (level : BarLevel) : exec (.bar level) s =
    if isTail s.cur then s.raise .barTail
    else if level != .core && s.barDeclared < barNum level then s.raise .barScope
    else if s.st.wait == .bar level then .next (s.waitsAt (.bar level))
    else match s.joinHold (some (barScope level)) with
    | some o => o
    | none => .next (s.waitsAt (.bar level)) := by
  change execBar level s = _
  unfold execBar State.barDeclared
  cases s.launchOf s.xid <;> rfl

theorem barScope_ne_group (level : BarLevel) : barScope level ≠ .group := by cases level <;> decide

/-- A bar whose earlier accesses are settled has arrived, and waits (R73). -/
theorem bar_waits {s : State} {level : BarLevel} (ht : s.cur.sl < 2) (hd : level = .core ∨ barNum level ≤ s.barDeclared) (hj : AtJoin s)
    (ha : Arrived s) : exec (.bar level) s = .next (s.waitsAt (.bar level)) := by
  have h1 : isTail s.cur = false := by simpa [isTail] using ht
  have h2 : (level != .core && decide (s.barDeclared < barNum level)) = false := by
    rcases hd with rfl | hd
    · rfl
    · simp [Nat.not_lt.2 hd]
  rw [execBar_eq, h1, h2, joinHold_release hj ha (barScope_ne_group level)]
  simp

/-! ### Who takes part (R21) -/

/-- The contexts of a barrier's group are those that take part in it. -/
theorem mem_barGroup (s : State) (x : CtxId) (level : BarLevel) (y : CtxId) : y ∈ s.barGroup x level ↔ TakesPart s x level y := by
  unfold State.barGroup TakesPart
  cases hl : s.lidOf x with
  | none => simp
  | some lid =>
    cases level with
    | pod => cases hp : s.podMates x lid <;> simp [hp]
    | _ => simp

/-- A launch has begun with all its WGs dispatched and none saved, or has ended. -/
def State.launchWhole (s : State) (p : Nat × Nat) : Bool := match s.launch? p.1 p.2 with
  | none => true
  | some l => l.nextWg == l.wgcount && l.batch.isEmpty && l.savedWgs.isEmpty

theorem launchWhole_iff (s : State) (p : Nat × Nat) :
    s.launchWhole p = true ↔ ∀ l, s.launch? p.1 p.2 = some l → l.nextWg = l.wgcount ∧ l.batch = [] ∧ l.savedWgs = [] := by
  unfold State.launchWhole
  cases s.launch? p.1 p.2 <;> simp [and_assoc]

/-- The launches that a barrier spans are whole, as `Whole` says, where the context belongs to a launch. -/
theorem barWhole_iff {s : State} {x : CtxId} {level : BarLevel} {lid : Nat} (hl : s.lidOf x = some lid) :
    s.barWhole x level = true ↔ Whole s x level := by
  have e : s.barWhole x level = (level == .core ||
      (if level = .pod then s.podMates x lid else some [(x.core.dev, lid)]).any fun ls => ls.all s.launchWhole) := by
    unfold State.barWhole
    rw [hl]
    cases level <;> rfl
  rw [e, Whole, Bool.or_eq_true, beq_iff_eq]
  simp only [Option.any_eq_true, List.all_eq_true, launchWhole_iff, hl, Option.some.injEq, exists_and_left, exists_eq_left']

/-! ### Passing a barrier (R73) -/

/-- A stream that has passed its bar: its gate is given up, and it runs past the instruction. -/
def Stream.barPassed (st : Stream) : Stream := { st.ungate.advance 4 with status := .running, wait := .none }

theorem barPassed_spec (st : Stream) : SameRegs st.ungate st.barPassed ∧ st.barPassed.status = .running ∧ st.barPassed.ex = st.ex.adv 4 := by
  refine ⟨?_, rfl, ?_⟩
  · exact SameRegs.goTo st.ungate _
  · simp [Stream.barPassed, Stream.advance, Stream.goTo]

/-- What passing a barrier has made of the machine when the slots of `ids` have been asked. -/
structure BarAsked (level : BarLevel) (s t : State) (ids : List SlotId) : Prop where
  devs : t.devs = s.devs
  ctxs : t.ctxs = s.ctxs
  strm : ∀ k, t.strm k = if k ∈ ids ∧ (s.strm k).wait = .bar level then (s.strm k).barPassed else s.strm k
  glc : ∀ k ∈ ids, (s.strm k).wait = .bar level → (t.core k.core).glc = []

theorem passBar_of_ne {s : State} {level : BarLevel} {id : SlotId} (h : (s.strm id).wait ≠ .bar level) : s.passBar level id = s := by
  unfold State.passBar
  rw [if_neg (by simpa using h)]

theorem passBar_of_eq {s : State} {level : BarLevel} {id : SlotId} (h : (s.strm id).wait = .bar level) :
    (s.passBar level id).devs = s.devs ∧ (s.passBar level id).ctxs = s.ctxs ∧
      (∀ k, (s.passBar level id).strm k = if k = id then (s.strm id).barPassed else s.strm k) ∧
      ∀ c, ((s.passBar level id).core c).glc = if c = id.core then [] else (s.core c).glc := by
  have e : s.passBar level id = ((at_ s id).ungate.glcClear id.core).adv 4 := by
    unfold State.passBar
    rw [if_pos (by simpa using h)]
    cases level <;> rfl
  rw [e]
  refine ⟨rfl, rfl, fun k => ?_, fun c => ?_⟩
  · refine (State.strm_setStrm_if _ id k _).trans ?_
    have hid : (((at_ s id).ungate.glcClear id.core).st) = (s.strm id).ungate :=
      State.strm_setStrm (at_ s id) id _
    split
    · rw [hid]; rfl
    · next hk => exact State.strm_setStrm_ne (at_ s id) _ hk
  · change (((at_ s id).ungate.onCore id.core fun k => { k with glc := [] }).core c).glc = _
    rw [State.core_onCore_if]
    split
    · rfl
    · rfl

theorem BarAsked.step {level : BarLevel} {s t : State} {ids : List SlotId} (h : BarAsked level s t ids) (id : SlotId) :
    BarAsked level s (t.passBar level id) (ids ++ [id]) := by
  have hstrm := h.strm id
  by_cases hw : (t.strm id).wait = .bar level
  · have hs : ¬ (id ∈ ids ∧ (s.strm id).wait = .bar level) := by
      intro hc
      rw [hstrm, if_pos hc] at hw
      cases hw
    rw [if_neg hs] at hstrm
    obtain ⟨hd, hc, hk, hg⟩ := passBar_of_eq hw
    refine ⟨hd.trans h.devs, hc.trans h.ctxs, fun k => ?_, fun k hm hb => ?_⟩
    · rw [hk]
      by_cases hki : k = id
      · subst hki
        rw [hstrm] at hw
        simp [hw, hstrm]
      · simp [hki, h.strm k]
    · rw [hg]
      split
      · rfl
      · next hne =>
        refine h.glc k ?_ hb
        rcases List.mem_append.1 hm with hm | hm
        · exact hm
        · exact absurd (congrArg SlotId.core (List.mem_singleton.1 hm)) hne
  · rw [passBar_of_ne hw]
    refine ⟨h.devs, h.ctxs, fun k => ?_, fun k hm hb => ?_⟩
    · rw [h.strm k]
      by_cases hki : k = id
      · subst hki
        by_cases hm : k ∈ ids
        · simp [hm]
        · simp only [hm, false_and, if_false] at hstrm
          rw [hstrm] at hw
          simp [hm, hw]
      · simp [hki]
    · by_cases hmi : k ∈ ids
      · exact h.glc k hmi hb
      · obtain rfl : k = id := by simpa [hmi] using hm
        simp only [hmi, false_and, if_false] at hstrm
        rw [hstrm] at hw
        exact absurd hb hw

/-- Each waiting slot of a list passes the barrier, once however often it is listed. -/
theorem barAsked_foldl (level : BarLevel) (s : State) (ids : List SlotId) :
    BarAsked level s (ids.foldl (State.passBar · level) s) ids := by
  suffices H : ∀ (l : List SlotId) (t : State) (done : List SlotId), BarAsked level s t done →
      BarAsked level s (l.foldl (State.passBar · level) t) (done ++ l) by
    simpa using H ids s [] ⟨rfl, rfl, by simp, by simp⟩
  intro l
  induction l with
  | nil => intro t done h; simpa using h
  | cons id r ih => intro t done h; simpa using ih _ _ (h.step id)

end Sys2Proof.Machine
end

section
/-!
PROOF. The statement about barriers (R17, R21, R73, R231).
-/
namespace Sys2Proof
open Sys2Proof.Machine Sys2Proof.Claims

/-- Settles O31: the instruction by its checks, the completion by a fold that passes each waiting slot of the group. -/
theorem barriers : Obligations.Barriers := by
  intro s level x declared
  refine ⟨fun hm hd hj ha => ?_, fun ht hc => ?_, fun hm hl hd hc => ?_, ?_⟩
  · have he := bar_waits hm hd hj ha
    refine ⟨holds_of he, fun t ht => ?_⟩
    obtain rfl : s.waitsAt (.bar level) = t := Host.Outcome.next.inj (he.symm.trans ht)
    exact (holds_waitsAt s _).2.1
  · exact raises_of ((execBar_eq s level).trans (if_pos (by simpa [isTail] using ht))) hc rfl
  · refine raises_of ((execBar_eq s level).trans ?_) hc rfl
    rw [if_neg (by simpa [isTail] using hm), if_pos]
    simp [hl, show s.barDeclared < barNum level from hd]
  · intro part here
    have hpart (id : SlotId) : id ∈ (s.barGroup x level).flatMap mainsOf ↔ part id := by
      simp only [List.mem_flatMap, mem_barGroup, part]
    have hhere (id : SlotId) : ((s.strm id).arrived level && !(s.core id.core).fenced) = true ↔ here id := by
      simp [Stream.arrived, here]
    have he : exec (.barrierComplete x level) s = execBarrierComplete x level s := rfl
    refine ⟨fun hn => ?_, fun hw hall hsome => ?_, ?_⟩
    · rw [he, execBarrierComplete, if_neg]
      simp only [Bool.and_eq_true, List.all_eq_true, List.any_eq_true, hpart, hhere, beq_iff_eq]
      rintro ⟨⟨hwh, hall⟩, id, hid, hwait⟩
      rcases hn with hn | ⟨k, hk, hnk⟩ | hn
      · obtain ⟨y, ⟨lid, hl, _⟩, _⟩ := hid
        exact hn ((barWhole_iff hl).1 hwh)
      · exact hnk (hall k hk)
      · exact hn id hid hwait
    · obtain ⟨id, hid, hwait⟩ := hsome
      have hwh : s.barWhole x level = true := by
        obtain ⟨y, ⟨lid, hl, _⟩, _⟩ := hid
        exact (barWhole_iff hl).2 hw
      have hb := barAsked_foldl level s ((s.barGroup x level).flatMap mainsOf)
      refine ⟨{ ((s.barGroup x level).flatMap mainsOf).foldl (State.passBar · level) s with cur := s.cur, side := s.side }, ?_,
        .of_eq hb.devs hb.ctxs, hb.devs, hb.ctxs, rfl, fun k hk => ?_, fun k hk hkw => ?_⟩
      · rw [he, execBarrierComplete, if_pos]
        simp only [Bool.and_eq_true, List.all_eq_true, List.any_eq_true, hpart, hhere, beq_iff_eq]
        exact ⟨⟨hwh, hall⟩, id, hid, hwait⟩
      · refine (hb.strm k).trans (if_neg ?_)
        rw [hpart]
        rintro ⟨h1, h2⟩
        rcases hk with hk | hk
        · exact hk h1
        · exact hk h2
      · obtain ⟨hr, hs, hx⟩ := barPassed_spec (s.strm k)
        have e := (hb.strm k).trans (if_pos ⟨(hpart k).2 hk, hkw⟩)
        exact ⟨e ▸ hr, (congrArg Stream.status e).trans hs, (congrArg Stream.ex e).trans hx, hb.glc k ((hpart k).2 hk) hkw⟩
    · intro lid l _ hl ht
      simp [State.podMates, hl, ht]

end Sys2Proof
end

section
/-!
PROOF. The statement about engine queues does not hold of every state. QFENCE_RELEASE looks for a fence that stands at the head of each queue that
it names; the statement speaks of a fence by its identity, and a state may hold two fences of one identity that name different queues.
-/
namespace Sys2Proof.Machine

/-- The core of the counterexample. -/
def twinCore : CoreId := ⟨0, 0, 0⟩

/-- A fence over the ME queue alone. -/
def meFence : EngCmd := { id := 0, kind := .qfence, eng := .me, slot := ⟨twinCore, 0, 0⟩, x := ⟨twinCore, 0⟩, asid := 0, level := 0, n := 1 }

/-- A fence over the CE queue alone, of the same identity. -/
def ceFence : EngCmd := { meFence with eng := .ce, n := 2 }

/-- The two fences stand at the heads of their queues. -/
def twinFences : State := State.reset.setCore twinCore { me := { cmds := [meFence] }, ce := { cmds := [ceFence] } }

theorem twinFences_core : twinFences.core twinCore = { me := { cmds := [meFence] }, ce := { cmds := [ceFence] } } := State.core_setCore ..

theorem twinFences_heads : (twinFences.core twinCore).headReady .me = some meFence ∧ (twinFences.core twinCore).headReady .ce = some ceFence ∧
    (twinFences.core twinCore).headReady .cs = none := by
  rw [twinFences_core]
  exact ⟨rfl, rfl, rfl⟩

/-- Of the two fences the one in the ME queue is found first. -/
theorem twinFences_ready : (twinFences.core twinCore).fenceReady = some meFence := by
  rw [twinFences_core]
  rfl

/-- Its entry leaves; the one in the CE queue stays. -/
theorem twinFences_release {t : State} (h : exec (.qfenceRelease twinCore) twinFences = .next t) : ((t.core twinCore).queue .ce).cmds = [ceFence] := by
  have he : exec (.qfenceRelease twinCore) twinFences = .next (twinFences.popHead twinCore .me) := by
    change execQfenceRelease twinCore twinFences = _
    unfold execQfenceRelease
    rw [twinFences_ready]
    rfl
  obtain rfl : twinFences.popHead twinCore .me = t := Host.Outcome.next.inj (he.symm.trans h)
  rw [cmds_popHead, if_neg (by decide), twinFences_core]
  rfl

end Sys2Proof.Machine
end

section
/-!
PROOF. The refutation of the statement about engine queues (R229).
-/
namespace Sys2Proof
open Sys2Proof.Machine Sys2Proof.Claims

/-- Refutes O34, in its clause on QFENCE_RELEASE: in a state where fences of one identity over different queues stand at the heads of the ME and
the CE, that over the ME is released, and the entry of that over the CE stays at its queue's head. -/
theorem not_engineQueues : ¬ Obligations.EngineQueues := by
  intro hall
  obtain ⟨hme, hce, hcs⟩ := twinFences_heads
  obtain ⟨-, -, -, -, -, -, -, hrelease, -, -⟩ := hall twinFences ceFence twinCore .ce ceFence { name := .illegalOp } 0
  have hheads : ∀ o ∈ ceFence.engines, (twinFences.core twinCore).headReady o = some { ceFence with eng := o } := by
    intro o ho
    obtain rfl : o = .ce := List.mem_singleton.1 ho
    exact hce
  have hids : ∀ o y, (twinFences.core twinCore).headReady o = some y → y.kind = .qfence → y.id ≠ ceFence.id →
      ∃ q ∈ y.engines, ∀ z, (twinFences.core twinCore).headReady q = some z → z.id ≠ y.id := by
    intro o y hy _ hne
    have hid : y.id = ceFence.id := by
      cases o with
      | me => rw [hme] at hy; cases hy; rfl
      | ce => rw [hce] at hy; cases hy; rfl
      | cs => rw [hcs] at hy; cases hy
    exact absurd hid hne
  obtain ⟨t, ht, -, hq⟩ := hrelease rfl (by decide) hheads hids
  have hgone := hq .ce
  rw [twinFences_release ht, if_pos (by decide), twinFences_core] at hgone
  exact absurd hgone (by decide)

end Sys2Proof
end

section
/-!
PROOF. Bytes and numbers (R3): what is read after numbers have been written, in memories and at physical addresses.
-/
namespace Sys2Proof.Machine

/-! ### Numbers as bytes -/

@[simp] theorem length_natBytes (n x : Nat) : (natBytes n x).length = n := by
  induction n generalizing x with
  | zero => rfl
  | succ n ih => simp [natBytes, ih]

@[simp] theorem length_bvBytes {w : Nat} (n : Nat) (x : BitVec w) : (bvBytes n x).length = n := length_natBytes n _

/-- The low bytes of a number give the number back, modulo what they hold. -/
theorem bytesNat_natBytes (n x : Nat) : bytesNat (natBytes n x) = x % 256 ^ n := by
  induction n generalizing x with
  | zero => simp [natBytes, bytesNat, Nat.mod_one]
  | succ n ih =>
    rw [natBytes, bytesNat, ih, Nat.pow_succ', Nat.mod_mul]
    simp

/-- A bit vector of n bytes comes back from its bytes. -/
theorem bytesBv_bvBytes {w : Nat} {n : Nat} (h : 2 ^ w ≤ 256 ^ n) (x : BitVec w) : bytesBv w (bvBytes n x) = x := by
  rw [bytesBv, bvBytes, bytesNat_natBytes, Nat.mod_eq_of_lt (Nat.lt_of_lt_of_le x.isLt h), BitVec.ofNat_toNat, BitVec.setWidth_eq]

/-! ### Memories -/

/-- A read gives the bytes one by one. -/
theorem mread_eq_map (m : Memory) (a n : Nat) : mread m a n = (List.range n).map fun k => mget m (a + k) := by
  induction n generalizing a with
  | zero => rfl
  | succ n ih =>
    rw [mread, ih, List.range_succ_eq_map, List.map_cons, List.map_map]
    congr 1
    refine List.map_congr_left fun k _ => ?_
    simp [Nat.add_assoc, Nat.add_comm 1]

/-- A read sees the bytes that it reads, and no others. -/
theorem mread_congr {m m' : Memory} {a n : Nat} (h : ∀ k < n, mget m (a + k) = mget m' (a + k)) : mread m a n = mread m' a n := by
  rw [mread_eq_map, mread_eq_map]
  exact List.map_congr_left fun k hk => h k (List.mem_range.1 hk)

/-- A read beside what has been written gives what it gave before. -/
theorem mread_mwrite_out {m : Memory} (hm : m.wf) {a n b : Nat} {bs : List Byte} (h : a + n ≤ b ∨ b + bs.length ≤ a) :
    mread (mwrite m b bs) a n = mread m a n :=
  mread_congr fun k hk => mget_mwrite_out hm (by omega)

/-- A read of a part of what has been written. -/
theorem mread_mwrite_part {m : Memory} (hm : m.wf) {a k n : Nat} {bs : List Byte} (h : k + n ≤ bs.length) :
    mread (mwrite m a bs) (a + k) n = (bs.drop k).take n := by
  rw [mread_eq_map]
  refine List.ext_getElem (by simp; omega) fun i hi _ => ?_
  have hi' : i < n := by simpa using hi
  rw [List.getElem_map, List.getElem_range, Nat.add_assoc, mget_mwrite_in hm (by omega), List.getElem_take, List.getElem_drop]

/-- Element k of equal pieces one after another. -/
theorem flatMap_piece {α : Type} {f : α → List Byte} {n : Nat} (hf : ∀ a, (f a).length = n) (l : List α) {k : Nat} (hk : k < l.length) :
    ((l.flatMap f).drop (k * n)).take n = f l[k] := by
  induction l generalizing k with
  | nil => simp at hk
  | cons a r ih =>
    cases k with
    | zero => simp [List.take_append_of_le_length (Nat.le_of_eq (hf a).symm), List.take_of_length_le (Nat.le_of_eq (hf a))]
    | succ k =>
      rw [List.flatMap_cons, Nat.succ_mul, Nat.add_comm, ← List.drop_drop, List.drop_append_of_le_length (Nat.le_of_eq (hf a).symm),
        List.drop_of_length_le (Nat.le_of_eq (hf a)), List.nil_append]
      simpa using ih (by simpa using hk)

theorem length_flatMap_piece {α : Type} {f : α → List Byte} {n : Nat} (hf : ∀ a, (f a).length = n) (l : List α) :
    (l.flatMap f).length = l.length * n := by
  simp [List.length_flatMap, hf]

end Sys2Proof.Machine
end

section
/-!
PROOF. Rows of a tile slot: what one reads after another has been written (R53), and the row of a migrated command's result (R216).
-/
namespace Sys2Proof.Machine

open Claims

/-! ### Elements of a tile slot (R53) -/

/-- Element (r, c) of a tile slot in CB. -/
def Ctx.xw (x : Ctx) (ts : BitVec 2) (r c : Nat) : XwElem :=
  (bytesBv 160 (mread x.cbuf (slotBase ts + (r * 192 + c) * 20) 20), mget x.cbuf (slotBase ts + 0x78000 + r * 192 + c))

theorem xwAt_eq (s : State) (x : CtxId) (ts : BitVec 2) (r c : Nat) : xwAt s x ts r c = (s.ctx x).xw ts r c := by
  unfold xwAt Ctx.xw bytesBv slotBase
  rw [mread_eq_map]

theorem getElem_tileRow (x : Ctx) (ts : BitVec 2) (r j n : Nat) {k : Nat} (hk : k < (x.tileRow ts r j n).length) :
    (x.tileRow ts r j n)[k] = x.xw ts r (j + k) := by
  have h1 : r * 192 + (j + k) = r * 192 + j + k := (Nat.add_assoc ..).symm
  have h2 : slotBase ts + 0x78000 + r * 192 + (j + k) = slotBase ts + 0x78000 + r * 192 + j + k := (Nat.add_assoc ..).symm
  unfold Ctx.xw
  rw [h1, h2]
  simp only [Ctx.tileRow, upTo, List.getElem_map, List.getElem_range]

@[simp] theorem length_tileRow (x : Ctx) (ts : BitVec 2) (r j n : Nat) : (x.tileRow ts r j n).length = n := by simp [Ctx.tileRow, upTo]

/-- CB after elements of a row have been replaced: their values, then their status bytes, have been written. -/
theorem cbuf_setTileRow (x : Ctx) (ts : BitVec 2) (r j : Nat) (ys : List XwElem) :
    (x.setTileRow ts r j ys).cbuf = mwrite (mwrite x.cbuf (slotBase ts + (r * 192 + j) * 20) (ys.flatMap fun y => bvBytes 20 y.1))
      (slotBase ts + 0x78000 + r * 192 + j) (ys.map Prod.snd) := by
  unfold Ctx.setTileRow
  refine (Ctx.buf_bufWrite _ .cb .cb _ _).trans ?_
  rw [if_pos rfl, Ctx.buf_bufWrite, if_pos rfl]
  rfl

section
variable {x : Ctx} (hx : x.canon) (ts : BitVec 2) {r j : Nat} {ys : List XwElem} (hr : r < 128) (hj : j + ys.length ≤ 192)
include hx

/-- Bytes outside a row's values and status bytes keep what they hold. -/
theorem mget_setTileRow_out {a : Nat} (ha : ¬ inRow ts r j ys.length a) : mget (x.setTileRow ts r j ys).cbuf a = mget x.cbuf a := by
  obtain ⟨_, _, hwf⟩ := hx
  have hlen := length_flatMap_piece (f := fun y : XwElem => bvBytes 20 y.1) (n := 20) (fun y => length_bvBytes 20 y.1) ys
  unfold inRow at ha
  rw [cbuf_setTileRow, slotBase, mget_mwrite_out (mwrite_wf hwf _ _) (by rw [List.length_map]; omega), mget_mwrite_out hwf (by omega)]

include hr hj

/-- The elements that have been written read back. -/
theorem xw_setTileRow {k : Nat} (hk : k < ys.length) : (x.setTileRow ts r j ys).xw ts r (j + k) = ys[k] := by
  obtain ⟨_, _, hwf⟩ := hx
  have hf (y : XwElem) : (bvBytes 20 y.1).length = 20 := length_bvBytes 20 y.1
  have hlen := length_flatMap_piece (f := fun y : XwElem => bvBytes 20 y.1) hf ys
  unfold Ctx.xw
  rw [cbuf_setTileRow, mread_mwrite_out (mwrite_wf hwf _ _) (by simp only [slotBase]; omega)]
  refine Prod.ext ?_ ?_
  · dsimp only
    rw [show slotBase ts + (r * 192 + (j + k)) * 20 = slotBase ts + (r * 192 + j) * 20 + k * 20 by omega,
      mread_mwrite_part hwf (by omega), flatMap_piece hf ys hk, bytesBv_bvBytes (by decide)]
  · dsimp only
    rw [show slotBase ts + 0x78000 + r * 192 + (j + k) = slotBase ts + 0x78000 + r * 192 + j + k by omega,
      mget_mwrite_in (mwrite_wf hwf _ _) (by simpa using hk), List.getElem_map]

end

/-- Replacing elements of a row changes CB alone. -/
theorem bufs_setTileRow (x : Ctx) (ts : BitVec 2) (r j : Nat) (ys : List XwElem) :
    (x.setTileRow ts r j ys).wb = x.wb ∧ (x.setTileRow ts r j ys).ab = x.ab := by
  have h (b : Buf) (hb : b ≠ .cb) : (x.setTileRow ts r j ys).buf b = x.buf b := by
    unfold Ctx.setTileRow
    rw [Ctx.buf_bufWrite, if_neg hb, Ctx.buf_bufWrite, if_neg hb]
  exact ⟨h .wb (by decide), h .ab (by decide)⟩

/-! ### Power tokens (R27, R215) -/

theorem fieldN_onField (d : Device) (f : Nat) (g : Field → Field) : (d.onField f g).fieldN f = g (d.fieldN f) := by
  simp [Device.onField, Device.fieldN]

/-- A burst that holds no token runs not. -/
theorem burstRuns_none {s : State} {c : CoreId} (h : s.hosted c = none) (ht : (s.core c).token = false) : s.burstRuns c = none := by
  unfold State.burstRuns
  cases s.meHead c <;> simp [h, ht]

/-! ### A row of a migrated result (R216) -/

/-- What a row of contributions is added to: zeros, or the elements of the slot (R208). -/
def Ctx.addend (x : Ctx) (h : EngCmd) (i : Nat) (xs : List XwElem) : List XwElem :=
  if h.z then xs.map fun _ => (0, 0) else x.tileRow h.ts (recRow0 h.recA + i) (recCol0 (h.recB.setWidth 1024)) xs.length

@[simp] theorem length_addend (x : Ctx) (h : EngCmd) (i : Nat) (xs : List XwElem) : (x.addend h i xs).length = xs.length := by
  unfold Ctx.addend
  split <;> simp

theorem getElem_addend (x : Ctx) (h : EngCmd) (i : Nat) (xs : List XwElem) {k : Nat} (hk : k < (x.addend h i xs).length) :
    (x.addend h i xs)[k] = if h.z then (0, 0) else x.xw h.ts (recRow0 h.recA + i) (recCol0 (h.recB.setWidth 1024) + k) := by
  by_cases hz : h.z = true
  · simp only [Ctx.addend, hz, if_true, List.getElem_map]
  · simp only [Ctx.addend, hz, if_false, Bool.false_eq_true, getElem_tileRow]

/-- The addition of a row of contributions into the slot leaves every other byte as it was. -/
theorem addRow_spec {x : Ctx} (hx : x.canon) (h : EngCmd) {i : Nat} {xs : List XwElem} (hr : recRow0 h.recA + i < 128)
    (hj : recCol0 (h.recB.setWidth 1024) + xs.length ≤ 192) :
    let j := recCol0 (h.recB.setWidth 1024)
    let y := x.addRow h i xs
    (y.wb = x.wb ∧ y.ab = x.ab) ∧ (∀ a, ¬ inRow h.ts (recRow0 h.recA + i) j xs.length a → mget y.cbuf a = mget x.cbuf a) ∧
      ∀ k, (hk : k < xs.length) → y.xw h.ts (recRow0 h.recA + i) (j + k) =
        xwAcc (if h.z then (0, 0) else x.xw h.ts (recRow0 h.recA + i) (j + k)) xs[k] := by
  intro j y
  have hy : y = x.setTileRow h.ts (recRow0 h.recA + i) j (((x.addend h i xs).zip xs).map fun p => xwAcc p.1 p.2) := rfl
  have hlen : (((x.addend h i xs).zip xs).map fun p => xwAcc p.1 p.2).length = xs.length := by simp
  rw [hy]
  refine ⟨bufs_setTileRow .., fun a ha => mget_setTileRow_out hx _ (by rwa [hlen]), fun k hk => ?_⟩
  rw [xw_setTileRow hx _ hr (by rw [hlen]; exact hj) (by rw [hlen]; exact hk), List.getElem_map, List.getElem_zip, getElem_addend]

/-- Row i of the head command is done: its queue keeps it at its head, and of the contexts cr.mrow alone changes. -/
theorem rowDone_keeps {s : State} {c : CoreId} {h : EngCmd} {r : List EngCmd} (hq : (s.core c).me.cmds = h :: r) (g : EngCmd) (i : Nat) :
    EngineKeeps s (s.rowDone c .me g i) ∧ (s.rowDone c .me g i).devs = s.devs ∧ (s.rowDone c .me g i).streams = s.streams ∧
      ∃ h', ((s.rowDone c .me g i).core c).me.cmds = h' :: r ∧ h'.migrated = h.migrated := by
  have hk : EngineKeeps s (s.rowDone c .me g i) := by
    unfold State.rowDone
    exact .ite (((EngineKeeps.refl s).onHead c .me _).onMrow ..) ((EngineKeeps.refl s).onHead c .me _)
  have hm : ((s.rowDone c .me g i).core c).queue .me =
      { (s.core c).queue .me with cmds := { h with row := i + 1, restart := false, checked := true, cache := [] } :: r } := by
    unfold State.rowDone
    split
    · exact (queue_onHead (e := .me) hq _ c .me).trans (if_pos ⟨rfl, rfl⟩)
    · exact (queue_onHead (e := .me) hq _ c .me).trans (if_pos ⟨rfl, rfl⟩)
  refine ⟨hk, ?_, ?_, _, congrArg EngQueue.cmds hm, rfl⟩ <;> unfold State.rowDone <;> split <;> rfl

/-- A migrated command that leaves its queue gives no token back: devices and streams are as they were. -/
theorem popHead_migrated {s : State} {c : CoreId} {e : Eng} {h : EngCmd} {r : List EngCmd} (hq : ((s.core c).queue e).cmds = h :: r)
    (hm : h.migrated.isSome = true) : (s.popHead c e).devs = s.devs ∧ (s.popHead c e).streams = s.streams := by
  have hb : (h.isBurst && h.migrated.isNone && (s.hosted c).isNone) = false := by
    cases hh : h.migrated <;> simp_all
  unfold State.popHead
  simp only [hq, hb, Bool.false_eq_true, if_false]
  split <;> exact ⟨rfl, rfl⟩

/-- One row of a migrated result is applied: from the slot with the row added, the bookkeeping of the row follows. -/
theorem migratedResultApply_row {s : State} {c : CoreId} {h : EngCmd} (hh : (s.core c).headReady .me = some h) (hm : h.migrated.isSome = true)
    (hp : recRows h.recA ≤ h.partialRows.length) (hr : h.row < recRows h.recA) (ho : s.overdue c h = false) :
    ∃ t, exec (.migratedResultApply c) s = .next t ∧ EngineKeeps (s.onCtx h.x fun x => x.addRow h h.row (h.partialRows[h.row]?.getD [])) t ∧
      t.devs = s.devs ∧ t.streams = s.streams := by
  obtain ⟨r, hq, _, _, _⟩ := Core.headReady_some hh
  have hq1 : ((s.onCtx h.x fun x => x.addRow h h.row (h.partialRows[h.row]?.getD [])).core c).me.cmds = h :: r := hq
  obtain ⟨hk, hd, hs, h', hq', hm'⟩ := rowDone_keeps hq1 h h.row
  obtain ⟨hd', hs'⟩ := popHead_migrated (e := .me) hq' (by rw [hm', hm])
  have he : exec (.migratedResultApply c) s = execMigratedResultApply c s := rfl
  have h1 : (h.migrated.isNone || decide (h.partialRows.length < recRows h.recA)) = false := by
    cases hh : h.migrated <;> simp_all
  unfold execMigratedResultApply at he
  simp only [hh, h1, hr, ho, Bool.false_eq_true, if_false, if_true] at he
  refine ⟨_, he, ?_⟩
  split
  · exact ⟨hk.popHead c .me, hd'.trans hd, hs'.trans hs⟩
  · exact ⟨hk, hd, hs⟩

/-! ### Migration (R216) -/

/-- An eligible command migrates to an idle ME of its quad. -/
theorem commandMigration_eligible {s : State} {c target : CoreId} {pos : Nat} {h : EngCmd} (hc : (s.core c).me.cmds[pos]? = some h)
    (hk : h.kind = .mma ∨ h.kind = .mmas) (hl : h.level ≠ 2) (hf : h.fo = false) (ha : inWindow (recVa h.recA) = false)
    (has : inWindow (recSva h.recA) = false) (hb : inWindow (recVa (h.recB.setWidth 1024)) = false)
    (hbs : inWindow (recSva (h.recB.setWidth 1024)) = false) (hsc : h.kind = .mmas → inWindow h.sc = false) (h4 : 4 ≤ pos)
    (hd : target.dev = c.dev) (hfi : target.field = c.field) (hq : target.core / 4 = c.core / 4) (hne : target ≠ c)
    (hi : (s.core target).me.cmds = []) (hh : s.hosted target = none) (ht : (s.core target).token = false)
    (hfe : (s.core target).fenced = false) (hm : h.migrated = none) (hr : h.row = 0) (hre : h.restart = false) :
    exec (.commandMigration c pos target) s = .next (s.onMe c h.id fun y => { y with migrated := some target }) := by
  have hl' : ¬ h.level = 2#2 := hl
  have hk' : (h.kind == .mma || h.kind == .mmas) = true := by simpa using hk
  have hsc' : (h.kind == .mmas && inWindow h.sc) = false := by
    by_cases e : h.kind = .mmas
    · simp [hsc e]
    · simp [e]
  change execCommandMigration c pos target s = _
  unfold execCommandMigration
  simp only [hc]
  rw [if_pos]
  simp [hk', hsc', hl', hf, ha, has, hb, hbs, h4, hd, hfi, hq, hne, hi, hh, ht, hfe, hm, hr, hre]

end Sys2Proof.Machine
end

section
/-!
PROOF. The statement about power tokens and migrated commands (R27, R215, R216, R317).
-/
namespace Sys2Proof
open Sys2Proof.Machine Sys2Proof.Claims

/-- Settles O39: tokens by the ring of their field, a migrated result by the row that it adds to its slot. -/
theorem tokensAndMigration : Obligations.TokensAndMigration := by
  intro s c target dev field pos h ring
  refine ⟨fun hw hr => ?_, fun p hp hw => ?_, fun hh ht => ?_, ?_, ?_⟩
  · refine ⟨(s.onDev c.dev fun d => d.onField c.field fun f => { f with ring := f.ring.erase c.core }).onCore c fun k => { k with token := true }, ?_, ?_,
      rfl, ?_, ?_⟩
    · change execPowerTokenTake c s = _
      have hin : ((s.dev c.dev).fieldN c.field).ring.contains c.core = true := by simpa using hr
      simp only [execPowerTokenTake, hw, hin]
      rfl
    · exact (SameBytes.onDev s c.dev rfl rfl).trans (.onCore _ c _)
    · simp
    · change (((s.onDev c.dev fun d => d.onField c.field fun f => { f with ring := f.ring.erase c.core }).dev c.dev).fieldN c.field).ring = _
      rw [State.dev_onDev, fieldN_onField]
  · refine ⟨s.onDev dev fun d => d.onField field fun f => { f with ring := f.ring.set pos ((p + 1) % 40) }, ?_, .onDev s dev rfl rfl, rfl, rfl, ?_⟩
    · change execPowerTokenPass dev field pos s = _
      unfold execPowerTokenPass
      rw [show ((s.dev dev).fieldN field).ring[pos]? = some p from hp]
      simp [hw]
    · change (((s.onDev dev fun d => d.onField field fun f => { f with ring := f.ring.set pos ((p + 1) % 40) }).dev dev).fieldN field).ring = _
      rw [State.dev_onDev, fieldN_onField]
  · have hb := burstRuns_none hh ht
    refine ⟨?_, ?_⟩
    · change execMmaRowCommit c s = _
      simp only [execMmaRowCommit, hh, hb]
    · change execMcvtRowCommit c s = _
      simp only [execMcvtRowCommit, hb]
  · intro far rb hc hk hl hf ha has hb hbs hsc h4 hd hfi hq hne hi hh ht hfe hm hr hre
    refine ⟨_, commandMigration_eligible hc hk hl hf ha has hb hbs hsc h4 hd hfi hq hne hi hh ht hfe hm hr hre, .of_eq rfl rfl, rfl, ?_⟩
    unfold State.onMe
    rw [State.core_onCore, List.getElem?_map, hc]
    simp
  · intro rb r xs hs hh hm hp hr ho _ hr128 hj
    obtain ⟨t, ht, hk, hd, hstr⟩ := migratedResultApply_row hh hm hp hr ho
    obtain ⟨hbufs, hout, hin⟩ := addRow_spec (hs.ctx h.x) h hr128 hj
    have hctx (y : CtxId) : (t.ctx y).wb = ((s.onCtx h.x fun x => x.addRow h h.row xs).ctx y).wb ∧
        (t.ctx y).ab = ((s.onCtx h.x fun x => x.addRow h h.row xs).ctx y).ab ∧
        (t.ctx y).cbuf = ((s.onCtx h.x fun x => x.addRow h h.row xs).ctx y).cbuf := by
      obtain ⟨v, q, e⟩ := hk.ctx y
      rw [e]
      exact ⟨rfl, rfl, rfl⟩
    refine ⟨t, ht, ⟨hd, hstr, fun y => ?_, fun y a hn => ?_⟩, fun k hlt => ?_⟩
    · rw [(hctx y).1, (hctx y).2.1, State.ctx_onCtx_if]
      split
      · next e => subst e; exact hbufs
      · exact ⟨rfl, rfl⟩
    · rw [(hctx y).2.2, State.ctx_onCtx_if]
      split
      · next e => subst e; exact hout a (hn rfl)
      · rfl
    · have hcb : (t.ctx h.x).cbuf = ((s.ctx h.x).addRow h h.row xs).cbuf := (hctx h.x).2.2.trans (by rw [State.ctx_onCtx])
      have e : xwAt t h.x h.ts r (recCol0 rb + k) = ((s.ctx h.x).addRow h h.row xs).xw h.ts r (recCol0 rb + k) := by
        rw [xwAt_eq]
        unfold Ctx.xw
        rw [hcb]
      rw [e, hin k hlt, xwAt_eq, List.getElem?_eq_getElem hlt]
      rfl

end Sys2Proof
end

section
/-!
PROOF. Freeing a context (R98, R285, R296): what happens to its streams, and what of the other contexts, the launches and the devices stays.
-/
namespace Sys2Proof.Machine

/-! ### Launches after a change -/

section
variable {K V : Type} [DecidableEq K]

theorem fget?_fset (m : FMap K V) (k k' : K) (v : V) : fget? (fset m k v) k' = if k' = k then some v else fget? m k' := by
  split
  · next h => rw [h, fget?_fset_self]
  · next h => exact fget?_fset_ne m v h

theorem fget?_fdel_self (m : FMap K V) (k : K) : fget? (fdel m k) k = none := by
  induction m with
  | nil => rfl
  | cons p r ih =>
    obtain ⟨a, b⟩ := p
    unfold fdel
    split
    · exact ih
    · next h => rw [fget?, if_neg h, ih]

end

theorem State.strm_congr {s t : State} (h : t.streams = s.streams) (id : SlotId) : t.strm id = s.strm id := by unfold State.strm; rw [h]
theorem State.ctx_congr {s t : State} (h : t.ctxs = s.ctxs) (x : CtxId) : t.ctx x = s.ctx x := by unfold State.ctx; rw [h]
theorem State.core_congr {s t : State} (h : t.cores = s.cores) (c : CoreId) : t.core c = s.core c := by unfold State.core; rw [h]
theorem State.dev_congr {s t : State} (h : t.devs = s.devs) (d : Nat) : t.dev d = s.dev d := by unfold State.dev; rw [h]

theorem State.launch?_onLaunch (s : State) (d lid : Nat) (f : Launch → Launch) : (s.onLaunch d lid f).launch? d lid = (s.launch? d lid).map f := by
  unfold State.onLaunch
  split
  · next h => simp [h]
  · next l h =>
    rw [h]
    unfold State.launch?
    rw [State.dev_onDev]
    exact fget?_fset_self ..

theorem State.onLaunch_none {s : State} {d lid : Nat} (f : Launch → Launch) (h : s.launch? d lid = none) : s.onLaunch d lid f = s := by
  unfold State.onLaunch
  simp only [h]

theorem State.onLaunch_some {s : State} {d lid : Nat} {l : Launch} (f : Launch → Launch) (h : s.launch? d lid = some l) :
    s.onLaunch d lid f = s.onDev d fun v => { v with launches := fset v.launches lid (f l) } := by
  unfold State.onLaunch
  simp only [h]

@[simp] theorem State.streams_onLaunch (s : State) (d lid : Nat) (f : Launch → Launch) : (s.onLaunch d lid f).streams = s.streams := by
  unfold State.onLaunch; split <;> rfl
@[simp] theorem State.ctxs_onLaunch (s : State) (d lid : Nat) (f : Launch → Launch) : (s.onLaunch d lid f).ctxs = s.ctxs := by
  unfold State.onLaunch; split <;> rfl
@[simp] theorem State.cores_onLaunch (s : State) (d lid : Nat) (f : Launch → Launch) : (s.onLaunch d lid f).cores = s.cores := by
  unfold State.onLaunch; split <;> rfl
@[simp] theorem State.strm_onLaunch (s : State) (d lid : Nat) (f : Launch → Launch) (id : SlotId) : (s.onLaunch d lid f).strm id = s.strm id :=
  State.strm_congr (s.streams_onLaunch d lid f) id
@[simp] theorem State.ctx_onLaunch (s : State) (d lid : Nat) (f : Launch → Launch) (x : CtxId) : (s.onLaunch d lid f).ctx x = s.ctx x :=
  State.ctx_congr (s.ctxs_onLaunch d lid f) x
@[simp] theorem State.core_onLaunch (s : State) (d lid : Nat) (f : Launch → Launch) (c : CoreId) : (s.onLaunch d lid f).core c = s.core c :=
  State.core_congr (s.cores_onLaunch d lid f) c

/-! ### Tokens go back to their rings -/

/-- Beside the cores, `t` differs from `s` in the token rings of the fields alone. -/
structure RingsOnly (s t : State) : Prop where
  streams : t.streams = s.streams
  ctxs : t.ctxs = s.ctxs
  dev : ∀ d, ∃ fs, t.dev d = { s.dev d with fields := fs } ∧ fs.map Field.state = (s.dev d).fields.map Field.state

namespace RingsOnly
variable {s t u : State}

theorem refl (s : State) : RingsOnly s s := ⟨rfl, rfl, fun _ => ⟨_, rfl, rfl⟩⟩
theorem of_eq (hs : t.streams = s.streams) (hc : t.ctxs = s.ctxs) (hd : t.devs = s.devs) : RingsOnly s t :=
  ⟨hs, hc, fun d => ⟨(s.dev d).fields, State.dev_congr hd d, rfl⟩⟩
theorem trans (h : RingsOnly s t) (k : RingsOnly t u) : RingsOnly s u where
  streams := k.streams.trans h.streams
  ctxs := k.ctxs.trans h.ctxs
  dev d := by
    obtain ⟨f, hf, hs⟩ := h.dev d
    obtain ⟨g, hg, ht⟩ := k.dev d
    refine ⟨g, by rw [hg, hf], ht.trans ?_⟩
    rw [hf]
    exact hs

theorem strm (h : RingsOnly s t) (id : SlotId) : t.strm id = s.strm id := State.strm_congr h.streams id
theorem ctx (h : RingsOnly s t) (x : CtxId) : t.ctx x = s.ctx x := State.ctx_congr h.ctxs x
theorem slotsOfCtx (h : RingsOnly s t) (x : CtxId) : t.slotsOfCtx x = s.slotsOfCtx x := by
  unfold State.slotsOfCtx State.strm
  rw [h.streams]

end RingsOnly

theorem ringsOnly_releaseToken (s : State) (c : CoreId) : RingsOnly s (s.releaseToken c) := by
  unfold State.releaseToken
  split
  · exact .refl s
  · extract_lets s1 held
    refine (RingsOnly.of_eq rfl rfl rfl : RingsOnly s s1).trans ⟨rfl, rfl, fun d => ?_⟩
    rw [State.dev_onDev_if]
    split
    · next h =>
      subst h
      refine ⟨_, rfl, ?_⟩
      simp only [Vector.map_set]
      refine Vector.ext fun i hi => ?_
      rw [Vector.getElem_set]
      split
      · next e => subst e; rw [Vector.getElem_map]; unfold Device.fieldN; split <;> rfl
      · rfl
    · exact ⟨_, rfl, rfl⟩

theorem ringsOnly_giveTokens (s : State) (x : CtxId) : RingsOnly s (s.giveTokens x) := by
  have h (cs : List CoreId) (t : State) (ht : RingsOnly s t) : RingsOnly s (cs.foldl State.releaseToken t) :=
    foldl_keeps (P := RingsOnly s) (fun _ c h => h.trans (ringsOnly_releaseToken _ c)) cs ht
  unfold State.giveTokens
  dsimp only
  apply h
  split
  · exact ringsOnly_releaseToken ..
  · exact .refl s

/-! ### The slots of a context -/

theorem slotsOf_nodup (c : CoreId) : (slotsOf c).Nodup := by
  unfold slotsOf
  rw [List.nodup_flatMap]
  refine ⟨fun cl _ => List.Nodup.map (fun a b h => by simpa using h) List.nodup_range, ?_⟩
  refine List.Nodup.pairwise_of_forall_ne List.nodup_range fun a _ b _ hab id ha hb => ?_
  obtain ⟨_, _, rfl⟩ := List.mem_map.1 ha
  obtain ⟨_, _, e⟩ := List.mem_map.1 hb
  exact hab (by simpa using (SlotId.mk.inj e).2.1.symm)

theorem slotsOfCtx_nodup (s : State) (x : CtxId) : (s.slotsOfCtx x).Nodup := (slotsOf_nodup _).filter _

theorem xidOf_of_mem {s : State} {x : CtxId} {id : SlotId} (h : id ∈ s.slotsOfCtx x) : s.xidOf id = x := by
  obtain ⟨hm, hp⟩ := List.mem_filter.1 h
  have hc : id.core = x.core := by
    obtain ⟨cl, _, h2⟩ := List.mem_flatMap.1 hm
    obtain ⟨sl, _, rfl⟩ := List.mem_map.1 h2
    rfl
  have ho : ownerOf id (s.strm id) = x.ctx := by simpa using (Bool.and_eq_true_iff.1 hp).2
  unfold State.xidOf
  rw [hc, ho]

/-- The stream of a slot is gone; nothing of the other streams, the contexts beside its own or the devices has changed. -/
structure FreesSlot (s t : State) (id : SlotId) : Prop where
  strm : ∀ k, t.strm k = if k = id then {} else s.strm k
  ctx : ∀ y, y ≠ s.xidOf id → t.ctx y = s.ctx y
  devs : t.devs = s.devs

theorem freeSlot_frees (s : State) (id : SlotId) : FreesSlot s (s.freeSlot id) id where
  strm k := State.strm_setStrm_if _ id k _
  ctx y hy := by
    unfold State.freeSlot
    extract_lets x g s1 s2
    exact (s2.ctx_onCtx_if x y fun c => c.renameRuns id g).trans (if_neg hy)
  devs := rfl

theorem killStream_frees (s : State) (id : SlotId) : FreesSlot s (s.killStream id) id where
  strm k := (freeSlot_frees _ id).strm k
  ctx y hy := (freeSlot_frees _ id).ctx y hy
  devs := (freeSlot_frees _ id).devs

/-- Slots of a context are freed one after another. -/
theorem foldl_frees {f : State → SlotId → State} (hf : ∀ s id, FreesSlot s (f s id) id) {x : CtxId} :
    ∀ (ids : List SlotId) (s : State), ids.Nodup → (∀ id ∈ ids, s.xidOf id = x) →
      (∀ k, (ids.foldl f s).strm k = if k ∈ ids then {} else s.strm k) ∧ (∀ y, y ≠ x → (ids.foldl f s).ctx y = s.ctx y) ∧
        (ids.foldl f s).devs = s.devs
  | [], s, _, _ => ⟨fun k => by simp, fun _ _ => rfl, rfl⟩
  | id :: ids, s, hn, hx => by
    obtain ⟨hni, hn⟩ := List.nodup_cons.1 hn
    have h := hf s id
    have hx' : ∀ k ∈ ids, (f s id).xidOf k = x := fun k hk => by
      have hne : k ≠ id := fun e => hni (e ▸ hk)
      unfold State.xidOf
      rw [h.strm, if_neg hne]
      exact hx k (List.mem_cons_of_mem _ hk)
    obtain ⟨h1, h2, h3⟩ := foldl_frees hf ids (f s id) hn hx'
    refine ⟨fun k => ?_, fun y hy => (h2 y hy).trans (h.ctx y ?_), h3.trans h.devs⟩
    · rw [List.foldl_cons, h1, h.strm]
      by_cases e : k = id
      · simp only [e, if_true, List.mem_cons, true_or, ite_self]
      · simp only [e, if_false, List.mem_cons, false_or]
    · rw [hx id List.mem_cons_self]
      exact hy

/-! ### A context is freed, or killed -/

/-- What freeing and killing a context have in common: its streams are gone and it is as new; the other streams and contexts are what they were,
and of the devices the token rings alone have changed. -/
structure Frees (s t : State) (x : CtxId) : Prop where
  strm : ∀ id, t.strm id = if id ∈ s.slotsOfCtx x then {} else s.strm id
  ctx : ∀ y, t.ctx y = if y = x then {} else s.ctx y
  dev : ∀ d, ∃ fs, t.dev d = { s.dev d with fields := fs } ∧ fs.map Field.state = (s.dev d).fields.map Field.state

theorem Frees.launch? {s t : State} {x : CtxId} (h : Frees s t x) (d lid : Nat) : t.launch? d lid = s.launch? d lid := by
  obtain ⟨fs, e, _⟩ := h.dev d
  unfold State.launch?
  rw [e]

theorem freeCtx_frees (s : State) (x : CtxId) : Frees s (s.freeCtx x) x := by
  have h0 : RingsOnly s (s.dropRuns x) := .of_eq rfl rfl rfl
  have h1 := h0.trans (ringsOnly_giveTokens (s.dropRuns x) x)
  obtain ⟨hs, hc, hd⟩ := foldl_frees freeSlot_frees _ _ (slotsOfCtx_nodup ((s.dropRuns x).giveTokens x) x) fun _ hk => xidOf_of_mem hk
  refine ⟨fun id => (hs id).trans ?_, fun y => (State.ctx_setCtx_if _ x y _).trans ?_, fun d => ?_⟩
  · rw [h1.slotsOfCtx, h1.strm]
  · by_cases e : y = x
    · rw [if_pos e, if_pos e]
    · rw [if_neg e, if_neg e]
      exact (hc y e).trans (h1.ctx y)
  · obtain ⟨fs, e, hf⟩ := h1.dev d
    exact ⟨fs, (State.dev_congr hd d).trans e, hf⟩

theorem killCtx_frees (s : State) (x : CtxId) : Frees s (s.killCtx x) x := by
  obtain ⟨hs, hc, hd⟩ := foldl_frees killStream_frees _ _ (slotsOfCtx_nodup s x) fun _ hk => xidOf_of_mem hk
  have h1 := ringsOnly_giveTokens ((s.slotsOfCtx x).foldl State.killStream s) x
  refine ⟨fun id => (h1.strm id).trans (hs id), fun y => (State.ctx_setCtx_if _ x y _).trans ?_, fun d => ?_⟩
  · by_cases e : y = x
    · rw [if_pos e, if_pos e]
    · rw [if_neg e, if_neg e]
      exact (h1.ctx y).trans (hc y e)
  · obtain ⟨fs, e, hf⟩ := h1.dev d
    have hd' : ((s.slotsOfCtx x).foldl State.killStream s).dev d = s.dev d := State.dev_congr hd d
    rw [hd'] at e hf
    exact ⟨fs, e, hf⟩

end Sys2Proof.Machine
end

section
/-!
PROOF. The statement about the dispatch and the retirement of WGs (R14, R15, R19, R20, R253, R267).
-/
namespace Sys2Proof.Machine

/-! ### Dispatch -/

theorem pickCtx_dev {s : State} {dev f : Nat} {excl : Bool} {ok : CoreId → Bool} {x : CtxId} (h : s.pickCtx dev f excl ok = some x) :
    x.core.dev = dev := by
  have h1 (p : List Nat → Bool) {y : CtxId} (hy : ((coresIn dev f).filter ok).findSome? (fun c =>
      if p (s.freeCtxs excl c) then (s.freeCtxs excl c).head?.map fun n => (⟨c, n⟩ : CtxId) else none) = some y) : y.core.dev = dev := by
    obtain ⟨c, hc, hy⟩ := List.exists_of_findSome?_eq_some hy
    obtain ⟨k, _, rfl⟩ := List.mem_map.1 (List.mem_filter.1 hc).1
    split at hy
    · obtain ⟨n, _, rfl⟩ := Option.map_eq_some_iff.1 hy
      rfl
    · cases hy
  unfold State.pickCtx at h
  dsimp only at h
  split at h
  · exact h1 (fun fr => !fr.isEmpty) h
  · rcases (Option.orElse_eq_some _ _ _).1 h with h | ⟨_, h⟩
    · exact h1 (fun fr => fr.length == 2) h
    · exact h1 (fun fr => fr.length == 1) h

/-- The main streams of a context are put into their slots one after another. -/
theorem foldl_setStrm (x : CtxId) (g : Nat → Stream) : ∀ (cls : List Nat) (s : State),
    let t := cls.foldl (fun s cl => s.setStrm ⟨x.core, cl, x.ctx⟩ (g cl)) s
    t.ctxs = s.ctxs ∧ t.devs = s.devs ∧ ∀ cl ∈ cls, t.strm ⟨x.core, cl, x.ctx⟩ = g cl
  | [], s => ⟨rfl, rfl, fun _ h => absurd h List.not_mem_nil⟩
  | c :: cls, s => by
    obtain ⟨h1, h2, h3⟩ := foldl_setStrm x g cls (s.setStrm ⟨x.core, c, x.ctx⟩ (g c))
    refine ⟨h1, h2, fun cl hcl => ?_⟩
    by_cases e : cl ∈ cls
    · exact h3 cl e
    · obtain rfl : cl = c := (List.mem_cons.1 hcl).resolve_right e
      rw [List.foldl_cons]
      have hk : ∀ (l : List Nat) (t : State), cl ∉ l → t.strm ⟨x.core, cl, x.ctx⟩ = g cl →
          (l.foldl (fun s cl => s.setStrm ⟨x.core, cl, x.ctx⟩ (g cl)) t).strm ⟨x.core, cl, x.ctx⟩ = g cl := by
        intro l
        induction l with
        | nil => exact fun _ _ h => h
        | cons b l ih =>
          intro t hn ht
          obtain ⟨hb, hl⟩ := not_or.1 (fun h => hn (List.mem_cons.2 h))
          refine ih _ hl ?_
          rw [State.strm_setStrm_if, if_neg (fun e => hb (SlotId.mk.inj e).2.1)]
          exact ht
      exact hk cls _ e (State.strm_setStrm ..)

/-- A WG takes a context (R15, R267): what stands in it, in its main streams and in its launch. -/
theorem startWg_spec (s : State) (lid wg : Nat) (l : Launch) (x : CtxId) :
    let t := s.startWg lid wg l x
    (t.ctx x = { l.newCtx lid wg with preempt := s.stopping l }) ∧ (∀ y, y ≠ x → t.ctx y = s.ctx y) ∧
      (∀ cl, cl < 4 → t.strm ⟨x.core, cl, x.ctx⟩ = { l.newMain cl with idle := (s.dev x.core.dev).cycle }) ∧
      t.launch? x.core.dev lid = (s.launch? x.core.dev lid).map fun m =>
        { m with running := m.running ++ [(wg, x)]
                 issued := fset m.issued (x.core.field, x.core.core / 4) (fget m.issued (x.core.field, x.core.core / 4) 0 + 1)
                 timers := fset m.timers wg (m.startedAt.getD (s.dev x.core.dev).time, none) } := by
  intro t
  obtain ⟨h1, h2, h3⟩ := foldl_setStrm x (fun cl => { l.newMain cl with idle := (s.dev x.core.dev).cycle }) (upTo 4)
    ((s.shield x).setCtx x { l.newCtx lid wg with preempt := s.stopping l })
  generalize hs : (upTo 4).foldl (fun s' cl => s'.setStrm ⟨x.core, cl, x.ctx⟩ { l.newMain cl with idle := (s.dev x.core.dev).cycle })
    ((s.shield x).setCtx x { l.newCtx lid wg with preempt := s.stopping l }) = s2 at h1 h2 h3
  have ht : t = s2.onLaunch x.core.dev lid fun m =>
      { m with running := m.running ++ [(wg, x)]
               issued := fset m.issued (x.core.field, x.core.core / 4) (fget m.issued (x.core.field, x.core.core / 4) 0 + 1)
               timers := fset m.timers wg (m.startedAt.getD (s.dev x.core.dev).time, none) } := by rw [← hs]; rfl
  have hc (y : CtxId) := State.ctx_congr h1 y
  refine ⟨?_, fun y hy => ?_, fun cl hcl => ?_, ?_⟩
  · rw [ht, State.ctx_onLaunch, hc]
    exact State.ctx_setCtx ..
  · rw [ht, State.ctx_onLaunch, hc]
    exact (State.ctx_setCtx_if _ x y _).trans (if_neg hy)
  · rw [ht, State.strm_onLaunch]
    exact h3 cl (List.mem_range.2 hcl)
  · rw [ht, State.launch?_onLaunch]
    have hl : s2.launch? x.core.dev lid = s.launch? x.core.dev lid := congrArg (fun d : Device => fget? d.launches lid) (State.dev_congr h2 x.core.dev)
    rw [hl]

theorem State.stopping_onLaunch (s : State) (d lid : Nat) (f : Launch → Launch) (l : Launch) : (s.onLaunch d lid f).stopping l = s.stopping l := by
  unfold State.stopping
  simp only [State.ctx_onLaunch]

theorem State.time_onLaunch (s : State) (d lid : Nat) (f : Launch → Launch) (k : Nat) : ((s.onLaunch d lid f).dev k).time = (s.dev k).time := by
  unfold State.onLaunch
  split
  · rfl
  · rw [State.dev_onDev_if]
    split
    · next h => rw [h]
    · rfl

section
variable {s : State} {dev lid : Nat} {l0 : Launch} (h : s.launch? dev lid = some l0) (hd : s.dispatching dev lid l0 = true)
include h hd

theorem execWgDispatch_nil (hb : (s.nextBatch dev l0).batch = []) : exec (.wgDispatch dev lid) s = .next s := by
  change execWgDispatch dev lid s = _
  unfold execWgDispatch
  simp only [h, hd, hb, Bool.not_true, Bool.false_eq_true, if_false]

theorem execWgDispatch_full {f wg : Nat} {rest : List (Nat × Nat)} (hb : (s.nextBatch dev l0).batch = (f, wg) :: rest)
    (hx : s.pickCtx dev f (s.nextBatch dev l0).excl (fun _ => true) = none) : exec (.wgDispatch dev lid) s = .next s := by
  change execWgDispatch dev lid s = _
  unfold execWgDispatch
  simp only [h, hd, hb, hx, Bool.not_true, Bool.false_eq_true, if_false]

theorem execWgDispatch_starts {f wg : Nat} {rest : List (Nat × Nat)} {x : CtxId} (hb : (s.nextBatch dev l0).batch = (f, wg) :: rest)
    (hx : s.pickCtx dev f (s.nextBatch dev l0).excl (fun _ => true) = some x) :
    exec (.wgDispatch dev lid) s =
      .next ((s.onLaunch dev lid fun _ => { s.nextBatch dev l0 with batch := rest }).startWg lid wg (s.nextBatch dev l0) x) := by
  change execWgDispatch dev lid s = _
  unfold execWgDispatch
  simp only [h, hd, hb, hx, Bool.not_true, Bool.false_eq_true, if_false]

end

theorem nextBatch_new {s : State} {dev : Nat} {l : Launch} {f n : Nat} (hb : l.batch = []) (h : s.pickField dev l (fun _ => true) = some (f, n)) :
    (s.nextBatch dev l).batch = (List.range (min (min 64 n) (l.wgcount - l.nextWg))).map fun k => (f, l.nextWg + k) := by
  unfold State.nextBatch
  simp only [hb, h, List.isEmpty_nil, Bool.not_true, Bool.false_eq_true, if_false, upTo]

/-- A new main stream (R133, R267). -/
theorem newMain_spec (l : Launch) (cl : Nat) :
    let st := l.newMain cl
    let e := (l.entry[cl]?).getD none
    (e = none → st.status = .halted) ∧
      (∀ off, e = some off → st.status = .running ∧ st.ex.pc = BitVec.ofNat 64 (l.codeva + off) ∧ st.ex.hdr = st.ex.pc) ∧
      st.s = (Vector.replicate 32 0).set 28 l.datava ∧ st.v = Vector.replicate 64 0 ∧ st.lc = Vector.replicate 4 0 ∧ st.rrb = 0 ∧ st.uthr = 8 ∧
      st.trap.tvec = l.tvec ∧ st.priv = .u := by
  dsimp only
  unfold Launch.newMain
  refine ⟨fun h => by rw [h]; rfl, fun off h => by rw [h]; exact ⟨rfl, rfl, rfl⟩, rfl, rfl, rfl, rfl, rfl, rfl, rfl⟩

/-! ### Retirement -/

/-- What a WG waits for before it may retire (R19, R253). -/
theorem mayRetire_iff (s : State) (x : CtxId) : s.mayRetire x = true ↔
    (∀ id ∈ mainsOf x, (s.strm id).status = .halted) ∧
      (∀ id ∈ s.slotsOfCtx x, id.sl < 2 ∧ (s.strm id).pendFaults = [] ∧ (s.strm id).allSq = [] ∧ (s.strm id).engIssue = none) ∧
      s.wgUnstamped x = false ∧ (∀ p ∈ (s.core x.core).paths, p.x ≠ x) ∧ (s.ctx x).planRuns = false ∧
      ∀ e, ∀ c ∈ ((s.core x.core).queue e).cmds, c.x ≠ x := by
  have he (e : Eng) : e ∈ engs := by cases e <;> decide
  have hcmds : s.cmdsOf x = false ↔
      (∀ e, ∀ c ∈ ((s.core x.core).queue e).cmds, c.x ≠ x) ∧ ∀ id ∈ s.slotsOfCtx x, (s.strm id).engIssue = none := by
    unfold State.cmdsOf State.cmdList
    simp only [Bool.not_eq_false', List.isEmpty_iff, List.append_eq_nil_iff, List.flatMap_eq_nil_iff, List.filter_eq_nil_iff, beq_iff_eq,
      List.filterMap_eq_nil_iff]
    exact and_congr_left' ⟨fun h e => h e (he e), fun h e _ => h e⟩
  have hq : (engs.any fun e => ((s.core x.core).queue e).cmds.any fun c => c.x == x) = false ↔
      ∀ e, ∀ c ∈ ((s.core x.core).queue e).cmds, c.x ≠ x := by
    simp only [List.any_eq_false, beq_iff_eq, Bool.not_eq_true]
    exact ⟨fun h e => h e (he e), fun h e _ => h e⟩
  unfold State.mayRetire
  simp only [Bool.and_eq_true, Bool.not_eq_true', hcmds, hq, List.all_eq_true, beq_iff_eq, List.isEmpty_iff, isTail, decide_eq_false_iff_not, not_le,
    List.any_eq_false]
  constructor
  · rintro ⟨⟨⟨⟨⟨⟨h1, h2⟩, h3⟩, h4, h5⟩, h6⟩, h7⟩, h8⟩
    refine ⟨h1, fun id hid => ?_, h3, h7, h6, h8⟩
    obtain ⟨⟨ht, hp⟩, hsq⟩ := h2 id hid
    exact ⟨ht, hp, hsq, h5 id hid⟩
  · rintro ⟨h1, h2, h3, h4, h5, h6⟩
    have hslot : ∀ id ∈ s.slotsOfCtx x, (id.sl < 2 ∧ (s.strm id).pendFaults = []) ∧ (s.strm id).allSq = [] := fun id hid => by
      obtain ⟨ht, hp, hsq, -⟩ := h2 id hid
      exact ⟨⟨ht, hp⟩, hsq⟩
    have hissue : ∀ id ∈ s.slotsOfCtx x, (s.strm id).engIssue = none := fun id hid => by
      obtain ⟨-, -, -, hi⟩ := h2 id hid
      exact hi
    exact ⟨⟨⟨⟨⟨⟨h1, hslot⟩, h3⟩, h6, hissue⟩, h5⟩, h4⟩, h6⟩

@[simp] theorem Device.launches_finishPkt (d : Device) (q idx : Nat) : (d.finishPkt q idx).launches = d.launches := by
  unfold Device.finishPkt
  split
  · rfl
  · dsimp only; split <;> rfl
@[simp] theorem Device.launches_releaseKtt (d : Device) (asid : Nat) : (d.releaseKtt asid).launches = d.launches := by
  unfold Device.releaseKtt
  split <;> rfl

/-- A launch completes exactly when all its WGs are counted (R19); nothing beside the device changes. -/
theorem completeLaunch_spec {s : State} {dev lid : Nat} {l : Launch} (h : s.launch? dev lid = some l) :
    let t := s.completeLaunch dev lid
    t.streams = s.streams ∧ t.ctxs = s.ctxs ∧
      t.launch? dev lid = some (if !l.done && l.nextWg == l.wgcount && l.deviceCount == l.wgcount then { l with done := true } else l) := by
  unfold State.completeLaunch
  simp only [h]
  split
  · refine ⟨State.streams_onLaunch .., State.ctxs_onLaunch .., ?_⟩
    have e := s.launch?_onLaunch dev lid fun l => { l with done := true }
    rw [h] at e
    refine Eq.trans ?_ e
    unfold State.launch?
    rw [State.dev_onDev, Device.launches_releaseKtt, Device.launches_finishPkt]
  · exact ⟨rfl, rfl, h⟩

/-- A launch with one of its WGs retired: it no longer runs, its quad counts it, and its watchdog stops. -/
def Launch.retireWg (l : Launch) (wg : Nat) (x : CtxId) : Launch :=
  { l with running := l.running.filter fun p => p.1 != wg
           retired := fset l.retired (x.core.field, x.core.core / 4) (fget l.retired (x.core.field, x.core.core / 4) 0 + 1)
           timers := fdel l.timers wg }

theorem execWgRetire_live {s : State} {x : CtxId} {lid wg : Nat} (h : (s.ctx x).live = some (lid, wg)) :
    exec (.wgRetire x) s = if s.mayRetire x then .next (((s.freeCtx x).onLaunch x.core.dev lid fun l => l.retireWg wg x).completeLaunch x.core.dev lid)
      else .next s := by
  change execWgRetire x s = _
  unfold execWgRetire
  simp only [h]
  cases s.mayRetire x <;> rfl

/-- How the launch stands once a WG of it has retired (R19). -/
theorem retired_counts (l : Launch) (wg : Nat) (x : CtxId) :
    let k := (x.core.field, x.core.core / 4)
    let r := l.retireWg wg x
    let m := if !r.done && r.nextWg == r.wgcount && r.deviceCount == r.wgcount then { r with done := true } else r
    (m.running = l.running.filter fun p => p.1 ≠ wg) ∧ fget m.retired k 0 = fget l.retired k 0 + 1 ∧
      (l.done = false → m.nextWg < m.wgcount → m.done = false) ∧ (m.nextWg = m.wgcount → m.deviceCount = m.wgcount → m.done = true) := by
  intro k r m
  have hrun : r.running = l.running.filter fun p => p.1 ≠ wg := List.filter_congr fun p _ => by by_cases e : p.1 = wg <;> simp [e]
  have hret : fget r.retired k 0 = fget l.retired k 0 + 1 := fget_fset_self ..
  by_cases h : (!r.done && r.nextWg == r.wgcount && r.deviceCount == r.wgcount) = true
  · have hm : m = { r with done := true } := if_pos h
    simp only [Bool.and_eq_true, beq_iff_eq] at h
    rw [hm]
    exact ⟨hrun, hret, fun _ hlt => absurd hlt (by dsimp only; omega), fun _ _ => rfl⟩
  · have hm : m = r := if_neg h
    rw [hm]
    refine ⟨hrun, hret, fun hd _ => hd, fun h1 h2 => ?_⟩
    simpa [h1, h2] using h

end Sys2Proof.Machine
end

section
/-!
PROOF. Settling the statement about work groups.
-/
namespace Sys2Proof
open Sys2Proof.Machine Sys2Proof.Claims

/-- Settles O51: a WG starts in its context, and is counted as it leaves it. -/
theorem workGroups : Obligations.WorkGroups := by
  refine ⟨fun s dev lid f wg l0 l rest x hl hd hn => ?_, fun s x lid wg l => ?_⟩
  · subst hn
    refine ⟨fun n hb hp => nextBatch_new hb hp, execWgDispatch_nil hl hd, fun hb hx => ?_, execWgDispatch_full hl hd⟩
    · have he := execWgDispatch_starts hl hd hb hx
      obtain rfl := pickCtx_dev hx
      obtain ⟨h1, h2, h3, h4⟩ := startWg_spec (s.onLaunch x.core.dev lid fun _ => { s.nextBatch x.core.dev l0 with batch := rest }) lid wg
        (s.nextBatch x.core.dev l0) x
      refine ⟨_, he, ?_, fun y hy => ?_, fun cl hcl => ?_, ?_⟩
      · rw [h1]
        exact ⟨rfl, rfl, rfl, rfl, rfl, rfl, rfl, rfl, rfl, rfl, rfl, rfl, rfl, rfl, rfl, rfl, rfl, State.stopping_onLaunch ..⟩
      · rw [h2 y hy, State.ctx_onLaunch]
      · rw [h3 cl hcl]
        exact newMain_spec (s.nextBatch x.core.dev l0) cl
      · rw [h4, State.launch?_onLaunch, hl]
        refine ⟨rfl, rfl, rfl, ?_⟩
        rw [fget?_fset_self, State.time_onLaunch]
  · intro retire k hlive hl may
    have he := execWgRetire_live hlive
    refine ⟨fun h => ?_, fun h => ?_⟩
    · rw [if_neg fun m => h ((mayRetire_iff s x).1 m)] at he
      exact he
    · rw [if_pos ((mayRetire_iff s x).2 h)] at he
      have hf := freeCtx_frees s x
      have hm : ((s.freeCtx x).onLaunch x.core.dev lid fun l => l.retireWg wg x).launch? x.core.dev lid = some (l.retireWg wg x) := by
        rw [State.launch?_onLaunch, hf.launch?, hl]
        rfl
      obtain ⟨hstr, hctx, hlau⟩ := completeLaunch_spec hm
      refine ⟨_, he, ?_, fun y hy => ?_, fun id hid => ?_, ?_⟩
      · rw [State.ctx_congr hctx, State.ctx_onLaunch, hf.ctx, if_pos rfl]
      · rw [State.ctx_congr hctx, State.ctx_onLaunch, hf.ctx, if_neg hy]
      · rw [State.strm_congr hstr, State.strm_onLaunch, hf.strm, if_pos hid]
        rfl
      · rw [hlau]
        exact retired_counts l wg x

end Sys2Proof
end

section
/-!
PROOF. The statement about saving and restoring contexts does not hold of every state. As a context is freed, the commands that its streams issued take
other names (R252); the statement has the commands of the other contexts stay as they are, and a state may hold a command of one context under
the name of another's stream.
-/
namespace Sys2Proof.Machine

/-! ### The length of an image (R298) -/

@[simp] theorem length_padTo (n : Nat) (bs : List Byte) : (padTo n bs).length = n := by
  unfold padTo
  rw [List.length_take, List.length_append, List.length_replicate]
  omega

theorem length_sectionOf (ty key : Nat) (body : List Byte) : (sectionOf ty key body).length ≤ 16 + (body.length + 15) := by
  unfold sectionOf ceilDiv
  simp only [List.length_append, length_natBytes, length_padTo]
  omega

theorem length_streamBody (st : Stream) (vbanks : Nat) : (st.imageBody vbanks).length = 0x7900 := by
  simp [Stream.imageBody, Stream.crWords, List.length_flatMap, upTo, Function.comp_def]

theorem bufferSections_clean {c : Ctx} (hw : c.dirtyWb = 0) (ha : c.dirtyAb = 0) (hc : c.dirtyCb = 0) (excl : Bool) : c.bufferSections excl = [] := by
  have h (b : Buf) (k : Nat) : c.dirtyBit b k = false := by
    cases b
    · simp [Ctx.dirtyBit, hw]
    · simp [Ctx.dirtyBit, ha]
    · simp [Ctx.dirtyBit, hc]
  unfold Ctx.bufferSections
  simp only [h, List.filter_false, List.map_nil, List.flatMap_eq_nil_iff, implies_true]

/-- An image of one stream and no dirty region fills no slot. -/
theorem length_imageOf {c : Ctx} {excl : Bool} (hb : c.bufferSections excl = []) (ctxNum vbanks : Nat) (bars : List Bool) (p : SlotId × Stream)
    {opq : List Byte} (ho : opq.length ≤ 0x100000) : (imageOf c ctxNum vbanks excl bars [p] opq).length ≤ 2 ^ 24 := by
  have h1 := length_sectionOf 1 0 (c.imageBody bars)
  have h2 := length_sectionOf 2 (p.1.cl * 16 + p.1.sl * 4) (p.2.imageBody vbanks)
  have h3 := length_sectionOf 3 0 opq
  have h4 := length_sectionOf 4 0 opq
  have h5 := length_sectionOf 0xFF 0 []
  have hc : (c.imageBody bars).length = 1024 := length_padTo ..
  rw [hc] at h1
  rw [length_streamBody] at h2
  unfold imageOf
  simp only [hb, List.map_cons, List.map_nil, List.cons_append, List.nil_append, List.append_nil, List.flatten_cons, List.flatten_nil, List.length_append,
    length_padTo, List.length_nil] at *
  omega

/-! ### Memory in service (R314) -/

theorem placePhys_inService {s : State} {dev a : Nat} (h : ∀ f ∈ (s.dev dev).fields.toList, f.state = 2) (ha : a < 2 ^ 40) :
    s.placePhys dev a = .devMem dev a := by
  have hs : (s.dev dev).homeState dev a = 2#3 := by
    unfold Device.homeState
    rw [if_pos (List.all_eq_true.2 fun f hf => by simp [h f hf])]
  unfold State.placePhys
  simp only [if_neg (Nat.not_le.2 ha), hs]
  rfl

/-- With every field in service nothing keeps the command processor from bytes of device memory. -/
theorem cpStop_inService {s : State} {dev a n : Nat} (h : ∀ f ∈ (s.dev dev).fields.toList, f.state = 2) (hk : (s.dev dev).stops = [])
    (ha : a + n + 256 ≤ 2 ^ 40) : s.cpStop dev [(a, n)] = none := by
  have hp : ∀ p ∈ (upTo (ceilDiv (a % 128 + n) 128)).map (fun k => s.placePhys dev (a / 128 * 128 + 128 * k)), ∃ e, p = .devMem dev e := by
    intro p hp
    obtain ⟨k, hk, rfl⟩ := List.mem_map.1 hp
    have hk : k < ceilDiv (a % 128 + n) 128 := List.mem_range.1 hk
    unfold ceilDiv at hk
    exact ⟨_, placePhys_inService h (by omega)⟩
  have h0 : decide (a < 2 ^ 63) = true := decide_eq_true (by omega)
  unfold State.cpStop
  simp only [hk, List.any_nil, Bool.false_eq_true, if_false, List.filter_cons, h0, if_true, List.filter_nil, List.flatMap_cons, List.flatMap_nil,
    List.append_nil]
  rw [List.find?_eq_none.2 fun p h => by obtain ⟨e, rfl⟩ := hp p h; exact Bool.false_ne_true,
    List.find?_eq_none.2 fun p h => by obtain ⟨e, rfl⟩ := hp p h; exact Bool.false_ne_true]
  rfl

/-- A context that is to stop, still and with a free slot, is saved (R296): it is freed once its image is written. -/
theorem execContextSave_saves {s : State} {x : CtxId} {lid wg i : Nat} (hl : (s.ctx x).live = some (lid, wg)) (hp : (s.ctx x).preempt = true)
    (hs : ∀ y ∈ s.savedWith x, (s.ctx y).preempt = true ∧ s.stilled y = true ∧ s.enginesStill y = true)
    (hi : (s.dev x.core.dev).freeImage = some i) (hc : s.cpStop x.core.dev [((s.dev x.core.dev).imageAt i, (s.contextImage x).length)] = none) :
    ∃ f : Device → Device, exec (.contextSave x) s =
      .next (((s.onDev x.core.dev f).freeCtx x).onLaunch x.core.dev lid fun l => l.suspend wg i x) := by
  have hs' : (s.savedWith x).all (fun y => (s.ctx y).preempt && s.stilled y && s.enginesStill y) = true :=
    List.all_eq_true.2 fun y hy => by simp [hs y hy]
  let r : ImageSlot := { launch := lid, wgid := wg, x := x, ctx := { s.ctx x with live := some (lid, wg), wb := [], ab := [], cbuf := [], preempt := false },
                         streams := (s.slotsOfCtx x).map fun id => (id, s.strm id), queues := s.cmdsSaved x }
  refine ⟨fun d => { d.pwrite (d.imageAt i) (s.contextImage x) with images := fset d.images i r }, ?_⟩
  change execContextSave x s = _
  unfold execContextSave State.cpAccess State.cpAccessOr
  simp only [hl, hi, hp, hs', hc, Bool.not_true, Bool.or_false, Bool.false_eq_true, if_false]
  rfl

/-- The commands of a slot that is freed go on under another name (R252). -/
theorem me_freeSlot (s : State) (id : SlotId) :
    ((s.freeSlot id).core id.core).me = (s.core id.core).me.rename id (ghostOf id (s.xidOf id).ctx s.nextId) := by
  unfold State.freeSlot
  extract_lets x g s1 s2
  have h : ((s2.onCtx x fun c => c.renameRuns id g).setStrm id {}).core id.core = s1.core id.core := rfl
  rw [h, State.core_onCore]

theorem me_giveTokens (s : State) (x : CtxId) (c : CoreId) : ((s.giveTokens x).core c).me = (s.core c).me := by
  have h (t : State) (k : CoreId) (ht : (t.core c).me = (s.core c).me) : ((t.releaseToken k).core c).me = (s.core c).me :=
    (queue_releaseToken t k c .me).trans ht
  unfold State.giveTokens
  dsimp only
  refine foldl_keeps (P := fun t : State => (t.core c).me = (s.core c).me) (fun t k ht => h t k ht) _ ?_
  split
  · exact h s x.core rfl
  · rfl

theorem fget?_map {K V W : Type} [DecidableEq K] (m : FMap K V) (g : V → W) (k : K) :
    fget? (m.map fun p => (p.1, g p.2)) k = (fget? m k).map g := by
  induction m with
  | nil => rfl
  | cons p r ih =>
    rw [List.map_cons, fget?, fget?, ih]
    split <;> rfl

/-- A core without the commands of the runs of a context. -/
def Core.withoutRuns (x : Ctx) (k : Core) : Core := { k with me := { k.me with cmds := k.me.cmds.filter fun h => !x.runsCmd h } }

/-- The commands of the runs of a context leave the ME queue of each core (R98). -/
theorem me_dropRuns (s : State) (x : CtxId) (c : CoreId) : ((s.dropRuns x).core c).me = ((s.core c).withoutRuns (s.ctx x)).me := by
  have h : (s.dropRuns x).core c = (fget? (s.cores.map fun p => (p.1, p.2.withoutRuns (s.ctx x))) c).getD {} := rfl
  rw [h, fget?_map]
  unfold State.core fget
  cases fget? s.cores c <;> rfl

/-- The ME queue of a core after a context of one stream is freed: its own commands and those of its runs have left, and what carries the name of its
stream takes another. -/
theorem me_freeCtx {s : State} {x : CtxId} {id : SlotId} (hs : s.slotsOfCtx x = [id]) :
    ∃ n, ((s.freeCtx x).core x.core).me = ((((s.dropRuns x).core x.core).me.rename id (ghostOf id x.ctx n)).purge x) := by
  have hr := ringsOnly_giveTokens (s.dropRuns x) x
  have hs' : ((s.dropRuns x).giveTokens x).slotsOfCtx x = [id] := (hr.slotsOfCtx x).trans hs
  have hx : ((s.dropRuns x).giveTokens x).xidOf id = x := xidOf_of_mem (hs' ▸ List.mem_singleton_self id)
  have hc : id.core = x.core := congrArg CtxId.core hx
  refine ⟨((s.dropRuns x).giveTokens x).nextId, ?_⟩
  unfold State.freeCtx
  simp only [hs', List.foldl_cons, List.foldl_nil]
  have hm := me_freeSlot ((s.dropRuns x).giveTokens x) id
  rw [hc, hx, me_giveTokens] at hm
  have h (u : State) (f : Core → Core) : ((u.onCore x.core f).setCtx x {}).core x.core = f (u.core x.core) := State.core_onCore ..
  rw [h, hm]

/-! ### The counterexample -/

/-- The context that is saved. -/
def leaver : CtxId := ⟨⟨0, 0, 0⟩, 0⟩

/-- Its one stream, which has halted. -/
def leaverMain : SlotId := ⟨⟨0, 0, 0⟩, 0, 0⟩

/-- A command of the core's other context under the name of that stream. -/
def strayCmd : EngCmd := { id := 0, kind := .mzero, eng := .me, slot := leaverMain, x := ⟨⟨0, 0, 0⟩, 1⟩, asid := 0, level := 0 }

/-- The core, with the command in its ME queue. -/
def strayCore : Core := { me := { cmds := [strayCmd] } }

/-- The device: in service, with one image slot and the launch of the context. -/
def strayDevice : Device := { fields := Vector.replicate 8 { state := 2 }, launches := [(0, default)], savenum := 1 }

/-- A launch whose one context is to stop and still. -/
def stillState : State :=
  ((State.reset.setStrm leaverMain { status := .halted }).setCtx leaver { live := some (0, 0), preempt := true }).setDev 0 strayDevice

/-- The command stands in the queue of its core. -/
def strayState : State := stillState.setCore leaver.core strayCore

theorem strayState_slots : strayState.slotsOfCtx leaver = [leaverMain] := by decide

theorem strayState_still : ∀ y ∈ strayState.savedWith leaver, (strayState.ctx y).preempt = true ∧ strayState.stilled y = true ∧
    strayState.enginesStill y = true := by
  have h : strayState.savedWith leaver = [leaver] := rfl
  rw [h]
  intro y hy
  obtain rfl := List.mem_singleton.1 hy
  exact ⟨rfl, by decide, by decide⟩

theorem strayState_canon : strayState.Canon := by
  have h : (State.reset.setStrm leaverMain { status := .halted }).Canon := State.reset_canon
  have hd : strayDevice.canon := ⟨Ctx.canon_new.1, Ctx.canon_new.1⟩
  have hx : ({ live := some (0, 0), preempt := true } : Ctx).canon := Ctx.canon_new
  exact (h.setCtx leaver hx).setDev 0 hd

theorem strayState_served : strayState.cpStop 0 [((strayState.dev 0).imageAt 0, (strayState.contextImage leaver).length)] = none := by
  have hl : (strayState.contextImage leaver).length ≤ 2 ^ 24 := by
    unfold State.contextImage
    rw [strayState_slots]
    exact length_imageOf (bufferSections_clean rfl rfl rfl _) _ _ _ _ (by rw [List.length_take]; exact Nat.min_le_left ..)
  have hf : ∀ f ∈ (strayState.dev 0).fields.toList, f.state = 2 := by
    intro f hf
    have hm : f ∈ List.replicate 8 ({ state := 2 } : Field) := hf
    rw [List.eq_of_mem_replicate hm]
  have ha : (strayState.dev 0).imageAt 0 = 0 := rfl
  rw [ha]
  generalize (strayState.contextImage leaver).length = n at hl
  exact cpStop_inService hf rfl (by omega)

theorem strayState_dropRuns (f : Device → Device) : (((strayState.onDev 0 f).dropRuns leaver).core leaver.core).me = { cmds := [strayCmd] } := by
  have hc : (strayState.onDev 0 f).core leaver.core = strayCore := State.core_setCore stillState leaver.core strayCore
  rw [me_dropRuns, hc]
  rfl

/-- The command goes on under another name. -/
theorem strayState_save {t : State} (h : exec (.contextSave leaver) strayState = .next t) :
    ∃ n, (t.core leaver.core).me.cmds = [{ strayCmd with slot := ghostOf leaverMain 0 n }] := by
  obtain ⟨f, e⟩ := execContextSave_saves (s := strayState) (x := leaver) (i := 0) rfl rfl strayState_still rfl strayState_served
  obtain rfl := Host.Outcome.next.inj (e.symm.trans h)
  obtain ⟨n, hn⟩ := me_freeCtx (s := strayState.onDev 0 f) strayState_slots
  refine ⟨n, ?_⟩
  rw [State.core_onLaunch]
  refine (congrArg EngQueue.cmds hn).trans ?_
  rw [strayState_dropRuns]
  rfl

end Sys2Proof.Machine
end

section
/-!
PROOF. The refutation of the statement about saving and restoring contexts (R252, R296).
-/
namespace Sys2Proof
open Sys2Proof.Machine Sys2Proof.Claims

/-- Refutes O49, in its clause on the commands of the other contexts at a save: in a state where a command of another context stands in the core's ME
queue under the name of a stream of the saved one, the command takes another name, and the queue is not what the statement has it be. -/
theorem not_saveAndRestore : ¬ Obligations.SaveAndRestore := by
  intro hall
  obtain ⟨-, -, hsave⟩ := hall.1 strayState leaver 0 0 0 default rfl
  obtain ⟨t, ht, -, -, -, -, hq, -⟩ := hsave strayState_canon ⟨by decide, rfl⟩ (fun j hj => absurd hj (Nat.not_lt_zero j)) rfl strayState_still rfl
    strayState_served
  have hgone := hq .me
  obtain ⟨n, hn⟩ := strayState_save ht
  rw [show ((t.core leaver.core).queue .me).cmds = _ from hn] at hgone
  have hslot : ghostOf leaverMain 0 n = leaverMain := congrArg EngCmd.slot (List.cons.inj hgone).1
  have hsl : 8 * (n + 1) + 4 * (0 % 2) + 0 % 4 = 0 := congrArg SlotId.sl hslot
  omega

end Sys2Proof
end

section
/-!
PROOF. Reads of code and of records: they fill the caches of a core and change nothing else (R33, R65, R122).
-/
namespace Sys2Proof.Machine

open Claims

/-! ### The caches of a core -/

/-- `t` differs from `s` in the global load cache and the instruction cache of the cores alone. -/
def CachesOnly (s t : State) : Prop :=
  ∃ cs, t = { s with cores := cs } ∧ ∀ c, ∃ g i, t.core c = { s.core c with glc := g, icache := i }

namespace CachesOnly
variable {s t u : State}

theorem refl (s : State) : CachesOnly s s := ⟨s.cores, rfl, fun _ => ⟨_, _, rfl⟩⟩

theorem trans (h : CachesOnly s t) (k : CachesOnly t u) : CachesOnly s u := by
  obtain ⟨cs, rfl, hs⟩ := h
  obtain ⟨cs', rfl, ht⟩ := k
  refine ⟨cs', rfl, fun c => ?_⟩
  obtain ⟨g, i, e⟩ := hs c
  obtain ⟨g', i', e'⟩ := ht c
  exact ⟨g', i', by rw [e', e]⟩

theorem onCore (s : State) (c : CoreId) {f : Core → Core} (hf : ∃ g i, f (s.core c) = { s.core c with glc := g, icache := i }) :
    CachesOnly s (s.onCore c f) := by
  refine ⟨_, rfl, fun c' => ?_⟩
  rw [State.core_onCore_if]
  split
  · next e =>
    subst e
    exact hf
  · exact ⟨_, _, rfl⟩

theorem streams (h : CachesOnly s t) : t.streams = s.streams := by obtain ⟨_, rfl, _⟩ := h; rfl
theorem ctxs (h : CachesOnly s t) : t.ctxs = s.ctxs := by obtain ⟨_, rfl, _⟩ := h; rfl
theorem devs (h : CachesOnly s t) : t.devs = s.devs := by obtain ⟨_, rfl, _⟩ := h; rfl
theorem cur (h : CachesOnly s t) : t.cur = s.cur := by obtain ⟨_, rfl, _⟩ := h; rfl
theorem strm (h : CachesOnly s t) (id : SlotId) : t.strm id = s.strm id := State.strm_congr h.streams id
theorem ctx (h : CachesOnly s t) (x : CtxId) : t.ctx x = s.ctx x := State.ctx_congr h.ctxs x
theorem dev (h : CachesOnly s t) (d : Nat) : t.dev d = s.dev d := State.dev_congr h.devs d
theorem st (h : CachesOnly s t) : t.st = s.st := by unfold State.st; rw [h.cur, h.strm]
theorem xidOf (h : CachesOnly s t) (id : SlotId) : t.xidOf id = s.xidOf id := by unfold State.xidOf; rw [h.strm]
theorem bytes (h : CachesOnly s t) : SameBytes s t := .of_eq h.devs h.ctxs
theorem paths (h : CachesOnly s t) (c : CoreId) : (t.core c).paths = (s.core c).paths := by
  obtain ⟨_, _, hc⟩ := h
  obtain ⟨g, i, e⟩ := hc c
  rw [e]
theorem lastTail (h : CachesOnly s t) (c : CoreId) : (t.core c).lastTail = (s.core c).lastTail := by
  obtain ⟨_, _, hc⟩ := h
  obtain ⟨g, i, e⟩ := hc c
  rw [e]

end CachesOnly

/-! ### Fetch and headers (R118 to R122) -/

theorem fetchParcel_caches {s s1 : State} {id : SlotId} {va : Nat} {p : BitVec 16} (h : s.fetchParcel id va = .ok s1 p) : CachesOnly s s1 := by
  unfold State.fetchParcel at h
  dsimp only at h
  split at h
  · cases h; exact .refl s
  · split at h
    · cases h
    · split at h <;> cases h <;> exact .onCore s _ ⟨_, _, rfl⟩
    · split at h <;> cases h <;> exact .refl s

theorem fetchWord_caches {s s1 : State} {id : SlotId} {va : Nat} {w : BitVec 32} (h : s.fetchWord id va = .ok s1 w) : CachesOnly s s1 := by
  unfold State.fetchWord at h
  split at h
  · cases h
  · cases h
  · next h1 =>
    split at h <;> cases h
    next h2 => exact (fetchParcel_caches h1).trans (fetchParcel_caches h2)

theorem readHeader_caches {s s1 : State} {id : SlotId} {hdr : Word} {w : BitVec 32} (h : s.readHeader id hdr = .ok s1 w) : CachesOnly s s1 := by
  unfold State.readHeader at h
  dsimp only at h
  split at h
  · cases h
  · split at h
    · cases h
    · cases h
    · next h1 =>
      split at h
      · cases h
      · split at h <;> cases h
        exact fetchWord_caches h1

/-- Reading the headers of a group: the headers stand in its order, with the caches filled. -/
theorem groupHeaders_ok {ids : List SlotId} : ∀ {s s1 : State} {hs : List (SlotId × BitVec 32)} {i : SlotId},
    s.groupHeaders ids = (.ok s1 hs, i) → CachesOnly s s1 ∧ hs.map Prod.fst = ids := by
  induction ids with
  | nil =>
    intro s s1 hs i h
    cases h
    exact ⟨.refl s, rfl⟩
  | cons id r ih =>
    intro s s1 hs i h
    unfold State.groupHeaders at h
    split at h
    · cases h
    · cases h
    · next h1 =>
      split at h
      · next h2 =>
        cases h
        obtain ⟨hk, hm⟩ := ih h2
        exact ⟨(readHeader_caches h1).trans hk, by rw [List.map_cons, hm]⟩
      · cases h
      · cases h

/-- A group whose headers stop one of its streams. -/
theorem groupHeaders_bad {ids : List SlotId} : ∀ {s : State} {f : FaultRec} {i : SlotId}, s.groupHeaders ids = (.bad f, i) → i ∈ ids := by
  induction ids with
  | nil => intro s f i h; cases h
  | cons id r ih =>
    intro s f i h
    unfold State.groupHeaders at h
    split at h
    · cases h
    · cases h; exact List.mem_cons_self
    · split at h
      · cases h
      · cases h
      · next h2 => cases h; exact List.mem_cons_of_mem _ (ih h2)

/-! ### Records (R65, R204) -/

theorem loadPiece_caches (s : State) (id : SlotId) (seq : Nat) (glc : Bool) (p : Piece) : CachesOnly s (s.loadPiece id seq glc p).1 := by
  unfold State.loadPiece
  dsimp only
  split
  · split
    · exact .refl s
    · dsimp only
      split
      · exact .refl s
      · exact .onCore s _ ⟨_, _, rfl⟩
  · exact .refl s

theorem loadPieces_caches (id : SlotId) (seq : Nat) (va : Word) : ∀ (ps : List Piece) (s : State), CachesOnly s (s.loadPieces id seq va ps).1
  | [], s => .refl s
  | p :: r, s => by
    simp only [State.loadPieces]
    split
    · exact loadPieces_caches id seq va r s
    · exact (loadPiece_caches ..).trans (loadPieces_caches id seq va r _)

theorem recRead_caches {s s1 : State} {eng : PermEng} {va : Word} {n : Nat} {bs : List Byte} (h : s.recRead eng va n = .ok s1 bs) : CachesOnly s s1 := by
  unfold State.recRead at h
  split at h
  · cases h
  · split at h <;> cases h
    exact loadPieces_caches ..

/-! ### Translation (R163) -/

/-- What an access translates to does not depend on the streams and the cores. -/
theorem xlPieces_beside (s : State) (cs : FMap CoreId Core) (ss : FMap SlotId Stream) (t : Xl) :
    ∀ l, ({ s with cores := cs, streams := ss } : State).xlPieces t l = s.xlPieces t l
  | [] => rfl
  | (va, l, p) :: r => by
    have h : ({ s with cores := cs, streams := ss } : State).xlByte t va = s.xlByte t va := rfl
    unfold State.xlPieces
    rw [h, xlPieces_beside s cs ss t r]

theorem xlAccess_beside (s : State) (cs : FMap CoreId Core) (ss : FMap SlotId Stream) (t : Xl) (va : Word) (n : Nat) :
    ({ s with cores := cs, streams := ss } : State).xlAccess t va n = s.xlAccess t va n := by
  unfold State.xlAccess
  rw [xlPieces_beside]

end Sys2Proof.Machine
end

section
/-!
PROOF. Blocks, passes and lock step: headers, what stops at them, and entering blocks alone or together (R22, R35, R118 to R121).
-/
namespace Sys2Proof.Machine

open Claims

/-! ### Headers (R118 to R121) -/

theorem hdrEnd_eq (hdr : Word) (h : BitVec 32) : hdrEnd hdr h = hdr + BitVec.ofNat 64 (4 + 2 * (h.extractLsb' 0 9).toNat) := by
  have hl := (h.extractLsb' 0 9).isLt
  unfold hdrEnd hdrLen zx
  refine BitVec.eq_of_toNat_eq ?_
  simp only [BitVec.toNat_add, BitVec.toNat_mul, BitVec.toNat_ofNat, BitVec.toNat_setWidth, show (4 : Word).toNat = 4 from rfl,
    show (2 : Word).toNat = 2 from rfl]
  omega

theorem hdrBad_iff (h : BitVec 32) : hdrBad h = true ↔ (h.extractLsb' 0 9).toNat = 0 ∨ h.extractLsb' 21 6 ≠ 0 ∨
    (h.getLsbD 30 = false ∧ h.extractLsb' 28 2 ≠ 0) ∨ (h.getLsbD 30 = true ∧ h.extractLsb' 9 12 ≠ 0) := by
  have hz : (h.extractLsb' 0 9).toNat = 0 ↔ h.extractLsb' 0 9 = 0#9 := ⟨fun e => BitVec.eq_of_toNat_eq e, fun e => by rw [e]; rfl⟩
  unfold hdrBad hdrLen hdrRsrc hdrLcn hdrRep
  rw [hz]
  simp only [Bool.or_eq_true, Bool.and_eq_true, Bool.not_eq_true', beq_iff_eq, bne_iff_ne, or_assoc]
  rfl

/-- The passes of a block (R118). -/
def blockPasses (st : Stream) (h : BitVec 32) : Nat :=
  if h.getLsbD 30 = true then (st.rlc (h.extractLsb' 28 2)).toNat else (h.extractLsb' 9 12).toNat

/-- Where the header after a block stands (R119). -/
def blockFin (st : Stream) (h : BitVec 32) : Word := st.ex.hdr + BitVec.ofNat 64 (4 + 2 * (h.extractLsb' 0 9).toNat)

theorem hdrPasses_toNat (st : Stream) (h : BitVec 32) : (hdrPasses h st.rlc).toNat = blockPasses st h := by
  unfold hdrPasses blockPasses hdrRsrc hdrLcn hdrRep
  split
  · rfl
  · rw [BitVec.toNat_setWidth, Nat.mod_eq_of_lt (Nat.lt_trans (BitVec.isLt _) (by decide))]

/-- The cursor inside a block, or past it (R119). -/
theorem enterCursor_inside (st : Stream) (h : BitVec 32) :
    let c := enterCursor st.ex.hdr h st.rlc
    if blockPasses st h = 0 then c = { pc := blockFin st h, hdr := blockFin st h, fin := blockFin st h, rem := 1 }
    else c.pc = st.ex.hdr + 4 ∧ c.hdr = st.ex.hdr ∧ c.fin = blockFin st h ∧ c.rem.toNat = blockPasses st h := by
  have hp := hdrPasses_toNat st h
  have hf : hdrEnd st.ex.hdr h = blockFin st h := hdrEnd_eq _ h
  unfold enterCursor
  rw [hf]
  split
  · next e =>
    have e0 : hdrPasses h st.rlc = 0#32 := by
      refine BitVec.eq_of_toNat_eq ?_
      rw [hp, e]
      rfl
    simp only [e0, beq_self_eq_true, if_true]
    rfl
  · next e =>
    have e0 : (hdrPasses h st.rlc == 0#32) = false := beq_eq_false_iff_ne.2 fun e0 => e (by rw [← hp, e0]; rfl)
    simp only [e0, Bool.false_eq_true, if_false]
    exact ⟨trivial, trivial, trivial, hp⟩

theorem inCode_iff (c : Ctx) (hdr : Word) :
    c.inCode hdr = true ↔ (ofHiBits c.codebase).toNat ≤ hdr.toNat ∧ hdr.toNat + 4 ≤ (ofHiBits c.codelim).toNat := by
  unfold Ctx.inCode
  simp only [Bool.and_eq_true, decide_eq_true_eq]

/-- A header of U outside the code range (R121). -/
theorem readHeader_outside {s : State} {id : SlotId} {hdr : Word} (hu : (s.strm id).priv = .u) (hr : (s.ctx (s.xidOf id)).inCode hdr = false) :
    s.readHeader id hdr = .bad (hdrFault .execLimit hdr) := by
  unfold State.readHeader
  simp only [hu, hr, beq_self_eq_true, Bool.not_false, Bool.and_self, if_true]

/-- A header that has been read (R120, R121). -/
theorem readHeader_word {s s1 : State} {id : SlotId} {hdr : Word} {h : BitVec 32} (hr : (s.strm id).priv = .u → (s.ctx (s.xidOf id)).inCode hdr = true)
    (hf : s.fetchWord id hdr.toNat = .ok s1 h) :
    s.readHeader id hdr = if hdrBad h then .bad (hdrFault .illegalOp hdr)
      else if (s.strm id).priv = .u ∧ (ofHiBits (s.ctx (s.xidOf id)).codelim).toNat < hdr.toNat + 4 + 2 * (hdrLen h).toNat then
        .bad (hdrFault .execLimit hdr)
      else .ok s1 h := by
  have h0 : ((s.strm id).priv == .u && !(s.ctx (s.xidOf id)).inCode hdr) = false := by
    by_cases hu : (s.strm id).priv = .u
    · simp [hr hu]
    · simp [hu]
  unfold State.readHeader
  simp only [h0, Bool.false_eq_true, if_false, hf, Bool.and_eq_true, beq_iff_eq, decide_eq_true_eq]

/-! ### Entering a block alone -/

/-- A stream enters a block. -/
theorem enter_spec (st : Stream) (c : Cursor) : (st.enter c).ex = c ∧ (st.enter c).status = .running ∧ (st.enter c).s = st.s ∧ (st.enter c).pend = [] := by
  obtain ⟨v, p, e⟩ := st.landAll_form
  unfold Stream.enter
  simp only [e]
  exact ⟨trivial, trivial, trivial, trivial⟩

/-- The stream stands at a header that it may pass: nothing diverts it and no fault is pending. -/
structure AtBlock (s : State) (sl : SlotId) : Prop where
  acts : s.canAct sl = true
  atHdr : (s.strm sl).ex.pc = (s.strm sl).ex.hdr
  stays : s.diverts sl = false
  clean : (s.strm sl).priv = .u → (s.strm sl).pendFaults = []

/-- The stream enters blocks by itself: a tail, a stream in S or in a stub (R22, R35, R293). -/
def Alone (s : State) (sl : SlotId) : Prop := 2 ≤ sl.sl ∨ (s.strm sl).priv = .s ∨ (s.strm sl).stub ≠ .none

theorem alone_iff (s : State) (sl : SlotId) : (isTail sl || (s.strm sl).priv == .s || (s.strm sl).stub != .none) = true ↔ Alone s sl := by
  unfold Alone isTail
  simp only [Bool.or_eq_true, decide_eq_true_eq, beq_iff_eq, bne_iff_ne, or_assoc]

theorem not_alone {s : State} {sl : SlotId} (h : ¬ Alone s sl) : (isTail sl || (s.strm sl).priv == .s || (s.strm sl).stub != .none) = false :=
  Bool.eq_false_iff.2 fun e => h ((alone_iff s sl).1 e)

/-- What block entry and pass start ask first of a stream. -/
theorem AtBlock.passes {s : State} {sl : SlotId} (h : AtBlock s sl) :
    (!s.canAct sl || !(s.strm sl).ex.atHdr || s.diverts sl || !(s.strm sl).pendFaults.isEmpty && (s.strm sl).priv == .u) = false := by
  have hh : (s.strm sl).ex.atHdr = true := by simp [Cursor.atHdr, h.atHdr]
  have hp : (!(s.strm sl).pendFaults.isEmpty && (s.strm sl).priv == .u) = false := by
    by_cases hu : (s.strm sl).priv = .u
    · simp [h.clean hu]
    · simp [hu]
  rw [h.acts, hh, h.stays, hp]
  rfl

theorem not_locked {s : State} {sl : SlotId} {b : Bool} (h : Alone s sl ∨ b = false) :
    (!(isTail sl || (s.strm sl).priv == .s || (s.strm sl).stub != .none) && b) = false := by
  rcases h with h | h
  · rw [(alone_iff s sl).2 h]
    rfl
  · rw [h, Bool.and_false]

section
variable {s0 : State} {sl : SlotId} (ha : AtBlock (at_ s0 sl) sl) (hl : Alone (at_ s0 sl) sl ∨ (at_ s0 sl).cx.lockstep = false)
include ha hl

/-- BLOCK_ENTRY outside lock step at a header that stops the stream (R120, R121). -/
theorem execBlockEntry_bad {f : FaultRec} (hr : (at_ s0 sl).readHeader sl (at_ s0 sl).st.ex.hdr = .bad f) :
    exec (.blockEntry sl) s0 = (at_ s0 sl).raiseRec f := by
  change execBlockEntry sl s0 = _
  unfold execBlockEntry
  rw [show ({ s0 with cur := sl, side := .execute } : State) = at_ s0 sl from rfl]
  dsimp only
  refine (if_neg fun e => Bool.false_ne_true (ha.passes.symm.trans e)).trans ?_
  refine (if_neg fun e => Bool.false_ne_true ((not_locked hl).symm.trans e)).trans ?_
  simp only [hr]

/-- BLOCK_ENTRY outside lock step at a header that has been read: the stream enters, or waits at a sync header (R22, R119). -/
theorem execBlockEntry_ok {s1 : State} {h : BitVec 32} (hr : (at_ s0 sl).readHeader sl (at_ s0 sl).st.ex.hdr = .ok s1 h) :
    exec (.blockEntry sl) s0 =
      if !(isTail sl || (at_ s0 sl).st.priv == .s || (at_ s0 sl).st.stub != .none) && hdrSync h then .next (s1.waits .sync)
      else .next (s1.enterBlock sl h) := by
  change execBlockEntry sl s0 = _
  unfold execBlockEntry
  rw [show ({ s0 with cur := sl, side := .execute } : State) = at_ s0 sl from rfl]
  dsimp only
  refine (if_neg fun e => Bool.false_ne_true (ha.passes.symm.trans e)).trans ?_
  refine (if_neg fun e => Bool.false_ne_true ((not_locked hl).symm.trans e)).trans ?_
  simp only [hr]

end

/-! ### Entering blocks together (R22, R35) -/

theorem stepGroup_nodup (s : State) (x : CtxId) : (s.stepGroup x).Nodup := by
  refine List.Nodup.filter _ (List.Nodup.map (fun a b h => ?_) List.nodup_range)
  simpa using h

/-- Streams enter their blocks one after another. -/
theorem foldl_enterBlock : ∀ (hs : List (SlotId × BitVec 32)) (s : State), (hs.map Prod.fst).Nodup →
    let t := hs.foldl (fun s p => s.enterBlock p.1 p.2) s
    t.devs = s.devs ∧ t.ctxs = s.ctxs ∧ (∀ id, id ∉ hs.map Prod.fst → t.strm id = s.strm id) ∧
      ∀ p ∈ hs, t.strm p.1 = (s.strm p.1).enter (enterCursor (s.strm p.1).ex.hdr p.2 (s.strm p.1).rlc)
  | [], s, _ => ⟨rfl, rfl, fun _ _ => rfl, fun _ h => absurd h List.not_mem_nil⟩
  | q :: hs, s, hn => by
    obtain ⟨hq, hn⟩ := List.nodup_cons.1 hn
    obtain ⟨hd, hc, hout, hin⟩ := foldl_enterBlock hs (s.enterBlock q.1 q.2) hn
    have hne (id : SlotId) (h : id ≠ q.1) : (s.enterBlock q.1 q.2).strm id = s.strm id := (State.strm_onStrm_if ..).trans (if_neg h)
    refine ⟨hd, hc, fun id hid => ?_, fun p hp => ?_⟩
    · obtain ⟨h1, h2⟩ := not_or.1 fun h => hid (List.mem_cons.2 h)
      exact (hout id h2).trans (hne id h1)
    · rcases List.mem_cons.1 hp with rfl | hp
      · exact (hout _ hq).trans (State.strm_onStrm ..)
      · have h : p.1 ≠ q.1 := fun e => hq (e ▸ List.mem_map_of_mem hp)
        rw [List.foldl_cons, hin p hp, hne _ h]

/-- A group whose headers are read enters together, and lock step goes on while each header keeps it. -/
theorem enterGroup_ok {s s1 : State} {x : CtxId} {hs : List (SlotId × BitVec 32)} {i : SlotId} (h : s.groupHeaders (s.stepGroup x) = (.ok s1 hs, i)) :
    let t := s.enterGroup x (s.stepGroup x)
    SameBytes s t ∧ (∀ p ∈ hs, t.strm p.1 = (s.strm p.1).enter (enterCursor (s.strm p.1).ex.hdr p.2 (s.strm p.1).rlc)) ∧
      ((t.ctx x).lockstep = true ↔ ∀ p ∈ hs, p.2.getLsbD 31 = true) := by
  obtain ⟨hk, hm⟩ := groupHeaders_ok h
  obtain ⟨hd, hc, -, hin⟩ := foldl_enterBlock hs s1 (hm ▸ stepGroup_nodup s x)
  intro t
  have ht : t = (hs.foldl (fun s p => s.enterBlock p.1 p.2) s1).onCtx x fun c => { c with lockstep := hs.all fun p => hdrSync p.2 } := by
    change s.enterGroup x (s.stepGroup x) = _
    unfold State.enterGroup
    simp only [h]
  rw [ht]
  refine ⟨(hk.bytes.trans (.of_eq hd hc)).trans (.onCtx _ x rfl rfl rfl), fun p hp => (hin p hp).trans (by rw [hk.strm]), ?_⟩
  rw [State.ctx_onCtx]
  exact List.all_eq_true

/-- A header that stops its stream is delivered to it, and the others do not start. -/
theorem enterGroup_bad {s : State} {x : CtxId} {ids : List SlotId} {f : FaultRec} {i : SlotId} (h : s.groupHeaders ids = (.bad f, i))
    (hl : f.name.logOnly = false) (hu : (s.strm i).priv = .u) (hv : ∃ l r, s.launchOf (s.xidOf i) = some l ∧ l.svbase = some r) :
    let t := s.enterGroup x ids
    (t.strm i).priv = .s ∧ (t.strm i).trap.epc = hiBits (s.strm i).ex.retPoint.1 ∧ SameBytes s t ∧ ∀ id, id ≠ i → t.strm id = s.strm id := by
  obtain ⟨l, r, h1, h2⟩ := hv
  intro t
  have ht : ∃ c, t = s.setStrm i ((s.strm i).trapEnter c f (s.strm i).ex.retPoint) := by
    refine ⟨causeWord (s.ctx (s.xidOf i)).asid f false (f.origin.getD (locWord i (s.xidOf i).ctx)), ?_⟩
    change s.enterGroup x ids = _
    unfold State.enterGroup
    simp only [h]
    unfold State.deliver
    simp only [hl, hu, h1, Option.bind_some, h2]
    rfl
  obtain ⟨c, e⟩ := ht
  rw [e, State.strm_setStrm]
  exact ⟨rfl, rfl, .of_eq rfl rfl, fun id hid => (State.strm_setStrm_if ..).trans (if_neg hid)⟩

/-- BLOCK_ENTRY in lock step: all the main streams that have not halted enter, or none (R35). -/
theorem execBlockEntry_locked {s0 : State} {sl : SlotId} (ha : AtBlock (at_ s0 sl) sl) (hf : ¬ Alone (at_ s0 sl) sl)
    (hl : (at_ s0 sl).cx.lockstep = true) :
    exec (.blockEntry sl) s0 = if ((at_ s0 sl).stepGroup (at_ s0 sl).xid).all (at_ s0 sl).atStart then
      .next ((at_ s0 sl).enterGroup (at_ s0 sl).xid ((at_ s0 sl).stepGroup (at_ s0 sl).xid)) else .next s0 := by
  have hg : (!(isTail sl || (at_ s0 sl).st.priv == .s || (at_ s0 sl).st.stub != .none) && (at_ s0 sl).cx.lockstep) = true := by
    rw [show (isTail sl || (at_ s0 sl).st.priv == .s || (at_ s0 sl).st.stub != .none) = false from not_alone hf, hl]
    rfl
  change execBlockEntry sl s0 = _
  unfold execBlockEntry
  rw [show ({ s0 with cur := sl, side := .execute } : State) = at_ s0 sl from rfl]
  dsimp only
  refine (if_neg fun e => Bool.false_ne_true (ha.passes.symm.trans e)).trans ?_
  exact if_pos hg

/-- SYNC_REJOIN where all stand at sync headers: they enter together (R22). -/
theorem execSyncRejoin_forms {s s1 : State} {x : CtxId} {hs : List (SlotId × BitVec 32)} {i : SlotId} (hl : (s.ctx x).lockstep = false)
    (hn : s.stepGroup x ≠ []) (ha : ∀ id ∈ s.stepGroup x, s.atStart id = true ∧ s.canAct id = true)
    (hh : s.groupHeaders (s.stepGroup x) = (.ok s1 hs, i)) (hy : ∀ p ∈ hs, p.2.getLsbD 31 = true) :
    exec (.syncRejoin x) s = .next (s.enterGroup x (s.stepGroup x)) := by
  have h1 : (s.stepGroup x).all s.atStart = true := List.all_eq_true.2 fun id hid => (ha id hid).1
  have h2 : (s.stepGroup x).all (fun id => s.canAct id) = true := List.all_eq_true.2 fun id hid => (ha id hid).2
  have h3 : (s.stepGroup x).isEmpty = false := by
    cases h : s.stepGroup x with
    | nil => exact absurd h hn
    | cons => rfl
  have h4 : (hs.all fun p => hdrSync p.2) = true := List.all_eq_true.2 hy
  change execSyncRejoin x s = _
  unfold execSyncRejoin
  simp only [hl, h1, h2, h3, Bool.not_true, Bool.or_false, Bool.false_eq_true, if_false, hh, h4, if_true]

theorem execSyncRejoin_stays {s : State} {x : CtxId} (h : ∃ id ∈ s.stepGroup x, s.atStart id = false) : exec (.syncRejoin x) s = .next s := by
  obtain ⟨id, hid, hf⟩ := h
  have h1 : (s.stepGroup x).all s.atStart = false := List.all_eq_false.2 ⟨id, hid, by simp [hf]⟩
  change execSyncRejoin x s = _
  unfold execSyncRejoin
  simp only [h1, Bool.not_false, Bool.or_true, Bool.true_or, if_true]

/-! ### Passes (R119) -/

theorem beginPass_spec (st : Stream) : st.beginPass.ex = { st.ex with pc := st.ex.hdr + 4, rem := st.ex.rem - 1 } ∧ st.beginPass.s = st.s ∧
    st.beginPass.pend = [] := by
  obtain ⟨v, p, e⟩ := st.landAll_form
  unfold Stream.beginPass
  simp only [e]
  exact ⟨trivial, trivial, trivial⟩

/-- PASS_START at the end of a pass (R119). -/
theorem execPassStart_begins {s0 : State} {sl : SlotId} (ha : (at_ s0 sl).canAct sl = true) (hh : (at_ s0 sl).st.ex.pc ≠ (at_ s0 sl).st.ex.hdr)
    (he : (at_ s0 sl).st.ex.pc = (at_ s0 sl).st.ex.fin) (hd : (at_ s0 sl).diverts sl = false)
    (hc : (at_ s0 sl).st.priv = .u → (at_ s0 sl).st.pendFaults = []) : exec (.passStart sl) s0 = .next ((at_ s0 sl).onSt Stream.beginPass) := by
  have hn : (at_ s0 sl).st.ex.fin ≠ (at_ s0 sl).st.ex.hdr := fun e => hh (he.trans e)
  have h1 : (at_ s0 sl).st.ex.atPassEnd = true := by simp [Cursor.atPassEnd, Cursor.atHdr, he, hn]
  have h2 : (!(at_ s0 sl).st.pendFaults.isEmpty && (at_ s0 sl).st.priv == .u) = false := by
    by_cases hu : (at_ s0 sl).st.priv = .u
    · simp [hc hu]
    · simp [hu]
  have hp : (!(at_ s0 sl).canAct sl || !(at_ s0 sl).st.ex.atPassEnd || (at_ s0 sl).diverts sl ||
      !(at_ s0 sl).st.pendFaults.isEmpty && (at_ s0 sl).st.priv == .u) = false := by
    rw [ha, h1, hd, h2]
    rfl
  change execPassStart sl s0 = _
  unfold execPassStart
  dsimp only
  exact if_neg fun e => Bool.false_ne_true (hp.symm.trans e)

end Sys2Proof.Machine
end

section
/-!
PROOF. Release-caller (R149 to R151): its checks, its two ways, and what it leaves behind.
-/
namespace Sys2Proof.Machine

open Claims

theorem SameRegs.trans {a b c : Stream} (h : SameRegs a b) (k : SameRegs b c) : SameRegs a c where
  s := k.s.trans h.s
  v := k.v.trans h.v
  p := k.p.trans h.p
  l := k.l.trans h.l
  lc := k.lc.trans h.lc
  rrb := k.rrb.trans h.rrb
  fmt := k.fmt.trans h.fmt
  uthr := k.uthr.trans h.uthr
  vsc := k.vsc.trans h.vsc
  vcnt := k.vcnt.trans h.vcnt
  ret := k.ret.trans h.ret
  tx := k.tx.trans h.tx
  rasCount := k.rasCount.trans h.rasCount
  rasSpill := k.rasSpill.trans h.rasSpill
  ras := k.ras.trans h.ras
  rasBase := k.rasBase.trans h.rasBase
  tails := k.tails.trans h.tails
  priv := k.priv.trans h.priv
  trap := k.trap.trans h.trap
  omitv := k.omitv.trans h.omitv
  omits := k.omits.trans h.omits
  owner := k.owner.trans h.owner
  spawner := k.spawner.trans h.spawner
  sq := k.sq.trans h.sq
  pend := k.pend.trans h.pend
  amoPend := k.amoPend.trans h.amoPend
  stub := k.stub.trans h.stub
  pendFaults := k.pendFaults.trans h.pendFaults
  qs := k.qs.trans h.qs
  lq := k.lq.trans h.lq
  performed := k.performed.trans h.performed

/-! ### Frames (R149) -/

theorem frameHdr_ok_iff (fb : Word) (bs : List Byte) : (frameHdr fb bs).ok = true ↔
    fb.toNat % 64 = 0 ∧ bytesNat ((bs.drop 16).take 8) % 64 = 0 ∧ 1280 ≤ bytesNat ((bs.drop 16).take 8) ∧ bytesNat ((bs.drop 12).take 4) = 0 ∧
      bytesNat (bs.take 8) < 2 ^ 57 := by
  unfold frameHdr
  simp only [Bool.and_eq_true, decide_eq_true_eq, beq_iff_eq, Nat.mul_zero, List.drop_zero, and_assoc]

/-- Landing does not ask what a stream holds of a record. -/
theorem landAll_held (st : Stream) (x : Option (List Byte)) : ({ st with held := x } : Stream).landAll = { st.landAll with held := x } := by
  have h1 (a : Stream) (w : PendWrite) : ({ a with held := x } : Stream).land1 w = { a.land1 w with held := x } := by
    unfold Stream.land1
    split
    · rfl
    · split <;> rfl
    all_goals rfl
  have h (ws : List PendWrite) : ∀ a : Stream, ws.foldl Stream.land1 { a with held := x } = { ws.foldl Stream.land1 a with held := x } := by
    induction ws with
    | nil => exact fun _ => rfl
    | cons w ws ih => exact fun a => by rw [List.foldl_cons, h1, ih]; rfl
  unfold Stream.landAll
  dsimp only
  rw [h]

theorem latchPending_of (st : Stream) (h : ∀ l, (st.rl l).st ≠ .pending) : st.latchPending = false := by
  unfold Stream.latchPending
  refine List.any_eq_false.2 fun x hx => ?_
  obtain ⟨i, hi, rfl⟩ := List.mem_iff_getElem.1 hx
  have hi4 : i < 4 := by simpa using hi
  have hl := h (BitVec.ofNat 2 i)
  unfold Stream.rl at hl
  simp only [BitVec.toNat_ofNat, Nat.mod_eq_of_lt (show i < 2 ^ 2 from hi4)] at hl
  simpa using hl

/-! ### Places that are written -/

/-- Writing at a place changes neither the streams nor whose step it is. -/
theorem writePlace_streams (s : State) (p : Place) (bs : List Byte) : (s.writePlace p bs).streams = s.streams ∧ (s.writePlace p bs).cur = s.cur := by
  cases p with
  | bufMem xs b off =>
    exact foldl_keeps (P := fun t : State => t.streams = s.streams ∧ t.cur = s.cur) (f := fun s x => s.onCtx x fun c => c.bufWrite b off bs)
      (fun _ _ h => h) xs ⟨rfl, rfl⟩
  | _ => exact ⟨rfl, rfl⟩

theorem addTcnt_streams {s s1 : State} {fb : Word} {d : Int} {old : Nat} (h : s.addTcnt fb d = .ok s1 old) : s1.streams = s.streams ∧ s1.cur = s.cur := by
  have hg (t : State) (c : CoreId) (p : Place) : (t.glcDrop c p).streams = t.streams ∧ (t.glcDrop c p).cur = t.cur := by
    unfold State.glcDrop
    split <;> exact ⟨rfl, rfl⟩
  unfold State.addTcnt at h
  split at h
  · cases h
  · unfold State.atomicStep at h
    split at h
    · cases h
    · split at h
      · cases h
      · cases h
      · cases h
      · cases h
        obtain ⟨h1, h2⟩ := hg (s.writePlace (s.locate _) _) s.cur.core (s.locate _)
        obtain ⟨h3, h4⟩ := writePlace_streams s (s.locate _) _
        exact ⟨h1.trans h3, h2.trans h4⟩

/-! ### The caller and its tail (R151) -/

/-- A frame's FEND, and the s30 that its caller goes on with (R149, R151). -/
def frameEnd (fb : Word) (bs : List Byte) : Word := fb + BitVec.ofNat 64 (bytesNat ((bs.drop 16).take 8))
def callerS30 (st : Stream) (fb : Word) (bs : List Byte) : Word :=
  if (st.rs 30).toNat < (frameEnd fb bs).toNat then frameEnd fb bs else st.rs 30

/-- The caller as it goes on: whatever gate it stood at is given up. -/
def callerRegs (st : Stream) (fb : Word) (bs : List Byte) (tl : Nat) : Stream :=
  { ((st.ungate.ws 29 (BitVec.ofNat 64 (bytesNat (bs.take 8)))).ws 30 (callerS30 st fb bs)) with
    rasCount := st.rasCount - 1, tails := st.tails ++ [.live fb (frameEnd fb bs) (st.depth - 1) tl]
    acc := { st.ungate.acc with qs := Vector.replicate 4 [] } }

theorem released_spec (st : Stream) (fb : Word) (bs : List Byte) (tl : Nat) :
    let u := ({ st with held := some bs } : Stream).released (frameHdr fb bs) fb tl
    u.ex = .atHeader (ofHiBits (st.getRas (st.rasCount.toNat - 1)).raddr) ∧ u.status = .running ∧ SameRegs (callerRegs st fb bs tl) u := by
  intro u
  have hs30 : (if (st.rs 30).ult (frameEnd fb bs) then frameEnd fb bs else st.rs 30) = callerS30 st fb bs := by
    unfold callerS30 BitVec.ult
    simp only [decide_eq_true_eq]
  let x : Stream :=
    { ((({ st with held := some bs } : Stream).ws 29 (BitVec.ofNat 64 (bytesNat (bs.take 8)))).ws 30
        (if (st.rs 30).ult (frameEnd fb bs) then frameEnd fb bs else st.rs 30)) with
      rasCount := st.rasCount - 1, tails := st.tails ++ [.live fb (frameEnd fb bs) (st.depth - 1) tl]
      acc := { st.acc with qs := Vector.replicate 4 [] } }
  have hu : u = { x.ungate.goTo (.atHeader (ofHiBits (st.getRas (st.rasCount.toNat - 1)).raddr)) with status := .running, wait := .none } := rfl
  have hr : SameRegs (callerRegs st fb bs tl) x.ungate := by
    have hg : x.gated = st.gated := rfl
    unfold callerRegs Stream.ungate
    rw [hg, ← hs30]
    cases st.gated <;> constructor <;> rfl
  rw [hu]
  exact ⟨rfl, rfl, hr.trans (SameRegs.goTo x.ungate _)⟩

/-- The tail that RELC starts (R78, R148, R150, R151). -/
theorem asTail_spec (st : Stream) (fb : Word) (spawner owner idle : Nat) :
    let u : Stream := { st.asTail fb spawner owner with idle := idle }
    u.status = .running ∧ u.owner = owner ∧ u.spawner = some (spawner, fb) ∧ u.s = st.s ∧ u.v = st.v ∧ u.p = st.p ∧ u.l = st.l ∧ u.lc = st.lc ∧
      u.rrb = st.rrb ∧ u.fmt = st.fmt ∧ u.tx = st.tx ∧ u.rasCount = 0 ∧ u.rasSpill = 0 ∧ u.tails = [] ∧ u.acc.qs = Vector.replicate 4 [] ∧
      u.ex = .atHeader st.ex.fin := ⟨rfl, rfl, rfl, rfl, rfl, rfl, rfl, rfl, rfl, rfl, rfl, rfl, rfl, rfl, rfl, rfl⟩

/-- The return is deferred: the caller's registers as its callee runs on. -/
def deferredRegs (st : Stream) (fb : Word) : Stream :=
  { (st.ungate.setRas (st.rasCount.toNat - 1) { st.getRas (st.rasCount.toNat - 1) with defer := true }) with
    tails := st.tails ++ [.defer fb (st.depth - 1)] }

theorem Stream.setRas_eq (st : Stream) (k : Nat) (e : RasEntry) :
    st.setRas k e = { st with ras := if h : k < 16 then st.ras.set k e h else st.ras } := by
  unfold Stream.setRas
  split <;> rfl

theorem relcDeferred_spec (s : State) (fb : Word) : ∃ t, s.relcDeferred fb = .next t ∧ Beside s t ∧ t.st.status = .running ∧
    t.st.ex = .atHeader s.st.ex.fin ∧ SameRegs (deferredRegs s.st fb) t.st := by
  let x : Stream := { s.st.setRas (s.st.rasCount.toNat - 1) { s.st.getRas (s.st.rasCount.toNat - 1) with defer := true } with
    tails := s.st.tails ++ [.defer fb (s.st.depth - 1)] }
  have hx : x.ungate.ex = s.st.ex := by
    rw [Stream.ungate_ex]
    simp only [x, Stream.setRas_eq]
  have hr : SameRegs (deferredRegs s.st fb) x.ungate := by
    have hg : x.gated = s.st.gated := by
      simp only [x, Stream.setRas_eq]
      rfl
    unfold deferredRegs Stream.ungate
    rw [hg]
    cases s.st.gated <;> simp only [x, Stream.setRas_eq] <;> constructor <;> rfl
  refine ⟨_, rfl, .onSt s _, ?_⟩
  rw [State.st_onSt]
  change _ = _ ∧ Stream.ex { x.ungate.goTo (.atHeader x.ungate.ex.fin) with status := .running, wait := .none } = _ ∧
    SameRegs _ { x.ungate.goTo (.atHeader x.ungate.ex.fin) with status := .running, wait := .none }
  rw [hx]
  exact ⟨rfl, rfl, hr.trans (SameRegs.goTo x.ungate _)⟩

/-! ### RELC as an instruction (R151) -/

theorem execRelc_handBack {s : State} (hw : s.st.wait = .handBack) :
    exec .relc s = if (s.ownStores s.cur (s.st.seq + 1)).isEmpty then s.relcDeferred (s.rs 29) else .next (s.waits .handBack) := by
  change execRelc s = _
  unfold execRelc
  simp only [hw, beq_self_eq_true, if_true]
  rfl

section
variable {s : State} (hw : s.st.wait ≠ .handBack)
include hw

theorem execRelc_tailDepth (ht : 4 ≤ s.st.tails.length) : exec .relc s = s.raise .tailDepth := by
  change execRelc s = _
  unfold execRelc
  simp only [beq_eq_false_iff_ne.2 hw, Bool.false_eq_true, if_false, ht, if_true]

variable (ht : s.st.tails.length < 4)
include ht

theorem execRelc_empty (hn : s.st.rasCount = 0) :
    exec .relc s = if s.st.rasSpill ≠ 0 then s.raise .rasUnd 0 (BitVec.ofNat 64 s.st.depth) else s.raise .rasEmpty := by
  change execRelc s = _
  unfold execRelc
  simp only [beq_eq_false_iff_ne.2 hw, Bool.false_eq_true, if_false, Nat.not_le.2 ht, hn]
  rw [if_pos (by decide)]
  by_cases h : s.st.rasSpill = 0
  · rw [if_neg (by simp [h]), if_neg (by simp [h])]
  · rw [if_pos (by simpa using h), if_pos h]

variable (hn : s.st.rasCount ≠ 0)
include hn

theorem execRelc_holds {o : Out} (hj : s.joinHold none = some o) : exec .relc s = o := by
  change execRelc s = _
  unfold execRelc
  simp only [beq_eq_false_iff_ne.2 hw, Bool.false_eq_true, if_false, Nat.not_le.2 ht, show (s.st.rasCount == 0#5) = false from beq_eq_false_iff_ne.2 hn, hj]

variable (hj : s.joinHold none = none) (hh : s.st.held = none) {s1 : State} {bs : List Byte} (hr : s.recRead .load (s.rs 29) 64 = .ok s1 bs)
include hj hh hr

/-- A bad frame header (R151). -/
theorem execRelc_frameHdr (hb : (frameHdr (s.rs 29) bs).ok = false) : exec .relc s = s.raise .frameHdr := by
  change execRelc s = _
  unfold execRelc
  simp only [beq_eq_false_iff_ne.2 hw, Bool.false_eq_true, if_false, Nat.not_le.2 ht, show (s.st.rasCount == 0#5) = false from beq_eq_false_iff_ne.2 hn, hj, hh,
    show s.recRead .load (s.st.rs 29) 64 = .ok s1 bs from hr]
  rw [show (frameHdr (s.st.rs 29) bs).ok = false from hb]
  rfl

variable (hb : (frameHdr (s.rs 29) bs).ok = true) (hf : (s1.onSt fun st => { st with held := some bs }).joinHold (some .frame) = none)
  (hl : s.st.latchPending = false)
include hb hf hl

theorem execRelc_slot {tl : Nat} (hs : (s1.onSt fun st => { st with held := some bs }).freeTail s.cur.core s.cur.cl = some tl) :
    exec .relc s = (s1.onSt fun st => { st with held := some bs }).relcSlot (s.rs 29) (frameHdr (s.rs 29) bs) tl := by
  change execRelc s = _
  unfold execRelc
  simp only [beq_eq_false_iff_ne.2 hw, Bool.false_eq_true, if_false, Nat.not_le.2 ht, show (s.st.rasCount == 0#5) = false from beq_eq_false_iff_ne.2 hn, hj, hh,
    show s.recRead .load (s.st.rs 29) 64 = .ok s1 bs from hr, show (frameHdr (s.st.rs 29) bs).ok = true from hb, Bool.not_true, hf, hl, hs]
  rfl

theorem execRelc_point (hs : (s1.onSt fun st => { st with held := some bs }).freeTail s.cur.core s.cur.cl = none) :
    exec .relc s = (s1.onSt fun st => { st with held := some bs }).relcPoint (s.rs 29) (frameHdr (s.rs 29) bs) := by
  change execRelc s = _
  unfold execRelc
  simp only [beq_eq_false_iff_ne.2 hw, Bool.false_eq_true, if_false, Nat.not_le.2 ht, show (s.st.rasCount == 0#5) = false from beq_eq_false_iff_ne.2 hn, hj, hh,
    show s.recRead .load (s.st.rs 29) 64 = .ok s1 bs from hr, show (frameHdr (s.st.rs 29) bs).ok = true from hb, Bool.not_true, hf, hl, hs]
  rfl

end

/-- The state in which RELC goes on once it has read the frame header. -/
structure HoldsHeader (s u : State) (bs : List Byte) : Prop where
  st : u.st = { s.st with held := some bs }
  cur : u.cur = s.cur
  paths : ∀ c, (u.core c).paths = (s.core c).paths
  lastTail : ∀ c, (u.core c).lastTail = (s.core c).lastTail
  streams : ∀ id, id ≠ s.cur → u.strm id = s.strm id
  bytes : SameBytes s u
  ctxs : u.ctxs = s.ctxs
  devs : u.devs = s.devs
  beside : ∃ cs ss, u = { s with cores := cs, streams := ss }

theorem CachesOnly.holds {s s1 : State} (h : CachesOnly s s1) (bs : List Byte) :
    HoldsHeader s (s1.onSt fun st => { st with held := some bs }) bs where
  st := by rw [State.st_onSt, h.st]
  cur := h.cur
  paths c := h.paths c
  lastTail c := h.lastTail c
  streams id hid := ((Beside.onSt s1 _).streams id (h.cur.symm ▸ hid)).trans (h.strm id)
  bytes := h.bytes.trans (Beside.onSt s1 _).bytes
  ctxs := h.ctxs
  devs := h.devs
  beside := by obtain ⟨cs, rfl, _⟩ := h; exact ⟨_, _, rfl⟩

namespace HoldsHeader
variable {s u : State} {bs : List Byte}

theorem atJoin (h : HoldsHeader s u bs) (hj : AtJoin s) : AtJoin u := by
  unfold AtJoin
  rw [h.st]
  exact hj

theorem arrived (h : HoldsHeader s u bs) (ha : Arrived s) : Arrived u := by
  unfold Arrived
  rw [h.cur, h.paths]
  exact ha

theorem status (h : HoldsHeader s u bs) (id : SlotId) : (u.strm id).status = (s.strm id).status := by
  by_cases e : id = s.cur
  · have hu : u.strm u.cur = _ := h.st
    rw [h.cur] at hu
    rw [e, hu]
    rfl
  · rw [h.streams id e]

theorem freeTail (h : HoldsHeader s u bs) (c : CoreId) (cl : Nat) : u.freeTail c cl = s.freeTail c cl := by
  unfold State.freeTail
  simp only [h.status, h.lastTail]

theorem xid (h : HoldsHeader s u bs) : u.xid = s.xid := by
  have hu : (u.strm u.cur) = _ := h.st
  unfold State.xid State.xidOf
  rw [hu, h.cur]
  rfl

theorem cx (h : HoldsHeader s u bs) : u.cx = s.cx := by
  unfold State.cx
  rw [h.xid]
  exact State.ctx_congr h.ctxs _

end HoldsHeader

/-- A stream is put into a slot beside the current one, and the current one changes. -/
theorem strm_besides (s : State) (c : CoreId) (k : Core → Core) {tid : SlotId} (x : Stream) (g : Stream → Stream) (hne : tid ≠ s.cur) :
    let t := ((s.onCore c k).setStrm tid x).onSt g
    t.st = g s.st ∧ t.strm tid = x ∧ ∀ id, id ≠ s.cur → id ≠ tid → t.strm id = s.strm id := by
  have h1 : ((s.onCore c k).setStrm tid x).st = s.st := (State.strm_setStrm_if (s.onCore c k) tid s.cur x).trans (if_neg hne.symm)
  refine ⟨by rw [State.st_onSt, h1], ?_, fun id hc ht => ?_⟩
  · exact ((Beside.onSt ((s.onCore c k).setStrm tid x) g).streams tid hne).trans (State.strm_setStrm ..)
  · exact ((Beside.onSt ((s.onCore c k).setStrm tid x) g).streams id hc).trans ((State.strm_setStrm_if (s.onCore c k) tid id x).trans (if_neg ht))

/-- RELC with a free tail slot: what the tail starts with and what the caller goes on with. -/
theorem relcSlot_spec {s u s2 : State} {bs : List Byte} (h : HoldsHeader s u bs) {fb : Word} {tl old : Nat}
    (hu : s.st.status ≠ .free) (hf : s.freeTail s.cur.core s.cur.cl = some tl) (ha : u.addTcnt fb 1 = .ok s2 old) :
    ∃ t, u.relcSlot fb (frameHdr fb bs) tl = .next t ∧ SameBytes s2 t ∧
      t.st = ({ s.st with held := some bs } : Stream).released (frameHdr fb bs) fb tl ∧
      (∃ idle, t.strm ⟨s.cur.core, s.cur.cl, tl⟩ = { s.st.asTail fb s.cur.sl s.xid.ctx with idle := idle }) ∧
      ∀ id, id ≠ s.cur → id ≠ ⟨s.cur.core, s.cur.cl, tl⟩ → t.strm id = s.strm id := by
  obtain ⟨hstr, hcur⟩ := addTcnt_streams ha
  obtain ⟨cs, ss, rfl⟩ := h.beside
  have hst : s2.st = { s.st with held := some bs } := by
    unfold State.st
    rw [State.strm_congr hstr, hcur]
    exact h.st
  have hne : (⟨s.cur.core, s.cur.cl, tl⟩ : SlotId) ≠ s2.cur := by
    rw [hcur]
    intro e
    have hfree := List.find?_some hf
    simp only [e] at hfree
    exact hu (eq_of_beq hfree)
  unfold State.relcSlot
  simp only [ha]
  rw [h.st, h.xid]
  obtain ⟨h1, h2, h3⟩ := strm_besides s2 s.cur.core
    (fun k => { k with lastTail := if tl == 2 then k.lastTail ||| BitVec.twoPow 4 (s.cur.cl % 4) else k.lastTail &&& ~~~BitVec.twoPow 4 (s.cur.cl % 4)
                       lastRelc := k.lastRelc.set (s.cur.cl % 4) s.cur.sl (Nat.mod_lt _ (by decide)) })
    { s.st.asTail fb s.cur.sl s.xid.ctx with idle := (s.dev s.cdev).cycle } (fun st => st.released (frameHdr fb bs) fb tl) hne
  refine ⟨_, rfl, .of_eq rfl rfl, h1.trans (by rw [hst]), ⟨_, h2⟩, fun id hc ht => ?_⟩
  exact ((h3 id (hcur ▸ hc) ht).trans (State.strm_congr hstr id)).trans (h.streams id hc)

/-- The hand-back area does not ask what a stream holds of a record, nor more of the frame header than its CFP. -/
theorem handBack_held (st : Stream) (x : Option (List Byte)) (a b : Word) : handBack { st with held := x } a b = handBack st a b := rfl

theorem atGate_s (st : Stream) : (atGate st).s = st.s := by unfold atGate; split <;> rfl
theorem atGate_pend (st : Stream) : (atGate st).pend = st.pend := by unfold atGate; split <;> rfl

/-- RELC without a free tail slot: the hand-back set is on its way, and the stream waits for it. -/
theorem relcPoint_spec {s u : State} {bs : List Byte} (h : HoldsHeader s u bs) {fb : Word} {ps : List Piece}
    (hx : s.xlAccess ⟨s.xid, s.cx.asid.toNat, s.st.priv, .store, .scalar⟩ (fb + 0x40) 1216 = .ok ps) :
    ∃ t, u.relcPoint fb (frameHdr fb bs) = .next t ∧ SameBytes s t ∧ t.st.status = .waiting ∧ t.st.wait = .handBack ∧ t.st.ex = s.st.ex ∧
      t.st.s = s.st.s ∧ t.st.pend = [] ∧ (t.core s.cur.core).paths = (s.core s.cur.core).paths ++ storePaths s.cur s.xid s.st.seq
        (ps.map fun p => (p, ((handBack s.st.landAll (BitVec.ofNat 64 (bytesNat (bs.take 8))) (callerS30 s.st fb bs)).drop p.at_).take p.len)) ∧
      ∀ id, id ≠ s.cur → t.strm id = s.strm id := by
  obtain ⟨cs, ss, rfl⟩ := h.beside
  obtain ⟨v, p, hl⟩ := s.st.landAll_form
  let u1 := State.onSt { s with cores := cs, streams := ss } Stream.landAll
  have hb : Beside { s with cores := cs, streams := ss } u1 := .onSt _ _
  have hst : u1.st = { s.st.landAll with held := some bs } := (State.st_onSt _ _).trans (by rw [h.st, landAll_held])
  have hxid : u1.xid = s.xid := (congrArg (fun st => (⟨s.cur.core, ownerOf s.cur st⟩ : CtxId)) hst).trans (by rw [hl]; rfl)
  have hcx : u1.cx = s.cx := by
    unfold State.cx
    rw [hxid]
    exact State.ctx_congr h.ctxs _
  have hpriv : u1.st.priv = s.st.priv := by rw [hst, hl]
  have hxl : u1.xlAccess ⟨u1.xid, u1.cx.asid.toNat, u1.st.priv, .store, .scalar⟩ (fb + 0x40) 1216 = .ok ps := by
    rw [hxid, hcx, hpriv, ← hx]
    exact xlAccess_beside s _ _ _ _ _
  have hs30 : (if (u1.st.rs 30).ult (fb + (frameHdr fb bs).fsize) then fb + (frameHdr fb bs).fsize else u1.st.rs 30) = callerS30 s.st fb bs := by
    rw [hst, hl]
    unfold callerS30 BitVec.ult
    simp only [decide_eq_true_eq]
    rfl
  have hseq : u1.st.seq = s.st.seq := by rw [hst, hl]
  let items := storePaths s.cur s.xid s.st.seq
    (ps.map fun p => (p, ((handBack s.st.landAll (BitVec.ofNat 64 (bytesNat (bs.take 8))) (callerS30 s.st fb bs)).drop p.at_).take p.len))
  let u2 := u1.onCore s.cur.core fun c => { c with paths := c.paths ++ items }
  have e : State.relcPoint { s with cores := cs, streams := ss } fb (frameHdr fb bs) = .next (u2.waitsAt .handBack) := by
    unfold State.relcPoint
    simp only [show State.onSt { s with cores := cs, streams := ss } Stream.landAll = u1 from rfl, hxl]
    rw [hs30, hxid, hseq, hst, handBack_held]
    rfl
  obtain ⟨h1, h2, h3, h4, h5⟩ := holds_waitsAt u2 .handBack
  have hst2 : u2.st = u1.st := State.strm_congr rfl _
  refine ⟨_, e, ?_, h1, h2, by rw [h3, hst2, hst, hl], ?_, ?_, ?_, fun id hid => ?_⟩
  · exact (h.bytes.trans hb.bytes).trans ((SameBytes.onCore u1 s.cur.core _).trans h5.bytes)
  · exact h4.s.trans (by rw [hst2, hst, hl]; exact atGate_s _)
  · exact h4.pend.trans (by rw [hst2, hst, hl]; exact atGate_pend _)
  · rw [State.core_congr h5.cores]
    exact (congrArg Core.paths (State.core_onCore u1 s.cur.core _)).trans (congrArg (· ++ items) (h.paths s.cur.core))
  · exact ((h5.streams id hid).trans (hb.streams id hid)).trans (h.streams id hid)

end Sys2Proof.Machine
end

section
/-!
PROOF. What the actions of a block and the instruction RELC come to (R22, R35, R118 to R121, R151).
-/
namespace Sys2Proof.Machine

open Claims

/-! ### BLOCK_ENTRY outside lock step -/

/-- A header that R120 does not allow. -/
def BadHeader (h : BitVec 32) : Prop :=
  (h.extractLsb' 0 9).toNat = 0 ∨ h.extractLsb' 21 6 ≠ 0 ∨ (h.getLsbD 30 = false ∧ h.extractLsb' 28 2 ≠ 0) ∨
    (h.getLsbD 30 = true ∧ h.extractLsb' 9 12 ≠ 0)

/-- The cursor stands inside the block of a header, or past it where it has no pass (R119). -/
def InBlock (st : Stream) (h : BitVec 32) (c : Cursor) : Prop :=
  if blockPasses st h = 0 then c = { pc := blockFin st h, hdr := blockFin st h, fin := blockFin st h, rem := 1 }
  else c.pc = st.ex.hdr + 4 ∧ c.hdr = st.ex.hdr ∧ c.fin = blockFin st h ∧ c.rem.toNat = blockPasses st h

/-- A stream of U reads its headers in the code range alone (R121). -/
def InRange (s : State) : Prop :=
  s.st.priv = .u → (ofHiBits s.cx.codebase).toNat ≤ s.st.ex.hdr.toNat ∧ s.st.ex.hdr.toNat + 4 ≤ (ofHiBits s.cx.codelim).toNat

/-- The stream's header stops it with a fault at the header's address (R120, R121). -/
def StopsAtHeader (s0 : State) (sl : SlotId) (n : FaultName) : Prop :=
  ∃ t, exec (.blockEntry sl) s0 = .next t ∧ Entered (at_ s0 sl) t { name := n, faddr := (at_ s0 sl).st.ex.hdr }
    (at_ s0 sl).st.ex.retPoint.1 (at_ s0 sl).st.ex.retPoint.2.1 (at_ s0 sl).st.ex.retPoint.2.2

section
variable {s0 s1 : State} {sl : SlotId} {h : BitVec 32} (ha : AtBlock (at_ s0 sl) sl) (hl : Alone (at_ s0 sl) sl ∨ (at_ s0 sl).cx.lockstep = false)
include ha hl

theorem blockEntry_outside (hr : ¬ InRange (at_ s0 sl)) (ht : CanTrap (at_ s0 sl)) : StopsAtHeader s0 sl .execLimit := by
  obtain ⟨hu, hc⟩ := Classical.not_imp.1 hr
  obtain ⟨t, e, he⟩ := raiseRec_enters _ (hdrFault .execLimit (at_ s0 sl).st.ex.hdr) ht rfl
  exact ⟨t, (execBlockEntry_bad ha hl (readHeader_outside hu (Bool.eq_false_iff.2 fun k => hc ((inCode_iff _ _).1 k)))).trans e, he⟩

variable (hr : InRange (at_ s0 sl)) (hf : (at_ s0 sl).fetchWord sl (at_ s0 sl).st.ex.hdr.toNat = .ok s1 h)
include hr hf

theorem blockEntry_bad (hb : BadHeader h) (ht : CanTrap (at_ s0 sl)) : StopsAtHeader s0 sl .illegalOp := by
  have hw := readHeader_word (fun hu => (inCode_iff _ _).2 (hr hu)) hf
  rw [if_pos ((hdrBad_iff h).2 hb)] at hw
  obtain ⟨t, e, he⟩ := raiseRec_enters _ (hdrFault .illegalOp (at_ s0 sl).st.ex.hdr) ht rfl
  exact ⟨t, (execBlockEntry_bad ha hl hw).trans e, he⟩

variable (hb : ¬ BadHeader h)
include hb

theorem blockEntry_limit (hlim : (ofHiBits (at_ s0 sl).cx.codelim).toNat < (at_ s0 sl).st.ex.hdr.toNat + 4 + 2 * (h.extractLsb' 0 9).toNat)
    (ht : CanTrap (at_ s0 sl)) : StopsAtHeader s0 sl .execLimit := by
  have hw := readHeader_word (fun hu => (inCode_iff _ _).2 (hr hu)) hf
  rw [if_neg fun k => hb ((hdrBad_iff h).1 k), if_pos ⟨ht.1, hlim⟩] at hw
  obtain ⟨t, e, he⟩ := raiseRec_enters _ (hdrFault .execLimit (at_ s0 sl).st.ex.hdr) ht rfl
  exact ⟨t, (execBlockEntry_bad ha hl hw).trans e, he⟩

variable (hlim : (at_ s0 sl).st.priv = .u → (at_ s0 sl).st.ex.hdr.toNat + 4 + 2 * (h.extractLsb' 0 9).toNat ≤ (ofHiBits (at_ s0 sl).cx.codelim).toNat)
include hlim

omit ha hl hb in
theorem readHeader_good (hb : ¬ BadHeader h) : (at_ s0 sl).readHeader sl (at_ s0 sl).st.ex.hdr = .ok s1 h := by
  have hw := readHeader_word (fun hu => (inCode_iff _ _).2 (hr hu)) hf
  rwa [if_neg fun k => hb ((hdrBad_iff h).1 k), if_neg fun k => Nat.not_lt.2 (hlim k.1) k.2] at hw

/-- A main stream at a sync header waits for the others (R22). -/
theorem blockEntry_syncs (hn : ¬ Alone (at_ s0 sl) sl) (hs : h.getLsbD 31 = true) : ∃ t, exec (.blockEntry sl) s0 = .next t ∧
    t.st.status = .waiting ∧ t.st.wait = .sync ∧ t.st.ex = (at_ s0 sl).st.ex ∧ SameBytes (at_ s0 sl) t := by
  have hk := fetchWord_caches hf
  have e := execBlockEntry_ok ha hl (readHeader_good hr hf hlim hb)
  rw [show (isTail sl || (at_ s0 sl).st.priv == .s || (at_ s0 sl).st.stub != .none) = false from not_alone hn, if_pos (by exact hs)] at e
  obtain ⟨h1, h2, -, h4⟩ := waits_stays s1 .sync
  exact ⟨_, e, h1, by simp [State.waits], h2.trans (congrArg Stream.ex hk.st), hk.bytes.trans h4.bytes⟩

/-- A stream enters its block, or skips one without passes (R119). -/
theorem blockEntry_enters (hs : Alone (at_ s0 sl) sl ∨ h.getLsbD 31 = false) : ∃ t, exec (.blockEntry sl) s0 = .next t ∧
    InBlock (at_ s0 sl).st h t.st.ex ∧ t.st.status = .running ∧ t.st.s = (at_ s0 sl).st.s ∧ t.st.pend = [] ∧ SameBytes (at_ s0 sl) t ∧
    t.devs = (at_ s0 sl).devs ∧ t.ctxs = (at_ s0 sl).ctxs ∧ ∀ id, id ≠ sl → t.strm id = (at_ s0 sl).strm id := by
  have hk := fetchWord_caches hf
  have e := (execBlockEntry_ok ha hl (readHeader_good hr hf hlim hb)).trans (if_neg (Bool.eq_false_iff.1 (not_locked (b := hdrSync h) hs)))
  have hst : (s1.enterBlock sl h).st = (at_ s0 sl).st.enter (enterCursor (at_ s0 sl).st.ex.hdr h (at_ s0 sl).st.rlc) := by
    have h1 : (s1.enterBlock sl h).strm sl = (s1.strm sl).enter (enterCursor (s1.strm sl).ex.hdr h (s1.strm sl).rlc) := State.strm_onStrm s1 sl _
    rw [hk.strm] at h1
    exact (congrArg (s1.enterBlock sl h).strm hk.cur).trans h1
  obtain ⟨h1, h2, h3, h4⟩ := enter_spec (at_ s0 sl).st (enterCursor (at_ s0 sl).st.ex.hdr h (at_ s0 sl).st.rlc)
  refine ⟨_, e, ?_, ?_, ?_, ?_, hk.bytes.trans (.of_eq rfl rfl), hk.devs, hk.ctxs, fun id hid => ?_⟩
  · rw [hst, h1]
    exact enterCursor_inside (at_ s0 sl).st h
  · rw [hst, h2]
  · rw [hst, h3]
  · rw [hst, h4]
  · exact ((State.strm_onStrm_if ..).trans (if_neg hid)).trans (hk.strm id)

end

/-! ### BLOCK_ENTRY in lock step -/

section
variable {s0 s1 : State} {sl i : SlotId} (ha : AtBlock (at_ s0 sl) sl) (hf : ¬ Alone (at_ s0 sl) sl) (hl : (at_ s0 sl).cx.lockstep = true)
include ha hf hl

theorem blockEntry_holdsAll (h : ∃ id ∈ (at_ s0 sl).stepGroup (at_ s0 sl).xid, (at_ s0 sl).atStart id = false) : exec (.blockEntry sl) s0 = .next s0 := by
  obtain ⟨id, hid, hno⟩ := h
  exact (execBlockEntry_locked ha hf hl).trans (if_neg fun k => Bool.false_ne_true (hno.symm.trans (List.all_eq_true.1 k id hid)))

variable (hall : ∀ id ∈ (at_ s0 sl).stepGroup (at_ s0 sl).xid, (at_ s0 sl).atStart id = true)
include hall

theorem blockEntry_together : exec (.blockEntry sl) s0 = .next ((at_ s0 sl).enterGroup (at_ s0 sl).xid ((at_ s0 sl).stepGroup (at_ s0 sl).xid)) :=
  (execBlockEntry_locked ha hf hl).trans (if_pos (List.all_eq_true.2 hall))

/-- A header that stops its stream stops all (R35). -/
theorem blockEntry_stopsAll {f : FaultRec} (hg : (at_ s0 sl).groupHeaders ((at_ s0 sl).stepGroup (at_ s0 sl).xid) = (.bad f, i))
    (hn : f.name.logOnly = false) (hv : ∃ l r, (at_ s0 sl).launchOf ((at_ s0 sl).xidOf i) = some l ∧ l.svbase = some r) :
    ∃ t, exec (.blockEntry sl) s0 = .next t ∧ (t.strm i).priv = .s ∧ (t.strm i).trap.epc = hiBits ((at_ s0 sl).strm i).ex.retPoint.1 ∧
      SameBytes (at_ s0 sl) t ∧ ∀ id, id ≠ i → t.strm id = (at_ s0 sl).strm id := by
  have hi := hall i (groupHeaders_bad hg)
  unfold State.atStart at hi
  simp only [Bool.and_eq_true, beq_iff_eq, and_assoc] at hi
  exact ⟨_, blockEntry_together ha hf hl hall, enterGroup_bad hg hn hi.1 hv⟩

/-- The streams of lock step enter together (R22, R35). -/
theorem blockEntry_entersAll {hs : List (SlotId × BitVec 32)}
    (hg : (at_ s0 sl).groupHeaders ((at_ s0 sl).stepGroup (at_ s0 sl).xid) = (.ok s1 hs, i)) :
    ∃ t, exec (.blockEntry sl) s0 = .next t ∧ SameBytes (at_ s0 sl) t ∧ (∀ p ∈ hs, InBlock ((at_ s0 sl).strm p.1) p.2 (t.strm p.1).ex) ∧
      ((t.ctx (at_ s0 sl).xid).lockstep = true ↔ ∀ p ∈ hs, p.2.getLsbD 31 = true) := by
  obtain ⟨h1, h2, h3⟩ := enterGroup_ok hg
  refine ⟨_, blockEntry_together ha hf hl hall, h1, fun p hp => ?_, h3⟩
  rw [h2 p hp, (enter_spec _ _).1]
  exact enterCursor_inside ((at_ s0 sl).strm p.1) p.2

end

/-! ### PASS_START and SYNC_REJOIN -/

theorem passStart_begins {s0 : State} {sl : SlotId} (ha : (at_ s0 sl).canAct sl = true) (hh : (at_ s0 sl).st.ex.pc ≠ (at_ s0 sl).st.ex.hdr)
    (he : (at_ s0 sl).st.ex.pc = (at_ s0 sl).st.ex.fin) (hd : (at_ s0 sl).diverts sl = false)
    (hc : (at_ s0 sl).st.priv = .u → (at_ s0 sl).st.pendFaults = []) :
    ∃ t, exec (.passStart sl) s0 = .next t ∧
      t.st.ex = { (at_ s0 sl).st.ex with pc := (at_ s0 sl).st.ex.hdr + 4, rem := (at_ s0 sl).st.ex.rem - 1 } ∧
      t.st.s = (at_ s0 sl).st.s ∧ t.st.pend = [] ∧ Beside (at_ s0 sl) t := by
  obtain ⟨h1, h2, h3⟩ := beginPass_spec (at_ s0 sl).st
  refine ⟨_, execPassStart_begins ha hh he hd hc, ?_⟩
  rw [State.st_onSt]
  exact ⟨h1, h2, h3, .onSt _ _⟩

theorem syncRejoin_forms {s s1 : State} {x : CtxId} {hs : List (SlotId × BitVec 32)} {i : SlotId} (hl : (s.ctx x).lockstep = false)
    (hn : s.stepGroup x ≠ []) (ha : ∀ id ∈ s.stepGroup x, s.atStart id = true ∧ s.canAct id = true)
    (hh : s.groupHeaders (s.stepGroup x) = (.ok s1 hs, i)) (hy : ∀ p ∈ hs, p.2.getLsbD 31 = true) :
    ∃ t, exec (.syncRejoin x) s = .next t ∧ (t.ctx x).lockstep = true ∧ SameBytes s t ∧ ∀ p ∈ hs, (t.strm p.1).status = .running := by
  obtain ⟨h1, h2, h3⟩ := enterGroup_ok hh
  refine ⟨_, execSyncRejoin_forms hl hn ha hh hy, h3.2 hy, h1, fun p hp => ?_⟩
  rw [h2 p hp, (enter_spec _ _).2.1]

/-! ### RELC -/

/-- RELC past its first checks: it has not yet stored a hand-back set, its tail table has room, and it has a return address (R151). -/
structure Releases (s : State) : Prop where
  fresh : s.st.wait ≠ .handBack
  room : s.st.tails.length < 4
  ras : s.st.rasCount ≠ 0

theorem relc_rasFaults {s : State} (hw : s.st.wait ≠ .handBack) (ht : s.st.tails.length < 4) (hn : s.st.rasCount.toNat = 0) (hc : CanTrap s) :
    (s.st.rasSpill = 0 → Raises s .relc .rasEmpty 0 0) ∧
      (s.st.rasSpill ≠ 0 → Raises s .relc .rasUnd 0 (BitVec.ofNat 64 (s.st.rasSpill.toNat + s.st.rasCount.toNat))) := by
  have e := execRelc_empty hw ht (BitVec.eq_of_toNat_eq hn)
  refine ⟨fun h => ?_, fun h => ?_⟩
  · rw [if_neg (not_not_intro h)] at e
    exact raises_of e hc rfl
  · rw [if_pos h] at e
    exact raises_of e hc rfl

section
variable {s s1 : State} {bs : List Byte} (hf : Releases s) (hj : AtJoin s) (hh : s.st.held = none) (hr : s.recRead .load (s.rs 29) 64 = .ok s1 bs)
include hf hj hh hr

theorem relc_frameHdr (hb : ¬ ((frameHdr (s.rs 29) bs).ok = true)) (hc : CanTrap s) : Raises s .relc .frameHdr 0 0 :=
  raises_of (execRelc_frameHdr hf.fresh hf.room hf.ras (joinHold_none hj .none) hh hr (Bool.eq_false_iff.2 hb)) hc rfl

variable (hb : (frameHdr (s.rs 29) bs).ok = true) (ha : Arrived s) (hl : ∀ l, (s.st.rl l).st ≠ .pending)
include hb ha hl

/-- RELC with a free tail slot (R151). -/
theorem relc_startsTail {s2 : State} {tl old : Nat} (hu : s.st.status ≠ .free) (ht : s.freeTail s.cur.core s.cur.cl = some tl)
    (hadd : (s1.onSt fun st => { st with held := some bs }).addTcnt (s.rs 29) 1 = .ok s2 old) :
    ∃ t, exec .relc s = .next t ∧ SameBytes s2 t ∧ t.st = ({ s.st with held := some bs } : Stream).released (frameHdr (s.rs 29) bs) (s.rs 29) tl ∧
      (∃ idle, t.strm ⟨s.cur.core, s.cur.cl, tl⟩ = { s.st.asTail (s.rs 29) s.cur.sl s.xid.ctx with idle := idle }) ∧
      ∀ id, id ≠ s.cur → id ≠ ⟨s.cur.core, s.cur.cl, tl⟩ → t.strm id = s.strm id := by
  have hu' := (recRead_caches hr).holds bs
  have e := execRelc_slot hf.fresh hf.room hf.ras (joinHold_none hj .none) hh hr hb
    (joinHold_release (hu'.atJoin hj) (hu'.arrived ha) (show Scope.frame ≠ .group by decide) .none) (latchPending_of s.st hl) ((hu'.freeTail _ _).trans ht)
  obtain ⟨t, h1, h2⟩ := relcSlot_spec hu' hu ht hadd
  exact ⟨t, e.trans h1, h2⟩

/-- RELC without a free tail slot (R151). -/
theorem relc_storesSet {ps : List Piece} (ht : s.freeTail s.cur.core s.cur.cl = none)
    (hx : s.xlAccess ⟨s.xid, s.cx.asid.toNat, s.st.priv, .store, .scalar⟩ (s.rs 29 + 0x40) 1216 = .ok ps) :
    ∃ t, exec .relc s = .next t ∧ SameBytes s t ∧ t.st.status = .waiting ∧ t.st.wait = .handBack ∧ t.st.ex = s.st.ex ∧ t.st.s = s.st.s ∧
      t.st.pend = [] ∧ (t.core s.cur.core).paths = (s.core s.cur.core).paths ++ storePaths s.cur s.xid s.st.seq
        (ps.map fun p => (p, ((handBack s.st.landAll (BitVec.ofNat 64 (bytesNat (bs.take 8))) (callerS30 s.st (s.rs 29) bs)).drop p.at_).take p.len)) ∧
      ∀ id, id ≠ s.cur → t.strm id = s.strm id := by
  have hu' := (recRead_caches hr).holds bs
  have e := execRelc_point hf.fresh hf.room hf.ras (joinHold_none hj .none) hh hr hb
    (joinHold_release (hu'.atJoin hj) (hu'.arrived ha) (show Scope.frame ≠ .group by decide) .none) (latchPending_of s.st hl) ((hu'.freeTail _ _).trans ht)
  obtain ⟨t, h1, h2⟩ := relcPoint_spec hu' hx
  exact ⟨t, e.trans h1, h2⟩

end

/-- RELC whose hand-back set is on its way, or visible (R151). -/
theorem relc_handBack {s : State} (hw : s.st.wait = .handBack) :
    (s.ownStores s.cur (s.st.seq + 1) ≠ [] → ∃ t, exec .relc s = .next t ∧ t.st = { s.st with status := .waiting } ∧ Beside s t) ∧
      (s.ownStores s.cur (s.st.seq + 1) = [] → ∃ t, exec .relc s = .next t ∧ Beside s t ∧ t.st.status = .running ∧
        t.st.ex = .atHeader s.st.ex.fin ∧ SameRegs (deferredRegs s.st (s.rs 29)) t.st) := by
  have e := execRelc_handBack hw
  refine ⟨fun h => ?_, fun h => ?_⟩
  · rw [if_neg fun k => h (List.isEmpty_iff.1 k)] at e
    refine ⟨_, e, ?_, Beside.onSt s _⟩
    rw [State.waits, State.st_onSt, ← hw]
  · rw [if_pos (List.isEmpty_iff.2 h)] at e
    obtain ⟨t, h1, h2⟩ := relcDeferred_spec s (s.rs 29)
    exact ⟨t, e.trans h1, h2⟩

end Sys2Proof.Machine
end

section
/-! PROOF. The obligation on blocks and release-caller. -/
namespace Sys2Proof
open Sys2Proof.Machine Sys2Proof.Claims

/-- Settles O50: each action of a block goes by the lemma on its outcome; RELC by the lemmas on its two ways, the state that has read the frame
header differing from the first in the caches and in the record that the stream holds. -/
theorem blocksAndRelease : Obligations.BlocksAndRelease := by
  unfold Obligations.BlocksAndRelease
  refine ⟨fun s0 s1 sl h hs i => ?_, fun s s1 x hs i => ⟨fun h => execSyncRejoin_stays h, fun hl hn ha hh hy => syncRejoin_forms hl hn ha hh hy⟩,
    fun s s1 s2 bs tl old ps => ?_⟩
  · intro s hdr x free enter len bad passes fin inside base lim range acts group
    have hAt (ha : acts) : AtBlock s sl := ⟨ha.1, ha.2.1, ha.2.2.1, ha.2.2.2⟩
    refine ⟨fun ha hl => ⟨fun hr ht => blockEntry_outside (hAt ha) hl hr ht, fun hr hf => ⟨fun hb ht => blockEntry_bad (hAt ha) hl hr hf hb ht,
      fun hb hlim ht => blockEntry_limit (hAt ha) hl hr hf hb hlim ht, fun hb hlim => ⟨fun hn hs => blockEntry_syncs (hAt ha) hl hr hf hb hlim hn hs,
      fun hs => blockEntry_enters (hAt ha) hl hr hf hb hlim hs⟩⟩⟩, fun ha hn hl => ⟨fun h => blockEntry_holdsAll (hAt ha) hn hl h,
      fun f hall hg hlo hv => blockEntry_stopsAll (hAt ha) hn hl hall hg hlo hv, fun hall hg => blockEntry_entersAll (hAt ha) hn hl hall hg⟩,
      fun hc hh he hd hp => passStart_begins hc hh he hd hp⟩
  · intro first fb n depth cfp fsize legal fe s30 tid held
    have hRel (hf : first) : Releases s := ⟨hf.1, hf.2.1, hf.2.2⟩
    have hLegal : (frameHdr fb bs).ok = true ↔ legal := frameHdr_ok_iff fb bs
    refine ⟨fun hw ht hc => raises_of (execRelc_tailDepth hw ht) hc rfl, fun hw ht hn hc => relc_rasFaults hw ht hn hc,
      fun hf hl hh ha => holds_of (execRelc_holds hf.1 hf.2.1 hf.2.2 (joinHold_behind hl hh ha none .none)),
      fun hf _ hj hh hr => ⟨fun hb hc => relc_frameHdr (hRel hf) hj hh hr (hLegal.not.2 hb) hc,
        fun hb ha hl hu => ⟨fun ht hadd => ?_, fun ht hx => relc_storesSet (hRel hf) hj hh hr (hLegal.2 hb) ha hl ht hx⟩⟩,
      fun hw _ _ => relc_handBack hw⟩
    obtain ⟨t, h1, h2, h3, ⟨idle, h4⟩, h5⟩ := relc_startsTail (hRel hf) hj hh hr (hLegal.2 hb) ha hl hu ht hadd
    obtain ⟨k1, k2, k3⟩ := released_spec s.st fb bs tl
    refine ⟨t, h1, h2, by rw [h3]; exact k1, by rw [h3]; exact k2, by rw [h3]; exact k3, ?_, h5⟩
    intro u
    have hu4 : u = _ := h4
    rw [hu4]
    exact asTail_spec s.st fb s.cur.sl s.xid.ctx idle

end Sys2Proof
end

section
/-!
PROOF. Queue descriptors (R273, R278): the words that a write of one leaves, and what stopping a queue writes.
-/
namespace Sys2Proof.Machine

/-! ### Where a descriptor lies -/

/-- The descriptor of a queue lies where bytes are: in the stacks, or in host memory. -/
def DescOpen (d : Device) (q : Nat) : Prop := d.qdesc q + 64 ≤ 2 ^ 40 ∨ 2 ^ 63 ≤ d.qdesc q

/-- Where the command processor may go on, every line that it touches in device memory is there and in service (R314). -/
theorem cpStop_places {s : State} {dev : Nat} {rs : List (Nat × Nat)} (h : s.cpStop dev rs = none) {r : Nat × Nat} (hr : r ∈ rs) (ha : r.1 < 2 ^ 63)
    {k : Nat} (hk : k < ceilDiv (r.1 % 128 + r.2) 128) : ∃ e a, s.placePhys dev (r.1 / 128 * 128 + 128 * k) = .devMem e a := by
  unfold State.cpStop at h
  dsimp only at h
  split at h
  · cases h
  · obtain ⟨h1, h2⟩ := Option.or_eq_none_iff.1 (Option.orElse_eq_or.symm.trans h)
    have hm : s.placePhys dev (r.1 / 128 * 128 + 128 * k) ∈ (rs.filter fun r => decide (r.1 < 2 ^ 63)).flatMap fun r =>
        (upTo (ceilDiv (r.1 % 128 + r.2) 128)).map fun k => s.placePhys dev (r.1 / 128 * 128 + 128 * k) :=
      List.mem_flatMap.2 ⟨r, List.mem_filter.2 ⟨hr, decide_eq_true ha⟩, List.mem_map.2 ⟨k, List.mem_range.2 hk, rfl⟩⟩
    have h3 := List.find?_eq_none.1 h2 _ hm
    generalize s.placePhys dev (r.1 / 128 * 128 + 128 * k) = p at h3 ⊢
    cases p
    case devMem e a => exact ⟨e, a, rfl⟩
    all_goals exact absurd rfl h3

theorem qdesc_mod (d : Device) (q : Nat) : d.qdesc q % 64 = 0 := by
  unfold Device.qdesc
  omega

/-- The descriptor of a queue whose accesses are served is open, and a kill may write it now (R314). -/
theorem descOpen_of {s : State} {dev q : Nat} {rs : List (Nat × Nat)} (h : s.cpStop dev rs = none) (hr : ((s.dev dev).qdesc q, 64) ∈ rs) :
    DescOpen (s.dev dev) q ∧ (s.dev dev).descServed dev q = true := by
  have hm := qdesc_mod (s.dev dev) q
  unfold DescOpen Device.descServed
  generalize hd : (s.dev dev).qdesc q = a at hr hm ⊢
  by_cases ha : a < 2 ^ 63
  · obtain ⟨_, _, he⟩ := cpStop_places h hr ha (k := 0) (by unfold ceilDiv; dsimp only; omega)
    unfold State.placePhys at he
    dsimp only at he
    split at he
    · cases he
    · next hlt =>
      refine ⟨.inl (by omega), ?_⟩
      rw [Bool.or_eq_true, beq_iff_eq]
      refine .inr ?_
      have hl : (s.dev dev).homeState dev (a / 128 * 128 + 128 * 0) = (s.dev dev).homeState dev a := by
        unfold Device.homeState
        rw [show (a / 128 * 128 + 128 * 0) / 128 = a / 128 by omega]
      rw [← hl]
      refine BitVec.eq_of_toNat_eq ?_
      split at he
      case h_1 => assumption
      all_goals cases he
  · exact ⟨.inr (by omega), by simp; omega⟩

/-! ### Numbers at physical addresses -/

theorem bytesNat_lt (bs : List Byte) : bytesNat bs < 256 ^ bs.length := by
  induction bs with
  | nil => decide
  | cons b bs ih =>
    have := b.isLt
    rw [bytesNat, List.length_cons, Nat.pow_succ]
    omega

theorem length_pread (d : Device) (a n : Nat) : (d.pread a n).length = n := by
  unfold Device.pread Device.memRead upTo
  split
  · split
    · exact length_mread ..
    · rw [List.length_map, List.length_range]
  · exact length_mread ..

theorem pnat_lt (d : Device) (a n : Nat) : d.pnat a n < 256 ^ n := by
  have h := bytesNat_lt (d.pread a n)
  rwa [length_pread] at h

theorem qword_lt (d : Device) (q k : Nat) : d.qword q k < 2 ^ 32 := pnat_lt d _ 4

/-- What does not differ in its memories holds the same descriptors. -/
theorem qword_congr {d e : Device} (hm : e.mem = d.mem) (hh : e.hostMem = d.hostMem) (hq : e.qtbase = d.qtbase) (hc : e.cycle = d.cycle) (q k : Nat) :
    e.qword q k = d.qword q k := by
  unfold Device.qword Device.qdesc Device.pnat Device.pread Device.memRead
  rw [hm, hh, hq, hc]

/-! ### Words of a descriptor -/

/-- A number is written where it can be read back: in the stacks or in host memory. -/
theorem pnat_pput {d : Device} (hd : d.canon) {a b n m : Nat} (x : Nat) (h : (a + n ≤ 2 ^ 40 ∧ b + m ≤ 2 ^ 40) ∨ (2 ^ 63 ≤ a ∧ 2 ^ 63 ≤ b)) :
    (b = a → m = n → (d.pput a n x).pnat b m = x % 256 ^ n) ∧ (b + m ≤ a ∨ a + n ≤ b → (d.pput a n x).pnat b m = d.pnat b m) := by
  have hl := length_natBytes n x
  unfold Device.pnat Device.pput Device.pwrite Device.pread
  rcases h with ⟨ha, hb⟩ | ⟨ha, hb⟩
  · rw [if_pos (by omega), if_pos (by omega), if_pos (by omega)]
    rw [Device.memWrite_inside d (by rw [hl]; exact ha)]
    unfold Device.memRead
    rw [if_pos hb, if_pos hb]
    refine ⟨?_, fun hab => congrArg bytesNat (mread_mwrite_out hd.1 (by rw [hl]; exact hab))⟩
    rintro rfl rfl
    have e := mread_mwrite hd.1 b (natBytes m x)
    rw [hl] at e
    rw [e, bytesNat_natBytes]
  · rw [if_neg (by omega), if_neg (by omega), if_neg (by omega)]
    refine ⟨?_, fun hab => congrArg bytesNat (mread_mwrite_out hd.2 (by rw [hl]; omega))⟩
    rintro rfl rfl
    have e := mread_mwrite hd.2 (b - 2 ^ 63) (natBytes m x)
    rw [hl] at e
    rw [e, bytesNat_natBytes]

theorem qdesc_pput (d : Device) (a n x q : Nat) : (d.pput a n x).qdesc q = d.qdesc q := by
  unfold Device.pput Device.pwrite
  split <;> rfl

/-- A word of a descriptor after one of its words has been written. -/
theorem qword_setQword {d : Device} (hd : d.canon) {q j k : Nat} (ho : DescOpen d q) (hj : j < 16) (hk : k < 16) (x : Nat) :
    (d.setQword q k x).qword q j = if j = k then x % 2 ^ 32 else d.qword q j := by
  unfold Device.setQword Device.qword
  rw [qdesc_pput]
  have h := pnat_pput hd (a := d.qdesc q + 4 * k) (b := d.qdesc q + 4 * j) (n := 4) (m := 4) x (by unfold DescOpen at ho; omega)
  split
  · next e => exact h.1 (by rw [e]) rfl
  · exact h.2 (by omega)

theorem descOpen_setQword {d : Device} {q : Nat} (k x : Nat) : DescOpen (d.setQword q k x) q ↔ DescOpen d q := by
  unfold DescOpen Device.setQword
  rw [qdesc_pput]

/-- A descriptor's STATE is written, and nothing else of its word 0. -/
theorem state_setQstate {d : Device} (hd : d.canon) {q st : Nat} (ho : DescOpen d q) (hs : st < 4) :
    (d.setQstate q st).qword q 0 / 2 ^ 29 % 4 = st := by
  unfold Device.setQstate nbits
  rw [qword_setQword hd ho (by decide) (by decide), if_pos rfl]
  have := qword_lt d q 0
  omega

/-- What a descriptor says of its queue: it is in state `st`, with the error `err` at packet `off`. -/
def Stopped (d : Device) (q st err off : Nat) : Prop := d.qword q 0 / 2 ^ 29 % 4 = st ∧ d.qword q 9 = err * 2 ^ 24 ∧ d.qword q 10 = off

theorem qword_qerr (d : Device) (v : Nat) (q j : Nat) : Device.qword { d.raise v with fwQerr := true } q j = d.qword q j := rfl

/-- Stopping a queue writes its state, the error and the packet's index into its descriptor (R278). -/
theorem stopQueue_words {d : Device} (hd : d.canon) {q st err : Nat} (ho : DescOpen d q) (hs : st < 4) (he : err < 256) (idx : Nat) :
    (d.stopQueue q st err idx).qword q 0 / 2 ^ 29 % 4 = st ∧ (d.stopQueue q st err idx).qword q 9 = err * 2 ^ 24 ∧
      (d.stopQueue q st err idx).qword q 10 = idx % 2 ^ 32 := by
  have hd1 := hd.setQstate q st
  have ho1 : DescOpen (d.setQstate q st) q := (descOpen_setQword ..).2 ho
  have hd2 := hd1.setQword q 9 (err * 2 ^ 24)
  have ho2 : DescOpen ((d.setQstate q st).setQword q 9 (err * 2 ^ 24)) q := (descOpen_setQword ..).2 ho1
  have hw (j : Nat) : (d.stopQueue q st err idx).qword q j = (((d.setQstate q st).setQword q 9 (err * 2 ^ 24)).setQword q 10 idx).qword q j := by
    unfold Device.stopQueue
    exact qword_qerr ..
  have h0 := state_setQstate hd ho hs
  refine ⟨?_, ?_, ?_⟩
  · rwa [hw, qword_setQword hd2 ho2 (by decide) (by decide), if_neg (by decide), qword_setQword hd1 ho1 (by decide) (by decide), if_neg (by decide)]
  · rw [hw, qword_setQword hd2 ho2 (by decide) (by decide), if_neg (by decide), qword_setQword hd1 ho1 (by decide) (by decide), if_pos rfl]
    omega
  · rw [hw, qword_setQword hd2 ho2 (by decide) (by decide), if_pos rfl]

end Sys2Proof.Machine
end

section
/-!
PROOF. Launches as they are taken and started (R16, R277, R278, R283, R308).
-/
namespace Sys2Proof.Machine

theorem fset_fset {K V : Type} [DecidableEq K] (m : FMap K V) (k : K) (v v' : V) : fset (fset m k v) k v' = fset m k v' := by
  induction m with
  | nil => simp [fset]
  | cons p r ih =>
    by_cases h : p.1 = k
    · simp [fset, h]
    · simp [fset, h, ih]

theorem State.onDev_onDev (s : State) (d : Nat) (f g : Device → Device) : (s.onDev d f).onDev d g = s.onDev d fun v => g (f v) := by
  unfold State.onDev State.setDev
  rw [show State.dev { s with devs := fset s.devs d (f (s.dev d)) } d = f (s.dev d) from s.dev_onDev d f]
  rw [fset_fset]

theorem State.onDev_congr {s : State} {d : Nat} {f g : Device → Device} (h : f (s.dev d) = g (s.dev d)) : s.onDev d f = s.onDev d g :=
  congrArg (s.setDev d) h

/-! ### What writes of the command processor leave unchanged -/

theorem pwrite_form (d : Device) (a : Nat) (bs : List Byte) : ∃ m h, d.pwrite a bs = { d with mem := m, hostMem := h } := by
  unfold Device.pwrite
  split <;> exact ⟨_, _, rfl⟩

theorem setQword_form (d : Device) (q k x : Nat) : ∃ m h, d.setQword q k x = { d with mem := m, hostMem := h } := pwrite_form ..

theorem parsed_form (d : Device) (q idx : Nat) : ∃ m h, d.parsed q idx = { d with mem := m, hostMem := h } := by
  unfold Device.parsed
  split
  · exact setQword_form ..
  · exact ⟨_, _, rfl⟩

theorem stopQueue_form (d : Device) (q st err idx : Nat) :
    ∃ m h i, d.stopQueue q st err idx = { d with mem := m, hostMem := h, msix := i, fwQerr := true } := by
  have h3 (a b c x y z : Nat) : ∃ m h, (((d.setQword q a x).setQword q b y).setQword q c z) = { d with mem := m, hostMem := h } := by
    obtain ⟨m1, h1, e1⟩ := setQword_form d q a x
    obtain ⟨m2, h2, e2⟩ := setQword_form (d.setQword q a x) q b y
    obtain ⟨m3, h3, e3⟩ := setQword_form ((d.setQword q a x).setQword q b y) q c z
    exact ⟨m3, h3, by rw [e3, e2, e1]⟩
  obtain ⟨m, h, e⟩ := h3 0 9 10 (d.qword q 0 - nbits (d.qword q 0) 29 2 * 2 ^ 29 + st * 2 ^ 29) (err * 2 ^ 24) idx
  refine ⟨m, h, d.msix ++ [nbits ((((d.setQstate q st).setQword q 9 (err * 2 ^ 24)).setQword q 10 idx).qword q 11) 0 11], ?_⟩
  unfold Device.stopQueue Device.setQstate
  dsimp only
  rw [e]
  rfl

/-- The parser has gone past a packet: RPTR names the next (R278). -/
theorem parsed_rptr {d : Device} (hd : d.canon) {q idx : Nat} (ho : DescOpen d q) (hi : d.rptr q = idx) :
    (d.parsed q idx).qword q 5 = (idx + 1) % 2 ^ 32 := by
  unfold Device.parsed
  rw [if_pos hi, qword_setQword hd ho (by decide) (by decide), if_pos rfl, Nat.mod_mod]

/-! ### The packet that a slot's parser takes (R278) -/

theorem nextPacket_spec {d : Device} {slot q idx : Nat} {w : BitVec 512} (h : d.nextPacket slot = some (q, idx, w)) :
    (fget d.slots slot {}).valid = true ∧ (fget d.slots slot {}).qid = q ∧ d.rptr q = idx := by
  unfold Device.nextPacket at h
  dsimp only at h
  split at h
  · next hc =>
    simp only [Bool.and_eq_true, and_assoc] at hc
    cases h
    exact ⟨hc.1, rfl, rfl⟩
  · cases h

theorem qdesc_mem_parseRanges {d : Device} {slot q idx : Nat} {w : BitVec 512} (h : d.nextPacket slot = some (q, idx, w))
    (body : Nat → BitVec 512 → List (Nat × Nat)) : (d.qdesc q, 64) ∈ d.parseRanges slot body := by
  obtain ⟨hv, hq, -⟩ := nextPacket_spec h
  unfold Device.parseRanges
  dsimp only
  rw [hv, hq]
  exact List.mem_cons_self

/-- A malformed LAUNCH, or one of no WG, of no field, or whose image is not aligned (R278). -/
theorem launchErr_malformed {d : Device} {q : Nat} {w : BitVec 512}
    (h : pkHeaderOk w = false ∨ recFld w 14 0 32 = 0 ∨ recFld w 15 20 8 = 0 ∨ (rec64 w 6).toNat % 64 ≠ 0) : d.launchErr q w = some 1 := by
  unfold Device.launchErr
  refine if_pos ?_
  rcases h with h | h | h | h
  · rw [h]; rfl
  all_goals
    rw [Bool.or_eq_true]
    refine .inr ?_
    unfold Device.launchOk
    simp [h]

/-! ### A LAUNCH is refused, or taken -/

/-- A counter lets a packet go, or it names none: it stands last on the ready list, and the parser is past it (R280). -/
theorem takePkt_go {d : Device} {q idx : Nat} {w : BitVec 512} (hg : d.holdOf q idx w = .go) (ha : pkOp w ≠ 4) (lid : Option Nat) :
    d.takePkt q idx w lid = Device.parsed { d with pkts := d.pkts ++ [{ q := q, idx := idx, words := w, st := .ready, launch := lid }],
                                                   ready := d.ready ++ [(q, idx)] } q idx := by
  unfold Device.takePkt isArm
  rw [hg]
  exact if_neg fun e => ha (eq_of_beq e)

section
variable {s : State} {dev slot q idx : Nat} {w : BitVec 512} (hn : (s.dev dev).nextPacket slot = some (q, idx, w)) (hop : pkOp w = 2)
  (hs : s.cpStop dev ((s.dev dev).parseRanges slot (s.dev dev).launchRanges) = none)
include hn hop hs

/-- A LAUNCH that fails a check stops its queue (R278). -/
theorem execPacketLaunch_refuses {err : Nat} (he : (s.dev dev).launchErr q w = some err) :
    ∃ s1 : State, exec (.packetLaunch dev slot) s = .next (s1.onDev dev fun d => d.stopQueue q 1 err idx) ∧
      ∃ l, s1.dev dev = { s.dev dev with logQueue := l } := by
  change ∃ s1, execPacketLaunch dev slot s = .next (State.onDev s1 dev fun d => d.stopQueue q 1 err idx) ∧ _
  unfold execPacketLaunch State.cpAccess State.cpAccessOr
  simp only [hs, hn, hop, bne_self_eq_false, Bool.false_eq_true, if_false, he]
  refine ⟨_, rfl, ?_⟩
  split
  · unfold State.logFault State.logRec
    rw [State.dev_onDev]
    exact ⟨_, rfl⟩
  · exact ⟨_, rfl⟩

/-- The state with the LAUNCH on record, before it starts (R277). -/
def withLaunch (s : State) (dev q idx : Nat) (w : BitVec 512) : State :=
  { s with nextId := s.nextId + 1 }.onDev dev fun v =>
    { v.takePkt q idx w (some s.nextId) with launches := fset v.launches s.nextId ((s.dev dev).mkLaunch q idx w) }

/-- A LAUNCH that passes goes on record, and is offered a start where it stands alone on the ready list. -/
theorem execPacketLaunch_takes (he : (s.dev dev).launchErr q w = none) (hg : (s.dev dev).holdOf q idx w = .go) :
    exec (.packetLaunch dev slot) s = .next (if ((withLaunch s dev q idx w).dev dev).alone q idx then (withLaunch s dev q idx w).startLaunch dev s.nextId
      else withLaunch s dev q idx w) := by
  have hp : ∃ m h, (s.dev dev).takePkt q idx w (some s.nextId) = { s.dev dev with
      pkts := (s.dev dev).pkts ++ [{ q := q, idx := idx, words := w, st := .ready, launch := some s.nextId }],
      ready := (s.dev dev).ready ++ [(q, idx)], mem := m, hostMem := h } := by
    rw [takePkt_go hg (by rw [hop]; decide)]
    exact parsed_form ..
  obtain ⟨m, h, hp⟩ := hp
  have e : ({ s with nextId := s.nextId + 1 } : State).dev dev = s.dev dev := rfl
  change execPacketLaunch dev slot s = _
  unfold execPacketLaunch State.cpAccess State.cpAccessOr
  simp only [hs, hn, hop, bne_self_eq_false, Bool.false_eq_true, if_false, he]
  rw [if_pos]
  · rw [State.onDev_onDev, State.onDev_congr (g := fun v => { v.takePkt q idx w (some s.nextId) with
      launches := fset v.launches s.nextId ((s.dev dev).mkLaunch q idx w) }) (by rw [e, hp])]
    rfl
  · rw [State.dev_onDev]
    refine List.any_eq_true.2 ⟨{ q := q, idx := idx, words := w, st := .ready, launch := some s.nextId }, ?_, beq_self_eq_true _⟩
    rw [e, hp]
    exact List.mem_append_right _ List.mem_cons_self

end

theorem qword_launches (d : Device) (x : FMap Nat Launch) (q k : Nat) : Device.qword { d with launches := x } q k = d.qword q k := rfl
theorem qword_taken (d : Device) (x : List Pkt) (r : List (Nat × Nat)) (q k : Nat) : Device.qword { d with pkts := x, ready := r } q k = d.qword q k := rfl

/-- The device with the LAUNCH on record: the packet stands last in its lists, and the parser is past it. -/
theorem dev_withLaunch {s : State} {dev q idx : Nat} {w : BitVec 512} (hop : pkOp w = 2) (hg : (s.dev dev).holdOf q idx w = .go) :
    ∃ m h, (withLaunch s dev q idx w).dev dev = { s.dev dev with
      pkts := (s.dev dev).pkts ++ [{ q := q, idx := idx, words := w, st := .ready, launch := some s.nextId }], ready := (s.dev dev).ready ++ [(q, idx)],
      launches := fset (s.dev dev).launches s.nextId ((s.dev dev).mkLaunch q idx w), mem := m, hostMem := h } ∧
      ((s.dev dev).canon → DescOpen (s.dev dev) q → (s.dev dev).rptr q = idx →
        ((withLaunch s dev q idx w).dev dev).qword q 5 = (idx + 1) % 2 ^ 32) := by
  let d1 : Device := { s.dev dev with pkts := (s.dev dev).pkts ++ [{ q := q, idx := idx, words := w, st := .ready, launch := some s.nextId }],
                                      ready := (s.dev dev).ready ++ [(q, idx)] }
  have e : (s.dev dev).takePkt q idx w (some s.nextId) = d1.parsed q idx := takePkt_go hg (by rw [hop]; decide) (some s.nextId)
  have hd : (withLaunch s dev q idx w).dev dev = { (s.dev dev).takePkt q idx w (some s.nextId) with
      launches := fset (s.dev dev).launches s.nextId ((s.dev dev).mkLaunch q idx w) } := State.dev_onDev ..
  obtain ⟨m, h, hf⟩ := parsed_form d1 q idx
  refine ⟨m, h, by rw [hd, e, hf], fun hc ho hi => ?_⟩
  rw [hd, qword_launches, e]
  exact parsed_rptr (d := d1) hc ho ((qword_taken ..).trans hi)

/-! ### Starting a launch -/

/-- Launch n of a device has begun at time `now`, at the level of queue a, and its KTT is held (R277, R285, R308). -/
def Begins (t : State) (dev n a : Nat) (now : Word) : Prop :=
  ∃ m, t.launch? dev n = some m ∧ m.begun = true ∧ m.level.toNat = (t.dev dev).qword a 0 / 2 ^ 27 % 4 ∧ m.startedAt = some now ∧
    (fget? (t.dev dev).ktts m.asid.toNat).isSome = true

/-- A launch that is admitted: it has begun, and its packet has started. -/
theorem admitNew_spec {s : State} {dev lid : Nat} {l : Launch} (h : s.launch? dev lid = some l) :
    ∃ k sn, (s.admitNew dev lid l).dev dev = { s.dev dev with
      pkts := (s.dev dev).pkts.map fun p => if p.launch == some lid then { p with st := .started } else p
      ready := (s.dev dev).ready.filter fun r => r != (l.q, l.idx), ktts := k
      launches := fset (s.dev dev).launches lid { l with level := BitVec.ofNat 2 (nbits ((s.dev dev).qword l.q 0) 27 2), begun := true,
                                                         startedAt := some (s.dev dev).time, codeSnap := sn } } ∧
      (fget? k l.asid.toNat).isSome = true := by
  unfold State.admitNew
  extract_lets asid s1 s2 d
  obtain ⟨k, hd, hk⟩ : ∃ k, s2.dev dev = { s.dev dev with
      pkts := (s.dev dev).pkts.map fun p => if p.launch == some lid then { p with st := .started } else p
      ready := (s.dev dev).ready.filter fun r => r != (l.q, l.idx), ktts := k } ∧ (fget? k l.asid.toNat).isSome = true := by
    refine ⟨_, (show s2.dev dev = s1.dev dev from State.dev_congr rfl dev).trans (s.dev_onDev dev _), ?_⟩
    split
    · rw [fget?_fset_self]
      rfl
    · next e => rw [e]; rfl
  have hl : s2.launch? dev lid = some l := by
    unfold State.launch?
    rw [hd]
    exact h
  refine ⟨k, s2.codeNow dev l, ?_, hk⟩
  rw [State.onLaunch_some _ hl, State.dev_onDev]
  simp only [d, hd]
  rfl

theorem admitNew_begins {s : State} {dev lid : Nat} {l : Launch} (h : s.launch? dev lid = some l) :
    Begins (s.admitNew dev lid l) dev lid l.q (s.dev dev).time := by
  obtain ⟨k, sn, e, hk⟩ := admitNew_spec h
  unfold Begins State.launch?
  rw [e]
  refine ⟨_, fget?_fset_self .., rfl, ?_, rfl, hk⟩
  change (BitVec.ofNat 2 (nbits ((s.dev dev).qword l.q 0) 27 2)).toNat = (s.dev dev).qword l.q 0 / 2 ^ 27 % 4
  rw [BitVec.toNat_ofNat, nbits]
  omega

/-- A launch starts where its packet's barrier holds nothing back and it is admitted. -/
theorem startLaunch_starts {s : State} {dev lid : Nat} {l : Launch} {p : Pkt} (h : s.launch? dev lid = some l)
    (hp : (s.dev dev).pkts.find? (fun x => x.launch == some lid) = some p) (hb : (pkBarrier p.words && earlier l.q l.idx (s.dev dev).pkts) = false)
    (ha : s.admits dev l = true) : s.startLaunch dev lid = s.admitNew dev lid l := by
  unfold State.startLaunch
  simp only [h, hp, hb, ha, Bool.not_false, Bool.and_self, if_true]

theorem startLaunch_or {s : State} {dev lid : Nat} {l : Launch} (h : s.launch? dev lid = some l) :
    s.startLaunch dev lid = s.admitNew dev lid l ∨ s.startLaunch dev lid = s := by
  unfold State.startLaunch
  simp only [h]
  exact ite_eq_or_eq ..

end Sys2Proof.Machine
end

section
/-!
PROOF. The outcomes of PACKET_LAUNCH and of READY_PACKET_START (R277, R278, R283).
-/
namespace Sys2Proof.Machine

/-! ### PACKET_LAUNCH -/

theorem withLaunch_launch? {s : State} {dev q idx : Nat} {w : BitVec 512} (hop : pkOp w = 2) (hg : (s.dev dev).holdOf q idx w = .go) :
    (withLaunch s dev q idx w).launch? dev s.nextId = some ((s.dev dev).mkLaunch q idx w) := by
  obtain ⟨m, h, e, -⟩ := dev_withLaunch hop hg
  unfold State.launch?
  rw [e]
  exact fget?_fset_self ..

/-- A launch is on record with what its packet says (R277). -/
def OnRecord (d : Device) (q idx : Nat) (w : BitVec 512) (m : Launch) : Prop :=
  m.q = q ∧ m.idx = idx ∧ m.wgcount = recFld w 14 0 32 ∧ m.codeva = (rec64 w 10).toNat ∧ m.datava = rec64 w 12 ∧ m.coop = w.getLsbD 511 ∧
    m.excl = w.getLsbD 510 ∧ m.hzdEn = w.getLsbD 509 ∧ m.hzdMode = w.getLsbD 508 ∧ m.asid.toNat = d.qword q 0 % 2 ^ 14 ∧ m.running = [] ∧ m.nextWg = 0

theorem onRecord_mkLaunch (d : Device) (q idx : Nat) (w : BitVec 512) : OnRecord d q idx w (d.mkLaunch q idx w) := by
  refine ⟨rfl, rfl, rfl, rfl, rfl, rfl, rfl, rfl, rfl, ?_, rfl, rfl⟩
  change (BitVec.ofNat 14 (nbits (d.qword q 0) 0 14)).toNat = _
  rw [BitVec.toNat_ofNat, nbits, Nat.pow_zero, Nat.div_one, Nat.mod_mod]

/-- The packet of a launch stands among the packets, whether it has started or not. -/
def HasPacket (d : Device) (q idx : Nat) (w : BitVec 512) (lid : Nat) : Prop :=
  ∃ x ∈ d.pkts, x.q = q ∧ x.idx = idx ∧ x.words = w ∧ x.launch = some lid

/-- A launch that starts keeps its packet, its record and its queue's words. -/
theorem admitNew_keeps {s : State} {dev lid q idx : Nat} {w : BitVec 512} {l : Launch} {d : Device} (h : s.launch? dev lid = some l)
    (hr : OnRecord d q idx w l) (hp : HasPacket (s.dev dev) q idx w lid) :
    HasPacket ((s.admitNew dev lid l).dev dev) q idx w lid ∧ (∀ j, ((s.admitNew dev lid l).dev dev).qword q j = (s.dev dev).qword q j) ∧
      ∃ m, (s.admitNew dev lid l).launch? dev lid = some m ∧ OnRecord d q idx w m := by
  obtain ⟨k, sn, e, -⟩ := admitNew_spec h
  obtain ⟨x, hx, h1, h2, h3, h4⟩ := hp
  unfold State.launch?
  rw [e]
  refine ⟨⟨_, List.mem_map_of_mem hx, ?_⟩, fun j => qword_congr rfl rfl rfl rfl q j, _, fget?_fset_self .., hr⟩
  split <;> exact ⟨h1, h2, h3, h4⟩

/-- A packet that no other of its queue stands before precedes none. -/
theorem earlier_last {q idx : Nat} {ps : List Pkt} {p : Pkt} (h : ∀ x ∈ ps, x.q ≠ q) (hi : p.idx = idx) : earlier q idx (ps ++ [p]) = false := by
  induction ps with
  | nil =>
    rw [List.nil_append, earlier, hi, bne_self_eq_false]
    exact ite_self _
  | cons x r ih =>
    rw [List.cons_append, earlier, if_neg fun k => h x List.mem_cons_self (eq_of_beq k)]
    exact ih fun y hy => h y (List.mem_cons_of_mem _ hy)

section
variable {s : State} {dev slot q idx : Nat} {w : BitVec 512} (hn : (s.dev dev).nextPacket slot = some (q, idx, w)) (hop : pkOp w = 2)
  (hs : s.cpStop dev ((s.dev dev).parseRanges slot (s.dev dev).launchRanges) = none) (hc : s.Canon)
include hn hop hs hc

theorem packetLaunch_refuses {err : Nat} (he : (s.dev dev).launchErr q w = some err) (h8 : err < 256) :
    ∃ t, exec (.packetLaunch dev slot) s = .next t ∧ Stopped (t.dev dev) q 1 err idx ∧ (t.dev dev).launches = (s.dev dev).launches ∧
      (t.dev dev).pkts = (s.dev dev).pkts := by
  obtain ⟨s1, e, l, hl⟩ := execPacketLaunch_refuses hn hop hs he
  refine ⟨_, e, ?_⟩
  rw [State.dev_onDev, hl]
  have hi : idx < 2 ^ 32 := (nextPacket_spec hn).2.2 ▸ qword_lt ..
  have hd : Device.canon { s.dev dev with logQueue := l } := hc.dev dev
  have ho : DescOpen { s.dev dev with logQueue := l } q := (descOpen_of hs (qdesc_mem_parseRanges hn _)).1
  obtain ⟨m, h, i, hf⟩ := stopQueue_form { s.dev dev with logQueue := l } q 1 err idx
  obtain ⟨h1, h2, h3⟩ := stopQueue_words hd ho (show 1 < 4 by decide) h8 idx
  exact ⟨⟨h1, h2, h3.trans (Nat.mod_eq_of_lt hi)⟩, by rw [hf], by rw [hf]⟩

variable (he : (s.dev dev).launchErr q w = none) (hg : (s.dev dev).holdOf q idx w = .go)
include he hg

theorem packetLaunch_takes : ∃ t, exec (.packetLaunch dev slot) s = .next t ∧ HasPacket (t.dev dev) q idx w s.nextId ∧
    (t.dev dev).qword q 5 = (idx + 1) % 2 ^ 32 ∧ ∃ m, t.launch? dev s.nextId = some m ∧ OnRecord (s.dev dev) q idx w m := by
  obtain ⟨m, h, e, hw⟩ := dev_withLaunch hop hg
  have hw := hw (hc.dev dev) (descOpen_of hs (qdesc_mem_parseRanges hn _)).1 (nextPacket_spec hn).2.2
  have hl := withLaunch_launch? hop hg
  have hr := onRecord_mkLaunch (s.dev dev) q idx w
  have hp : HasPacket ((withLaunch s dev q idx w).dev dev) q idx w s.nextId := by
    rw [e]
    exact ⟨_, List.mem_append_right _ List.mem_cons_self, rfl, rfl, rfl, rfl⟩
  obtain ⟨k1, k2, k3⟩ := admitNew_keeps hl hr hp
  refine ⟨_, execPacketLaunch_takes hn hop hs he hg, ?_⟩
  split
  · rcases startLaunch_or hl with e | e
    · rw [e]
      exact ⟨k1, (k2 5).trans hw, k3⟩
    · rw [e]
      exact ⟨hp, hw, _, hl, hr⟩
  · exact ⟨hp, hw, _, hl, hr⟩

omit hc in
/-- A LAUNCH that nothing stands before starts at once (R277). -/
theorem packetLaunch_begins (hnew : ∀ x ∈ (s.dev dev).pkts, x.launch ≠ some s.nextId) (hr : (s.dev dev).ready = [])
    (hb : ∀ x ∈ (s.dev dev).pkts, x.q = q → pkBarrier w = false) (ha : (withLaunch s dev q idx w).admits dev ((s.dev dev).mkLaunch q idx w) = true) :
    ∃ t, exec (.packetLaunch dev slot) s = .next t ∧ Begins t dev s.nextId q (s.dev dev).time := by
  obtain ⟨m, h, e, -⟩ := dev_withLaunch hop hg
  have hl := withLaunch_launch? hop hg
  have hal : ((withLaunch s dev q idx w).dev dev).alone q idx = true := by
    unfold Device.alone
    rw [e, hr]
    exact beq_self_eq_true _
  have hp : ((withLaunch s dev q idx w).dev dev).pkts.find? (fun x => x.launch == some s.nextId) =
      some { q := q, idx := idx, words := w, st := .ready, launch := some s.nextId } := by
    rw [e, List.find?_append, List.find?_eq_none.2 fun x hx k => hnew x hx (eq_of_beq k), Option.none_or]
    exact List.find?_cons_of_pos (beq_self_eq_true _)
  have hbar : (pkBarrier w && earlier ((s.dev dev).mkLaunch q idx w).q ((s.dev dev).mkLaunch q idx w).idx
      ((withLaunch s dev q idx w).dev dev).pkts) = false := by
    cases hw : pkBarrier w
    · rfl
    · rw [e]
      exact earlier_last (fun x hx k => Bool.false_ne_true ((hb x hx k).symm.trans hw)) rfl
  have hx := execPacketLaunch_takes hn hop hs he hg
  rw [if_pos hal, startLaunch_starts hl hp hbar ha] at hx
  have hbeg := admitNew_begins hl
  have ht : ((withLaunch s dev q idx w).dev dev).time = (s.dev dev).time := by rw [e]
  rw [ht] at hbeg
  exact ⟨_, hx, hbeg⟩

end

/-! ### The packet that starts next (R283) -/

/-- The better of two packets by their values: the higher, and among equals the one found first. -/
def better (f : Nat → Nat) (b : Option Nat) (k : Nat) : Option Nat := b.elim (some k) fun j => if f j < f k then some k else some j

/-- What a search through ascending numbers ends with is the first of the highest value. -/
theorem foldl_better {f : Nat → Nat} : ∀ {l : List Nat} {b : Option Nat} {k : Nat}, l.Pairwise (· < ·) → (∀ j, b = some j → ∀ x ∈ l, j < x) →
    l.foldl (better f) b = some k → (k ∈ l ∨ b = some k) ∧ ∀ j, j ∈ l ∨ b = some j → f j ≤ f k ∧ (f j = f k → k ≤ j)
  | [], b, k, _, _, h => by
    have h : b = some k := h
    refine ⟨.inr h, fun j hj => ?_⟩
    obtain rfl : k = j := by simpa [h] using hj
    exact ⟨Nat.le_refl _, fun _ => Nat.le_refl _⟩
  | x :: l, b, k, hp, hb, h => by
    obtain ⟨hx, hl⟩ := List.pairwise_cons.1 hp
    rw [List.foldl_cons] at h
    have hstep : ∃ c, better f b x = some c ∧ (c = x ∨ b = some c) ∧ ∀ j, j = x ∨ b = some j → f j ≤ f c ∧ (f j = f c → c ≤ j) := by
      cases b with
      | none => exact ⟨x, rfl, .inl rfl, fun j hj => by simp at hj; subst hj; exact ⟨Nat.le_refl _, fun _ => Nat.le_refl _⟩⟩
      | some i =>
        have hi := hb i rfl x List.mem_cons_self
        by_cases hlt : f i < f x
        · refine ⟨x, if_pos hlt, .inl rfl, fun j hj => ?_⟩
          rcases hj with rfl | hj
          · exact ⟨Nat.le_refl _, fun _ => Nat.le_refl _⟩
          · cases hj
            omega
        · refine ⟨i, if_neg hlt, .inr rfl, fun j hj => ?_⟩
          rcases hj with rfl | hj
          · omega
          · cases hj
            exact ⟨Nat.le_refl _, fun _ => Nat.le_refl _⟩
    obtain ⟨c, hc, hcb, hcm⟩ := hstep
    rw [hc] at h
    obtain ⟨h1, h2⟩ := foldl_better hl (fun j hj y hy => by
      cases hj
      rcases hcb with rfl | e
      · exact hx y hy
      · exact hb _ e y (List.mem_cons_of_mem _ hy)) h
    have hck := h2 c (.inr rfl)
    refine ⟨?_, fun j hj => ?_⟩
    · rcases h1 with h1 | h1
      · exact .inl (List.mem_cons_of_mem _ h1)
      · cases h1
        rcases hcb with rfl | e
        · exact .inl List.mem_cons_self
        · exact .inr e
    · by_cases hjl : j ∈ l
      · exact h2 j (.inl hjl)
      · have := hcm j (by simpa [hjl] using hj)
        omega

/-- The priority of packet j of the ready list. -/
def prioAt (d : Device) (j : Nat) : Nat := (d.readyPrio (d.ready[j]?.getD (0, 0))).getD 0

theorem nextReady_eq (s : State) (dev : Nat) : s.nextReady dev =
    ((upTo (min 256 (s.dev dev).ready.length)).filter (s.readyOk dev)).foldl (better (prioAt (s.dev dev))) none := by
  unfold State.nextReady
  dsimp only
  congr 1
  funext b k
  cases b <;> rfl

theorem readyOk_lt {s : State} {dev j : Nat} (h : s.readyOk dev j = true) : j < (s.dev dev).ready.length := by
  refine Nat.lt_of_not_le fun hl => ?_
  unfold State.readyOk State.released at h
  simp [List.getElem?_eq_none hl] at h

/-- The packet that starts next has the highest priority, and among equals it is the longest on the list. -/
theorem nextReady_best {s : State} {dev k : Nat} (h : s.nextReady dev = some k) : s.readyOk dev k = true ∧
    ∀ j < 256, s.readyOk dev j = true → prioAt (s.dev dev) j ≤ prioAt (s.dev dev) k ∧ (prioAt (s.dev dev) j = prioAt (s.dev dev) k → k ≤ j) := by
  rw [nextReady_eq] at h
  obtain ⟨h1, h2⟩ := foldl_better (List.Pairwise.filter _ List.pairwise_lt_range) (fun _ e => by cases e) h
  refine ⟨?_, fun j hj hok => h2 j (.inl (List.mem_filter.2 ⟨List.mem_range.2 ?_, hok⟩))⟩
  · rcases h1 with h1 | h1
    · exact (List.mem_filter.1 h1).2
    · cases h1
  · have := readyOk_lt hok
    omega

/-! ### READY_PACKET_START -/

theorem pendsAt_spec {s : State} {dev k q : Nat} (h : s.pendsAt dev k = some q) : (s.dev dev).slotOf q = none ∧
    exec (.readyPacketStart dev k) s = .next (s.onDev dev fun d => d.setPend q) := by
  refine ⟨?_, ?_⟩
  · unfold State.pendsAt at h
    split at h
    · cases h
    · split at h
      · next hc =>
        cases h
        exact Option.isNone_iff_eq_none.1 (Bool.and_eq_true_iff.1 hc).1
      · cases h
  · change execReadyPacketStart dev k s = _
    unfold execReadyPacketStart
    simp only [h]

theorem setPend_spec (d : Device) (q : Nat) : ∃ l, d.setPend q = { d with pendq := l } ∧ ∀ x, x ∈ l ↔ x ∈ d.pendq ∨ x = q := by
  unfold Device.setPend
  split
  · next h =>
    refine ⟨d.pendq, rfl, fun x => ⟨.inl, fun hx => hx.elim id fun e => ?_⟩⟩
    rw [e]
    exact List.contains_iff_mem.1 h
  · exact ⟨_, rfl, fun x => by rw [List.mem_append, List.mem_singleton]⟩

/-- The release of a packet whose queue holds no slot sets the queue's pending bit (R283). -/
theorem readyPacketStart_pends {s : State} {dev k q : Nat} (h : s.pendsAt dev k = some q) : (s.dev dev).slotOf q = none ∧
    ∃ t, exec (.readyPacketStart dev k) s = .next t ∧ SameBytes s t ∧ t.streams = s.streams ∧ (t.dev dev).ready = (s.dev dev).ready ∧
      (t.dev dev).pkts = (s.dev dev).pkts ∧ ∀ x, x ∈ (t.dev dev).pendq ↔ x ∈ (s.dev dev).pendq ∨ x = q := by
  obtain ⟨h1, h2⟩ := pendsAt_spec h
  obtain ⟨l, e, hl⟩ := setPend_spec (s.dev dev) q
  refine ⟨h1, _, h2, .onDev s dev (by rw [e]) (by rw [e]), rfl, ?_⟩
  rw [State.dev_onDev, e]
  exact ⟨rfl, rfl, hl⟩

theorem readyPacketStart_stays {s : State} {dev k : Nat} (hn : s.nextReady dev ≠ some k) (hp : s.pendsAt dev k = none) :
    exec (.readyPacketStart dev k) s = .next s := by
  change execReadyPacketStart dev k s = _
  unfold execReadyPacketStart
  simp only [hp]
  exact if_pos (bne_iff_ne.2 hn)

section
variable {s : State} {dev k : Nat} {r : Nat × Nat} {p : Pkt} (hn : s.nextReady dev = some k) (hr : (s.dev dev).ready[k]? = some r)
  (hp : (s.dev dev).pkts.find? (fun x => x.q == r.1 && x.idx == r.2) = some p)
include hn hr hp

omit hp in
/-- A packet that starts holds a slot: its release does not set the pending bit. -/
theorem pendsAt_none : s.pendsAt dev k = none := by
  have hok := (nextReady_best hn).1
  unfold State.readyOk at hok
  simp only [hr, Bool.and_eq_true] at hok
  have hs : ((s.dev dev).slotOf r.1).isNone = false := by
    have h := hok.2
    unfold Device.readyPrio at h
    cases e : (s.dev dev).slotOf r.1
    · simp [e] at h
    · rfl
  unfold State.pendsAt
  simp only [hr, hs, Bool.false_and, Bool.false_eq_true, if_false]

/-- A packet other than a LAUNCH performs as it starts (R276). -/
theorem readyPacketStart_performs (hl : p.launch = none) (hs : s.cpStop dev (((s.dev dev).qdesc p.q, 64) :: pktRanges p.words) = none) :
    exec (.readyPacketStart dev k) s = .next (s.onDev dev fun d => Device.perform { d with ready := d.ready.eraseIdx k } p.q p.idx p.words) := by
  change execReadyPacketStart dev k s = _
  unfold execReadyPacketStart State.cpAccessOr
  simp only [pendsAt_none hn hr, hn, bne_self_eq_false, Bool.false_eq_true, if_false, hr, hp, hl, hs]

/-- A LAUNCH begins as it starts (R277). -/
theorem readyPacketStart_begins {n : Nat} {l : Launch} (hl : p.launch = some n) (h : s.launch? dev n = some l) (hq : l.q = p.q) (hi : l.idx = p.idx)
    (hf : (s.dev dev).pkts.find? (fun x => x.launch == some n) = some p) :
    ∃ t, exec (.readyPacketStart dev k) s = .next t ∧ Begins t dev n l.q (s.dev dev).time := by
  have hok := (nextReady_best hn).1
  unfold State.readyOk State.released at hok
  simp only [hr, hp, hl, h, Bool.and_eq_true, Bool.not_eq_true'] at hok
  obtain ⟨⟨-, hb, ha⟩, -⟩ := hok
  refine ⟨_, ?_, admitNew_begins h⟩
  rw [← startLaunch_starts h hf (by rw [hq, hi]; exact hb) ha]
  change execReadyPacketStart dev k s = _
  unfold execReadyPacketStart
  simp only [pendsAt_none hn hr, hn, bne_self_eq_false, Bool.false_eq_true, if_false, hr, hp, hl]

end

end Sys2Proof.Machine
end

section
/-!
PROOF. Slots, the policy timer and the watchdog (R16, R283, R285, R286).
-/
namespace Sys2Proof.Machine

theorem SameBytes.onLaunch (s : State) (d lid : Nat) (f : Launch → Launch) : SameBytes s (s.onLaunch d lid f) := by
  unfold State.onLaunch
  split
  · exact .of_eq rfl rfl
  · exact .onDev s d rfl rfl

/-! ### Slots (R283) -/

/-- A queue is parsed by another slot (R283). -/
def MappedElsewhere (d : Device) (slot q : Nat) : Prop := ∃ x ∈ d.slots, x.1 ≠ slot ∧ x.2.valid = true ∧ x.2.qid = q

theorem mappedElsewhere_iff (d : Device) (slot q : Nat) :
    (d.slots.any fun p => p.1 != slot && p.2.valid && p.2.qid == q) = true ↔ MappedElsewhere d slot q := by
  unfold MappedElsewhere
  simp only [List.any_eq_true, Bool.and_eq_true, bne_iff_ne, beq_iff_eq, and_assoc]

theorem slotMap_elsewhere {s : State} {dev slot q : Nat} (prio : Nat) (h : MappedElsewhere (s.dev dev) slot q) : exec (.slotMap dev slot q prio) s = .next s := by
  change execSlotMap dev slot q prio s = _
  unfold execSlotMap
  dsimp only
  exact if_pos (Bool.or_eq_true_iff.2 (.inr ((mappedElsewhere_iff ..).2 h)))

section
variable {s : State} {dev slot q : Nat} (prio : Nat) (hf : (s.dev dev).fwRunning = true) (hs : slot < 128)
include hf hs

theorem slotUnmap_spec : ∃ t, exec (.slotUnmap dev ⟨slot, q, prio⟩) s = .next t ∧
    fget? (t.dev dev).slots slot = some ⟨q % 65536, BitVec.ofNat 4 prio, false⟩ ∧ (∀ j, j ≠ slot → fget? (t.dev dev).slots j = fget? (s.dev dev).slots j) ∧
    (t.dev dev).pkts = (s.dev dev).pkts ∧ SameBytes s t := by
  refine ⟨s.onDev dev fun d => { d with slots := fset d.slots slot ⟨q % 65536, BitVec.ofNat 4 prio, false⟩ }, ?_, ?_⟩
  · change execSlotUnmap dev ⟨slot, q, prio⟩ s = _
    unfold execSlotUnmap
    rw [hf]
    exact if_neg (by simpa using hs)
  · rw [State.dev_onDev]
    exact ⟨fget?_fset_self .., fun j hj => (fget?_fset ..).trans (if_neg hj), rfl, .onDev s dev rfl rfl⟩

variable (hq : q < 65536) (hn : ¬ MappedElsewhere (s.dev dev) slot q)
include hq hn

theorem slotMap_free : (!(s.dev dev).fwRunning || decide (128 ≤ slot) || decide (65536 ≤ q) ||
    (s.dev dev).slots.any fun p => p.1 != slot && p.2.valid && p.2.qid == q) = false := by
  rw [hf, Bool.eq_false_iff.2 fun k => hn ((mappedElsewhere_iff ..).1 k), decide_eq_false (by omega), decide_eq_false (by omega)]
  rfl

/-- SLOT_MAP of the queue that the slot parses sets its priority alone (log 37). -/
theorem slotMap_same (hv : (fget (s.dev dev).slots slot {}).valid = true ∧ (fget (s.dev dev).slots slot {}).qid = q) :
    exec (.slotMap dev slot q prio) s = .next (s.onDev dev fun v => { v with slots := fset v.slots slot ⟨q, BitVec.ofNat 4 prio, true⟩ }) := by
  have hp : (s.dev dev).parses slot q = true := Bool.and_eq_true_iff.2 ⟨hv.1, beq_iff_eq.2 hv.2⟩
  change execSlotMap dev slot q prio s = _
  unfold execSlotMap
  dsimp only
  exact (if_neg (Bool.eq_false_iff.1 (slotMap_free hf hs hq hn))).trans (if_pos hp)

/-- SLOT_MAP of another queue: it is mapped, its pending bit is clear, and a bad descriptor stops it (R273, R283). -/
theorem slotMap_new (hv : ¬ ((fget (s.dev dev).slots slot {}).valid = true ∧ (fget (s.dev dev).slots slot {}).qid = q))
    (hc : s.cpStop dev [((s.dev dev).qdesc q, 64)] = none) (hcan : s.Canon) :
    ∃ t, exec (.slotMap dev slot q prio) s = .next t ∧ fget (t.dev dev).slots slot {} = ⟨q, BitVec.ofNat 4 prio, true⟩ ∧
      (∀ j, j ≠ slot → fget? (t.dev dev).slots j = fget? (s.dev dev).slots j) ∧ (∀ x, x ∈ (t.dev dev).pendq ↔ x ∈ (s.dev dev).pendq ∧ x ≠ q) ∧
      t.ctxs = s.ctxs ∧ ((s.dev dev).descOk q = true → (t.dev dev).mem = (s.dev dev).mem ∧ (t.dev dev).msix = (s.dev dev).msix) ∧
      ((s.dev dev).descOk q = false → Stopped (t.dev dev) q 1 9 ((s.dev dev).qword q 5)) := by
  have hp : (s.dev dev).parses slot q = false := Bool.eq_false_iff.2 fun k => hv ⟨(Bool.and_eq_true_iff.1 k).1, beq_iff_eq.1 (Bool.and_eq_true_iff.1 k).2⟩
  let d1 (d : Device) : Device := { d with slots := fset d.slots slot ⟨q, BitVec.ofNat 4 prio, true⟩, pendq := d.pendq.filter fun x => x != q }
  have e : exec (.slotMap dev slot q prio) s = .next (s.onDev dev fun d => if (d1 d).descOk q then d1 d else (d1 d).stopQueue q 1 9 ((d1 d).rptr q)) := by
    change execSlotMap dev slot q prio s = _
    unfold execSlotMap State.cpAccess State.cpAccessOr
    dsimp only
    refine (if_neg (Bool.eq_false_iff.1 (slotMap_free hf hs hq hn))).trans ((if_neg (Bool.eq_false_iff.1 hp)).trans ?_)
    rw [hc]
  have hok (d : Device) : (d1 d).descOk q = d.descOk q := rfl
  have hslots (d : Device) : fget (d1 d).slots slot {} = ⟨q, BitVec.ofNat 4 prio, true⟩ ∧ (∀ j, j ≠ slot → fget? (d1 d).slots j = fget? d.slots j) ∧
      ∀ x, x ∈ (d1 d).pendq ↔ x ∈ d.pendq ∧ x ≠ q :=
    ⟨by unfold fget; rw [fget?_fset_self]; rfl, fun j hj => (fget?_fset ..).trans (if_neg hj), fun x => by simp [d1, List.mem_filter]⟩
  refine ⟨_, e, ?_⟩
  obtain ⟨h1, h2, h3⟩ := hslots (s.dev dev)
  rw [State.dev_onDev, hok]
  cases ho : (s.dev dev).descOk q
  · obtain ⟨m, h, i, hf⟩ := stopQueue_form (d1 (s.dev dev)) q 1 9 ((d1 (s.dev dev)).rptr q)
    obtain ⟨k1, k2, k3⟩ := stopQueue_words (d := d1 (s.dev dev)) (hcan.dev dev) (q := q) (descOpen_of hc List.mem_cons_self).1
      (show 1 < 4 by decide) (show 9 < 256 by decide) ((d1 (s.dev dev)).rptr q)
    rw [if_neg Bool.false_ne_true]
    refine ⟨by rw [hf]; exact h1, by rw [hf]; exact h2, by rw [hf]; exact h3, rfl, nofun, fun _ => ⟨k1, k2, k3.trans ?_⟩⟩
    exact Nat.mod_eq_of_lt (qword_lt (s.dev dev) q 5)
  · rw [if_pos rfl]
    exact ⟨h1, h2, h3, rfl, fun _ => ⟨rfl, rfl⟩, nofun⟩

end

/-! ### Asking contexts to stop (R296) -/

/-- A context is asked to stop. -/
theorem askStop_ctx (s : State) (l : Launch) (x : CtxId) :
    (s.askStop l).ctx x = if x ∈ l.running.map Prod.snd then { s.ctx x with preempt := true } else s.ctx x := by
  unfold State.askStop
  generalize l.running.map Prod.snd = xs
  induction xs generalizing s with
  | nil => rfl
  | cons y ys ih =>
    rw [List.foldl_cons, ih, State.ctx_onCtx_if]
    by_cases h1 : x = y
    · subst h1
      simp
    · simp [h1]

theorem askStop_rest (s : State) (l : Launch) : (s.askStop l).devs = s.devs ∧ SameBytes s (s.askStop l) := by
  unfold State.askStop
  exact foldl_keeps (P := fun t : State => t.devs = s.devs ∧ SameBytes s t) (f := fun s x => s.onCtx x fun c => { c with preempt := true })
    (fun t _ h => ⟨h.1, h.2.trans (.onCtx t _ rfl rfl rfl)⟩) _ ⟨rfl, .of_eq rfl rfl⟩

/-- Every context of the launches is asked to stop. -/
theorem foldl_askStop (ls : List (Nat × Launch)) : ∀ s : State, let t := ls.foldl (fun s p => s.askStop p.2) s
    t.devs = s.devs ∧ SameBytes s t ∧ ∀ x, (s.ctx x).preempt = true ∨ (∃ p ∈ ls, x ∈ p.2.running.map Prod.snd) → (t.ctx x).preempt = true := by
  induction ls with
  | nil => exact fun s => ⟨rfl, .of_eq rfl rfl, fun x h => by simpa using h⟩
  | cons p ls ih =>
    intro s
    obtain ⟨h1, h2, h3⟩ := ih (s.askStop p.2)
    obtain ⟨k1, k2⟩ := askStop_rest s p.2
    refine ⟨h1.trans k1, k2.trans h2, fun x hx => h3 x ?_⟩
    rw [askStop_ctx]
    by_cases hm : x ∈ p.2.running.map Prod.snd
    · rw [if_pos hm]
      exact .inl rfl
    · rw [if_neg hm]
      rcases hx with hx | ⟨r, hr, hx⟩
      · exact .inl hx
      · rcases List.mem_cons.1 hr with rfl | hr
        · exact absurd hx hm
        · exact .inr ⟨r, hr, hx⟩

theorem slotPreempt_spec {s : State} {dev slot : Nat} (hf : (s.dev dev).fwRunning = true) (hv : (fget (s.dev dev).slots slot {}).valid = true) :
    ∃ t, exec (.slotPreempt dev slot) s = .next t ∧ SameBytes s t ∧ t.devs = s.devs ∧ ∀ x ∈ (s.dev dev).launches,
      x.2.q = (fget (s.dev dev).slots slot {}).qid → x.2.begun = true → x.2.done = false → ∀ y ∈ x.2.running, (t.ctx y.2).preempt = true := by
  let ls := (s.dev dev).launches.filter fun p => p.2.q == (fget (s.dev dev).slots slot {}).qid && p.2.begun && !p.2.done
  obtain ⟨h1, h2, h3⟩ := foldl_askStop ls s
  refine ⟨_, ?_, h2, h1, fun x hx hq hb hd y hy => h3 y.2 (.inr ⟨x, List.mem_filter.2 ⟨hx, ?_⟩, List.mem_map_of_mem hy⟩)⟩
  · change execSlotPreempt dev slot s = _
    unfold execSlotPreempt
    dsimp only
    rw [hf, hv]
    rfl
  · rw [hq, hb, hd, beq_self_eq_true]
    rfl

/-- Without firmware nothing writes the slots (R283). -/
theorem slots_noFirmware {s : State} {dev : Nat} (slot q prio : Nat) (hf : (s.dev dev).fwRunning = false) :
    exec (.slotMap dev slot q prio) s = .next s ∧ exec (.slotUnmap dev ⟨slot, q, prio⟩) s = .next s ∧ exec (.slotPreempt dev slot) s = .next s := by
  refine ⟨?_, ?_, ?_⟩
  · change execSlotMap dev slot q prio s = _
    unfold execSlotMap
    dsimp only
    rw [hf]
    rfl
  · change execSlotUnmap dev ⟨slot, q, prio⟩ s = _
    unfold execSlotUnmap
    rw [hf]
    rfl
  · change execSlotPreempt dev slot s = _
    unfold execSlotPreempt
    dsimp only
    rw [hf]
    rfl

/-! ### The policy timer -/

theorem policyTick_spec (s : State) (dev : Nat) :
    (usTime 1000 ≤ since (s.dev dev).time (s.dev dev).tickAt → ∃ t, exec (.fwPolicyTick dev) s = .next t ∧ (t.dev dev).fwTick = true ∧
      (t.dev dev).tickAt = (s.dev dev).time ∧ SameBytes s t) ∧
      (since (s.dev dev).time (s.dev dev).tickAt < usTime 1000 → exec (.fwPolicyTick dev) s = .next s) := by
  refine ⟨fun h => ⟨s.onDev dev fun d => { d with fwTick := true, tickAt := (s.dev dev).time }, ?_, ?_⟩, fun h => ?_⟩
  · change execFwPolicyTick dev s = _
    unfold execFwPolicyTick
    exact if_neg (Nat.not_lt.2 h)
  · rw [State.dev_onDev]
    exact ⟨rfl, rfl, .onDev s dev rfl rfl⟩
  · change execFwPolicyTick dev s = _
    unfold execFwPolicyTick
    exact if_pos h

end Sys2Proof.Machine
end

section
/-!
PROOF. The watchdog (R16, R285, R286): its stages, the kill of a launch, and the fence of its cores.
-/
namespace Sys2Proof.Machine

/-! ### Stages -/

/-- Stage n of the watchdog of a queue's launches has run out since an instant: a limit of 0 turns off its stage and every later one. -/
def RanOut (d : Device) (q n : Nat) (t : Word) : Prop :=
  (∀ j < n, d.qword q (6 + j) ≠ 0) ∧ usTime (d.qword q (6 + (n - 1))) ≤ (d.time - t).toNat

theorem ranOut_iff (d : Device) (q : Nat) {n : Nat} (hn : 0 < n) (t : Word) : d.ranOut q n (some t) = true ↔ RanOut d q n t := by
  have hall : ((upTo n).all fun k => d.qword q (6 + k) != 0) = true ↔ ∀ j < n, d.qword q (6 + j) ≠ 0 := by
    simp [upTo]
  unfold Device.ranOut Device.limit RanOut since
  rw [show 6 + (n - 1) = 5 + n by omega]
  by_cases h : ∀ j < n, d.qword q (6 + j) ≠ 0
  · rw [if_pos (hall.2 h)]
    simp only [decide_eq_true_eq]
    exact ⟨fun k => ⟨h, k⟩, fun k => k.2⟩
  · rw [if_neg fun k => h (hall.1 k)]
    exact ⟨nofun, fun k => absurd k.1 h⟩

theorem mem_t1Due (l : Launch) (d : Device) (wg : Nat) :
    wg ∈ l.t1Due d ↔ ∃ x ∈ l.timers, x.1 = wg ∧ x.2.2 = none ∧ RanOut d l.q 1 x.2.1 := by
  unfold Launch.t1Due
  simp only [List.mem_map, List.mem_filter, Bool.and_eq_true, Option.isNone_iff_eq_none, ranOut_iff d l.q Nat.one_pos, and_assoc]
  exact ⟨fun ⟨x, h1, h2, h3, h4⟩ => ⟨x, h1, h4, h2, h3⟩, fun ⟨x, h1, h4, h2, h3⟩ => ⟨x, h1, h2, h3, h4⟩⟩

theorem t2Due_iff (l : Launch) (d : Device) :
    (l.timers.any fun t => d.ranOut l.q 2 t.2.2) = true ↔ ∃ x ∈ l.timers, ∃ t1, x.2.2 = some t1 ∧ RanOut d l.q 2 t1 := by
  rw [List.any_eq_true]
  refine exists_congr fun x => and_congr_right fun _ => ?_
  cases h : x.2.2 with
  | none => exact ⟨fun k => by simp [Device.ranOut] at k, nofun⟩
  | some t1 =>
    rw [ranOut_iff d l.q Nat.two_pos]
    exact ⟨fun k => ⟨t1, rfl, k⟩, fun ⟨_, e, k⟩ => by cases e; exact k⟩

theorem wdog_spec (s : State) (dev : Nat) : (s.wdog dev).dev dev = { s.dev dev with fwWdog := true } ∧ SameBytes s (s.wdog dev) :=
  ⟨State.dev_onDev .., .onDev s dev rfl rfl⟩

/-! ### T1: contexts are asked to stop -/

section
variable {s : State} {dev lid : Nat} {l : Launch} (h : s.launch? dev lid = some l) (hd : l.done = false)
include h

theorem watchdogT1_stays (hw : l.t1Due (s.dev dev) = []) : exec (.watchdogT1 dev lid) s = .next s := by
  change execWatchdogT1 dev lid s = _
  unfold execWatchdogT1
  simp only [h, hw, List.isEmpty_nil, Bool.or_true, if_true]

include hd in
theorem watchdogT1_asks (hw : l.t1Due (s.dev dev) ≠ []) : ∃ t, exec (.watchdogT1 dev lid) s = .next t ∧ SameBytes s t ∧ (t.dev dev).fwWdog = true ∧
    (∀ y ∈ l.running, l.coop = true ∨ y.1 ∈ l.t1Due (s.dev dev) → (t.ctx y.2).preempt = true) ∧
    (∀ x, (∀ y ∈ l.running, y.2 = x → l.coop = false ∧ y.1 ∉ l.t1Due (s.dev dev)) → t.ctx x = s.ctx x) ∧
    ∃ m, t.launch? dev lid = some m ∧
      m.timers = l.timers.map fun x => if (l.t1Due (s.dev dev)).contains x.1 = true then (x.1, x.2.1, some (s.dev dev).time) else x := by
  let ws := l.t1Due (s.dev dev)
  let l' : Launch := { l with running := l.running.filter fun p => l.coop || ws.contains p.1 }
  have hm (x : CtxId) : x ∈ l'.running.map Prod.snd ↔ ∃ y ∈ l.running, y.2 = x ∧ (l.coop = true ∨ y.1 ∈ ws) := by
    simp only [l', List.mem_map, List.mem_filter, Bool.or_eq_true, List.contains_iff_mem]
    exact ⟨fun ⟨y, ⟨h1, h2⟩, h3⟩ => ⟨y, h1, h3, h2⟩, fun ⟨y, h1, h3, h2⟩ => ⟨y, ⟨h1, h2⟩, h3⟩⟩
  obtain ⟨h1, h2⟩ := askStop_rest s l'
  have hl : (s.askStop l').launch? dev lid = some l := by
    unfold State.launch?
    rw [State.dev_congr h1]
    exact h
  have e : exec (.watchdogT1 dev lid) s = .next (((s.askStop l').onLaunch dev lid fun l => l.fireT1 ws (s.dev dev).time).wdog dev) := by
    change execWatchdogT1 dev lid s = _
    unfold execWatchdogT1
    simp only [h, hd, Bool.false_or]
    exact if_neg fun k => hw (List.isEmpty_iff.1 k)
  obtain ⟨k1, k2⟩ := wdog_spec ((s.askStop l').onLaunch dev lid fun l => l.fireT1 ws (s.dev dev).time) dev
  have hctx (x : CtxId) : ((((s.askStop l').onLaunch dev lid fun l => l.fireT1 ws (s.dev dev).time).wdog dev).ctx x) = (s.askStop l').ctx x :=
    State.ctx_onLaunch ..
  refine ⟨_, e, (h2.trans (.onLaunch ..)).trans k2, by rw [k1], fun y hy hc => ?_, fun x hx => ?_, l.fireT1 ws (s.dev dev).time, ?_, rfl⟩
  · rw [hctx, askStop_ctx, if_pos ((hm y.2).2 ⟨y, hy, rfl, hc⟩)]
  · rw [hctx, askStop_ctx, if_neg]
    intro k
    obtain ⟨y, hy, he, hc⟩ := (hm x).1 k
    obtain ⟨n1, n2⟩ := hx y hy he
    rcases hc with hc | hc
    · exact Bool.false_ne_true (n1.symm.trans hc)
    · exact n2 hc
  · have hlu := (State.launch?_onLaunch (s.askStop l') dev lid fun l => l.fireT1 ws (s.dev dev).time).trans (congrArg _ hl)
    unfold State.launch? at hlu ⊢
    rw [k1]
    exact hlu

end

/-! ### T2: the launch is killed -/

/-- Contexts are killed one after another: they are as new, and of the devices the token rings alone have changed. -/
theorem foldl_killCtx : ∀ (xs : List CtxId) (s : State), let t := xs.foldl State.killCtx s
    (∀ y, t.ctx y = if y ∈ xs then {} else s.ctx y) ∧
      ∀ d, ∃ fs, t.dev d = { s.dev d with fields := fs } ∧ fs.map Field.state = (s.dev d).fields.map Field.state
  | [], s => ⟨fun y => (if_neg List.not_mem_nil).symm, fun d => ⟨_, rfl, rfl⟩⟩
  | x :: xs, s => by
    obtain ⟨h1, h2⟩ := foldl_killCtx xs (s.killCtx x)
    have hk := killCtx_frees s x
    refine ⟨fun y => ?_, fun d => ?_⟩
    · rw [List.foldl_cons, h1, hk.ctx]
      by_cases e : y = x
      · rw [if_pos e, ite_self, if_pos (List.mem_cons.2 (.inl e))]
      · simp only [List.mem_cons, e, false_or, if_false]
    · obtain ⟨fs, e, hf⟩ := hk.dev d
      obtain ⟨gs, e', hg⟩ := h2 d
      refine ⟨gs, by rw [List.foldl_cons, e', e], hg.trans ?_⟩
      rw [e]
      exact hf

theorem homeState_congr {d e : Device} (h : e.fields.map Field.state = d.fields.map Field.state) (n a : Nat) : e.homeState n a = d.homeState n a := by
  have hall (d : Device) : (d.fields.toList.all fun f => f.state == 2#3) = (d.fields.map Field.state).toList.all fun x => x == 2#3 := by
    rw [Vector.toList_map, List.all_map]
    rfl
  have hn (d : Device) (f : Nat) : (d.fieldN f).state = (d.fields.map Field.state)[f % 8]'(Nat.mod_lt _ (by decide)) := by
    rw [Vector.getElem_map]
    rfl
  unfold Device.homeState
  rw [hall, hall, hn, hn]
  simp only [h]

theorem releaseKtt_form (d : Device) (a : Nat) : ∃ k, d.releaseKtt a = { d with ktts := k } := by
  unfold Device.releaseKtt
  split <;> exact ⟨_, rfl⟩

/-- A kill's write to its queue: STATE and ERR at once where the descriptor is served, and later where it is not (R314). -/
theorem killQueue_served {d : Device} {n q : Nat} (h : d.descServed n q = true) (idx : Nat) : d.killQueue n q idx = d.stopQueue q 2 8 idx := if_pos h
theorem killQueue_later {d : Device} {n q : Nat} (h : d.descServed n q = false) (idx : Nat) :
    d.killQueue n q idx = { d with stops := d.stops ++ [(q, idx)] } := if_neg (Bool.eq_false_iff.1 h)

/-- The device before a kill stops the queue of its launch: the launch is done, and its packet and its images are gone. -/
def killedDev (v : Device) (lid : Nat) (l : Launch) : Device :=
  { v with launches := fset v.launches lid { l with done := true, running := [], savedWgs := [], batch := [] }
           pkts := v.pkts.filter fun p => p.launch != some lid, ready := v.ready.filter fun r => !(r.1 == l.q && r.2 == l.idx)
           images := v.images.filter fun p => p.2.launch != lid }

section
variable {s : State} {dev lid : Nat} {l : Launch} (h : s.launch? dev lid = some l) (hd : l.done = false)
include h hd

/-- A kill frees the contexts of its launch, pins the stores that are on their way, and stops its queue (R285). -/
theorem killLaunch_eq : ∃ r, s.killLaunch dev lid =
    ((((l.running.map Prod.snd).foldl State.killCtx s).pinStores dev l.asid.toNat).onDev dev fun v =>
      ((killedDev v lid l).killQueue dev l.q l.idx).releaseKtt l.asid.toNat).logRec dev r := by
  obtain ⟨-, hdv⟩ := foldl_killCtx (l.running.map Prod.snd) s
  obtain ⟨fs, hf, -⟩ := hdv dev
  have hl : (((l.running.map Prod.snd).foldl State.killCtx s).pinStores dev l.asid.toNat).launch? dev lid = some l := by
    change fget? (((l.running.map Prod.snd).foldl State.killCtx s).dev dev).launches lid = _
    rw [hf]
    exact h
  refine ⟨⟨Config.killCause s.clock, 0, 0, 0, 0, (s.dev dev).time⟩, ?_⟩
  unfold State.killLaunch
  simp only [h, hd, Bool.false_eq_true, if_false]
  rw [State.onLaunch_some _ hl, State.onDev_onDev]
  rfl

theorem killLaunch_ctx : ∀ y ∈ l.running, ((s.killLaunch dev lid).ctx y.2).live = none := by
  intro y hy
  obtain ⟨r, e⟩ := killLaunch_eq h hd
  rw [e]
  exact congrArg Ctx.live (((foldl_killCtx (l.running.map Prod.snd) s).1 y.2).trans (if_pos (List.mem_map_of_mem hy)))

theorem killLaunch_dev : ∃ fs k lq, fs.map Field.state = (s.dev dev).fields.map Field.state ∧
    (s.killLaunch dev lid).dev dev =
      { (killedDev { s.dev dev with fields := fs } lid l).killQueue dev l.q l.idx with ktts := k, logQueue := lq } := by
  obtain ⟨r, e⟩ := killLaunch_eq h hd
  obtain ⟨fs, hf, hst⟩ := (foldl_killCtx (l.running.map Prod.snd) s).2 dev
  obtain ⟨k, hk⟩ := releaseKtt_form ((killedDev { s.dev dev with fields := fs } lid l).killQueue dev l.q l.idx) l.asid.toNat
  let lq := ((killedDev { s.dev dev with fields := fs } lid l).killQueue dev l.q l.idx).logQueue
  refine ⟨fs, k, lq ++ [r], hst, ?_⟩
  rw [e, State.logRec, State.dev_onDev, State.dev_onDev]
  rw [show (((l.running.map Prod.snd).foldl State.killCtx s).pinStores dev l.asid.toNat).dev dev =
    ((l.running.map Prod.snd).foldl State.killCtx s).dev dev from rfl, hf, hk]

end

theorem completing_iff (s : State) (l : Launch) : s.completing l = true ↔
    l.nextWg = l.wgcount ∧ l.batch = [] ∧ l.savedWgs = [] ∧ ∀ y ∈ l.running, s.mayRetire y.2 = true := by
  unfold State.completing
  simp only [Bool.and_eq_true, beq_iff_eq, List.isEmpty_iff, List.all_eq_true, and_assoc]

theorem qword_rest (d : Device) (k : FMap Nat Ktt) (lq : List LogRec) (L : FMap Nat Launch) (b : Bool) (q j : Nat) :
    Device.qword { d with ktts := k, logQueue := lq, launches := L, fwWdog := b } q j = d.qword q j := rfl

theorem launches_killQueue (d : Device) (n q idx : Nat) : (d.killQueue n q idx).launches = d.launches := by
  unfold Device.killQueue
  split
  · obtain ⟨m, h, i, e⟩ := stopQueue_form d q 2 8 idx
    rw [e]
  · rfl

/-- A kill finds the descriptor of its queue served or not as it was before its contexts were killed. -/
theorem descServed_killedDev {d : Device} {fs : Vector Field 8} (h : fs.map Field.state = d.fields.map Field.state) (lid : Nat) (l : Launch) (n q : Nat) :
    (killedDev { d with fields := fs } lid l).descServed n q = d.descServed n q := by
  unfold Device.descServed
  rw [homeState_congr (d := d) h]
  rfl

section
variable {s : State} {dev lid : Nat} {l : Launch} (h : s.launch? dev lid = some l) (hd : l.done = false)
include h hd

theorem watchdogT2_stays (hn : ¬ ((l.timers.any fun t => (s.dev dev).ranOut l.q 2 t.2.2) = true) ∨ s.completing l = true) :
    exec (.watchdogT2 dev lid) s = .next s := by
  change execWatchdogT2 dev lid s = _
  unfold execWatchdogT2
  simp only [h, hd, Bool.false_or]
  refine if_pos ?_
  rw [Bool.or_eq_true, Bool.not_eq_true']
  exact hn.imp_left Bool.eq_false_iff.2

variable (hc : s.Canon) (hr : (l.timers.any fun t => (s.dev dev).ranOut l.q 2 t.2.2) = true) (hn : s.completing l = false)
include hc hr hn

/-- T2 kills the launch: its contexts are free, its queue is stopped with KILLED, at once or once its descriptor is served, and the launch is done. -/
theorem watchdogT2_kills : ∃ t, exec (.watchdogT2 dev lid) s = .next t ∧ (∀ y ∈ l.running, (t.ctx y.2).live = none) ∧
    (s.cpStop dev [((s.dev dev).qdesc l.q, 64)] = none → (t.dev dev).qword l.q 0 / 2 ^ 29 % 4 = 2 ∧ (t.dev dev).qword l.q 9 = 8 * 2 ^ 24) ∧
    (t.dev dev).fwWdog = true ∧ ((s.dev dev).descServed dev l.q = false → (t.dev dev).stops = (s.dev dev).stops ++ [(l.q, l.idx)]) ∧
    ∃ m, t.launch? dev lid = some m ∧ m.done = true ∧ m.t2at = some (s.dev dev).time ∧ m.lost = l.running.map Prod.snd := by
  obtain ⟨fs, k, lq, hst, hdev⟩ := killLaunch_dev h hd
  let dk := killedDev { s.dev dev with fields := fs } lid l
  let f (k : Launch) : Launch := { k with t2at := some (s.dev dev).time, lost := l.running.map Prod.snd }
  have hl : (s.killLaunch dev lid).launch? dev lid = some { l with done := true, running := [], savedWgs := [], batch := [] } := by
    unfold State.launch?
    rw [hdev]
    exact (congrArg (fget? · lid) (launches_killQueue dk dev l.q l.idx)).trans (fget?_fset_self ..)
  have e : exec (.watchdogT2 dev lid) s = .next (((s.killLaunch dev lid).onLaunch dev lid f).wdog dev) := by
    change execWatchdogT2 dev lid s = _
    unfold execWatchdogT2
    simp only [h, hd, hr, hn, Bool.not_true, Bool.or_false, Bool.false_eq_true, if_false]
    rfl
  obtain ⟨L, hL, hLl⟩ : ∃ L, (((s.killLaunch dev lid).onLaunch dev lid f).wdog dev).dev dev =
      { dk.killQueue dev l.q l.idx with ktts := k, logQueue := lq, launches := L, fwWdog := true } ∧
      fget? L lid = some (f { l with done := true, running := [], savedWgs := [], batch := [] }) := by
    refine ⟨_, ?_, fget?_fset_self (dk.killQueue dev l.q l.idx).launches lid _⟩
    rw [(wdog_spec _ dev).1, State.onLaunch_some f hl, State.dev_onDev, hdev]
  have hw (j : Nat) : ((((s.killLaunch dev lid).onLaunch dev lid f).wdog dev).dev dev).qword l.q j = (dk.killQueue dev l.q l.idx).qword l.q j := by
    rw [hL]
    exact qword_rest ..
  have hserved := descServed_killedDev hst lid l dev l.q
  refine ⟨_, e, fun y hy => ?_, fun hs => ?_, by rw [hL], fun hs => ?_, _, (congrArg (fun d : Device => fget? d.launches lid) hL).trans hLl, rfl, rfl, rfl⟩
  · exact (congrArg Ctx.live (State.ctx_onLaunch ..)).trans (killLaunch_ctx h hd y hy)
  · obtain ⟨ho, hv⟩ := descOpen_of hs List.mem_cons_self
    obtain ⟨h1, h2, -⟩ := stopQueue_words (d := dk) (hc.dev dev) (q := l.q) ho (show 2 < 4 by decide) (show 8 < 256 by decide) l.idx
    rw [hw, hw, killQueue_served (hserved.trans hv)]
    exact ⟨h1, h2⟩
  · rw [hL, killQueue_later (hserved.trans hs)]
    rfl

end

/-! ### T3: cores are fenced -/

theorem mem_unstopped (s : State) (l : Launch) (c : CoreId) : c ∈ s.unstopped l ↔
    c ∈ l.lost.filterMap fun x => if ((s.core x.core).paths.any fun i => i.x == x) = true then some x.core else none := by
  unfold State.unstopped
  simp only [List.mem_eraseDups, List.mem_map, List.mem_filter, List.mem_filterMap, Option.ite_none_right_eq_some, Option.some.injEq, and_assoc]

/-- Cores are fenced one after another: their paths are empty, and no byte has changed. -/
theorem foldl_fence (asid : BitVec 14) : ∀ (cs : List CoreId) (s : State), let t := cs.foldl (fun s c => s.fence asid c) s
    SameBytes s t ∧ ∀ c, (c ∈ cs ∨ ((s.core c).fenced = true ∧ (s.core c).paths = []) → (t.core c).fenced = true ∧ (t.core c).paths = []) ∧
      (c ∉ cs → t.core c = s.core c)
  | [], s => ⟨.of_eq rfl rfl, fun c => ⟨fun h => h.resolve_left List.not_mem_nil, fun _ => rfl⟩⟩
  | x :: cs, s => by
    obtain ⟨h1, h2⟩ := foldl_fence asid cs (s.fence asid x)
    have hb : SameBytes s (s.fence asid x) := by
      unfold State.fence State.logFault State.logRec
      exact ((SameBytes.onCore s x _).trans (.onDev _ _ rfl rfl)).trans (.onDev _ _ rfl rfl)
    have hcore (c : CoreId) : (s.fence asid x).core c = if c = x then { s.core x with fenced := true, paths := [] } else s.core c :=
      State.core_onCore_if s x c fun k => { k with fenced := true, paths := [] }
    refine ⟨hb.trans h1, fun c => ⟨fun hc => (h2 c).1 ?_, fun hc => ?_⟩⟩
    · rw [hcore]
      by_cases e : c = x
      · rw [if_pos e]
        exact .inr ⟨rfl, rfl⟩
      · rw [if_neg e]
        exact hc.imp_left fun hm => (List.mem_cons.1 hm).resolve_left e
    · obtain ⟨n1, n2⟩ := not_or.1 fun k => hc (List.mem_cons.2 k)
      exact ((h2 c).2 n2).trans ((hcore c).trans (if_neg n1))

section
variable {s : State} {dev lid : Nat} {l : Launch} {t0 : Word} (h : s.launch? dev lid = some l) (ht : l.t2at = some t0)
include h ht

theorem watchdogT3_stays (hn : ¬ (s.unstopped l ≠ [] ∧ RanOut (s.dev dev) l.q 3 t0)) : exec (.watchdogT3 dev lid) s = .next s := by
  change execWatchdogT3 dev lid s = _
  unfold execWatchdogT3
  simp only [h, ht]
  refine if_pos (Bool.or_eq_true_iff.2 ?_)
  rw [List.isEmpty_iff, Bool.not_eq_true', ← Bool.not_eq_true, ranOut_iff _ _ (by decide)]
  exact Classical.or_iff_not_imp_left.2 fun k r => hn ⟨k, r⟩

theorem watchdogT3_fences (hl : s.unstopped l ≠ []) (hr : RanOut (s.dev dev) l.q 3 t0) : ∃ t, exec (.watchdogT3 dev lid) s = .next t ∧ SameBytes s t ∧
    (∀ c ∈ s.unstopped l, (t.core c).fenced = true ∧ (t.core c).paths = []) ∧ ∀ c, c ∉ s.unstopped l → t.core c = s.core c := by
  obtain ⟨h1, h2⟩ := foldl_fence l.asid (s.unstopped l) s
  let t1 := (s.unstopped l).foldl (fun s c => s.fence l.asid c) s
  have e : exec (.watchdogT3 dev lid) s = .next ((t1.onLaunch dev lid fun l => { l with t2at := none }).wdog dev) := by
    change execWatchdogT3 dev lid s = _
    unfold execWatchdogT3
    simp only [h, ht]
    refine if_neg fun k => ?_
    rw [Bool.or_eq_true, List.isEmpty_iff, Bool.not_eq_true', ← Bool.not_eq_true, ranOut_iff _ _ (by decide)] at k
    exact k.elim hl fun k => k hr
  have hcore (c : CoreId) : ((t1.onLaunch dev lid fun l => { l with t2at := none }).wdog dev).core c = t1.core c := State.core_onLaunch ..
  refine ⟨_, e, (h1.trans (.onLaunch ..)).trans (wdog_spec _ dev).2, fun c hc => ?_, fun c hc => ?_⟩
  · rw [hcore]
    exact (h2 c).1 (.inl hc)
  · rw [hcore]
    exact (h2 c).2 hc

end

end Sys2Proof.Machine
end

section
/-! PROOF. The obligation on launches, slots and the watchdog. -/
namespace Sys2Proof
open Sys2Proof.Machine Sys2Proof.Claims

/-- What is on record is what a lookup finds. -/
theorem elim_of_some {α : Type} {o : Option α} {P : α → Prop} (h : ∃ m, o = some m ∧ P m) : o.elim False P := by
  obtain ⟨m, rfl, hm⟩ := h
  exact hm

/-- Settles O53: each clause goes by the lemma on its action's outcome. What is written into a descriptor is read back since its lines are served,
so that it lies where bytes are; the packet that starts next is what a search through ascending places ends with; and a kill finds the descriptor of its
queue served or not as it was, the states of the fields being no part of what killing contexts changes. -/
theorem launchesAndSlots : Obligations.LaunchesAndSlots := by
  unfold Obligations.LaunchesAndSlots
  intro s dev slot q idx k lid err w r p l prio t0 hc d word state stopped l0 s2 begins pr asked age limit out late served due1 due2 whole ws parsed
  have hlate : s.unstopped l ≠ [] ↔ late ≠ [] := by
    have hm : ∀ c, c ∈ s.unstopped l ↔ c ∈ late := mem_unstopped s l
    exact not_congr (by rw [List.eq_nil_iff_forall_not_mem, List.eq_nil_iff_forall_not_mem]; exact forall_congr' fun c => not_congr (hm c))
  refine ⟨fun hn _ hop hs => ⟨launchErr_malformed, packetLaunch_refuses hn hop hs hc, fun he hg hnew => ?_⟩, readyPacketStart_stays, readyPacketStart_pends,
    nextReady_best, fun hn hr hp => ⟨fun hl hs => ⟨_, readyPacketStart_performs hn hr hp hl hs, rfl, rfl, State.dev_onDev ..⟩,
      fun n hl h hq hi hf => readyPacketStart_begins hn hr hp hl h hq hi hf⟩, fun _ _ _ h => slotMap_elsewhere prio h, fun hf hs hq hn => ?_,
    fun hf hs => slotUnmap_spec prio hf hs, slotPreempt_spec, slots_noFirmware slot q prio, policyTick_spec s dev, fun h hd => ⟨⟨fun wg => mem_t1Due l d wg,
      fun hw => ?_, watchdogT1_stays h⟩, fun hr hn => ?_, fun hn => ?_⟩, fun h ht => ⟨fun hl hr => ?_, fun hn => ?_⟩⟩
  · obtain ⟨t, e, h1, h2, h3⟩ := packetLaunch_takes hn hop hs hc he hg
    refine ⟨t, e, h1, h2, elim_of_some h3, fun hr hb ha => ?_⟩
    obtain ⟨t', e', hbeg⟩ := packetLaunch_begins hn hop hs he hg hnew hr hb ha
    cases e.symm.trans e'
    exact hbeg
  · have hno : ¬ MappedElsewhere d slot q := fun ⟨x, hx, h1, h2, h3⟩ => hn x hx h1 h2 h3
    exact ⟨fun hv => ⟨_, slotMap_same prio hf hs hq hno hv, rfl⟩, fun hv hs' => slotMap_new prio hf hs hq hno hv hs' hc⟩
  · obtain ⟨t, e, h1, h2, h3, h4, h5⟩ := watchdogT1_asks h hd hw
    exact ⟨t, e, h1, h2, h3, h4, elim_of_some h5⟩
  · obtain ⟨t, e, h1, h2, h3, h4, h5⟩ := watchdogT2_kills h hd hc ((t2Due_iff l d).2 hr) (Bool.eq_false_iff.2 fun k => hn ((completing_iff s l).1 k))
    exact ⟨t, e, h1, h2, h3, h4, elim_of_some h5⟩
  · exact watchdogT2_stays h hd (hn.imp (mt (t2Due_iff l d).1) (completing_iff s l).2)
  · obtain ⟨t, e, h1, h2, h3⟩ := watchdogT3_fences h ht (hlate.2 hl) hr
    exact ⟨t, e, h1, fun c hm => h2 c ((mem_unstopped s l c).2 hm), fun c hm => h3 c (mt (mem_unstopped s l c).1 hm)⟩
  · exact watchdogT3_stays h ht fun k => hn ⟨hlate.1 k.1, k.2⟩

end Sys2Proof
end

section
/-!
PROOF. Elements of a vector as numbers and as bit patterns (R183), and the byte lanes of the active ones (R184).
-/
namespace Sys2Proof.Machine
open Sys2Proof.Claims

/-! ### Lists of elements -/

theorem elemsFrom_length (n w x : Nat) : (elemsFrom n w x).length = n := by
  induction n generalizing x with
  | zero => rfl
  | succ n ih => simp [elemsFrom, ih]

theorem elemsFrom_getElem? {n w k : Nat} (x : Nat) (hk : k < n) : (elemsFrom n w x)[k]? = some (x / 2 ^ (w * k) % 2 ^ w) := by
  induction n generalizing x k with
  | zero => omega
  | succ n ih =>
    cases k with
    | zero => simp [elemsFrom]
    | succ k =>
      rw [elemsFrom, List.getElem?_cons_succ, ih _ (Nat.lt_of_succ_lt_succ hk), Nat.div_div_eq_div_mul, ← Nat.pow_add, Nat.mul_succ, Nat.add_comm w]

@[simp] theorem elems_length (v : Vec) (w n : Nat) : (elems v w n).length = n := elemsFrom_length ..

theorem elems_getElem? {n k : Nat} (v : Vec) (w : Nat) (hk : k < n) : (elems v w n)[k]? = some (elt w v k).toNat := by
  rw [elems, elemsFrom_getElem? _ hk, elt, BitVec.extractLsb'_toNat, Nat.shiftRight_eq_div_pow]

theorem elems_getElem {n k : Nat} (v : Vec) (w : Nat) (hk : k < (elems v w n).length) : (elems v w n)[k] = (elt w v k).toNat :=
  Option.some.inj ((List.getElem?_eq_getElem hk).symm.trans (elems_getElem? v w (by simpa using hk)))

theorem packElems_lt (w : Nat) (xs : List Nat) : packElems w xs < 2 ^ (w * xs.length) := by
  induction xs with
  | nil => simp [packElems]
  | cons x r ih =>
    have hx : x % 2 ^ w < 2 ^ w := Nat.mod_lt _ (Nat.two_pow_pos w)
    calc packElems w (x :: r) < 2 ^ w * (packElems w r + 1) := by rw [packElems, Nat.mul_add]; omega
      _ ≤ 2 ^ w * 2 ^ (w * r.length) := Nat.mul_le_mul_left _ ih
      _ = 2 ^ (w * (x :: r).length) := by rw [← Nat.pow_add, List.length_cons, Nat.mul_succ, Nat.add_comm]

theorem packElems_element (w : Nat) (xs : List Nat) {k : Nat} (hk : k < xs.length) : packElems w xs / 2 ^ (w * k) % 2 ^ w = xs[k] % 2 ^ w := by
  induction xs generalizing k with
  | nil => simp at hk
  | cons x r ih =>
    cases k with
    | zero => simp [packElems]
    | succ k =>
      have hx : (x % 2 ^ w + 2 ^ w * packElems w r) / 2 ^ w = packElems w r := by
        rw [Nat.add_mul_div_left _ _ (Nat.two_pow_pos w), Nat.div_eq_of_lt (Nat.mod_lt _ (Nat.two_pow_pos w)), Nat.zero_add]
      rw [packElems, Nat.mul_succ, Nat.add_comm (w * k), Nat.pow_add, ← Nat.div_div_eq_div_mul, hx]
      exact ih (Nat.lt_of_succ_lt_succ hk)

/-- An element of a vector that elements make, as far as they fit into it. -/
theorem elt_ofElems {w : Nat} {xs : List Nat} (hw : w * xs.length ≤ 1024) {k : Nat} (hk : k < xs.length) :
    elt w (ofElems w xs) k = BitVec.ofNat w xs[k] := by
  have hp := (packElems_lt w xs).trans_le (Nat.pow_le_pow_right Nat.two_pos hw)
  apply BitVec.eq_of_toNat_eq
  rw [elt, BitVec.extractLsb'_toNat, ofElems, BitVec.toNat_ofNat, Nat.mod_eq_of_lt hp, Nat.shiftRight_eq_div_pow, packElems_element w xs hk,
    BitVec.toNat_ofNat]

/-! ### Active lanes (R184) -/

theorem testBit_activeFrom (n : Nat) {sz b : Nat} (m : Nat) (hb : b < n * sz) :
    (activeFrom n sz m).testBit b = m.testBit (b / sz * sz) := by
  induction n generalizing m b with
  | zero => omega
  | succ n ih =>
    have hlow : (if m % 2 = 1 then 2 ^ sz - 1 else 0) < 2 ^ sz := by
      have := Nat.two_pow_pos sz
      split <;> omega
    rw [activeFrom, Nat.add_comm, Nat.testBit_two_pow_mul_add _ hlow]
    by_cases h : b < sz
    · rw [if_pos h, Nat.div_eq_of_lt h, Nat.zero_mul, Nat.testBit_zero]
      by_cases h1 : m % 2 = 1 <;> simp [h1, h]
    · have hle : sz ≤ b := Nat.le_of_not_lt h
      have hsz : 0 < sz := by
        rcases Nat.eq_zero_or_pos sz with rfl | h0
        · omega
        · exact h0
      have hq : b / sz * sz = (b - sz) / sz * sz + sz := by
        rw [Nat.div_eq_sub_div hsz hle, Nat.succ_mul]
      rw [if_neg h, ih _ (by rw [Nat.succ_mul] at hb; omega), Nat.testBit_div_two_pow, hq]

theorem activeLanes_spec {sz : Nat} (hsz : sz ∣ 128) (m : Pred) : ActiveLanes sz m (activeLanes sz m) := by
  intro b hb
  unfold activeLanes
  split
  · next h =>
    have hle : b / sz * sz < 128 := (Nat.div_mul_le_self b sz).trans_lt hb
    rw [beq_iff_eq.1 h, allLanes, BitVec.getLsbD_allOnes, BitVec.getLsbD_allOnes]
    simp [hb, hle]
  · rw [BitVec.getLsbD_ofNat, testBit_activeFrom _ _ (by rwa [Nat.div_mul_cancel hsz])]
    simp [hb, BitVec.getLsbD]

end Sys2Proof.Machine
end

section
/-!
PROOF. The issue of a vector instruction that nothing holds, and what a masked one computes (R36, R184 to R188).
-/
namespace Sys2Proof.Machine
open Sys2Proof.Claims

/-- Registers that may be named and queues with an entry hold no instruction (R36, R185, R186). -/
theorem vecHold_usable {s : State} {regs : List (BitVec 6)} {qs : List (BitVec 2)} (hu : Usable s regs) (hq : ∀ k ∈ qs, s.st.qEmpty k = false)
    (reads writes : List Reg) (lat : Nat) : s.vecHold regs reads qs writes lat = none := by
  obtain ⟨hbank, hret, hhzd⟩ := hu
  have hon : (regs.any fun r => !bankOn s.vbanks r) = false := by simpa [bankOn] using hbank
  have hawake : s.st.retained regs = 0#4 := by simp [Stream.retained, hret]
  have hfull : qs.any s.st.qEmpty = false := by simpa using hq
  simp [State.vecHold, hon, hawake, hfull, hhzd]

/-- An instruction that nothing holds acts on the stream, takes its queue entries and goes on. -/
theorem vecIssue_usable {s : State} {regs : List (BitVec 6)} {qs : List (BitVec 2)} (hu : Usable s regs) (hq : ∀ k ∈ qs, s.st.qEmpty k = false)
    (reads writes : List Reg) (lat : Nat) (eff : Nat → Stream → Stream) (n : Word) :
    s.vecIssue regs reads qs writes lat eff n = .next ((s.onSt fun st => (eff (now s) st).popQs qs).adv n) := by
  rw [State.vecIssue, vecHold_usable hu hq reads writes lat]
  rfl

/-- A masked instruction of two sources that nothing holds leaves its result pending in the active lanes of vD (R184, R185). -/
theorem vop3_usable {s : State} {q : Bool} {vd vx vy : BitVec 6} (hu : Usable s (s.vreg vd :: srcRegs [s.vsrc q vx, s.vsrc q vy]))
    (hq : ∀ k ∈ srcQs [s.vsrc q vx, s.vsrc q vy], s.st.qEmpty k = false) (sz : Nat) (pm : BitVec 3) (useD : Bool) (lat : Nat)
    (f : Nat → Nat → Nat → Nat) :
    let els (v : Vec) := elems v (8 * sz) (128 / sz)
    ∃ t, s.vop3 sz pm q vd [vx, vy] useD lat f = .next t ∧
      Passed s t ((landing s.st (now s + lat) (.v (s.vreg vd))
        (ofElems (8 * sz) (List.zipWith (fun xy z => f xy.1 xy.2 z) ((els (s.st.vval (s.vsrc q vx))).zip (els (s.st.vval (s.vsrc q vy))))
          (els (s.st.rv (s.vreg vd)))))
        (activeLanes sz (s.st.rp (s.preg (pmName pm))))).popQs (srcQs [s.vsrc q vx, s.vsrc q vy])) 4 := by
  unfold State.vop3
  dsimp only [List.map]
  rw [vecIssue_usable hu hq]
  exact ⟨_, rfl, went_adv s _ 4 rfl⟩

/-- A masked instruction of two sources computes `g` element by element where `f` does so on the numbers of the elements (R184, R188). -/
theorem vop3_computes {s : State} {i : Instr} {sz : Nat} {pm : BitVec 3} {q : Bool} {vd vx vy : BitVec 6} {useD : Bool} {lat : Nat}
    {f : Nat → Nat → Nat → Nat} {g : BitVec (8 * sz) → BitVec (8 * sz) → BitVec (8 * sz) → BitVec (8 * sz)}
    (hi : exec i s = s.vop3 sz pm q vd [vx, vy] useD lat f) (hsz : sz ∣ 128)
    (hf : ∀ x y d, BitVec.ofNat (8 * sz) (f x.toNat y.toNat d.toNat) = g x y d) :
    Computes s i sz pm vd [s.vsrc q vx, s.vsrc q vy] lat fun k =>
      g (elt (8 * sz) (s.st.vval (s.vsrc q vx)) k) (elt (8 * sz) (s.st.vval (s.vsrc q vy)) k) (elt (8 * sz) (s.st.rv (s.vreg vd)) k) := by
  intro hu hq
  obtain ⟨t, ht, hp⟩ := vop3_usable hu hq sz pm useD lat f
  refine ⟨t, _, _, hi.trans ht, activeLanes_spec hsz _, fun k hk => ?_, hp⟩
  have hfit : 8 * sz * (128 / sz) = 1024 := by rw [Nat.mul_assoc, Nat.mul_div_cancel' hsz]
  rw [elt_ofElems (by simp [hfit]) (by simpa using hk)]
  simp [elems_getElem, hf]

/-! ### What each instruction of elementwise arithmetic runs -/

section
variable (s : State) (ty : VTy) (pm : BitVec 3) (q : Bool) (vd vx vy : BitVec 6)

theorem exec_vadd : exec (.vadd ty pm q vd vx vy) s = s.varith ty pm q vd vx vy 2 (· + ·) numAdd := rfl
theorem exec_vsub : exec (.vsub ty pm q vd vx vy) s = s.varith ty pm q vd vx vy 2 (· - ·) (fun x y => numAdd x (numNeg y)) := rfl
theorem exec_vmul : exec (.vmul ty pm q vd vx vy) s = s.varith ty pm q vd vx vy 3 (· * ·) numMul := rfl
theorem exec_vmin : exec (.vmin ty pm q vd vx vy) s = s.varith ty pm q vd vx vy 2 min numMin := rfl
theorem exec_vmax : exec (.vmax ty pm q vd vx vy) s = s.varith ty pm q vd vx vy 2 max numMax := rfl
theorem exec_vfma : exec (.vfma ty pm q vd vx vy) s = s.vop3 ty.size pm q vd [vx, vy] true 4 fun x y d =>
    if ty.isFloat then ofTyNum ty (numAdd (numMul (tyNum ty x) (tyNum ty y)) (tyNum ty d))
    else ofTyInt ty (tyInt ty x * tyInt ty y + tyInt ty d) := rfl
theorem exec_vsll : exec (.vsll ty pm q vd vx vy) s = s.vop3 ty.size pm q vd [vx, vy] false 2 fun x c _ =>
    if 8 * ty.size ≤ c then 0 else x * 2 ^ c % 2 ^ (8 * ty.size) := rfl
theorem exec_vsrl : exec (.vsrl ty pm q vd vx vy) s = s.vop3 ty.size pm q vd [vx, vy] false 2 fun x c _ =>
    if 8 * ty.size ≤ c then 0 else x / 2 ^ c := rfl
theorem exec_vsra : exec (.vsra ty pm q vd vx vy) s = s.vop3 ty.size pm q vd [vx, vy] false 2 fun x c _ =>
    ofTyInt ty (tyInt ty x / 2 ^ (min c (8 * ty.size - 1))) := rfl

end

/-! ### Elements as integers and as values (R188, R189) -/

theorem toSigned_toNat {n : Nat} (x : BitVec n) : toSigned n x.toNat = x.toInt := by
  unfold toSigned
  rw [Nat.mod_eq_of_lt x.isLt, BitVec.toInt_eq_toNat_cond]
  norm_cast

theorem ofNat_wrapN (n : Nat) (i : Int) : BitVec.ofNat n (wrapN n i) = BitVec.ofInt n i := by
  have h : wrapN n i = (BitVec.ofInt n i).toNat := by simp [wrapN]
  rw [h, BitVec.ofNat_toNat, BitVec.setWidth_eq]

/-- Elements of a type fill a vector. -/
theorem size_dvd (ty : VTy) : ty.size ∣ 128 := by cases ty <;> decide

section
variable {ty : VTy}

theorem tyInt_toNat (x : BitVec (8 * ty.size)) : tyInt ty x.toNat = x.toInt := toSigned_toNat x

theorem ofNat_ofTyInt (i : Int) : BitVec.ofNat (8 * ty.size) (ofTyInt ty i) = BitVec.ofInt (8 * ty.size) i := ofNat_wrapN ..

/-- An operation on two elements, by the type: the pattern of the integers' result, or the value rounded. -/
theorem ofNat_tyOp2 {fi : Int → Int → Int} {g : BitVec (8 * ty.size) → BitVec (8 * ty.size) → BitVec (8 * ty.size)}
    (hg : ∀ x y, BitVec.ofInt (8 * ty.size) (fi x.toInt y.toInt) = g x y) (ff : Num → Num → Num) (x y : BitVec (8 * ty.size)) :
    BitVec.ofNat (8 * ty.size) (tyOp2 ty fi ff x.toNat y.toNat) = byTy ty (ff (num ty x) (num ty y)) (g x y) := by
  unfold tyOp2 byTy
  split
  · rfl
  · rw [ofNat_ofTyInt, tyInt_toNat, tyInt_toNat, hg]

/-- A two-operand instruction of the integer operation `g` and the operation `ff` on values. -/
theorem varith_computes {s : State} {i : Instr} {pm : BitVec 3} {q : Bool} {vd vx vy : BitVec 6} {lat : Nat} {fi : Int → Int → Int}
    {ff : Num → Num → Num} {g : BitVec (8 * ty.size) → BitVec (8 * ty.size) → BitVec (8 * ty.size)}
    (hi : exec i s = s.varith ty pm q vd vx vy lat fi ff) (hg : ∀ x y, BitVec.ofInt (8 * ty.size) (fi x.toInt y.toInt) = g x y) :
    Computes s i ty.size pm vd [s.vsrc q vx, s.vsrc q vy] lat fun k =>
      byTy ty (ff (num ty (elt _ (s.st.vval (s.vsrc q vx)) k)) (num ty (elt _ (s.st.vval (s.vsrc q vy)) k)))
        (g (elt _ (s.st.vval (s.vsrc q vx)) k) (elt _ (s.st.vval (s.vsrc q vy)) k)) :=
  vop3_computes (g := fun x y _ => byTy ty (ff (num ty x) (num ty y)) (g x y)) hi (size_dvd ty) fun x y _ => ofNat_tyOp2 hg ff x y

theorem ofInt_min {n : Nat} (x y : BitVec n) : BitVec.ofInt n (min x.toInt y.toInt) = if x.toInt ≤ y.toInt then x else y := by
  rw [min_def, apply_ite (BitVec.ofInt n), BitVec.ofInt_toInt, BitVec.ofInt_toInt]

theorem ofInt_max {n : Nat} (x y : BitVec n) : BitVec.ofInt n (max x.toInt y.toInt) = if x.toInt ≤ y.toInt then y else x := by
  rw [max_def, apply_ite (BitVec.ofInt n), BitVec.ofInt_toInt, BitVec.ofInt_toInt]

/-- x × y + d of elements: wrapped for integers, rounded once for floats (R188, R189). -/
theorem vfma_computes (s : State) (pm : BitVec 3) (q : Bool) (vd vx vy : BitVec 6) :
    Computes s (.vfma ty pm q vd vx vy) ty.size pm vd [s.vsrc q vx, s.vsrc q vy] 4 fun k =>
      let x := elt (8 * ty.size) (s.st.vval (s.vsrc q vx)) k
      let y := elt (8 * ty.size) (s.st.vval (s.vsrc q vy)) k
      let d := elt (8 * ty.size) (s.st.rv (s.vreg vd)) k
      byTy ty (numAdd (numMul (num ty x) (num ty y)) (num ty d)) (x * y + d) := by
  refine vop3_computes (g := fun x y d => byTy ty (numAdd (numMul (num ty x) (num ty y)) (num ty d)) (x * y + d)) (exec_vfma ..)
    (size_dvd ty) fun x y d => ?_
  unfold byTy
  split
  · rfl
  · rw [ofNat_ofTyInt, tyInt_toNat, tyInt_toNat, tyInt_toNat, BitVec.ofInt_add, BitVec.ofInt_mul, BitVec.ofInt_toInt, BitVec.ofInt_toInt,
      BitVec.ofInt_toInt]

end

/-! ### Shifts (R188) -/

section
variable {w : Nat} (x : BitVec w) (c : Nat)

/-- A count that reaches the width leaves no bit of the left shift. -/
theorem ofNat_shiftLeft : BitVec.ofNat w (if w ≤ c then 0 else x.toNat * 2 ^ c % 2 ^ w) = x <<< c := by
  split
  · next h => rw [BitVec.shiftLeft_eq_zero h]
  · apply BitVec.eq_of_toNat_eq
    rw [BitVec.toNat_ofNat, BitVec.toNat_shiftLeft, Nat.mod_mod, Nat.shiftLeft_eq]

/-- A count that reaches the width leaves no bit of the right shift. -/
theorem ofNat_ushiftRight : BitVec.ofNat w (if w ≤ c then 0 else x.toNat / 2 ^ c) = x >>> c := by
  split
  · next h => rw [BitVec.ushiftRight_eq_zero h]
  · rw [← Nat.shiftRight_eq_div_pow, ← BitVec.toNat_ushiftRight, BitVec.ofNat_toNat, BitVec.setWidth_eq]

/-- An arithmetic shift by at least the sign's place leaves the sign alone. -/
theorem sshiftRight_min : x.sshiftRight (min c (w - 1)) = x.sshiftRight c := by
  rcases Nat.le_total c (w - 1) with h | h
  · rw [Nat.min_eq_left h]
  · rw [Nat.min_eq_right h]
    ext i hi
    have hsign (m : Nat) (hm : w - 1 ≤ m) : (x.sshiftRight m)[i] = x.msb := by
      rw [BitVec.getElem_sshiftRight]
      split
      · next hlt =>
        rw [BitVec.msb_eq_getLsbD_last, ← BitVec.getLsbD_eq_getElem, show m + i = w - 1 by omega]
      · rfl
    rw [hsign _ le_rfl, hsign _ h]

theorem ofInt_sshiftRight : BitVec.ofInt w (x.toInt / 2 ^ (min c (w - 1))) = x.sshiftRight c := by
  rw [← sshiftRight_min, BitVec.sshiftRight, Int.shiftRight_eq_div_pow]
  norm_cast

end

end Sys2Proof.Machine
end

section
/-!
PROOF. The statement about elementwise vector arithmetic (R36, R184, R185, R188, R189, R257).
-/
namespace Sys2Proof
open Sys2Proof.Machine Sys2Proof.Claims

/-- Settles O18: each instruction is a masked one of two sources, so that only its operation on one element is left; integer arithmetic modulo 2^w
is that of the signed values wrapped, and the counts of the shifts need no bound. -/
theorem vectorArithmetic : Obligations.VectorArithmetic := by
  unfold Obligations.VectorArithmetic
  intro s ty pm q vd vx vy
  refine ⟨varith_computes (g := (· + ·)) (exec_vadd ..) fun x y => ?add, varith_computes (g := (· - ·)) (exec_vsub ..) fun x y => ?sub,
    varith_computes (g := (· * ·)) (exec_vmul ..) fun x y => ?mul, vfma_computes s pm q vd vx vy, varith_computes (exec_vmin ..) ofInt_min,
    varith_computes (exec_vmax ..) ofInt_max, fun _ => ⟨?sll, ?srl, ?sra⟩⟩
  case add => rw [BitVec.ofInt_add, BitVec.ofInt_toInt, BitVec.ofInt_toInt]
  case sub => rw [Int.sub_eq_add_neg, BitVec.ofInt_add, BitVec.ofInt_neg, BitVec.ofInt_toInt, BitVec.ofInt_toInt, BitVec.sub_eq_add_neg]
  case mul => rw [BitVec.ofInt_mul, BitVec.ofInt_toInt, BitVec.ofInt_toInt]
  case sll => exact vop3_computes (g := fun x y _ => x <<< y.toNat) (exec_vsll ..) (size_dvd ty) fun x y _ => ofNat_shiftLeft x y.toNat
  case srl => exact vop3_computes (g := fun x y _ => x >>> y.toNat) (exec_vsrl ..) (size_dvd ty) fun x y _ => ofNat_ushiftRight x y.toNat
  case sra =>
    refine vop3_computes (g := fun x y _ => x.sshiftRight y.toNat) (exec_vsra ..) (size_dvd ty) fun x y _ => ?_
    rw [ofNat_ofTyInt, tyInt_toNat, ofInt_sshiftRight]

end Sys2Proof
end

section
/-!
PROOF. The statement about the supervisor's entry does not hold of every state. It takes what TRAP sets aside from the stream as it stands at the
instruction, where a gate under the instruction's own number is given up (R64); but TRAP goes past itself before it enters, and a gate that stands in
the SQ under the number that it has left behind stays there.
-/
namespace Sys2Proof.Machine

/-- A launch with a supervisor region. -/
def supervised : Launch := { (default : Launch) with svbase := some (0, 0) }

/-- The one stream stands at an instruction in U, and the gate of a join point of that number stands in its SQ. -/
def gatedAtTrap : State :=
  { State.reset with
    streams := [(⟨⟨0, 0, 0⟩, 0, 0⟩, { status := .running, sq := [.twin 0 .gate] })]
    ctxs := [(⟨⟨0, 0, 0⟩, 0⟩, { live := some (0, 0) })]
    devs := [(0, { launches := [(0, supervised)] })] }

theorem gatedAtTrap_canTrap : Claims.CanTrap gatedAtTrap := ⟨rfl, supervised, (0, 0), rfl, rfl⟩

theorem gatedAtTrap_leaveGate : gatedAtTrap.st.leaveGate.twinPending = false ∧ gatedAtTrap.st.leaveGate.sq = [] := by decide

/-- TRAP leaves the gate in the SQ. -/
theorem gatedAtTrap_trap {t : State} (h : exec (.trap 0) gatedAtTrap = .next t) : t.st.sq = [.twin 0 .gate] := by
  cases h
  decide

end Sys2Proof.Machine
end

section
/-!
PROOF. The refutation of the statement about faults, traps and returns (R64, R158, R293).
-/
namespace Sys2Proof
open Sys2Proof.Machine Sys2Proof.Claims

/-- Refutes O9, in its clause on what TRAP leaves in the SQ: where the gate of a join point stands there under the number of the TRAP, the statement
has it given up, and the machine keeps it. -/
theorem not_supervisorEntryAndReturn : ¬ Obligations.SupervisorEntryAndReturn := by
  unfold Obligations.SupervisorEntryAndReturn
  intro h
  obtain ⟨-, h, -⟩ := h
  obtain ⟨-, -, t, ht, he⟩ := h gatedAtTrap 0 gatedAtTrap_canTrap
  have hs := he.stores
  obtain ⟨hp, hq⟩ := gatedAtTrap_leaveGate
  rw [gatedAtTrap_trap ht, hp, hq] at hs
  cases hs

end Sys2Proof
end

section
/-!
PROOF. Records that an instruction reads as it issues, and what follows from the state that has read them: the GLC may have taken lines, and nothing
else has changed (R66, R204).
-/
namespace Sys2Proof.Machine

open Claims

theorem readRec_caches {s s1 : State} {eng : PermEng} {va : Word} {n : Nat} {r : BitVec 1024} (h : s.readRec eng va n = .ok s1 r) :
    CachesOnly s s1 := by
  unfold State.readRec at h
  split at h
  · cases h
  · split at h <;> cases h
    next h => exact recRead_caches h

/-- A record that is not aligned to 64 bytes is not read. -/
theorem readRec_misaligned {s : State} {va : Word} (h : va.toNat % 64 ≠ 0) (eng : PermEng) (n : Nat) :
    s.readRec eng va n = .stop (s.raise .recAlign va) := if_pos h

/-- What has been issued after a record was read has been issued from the state before. -/
theorem issued_of_caches {s s1 t : State} {c : EngCmd} (hc : CachesOnly s s1) (h : Issued s1 t c) : Issued s t c := by
  obtain ⟨cmd, waits, regs, who, devs, ctxs, queues⟩ := h
  obtain ⟨cs, rfl, hk⟩ := hc
  refine ⟨cmd, waits, regs, who, devs, ctxs, fun k => ?_⟩
  have hq := queues k
  obtain ⟨g, i, e⟩ := hk k
  rw [e] at hq
  exact hq

/-- An instruction that has read its records raises a fault from there, to return to itself (R61). -/
theorem raisesAt_of {s s1 : State} {i : Instr} {f : FaultRec} (hc : CachesOnly s s1) (he : exec i s = s1.raiseRec f) (ht : CanTrap s1)
    (hl : f.name.logOnly = false) : RaisesAt s s1 i f := by
  obtain ⟨t, e, hn⟩ := raiseRec_enters s1 f ht hl
  rw [hc.st] at hn
  exact ⟨t, he.trans e, hn⟩

section
variable {s s1 : State} {i : Instr} {c : EngCmd} {k : CmdKind} (hc : CachesOnly s s1) (he : exec i s = s1.issueCmd c)
  (hw : c.slot = s1.cur ∧ c.x = s1.xid ∧ c.asid = s1.cx.asid.toNat ∧ c.level = s1.cx.det) (hk : c.kind = k)
include hc he hw hk

/-- An instruction that has read its records issues a command whose formats are valid. -/
theorem issues_after {e : Eng} {p : EngCmd → Prop} (hq : c.eng = e) (hd : c.descVa = none) (hp : p { c with id := s1.nextId }) :
    Issues s i k e p := by
  obtain ⟨h1, h2, h3, h4⟩ := hw
  obtain ⟨t, ht, hi⟩ := issued_issueCmd h1 h2 h3 h4
  exact ⟨t, _, he.trans ht, issued_of_caches hc hi, hk, hq, hd, hp⟩

/-- An instruction that has read its records issues a command that takes an invalid entry of the format table (R46). -/
theorem issuesInvalid_after {va : Word} (hd : c.descVa = some va) : IssuesInvalid s i k va := by
  obtain ⟨h1, h2, h3, h4⟩ := hw
  obtain ⟨t, ht, hi⟩ := issued_issueCmd h1 h2 h3 h4
  exact ⟨t, _, he.trans ht, issued_of_caches hc hi, hk, hd⟩

end

end Sys2Proof.Machine
end

section
/-!
PROOF. The issue of matrix commands: the windows of a role, the first fault that the checks find, and the command that passes them (R204, R206,
R207, R211).
-/
namespace Sys2Proof.Machine

open Claims

/-! ### The windows of a role (R206) -/

theorem mkF_toNat (n : FaultName) (va : Word) : mkF n va.toNat = { name := n, faddr := va } := by
  simp only [mkF, BitVec.ofNat_toNat, BitVec.setWidth_eq]
  rfl

theorem inWindow_iff (va : Word) : inWindow va = true ↔ va.toNat / 2 ^ 52 = 0x1F := beq_iff_eq

section
variable {role : Role} {va : Word} {o : Nat}

theorem roleWindow_outside (h : va.toNat / 2 ^ 52 ≠ 0x1F) : roleWindow role va = none := by
  have hw : inWindow va = false := Bool.eq_false_iff.2 fun e => h ((inWindow_iff va).1 e)
  simp [roleWindow, hw]

/-- In the local window a role may use its own buffer; an accumulator none. -/
theorem roleWindow_local {b : Buf} {k : Nat} (h : va.toNat / 2 ^ 52 = 0x1F) (hw : windowOf va.toNat = some (.localW, o))
    (hb : windowBuf o = some (b, k)) (hr : role ≠ .acc) :
    roleWindow role va = if roleBuf role b then none else some { name := .bufPerm, faddr := va } := by
  simp [roleWindow, (inWindow_iff va).2 h, hw, hb, hr, mkF_toNat]

theorem roleWindow_acc (h : va.toNat / 2 ^ 52 = 0x1F) (hw : windowOf va.toNat = some (.localW, o)) :
    roleWindow .acc va = some { name := .bufPerm, faddr := va } := by
  simp [roleWindow, (inWindow_iff va).2 h, hw, mkF_toNat]

theorem roleWindow_other (h : va.toNat / 2 ^ 52 = 0x1F) (hw : ∀ k, windowOf va.toNat ≠ some (.localW, k)) :
    roleWindow role va = some { name := .window, faddr := va } := by
  simp [roleWindow, (inWindow_iff va).2 h, mkF_toNat]

end

/-- A fault of a role's windows is one of the stream's. -/
theorem roleWindow_logOnly {role : Role} {va : Word} {f : FaultRec} (h : roleWindow role va = some f) : f.name.logOnly = false := by
  unfold roleWindow at h
  repeat' split at h
  all_goals cases h
  all_goals rfl

theorem roleWindows_logOnly {role : Role} {r : BitVec 1024} {f : FaultRec} (h : roleWindows role r = some f) : f.name.logOnly = false := by
  unfold roleWindows at h
  split at h
  · next e => cases h; exact roleWindow_logOnly e
  · split at h
    · cases h
    · exact roleWindow_logOnly h

theorem roleBad_none {role : Role} {ka : Nat} {va : Word} {r : BitVec 1024} :
    roleBad role ka va r = none ↔ firstBad (roleChecks role ka r) = none := Option.map_eq_none_iff

theorem roleBad_some {role : Role} {ka w : Nat} (va : Word) {r : BitVec 1024} (h : firstBad (roleChecks role ka r) = some w) :
    roleBad role ka va r = some (matrixRec va (roleNum role) w) := by rw [roleBad, h]; rfl

/-! ### MMA and MMAS (R204 to R209) -/

/-- Whether the third operand of MMA is a contraction window of its A record, or that of MMAS an address of metadata (R207). -/
def thirdOk (sparse : Bool) (sc : Word) (ra : BitVec 1024) : Bool := if sparse then metaVaOk sc else (contrWindow sc (recKblk ra)).isSome

/-- The role of the B record. -/
def roleOfB (sparse : Bool) : Role := if sparse then .sb else .b

/-- The first fault of an MMA or MMAS whose records have been read, in the order of log 10. -/
def State.mmaFault (s : State) (sparse fo : Bool) (a b c : BitVec 5) (ra rb : BitVec 1024) : Option FaultRec :=
  ((((roleBad .a 0 (s.rs a) ra).or (roleBad (roleOfB sparse) (recKblk ra) (s.rs b) rb)).or
    (if thirdOk sparse (s.rs c) ra then none else some (matrixRec (s.rs c) 3 0))).or
    ((roleWindows .a ra).or (roleWindows (roleOfB sparse) rb))).or (if fo && s.st.lastCe.isNone then some { name := .foPair } else none)

/-- The command of an MMA or MMAS that has passed its checks, in the state s2 that has read its records. -/
def State.mmaCmd (s s2 : State) (sparse fo z : Bool) (ts : BitVec 2) (a b c : BitVec 5) (ra rb : BitVec 1024) : EngCmd :=
  let fa := s.st.recFmt (recFcode ra) (recWord ra 2)
  let fb := s.st.recFmt (recFcode rb) (recWord rb 2)
  let e := { s2.cmd (if sparse then .mmas else .mma) .me with
    recA := ra, recB := rb.setWidth 512, sc := s.rs c, ts := ts, fo := fo, z := z
    fmtA := fa, fmtB := fb, bound := if fo then s.st.lastCe else none
    descVa := if fa.isNone then some (s.rs a) else if fb.isNone then some (s.rs b) else none }
  { e with
    reads := s2.recRanges e ra (fmtBytes fa .a (recKblk ra)) ++ s2.recRanges e rb (fmtBytes fb (roleOfB sparse) (recKblk rb)) ++
      (if sparse then s2.rangeAt e.x e.asid (s.rs c).toNat 0 (recRows rb * recKblk rb * 8 : Nat) else []) ++ [slotRange e.x ts]
    writes := [slotRange e.x ts] }

section
variable {s s1 s2 : State} {sparse fo z : Bool} {ts : BitVec 2} {a b c : BitVec 5} {ra rb : BitVec 1024} (ht : s.tileOk ts = true)
  (h1 : Record s (s.rs a) 64 s1 ra)
include ht h1

/-- Once its records have been read, an MMA or MMAS raises the first fault that its checks find, or else issues its command. -/
theorem issueMma_read (h2 : Record s1 (s.rs b) 64 s2 rb) : s.issueMma sparse fo z ts a b c =
    (s.mmaFault sparse fo a b c ra rb).elim (s2.issueCmd (s.mmaCmd s2 sparse fo z ts a b c ra rb)) s2.raiseRec := by
  unfold State.issueMma State.mmaFault
  simp only [ht, show s.readRec .load (s.rs a) 64 = .ok s1 ra from h1, show s1.readRec .load (s.rs b) 64 = .ok s2 rb from h2]
  rw [show (if sparse then Role.sb else Role.b) = roleOfB sparse from rfl]
  have hbad : (if sparse then !metaVaOk (s.rs c) else (contrWindow (s.rs c) (recKblk ra)).isNone) = !thirdOk sparse (s.rs c) ra := by
    cases sparse <;> simp [thirdOk]
  simp only [hbad]
  rcases roleBad .a 0 (s.rs a) ra with - | f
  case some => rfl
  rcases roleBad (roleOfB sparse) (recKblk ra) (s.rs b) rb with - | f
  case some => rfl
  cases thirdOk sparse (s.rs c) ra with
  | false => rfl
  | true =>
    rcases roleWindows .a ra with - | f
    case some => rfl
    rcases roleWindows (roleOfB sparse) rb with - | f
    case some => rfl
    cases fo && s.st.lastCe.isNone <;> rfl

/-- A B record that is not aligned is found after the A record has been read. -/
theorem issueMma_misalignedB (hb : (s.rs b).toNat % 64 ≠ 0) : s.issueMma sparse fo z ts a b c = s1.raise .recAlign (s.rs b) := by
  unfold State.issueMma
  simp only [ht, show s.readRec .load (s.rs a) 64 = .ok s1 ra from h1, readRec_misaligned hb]
  rfl

end

theorem exec_mma (sparse fo z : Bool) (ts : BitVec 2) (a b c : BitVec 5) (s : State) :
    exec (if sparse then .mmas fo z ts a b c else .mma fo z ts a b c) s = s.issueMma sparse fo z ts a b c := by cases sparse <;> rfl

/-! What the checks of an MMA or MMAS find, in their order (log 10). -/

section
variable {s : State} {sparse fo : Bool} {a b c : BitVec 5} {ra rb : BitVec 1024} {w : Nat} {f : FaultRec}

theorem mmaFault_recA (hw : firstBad (roleChecks .a 0 ra) = some w) :
    s.mmaFault sparse fo a b c ra rb = some (matrixRec (s.rs a) 0 w) := by rw [State.mmaFault, roleBad_some _ hw]; rfl

variable (hA : firstBad (roleChecks .a 0 ra) = none)
include hA

theorem mmaFault_recB (hw : firstBad (roleChecks (roleOfB sparse) (recKblk ra) rb) = some w) :
    s.mmaFault sparse fo a b c ra rb = some (matrixRec (s.rs b) 1 w) := by
  rw [State.mmaFault, roleBad_none.2 hA, roleBad_some _ hw]
  cases sparse <;> rfl

variable (hB : firstBad (roleChecks (roleOfB sparse) (recKblk ra) rb) = none)
include hB

theorem mmaFault_third (hC : ¬ thirdOk sparse (s.rs c) ra = true) :
    s.mmaFault sparse fo a b c ra rb = some (matrixRec (s.rs c) 3 0) := by
  rw [State.mmaFault, roleBad_none.2 hA, roleBad_none.2 hB, if_neg hC]; rfl

variable (hC : thirdOk sparse (s.rs c) ra = true)
include hC

theorem mmaFault_windowA (hw : roleWindows .a ra = some f) : s.mmaFault sparse fo a b c ra rb = some f := by
  rw [State.mmaFault, roleBad_none.2 hA, roleBad_none.2 hB, if_pos hC, hw]; rfl

variable (wA : roleWindows .a ra = none)
include wA

theorem mmaFault_windowB (hw : roleWindows (roleOfB sparse) rb = some f) : s.mmaFault sparse fo a b c ra rb = some f := by
  rw [State.mmaFault, roleBad_none.2 hA, roleBad_none.2 hB, if_pos hC, wA, hw]; rfl

variable (wB : roleWindows (roleOfB sparse) rb = none)
include wB

theorem mmaFault_pair (hf : fo = true) (hn : s.st.lastCe = none) : s.mmaFault sparse fo a b c ra rb = some { name := .foPair } := by
  rw [State.mmaFault, roleBad_none.2 hA, roleBad_none.2 hB, if_pos hC, wA, wB, hf, hn]; rfl

/-- An MMA or MMAS passes when its records and its third operand do, its windows may be used and a follow-on has a copy before it. -/
theorem mmaFault_none (hp : fo = true → s.st.lastCe.isSome = true) : s.mmaFault sparse fo a b c ra rb = none := by
  have hf : (fo && s.st.lastCe.isNone) = false := by
    cases fo
    · rfl
    · simpa [← Option.not_isSome] using hp rfl
  rw [State.mmaFault, roleBad_none.2 hA, roleBad_none.2 hB, if_pos hC, wA, wB, hf]; rfl

end

section
variable {s s1 s2 : State} {sparse fo z : Bool} {ts : BitVec 2} {a b c : BitVec 5} {ra rb : BitVec 1024} (ht : s.tileOk ts = true)
  (h1 : Record s (s.rs a) 64 s1 ra) (h2 : Record s1 (s.rs b) 64 s2 rb)

include ht h1 h2

/-- An MMA or MMAS raises the fault that its checks find from the state that has read its records. -/
theorem mma_raisesAt {f : FaultRec} (hf : s.mmaFault sparse fo a b c ra rb = some f) (hl : f.name.logOnly = false) (hc : CanTrap s2) :
    RaisesAt s s2 (if sparse then .mmas fo z ts a b c else .mma fo z ts a b c) f :=
  raisesAt_of ((readRec_caches h1).trans (readRec_caches h2))
    ((exec_mma ..).trans ((issueMma_read ht h1 h2).trans (by rw [hf]; rfl))) hc hl

/-- An MMA or MMAS whose checks find nothing issues its command. -/
theorem mma_issues (hf : s.mmaFault sparse fo a b c ra rb = none) :
    exec (if sparse then .mmas fo z ts a b c else .mma fo z ts a b c) s = s2.issueCmd (s.mmaCmd s2 sparse fo z ts a b c ra rb) :=
  (exec_mma ..).trans ((issueMma_read ht h1 h2).trans (by rw [hf]; rfl))

end

/-! The record of an invalid entry of the format table: the A record's, or else the B record's (log 49). -/

section
variable {s s2 : State} {sparse fo z : Bool} {ts : BitVec 2} {a b c : BitVec 5} {ra rb : BitVec 1024} {fa fb : Fmt}

theorem mmaCmd_descVa (hA : s.st.recFmt (recFcode ra) (recWord ra 2) = some fa) (hB : s.st.recFmt (recFcode rb) (recWord rb 2) = some fb) :
    (s.mmaCmd s2 sparse fo z ts a b c ra rb).descVa = none := by simp [State.mmaCmd, hA, hB]
theorem mmaCmd_descVa_of_invalidA (hA : s.st.recFmt (recFcode ra) (recWord ra 2) = none) :
    (s.mmaCmd s2 sparse fo z ts a b c ra rb).descVa = some (s.rs a) := by simp [State.mmaCmd, hA]
theorem mmaCmd_descVa_of_invalidB (hA : s.st.recFmt (recFcode ra) (recWord ra 2) = some fa)
    (hB : s.st.recFmt (recFcode rb) (recWord rb 2) = none) :
    (s.mmaCmd s2 sparse fo z ts a b c ra rb).descVa = some (s.rs b) := by simp [State.mmaCmd, hA, hB]

end

/-! ### MCVT, MLDACC and MSTACC (R211 to R213) -/

/-- The first fault of an MCVT, MLDACC or MSTACC whose record has been read. -/
def outFault (role : Role) (va : Word) (r : BitVec 1024) : Option FaultRec := (roleBad role 0 va r).or (roleWindows role r)

/-- The command of an MCVT, MLDACC or MSTACC that has passed its checks, in the state s1 that has read its record. -/
def State.outCmd (s s1 : State) (k : CmdKind) (role : Role) (ts : BitVec 2) (a : BitVec 5) (f : EngCmd → EngCmd) (r : BitVec 1024) : EngCmd :=
  let acc := role == .acc
  let fa := if acc then none else s.st.recFmt (recFcode r) (recWord r 2)
  let c := f { s1.cmd k .me with recA := r, ts := ts, fmtA := fa, descVa := if acc || fa.isSome then none else some (s.rs a) }
  let region := s1.recRanges c r (if acc then 672 * recKblk r else fmtBytes fa .out (recKblk r))
  let slot := [slotRange c.x ts]
  match k with
  | .mldacc => { c with reads := region, writes := slot }
  | .mstacc => { c with reads := slot, writes := region }
  | _ => { c with reads := slot, writes := region ++ slot }

/-- Once its record has been read, an MCVT, MLDACC or MSTACC raises the first fault that its checks find, or else issues its command. -/
theorem issueOut_read {s s1 : State} {ts : BitVec 2} {a : BitVec 5} {r : BitVec 1024} (ht : s.tileOk ts = true) (h : Record s (s.rs a) 64 s1 r)
    (k : CmdKind) (role : Role) (f : EngCmd → EngCmd) :
    s.issueOut k role ts a f = (outFault role (s.rs a) r).elim (s1.issueCmd (s.outCmd s1 k role ts a f r)) s1.raiseRec := by
  unfold State.issueOut outFault State.outCmd
  simp only [ht, show s.readRec .load (s.rs a) 64 = .ok s1 r from h]
  rcases roleBad role 0 (s.rs a) r with - | e
  case some => rfl
  rcases roleWindows role r with - | e
  case some => rfl
  cases k <;> rfl

section
variable {s s1 : State} {ts : BitVec 2} {a : BitVec 5} {r : BitVec 1024} (ht : s.tileOk ts = true) (h : Record s (s.rs a) 64 s1 r)
  {k : CmdKind} {role : Role} {f : EngCmd → EngCmd} {i : Instr} (hi : exec i s = s.issueOut k role ts a f)
include ht h hi

/-- The faults of an MCVT, MLDACC or MSTACC: its record's first word that fails, then a window that its role may not use. -/
theorem out_raisesAt {g : FaultRec} (hg : outFault role (s.rs a) r = some g) (hl : g.name.logOnly = false) (hc : CanTrap s1) :
    RaisesAt s s1 i g :=
  raisesAt_of (readRec_caches h) (hi.trans ((issueOut_read ht h k role f).trans (by rw [hg]; rfl))) hc hl

/-- An MCVT, MLDACC or MSTACC whose record passes its checks and whose windows its role may use issues its command. -/
theorem out_issues (hb : roleBad role 0 (s.rs a) r = none) (hw : roleWindows role r = none) :
    exec i s = s1.issueCmd (s.outCmd s1 k role ts a f r) :=
  hi.trans ((issueOut_read ht h k role f).trans (by rw [outFault, hb, hw]; rfl))

/-- The faults of the record and of its windows, as the statement has them. -/
theorem out_faulty (hn : roleNum role = 2) {w : Nat} {g : FaultRec} :
    (firstBad (roleChecks role 0 r) = some w → CanTrap s1 →
      RaisesAt s s1 i { name := .matrixRec, faddr := s.rs a, detail := BitVec.ofNat 64 (2 * 256 + w) }) ∧
    (firstBad (roleChecks role 0 r) = none → roleWindows role r = some g → CanTrap s1 → RaisesAt s s1 i g) := by
  constructor
  · intro hb hc
    exact out_raisesAt ht h hi (by rw [outFault, roleBad_some _ hb, hn]; rfl) rfl hc
  · intro hb hg hc
    exact out_raisesAt ht h hi (by rw [outFault, roleBad_none.2 hb, hg]; rfl) (roleWindows_logOnly hg) hc

end

theorem exec_mcvt (s : State) (rm : RMode) (auto : Bool) (a : BitVec 5) (ts : BitVec 2) :
    exec (.mcvt rm auto a ts) s = s.issueOut .mcvt .out ts a fun c => { c with rm := rm, auto := auto } := rfl
theorem exec_mldacc (s : State) (ts : BitVec 2) (a : BitVec 5) : exec (.mldacc ts a) s = s.issueOut .mldacc .acc ts a id := rfl
theorem exec_mstacc (s : State) (ts : BitVec 2) (a : BitVec 5) : exec (.mstacc a ts) s = s.issueOut .mstacc .acc ts a id := rfl

theorem CachesOnly.xid {s t : State} (h : CachesOnly s t) : t.xid = s.xid := by obtain ⟨cs, rfl, -⟩ := h; rfl

section
variable {s s1 : State} {ts : BitVec 2} {a : BitVec 5} {rm : RMode} {auto : Bool} {r : BitVec 1024} {fa : Fmt}

theorem mcvtCmd_descVa (hf : s.st.recFmt (recFcode r) (recWord r 2) = some fa) :
    (s.outCmd s1 .mcvt .out ts a (fun c => { c with rm := rm, auto := auto }) r).descVa = none :=
  if_pos (Option.isSome_of_eq_some hf)
theorem mcvtCmd_descVa_of_invalid (hf : s.st.recFmt (recFcode r) (recWord r 2) = none) :
    (s.outCmd s1 .mcvt .out ts a (fun c => { c with rm := rm, auto := auto }) r).descVa = some (s.rs a) := if_neg (by simp [hf])

end

/-! ### MZERO and MSTAT (R53, R214) -/

theorem exec_mzero {s : State} {ts : BitVec 2} (ht : s.tileOk ts = true) : exec (.mzero ts) s =
    s.issueCmd { s.cmd .mzero .me with ts := ts, reads := [slotRange s.xid ts], writes := [slotRange s.xid ts] } :=
  if_neg (by simpa using ht)

theorem exec_mstat {s : State} {ts l : BitVec 2} (ht : s.tileOk ts = true) (hl : (s.st.rl l).st ≠ .pending) : exec (.mstat l ts) s =
    s.issueCmd { s.cmd .mstat .me with ts := ts, latch := l, reads := [slotRange s.xid ts] } :=
  (if_neg (by simpa using ht)).trans (if_neg (by simpa using hl))

/-! ### Faults before a record is read (R15, R204, R269) -/

section
variable {s : State} {ts : BitVec 2} {i : Instr}

/-- The matrix instructions that name a slot, each with what it does where the slot may be named. -/
def SlotInstr (s : State) (ts : BitVec 2) (i : Instr) : Prop := ∃ o : Out, exec i s = if !s.tileOk ts then s.raise .tileRange else o

theorem raises_tileRange (hi : SlotInstr s ts i) (ht : ¬ s.tileOk ts = true) (hc : CanTrap s) : Raises s i .tileRange 0 0 := by
  obtain ⟨o, e⟩ := hi
  exact raises_of (e.trans (if_pos (by simpa using ht))) hc rfl

theorem slotInstr_mma (sparse fo z : Bool) (a b c : BitVec 5) :
    SlotInstr s ts (if sparse then .mmas fo z ts a b c else .mma fo z ts a b c) := ⟨_, exec_mma ..⟩
theorem slotInstr_mzero : SlotInstr s ts (.mzero ts) := ⟨_, rfl⟩
theorem slotInstr_mcvt (rm : RMode) (auto : Bool) (a : BitVec 5) : SlotInstr s ts (.mcvt rm auto a ts) := ⟨_, rfl⟩
theorem slotInstr_mldacc (a : BitVec 5) : SlotInstr s ts (.mldacc ts a) := ⟨_, rfl⟩
theorem slotInstr_mstacc (a : BitVec 5) : SlotInstr s ts (.mstacc a ts) := ⟨_, rfl⟩
theorem slotInstr_mstat (l : BitVec 2) : SlotInstr s ts (.mstat l ts) := ⟨_, rfl⟩

end

section
variable {s : State} {ts : BitVec 2} {a : BitVec 5} (ht : s.tileOk ts = true) (ha : (s.rs a).toNat % 64 ≠ 0)
include ht ha

theorem issueMma_misaligned (sparse fo z : Bool) (b c : BitVec 5) : s.issueMma sparse fo z ts a b c = s.raise .recAlign (s.rs a) := by
  unfold State.issueMma
  simp only [ht, readRec_misaligned ha]
  rfl

theorem issueOut_misaligned (k : CmdKind) (role : Role) (f : EngCmd → EngCmd) : s.issueOut k role ts a f = s.raise .recAlign (s.rs a) := by
  unfold State.issueOut
  simp only [ht, readRec_misaligned ha]
  rfl

end

end Sys2Proof.Machine
end

section
/-!
PROOF. The statement about the issue of the matrix instructions (R53, R204, R206, R207, R211, R214).
-/
namespace Sys2Proof
open Sys2Proof.Machine Sys2Proof.Claims

/-- Settles O32: once its records are read, each instruction raises the first fault of its chain of checks, or issues its command. -/
theorem matrixIssue : Obligations.MatrixIssue := by
  unfold Obligations.MatrixIssue
  refine ⟨fun role va o k b h hw hb hr => roleWindow_local h hw hb hr,
    fun role va o => ⟨roleWindow_outside, roleWindow_acc, roleWindow_other⟩,
    fun s s1 s2 fo z auto sparse rm ts l a b c ra rb fa fb f w => ?_⟩
  intro tile role mma kind fmtA fmtB scOk pair bad one faulty
  refine ⟨fun ht h1 h2 => ?_, fun ht => ?_, fun ht hl => ?_, fun ht hl => ?_, fun ht h1 => ?_, fun ht hc => ?_,
    fun ht ha hc => ?_, fun ht h1 hb hc => ?_⟩
  · have hc := (readRec_caches h1).trans (readRec_caches h2)
    have hsc : scOk ↔ thirdOk sparse (s.rs c) ra = true := by cases sparse <;> exact Iff.rfl
    intro okA okB clear
    have pass : clear → pair → exec mma s = s2.issueCmd (s.mmaCmd s2 sparse fo z ts a b c ra rb) := fun ⟨hA, hB, hC, wA, wB⟩ hp =>
      mma_issues ht h1 h2 (mmaFault_none hA hB (hsc.1 hC) wA wB hp)
    refine ⟨fun hcl hp hfa hfb => ?_, fun hcl hp => ⟨fun hfa => ?_, fun hfa hfb => ?_⟩, fun hw ht' => ?_, fun hA hw ht' => ?_,
      fun hA hB hC ht' => ?_, fun hA hB hC hw ht' => ?_, fun hA hB hC wA hw ht' => ?_, fun ⟨hA, hB, hC, wA, wB⟩ hfo hn ht' => ?_⟩
    · exact issues_after hc (pass hcl hp) ⟨rfl, rfl, rfl, rfl⟩ rfl rfl (mmaCmd_descVa hfa hfb)
        ⟨rfl, rfl, rfl, rfl, rfl, rfl, hfa, hfb, rfl, congrArg (fun x => [slotRange x ts]) hc.xid⟩
    · exact issuesInvalid_after hc (pass hcl hp) ⟨rfl, rfl, rfl, rfl⟩ rfl (mmaCmd_descVa_of_invalidA hfa)
    · obtain ⟨fa', hfa⟩ := Option.ne_none_iff_exists'.1 hfa
      exact issuesInvalid_after hc (pass hcl hp) ⟨rfl, rfl, rfl, rfl⟩ rfl (mmaCmd_descVa_of_invalidB hfa hfb)
    · exact mma_raisesAt ht h1 h2 (mmaFault_recA hw) rfl ht'
    · exact mma_raisesAt ht h1 h2 (mmaFault_recB hA hw) rfl ht'
    · exact mma_raisesAt ht h1 h2 (mmaFault_third hA hB (hC ∘ hsc.2)) rfl ht'
    · exact mma_raisesAt ht h1 h2 (mmaFault_windowA hA hB (hsc.1 hC) hw) (roleWindows_logOnly hw) ht'
    · exact mma_raisesAt ht h1 h2 (mmaFault_windowB hA hB (hsc.1 hC) wA hw) (roleWindows_logOnly hw) ht'
    · exact mma_raisesAt ht h1 h2 (mmaFault_pair hA hB (hsc.1 hC) wA wB hfo hn) rfl ht'
  · exact issues_after (CachesOnly.refl s) (exec_mzero ht) ⟨rfl, rfl, rfl, rfl⟩ rfl rfl rfl ⟨rfl, rfl⟩
  · exact issues_after (CachesOnly.refl s) (exec_mstat ht hl) ⟨rfl, rfl, rfl, rfl⟩ rfl rfl rfl ⟨rfl, rfl⟩
  · exact waits_of .none ((if_neg (by simpa using ht)).trans (if_pos (by simpa using hl)))
  · have hc := readRec_caches h1
    refine ⟨fun hf hb hw => ?_, fun hf hb hw => ?_, fun hb hw => ?_, fun hb hw => ?_, out_faulty ht h1 (exec_mcvt ..) rfl,
      out_faulty ht h1 (exec_mldacc ..) rfl, out_faulty ht h1 (exec_mstacc ..) rfl⟩
    · exact issues_after hc (out_issues ht h1 (exec_mcvt ..) hb hw) ⟨rfl, rfl, rfl, rfl⟩ rfl rfl (mcvtCmd_descVa hf)
        ⟨rfl, rfl, rfl, rfl, hf, congrArg (fun t => t.uthr) hc.st⟩
    · exact issuesInvalid_after hc (out_issues ht h1 (exec_mcvt ..) hb hw) ⟨rfl, rfl, rfl, rfl⟩ rfl (mcvtCmd_descVa_of_invalid hf)
    · exact issues_after hc (out_issues ht h1 (exec_mldacc ..) hb hw) ⟨rfl, rfl, rfl, rfl⟩ rfl rfl rfl
        ⟨rfl, rfl, congrArg (fun x => [slotRange x ts]) hc.xid⟩
    · exact issues_after hc (out_issues ht h1 (exec_mstacc ..) hb hw) ⟨rfl, rfl, rfl, rfl⟩ rfl rfl rfl
        ⟨rfl, rfl, congrArg (fun x => [slotRange x ts]) hc.xid⟩
  · exact ⟨raises_tileRange (slotInstr_mma ..) ht hc, raises_tileRange slotInstr_mzero ht hc, raises_tileRange (slotInstr_mcvt ..) ht hc,
      raises_tileRange (slotInstr_mldacc ..) ht hc, raises_tileRange (slotInstr_mstacc ..) ht hc, raises_tileRange (slotInstr_mstat ..) ht hc⟩
  · exact ⟨raises_of ((exec_mma ..).trans (issueMma_misaligned ht ha ..)) hc rfl,
      raises_of ((exec_mcvt ..).trans (issueOut_misaligned ht ha ..)) hc rfl,
      raises_of ((exec_mldacc ..).trans (issueOut_misaligned ht ha ..)) hc rfl,
      raises_of ((exec_mstacc ..).trans (issueOut_misaligned ht ha ..)) hc rfl⟩
  · exact raisesAt_of (readRec_caches h1) ((exec_mma ..).trans (issueMma_misalignedB ht h1 hb)) hc rfl

end Sys2Proof
end

section
/-!
PROOF. Chunks that a unit sends while it does nothing else, and the replacement of a chunk by its acknowledgement (R103 to R107).
-/
namespace Sys2Proof.Machine

/-- Chunks have been sent, under new numbers, and nothing else has happened. -/
def SendsOnly (s t : State) : Prop := ∃ n cs, t = { s with nextId := n, chunks := s.chunks ++ cs }

namespace SendsOnly
variable {s t u : State}

theorem refl (s : State) : SendsOnly s s := ⟨s.nextId, [], by simp⟩
theorem trans (h : SendsOnly s t) (k : SendsOnly t u) : SendsOnly s u := by
  obtain ⟨n, cs, rfl⟩ := h
  obtain ⟨m, ds, rfl⟩ := k
  exact ⟨m, cs ++ ds, by simp⟩
theorem subset (h : SendsOnly s t) : s.chunks ⊆ t.chunks := by
  obtain ⟨n, cs, rfl⟩ := h
  exact List.subset_append_left ..
theorem devs (h : SendsOnly s t) : t.devs = s.devs := by obtain ⟨n, cs, rfl⟩ := h; rfl
theorem ctxs (h : SendsOnly s t) : t.ctxs = s.ctxs := by obtain ⟨n, cs, rfl⟩ := h; rfl
theorem streams (h : SendsOnly s t) : t.streams = s.streams := by obtain ⟨n, cs, rfl⟩ := h; rfl
theorem dev (h : SendsOnly s t) (d : Nat) : t.dev d = s.dev d := by obtain ⟨n, cs, rfl⟩ := h; rfl
theorem sameBytes (h : SendsOnly s t) : SameBytes s t := .of_eq h.devs h.ctxs

end SendsOnly

section
variable {f : State → Chunk → State} (hf : ∀ s g, SendsOnly s (f s g))
include hf

theorem sendsOnly_foldl (s : State) (gs : List Chunk) : SendsOnly s (gs.foldl f s) := by
  induction gs generalizing s with
  | nil => exact .refl s
  | cons g gs ih => exact (hf s g).trans (ih _)

/-- What is sent for one of the contributors is still on its way after all have been served. -/
theorem foldl_sent (s : State) {gs : List Chunk} {g : Chunk} (hg : g ∈ gs) : ∃ u, (f u g).chunks ⊆ (gs.foldl f s).chunks := by
  induction gs generalizing s with
  | nil => cases hg
  | cons a gs ih =>
    rcases List.mem_cons.1 hg with rfl | hg
    · exact ⟨s, (sendsOnly_foldl hf _ gs).subset⟩
    · exact ih _ hg

end

/-- A chunk that is in flight has its replacement in flight after it has been replaced. -/
theorem mem_setChunk {s : State} {c d : Chunk} (hc : c ∈ s.chunks) (hd : d.id = c.id) : d ∈ (s.setChunk d).chunks :=
  List.mem_map.2 ⟨c, hc, by simp [hd]⟩

theorem mem_ackChunk {s : State} {c : Chunk} (hc : c ∈ s.chunks) (f : Option FaultRec) :
    { c with kind := .acked, fault := f, bytes := [] } ∈ (s.ackChunk c f).chunks := mem_setChunk hc rfl

theorem writePieces_streams (s : State) (bs : List Byte) (ps : List Piece) : (s.writePieces bs ps).streams = s.streams := by
  induction ps generalizing s with
  | nil => rfl
  | cons p ps ih => exact (ih _).trans (writePlace_streams ..).1

end Sys2Proof.Machine
end

section
/-!
PROOF. The reduction units: contributions that enter a slot's sums, that end a slot and that wait, and the rounded chunk of a slot (R49, R105).
-/
namespace Sys2Proof.Machine

/-- No byte of memory changes with the slots of a unit, nor as a chunk is acknowledged. -/
theorem sameBytes_red (s : State) (dev : Nat) (f : FMap (Nat × Nat) RedSlot → FMap (Nat × Nat) RedSlot) :
    SameBytes s (s.onDev dev fun d => { d with red := f d.red }) := .onDev s dev rfl rfl
theorem sameBytes_ackChunk (s : State) (c : Chunk) (f : Option FaultRec) : SameBytes s (s.ackChunk c f) := .of_eq rfl rfl
theorem dev_ackChunk (s : State) (c : Chunk) (f : Option FaultRec) (d : Nat) : (s.ackChunk c f).dev d = s.dev d := rfl

/-- The sum of contributions does not depend on their order (R49). -/
theorem xrAcc_right_comm (x a b : XrElem) : xrAcc (xrAcc x a) b = xrAcc (xrAcc x b) a := by
  ext1
  · exact add_right_comm x.1 a.1 b.1
  · show x.2 ||| a.2 ||| b.2 = x.2 ||| b.2 ||| a.2
    rw [BitVec.or_assoc, BitVec.or_comm a.2, ← BitVec.or_assoc]

/-- What a mismatch sends to a contributor whose chunk has been acknowledged already. -/
def State.sendMismatch (s : State) (g : Chunk) : State :=
  { s with nextId := s.nextId + 1, chunks := s.chunks ++ [{ g with id := s.nextId, kind := .acked, fault := some { name := .collMismatch } }] }
/-- What the unit sends back to a contributor of an ARSUM. -/
def State.sendResult (bs : List Byte) (s : State) (g : Chunk) : State :=
  if clKind g.recw == 3 then { s with nextId := s.nextId + 1, chunks := s.chunks ++ [{ g with id := s.nextId, kind := .ret, bytes := bs }] }
  else s

theorem sendsOnly_sendMismatch (s : State) (g : Chunk) : SendsOnly s (s.sendMismatch g) := ⟨_, _, rfl⟩
theorem sendsOnly_sendResult (bs : List Byte) (s : State) (g : Chunk) : SendsOnly s (s.sendResult bs g) := by
  unfold State.sendResult
  split
  · exact ⟨_, _, rfl⟩
  · exact .refl s

/-- Add a contribution to a slot of a unit (R105). -/
def RedSlot.add (rs : RedSlot) (c : Chunk) : RedSlot :=
  { rs with got := rs.got ++ [{ c with bytes := [] }], sums := xrAdd rs.sums (xrOf c.recw c.bytes) }

/-- A full slot: one that holds all the contributions that its first names. -/
def RedSlot.full (rs : RedSlot) : Prop := ∃ m, rs.got.head? = some m ∧ clContrib m.recw ≤ rs.got.length

section
variable {s : State} {k slot : Nat} {ch : Chunk} {rs : RedSlot} {ps : List Piece}
  (hch : s.chunks.find? (fun x => x.id == k && x.kind == .contrib) = some ch)
  (hx : s.remoteXl ch.dev ch.asid ch.dva ch.bytes.length .csWrite = .ok ps)
  (hr : (s.dev ch.dev).red.find? (fun p => p.1.1 == s.homeOf ps && p.2.tag == clTag ch.recw && p.2.d == ch.dva) = some ((s.homeOf ps, slot), rs))
include hch hx hr

/-- A contribution to an open slot (R105). -/
theorem contribution_open : exec (.reductionContribution k) s =
    .next (if (rs.got.head?.any fun g => decide (clContrib g.recw ≤ rs.got.length)) then s
      else if rs.key != redKey ch.recw then s.mismatch ch.dev (s.homeOf ps) slot rs ch
      else (s.onDev ch.dev fun d => { d with red := fset d.red (s.homeOf ps, slot) (rs.add ch) }).ackChunk ch none) := by
  show execReductionContribution k s = _
  unfold execReductionContribution
  simp only [hch, hx, hr]
  rfl

theorem contribution_full (h : rs.full) : exec (.reductionContribution k) s = .next s := by
  obtain ⟨m, hm, hn⟩ := h
  rw [contribution_open hch hx hr, if_pos (by simp [hm, hn])]

theorem contribution_added (h : ¬ rs.full) (hk : rs.key = redKey ch.recw) : exec (.reductionContribution k) s =
    .next ((s.onDev ch.dev fun d => { d with red := fset d.red (s.homeOf ps, slot) (rs.add ch) }).ackChunk ch none) := by
  rw [contribution_open hch hx hr, if_neg (by simpa [RedSlot.full, Option.any_eq_true] using h), if_neg (by simp [hk])]

theorem contribution_mismatch (h : ¬ rs.full) (hk : rs.key ≠ redKey ch.recw) : exec (.reductionContribution k) s =
    .next (s.mismatch ch.dev (s.homeOf ps) slot rs ch) := by
  rw [contribution_open hch hx hr, if_neg (by simpa [RedSlot.full, Option.any_eq_true] using h), if_pos (by simp [hk])]

end

theorem mismatch_eq (s : State) (dev field slot : Nat) (rs : RedSlot) (c : Chunk) : s.mismatch dev field slot rs c =
    rs.got.foldl State.sendMismatch ((s.onDev dev fun d => { d with red := fdel d.red (field, slot) }).ackChunk c (some { name := .collMismatch })) :=
  rfl

section
variable {s : State} {dev field slot : Nat} {g : Chunk} {rest : List Chunk} {rs : RedSlot}
  (hr : fget? (s.dev dev).red (field, slot) = some rs) (hg : rs.got = g :: rest)
include hr hg

theorem resultWrite_missing (h : rs.got.length < clContrib g.recw) : exec (.reductionResultWrite dev field slot) s = .next s := by
  show execReductionResultWrite dev field slot s = _
  rw [hg] at h
  unfold execReductionResultWrite
  simp only [hr, hg, h]
  rfl

/-- The result of a full slot that notifies no counter is written, the slot is freed and the results go back (R105). -/
theorem resultWrite_full {ps : List Piece} (h : clContrib g.recw ≤ rs.got.length) (hn : clNva g.recw = 0)
    (hx : s.remoteXl dev rs.asid rs.d (redRound g.recw rs.sums).length .csWrite = .ok ps) : exec (.reductionResultWrite dev field slot) s =
      .next (rs.got.foldl (State.sendResult (redRound g.recw rs.sums))
        ((s.writePieces (redRound g.recw rs.sums) ps).onDev dev fun d => { d with red := fdel d.red (field, slot) })) := by
  show execReductionResultWrite dev field slot s = _
  rw [hg] at h
  unfold execReductionResultWrite
  simp only [hr, hg, Nat.not_lt.2 h, hx, hn]
  rfl

end

end Sys2Proof.Machine
end

section
/-!
PROOF. The statement about the reduction units (R49, R105, R106).
-/
namespace Sys2Proof
open Sys2Proof.Machine Sys2Proof.Claims

/-- Settles O41, by the cases of a contribution to an open slot and of a slot's result. -/
theorem reductionUnits : Obligations.ReductionUnits := by
  unfold Obligations.ReductionUnits
  refine ⟨xrAcc_right_comm, fun s k dev field slot ch rs ps g rest => ?_⟩
  intro acked home room
  refine ⟨fun hch hx hr => ⟨contribution_full hch hx hr, fun hroom hk => ?_, fun hroom hk => ?_⟩,
    fun hr hn hg => resultWrite_missing hr hg hn, ?_⟩
  · have hmem : ch ∈ s.chunks := List.mem_of_find?_eq_some hch
    have hfull : ¬ rs.full := fun ⟨m, hm, hn⟩ => absurd (hroom m hm) (Nat.not_lt.2 hn)
    refine ⟨_, rs.add ch, contribution_added hch hx hr hfull hk,
      .trans (sameBytes_red s ch.dev (fset · _ _)) (sameBytes_ackChunk ..), rfl, mem_ackChunk (s := s.onDev ..) hmem none, ?_, ?_, rfl⟩
    · rw [dev_ackChunk, State.dev_onDev]
      exact fget?_fset_self ..
    · exact List.length_append
  · have hmem : ch ∈ s.chunks := List.mem_of_find?_eq_some hch
    have hfull : ¬ rs.full := fun ⟨m, hm, hn⟩ => absurd (hroom m hm) (Nat.not_lt.2 hn)
    have hsends := sendsOnly_foldl sendsOnly_sendMismatch
      ((s.onDev ch.dev fun d => { d with red := fdel d.red (home, slot) }).ackChunk ch (some { name := .collMismatch })) rs.got
    refine ⟨_, (contribution_mismatch hch hx hr hfull hk).trans (congrArg _ (mismatch_eq ..)),
      .trans (.trans (sameBytes_red s ch.dev (fdel · _)) (sameBytes_ackChunk ..)) hsends.sameBytes, hsends.streams,
       hsends.subset (mem_ackChunk (s := s.onDev ..) hmem _), ?_, fun m hm => ?_⟩
    · rw [hsends.dev, dev_ackChunk, State.dev_onDev]
      exact fget?_fdel_self ..
    · obtain ⟨u, hu⟩ := foldl_sent sendsOnly_sendMismatch _ hm
      exact ⟨_, hu (List.mem_append_right _ (List.mem_singleton.2 rfl)), rfl, rfl, rfl⟩
  · intro bs hr hg hn hnva hx
    have hsends := sendsOnly_foldl (sendsOnly_sendResult bs)
      ((s.writePieces bs ps).onDev dev fun d => { d with red := fdel d.red (field, slot) }) rs.got
    refine ⟨_, resultWrite_full hr hg hn hnva hx, .trans (sameBytes_red _ dev (fdel · _)) hsends.sameBytes,
      hsends.streams.trans (writePieces_streams ..), ?_, fun m hm h3 => ?_⟩
    · rw [hsends.dev, State.dev_onDev]
      exact fget?_fdel_self ..
    · obtain ⟨u, hu⟩ := foldl_sent (sendsOnly_sendResult bs) _ hm
      refine ⟨{ m with id := u.nextId, kind := .ret, bytes := bs }, hu ?_, rfl, rfl, rfl⟩
      rw [State.sendResult, if_pos (by simp [h3])]
      exact List.mem_append_right _ (List.mem_singleton.2 rfl)

end Sys2Proof
end

section
/-!
PROOF. Steps of an engine's command row by row: what a row that is done leaves, and what of CB its step has written (R53, R74, R210).
-/
namespace Sys2Proof.Machine

open Claims

/-! ### A command at the head of the ME -/

theorem meHead_some {s : State} {c : CoreId} {h : EngCmd} (hh : s.meHead c = some h) : (s.core c).headReady .me = some h ∧ h.migrated = none := by
  unfold State.meHead at hh
  split at hh
  · next g hg =>
    split at hh
    · next hc =>
      cases hh
      exact ⟨hg, by simpa using (Bool.and_eq_true_iff.1 hc).2⟩
    · cases hh
  · cases hh

theorem meHead_cmds {s : State} {c : CoreId} {h : EngCmd} (hh : s.meHead c = some h) : ∃ r, (s.core c).me.cmds = h :: r := by
  obtain ⟨r, hq, -⟩ := Core.headReady_some (meHead_some hh).1
  exact ⟨r, hq⟩

/-- A burst that runs stands at the head of the ME, whose core hosts no migrated command. -/
theorem burstRuns_some {s : State} {c : CoreId} {h : EngCmd} (hb : s.burstRuns c = some h) : s.meHead c = some h ∧ s.hosted c = none := by
  unfold State.burstRuns at hb
  split at hb
  · next g hg hn =>
    split at hb
    · cases hb; exact ⟨hg, hn⟩
    · cases hb
  · cases hb

/-! ### A row of a command that uses cr.mrow (R210) -/

section
variable {s : State} {c : CoreId} {e : Eng} {h : EngCmd} {rows : Nat} {step : Nat → EngRes State} (hu : h.usesMrow = true)
  (hp : h.pageFault = none)
include hu hp

/-- The next row is made by its step. -/
theorem rowStep_row (ho : s.overdue c h = false) (hi : nextRow s h < rows) {t : State} (ht : step (nextRow s h) = .ok t) :
    s.rowStep c e h rows step = .next t := by
  unfold nextRow at hi ht
  unfold State.rowStep
  simp only [hp, hu, Bool.true_and, hi, ho, ht]
  rfl

/-- With no row left and nothing under way the command leaves its queue. -/
theorem rowStep_end (hi : rows ≤ nextRow s h) (hw : (s.core c).writing h.id = false) : s.rowStep c e h rows step = .next (s.popHead c e) := by
  unfold nextRow at hi
  unfold State.rowStep
  simp only [hp, hu, Bool.true_and, Nat.not_lt.2 hi, hw]
  rfl

end

theorem rowDone_progress {h : EngCmd} (hu : h.usesMrow = true) (s : State) (c : CoreId) (e : Eng) (i : Nat) :
    Progress (s.rowDone c e h i) h.x (i + 1) := by
  unfold State.rowDone Progress
  simp only [hu, if_true, State.ctx_onCtx]
  exact ⟨trivial, trivial⟩

/-- The command at the head of a queue that leaves it ends the progress of its context. -/
theorem popHead_progress {s : State} {c : CoreId} {e : Eng} {h : EngCmd} {r : List EngCmd} (hq : ((s.core c).queue e).cmds = h :: r)
    (hu : h.usesMrow = true) : ((s.popHead c e).ctx h.x).mrowValid = false ∧ ((s.popHead c e).ctx h.x).mrowRow = 0 := by
  unfold State.popHead
  simp only [hq, hu, if_true, State.ctx_onCtx]
  exact ⟨trivial, trivial⟩

/-- A command that is no burst gives no token back: devices and streams are as they were. -/
theorem popHead_noBurst {s : State} {c : CoreId} {e : Eng} {h : EngCmd} {r : List EngCmd} (hq : ((s.core c).queue e).cmds = h :: r)
    (hb : h.isBurst = false) : (s.popHead c e).devs = s.devs ∧ (s.popHead c e).streams = s.streams := by
  unfold State.popHead
  simp only [hq, hb, Bool.false_and, Bool.false_eq_true, if_false]
  split <;> exact ⟨rfl, rfl⟩

/-! ### What an engine writes into CB -/

theorem devs_onCtx (s : State) (x : CtxId) (f : Ctx → Ctx) : (s.onCtx x f).devs = s.devs := rfl
theorem streams_onCtx (s : State) (x : CtxId) (f : Ctx → Ctx) : (s.onCtx x f).streams = s.streams := rfl

section
variable {s t : State} {x : CtxId} {f : Ctx → Ctx} (hk : EngineKeeps (s.onCtx x f) t)
include hk

theorem EngineKeeps.bufs (y : CtxId) : (t.ctx y).wb = ((s.onCtx x f).ctx y).wb ∧ (t.ctx y).ab = ((s.onCtx x f).ctx y).ab ∧
    (t.ctx y).cbuf = ((s.onCtx x f).ctx y).cbuf := by
  obtain ⟨v, q, e⟩ := hk.ctx y
  rw [e]
  exact ⟨rfl, rfl, rfl⟩

theorem EngineKeeps.cbuf : (t.ctx x).cbuf = (f (s.ctx x)).cbuf := (hk.bufs x).2.2.trans (by rw [State.ctx_onCtx])

theorem EngineKeeps.xwAt (ts : BitVec 2) (r j : Nat) : Claims.xwAt t x ts r j = (f (s.ctx x)).xw ts r j := by
  rw [xwAt_eq]
  unfold Ctx.xw
  rw [hk.cbuf]

/-- A step that has changed bytes of CB of one context, then kept the books of its row. -/
theorem EngineKeeps.onlyCb {p : Nat → Prop} (hd : t.devs = s.devs) (hs : t.streams = s.streams) {y : Ctx} (hy : f (s.ctx x) = y)
    (hb : y.wb = (s.ctx x).wb ∧ y.ab = (s.ctx x).ab) (ho : ∀ a, ¬ p a → mget y.cbuf a = mget (s.ctx x).cbuf a) : OnlyCb s t x p := by
  subst hy
  refine ⟨hd, hs, fun y => ?_, fun y a hn => ?_⟩
  · rw [(hk.bufs y).1, (hk.bufs y).2.1, State.ctx_onCtx_if]
    split
    · next e => subst e; exact hb
    · exact ⟨rfl, rfl⟩
  · rw [(hk.bufs y).2.2, State.ctx_onCtx_if]
    split
    · next e => subst e; exact ho a (hn rfl)
    · rfl

end

/-- A row that has changed bytes of CB: what its command's step leaves in memory, and the progress. -/
theorem rowDone_onCtx {s : State} {c : CoreId} {h : EngCmd} {q : List EngCmd} (hq : (s.core c).me.cmds = h :: q) (hu : h.usesMrow = true)
    {f : Ctx → Ctx} {p : Nat → Prop} (hb : (f (s.ctx h.x)).wb = (s.ctx h.x).wb ∧ (f (s.ctx h.x)).ab = (s.ctx h.x).ab)
    (ho : ∀ a, ¬ p a → mget (f (s.ctx h.x)).cbuf a = mget (s.ctx h.x).cbuf a) (i : Nat) :
    OnlyCb s ((s.onCtx h.x f).rowDone c .me h i) h.x p ∧ Progress ((s.onCtx h.x f).rowDone c .me h i) h.x (i + 1) ∧
      EngineKeeps (s.onCtx h.x f) ((s.onCtx h.x f).rowDone c .me h i) := by
  have hq' : ((s.onCtx h.x f).core c).me.cmds = h :: q := hq
  obtain ⟨hkeep, hd, hst, -⟩ := rowDone_keeps hq' h i
  exact ⟨hkeep.onlyCb hd hst rfl hb ho, rowDone_progress hu .., hkeep⟩

/-! ### Lists of what an engine has read -/

theorem engList_ok {α β : Type} {f : α → EngRes β} {g : α → β} {l : List α} (h : ∀ a ∈ l, f a = .ok (g a)) :
    engList f l = .ok (l.map g) := by
  induction l with
  | nil => rfl
  | cons a l ih =>
    rw [engList, h a (List.mem_cons_self ..), ih fun b hb => h b (List.mem_cons_of_mem _ hb)]
    rfl

end Sys2Proof.Machine
end

section
/-!
PROOF. Rows of MMA, MMAS and MLDACC, and the slot that MZERO clears (R50, R53, R208 to R213).
-/
namespace Sys2Proof.Machine

open Claims

/-- The order of contributions does not matter (R50). -/
theorem xwAcc_right_comm (x a b : XwElem) : xwAcc (xwAcc x a) b = xwAcc (xwAcc x b) a := by
  ext1
  · exact add_right_comm x.1 a.1 b.1
  · show x.2 ||| a.2 ||| b.2 = x.2 ||| b.2 ||| a.2
    rw [BitVec.or_assoc, BitVec.or_comm a.2, ← BitVec.or_assoc]

/-- A block whose scale byte is 0x80 is not read. -/
theorem fetchBlocks_nan (s : State) (h : EngCmd) (t : Xl) (f : Fmt) (k : Nat) (at_ : Nat → Word) :
    s.fetchBlocks h t f k at_ [0x80] = .ok [(List.replicate k (.fin false 0 0), 0x80)] := by
  unfold State.fetchBlocks
  exact engList_ok (l := [(0x80#8, 0)]) (g := fun _ => (List.replicate k (Num.fin false 0 0), 0x80#8)) (by simp)

/-! ### The slot that MZERO clears (R53, R211) -/

section
variable (x : Ctx) (ts : BitVec 2)

theorem cbuf_bufWrite (b : Nat) (bs : List Byte) : (x.bufWrite .cb b bs).cbuf = mwrite x.cbuf b bs :=
  (Ctx.buf_bufWrite x .cb .cb b bs).trans (if_pos rfl)

theorem bufs_bufWrite_cb (b : Nat) (bs : List Byte) : (x.bufWrite .cb b bs).wb = x.wb ∧ (x.bufWrite .cb b bs).ab = x.ab :=
  ⟨(Ctx.buf_bufWrite x .cb .wb b bs).trans (if_neg (by decide)), (Ctx.buf_bufWrite x .cb .ab b bs).trans (if_neg (by decide))⟩

theorem bufs_zeroSlot : (x.zeroSlot ts).wb = x.wb ∧ (x.zeroSlot ts).ab = x.ab := by
  unfold Ctx.zeroSlot
  exact bufs_bufWrite_cb ..

variable {x} (hx : x.canon)
include hx

/-- CB after bytes of it have been cleared. -/
theorem mget_clear (b n a : Nat) : mget (x.bufWrite .cb b (List.replicate n 0)).cbuf a = if b ≤ a ∧ a < b + n then 0 else mget x.cbuf a := by
  obtain ⟨_, _, hwf⟩ := hx
  rw [cbuf_bufWrite]
  split
  · next h =>
    obtain ⟨k, rfl⟩ := Nat.exists_eq_add_of_le h.1
    rw [mget_mwrite_in hwf (by rw [List.length_replicate]; omega), List.getElem_replicate]
  · next h => rw [mget_mwrite_out hwf (by rw [List.length_replicate]; omega)]

theorem mget_zeroSlot_in {a : Nat} (h : slotBase ts ≤ a ∧ a < slotBase ts + 0x7E000) : mget (x.zeroSlot ts).cbuf a = 0 := by
  unfold Ctx.zeroSlot
  rw [mget_clear hx, if_pos h]

theorem mget_zeroSlot_out {a : Nat} (h : ¬ (slotBase ts ≤ a ∧ a < slotBase ts + 0x7E000)) : mget (x.zeroSlot ts).cbuf a = mget x.cbuf a := by
  unfold Ctx.zeroSlot
  rw [mget_clear hx, if_neg h]

/-- Each element of a cleared slot is 0, with no flag. -/
theorem xw_zeroSlot {r j : Nat} (hr : r < 128) (hj : j < 192) : (x.zeroSlot ts).xw ts r j = (0, 0) := by
  have hb : mread (x.zeroSlot ts).cbuf (slotBase ts + (r * 192 + j) * 20) 20 = List.replicate 20 0 := by
    rw [mread_eq_map, List.eq_replicate_iff]
    refine ⟨by simp, fun b hb => ?_⟩
    obtain ⟨k, hk, rfl⟩ := List.mem_map.1 hb
    exact mget_zeroSlot_in ts hx (by have := List.mem_range.1 hk; omega)
  unfold Ctx.xw
  rw [hb, mget_zeroSlot_in ts hx (by omega)]
  rfl

end

/-! ### The commands (R208 to R213) -/

section
variable {s : State} {c : CoreId} {h : EngCmd}

/-- The row of an MMA or MMAS whose blocks have been read: to each column the sum of its blocks. -/
theorem mmaRow_ok {fa fb : Fmt} {i : Nat} {A : List (List Num × Byte)} {B : Nat → List (List Num × Byte)} (ha : h.fmtA = some fa)
    (hb : h.fmtB = some fb) (hA : s.operandRow h (h.xl .meA .roleA) h.recA fa i h.window.1 h.window.2 = .ok A)
    (hB : ∀ k < recRows (h.recB.setWidth 1024), s.colB h (h.recB.setWidth 1024) fb k h.window.1 h.window.2 = .ok (B k)) :
    s.mmaRow h i = .ok ((upTo (recRows (h.recB.setWidth 1024))).map fun k => blockSum A (B k)) := by
  unfold State.mmaRow
  simp only [ha, hb, hA]
  refine engList_ok fun k hk => ?_
  rw [hB k (List.mem_range.1 hk)]
  rfl

/-- MMA_ROW_COMMIT of a burst at home is a step of its rows. -/
theorem exec_mmaRowCommit (hr : s.burstRuns c = some h) (hk : h.kind = .mma ∨ h.kind = .mmas) :
    exec (.mmaRowCommit c) s = s.rowStep c .me h (recRows h.recA) (s.mmaStep c h) := by
  show execMmaRowCommit c s = _
  have hk' : (h.kind == .mcvt) = false := by rcases hk with e | e <;> rw [e] <;> rfl
  unfold execMmaRowCommit
  simp only [(burstRuns_some hr).2, hr, hk']
  rfl

theorem exec_accRowTransfer_mldacc (hm : s.meHead c = some h) (hk : h.kind = .mldacc) :
    exec (.accRowTransfer c) s = s.rowStep c .me h (recRows h.recA) (s.mldaccStep c h) := by
  show execAccRowTransfer c s = _
  unfold execAccRowTransfer
  simp only [hm, hk]

theorem exec_mzeroPerform (hm : s.meHead c = some h) (hk : h.kind = .mzero) :
    exec (.mzeroPerform c) s = .next ((s.onCtx h.x fun x => x.zeroSlot h.ts).popHead c .me) := by
  show execMzeroPerform c s = _
  unfold execMzeroPerform
  simp only [hm, hk]
  rfl

/-- A row of MMA or MMAS adds its contributions into the slot. -/
theorem mmaRowCommit_row (hs : s.Canon) (hr : s.burstRuns c = some h) (hk : h.kind = .mma ∨ h.kind = .mmas) (hp : h.pageFault = none)
    (ho : s.overdue c h = false) (hi : nextRow s h < recRows h.recA) (hm : s.metaCheck h = .ok ()) {xs : List XwElem}
    (hx : s.mmaRow h (nextRow s h) = .ok xs) (h128 : recRow0 h.recA + nextRow s h < 128)
    (hj : recCol0 (h.recB.setWidth 1024) + xs.length ≤ 192) :
    ∃ t, exec (.mmaRowCommit c) s = .next t ∧
      OnlyCb s t h.x (inRow h.ts (recRow0 h.recA + nextRow s h) (recCol0 (h.recB.setWidth 1024)) xs.length) ∧
      Progress t h.x (nextRow s h + 1) ∧ ∀ k, (hk : k < xs.length) →
        xwAt t h.x h.ts (recRow0 h.recA + nextRow s h) (recCol0 (h.recB.setWidth 1024) + k) =
          xwAcc (if h.z then (0, 0) else xwAt s h.x h.ts (recRow0 h.recA + nextRow s h) (recCol0 (h.recB.setWidth 1024) + k)) xs[k] := by
  have hu : h.usesMrow = true := by rcases hk with e | e <;> simp [EngCmd.usesMrow, e]
  obtain ⟨q, hq⟩ := meHead_cmds (burstRuns_some hr).1
  obtain ⟨hbufs, hout, hin⟩ := addRow_spec (hs.ctx h.x) h h128 hj
  obtain ⟨honly, hprog, hkeep⟩ := rowDone_onCtx hq hu (f := fun x => x.addRow h (nextRow s h) xs) hbufs hout (nextRow s h)
  have hstep : s.mmaStep c h (nextRow s h) = .ok ((s.onCtx h.x fun x => x.addRow h (nextRow s h) xs).rowDone c .me h (nextRow s h)) := by
    unfold State.mmaStep
    rw [hm, hx]
    rfl
  refine ⟨_, (exec_mmaRowCommit hr hk).trans (rowStep_row hu hp ho hi hstep), honly, hprog, fun k hk => ?_⟩
  rw [hkeep.xwAt, hin k hk, xwAt_eq]

/-- A row of MLDACC as memory has it: the values, and the status bytes without their reserved bits (R213). -/
def accRow (n : Nat) (bs : List Byte) : List XwElem :=
  (upTo n).map fun k => (bytesBv 160 ((bs.drop (20 * k)).take 20), (bs[20 * n + k]?.getD 0) &&& 0x0F)

@[simp] theorem length_accRow (n : Nat) (bs : List Byte) : (accRow n bs).length = n := by simp [accRow, upTo]

/-- A row of MLDACC replaces its elements of the slot. -/
theorem accRowTransfer_mldacc (hs : s.Canon) (hm : s.meHead c = some h) (hk : h.kind = .mldacc) (hp : h.pageFault = none)
    (ho : s.overdue c h = false) (hi : nextRow s h < recRows h.recA) {bs : List Byte} (h128 : recRow0 h.recA + nextRow s h < 128)
    (hj : recCol0 h.recA + 32 * recKblk h.recA ≤ 192)
    (hx : s.engRead (h.xl .meA .none) (rowVa (recVa h.recA) (nextRow s h) (recRstr h.recA)) (21 * (32 * recKblk h.recA)) h.cache = .ok bs) :
    ∃ t, exec (.accRowTransfer c) s = .next t ∧
      OnlyCb s t h.x (inRow h.ts (recRow0 h.recA + nextRow s h) (recCol0 h.recA) (32 * recKblk h.recA)) ∧
      Progress t h.x (nextRow s h + 1) ∧ ∀ k, (hk : k < 32 * recKblk h.recA) →
        xwAt t h.x h.ts (recRow0 h.recA + nextRow s h) (recCol0 h.recA + k) =
          (accRow (32 * recKblk h.recA) bs)[k]'(by rwa [length_accRow]) := by
  have hu : h.usesMrow = true := by simp [EngCmd.usesMrow, hk]
  obtain ⟨q, hq⟩ := meHead_cmds hm
  have hout {a : Nat} (ha : ¬ inRow h.ts (recRow0 h.recA + nextRow s h) (recCol0 h.recA) (32 * recKblk h.recA) a) :=
    mget_setTileRow_out (hs.ctx h.x) h.ts (ys := accRow (32 * recKblk h.recA) bs) (by rwa [length_accRow])
  obtain ⟨honly, hprog, hkeep⟩ := rowDone_onCtx hq hu (f := fun x =>
    x.setTileRow h.ts (recRow0 h.recA + nextRow s h) (recCol0 h.recA) (accRow (32 * recKblk h.recA) bs)) (bufs_setTileRow ..) (fun a => hout)
    (nextRow s h)
  have hstep : s.mldaccStep c h (nextRow s h) = .ok ((s.onCtx h.x fun x =>
      x.setTileRow h.ts (recRow0 h.recA + nextRow s h) (recCol0 h.recA) (accRow (32 * recKblk h.recA) bs)).rowDone c .me h (nextRow s h)) := by
    unfold State.mldaccStep
    simp only [hx]
    rfl
  refine ⟨_, (exec_accRowTransfer_mldacc hm hk).trans (rowStep_row hu hp ho hi hstep), honly, hprog, fun k hk => ?_⟩
  rw [hkeep.xwAt, xw_setTileRow (hs.ctx h.x) h.ts h128 (by rwa [length_accRow])]

/-- MZERO_PERFORM clears the slot and its command leaves. -/
theorem mzeroPerform_clears (hs : s.Canon) (hm : s.meHead c = some h) (hk : h.kind = .mzero) :
    ∃ t, exec (.mzeroPerform c) s = .next t ∧ OnlyCb s t h.x (fun a => slotBase h.ts ≤ a ∧ a < slotBase h.ts + 0x7E000) ∧
      (∀ r < 128, ∀ j < 192, xwAt t h.x h.ts r j = (0, 0)) ∧ (t.core c).me.cmds = (s.core c).me.cmds.drop 1 := by
  obtain ⟨q, hq⟩ := meHead_cmds hm
  have hkeep := (EngineKeeps.refl (s.onCtx h.x fun x => x.zeroSlot h.ts)).popHead c .me
  obtain ⟨hd, hst⟩ := popHead_noBurst (s := s.onCtx h.x fun x => x.zeroSlot h.ts) (e := .me) hq (by simp [EngCmd.isBurst, hk])
  refine ⟨_, exec_mzeroPerform hm hk, hkeep.onlyCb (hd.trans (devs_onCtx ..)) (hst.trans (streams_onCtx ..)) rfl (bufs_zeroSlot ..)
    fun a ha => mget_zeroSlot_out h.ts (hs.ctx h.x) ha, fun r hr j hj => ?_, ?_⟩
  · rw [hkeep.xwAt, xw_zeroSlot h.ts (hs.ctx h.x) hr hj]
  · exact (cmds_popHead _ c .me c .me).trans (if_pos ⟨rfl, rfl⟩)

end

end Sys2Proof.Machine
end

section
/-!
PROOF. The statement about the rows of the matrix commands (R50, R53, R74, R208 to R213).
-/
namespace Sys2Proof
open Sys2Proof.Machine Sys2Proof.Claims

/-- Settles O36: each command's row is one write into its slot, followed by the books of the row. -/
theorem matrixRows : Obligations.MatrixRows := by
  unfold Obligations.MatrixRows
  refine ⟨fun a b hab => hab.foldl_eq' (fun x _ y _ z => xwAcc_right_comm ..) _, fun s c h fa fb A B bs => ?_⟩
  intro i rb r j n w j' n' hs
  refine ⟨fun t at_ k => fetchBlocks_nan .., fun hh hb hk hp ho => ⟨?_, ?_⟩, ?_, fun hm hk => mzeroPerform_clears hs hm hk⟩
  · intro hi hn hr hj hfa hfb hm hA hB
    have hlen : ((upTo n).map fun k => blockSum A (B k)).length = n := by simp [upTo]
    obtain ⟨t, he, honly, hprog, hx⟩ := mmaRowCommit_row hs hb hk hp ho hi hm (mmaRow_ok hfa hfb hA hB) hr (by rwa [hlen])
    rw [hlen] at honly
    refine ⟨t, he, honly, hprog, fun k hk => (hx k (by rwa [hlen])).trans ?_⟩
    simp only [upTo, List.getElem_map, List.getElem_range]
    rfl
  · intro hi hw
    have hu : h.usesMrow = true := by rcases hk with e | e <;> simp [EngCmd.usesMrow, e]
    obtain ⟨q, hq⟩ := meHead_cmds (burstRuns_some hb).1
    exact ⟨_, (exec_mmaRowCommit hb hk).trans (rowStep_end hu hp hi hw), ((EngineKeeps.refl s).popHead c .me).bytes,
      (cmds_popHead s c .me c .me).trans (if_pos ⟨rfl, rfl⟩), popHead_progress (e := .me) hq hu⟩
  · intro hm hk hp ho hi hn hr hj hread hlen
    obtain ⟨t, he, honly, hprog, hx⟩ := accRowTransfer_mldacc hs hm hk hp ho hi hr hj hread
    refine ⟨t, he, honly, hprog, fun k hk => (hx k hk).trans ?_⟩
    simp only [accRow, upTo, List.getElem_map, List.getElem_range]
    rfl

end Sys2Proof
end

section
/-!
PROOF. Rows of MCVT and MSTACC: the counts of the converted blocks in the row record, and the bytes that leave on the core's paths (R52 to R58,
R74, R212, R213).
-/
namespace Sys2Proof.Machine

open Claims

/-! ### The counts of a row record (R57) -/

/-- The three bytes of a block's counts and scale: UFb, LSb and SCb. -/
def putCount (m : Memory) (a : Nat) (r : Byte × BlockOut) : Memory :=
  mwrite (mwrite (mwrite m a [BitVec.ofNat 8 r.2.uf]) (a + 8) [BitVec.ofNat 8 r.2.ls]) (a + 16) [r.1]

section
variable {m : Memory} (hm : m.wf)
include hm

theorem putCount_wf (a : Nat) (r : Byte × BlockOut) : (putCount m a r).wf := mwrite_wf (mwrite_wf (mwrite_wf hm _ _) _ _) _ _

theorem mget_putCount_out {a z : Nat} (r : Byte × BlockOut) (h : z ≠ a) (h8 : z ≠ a + 8) (h16 : z ≠ a + 16) :
    mget (putCount m a r) z = mget m z := by
  unfold putCount
  rw [mget_mwrite_out (mwrite_wf (mwrite_wf hm _ _) _ _) (by rw [List.length_singleton]; omega),
    mget_mwrite_out (mwrite_wf hm _ _) (by rw [List.length_singleton]; omega), mget_mwrite_out hm (by rw [List.length_singleton]; omega)]

theorem mget_putCount (a : Nat) (r : Byte × BlockOut) : mget (putCount m a r) a = BitVec.ofNat 8 r.2.uf ∧
    mget (putCount m a r) (a + 8) = BitVec.ofNat 8 r.2.ls ∧ mget (putCount m a r) (a + 16) = r.1 := by
  have h1 := mwrite_wf hm a [BitVec.ofNat 8 r.2.uf]
  have h2 := mwrite_wf h1 (a + 8) [BitVec.ofNat 8 r.2.ls]
  unfold putCount
  refine ⟨?_, ?_, mget_mwrite_in (k := 0) h2 (by simp)⟩
  · rw [mget_mwrite_out h2 (by omega), mget_mwrite_out h1 (by omega)]
    exact mget_mwrite_in (k := 0) hm (by simp)
  · rw [mget_mwrite_out h2 (by omega)]
    exact mget_mwrite_in (k := 0) h1 (by simp)

end

/-- The counts of blocks from block b on, at the row record's first byte a. -/
def putCounts (a : Nat) : Nat → List (Byte × BlockOut) → Memory → Memory
  | _, [], m => m
  | b, r :: rs, m => putCounts a (b + 1) rs (putCount m (a + b) r)

section
variable {a b : Nat} {rs : List (Byte × BlockOut)} {m : Memory} (hm : m.wf)
include hm

/-- Bytes beside the counts of the blocks keep what they hold. -/
theorem mget_putCounts_out {z : Nat} (h : ∀ k < rs.length, z ≠ a + (b + k) ∧ z ≠ a + (b + k) + 8 ∧ z ≠ a + (b + k) + 16) :
    mget (putCounts a b rs m) z = mget m z := by
  induction rs generalizing b m with
  | nil => rfl
  | cons r rs ih =>
    have h0 := h 0 (by simp)
    rw [putCounts, ih (putCount_wf hm ..) fun k hk => ?_, mget_putCount_out hm r (by omega) (by omega) (by omega)]
    have := h (k + 1) (by simpa using hk)
    omega

/-- Each of the at most six blocks of a row has its counts in its own three bytes. -/
theorem mget_putCounts (h6 : b + rs.length ≤ 6) {k : Nat} (hk : k < rs.length) :
    mget (putCounts a b rs m) (a + (b + k)) = BitVec.ofNat 8 rs[k].2.uf ∧
      mget (putCounts a b rs m) (a + (b + k) + 8) = BitVec.ofNat 8 rs[k].2.ls ∧ mget (putCounts a b rs m) (a + (b + k) + 16) = rs[k].1 := by
  induction rs generalizing b m k with
  | nil => simp at hk
  | cons r rs ih =>
    have hlen : b + 1 + rs.length ≤ 6 := by simpa [Nat.add_assoc, Nat.add_comm 1] using h6
    have hw := putCount_wf hm (a + b) r
    cases k with
    | zero =>
      obtain ⟨h0, h8, h16⟩ := mget_putCount hm (a + b) r
      refine ⟨?_, ?_, ?_⟩
      · rw [putCounts, mget_putCounts_out hw fun k hk => by omega]; exact h0
      · rw [putCounts, mget_putCounts_out hw fun k hk => by omega]; exact h8
      · rw [putCounts, mget_putCounts_out hw fun k hk => by omega]; exact h16
    | succ k =>
      have := ih hw hlen (by simpa using hk)
      rwa [show b + 1 + k = b + (k + 1) by omega] at this

end

theorem recByte_uf (ts : BitVec 2) (i b : Nat) : recByte ts i 0 b = rowRec ts i + b := by unfold recByte; omega
theorem recByte_ls (ts : BitVec 2) (i b : Nat) : recByte ts i 2 b = rowRec ts i + b + 8 := by unfold recByte; omega
theorem recByte_sc (ts : BitVec 2) (i b : Nat) : recByte ts i 4 b = rowRec ts i + b + 16 := by unfold recByte; omega

/-- MCVT writes the counts of one block, the p.2-th of its row, into the record of row t. -/
def Ctx.writeCount (h : EngCmd) (t : Nat) (c : Ctx) (p : (Byte × BlockOut) × Nat) : Ctx :=
  ((c.bufWrite .cb (recByte h.ts t 0 (recCol0 h.recA / 32 + p.2)) [BitVec.ofNat 8 p.1.2.uf]).bufWrite .cb
    (recByte h.ts t 2 (recCol0 h.recA / 32 + p.2)) [BitVec.ofNat 8 p.1.2.ls]).bufWrite .cb
      (recByte h.ts t 4 (recCol0 h.recA / 32 + p.2)) [p.1.1]

theorem mcvtCounts_eq (x : Ctx) (h : EngCmd) (i : Nat) (rs : List (Byte × BlockOut)) :
    x.mcvtCounts h i rs = rs.zipIdx.foldl (Ctx.writeCount h (recRow0 h.recA + i)) x := rfl

theorem cbuf_writeCount (h : EngCmd) (t : Nat) (c : Ctx) (r : Byte × BlockOut) (k : Nat) :
    (Ctx.writeCount h t c (r, k)).cbuf = putCount c.cbuf (rowRec h.ts t + (recCol0 h.recA / 32 + k)) r := by
  unfold Ctx.writeCount putCount
  rw [cbuf_bufWrite, cbuf_bufWrite, cbuf_bufWrite, recByte_uf, recByte_ls, recByte_sc]

theorem bufs_writeCount (h : EngCmd) (t : Nat) (c : Ctx) (p : (Byte × BlockOut) × Nat) :
    (Ctx.writeCount h t c p).wb = c.wb ∧ (Ctx.writeCount h t c p).ab = c.ab := by
  unfold Ctx.writeCount
  constructor
  · rw [(bufs_bufWrite_cb ..).1, (bufs_bufWrite_cb ..).1, (bufs_bufWrite_cb ..).1]
  · rw [(bufs_bufWrite_cb ..).2, (bufs_bufWrite_cb ..).2, (bufs_bufWrite_cb ..).2]

/-- MCVT writes the counts of a row into its record. -/
theorem cbuf_mcvtCounts (x : Ctx) (h : EngCmd) (i : Nat) (rs : List (Byte × BlockOut)) :
    (x.mcvtCounts h i rs).cbuf = putCounts (rowRec h.ts (recRow0 h.recA + i)) (recCol0 h.recA / 32) rs x.cbuf := by
  have hfold (n : Nat) (y : Ctx) : ((rs.zipIdx n).foldl (Ctx.writeCount h (recRow0 h.recA + i)) y).cbuf =
      putCounts (rowRec h.ts (recRow0 h.recA + i)) (recCol0 h.recA / 32 + n) rs y.cbuf := by
    induction rs generalizing n y with
    | nil => rw [List.zipIdx_nil, List.foldl_nil, putCounts]
    | cons r rs ih => rw [List.zipIdx_cons, List.foldl_cons, ih, cbuf_writeCount, putCounts, Nat.add_assoc]
  rw [mcvtCounts_eq, hfold, Nat.add_zero]

theorem bufs_mcvtCounts (x : Ctx) (h : EngCmd) (i : Nat) (rs : List (Byte × BlockOut)) :
    (x.mcvtCounts h i rs).wb = x.wb ∧ (x.mcvtCounts h i rs).ab = x.ab := by
  rw [mcvtCounts_eq]
  generalize rs.zipIdx = l
  induction l generalizing x with
  | nil => rw [List.foldl_nil]; exact ⟨rfl, rfl⟩
  | cons p l ih =>
    rw [List.foldl_cons]
    obtain ⟨hw, ha⟩ := ih (Ctx.writeCount h (recRow0 h.recA + i) x p)
    obtain ⟨hw', ha'⟩ := bufs_writeCount h (recRow0 h.recA + i) x p
    exact ⟨hw.trans hw', ha.trans ha'⟩

/-! ### What leaves for memory (R74) -/

theorem paths_onHead (s : State) (c : CoreId) (e : Eng) (f : EngCmd → EngCmd) : ((s.onHead c e f).core c).paths = (s.core c).paths := by
  unfold State.onHead
  rw [State.core_onCore]
  dsimp only
  split
  · rfl
  · cases e <;> rfl

theorem paths_rowDone (s : State) (c : CoreId) (e : Eng) (h : EngCmd) (i : Nat) : ((s.rowDone c e h i).core c).paths = (s.core c).paths := by
  unfold State.rowDone
  dsimp only
  split
  · rw [State.core_onCtx, paths_onHead]
  · exact paths_onHead ..

theorem paths_engWrite (s : State) (c : CoreId) (h : EngCmd) (i : Nat) (ps : List Piece) (bs : List Byte) :
    ((s.engWrite c h i ps bs).core c).paths = (s.core c).paths ++ onWay h i ps bs := by
  unfold State.engWrite
  rw [State.core_onCore]
  rfl

theorem queue_engWrite (s : State) (c : CoreId) (h : EngCmd) (i : Nat) (ps : List Piece) (bs : List Byte) :
    ((s.engWrite c h i ps bs).core c).me = (s.core c).me := by
  unfold State.engWrite
  rw [State.core_onCore]

/-! ### The commands (R212, R213) -/

/-- A part of a slot's row, element by element. -/
theorem tileRow_eq_map (s : State) (x : CtxId) (ts : BitVec 2) (r j n : Nat) :
    (s.ctx x).tileRow ts r j n = (List.range n).map fun k => xwAt s x ts r (j + k) := by
  refine List.ext_getElem (by simp) fun k _ _ => ?_
  rw [getElem_tileRow, List.getElem_map, List.getElem_range, xwAt_eq]

section
variable {s : State} {c : CoreId} {h : EngCmd}

theorem exec_mcvtRowCommit (hr : s.burstRuns c = some h) (hk : h.kind = .mcvt) :
    exec (.mcvtRowCommit c) s = s.rowStep c .me h (recRows h.recA) (s.mcvtStep c h) := by
  show execMcvtRowCommit c s = _
  unfold execMcvtRowCommit
  simp only [hr, hk]
  rfl

theorem exec_accRowTransfer_mstacc (hm : s.meHead c = some h) (hk : h.kind = .mstacc) :
    exec (.accRowTransfer c) s = s.rowStep c .me h (recRows h.recA) (s.mstaccStep c h) := by
  show execAccRowTransfer c s = _
  unfold execAccRowTransfer
  simp only [hm, hk]

/-- A row of MCVT whose blocks come out as rs: they leave for memory, and the row record takes their counts. -/
theorem mcvtRowCommit_row (hs : s.Canon) (hr : s.burstRuns c = some h) (hk : h.kind = .mcvt) (hp : h.pageFault = none)
    (ho : s.overdue c h = false) (hi : nextRow s h < recRows h.recA) {f : Fmt} (hf : h.fmtA = some f) {ss : List Byte} {ps qs : List Piece}
    {rs : List (Byte × BlockOut)} (hrs : (s.ctx h.x).mcvtBlocks h f ss (nextRow s h) = rs) (h6 : recCol0 h.recA / 32 + rs.length ≤ 6)
    (hss : (if h.auto then .ok [] else s.scaleRow h (h.xl .store .roleOut) h.recA (nextRow s h) 0 (recKblk h.recA)) = .ok ss)
    (hps : s.engXl (h.xl .store .roleOut) (rowVa (recVa h.recA) (nextRow s h) (recRstr h.recA)) (recKblk h.recA * 4 * f.cw) = .ok ps)
    (hqs : (if h.auto && recSva h.recA != 0 then
      s.engXl (h.xl .store .roleOut) (rowVa (recSva h.recA) (nextRow s h) (recSstr h.recA)) (recKblk h.recA) else .ok []) = .ok qs) :
    ∃ u, exec (.mcvtRowCommit c) s = .next u ∧
      OnlyCb s u h.x (fun a => rowRec h.ts (recRow0 h.recA + nextRow s h) ≤ a ∧ a < rowRec h.ts (recRow0 h.recA + nextRow s h) + 24) ∧
      Progress u h.x (nextRow s h + 1) ∧
      (u.core c).paths = (s.core c).paths ++ onWay h (nextRow s h) ps (contBytes f.cw (rs.flatMap fun x => x.2.pats)) ++
        onWay h (nextRow s h) qs (rs.map Prod.fst) ∧
      (u.ctx h.x).cbuf = putCounts (rowRec h.ts (recRow0 h.recA + nextRow s h)) (recCol0 h.recA / 32) rs (s.ctx h.x).cbuf := by
  subst hrs
  have hu : h.usesMrow = true := by simp [EngCmd.usesMrow, hk]
  obtain ⟨_, _, hwf⟩ := hs.ctx h.x
  obtain ⟨q, hq⟩ := meHead_cmds (burstRuns_some hr).1
  set rs := (s.ctx h.x).mcvtBlocks h f ss (nextRow s h)
  let s2 := (s.engWrite c h (nextRow s h) ps (contBytes f.cw (rs.flatMap fun x => x.2.pats))).engWrite c h (nextRow s h) qs (rs.map Prod.fst)
  have hq2 : (s2.core c).me.cmds = h :: q := by rw [queue_engWrite, queue_engWrite, hq]
  obtain ⟨honly, hprog, hkeep⟩ := rowDone_onCtx hq2 hu (f := fun x => x.mcvtCounts h (nextRow s h) rs)
    (p := fun a => rowRec h.ts (recRow0 h.recA + nextRow s h) ≤ a ∧ a < rowRec h.ts (recRow0 h.recA + nextRow s h) + 24) (bufs_mcvtCounts ..)
    (fun a ha => by rw [cbuf_mcvtCounts]; exact mget_putCounts_out hwf fun k hk => by omega) (nextRow s h)
  have hstep : s.mcvtStep c h (nextRow s h) = .ok ((s2.onCtx h.x fun x => x.mcvtCounts h (nextRow s h) rs).rowDone c .me h (nextRow s h)) := by
    unfold State.mcvtStep
    simp only [hf, hss, hps, hqs]
    rfl
  refine ⟨_, (exec_mcvtRowCommit hr hk).trans (rowStep_row hu hp ho hi hstep), honly, hprog, ?_, ?_⟩
  · rw [paths_rowDone, State.core_onCtx, paths_engWrite, paths_engWrite]
  · rw [hkeep.cbuf, cbuf_mcvtCounts]
    rfl

/-- A row of MSTACC leaves for memory. -/
theorem accRowTransfer_mstacc (hm : s.meHead c = some h) (hk : h.kind = .mstacc) (hp : h.pageFault = none) (ho : s.overdue c h = false)
    (hi : nextRow s h < recRows h.recA) {ps : List Piece}
    (hps : s.engXl (h.xl .ceDst .none) (rowVa (recVa h.recA) (nextRow s h) (recRstr h.recA)) (21 * (32 * recKblk h.recA)) = .ok ps) :
    ∃ u, exec (.accRowTransfer c) s = .next u ∧ SameBytes s u ∧ Progress u h.x (nextRow s h + 1) ∧
      (u.core c).paths = (s.core c).paths ++ onWay h (nextRow s h) ps
        ((((s.ctx h.x).tileRow h.ts (recRow0 h.recA + nextRow s h) (recCol0 h.recA) (32 * recKblk h.recA)).flatMap fun x => bvBytes 20 x.1) ++
          ((s.ctx h.x).tileRow h.ts (recRow0 h.recA + nextRow s h) (recCol0 h.recA) (32 * recKblk h.recA)).map Prod.snd) := by
  have hu : h.usesMrow = true := by simp [EngCmd.usesMrow, hk]
  obtain ⟨q, hq⟩ := meHead_cmds hm
  let xs := (s.ctx h.x).tileRow h.ts (recRow0 h.recA + nextRow s h) (recCol0 h.recA) (32 * recKblk h.recA)
  let s1 := s.engWrite c h (nextRow s h) ps ((xs.flatMap fun x => bvBytes 20 x.1) ++ xs.map Prod.snd)
  have hq1 : (s1.core c).me.cmds = h :: q := by rw [queue_engWrite, hq]
  obtain ⟨hkeep, -⟩ := rowDone_keeps hq1 h (nextRow s h)
  have hstep : s.mstaccStep c h (nextRow s h) = .ok (s1.rowDone c .me h (nextRow s h)) := by
    unfold State.mstaccStep
    simp only [hps]
    rfl
  refine ⟨_, (exec_accRowTransfer_mstacc hm hk).trans (rowStep_row hu hp ho hi hstep), 
    .trans (.of_eq (t := s1) rfl rfl) hkeep.bytes, rowDone_progress hu .., ?_⟩
  rw [paths_rowDone, paths_engWrite]

end

end Sys2Proof.Machine
end

section
/-!
PROOF. The statement about the rows that leave for memory (R52 to R58, R210 to R213).
-/
namespace Sys2Proof
open Sys2Proof.Machine Sys2Proof.Claims

/-- Settles O37: the blocks of a row by the elements of the slot, and their counts by the bytes of the row record. -/
theorem convertedRows : Obligations.ConvertedRows := by
  unfold Obligations.ConvertedRows
  intro s c h f ss ps qs i r row kb b0 va vals rec0 sc out t hs
  refine ⟨?_, ?_⟩
  · intro hb hk hp ho hi hf hrow h6 hkb hss hps hqs
    have hrs : (s.ctx h.x).mcvtBlocks h f (if h.auto then [] else ss) i = (List.range kb).map fun k => (sc k, out k) := by
      refine List.map_congr_left fun k _ => ?_
      dsimp only
      rw [tileRow_eq_map, List.map_map, ← Nat.add_assoc (rowRec ..)]
      unfold out sc
      cases h.auto <;> rfl
    have hlen : ((List.range kb).map fun k => (sc k, out k)).length = kb := by simp
    obtain ⟨u, he, honly, hprog, hpaths, hcb⟩ := mcvtRowCommit_row hs hb hk hp ho hi hf (ps := ps) (qs := qs) hrs (by rwa [hlen])
      (by cases ha : h.auto with
        | true => rfl
        | false => exact hss ha) hps (by
        split at hqs
        · next h1 => rw [← hqs]; exact if_pos h1
        · next h1 => rw [hqs]; exact if_neg h1)
    refine ⟨u, he, honly, hprog, ?_, fun k hk => ?_⟩
    · rw [hpaths, List.flatMap_map, List.map_map]
      rfl
    · obtain ⟨_, _, hwf⟩ := hs.ctx h.x
      have hc := mget_putCounts (a := rowRec h.ts row) (b := b0) (rs := (List.range kb).map fun k => (sc k, out k)) hwf (by rwa [hlen])
        (k := k) (by rwa [hlen])
      rw [List.getElem_map, List.getElem_range, ← hcb] at hc
      obtain ⟨huf, hls, hscb⟩ := hc
      have place (a d : Nat) : a + d + b0 + k = a + (b0 + k) + d := by omega
      refine ⟨?_, ?_, ?_⟩
      · rw [Nat.add_assoc rec0]; exact huf
      · rw [place rec0]; exact hls
      · rw [place rec0]; exact hscb
  · intro hm hk hp ho hi hps
    obtain ⟨u, he, hbytes, hprog, hpaths⟩ := accRowTransfer_mstacc hm hk hp ho hi hps
    refine ⟨u, he, hbytes, hprog, hpaths.trans ?_⟩
    rw [tileRow_eq_map, List.flatMap_map, List.map_map]
    rfl

end Sys2Proof
end

section
/-!
PROOF. Bit vectors as bytes: a field of the vector is the bytes of its place, and pieces that are read give the bytes that they name (R42, R60).
-/
namespace Sys2Proof.Machine

open Claims

/-! ### Bytes of a number -/

theorem bytesNat_drop (bs : List Byte) (k : Nat) : bytesNat (bs.drop k) = bytesNat bs / 256 ^ k := by
  induction k generalizing bs with
  | zero => simp
  | succ k ih =>
    cases bs with
    | nil => simp [bytesNat]
    | cons b bs =>
      have hb := b.isLt
      rw [List.drop_succ_cons, ih, bytesNat, Nat.pow_succ', ← Nat.div_div_eq_div_mul]
      congr 1
      omega

theorem bytesNat_take (bs : List Byte) (n : Nat) : bytesNat (bs.take n) = bytesNat bs % 256 ^ n := by
  induction n generalizing bs with
  | zero => simp [bytesNat, Nat.mod_one]
  | succ n ih =>
    cases bs with
    | nil => simp [bytesNat]
    | cons b bs =>
      have hb := b.isLt
      rw [List.take_succ_cons, bytesNat, ih, bytesNat, Nat.pow_succ', Nat.mod_mul]
      congr 1
      · omega
      · congr 2
        omega

/-- A field of whole bytes of a vector holds the bytes of its place. -/
theorem extractLsb'_bytesBv {w n lo : Nat} (bs : List Byte) (k m : Nat) (hl : lo = 8 * k) (hn : n = 8 * m) (h : lo + n ≤ w) :
    (bytesBv w bs).extractLsb' lo n = BitVec.ofNat n (bytesNat ((bs.drop k).take m)) := by
  subst hl hn
  have h256 (j : Nat) : 256 ^ j = 2 ^ (8 * j) := by rw [Nat.pow_mul]
  refine BitVec.eq_of_getLsbD_eq fun i hi => ?_
  rw [bytesNat_take, bytesNat_drop, h256, h256]
  simp only [BitVec.getLsbD_extractLsb', bytesBv, BitVec.getLsbD_ofNat, Nat.testBit_mod_two_pow, Nat.testBit_div_two_pow]
  rw [Nat.add_comm (8 * k)]
  simp [hi, show i + 8 * k < w by omega]

/-- An 8-bit element of bytes is one of them, or 0 above them. -/
theorem elt_bytesBv (bs : List Byte) {k : Nat} (hk : k < 128) : elt 8 (bytesBv 1024 bs) k = bs.getD k 0 := by
  rw [elt, extractLsb'_bytesBv bs k 1 rfl rfl (by omega), List.getD_eq_getElem?_getD, ← Nat.add_zero k, ← List.getElem?_drop, Nat.add_zero]
  cases bs.drop k with
  | nil => rfl
  | cons b bs => simp [bytesNat]

/-- The bytes of a vector, one by one. -/
theorem bvBytes_eq_map {w : Nat} (n : Nat) (x : BitVec w) : bvBytes n x = (List.range n).map fun k => x.extractLsb' (8 * k) 8 := by
  have h (y : Nat) : natBytes n y = (List.range n).map fun k => BitVec.ofNat 8 (y / 256 ^ k) := by
    induction n generalizing y with
    | zero => rfl
    | succ n ih =>
      rw [natBytes, ih, List.range_succ_eq_map, List.map_cons, List.map_map]
      simp [Nat.div_div_eq_div_mul, Nat.pow_succ', Function.comp_def]
  rw [bvBytes, h]
  refine List.map_congr_left fun k _ => BitVec.eq_of_toNat_eq ?_
  simp [BitVec.extractLsb'_toNat, Nat.shiftRight_eq_div_pow, Nat.pow_mul]

/-- A field of a word of a record, as a field of the record. -/
theorem recFld_eq {w k lo n : Nat} (r : BitVec w) (h : lo + n ≤ 32) : recFld r k lo n = ((r.extractLsb' (32 * k) 32).extractLsb' lo n).toNat := by
  refine congrArg BitVec.toNat (BitVec.eq_of_getLsbD_eq fun i hi => ?_)
  simp [hi, show lo + i < 32 by omega, Nat.add_assoc]

/-! ### What pieces read -/

theorem length_readPlace (s : State) (p : Place) (n : Nat) : (s.readPlace p n).length = n := by
  have hdev (d : Device) (a : Nat) : (d.memRead a n).length = n := by
    unfold Device.memRead
    split
    · exact length_mread ..
    · simp [upTo]
  cases p with
  | devMem d a => exact hdev ..
  | beyond d a => exact hdev ..
  | hostMem d a => exact length_mread ..
  | bufMem xs b off =>
    cases xs with
    | nil => exact List.length_replicate
    | cons x xs => exact length_mread ..
  | _ => exact List.length_replicate

theorem length_readPieces (s : State) (ps : List Piece) : (s.readPieces ps).length = (ps.map Piece.len).sum := by
  induction ps with
  | nil => rfl
  | cons p ps ih => rw [State.readPieces, List.length_append, length_readPlace, ih, List.map_cons, List.sum_cons]

/-- The pieces of an access hold no more bytes than it has. -/
theorem sum_cutFrom_le (k va n p : Nat) : ((cutFrom k va n p).map fun c => c.2.1).sum ≤ n := by
  induction k generalizing va n p with
  | zero => exact Nat.zero_le n
  | succ k ih =>
    unfold cutFrom
    split
    · exact Nat.zero_le n
    · have := ih (va + min n (16 - va % 16)) (n - min n (16 - va % 16)) (p + min n (16 - va % 16))
      simp only [List.map_cons, List.sum_cons]
      omega

theorem xlPieces_len {s : State} {t : Xl} {l : List (Nat × Nat × Nat)} {ps : List Piece} (h : s.xlPieces t l = .ok ps) :
    ps.map Piece.len = l.map fun c => c.2.1 := by
  induction l generalizing ps with
  | nil => cases h; rfl
  | cons c l ih =>
    obtain ⟨va, n, p⟩ := c
    unfold State.xlPieces at h
    split at h
    · cases h
    · split at h
      · cases h
      · next hr => cases h; simp [ih hr]

/-- A read of n bytes that translates gives at most n bytes. -/
theorem length_readPieces_le {s : State} {t : Xl} {va : Word} {n : Nat} {ps : List Piece} (h : s.xlAccess t va n = .ok ps) :
    (s.readPieces ps).length ≤ n := by
  unfold State.xlAccess at h
  split at h
  · cases h
  · rw [length_readPieces, xlPieces_len h]
    exact sum_cutFrom_le ..

theorem writePieces_cur (s : State) (bs : List Byte) (ps : List Piece) : (s.writePieces bs ps).cur = s.cur := by
  induction ps generalizing s with
  | nil => rfl
  | cons p ps ih => exact (ih _).trans (writePlace_streams ..).2

end Sys2Proof.Machine
end

section
/-!
PROOF. Entries of the statistics table and the format table (R86, R87, R237, R238).
-/
namespace Sys2Proof.Machine

open Claims

/-! ### The TID (R237) -/

theorem tidOf_held {s : State} {a : BitVec 5} (h : (s.rs a).toNat < s.cx.stcount.toNat ∧ (s.rs a).toNat < 4096) :
    s.tidOf a = some (s.rs a).toNat := if_pos (by simpa using h)
theorem tidOf_none {s : State} {a : BitVec 5} (h : ¬ ((s.rs a).toNat < s.cx.stcount.toNat ∧ (s.rs a).toNat < 4096)) : s.tidOf a = none :=
  if_neg (by simpa using h)

theorem exec_statr_none {s : State} {a : BitVec 5} (d : BitVec 5) (h : s.tidOf a = none) : exec (.statr d a) s = s.raise .statTid := by
  show execStatr d a s = _
  simp only [execStatr, h]
theorem exec_statw_none {s : State} {a : BitVec 5} (d : BitVec 5) (mask : BitVec 10) (h : s.tidOf a = none) :
    exec (.statw a d mask) s = s.raise .statTid := by
  show execStatw a d mask s = _
  simp only [execStatw, h]

/-! ### STATR -/

section
variable {s : State} {a d : BitVec 5} {tid : Nat} {ps : List Piece} (ht : s.tidOf a = some tid) (hu : Usable s [s.vreg (d.setWidth 6)])
include ht hu

theorem exec_statr (hx : s.xlAccess ⟨s.xid, s.cx.asid.toNat, s.st.priv, .load, .scalar⟩ (s.cx.statVa tid) 64 = .ok ps)
    (hf : s.firstStop ps = none) : exec (.statr d a) s = .next ((s.onSt fun st =>
      st.willLand (now s + 2) (.v (s.vreg (d.setWidth 6))) (bytesBv 1024 (s.readPieces ps)) allLanes).adv 4) := by
  show execStatr d a s = _
  unfold execStatr
  simp only [ht, vecHold_usable hu (qs := []) (by simp), hx, hf]
  rfl

end

/-! ### STATW -/

/-- Word k of the entry that STATW leaves (R237). -/
def mergedWord (old : BitVec 512) (v : Vec) (mask : BitVec 10) (k : Nat) : BitVec 32 :=
  if k = 0 then statWord old 0 + 1 else if k ≤ 10 && mask.getLsbD (k - 1) then recWord v k else statWord old k

theorem statMerge_eq (old : BitVec 512) (v : Vec) (mask : BitVec 10) :
    statMerge old v mask = bytesBv 512 ((List.range 16).flatMap fun k => bvBytes 4 (mergedWord old v mask k)) := by
  rw [List.range_succ_eq_map, List.flatMap_cons, List.flatMap_map]
  rfl

theorem word_statMerge (old : BitVec 512) (v : Vec) (mask : BitVec 10) {k : Nat} (hk : k < 16) :
    (statMerge old v mask).extractLsb' (32 * k) 32 = mergedWord old v mask k := by
  have hp := flatMap_piece (f := fun k => bvBytes 4 (mergedWord old v mask k)) (n := 4) (fun _ => length_bvBytes ..) (List.range 16)
    (k := k) (by simpa using hk)
  rw [List.getElem_range, Nat.mul_comm] at hp
  rw [statMerge_eq, extractLsb'_bytesBv _ (4 * k) 4 (by omega) rfl (by omega), hp]
  exact bytesBv_bvBytes (by decide) _

theorem statWord_bytesBv (bs : List Byte) {k : Nat} (hk : k < 16) :
    statWord (bytesBv 512 bs) k = BitVec.ofNat 32 (bytesNat ((bs.drop (4 * k)).take 4)) :=
  extractLsb'_bytesBv bs (4 * k) 4 (by omega) rfl (by omega)

/-- The lines of the pieces leave the GLC: nothing but cores changes. -/
theorem foldl_glcDrop (s : State) (c : CoreId) (ps : List Piece) :
    ∃ cs, ps.foldl (fun s p => s.glcDrop c (s.locate p.loc)) s = { s with cores := cs } := by
  induction ps generalizing s with
  | nil => exact ⟨s.cores, rfl⟩
  | cons p ps ih =>
    obtain ⟨cs, e⟩ := ih (s.glcDrop c (s.locate p.loc))
    rw [List.foldl_cons, e]
    unfold State.glcDrop
    split <;> exact ⟨cs, rfl⟩

section
variable {s : State} {a d : BitVec 5} {mask : BitVec 10} {tid : Nat} {ps : List Piece} (ht : s.tidOf a = some tid)
  (hu : Usable s [s.vreg (d.setWidth 6)])
  (hx : s.xlAccess ⟨s.xid, s.cx.asid.toNat, s.st.priv, .store, .scalar⟩ (s.cx.statVa tid) 64 = .ok ps) (hf : s.firstStop ps = none)
  (hl : s.st.liveFrame (s.cx.statVa tid).toNat 64 = none) (hj : AtJoin s) (ha : Arrived s) (ho : s.ownPieces s.cur ps = false)
include ht hu hx hf hl hj ha ho

/-- Where nothing holds it back, STATW takes its step on the entry. -/
theorem exec_statw : exec (.statw a d mask) s =
    let new := statMerge (bytesBv 512 (s.readPieces ps)) (s.st.rv (s.vreg (d.setWidth 6))) mask
    if statRefused new then s.raise .statEntry (s.cx.statVa tid)
    else .next ((((ps.foldl (fun u p => u.glcDrop s.cur.core (u.locate p.loc)) (s.writePieces (bvBytes 64 new) ps)).ungate).acquire s.cur.core
      .device).adv 4) := by
  show execStatw a d mask s = _
  have hr : s.frameRace (s.cx.statVa tid) 64 = none := by rw [State.frameRace, hl]; rfl
  unfold execStatw State.statStep
  simp only [ht, vecHold_usable hu (qs := []) (by simp), hx, hf, hr, joinHold_release hj ha (sc := .device) (by decide), ho,
    Bool.false_eq_true, if_false]
  generalize statRefused (statMerge _ _ _) = refused
  cases refused <;> rfl

end

/-- What follows a write that has left every stream as it was: the stream passes its join point and acquires. -/
theorem acquires_after {s w : State} (hst : w.streams = s.streams) (hcur : w.cur = s.cur) :
    SameRegs s.st.ungate ((w.ungate.acquire s.cur.core .device).adv 4).st ∧
      ((w.ungate.acquire s.cur.core .device).adv 4).st.ex = s.st.ex.adv 4 ∧
      ((w.ungate.acquire s.cur.core .device).adv 4).st.status = .running ∧
      (∀ id, id ≠ s.cur → ((w.ungate.acquire s.cur.core .device).adv 4).strm id = s.strm id) ∧
      (((w.ungate.acquire s.cur.core .device).adv 4).core s.cur.core).glc = [] ∧
      SameBytes w ((w.ungate.acquire s.cur.core .device).adv 4) := by
  have hstrm (id : SlotId) : w.strm id = s.strm id := by unfold State.strm; rw [hst]
  have hwst : w.st = s.st := by unfold State.st; rw [hstrm, hcur]
  have hp := passed_acquire w (sc := .device) (by decide) 4
  rw [hcur, hwst] at hp
  obtain ⟨hregs, hplace, hruns, hbeside⟩ := hp
  refine ⟨hregs, hplace.trans (congrArg (fun st => st.ex.adv 4) hwst), hruns,
    fun id hid => (hbeside.streams id (by rwa [← hcur] at hid)).trans (hstrm id), ?_, .trans (.of_eq (t := acquired w) rfl rfl) hbeside.bytes⟩
  have hcore : ((w.ungate.acquire s.cur.core .device).adv 4).core s.cur.core = (acquired w).core s.cur.core := by
    unfold State.core; rw [hbeside.cores]
  rw [hcore, acquired, hcur, State.core_onCore]

/-! ### The entries that STATW refuses (R237) -/

/-- The refusals in the order of the checks, and in that of R237. -/
theorem refusals_reordered (v a b c d f g i j k l : Prop) : (v ∧ (((((((((a ∨ b) ∨ c) ∨ d) ∨ f) ∨ g) ∨ i) ∨ j) ∨ k) ∨ l)) ↔
    (v ∧ (a ∨ b ∨ c ∨ g ∨ i ∨ j ∨ k ∨ d ∨ l ∨ f)) := by tauto

theorem statRefused_iff (e : BitVec 512) : statRefused e = true ↔ (statWord e 1).getLsbD 16 = true ∧
    ((statWord e 1).extractLsb' 17 15 ≠ 0 ∨ (statWord e 1).extractLsb' 4 6 ≠ 0 ∨ (∃ k, 11 ≤ k ∧ k < 16 ∧ statWord e k ≠ 0) ∨
      (statWord e 1).extractLsb' 13 2 = 3 ∨ 6 < ((statWord e 1).extractLsb' 0 4).toNat ∨ ((statWord e 1).extractLsb' 10 3).toNat = 0 ∨
      4 < ((statWord e 1).extractLsb' 10 3).toNat ∨
      (∃ k, ((statWord e 1).extractLsb' 10 3).toNat ≤ k ∧ k < 4 ∧ statWord e (3 + k) ≠ 1) ∨
      (((statWord e 1).extractLsb' 0 4).toNat = 0 ∧ nfValid (statWord e 2) = false) ∨
      (((statWord e 1).extractLsb' 0 4).toNat ≠ 0 ∧ statWord e 2 ≠ 0)) := by
  have hfld (lo n : Nat) (h : lo + n ≤ 32) := recFld_eq (k := 1) e h
  have hzero {n : Nat} (x : BitVec n) : (x.toNat != 0) = true ↔ x ≠ 0 := by rw [bne_iff_ne, ne_eq, ne_eq, BitVec.toNat_eq]; rfl
  have hres : ((upTo 5).any fun k => e.extractLsb' (32 * (11 + k)) 32 != 0#32) = true ↔
      ∃ k, 11 ≤ k ∧ k < 16 ∧ e.extractLsb' (32 * k) 32 ≠ 0 := by
    simp only [upTo, List.any_eq_true, List.mem_range, bne_iff_ne]
    refine ⟨fun ⟨k, hk, h⟩ => ⟨11 + k, by omega, by omega, h⟩, fun ⟨k, h11, h16, h⟩ => ⟨k - 11, by omega, ?_⟩⟩
    rwa [Nat.add_sub_cancel' h11]
  have hdim (rk : Nat) : ((upTo 4).any fun k => decide (rk ≤ k) && recFld e (3 + k) 0 32 != 1) = true ↔
      ∃ k, rk ≤ k ∧ k < 4 ∧ e.extractLsb' (32 * (3 + k)) 32 ≠ 1 := by
    have hw (k : Nat) : recFld e k 0 32 = 1 ↔ e.extractLsb' (32 * k) 32 = 1 := by rw [BitVec.toNat_eq]; rfl
    simp only [upTo, List.any_eq_true, List.mem_range, Bool.and_eq_true, decide_eq_true_eq, bne_iff_ne, ne_eq, hw]
    exact ⟨fun ⟨k, hk, hr, h⟩ => ⟨k, hr, hk, h⟩, fun ⟨k, hr, hk, h⟩ => ⟨k, hk, hr, h⟩⟩
  have hlay : ((e.extractLsb' (32 * 1) 32).extractLsb' 13 2).toNat = 3 ↔ (e.extractLsb' (32 * 1) 32).extractLsb' 13 2 = 3 := by
    rw [BitVec.toNat_eq]; rfl
  simp only [statRefused, statValid, statBad, statMalformed, statLayout, statRank, statFcode, statDim, statWord, recWord,
    hfld 17 15 (by decide), hfld 4 6 (by decide), hfld 13 2 (by decide), hfld 0 4 (by decide), hfld 10 3 (by decide),
    Bool.and_eq_true, Bool.or_eq_true, hzero (n := 15), hzero (n := 6), hres, hdim, beq_iff_eq, decide_eq_true_eq, bne_iff_ne, hlay,
    Bool.not_eq_true']
  exact refusals_reordered ..

/-! ### FMTLD -/

section
variable {s s1 : State} {a : BitVec 5} {r : BitVec 1024} (h : Record s (s.rs a) 64 s1 r)
include h

theorem exec_fmtld_valid (hv : ∀ k < 16, nfValid (recWord r k) = true) :
    exec (.fmtld a) s = .next ((s1.onSt fun st => { st with fmt := Vector.ofFn fun k => recWord r k.val }).adv 4) := by
  show execFmtld a s = _
  have hall : ((upTo 16).map fun k => recWord r k).all nfValid = true := by
    rw [List.all_eq_true]
    intro w hw
    obtain ⟨k, hk, rfl⟩ := List.mem_map.1 hw
    exact hv k (List.mem_range.1 hk)
  simp only [execFmtld, show s.readRec .load (s.rs a) 64 = .ok s1 r from h, hall, if_true]

theorem exec_fmtld_invalid {k : Nat} (hk : k < 16) (hv : nfValid (recWord r k) = false) :
    exec (.fmtld a) s = s.raise .fmtDesc (s.rs a) := by
  show execFmtld a s = _
  have hall : ((upTo 16).map fun k => recWord r k).all nfValid = false := by
    rw [List.all_eq_false]
    exact ⟨_, List.mem_map.2 ⟨k, List.mem_range.2 hk, rfl⟩, by simp [hv]⟩
  simp only [execFmtld, show s.readRec .load (s.rs a) 64 = .ok s1 r from h, hall, Bool.false_eq_true, if_false]

end

theorem exec_fmtld_misaligned {s : State} {a : BitVec 5} (h : (s.rs a).toNat % 64 ≠ 0) : exec (.fmtld a) s = s.raise .recAlign (s.rs a) := by
  show execFmtld a s = _
  simp only [execFmtld, readRec_misaligned h]

end Sys2Proof.Machine
end

section
/-!
PROOF. The statement about statr, statw and fmtld (R42, R86, R87, R237, R238).
-/
namespace Sys2Proof
open Sys2Proof.Machine Sys2Proof.Claims

/-- Settles O45: the entry word by word, and the record descriptor by descriptor. -/
theorem statisticsAndFormats : Obligations.StatisticsAndFormats := by
  unfold Obligations.StatisticsAndFormats
  intro s s1 d a mask ps r tid va held v xl old word rank fcode refused merged
  refine ⟨fun hh hx hf hu => ?_, fun hh hx hf hl hu hj ha ho => ?_, fun hh hc => ?_, fun hr => ⟨fun hv => ?_, fun ⟨k, hk, hv⟩ hc => ?_⟩,
    fun hm hc => ?_⟩
  · refine ⟨_, bytesBv 1024 (s.readPieces ps), exec_statr (tidOf_held hh) hu hx hf, fun k hk => ?_, went_adv s _ 4 rfl⟩
    have hlen := length_readPieces_le hx
    rw [elt_bytesBv _ hk]
    split
    · rfl
    · exact List.getD_eq_default _ _ (by omega)
  · refine ⟨statMerge (bytesBv 512 (s.readPieces ps)) (s.st.rv v) mask, ?_, fun hn => ?_, fun hr hc => ?_⟩
    · refine ⟨(word_statMerge _ _ _ (by decide)).trans ?_, fun k h1 h16 => (word_statMerge _ _ _ h16).trans ?_⟩
      · rw [mergedWord, if_pos rfl, statWord_bytesBv _ (by decide)]
      · rw [mergedWord, if_neg (by omega), statWord_bytesBv _ h16]
        simp only [Bool.and_eq_true, decide_eq_true_eq]
        rfl
    · obtain ⟨cs, e⟩ := foldl_glcDrop (s.writePieces (bvBytes 64 (statMerge (bytesBv 512 (s.readPieces ps)) (s.st.rv v) mask)) ps) s.cur.core ps
      obtain ⟨hregs, hplace, hruns, hstrm, hglc, hbytes⟩ := acquires_after (s := s)
        (w := ps.foldl (fun u p => u.glcDrop s.cur.core (u.locate p.loc))
          (s.writePieces (bvBytes 64 (statMerge (bytesBv 512 (s.readPieces ps)) (s.st.rv v) mask)) ps))
        (by rw [e]; exact writePieces_streams ..) (by rw [e]; exact writePieces_cur ..)
      refine ⟨_, (exec_statw (tidOf_held hh) hu hx hf hl hj ha ho).trans (if_neg fun hr => hn ((statRefused_iff _).1 hr)), hregs, hplace, hruns,
        hstrm, hglc, ?_⟩
      rw [← bvBytes_eq_map]
      exact .trans (by rw [e]; exact .of_eq rfl rfl) hbytes
    · refine raises_of ((exec_statw (tidOf_held hh) hu hx hf hl hj ha ho).trans (if_pos ((statRefused_iff _).2 hr))) hc rfl
  · exact ⟨raises_of (exec_statr_none d (tidOf_none hh)) hc rfl, raises_of (exec_statw_none d mask (tidOf_none hh)) hc rfl⟩
  · obtain ⟨cs, rfl, -⟩ := readRec_caches hr
    have hp := went_adv { s with cores := cs } (fun st => { st with fmt := Vector.ofFn fun k => recWord r k.val }) 4 rfl
    refine ⟨_, exec_fmtld_valid hr hv, .of_eq rfl rfl, rfl, rfl, hp.place, hp.runs, ?_, hp.beside.streams, fun k => ?_⟩
    · have hfmt := hp.regs.fmt
      rw [hfmt]
      exact hp.regs
    · have hfmt := hp.regs.fmt
      rw [Stream.rfmt, hfmt, Vector.getElem_ofFn]
      rfl
  · exact raises_of (exec_fmtld_invalid hr hk hv) hc rfl
  · exact raises_of (exec_fmtld_misaligned hm) hc rfl

end Sys2Proof
end

section
/-!
PROOF. Fields that are replaced: bytes of a register and rows of a tile register (R194, R200).
-/
namespace Sys2Proof.Machine

open Claims

/-! ### A field of a number (R194, R201) -/

/-- A field of m bits from bit k that is replaced by v: its bits are those of v, and every other bit stays. -/
theorem testBit_replaceField {v m : Nat} (hv : v < 2 ^ m) (x k i : Nat) : (x - x / 2 ^ k % 2 ^ m * 2 ^ k + v * 2 ^ k).testBit i =
    if k ≤ i ∧ i < k + m then v.testBit (i - k) else x.testBit i := by
  have hlo : x % 2 ^ k < 2 ^ k := Nat.mod_lt _ (Nat.two_pow_pos k)
  have hx (u : Nat) : 2 ^ k * (2 ^ m * (x / 2 ^ k / 2 ^ m) + u) + x % 2 ^ k = 2 ^ k * (2 ^ m * (x / 2 ^ k / 2 ^ m)) + u * 2 ^ k + x % 2 ^ k := by ring
  have hsplit : x = 2 ^ k * (2 ^ m * (x / 2 ^ k / 2 ^ m) + x / 2 ^ k % 2 ^ m) + x % 2 ^ k := by
    rw [Nat.div_add_mod, Nat.div_add_mod]
  have hnew : x - x / 2 ^ k % 2 ^ m * 2 ^ k + v * 2 ^ k = 2 ^ k * (2 ^ m * (x / 2 ^ k / 2 ^ m) + v) + x % 2 ^ k := by
    rw [hx v]
    have := hsplit.trans (hx _)
    omega
  have hmid : x / 2 ^ k % 2 ^ m < 2 ^ m := Nat.mod_lt _ (Nat.two_pow_pos m)
  rw [hnew]
  conv_rhs => rw [hsplit]
  rw [Nat.testBit_two_pow_mul_add _ hlo, Nat.testBit_two_pow_mul_add _ hlo, Nat.testBit_two_pow_mul_add _ hv, Nat.testBit_two_pow_mul_add _ hmid]
  by_cases h1 : i < k
  · simp [h1, show ¬ k ≤ i by omega]
  · by_cases h2 : i - k < m
    · simp [h1, h2, show k ≤ i by omega, show i < k + m by omega]
    · simp [h1, h2, show ¬ i < k + m by omega]

/-- Bytes of a register after one has been replaced. -/
theorem elt8_setByte {n : Nat} (x : BitVec n) {b c : Nat} (v : Byte) (hc : 8 * c + 8 ≤ n) :
    elt8 (setByte x b v) c = if c = b then v else elt8 x c := by
  have hb : (byteOf x b).toNat = x.toNat / 2 ^ (8 * b) % 2 ^ 8 := by
    rw [byteOf, BitVec.extractLsb'_toNat, Nat.shiftRight_eq_div_pow]
  refine BitVec.eq_of_getLsbD_eq fun i hi => ?_
  rw [elt8, BitVec.getLsbD_extractLsb', setByte, hb, BitVec.getLsbD_ofNat, testBit_replaceField v.isLt]
  by_cases h : c = b
  · subst h
    simp [hi, show 8 * c + i < n by omega, BitVec.getLsbD]
  · rw [if_neg (by omega), if_neg h, elt8, BitVec.getLsbD_extractLsb']
    simp [hi, show 8 * c + i < n by omega, BitVec.getLsbD]

/-- Cells of a tile register after a row has been replaced. -/
theorem cell_setRow (t : BitVec 32768) {r q c cells : Nat} (hc : cells < 2 ^ 1024) (hq : q < 32) (hcol : c < 32) :
    (setRow t r cells).extractLsb' (1024 * q + 32 * c) 32 =
      if q = r then BitVec.ofNat 32 (cells / 2 ^ (32 * c)) else t.extractLsb' (1024 * q + 32 * c) 32 := by
  have hold : (t.extractLsb' (1024 * r) 1024).toNat = t.toNat / 2 ^ (1024 * r) % 2 ^ 1024 := by
    rw [BitVec.extractLsb'_toNat, Nat.shiftRight_eq_div_pow]
  refine BitVec.eq_of_getLsbD_eq fun i hi => ?_
  rw [BitVec.getLsbD_extractLsb', setRow, hold, Nat.mod_eq_of_lt hc, BitVec.getLsbD_ofNat, testBit_replaceField hc]
  by_cases h : q = r
  · subst h
    rw [if_pos rfl, if_pos (by omega), BitVec.getLsbD_ofNat, Nat.testBit_div_two_pow,
      show 1024 * q + 32 * c + i - 1024 * q = i + 32 * c by omega]
    simp [hi, show 1024 * q + 32 * c + i < 32768 by omega]
  · rw [if_neg (by omega), if_neg h, BitVec.getLsbD_extractLsb']
    simp [hi, show 1024 * q + 32 * c + i < 32768 by omega, BitVec.getLsbD]

end Sys2Proof.Machine
end

section
/-!
PROOF. Blocks and groups of a list, and the counts of converted blocks (R59, R194, R195).
-/
namespace Sys2Proof.Machine

open Claims

/-! ### Blocks of a list -/

section
variable {α β : Type}

/-- Block b of 32 elements. -/
theorem blocks32_getElem? (n : Nat) (xs : List α) (b : Nat) :
    (blocks32 n xs)[b]? = if b < n ∧ 32 * b < xs.length then some ((xs.drop (32 * b)).take 32) else none := by
  induction n generalizing xs b with
  | zero => simp [blocks32]
  | succ n ih =>
    unfold blocks32
    split
    · next h => simp [List.isEmpty_iff.1 h]
    · next h =>
      have h0 : 0 < xs.length := List.length_pos_iff.2 fun e => h (by simp [e])
      cases b with
      | zero => simp [h0]
      | succ b =>
        rw [List.getElem?_cons_succ, ih, List.drop_drop, List.length_drop, Nat.mul_succ, Nat.add_comm 32]
        refine if_congr ?_ rfl rfl
        omega

/-- Group g of eight elements. -/
theorem groups8_getElem? (n : Nat) (xs : List α) (g : Nat) :
    (groups8 n xs)[g]? = if g < n ∧ 8 * g < xs.length then some ((xs.drop (8 * g)).take 8) else none := by
  induction n generalizing xs g with
  | zero => simp [groups8]
  | succ n ih =>
    unfold groups8
    split
    · next h => simp [List.isEmpty_iff.1 h]
    · next h =>
      have h0 : 0 < xs.length := List.length_pos_iff.2 fun e => h (by simp [e])
      cases g with
      | zero => simp [h0]
      | succ g =>
        rw [List.getElem?_cons_succ, ih, List.drop_drop, List.length_drop, Nat.mul_succ, Nat.add_comm 8]
        refine if_congr ?_ rfl rfl
        omega

/-- Element j of piece i, where the pieces before it have n elements each. -/
theorem getElem?_flatMap_piece {f : α → List β} {n : Nat} {l : List α} {i j : Nat} (hi : i < l.length)
    (hn : ∀ k, (hk : k < i) → (f (l[k]'(hk.trans hi))).length = n) (hj : j < (f l[i]).length) : (l.flatMap f)[n * i + j]? = (f l[i])[j]? := by
  induction l generalizing i with
  | nil => simp at hi
  | cons a l ih =>
    rw [List.flatMap_cons]
    cases i with
    | zero => rw [Nat.mul_zero, Nat.zero_add]; exact List.getElem?_append_left hj
    | succ i =>
      have ha : (f a).length = n := hn 0 (Nat.succ_pos i)
      rw [Nat.mul_succ, List.getElem?_append_right (by omega), ha, show n * i + n + j - n = n * i + j by omega]
      exact ih (Nat.lt_of_succ_lt_succ hi) (fun k hk => hn (k + 1) (Nat.succ_lt_succ hk)) hj

/-- The part of a range below a bound. -/
theorem filter_range_add_lt (a n m : Nat) : (List.range m).filter (fun k => decide (a + k < n)) = List.range (min m (n - a)) := by
  induction m with
  | zero => simp
  | succ m ih =>
    rw [List.range_succ, List.filter_append, ih]
    by_cases h : a + m < n
    · rw [show min m (n - a) = m by omega, show min (m + 1) (n - a) = m + 1 by omega, List.range_succ]
      simp [h]
    · rw [show min m (n - a) = n - a by omega, show min (m + 1) (n - a) = n - a by omega]
      simp [h]

/-- A block of a list that a range makes. -/
theorem take_drop_map_range (g : Nat → α) (a n m : Nat) :
    (((List.range n).map g).drop a).take m = ((List.range m).filter fun k => decide (a + k < n)).map fun k => g (a + k) := by
  rw [filter_range_add_lt]
  refine List.ext_getElem (by simp) fun k _ _ => ?_
  simp

end

/-- The elements of a vector. -/
theorem elems_eq_map (v : Vec) (w n : Nat) : elems v w n = (List.range n).map fun k => (elt w v k).toNat := by
  refine List.ext_getElem (by simp) fun k _ _ => ?_
  rw [elems_getElem, List.getElem_map, List.getElem_range]

/-! ### The counts of converted blocks (R194, R195) -/

/-- VCVT writes the scale byte and the counts of block p.2. -/
def Stream.writeBlock (auto : Bool) (st : Stream) (p : (Byte × BlockOut) × Nat) : Stream :=
  { st with vcnt := setByte (setByte st.vcnt p.2 (BitVec.ofNat 8 p.1.2.uf)) (p.2 + 4) (BitVec.ofNat 8 p.1.2.ls)
            vsc := if auto then setByte st.vsc p.2 p.1.1 else st.vsc }

/-- What VCVT writes into block b is r. -/
def HoldsBlock (auto : Bool) (old : BitVec 32) (vcnt : Word) (vsc : BitVec 32) (b : Nat) (r : Byte × BlockOut) : Prop :=
  elt8 vcnt b = BitVec.ofNat 8 r.2.uf ∧ elt8 vcnt (b + 4) = BitVec.ofNat 8 r.2.ls ∧ elt8 vsc b = if auto then r.1 else elt8 old b

/-- The bytes of block b are as they were. -/
def KeepsBlock (st : Stream) (vcnt : Word) (vsc : BitVec 32) (b : Nat) : Prop :=
  elt8 vcnt b = elt8 st.vcnt b ∧ elt8 vcnt (b + 4) = elt8 st.vcnt (b + 4) ∧ elt8 vsc b = elt8 st.vsc b

section
variable (auto : Bool) (st : Stream) (r : Byte × BlockOut) {n b : Nat}

theorem writeBlock_holds (hn : n < 4) :
    HoldsBlock auto st.vsc (st.writeBlock auto (r, n)).vcnt (st.writeBlock auto (r, n)).vsc n r := by
  unfold Stream.writeBlock
  refine ⟨?_, ?_, ?_⟩
  · rw [elt8_setByte _ _ (by omega), if_neg (by omega), elt8_setByte _ _ (by omega), if_pos rfl]
  · rw [elt8_setByte _ _ (by omega), if_pos rfl]
  · cases auto with
    | false => rfl
    | true => exact (elt8_setByte _ _ (by omega)).trans (if_pos rfl)

theorem writeBlock_keeps (hn : n < 4) (hb : b < 4) (hne : b ≠ n) :
    KeepsBlock st (st.writeBlock auto (r, n)).vcnt (st.writeBlock auto (r, n)).vsc b := by
  unfold Stream.writeBlock
  refine ⟨?_, ?_, ?_⟩
  · rw [elt8_setByte _ _ (by omega), if_neg (by omega), elt8_setByte _ _ (by omega), if_neg hne]
  · rw [elt8_setByte _ _ (by omega), if_neg (by omega), elt8_setByte _ _ (by omega), if_neg (by omega)]
  · cases auto with
    | false => rfl
    | true => exact (elt8_setByte _ _ (by omega)).trans (if_neg hne)

end

/-- After the counts of at most four blocks have been written, each block holds its own. -/
theorem foldl_writeBlock (auto : Bool) (rs : List (Byte × BlockOut)) (n : Nat) (st : Stream) (h4 : n + rs.length ≤ 4) :
    ∃ vcnt vsc, (rs.zipIdx n).foldl (Stream.writeBlock auto) st = { st with vcnt := vcnt, vsc := vsc } ∧
      (∀ k, (hk : k < rs.length) → HoldsBlock auto st.vsc vcnt vsc (n + k) rs[k]) ∧
      ∀ b < 4, b < n ∨ n + rs.length ≤ b → KeepsBlock st vcnt vsc b := by
  induction rs generalizing n st with
  | nil => exact ⟨st.vcnt, st.vsc, rfl, fun k hk => absurd hk (by simp), fun b _ _ => ⟨rfl, rfl, rfl⟩⟩
  | cons r rs ih =>
    rw [List.length_cons] at h4
    obtain ⟨vcnt, vsc, e, hold, keep⟩ := ih (n + 1) (st.writeBlock auto (r, n)) (by omega)
    refine ⟨vcnt, vsc, by rw [List.zipIdx_cons, List.foldl_cons, e]; rfl, fun k hk => ?_, fun b hb h => ?_⟩
    · cases k with
      | zero =>
        obtain ⟨h1, h2, h3⟩ := writeBlock_holds auto st r (n := n) (by omega)
        obtain ⟨k1, k2, k3⟩ := keep n (by omega) (.inl (Nat.lt_succ_self n))
        exact ⟨k1.trans h1, k2.trans h2, k3.trans h3⟩
      | succ k =>
        obtain ⟨h1, h2, h3⟩ := hold k (by simpa using hk)
        obtain ⟨-, -, k3⟩ := writeBlock_keeps auto st r (n := n) (b := n + 1 + k) (by omega) (by simp at hk; omega) (by omega)
        rw [show n + (k + 1) = n + 1 + k by omega]
        exact ⟨h1, h2, h3.trans (by rw [k3]; rfl)⟩
    · rw [List.length_cons] at h
      obtain ⟨k1, k2, k3⟩ := keep b hb (by omega)
      obtain ⟨h1, h2, h3⟩ := writeBlock_keeps auto st r (n := n) (b := b) (by omega) hb (by omega)
      exact ⟨k1.trans h1, k2.trans h2, k3.trans h3⟩

theorem cvtCounts_eq (st : Stream) (auto : Bool) (rs : List (Byte × BlockOut)) :
    st.cvtCounts auto rs = rs.zipIdx.foldl (Stream.writeBlock auto) st := rfl

end Sys2Proof.Machine
end

section
/-!
PROOF. The patterns of the formats of IEEE fit their width (R44, R55, R56), and what TWR and TRD make of an element (R201).
-/
namespace Sys2Proof.Machine

open Claims

/-! ### Patterns of a format of w bits with ew exponent bits -/

section
variable {w ew : Nat} {bias : Int} (hw : ew + 2 ≤ w)

theorem mw_ieee : (Par.ieee w ew bias).mw = w - ew - 1 := rfl

include hw in
/-- A sign, an exponent field and a mantissa field fit. -/
theorem fields_lt {sign e m : Nat} (hs : sign ≤ 2 ^ (w - 1)) (hexp : e < 2 ^ ew) (hm : m < 2 ^ (w - ew - 1)) :
    sign + e * 2 ^ (w - ew - 1) + m < 2 ^ w := by
  have h1 : 2 ^ w = 2 * 2 ^ (w - 1) := by rw [← Nat.pow_succ']; congr 1; omega
  have h2 : 2 ^ (w - 1) = 2 ^ ew * 2 ^ (w - ew - 1) := by rw [← Nat.pow_add]; congr 1; omega
  have h3 : (e + 1) * 2 ^ (w - ew - 1) ≤ 2 ^ ew * 2 ^ (w - ew - 1) := Nat.mul_le_mul_right _ hexp
  rw [Nat.succ_mul] at h3
  omega

theorem signBit_le (neg : Bool) : signBit (.ieee w ew bias) neg ≤ 2 ^ (w - 1) := by
  unfold signBit
  split
  · exact Nat.le_refl _
  · exact Nat.zero_le _

include hw

theorem infPat_lt (neg : Bool) : infPat (.ieee w ew bias) neg < 2 ^ w := by
  have := fields_lt hw (signBit_le (w := w) (ew := ew) (bias := bias) neg) (e := 2 ^ ew - 1) (m := 0) (by have := Nat.two_pow_pos ew; omega)
    (Nat.two_pow_pos _)
  exact this

theorem nanPat_lt : nanPat (.ieee w ew bias) < 2 ^ w := by
  have := fields_lt hw (Nat.zero_le _) (e := 2 ^ ew - 1) (m := 2 ^ (w - ew - 1 - 1)) (by have := Nat.two_pow_pos ew; omega)
    (Nat.pow_lt_pow_right (by omega) (by omega))
  rw [Nat.zero_add] at this
  exact this

/-- A finite value whose exponent field is none of the specials'. -/
theorem packMag_lt {r : Nat} {k : Int} (neg : Bool) (h : (r.log2 : Int) + (k - (w - ew - 1 : Nat)) + bias < 2 ^ ew) :
    packMag (.ieee w ew bias) neg r k < 2 ^ w := by
  have hs := signBit_le (w := w) (ew := ew) (bias := bias) neg
  unfold packMag
  rw [mw_ieee]
  split
  · next hr => simpa using fields_lt hw hs (e := 0) (Nat.two_pow_pos ew) hr
  · refine fields_lt hw hs ?_ (Nat.mod_lt _ (Nat.two_pow_pos _))
    have h2 : ((2 ^ ew : Nat) : Int) = 2 ^ ew := by push_cast; rfl
    have h3 := Nat.two_pow_pos ew
    show ((r.log2 : Int) + (k - (w - ew - 1 : Nat)) + bias).toNat < 2 ^ ew
    omega

variable (he : 1 ≤ ew)
include he

omit hw in
theorem maxFin_ieee : maxFin (.ieee w ew bias) = (2 * 2 ^ (w - ew - 1) - 1, (2 ^ ew - 1 : Int) - 1 - bias - (w - ew - 1 : Nat)) := by
  unfold maxFin
  rw [if_neg (show ¬ (Par.ieee w ew bias).ew = 0 from by show ¬ ew = 0; omega)]
  rfl

theorem packMax_lt (neg : Bool) : packMax (.ieee w ew bias) neg < 2 ^ w := by
  have hlog : (2 * 2 ^ (w - ew - 1) - 1).log2 < w - ew - 1 + 1 := by
    have := Nat.two_pow_pos (w - ew - 1)
    rw [Nat.log2_lt (by omega), Nat.pow_succ]
    omega
  have h2 : ((2 ^ ew : Nat) : Int) = 2 ^ ew := by push_cast; rfl
  have h3 := Nat.two_pow_pos ew
  unfold packMax
  rw [if_neg (show ¬ (Par.ieee w ew bias).ew = 0 from by show ¬ ew = 0; omega), if_neg (by simp [Par.ieee]), maxFin_ieee he]
  refine packMag_lt hw neg ?_
  rw [mw_ieee]
  omega

theorem overflowPat_lt (mode : RMode) (neg : Bool) : overflowPat (.ieee w ew bias) mode neg < 2 ^ w := by
  unfold overflowPat
  exact iteInduction (motive := (· < 2 ^ w)) (fun _ => packMax_lt hw he neg) fun _ => infPat_lt hw neg

omit he hw in
/-- A magnitude that is not above another has no greater exponent. -/
theorem exponent_lt_of_not_magGt {m1 m2 l q : Nat} {e1 e2 : Int} (h : magGt m1 e1 m2 e2 = false) (h1 : 2 ^ l ≤ m1) (h2 : m2 < 2 ^ q) :
    (l : Int) + e1 < q + e2 := by
  have hle : m1 * 2 ^ (e1 - min e1 e2).toNat ≤ m2 * 2 ^ (e2 - min e1 e2).toNat := by
    unfold magGt at h
    exact Nat.le_of_not_lt (of_decide_eq_false h)
  have hlt : 2 ^ (l + (e1 - min e1 e2).toNat) < 2 ^ (q + (e2 - min e1 e2).toNat) := by
    rw [Nat.pow_add, Nat.pow_add]
    calc 2 ^ l * 2 ^ (e1 - min e1 e2).toNat ≤ m1 * 2 ^ (e1 - min e1 e2).toNat := Nat.mul_le_mul_right _ h1
      _ ≤ m2 * 2 ^ (e2 - min e1 e2).toNat := hle
      _ < 2 ^ q * 2 ^ (e2 - min e1 e2).toNat := Nat.mul_lt_mul_of_pos_right h2 (Nat.two_pow_pos _)
  have := (Nat.pow_lt_pow_iff_right (by decide : 1 < 2)).1 hlt
  omega

theorem encodeFin_lt (mode : RMode) (sc : Int) (neg : Bool) (m : Nat) (e : Int) : (encodeFin (.ieee w ew bias) mode sc neg m e).1 < 2 ^ w := by
  have hs := signBit_le (w := w) (ew := ew) (bias := bias) neg
  have hsign : signBit (.ieee w ew bias) neg < 2 ^ w := hs.trans_lt (Nat.pow_lt_pow_right (by omega) (by omega))
  unfold encodeFin
  rw [if_neg (by simp [Par.ieee]), if_neg (show ¬ (Par.ieee w ew bias).ew = 0 from by show ¬ ew = 0; omega)]
  split
  · exact hsign
  · rw [maxFin_ieee he]
    refine iteInduction (motive := fun p : Nat × Bool => p.1 < 2 ^ w) (fun _ => overflowPat_lt hw he mode neg) fun hmag => ?_
    refine iteInduction (motive := fun p : Nat × Bool => p.1 < 2 ^ w) (fun _ => hsign) fun hr => ?_
    refine packMag_lt hw neg ?_
    have hlt := exponent_lt_of_not_magGt (q := w - ew - 1 + 1) (Bool.eq_false_iff.2 hmag) (Nat.log2_self_le hr) (by
      have := Nat.two_pow_pos (w - ew - 1)
      rw [Nat.pow_succ]
      omega)
    have h2 : ((2 ^ ew : Nat) : Int) = 2 ^ ew := by push_cast; rfl
    have h3 := Nat.two_pow_pos ew
    rw [mw_ieee] at hlt ⊢
    omega

/-- Every value has a pattern of the format's width. -/
theorem encodeNum_lt (mode : RMode) (sc : Int) (x : Num) : (encodeNum (.ieee w ew bias) mode sc x).1 < 2 ^ w := by
  cases x with
  | fin neg m e => exact encodeFin_lt hw he ..
  | nan =>
    show (specialPat (.ieee w ew bias) .nan).1 < 2 ^ w
    unfold specialPat
    dsimp only
    split
    · exact Nat.two_pow_pos w
    · exact nanPat_lt hw
  | inf neg =>
    show (specialPat (.ieee w ew bias) (.inf neg)).1 < 2 ^ w
    unfold specialPat
    dsimp only
    rw [if_neg (show ¬ (Par.ieee w ew bias).ew = 0 from by show ¬ ew = 0; omega)]
    exact infPat_lt hw neg

end

/-! ### Widen and Narrow (R201) -/

theorem wrapN_lt (n : Nat) (x : Int) : wrapN n x < 2 ^ n := by
  have h0 : (0 : Int) < 2 ^ n := by positivity
  have h1 := Int.emod_nonneg x h0.ne'
  have h2 := Int.emod_lt_of_pos x h0
  have h3 : ((2 ^ n : Nat) : Int) = 2 ^ n := by push_cast; rfl
  unfold wrapN
  omega

/-- A cell of a tile register holds what Widen gives. -/
theorem widen_lt (ty : VTy) (x : Nat) : widen ty x < 2 ^ 32 := by
  cases ty with
  | i8 => exact wrapN_lt ..
  | i16 => exact wrapN_lt ..
  | f16 => exact encodeNum_lt (w := 32) (ew := 8) (by decide) (by decide) ..
  | bf16 => exact encodeNum_lt (w := 32) (ew := 8) (by decide) (by decide) ..
  | i32 => exact Nat.mod_lt _ (Nat.two_pow_pos 32)
  | f32 => exact Nat.mod_lt _ (Nat.two_pow_pos 32)
  | i64 => exact Nat.mod_lt _ (Nat.two_pow_pos 32)

/-- An element of a tile type holds what Narrow gives of a cell. -/
theorem narrow_lt {ty : VTy} (ht : ty.isTileTy = true) {c : Nat} (hc : c < 2 ^ 32) : narrow ty c < 2 ^ (8 * ty.size) := by
  cases ty with
  | i8 => exact wrapN_lt ..
  | i16 => exact wrapN_lt ..
  | f16 => exact encodeNum_lt (w := 16) (ew := 5) (by decide) (by decide) ..
  | bf16 => exact encodeNum_lt (w := 16) (ew := 8) (by decide) (by decide) ..
  | i32 => exact hc
  | f32 => exact hc
  | i64 => cases ht

end Sys2Proof.Machine
end

section
/-!
PROOF. TWR and TRD: the cells of a row, and the elements and lanes of a column (R200, R201).
-/
namespace Sys2Proof.Machine

open Claims

/-! ### The elements of a vector type (R183) -/

theorem count_le (ty : VTy) : ty.count ≤ 128 := Nat.div_le_self ..
theorem size_mul_count (ty : VTy) : 8 * ty.size * ty.count = 1024 := by cases ty <;> rfl
theorem size_pos (ty : VTy) : 0 < ty.size := by cases ty <;> decide

/-- A part of a vector that TWR and TRD may name lies within it. -/
theorem part_fits {ty : VTy} {p : BitVec 2} (h : partOk ty p = true) : ty.isTileTy = true ∧ 32 * p.toNat + 32 ≤ ty.count := by
  unfold partOk at h
  rw [Bool.and_eq_true, decide_eq_true_eq] at h
  exact ⟨h.1, by omega⟩

/-- A cell of the tile registers: of register u, row r and column c (R200). -/
def Stream.cell (st : Stream) (u r c : Nat) : BitVec 32 := ((st.tx[u]?).getD 0).extractLsb' (1024 * r + 32 * c) 32

/-- The cells that TWR writes: Widen of each element of its part of the vector. -/
def twrCells (ty : VTy) (p : BitVec 2) (v : Vec) : List Nat := (((tyElems ty v).drop (32 * p.toNat)).take 32).map (widen ty)

section
variable {ty : VTy} {p : BitVec 2} (hp : partOk ty p = true) (v : Vec)
include hp

theorem length_twrCells : (twrCells ty p v).length = 32 := by
  have := (part_fits hp).2
  simp [twrCells, tyElems]
  omega

omit hp in
theorem twrCells_getElem {j : Nat} (hj : j < (twrCells ty p v).length) :
    (twrCells ty p v)[j] = widen ty (elt (8 * ty.size) v (32 * p.toNat + j)).toNat := by
  simp only [twrCells, tyElems, List.getElem_map, List.getElem_take, List.getElem_drop, elems_getElem]

/-- The row of cells, as a number, gives them back. -/
theorem packElems_twrCells {j : Nat} (hj : j < 32) :
    (BitVec.ofNat 32 (packElems 32 (twrCells ty p v) / 2 ^ (32 * j))).toNat = widen ty (elt (8 * ty.size) v (32 * p.toNat + j)).toNat := by
  have hj' : j < (twrCells ty p v).length := by rwa [length_twrCells hp]
  rw [BitVec.toNat_ofNat, packElems_element 32 _ hj', twrCells_getElem v hj']
  exact Nat.mod_eq_of_lt (widen_lt ..)

end

/-- The stream after TWR. -/
def Stream.twr (ty : VTy) (p : BitVec 2) (t : BitVec 1) (row : BitVec 5) (x : BitVec 6) (st : Stream) : Stream :=
  { st with tx := st.tx.set t.toNat (setRow (st.rtx t) row.toNat (packElems 32 (twrCells ty p (st.rv x)))) t.isLt }

theorem rtx_eq (st : Stream) (t : BitVec 1) : st.tx[t.toNat]? = some (st.rtx t) := Vector.getElem?_eq_getElem t.isLt

section
variable {ty : VTy} {p : BitVec 2} (hp : partOk ty p = true) (t : BitVec 1) (row : BitVec 5) (x : BitVec 6) (st : Stream)
include hp

theorem cells_lt : packElems 32 (twrCells ty p (st.rv x)) < 2 ^ 1024 := by
  have h := packElems_lt 32 (twrCells ty p (st.rv x))
  rwa [length_twrCells hp] at h

/-- The row that TWR writes. -/
theorem cell_twr_row {j : Nat} (hj : j < 32) :
    ((st.twr ty p t row x).cell t.toNat row.toNat j).toNat = widen ty (elt (8 * ty.size) (st.rv x) (32 * p.toNat + j)).toNat := by
  have hc := cell_setRow (st.rtx t) (r := row.toNat) (cells_lt hp x st) row.isLt hj
  rw [if_pos rfl] at hc
  unfold Stream.twr Stream.cell
  rw [Vector.getElem?_set_self, Option.getD_some, hc, packElems_twrCells hp (st.rv x) hj]

/-- Every other cell stays. -/
theorem cell_twr_other {u r j : Nat} (hr : r < 32) (hj : j < 32) (h : u ≠ t.toNat ∨ r ≠ row.toNat) :
    (st.twr ty p t row x).cell u r j = st.cell u r j := by
  unfold Stream.twr Stream.cell
  by_cases hu : u = t.toNat
  · subst hu
    have hne : r ≠ row.toNat := h.resolve_left (fun e => e rfl)
    rw [Vector.getElem?_set_self, Option.getD_some, rtx_eq, Option.getD_some, cell_setRow (st.rtx t) (cells_lt hp x st) hr hj, if_neg hne]
  · rw [Vector.getElem?_set_ne _ (Ne.symm hu)]

end

theorem exec_twr {s : State} {ty : VTy} {p : BitVec 2} {t : BitVec 1} {row : BitVec 5} {vx : BitVec 6} (hu : Usable s [s.vreg vx]) :
    exec (.twr ty p t row vx) s = .next ((s.onSt fun st => (st.twr ty p t row (s.vreg vx)).popQs []).adv 4) := by
  have e : exec (.twr ty p t row vx) s = execTwr ty p t row vx s := rfl
  rw [e, execTwr]
  exact vecIssue_usable hu (by simp) ..

/-! ### TRD -/

/-- The vector that TRD writes: the elements of its part, with zeros below. -/
def trdVec (ty : VTy) (p : BitVec 2) (t : BitVec 1) (col : BitVec 5) (st : Stream) : Vec :=
  ofTy ty (List.replicate (32 * p.toNat) 0 ++ (upTo 32).map fun i => narrow ty (cellOf (st.rtx t) i col.toNat).toNat)
/-- The byte lanes of a part. -/
def partLanes (ty : VTy) (p : BitVec 2) : Pred := BitVec.ofNat 128 ((2 ^ (32 * ty.size) - 1) * 2 ^ (32 * ty.size * p.toNat))

theorem exec_trd {s : State} {ty : VTy} {p : BitVec 2} {t : BitVec 1} {col : BitVec 5} {vd : BitVec 6} (hu : Usable s [s.vreg vd]) :
    exec (.trd ty p vd t col) s = .next ((s.onSt fun st =>
      (st.willLand (now s + 3) (.v (s.vreg vd)) (trdVec ty p t col st) (partLanes ty p)).popQs []).adv 4) := by
  have e : exec (.trd ty p vd t col) s = execTrd ty p vd t col s := rfl
  rw [e, execTrd]
  exact vecIssue_usable hu (by simp) ..

section
variable {ty : VTy} {p : BitVec 2} (hp : partOk ty p = true)
include hp

theorem elt_trdVec (t : BitVec 1) (col : BitVec 5) (st : Stream) {i : Nat} (hi : i < 32) :
    (elt (8 * ty.size) (trdVec ty p t col st) (32 * p.toNat + i)).toNat = narrow ty (st.cell t.toNat i col.toNat).toNat := by
  obtain ⟨htile, hpart⟩ := part_fits hp
  have hlen : (List.replicate (32 * p.toNat) 0 ++ (upTo 32).map fun i => narrow ty (cellOf (st.rtx t) i col.toNat).toNat).length =
      32 * p.toNat + 32 := by simp [upTo]
  have hfit : 8 * ty.size * (32 * p.toNat + 32) ≤ 1024 := (Nat.mul_le_mul_left _ hpart).trans_eq (size_mul_count ty)
  rw [trdVec, ofTy, elt_ofElems (by rwa [hlen]) (by rw [hlen]; omega), BitVec.toNat_ofNat, List.getElem_append_right (by simp)]
  simp only [List.length_replicate, Nat.add_sub_cancel_left, upTo, List.getElem_map, List.getElem_range]
  rw [Stream.cell, rtx_eq, Option.getD_some]
  exact Nat.mod_eq_of_lt (narrow_lt htile (BitVec.isLt _))

omit hp in
theorem getLsbD_partLanes {b : Nat} (hb : b < 128) : (partLanes ty p).getLsbD b = decide (b / ty.size / 32 = p.toNat) := by
  have hs := size_pos ty
  have hn : 0 < 32 * ty.size := by omega
  rw [partLanes, BitVec.getLsbD_ofNat, Nat.testBit_mul_two_pow, Nat.testBit_two_pow_sub_one, Nat.div_div_eq_div_mul, Nat.mul_comm ty.size]
  have hdiv : b / (32 * ty.size) = p.toNat ↔ 32 * ty.size * p.toNat ≤ b ∧ b - 32 * ty.size * p.toNat < 32 * ty.size := by
    have hm := Nat.div_add_mod b (32 * ty.size)
    have hlt := Nat.mod_lt b hn
    constructor
    · intro h
      rw [h] at hm
      omega
    · rintro ⟨h1, h2⟩
      rw [Nat.div_eq_of_lt_le]
      · rwa [Nat.mul_comm]
      · rw [Nat.mul_comm, Nat.mul_succ]
        omega
  simp [hb, hdiv]

end

end Sys2Proof.Machine
end

section
/-!
PROOF. VCVT: the converted blocks, the vector that they make and the bytes of cr.vsc and cr.vcnt (R193 to R195).
-/
namespace Sys2Proof.Machine

open Claims

/-! ### The converted blocks (R194) -/

theorem blocks32_flatten {α : Type} (n : Nat) (xs : List α) : (blocks32 n xs).flatten = xs.take (32 * n) := by
  induction n generalizing xs with
  | zero => simp [blocks32]
  | succ n ih =>
    unfold blocks32
    split
    · next h => simp [List.isEmpty_iff.1 h]
    · rw [List.flatten_cons, ih, Nat.mul_succ, Nat.add_comm, List.take_add]

theorem length_convBlock (f : Par) (rm : RMode) (sc : Byte) (xs : List Num) : (convBlock f rm sc xs).pats.length = xs.length := by
  unfold convBlock
  split <;> simp

theorem length_cvtBlock (ty : VTy) (f : Fmt) (dir auto : Bool) (rm : RMode) (uthr : BitVec 6) (vsc : BitVec 32) (vcnt : Word) (b : Nat)
    (xs : List Num) : (cvtBlock ty f dir auto rm uthr vsc vcnt b xs).2.pats.length = xs.length := by
  unfold cvtBlock
  split
  · dsimp only
    split <;> simp
  · exact length_convBlock ..

section
variable (ty : VTy) (f : Fmt) (dir auto : Bool) (rm : RMode) (st : Stream) (x : Vec)

/-- The bits of an element of the source of VCVT, and of one of its result. -/
def cvtIn : Nat := if dir then f.cw else 8 * ty.size
def cvtOut : Nat := if dir then 8 * ty.size else f.cw

/-- Element k of the source as a number. -/
def cvtNum (k : Nat) : Num := decodeNum (if dir then f.par else (tyFmt ty).par) (elt (cvtIn ty f dir) x k).toNat

/-- Block b of the result. -/
def cvtBlk (b : Nat) : Byte × BlockOut :=
  cvtBlock ty f dir auto rm st.uthr st.vsc st.vcnt b (((List.range 32).filter fun k => decide (32 * b + k < ty.count)).map fun k =>
    cvtNum ty f dir x (32 * b + k))

/-- The blocks that VCVT converts. -/
def cvtBlks : List (Byte × BlockOut) :=
  (blocks32 4 ((elems x (cvtIn ty f dir) ty.count).map (decodeNum (if dir then f.par else (tyFmt ty).par)))).zipIdx.map fun p =>
    cvtBlock ty f dir auto rm st.uthr st.vsc st.vcnt p.2 p.1

theorem cvtBlks_getElem? (b : Nat) :
    (cvtBlks ty f dir auto rm st x)[b]? = if 32 * b < ty.count then some (cvtBlk ty f dir auto rm st x b) else none := by
  have hc := count_le ty
  rw [cvtBlks, elems_eq_map, List.map_map, List.getElem?_map, List.getElem?_zipIdx, blocks32_getElem?, List.length_map, List.length_range]
  by_cases h : 32 * b < ty.count
  · rw [if_pos h, if_pos ⟨by omega, h⟩, take_drop_map_range]
    simp only [Option.map_some, Nat.zero_add]
    rfl
  · rw [if_neg h, if_neg fun h' => h h'.2]
    rfl

theorem cvtBlks_getElem {b : Nat} (hb : b < (cvtBlks ty f dir auto rm st x).length) :
    32 * b < ty.count ∧ (cvtBlks ty f dir auto rm st x)[b] = cvtBlk ty f dir auto rm st x b := by
  have h := cvtBlks_getElem? ty f dir auto rm st x b
  rw [List.getElem?_eq_getElem hb] at h
  split at h
  · next hlt => exact ⟨hlt, Option.some.inj h⟩
  · cases h

theorem lt_length_cvtBlks {b : Nat} : b < (cvtBlks ty f dir auto rm st x).length ↔ 32 * b < ty.count := by
  refine ⟨fun h => (cvtBlks_getElem ty f dir auto rm st x h).1, fun h => ?_⟩
  have e := cvtBlks_getElem? ty f dir auto rm st x b
  rw [if_pos h] at e
  exact (List.getElem?_eq_some_iff.1 e).1

theorem length_cvtBlk (b : Nat) : (cvtBlk ty f dir auto rm st x b).2.pats.length = min 32 (ty.count - 32 * b) := by
  rw [cvtBlk, length_cvtBlock, List.length_map, filter_range_add_lt, List.length_range]

/-- The patterns of the result, one for each element. -/
theorem length_cvtPats : ((cvtBlks ty f dir auto rm st x).flatMap fun r => r.2.pats).length = ty.count := by
  have hc := count_le ty
  have hsum : (cvtBlks ty f dir auto rm st x).map (fun r => r.2.pats.length) =
      (blocks32 4 ((elems x (cvtIn ty f dir) ty.count).map (decodeNum (if dir then f.par else (tyFmt ty).par)))).map List.length := by
    rw [cvtBlks, List.map_map]
    refine List.ext_getElem (by simp) fun b _ _ => ?_
    simp [length_cvtBlock]
  rw [List.length_flatMap, hsum, ← List.length_flatten, blocks32_flatten]
  simp
  omega

theorem cvtPats_getElem? {k : Nat} (hk : k < ty.count) : ((cvtBlks ty f dir auto rm st x).flatMap fun r => r.2.pats)[k]? =
    (cvtBlk ty f dir auto rm st x (k / 32)).2.pats[k % 32]? := by
  have hi : k / 32 < (cvtBlks ty f dir auto rm st x).length := (lt_length_cvtBlks ..).2 (by omega)
  have he := (cvtBlks_getElem ty f dir auto rm st x hi).2
  have h := getElem?_flatMap_piece (f := fun r : Byte × BlockOut => r.2.pats) (n := 32) (j := k % 32) hi (fun b hb => ?_) ?_
  · rwa [he, Nat.div_add_mod] at h
  · rw [(cvtBlks_getElem ty f dir auto rm st x (hb.trans hi)).2, length_cvtBlk]
    omega
  · rw [he, length_cvtBlk]
    omega

end

section
variable {s : State} {ty : VTy} {dir auto tab : Bool} {rm : RMode} {code : BitVec 4} {vd vx : BitVec 6} {f : Fmt}

/-- VCVT of a format that fits (R193, R194). -/
theorem exec_vcvt (hf : s.st.cvtFmt tab code = some f) (hw : f.cw ≤ 8 * ty.size) (hu : Usable s [s.vreg vd, s.vreg vx]) :
    exec (.vcvt ty dir auto rm tab code vd vx) s = .next ((s.onSt fun st =>
      ((st.cvtCounts auto (cvtBlks ty f dir auto rm st (st.rv (s.vreg vx)))).willLand (now s + 4) (.v (s.vreg vd))
        (ofElems (cvtOut ty f dir) ((cvtBlks ty f dir auto rm st (st.rv (s.vreg vx))).flatMap fun r => r.2.pats)) allLanes).popQs []).adv 4) := by
  have e : exec (.vcvt ty dir auto rm tab code vd vx) s = execVcvt ty dir auto rm tab code vd vx s := rfl
  rw [e, execVcvt]
  simp only [hf, Nat.not_lt.2 hw, if_false]
  exact vecIssue_usable hu (by simp) ..

theorem exec_vcvt_wide (hf : s.st.cvtFmt tab code = some f) (hw : 8 * ty.size < f.cw) :
    exec (.vcvt ty dir auto rm tab code vd vx) s = s.raise .cvtWidth := by
  have e : exec (.vcvt ty dir auto rm tab code vd vx) s = execVcvt ty dir auto rm tab code vd vx s := rfl
  rw [e, execVcvt]
  simp only [hf, hw, if_true]

theorem exec_vcvt_invalid (hf : s.st.cvtFmt tab code = none) : exec (.vcvt ty dir auto rm tab code vd vx) s = s.raise .fmtDesc := by
  have e : exec (.vcvt ty dir auto rm tab code vd vx) s = execVcvt ty dir auto rm tab code vd vx s := rfl
  rw [e, execVcvt]
  simp only [hf]

theorem cvtOut_mul_count_le (hw : f.cw ≤ 8 * ty.size) : cvtOut ty f dir * ty.count ≤ 1024 := by
  have h : cvtOut ty f dir ≤ 8 * ty.size := by unfold cvtOut; split <;> omega
  exact (Nat.mul_le_mul_right _ h).trans_eq (size_mul_count ty)

/-- A vector of no more than 1,024 bits of elements has nothing above them. -/
theorem ofElems_lt (w : Nat) (xs : List Nat) : (ofElems w xs).toNat < 2 ^ (w * xs.length) := by
  rw [ofElems, BitVec.toNat_ofNat]
  exact (Nat.mod_le _ _).trans_lt (packElems_lt w xs)

theorem popQs_nil (st : Stream) : st.popQs [] = st := rfl
theorem ex_willLand (st : Stream) (c : Nat) (r : Reg) (x : Vec) (m : Pred) : (st.willLand c r x m).ex = st.ex := rfl
theorem willLand_eq_landing (st : Stream) (c : Nat) (r : Reg) (x : Vec) (m : Pred) : st.willLand c r x m = landing st c r x m := rfl

/-- What VCVT computes, block by block and element by element. -/
theorem vcvt_completes (hf : s.st.cvtFmt tab code = some f) (hw : f.cw ≤ 8 * ty.size) (hu : Usable s [s.vreg vd, s.vreg vx]) :
    ∃ t, ∃ v : Vec, ∃ vsc vcnt, exec (.vcvt ty dir auto rm tab code vd vx) s = .next t ∧
      (∀ k < ty.count, (elt (cvtOut ty f dir) v k).toNat =
        ((cvtBlk ty f dir auto rm s.st (s.st.rv (s.vreg vx)) (k / 32)).2.pats[k % 32]?).getD 0 % 2 ^ cvtOut ty f dir) ∧
      v.toNat < 2 ^ (cvtOut ty f dir * ty.count) ∧
      (∀ b < 4, 32 * b < ty.count → HoldsBlock auto s.st.vsc vcnt vsc b (cvtBlk ty f dir auto rm s.st (s.st.rv (s.vreg vx)) b)) ∧
      (∀ b < 4, ty.count ≤ 32 * b → KeepsBlock s.st vcnt vsc b) ∧
      Passed s t (landing { s.st with vsc := vsc, vcnt := vcnt } (now s + 4) (.v (s.vreg vd)) v (BitVec.allOnes 128)) 4 := by
  let rs := cvtBlks ty f dir auto rm s.st (s.st.rv (s.vreg vx))
  have hlen : (rs.flatMap fun r => r.2.pats).length = ty.count := length_cvtPats ..
  have hfit : cvtOut ty f dir * (rs.flatMap fun r => r.2.pats).length ≤ 1024 := by rw [hlen]; exact cvtOut_mul_count_le hw
  have h4 : 0 + rs.length ≤ 4 := by
    by_contra h
    have hlong : 4 < rs.length := by omega
    have := (lt_length_cvtBlks ty f dir auto rm s.st (s.st.rv (s.vreg vx))).1 hlong
    have := count_le ty
    omega
  obtain ⟨vcnt, vsc, e, hold, keep⟩ := foldl_writeBlock auto rs 0 s.st h4
  have hp := went_adv s (fun st => ((st.cvtCounts auto (cvtBlks ty f dir auto rm st (st.rv (s.vreg vx)))).willLand (now s + 4) (.v (s.vreg vd))
    (ofElems (cvtOut ty f dir) ((cvtBlks ty f dir auto rm st (st.rv (s.vreg vx))).flatMap fun r => r.2.pats)) allLanes).popQs []) 4
    (by rw [popQs_nil, ex_willLand, cvtCounts_eq, e])
  refine ⟨_, ofElems (cvtOut ty f dir) (rs.flatMap fun r => r.2.pats), vsc, vcnt, exec_vcvt hf hw hu, fun k hk => ?_, ?_, fun b _ hb => ?_,
    fun b hb hc => ?_, ?_⟩
  · rw [elt_ofElems hfit (by rwa [hlen]), BitVec.toNat_ofNat, ← cvtPats_getElem? ty f dir auto rm s.st (s.st.rv (s.vreg vx)) hk,
      List.getElem?_eq_getElem (by rwa [hlen])]
    rfl
  · have h := ofElems_lt (cvtOut ty f dir) (rs.flatMap fun r => r.2.pats)
    rwa [hlen] at h
  · have hlt := (lt_length_cvtBlks ty f dir auto rm s.st (s.st.rv (s.vreg vx))).2 hb
    have h := hold b hlt
    rwa [(cvtBlks_getElem ty f dir auto rm s.st (s.st.rv (s.vreg vx)) hlt).2, Nat.zero_add] at h
  · refine keep b hb (.inr ?_)
    have := (lt_length_cvtBlks ty f dir auto rm s.st (s.st.rv (s.vreg vx)) (b := b)).not.2 (by omega)
    rw [Nat.zero_add]
    exact Nat.le_of_not_lt this
  · have hst : s.st.cvtCounts auto rs = { s.st with vcnt := vcnt, vsc := vsc } := (cvtCounts_eq ..).trans e
    have : (((s.st.cvtCounts auto rs).willLand (now s + 4) (.v (s.vreg vd)) (ofElems (cvtOut ty f dir) (rs.flatMap fun r => r.2.pats))
      allLanes).popQs []) = landing { s.st with vsc := vsc, vcnt := vcnt } (now s + 4) (.v (s.vreg vd))
        (ofElems (cvtOut ty f dir) (rs.flatMap fun r => r.2.pats)) (BitVec.allOnes 128) := by rw [hst]; rfl
    rw [← this]
    exact hp

end

end Sys2Proof.Machine
end

section
/-!
PROOF. The ranking of a group of eight elements, of which four are kept (R59, R60).
-/
namespace Sys2Proof.Machine

open Claims

/-! ### The order of magnitudes (R59) -/

/-- A comparison of magnitudes, as one of rational numbers. -/
theorem magGt_iff (m1 : Nat) (e1 : Int) (m2 : Nat) (e2 : Int) : magGt m1 e1 m2 e2 = true ↔ (m2 : ℚ) * 2 ^ e2 < m1 * 2 ^ e1 := by
  have hscale (m : Nat) {e : Int} (h : min e1 e2 ≤ e) : (m : ℚ) * 2 ^ e = ((m * 2 ^ (e - min e1 e2).toNat : Nat) : ℚ) * 2 ^ min e1 e2 := by
    have he : e = ((e - min e1 e2).toNat : Int) + min e1 e2 := by omega
    conv_lhs => rw [he, zpow_add₀ (by norm_num), zpow_natCast]
    push_cast
    ring
  rw [hscale m1 (min_le_left ..), hscale m2 (min_le_right ..), mul_lt_mul_iff_left₀ (by positivity), Nat.cast_lt]
  exact decide_eq_true_iff

/-- The rank of a number: NaN above the infinities, those above every finite magnitude. -/
def numRank : Num → ℕ ×ₗ ℚ
  | .nan => toLex (2, 0)
  | .inf _ => toLex (1, 0)
  | .fin _ m e => toLex (0, m * 2 ^ e)

theorem ranksAbove_iff (a b : Num) : ranksAbove a b = true ↔ numRank b < numRank a := by
  cases a <;> cases b <;> simp [ranksAbove, numRank, Prod.Lex.toLex_lt_toLex, magGt_iff]

/-- Where an element of a group stands: the higher rank first, and the lower index of equal ranks. -/
def keptKey (a : Nat × Num) : (ℕ ×ₗ ℚ)ᵒᵈ ×ₗ ℕ := toLex (OrderDual.toDual (numRank a.2), a.1)

theorem keptBefore_eq (a b : Nat × Num) : keptBefore a b = decide (keptKey a < keptKey b) := by
  rw [Bool.eq_iff_iff, decide_eq_true_iff, keptKey, keptKey, Prod.Lex.toLex_lt_toLex]
  simp only [keptBefore, Bool.or_eq_true, Bool.and_eq_true, Bool.not_eq_true', ← Bool.not_eq_true, ranksAbove_iff, decide_eq_true_eq,
    OrderDual.toDual_lt_toDual, EmbeddingLike.apply_eq_iff_eq]
  constructor
  · rintro (h | ⟨h, hi⟩)
    · exact .inl h
    · rcases lt_or_eq_of_le (not_lt.1 h) with h' | h'
      · exact .inl h'
      · exact .inr ⟨h'.symm, hi⟩
  · rintro (h | ⟨h, hi⟩)
    · exact .inl h
    · exact .inr ⟨h ▸ lt_irrefl _, hi⟩

/-! ### Elements with fewer than k before them -/

section
variable {α κ : Type} [LinearOrder κ] (key : α → κ)

/-- The elements of a list with fewer than k of its elements before them. -/
def firstOf (k : Nat) (l : List α) : List α := l.filter fun a => decide ((l.filter fun b => decide (key b < key a)).length < k)

/-- Of a list in order, they are its first k. -/
theorem length_firstOf_sorted {l : List α} (h : l.Pairwise fun a b => key a < key b) (k : Nat) : (firstOf key k l).length = min k l.length := by
  induction l generalizing k with
  | nil => simp [firstOf]
  | cons a l ih =>
    obtain ⟨ha, hl⟩ := List.pairwise_cons.1 h
    have hhead : (a :: l).filter (fun b => decide (key b < key a)) = [] := by
      rw [List.filter_eq_nil_iff]
      intro b hb
      rcases List.mem_cons.1 hb with rfl | hb
      · simp
      · simpa using (ha b hb).le
    have htail : l.filter (fun c => decide (((a :: l).filter fun b => decide (key b < key c)).length < k)) =
        l.filter fun c => decide ((l.filter fun b => decide (key b < key c)).length + 1 < k) :=
      List.filter_congr fun c hc => by rw [List.filter_cons_of_pos (by simpa using ha c hc), List.length_cons]
    unfold firstOf
    rw [List.filter_cons, hhead, htail]
    cases k with
    | zero => simp
    | succ k =>
      have hrest := ih hl k
      unfold firstOf at hrest
      simp only [Nat.add_lt_add_iff_right, List.length_nil, Nat.succ_pos, decide_true, if_true, List.length_cons, hrest]
      omega

theorem length_firstOf_perm {l m : List α} (h : l.Perm m) (k : Nat) : (firstOf key k l).length = (firstOf key k m).length := by
  unfold firstOf
  have hcount (a : α) := (h.filter fun b => decide (key b < key a)).length_eq
  simp only [hcount]
  exact (h.filter _).length_eq

/-- Of a list of distinct keys, k have fewer than k before them. -/
theorem length_firstOf {l : List α} (h : (l.map key).Nodup) (k : Nat) : (firstOf key k l).length = min k l.length := by
  let le (a b : α) : Bool := decide (key a ≤ key b)
  have hperm : (l.mergeSort le).Perm l := List.mergeSort_perm l le
  have hle : (l.mergeSort le).Pairwise fun a b => le a b = true :=
    List.pairwise_mergeSort (fun a b c h1 h2 => by simp only [le, decide_eq_true_eq] at *; exact h1.trans h2)
      (fun a b => by simpa [le] using le_total (key a) (key b)) l
  have hne : (l.mergeSort le).Pairwise fun a b => key a ≠ key b := List.pairwise_map.1 ((hperm.map key).nodup_iff.2 h)
  have hlt : (l.mergeSort le).Pairwise fun a b => key a < key b :=
    (hle.and hne).imp fun ⟨h1, h2⟩ => lt_of_le_of_ne (of_decide_eq_true h1) h2
  rw [length_firstOf_perm key hperm.symm, length_firstOf_sorted key hlt, hperm.length_eq]

end

/-! ### The four kept of eight (R59, R60) -/

section
variable {xs : List Num} (h8 : xs.length = 8)
include h8

omit h8 in
theorem kept4_eq : kept4 xs = (firstOf keptKey 4 (xs.zipIdx.map fun p => (p.2, p.1))).map Prod.fst := by
  unfold kept4 firstOf
  simp only [keptBefore_eq]

theorem length_kept4 : (kept4 xs).length = 4 := by
  have hnd : ((xs.zipIdx.map fun p => (p.2, p.1)).map keptKey).Nodup := by
    refine List.Nodup.of_map (fun q : (ℕ ×ₗ ℚ)ᵒᵈ ×ₗ ℕ => (ofLex q).2) ?_
    rw [List.map_map, List.map_map]
    have : ((fun q : (ℕ ×ₗ ℚ)ᵒᵈ ×ₗ ℕ => (ofLex q).2) ∘ keptKey) ∘ (fun p : Num × Nat => (p.2, p.1)) = Prod.snd := rfl
    rw [this, List.zipIdx_map_snd]
    exact List.nodup_range'
  rw [kept4_eq, List.length_map, length_firstOf keptKey hnd, List.length_map, List.length_zipIdx, h8]
  rfl

theorem kept4_lt {i : Nat} (hi : i ∈ kept4 xs) : i < 8 := by
  rw [kept4_eq] at hi
  obtain ⟨p, hp, rfl⟩ := List.mem_map.1 hi
  obtain ⟨q, hq, rfl⟩ := List.mem_map.1 (List.mem_of_mem_filter hp)
  exact h8 ▸ List.snd_lt_of_mem_zipIdx hq

/-- The metadata word of a group fits. -/
theorem metaWord_kept4_lt : metaWord (kept4 xs) < 2 ^ 16 := by
  obtain ⟨a, b, c, d, e⟩ : ∃ a b c d, kept4 xs = [a, b, c, d] := by
    have hl := length_kept4 h8
    match kept4 xs, hl with
    | [a, b, c, d], _ => exact ⟨a, b, c, d, rfl⟩
  have hlt (i : Nat) (hi : i ∈ [a, b, c, d]) : i < 8 := kept4_lt h8 (e ▸ hi)
  have ha := hlt a (by simp)
  have hb := hlt b (by simp)
  have hc := hlt c (by simp)
  have hd := hlt d (by simp)
  rw [e, metaWord]
  omega

end

end Sys2Proof.Machine
end

section
/-!
PROOF. VCMPR48: the kept elements of each group of eight, and the metadata words (R43, R202).
-/
namespace Sys2Proof.Machine

open Claims

section
variable (w : Nat) (p : Par) (v : Vec)

/-- Element k of group g. -/
def groupElt (g k : Nat) : BitVec w := elt w v (8 * g + k)
/-- The indices of the kept elements of group g. -/
def groupKept (g : Nat) : List Nat := kept4 ((List.range 8).map fun k => decodeNum p (groupElt w v g k).toNat)
/-- The kept elements of group g, in the width of the format. -/
def groupOut (g : Nat) : List Nat := (groupKept w p v g).map fun i => (groupElt w v g i).toNat % 2 ^ p.w

theorem length_groupKept (g : Nat) : (groupKept w p v g).length = 4 := length_kept4 (by simp)
theorem length_groupOut (g : Nat) : (groupOut w p v g).length = 4 := by rw [groupOut, List.length_map, length_groupKept]

/-- A vector of G groups. -/
theorem groups8_elems {G : Nat} (hG : G ≤ 32) :
    groups8 32 (elems v w (8 * G)) = (List.range G).map fun g => (List.range 8).map fun k => (groupElt w v g k).toNat := by
  refine List.ext_getElem? fun g => ?_
  rw [groups8_getElem?, elems_length, List.getElem?_map]
  by_cases hg : g < G
  · rw [if_pos (by omega), List.getElem?_range hg, elems_eq_map, take_drop_map_range, filter_range_add_lt, show min 8 (8 * G - 8 * g) = 8 by omega]
    rfl
  · rw [if_neg (by omega), List.getElem?_eq_none (by simpa using Nat.le_of_not_lt hg)]
    rfl

/-- What VCMPR48 makes of a vector of G groups (R202). -/
theorem compress48_eq {G : Nat} (hG : G ≤ 32) (hN : 1024 / w = 8 * G) :
    compress48 w p v = (ofElems w ((List.range G).flatMap (groupOut w p v)),
      ofElems 16 ((List.range G).map fun g => metaWord (groupKept w p v g))) := by
  unfold compress48
  rw [hN, groups8_elems w v hG]
  dsimp only
  rw [List.map_map, List.map_map, List.flatMap_map]
  refine Prod.ext ?_ ?_
  · dsimp only
    congr 1
    refine List.flatMap_congr fun g _ => ?_
    simp only [Function.comp_apply, List.map_map, groupOut]
    refine List.map_congr_left fun k hk => ?_
    have hk8 : k < 8 := kept4_lt (by simp) hk
    rw [List.getElem?_map, List.getElem?_range hk8]
    rfl
  · simp only [Function.comp_def, List.map_map, groupKept]

/-- The result of VCMPR48: the kept elements in their containers, and a metadata word for each group. -/
def CompressesTo (a b : Vec) : Prop :=
  (∀ g < 1024 / w / 8, (∀ j < 4, (elt w a (4 * g + j)).toNat = (groupElt w v g ((groupKept w p v g)[j]?.getD 0)).toNat % 2 ^ p.w) ∧
    (elt 16 b g).toNat = metaWord (groupKept w p v g)) ∧ a.toNat < 2 ^ 512 ∧ b.toNat < 2 ^ (2 * (1024 / w))

/-- The bits of an element with which VCMPR48 fills whole groups. -/
def GroupWidth : Prop := ∃ G ≤ 32, 1024 / w = 8 * G ∧ w * (8 * G) = 1024

variable {w}

theorem compress48_spec (hw : GroupWidth w) : CompressesTo w p v (compress48 w p v).1 (compress48 w p v).2 := by
  obtain ⟨G, hG, hN, hfit⟩ := hw
  have hlen : ((List.range G).flatMap (groupOut w p v)).length = 4 * G := by
    simp [List.length_flatMap, length_groupOut, Nat.mul_comm]
  have hmeta : ((List.range G).map fun g => metaWord (groupKept w p v g)).length = G := by simp
  have h512 : w * (4 * G) = 512 := by
    have : w * (8 * G) = 2 * (w * (4 * G)) := by ring
    omega
  rw [compress48_eq w p v hG hN]
  refine ⟨fun g hg => ⟨fun j hj => ?_, ?_⟩, ?_, ?_⟩
  · have hgG : g < G := by omega
    have hk : 4 * g + j < ((List.range G).flatMap (groupOut w p v)).length := by omega
    have he := getElem?_flatMap_piece (f := groupOut w p v) (n := 4) (l := List.range G) (i := g) (j := j) (by simpa using hgG)
      (fun k _ => length_groupOut ..) (by rwa [length_groupOut])
    rw [List.getElem?_eq_getElem hk, List.getElem_range, groupOut, List.getElem?_map,
      List.getElem?_eq_getElem (by rwa [length_groupKept]), Option.map_some, Option.some_inj] at he
    rw [elt_ofElems (by rw [hlen]; omega) hk, BitVec.toNat_ofNat, he, List.getElem?_eq_getElem (by rwa [length_groupKept]), Option.getD_some]
    exact Nat.mod_eq_of_lt ((Nat.mod_le _ _).trans_lt (BitVec.isLt _))
  · have hgG : g < ((List.range G).map fun g => metaWord (groupKept w p v g)).length := by rw [hmeta]; omega
    rw [elt_ofElems (by rw [hmeta]; omega) hgG, BitVec.toNat_ofNat, List.getElem_map, List.getElem_range]
    exact Nat.mod_eq_of_lt (metaWord_kept4_lt (by simp))
  · have h := ofElems_lt w ((List.range G).flatMap (groupOut w p v))
    rwa [hlen, h512] at h
  · have h := ofElems_lt 16 ((List.range G).map fun g => metaWord (groupKept w p v g))
    rwa [hmeta, show 16 * G = 2 * (1024 / w) by omega] at h

theorem compress_usable {s : State} {vd vm vx : BitVec 6} (hu : Usable s [s.vreg vd, s.vreg vm, s.vreg vx]) :
    s.compress w p vd vm vx = .next ((s.onSt fun st =>
      ((st.willLand (now s + 4) (.v (s.vreg vd)) (compress48 w p (st.rv (s.vreg vx))).1 allLanes).willLand (now s + 4) (.v (s.vreg vm))
        (compress48 w p (st.rv (s.vreg vx))).2 allLanes).popQs []).adv 4) := by
  unfold State.compress
  exact vecIssue_usable hu (by simp) ..


/-- An instruction that leaves two writes pending goes on. -/
theorem passed_willLand_twice (s : State) (a b : Stream → Vec) (c : Nat) (q r : Reg) :
    Passed s ((s.onSt fun st => ((st.willLand c q (a st) allLanes).willLand c r (b st) allLanes).popQs []).adv 4)
      (landing (landing s.st c q (a s.st) (BitVec.allOnes 128)) c r (b s.st) (BitVec.allOnes 128)) 4 := by
  have hp := went_adv s (fun st => ((st.willLand c q (a st) allLanes).willLand c r (b st) allLanes).popQs []) 4
    (by rw [popQs_nil, ex_willLand, ex_willLand])
  rwa [popQs_nil, willLand_eq_landing, willLand_eq_landing] at hp

/-- VCMPR48 leaves both results pending. -/
theorem compress_completes (hw : GroupWidth w) {s : State} {i : Instr} {vd vm vx : BitVec 6} (he : exec i s = s.compress w p vd vm vx)
    (hu : Usable s [s.vreg vd, s.vreg vm, s.vreg vx]) :
    ∃ t, ∃ a b : Vec, exec i s = .next t ∧ CompressesTo w p (s.st.rv (s.vreg vx)) a b ∧
      Passed s t (landing (landing s.st (now s + 4) (.v (s.vreg vd)) a (BitVec.allOnes 128)) (now s + 4) (.v (s.vreg vm)) b
        (BitVec.allOnes 128)) 4 := by
  have hp := passed_willLand_twice s (fun st => (compress48 w p (st.rv (s.vreg vx))).1) (fun st => (compress48 w p (st.rv (s.vreg vx))).2)
    (now s + 4) (.v (s.vreg vd)) (.v (s.vreg vm))
  exact ⟨_, _, _, he.trans (compress_usable p hu), compress48_spec p _ hw, hp⟩

end

theorem groupWidth_ty (ty : VTy) : GroupWidth (8 * ty.size) := by
  cases ty with
  | i8 => exact ⟨16, by decide, rfl, rfl⟩
  | i16 => exact ⟨8, by decide, rfl, rfl⟩
  | f16 => exact ⟨8, by decide, rfl, rfl⟩
  | bf16 => exact ⟨8, by decide, rfl, rfl⟩
  | i32 => exact ⟨4, by decide, rfl, rfl⟩
  | f32 => exact ⟨4, by decide, rfl, rfl⟩
  | i64 => exact ⟨2, by decide, rfl, rfl⟩

theorem groupWidth_nf (e : BitVec 32) : GroupWidth (Fmt.nf e).cw := by
  unfold Fmt.cw
  dsimp only
  split
  · exact ⟨32, by decide, rfl, rfl⟩
  · exact ⟨16, by decide, rfl, rfl⟩

theorem exec_vcmpr48Lc {s : State} {n : BitVec 2} {vd vm vx : BitVec 6} (hv : nfValid (s.st.rfmt ((s.st.rlc n).setWidth 4)) = true) :
    exec (.vcmpr48Lc n vd vm vx) s = s.compress (Fmt.nf (s.st.rfmt ((s.st.rlc n).setWidth 4))).cw
      (nfPar (s.st.rfmt ((s.st.rlc n).setWidth 4))) vd vm vx := by
  have e : exec (.vcmpr48Lc n vd vm vx) s = execVcmpr48Lc n vd vm vx s := rfl
  rw [e, execVcmpr48Lc]
  simp only [hv, Bool.not_true, Bool.false_eq_true, if_false]

theorem exec_vcmpr48Lc_invalid {s : State} {n : BitVec 2} {vd vm vx : BitVec 6} (hv : nfValid (s.st.rfmt ((s.st.rlc n).setWidth 4)) = false) :
    exec (.vcmpr48Lc n vd vm vx) s = s.raise .fmtDesc := by
  have e : exec (.vcmpr48Lc n vd vm vx) s = execVcmpr48Lc n vd vm vx s := rfl
  rw [e, execVcmpr48Lc]
  simp only [hv, Bool.not_false, if_true]

end Sys2Proof.Machine
end

section
/-!
PROOF. The statement about conversion, tile registers and compression (R43, R193 to R202).
-/
namespace Sys2Proof
open Sys2Proof.Machine Sys2Proof.Claims

/-- Settles O22: VCVT by blocks, TWR and TRD by the cells of a row and a column, VCMPR48 by groups of eight. -/
theorem convertTileCompress : Obligations.ConvertTileCompress := by
  unfold Obligations.ConvertTileCompress
  intro s ty dir auto tab rm code vd vx vm p n t1 row col f x cell squeezes
  have compresses {i : Instr} {w : Nat} {par : Par} (hw : GroupWidth w) (he : exec i s = s.compress w par vd vm vx) : squeezes i w par := by
    intro hu
    obtain ⟨t, a, b, ht, ⟨hg, ha, hb⟩, hp⟩ := compress_completes par hw he hu
    exact ⟨t, a, b, ht, hg, ha, hb, hp⟩
  refine ⟨fun hf hw hu => ?_, fun hf hw hc => raises_of (exec_vcvt_wide hf hw) hc rfl, fun hf hc => raises_of (exec_vcvt_invalid hf) hc rfl,
    fun hp hu => ?_, fun hp hu => ?_, compresses (groupWidth_ty ty) rfl, fun hv => compresses (groupWidth_nf _) (exec_vcmpr48Lc hv),
    fun hv hc => raises_of (exec_vcmpr48Lc_invalid hv) hc rfl⟩
  · intro wi wo xs blk
    obtain ⟨t, v, vsc, vcnt, he, helts, hlt, hold, keep, hp⟩ := vcvt_completes (dir := dir) (auto := auto) (rm := rm) (vd := vd) hf hw hu
    refine ⟨t, v, vsc, vcnt, he, helts, hlt, hold, fun b hb hc => ?_, hp⟩
    exact keep b hb hc
  · refine ⟨_, (s.st.twr ty p t1 row (s.vreg vx)).tx, exec_twr hu, fun j hj => cell_twr_row hp t1 row (s.vreg vx) s.st hj,
      fun u _ r hr j hj hne => cell_twr_other hp t1 row (s.vreg vx) s.st hr hj hne, ?_⟩
    exact went_adv s (fun st => (st.twr ty p t1 row (s.vreg vx)).popQs []) 4 rfl
  · refine ⟨_, trdVec ty p t1 col s.st, partLanes ty p, exec_trd hu, fun i hi => elt_trdVec hp t1 col s.st hi,
      fun b hb => getLsbD_partLanes hb, ?_⟩
    exact went_adv s (fun st => (st.willLand (now s + 3) (.v (s.vreg vd)) (trdVec ty p t1 col st) (partLanes ty p)).popQs []) 4 (by rw [popQs_nil, ex_willLand])

end Sys2Proof
end

section
/-!
PROOF. Join points that set, clear and await condition-sync bits, and the fork and join of the main streams (R72, R154 to R156).
-/
namespace Sys2Proof.Machine

open Claims

/-- A jump of a stream whose gate is given up: it stands at the header of its target. -/
theorem went_ungate_jump (s : State) (c : Cursor) :
    Went s (s.ungate.onSt fun st => { st.goTo c with status := .running, wait := .none }) s.st.ungate c := went_jump s Stream.ungate c

/-- The gate is given up, the stream acquires, and jumps. -/
theorem acquire_jump (s : State) {sc : Scope} (h : sc ≠ .cluster) (a : Word) :
    ∃ t, (s.ungate.acquire s.cur.core sc).jump a = .next t ∧
      Went (acquired s) t s.st.ungate { pc := a, hdr := a, fin := a, rem := 1 } := by
  have e : s.ungate.acquire s.cur.core sc = (acquired s).ungate := by
    cases sc with
    | cluster => exact absurd rfl h
    | _ => rfl
  rw [e]
  exact ⟨_, rfl, went_ungate_jump (acquired s) _⟩

/-- A main stream belongs to the context of its slot's number (R14). -/
theorem xid_main {s : State} (h : s.cur.sl < 2) : s.xid = ⟨s.cur.core, s.cur.sl⟩ := by
  simp [State.xid, State.xidOf, ownerOf, h]

/-- The context of a main stream stays what it is where nothing beside the stream has changed. -/
theorem cx_beside {s t : State} (h : s.cur.sl < 2) (hb : Beside s t) : t.cx = s.cx := by
  have hx : t.xid = s.xid := by rw [xid_main h, xid_main (hb.cur ▸ h), hb.cur]
  rw [State.cx, hx, State.ctx_congr hb.ctxs]
  rfl

theorem csetStep_atJoin {s : State} (hj : AtJoin s) (ha : Arrived s) (f : State → State) : s.csetStep f = .next ((f s).ungate.adv 4) := by
  unfold State.csetStep
  rw [joinHold_release hj ha (sc := .core) (by decide)]

theorem execCwait_atJoin {s : State} (hj : AtJoin s) (m : BitVec 8) : exec (.cwait m) s =
    if s.cx.cb &&& m = m then .next ((s.ungate.acquire s.cur.core .core).adv 4) else .next (s.waitsAt .other) := by
  change execCwait m s = _
  unfold execCwait
  rw [joinHold_none hj]
  simp only [beq_iff_eq]

theorem isTail_main {id : SlotId} (h : id.sl < 2) : isTail id = false := by simpa [isTail] using h
theorem isTail_tail {id : SlotId} (h : 2 ≤ id.sl) : isTail id = true := by simpa [isTail] using h

theorem execFork_main {s : State} (h : s.cur.sl < 2) (off : BitVec 12) :
    exec (.fork off) s = (s.clearCb (cbBit s.cur.cl)).jump (near s off) := by
  change execFork off s = _
  rw [execFork, isTail_main h, near_eq]
  rfl

/-- What a JOIN does once its bit is set: it acquires and jumps, or waits on (R156). -/
def State.joinOn (s : State) (m : BitVec 8) (a : Word) : Out :=
  if s.cx.cb &&& m = m then (s.ungate.acquire s.cur.core .core).jump a else .next (s.waitsAt .join)

theorem execJoin_again {s : State} (h : s.cur.sl < 2) (hw : s.st.wait = .join) (m : BitVec 4) (off : BitVec 12) :
    exec (.join m off) s = s.joinOn (m.setWidth 8) (near s off) := by
  change execJoin m off s = _
  simp [execJoin, isTail_main h, near_eq, hw, State.joinOn]

theorem execJoin_first {s : State} (h : s.cur.sl < 2) (hj : AtJoin s) (ha : Arrived s) (hw : s.st.wait ≠ .join) (m : BitVec 4) (off : BitVec 12) :
    exec (.join m off) s = (s.setCb (cbBit s.cur.cl)).joinOn (m.setWidth 8) (near s off) := by
  change execJoin m off s = _
  simp [execJoin, isTail_main h, near_eq, hw, joinHold_release hj ha (sc := .core) (by decide), State.joinOn]
  rfl

theorem execTjoin_atJoin {s : State} (hj : AtJoin s) (hl : s.st.liveAbove 0 = false) :
    exec .tjoin s = .next ((s.ungate.acquire s.cur.core .frame).adv 4) := by
  change execTjoin s = _
  simp [execTjoin, joinHold_none hj, hl]

theorem exec_forkTail {s : State} (h : 2 ≤ s.cur.sl) (m : BitVec 4) (off : BitVec 12) :
    exec (.fork off) s = s.raise .forkTail ∧ exec (.join m off) s = s.raise .forkTail := by
  refine ⟨?_, ?_⟩
  · change execFork off s = _
    rw [execFork, isTail_tail h]
    rfl
  · change execJoin m off s = _
    rw [execJoin, isTail_tail h]
    rfl

end Sys2Proof.Machine
end

section
/-!
PROOF. The statement about condition-sync bits, fork and join (R72, R154 to R156).
-/
namespace Sys2Proof
open Sys2Proof.Machine Sys2Proof.Claims

/-- Settles O7: each instruction by its outcome where it finds its bits, where it lacks one, and in a tail. -/
theorem conditionSyncBits : Obligations.ConditionSyncBits := by
  intro s m m4 off bits mine noted sets clears set m8 goes jumps
  refine ⟨fun hj ha => ⟨?_, ?_⟩, fun hj hm => ?_, fun hj hm => ?_, fun hl => ?_, fun hl hw => ⟨fun hm => ?_, fun hm => ?_⟩,
    fun hl hj ha hw hm => ?_, fun hl hj ha hw hm => ?_, fun hl hc => ?_, fun hj hl => ?_⟩
  · exact ⟨_, csetStep_atJoin hj ha (·.setCb m), passed_ungate (sets m) 4⟩
  · exact ⟨_, csetStep_atJoin hj ha (·.clearCb m), passed_ungate (clears m) 4⟩
  · exact ⟨_, (execCwait_atJoin hj m).trans (if_pos hm), passed_acquire s (sc := .core) (by decide) 4⟩
  · exact holds_of ((execCwait_atJoin hj m).trans (if_neg hm))
  · exact ⟨_, execFork_main hl off, went_jump' (clears mine) _⟩
  · obtain ⟨t, ht, hg⟩ := acquire_jump s (sc := .core) (by decide) (near s off)
    exact ⟨t, (execJoin_again hl hw m4 off).trans ((if_pos hm).trans ht), hg⟩
  · exact holds_of ((execJoin_again hl hw m4 off).trans (if_neg hm))
  · obtain ⟨t, ht, hg⟩ := acquire_jump set (sc := .core) (by decide) (near s off)
    exact ⟨t, (execJoin_first hl hj ha hw m4 off).trans ((if_pos hm).trans ht), hg⟩
  · obtain ⟨hs, hwt, hx, hr, hb⟩ := holds_waitsAt set .join
    refine ⟨_, (execJoin_first hl hj ha hw m4 off).trans (if_neg hm), hs, hwt, hx, hr, ?_, hb⟩
    exact congrArg Ctx.cb ((cx_beside (s := set) hl hb).trans (State.cx_onCx ..))
  · obtain ⟨hf, hg⟩ := exec_forkTail hl m4 off
    exact ⟨raises_of hf hc rfl, raises_of hg hc rfl⟩
  · exact ⟨_, execTjoin_atJoin hj hl, passed_acquire s (sc := .frame) (by decide) 4⟩

end Sys2Proof
end

section
/-!
PROOF. Join points that enter both queues as twins (R64, R67, R69, R70, R175 to R178).
-/
namespace Sys2Proof.Machine

open Claims

/-- The stream with the twins of a join point at the ends of its queues, and the place of that join point. -/
def Stream.withTwin (st : Stream) (j : JoinOp) : Stream :=
  { st with acc := { st.acc with lq := st.acc.lq ++ [.twin st.seq] }, sq := st.sq ++ [.twin st.seq j], joinAt := some (st.seq, st.ex) }

/-- The place of the last join point is none of a stream's registers. -/
theorem SameRegs.of_joinAt {a b t : Stream} {x : Option (Nat × Cursor)} (e : a = { b with joinAt := x }) (h : SameRegs a t) : SameRegs b t := by
  subst e
  exact { h with }

theorem Went.regs_congr {s t : State} {a b : Stream} {c : Cursor} (h : Went s t a c) (k : SameRegs a t.st → SameRegs b t.st) : Went s t b c :=
  { h with regs := k h.regs }

/-- A join point that no access stands before completes as its twins enter both queues. -/
theorem issueTwin_passes {s : State} (hl : s.st.acc.late = []) (j : JoinOp) {f : Stream → Stream} (hx : (f (s.st.withTwin j)).ex = s.st.ex) :
    ∃ t, s.issueTwin j f = .next t ∧ Passed s t (f (s.st.withTwin j)) 4 := by
  refine ⟨_, ?_, went_adv s (fun st => f (st.withTwin j)) 4 hx⟩
  unfold State.issueTwin
  simp only [hl, List.isEmpty_nil, Bool.not_true, Bool.false_eq_true, if_false]
  rfl

/-- An atomic that is aligned, translates and meets no live frame (R178). -/
theorem issueAtomic_ok {s : State} {base : BitVec 5} {dbl : Bool} {loc : Loc} (ha : (s.rs base).toNat % atomSize dbl = 0)
    (hx : s.xlAtomic s.cur (s.rs base) (atomSize dbl) = .ok loc) (hf : s.frameRace (s.rs base) (atomSize dbl) = none)
    (p : Option AmoOp) (c : Bool) (o : Ord) (sc : Scope) (d v : BitVec 5) :
    s.issueAtomic p c dbl o sc d v base = s.issueTwin (.amo p c dbl o sc d (s.rs v) (s.rs d) (s.rs base) loc)
      fun st => if d = 0 then st else { st with amoPend := st.amoPend ++ [d] } := by
  unfold State.issueAtomic
  simp [ha, hx, hf]

theorem issueAtomic_misaligned {s : State} {base : BitVec 5} {dbl : Bool} (ha : (s.rs base).toNat % atomSize dbl ≠ 0)
    (p : Option AmoOp) (c : Bool) (o : Ord) (sc : Scope) (d v : BitVec 5) :
    s.issueAtomic p c dbl o sc d v base = s.raise .align (s.rs base) := by
  unfold State.issueAtomic
  simp [ha]

end Sys2Proof.Machine
end

section
/-!
PROOF. The statement about join points that enter both queues (R64, R67, R175 to R178).
-/
namespace Sys2Proof
open Sys2Proof.Machine Sys2Proof.Claims

/-- Settles O16: MARK and FENCE are a pair of twins, the atomics one behind their checks. -/
theorem joinPointsEnterBothQueues : Obligations.JoinPointsEnterBothQueues := by
  intro s k sc op dbl o d v base loc n twin goes atom
  refine ⟨fun hl => ?_, fun hl ha hx hf => ?_, fun ha hc => ?_⟩
  · have enters (i : Instr) (j : JoinOp) (e : exec i s = s.issueTwin j id) : goes i (twin j s.st) := by
      obtain ⟨t, ht, hp⟩ := issueTwin_passes (f := id) hl j rfl
      exact ⟨t, e.trans ht, hp.regs_congr (.of_joinAt rfl)⟩
    exact ⟨enters _ _ rfl, enters _ _ rfl⟩
  · have enters (i : Instr) (p : Option AmoOp) (c : Bool) (e : exec i s = s.issueAtomic p c dbl o sc d v base) : atom i p c := by
      obtain ⟨t, ht, hp⟩ := issueTwin_passes (s := s) (f := fun st => if d = 0 then st else { st with amoPend := st.amoPend ++ [d] }) hl
        (.amo p c dbl o sc d (s.rs v) (s.rs d) (s.rs base) loc) (by split <;> rfl)
      refine ⟨t, e.trans ((issueAtomic_ok ha hx hf p c o sc d v).trans ht), hp.regs_congr (.of_joinAt (x := some (s.st.seq, s.st.ex)) ?_)⟩
      split <;> rfl
    exact ⟨enters _ _ _ rfl, enters _ _ _ rfl, enters _ _ _ rfl⟩
  · have fails (i : Instr) (p : Option AmoOp) (c : Bool) (e : exec i s = s.issueAtomic p c dbl o sc d v base) :
        Raises s i .align (s.rs base) 0 := raises_of (e.trans (issueAtomic_misaligned ha p c o sc d v)) hc rfl
    exact ⟨fails _ _ _ rfl, fails _ _ _ rfl, fails _ _ _ rfl⟩

end Sys2Proof
end

section
/-!
PROOF. Atomics: the value that the model computes on numbers and the one of the statement on bit vectors, the bytes of a place in memory, and
the indivisible step on them (R65 to R70, R176, R177).
-/
namespace Sys2Proof.Machine

open Claims

/-! ### Values -/

/-- AMO's new value on numbers is the one on bit vectors (R176). -/
theorem amoValue_toNat {w : Nat} (op : AmoOp) (old v : BitVec w) : amoValue op w old.toNat v.toNat = (amoNew op old v).toNat := by
  cases op with
  | add => exact (BitVec.toNat_add ..).symm
  | and => exact (BitVec.toNat_and ..).symm
  | or => exact (BitVec.toNat_or ..).symm
  | xor => exact (BitVec.toNat_xor ..).symm
  | smin => simp only [amoValue, amoNew, toSigned_toNat, apply_ite BitVec.toNat]
  | smax => simp only [amoValue, amoNew, toSigned_toNat, apply_ite BitVec.toNat]
  | umin => simp only [amoValue, amoNew, apply_ite BitVec.toNat]
  | umax => simp only [amoValue, amoNew, apply_ite BitVec.toNat]

/-- The value that the bytes of an atomic's place hold after it (R176, R177). -/
def atomNew {w : Nat} (op : Option AmoOp) (cas : Bool) (old v cmp : BitVec w) : BitVec w := match op with
  | some p => amoNew p old v
  | none => if cas && old != cmp then old else v

/-- Either the bytes take the new value, or it is the one that they hold. -/
theorem atomValue_cases {w : Nat} (op : Option AmoOp) (cas : Bool) (old v cmp : BitVec w) :
    atomValue op cas w v.toNat cmp.toNat old.toNat = some (atomNew op cas old v cmp).toNat ∨
      (atomValue op cas w v.toNat cmp.toNat old.toNat = none ∧ atomNew op cas old v cmp = old) := by
  cases op with
  | some p => exact .inl (congrArg some (amoValue_toNat p old v))
  | none =>
    have hne : (old.toNat != cmp.toNat) = (old != cmp) := by
      rw [Bool.eq_iff_iff, bne_iff_ne, bne_iff_ne, ne_eq, ne_eq, BitVec.toNat_inj]
    unfold atomValue atomNew
    rw [hne]
    cases h : (cas && old != cmp)
    · exact .inl rfl
    · exact .inr ⟨rfl, rfl⟩

theorem atomOld_eq (dbl : Bool) (old : BitVec (8 * atomSize dbl)) :
    atomOld dbl old.toNat = if dbl then old.setWidth 64 else old.signExtend 64 := by
  cases dbl with
  | true => exact BitVec.ofNat_toNat 64 old
  | false =>
    have h : BitVec.ofNat 32 old.toNat = old := (BitVec.ofNat_toNat 32 old).trans (BitVec.setWidth_eq (x := old))
    exact congrArg sx h

/-! ### Bytes of a place in memory -/

/-- A read of a place in memory gives its bytes one by one. -/
theorem readPlace_inMem {s : State} {d a n : Nat} {host : Bool} (hi : host = false → a + n ≤ 2 ^ 40) :
    s.readPlace (inMem d a host) n = (List.range n).map fun k => byteAt s d host (a + k) := by
  cases host with
  | true => exact mread_eq_map ..
  | false => exact (if_pos (hi rfl)).trans (mread_eq_map ..)

/-- A place in memory holds the bytes of the number that is read from it. -/
theorem extractLsb'_byteAt (s : State) (d a : Nat) (host : Bool) {n k : Nat} (hk : k < n) :
    (bytesBv (8 * n) ((List.range n).map fun k => byteAt s d host (a + k))).extractLsb' (8 * k) 8 = byteAt s d host (a + k) := by
  rw [extractLsb'_bytesBv _ k 1 rfl rfl (by omega), List.drop_eq_getElem_cons (by simpa using hk)]
  simp [bytesNat]

/-- Where the bytes of a place stay, what they hold is stored there. -/
theorem stored_kept (s : State) (d a n : Nat) (host : Bool) :
    Stored s s d a host ((List.range n).map fun k =>
      (bytesBv (8 * n) ((List.range n).map fun k => byteAt s d host (a + k))).extractLsb' (8 * k) 8) := by
  refine ⟨fun k hk => ?_, fun _ _ _ _ => rfl, rfl⟩
  rw [List.length_map, List.length_range] at hk
  rw [List.getElem_map, List.getElem_range, extractLsb'_byteAt s d a host hk]

/-! ### The indivisible step (R70) -/

/-- A state differs from another in GLC lines of a core alone. -/
theorem glcDrop_keeps (s : State) (c : CoreId) (p : Place) :
    (s.glcDrop c p).devs = s.devs ∧ (s.glcDrop c p).ctxs = s.ctxs ∧ (s.glcDrop c p).streams = s.streams := by
  unfold State.glcDrop
  split <;> exact ⟨rfl, rfl, rfl⟩

/-- Whether a step acquires or not, only GLC lines change by it. -/
theorem acquireIf_keeps (b : Bool) (s : State) (c : CoreId) (sc : Scope) :
    (if b then s.acquire c sc else s).devs = s.devs ∧ (if b then s.acquire c sc else s).ctxs = s.ctxs ∧
      (if b then s.acquire c sc else s).streams = s.streams := by
  cases b
  · exact ⟨rfl, rfl, rfl⟩
  · cases sc <;> exact ⟨rfl, rfl, rfl⟩

theorem acquire_glc (s : State) (c : CoreId) {sc : Scope} (h : sc ≠ .cluster) : ((s.acquire c sc).core c).glc = [] := by
  cases sc with
  | cluster => exact absurd rfl h
  | _ => exact congrArg Core.glc (State.core_onCore ..)

theorem writePlace_inMem_streams (s : State) (d a : Nat) (host : Bool) (bs : List Byte) :
    (s.writePlace (inMem d a host) bs).streams = s.streams := by cases host <;> rfl

/-- One indivisible step on a place in memory that no store of the stream meets: the bytes hold the atomic's new value, and its answer is the
old one (R70, R176, R177). -/
theorem atomicStep_inMem {s : State} (hs : s.Canon) {id : SlotId} {seq d a n : Nat} {loc : Loc} {host : Bool}
    (ho : s.ownGranule id seq loc = false) (hp : s.locate loc = inMem d a host) (hi : host = false → a + n ≤ 2 ^ 40)
    (op : Option AmoOp) (cas : Bool) (v cmp : BitVec (8 * n)) :
    let old := bytesBv (8 * n) ((List.range n).map fun k => byteAt s d host (a + k))
    ∃ t, s.atomicStep id seq loc n (atomValue op cas (8 * n) v.toNat cmp.toNat) = .ok t old.toNat ∧ t.streams = s.streams ∧
      Stored s t d a host ((List.range n).map fun k => (atomNew op cas old v cmp).extractLsb' (8 * k) 8) := by
  intro old
  have hold : bytesNat (s.readPlace (inMem d a host) n) = old.toNat := by
    have hlt := bytesNat_lt (s.readPlace (inMem d a host) n)
    rw [length_readPlace, show (256 : Nat) = 2 ^ 8 from rfl, ← Nat.pow_mul] at hlt
    rw [readPlace_inMem hi] at hlt ⊢
    exact (Nat.mod_eq_of_lt hlt).symm
  have hstep (f : Nat → Option Nat) : s.atomicStep id seq loc n f =
      .ok ((match f old.toNat with
        | some v => s.writePlace (inMem d a host) (natBytes n v)
        | none => s).glcDrop id.core (inMem d a host)) old.toNat := by
    unfold State.atomicStep
    rw [← hold]
    simp only [ho, hp, Bool.false_eq_true, if_false]
    cases host <;> rfl
  rw [hstep]
  rcases atomValue_cases op cas old v cmp with h | ⟨h, hsame⟩
  · rw [h]
    obtain ⟨hd, hc, hst⟩ := glcDrop_keeps (s.writePlace (inMem d a host) (natBytes n (atomNew op cas old v cmp).toNat)) id.core (inMem d a host)
    refine ⟨_, rfl, hst.trans (writePlace_inMem_streams ..), ?_⟩
    rw [← bvBytes_eq_map]
    exact stored_congr (stored_writePlace hs (by simpa using hi)) hd hc
  · rw [h, hsame]
    obtain ⟨hd, hc, hst⟩ := glcDrop_keeps s id.core (inMem d a host)
    exact ⟨_, rfl, hst, stored_congr (stored_kept s d a n host) hd hc⟩

/-! ### PERFORM_JOIN (R65, R67, R69, R70) -/

/-- The twins of one join point stand at the heads of both queues: its step is theirs. -/
theorem execPerformJoin_heads {s : State} {sl : SlotId} {seq : Nat} {rl : List LqItem} {rs : List SqItem} {j : JoinOp}
    (hf : (s.core sl.core).fenced = false) (hl : (s.strm sl).acc.lq = .twin seq :: rl) (hq : (s.strm sl).sq = .twin seq j :: rs) :
    exec (.performJoin sl) s = .next (s.performTwin sl seq j) := by
  change execPerformJoin sl s = _
  unfold execPerformJoin
  simp [hf, hl, hq]

/-- The twins have left a stream's queues, and the scalar d has taken a value. -/
def Stream.joined (st : Stream) (d : BitVec 5) (x : Word) : Stream :=
  ({ st.popTwins with amoPend := removeOne d st.amoPend } : Stream).ws d x

@[simp] theorem Stream.ws_sq (st : Stream) (d : BitVec 5) (x : Word) : (st.ws d x).sq = st.sq := by unfold Stream.ws; split <;> rfl
@[simp] theorem Stream.ws_acc (st : Stream) (d : BitVec 5) (x : Word) : (st.ws d x).acc = st.acc := by unfold Stream.ws; split <;> rfl
theorem Stream.joined_s (st : Stream) (d : BitVec 5) (x : Word) : (st.joined d x).s = (st.ws d x).s := by
  unfold Stream.joined Stream.ws
  split <;> rfl

/-- An atomic that its release does not hold: its step answers the old value, which D takes as the twins leave; then it acquires. -/
theorem performTwin_amo {s t : State} {sl : SlotId} {seq old : Nat} {op : Option AmoOp} {cas dbl : Bool} {o : Ord} {sc : Scope} {d : BitVec 5}
    {v cmp va : Word} {loc : Loc} (hr : ordRel o = true → s.releaseHold sl sc = false)
    (hs : s.atomicStep sl seq loc (atomSize dbl) (atomValue op cas (8 * atomSize dbl) (v.setWidth (8 * atomSize dbl)).toNat
      (cmp.setWidth (8 * atomSize dbl)).toNat) = .ok t old) :
    let u := t.onStrm sl fun st => st.joined d (atomOld dbl old)
    s.performTwin sl seq (.amo op cas dbl o sc d v cmp va loc) = if ordAcq o then u.acquire sl.core sc else u := by
  intro u
  have hh : (ordRel o && s.releaseHold sl sc) = false := by
    cases h : ordRel o
    · rfl
    · exact hr h
  rw [BitVec.toNat_setWidth, BitVec.toNat_setWidth] at hs
  unfold State.performTwin
  simp only [hh, hs, Bool.false_eq_true, if_false]
  rfl

/-- A fence that its release does not hold: its twins leave, and then it acquires. -/
theorem performTwin_fence {s : State} {sl : SlotId} {seq : Nat} {k : FenceKind} {sc : Scope}
    (hr : kindRel k = true → s.releaseHold sl sc = false) :
    s.performTwin sl seq (.fence k sc) =
      if kindAcq k then (s.onStrm sl Stream.popTwins).acquire sl.core sc else s.onStrm sl Stream.popTwins := by
  have hh : (kindRel k && s.releaseHold sl sc) = false := by
    cases h : kindRel k
    · rfl
    · exact hr h
  unfold State.performTwin
  simp only [hh, Bool.false_eq_true, if_false]

end Sys2Proof.Machine
end

section
/-!
PROOF. The statement about atomics, marks and fences that perform (R65 to R70, R176, R177).
-/
namespace Sys2Proof
open Sys2Proof.Machine Sys2Proof.Claims

/-- Settles O17: a mark's and a fence's twins leave; an atomic's leave after its indivisible step. -/
theorem atomicsAreIndivisible : Obligations.AtomicsAreIndivisible := by
  intro s sl seq rl rs j hs hf hl hq left
  have he := execPerformJoin_heads hf hl hq
  have pops {t : State} {x : Machine.Stream} (h : t.strm sl = x) (ha : x.acc.lq = (s.strm sl).acc.lq.drop 1) (hb : x.sq = (s.strm sl).sq.drop 1) :
      left t := ⟨by rw [h, ha, hl]; rfl, by rw [h, hb, hq]; rfl⟩
  refine ⟨?_, ?_, ?_⟩
  · rintro rfl
    exact ⟨_, he, pops (State.strm_onStrm ..) rfl rfl, rfl, rfl, rfl⟩
  · rintro k sc rfl hr
    obtain ⟨hd, hc, hst⟩ := acquireIf_keeps (kindAcq k) (s.onStrm sl Stream.popTwins) sl.core sc
    refine ⟨_, he.trans (congrArg _ (performTwin_fence hr)), pops ((State.strm_congr hst sl).trans (State.strm_onStrm ..)) rfl rfl,
      hd, hc, fun ha hsc => ?_⟩
    rw [if_pos ha]
    exact acquire_glc _ _ hsc
  · rintro op cas dbl o sc d v cmp va loc dv a host rfl hr ho hp n hi old new
    obtain ⟨t, hstep, hst, hstored⟩ := atomicStep_inMem hs ho hp hi op cas (v.setWidth (8 * n)) (cmp.setWidth (8 * n))
    obtain ⟨hd, hc, hst'⟩ := acquireIf_keeps (ordAcq o) (t.onStrm sl fun st => st.joined d (atomOld dbl old.toNat)) sl.core sc
    have hstrm := (State.strm_congr hst' sl).trans (State.strm_onStrm t sl _)
    rw [State.strm_congr hst] at hstrm
    refine ⟨_, he.trans (congrArg _ (performTwin_amo hr hstep)), pops hstrm ?_ ?_, ?_, ?_⟩
    · simp [Stream.joined, Stream.popTwins]
    · simp [Stream.joined, Stream.popTwins]
    · have hnew : atomNew op cas old (v.setWidth (8 * n)) (cmp.setWidth (8 * n)) = new := by cases op <;> rfl
      rw [← hnew]
      exact stored_congr hstored hd hc
    · refine (congrArg Machine.Stream.s hstrm).trans ?_
      rw [show atomOld dbl old.toNat = _ from atomOld_eq dbl old]
      exact Stream.joined_s ..

end Sys2Proof
end

section
/-!
PROOF. The instructions of multicast groups: their checks, what each does that passes them, and the comparison of sequences (R77, R110, R113,
R179, R181).
-/
namespace Sys2Proof.Machine

open Claims

/-- A sequence has reached another by the distance between them (R113). -/
theorem serialReached_iff (a n : BitVec 32) : serialReached a n = true ↔ (a.toNat + 2 ^ 32 - n.toNat) % 2 ^ 32 < 2 ^ 31 := by
  have hn := n.isLt
  rw [serialReached, decide_eq_true_iff, BitVec.toNat_sub, show 2 ^ 32 - n.toNat + a.toNat = a.toNat + 2 ^ 32 - n.toNat by omega]

theorem serialReached_false {a n : BitVec 32} (h : 2 ^ 31 ≤ (a.toNat + 2 ^ 32 - n.toNat) % 2 ^ 32) : serialReached a n = false :=
  Bool.eq_false_iff.2 fun e => absurd ((serialReached_iff a n).1 e) (Nat.not_lt.2 h)

/-- GSEQ of a valid entry (R181). -/
theorem execGseq_valid {s : State} {g : BitVec 12} (hv : (s.gent s.cdev g.toNat).valid = true) (d : BitVec 5) :
    exec (.gseq d g) s = s.put d ((s.gent s.cdev g.toNat).applied.setWidth 64) := by
  change execGseq d g s = _
  unfold execGseq
  simp only [hv]
  rfl

theorem execGseq_invalid {s : State} {g : BitVec 12} (hv : (s.gent s.cdev g.toNat).valid = false) (d : BitVec 5) :
    exec (.gseq d g) s = s.raise .notMember (s.gent s.cdev g.toNat).lbase (g.setWidth 64) := by
  change execGseq d g s = _
  unfold execGseq
  simp only [hv]
  rfl

/-- No live frame meets an access where the stream has none there (R152). -/
theorem frameRace_none {s : State} {va : Word} {n : Nat} (h : s.st.liveFrame va.toNat n = none) : s.frameRace va n = none :=
  congrArg (Option.map _) h

/-! ### GACQ -/

section
variable {s : State} {g : BitVec 12} {d : BitVec 5}

/-- What a GACQ waits for. -/
def gacqWait (s : State) (g : BitVec 12) (d : BitVec 5) : WaitFor := .gacq g.toNat ((s.rs d).setWidth 32)

theorem execGacq_range (h : 2 ^ 32 ≤ (s.rs d).toNat) : exec (.gacq g d) s = s.raise .seqRange :=
  if_pos h

variable (hr : (s.rs d).toNat < 2 ^ 32)
include hr

/-- A GACQ on a group that is not valid, or of which the device is no member, unless it joins or the stream waits as a member's (R181). -/
theorem execGacq_notMember (h : (s.gent s.cdev g.toNat).valid = false ∨ ((s.gent s.cdev g.toNat).member = false ∧
      (s.gent s.cdev g.toNat).joining = false ∧ s.st.wait ≠ gacqWait s g d)) :
    exec (.gacq g d) s = s.raise .notMember (s.gent s.cdev g.toNat).lbase (g.setWidth 64) := by
  change execGacq g d s = _
  unfold execGacq gacqWait at *
  rw [if_neg (Nat.not_le.2 hr)]
  rcases h with hv | ⟨hm, hj, hw⟩
  · simp only [hv]
    rfl
  · cases hv : (s.gent s.cdev g.toNat).valid <;> simp [hv, hm, hj, hw, gDetail, zx]

variable (hv : (s.gent s.cdev g.toNat).valid = true) (hm : (s.gent s.cdev g.toNat).member = false) (hw : s.st.wait = gacqWait s g d)
include hv hm hw

/-- A GACQ that has waited as a member's, the device having left (R110). -/
theorem execGacq_left (h : serialReached (s.gent s.cdev g.toNat).applied ((s.rs d).setWidth 32) = false) :
    exec (.gacq g d) s = s.raise .left (s.gent s.cdev g.toNat).lbase (g.setWidth 64) := by
  change execGacq g d s = _
  unfold execGacq gacqWait at *
  rw [if_neg (Nat.not_le.2 hr)]
  simp [hv, hm, hw, h, gDetail, zx]

/-- The same where its target has been reached. -/
theorem execGacq_reached (h : serialReached (s.gent s.cdev g.toNat).applied ((s.rs d).setWidth 32) = true) (hj : AtJoin s) :
    exec (.gacq g d) s = .next ((s.ungate.acquire s.cur.core .group).adv 4) := by
  change execGacq g d s = _
  unfold execGacq gacqWait at *
  rw [if_neg (Nat.not_le.2 hr)]
  simp [hv, hm, hw, h, joinHold_none hj]

end

/-! ### STG -/

section
variable {s : State} {g : BitVec 12} {ofs v : BitVec 5} {sz : BitVec 3} {rel : Bool} {l : BitVec 2}

theorem execStg_notMember (h : (s.gent s.cdev g.toNat).valid = false ∨ (s.gent s.cdev g.toNat).member = false) :
    exec (.stg sz rel l g ofs v) s = s.raise .notMember ((s.gent s.cdev g.toNat).lbase + s.rs ofs) (g.setWidth 64) := by
  change execStg sz rel l g ofs v s = _
  unfold execStg
  rw [if_pos (by rcases h with h | h <;> simp [h])]
  rfl

variable (hv : (s.gent s.cdev g.toNat).valid = true) (hm : (s.gent s.cdev g.toNat).member = true)
include hv hm

theorem execStg_range (h : (s.rs ofs).toNat % (4 * 2 ^ sz.toNat) ≠ 0 ∨
      (s.gent s.cdev g.toNat).lsize.toNat < (s.rs ofs).toNat + 4 * 2 ^ sz.toNat) :
    exec (.stg sz rel l g ofs v) s = s.raise .groupRange := by
  change execStg sz rel l g ofs v s = _
  unfold execStg
  rw [if_neg (by simp [hv, hm]), if_pos (by simpa using h)]

/-- The stream whose STG has entered its SQ: the latch is PENDING (R179). -/
def stgIssued (s : State) (g : BitVec 12) (ofs v : BitVec 5) (sz : BitVec 3) (rel : Bool) (l : BitVec 2) (st : Stream) : Stream :=
  { st.wl l { s.st.rl l with st := .pending, due := none } with
    sq := st.sq ++ [.stg st.seq g rel l (s.rs ofs).toNat (bvBytes (4 * 2 ^ sz.toNat) (st.rv (s.vreg (v.setWidth 6))))] }

theorem execStg_issues {ps : List Piece} (ha : (s.rs ofs).toNat % (4 * 2 ^ sz.toNat) = 0)
    (hz : (s.rs ofs).toNat + 4 * 2 ^ sz.toNat ≤ (s.gent s.cdev g.toNat).lsize.toNat)
    (hx : s.xlAccess (s.storeXl .none) ((s.gent s.cdev g.toNat).lbase + s.rs ofs) (4 * 2 ^ sz.toNat) = .ok ps)
    (hf : s.st.liveFrame ((s.gent s.cdev g.toNat).lbase + s.rs ofs).toNat (4 * 2 ^ sz.toNat) = none)
    (hu : Usable s [s.vreg (v.setWidth 6)]) (hl : (s.st.rl l).st ≠ .pending) :
    exec (.stg sz rel l g ofs v) s = .next ((s.onSt (stgIssued s g ofs v sz rel l)).adv 4) := by
  change execStg sz rel l g ofs v s = _
  unfold execStg
  rw [if_neg (by simp [hv, hm]), if_neg (by simp [ha, hz])]
  simp only [hx, frameRace_none hf, vecHold_usable hu (qs := []) (by simp)]
  rw [if_neg (by simpa using hl)]
  rfl

end

theorem Stream.rl_wl (st : Stream) (l m : BitVec 2) (x : Latch) : (st.wl l x).rl m = if m = l then x else st.rl m := by
  unfold Stream.wl Stream.rl
  simp only [Vector.getElem_set, BitVec.toNat_inj, eq_comm (a := l)]

end Sys2Proof.Machine
end

section
/-!
PROOF. The statement about the instructions of multicast groups (R77, R110, R113, R179, R181).
-/
namespace Sys2Proof
open Sys2Proof.Machine Sys2Proof.Claims

/-- Settles O25: each instruction by the first check that it fails, or by its effect where it passes them all. -/
theorem groupInstructions : Obligations.GroupInstructions := by
  unfold Obligations.GroupInstructions
  intro s g d ofs v sz rel l ps e n r off va gd stg tgt far
  refine ⟨fun hv => ?_, fun hv hm ha hz hx hf hu hl => ?_, fun hr hv hm hw hn hj => ?_, fun hc => ⟨fun hv => ⟨?_, ?_⟩, fun hr => ?_, fun hr h => ?_,
    fun hr hv hm hw hfar => ?_, fun hv hm => ?_, fun hv hm h => ?_⟩⟩
  · obtain ⟨t, ht, hp⟩ := went_put s d (e.applied.setWidth 64) 4
    exact ⟨t, (execGseq_valid hv d).trans ht, hp⟩
  · refine ⟨_, stgIssued s g ofs v sz rel l s.st, execStg_issues hv hm ha hz hx hf hu hl, went_adv s (stgIssued s g ofs v sz rel l) 4 rfl, ?_, ?_, ?_,
      fun m hm => ?_⟩
    · exact congrArg Latch.st ((s.st.rl_wl l l _).trans (if_pos rfl))
    · rw [show (List.range n).map (fun k => elt 8 (s.st.rv r) k) = bvBytes n (s.st.rv r) from (bvBytes_eq_map n _).symm]
      rfl
    · constructor <;> rfl
    · exact (s.st.rl_wl l m _).trans (if_neg hm)
  · refine ⟨_, execGacq_reached hr hv hm hw ?_ hj, passed_acquire s (sc := .group) (by decide) 4⟩
    exact (serialReached_iff ..).2 (Nat.not_le.1 hn)
  · exact raises_of (execGseq_invalid hv d) hc rfl
  · exact raises_of (execStg_notMember (.inl hv)) hc rfl
  · exact raises_of (execGacq_range hr) hc rfl
  · exact raises_of (execGacq_notMember hr h) hc rfl
  · exact raises_of (execGacq_left hr hv hm hw (serialReached_false hfar)) hc rfl
  · exact raises_of (execStg_notMember (.inr hm)) hc rfl
  · exact raises_of (execStg_range hv hm h) hc rfl

end Sys2Proof
end

section
/-!
PROOF. Forwarding: the byte that the youngest covering store gives, and the bytes that a piece of a load reads (R65, R66).
-/
namespace Sys2Proof.Machine

open Claims

/-! ### The youngest covering store -/

/-- The byte that a store under way holds for an address, as the forwarding finds it. -/
def State.hit (s : State) (sp a : Nat) (st : Nat × Loc × List Byte) : Option Byte :=
  (s.key st.2.1).findSome? fun k => if k.1 == sp && k.2 ≤ a && a < k.2 + st.2.2.length then st.2.2[a - k.2]? else none

theorem holding_of_hit {s : State} {sp a : Nat} {st : Nat × Loc × List Byte} {b : Byte} (h : s.hit sp a st = some b) : Holding s st sp a b := by
  obtain ⟨⟨sp', k⟩, hk, hb⟩ := List.exists_of_findSome?_eq_some h
  dsimp only at hb
  split at hb
  · next hc =>
    simp only [Bool.and_eq_true, beq_iff_eq, decide_eq_true_eq] at hc
    obtain ⟨⟨rfl, hle⟩, _⟩ := hc
    exact ⟨k, hk, hle, hb⟩
  · cases hb

theorem hit_of_holding {s : State} {sp a : Nat} {st : Nat × Loc × List Byte} {b : Byte} (h : Holding s st sp a b) : ∃ b', s.hit sp a st = some b' := by
  obtain ⟨k, hk, hle, hb⟩ := h
  refine Option.isSome_iff_exists.1 (List.findSome?_isSome_iff.2 ⟨(sp, k), hk, ?_⟩)
  obtain ⟨hlt, _⟩ := List.getElem?_eq_some_iff.1 hb
  have hc : (sp == sp && decide (k ≤ a) && decide (a < k + st.2.2.length)) = true := by
    simp only [beq_self_eq_true, Bool.true_and, Bool.and_eq_true, decide_eq_true_eq]
    omega
  rw [if_pos hc, hb]
  rfl

/-- The better of two: a store's byte takes the place of an earlier store's. -/
def newer (hit : Option Byte) (q : Nat) (best : Option (Nat × Byte)) : Option (Nat × Byte) := match hit, best with
  | none, b => b
  | some b, none => some (q, b)
  | some b, some (q', b') => if q' ≤ q then some (q, b) else some (q', b')

theorem coverByte_eq (s : State) (stores : List (Nat × Loc × List Byte)) (sp a : Nat) :
    coverByte s stores sp a = (stores.foldl (fun best st => newer (s.hit sp a st) st.1 best) none).map Prod.snd := rfl

/-- What the stores that have been looked at give: nothing, where none of them covers the address; else the byte of one than which none of
them is younger. -/
def Newest (s : State) (sp a : Nat) (l : List (Nat × Loc × List Byte)) : Option (Nat × Byte) → Prop
  | none => ∀ st ∈ l, s.hit sp a st = none
  | some (q, b) => (∃ st ∈ l, st.1 = q ∧ s.hit sp a st = some b) ∧ ∀ st ∈ l, ∀ b', s.hit sp a st = some b' → st.1 ≤ q

theorem Newest.snoc {s : State} {sp a : Nat} {l : List (Nat × Loc × List Byte)} {best : Option (Nat × Byte)} (h : Newest s sp a l best)
    (st : Nat × Loc × List Byte) : Newest s sp a (l ++ [st]) (newer (s.hit sp a st) st.1 best) := by
  have old {P : Nat × Loc × List Byte → Prop} (hl : ∀ x ∈ l, P x) (hs : P st) : ∀ x ∈ l ++ [st], P x := by
    intro x hx
    rcases List.mem_append.1 hx with hx | hx
    · exact hl x hx
    · exact List.mem_singleton.1 hx ▸ hs
  cases hh : s.hit sp a st with
  | none =>
    cases best with
    | none => exact old h hh
    | some p =>
      obtain ⟨⟨x, hx, he⟩, hmax⟩ := h
      exact ⟨⟨x, List.mem_append_left _ hx, he⟩, old hmax fun b' e => absurd (hh.symm.trans e) (by simp)⟩
  | some b =>
    have mine : st ∈ l ++ [st] := List.mem_append_right _ (List.mem_singleton.2 rfl)
    cases best with
    | none =>
      exact ⟨⟨st, mine, rfl, hh⟩, old (fun x hx b' e => absurd ((h x hx).symm.trans e) (by simp)) fun _ _ => Nat.le_refl _⟩
    | some p =>
      obtain ⟨q, b'⟩ := p
      obtain ⟨⟨x, hx, he⟩, hmax⟩ := h
      unfold newer
      dsimp only
      split
      · next hle => exact ⟨⟨st, mine, rfl, hh⟩, old (fun y hy b e => Nat.le_trans (hmax y hy b e) hle) fun _ _ => Nat.le_refl _⟩
      · next hlt => exact ⟨⟨x, List.mem_append_left _ hx, he⟩, old hmax fun _ _ => Nat.le_of_not_le hlt⟩

theorem newest_foldl (s : State) (sp a : Nat) (l : List (Nat × Loc × List Byte)) :
    Newest s sp a l (l.foldl (fun best st => newer (s.hit sp a st) st.1 best) none) := by
  induction l using List.reverseRecOn with
  | nil => intro _ h; simp at h
  | append_singleton l st ih =>
    rw [List.foldl_append]
    exact ih.snoc st

/-- No store under way covers the address. -/
theorem coverByte_none {s : State} {own : List (Nat × Loc × List Byte)} {sp a : Nat} (h : ∀ st ∈ own, ∀ b, ¬ Holding s st sp a b) :
    coverByte s own sp a = none := by
  rw [coverByte_eq]
  have hn := newest_foldl s sp a own
  cases hf : own.foldl (fun best st => newer (s.hit sp a st) st.1 best) none with
  | none => rfl
  | some p =>
    obtain ⟨q, b⟩ := p
    rw [hf] at hn
    obtain ⟨⟨st, hst, _, hb⟩, _⟩ := hn
    exact absurd (holding_of_hit hb) (h st hst b)

/-- A store that covers the address with a byte, and than which none that covers it otherwise is younger, gives its byte (R65). -/
theorem coverByte_some {s : State} {own : List (Nat × Loc × List Byte)} {sp a : Nat} {b : Byte} {st : Nat × Loc × List Byte} (hst : st ∈ own)
    (hb : Holding s st sp a b) (hy : ∀ st' ∈ own, ∀ b', Holding s st' sp a b' → st'.1 < st.1 ∨ (st'.1 = st.1 ∧ b' = b)) :
    coverByte s own sp a = some b := by
  rw [coverByte_eq]
  have hn := newest_foldl s sp a own
  obtain ⟨b1, h1⟩ := hit_of_holding hb
  cases hf : own.foldl (fun best st => newer (s.hit sp a st) st.1 best) none with
  | none =>
    rw [hf] at hn
    exact absurd ((hn st hst).symm.trans h1) (by simp)
  | some p =>
    obtain ⟨q, b0⟩ := p
    rw [hf] at hn
    obtain ⟨⟨st0, hst0, rfl, hb0⟩, hmax⟩ := hn
    rcases hy st0 hst0 b0 (holding_of_hit hb0) with hlt | ⟨_, rfl⟩
    · exact absurd (hmax st hst b1 h1) (Nat.not_le.2 hlt)
    · rfl

/-! ### The bytes of a piece -/

/-- The bytes of a piece before forwarding: those of the GLC copy of its line, else those at its place. -/
def State.rawPiece (s : State) (c : CoreId) (glc : Bool) (p : Piece) : List Byte :=
  match s.locate p.loc with
  | .devMem d a =>
    match (if glc && d = c.dev then fget? (s.core c).glc (a / 128) else none) with
    | some v => ((bvBytes 128 v).drop (a % 128)).take p.len
    | none => s.readPlace (.devMem d a) p.len
  | pl => s.readPlace pl p.len

/-- A piece reads its bytes with those of the stream's own stores over them; of the state, the GLC alone may change, and only by a line of
this device's memory. -/
theorem loadPiece_spec (s : State) (id : SlotId) (seq : Nat) (glc : Bool) (p : Piece) :
    (s.loadPiece id seq glc p).2 = s.forward (s.ownStores id seq) p.loc (s.rawPiece id.core glc p) ∧
      TurnsOnly s (s.loadPiece id seq glc p).1 ∧ (glc = false → (s.loadPiece id seq glc p).1 = s) := by
  have fill (b : Bool) (l : Nat) (v : Vec) : TurnsOnly s (if b then s else s.glcFill id.core l v) := by
    cases b
    · exact .onCore s id.core (f := fun k => { k with glc := _ }) rfl
    · exact .refl s
  unfold State.loadPiece State.rawPiece
  cases glc with
  | false => cases s.locate p.loc <;> exact ⟨rfl, .refl s, fun _ => rfl⟩
  | true =>
    cases s.locate p.loc with
    | devMem d a =>
      by_cases hd : d = id.core.dev
      · simp only [glcLine, hd, if_true, Bool.true_and, decide_true]
        cases fget? (s.core id.core).glc (a / 128) with
        | none => exact ⟨rfl, fill .., fun h => by cases h⟩
        | some v => exact ⟨rfl, .refl s, fun _ => rfl⟩
      · simp only [glcLine, hd, if_true, if_false, Bool.true_and, decide_false, Bool.false_eq_true]
        exact ⟨trivial, .refl s, fun _ => trivial⟩
    | _ => exact ⟨rfl, .refl s, fun _ => rfl⟩

theorem length_rawPiece {s : State} {c : CoreId} {glc : Bool} {p : Piece}
    (hl : ∀ d a, s.locate p.loc = .devMem d a → a % 128 + p.len ≤ 128) : (s.rawPiece c glc p).length = p.len := by
  unfold State.rawPiece
  split
  · next d a hp =>
    have hlen := hl d a hp
    split
    · simp only [List.length_take, List.length_drop, length_bvBytes]
      omega
    · exact length_readPlace ..
  · exact length_readPlace ..

/-- Byte j of a piece before forwarding is the one that the GLC copy or the place holds (R65, R66). -/
theorem getElem_rawPiece {s : State} {c : CoreId} {glc : Bool} {p : Piece} {j : Nat} {b : Byte}
    (hl : ∀ d a, s.locate p.loc = .devMem d a → a % 128 + p.len ≤ 128) (hj : j < p.len) (hb : placeByte s c glc p j = some b) :
    (s.rawPiece c glc p)[j]? = some b := by
  have at_ (h : Nat → Byte) : ((List.range p.len).map h)[j]? = some (h j) := by simp [hj]
  have zeros : (List.replicate p.len (0 : Byte))[j]? = some 0 := by simp [hj]
  have held (m : Memory) (o : Nat) : (mread m o p.len)[j]? = some (mget m (o + j)) := by rw [mread_eq_map, at_]
  unfold State.rawPiece
  unfold placeByte at hb
  cases hp : s.locate p.loc with
  | devMem d a =>
    have hlen := hl d a hp
    rw [hp] at hb
    dsimp only at hb ⊢
    cases hc : (if glc && decide (d = c.dev) then fget? (s.core c).glc (a / 128) else none) with
    | some v =>
      rw [hc] at hb
      cases hb
      simp only [List.getElem?_take, hj, if_true, List.getElem?_drop, bvBytes_eq_map, List.getElem?_map]
      rw [List.getElem?_range (by omega)]
      rfl
    | none =>
      rw [hc] at hb
      dsimp only at hb
      split at hb
      · next hlt =>
        cases hb
        unfold State.readPlace Device.memRead
        dsimp only
        split
        · exact held ..
        · rw [upTo, at_, if_pos hlt]
      · cases hb
  | hostMem d a =>
    rw [hp] at hb
    cases hb
    exact held ..
  | bufMem xs b' off =>
    rw [hp] at hb
    cases xs with
    | nil => cases hb; exact zeros
    | cons x xs => cases hb; exact held ..
  | nowhere =>
    rw [hp] at hb
    cases hb
    exact zeros
  | retry | dropped _ _ | bad _ | beyond _ _ =>
    rw [hp] at hb
    cases hb

/-- A piece reads the bytes that their sources give (R65). -/
theorem loadPiece_bytes {s : State} {id : SlotId} {seq : Nat} {glc : Bool} {p : Piece} {g : Nat → Byte}
    (hl : ∀ d a, s.locate p.loc = .devMem d a → a % 128 + p.len ≤ 128) (hs : ∀ j < p.len, Source s id seq glc p j (g j)) :
    (s.loadPiece id seq glc p).2 = (List.range p.len).map g := by
  obtain ⟨hb, _⟩ := loadPiece_spec s id seq glc p
  have hlen := length_rawPiece (c := id.core) (glc := glc) hl
  rw [hb]
  unfold State.forward
  unfold Source at hs
  cases hk : s.key p.loc with
  | nil =>
    rw [hk] at hs
    dsimp only
    refine List.ext_getElem? fun j => ?_
    by_cases hj : j < p.len
    · rw [getElem_rawPiece hl hj (hs j hj)]
      simp [hj]
    · rw [List.getElem?_eq_none (by omega), List.getElem?_eq_none (by simpa using hj)]
  | cons k ks =>
    obtain ⟨sp, a⟩ := k
    rw [hk] at hs
    refine List.ext_getElem (by simp [hlen]) fun j h1 h2 => ?_
    have hj : j < p.len := by simpa using h2
    simp only [List.getElem_map, List.getElem_zipIdx, Nat.zero_add, List.getElem_range]
    rcases hs j hj with ⟨st, hst, hh, hy⟩ | ⟨hn, hp⟩
    · rw [coverByte_some hst hh hy]
      rfl
    · rw [coverByte_none hn]
      exact Option.some.inj ((List.getElem?_eq_getElem (by omega)).symm.trans (getElem_rawPiece hl hj hp))

/-! ### The pieces that are read together (R169) -/

/-- What the reads of pieces leave: the state, and what has been read with the bytes of each at their places in the load. -/
def State.readTogether (s : State) (id : SlotId) (seq : Nat) (glc : Bool) (ps : List Piece) (got : List (Nat × Byte)) : State × List (Nat × Byte) :=
  ps.foldl (fun r p =>
    let q := r.1.loadPiece id seq (glc && glcAble p.loc) p
    (q.1, r.2 ++ q.2.zipIdx.map fun b => (p.at_ + b.2, b.1))) (s, got)

/-- The bytes `g` of a piece, each with its place in the load. -/
def placedBytes (p : Piece) (g : Nat → Byte) : List (Nat × Byte) := (List.range p.len).map fun j => (p.at_ + j, g j)

theorem zipIdx_placedBytes (p : Piece) (g : Nat → Byte) : (((List.range p.len).map g).zipIdx.map fun b => (p.at_ + b.2, b.1)) = placedBytes p g := by
  refine List.ext_getElem (by simp [placedBytes]) fun j h1 h2 => ?_
  simp [placedBytes]

/-- The pieces of a load of a buffer's element pair leave the state as it is. -/
theorem glcAble_xw {p : Piece} (h : p.isXw = true) : glcAble p.loc = false := by
  unfold Piece.isXw at h
  unfold glcAble
  split at h
  · next hl => rw [hl]
  · cases h

/-- One piece by itself, or the pieces of an XW-pair together, read the bytes that their sources give. -/
theorem readTogether_spec {s : State} {id : SlotId} {seq : Nat} {glc : Bool} {now : List Piece} {g : Piece → Nat → Byte}
    (hn : (∃ p, now = [p]) ∨ ∀ q ∈ now, q.isXw = true) (hl : ∀ q ∈ now, ∀ d a, s.locate q.loc = .devMem d a → a % 128 + q.len ≤ 128)
    (hs : ∀ q ∈ now, ∀ j < q.len, Source s id seq (glc && glcAble q.loc) q j (g q j)) (got : List (Nat × Byte)) :
    (s.readTogether id seq glc now got).2 = got ++ now.flatMap (fun q => placedBytes q (g q)) ∧ TurnsOnly s (s.readTogether id seq glc now got).1 := by
  rcases hn with ⟨p, rfl⟩ | hx
  · have hp := List.mem_singleton.2 (rfl : p = p)
    obtain ⟨_, ht, _⟩ := loadPiece_spec s id seq (glc && glcAble p.loc) p
    refine ⟨?_, ht⟩
    simp only [State.readTogether, List.foldl_cons, List.foldl_nil, loadPiece_bytes (hl p hp) (hs p hp), zipIdx_placedBytes, List.flatMap_singleton]
  · induction now generalizing got with
    | nil => exact ⟨(List.append_nil got).symm, .refl s⟩
    | cons p now ih =>
      have hp : p ∈ p :: now := List.mem_cons_self
      have hg : (glc && glcAble p.loc) = false := by rw [glcAble_xw (hx p hp), Bool.and_false]
      obtain ⟨_, _, hsame⟩ := loadPiece_spec s id seq (glc && glcAble p.loc) p
      have step : s.readTogether id seq glc (p :: now) got = s.readTogether id seq glc now (got ++ placedBytes p (g p)) := by
        simp only [State.readTogether, List.foldl_cons, hsame hg, loadPiece_bytes (hl p hp) (hs p hp), zipIdx_placedBytes]
      have tail {P : Piece → Prop} (h : ∀ q ∈ p :: now, P q) : ∀ q ∈ now, P q := fun q hq => h q (List.mem_cons_of_mem p hq)
      rw [step, List.flatMap_cons, ← List.append_assoc]
      exact ih (tail hl) (tail hs) (got ++ placedBytes p (g p)) (tail hx)

/-! ### The vector of what has been read (R168, R169) -/

theorem testBit_gotFold (got : List (Nat × Byte)) (m : Nat) :
    (got.foldl (fun x (p : Nat × Byte) => x ||| (p.2.toNat * 2 ^ (8 * p.1))) 0).testBit m =
      got.any fun p => (p.2.toNat * 2 ^ (8 * p.1)).testBit m := by
  induction got using List.reverseRecOn with
  | nil => simp
  | append_singleton got p ih => simp [ih]

/-- A byte at place q shows in byte i of a number exactly where q is i. -/
theorem testBit_byteAt (b : Byte) (q i : Nat) {k : Nat} (hk : k < 8) : (b.toNat * 2 ^ (8 * q)).testBit (8 * i + k) = (q == i && b.getLsbD k) := by
  rw [Nat.testBit_mul_two_pow]
  rcases Nat.lt_trichotomy q i with h | rfl | h
  · have hb : b.toNat.testBit (8 * i + k - 8 * q) = false :=
      Nat.testBit_lt_two_pow (Nat.lt_of_lt_of_le b.isLt (Nat.pow_le_pow_right (by decide) (by omega)))
    simp [hb, Nat.ne_of_lt h]
  · simp [BitVec.getLsbD]
  · simp [Nat.ne_of_gt h, show ¬ 8 * q ≤ 8 * i + k by omega]

/-- The bytes of what has been read stand at their places, and 0 elsewhere. -/
theorem extractLsb'_gotVec {got : List (Nat × Byte)} (hn : (got.map Prod.fst).Nodup) {i : Nat} (hi : i < 128) :
    (gotVec got).extractLsb' (8 * i) 8 = ((got.find? fun y => y.1 == i).map Prod.snd).getD 0 := by
  refine BitVec.eq_of_getLsbD_eq fun k hk => ?_
  have hbit : ((gotVec got).extractLsb' (8 * i) 8).getLsbD k = got.any fun p => p.1 == i && p.2.getLsbD k := by
    simp only [BitVec.getLsbD_extractLsb', hk, decide_true, Bool.true_and, gotVec, BitVec.getLsbD_ofNat, testBit_gotFold, testBit_byteAt _ _ i hk,
      show 8 * i + k < 1024 by omega]
  rw [hbit]
  clear hbit
  induction got with
  | nil => simp
  | cons p got ih =>
    obtain ⟨hp, hn⟩ := List.nodup_cons.1 hn
    rw [List.any_cons, List.find?_cons]
    by_cases he : p.1 = i
    · subst he
      have hrest : (got.any fun y => y.1 == p.1 && y.2.getLsbD k) = false := by
        refine List.any_eq_false.2 fun y hy hc => hp ?_
        rw [Bool.and_eq_true, beq_iff_eq] at hc
        exact hc.1 ▸ List.mem_map_of_mem hy
      simp [hrest]
    · simp [beq_eq_false_iff_ne.2 he, ih hn]

/-! ### PERFORM_LQ -/

/-- PERFORM_LQ of a piece that nothing stops (R65, R71). -/
theorem execPerformLq_reads {s : State} {sl : SlotId} {seq : Nat} {dest : LoadDest} {glc : Bool} {va : Word} {ps : List Piece}
    {got : List (Nat × Byte)} {r : List LqItem} {k : Nat} {p : Piece} (hs : (s.strm sl).status ≠ .saved) (hf : (s.core sl.core).fenced = false)
    (hn : (s.strm sl).acc.fault = none) (hq : (s.strm sl).acc.lq = .load seq dest glc va ps got :: r) (hk : ps[k]? = some p)
    (hp : p.performed got = false) (hr : s.readStop (if p.isXw then ps else [p]) = none) :
    let t := s.readTogether sl seq glc (if p.isXw then ps else [p]) got
    exec (.performLq sl k) s = .next (t.1.onStrm sl fun st => { st with acc := st.acc.progress seq dest glc va ps t.2 }) := by
  intro t
  change execPerformLq sl k s = _
  have hh : (s.strm sl).acc.headFaulted = false := by
    unfold Access.headFaulted
    rw [hq, hn]
  unfold execPerformLq
  simp only [hf, hq, hk, hh, hp, hr, beq_eq_false_iff_ne.2 hs, Bool.or_self, Bool.false_eq_true, if_false]
  rfl

theorem performed_iff (p : Piece) (got : List (Nat × Byte)) : p.performed got = true ↔ ∃ y ∈ got, y.1 = p.at_ := by
  simp [Piece.performed]

/-- With a piece still to be read the load stays, with what it has read. -/
theorem progress_more {a : Access} {ps : List Piece} {got : List (Nat × Byte)} (h : ∃ q ∈ ps, q.len ≠ 0 ∧ ∀ y ∈ got, y.1 ≠ q.at_)
    (seq : Nat) (dest : LoadDest) (glc : Bool) (va : Word) :
    a.progress seq dest glc va ps got = { a with lq := .load seq dest glc va ps got :: a.lq.drop 1 } := by
  obtain ⟨q, hq, hl, hy⟩ := h
  refine if_neg fun hall => ?_
  have := List.all_eq_true.1 hall q hq
  rw [Bool.or_eq_true, beq_iff_eq, performed_iff] at this
  rcases this with h0 | ⟨y, hm, he⟩
  · exact hl h0
  · exact hy y hm he

/-- With its last piece it leaves the LQ. -/
theorem progress_last {a : Access} {ps : List Piece} {got : List (Nat × Byte)} (h : ∀ q ∈ ps, q.len ≠ 0 → ∃ y ∈ got, y.1 = q.at_)
    (seq : Nat) (dest : LoadDest) (glc : Bool) (va : Word) : a.progress seq dest glc va ps got = a.finish seq dest got := by
  refine if_pos (List.all_eq_true.2 fun q hq => ?_)
  rw [Bool.or_eq_true, beq_iff_eq, performed_iff]
  exact or_iff_not_imp_left.2 (h q hq)

end Sys2Proof.Machine
end

section
/-!
PROOF. The statement about loads that perform (R65, R66, R71, R168 to R171).
-/
namespace Sys2Proof
open Sys2Proof.Machine Sys2Proof.Claims

/-- Settles O14: the pieces read together give the bytes of their sources; whether one is left decides what becomes of the load. -/
theorem loadReadsMemory : Obligations.LoadReadsMemory := by
  unfold Obligations.LoadReadsMemory
  intro s sl seq dest glc va ps got r k p g now new hs hf hn hq hk hp hr hx hl hsrc
  have hnow : (∃ p, now = [p]) ∨ ∀ q ∈ now, q.isXw = true := by
    cases h : p.isXw with
    | false => exact .inl ⟨p, by simp [now, h]⟩
    | true => exact .inr fun q hq => (hx q hq).trans h
  obtain ⟨hnew, hd, hc, hst, hpaths⟩ := readTogether_spec hnow hl hsrc got
  refine ⟨_, execPerformLq_reads hs hf hn hq hk hp hr, hd, hc, hpaths, fun id hne => ?_, ?_⟩
  · rw [State.strm_onStrm_if, if_neg hne]
    exact State.strm_congr hst id
  · rw [State.strm_onStrm, State.strm_congr hst]
    rw [show (s.readTogether sl seq glc (if p.isXw then ps else [p]) got).2 = new from hnew]
    refine ⟨fun hmore => ?_, fun hlast => ?_⟩
    · rw [progress_more hmore, hq]
      exact ⟨rfl, rfl, rfl⟩
    · rw [progress_last hlast]
      have hlq : ((s.strm sl).acc.finish seq dest new).lq = r := by
        cases dest <;> exact (congrArg (List.drop 1) hq).trans rfl
      refine ⟨hlq, gotVec new, fun hnd i hi => extractLsb'_gotVec hnd hi, ?_⟩
      cases dest <;> exact ⟨rfl, rfl⟩

end Sys2Proof
end

section
/-!
PROOF. Stamping at a home switch and delivery at a receiver: what each leaves of the machine, and the entry that it changes (R77, R110, R111,
R114).
-/
namespace Sys2Proof.Machine

open Claims

/-! ### The entry of a group -/

theorem gent_onGent (s : State) (d g : Nat) (f : GEntry → GEntry) (d' g' : Nat) :
    (s.onGent d g f).gent d' g' = if d' = d ∧ g' = g then f (s.gent d g) else s.gent d' g' := by
  unfold State.gent State.onGent
  rw [State.dev_onDev_if]
  by_cases hd : d' = d
  · subst hd
    simp only [if_true, true_and, fget_fset]
  · simp only [hd, if_false, false_and]

@[simp] theorem gent_onGent_self (s : State) (d g : Nat) (f : GEntry → GEntry) : (s.onGent d g f).gent d g = f (s.gent d g) :=
  (gent_onGent s d g f d g).trans (if_pos ⟨rfl, rfl⟩)

theorem elsewhere_trans {s t u : State} (h : Elsewhere s t) (k : Elsewhere t u) : Elsewhere s u := by
  obtain ⟨hb, hs, hk, hc, hp, hch⟩ := h
  obtain ⟨kb, ks, kk, kc, kp, kch⟩ := k
  exact ⟨hb.trans kb, ks.trans hs, kk.trans hk, kc.trans hc, kp.trans hp, kch.trans hch⟩

theorem elsewhere_onGent (s : State) (d g : Nat) (f : GEntry → GEntry) : Elsewhere s (s.onGent d g f) :=
  ⟨.onDev s d rfl rfl, rfl, rfl, rfl, rfl, rfl⟩

/-- Watching for a gap changes nothing but the notes on the gap. -/
theorem GEntry.watch_form (e : GEntry) (now : Word) (fresh : Bool) : ∃ x y, e.watch now fresh = { e with gapSince := x, gapRaised := y } := by
  unfold GEntry.watch
  split
  · exact ⟨_, _, rfl⟩
  · split <;> exact ⟨_, _, rfl⟩

section
variable (e : GEntry) (now : Word) (fresh : Bool)

@[simp] theorem GEntry.watch_applied : (e.watch now fresh).applied = e.applied := by obtain ⟨x, y, h⟩ := e.watch_form now fresh; rw [h]
@[simp] theorem GEntry.watch_held : (e.watch now fresh).held = e.held := by obtain ⟨x, y, h⟩ := e.watch_form now fresh; rw [h]
@[simp] theorem GEntry.watch_member : (e.watch now fresh).member = e.member := by obtain ⟨x, y, h⟩ := e.watch_form now fresh; rw [h]
@[simp] theorem GEntry.watch_joining : (e.watch now fresh).joining = e.joining := by obtain ⟨x, y, h⟩ := e.watch_form now fresh; rw [h]
@[simp] theorem GEntry.watch_epoch : (e.watch now fresh).epoch = e.epoch := by obtain ⟨x, y, h⟩ := e.watch_form now fresh; rw [h]

end

/-! ### Stamping (R77, R114) -/

/-- The home switch takes the first message, a store that it may stamp. -/
theorem execStgStamp_head {s : State} {m : HomeMsg} {r : List HomeMsg} {id : SlotId} {seq : Nat} {l : BitVec 2} {off : Nat} {bs : List Byte}
    (hq : s.toHome = m :: r) (hi : m.item = .store id seq l off bs) (hm : s.mayStamp m.home m.g = true) :
    exec (.stgStamp 0) s = .next ({ s with toHome := r }.stamp m) := by
  change execStgStamp 0 s = _
  unfold execStgStamp
  simp [hq, hi, hm]

theorem strm_stampLatch (s : State) {id : SlotId} {l : BitVec 2} (v : Vec) (hp : (s.strm id).present = true)
    (hl : ((s.strm id).rl l).st = .pending) : (s.stampLatch id l v).strm id = (s.strm id).wl l { st := .full, val := v } := by
  unfold State.stampLatch
  rw [State.strm_onStrm, hp, hl]
  rfl

/-- A stamp that reaches a latch leaves the stream's slot, its context and its pending faults as they are. -/
theorem stampLatch_keeps (s : State) (id : SlotId) (l : BitVec 2) (v : Vec) : ((s.stampLatch id l v).strm id).present = (s.strm id).present ∧
    (s.stampLatch id l v).xidOf id = s.xidOf id ∧ ((s.stampLatch id l v).strm id).pendFaults = (s.strm id).pendFaults := by
  unfold State.xidOf State.stampLatch
  rw [State.strm_onStrm]
  split <;> exact ⟨rfl, rfl, rfl⟩

/-- A fault that reaches a stream of its context waits there. -/
theorem pendFault_present {s : State} {id : SlotId} (h : (s.strm id).present = true) (f : FaultRec) :
    s.pendFault (s.xidOf id) id f = s.onStrm id fun st => { st with pendFaults := st.pendFaults ++ [f] } := by
  unfold State.pendFault
  simp [h]

theorem pendFault_keeps (s : State) (x : CtxId) (id : SlotId) (f : FaultRec) : (s.pendFault x id f).homes = s.homes ∧
    (s.pendFault x id f).toHome = s.toHome ∧ (s.pendFault x id f).deliveries = s.deliveries := by
  unfold State.pendFault
  dsimp only
  split
  · exact ⟨rfl, rfl, rfl⟩
  · split <;> exact ⟨rfl, rfl, rfl⟩

/-- The stamp of a store is held and travels; the home switch counts on. -/
theorem homeSt_stampItem (s : State) (h : BitVec 16) (g : Nat) (it : GItem) (rs ms : List Nat) :
    ((s.stampItem h g it rs ms).homeSt h g).ctr = (s.homeSt h g).ctr + 1 ∧ ((s.stampItem h g it rs ms).homeSt h g).members = ms := by
  unfold State.stampItem State.homeSt State.setHome
  simp only [fget_fset_self, and_self]

/-! ### Delivery (R77, R110, R111) -/

/-- A sequence lies in the window by its distance from APPLIED. -/
theorem inReorder_iff (a n : BitVec 32) : inReorder a n = true ↔
    1 ≤ (n.toNat + 2 ^ 32 - a.toNat) % 2 ^ 32 ∧ (n.toNat + 2 ^ 32 - a.toNat) % 2 ^ 32 ≤ 64 := by
  have ha := a.isLt
  rw [inReorder, Bool.and_eq_true, decide_eq_true_iff, decide_eq_true_iff, BitVec.toNat_sub,
    show 2 ^ 32 - a.toNat + n.toNat = n.toNat + 2 ^ 32 - a.toNat by omega]

/-- A member's receiver takes a sequence of its window that it does not hold. -/
theorem GEntry.receive_holds {e : GEntry} {seq : BitVec 32} (hv : e.valid = true) (hm : e.member = true) (hj : e.joining = false)
    (hn : ∀ p ∈ e.held, p.1 ≠ seq) (hw : inReorder e.applied seq = true) (dev : Nat) (it : GItem) (now : Word) :
    (e.receive dev seq it now).held = e.held ++ [(seq, it)] ∧ (e.receive dev seq it now).applied = e.applied := by
  have ha : (e.held.any fun p => p.1 == seq) = false := List.any_eq_false.2 fun p hp => by simpa using hn p hp
  unfold GEntry.receive
  simp only [hv, hm, hj, ha, hw, Bool.false_and, Bool.true_or, Bool.not_true, Bool.or_self, Bool.and_false, Bool.false_eq_true, if_false,
    GEntry.watch_held, GEntry.watch_applied, and_self]

/-- Outside the window it is dropped (R111). -/
theorem GEntry.receive_drops {e : GEntry} {seq : BitVec 32} (hj : e.joining = false) (hw : inReorder e.applied seq = false)
    (dev : Nat) (it : GItem) (now : Word) : e.receive dev seq it now = e := by
  unfold GEntry.receive
  simp only [hj, hw, Bool.false_and, Bool.not_false, Bool.and_self, Bool.or_true, Bool.false_eq_true, if_false, if_true, ite_self]

/-- A joiner's own record makes it a member (R110). -/
theorem GEntry.receive_joins {e : GEntry} (hj : e.joining = true) (dev : Nat) (seq : BitVec 32) (now : Word) :
    let a := e.receive dev seq (.joinRec dev) now
    a.applied = seq ∧ a.member = true ∧ a.joining = false ∧ a.epoch = e.epoch + 1 := by
  unfold GEntry.receive
  simp only [hj, beq_self_eq_true, Bool.and_self, if_true, GEntry.watch_applied, GEntry.watch_member, GEntry.watch_joining, GEntry.watch_epoch,
    and_self]

theorem execGroupDelivery_some {s : State} {k : Nat} {d : Delivery} (h : s.deliveries[k]? = some d) :
    exec (.groupDelivery k) s = .next ({ s with deliveries := s.deliveries.eraseIdx k }.onGent d.dev d.g fun e =>
      e.receive d.dev d.seq d.item (s.dev d.dev).time) := by
  change execGroupDelivery k s = _
  unfold execGroupDelivery
  rw [h]

end Sys2Proof.Machine
end

section
/-!
PROOF. The statement about home switches and deliveries (R77, R110, R111, R114).
-/
namespace Sys2Proof
open Sys2Proof.Machine Sys2Proof.Claims

/-- Settles O26: a store is stamped by its sender's membership, a delivery received by the state of the receiver's entry. -/
theorem homeSwitchStamps : Obligations.HomeSwitchStamps := by
  refine ⟨?_, ?_⟩
  · intro s m r id seq l off bs hs latch hq hi hm
    have he := execStgStamp_head hq hi hm
    refine ⟨fun hin => ?_, fun hout => ?_⟩
    · have hstamp : ({ s with toHome := r } : State).stamp m =
          (({ s with toHome := r } : State).stampItem m.home m.g (.store off bs) hs.members hs.members).stampLatch id l (hs.ctr.setWidth 1024) := by
        unfold State.stamp
        rw [hi]
        exact if_pos (List.contains_iff_mem.2 hin)
      obtain ⟨hctr, hmem⟩ := homeSt_stampItem { s with toHome := r } m.home m.g (.store off bs) hs.members hs.members
      refine ⟨_, he.trans (congrArg _ hstamp), .of_eq rfl rfl, rfl, hctr, hmem, rfl, fun hp hl => ?_⟩
      rw [strm_stampLatch _ _ (by exact hp) (by exact hl), Stream.rl_wl, if_pos rfl]
      exact ⟨rfl, rfl⟩
    · let s1 := ({ s with toHome := r } : State).stampLatch id l 0
      let f : FaultRec := { name := .left, faddr := (s.gent m.dev m.g).lbase + BitVec.ofNat 64 off, detail := BitVec.ofNat 64 m.g }
      obtain ⟨hpres, hxid, hpf⟩ := stampLatch_keeps { s with toHome := r } id l 0
      have hstamp : ({ s with toHome := r } : State).stamp m = s1.pendFault (s1.xidOf id) id f := by
        unfold State.stamp
        rw [hi, hxid]
        exact if_neg fun h => hout (List.contains_iff_mem.1 h)
      obtain ⟨hh, ht, hd⟩ := pendFault_keeps s1 (s1.xidOf id) id f
      have present (hp : (s.strm id).present = true) : s1.pendFault (s1.xidOf id) id f = _ := pendFault_present (hpres.trans hp) f
      refine ⟨_, he.trans (congrArg _ hstamp), ?_, ht, hh, hd, fun hp hl => ?_, fun hp => ?_⟩
      · exact (EngineKeeps.of_eq rfl rfl : EngineKeeps s s1).pendFault _ _ _ |>.bytes
      · rw [present hp, State.strm_onStrm]
        have hlatch : s1.strm id = _ := strm_stampLatch { s with toHome := r } 0 (by exact hp) (by exact hl)
        rw [hlatch]
        have := (s.strm id).rl_wl l l { st := .full, val := 0 }
        rw [if_pos rfl] at this
        exact ⟨congrArg Latch.st this, congrArg Latch.val this⟩
      · rw [present hp, State.strm_onStrm]
        exact congrArg (· ++ [f]) hpf
  · intro s k d e ahead hk
    refine ⟨_, execGroupDelivery_some hk, ?_, rfl, rfl, fun dv g hne => ?_, fun hv hm hj hn h1 h64 => ?_, fun hj hw => ?_, fun hj hit => ?_⟩
    · have taken : Elsewhere s { s with deliveries := s.deliveries.eraseIdx k } := ⟨.of_eq rfl rfl, rfl, rfl, rfl, rfl, rfl⟩
      exact elsewhere_trans taken (elsewhere_onGent ..)
    · rw [gent_onGent, if_neg (fun h => hne.elim (· h.1) (· h.2))]
      rfl
    · rw [gent_onGent_self]
      exact GEntry.receive_holds hv hm hj hn ((inReorder_iff ..).2 ⟨h1, h64⟩) ..
    · rw [gent_onGent_self]
      refine GEntry.receive_drops hj (Bool.eq_false_iff.2 fun h => ?_) ..
      have := (inReorder_iff ..).1 h
      omega
    · rw [gent_onGent_self, hit]
      exact GEntry.receive_joins hj ..

end Sys2Proof
end

section
/-!
PROOF. The statement about receivers does not hold of every state. A leave record that a device applies gives LEFT to each stream that waits
short of its target, once for each place at which the machine's list of streams names it; the statement has the one stream that waits receive it
once, and a list may name a stream twice. The second LEFT shows where the first has left the stream waiting: in S, where a fault is logged and
kills the launch, but the context of the stream is not among those of its launch (R110, R295).
-/
namespace Sys2Proof.Machine

/-! ### What is logged last, and what a kill changes (R295) -/

/-- The record of a kill comes last, and names no address (log 19). -/
theorem killLaunch_logs {s : State} {d lid : Nat} {l : Launch} (h : s.launch? d lid = some l) (hd : l.done = false) :
    ∃ q r, ((s.killLaunch d lid).dev d).logQueue = q ++ [r] ∧ r.faddr = 0 := by
  unfold State.killLaunch
  simp only [h, hd, Bool.false_eq_true, if_false]
  exact ⟨_, _, congrArg Device.logQueue (State.dev_onDev ..), rfl⟩

theorem killLaunch_gone {s : State} {d lid : Nat} (h : ∀ l, s.launch? d lid = some l → l.done = true) : s.killLaunch d lid = s := by
  unfold State.killLaunch
  cases hl : s.launch? d lid with
  | none => rfl
  | some l => exact if_pos (h l hl)

/-- Of the streams and the contexts a kill changes those of its launch alone. -/
theorem killLaunch_kills {s : State} {d lid : Nat} {l : Launch} (h : s.launch? d lid = some l) (hd : l.done = false) :
    (s.killLaunch d lid).streams = ((l.running.map Prod.snd).foldl State.killCtx s).streams ∧
      (s.killLaunch d lid).ctxs = ((l.running.map Prod.snd).foldl State.killCtx s).ctxs := by
  obtain ⟨r, e⟩ := killLaunch_eq h hd
  rw [e]
  exact ⟨rfl, rfl⟩

/-- A kill either changes nothing, or its record comes last in the log. -/
theorem killLaunch_cases (s : State) (d lid : Nat) :
    s.killLaunch d lid = s ∨ ∃ q r, ((s.killLaunch d lid).dev d).logQueue = q ++ [r] ∧ r.faddr = 0 := by
  by_cases h : ∀ l, s.launch? d lid = some l → l.done = true
  · exact .inl (killLaunch_gone h)
  · push Not at h
    obtain ⟨l, hl, hd⟩ := h
    exact .inr (killLaunch_logs hl (Bool.eq_false_iff.2 hd))

/-- A fault of a stream in S is logged and kills its launch (R293, R295). -/
theorem deliver_supervisor {s : State} {id : SlotId} {lid : Nat} {f : FaultRec} {ret : Word × Word × BitVec 32} (hp : (s.strm id).priv = .s)
    (hl : s.lidOf (s.xidOf id) = some lid) (hf : f.name.logOnly = false) :
    s.deliver id f ret = (s.logFault id.core.dev (s.ctx (s.xidOf id)).asid f true (f.origin.getD (locWord id (s.xidOf id).ctx)) ret.1).killLaunch
      id.core.dev lid := by
  unfold State.deliver
  simp only [hf, hp, Bool.false_eq_true, if_false, beq_self_eq_true, if_true]
  unfold State.killOf
  rw [show ∀ r, (s.logFault id.core.dev (s.ctx (s.xidOf id)).asid f true (f.origin.getD (locWord id (s.xidOf id).ctx)) r).lidOf
    ((s.logFault id.core.dev (s.ctx (s.xidOf id)).asid f true (f.origin.getD (locWord id (s.xidOf id).ctx)) r).xidOf id) = some lid from fun _ => hl]

/-- A record of a fault leaves every launch as it is. -/
theorem launch_logFault (s : State) (d : Nat) (asid : BitVec 14) (f : FaultRec) (n : Bool) (loc : Nat) (epc : Word) (e lid : Nat) :
    (s.logFault d asid f n loc epc).launch? e lid = s.launch? e lid := by
  unfold State.launch? State.logFault State.logRec
  rw [State.dev_onDev_if]
  split
  · next h => rw [h]
  · rfl

/-! ### The counterexample -/

namespace TwiceListed

/-- The stream that waits, its context, and the context of its launch that is on record as running. -/
def sl : SlotId := ⟨⟨0, 0, 0⟩, 0, 0⟩
def own : CtxId := ⟨⟨0, 0, 0⟩, 0⟩
def other : CtxId := ⟨⟨0, 0, 1⟩, 0⟩

/-- A handler's GACQ that waits for sequence 5 of group 0. -/
def waiter : Stream := { status := .waiting, priv := .s, wait := .gacq 0 5 }

/-- The receiver holds the device's own leave record as its next sequence. -/
def leaver : GEntry := { valid := true, member := true, lbase := 1, held := [(1, .leaveRec 0)] }

def launch : Launch :=
  { q := 0, idx := 0, asid := 0, level := 0, wgcount := 2, coop := false, excl := false, hzdEn := false, hzdMode := false, fields := 1, podtag := 0
    codeva := 0, codelen := 0, datava := 0, barlvl := 0, vbanks := 4, entry := [], drains := [], ncores := 1, running := [(1, other)] }

def device : Device := { Device.reset with gt := [(0, leaver)], launches := [(0, launch)] }

/-- The list of streams names the stream twice. -/
def state : State :=
  { State.reset with
    streams := [(sl, waiter), (sl, waiter)], ctxs := [(own, { live := some (0, 0) }), (other, { live := some (0, 1), cb := 1 })], devs := [(0, device)] }

/-- The state in which the record has been applied. -/
def applied : State := state.onGent 0 0 fun e => e.applyItem 0 (.leaveRec 0) 0

def left : FaultRec := { name := .left, faddr := 1, detail := 0 }

/-- The stream that waits takes LEFT. -/
def once (s : State) : State := if (s.strm sl).gacqShort 0 1 then s.deliver sl left (s.strm sl).ex.retPoint else s

theorem apply_twice : exec (.groupApply 0 0) state = .next (once (once applied)) := by
  have he : exec (.groupApply 0 0) state = .next (applied.leftGroup 0 0) := rfl
  rw [he]
  rfl

theorem short_waiter : waiter.gacqShort 0 1 = true := by decide

/-- Where the stream still waits, with its launch's number, LEFT is logged and the launch is killed. -/
theorem once_waiting {s : State} (hs : s.strm sl = waiter) (hc : s.lidOf own = some 0) : ∃ asid,
    once s = (s.logFault 0 asid left true (locWord sl 0) waiter.ex.retPoint.1).killLaunch 0 0 := by
  have hx : s.xidOf sl = own := rfl
  refine ⟨(s.ctx own).asid, ?_⟩
  unfold once
  rw [hs, short_waiter, if_pos rfl, deliver_supervisor (lid := 0) (by rw [hs]; rfl) (by rw [hx]; exact hc) rfl]
  rfl

/-- The kill of the launch makes its context new, and leaves the stream and its own context as they are. -/
theorem kill_spares {s : State} (hl : s.launch? 0 0 = some launch) : (s.killLaunch 0 0).strm sl = s.strm sl ∧
    (s.killLaunch 0 0).ctx own = s.ctx own ∧ (s.killLaunch 0 0).ctx other = {} ∧ ∀ l, (s.killLaunch 0 0).launch? 0 0 = some l → l.done = true := by
  obtain ⟨fs, k, lq, -, hdev⟩ := killLaunch_dev hl rfl
  obtain ⟨hstreams, hctxs⟩ := killLaunch_kills hl rfl
  have hfrees : Frees s ((launch.running.map Prod.snd).foldl State.killCtx s) other := killCtx_frees s other
  have hin : sl ∉ s.slotsOfCtx other := fun h => absurd (xidOf_of_mem h) (by simp [State.xidOf, sl, other])
  refine ⟨?_, ?_, ?_, fun l hl' => ?_⟩
  · rw [State.strm_congr hstreams, hfrees.strm, if_neg hin]
  · rw [State.ctx_congr hctxs, hfrees.ctx, if_neg (by decide)]
  · rw [State.ctx_congr hctxs, hfrees.ctx, if_pos rfl]
  · have hlaunches : ((s.killLaunch 0 0).dev 0).launches = _ := (congrArg Device.launches hdev).trans (launches_killQueue ..)
    unfold State.launch? at hl'
    rw [hlaunches] at hl'
    obtain rfl := Option.some.inj ((fget?_fset_self ..).symm.trans hl')
    rfl

theorem applied_strm : applied.strm sl = waiter := rfl
theorem applied_own : (applied.ctx own).live = some (0, 0) := rfl
theorem applied_launch : applied.launch? 0 0 = some launch := rfl

/-- The first LEFT: the launch is done and its context is as new; the stream waits on. -/
theorem once_applied : (once applied).strm sl = waiter ∧ (once applied).lidOf own = some 0 ∧ (once applied).ctx other = {} ∧
    ∀ l, (once applied).launch? 0 0 = some l → l.done = true := by
  obtain ⟨asid, he⟩ := once_waiting applied_strm (congrArg (Option.map Prod.fst) applied_own)
  obtain ⟨hs, hown, hother, hd⟩ := kill_spares (s := applied.logFault 0 asid left true (locWord sl 0) waiter.ex.retPoint.1)
    ((launch_logFault ..).trans applied_launch)
  rw [he]
  refine ⟨hs.trans applied_strm, ?_, hother, hd⟩
  unfold State.lidOf
  rw [hown]
  exact congrArg (Option.map Prod.fst) applied_own

/-- A record whose launch is gone is only logged. -/
theorem log_gone {s : State} (hd : ∀ l, s.launch? 0 0 = some l → l.done = true) (asid : BitVec 14) (ret : Word) :
    ((s.logFault 0 asid left true (locWord sl 0) ret).killLaunch 0 0).ctx other = s.ctx other ∧
      ∃ q r, (((s.logFault 0 asid left true (locWord sl 0) ret).killLaunch 0 0).dev 0).logQueue = q ++ [r] ∧ r.faddr = 1 := by
  rw [killLaunch_gone fun l h => hd l ((launch_logFault ..).symm.trans h)]
  exact ⟨rfl, _, _, congrArg Device.logQueue (State.dev_onDev ..), rfl⟩

/-- The second LEFT is only logged: the context that the first has made new stays so, and the record of LEFT comes last. -/
theorem twice_applied : (once (once applied)).ctx other = {} ∧ ∃ q r, ((once (once applied)).dev 0).logQueue = q ++ [r] ∧ r.faddr = 1 := by
  obtain ⟨hs, hc, ho, hd⟩ := once_applied
  obtain ⟨asid, he⟩ := once_waiting hs hc
  obtain ⟨hctx, hlog⟩ := log_gone hd asid waiter.ex.retPoint.1
  rw [he]
  exact ⟨hctx.trans ho, hlog⟩

/-- One LEFT, from a state with the streams and contexts of the first, does not lead there. -/
theorem twice_ne_deliver {u : State} (hs : u.streams = state.streams) (hc : u.ctxs = state.ctxs) (ret : Word × Word × BitVec 32) :
    once (once applied) ≠ u.deliver sl left ret := by
  obtain ⟨hctx, q, r, hlog, hr⟩ := twice_applied
  intro h
  have hpriv : (u.strm sl).priv = .s := by rw [State.strm_congr hs]; rfl
  have hlid : u.lidOf (u.xidOf sl) = some 0 := by
    unfold State.lidOf
    rw [State.ctx_congr hc]
    rfl
  rw [h, deliver_supervisor hpriv hlid rfl] at hctx hlog
  rcases killLaunch_cases (u.logFault 0 (u.ctx (u.xidOf sl)).asid left true (locWord sl 0) ret.1) 0 0 with hsame | ⟨q', r', hlog', hr'⟩
  · have hnew : u.ctx other = {} := (congrArg (State.ctx · other) hsame).symm.trans hctx
    have hheld : (u.ctx other).cb = 1 := congrArg Ctx.cb (State.ctx_congr (s := state) hc other)
    rw [hnew] at hheld
    exact absurd hheld (by decide)
  · have := List.append_inj_right' (hlog.symm.trans hlog') rfl
    rw [List.cons.inj this |>.1, hr'] at hr
    exact absurd hr (by decide)

end TwiceListed

end Sys2Proof.Machine
end

section
/-!
PROOF. The refutation of the statement about receivers (R110).
-/
namespace Sys2Proof
open Sys2Proof.Machine Sys2Proof.Claims

/-- Refutes O27, in its clause on a leaver's own record: in a state whose list of streams names twice the one stream that waits, in S, short of its
target, GROUP_APPLY delivers LEFT to it twice. -/
theorem not_receiverApplies : ¬ Obligations.ReceiverApplies := by
  intro hall
  obtain ⟨-, -, -, hrecord, -⟩ := hall TwiceListed.state 0 0 0 [] [] default 0 0
  obtain ⟨t, u, ht, ⟨-, hs, -, hc, -, -⟩, -, -, -, -, -, hleft⟩ := hrecord ⟨rfl, rfl, rfl⟩ (.inr rfl)
  obtain rfl : TwiceListed.once (TwiceListed.once TwiceListed.applied) = t :=
    Host.Outcome.next.inj (TwiceListed.apply_twice.symm.trans ht)
  refine TwiceListed.twice_ne_deliver hs hc _ (hleft rfl TwiceListed.sl ⟨rfl, rfl, 5, rfl, by decide⟩ fun o ho => ?_)
  obtain ⟨-, hw, -⟩ := ho
  by_contra hne
  have hfree : TwiceListed.state.strm o = {} := by
    change (fget? [(TwiceListed.sl, TwiceListed.waiter), (TwiceListed.sl, TwiceListed.waiter)] o).getD {} = {}
    simp [fget?, Ne.symm hne]
  rw [hfree] at hw
  cases hw

end Sys2Proof
end

section
/-!
PROOF. QRUN: what it does once it holds its binding record, and the run that it starts (R89, R90, R96, R233, R234).
-/
namespace Sys2Proof.Machine

open Claims

/-! ### The record of an instruction of the planner -/

theorem planRec_caches {s s1 : State} {va : Word} {n al : Nat} {bs : List Byte} (h : s.planRec va n al = .ok s1 bs) : CachesOnly s s1 := by
  unfold State.planRec at h
  split at h
  · cases h
  · exact recRead_caches h

/-- The CBRES of the launch of the current stream, in KiB; 0 where it has none. -/
def tileRes (s : State) : Nat := (s.launchOf s.xid).elim 0 Launch.cbres

/-- What a QRUN of the plan `p` in slot `i` does from `s`, which holds its binding record: its handle `h` and the record's address `va` are those of
its issue, and `tiles` is the CBRES of that moment. -/
def heldRun (s : State) (tiles : Nat) (h va : Word) (i : Nat) (p : Plan) (bs : List Byte) : Out :=
  let b : BitVec 1152 := bytesBv 1152 (bs.take 144)
  match s.bindBad b with
  | some k => s.raise .bind va (BitVec.ofNat 64 k)
  | none =>
    if p.needsTile && !decide (512 ≤ tiles) then s.raise .bind va
    else match s.joinHold (some .device) .other with
      | some o => o
      | none => if p.run.isSome then .next (s.keepRecord 144 |>.waitsAt .other) else s.checkRun h i p b bs

/-- The model reads the launch's CBRES by a match. -/
theorem tiles_eq (s : State) : (match s.launchOf s.xid with
    | some l => decide (512 ≤ l.cbres)
    | none => false) = decide (512 ≤ tileRes s) := by
  unfold tileRes
  cases s.launchOf s.xid <;> rfl

section
variable {s : State} {d a : BitVec 5} {i : Nat} {p : Plan}

theorem execQrun_noPlan (h : s.cx.planOf (s.rs d) = none) : exec (.qrun d a) s = s.raise .planHandle 0 (s.rs d) := by
  change execQrun d a s = _
  simp only [execQrun, State.withPlan, h]

variable (hp : s.cx.planOf (s.rs d) = some (i, p))
include hp

theorem execQrun_held {bs : List Byte} (hh : s.st.held = some bs) :
    exec (.qrun d a) s = heldRun s (tileRes s) (s.rs d) (s.rs a) i p bs := by
  change execQrun d a s = _
  simp only [execQrun, State.withPlan, hp, State.withRecord, hh, heldRun, ← tiles_eq] <;> rfl

theorem execQrun_reads {s0 : State} {bs : List Byte} (hh : s.st.held = none) (hr : s.planRec (s.rs a) 144 16 = .ok s0 bs) :
    exec (.qrun d a) s = heldRun (holding s0 bs) (tileRes s) (s.rs d) (s.rs a) i p bs := by
  obtain ⟨cs, rfl, -⟩ := planRec_caches hr
  change execQrun d a s = _
  simp only [execQrun, State.withPlan, hp, State.withRecord, hh, hr, heldRun, ← tiles_eq] <;> rfl

end

/-! ### What a stream that has read a record keeps -/

section
variable {s s0 : State} (hc : CachesOnly s s0) (bs : List Byte)
include hc

theorem holding_st : (holding s0 bs).st = { s.st with held := some bs, heldDet := s0.cx.det } := by
  rw [holding, State.st_onSt, hc.st]

theorem holding_rs (r : BitVec 5) : (holding s0 bs).rs r = s.rs r := by
  unfold State.rs
  rw [holding_st hc]
  rfl

theorem holding_xid : (holding s0 bs).xid = s.xid := by
  have e : (holding s0 bs).xid = ⟨s0.cur.core, ownerOf s0.cur (holding s0 bs).st⟩ := rfl
  rw [e, holding_st hc, hc.cur]
  rfl

theorem holding_ctx (x : CtxId) : (holding s0 bs).ctx x = s.ctx x := hc.ctx x

theorem holding_cx : (holding s0 bs).cx = s.cx := by
  unfold State.cx
  rw [holding_xid hc, holding_ctx hc]

theorem holding_tileRes : tileRes (holding s0 bs) = tileRes s := by
  have e (x : CtxId) : (holding s0 bs).launchOf x = s.launchOf x := by
    unfold State.launchOf State.launch?
    rw [holding_ctx hc, show (holding s0 bs).dev x.core.dev = s.dev x.core.dev from hc.dev _]
  unfold tileRes
  rw [holding_xid hc, e]

end

/-! ### The entries of the leaves (R90, R233) -/

section
variable {s : State} {q : QRec} {bs : List Byte} {n : Nat} {f : List (BitVec 512) → Out}

theorem withEntries_all (h : min 8 (qLeaves q) ≤ (heldEntries bs n).length) : s.withEntries q bs n f = f (heldEntries bs n) :=
  if_neg (Nat.not_lt.2 h)

theorem withEntries_takes {e : BitVec 512} (h : (heldEntries bs n).length < min 8 (qLeaves q))
    (he : s.leafEntry s.xid q (heldEntries bs n).length = .ok e) :
    s.withEntries q bs n f = .next ((s.onSt fun st => { st with held := some (bs ++ bvBytes 64 e) }).waits .other) := by
  unfold State.withEntries
  simp only [h, if_true, he, State.planStep]

end

/-- What a stream holds of a record is none of its registers. -/
theorem SameRegs.held (a : Stream) (x : Option (List Byte)) : SameRegs a { a with held := x } := by constructor <;> rfl

theorem takes_of {s : State} {i : Instr} {bs : List Byte} {e : BitVec 512}
    (h : exec i s = .next ((s.onSt fun st => { st with held := some (bs ++ bvBytes 64 e) }).waits .other)) : Takes s i bs e := by
  obtain ⟨hs, hx, hr, hb⟩ := waits_stays (s.onSt fun st => { st with held := some (bs ++ bvBytes 64 e) }) .other
  rw [State.st_onSt] at hx hr
  refine ⟨_, h, ?_, hs, hx, (SameRegs.held s.st _).trans hr, (Beside.onSt s _).trans hb⟩
  rw [State.waits, State.st_onSt, State.st_onSt]

/-! ### A QRUN of a running plan -/

theorem atGate_held (st : Stream) (x : Option (List Byte)) : SameRegs (atGate st) (atGate { st with held := x }) := by
  unfold atGate Stream.gated
  split <;> constructor <;> rfl

/-- An instruction that gives up what it has read of a record's entries and waits at its join point. -/
theorem holds_keepRecord {s : State} {i : Instr} {n : Nat} (e : exec i s = .next (s.keepRecord n |>.waitsAt .other)) : Holds s i := by
  obtain ⟨hs, -, hx, hr, hb⟩ := holds_waitsAt (s.keepRecord n) .other
  have hk : (s.keepRecord n).st = { s.st with held := s.st.held.map (List.take n) } := State.st_onSt ..
  rw [hk] at hx hr
  exact ⟨_, e, hs, hx, (atGate_held _ _).trans hr, (Beside.onSt s _).trans hb⟩

/-! ### Plans in their slots (R88, R93) -/

theorem planSlot_putPlan_self (c : Ctx) (i : Nat) (p : Plan) :
    (c.putPlan i p).planSlot i = { c.planSlot i with plan := if p.current || p.run.isSome then some p else none } := by
  unfold Ctx.putPlan Ctx.onPlan
  exact fget_fset_self ..

theorem planSlot_putPlan_ne (c : Ctx) {i j : Nat} (p : Plan) (h : j ≠ i) : (c.putPlan i p).planSlot j = c.planSlot j := by
  unfold Ctx.putPlan Ctx.onPlan
  exact fget_fset_ne _ _ _ h

/-- An instruction of the planner that puts a plan into a slot, having stood at a join point, and goes on. -/
theorem cached_putPlan {s : State} {k i : Nat} {p : Plan} (hp : (p.current || p.run.isSome) = true) :
    let t := (({ s with nextId := k }.onCx fun c => c.putPlan i p).ungate).adv 4
    ((t.ctx s.xid).planSlot i).gen = (s.cx.planSlot i).gen ∧ Cached s t s.st.ungate i (some p) := by
  intro t
  let v := { s with nextId := k }.onCx fun c => c.putPlan i p
  obtain ⟨hr, hx, hs, hb⟩ := passed_ungate v 4
  have hc (x : CtxId) : t.ctx x = if x = s.xid then s.cx.putPlan i p else s.ctx x :=
    (State.ctx_congr hb.ctxs x).trans (State.ctx_onCtx_if ..)
  have hself : t.ctx s.xid = s.cx.putPlan i p := (hc s.xid).trans (if_pos rfl)
  refine ⟨by rw [hself, planSlot_putPlan_self], ?_⟩
  constructor
  case regs => exact hr
  case place => exact ⟨hx, hs⟩
  case plan => rw [hself, planSlot_putPlan_self, hp]; rfl
  case others =>
    intro j hj
    rw [hself, planSlot_putPlan_ne _ _ hj]
    rfl
  case ctxs =>
    intro x
    rw [hc]
    split
    · next e =>
      subst e
      exact ⟨_, rfl, fun hn => absurd rfl hn⟩
    · exact ⟨_, rfl, fun _ => rfl⟩
  case bytes =>
    have hv : SameBytes s { s with nextId := k } := .of_eq rfl rfl
    exact hv.trans ((SameBytes.onCtx _ _ (f := fun c => c.putPlan i p) rfl rfl rfl).trans hb.bytes)
  case devs => exact hb.devs
  case streams => exact fun id hid => hb.streams id hid
  case queues => exact fun c => by rw [State.core_congr hb.cores]; exact ⟨rfl, rfl, rfl, rfl⟩

/-! ### The steps of a QRUN that holds its record -/

section
variable {s : State} {tiles i : Nat} {h va : Word} {p : Plan} {bs : List Byte}

theorem heldRun_bad {k : Nat} (hb : s.bindBad (bytesBv 1152 (bs.take 144)) = some k) :
    heldRun s tiles h va i p bs = s.raise .bind va (BitVec.ofNat 64 k) := by
  simp only [heldRun, hb]

variable (hb : s.bindBad (bytesBv 1152 (bs.take 144)) = none)
include hb

theorem heldRun_noTiles (hn : p.needsTile = true) (ht : tiles < 512) : heldRun s tiles h va i p bs = s.raise .bind va := by
  simp [heldRun, hb, hn, ht]

variable (ht : p.needsTile = true → 512 ≤ tiles) (hj : AtJoin s) (ha : Arrived s)
include ht hj ha

theorem heldRun_performed : heldRun s tiles h va i p bs =
    if p.run.isSome then .next (s.keepRecord 144 |>.waitsAt .other) else s.checkRun h i p (bytesBv 1152 (bs.take 144)) bs := by
  have e : (p.needsTile && !decide (512 ≤ tiles)) = false := by
    cases hn : p.needsTile with
    | false => rfl
    | true => simp [ht hn]
  simp only [heldRun, hb, e, joinHold_release hj ha (sc := .device) (by decide)] <;> rfl

end

section
variable {s : State} {h : Word} {i : Nat} {p : Plan} {b : BitVec 1152} {bs : List Byte}

theorem checkRun_takes {e : BitVec 512} (hl : (heldEntries bs 144).length < min 8 (qLeaves p.query))
    (he : s.leafEntry s.xid p.query (heldEntries bs 144).length = .ok e) :
    s.checkRun h i p b bs = .next ((s.onSt fun st => { st with held := some (bs ++ bvBytes 64 e) }).waits .other) := by
  unfold State.checkRun
  exact withEntries_takes hl he

variable (hl : min 8 (qLeaves p.query) ≤ (heldEntries bs 144).length)
include hl

theorem checkRun_fresh (hs : p.staleLeaf ((heldEntries bs 144).take (min 8 (qLeaves p.query))) = none) :
    s.checkRun h i p b bs = s.startRun i p b := by
  simp only [State.checkRun, withEntries_all hl, hs]

variable {k : Nat} (hs : p.staleLeaf ((heldEntries bs 144).take (min 8 (qLeaves p.query))) = some k)
include hs

theorem checkRun_invalid (hp : p.pinned = true ∨ s.st.heldDet = 2) :
    s.checkRun h i p b bs = s.raise .planInvalid 0 (BitVec.ofNat 64 (k * 2 ^ 32 + h.toNat)) := by
  have e : (p.pinned || s.st.heldDet == 2#2) = true := by simpa using hp
  simp only [State.checkRun, withEntries_all hl, hs, e, if_true]

variable (hp : p.pinned = false) (hd : s.st.heldDet ≠ 2)
include hp hd

/-- An unpinned plan at D0 or D1 is planned again from entries that are read once more (R90). -/
theorem checkRun_again : s.checkRun h i p b bs = s.withEntries p.query bs (144 + 64 * min 8 (qLeaves p.query)) fun es =>
    match makePlan p.query p.vaQuery s.st.heldDet p.hints s.clock (s.placement s.clock) es with
    | .bad f => s.raiseRec f
    | .ok m => s.startRun i { m with done := p.done, runRepl := min 255 (p.runRepl + 1) } b := by
  have e : (p.pinned || s.st.heldDet == 2#2) = false := by simpa [hp] using hd
  simp only [State.checkRun, withEntries_all hl, hs, e] <;> rfl

end

end Sys2Proof.Machine

namespace Sys2Proof
open Sys2Proof.Machine Sys2Proof.Claims

/-- Settles O43, by the steps of a QRUN: the read of its record, the checks of R89 and R269, the wait on a running plan, the entries of the leaves, and
the start of the run. -/
theorem qrunStartsPlans : Obligations.QrunStartsPlans := by
  unfold Obligations.QrunStartsPlans
  intro s s0 d a bs i k p n e c h lv b tiles leaves es again run runs
  refine ⟨fun hp hc => raises_of (execQrun_noPlan hp) hc rfl, fun hp hh hr => ?_, fun hp hh => ?_⟩
  · have hc := planRec_caches hr
    have hq : (holding s0 bs).cx.planOf ((holding s0 bs).rs d) = some (i, p) := by rw [holding_cx hc, holding_rs hc]; exact hp
    have hu : (holding s0 bs).st.held = some bs := by rw [holding_st hc]
    rw [execQrun_reads hp hh hr, execQrun_held hq hu, holding_tileRes hc, holding_rs hc, holding_rs hc]
  have he := execQrun_held (a := a) hp hh
  refine ⟨fun hb hc => raises_of (he.trans (heldRun_bad hb)) hc rfl,
    fun hb hn ht hc => raises_of (he.trans (heldRun_noTiles hb hn ht)) hc rfl, fun hb ht hj ha => ?_⟩
  have hgo := he.trans (heldRun_performed hb ht hj ha)
  refine ⟨fun hr => holds_keepRecord (hgo.trans (if_pos hr)), fun hr => ?_⟩
  replace hgo : exec (.qrun d a) s = s.checkRun h i p b bs := hgo.trans (if_neg (by simp [hr]))
  have hstart (q : Plan) (hq : exec (.qrun d a) s = s.startRun i q b) : runs q := ⟨_, hq, cached_putPlan (by simp)⟩
  refine ⟨fun hl hx => takes_of (hgo.trans (checkRun_takes hl hx)), fun hl => ⟨fun hs => hstart p (hgo.trans (checkRun_fresh hl hs)),
    fun hs hd hc => raises_of (hgo.trans (checkRun_invalid hl hs hd)) hc rfl, fun hs hu hd => ?_⟩⟩
  have hag := hgo.trans (checkRun_again hl hs hu hd)
  refine ⟨fun hk hx => takes_of (hag.trans (withEntries_takes hk hx)), fun hk hm => hstart _ (hag.trans ?_)⟩
  rw [withEntries_all hk]
  change (match makePlan p.query p.vaQuery lv p.hints s.clock (s.placement s.clock) again with
    | .bad f => s.raiseRec f
    | .ok m => s.startRun i { m with done := p.done, runRepl := min 255 (p.runRepl + 1) } b) = _
  rw [hm]

end Sys2Proof
end

section
/-!
PROOF. The refutation of the statement about the runs of plans (R26, R89, R215).
-/
namespace Sys2Proof.Machine

open Claims

/-! ### Two WGs of a run on one core -/

namespace TwoOnOneCore

/-- The contexts of one core, each with a WG of the launch. -/
def lower : CtxId := ⟨⟨0, 0, 0⟩, 0⟩
def upper : CtxId := ⟨⟨0, 0, 0⟩, 1⟩

/-- A query of two nodes, node 1 the root; node 0 selects from its own place, where no result stands. -/
def query : QRec :=
  BitVec.ofNatLT 0x210 (Nat.lt_of_lt_of_le (show 0x210 < 2 ^ 10 by decide) (Nat.pow_le_pow_right Nat.two_pos (show 10 ≤ 5632 by decide)))

/-- The run's operator stands on the cores of both WGs, which are one core. -/
def run : PlanRun := { id := 7, staged := [0, 1], slot := ⟨⟨0, 0, 0⟩, 0, 0⟩, asid := 0, level := 0, binding := 0 }
def plan : Plan := { query := query, vaQuery := 0, entries := [], ests := [], level := 0, stamp := 0, run := some run }

def launch : Launch :=
  { q := 0, idx := 0, asid := 0, level := 0, wgcount := 2, coop := false, excl := false, hzdEn := false, hzdMode := false, fields := 1, podtag := 0
    codeva := 0, codelen := 0, datava := 0, barlvl := 0, vbanks := 4, entry := [], drains := [], ncores := 1, running := [(0, lower), (1, upper)] }

/-- The run's command on that core, and behind it an MMA of the upper WG. -/
def cmd : EngCmd := { id := 1, kind := .plan, eng := .me, slot := run.slot, x := lower, asid := 0, level := 0, xfer := 7 }
def burst : EngCmd := { id := 2, kind := .mma, eng := .me, slot := ⟨⟨0, 0, 0⟩, 0, 1⟩, x := upper, asid := 0, level := 0 }

/-- The core holds a power token. -/
def core : Core := { me := { cmds := [cmd, burst] }, token := true }

def state : State :=
  { State.reset with
    ctxs := [(lower, { live := some (0, 0), plans := [(0, { plan := some plan })] }), (upper, { live := some (0, 1) })]
    cores := [(⟨0, 0, 0⟩, core)], devs := [(0, { Device.reset with launches := [(0, launch)] })] }

theorem runOf_state : state.runOf lower 0 = some (plan, run) := rfl
theorem ready_state : state.stagedReady lower run = true := by decide
theorem eval_state : state.evalNode lower run plan 0 = .ok {} := by rfl

/-- The operator has been performed: the run's command leaves the queue twice. -/
theorem bank_state : exec (.shadowBankEntry lower 0) state = .next (((state.popHead ⟨0, 0, 0⟩ .me).popHead ⟨0, 0, 0⟩ .me).onRun lower 0 fun p =>
    { p with run := some { run with results := [{}], cache := [], staged := [] } }) := rfl

/-- With the MMA the token leaves the core, and joins the ring of its field. -/
theorem ring_pops : ((((state.popHead ⟨0, 0, 0⟩ .me).popHead ⟨0, 0, 0⟩ .me).dev 0).fieldN 0).ring.length ≠ ((state.dev 0).fieldN 0).ring.length := by
  decide

end TwoOnOneCore

end Sys2Proof.Machine

namespace Sys2Proof
open Sys2Proof.Machine Sys2Proof.Claims

/-- Refutes O44, in its clause on an operator that has been performed: it has the devices stay as they are. Where both contexts of one core hold WGs on
which the run has placed the operator, one command of the run stands there for both; the bank takes a command off that queue for each, the second of
them an MMA of another stream, and the power token that the core holds goes back to its field. -/
theorem not_planRuns : ¬ Obligations.PlanRuns := by
  intro hall
  obtain ⟨-, -, -, heval, -⟩ := hall TwoOnOneCore.state TwoOnOneCore.lower 0 0 TwoOnOneCore.plan TwoOnOneCore.run {} default [] [] TwoOnOneCore.lower
    TwoOnOneCore.cmd [] ⟨TwoOnOneCore.runOf_state, rfl, rfl⟩
  obtain ⟨t, ht, ⟨-, -, hdevs, -⟩, -⟩ := heval rfl (by decide) TwoOnOneCore.ready_state TwoOnOneCore.eval_state
  obtain rfl := Host.Outcome.next.inj (TwoOnOneCore.bank_state.symm.trans ht)
  exact TwoOnOneCore.ring_pops (congrArg (fun d => (Device.fieldN d 0).ring.length) (State.dev_congr hdevs 0))

end Sys2Proof
end

section
/-!
PROOF. The refutation of the statement about copies (R71, R218).
-/
namespace Sys2Proof.Machine

open Claims

/-! ### Indices of which a granule has been read before -/

namespace GranuleRead

def core : CoreId := ⟨0, 0, 0⟩

/-- A gather of one row of 64 bytes from address 0 towards 0x4000; its index array is the first word of the WB of its own core. -/
def record : BitVec 1024 := BitVec.ofNatLT (64 * 2 ^ 64 + 0x4000 * 2 ^ 160 + 0x1F0000000000000 * 2 ^ 192 * 2 ^ 192) (by decide +kernel)

/-- The granule of the index array has been read in a step of its own, when the index was 1. -/
def gather : EngCmd :=
  { id := 1, kind := .gth, eng := .ce, slot := ⟨core, 0, 0⟩, x := ⟨core, 0⟩, asid := 0, level := 0, recA := record
    cache := [(0x1F000000000000, 1 :: List.replicate 15 0)] }

/-- The gather stands at the head of its queue; WB is zero. -/
def state : State := { State.reset with cores := [(core, { ce := { cmds := [gather] } })] }

/-- The bytes of the index array as they stand in WB. -/
theorem read_state : state.engRead (gather.xl .gather .ceSrc) (cpIva record) (4 * cpRows record) = .ok [0, 0, 0, 0] := rfl

/-- The indices that the gather takes are those of the granule that it has read. -/
theorem fetch_state : state.fetchIdx core gather = .ok (state.onHead core .ce fun y => { y with idx := [1], checked := true, cache := [] }) := rfl

theorem move_state : exec (.ceRowMove core) state = .next (state.onHead core .ce fun y => { y with idx := [1], checked := true, cache := [] }) := rfl

theorem cmds_state : ((state.onHead core .ce fun y => { y with idx := [1], checked := true, cache := [] }).core core).ce.cmds =
    [{ gather with idx := [1], checked := true, cache := [] }] := rfl

end GranuleRead

end Sys2Proof.Machine

namespace Sys2Proof
open Sys2Proof.Machine Sys2Proof.Claims

/-- Refutes O38, in its clause on the indices of a gather: it takes them from memory as it stands at the step, and the machine takes those of a granule
that the command has read in a step of its own as the granule held them then. Here WB holds 0 and the granule was read when it held 1. -/
theorem not_copyRows : ¬ Obligations.CopyRows := by
  intro hall
  obtain ⟨-, -, hindices, -⟩ := hall GranuleRead.state GranuleRead.core GranuleRead.gather [0, 0, 0, 0] [] [] (fun _ => []) [] rfl rfl rfl
  obtain ⟨t, h', rest, ht, -, hcmds, -, hidx⟩ := hindices (.inl rfl) rfl GranuleRead.read_state rfl (by rw [GranuleRead.fetch_state]; nofun)
  obtain rfl := Host.Outcome.next.inj (GranuleRead.move_state.symm.trans ht)
  obtain ⟨rfl, -⟩ := List.cons.inj (GranuleRead.cmds_state.symm.trans hcmds)
  exact absurd (hidx 0 (Nat.succ_pos _)) (by decide)

end Sys2Proof
end

section
/-!
PROOF. Numbers in the memories of a device, and what the command processor writes of a descriptor (R273, R278, R314).
-/
namespace Sys2Proof.Machine

open Claims

/-! ### Where numbers stand -/

/-- A range of bytes is there: in the stacks, or in host memory. -/
def Backed (a n : Nat) : Prop := a + n ≤ 2 ^ 40 ∨ 2 ^ 63 ≤ a

theorem Backed.sub {a n b m : Nat} (h : Backed a n) (hl : a ≤ b) (hr : b + m ≤ a + n) : Backed b m := by
  unfold Backed at *
  omega

/-- What the command processor may go on with is there. -/
theorem backed_of_served {s : State} {dev : Nat} {rs : List (Nat × Nat)} (h : s.cpStop dev rs = none) {a n : Nat} (hr : (a, n) ∈ rs) (hn : 0 < n) :
    Backed a n := by
  by_cases ha : a < 2 ^ 63
  · obtain ⟨_, _, he⟩ := cpStop_places h hr ha (k := (a % 128 + n - 1) / 128) (by unfold ceilDiv; dsimp only; omega)
    unfold State.placePhys at he
    split at he
    · cases he
    · exact .inl (by dsimp only at *; omega)
  · exact .inr (by omega)

section
variable {d : Device} (hd : d.canon) {a n : Nat} (ha : Backed a n) (x : Nat)
include hd ha

theorem pnat_pput_same : (d.pput a n x).pnat a n = x % 256 ^ n :=
  (pnat_pput hd x (by unfold Backed at ha; omega)).1 rfl rfl

theorem pnat_pput_ne {b m : Nat} (hb : Backed b m) (h : b + m ≤ a ∨ a + n ≤ b) : (d.pput a n x).pnat b m = d.pnat b m := by
  have hl := length_natBytes n x
  unfold Backed at *
  by_cases hs : (a + n ≤ 2 ^ 40 ∧ b + m ≤ 2 ^ 40) ∨ (2 ^ 63 ≤ a ∧ 2 ^ 63 ≤ b)
  · exact (pnat_pput hd x hs).2 h
  · unfold Device.pnat Device.pput Device.pwrite Device.pread
    by_cases hlt : a < 2 ^ 63
    · rw [if_pos hlt, Device.memWrite_inside d (by rw [hl]; omega)]
      simp only [if_neg (show ¬ b < 2 ^ 63 by omega)]
    · rw [if_neg hlt]
      simp only [if_pos (show b < 2 ^ 63 by omega)]
      rfl

end

/-- From d to e nothing but memory has changed. -/
def MemOnly (d e : Device) : Prop := ∃ m h, e = { d with mem := m, hostMem := h }

theorem MemOnly.refl (d : Device) : MemOnly d d := ⟨_, _, rfl⟩
theorem MemOnly.trans {d e f : Device} (h : MemOnly d e) (k : MemOnly e f) : MemOnly d f := by
  obtain ⟨_, _, rfl⟩ := h
  obtain ⟨_, _, rfl⟩ := k
  exact ⟨_, _, rfl⟩
theorem memOnly_pput (d : Device) (a n x : Nat) : MemOnly d (d.pput a n x) := pwrite_form ..
theorem memOnly_setQword (d : Device) (q k x : Nat) : MemOnly d (d.setQword q k x) := pwrite_form ..
theorem memOnly_parsed (d : Device) (q idx : Nat) : MemOnly d (d.parsed q idx) := parsed_form ..

/-! ### Writes that stay in a descriptor -/

/-- From d to e no byte of memory has changed outside the descriptor of queue q, which is where it was. -/
structure DescOnly (d e : Device) (q : Nat) : Prop where
  mem : ∀ a, a < d.qdesc q ∨ d.qdesc q + 64 ≤ a → mget e.mem a = mget d.mem a
  host : e.hostMem = d.hostMem
  base : e.qtbase = d.qtbase

theorem DescOnly.of_eq {d e : Device} {q : Nat} (hm : e.mem = d.mem) (hh : e.hostMem = d.hostMem) (hq : e.qtbase = d.qtbase) : DescOnly d e q :=
  ⟨fun a _ => by rw [hm], hh, hq⟩

theorem DescOnly.qdesc {d e : Device} {q : Nat} (h : DescOnly d e q) : e.qdesc q = d.qdesc q := by
  unfold Device.qdesc
  rw [h.base]

theorem DescOnly.trans {d e f : Device} {q : Nat} (h : DescOnly d e q) (k : DescOnly e f q) : DescOnly d f q :=
  ⟨fun a ha => (k.mem a (h.qdesc ▸ ha)).trans (h.mem a ha), k.host.trans h.host, k.base.trans h.base⟩

/-- A descriptor lies below 2^63, whatever QTBASE says. -/
theorem qdesc_lt (d : Device) {q : Nat} (hq : q < 65536) : d.qdesc q < 2 ^ 63 := by
  have := d.qtbase.isLt
  unfold Device.qdesc
  omega

theorem qdesc_inside {d : Device} {q : Nat} (hq : q < 65536) (ho : DescOpen d q) : d.qdesc q + 64 ≤ 2 ^ 40 := by
  have := qdesc_lt d hq
  unfold DescOpen at ho
  omega

section
variable {d : Device} (hd : d.canon) {q : Nat} (hq : q < 65536) (ho : DescOpen d q)
include hd hq ho

theorem descOnly_setQword {k : Nat} (hk : k < 16) (x : Nat) : DescOnly d (d.setQword q k x) q := by
  have hin := qdesc_inside hq ho
  have hl := length_natBytes 4 x
  have e : d.setQword q k x = { d with mem := mwrite d.mem (d.qdesc q + 4 * k) (natBytes 4 x) } := by
    unfold Device.setQword Device.pput Device.pwrite
    rw [if_pos (by omega), Device.memWrite_inside d (by rw [hl]; omega)]
  rw [e]
  exact ⟨fun a ha => mget_mwrite_out hd.1 (by rw [hl]; omega), rfl, rfl⟩

theorem descOnly_parsed (idx : Nat) : DescOnly d (d.parsed q idx) q := by
  unfold Device.parsed
  split
  · exact descOnly_setQword hd hq ho (by decide) _
  · exact .of_eq rfl rfl rfl

end

theorem DescOnly.descOpen {d e : Device} {q : Nat} (h : DescOnly d e q) (ho : DescOpen d q) : DescOpen e q := by
  unfold DescOpen at *
  rwa [h.qdesc]

theorem canon_parsed {d : Device} (hd : d.canon) (q idx : Nat) : (d.parsed q idx).canon := by
  unfold Device.parsed
  split
  · exact hd.setQword ..
  · exact hd

/-- The parser's step past a packet changes no word of the descriptor but RPTR. -/
theorem parsed_word {d : Device} (hd : d.canon) {q idx j : Nat} (ho : DescOpen d q) (hj : j < 16) (h5 : j ≠ 5) :
    (d.parsed q idx).qword q j = d.qword q j := by
  unfold Device.parsed
  split
  · rw [qword_setQword hd ho hj (by decide), if_neg h5]
  · rfl

/-! ### A queue that stops (R278) -/

/-- From d to e queue q has stopped with an error at a packet: nothing of memory but the words 0, 9 and 10 of its descriptor has changed, its interrupt
is raised, and the firmware core is to wake. -/
structure Stops (d e : Device) (q err off : Nat) : Prop where
  desc : DescOnly d e q
  state : e.qword q 0 / 2 ^ 29 % 4 = 1
  err : e.qword q 9 = err * 2 ^ 24
  off : e.qword q 10 = off
  words : ∀ j ∈ [1, 2, 3, 4, 5, 6, 7, 8, 11, 12, 13, 14, 15], e.qword q j = d.qword q j
  msix : e.msix = d.msix ++ [d.qword q 11 % 2 ^ 11]
  qerr : e.fwQerr = true

/-- The words that a stop writes into a descriptor. -/
def stopWords (d : Device) (q w err off : Nat) : Device := ((d.setQword q 0 w).setQword q 9 (err * 2 ^ 24)).setQword q 10 off

theorem stopQueue_eq (d : Device) (q st err off : Nat) : ∃ w, d.stopQueue q st err off =
    { (stopWords d q w err off).raise (nbits ((stopWords d q w err off).qword q 11) 0 11) with fwQerr := true } :=
  ⟨_, by unfold Device.stopQueue Device.setQstate stopWords; rfl⟩

theorem memOnly_stopWords (d : Device) (q w err off : Nat) : MemOnly d (stopWords d q w err off) :=
  ((memOnly_setQword ..).trans (memOnly_setQword ..)).trans (memOnly_setQword ..)

section
variable {d : Device} (hd : d.canon) {q : Nat} (ho : DescOpen d q) (w err off : Nat)
include hd ho

theorem descOnly_stopWords (hq : q < 65536) : DescOnly d (stopWords d q w err off) q := by
  have k1 := descOnly_setQword hd hq ho (k := 0) (by decide) w
  have k2 := descOnly_setQword (hd.setQword ..) hq (k1.descOpen ho) (k := 9) (by decide) (err * 2 ^ 24)
  exact (k1.trans k2).trans (descOnly_setQword ((hd.setQword ..).setQword ..) hq (k2.descOpen (k1.descOpen ho)) (by decide) off)

theorem stopWords_word {j : Nat} (hj : j < 16) (h0 : j ≠ 0) (h9 : j ≠ 9) (h10 : j ≠ 10) : (stopWords d q w err off).qword q j = d.qword q j := by
  have o1 := (descOpen_setQword 0 w).2 ho
  have o2 := (descOpen_setQword 9 (err * 2 ^ 24)).2 o1
  unfold stopWords
  rw [qword_setQword ((hd.setQword ..).setQword ..) o2 hj (by decide), if_neg h10, qword_setQword (hd.setQword ..) o1 hj (by decide), if_neg h9,
    qword_setQword hd ho hj (by decide), if_neg h0]

end

theorem stopQueue_stops {d : Device} (hd : d.canon) {q err off : Nat} (hq : q < 65536) (ho : DescOpen d q) (he : err < 256) (hf : off < 2 ^ 32) :
    Stops d (d.stopQueue q 1 err off) q err off := by
  obtain ⟨h0, h9, h10⟩ := stopQueue_words hd ho (show 1 < 4 by decide) he off
  obtain ⟨w, e⟩ := stopQueue_eq d q 1 err off
  obtain ⟨m, h, hm⟩ := memOnly_stopWords d q w err off
  have hdesc := descOnly_stopWords hd ho w err off hq
  have hword {j : Nat} (hj : j < 16) (h0 : j ≠ 0) (h9 : j ≠ 9) (h10 : j ≠ 10) : (d.stopQueue q 1 err off).qword q j = d.qword q j := by
    rw [e, qword_qerr]
    exact stopWords_word hd ho w err off hj h0 h9 h10
  constructor
  case desc =>
    rw [e]
    exact hdesc.trans (.of_eq rfl rfl rfl)
  case state => exact h0
  case err => exact h9
  case off => exact h10.trans (Nat.mod_eq_of_lt hf)
  case words =>
    intro j hj
    have hj' : j < 16 ∧ j ≠ 0 ∧ j ≠ 9 ∧ j ≠ 10 := by
      simp only [List.mem_cons, List.not_mem_nil, or_false] at hj
      omega
    obtain ⟨h16, hn0, hn9, hn10⟩ := hj'
    exact hword h16 hn0 hn9 hn10
  case msix =>
    have h11 := stopWords_word hd ho w err off (j := 11) (by decide) (by decide) (by decide) (by decide)
    have hmsix : (stopWords d q w err off).msix = d.msix := by rw [hm]
    rw [e]
    change (stopWords d q w err off).msix ++ [nbits ((stopWords d q w err off).qword q 11) 0 11] = _
    rw [hmsix, h11, nbits, Nat.pow_zero, Nat.div_one]
  case qerr =>
    rw [e]

/-- A queue's stop says the same of a device with the same memory, descriptors and interrupts. -/
theorem Stops.of_same {d d' e : Device} {q err off : Nat} (h : Stops d' e q err off) (hm : d'.mem = d.mem) (hh : d'.hostMem = d.hostMem)
    (hb : d'.qtbase = d.qtbase) (hc : d'.cycle = d.cycle) (hi : d'.msix = d.msix) : Stops d e q err off := by
  have hw := qword_congr hm hh hb hc q
  obtain ⟨desc, state, err, off, words, msix, qerr⟩ := h
  exact ⟨(DescOnly.of_eq hm hh hb).trans desc, state, err, off, fun j hj => (words j hj).trans (hw j), by rw [msix, hi, hw], qerr⟩

/-! ### Steps that change one device -/

/-- The step ends, one device has become `e`, and nothing beside that device has changed. -/
def Becomes (s : State) (i : Instr) (dev : Nat) (e : Device) : Prop :=
  ∃ t, exec i s = .next t ∧ t.dev dev = e ∧ t.streams = s.streams ∧ t.ctxs = s.ctxs ∧ t.cores = s.cores ∧ ∀ v, v ≠ dev → t.dev v = s.dev v

theorem becomes_onDev {s : State} {i : Instr} {dev : Nat} {f : Device → Device} (h : exec i s = .next (s.onDev dev f)) :
    Becomes s i dev (f (s.dev dev)) :=
  ⟨_, h, State.dev_onDev .., rfl, rfl, rfl, fun v hv => by rw [State.dev_onDev_if, if_neg hv]⟩

/-- Nothing has changed outside one device, and of its memory nothing outside the descriptor of queue q. -/
def Outside (s t : State) (dev q : Nat) : Prop :=
  (∀ a, (a < (s.dev dev).qdesc q ∨ (s.dev dev).qdesc q + 64 ≤ a) → mget (t.dev dev).mem a = mget (s.dev dev).mem a) ∧
    (t.dev dev).hostMem = (s.dev dev).hostMem ∧ t.streams = s.streams ∧ t.ctxs = s.ctxs ∧ t.cores = s.cores ∧ ∀ v, v ≠ dev → t.dev v = s.dev v

theorem Becomes.outside {s : State} {i : Instr} {dev q : Nat} {e : Device} (h : Becomes s i dev e) (k : DescOnly (s.dev dev) e q) :
    ∃ t, exec i s = .next t ∧ Outside s t dev q ∧ t.dev dev = e := by
  obtain ⟨t, ht, rfl, hs, hx, hc, ho⟩ := h
  exact ⟨t, ht, ⟨k.mem, k.host, hs, hx, hc, ho⟩, rfl⟩

/-- The step stops a queue of the device. -/
def StopsQueue (s : State) (i : Instr) (dev q err off : Nat) : Prop :=
  ∃ t, exec i s = .next t ∧ Outside s t dev q ∧ (t.dev dev).qword q 0 / 2 ^ 29 % 4 = 1 ∧ (t.dev dev).qword q 9 = err * 2 ^ 24 ∧
    (t.dev dev).qword q 10 = off ∧
    (∀ j ∈ [1, 2, 3, 4, 5, 6, 7, 8, 11, 12, 13, 14, 15], (t.dev dev).qword q j = (s.dev dev).qword q j) ∧
    (t.dev dev).msix = (s.dev dev).msix ++ [(s.dev dev).qword q 11 % 2 ^ 11] ∧ (t.dev dev).fwQerr = true

theorem Becomes.stops {s : State} {i : Instr} {dev q err off : Nat} {e : Device} (h : Becomes s i dev e) (k : Stops (s.dev dev) e q err off) :
    StopsQueue s i dev q err off := by
  obtain ⟨t, ht, ho, rfl⟩ := h.outside k.desc
  exact ⟨t, ht, ho, k.state, k.err, k.off, k.words, k.msix, k.qerr⟩

end Sys2Proof.Machine
end

section
/-!
PROOF. Host writes and doorbells (R76, R274, R314).
-/
namespace Sys2Proof.Machine

open Claims

/-! ### Host writes (R76) -/

/-- A place of device memory takes writes at its own address, or none at all. -/
theorem placePhys_cases (s : State) (d a : Nat) :
    (s.placePhys d a = .devMem d a ∧ a < 2 ^ 40) ∨ ∀ bs, s.writePlace (s.placePhys d a) bs = s := by
  unfold State.placePhys
  split
  · exact .inr fun _ => rfl
  · dsimp only
    split
    · exact .inl ⟨rfl, by omega⟩
    all_goals exact .inr fun _ => rfl

/-- The bytes of a line have one home. -/
theorem placePhys_line {s : State} {d a b e c : Nat} (h : s.placePhys d b = .devMem e c) (hl : a / 128 = b / 128) (ha : a < 2 ^ 40) :
    s.placePhys d a = .devMem d a := by
  have hh : (s.dev d).homeState d a = (s.dev d).homeState d b := by
    unfold Device.homeState
    rw [hl]
  unfold State.placePhys at h ⊢
  rw [if_neg (by omega)]
  split at h
  · cases h
  · dsimp only at h ⊢
    rw [hh]
    split at h
    · rfl
    all_goals cases h

/-- The record of a dropped access names the field in its LOC (log 61). -/
theorem causeWord_dropped (fl : Nat) : ((causeWord 0 { name := .machineCheck } false ((BitVec.ofNat 64 fl).toNat % 8 * 4096)).extractLsb' 12 3).toNat =
    fl % 8 := by
  have hc : causeWord 0 { name := .machineCheck } false ((BitVec.ofNat 64 fl).toNat % 8 * 4096) =
      BitVec.ofNat 64 (FaultName.machineCheck.cls * 2 ^ 28 + FaultName.machineCheck.code * 2 ^ 20 + fl % 2 ^ 64 % 8 * 4096) := by
    simp [causeWord, FaultName.restartable]
  rw [hc, show FaultName.machineCheck.cls = 8 from rfl, show FaultName.machineCheck.code = 1 from rfl, BitVec.extractLsb'_toNat, BitVec.toNat_ofNat,
    Nat.shiftRight_eq_div_pow]
  omega

section
variable {s : State} {dev pa : Nat} {bytes : List Byte} (hg : pa % 16 + bytes.length ≤ 16) (hp : pa < 2 ^ 63)
include hg hp

theorem execHostMemoryWrite_eq : exec (.hostMemoryWrite dev pa bytes) s =
    s.cpAccess dev [(pa, bytes.length)] fun s => .next (s.writePlace (s.placePhys dev pa) bytes) := by
  change execHostMemoryWrite dev pa bytes s = _
  refine if_neg ?_
  simp only [Bool.or_eq_true, decide_eq_true_eq]
  omega

/-- A place in service takes a host write to its granule. -/
theorem hostMemoryWrite_stores (hc : s.Canon) (hs : s.cpStop dev [(pa, bytes.length)] = none) :
    ∃ t, exec (.hostMemoryWrite dev pa bytes) s = .next t ∧ Stored s t dev pa false bytes ∧ t.streams = s.streams := by
  refine ⟨s.writePlace (s.placePhys dev pa) bytes, ?_, ?_⟩
  · rw [execHostMemoryWrite_eq hg hp]
    unfold State.cpAccess State.cpAccessOr
    rw [hs]
  by_cases hb : bytes = []
  · subst hb
    rcases placePhys_cases s dev pa with ⟨he, ha⟩ | he
    · rw [he]
      exact ⟨stored_writePlace hc (host := false) fun _ => Nat.le_of_lt ha, rfl⟩
    · rw [he]
      exact ⟨⟨nofun, fun _ _ _ _ => rfl, rfl⟩, rfl⟩
  · have hlen := List.length_pos_of_ne_nil hb
    have hin := backed_of_served hs List.mem_cons_self hlen
    obtain ⟨e, a, he⟩ := cpStop_places hs List.mem_cons_self (k := 0) hp (by unfold ceilDiv; dsimp only; omega)
    have hend : pa + bytes.length ≤ 2 ^ 40 := by unfold Backed at hin; omega
    rw [placePhys_line he (by omega) (by omega)]
    exact ⟨stored_writePlace hc (host := false) fun _ => hend, rfl⟩

/-- A host write to a field that has failed is dropped, with a record that names the field (R314, log 61). -/
theorem hostMemoryWrite_drops {e fl : Nat} (hs : s.cpStop dev [(pa, bytes.length)] = some (.dropped e fl)) :
    ∃ t x, exec (.hostMemoryWrite dev pa bytes) s = .next t ∧ SameBytes s t ∧ (t.dev dev).logQueue = (s.dev dev).logQueue ++ [x] ∧
      (x.cause.extractLsb' 12 3).toNat = fl % 8 ∧ x.fdet = 0 ∧ t.streams = s.streams := by
  refine ⟨s.logFault dev 0 { name := .machineCheck, detail := BitVec.ofNat 64 fl } false 0 0, _, ?_, ?_,
    congrArg Device.logQueue (State.dev_onDev ..), causeWord_dropped fl, rfl, rfl⟩
  · rw [execHostMemoryWrite_eq hg hp]
    unfold State.cpAccess State.cpAccessOr
    rw [hs]
    rfl
  · exact ((EngineKeeps.refl s).logFault ..).bytes

end

/-! ### Doorbells (R274) -/

/-- A doorbell that is not refused. -/
def GoodBell (d : Device) (q : Nat) (data : Word) : Prop :=
  data.toNat / 2 ^ 33 = 0 ∧ (data.toNat % 2 ^ 32 + 2 ^ 32 - d.qword q 5) % 2 ^ 32 ≤ 2 ^ (d.qword q 0 / 2 ^ 19 % 16) ∧
    (d.qword q 0).testBit 31 = true

theorem nbit_eq (x i : Nat) : nbit x i = x.testBit i := by
  unfold nbit
  rw [Nat.testBit_eq_decide_div_mod_eq]
  rfl

theorem dbBad_iff (d : Device) (q : Nat) (data : Word) : d.dbBad q data = false ↔ GoodBell d q data := by
  have hlt := data.isLt
  unfold Device.dbBad GoodBell Device.rptr nbits
  rw [nbit_eq]
  simp only [Bool.or_eq_false_iff, bne_eq_false_iff_eq, decide_eq_false_iff_not, Nat.not_lt, Bool.not_eq_false', and_assoc]
  rw [show data.toNat / 2 ^ 33 % 2 ^ 31 = data.toNat / 2 ^ 33 by omega]
  exact Iff.rfl

/-- The instruction of a doorbell. -/
def bellInstr (dev q : Nat) (data : Word) : Instr := if data.getLsbD 32 then .doorbellRestart dev q data else .doorbell dev q data

theorem exec_bell {s : State} {dev q : Nat} (data : Word) (hq : q < 65536) (hs : s.cpStop dev [((s.dev dev).qdesc q, 64)] = none) :
    Becomes s (bellInstr dev q data) dev ((s.dev dev).ring q data) := by
  have hto : s.doorbellTo dev q data = .next (s.onDev dev fun d => d.ring q data) := by
    unfold State.doorbellTo State.cpAccess State.cpAccessOr
    rw [if_neg (Nat.not_le.2 hq), hs]
  refine becomes_onDev (f := fun d => d.ring q data) ?_
  unfold bellInstr
  cases hr : data.getLsbD 32
  · change execDoorbell dev q data s = _
    rw [← hto]
    exact if_neg (by rw [dbRestart, hr]; decide)
  · change execDoorbellRestart dev q data s = _
    rw [← hto]
    exact if_pos hr

theorem setPend_mem (d : Device) (q : Nat) : q ∈ (d.setPend q).pendq := by
  obtain ⟨l, e, h⟩ := setPend_spec d q
  rw [e]
  exact (h q).2 (.inr rfl)

/-- A queue without a slot becomes pending; nothing else changes. -/
def Device.pendFree (d : Device) (q : Nat) : Device := if (d.slotOf q).isNone then d.setPend q else d

theorem pendFree_spec (d : Device) (q : Nat) : ∃ l, d.pendFree q = { d with pendq := l } ∧ (d.slotOf q = none → q ∈ l) ∧
    (d.slotOf q ≠ none → l = d.pendq) := by
  unfold Device.pendFree
  cases h : d.slotOf q with
  | none =>
    obtain ⟨l, e, hl⟩ := setPend_spec d q
    exact ⟨l, e, fun _ => (hl q).2 (.inr rfl), fun hn => absurd rfl hn⟩
  | some k => exact ⟨d.pendq, rfl, nofun, fun _ => rfl⟩

theorem ring_good {d : Device} {q : Nat} {data : Word} (h : GoodBell d q data) : d.ring q data =
    (if dbRestart data && (d.setQword q 4 (data.toNat % 2 ^ 32)).qstate q != 0 then
      ((d.setQword q 4 (data.toNat % 2 ^ 32)).setQword q 9 0).setQstate q 0
    else d.setQword q 4 (data.toNat % 2 ^ 32)).pendFree q := by
  unfold Device.ring Device.pendFree
  rw [if_neg (by rw [(dbBad_iff d q data).2 h]; decide)]

/-- What a doorbell that is not refused has written of a descriptor. -/
structure Rung (d e : Device) (q wp : Nat) (restart : Bool) : Prop where
  desc : DescOnly d e q
  wptr : e.qword q 4 = wp
  rptr : e.qword q 5 = d.qword q 5
  restarted : restart = true → e.qword q 0 / 2 ^ 29 % 4 = 0 ∧ (d.qword q 0 / 2 ^ 29 % 4 ≠ 0 → e.qword q 9 = 0)
  kept : restart = false → e.qword q 0 = d.qword q 0 ∧ e.qword q 9 = d.qword q 9

section
variable {d : Device} (hd : d.canon) {q : Nat} (hq : q < 65536) (ho : DescOpen d q) {wp : Nat} (hw : wp < 2 ^ 32)
include hd hq ho hw

/-- WPTR alone is written where the queue runs, or no restart is asked for. -/
theorem rung_wptr {restart : Bool} (hr : restart = true → d.qword q 0 / 2 ^ 29 % 4 = 0) : Rung d (d.setQword q 4 wp) q wp restart := by
  have hword {j : Nat} (hj : j < 16) (hn : j ≠ 4) : (d.setQword q 4 wp).qword q j = d.qword q j :=
    (qword_setQword hd ho hj (by decide) wp).trans (if_neg hn)
  refine ⟨descOnly_setQword hd hq ho (by decide) wp, ?_, hword (by decide) (by decide), fun h => ?_, fun _ =>
    ⟨hword (by decide) (by decide), hword (by decide) (by decide)⟩⟩
  · rw [qword_setQword hd ho (by decide) (by decide), if_pos rfl, Nat.mod_eq_of_lt hw]
  · rw [hword (by decide) (by decide)]
    exact ⟨hr h, fun hn => absurd (hr h) hn⟩

/-- A restart of a queue that does not run clears ERR and sets STATE running. -/
theorem rung_restart : Rung d (((d.setQword q 4 wp).setQword q 9 0).setQstate q 0) q wp true := by
  have c1 := hd.setQword q 4 wp
  have c2 := c1.setQword q 9 0
  have o1 := (descOpen_setQword 4 wp).2 ho
  have o2 := (descOpen_setQword 9 0).2 o1
  have hword {j : Nat} (hj : j < 16) (h0 : j ≠ 0) : (((d.setQword q 4 wp).setQword q 9 0).setQstate q 0).qword q j =
      if j = 9 then 0 else if j = 4 then wp else d.qword q j := by
    unfold Device.setQstate
    rw [qword_setQword c2 o2 hj (by decide), if_neg h0, qword_setQword c1 o1 hj (by decide), qword_setQword hd ho hj (by decide),
      Nat.mod_eq_of_lt hw, Nat.zero_mod]
  have k1 := descOnly_setQword hd hq ho (k := 4) (by decide) wp
  have k2 := descOnly_setQword c1 hq o1 (k := 9) (by decide) 0
  refine ⟨(k1.trans k2).trans (descOnly_setQword c2 hq o2 (by decide) _), ?_, ?_, fun _ => ⟨state_setQstate c2 o2 (by decide), fun _ => ?_⟩, nofun⟩
  · exact (hword (by decide) (by decide)).trans rfl
  · exact (hword (by decide) (by decide)).trans rfl
  · exact (hword (by decide) (by decide)).trans rfl

end

theorem slotOf_memOnly {d e : Device} (h : MemOnly d e) (q : Nat) : e.slotOf q = d.slotOf q := by
  obtain ⟨_, _, rfl⟩ := h
  rfl

theorem Rung.pendq {d e : Device} {q wp : Nat} {r : Bool} (h : Rung d e q wp r) (l : List Nat) : Rung d { e with pendq := l } q wp r := by
  obtain ⟨desc, wptr, rptr, restarted, kept⟩ := h
  exact ⟨desc.trans (.of_eq rfl rfl rfl), wptr, rptr, restarted, kept⟩

/-- A doorbell that is not refused (R274, R283). -/
theorem ring_rung {d : Device} (hd : d.canon) {q : Nat} (hq : q < 65536) (ho : DescOpen d q) {data : Word} (hg : GoodBell d q data) :
    Rung d (d.ring q data) q (data.toNat % 2 ^ 32) (data.getLsbD 32) ∧ (d.slotOf q = none → q ∈ (d.ring q data).pendq) ∧
      (d.slotOf q ≠ none → (d.ring q data).pendq = d.pendq) := by
  have hw : data.toNat % 2 ^ 32 < 2 ^ 32 := Nat.mod_lt _ (by decide)
  have hstate : (d.setQword q 4 (data.toNat % 2 ^ 32)).qstate q = d.qword q 0 / 2 ^ 29 % 4 := by
    unfold Device.qstate nbits
    have h0 := qword_setQword hd ho (j := 0) (k := 4) (by decide) (by decide) (data.toNat % 2 ^ 32)
    rw [if_neg (by decide)] at h0
    exact congrArg (· / 2 ^ 29 % 4) h0
  obtain ⟨e, hr, hm, he⟩ : ∃ e, Rung d e q (data.toNat % 2 ^ 32) (data.getLsbD 32) ∧ MemOnly d e ∧ d.ring q data = e.pendFree q := by
    rw [ring_good hg, hstate]
    by_cases hc : (dbRestart data && d.qword q 0 / 2 ^ 29 % 4 != 0) = true
    · rw [if_pos hc]
      have hres : data.getLsbD 32 = true := (Bool.and_eq_true_iff.1 hc).1
      rw [hres]
      exact ⟨_, rung_restart hd hq ho hw, ((memOnly_setQword ..).trans (memOnly_setQword ..)).trans (memOnly_setQword ..), rfl⟩
    · rw [if_neg hc]
      refine ⟨_, rung_wptr hd hq ho hw fun hres => ?_, memOnly_setQword .., rfl⟩
      have hres : dbRestart data = true := hres
      rw [hres] at hc
      simpa using hc
  obtain ⟨l, hl, hfree, hmapped⟩ := pendFree_spec e q
  rw [slotOf_memOnly hm] at hfree hmapped
  have hpend : e.pendq = d.pendq := by
    obtain ⟨_, _, rfl⟩ := hm
    rfl
  rw [he, hl]
  exact ⟨hr.pendq l, hfree, fun hn => (hmapped hn).trans hpend⟩

end Sys2Proof.Machine
end

section
/-!
PROOF. Dependency counters: the order in which arms fire, what a counter holds after a decrement, and the release of a held packet (R279 to R283).
-/
namespace Sys2Proof.Machine

open Claims

/-! ### The order of the arms that fire (R281) -/

/-- Arms with the highest threshold first. -/
def ArmsSorted (l : List Arm) : Prop := l.Pairwise fun a b => b.thresh ≤ a.thresh

theorem mem_insertArm {r a : Arm} {l : List Arm} : a ∈ insertArm r l ↔ a = r ∨ a ∈ l := by
  induction l with
  | nil => simp [insertArm]
  | cons x l ih =>
    unfold insertArm
    split <;> simp [ih, or_left_comm]

theorem armsSorted_insertArm (r : Arm) {l : List Arm} (h : ArmsSorted l) : ArmsSorted (insertArm r l) := by
  induction l with
  | nil => exact List.pairwise_singleton ..
  | cons x l ih =>
    obtain ⟨hx, hl⟩ := List.pairwise_cons.1 h
    unfold insertArm
    split
    · next hr =>
      refine List.pairwise_cons.2 ⟨fun a ha => ?_, ih hl⟩
      rcases mem_insertArm.1 ha with rfl | ha
      · exact hr
      · exact hx a ha
    · next hr =>
      refine List.pairwise_cons.2 ⟨fun a ha => ?_, h⟩
      rcases List.mem_cons.1 ha with rfl | ha
      · omega
      · have := hx a ha
        omega

/-- An arm comes behind those with its threshold. -/
theorem filter_insertArm (r : Arm) {l : List Arm} (h : ArmsSorted l) (t : Nat) :
    (insertArm r l).filter (fun a => a.thresh = t) = (l ++ [r]).filter fun a => a.thresh = t := by
  induction l with
  | nil => rfl
  | cons x l ih =>
    obtain ⟨hx, hl⟩ := List.pairwise_cons.1 h
    unfold insertArm
    split
    · rw [List.cons_append, List.filter_cons, List.filter_cons, ih hl]
    · next hr =>
      by_cases ht : r.thresh = t
      · have hnone : (x :: l).filter (fun a => a.thresh = t) = [] := by
          refine List.filter_eq_nil_iff.2 fun a ha => ?_
          have : a.thresh ≤ x.thresh := by
            rcases List.mem_cons.1 ha with rfl | ha
            · exact Nat.le_refl _
            · exact hx a ha
          rw [decide_eq_true_eq]
          omega
        rw [List.filter_append, List.filter_cons, hnone, if_pos (decide_eq_true ht)]
        simp [ht]
      · rw [List.filter_append, List.filter_cons, if_neg (by simpa using ht)]
        simp [ht]

theorem length_insertArm (r : Arm) (l : List Arm) : (insertArm r l).length = l.length + 1 := by
  induction l with
  | nil => rfl
  | cons x l ih =>
    unfold insertArm
    split
    · rw [List.length_cons, ih, List.length_cons]
    · rfl

/-- The arms of a list in the order in which they fire. -/
def sortArms (l : List Arm) : List Arm := l.foldl (fun l r => insertArm r l) []

theorem foldl_insertArm (rs : List Arm) : ∀ {l : List Arm}, ArmsSorted l →
    let m := rs.foldl (fun l r => insertArm r l) l
    ArmsSorted m ∧ m.length = l.length + rs.length ∧ ∀ t, m.filter (fun a => a.thresh = t) = (l ++ rs).filter fun a => a.thresh = t := by
  induction rs with
  | nil => exact fun {l} h => ⟨h, rfl, fun t => by rw [List.foldl_nil, List.append_nil]⟩
  | cons r rs ih =>
    intro l h
    obtain ⟨h1, h2, h3⟩ := ih (armsSorted_insertArm r h)
    refine ⟨h1, ?_, fun t => ?_⟩
    · rw [List.foldl_cons, h2, length_insertArm, List.length_cons]
      omega
    · rw [List.foldl_cons, h3, List.filter_append, filter_insertArm r h, ← List.filter_append, List.append_assoc, List.singleton_append]

/-- Arms fire by falling threshold, those of one threshold in their own order. -/
theorem sortArms_spec (l : List Arm) : ArmsSorted (sortArms l) ∧ (sortArms l).length = l.length ∧
    ∀ t, (sortArms l).filter (fun a => a.thresh = t) = l.filter fun a => a.thresh = t := by
  obtain ⟨h1, h2, h3⟩ := foldl_insertArm l (l := []) .nil
  exact ⟨h1, h2.trans (Nat.zero_add _), h3⟩

/-- Arms that fire raise their interrupts and leave their decrements to be made, in their order. -/
theorem foldl_fireArm (l : List Arm) (d : Device) : l.foldl Device.fireArm d =
    { d with msix := d.msix ++ (l.filter fun a => a.kind = 1).map Arm.vec, arms := d.arms ++ (l.filter fun a => a.kind = 2).map Arm.tgt } := by
  induction l generalizing d with
  | nil => simp
  | cons a l ih =>
    rw [List.foldl_cons, ih]
    unfold Device.fireArm
    split
    · next h1 => simp [h1, Device.raise]
    · split
      · next h2 => simp [h2]
      · next h1 h2 => simp [h1, h2]

/-! ### What a counter holds (R279) -/

theorem memOnly_putArm (d : Device) (c a : Nat) (r : Arm) : MemOnly d (d.putArm c a r) :=
  ((memOnly_pput ..).trans (memOnly_pput ..)).trans (memOnly_pput ..)

theorem canon_putArm {d : Device} (hd : d.canon) (c a : Nat) (r : Arm) : (d.putArm c a r).canon := ((hd.pput ..).pput ..).pput ..

section
variable {d : Device} (hd : d.canon) {c a : Nat} (hc : Backed c 64) (ha : a < 3) (r : Arm)
include hd hc ha

/-- An arm that is written changes no number outside it. -/
theorem pnat_putArm {b m : Nat} (hb : Backed b m) (h : b + m ≤ c + 16 + 16 * a ∨ c + 32 + 16 * a ≤ b) : (d.putArm c a r).pnat b m = d.pnat b m := by
  unfold Device.putArm
  rw [pnat_pput_ne ((hd.pput ..).pput ..) (hc.sub (by omega) (by omega)) _ hb (by omega),
    pnat_pput_ne (hd.pput ..) (hc.sub (by omega) (by omega)) _ hb (by omega),
    pnat_pput_ne hd (hc.sub (by omega) (by omega)) _ hb (by omega)]

/-- An arm reads as it was written. -/
theorem armAt_putArm (h1 : r.thresh < 2 ^ 32) (h2 : r.kind < 4) (h3 : r.vec < 2 ^ 11) (h4 : r.tgt < 2 ^ 64) : (d.putArm c a r).armAt c a = r := by
  have b0 : Backed (c + 4 * (4 + 4 * a)) 4 := hc.sub (by omega) (by omega)
  have b1 : Backed (c + 4 * (5 + 4 * a)) 4 := hc.sub (by omega) (by omega)
  have b2 : Backed (c + 4 * (6 + 4 * a)) 8 := hc.sub (by omega) (by omega)
  have e0 : (d.putArm c a r).pnat (c + 4 * (4 + 4 * a + 0)) 4 = r.thresh := by
    unfold Device.putArm
    rw [Nat.add_zero, pnat_pput_ne ((hd.pput ..).pput ..) b2 _ b0 (by omega), pnat_pput_ne (hd.pput ..) b1 _ b0 (by omega), pnat_pput_same hd b0]
    exact Nat.mod_eq_of_lt h1
  have e1 : (d.putArm c a r).pnat (c + 4 * (4 + 4 * a + 1)) 4 = r.kind * 2 ^ 30 + r.vec * 2 ^ 16 := by
    rw [show c + 4 * (4 + 4 * a + 1) = c + 4 * (5 + 4 * a) by omega]
    unfold Device.putArm
    rw [pnat_pput_ne ((hd.pput ..).pput ..) b2 _ b1 (by omega), pnat_pput_same (hd.pput ..) b1]
    exact Nat.mod_eq_of_lt (by omega)
  have e2 : (d.putArm c a r).pnat (c + 4 * (6 + 4 * a)) 8 = r.tgt := by
    unfold Device.putArm
    rw [pnat_pput_same ((hd.pput ..).pput ..) b2]
    exact Nat.mod_eq_of_lt h4
  unfold Device.armAt
  dsimp only
  rw [e0, e1, e2, show (r.kind * 2 ^ 30 + r.vec * 2 ^ 16) / 2 ^ 30 = r.kind by omega,
    show nbits (r.kind * 2 ^ 30 + r.vec * 2 ^ 16) 16 11 = r.vec by unfold nbits; omega]

end

theorem memOnly_foldl_putArm (c : Nat) : ∀ (l : List (Arm × Nat)) (d : Device), MemOnly d (l.foldl (fun d p => d.putArm c p.2 p.1) d)
  | [], d => .refl d
  | _ :: l, _ => (memOnly_putArm ..).trans (memOnly_foldl_putArm c l _)

/-- The arms that stay are written back in their order: nothing before them changes. -/
theorem foldl_putArm {c : Nat} (hc : Backed c 64) : ∀ (l : List Arm) {d : Device} (k : Nat), d.canon → k + l.length ≤ 3 →
    ∀ {b m : Nat}, Backed b m → b + m ≤ c + 16 → ((l.zipIdx k).foldl (fun d p => d.putArm c p.2 p.1) d).pnat b m = d.pnat b m
  | [], _, _, _, _ => fun _ _ => rfl
  | r :: l, d, k, hd, hl => fun hb hm => by
    rw [List.length_cons] at hl
    exact (foldl_putArm hc l (k + 1) (canon_putArm hd c k r) (by omega) hb hm).trans (pnat_putArm hd hc (by omega) r hb (by omega))

/-- Word 1 of a counter as it is written. -/
def word1 (heldv under : Bool) (n : Nat) : Nat := (if heldv then 2 ^ 31 else 0) + (if under then 2 ^ 30 else 0) + n

theorem word1_fields {heldv under : Bool} {n : Nat} (hn : n < 4) : word1 heldv under n < 2 ^ 32 ∧ nbits (word1 heldv under n) 0 2 = n ∧
    (word1 heldv under n).testBit 30 = under ∧ (word1 heldv under n).testBit 31 = heldv := by
  rw [← nbit_eq, ← nbit_eq]
  unfold word1 nbit nbits
  cases heldv <;> cases under <;> simp <;> omega

/-- A counter with a new count and a new word 1, the arms that stay being written back. -/
def recount (d : Device) (c new : Nat) (heldv under : Bool) (left : List Arm) : Device :=
  (left.zipIdx).foldl (fun d p => d.putArm c p.2 p.1) ((d.pput c 4 new).putWord1 c heldv under left.length)

theorem memOnly_recount (d : Device) (c new : Nat) (heldv under : Bool) (left : List Arm) : MemOnly d (recount d c new heldv under left) :=
  ((memOnly_pput ..).trans (memOnly_pput ..)).trans (memOnly_foldl_putArm ..)

theorem recount_spec {d : Device} (hd : d.canon) {c new : Nat} (hc : Backed c 64) (hn : new < 2 ^ 32) (heldv under : Bool) {left : List Arm}
    (hl : left.length ≤ 3) : (recount d c new heldv under left).count c = new ∧
      (recount d c new heldv under left).pnat (c + 4) 4 = word1 heldv under left.length := by
  have b0 : Backed c 4 := hc.sub (by omega) (by omega)
  have b1 : Backed (c + 4) 4 := hc.sub (by omega) (by omega)
  obtain ⟨hlt, -⟩ := word1_fields (heldv := heldv) (under := under) (n := left.length) (by omega)
  have hcan := (hd.pput c 4 new).pput (c + 4) 4 (word1 heldv under left.length)
  refine ⟨(foldl_putArm hc left 0 hcan (by omega) b0 (by omega)).trans ?_, (foldl_putArm hc left 0 hcan (by omega) b1 (by omega)).trans ?_⟩
  · rw [pnat_pput_ne (hd.pput ..) b1 _ b0 (by omega), pnat_pput_same hd b0]
    exact Nat.mod_eq_of_lt hn
  · rw [pnat_pput_same (hd.pput ..) b1]
    exact Nat.mod_eq_of_lt hlt

/-! ### The release of a held packet (R281, R283) -/

theorem releaseHeld_form (d : Device) (q idx : Nat) : ∃ m h ps r l, d.releaseHeld q idx =
    { d with mem := m, hostMem := h, pkts := ps, ready := r, pendq := l } ∧
      (d.pkts.any (fun p => p.q == q && p.idx == idx && p.st == .held) = true → (q, idx) ∈ r ∧ (d.slotOf q = none → q ∈ l)) := by
  unfold Device.releaseHeld
  split
  · next p hp =>
    dsimp only
    have h2 : MemOnly (d.pushReady q idx) (if isArm p.words then d.pushReady q idx else (d.pushReady q idx).parsed q idx) := by
      split
      · exact .refl _
      · exact memOnly_parsed ..
    obtain ⟨m, h, e⟩ := h2
    obtain ⟨l, el, hfree, -⟩ := pendFree_spec { d.pushReady q idx with mem := m, hostMem := h } q
    rw [e]
    exact ⟨m, h, _, _, l, el, fun _ => ⟨List.mem_append_right _ List.mem_cons_self, hfree⟩⟩
  · next hn =>
    refine ⟨_, _, _, _, _, rfl, fun ha => ?_⟩
    obtain ⟨p, hp, hc⟩ := List.any_eq_true.1 ha
    exact absurd hc (List.find?_eq_none.1 hn p hp)

/-! ### A decrement (R281) -/

/-- An arm that a decrement of n passes. -/
def Passes (old n : Nat) (a : Arm) : Bool := decide (a.thresh < old ∧ old - n ≤ a.thresh)

/-- The arms of a counter. -/
def armsOf (d : Device) (c : Nat) : List Arm := (List.range (d.narm c)).map (d.armAt c)

/-- From the device d, whose lists are those of b, a decrement by n of the counter at c has led to e: the arms passed have fired, highest threshold
first; at 0 the held packet has gone on the ready list, and else the counter holds what is left. -/
def Counted (d e b : Device) (c n : Nat) (after : List Nat) : Prop :=
  let old := d.count c
  let w1 := d.pnat (c + 4) 4
  ∃ fired : List Arm, (∀ h, fired.filter (fun a => a.thresh = h) = (armsOf d c).filter fun a => Passes old n a && decide (a.thresh = h)) ∧
    fired.Pairwise (fun a b => b.thresh ≤ a.thresh) ∧
    e.msix = b.msix ++ ((fired.filter fun a => a.kind = 1).map Arm.vec) ++ after ∧
    e.arms = b.arms ++ ((fired.filter fun a => a.kind = 2).map Arm.tgt) ∧
    (∀ p ∈ d.pkts, old - n = 0 → w1.testBit 31 = true → p.st = .held → p.q = d.pnat (c + 8) 4 % 2 ^ 16 → p.idx = d.pnat (c + 12) 4 →
      (p.q, p.idx) ∈ e.ready ∧ (d.slotOf p.q = none → p.q ∈ e.pendq)) ∧
    (¬ (old - n = 0 ∧ w1.testBit 31 = true) → e.count c = old - n ∧ e.narm c = (armsOf d c).length - fired.length ∧
      (e.pnat (c + 4) 4).testBit 30 = (w1.testBit 30 || decide (old < n)))

theorem decrement_reserved {d : Device} {c n : Nat} (h : d.ctrReserved c = true) : d.decrement c n = d := if_pos h

/-- A decrement in its parts. -/
theorem decrement_eq {d : Device} {c n : Nat} (h : d.ctrReserved c = false) :
    let old := d.count c
    let w1 := d.pnat (c + 4) 4
    let free := old - n == 0 && w1.testBit 31
    let d3 := (sortArms ((armsOf d c).filter (Passes old n))).foldl Device.fireArm
      (recount d c (old - n) (w1.testBit 31 && !free) (w1.testBit 30 || decide (old < n)) ((armsOf d c).filter fun a => !Passes old n a))
    d.decrement c n = if free then d3.releaseHeld (d.pnat (c + 8) 4 % 2 ^ 16) (d.pnat (c + 12) 4) else d3 := by
  have hp (old n : Nat) : Passes old n = fun a => decide (a.thresh < old) && decide (old - n ≤ a.thresh) := by
    funext a
    unfold Passes
    rw [Bool.decide_and]
  unfold Device.decrement
  rw [if_neg (by rw [h]; decide)]
  simp only [hp, nbit_eq, nbits, Nat.pow_zero, Nat.div_one]
  rfl

theorem narm_le (d : Device) (c : Nat) : d.narm c ≤ 3 := by
  unfold Device.narm nbits
  omega

theorem count_lt (d : Device) (c : Nat) : d.count c < 2 ^ 32 := pnat_lt d _ 4

theorem decrement_counted {d : Device} (hd : d.canon) {c n : Nat} (hc : Backed c 64) (hr : d.ctrReserved c = false) :
    Counted d (d.decrement c n) d c n [] := by
  let old := d.count c
  let w1 := d.pnat (c + 4) 4
  let fired := sortArms ((armsOf d c).filter (Passes old n))
  let left := (armsOf d c).filter fun a => !Passes old n a
  have hold := count_lt d c
  have hall : (armsOf d c).length ≤ 3 := by
    rw [armsOf, List.length_map, List.length_range]
    exact narm_le d c
  have hparts : ((armsOf d c).filter (Passes old n)).length + left.length = (armsOf d c).length := List.length_eq_length_filter_add _ |>.symm
  have hleft : left.length ≤ 3 := by omega
  obtain ⟨hs, hlen, hf⟩ := sortArms_spec ((armsOf d c).filter (Passes old n))
  have hpass (h : Nat) : fired.filter (fun a => a.thresh = h) = (armsOf d c).filter fun a => Passes old n a && decide (a.thresh = h) := by
    rw [hf, List.filter_filter]
    exact List.filter_congr fun a _ => Bool.and_comm ..
  have he := decrement_eq (n := n) hr
  dsimp only at he
  rw [he, foldl_fireArm]
  obtain ⟨m, h, hmem⟩ := memOnly_recount d c (old - n) (w1.testBit 31 && !(old - n == 0 && w1.testBit 31)) (w1.testBit 30 || decide (old < n)) left
  obtain ⟨hcount, hword⟩ := recount_spec hd hc (new := old - n) (by omega)
    (w1.testBit 31 && !(old - n == 0 && w1.testBit 31)) (w1.testBit 30 || decide (old < n)) hleft
  split
  · next hfree =>
    have hfree' : old - n = 0 ∧ w1.testBit 31 = true := by simpa using hfree
    rw [hmem]
    obtain ⟨m', h', ps, r, l, hform, hrel⟩ := releaseHeld_form
      { d with mem := m, hostMem := h, msix := d.msix ++ (fired.filter fun a => a.kind = 1).map Arm.vec
               arms := d.arms ++ (fired.filter fun a => a.kind = 2).map Arm.tgt } (d.pnat (c + 8) 4 % 2 ^ 16) (d.pnat (c + 12) 4)
    rw [hform]
    refine ⟨fired, hpass, hs, (List.append_nil _).symm, rfl, fun p hp _ _ hst hq hi => ?_, fun hn => absurd hfree' hn⟩
    rw [hq, hi]
    exact hrel (List.any_eq_true.2 ⟨p, hp, by simp [hst, hq, hi]⟩)
  · next hfree =>
    have hfree' : ¬ (old - n = 0 ∧ w1.testBit 31 = true) := by simpa using hfree
    obtain ⟨-, hn, hu, -⟩ := word1_fields (heldv := w1.testBit 31 && !(old - n == 0 && w1.testBit 31))
      (under := w1.testBit 30 || decide (old < n)) (n := left.length) (by omega)
    rw [← hword] at hn hu
    refine ⟨fired, hpass, hs, ?_, ?_, fun p _ h0 h1 => absurd ⟨h0, h1⟩ hfree', fun _ => ⟨hcount, ?_, hu⟩⟩
    · rw [hmem]
      exact (List.append_nil _).symm
    · rw [hmem]
    · refine hn.trans ?_
      rw [show fired.length = ((armsOf d c).filter (Passes old n)).length from hlen]
      omega

end Sys2Proof.Machine
end

section
/-!
PROOF. The decrements that completed packets and fired arms make (R281, R282).
-/
namespace Sys2Proof.Machine

open Claims

/-- A decrement leaves the signals that wait as they are. -/
theorem signals_decrement (d : Device) (c n : Nat) : (d.decrement c n).signals = d.signals := by
  cases hr : d.ctrReserved c with
  | true => rw [decrement_reserved hr]
  | false =>
    obtain ⟨m, h, hmem⟩ := memOnly_recount d c (d.count c - n)
      ((d.pnat (c + 4) 4).testBit 31 && !(d.count c - n == 0 && (d.pnat (c + 4) 4).testBit 31))
      ((d.pnat (c + 4) 4).testBit 30 || decide (d.count c < n)) ((armsOf d c).filter fun a => !Passes (d.count c) n a)
    have he := decrement_eq (n := n) hr
    dsimp only at he
    rw [he, foldl_fireArm, hmem]
    split
    · obtain ⟨m', h', ps, r, l, hform, -⟩ := releaseHeld_form _ (d.pnat (c + 8) 4 % 2 ^ 16) (d.pnat (c + 12) 4)
      rw [hform]
    · rfl

/-- An interrupt that follows, where there is one. -/
def Device.raiseOpt (d : Device) (v : Option Nat) : Device := { d with msix := d.msix ++ v.toList }

theorem raiseOpt_none (d : Device) : d.raiseOpt none = d := by
  unfold Device.raiseOpt
  rw [Option.toList_none, List.append_nil]

theorem Counted.raiseOpt {d e b : Device} {c n : Nat} (h : Counted d e b c n []) (v : Option Nat) : Counted d (e.raiseOpt v) b c n v.toList := by
  obtain ⟨fired, h1, h2, h3, h4, h5, h6⟩ := h
  refine ⟨fired, h1, h2, ?_, h4, h5, h6⟩
  rw [← List.append_nil (b.msix ++ _), ← h3]
  rfl

theorem backed_ctr {s : State} {dev c : Nat} (hs : s.cpStop dev ((s.dev dev).ctrRanges c) = none) : Backed c 64 :=
  backed_of_served hs List.mem_cons_self (by decide)

theorem sigenDecrement_counts {s : State} (hcan : s.Canon) {dev k c n : Nat} {g : Signal} (hg : (s.dev dev).signals[k]? = some g)
    (hsc : g.sctr = some (c, n)) (hs : s.cpStop dev ((s.dev dev).ctrRanges c) = none) :
    ∃ t, exec (.sigenDecrement dev k) s = .next t ∧ (t.dev dev).signals = (s.dev dev).signals.eraseIdx k ∧
      ((s.dev dev).ctrReserved c = false → Counted (s.dev dev) (t.dev dev) (s.dev dev) c n g.intr.toList) ∧
      ((s.dev dev).ctrReserved c = true → SameBytes s t ∧ (t.dev dev).pkts = (s.dev dev).pkts ∧
        (t.dev dev).msix = (s.dev dev).msix ++ g.intr.toList) := by
  let d0 : Device := { s.dev dev with signals := (s.dev dev).signals.eraseIdx k }
  have hd0 : d0.canon := hcan.dev dev
  have he : exec (.sigenDecrement dev k) s = .next (s.onDev dev fun d =>
      ({ d with signals := d.signals.eraseIdx k }.decrement c n).raiseOpt g.intr) := by
    change execSigenDecrement dev k s = _
    unfold execSigenDecrement State.cpAccessOr
    simp only [hg, hsc, hs]
    cases g.intr with
    | none => exact congrArg Host.Outcome.next (State.onDev_congr (raiseOpt_none _).symm)
    | some v => rfl
  cases hr : (s.dev dev).ctrReserved c with
  | true =>
    have hd : d0.decrement c n = d0 := decrement_reserved hr
    have he' := he.trans (congrArg Host.Outcome.next (State.onDev_congr (g := fun _ => d0.raiseOpt g.intr) (congrArg (Device.raiseOpt · g.intr) hd)))
    refine ⟨_, he', ?_, nofun, fun _ => ⟨.onDev s dev rfl rfl, ?_, ?_⟩⟩ <;> rw [State.dev_onDev] <;> rfl
  | false =>
    refine ⟨_, he, ?_, fun _ => ?_, nofun⟩ <;> rw [State.dev_onDev]
    · exact signals_decrement d0 c n
    · exact (decrement_counted hd0 (backed_ctr hs) hr).raiseOpt g.intr

theorem armTargetDecrement_counts {s : State} (hcan : s.Canon) {dev c : Nat} {r : List Nat} (ha : (s.dev dev).arms = c :: r)
    (hs : s.cpStop dev ((s.dev dev).ctrRanges c) = none) : ∃ t, exec (.armTargetDecrement dev) s = .next t ∧
      ((s.dev dev).ctrReserved c = false → Counted (s.dev dev) (t.dev dev) { s.dev dev with arms := r } c 1 []) ∧
      ((s.dev dev).ctrReserved c = true → SameBytes s t ∧ (t.dev dev).arms = r) := by
  let d0 : Device := { s.dev dev with arms := r }
  have he : exec (.armTargetDecrement dev) s = .next (s.onDev dev fun d => { d with arms := r }.decrement c 1) := by
    change execArmTargetDecrement dev s = _
    unfold execArmTargetDecrement State.cpAccessOr
    simp only [ha, hs]
  cases hr : (s.dev dev).ctrReserved c with
  | true =>
    have hd : d0.decrement c 1 = d0 := decrement_reserved hr
    have he' := he.trans (congrArg Host.Outcome.next (State.onDev_congr (g := fun _ => d0) hd))
    refine ⟨_, he', nofun, fun _ => ⟨.onDev s dev rfl rfl, ?_⟩⟩
    rw [State.dev_onDev]
  | false =>
    refine ⟨_, he, fun _ => ?_, nofun⟩
    rw [State.dev_onDev]
    exact decrement_counted (d := d0) (hcan.dev dev) (backed_ctr hs) hr

end Sys2Proof.Machine
end

section
/-!
PROOF. Packets other than a LAUNCH as they are parsed: refused, held, or taken and performed (R275, R276, R278, R280, R281).
-/
namespace Sys2Proof.Machine

open Claims

/-! ### The parser's step -/

/-- The instruction that parses a packet of an OPCODE other than a LAUNCH's. -/
def packetInstr (op dev slot : Nat) : Instr :=
  if op = 3 then .packetSetlevel dev slot else if op = 4 then .packetArm dev slot else if op = 5 then .packetWrite dev slot else .packetNop dev slot

/-- What becomes of a packet other than a LAUNCH as it is parsed. -/
def Device.parsePacket (d : Device) (q idx : Nat) (w : BitVec 512) : Device :=
  if !pkHeaderOk w || !pkBodyOk w then d.stopQueue q 1 1 idx
  else if (d.takePkt q idx w none).alone q idx && (d.takePkt q idx w none).mayStart q idx w then (d.takePkt q idx w none).perform q idx w
  else d.takePkt q idx w none

/-- What the parser touches for such a packet. -/
def packetRanges (d : Device) (q idx : Nat) (w : BitVec 512) : List (Nat × Nat) :=
  (d.qdesc q, 64) :: (d.packetPa q idx, 64) :: (if pkHeaderOk w = true ∧ pkBodyOk w = true then pktRanges w else [])

theorem parse_takes {s : State} {dev slot q idx : Nat} {w : BitVec 512} (hn : (s.dev dev).nextPacket slot = some (q, idx, w)) {mine : Nat → Bool}
    (hm : mine (pkOp w) = true) (hs : s.cpStop dev (packetRanges (s.dev dev) q idx w) = none) :
    s.parse dev slot mine = .next (s.onDev dev fun d => d.parsePacket q idx w) := by
  obtain ⟨hv, hq, -⟩ := nextPacket_spec hn
  have hr : (s.dev dev).parseRanges slot (fun _ w => simpleRanges mine w) = packetRanges (s.dev dev) q idx w := by
    unfold Device.parseRanges packetRanges simpleRanges
    simp only [hv, hq, hn, hm, Bool.true_and, Bool.and_eq_true, Bool.not_true, Bool.false_eq_true, if_false]
  unfold State.parse State.cpAccess State.cpAccessOr
  rw [hr, hs]
  refine congrArg Host.Outcome.next (State.onDev_congr ?_)
  unfold Device.parseSimple
  simp only [hn, hm, Bool.not_true, Bool.false_eq_true, if_false]
  rfl

/-- A packet other than a LAUNCH is parsed by the instruction of its OPCODE, and an unknown one by NOP's (R276, R278). -/
theorem exec_packet {s : State} {dev slot q idx : Nat} {w : BitVec 512} (hn : (s.dev dev).nextPacket slot = some (q, idx, w)) (hop : pkOp w ≠ 2)
    (hs : s.cpStop dev (packetRanges (s.dev dev) q idx w) = none) :
    Becomes s (packetInstr (pkOp w) dev slot) dev ((s.dev dev).parsePacket q idx w) := by
  refine becomes_onDev (f := fun d => d.parsePacket q idx w) ?_
  unfold packetInstr
  split
  · next h =>
    change s.parse dev slot (· == 3) = _
    exact parse_takes hn (by simp [h]) hs
  split
  · next h =>
    change s.parse dev slot (· == 4) = _
    exact parse_takes hn (by simp [h]) hs
  split
  · next h =>
    change s.parse dev slot (· == 5) = _
    exact parse_takes hn (by simp [h]) hs
  · change s.parse dev slot (fun op => op == 1 || op == 0 || decide (5 < op)) = _
    refine parse_takes hn ?_ hs
    simp only [Bool.or_eq_true, beq_iff_eq, decide_eq_true_eq]
    omega

/-- No packet stands at the index that the parser takes. -/
theorem nextPacket_free {d : Device} {slot q idx : Nat} {w : BitVec 512} (h : d.nextPacket slot = some (q, idx, w)) :
    ∀ p ∈ d.pkts, ¬ (p.q = q ∧ p.idx = idx) := by
  obtain ⟨-, hq, hi⟩ := nextPacket_spec h
  unfold Device.nextPacket at h
  dsimp only at h
  split at h
  · next hc =>
    simp only [Bool.and_eq_true, Bool.not_eq_true', and_assoc] at hc
    obtain ⟨-, -, -, -, -, hbusy, -⟩ := hc
    rw [hq, hi] at hbusy
    intro p hp ⟨h1, h2⟩
    have := List.any_eq_false.1 hbusy p hp
    simp [h1, h2] at this
  · cases h

section
variable {d : Device} {q idx : Nat} {w : BitVec 512}

theorem parsePacket_bad (h : pkHeaderOk w = false ∨ pkBodyOk w = false) : d.parsePacket q idx w = d.stopQueue q 1 1 idx := by
  refine if_pos ?_
  rcases h with h | h <;> simp [h]

variable (hh : pkHeaderOk w = true) (hb : pkBodyOk w = true)
include hh hb

/-- A packet that is not alone on the ready list is taken and no more. -/
theorem parsePacket_waits (ha : (d.takePkt q idx w none).alone q idx = false) : d.parsePacket q idx w = d.takePkt q idx w none := by
  unfold Device.parsePacket
  rw [if_neg (by simp [hh, hb]), if_neg (by simp [ha])]

theorem parsePacket_starts (ha : (d.takePkt q idx w none).alone q idx = true) (hm : (d.takePkt q idx w none).mayStart q idx w = true) :
    d.parsePacket q idx w = (d.takePkt q idx w none).perform q idx w := by
  unfold Device.parsePacket
  rw [if_neg (by simp [hh, hb]), if_pos (by simp [ha, hm])]

end

/-! ### A packet that its counter does not let go (R280) -/

theorem takePkt_busy {d : Device} {q idx : Nat} {w : BitVec 512} (h : d.holdOf q idx w = .busy) (lid : Option Nat) :
    d.takePkt q idx w lid = d.stopQueue q 1 5 idx := by
  unfold Device.takePkt
  rw [h]

theorem takePkt_hold {d : Device} {q idx : Nat} {w : BitVec 512} (h : d.holdOf q idx w = .hold) (lid : Option Nat) :
    d.takePkt q idx w lid = Device.hold { d with pkts := d.pkts ++ [{ q := q, idx := idx, words := w, st := .held, launch := lid }] } q idx w := by
  unfold Device.takePkt
  rw [h]

theorem alone_of_notMem {d : Device} {q idx : Nat} (h : (q, idx) ∉ d.ready) : d.alone q idx = false := by
  unfold Device.alone
  refine beq_eq_false_iff_ne.2 fun e => h ?_
  rw [e]
  exact List.mem_cons_self

/-- A held packet's counter names a place, and the packet stands in it. -/
theorem pkHold_of {d : Device} {q idx : Nat} {w : BitVec 512} (h : d.holdOf q idx w ≠ .go) : pkHold w = true := by
  cases hk : pkHold w with
  | true => rfl
  | false =>
    refine absurd ?_ h
    unfold Device.holdOf
    simp [hk]

theorem hold_spec {d : Device} (hd : d.canon) {q idx : Nat} {w : BitVec 512} (hc : Backed (pkWctr w) 64) (hq : q < 65536) (hi : idx < 2 ^ 32) :
    MemOnly d (d.hold q idx w) ∧ ((d.hold q idx w).pnat (pkWctr w + 4) 4).testBit 31 = true ∧ (d.hold q idx w).pnat (pkWctr w + 8) 4 = q ∧
      (d.hold q idx w).pnat (pkWctr w + 12) 4 = idx := by
  generalize hu : nbit (d.pnat (pkWctr w + 4) 4) 30 = u
  generalize hn : nbits (d.pnat (pkWctr w + 4) 4) 0 2 = n
  have hn4 : n < 4 := by
    rw [← hn, nbits]
    omega
  have he : d.hold q idx w = ((d.pput (pkWctr w + 4) 4 (word1 true u n)).pput (pkWctr w + 8) 4 q).pput (pkWctr w + 12) 4 idx := by
    unfold Device.hold Device.putWord1
    dsimp only
    rw [hu, hn]
    rfl
  obtain ⟨hlt, -, -, h31⟩ := word1_fields (heldv := true) (under := u) hn4
  have b1 : Backed (pkWctr w + 4) 4 := hc.sub (by omega) (by omega)
  have b2 : Backed (pkWctr w + 8) 4 := hc.sub (by omega) (by omega)
  have b3 : Backed (pkWctr w + 12) 4 := hc.sub (by omega) (by omega)
  rw [he]
  refine ⟨((memOnly_pput ..).trans (memOnly_pput ..)).trans (memOnly_pput ..), ?_, ?_, ?_⟩
  · rw [pnat_pput_ne ((hd.pput ..).pput ..) b3 _ b1 (by omega), pnat_pput_ne (hd.pput ..) b2 _ b1 (by omega), pnat_pput_same hd b1,
      show 256 ^ 4 = 2 ^ 32 from rfl, Nat.mod_eq_of_lt hlt, h31]
  · rw [pnat_pput_ne ((hd.pput ..).pput ..) b3 _ b2 (by omega), pnat_pput_same (hd.pput ..) b2]
    exact Nat.mod_eq_of_lt (by omega)
  · rw [pnat_pput_same ((hd.pput ..).pput ..) b3]
    exact Nat.mod_eq_of_lt (by omega)

/-! ### A packet that is taken (R278, R282, R283) -/

/-- The device with a packet last in its lists. -/
def Device.taken (d : Device) (q idx : Nat) (w : BitVec 512) : Device :=
  { d with pkts := d.pkts ++ [{ q := q, idx := idx, words := w, st := .ready }], ready := d.ready ++ [(q, idx)] }

/-- The signals that wait, with a completed packet's behind them. -/
def withSignal (w : BitVec 512) (l : List Signal) : List Signal :=
  if pkSigen w = true ∨ pkIntr w = true then l ++ [{ sctr := if pkSigen w then some (pkSctr w, recFld w 1 0 16) else none
                                                     intr := if pkIntr w then some (recFld w 1 16 11) else none }] else l

section
variable {d : Device} {q idx : Nat} {w : BitVec 512}

theorem takePkt_taken (hg : d.holdOf q idx w = .go) : d.takePkt q idx w none = if isArm w then d.taken q idx w else (d.taken q idx w).parsed q idx := by
  unfold Device.takePkt
  rw [hg]
  rfl

theorem takePkt_memOnly (hg : d.holdOf q idx w = .go) : MemOnly (d.taken q idx w) (d.takePkt q idx w none) := by
  rw [takePkt_taken hg]
  split
  · exact .refl _
  · exact memOnly_parsed ..

/-- A packet with nothing to wait for starts as it is parsed. -/
theorem parsePacket_taken (hh : pkHeaderOk w = true) (hb : pkBodyOk w = true) (hr : d.ready = []) (hg : d.holdOf q idx w = .go)
    (hw : ∀ p ∈ d.pkts, p.q = q → pkBarrier w = false ∧ pkOp w ≠ 3) :
    d.parsePacket q idx w = (if isArm w then d.taken q idx w else (d.taken q idx w).parsed q idx).perform q idx w := by
  obtain ⟨m, h, e⟩ := takePkt_memOnly hg
  rw [← takePkt_taken hg]
  refine parsePacket_starts hh hb ?_ ?_
  · unfold Device.alone
    rw [e]
    change (d.ready ++ [(q, idx)] == [(q, idx)]) = true
    rw [hr]
    exact beq_self_eq_true _
  · unfold Device.mayStart
    rw [e]
    change (!((pkBarrier w || pkOp w == 3) && earlier q idx (d.pkts ++ [_]))) = true
    rw [Bool.not_eq_true']
    by_cases hp : ∃ p ∈ d.pkts, p.q = q
    · obtain ⟨p, hp, hq⟩ := hp
      obtain ⟨h1, h2⟩ := hw p hp hq
      simp [h1, h2]
    · rw [earlier_last (p := { q := q, idx := idx, words := w, st := .ready }) (fun x hx hq => hp ⟨x, hx, hq⟩) rfl, Bool.and_false]

variable (hf : ∀ p ∈ d.pkts, ¬ (p.q = q ∧ p.idx = idx))
include hf

theorem filter_taken : (d.taken q idx w).pkts.filter (fun p => !(p.q == q && p.idx == idx)) = d.pkts := by
  unfold Device.taken
  dsimp only
  rw [List.filter_append, List.filter_eq_self.2 fun p hp => ?_]
  · simp
  · have := hf p hp
    simp only [Bool.not_eq_true', Bool.and_eq_false_iff, beq_eq_false_iff_ne]
    exact not_and_or.1 this

/-- A taken packet completes: it leaves, and its signal waits. -/
theorem finishPkt_taken {e : Device} (hp : e.pkts = (d.taken q idx w).pkts) : ∃ r, e.finishPkt q idx =
    { e with pkts := d.pkts, ready := r, signals := withSignal w e.signals } := by
  have hfind : e.pkts.find? (fun p => p.q == q && p.idx == idx) = some { q := q, idx := idx, words := w, st := .ready } := by
    rw [hp]
    unfold Device.taken
    dsimp only
    rw [List.find?_append, List.find?_eq_none.2 fun x hx k => hf x hx (by simpa using k), Option.none_or]
    exact List.find?_cons_of_pos (by simp)
  have hfilter : e.pkts.filter (fun p => !(p.q == q && p.idx == idx)) = d.pkts := by rw [hp, filter_taken hf]
  unfold Device.finishPkt withSignal
  simp only [hfind, hfilter, Bool.or_eq_true]
  split <;> exact ⟨_, rfl⟩

end

end Sys2Proof.Machine
end

section
/-!
PROOF. What NOP, SETLEVEL, WRITE and ARM do as they start (R95, R276, R281, R282).
-/
namespace Sys2Proof.Machine

open Claims

/-! ### The end of a packet (R282) -/

/-- From x to e a packet with the words w has completed: the packets `ps` are left, its signal waits, and memory and what has fired are as they were. -/
structure Completes (x e : Device) (w : BitVec 512) (ps : List Pkt) : Prop where
  mem : e.mem = x.mem
  host : e.hostMem = x.hostMem
  base : e.qtbase = x.qtbase
  cycle : e.cycle = x.cycle
  signals : e.signals = withSignal w x.signals
  pkts : e.pkts = ps
  msix : e.msix = x.msix
  arms : e.arms = x.arms

theorem finishPkt_completes {d x : Device} {q idx : Nat} {w : BitVec 512} (hf : ∀ p ∈ d.pkts, ¬ (p.q = q ∧ p.idx = idx))
    (hp : x.pkts = (d.taken q idx w).pkts) : Completes x (x.finishPkt q idx) w d.pkts := by
  obtain ⟨r, hr⟩ := finishPkt_taken hf hp
  rw [hr]
  constructor <;> rfl

namespace Completes
variable {x e : Device} {w : BitVec 512} {ps : List Pkt} (h : Completes x e w ps)
include h

theorem qword (q k : Nat) : e.qword q k = x.qword q k := qword_congr h.mem h.host h.base h.cycle q k

theorem pnat (a n : Nat) : e.pnat a n = x.pnat a n := by
  unfold Device.pnat Device.pread Device.memRead
  rw [h.mem, h.host, h.cycle]

theorem armAt (c a : Nat) : e.armAt c a = x.armAt c a := by
  unfold Device.armAt
  simp only [h.pnat]

theorem narm (c : Nat) : e.narm c = x.narm c := by
  unfold Device.narm
  rw [h.pnat]

theorem desc {d : Device} {q : Nat} (k : DescOnly d x q) : DescOnly d e q := k.trans (.of_eq h.mem h.host h.base)

end Completes

/-- What only writes memory keeps the signals, the packets and what has fired. -/
theorem MemOnly.keeps {d e : Device} (h : MemOnly d e) : e.signals = d.signals ∧ e.pkts = d.pkts ∧ e.msix = d.msix ∧ e.arms = d.arms := by
  obtain ⟨_, _, rfl⟩ := h
  exact ⟨rfl, rfl, rfl, rfl⟩

/-! ### NOP, SETLEVEL and WRITE -/

section
variable (x : Device) (q idx : Nat) {w : BitVec 512}

theorem perform_nop_eq (hop : pkOp w = 1) : x.perform q idx w = x.finishPkt q idx := by
  unfold Device.perform
  simp only [hop]

theorem perform_setLevel_eq (hop : pkOp w = 3) : x.perform q idx w =
    (x.setQword q 0 (x.qword q 0 - nbits (x.qword q 0) 27 2 * 2 ^ 27 + recFld w 6 0 2 * 2 ^ 27)).finishPkt q idx := by
  unfold Device.perform
  simp only [hop]
  rfl

theorem perform_write_eq (hop : pkOp w = 5) : x.perform q idx w = (x.pput (rec64 w 6).toNat 8 (rec64 w 8).toNat).finishPkt q idx := by
  unfold Device.perform
  simp only [hop]

end

/-- The level of a queue and nothing else of its word 0 is written (R95). -/
theorem level_fields {v l : Nat} (hv : v < 2 ^ 32) (hl : l < 4) : v - nbits v 27 2 * 2 ^ 27 + l * 2 ^ 27 < 2 ^ 32 ∧
    (v - nbits v 27 2 * 2 ^ 27 + l * 2 ^ 27) / 2 ^ 27 % 4 = l ∧
    ∀ b, b ≠ 27 → b ≠ 28 → (v - nbits v 27 2 * 2 ^ 27 + l * 2 ^ 27).testBit b = v.testBit b := by
  unfold nbits
  refine ⟨by omega, by omega, fun b h27 h28 => ?_⟩
  have hlow : (v - v / 2 ^ 27 % 2 ^ 2 * 2 ^ 27 + l * 2 ^ 27) % 2 ^ 27 = v % 2 ^ 27 := by omega
  have hhigh : (v - v / 2 ^ 27 % 2 ^ 2 * 2 ^ 27 + l * 2 ^ 27) / 2 ^ 29 = v / 2 ^ 29 := by omega
  rcases Nat.lt_or_ge b 27 with hb | hb
  · have := congrArg (Nat.testBit · b) hlow
    simpa only [Nat.testBit_mod_two_pow, decide_eq_true hb, Bool.true_and] using this
  · have := congrArg (Nat.testBit · (b - 29)) hhigh
    simpa only [Nat.testBit_div_two_pow, show b - 29 + 29 = b by omega] using this

section
variable {d : Device} {q idx : Nat} {w : BitVec 512} (hd : d.canon) (hq : q < 65536) (ho : DescOpen d q) (hi : d.rptr q = idx)
include hd ho

omit ho in
theorem canon_taken_parsed : ((d.taken q idx w).parsed q idx).canon := canon_parsed (d := d.taken q idx w) hd q idx

include hi in
theorem taken_parsed_rptr : ((d.taken q idx w).parsed q idx).qword q 5 = (idx + 1) % 2 ^ 32 :=
  parsed_rptr (d := d.taken q idx w) hd ho hi

theorem taken_parsed_word {j : Nat} (hj : j < 16) (h5 : j ≠ 5) : ((d.taken q idx w).parsed q idx).qword q j = d.qword q j :=
  parsed_word (d := d.taken q idx w) hd ho hj h5

include hq in
theorem taken_parsed_desc : DescOnly d ((d.taken q idx w).parsed q idx) q := by
  have h : DescOnly d (d.taken q idx w) q := .of_eq rfl rfl rfl
  exact h.trans (descOnly_parsed (d := d.taken q idx w) hd hq ho idx)

variable (hf : ∀ p ∈ d.pkts, ¬ (p.q = q ∧ p.idx = idx))
include hq hi hf

theorem perform_nop (hop : pkOp w = 1) {e : Device} (he : ((d.taken q idx w).parsed q idx).perform q idx w = e) :
    DescOnly d e q ∧ e.qword q 5 = (idx + 1) % 2 ^ 32 ∧ e.signals = withSignal w d.signals ∧ e.pkts = d.pkts := by
  have hx := taken_parsed_desc (idx := idx) (w := w) hd hq ho
  have h5 := taken_parsed_rptr (w := w) hd ho hi
  obtain ⟨ks, kp, -⟩ := (memOnly_parsed (d.taken q idx w) q idx).keeps
  generalize (d.taken q idx w).parsed q idx = x at he hx h5 ks kp
  have hc := finishPkt_completes hf kp
  rw [← he, perform_nop_eq x q idx hop]
  exact ⟨hc.desc hx, (hc.qword q 5).trans h5, by rw [hc.signals, ks]; rfl, hc.pkts⟩

theorem perform_setLevel (hop : pkOp w = 3) {e : Device} (he : ((d.taken q idx w).parsed q idx).perform q idx w = e) :
    DescOnly d e q ∧ e.qword q 5 = (idx + 1) % 2 ^ 32 ∧ e.qword q 0 / 2 ^ 27 % 4 = recFld w 6 0 2 ∧
      (∀ b, b ≠ 27 → b ≠ 28 → (e.qword q 0).testBit b = (d.qword q 0).testBit b) ∧ e.signals = withSignal w d.signals := by
  have hx := taken_parsed_desc (idx := idx) (w := w) hd hq ho
  have h5 := taken_parsed_rptr (w := w) hd ho hi
  have h0 := taken_parsed_word (idx := idx) (w := w) hd ho (j := 0) (by decide) (by decide)
  have hcan := canon_taken_parsed (q := q) (idx := idx) (w := w) hd
  obtain ⟨ks, kp, -⟩ := (memOnly_parsed (d.taken q idx w) q idx).keeps
  generalize (d.taken q idx w).parsed q idx = x at he hx h5 h0 hcan ks kp
  obtain ⟨ls, lp, -⟩ := (memOnly_setQword x q 0 (x.qword q 0 - nbits (x.qword q 0) 27 2 * 2 ^ 27 + recFld w 6 0 2 * 2 ^ 27)).keeps
  have hxo := hx.descOpen ho
  have hl := hx.trans (descOnly_setQword hcan hq hxo (k := 0) (by decide) (x.qword q 0 - nbits (x.qword q 0) 27 2 * 2 ^ 27 + recFld w 6 0 2 * 2 ^ 27))
  obtain ⟨f1, f2, f3⟩ := level_fields (qword_lt d q 0) (show recFld w 6 0 2 < 4 from BitVec.isLt _)
  rw [h0] at ls lp hl
  have hc := finishPkt_completes hf (lp.trans kp)
  have hw {j : Nat} (hj : j < 16) := (hc.qword q j).trans (qword_setQword hcan hxo hj (by decide) _)
  have hw0 := (hw (j := 0) (by decide)).trans (if_pos rfl)
  rw [Nat.mod_eq_of_lt f1] at hw0
  rw [← he, perform_setLevel_eq x q idx hop, h0]
  refine ⟨hc.desc hl, ((hw (j := 5) (by decide)).trans (if_neg (by decide))).trans h5, ?_, fun b h1 h2 => ?_, ?_⟩
  · rw [hw0, f2]
  · rw [hw0, f3 b h1 h2]
  · rw [hc.signals, ls, ks]
    rfl

theorem perform_write (hop : pkOp w = 5) (hb : Backed (rec64 w 6).toNat 8) {e : Device} (he : ((d.taken q idx w).parsed q idx).perform q idx w = e) :
    e.pnat (rec64 w 6).toNat 8 = (rec64 w 8).toNat ∧ e.signals = withSignal w d.signals ∧
      ((rec64 w 6).toNat + 8 ≤ d.qdesc q ∨ d.qdesc q + 64 ≤ (rec64 w 6).toNat → e.qword q 5 = (idx + 1) % 2 ^ 32) := by
  have hx := taken_parsed_desc (idx := idx) (w := w) hd hq ho
  have h5 := taken_parsed_rptr (w := w) hd ho hi
  have hcan := canon_taken_parsed (q := q) (idx := idx) (w := w) hd
  have hin := qdesc_inside hq ho
  obtain ⟨ks, kp, -⟩ := (memOnly_parsed (d.taken q idx w) q idx).keeps
  generalize (d.taken q idx w).parsed q idx = x at he hx h5 hcan ks kp
  obtain ⟨ls, lp, -⟩ := (memOnly_pput x (rec64 w 6).toNat 8 (rec64 w 8).toNat).keeps
  have hc := finishPkt_completes hf (lp.trans kp)
  have hv := pnat_pput_same hcan hb (rec64 w 8).toNat
  rw [show 256 ^ 8 = 2 ^ 64 from rfl, Nat.mod_eq_of_lt (rec64 w 8).isLt] at hv
  rw [← he, perform_write_eq x q idx hop]
  refine ⟨(hc.pnat ..).trans hv, by rw [hc.signals, ls, ks]; rfl, fun hout => (hc.qword q 5).trans (Eq.trans ?_ h5)⟩
  unfold Device.qword
  rw [qdesc_pput]
  have hqd := hx.qdesc
  exact pnat_pput_ne hcan hb _ (.inl (by omega)) (by omega)

end

end Sys2Proof.Machine
end

section
/-!
PROOF. ARM as it starts (R276, R281).
-/
namespace Sys2Proof.Machine

open Claims

/-! ### What an ARM finds at its counter -/

/-- The arm that a packet carries. -/
def packetArm (w : BitVec 512) : Arm := ⟨recFld w 8 0 32, recFld w 9 30 2, recFld w 9 16 11, (rec64 w 10).toNat⟩

section
variable {x : Device} {w : BitVec 512}

theorem arm_reserved (hr : x.ctrReserved (rec64 w 6).toNat = true) : x.arm w = none := if_pos hr

variable (hr : x.ctrReserved (rec64 w 6).toNat = false)
include hr

theorem arm_fires (h : x.count (rec64 w 6).toNat ≤ recFld w 8 0 32) : x.arm w = some (x.fireArm (packetArm w)) := by
  unfold Device.arm
  rw [if_neg (by simp [hr])]
  exact if_pos h

variable (h : recFld w 8 0 32 < x.count (rec64 w 6).toNat)
include h

theorem arm_full (hn : x.narm (rec64 w 6).toNat = 3) : x.arm w = none := by
  unfold Device.arm
  rw [if_neg (by simp [hr]), if_neg (Nat.not_le.2 h)]
  exact if_pos hn

theorem arm_records (hn : x.narm (rec64 w 6).toNat ≠ 3) : ∃ heldv under, x.arm w =
    some ((x.putArm (rec64 w 6).toNat (x.narm (rec64 w 6).toNat) (packetArm w)).pput ((rec64 w 6).toNat + 4) 4
      (word1 heldv under (x.narm (rec64 w 6).toNat + 1))) := by
  refine ⟨nbit (x.pnat ((rec64 w 6).toNat + 4) 4) 31, nbit (x.pnat ((rec64 w 6).toNat + 4) 4) 30, ?_⟩
  unfold Device.arm
  rw [if_neg (by simp [hr]), if_neg (Nat.not_le.2 h)]
  exact if_neg hn

end

/-! ### What the packet does -/

section
variable (x : Device) (q idx : Nat) {w : BitVec 512} (hop : pkOp w = 4)
include hop

theorem perform_arm_some {y : Device} (h : x.arm w = some y) : x.perform q idx w = (y.parsed q idx).finishPkt q idx := by
  unfold Device.perform
  simp only [hop, h]

theorem perform_arm_none (h : x.arm w = none) : x.perform q idx w = x.refusePkt q idx 6 := by
  unfold Device.perform
  simp only [hop, h]

end

/-- An arm that fires changes what has fired and nothing else. -/
theorem fireArm_form (x : Device) (r : Arm) : ∃ i a, x.fireArm r = { x with msix := i, arms := a } ∧ (r.kind = 1 → i = x.msix ++ [r.vec]) ∧
    (r.kind = 2 → a = x.arms ++ [r.tgt]) := by
  unfold Device.fireArm
  split
  · next h => exact ⟨_, _, rfl, fun _ => rfl, fun h2 => by omega⟩
  split
  · next h => exact ⟨_, _, rfl, fun h1 => by omega, fun _ => rfl⟩
  · next h1 h2 => exact ⟨_, _, rfl, fun h => absurd h h1, fun h => absurd h h2⟩

/-- The parser's step past a packet changes no number outside the descriptor. -/
theorem parsed_pnat {y : Device} (hy : y.canon) {q idx b m : Nat} (ho : DescOpen y q) (hb : Backed b m)
    (hout : b + m ≤ y.qdesc q ∨ y.qdesc q + 64 ≤ b) : (y.parsed q idx).pnat b m = y.pnat b m := by
  unfold Device.parsed
  split
  · exact pnat_pput_ne hy (by unfold DescOpen at ho; unfold Backed; omega) _ hb (by omega)
  · rfl

/-- An arm is what the numbers in it say. -/
theorem armAt_congr {x y : Device} {c a : Nat} (hc : Backed c 64) (ha : a < 3)
    (h : ∀ {b m : Nat}, Backed b m → c + 16 ≤ b → b + m ≤ c + 64 → y.pnat b m = x.pnat b m) : y.armAt c a = x.armAt c a := by
  have hp {b m : Nat} (h1 : c + 16 ≤ b) (h2 : b + m ≤ c + 64) : y.pnat b m = x.pnat b m := h (hc.sub (by omega) h2) h1 h2
  unfold Device.armAt
  dsimp only
  rw [hp (by omega) (by omega), hp (by omega) (by omega), hp (by omega) (by omega)]

section
variable {d : Device} {q idx : Nat} {w : BitVec 512} (hd : d.canon) (hq : q < 65536) (ho : DescOpen d q) (hi : d.rptr q = idx)
  (hf : ∀ p ∈ d.pkts, ¬ (p.q = q ∧ p.idx = idx)) (hop : pkOp w = 4)
include hd hq ho hop

include hi in
/-- An ARM that finds its counter full, or its counter's reserved bits set, stops its queue with ARM_FULL. -/
theorem perform_arm_stops (h : (d.taken q idx w).arm w = none) : Stops d ((d.taken q idx w).perform q idx w) q 6 idx := by
  rw [perform_arm_none _ q idx hop h]
  have hlt : idx < 2 ^ 32 := hi ▸ qword_lt d q 5
  let x : Device := { d.taken q idx w with pkts := (d.taken q idx w).pkts.filter fun p => !(p.q == q && p.idx == idx)
                                           ready := (d.taken q idx w).ready.filter fun r => r != (q, idx) }
  exact (stopQueue_stops (d := x) hd hq ho (by decide) hlt).of_same rfl rfl rfl rfl rfl

include hi hf

/-- An ARM whose threshold the count has reached fires at once. -/
theorem perform_arm_fires (h : (d.taken q idx w).arm w = some ((d.taken q idx w).fireArm (packetArm w))) {e : Device}
    (he : (d.taken q idx w).perform q idx w = e) : DescOnly d e q ∧ e.qword q 5 = (idx + 1) % 2 ^ 32 ∧ e.signals = withSignal w d.signals ∧
      (∀ j < 16, j ≠ 5 → e.qword q j = d.qword q j) ∧
      ((packetArm w).kind = 1 → e.msix = d.msix ++ [(packetArm w).vec]) ∧ ((packetArm w).kind = 2 → e.arms = d.arms ++ [(packetArm w).tgt]) := by
  obtain ⟨i, a, hform, hi1, ha2⟩ := fireArm_form (d.taken q idx w) (packetArm w)
  rw [perform_arm_some _ q idx hop h, hform] at he
  let x : Device := { d.taken q idx w with msix := i, arms := a }
  have hdx : DescOnly d x q := .of_eq rfl rfl rfl
  have hcx : x.canon := hd
  have hox : DescOpen x q := ho
  have hwx (j : Nat) : x.qword q j = d.qword q j := qword_congr rfl rfl rfl rfl q j
  obtain ⟨ks, kp, ki, ka⟩ := (memOnly_parsed x q idx).keeps
  have hc := finishPkt_completes (d := d) (w := w) hf kp
  have h5 := parsed_rptr hcx hox ((hwx 5).trans hi)
  have hd5 := hdx.trans (descOnly_parsed hcx hq hox idx)
  have hj (j : Nat) (hj : j < 16) (hn : j ≠ 5) := (parsed_word (idx := idx) hcx hox hj hn).trans (hwx j)
  rw [← he]
  exact ⟨hc.desc hd5, (hc.qword q 5).trans h5, hc.signals.trans (congrArg (withSignal w) ks), fun j h16 hn => (hc.qword q j).trans (hj j h16 hn),
    fun hk => (hc.msix.trans ki).trans (hi1 hk), fun hk => (hc.arms.trans ka).trans (ha2 hk)⟩

/-- An ARM whose threshold lies ahead is recorded where its counter has room. -/
theorem perform_arm_records (hb : Backed (rec64 w 6).toNat 64)
    (hout : (rec64 w 6).toNat + 64 ≤ d.qdesc q ∨ d.qdesc q + 64 ≤ (rec64 w 6).toNat) (hn : d.narm (rec64 w 6).toNat < 3) {heldv under : Bool}
    (h : (d.taken q idx w).arm w = some (((d.taken q idx w).putArm (rec64 w 6).toNat (d.narm (rec64 w 6).toNat) (packetArm w)).pput
      ((rec64 w 6).toNat + 4) 4 (word1 heldv under (d.narm (rec64 w 6).toNat + 1)))) {e : Device}
    (he : (d.taken q idx w).perform q idx w = e) : e.signals = withSignal w d.signals ∧ e.qword q 5 = (idx + 1) % 2 ^ 32 ∧
      e.narm (rec64 w 6).toNat = d.narm (rec64 w 6).toNat + 1 ∧ e.armAt (rec64 w 6).toNat (d.narm (rec64 w 6).toNat) = packetArm w := by
  rw [perform_arm_some _ q idx hop h] at he
  have hct : (d.taken q idx w).canon := hd
  generalize (rec64 w 6).toNat = c at *
  generalize hnn : d.narm c = n at *
  have hcan := canon_putArm hct c n (packetArm w)
  have b1 : Backed (c + 4) 4 := hb.sub (by omega) (by omega)
  obtain ⟨hw, hnarm, -⟩ := word1_fields (heldv := heldv) (under := under) (n := n + 1) (by omega)
  have harm := armAt_putArm hct hb hn (packetArm w) (BitVec.isLt _) (BitVec.isLt _) (BitVec.isLt _) (BitVec.isLt _)
  have hy1 := (pnat_pput_same hcan b1 (word1 heldv under (n + 1))).trans (Nat.mod_eq_of_lt hw)
  have hy2 {b m : Nat} (hbm : Backed b m) (ho : b + m ≤ c + 4 ∨ c + 8 ≤ b) := pnat_pput_ne hcan b1 (word1 heldv under (n + 1)) hbm (by omega)
  have hcy := hcan.pput (c + 4) 4 (word1 heldv under (n + 1))
  obtain ⟨m, h, hmem⟩ := (memOnly_putArm (d.taken q idx w) c n (packetArm w)).trans (memOnly_pput _ (c + 4) 4 (word1 heldv under (n + 1)))
  have hya := (armAt_congr hb hn fun hbm hl _ => hy2 hbm (by omega)).trans harm
  have hyo {b m : Nat} (hbm : Backed b m) (ho : b + m ≤ c ∨ c + 64 ≤ b) := (hy2 hbm (by omega)).trans
    (pnat_putArm hct hb hn (packetArm w) hbm (by omega))
  generalize ((d.taken q idx w).putArm c n (packetArm w)).pput (c + 4) 4 (word1 heldv under (n + 1)) = y at *
  have hdesc : y.qdesc q = d.qdesc q := by rw [hmem]; rfl
  have hoy : DescOpen y q := by
    unfold DescOpen
    rw [hdesc]
    exact ho
  have hin := qdesc_inside hq ho
  have hry : y.rptr q = idx := by
    rw [← hi]
    unfold Device.rptr Device.qword
    rw [hdesc]
    exact hyo (.inl (by omega)) (by omega)
  obtain ⟨ks, kp, -⟩ := (memOnly_parsed y q idx).keeps
  have hc := finishPkt_completes (d := d) (w := w) hf (kp.trans (by rw [hmem]))
  have hz {b m : Nat} (hbm : Backed b m) (h1 : c ≤ b) (h2 : b + m ≤ c + 64) := parsed_pnat (idx := idx) hcy hoy hbm (by rw [hdesc]; omega)
  rw [← he]
  refine ⟨?_, (hc.qword q 5).trans (parsed_rptr hcy hoy hry), ?_, ?_⟩
  · rw [hc.signals, ks, hmem]
    rfl
  · rw [hc.narm, Device.narm, hz b1 (by omega) (by omega), hy1, hnarm]
  · rw [hc.armAt, armAt_congr hb hn fun hbm h1 h2 => hz hbm (by omega) h2, hya]

end

end Sys2Proof.Machine
end

section
/-!
PROOF. The parser's step on the packets other than a LAUNCH, for each outcome (R275 to R281).
-/
namespace Sys2Proof.Machine

open Claims

/-! ### What a well-formed packet touches -/

theorem mem_pktRanges_hold {w : BitVec 512} (h : pkHold w = true) : (pkWctr w, 64) ∈ pktRanges w := by
  unfold pktRanges
  rw [if_pos h]
  exact List.mem_append_left _ List.mem_cons_self

theorem mem_pktRanges_arm {w : BitVec 512} (h : pkOp w = 4) : ((rec64 w 6).toNat, 64) ∈ pktRanges w := by
  unfold pktRanges
  simp [h]

theorem mem_pktRanges_write {w : BitVec 512} (h : pkOp w = 5) : ((rec64 w 6).toNat, 8) ∈ pktRanges w := by
  unfold pktRanges
  simp [h]

/-- The counter of a well-formed ARM is aligned. -/
theorem arm_aligned {w : BitVec 512} (hb : pkBodyOk w = true) (h : pkOp w = 4) : (rec64 w 6).toNat % 64 = 0 := by
  unfold pkBodyOk at hb
  simp only [h, armOk, ctrOk, Bool.and_eq_true, beq_iff_eq, and_assoc] at hb
  exact hb.2.1

/-- The state of the parser as it takes a packet other than a LAUNCH. -/
structure Parses (s : State) (dev slot q idx : Nat) (w : BitVec 512) : Prop where
  canon : s.Canon
  next : (s.dev dev).nextPacket slot = some (q, idx, w)
  queue : q < 65536
  op : pkOp w ≠ 2
  served : s.cpStop dev (packetRanges (s.dev dev) q idx w) = none

namespace Parses
variable {s : State} {dev slot q idx : Nat} {w : BitVec 512} (h : Parses s dev slot q idx w)
include h

theorem becomes : Becomes s (packetInstr (pkOp w) dev slot) dev ((s.dev dev).parsePacket q idx w) := exec_packet h.next h.op h.served

theorem descOpen : DescOpen (s.dev dev) q := (descOpen_of h.served List.mem_cons_self).1

theorem rptr : (s.dev dev).rptr q = idx := (nextPacket_spec h.next).2.2

theorem idx_lt : idx < 2 ^ 32 := h.rptr ▸ qword_lt (s.dev dev) q 5

theorem stops {err : Nat} (he : err < 256) (hp : (s.dev dev).parsePacket q idx w = (s.dev dev).stopQueue q 1 err idx) :
    StopsQueue s (packetInstr (pkOp w) dev slot) dev q err idx := by
  have hb := h.becomes
  rw [hp] at hb
  exact hb.stops (stopQueue_stops (h.canon.dev dev) h.queue h.descOpen he h.idx_lt)

/-- A packet with a bad header or body stops its queue. -/
theorem bad (hb : pkHeaderOk w = false ∨ pkBodyOk w = false) : StopsQueue s (packetInstr (pkOp w) dev slot) dev q 1 idx :=
  h.stops (by decide) (parsePacket_bad hb)

variable (hh : pkHeaderOk w = true) (hb : pkBodyOk w = true)
include hh hb

theorem backed {a n : Nat} (hm : (a, n) ∈ pktRanges w) (hn : 0 < n) : Backed a n := by
  refine backed_of_served h.served (List.mem_cons_of_mem _ (List.mem_cons_of_mem _ ?_)) hn
  rwa [if_pos ⟨hh, hb⟩]

/-- A packet whose counter holds another stops its queue. -/
theorem busy (hr : (q, idx) ∉ (s.dev dev).ready) (hg : (s.dev dev).holdOf q idx w = .busy) :
    StopsQueue s (packetInstr (pkOp w) dev slot) dev q 5 idx := by
  refine h.stops (by decide) ?_
  have ht := takePkt_busy hg none
  obtain ⟨m, k, i, hf⟩ := stopQueue_form (s.dev dev) q 1 5 idx
  refine (parsePacket_waits hh hb ?_).trans ht
  rw [ht, hf]
  exact alone_of_notMem hr

/-- A packet whose counter is not 0 is held. -/
theorem held (hr : (q, idx) ∉ (s.dev dev).ready) (hg : (s.dev dev).holdOf q idx w = .hold) :
    ∃ t, exec (packetInstr (pkOp w) dev slot) s = .next t ∧ (t.dev dev).ready = (s.dev dev).ready ∧
      (t.dev dev).pkts = (s.dev dev).pkts ++ [{ q := q, idx := idx, words := w, st := .held }] ∧
      ((t.dev dev).pnat (pkWctr w + 4) 4).testBit 31 = true ∧ (t.dev dev).pnat (pkWctr w + 8) 4 = q ∧
      (t.dev dev).pnat (pkWctr w + 12) 4 = idx % 2 ^ 32 := by
  have ht := takePkt_hold hg none
  have hc := h.backed hh hb (mem_pktRanges_hold (pkHold_of (by rw [hg]; decide))) (by decide)
  obtain ⟨⟨m, k, hm⟩, h1, h2, h3⟩ := hold_spec (d := { s.dev dev with pkts := (s.dev dev).pkts ++ [{ q := q, idx := idx, words := w, st := .held }] })
    (h.canon.dev dev) hc h.queue h.idx_lt
  have hp := (parsePacket_waits hh hb (by rw [ht, hm]; exact alone_of_notMem hr)).trans ht
  obtain ⟨t, e, hd, -⟩ := h.becomes
  rw [hp] at hd
  refine ⟨t, e, ?_, ?_, by rw [hd, h1], by rw [hd, h2], by rw [hd, h3, Nat.mod_eq_of_lt h.idx_lt]⟩
  · rw [hd, hm]
  · rw [hd, hm]

/-! ### Packets that start as they are parsed -/

variable (hr : (s.dev dev).ready = []) (hg : (s.dev dev).holdOf q idx w = .go)
  (hw : ∀ p ∈ (s.dev dev).pkts, p.q = q → pkBarrier w = false ∧ pkOp w ≠ 3)
include hr hg hw

theorem starts : Becomes s (packetInstr (pkOp w) dev slot) dev
    ((if isArm w then (s.dev dev).taken q idx w else ((s.dev dev).taken q idx w).parsed q idx).perform q idx w) :=
  parsePacket_taken hh hb hr hg hw ▸ h.becomes

theorem starts_other (ho : pkOp w ≠ 4) : Becomes s (packetInstr (pkOp w) dev slot) dev ((((s.dev dev).taken q idx w).parsed q idx).perform q idx w) := by
  have hs := h.starts hh hb hr hg hw
  rwa [if_neg (by simpa [isArm] using ho)] at hs

theorem starts_arm (ho : pkOp w = 4) : Becomes s (packetInstr (pkOp w) dev slot) dev (((s.dev dev).taken q idx w).perform q idx w) := by
  have hs := h.starts hh hb hr hg hw
  rwa [if_pos (by simp [isArm, ho])] at hs

theorem nop (ho : pkOp w = 1) : ∃ t, exec (packetInstr (pkOp w) dev slot) s = .next t ∧ Outside s t dev q ∧
    (t.dev dev).qword q 5 = (idx + 1) % 2 ^ 32 ∧ (t.dev dev).signals = withSignal w (s.dev dev).signals ∧ (t.dev dev).pkts = (s.dev dev).pkts := by
  obtain ⟨hd, hrest⟩ := perform_nop (h.canon.dev dev) h.queue h.descOpen h.rptr (nextPacket_free h.next) ho rfl
  obtain ⟨t, e, hout, ht⟩ := (h.starts_other hh hb hr hg hw (by omega)).outside hd
  rw [← ht] at hrest
  exact ⟨t, e, hout, hrest⟩

theorem setLevel (ho : pkOp w = 3) : ∃ t, exec (packetInstr (pkOp w) dev slot) s = .next t ∧ Outside s t dev q ∧
    (t.dev dev).qword q 5 = (idx + 1) % 2 ^ 32 ∧ (t.dev dev).qword q 0 / 2 ^ 27 % 4 = recFld w 6 0 2 ∧
    (∀ b, b ≠ 27 → b ≠ 28 → ((t.dev dev).qword q 0).testBit b = ((s.dev dev).qword q 0).testBit b) ∧
    (t.dev dev).signals = withSignal w (s.dev dev).signals := by
  obtain ⟨hd, hrest⟩ := perform_setLevel (h.canon.dev dev) h.queue h.descOpen h.rptr (nextPacket_free h.next) ho rfl
  obtain ⟨t, e, hout, ht⟩ := (h.starts_other hh hb hr hg hw (by omega)).outside hd
  rw [← ht] at hrest
  exact ⟨t, e, hout, hrest⟩

theorem write (ho : pkOp w = 5) : ∃ t, exec (packetInstr (pkOp w) dev slot) s = .next t ∧
    (t.dev dev).pnat (rec64 w 6).toNat 8 = (rec64 w 8).toNat ∧ (t.dev dev).signals = withSignal w (s.dev dev).signals ∧
    ((rec64 w 6).toNat + 8 ≤ (s.dev dev).qdesc q ∨ (s.dev dev).qdesc q + 64 ≤ (rec64 w 6).toNat →
      (t.dev dev).qword q 5 = (idx + 1) % 2 ^ 32) := by
  obtain ⟨t, e, hd, -⟩ := h.starts_other hh hb hr hg hw (by omega)
  exact ⟨t, e, perform_write (h.canon.dev dev) h.queue h.descOpen h.rptr (nextPacket_free h.next) ho
    (h.backed hh hb (mem_pktRanges_write ho) (by decide)) hd.symm⟩

/-! ### ARM -/

variable (ho : pkOp w = 4)
include ho

theorem arm_stops (ha : ((s.dev dev).taken q idx w).arm w = none) : StopsQueue s (packetInstr (pkOp w) dev slot) dev q 6 idx :=
  (h.starts_arm hh hb hr hg hw ho).stops (perform_arm_stops (h.canon.dev dev) h.queue h.descOpen h.rptr ho ha)

/-- An ARM that finds its counter's reserved bits set, or its counter full, is refused. -/
theorem arm_refused (ha : (s.dev dev).ctrReserved (rec64 w 6).toNat = true ∨ ((s.dev dev).ctrReserved (rec64 w 6).toNat = false ∧
    recFld w 8 0 32 < (s.dev dev).count (rec64 w 6).toNat ∧ (s.dev dev).narm (rec64 w 6).toNat = 3)) :
    StopsQueue s (packetInstr (pkOp w) dev slot) dev q 6 idx := by
  refine h.arm_stops hh hb hr hg hw ho ?_
  rcases ha with ha | ⟨h1, h2, h3⟩
  · exact arm_reserved (x := (s.dev dev).taken q idx w) ha
  · exact arm_full (x := (s.dev dev).taken q idx w) h1 h2 h3

variable (hc : (s.dev dev).ctrReserved (rec64 w 6).toNat = false)
include hc

theorem arm_passed (ha : (s.dev dev).count (rec64 w 6).toNat ≤ recFld w 8 0 32) : ∃ t, exec (packetInstr (pkOp w) dev slot) s = .next t ∧
    Outside s t dev q ∧ (t.dev dev).qword q 5 = (idx + 1) % 2 ^ 32 ∧ (t.dev dev).signals = withSignal w (s.dev dev).signals ∧
    (∀ j < 16, j ≠ 5 → (t.dev dev).qword q j = (s.dev dev).qword q j) ∧
    (recFld w 9 30 2 = 1 → (t.dev dev).msix = (s.dev dev).msix ++ [recFld w 9 16 11]) ∧
    (recFld w 9 30 2 = 2 → (t.dev dev).arms = (s.dev dev).arms ++ [(rec64 w 10).toNat]) := by
  obtain ⟨hd, hrest⟩ := perform_arm_fires (h.canon.dev dev) h.queue h.descOpen h.rptr (nextPacket_free h.next) ho
    (arm_fires (x := (s.dev dev).taken q idx w) hc ha) rfl
  obtain ⟨t, e, hout, ht⟩ := (h.starts_arm hh hb hr hg hw ho).outside hd
  rw [← ht] at hrest
  exact ⟨t, e, hout, hrest⟩

theorem arm_recorded (ha : recFld w 8 0 32 < (s.dev dev).count (rec64 w 6).toNat) (hn : (s.dev dev).narm (rec64 w 6).toNat < 3)
    (hd : (rec64 w 6).toNat ≠ (s.dev dev).qdesc q) : ∃ t, exec (packetInstr (pkOp w) dev slot) s = .next t ∧
      (t.dev dev).signals = withSignal w (s.dev dev).signals ∧ (t.dev dev).qword q 5 = (idx + 1) % 2 ^ 32 ∧
      (t.dev dev).narm (rec64 w 6).toNat = (s.dev dev).narm (rec64 w 6).toNat + 1 ∧
      (t.dev dev).armAt (rec64 w 6).toNat ((s.dev dev).narm (rec64 w 6).toNat) = packetArm w := by
  have h64 := arm_aligned hb ho
  have hq64 := qdesc_mod (s.dev dev) q
  obtain ⟨heldv, under, harm⟩ := arm_records (x := (s.dev dev).taken q idx w) hc ha (Nat.ne_of_lt hn)
  obtain ⟨t, e, ht, -⟩ := h.starts_arm hh hb hr hg hw ho
  exact ⟨t, e, perform_arm_records (h.canon.dev dev) h.queue h.descOpen h.rptr (nextPacket_free h.next) ho
    (h.backed hh hb (mem_pktRanges_arm ho) (by decide)) (by omega) hn harm ht.symm⟩

end Parses

end Sys2Proof.Machine

namespace Sys2Proof
open Sys2Proof.Machine Sys2Proof.Claims

/-- Settles O52: a host write and a doorbell go by what they write, a packet by the outcome of its parsing, and a decrement by the arms that it fires. -/
theorem queuesAndCounters : Obligations.QueuesAndCounters := by
  unfold Obligations.QueuesAndCounters
  intro s dev q slot idx pa k c n data w bytes g r hcan d word desc outside state stopped bell wp good op ev served addr thresh kind vec tgt sg counted
  refine ⟨fun hg hp => ⟨hostMemoryWrite_stores hg hp hcan, fun e fl => hostMemoryWrite_drops hg hp⟩, fun hq hs => ?_, fun hn hq hop hs => ?_,
    fun hg hsc hs => sigenDecrement_counts hcan hg hsc hs, fun ha hs => armTargetDecrement_counts hcan ha hs⟩
  · have hb := exec_bell data hq hs
    have ho := (descOpen_of hs List.mem_cons_self).1
    refine ⟨fun hbad => ?_, fun hgood => ?_⟩
    · have hr : d.ring q data = d.stopQueue q 1 7 (d.rptr q) := if_pos (Bool.not_eq_false _ ▸ (dbBad_iff d q data).not.2 hbad)
      rw [hr] at hb
      exact hb.stops (stopQueue_stops (hcan.dev dev) hq ho (by decide) (qword_lt d q 5))
    · obtain ⟨hrung, hfree, hmapped⟩ := ring_rung (hcan.dev dev) hq ho hgood
      obtain ⟨t, ht, hout, he⟩ := hb.outside hrung.desc
      rw [← he] at hrung hfree hmapped
      exact ⟨t, ht, hout, hrung.wptr, hrung.rptr, hrung.restarted, hrung.kept, hfree, hmapped⟩
  · have h : Parses s dev slot q idx w := ⟨hcan, hn, hq, hop, hs⟩
    refine ⟨h.bad, fun hh hb hr hg hw => ⟨h.nop hh hb hr hg hw, h.setLevel hh hb hr hg hw, h.write hh hb hr hg hw, fun ho => ?_⟩, h.busy, h.held⟩
    exact ⟨fun hc => h.arm_refused hh hb hr hg hw ho (.inl hc), fun hc => ⟨h.arm_passed hh hb hr hg hw ho hc, h.arm_recorded hh hb hr hg hw ho hc,
      fun ha h3 => h.arm_refused hh hb hr hg hw ho (.inr ⟨hc, ha, h3⟩)⟩⟩

end Sys2Proof
end
